-- ==== Sys2Proof/Word.lean ====
section
/-! DEFINITION. The word types of the LX-8 (R1, R28, R30): bit 0 is the least significant bit of a
word, and a multi-byte value is stored little-endian. -/

namespace Sys2Proof

/-- A 64-bit word: an x register, a program counter, a token payload, a memory word. -/
abbrev Word := BitVec 64

/-- A byte of memory. -/
abbrev Byte := BitVec 8

/-- A vector register: 1,024 bits (R18). -/
abbrev VWord := BitVec 1024

/-- A generation number (R186). -/
abbrev Gen := BitVec 16

end Sys2Proof
end

