-- ==== Sys2Proof/Syntax.lean ====
section
/-! DEFINITION. The steps of the LX-8 as abstract syntax: one constructor of `Instr` for each row of
the table of operations and events (spec/opcode_table.json). Three kinds of step stand in it: L-set
instructions (R28-R50), G-set nodes (R51-R54), and the events of the device's engines, of its host
and of its package (95_what_each_step_holds.md), which have no encoding. -/

namespace Sys2Proof

/-! ## Operand kinds -/

/-- An x register number (R30). -/
abbrev XReg := BitVec 5
/-- A v register number (R18). -/
abbrev VReg := BitVec 5
/-- A stream register number q0-q7 (R219). -/
abbrev QReg := BitVec 3
/-- An operand descriptor number md0-md7 (R161). -/
abbrev MdReg := BitVec 3
/-- A tile descriptor or route-table entry number (R157, R160). -/
abbrev TdReg := BitVec 3

/-- The eight format codes (R28). -/
inductive Fmt where
  | int | fp32 | bf16 | fp16 | e4m3 | e5m2 | lq4 | int8
  deriving DecidableEq, Repr, Inhabited

/-- The four scopes of memory ordering (R42, R232). -/
inductive Scope where
  | th | cv | dv | sy
  deriving DecidableEq, Repr, Inhabited

/-- The ordering of an atomic (R44). -/
inductive AmoOrd where
  | relaxed | acq | rel | ar
  deriving DecidableEq, Repr, Inhabited

/-- The kind of a `fence.sc` (R45). -/
inductive FenceKind where
  | acq | rel | ar
  deriving DecidableEq, Repr, Inhabited

/-- An access size of 1, 2, 4 or 8 bytes (R41, R42). -/
inductive Size where
  | b | h | w | d
  deriving DecidableEq, Repr, Inhabited

/-- A typed buffer (R41). -/
inductive Buf where
  | w | a | c
  deriving DecidableEq, Repr, Inhabited

/-- The storage space of `gen.rd` and `gen.scrub` (R50). -/
inductive Space where
  | w | a | c | x | v | md | td | qr
  deriving DecidableEq, Repr, Inhabited

/-- The stealing domain field of `fork` (R49): the queue's default, or one of five domains. -/
inductive Domain where
  | dflt | slot | core | cove | quad | device
  deriving DecidableEq, Repr, Inhabited

/-- RV64I loads (major opcode LOAD). -/
inductive LoadOp where
  | lb | lh | lw | ld | lbu | lhu | lwu
  deriving DecidableEq, Repr, Inhabited

/-- RV64I immediate operations (major opcode OP-IMM). -/
inductive ImmOp where
  | addi | slti | sltiu | xori | ori | andi | slli | srli | srai
  deriving DecidableEq, Repr, Inhabited

/-- RV64I 32-bit immediate operations (major opcode OP-IMM-32). -/
inductive Imm32Op where
  | addiw | slliw | srliw | sraiw
  deriving DecidableEq, Repr, Inhabited

/-- RV64I and M register operations (major opcode OP). -/
inductive RegOp where
  | add | sub | sll | slt | sltu | xor | srl | sra | or | and
  | mul | mulh | mulhsu | mulhu | div | divu | rem | remu
  deriving DecidableEq, Repr, Inhabited

/-- RV64I and M 32-bit register operations (major opcode OP-32). -/
inductive Reg32Op where
  | addw | subw | sllw | srlw | sraw | mulw | divw | divuw | remw | remuw
  deriving DecidableEq, Repr, Inhabited

/-- The six branches (major opcode BRANCH). -/
inductive BranchOp where
  | beq | bne | blt | bge | bltu | bgeu
  deriving DecidableEq, Repr, Inhabited

/-- The counters of `srp.stat` (R48). -/
inductive SrpCtr where
  | probe | replay | compute | forced | record | evict
  deriving DecidableEq, Repr, Inhabited

/-! ## G-set nodes -/

/-- The predicate field of a node (R51). -/
inductive Pred where
  | none | onTrue | onFalse
  deriving DecidableEq, Repr, Inhabited

/-- The action of a token (R51). -/
inductive Act where
  | normal | sticky | purge | null
  deriving DecidableEq, Repr, Inhabited

/-- The fields of a G-set instruction word beside its opcode (R51). Targets (R52) and the immediate
(R53) are kept as the bits the word holds; their accessors stand in Operands. -/
structure GNode where
  fmt  : Fmt
  any  : Bool
  pred : Pred
  act  : Act
  t0   : BitVec 10
  t1   : BitVec 10
  tm   : BitVec 10
  imm  : BitVec 18
  deriving DecidableEq, Repr, Inhabited

/-! ## Tokens, contexts and the keys the events carry -/

/-- A context: frame number and frame generation (R58). -/
structure Ctx where
  frame : BitVec 24
  fgen  : BitVec 8
  deriving DecidableEq, Repr, Inhabited

/-- The architectural token (R58). -/
structure Token where
  payload : Word
  ftag    : Fmt
  ctx     : Ctx
  iter    : BitVec 16
  dx      : BitVec 6
  dy      : BitVec 6
  dslot   : BitVec 3
  didx    : BitVec 7
  dop     : BitVec 2
  act     : Act
  deriving DecidableEq, Repr, Inhabited

/-- A region: its tenant and the index of its region-table entry (R448). -/
structure RKey where
  vmid : Nat
  ridx : Nat
  deriving DecidableEq, Repr, Inhabited

/-- A block instance (R293): region, block number, context, iteration, and a serial number that
tells a later instance of one key from a retired earlier one. -/
structure IKey where
  blk  : Nat
  ctx  : Ctx
  iter : BitVec 16
  ser  : Nat
  deriving DecidableEq, Repr, Inhabited

/-- A message in flight (R119): target and sender slot, payload and the sender's tenant. -/
structure Msg where
  target  : Nat
  sender  : Nat
  payload : Word
  vmid    : Nat
  deriving DecidableEq, Repr, Inhabited

/-- An uncorrectable or corrected error met by the patrol scrubber (R199): the storage object by the
DEBUG selector of R478, a matching entry of a cell by its key (R296), or a memory line. -/
inductive EccHit where
  | corrected
  | object (sel : Word)
  | entry (cell slot idx : Nat) (ctx : Ctx) (iter : Option (BitVec 16))
  | line (pa : Nat)
  deriving DecidableEq, Repr, Inhabited

/-- A management command packet's arguments (R474). -/
structure MPkt where
  a0   : Word
  a1   : Word
  a2   : Word
  a3   : Word
  a4   : Word
  done : Word
  resp : Word
  deriving DecidableEq, Repr, Inhabited

/-! ## The steps -/

/-- One constructor per row of the table of operations and events. -/
inductive Instr where
  -- RV64I, M, Zicsr, Zifencei (R32, R118)
  | load (op : LoadOp) (rd rs1 : XReg) (imm : BitVec 12)
  | store (size : Size) (rs2 rs1 : XReg) (imm : BitVec 12)
  | opImm (op : ImmOp) (rd rs1 : XReg) (imm : BitVec 12)
  | opImm32 (op : Imm32Op) (rd rs1 : XReg) (imm : BitVec 12)
  | op (op : RegOp) (rd rs1 rs2 : XReg)
  | op32 (op : Reg32Op) (rd rs1 rs2 : XReg)
  | lui (rd : XReg) (imm : BitVec 20)
  | auipc (rd : XReg) (imm : BitVec 20)
  | jal (rd : XReg) (off : BitVec 20)
  | jalr (rd rs1 : XReg) (imm : BitVec 12)
  | branch (op : BranchOp) (rs1 rs2 : XReg) (off : BitVec 12)
  | fence (rd rs1 : XReg) (imm : BitVec 12)
  | fenceI (rd rs1 : XReg) (imm : BitVec 12)
  | ecall
  | ebreak
  | csrrw (rd rs1 : XReg) (csr : BitVec 12)
  | csrrs (rd rs1 : XReg) (csr : BitVec 12)
  | csrrc (rd rs1 : XReg) (csr : BitVec 12)
  | csrrwi (rd : XReg) (zimm : BitVec 5) (csr : BitVec 12)
  | csrrsi (rd : XReg) (zimm : BitVec 5) (csr : BitVec 12)
  | csrrci (rd : XReg) (zimm : BitVec 5) (csr : BitVec 12)
  -- VEC (R37, R38)
  | vadd (m : Bool) (f : Fmt) (vd vs1 vs2 : VReg)
  | vsub (m : Bool) (f : Fmt) (vd vs1 vs2 : VReg)
  | vmul (m : Bool) (f : Fmt) (vd vs1 vs2 : VReg)
  | vfma (m : Bool) (f : Fmt) (vd vs1 vs2 : VReg)
  | vmin (m : Bool) (f : Fmt) (vd vs1 vs2 : VReg)
  | vmax (m : Bool) (f : Fmt) (vd vs1 vs2 : VReg)
  | vand (m : Bool) (f : Fmt) (vd vs1 vs2 : VReg)
  | vor (m : Bool) (f : Fmt) (vd vs1 vs2 : VReg)
  | vxor (m : Bool) (f : Fmt) (vd vs1 vs2 : VReg)
  | vsll (m : Bool) (f : Fmt) (vd vs1 vs2 : VReg)
  | vsrl (m : Bool) (f : Fmt) (vd vs1 vs2 : VReg)
  | vsra (m : Bool) (f : Fmt) (vd vs1 vs2 : VReg)
  | vclt (m : Bool) (f : Fmt) (vd vs1 vs2 : VReg)
  | vcle (m : Bool) (f : Fmt) (vd vs1 vs2 : VReg)
  | vceq (m : Bool) (f : Fmt) (vd vs1 vs2 : VReg)
  | vsel (f : Fmt) (vd vs1 vs2 : VReg)
  | vdiv (m : Bool) (f : Fmt) (vd vs1 vs2 : VReg)
  | vsqrt (m : Bool) (vd vs1 : VReg)
  | vrcp (m : Bool) (vd vs1 : VReg)
  | vexp2 (m : Bool) (vd vs1 : VReg)
  | vlog2 (m : Bool) (vd vs1 : VReg)
  | vrsum (m : Bool) (f : Fmt) (vd vs1 : VReg)
  | vrmax (m : Bool) (f : Fmt) (vd vs1 : VReg)
  | vrmin (m : Bool) (f : Fmt) (vd vs1 : VReg)
  | vperm (m : Bool) (f : Fmt) (vd vs1 vs2 : VReg)
  | vslide (m : Bool) (f : Fmt) (vd vs1 : VReg) (rs2 : XReg)
  | vsplat (m : Bool) (f : Fmt) (vd : VReg) (rs1 : XReg)
  | vxtr (f : Fmt) (rd : XReg) (vs1 : VReg) (rs2 : XReg)
  | vcvt (m : Bool) (src dst : Fmt) (vd vs1 : VReg)
  | vq (m : Bool) (f : Fmt) (vd vs1 : VReg) (rs2 : XReg)
  | vdq (m : Bool) (f : Fmt) (vd vs1 : VReg) (rs2 : XReg)
  | vrng (m : Bool) (vd : VReg)
  | vscan (m : Bool) (f : Fmt) (vd vs1 : VReg)
  | vmov (m : Bool) (f : Fmt) (vd vs1 : VReg)
  -- MEM (R41-R45)
  | vld (m : Bool) (vd : VReg) (rs1 : XReg)
  | vst (m : Bool) (vs : VReg) (rs1 : XReg)
  | vlds (m : Bool) (sz : Size) (vd : VReg) (rs1 rs2 : XReg)
  | vsts (m : Bool) (sz : Size) (vs : VReg) (rs1 rs2 : XReg)
  | vlx (m : Bool) (sz : Size) (scl : Bool) (vd : VReg) (rs1 : XReg) (vs2 : VReg)
  | vsx (m : Bool) (sz : Size) (scl : Bool) (vs : VReg) (rs1 : XReg) (vs2 : VReg)
  | vldS (vd : VReg) (rs1 : XReg)
  | bufld (buf : Buf) (vd : VReg) (rs1 : XReg)
  | bufst (buf : Buf) (vs : VReg) (rs1 : XReg)
  | vldB (b : BitVec 4) (vd : VReg) (rs1 rs2 : XReg)
  | ldS (rd rs1 : XReg)
  | ldSe (rd rs1 : XReg)
  | ldB (dbl : Bool) (b : BitVec 4) (rd rs1 rs2 : XReg)
  | ldAcq (sz : Size) (sc : Scope) (rd rs1 : XReg)
  | stRel (sz : Size) (sc : Scope) (rs2 rs1 : XReg)
  | feSet (rs1 : XReg)
  | feClr (rs1 : XReg)
  | amoAdd (o : AmoOrd) (dbl : Bool) (sc : Scope) (rd rs1 rs2 : XReg)
  | amoAnd (o : AmoOrd) (dbl : Bool) (sc : Scope) (rd rs1 rs2 : XReg)
  | amoOr (o : AmoOrd) (dbl : Bool) (sc : Scope) (rd rs1 rs2 : XReg)
  | amoXor (o : AmoOrd) (dbl : Bool) (sc : Scope) (rd rs1 rs2 : XReg)
  | amoMin (o : AmoOrd) (dbl : Bool) (sc : Scope) (rd rs1 rs2 : XReg)
  | amoMax (o : AmoOrd) (dbl : Bool) (sc : Scope) (rd rs1 rs2 : XReg)
  | amoMinu (o : AmoOrd) (dbl : Bool) (sc : Scope) (rd rs1 rs2 : XReg)
  | amoMaxu (o : AmoOrd) (dbl : Bool) (sc : Scope) (rd rs1 rs2 : XReg)
  | amoSwap (o : AmoOrd) (dbl : Bool) (sc : Scope) (rd rs1 rs2 : XReg)
  | amoCas (o : AmoOrd) (dbl : Bool) (sc : Scope) (rd rs1 rs2 : XReg)
  | amoFadd (o : AmoOrd) (sc : Scope) (rd rs1 rs2 : XReg)
  | fenceSc (k : FenceKind) (sc : Scope)
  | tideAdv (rs1 : XReg)
  | tideRd (rd rs1 : XReg)
  | lkTake (sc : Scope) (rd rs1 : XReg)
  | lkGive (sc : Scope) (rs1 : XReg)
  | qGet (q : QReg) (rd : XReg)
  | vqGet (q : QReg) (vd : VReg)
  | qStat (q : QReg) (rd : XReg)
  | qClose (q : QReg)
  | pref (l2 : Bool) (w : Bool) (rs1 rs2 : XReg)
  -- MXE (R46-R48)
  | mxDesc (md : MdReg) (rs1 rs2 : XReg)
  | mxTcfg (td : TdReg) (rs1 : XReg)
  | mxTcfgRoute (td : TdReg) (rs1 : XReg)
  | mxZero (td : TdReg)
  | mxMma (td : TdReg) (a b : MdReg)
  | mxMmq (td : TdReg) (a w s : MdReg)
  | mxMms (td : TdReg) (a b : MdReg) (vm : VReg) (q : BitVec 2)
  | mxDrn (td : TdReg) (rs1 : XReg)
  | mxRd (td : TdReg) (vd : VReg) (rs1 : XReg)
  | mxWr (td : TdReg) (vs : VReg) (rs1 : XReg)
  | mxWait (td : TdReg)
  | mxRowp (td : TdReg) (rs1 : XReg)
  | mxStat (td : TdReg) (rd : XReg)
  | cpPost (vs : VReg) (rs1 : XReg)
  | cpResume (vs : VReg) (rs1 : XReg)
  | cpCancel (vs : VReg) (rs1 : XReg)
  | cpBind (rs1 rs2 : XReg)
  | post (rs1 rs2 : XReg)
  | srpProbe (rd rs1 rs2 : XReg)
  | srpRec (rs1 rs2 : XReg)
  | srpInv (rs1 : XReg)
  | srpInvAll
  | srpStat (c : SrpCtr) (rd : XReg)
  -- SYS (R49)
  | fork (d : Domain) (rs1 rs2 : XReg)
  | join (rs1 : XReg)
  | xcall (rs1 : XReg)
  | xret (rs1 : XReg)
  | frmNew (rd rs1 : XReg)
  | frmFree (rs1 : XReg)
  | msgSend (rs1 rs2 : XReg)
  | msgMsk
  | msgUnm
  | msgRet
  | wait
  | sleepT (rs1 : XReg)
  | yield
  | genRd (sp : Space) (rd rs1 : XReg)
  | genNew (rd : XReg)
  | genScrub (sp : Space) (rs1 : XReg)
  | tret
  | gctxRes (rs1 : XReg)
  | gctxKill (rs1 : XReg)
  | plcFind (rd rs1 : XReg)
  | plcLoad (rd rs1 rs2 : XReg)
  | plcRel (rs1 : XReg)
  | cfgWr (rs1 rs2 : XReg)
  | cfgWrRestamp (rs1 rs2 : XReg)
  | cfgChk (rd rs1 : XReg)
  -- G-set nodes (R54)
  | gAdd (n : GNode) | gSub (n : GNode) | gMul (n : GNode) | gMulh (n : GNode)
  | gDiv (n : GNode) | gRem (n : GNode) | gAnd (n : GNode) | gOr (n : GNode)
  | gXor (n : GNode) | gShl (n : GNode) | gShr (n : GNode) | gSra (n : GNode)
  | gMin (n : GNode) | gMax (n : GNode)
  | gTlt (n : GNode) | gTle (n : GNode) | gTeq (n : GNode) | gTne (n : GNode)
  | gTltu (n : GNode) | gTleu (n : GNode)
  | gFadd (n : GNode) | gFsub (n : GNode) | gFmul (n : GNode) | gFfma (n : GNode)
  | gFmin (n : GNode) | gFmax (n : GNode) | gFdiv (n : GNode) | gFsqrt (n : GNode)
  | gFrcp (n : GNode) | gFexp2 (n : GNode) | gFlog2 (n : GNode)
  | gFlt (n : GNode) | gFle (n : GNode) | gFeq (n : GNode)
  | gCvt (n : GNode) | gQcvt (n : GNode) | gDq (n : GNode) | gRng (n : GNode)
  | gMov (n : GNode) | gMovi (n : GNode) | gFrd (n : GNode) | gFwr (n : GNode)
  | gNull (n : GNode)
  | gSteer (n : GNode) | gMerge (n : GNode) | gOmerge (n : GNode) | gBro (n : GNode)
  | gCall (n : GNode) | gRet (n : GNode) | gCcall (n : GNode) | gTrap (n : GNode)
  | gInx (n : GNode) | gFnew (n : GNode) | gFfree (n : GNode) | gTget (n : GNode)
  | gTset (n : GNode) | gPurge (n : GNode)
  | gLd (n : GNode) | gSt (n : GNode) | gLdb (n : GNode) | gLda (n : GNode)
  | gStrl (n : GNode) | gIrd (n : GNode) | gIwr (n : GNode) | gFence (n : GNode)
  | gPref (n : GNode)
  | gAmo (n : GNode) | gLkt (n : GNode) | gLkg (n : GNode) | gMcomb (n : GNode)
  | gPost (n : GNode) | gGat (n : GNode) | gSct (n : GNode) | gCpy (n : GNode)
  | gTadv (n : GNode) | gProbe (n : GNode) | gRec (n : GNode)
  | gSgen (n : GNode) | gRpt (n : GNode) | gCnt (n : GNode) | gCtok (n : GNode)
  | gDly (n : GNode) | gMxp (n : GNode) | gFin (n : GNode)
  | gTnow (n : GNode) | gTgate (n : GNode)
  -- events of the slots and their cores
  | rotationBoundary (core : Nat)
  | dequePop (slot : Nat)
  | dequeSteal (slot : Nat)
  | joinwinExpiry (slot : Nat)
  | spillSaveComplete (slot : Nat)
  | spillRestore (slot : Nat)
  | messageArrival (m : Msg)
  | msgOverflowWrite (m : Msg) (bound : Gen)
  | messageDelivery (slot : Nat)
  | sleepDeadline (slot : Nat)
  | missFillArrival (slot : Nat)
  | tlbWalkComplete (slot : Nat)
  | divComplete (slot : Nat)
  | coalesceDrainTimeout (core : Nat) (line : Nat)
  | meshBurstMerge (cove : Nat)
  | l2WriteForward (cove : Nat) (line : Nat)
  | l1dLineExpiry (core : Nat) (line : Nat)
  | syncLoadComplete (slot : Nat)
  | boundedLoadComplete (slot : Nat)
  | tideTmo (slot : Nat)
  | amoComplete (slot : Nat)
  | lockGranted (slot : Nat)
  | mxComplete (core : Nat)
  | patrolScrub (hits : List EccHit)
  -- events of the engines
  | copyStart (cove : Nat)
  | copyBeat (cove : Nat)
  | copyComplete (cove : Nat) (id : Nat)
  | copyPause (cove : Nat) (id : Nat)
  | srpVerdict (slot : Nat)
  | replayCopyComplete (quad : Nat) (vmid : Nat) (key : Nat)
  | recordCopyComplete (quad : Nat) (vmid : Nat) (key : Nat)
  -- events of the graph
  | tokenMatch (rk : RKey) (t : Token) (src : Option IKey)
  | matchRefill (rk : RKey) (x y : Nat)
  | countToken (rk : RKey) (ik : IKey) (idx : Nat) (null : Bool)
  | instanceCommit (rk : RKey) (ik : IKey)
  | commitToken (rk : RKey) (ik : IKey) (cell : Nat)
  | gFaultReport (rk : RKey) (ik : IKey)
  | buoyTokenArrival (rk : RKey) (buoy : Nat) (t : Token)
  | moorDelivery (vmid : Nat) (desc : Word)
  | controlTokenArrival (rk : RKey) (ik : IKey) (idx : Nat) (finish : Bool)
  | streamLoopStart (rk : RKey) (ik : IKey) (cell : Nat)
  | streamLoopFinish (rk : RKey) (ik : IKey) (cell : Nat)
  | tgateDeadline (rk : RKey) (ik : IKey) (idx : Nat)
  | handoverToken (rk : RKey) (x y : Nat)
  | placementRequest (quad : Nat)
  | overlayLoadComplete (rk : RKey) (x y : Nat) (slot : Nat)
  | cellSave (rk : RKey) (x y : Nat)
  | slackWaveEnd (rk : RKey)
  | regionRestore (rk : RKey)
  -- events of the host and of management
  | packetIngress (q : Nat) (slot : Nat) (w : Word)
  | lTaskLaunch (q : Nat)
  | gLaunch (q : Nat)
  | hostMemoryAccess (write : Bool) (pa : Nat) (n : Nat) (data : List Byte)
  | tsyncWrite (ptm : Word) (t1588 : Word)
  | registerWriteIgnored (off : Nat)
  | tenantCreate (q : Nat) (p : MPkt)
  | tenantDestroy (q : Nat) (p : MPkt)
  | queueBind (q : Nat) (p : MPkt)
  | queueUnbind (q : Nat) (p : MPkt)
  | windowMap (q : Nat) (p : MPkt)
  | tideSet (q : Nat) (p : MPkt)
  | tlbShoot (q : Nat) (p : MPkt)
  | genWrap (q : Nat) (p : MPkt)
  | genWrapComplete
  | fenceUnit (q : Nat) (p : MPkt)
  | islandSet (q : Nat) (p : MPkt)
  | islandFreqChange (island : Nat)
  | powerCap (q : Nat) (p : MPkt)
  | timeSet (q : Nat) (p : MPkt)
  | timeCfg (q : Nat) (p : MPkt)
  | imageVerify (q : Nat) (p : MPkt)
  | attestQuote (q : Nat) (p : MPkt)
  | fwUpdate (q : Nat) (p : MPkt)
  | debugRead (q : Nat) (p : MPkt)
  | debugWrite (q : Nat) (p : MPkt)
  | infoRead (q : Nat) (p : MPkt)
  | countRead (q : Nat) (p : MPkt)
  | traceCfg (q : Nat) (p : MPkt)
  | regionSwap (q : Nat) (p : MPkt)
  | badcmd (q : Nat) (cmd : Byte) (p : MPkt)
  | powerSample (mw : Nat) (temps : List Int)
  | powerTrace
  | ptmExchange (ptm : Word)
  | ppsEdge
  | todMessage (bytes : List Byte)
  | timeHoldover
  | coldReset
  | warmReset
  | supplyOutOfLimits
  | illegalInstruction (w : BitVec 32)
  | fetchPageX (va : Word)
  | placerComplete (slot : Nat)
  | memoryReply (rk : RKey) (ik : IKey) (idx : Nat)
  | msixUnmask (fn : Nat) (vec : Nat)
  | queueWindowWrite (q : Nat) (off : Nat) (data : List Byte)
  deriving DecidableEq, Repr

end Sys2Proof
end

