-- ==== Sys2Proof/WellFormed.lean ====
section
/-! DEFINITION. Which terms of `Instr` are steps of the machine: format codes in the set the operation
accepts (R38), immediates within their fields (R34), node fields obeying the per-word conditions of an
image check (R57, R106, R260, R310, R323, R377, R409), and event parameters naming units that exist
(R8). The decoder answers well-formed terms only. -/

namespace Sys2Proof

/-! ## Sets of format codes (R38) -/

/-- N = {0, 1, 2, 3, 7}. -/
def Fmt.inN : Fmt → Bool
  | .int | .fp32 | .bf16 | .fp16 | .int8 => true
  | .e4m3 | .e5m2 | .lq4 => false

/-- I = {0, 7}. -/
def Fmt.inI : Fmt → Bool
  | .int | .int8 => true
  | _ => false

/-- {1, 2, 3}: the formats the floating-point units compute in. -/
def Fmt.inF : Fmt → Bool
  | .fp32 | .bf16 | .fp16 => true
  | _ => false

/-! ## Node fields (R51-R53) -/

/-- The format code as a number (R28). -/
def Fmt.code : Fmt → BitVec 3
  | .int => 0 | .fp32 => 1 | .bf16 => 2 | .fp16 => 3 | .e4m3 => 4 | .e5m2 => 5 | .lq4 => 6 | .int8 => 7

/-- A format code read back (R28): every value has a meaning. -/
def Fmt.ofCode (c : BitVec 3) : Fmt :=
  match c.toNat with
  | 0 => .int | 1 => .fp32 | 2 => .bf16 | 3 => .fp16 | 4 => .e4m3 | 5 => .e5m2 | 6 => .lq4 | _ => .int8

/-- A target with valid bit 0 is all zero, and operand slot 11 is reserved (R52, R57). -/
def targetWf (t : BitVec 10) : Bool :=
  if t.getLsbD 9 then t.extractLsb' 7 2 != 3#2 else t == 0#10

/-- Bits [hi:lo] of the immediate as a number. -/
def GNode.immField (n : GNode) (hi lo : Nat) : Nat := (n.imm.toNat / 2 ^ lo) % 2 ^ (hi + 1 - lo)

/-- What every node obeys: targets well formed, ANY = 1 only with FMT 000 (R57). -/
def GNode.common (n : GNode) : Bool :=
  targetWf n.t0 && targetWf n.t1 && targetWf n.tm && (!n.any || n.fmt == .int)

def GNode.noTargets (n : GNode) : Bool := n.t0 == 0#10 && n.t1 == 0#10 && n.tm == 0#10

/-- Rounding fields of the floating-point nodes (R310): 000, 001, 010, 011, 101. -/
def GNode.roundNear (n : GNode) : Bool := [0, 1, 2, 3, 5].contains (n.immField 17 15)

/-- add, sub, mul, div, rem, logic, shifts, min, max (R310): FMT 0 or 7; IV only with FMT 0. -/
def GNode.wfInt (n : GNode) : Bool :=
  !n.any && (n.fmt == .int || (n.fmt == .int8 && n.immField 17 17 == 0))

/-- mulh and the tests (R310): FMT 0 only. -/
def GNode.wfInt64 (n : GNode) : Bool := !n.any && n.fmt == .int

/-- fadd to flog2 (R310). -/
def GNode.wfFp (n : GNode) : Bool := !n.any && n.fmt.inF && n.immField 14 0 == 0 && n.roundNear

/-- fmin, fmax, flt, fle, feq (R310): rounding 000. -/
def GNode.wfFpCmp (n : GNode) : Bool := !n.any && n.fmt.inF && n.imm == 0#18

/-- The destination format of a conversion, IMM[14:12] (R53). -/
def GNode.dstFmt (n : GNode) : Fmt := Fmt.ofCode (n.imm.extractLsb' 12 3)

def GNode.wfCvt (n : GNode) : Bool :=
  n.fmt != .lq4 && n.dstFmt != .lq4 && n.roundNear && n.immField 11 0 == 0

def GNode.wfQcvt (n : GNode) : Bool :=
  !n.any && n.fmt != .lq4 && n.dstFmt != .lq4 && [4, 6].contains (n.immField 17 15) && n.immField 11 0 == 0

def GNode.wfDq (n : GNode) : Bool :=
  !n.any && n.fmt == .lq4 && n.dstFmt.inF && n.roundNear && n.immField 11 0 == 0

/-- Size field IMM[12:10] of the memory class (R53). -/
def GNode.sizeField (n : GNode) : Nat := n.immField 12 10
/-- Scope field IMM[9:8] of the memory class (R53). -/
def GNode.scopeField (n : GNode) : Nat := n.immField 9 8
/-- IMM[7:0] of the memory class (R53). -/
def GNode.lowField (n : GNode) : Nat := n.immField 7 0

/-- FMT 2, 3, 4, 5 and 7 require size 011 in ld, st, ird and iwr (R323). -/
def GNode.packedSize (n : GNode) : Bool :=
  match n.fmt with
  | .int | .fp32 => true
  | _ => n.sizeField == 3

def GNode.wfLoad (n : GNode) : Bool :=
  !n.any && n.fmt != .lq4 && n.sizeField ≤ 3 && n.scopeField == 0 && n.packedSize

def GNode.wfAcq (n : GNode) : Bool := !n.any && n.fmt != .lq4 && n.sizeField ≤ 3

def GNode.wfIstruct (n : GNode) : Bool :=
  !n.any && n.fmt != .lq4 && n.sizeField == 3 && n.scopeField == 0 && n.lowField == 0

/-- amo (R260): op in IMM[7:4], ordering in [3:2], [1:0] = 0. -/
def GNode.wfAmo (n : GNode) : Bool :=
  !n.any && n.immField 1 0 == 0 &&
  (if n.immField 7 4 == 10 then n.fmt == .fp32 && n.sizeField == 2
   else if n.immField 7 4 == 9 then n.fmt == .int && n.sizeField == 2
   else n.immField 7 4 ≤ 8 && n.fmt == .int && (n.sizeField == 2 || n.sizeField == 3))

/-- The left slot of a consumer: what a `ctok` target names (R377). -/
def targetLeft (t : BitVec 10) : Bool := !t.getLsbD 9 || t.extractLsb' 7 2 == 0#2

def GNode.wfDly (n : GNode) : Bool :=
  n.immField 17 17 == 0 && n.tm == 0#10 && (n.immField 15 15 == 1 || n.immField 14 11 == 0) &&
  (if n.immField 16 16 == 0 then n.any || n.fmt != .lq4
   else !n.any && n.fmt == .fp32 && 15 ≤ n.immField 9 0)

def GNode.wfMxp (n : GNode) : Bool :=
  n.immField 17 16 != 3 && n.immField 15 13 == 0 && n.tm == 0#10 &&
  (if n.immField 17 16 == 2 then n.immField 12 0 == 0 else n.noTargets)

def GNode.wfSgen (n : GNode) : Bool :=
  !n.any && n.fmt != .lq4 && n.immField 17 16 != 3 && n.immField 15 13 == 0 &&
  n.immField 12 0 % 8 == 0 && n.tm == 0#10 && (n.immField 17 16 != 2 || n.noTargets)

/-! ## Bounds of event parameters (R8) -/

def slotOk (s : Nat) : Bool := s < 8192
def coreOk (c : Nat) : Bool := c < 1024
def coveOk (c : Nat) : Bool := c < 256
def quadOk (q : Nat) : Bool := q < 4
def queueOk (q : Nat) : Bool := q < 2048
def RKey.ok (k : RKey) : Bool := k.vmid < 64 && k.ridx < 256
def xyOk (x y : Nat) : Bool := x < 64 && y < 64

/-! ## Well-formed steps -/

/-- The step is one the table of operations and events admits. -/
def Instr.wf : Instr → Bool
  | .opImm o _ _ imm =>
    match o with
    | .slli | .srli | .srai => imm.toNat < 64
    | _ => true
  | .opImm32 o _ _ imm =>
    match o with
    | .addiw => true
    | _ => imm.toNat < 32
  | .vadd _ f _ _ _ | .vsub _ f _ _ _ | .vmul _ f _ _ _ | .vfma _ f _ _ _
  | .vmin _ f _ _ _ | .vmax _ f _ _ _ | .vclt _ f _ _ _ | .vcle _ f _ _ _ | .vceq _ f _ _ _
  | .vrsum _ f _ _ | .vrmax _ f _ _ | .vrmin _ f _ _ | .vscan _ f _ _ => f.inN
  | .vand _ f _ _ _ | .vor _ f _ _ _ | .vxor _ f _ _ _
  | .vsll _ f _ _ _ | .vsrl _ f _ _ _ | .vsra _ f _ _ _ => f.inI
  | .vdiv _ f _ _ _ => f == .int || f == .fp32
  | .vcvt _ src dst _ _ => src != .lq4 && dst != .lq4
  | .vq _ f _ _ _ | .vdq _ f _ _ _ => f.inF
  | .gAdd n | .gSub n | .gMul n | .gDiv n | .gRem n | .gAnd n | .gOr n | .gXor n
  | .gShl n | .gShr n | .gSra n | .gMin n | .gMax n => n.common && n.wfInt
  | .gMulh n | .gTlt n | .gTle n | .gTeq n | .gTne n | .gTltu n | .gTleu n => n.common && n.wfInt64
  | .gFadd n | .gFsub n | .gFmul n | .gFfma n | .gFdiv n | .gFsqrt n | .gFrcp n | .gFexp2 n
  | .gFlog2 n => n.common && n.wfFp
  | .gFmin n | .gFmax n | .gFlt n | .gFle n | .gFeq n => n.common && n.wfFpCmp
  | .gCvt n => n.common && n.wfCvt
  | .gQcvt n => n.common && n.wfQcvt
  | .gDq n => n.common && n.wfDq
  | .gRng n => n.common && !n.any && n.fmt == .int && n.imm == 0#18
  | .gMov n => n.common && n.imm == 0#18
  | .gMovi n => n.common && !n.any
  | .gFrd n => n.common && !n.any && n.immField 17 9 == 0
  | .gFwr n => n.common && n.immField 17 9 == 0 && n.noTargets
  | .gNull n => n.common && !n.any && n.imm == 0#18 && n.act != .sticky && n.act != .purge
  | .gSteer n => n.common && n.pred == .none && n.immField 17 1 == 0 && (!n.any || n.tm == 0#10)
  | .gMerge n => n.common && n.pred == .none && n.imm == 0#18 && (!n.any || n.tm == 0#10)
  | .gOmerge n => n.common && n.pred == .none && n.immField 17 16 == 0 && (!n.any || n.tm == 0#10)
  | .gBro n => n.common && n.immField 9 7 == 0 && n.t0 == 0#10 && n.t1 == 0#10
  | .gCall n =>
    n.common && !n.any && n.fmt == .int && n.immField 17 9 == 0 && 8 ≤ n.immField 8 0 && n.immField 8 0 ≤ 509
  | .gRet n => n.common && n.immField 17 6 == 0 && n.immField 5 0 ≤ 32 && n.noTargets
  | .gCcall n => n.common && !n.any && n.fmt == .int && n.immField 17 6 == 0 && n.immField 5 0 ≤ 32
  | .gTrap n => n.common && n.immField 17 1 == 0 && n.noTargets
  | .gInx n => n.common && n.immField 17 17 == 0
  | .gFnew n => n.common && !n.any && n.fmt == .int && n.imm == 0#18
  | .gFfree n => n.common && !n.any && n.fmt == .int && n.imm == 0#18 && n.noTargets
  | .gTget n => n.common && n.immField 17 2 == 0
  | .gTset n => n.common && n.immField 17 2 == 0 && n.immField 1 0 != 3
  | .gPurge n => n.common && n.immField 17 1 == 0 && (n.immField 0 0 == 0 || n.noTargets)
  | .gLd n => n.common && n.wfLoad
  | .gSt n => n.common && n.wfLoad && n.noTargets
  | .gLdb n =>
    n.common && !n.any && n.fmt == .int && (n.sizeField == 2 || n.sizeField == 3) &&
    n.scopeField == 0 && n.immField 3 0 == 0
  | .gLda n => n.common && n.wfAcq
  | .gStrl n => n.common && n.wfAcq && n.noTargets
  | .gIrd n => n.common && n.wfIstruct
  | .gIwr n => n.common && n.wfIstruct && n.noTargets
  | .gFence n => n.common && n.fmt == .int && n.sizeField == 0 && n.lowField == 0 && n.noTargets
  | .gPref n =>
    n.common && !n.any && n.fmt == .int && n.sizeField == 0 && n.scopeField == 0 && n.lowField == 0 && n.noTargets
  | .gAmo n => n.common && n.wfAmo
  | .gLkt n => n.common && !n.any && n.fmt == .int && n.sizeField == 3 && n.lowField == 0
  | .gLkg n => n.common && !n.any && n.fmt == .int && n.sizeField == 3 && n.lowField == 0 && n.noTargets
  | .gMcomb n =>
    n.common && !n.any && (n.fmt == .int || n.fmt == .fp32) && n.sizeField == 3 && n.lowField == 0 && n.noTargets
  | .gPost n => n.common && n.immField 12 0 == 0 && n.noTargets
  | .gGat n => n.common && !n.any && n.fmt != .lq4 && n.immField 12 0 == 0 && n.tm == 0#10
  | .gSct n => n.common && !n.any && n.fmt == .int && n.immField 12 0 == 0 && n.noTargets
  | .gCpy n => n.common && !n.any && n.fmt == .int && n.immField 12 0 == 0
  | .gTadv n =>
    n.common && !n.any && n.fmt == .int && n.sizeField == 0 && n.scopeField == 2 && n.lowField == 0 && n.noTargets
  | .gProbe n => n.common && !n.any && n.fmt == .int && n.imm == 0#18
  | .gRec n => n.common && !n.any && n.fmt == .int && n.immField 12 0 == 0 && n.noTargets
  | .gSgen n => n.common && n.wfSgen
  | .gRpt n => n.common && !n.any && n.fmt == .int && n.immField 13 0 == 0 && n.noTargets
  | .gCnt n => n.common && !n.any && n.fmt == .int && n.immField 15 0 == 0 && n.noTargets
  | .gCtok n =>
    n.common && !n.any && n.fmt == .int && n.immField 17 17 == 0 && n.immField 15 0 == 0 && n.tm == 0#10 &&
    targetLeft n.t0 && targetLeft n.t1 && (n.t0.getLsbD 9 || n.t1.getLsbD 9)
  | .gDly n => n.common && n.wfDly
  | .gMxp n => n.common && n.wfMxp
  | .gFin n => n.common && !n.any && n.fmt == .int && n.immField 9 7 == 0 && n.noTargets
  | .gTnow n => n.common && !n.any && n.fmt == .int && n.imm == 0#18
  | .gTgate n => n.common && n.imm == 0#18
  | .rotationBoundary c | .mxComplete c | .islandFreqChange c => coreOk c
  | .coalesceDrainTimeout c _ => decide (c < 1024 + 16384)
  | .l1dLineExpiry c _ => coreOk c
  | .dequePop s | .dequeSteal s | .joinwinExpiry s | .spillSaveComplete s | .spillRestore s
  | .messageDelivery s | .sleepDeadline s | .missFillArrival s | .tlbWalkComplete s | .divComplete s
  | .syncLoadComplete s | .boundedLoadComplete s | .tideTmo s | .amoComplete s | .lockGranted s
  | .srpVerdict s | .placerComplete s => slotOk s
  | .messageArrival m | .msgOverflowWrite m _ => slotOk m.target && slotOk m.sender && m.vmid < 64
  | .meshBurstMerge c | .l2WriteForward c _ | .copyStart c | .copyBeat c | .copyComplete c _
  | .copyPause c _ => coveOk c
  | .replayCopyComplete q v k | .recordCopyComplete q v k => quadOk q && v < 64 && k < 4096
  | .tokenMatch rk t _ => rk.ok && t.dop != 3#2
  | .matchRefill rk x y | .handoverToken rk x y | .cellSave rk x y => rk.ok && xyOk x y
  | .overlayLoadComplete rk x y s => rk.ok && xyOk x y && s < 8
  | .countToken rk _ i _ | .tgateDeadline rk _ i | .memoryReply rk _ i | .controlTokenArrival rk _ i _ =>
    rk.ok && i < 128
  | .commitToken rk _ c | .streamLoopStart rk _ c | .streamLoopFinish rk _ c => rk.ok && c < 16
  | .instanceCommit rk _ | .gFaultReport rk _ | .slackWaveEnd rk | .regionRestore rk => rk.ok
  | .buoyTokenArrival rk b _ => rk.ok && b < 63
  | .moorDelivery v _ => v < 64
  | .placementRequest q => quadOk q
  | .packetIngress q s _ => queueOk q && s < 64
  | .lTaskLaunch q | .gLaunch q => queueOk q
  | .queueWindowWrite q off data => queueOk q && off + data.length ≤ 4096 && off % 64 + data.length ≤ 56
  | .hostMemoryAccess w pa n data => pa + n ≤ 2 ^ 52 + 2 ^ 36 && (!w || n == data.length)
  | .registerWriteIgnored off => off < 2 ^ 24
  | .tenantCreate q _ | .tenantDestroy q _ | .queueBind q _ | .queueUnbind q _ | .windowMap q _
  | .tideSet q _ | .tlbShoot q _ | .genWrap q _ | .fenceUnit q _ | .islandSet q _ | .powerCap q _
  | .timeSet q _ | .timeCfg q _ | .imageVerify q _ | .attestQuote q _ | .fwUpdate q _ | .debugRead q _
  | .debugWrite q _ | .infoRead q _ | .countRead q _ | .traceCfg q _ | .regionSwap q _
  | .badcmd q _ _ => queueOk q
  | .powerSample _ temps => temps.length == 4
  | .todMessage bytes => bytes.length == 12
  | .msixUnmask fn vec => (fn == 0 && vec < 2048) || (fn == 1 && vec < 64)
  | _ => true

end Sys2Proof
end

