-- ==== Sys2Proof/Decode.lean ====
section
/-! DEFINITION. The decoder of L-set words (R30-R50) and of G-set words (R51-R54), total on any bits and
refusing by name, and the encoder written from the same tables. Every term the decoder answers is
well formed. -/

namespace Sys2Proof

/-- Why bits are no instruction (R60). -/
inductive DecodeError where
  /-- Fewer bytes than the instruction word holds. -/
  | short
  /-- Bits [1:0] of an L-set word are not 0b11 (R31). -/
  | compressed
  /-- A major opcode marked ILLEGAL (R31), or an unassigned OPC of a node (R54). -/
  | opcode
  /-- A reserved field, modifier or selector (R34, R35, R40, R57). -/
  | reserved
  deriving DecidableEq, Repr

/-! ## Enumerated fields -/

def Size.code : Size → BitVec 2
  | .b => 0 | .h => 1 | .w => 2 | .d => 3
def Size.ofCode (c : BitVec 2) : Size :=
  match c.toNat with | 0 => .b | 1 => .h | 2 => .w | _ => .d

def Scope.code : Scope → BitVec 2
  | .th => 0 | .cv => 1 | .dv => 2 | .sy => 3
def Scope.ofCode (c : BitVec 2) : Scope :=
  match c.toNat with | 0 => .th | 1 => .cv | 2 => .dv | _ => .sy

def AmoOrd.code : AmoOrd → BitVec 2
  | .relaxed => 0 | .acq => 1 | .rel => 2 | .ar => 3
def AmoOrd.ofCode (c : BitVec 2) : AmoOrd :=
  match c.toNat with | 0 => .relaxed | 1 => .acq | 2 => .rel | _ => .ar

def FenceKind.code : FenceKind → BitVec 2
  | .acq => 1 | .rel => 2 | .ar => 3
def FenceKind.ofCode (c : BitVec 2) : Option FenceKind :=
  match c.toNat with | 1 => some .acq | 2 => some .rel | 3 => some .ar | _ => none

def Buf.code : Buf → BitVec 2
  | .w => 0 | .a => 1 | .c => 2
def Buf.ofCode (c : BitVec 2) : Option Buf :=
  match c.toNat with | 0 => some .w | 1 => some .a | 2 => some .c | _ => none

def Space.code : Space → BitVec 3
  | .w => 0 | .a => 1 | .c => 2 | .x => 3 | .v => 4 | .md => 5 | .td => 6 | .qr => 7
def Space.ofCode (c : BitVec 3) : Space :=
  match c.toNat with
  | 0 => .w | 1 => .a | 2 => .c | 3 => .x | 4 => .v | 5 => .md | 6 => .td | _ => .qr

def Domain.code : Domain → BitVec 3
  | .dflt => 0 | .slot => 1 | .core => 2 | .cove => 3 | .quad => 4 | .device => 5
def Domain.ofCode (c : BitVec 3) : Option Domain :=
  match c.toNat with
  | 0 => some .dflt | 1 => some .slot | 2 => some .core | 3 => some .cove | 4 => some .quad
  | 5 => some .device | _ => none

def SrpCtr.code : SrpCtr → BitVec 3
  | .probe => 0 | .replay => 1 | .compute => 2 | .forced => 3 | .record => 4 | .evict => 5
def SrpCtr.ofCode (c : BitVec 3) : Option SrpCtr :=
  match c.toNat with
  | 0 => some .probe | 1 => some .replay | 2 => some .compute | 3 => some .forced | 4 => some .record
  | 5 => some .evict | _ => none

def LoadOp.code : LoadOp → BitVec 3
  | .lb => 0 | .lh => 1 | .lw => 2 | .ld => 3 | .lbu => 4 | .lhu => 5 | .lwu => 6
def LoadOp.ofCode (c : BitVec 3) : Option LoadOp :=
  match c.toNat with
  | 0 => some .lb | 1 => some .lh | 2 => some .lw | 3 => some .ld | 4 => some .lbu | 5 => some .lhu
  | 6 => some .lwu | _ => none

def BranchOp.code : BranchOp → BitVec 3
  | .beq => 0 | .bne => 1 | .blt => 4 | .bge => 5 | .bltu => 6 | .bgeu => 7
def BranchOp.ofCode (c : BitVec 3) : Option BranchOp :=
  match c.toNat with
  | 0 => some .beq | 1 => some .bne | 4 => some .blt | 5 => some .bge | 6 => some .bltu
  | 7 => some .bgeu | _ => none

/-- funct7 and funct3 of a register operation of RV64IM. -/
def RegOp.code : RegOp → BitVec 7 × BitVec 3
  | .add => (0, 0) | .sub => (0x20, 0) | .sll => (0, 1) | .slt => (0, 2) | .sltu => (0, 3)
  | .xor => (0, 4) | .srl => (0, 5) | .sra => (0x20, 5) | .or => (0, 6) | .and => (0, 7)
  | .mul => (1, 0) | .mulh => (1, 1) | .mulhsu => (1, 2) | .mulhu => (1, 3)
  | .div => (1, 4) | .divu => (1, 5) | .rem => (1, 6) | .remu => (1, 7)
def RegOp.ofCode (f7 : BitVec 7) (f3 : BitVec 3) : Option RegOp :=
  match f7.toNat, f3.toNat with
  | 0, 0 => some .add | 0x20, 0 => some .sub | 0, 1 => some .sll | 0, 2 => some .slt
  | 0, 3 => some .sltu | 0, 4 => some .xor | 0, 5 => some .srl | 0x20, 5 => some .sra
  | 0, 6 => some .or | 0, 7 => some .and
  | 1, 0 => some .mul | 1, 1 => some .mulh | 1, 2 => some .mulhsu | 1, 3 => some .mulhu
  | 1, 4 => some .div | 1, 5 => some .divu | 1, 6 => some .rem | 1, 7 => some .remu
  | _, _ => none

/-- funct7 and funct3 of a 32-bit register operation of RV64IM. -/
def Reg32Op.code : Reg32Op → BitVec 7 × BitVec 3
  | .addw => (0, 0) | .subw => (0x20, 0) | .sllw => (0, 1) | .srlw => (0, 5) | .sraw => (0x20, 5)
  | .mulw => (1, 0) | .divw => (1, 4) | .divuw => (1, 5) | .remw => (1, 6) | .remuw => (1, 7)
def Reg32Op.ofCode (f7 : BitVec 7) (f3 : BitVec 3) : Option Reg32Op :=
  match f7.toNat, f3.toNat with
  | 0, 0 => some .addw | 0x20, 0 => some .subw | 0, 1 => some .sllw | 0, 5 => some .srlw
  | 0x20, 5 => some .sraw
  | 1, 0 => some .mulw | 1, 4 => some .divw | 1, 5 => some .divuw | 1, 6 => some .remw
  | 1, 7 => some .remuw
  | _, _ => none

/-! ## Helpers of the field decoders -/

/-- A bit as a Bool. -/
def bit1 (b : BitVec 1) : Bool := b.getLsbD 0
/-- A Bool as a bit. -/
def boolBit (b : Bool) : BitVec 1 := if b then 1#1 else 0#1

/-- `i` where the condition on the word's fields holds, else refused as reserved (R35). -/
def only (c : Bool) (i : Instr) : Except DecodeError Instr := if c then .ok i else .error .reserved

/-- An enumerated field's value, or refused as reserved (R35). -/
def field {α : Type} (o : Option α) (k : α → Except DecodeError Instr) : Except DecodeError Instr :=
  match o with | some a => k a | none => .error .reserved

/-! ## The L-set, by major opcode (R31). Arguments: funct7, rs2, rs1, funct3, rd. -/

/-- OP-IMM (R32). -/
def decOpImm (f7 : BitVec 7) (rs2 rs1 : BitVec 5) (f3 : BitVec 3) (rd : BitVec 5) : Except DecodeError Instr :=
  match f3.toNat with
  | 0 => .ok (.opImm .addi rd rs1 (f7 ++ rs2))
  | 2 => .ok (.opImm .slti rd rs1 (f7 ++ rs2))
  | 3 => .ok (.opImm .sltiu rd rs1 (f7 ++ rs2))
  | 4 => .ok (.opImm .xori rd rs1 (f7 ++ rs2))
  | 6 => .ok (.opImm .ori rd rs1 (f7 ++ rs2))
  | 7 => .ok (.opImm .andi rd rs1 (f7 ++ rs2))
  | 1 => only (f7.extractLsb' 1 6 == 0#6) (.opImm .slli rd rs1 (0#6 ++ f7.extractLsb' 0 1 ++ rs2))
  | _ =>
    match (f7.extractLsb' 1 6).toNat with
    | 0 => .ok (.opImm .srli rd rs1 (0#6 ++ f7.extractLsb' 0 1 ++ rs2))
    | 0x10 => .ok (.opImm .srai rd rs1 (0#6 ++ f7.extractLsb' 0 1 ++ rs2))
    | _ => .error .reserved

/-- OP-IMM-32 (R32). -/
def decOpImm32 (f7 : BitVec 7) (rs2 rs1 : BitVec 5) (f3 : BitVec 3) (rd : BitVec 5) : Except DecodeError Instr :=
  match f3.toNat with
  | 0 => .ok (.opImm32 .addiw rd rs1 (f7 ++ rs2))
  | 1 => only (f7 == 0#7) (.opImm32 .slliw rd rs1 (0#7 ++ rs2))
  | 5 =>
    match f7.toNat with
    | 0 => .ok (.opImm32 .srliw rd rs1 (0#7 ++ rs2))
    | 0x20 => .ok (.opImm32 .sraiw rd rs1 (0#7 ++ rs2))
    | _ => .error .reserved
  | _ => .error .reserved

/-- SYSTEM (R32): ECALL, EBREAK and the Zicsr forms; every other word is ILLEGAL. -/
def decSystem (f7 : BitVec 7) (rs2 rs1 : BitVec 5) (f3 : BitVec 3) (rd : BitVec 5) : Except DecodeError Instr :=
  match f3.toNat with
  | 0 =>
    if f7 == 0#7 && rs1 == 0#5 && rd == 0#5 then
      match rs2.toNat with
      | 0 => .ok .ecall
      | 1 => .ok .ebreak
      | _ => .error .reserved
    else .error .reserved
  | 1 => .ok (.csrrw rd rs1 (f7 ++ rs2))
  | 2 => .ok (.csrrs rd rs1 (f7 ++ rs2))
  | 3 => .ok (.csrrc rd rs1 (f7 ++ rs2))
  | 5 => .ok (.csrrwi rd rs1 (f7 ++ rs2))
  | 6 => .ok (.csrrsi rd rs1 (f7 ++ rs2))
  | 7 => .ok (.csrrci rd rs1 (f7 ++ rs2))
  | _ => .error .reserved

/-- VEC (R37-R39): m in funct7[6], SEL in funct7[5:0], the format code in funct3. -/
def decVec (f7 : BitVec 7) (rs2 rs1 : BitVec 5) (f3 : BitVec 3) (rd : BitVec 5) : Except DecodeError Instr :=
  let m := bit1 (f7.extractLsb' 6 1)
  let f := Fmt.ofCode f3
  match (f7.extractLsb' 0 6).toNat with
  | 0x00 => only f.inN (.vadd m f rd rs1 rs2)
  | 0x01 => only f.inN (.vsub m f rd rs1 rs2)
  | 0x02 => only f.inN (.vmul m f rd rs1 rs2)
  | 0x03 => only f.inN (.vfma m f rd rs1 rs2)
  | 0x04 => only f.inN (.vmin m f rd rs1 rs2)
  | 0x05 => only f.inN (.vmax m f rd rs1 rs2)
  | 0x06 => only f.inI (.vand m f rd rs1 rs2)
  | 0x07 => only f.inI (.vor m f rd rs1 rs2)
  | 0x08 => only f.inI (.vxor m f rd rs1 rs2)
  | 0x09 => only f.inI (.vsll m f rd rs1 rs2)
  | 0x0A => only f.inI (.vsrl m f rd rs1 rs2)
  | 0x0B => only f.inI (.vsra m f rd rs1 rs2)
  | 0x0C => only f.inN (.vclt m f rd rs1 rs2)
  | 0x0D => only f.inN (.vcle m f rd rs1 rs2)
  | 0x0E => only f.inN (.vceq m f rd rs1 rs2)
  | 0x0F => only (!m) (.vsel f rd rs1 rs2)
  | 0x10 => only (f == .int || f == .fp32) (.vdiv m f rd rs1 rs2)
  | 0x11 => only (f == .fp32 && rs2 == 0#5) (.vsqrt m rd rs1)
  | 0x12 => only (f == .fp32 && rs2 == 0#5) (.vrcp m rd rs1)
  | 0x13 => only (f == .fp32 && rs2 == 0#5) (.vexp2 m rd rs1)
  | 0x14 => only (f == .fp32 && rs2 == 0#5) (.vlog2 m rd rs1)
  | 0x15 => only (f.inN && rs2 == 0#5) (.vrsum m f rd rs1)
  | 0x16 => only (f.inN && rs2 == 0#5) (.vrmax m f rd rs1)
  | 0x17 => only (f.inN && rs2 == 0#5) (.vrmin m f rd rs1)
  | 0x18 => .ok (.vperm m f rd rs1 rs2)
  | 0x19 => .ok (.vslide m f rd rs1 rs2)
  | 0x1A => only (rs2 == 0#5) (.vsplat m f rd rs1)
  | 0x1B => only (!m) (.vxtr f rd rs1 rs2)
  | 0x1C =>
    only (rs2.extractLsb' 3 2 == 0#2 && f != .lq4 && Fmt.ofCode (rs2.extractLsb' 0 3) != .lq4)
      (.vcvt m f (Fmt.ofCode (rs2.extractLsb' 0 3)) rd rs1)
  | 0x1D => only f.inF (.vq m f rd rs1 rs2)
  | 0x1E => only f.inF (.vdq m f rd rs1 rs2)
  | 0x1F => only (f == .int && rs1 == 0#5 && rs2 == 0#5) (.vrng m rd)
  | 0x20 => only (f.inN && rs2 == 0#5) (.vscan m f rd rs1)
  | 0x21 => only (rs2 == 0#5) (.vmov m f rd rs1)
  | _ => .error .reserved

/-- MEM funct3 000, the vector memory group (R41). -/
def decMemV (f7 : BitVec 7) (rs2 rs1 rd : BitVec 5) : Except DecodeError Instr :=
  let m := bit1 (f7.extractLsb' 3 1)
  let sz := Size.ofCode (f7.extractLsb' 1 2)
  match (f7.extractLsb' 4 3).toNat with
  | 0 => only (f7.extractLsb' 0 3 == 0#3 && rs2 == 0#5) (.vld m rd rs1)
  | 1 => only (f7.extractLsb' 0 3 == 0#3 && rs2 == 0#5) (.vst m rd rs1)
  | 2 => only (f7.extractLsb' 0 1 == 0#1) (.vlds m sz rd rs1 rs2)
  | 3 => only (f7.extractLsb' 0 1 == 0#1) (.vsts m sz rd rs1 rs2)
  | 4 => .ok (.vlx m sz (bit1 (f7.extractLsb' 0 1)) rd rs1 rs2)
  | 5 => .ok (.vsx m sz (bit1 (f7.extractLsb' 0 1)) rd rs1 rs2)
  | 6 =>
    match (f7.extractLsb' 2 2).toNat with
    | 0 => only (f7.extractLsb' 0 2 == 0#2 && rs2 == 0#5) (.vldS rd rs1)
    | 1 => field (Buf.ofCode (f7.extractLsb' 0 2)) fun b => only (rs2 == 0#5) (.bufld b rd rs1)
    | 2 => field (Buf.ofCode (f7.extractLsb' 0 2)) fun b => only (rs2 == 0#5) (.bufst b rd rs1)
    | _ => .error .reserved
  | _ => .ok (.vldB (f7.extractLsb' 0 4) rd rs1 rs2)

/-- MEM funct3 001, the special loads (R42). -/
def decMemL (f7 : BitVec 7) (rs2 rs1 rd : BitVec 5) : Except DecodeError Instr :=
  match (f7.extractLsb' 5 2).toNat with
  | 0 => only (f7.extractLsb' 0 5 == 0#5 && rs2 == 0#5) (.ldS rd rs1)
  | 1 => only (f7.extractLsb' 0 5 == 0#5 && rs2 == 0#5) (.ldSe rd rs1)
  | 2 => .ok (.ldB (bit1 (f7.extractLsb' 4 1)) (f7.extractLsb' 0 4) rd rs1 rs2)
  | _ =>
    only (f7.extractLsb' 0 1 == 0#1 && rs2 == 0#5)
      (.ldAcq (Size.ofCode (f7.extractLsb' 3 2)) (Scope.ofCode (f7.extractLsb' 1 2)) rd rs1)

/-- MEM funct3 010, the special stores (R43). -/
def decMemS (f7 : BitVec 7) (rs2 rs1 rd : BitVec 5) : Except DecodeError Instr :=
  match (f7.extractLsb' 5 2).toNat with
  | 0 =>
    only (f7.extractLsb' 0 1 == 0#1 && rd == 0#5)
      (.stRel (Size.ofCode (f7.extractLsb' 3 2)) (Scope.ofCode (f7.extractLsb' 1 2)) rs2 rs1)
  | 1 => only (f7.extractLsb' 0 5 == 0#5 && rs2 == 0#5 && rd == 0#5) (.feSet rs1)
  | 2 => only (f7.extractLsb' 0 5 == 0#5 && rs2 == 0#5 && rd == 0#5) (.feClr rs1)
  | _ => .error .reserved

/-- MEM funct3 011 to 110, the atomics at their scopes (R44). -/
def decAmo (sc : Scope) (f7 : BitVec 7) (rs2 rs1 rd : BitVec 5) : Except DecodeError Instr :=
  let o := AmoOrd.ofCode (f7.extractLsb' 1 2)
  let dbl := bit1 (f7.extractLsb' 0 1)
  match (f7.extractLsb' 3 4).toNat with
  | 0 => .ok (.amoAdd o dbl sc rd rs1 rs2)
  | 1 => .ok (.amoAnd o dbl sc rd rs1 rs2)
  | 2 => .ok (.amoOr o dbl sc rd rs1 rs2)
  | 3 => .ok (.amoXor o dbl sc rd rs1 rs2)
  | 4 => .ok (.amoMin o dbl sc rd rs1 rs2)
  | 5 => .ok (.amoMax o dbl sc rd rs1 rs2)
  | 6 => .ok (.amoMinu o dbl sc rd rs1 rs2)
  | 7 => .ok (.amoMaxu o dbl sc rd rs1 rs2)
  | 8 => .ok (.amoSwap o dbl sc rd rs1 rs2)
  | 9 => .ok (.amoCas o dbl sc rd rs1 rs2)
  | 10 => only (!dbl) (.amoFadd o sc rd rs1 rs2)
  | _ => .error .reserved

/-- MEM funct3 111 (R45). -/
def decMemF (f7 : BitVec 7) (rs2 rs1 rd : BitVec 5) : Except DecodeError Instr :=
  let sc := Scope.ofCode (f7.extractLsb' 1 2)
  let z3 := f7.extractLsb' 0 3 == 0#3
  let z1 := f7.extractLsb' 0 1 == 0#1
  match (f7.extractLsb' 3 4).toNat with
  | 0 =>
    field (FenceKind.ofCode (rd.extractLsb' 0 2)) fun k =>
      only (z1 && rd.extractLsb' 2 3 == 0#3 && rs1 == 0#5 && rs2 == 0#5) (.fenceSc k sc)
  | 1 => only (z3 && rd == 0#5 && rs2 == 0#5) (.tideAdv rs1)
  | 2 => only (z3 && rs2 == 0#5) (.tideRd rd rs1)
  | 3 => only (z1 && rs2 == 0#5) (.lkTake sc rd rs1)
  | 4 => only (z1 && rd == 0#5 && rs2 == 0#5) (.lkGive sc rs1)
  | 5 => only (rs1 == 0#5 && rs2 == 0#5) (.qGet (f7.extractLsb' 0 3) rd)
  | 6 => only (rs1 == 0#5 && rs2 == 0#5) (.vqGet (f7.extractLsb' 0 3) rd)
  | 7 => only (rs1 == 0#5 && rs2 == 0#5) (.qStat (f7.extractLsb' 0 3) rd)
  | 8 => only (rd == 0#5 && rs1 == 0#5 && rs2 == 0#5) (.qClose (f7.extractLsb' 0 3))
  | 9 =>
    only (f7.extractLsb' 2 1 == 0#1 && rd == 0#5)
      (.pref (bit1 (f7.extractLsb' 1 1)) (bit1 (f7.extractLsb' 0 1)) rs1 rs2)
  | _ => .error .reserved

def decMem (f7 : BitVec 7) (rs2 rs1 : BitVec 5) (f3 : BitVec 3) (rd : BitVec 5) : Except DecodeError Instr :=
  match f3.toNat with
  | 0 => decMemV f7 rs2 rs1 rd
  | 1 => decMemL f7 rs2 rs1 rd
  | 2 => decMemS f7 rs2 rs1 rd
  | 3 => decAmo .th f7 rs2 rs1 rd
  | 4 => decAmo .cv f7 rs2 rs1 rd
  | 5 => decAmo .dv f7 rs2 rs1 rd
  | 6 => decAmo .sy f7 rs2 rs1 rd
  | _ => decMemF f7 rs2 rs1 rd

/-- Bits [4:3] of a field that names a td or md register are 0 (R46). -/
def hi0 (r : BitVec 5) : Bool := r.extractLsb' 3 2 == 0#2
def lo3 (r : BitVec 5) : BitVec 3 := r.extractLsb' 0 3

/-- MXE funct3 000, the matrix group (R46). -/
def decMx (f7 : BitVec 7) (rs2 rs1 rd : BitVec 5) : Except DecodeError Instr :=
  let aux := f7.extractLsb' 0 3
  match (f7.extractLsb' 3 4).toNat with
  | 0 => only (rd == 0#5) (.mxDesc aux rs1 rs2)
  | 1 => only (rd == 0#5 && rs2 == 0#5) (.mxTcfg aux rs1)
  | 2 => only (rd == 0#5 && rs1 == 0#5 && rs2 == 0#5) (.mxZero aux)
  | 3 => only (aux == 0#3 && hi0 rd && hi0 rs1 && hi0 rs2) (.mxMma (lo3 rd) (lo3 rs1) (lo3 rs2))
  | 4 => only (hi0 rd && hi0 rs1 && hi0 rs2) (.mxMmq (lo3 rd) (lo3 rs1) (lo3 rs2) aux)
  | 5 => only (rd == 0#5 && rs2 == 0#5) (.mxDrn aux rs1)
  | 6 => only (rs2 == 0#5) (.mxRd aux rd rs1)
  | 7 => only (rs2 == 0#5) (.mxWr aux rd rs1)
  | 8 => only (rd == 0#5 && rs1 == 0#5 && rs2 == 0#5) (.mxWait aux)
  | 9 => only (rd == 0#5 && rs2 == 0#5) (.mxRowp aux rs1)
  | 10 => only (rs1 == 0#5 && rs2 == 0#5) (.mxStat aux rd)
  | _ => .error .reserved

/-- MXE funct3 001, the engine group (R48). -/
def decEng (f7 : BitVec 7) (rs2 rs1 rd : BitVec 5) : Except DecodeError Instr :=
  let aux := f7.extractLsb' 0 3
  match (f7.extractLsb' 3 4).toNat with
  | 0 => only (aux == 0#3 && rs2 == 0#5) (.cpPost rd rs1)
  | 1 => only (aux == 0#3 && rd == 0#5) (.cpBind rs1 rs2)
  | 2 => only (aux == 0#3 && rd == 0#5) (.post rs1 rs2)
  | 3 => only (aux == 0#3) (.srpProbe rd rs1 rs2)
  | 4 => only (aux == 0#3 && rd == 0#5) (.srpRec rs1 rs2)
  | 5 =>
    match aux.toNat with
    | 0 => only (rd == 0#5 && rs2 == 0#5) (.srpInv rs1)
    | 1 => only (rd == 0#5 && rs1 == 0#5 && rs2 == 0#5) .srpInvAll
    | _ => .error .reserved
  | 6 => field (SrpCtr.ofCode aux) fun c => only (rs1 == 0#5 && rs2 == 0#5) (.srpStat c rd)
  | _ => .error .reserved

def decMxe (f7 : BitVec 7) (rs2 rs1 : BitVec 5) (f3 : BitVec 3) (rd : BitVec 5) : Except DecodeError Instr :=
  match f3.toNat with
  | 0 => decMx f7 rs2 rs1 rd
  | 1 => decEng f7 rs2 rs1 rd
  | 2 =>
    only (f7.extractLsb' 5 2 == 0#2 && hi0 rs1 && hi0 rs2)
      (.mxMms (lo3 rd) (lo3 rs1) (lo3 rs2) (f7.extractLsb' 0 5) (rd.extractLsb' 3 2))
  | _ => .error .reserved

/-- SYS (R49): the operation in funct7[6:3], AUX in funct7[2:0]. -/
def decSys (f7 : BitVec 7) (rs2 rs1 : BitVec 5) (f3 : BitVec 3) (rd : BitVec 5) : Except DecodeError Instr :=
  let aux := f7.extractLsb' 0 3
  let z := aux == 0#3
  match f3.toNat, (f7.extractLsb' 3 4).toNat with
  | 0, 0 => field (Domain.ofCode aux) fun d => only (rd == 0#5) (.fork d rs1 rs2)
  | 0, 1 => only (z && rd == 0#5 && rs2 == 0#5) (.join rs1)
  | 0, 2 => only (z && rd == 0#5 && rs2 == 0#5) (.xcall rs1)
  | 0, 3 => only (z && rd == 0#5 && rs2 == 0#5) (.xret rs1)
  | 0, 4 => only (z && rs2 == 0#5) (.frmNew rd rs1)
  | 0, 5 => only (z && rd == 0#5 && rs2 == 0#5) (.frmFree rs1)
  | 1, 0 => only (z && rd == 0#5) (.msgSend rs1 rs2)
  | 1, 1 => only (z && rd == 0#5 && rs1 == 0#5 && rs2 == 0#5) .msgMsk
  | 1, 2 => only (z && rd == 0#5 && rs1 == 0#5 && rs2 == 0#5) .msgUnm
  | 1, 3 => only (z && rd == 0#5 && rs1 == 0#5 && rs2 == 0#5) .msgRet
  | 1, 4 => only (z && rd == 0#5 && rs1 == 0#5 && rs2 == 0#5) .wait
  | 1, 5 => only (z && rd == 0#5 && rs2 == 0#5) (.sleepT rs1)
  | 1, 6 => only (z && rd == 0#5 && rs1 == 0#5 && rs2 == 0#5) .yield
  | 2, 0 => only (rs2 == 0#5) (.genRd (Space.ofCode aux) rd rs1)
  | 2, 1 => only (z && rs1 == 0#5 && rs2 == 0#5) (.genNew rd)
  | 2, 2 => only (rd == 0#5 && rs2 == 0#5) (.genScrub (Space.ofCode aux) rs1)
  | 3, 0 => only (z && rd == 0#5 && rs1 == 0#5 && rs2 == 0#5) .tret
  | 3, 1 => only (z && rd == 0#5 && rs2 == 0#5) (.gctxRes rs1)
  | 3, 2 => only (z && rd == 0#5 && rs2 == 0#5) (.gctxKill rs1)
  | 3, 3 => only (z && rs2 == 0#5) (.plcFind rd rs1)
  | 3, 4 => only z (.plcLoad rd rs1 rs2)
  | 3, 5 => only (z && rd == 0#5 && rs2 == 0#5) (.plcRel rs1)
  | 3, 6 => only (z && rd == 0#5) (.cfgWr rs1 rs2)
  | 3, 7 => only (z && rs2 == 0#5) (.cfgChk rd rs1)
  | _, _ => .error .reserved

/-- A branch's offset bits [12:1] (the B format, R30). -/
def branchOff (f7 : BitVec 7) (rd : BitVec 5) : BitVec 12 :=
  f7.extractLsb' 6 1 ++ rd.extractLsb' 0 1 ++ f7.extractLsb' 0 6 ++ rd.extractLsb' 1 4

/-- A jump's offset bits [20:1], from word bits [31:12] (the J format, R30). -/
def jalOff (u : BitVec 20) : BitVec 20 :=
  u.extractLsb' 19 1 ++ u.extractLsb' 0 8 ++ u.extractLsb' 8 1 ++ u.extractLsb' 9 10

/-- The decoder over the fields of R30. -/
def decodeFields (f7 : BitVec 7) (rs2 rs1 : BitVec 5) (f3 : BitVec 3) (rd : BitVec 5) (opc : BitVec 7) :
    Except DecodeError Instr :=
  match opc.toNat with
  | 0x03 => field (LoadOp.ofCode f3) fun o => .ok (.load o rd rs1 (f7 ++ rs2))
  | 0x0B => decVec f7 rs2 rs1 f3 rd
  | 0x0F =>
    match f3.toNat with
    | 0 => .ok (.fence rd rs1 (f7 ++ rs2))
    | 1 => .ok (.fenceI rd rs1 (f7 ++ rs2))
    | _ => .error .reserved
  | 0x13 => decOpImm f7 rs2 rs1 f3 rd
  | 0x17 => .ok (.auipc rd (f7 ++ rs2 ++ rs1 ++ f3))
  | 0x1B => decOpImm32 f7 rs2 rs1 f3 rd
  | 0x23 => only (f3.toNat < 4) (.store (Size.ofCode (f3.extractLsb' 0 2)) rs2 rs1 (f7 ++ rd))
  | 0x2B => decMem f7 rs2 rs1 f3 rd
  | 0x33 => field (RegOp.ofCode f7 f3) fun o => .ok (.op o rd rs1 rs2)
  | 0x37 => .ok (.lui rd (f7 ++ rs2 ++ rs1 ++ f3))
  | 0x3B => field (Reg32Op.ofCode f7 f3) fun o => .ok (.op32 o rd rs1 rs2)
  | 0x5B => decMxe f7 rs2 rs1 f3 rd
  | 0x63 => field (BranchOp.ofCode f3) fun o => .ok (.branch o rs1 rs2 (branchOff f7 rd))
  | 0x67 => only (f3 == 0#3) (.jalr rd rs1 (f7 ++ rs2))
  | 0x6F => .ok (.jal rd (jalOff (f7 ++ rs2 ++ rs1 ++ f3)))
  | 0x73 => decSystem f7 rs2 rs1 f3 rd
  | 0x7B => decSys f7 rs2 rs1 f3 rd
  | _ => .error (if opc.extractLsb' 0 2 == 3#2 then .opcode else .compressed)

/-- The decoder of an L-set word (R30-R50). -/
def decodeL (w : BitVec 32) : Except DecodeError Instr :=
  decodeFields (w.extractLsb' 25 7) (w.extractLsb' 20 5) (w.extractLsb' 15 5) (w.extractLsb' 12 3)
    (w.extractLsb' 7 5) (w.extractLsb' 0 7)

/-! ## The encoder of the L-set -/

/-- A word from the fields of R30. -/
def lWord (f7 : BitVec 7) (rs2 rs1 : BitVec 5) (f3 : BitVec 3) (rd : BitVec 5) (opc : BitVec 7) : BitVec 32 :=
  f7 ++ rs2 ++ rs1 ++ f3 ++ rd ++ opc

/-- Bits [11:5] of a 12-bit immediate: the part of it in funct7. -/
def immHi (i : BitVec 12) : BitVec 7 := i.extractLsb' 5 7
def immLo (i : BitVec 12) : BitVec 5 := i.extractLsb' 0 5

/-- An I-format word (R30). -/
def iWord (imm : BitVec 12) (rs1 : BitVec 5) (f3 : BitVec 3) (rd : BitVec 5) (opc : BitVec 7) : BitVec 32 :=
  lWord (immHi imm) (immLo imm) rs1 f3 rd opc

/-- A U-format word (R30). -/
def uWord (u : BitVec 20) (rd : BitVec 5) (opc : BitVec 7) : BitVec 32 :=
  lWord (u.extractLsb' 13 7) (u.extractLsb' 8 5) (u.extractLsb' 3 5) (u.extractLsb' 0 3) rd opc

/-- A VEC word (R37). -/
def vWord (m : Bool) (sel : BitVec 6) (f : Fmt) (rd rs1 rs2 : BitVec 5) : BitVec 32 :=
  lWord (boolBit m ++ sel) rs2 rs1 f.code rd 0x0B#7

/-- A MEM word (R41-R45). -/
def memWord (f3 : BitVec 3) (f7 : BitVec 7) (rd rs1 rs2 : BitVec 5) : BitVec 32 :=
  lWord f7 rs2 rs1 f3 rd 0x2B#7

/-- An atomic's word: the scope selects funct3 (R44). -/
def amoWord (sel : BitVec 4) (o : AmoOrd) (dbl : Bool) (sc : Scope) (rd rs1 rs2 : BitVec 5) : BitVec 32 :=
  memWord (match sc with | .th => 3#3 | .cv => 4#3 | .dv => 5#3 | .sy => 6#3)
    (sel ++ o.code ++ boolBit dbl) rd rs1 rs2

/-- A word of a group with a selector in funct7[6:3] and AUX in funct7[2:0] (R46, R48, R49). -/
def selWord (opc : BitVec 7) (f3 : BitVec 3) (sel : BitVec 4) (aux : BitVec 3) (rd rs1 rs2 : BitVec 5) : BitVec 32 :=
  lWord (sel ++ aux) rs2 rs1 f3 rd opc

/-- A td or md number in a register field (R46). -/
def z2 (r : BitVec 3) : BitVec 5 := 0#2 ++ r

def ImmOp.f3 : ImmOp → BitVec 3
  | .addi => 0 | .slti => 2 | .sltiu => 3 | .xori => 4 | .ori => 6 | .andi => 7 | .slli => 1 | .srli => 5
  | .srai => 5

/-- The word of an L-set instruction; none for nodes and events. -/
def encodeL : Instr → Option (BitVec 32)
  | .load o rd rs1 imm => some (iWord imm rs1 o.code rd 0x03#7)
  | .store sz rs2 rs1 imm => some (lWord (immHi imm) rs2 rs1 (0#1 ++ sz.code) (immLo imm) 0x23#7)
  | .opImm .srai rd rs1 imm => some (lWord (0x20#7 ||| immHi imm) (immLo imm) rs1 5#3 rd 0x13#7)
  | .opImm o rd rs1 imm => some (iWord imm rs1 o.f3 rd 0x13#7)
  | .opImm32 .addiw rd rs1 imm => some (iWord imm rs1 0#3 rd 0x1B#7)
  | .opImm32 .slliw rd rs1 imm => some (lWord 0#7 (immLo imm) rs1 1#3 rd 0x1B#7)
  | .opImm32 .srliw rd rs1 imm => some (lWord 0#7 (immLo imm) rs1 5#3 rd 0x1B#7)
  | .opImm32 .sraiw rd rs1 imm => some (lWord 0x20#7 (immLo imm) rs1 5#3 rd 0x1B#7)
  | .op o rd rs1 rs2 => some (lWord o.code.1 rs2 rs1 o.code.2 rd 0x33#7)
  | .op32 o rd rs1 rs2 => some (lWord o.code.1 rs2 rs1 o.code.2 rd 0x3B#7)
  | .lui rd imm => some (uWord imm rd 0x37#7)
  | .auipc rd imm => some (uWord imm rd 0x17#7)
  | .jal rd off =>
    some (uWord (off.extractLsb' 19 1 ++ off.extractLsb' 0 10 ++ off.extractLsb' 10 1 ++ off.extractLsb' 11 8)
      rd 0x6F#7)
  | .jalr rd rs1 imm => some (iWord imm rs1 0#3 rd 0x67#7)
  | .branch o rs1 rs2 off =>
    some (lWord (off.extractLsb' 11 1 ++ off.extractLsb' 4 6) rs2 rs1 o.code
      (off.extractLsb' 0 4 ++ off.extractLsb' 10 1) 0x63#7)
  | .fence rd rs1 imm => some (iWord imm rs1 0#3 rd 0x0F#7)
  | .fenceI rd rs1 imm => some (iWord imm rs1 1#3 rd 0x0F#7)
  | .ecall => some 0x00000073#32
  | .ebreak => some 0x00100073#32
  | .csrrw rd rs1 c => some (iWord c rs1 1#3 rd 0x73#7)
  | .csrrs rd rs1 c => some (iWord c rs1 2#3 rd 0x73#7)
  | .csrrc rd rs1 c => some (iWord c rs1 3#3 rd 0x73#7)
  | .csrrwi rd z c => some (iWord c z 5#3 rd 0x73#7)
  | .csrrsi rd z c => some (iWord c z 6#3 rd 0x73#7)
  | .csrrci rd z c => some (iWord c z 7#3 rd 0x73#7)
  | .vadd m f vd a b => some (vWord m 0x00#6 f vd a b)
  | .vsub m f vd a b => some (vWord m 0x01#6 f vd a b)
  | .vmul m f vd a b => some (vWord m 0x02#6 f vd a b)
  | .vfma m f vd a b => some (vWord m 0x03#6 f vd a b)
  | .vmin m f vd a b => some (vWord m 0x04#6 f vd a b)
  | .vmax m f vd a b => some (vWord m 0x05#6 f vd a b)
  | .vand m f vd a b => some (vWord m 0x06#6 f vd a b)
  | .vor m f vd a b => some (vWord m 0x07#6 f vd a b)
  | .vxor m f vd a b => some (vWord m 0x08#6 f vd a b)
  | .vsll m f vd a b => some (vWord m 0x09#6 f vd a b)
  | .vsrl m f vd a b => some (vWord m 0x0A#6 f vd a b)
  | .vsra m f vd a b => some (vWord m 0x0B#6 f vd a b)
  | .vclt m f vd a b => some (vWord m 0x0C#6 f vd a b)
  | .vcle m f vd a b => some (vWord m 0x0D#6 f vd a b)
  | .vceq m f vd a b => some (vWord m 0x0E#6 f vd a b)
  | .vsel f vd a b => some (vWord false 0x0F#6 f vd a b)
  | .vdiv m f vd a b => some (vWord m 0x10#6 f vd a b)
  | .vsqrt m vd a => some (vWord m 0x11#6 .fp32 vd a 0#5)
  | .vrcp m vd a => some (vWord m 0x12#6 .fp32 vd a 0#5)
  | .vexp2 m vd a => some (vWord m 0x13#6 .fp32 vd a 0#5)
  | .vlog2 m vd a => some (vWord m 0x14#6 .fp32 vd a 0#5)
  | .vrsum m f vd a => some (vWord m 0x15#6 f vd a 0#5)
  | .vrmax m f vd a => some (vWord m 0x16#6 f vd a 0#5)
  | .vrmin m f vd a => some (vWord m 0x17#6 f vd a 0#5)
  | .vperm m f vd a b => some (vWord m 0x18#6 f vd a b)
  | .vslide m f vd a b => some (vWord m 0x19#6 f vd a b)
  | .vsplat m f vd a => some (vWord m 0x1A#6 f vd a 0#5)
  | .vxtr f rd a b => some (vWord false 0x1B#6 f rd a b)
  | .vcvt m src dst vd a => some (vWord m 0x1C#6 src vd a (0#2 ++ dst.code))
  | .vq m f vd a b => some (vWord m 0x1D#6 f vd a b)
  | .vdq m f vd a b => some (vWord m 0x1E#6 f vd a b)
  | .vrng m vd => some (vWord m 0x1F#6 .int vd 0#5 0#5)
  | .vscan m f vd a => some (vWord m 0x20#6 f vd a 0#5)
  | .vmov m f vd a => some (vWord m 0x21#6 f vd a 0#5)
  | .vld m vd a => some (memWord 0#3 (0#3 ++ boolBit m ++ 0#3) vd a 0#5)
  | .vst m vs a => some (memWord 0#3 (1#3 ++ boolBit m ++ 0#3) vs a 0#5)
  | .vlds m sz vd a b => some (memWord 0#3 (2#3 ++ boolBit m ++ sz.code ++ 0#1) vd a b)
  | .vsts m sz vs a b => some (memWord 0#3 (3#3 ++ boolBit m ++ sz.code ++ 0#1) vs a b)
  | .vlx m sz scl vd a b => some (memWord 0#3 (4#3 ++ boolBit m ++ sz.code ++ boolBit scl) vd a b)
  | .vsx m sz scl vs a b => some (memWord 0#3 (5#3 ++ boolBit m ++ sz.code ++ boolBit scl) vs a b)
  | .vldS vd a => some (memWord 0#3 0x60#7 vd a 0#5)
  | .bufld b vd a => some (memWord 0#3 (0x19#5 ++ b.code) vd a 0#5)
  | .bufst b vs a => some (memWord 0#3 (0x1A#5 ++ b.code) vs a 0#5)
  | .vldB b vd a c => some (memWord 0#3 (7#3 ++ b) vd a c)
  | .ldS rd a => some (memWord 1#3 0x00#7 rd a 0#5)
  | .ldSe rd a => some (memWord 1#3 0x20#7 rd a 0#5)
  | .ldB dbl b rd a c => some (memWord 1#3 (2#2 ++ boolBit dbl ++ b) rd a c)
  | .ldAcq sz sc rd a => some (memWord 1#3 (3#2 ++ sz.code ++ sc.code ++ 0#1) rd a 0#5)
  | .stRel sz sc b a => some (memWord 2#3 (0#2 ++ sz.code ++ sc.code ++ 0#1) 0#5 a b)
  | .feSet a => some (memWord 2#3 0x20#7 0#5 a 0#5)
  | .feClr a => some (memWord 2#3 0x40#7 0#5 a 0#5)
  | .amoAdd o dbl sc rd a b => some (amoWord 0#4 o dbl sc rd a b)
  | .amoAnd o dbl sc rd a b => some (amoWord 1#4 o dbl sc rd a b)
  | .amoOr o dbl sc rd a b => some (amoWord 2#4 o dbl sc rd a b)
  | .amoXor o dbl sc rd a b => some (amoWord 3#4 o dbl sc rd a b)
  | .amoMin o dbl sc rd a b => some (amoWord 4#4 o dbl sc rd a b)
  | .amoMax o dbl sc rd a b => some (amoWord 5#4 o dbl sc rd a b)
  | .amoMinu o dbl sc rd a b => some (amoWord 6#4 o dbl sc rd a b)
  | .amoMaxu o dbl sc rd a b => some (amoWord 7#4 o dbl sc rd a b)
  | .amoSwap o dbl sc rd a b => some (amoWord 8#4 o dbl sc rd a b)
  | .amoCas o dbl sc rd a b => some (amoWord 9#4 o dbl sc rd a b)
  | .amoFadd o sc rd a b => some (amoWord 10#4 o false sc rd a b)
  | .fenceSc k sc => some (memWord 7#3 (0#4 ++ sc.code ++ 0#1) (0#3 ++ k.code) 0#5 0#5)
  | .tideAdv a => some (memWord 7#3 (1#4 ++ 0#3) 0#5 a 0#5)
  | .tideRd rd a => some (memWord 7#3 (2#4 ++ 0#3) rd a 0#5)
  | .lkTake sc rd a => some (memWord 7#3 (3#4 ++ sc.code ++ 0#1) rd a 0#5)
  | .lkGive sc a => some (memWord 7#3 (4#4 ++ sc.code ++ 0#1) 0#5 a 0#5)
  | .qGet q rd => some (memWord 7#3 (5#4 ++ q) rd 0#5 0#5)
  | .vqGet q vd => some (memWord 7#3 (6#4 ++ q) vd 0#5 0#5)
  | .qStat q rd => some (memWord 7#3 (7#4 ++ q) rd 0#5 0#5)
  | .qClose q => some (memWord 7#3 (8#4 ++ q) 0#5 0#5 0#5)
  | .pref l2 w a b => some (memWord 7#3 (9#4 ++ 0#1 ++ boolBit l2 ++ boolBit w) 0#5 a b)
  | .mxDesc md a b => some (selWord 0x5B#7 0#3 0#4 md 0#5 a b)
  | .mxTcfg td a => some (selWord 0x5B#7 0#3 1#4 td 0#5 a 0#5)
  | .mxTcfgRoute td a => some (selWord 0x5B#7 0#3 1#4 td 0#5 a 0#5)
  | .mxZero td => some (selWord 0x5B#7 0#3 2#4 td 0#5 0#5 0#5)
  | .mxMma td a b => some (selWord 0x5B#7 0#3 3#4 0#3 (z2 td) (z2 a) (z2 b))
  | .mxMmq td a w s => some (selWord 0x5B#7 0#3 4#4 s (z2 td) (z2 a) (z2 w))
  | .mxMms td a b vm q => some (lWord (0#2 ++ vm) (z2 b) (z2 a) 2#3 (q ++ td) 0x5B#7)
  | .mxDrn td a => some (selWord 0x5B#7 0#3 5#4 td 0#5 a 0#5)
  | .mxRd td vd a => some (selWord 0x5B#7 0#3 6#4 td vd a 0#5)
  | .mxWr td vs a => some (selWord 0x5B#7 0#3 7#4 td vs a 0#5)
  | .mxWait td => some (selWord 0x5B#7 0#3 8#4 td 0#5 0#5 0#5)
  | .mxRowp td a => some (selWord 0x5B#7 0#3 9#4 td 0#5 a 0#5)
  | .mxStat td rd => some (selWord 0x5B#7 0#3 10#4 td rd 0#5 0#5)
  | .cpPost vs a => some (selWord 0x5B#7 1#3 0#4 0#3 vs a 0#5)
  | .cpResume vs a => some (selWord 0x5B#7 1#3 0#4 0#3 vs a 0#5)
  | .cpCancel vs a => some (selWord 0x5B#7 1#3 0#4 0#3 vs a 0#5)
  | .cpBind a b => some (selWord 0x5B#7 1#3 1#4 0#3 0#5 a b)
  | .post a b => some (selWord 0x5B#7 1#3 2#4 0#3 0#5 a b)
  | .srpProbe rd a b => some (selWord 0x5B#7 1#3 3#4 0#3 rd a b)
  | .srpRec a b => some (selWord 0x5B#7 1#3 4#4 0#3 0#5 a b)
  | .srpInv a => some (selWord 0x5B#7 1#3 5#4 0#3 0#5 a 0#5)
  | .srpInvAll => some (selWord 0x5B#7 1#3 5#4 1#3 0#5 0#5 0#5)
  | .srpStat c rd => some (selWord 0x5B#7 1#3 6#4 c.code rd 0#5 0#5)
  | .fork d a b => some (selWord 0x7B#7 0#3 0#4 d.code 0#5 a b)
  | .join a => some (selWord 0x7B#7 0#3 1#4 0#3 0#5 a 0#5)
  | .xcall a => some (selWord 0x7B#7 0#3 2#4 0#3 0#5 a 0#5)
  | .xret a => some (selWord 0x7B#7 0#3 3#4 0#3 0#5 a 0#5)
  | .frmNew rd a => some (selWord 0x7B#7 0#3 4#4 0#3 rd a 0#5)
  | .frmFree a => some (selWord 0x7B#7 0#3 5#4 0#3 0#5 a 0#5)
  | .msgSend a b => some (selWord 0x7B#7 1#3 0#4 0#3 0#5 a b)
  | .msgMsk => some (selWord 0x7B#7 1#3 1#4 0#3 0#5 0#5 0#5)
  | .msgUnm => some (selWord 0x7B#7 1#3 2#4 0#3 0#5 0#5 0#5)
  | .msgRet => some (selWord 0x7B#7 1#3 3#4 0#3 0#5 0#5 0#5)
  | .wait => some (selWord 0x7B#7 1#3 4#4 0#3 0#5 0#5 0#5)
  | .sleepT a => some (selWord 0x7B#7 1#3 5#4 0#3 0#5 a 0#5)
  | .yield => some (selWord 0x7B#7 1#3 6#4 0#3 0#5 0#5 0#5)
  | .genRd sp rd a => some (selWord 0x7B#7 2#3 0#4 sp.code rd a 0#5)
  | .genNew rd => some (selWord 0x7B#7 2#3 1#4 0#3 rd 0#5 0#5)
  | .genScrub sp a => some (selWord 0x7B#7 2#3 2#4 sp.code 0#5 a 0#5)
  | .tret => some (selWord 0x7B#7 3#3 0#4 0#3 0#5 0#5 0#5)
  | .gctxRes a => some (selWord 0x7B#7 3#3 1#4 0#3 0#5 a 0#5)
  | .gctxKill a => some (selWord 0x7B#7 3#3 2#4 0#3 0#5 a 0#5)
  | .plcFind rd a => some (selWord 0x7B#7 3#3 3#4 0#3 rd a 0#5)
  | .plcLoad rd a b => some (selWord 0x7B#7 3#3 4#4 0#3 rd a b)
  | .plcRel a => some (selWord 0x7B#7 3#3 5#4 0#3 0#5 a 0#5)
  | .cfgWr a b => some (selWord 0x7B#7 3#3 6#4 0#3 0#5 a b)
  | .cfgWrRestamp a b => some (selWord 0x7B#7 3#3 6#4 0#3 0#5 a b)
  | .cfgChk rd a => some (selWord 0x7B#7 3#3 7#4 0#3 rd a 0#5)
  | _ => none

/-! ## The G-set (R51-R54) -/

def Pred.code : Pred → BitVec 2
  | .none => 0 | .onTrue => 1 | .onFalse => 2
def Pred.ofCode (c : BitVec 2) : Option Pred :=
  match c.toNat with | 0 => some .none | 1 => some .onTrue | 2 => some .onFalse | _ => Option.none

def Act.code : Act → BitVec 2
  | .normal => 0 | .sticky => 1 | .purge => 2 | .null => 3
def Act.ofCode (c : BitVec 2) : Act :=
  match c.toNat with | 0 => .normal | 1 => .sticky | 2 => .purge | _ => .null

/-- The node of an opcode (R54). -/
def gNode (opc : BitVec 8) (n : GNode) : Option Instr :=
  match opc.toNat with
  | 0x00 => some (.gAdd n)
  | 0x01 => some (.gSub n)
  | 0x02 => some (.gMul n)
  | 0x03 => some (.gMulh n)
  | 0x04 => some (.gDiv n)
  | 0x05 => some (.gRem n)
  | 0x06 => some (.gAnd n)
  | 0x07 => some (.gOr n)
  | 0x08 => some (.gXor n)
  | 0x09 => some (.gShl n)
  | 0x0A => some (.gShr n)
  | 0x0B => some (.gSra n)
  | 0x0C => some (.gMin n)
  | 0x0D => some (.gMax n)
  | 0x10 => some (.gTlt n)
  | 0x11 => some (.gTle n)
  | 0x12 => some (.gTeq n)
  | 0x13 => some (.gTne n)
  | 0x14 => some (.gTltu n)
  | 0x15 => some (.gTleu n)
  | 0x20 => some (.gFadd n)
  | 0x21 => some (.gFsub n)
  | 0x22 => some (.gFmul n)
  | 0x23 => some (.gFfma n)
  | 0x24 => some (.gFmin n)
  | 0x25 => some (.gFmax n)
  | 0x26 => some (.gFdiv n)
  | 0x27 => some (.gFsqrt n)
  | 0x28 => some (.gFrcp n)
  | 0x29 => some (.gFexp2 n)
  | 0x2A => some (.gFlog2 n)
  | 0x2B => some (.gFlt n)
  | 0x2C => some (.gFle n)
  | 0x2D => some (.gFeq n)
  | 0x30 => some (.gCvt n)
  | 0x31 => some (.gQcvt n)
  | 0x32 => some (.gDq n)
  | 0x33 => some (.gRng n)
  | 0x40 => some (.gMov n)
  | 0x41 => some (.gMovi n)
  | 0x42 => some (.gFrd n)
  | 0x43 => some (.gFwr n)
  | 0x44 => some (.gNull n)
  | 0x50 => some (.gSteer n)
  | 0x51 => some (.gMerge n)
  | 0x52 => some (.gOmerge n)
  | 0x53 => some (.gBro n)
  | 0x54 => some (.gCall n)
  | 0x55 => some (.gRet n)
  | 0x56 => some (.gCcall n)
  | 0x57 => some (.gTrap n)
  | 0x60 => some (.gInx n)
  | 0x61 => some (.gFnew n)
  | 0x62 => some (.gFfree n)
  | 0x63 => some (.gTget n)
  | 0x64 => some (.gTset n)
  | 0x65 => some (.gPurge n)
  | 0x70 => some (.gLd n)
  | 0x71 => some (.gSt n)
  | 0x72 => some (.gLdb n)
  | 0x73 => some (.gLda n)
  | 0x74 => some (.gStrl n)
  | 0x75 => some (.gIrd n)
  | 0x76 => some (.gIwr n)
  | 0x77 => some (.gFence n)
  | 0x78 => some (.gPref n)
  | 0x80 => some (.gAmo n)
  | 0x81 => some (.gLkt n)
  | 0x82 => some (.gLkg n)
  | 0x83 => some (.gMcomb n)
  | 0x90 => some (.gPost n)
  | 0x91 => some (.gGat n)
  | 0x92 => some (.gSct n)
  | 0x93 => some (.gCpy n)
  | 0x94 => some (.gTadv n)
  | 0x95 => some (.gProbe n)
  | 0x96 => some (.gRec n)
  | 0xA0 => some (.gSgen n)
  | 0xA1 => some (.gRpt n)
  | 0xA2 => some (.gCnt n)
  | 0xA3 => some (.gCtok n)
  | 0xA4 => some (.gDly n)
  | 0xA5 => some (.gMxp n)
  | 0xA6 => some (.gFin n)
  | 0xB0 => some (.gTnow n)
  | 0xB1 => some (.gTgate n)
  | _ => none

/-- A node's word from its opcode and fields (R51). -/
def GNode.word (n : GNode) (opc : BitVec 8) : BitVec 64 :=
  opc ++ n.fmt.code ++ boolBit n.any ++ n.pred.code ++ n.act.code ++ n.t0 ++ n.t1 ++ n.tm ++ n.imm

/-- The decoder of a G-set word: assigned opcode and the per-word conditions of R57. -/
def decodeG (w : BitVec 64) : Except DecodeError Instr :=
  field (Pred.ofCode (w.extractLsb' 50 2)) fun p =>
    match gNode (w.extractLsb' 56 8)
        { fmt := Fmt.ofCode (w.extractLsb' 53 3), any := bit1 (w.extractLsb' 52 1), pred := p,
          act := Act.ofCode (w.extractLsb' 48 2), t0 := w.extractLsb' 38 10, t1 := w.extractLsb' 28 10,
          tm := w.extractLsb' 18 10, imm := w.extractLsb' 0 18 } with
    | none => .error .opcode
    | some i => only i.wf i

/-- The word of a node; none for L-set instructions and events. -/
def encodeG : Instr → Option (BitVec 64)
  | .gAdd n => some (n.word 0x00#8)
  | .gSub n => some (n.word 0x01#8)
  | .gMul n => some (n.word 0x02#8)
  | .gMulh n => some (n.word 0x03#8)
  | .gDiv n => some (n.word 0x04#8)
  | .gRem n => some (n.word 0x05#8)
  | .gAnd n => some (n.word 0x06#8)
  | .gOr n => some (n.word 0x07#8)
  | .gXor n => some (n.word 0x08#8)
  | .gShl n => some (n.word 0x09#8)
  | .gShr n => some (n.word 0x0A#8)
  | .gSra n => some (n.word 0x0B#8)
  | .gMin n => some (n.word 0x0C#8)
  | .gMax n => some (n.word 0x0D#8)
  | .gTlt n => some (n.word 0x10#8)
  | .gTle n => some (n.word 0x11#8)
  | .gTeq n => some (n.word 0x12#8)
  | .gTne n => some (n.word 0x13#8)
  | .gTltu n => some (n.word 0x14#8)
  | .gTleu n => some (n.word 0x15#8)
  | .gFadd n => some (n.word 0x20#8)
  | .gFsub n => some (n.word 0x21#8)
  | .gFmul n => some (n.word 0x22#8)
  | .gFfma n => some (n.word 0x23#8)
  | .gFmin n => some (n.word 0x24#8)
  | .gFmax n => some (n.word 0x25#8)
  | .gFdiv n => some (n.word 0x26#8)
  | .gFsqrt n => some (n.word 0x27#8)
  | .gFrcp n => some (n.word 0x28#8)
  | .gFexp2 n => some (n.word 0x29#8)
  | .gFlog2 n => some (n.word 0x2A#8)
  | .gFlt n => some (n.word 0x2B#8)
  | .gFle n => some (n.word 0x2C#8)
  | .gFeq n => some (n.word 0x2D#8)
  | .gCvt n => some (n.word 0x30#8)
  | .gQcvt n => some (n.word 0x31#8)
  | .gDq n => some (n.word 0x32#8)
  | .gRng n => some (n.word 0x33#8)
  | .gMov n => some (n.word 0x40#8)
  | .gMovi n => some (n.word 0x41#8)
  | .gFrd n => some (n.word 0x42#8)
  | .gFwr n => some (n.word 0x43#8)
  | .gNull n => some (n.word 0x44#8)
  | .gSteer n => some (n.word 0x50#8)
  | .gMerge n => some (n.word 0x51#8)
  | .gOmerge n => some (n.word 0x52#8)
  | .gBro n => some (n.word 0x53#8)
  | .gCall n => some (n.word 0x54#8)
  | .gRet n => some (n.word 0x55#8)
  | .gCcall n => some (n.word 0x56#8)
  | .gTrap n => some (n.word 0x57#8)
  | .gInx n => some (n.word 0x60#8)
  | .gFnew n => some (n.word 0x61#8)
  | .gFfree n => some (n.word 0x62#8)
  | .gTget n => some (n.word 0x63#8)
  | .gTset n => some (n.word 0x64#8)
  | .gPurge n => some (n.word 0x65#8)
  | .gLd n => some (n.word 0x70#8)
  | .gSt n => some (n.word 0x71#8)
  | .gLdb n => some (n.word 0x72#8)
  | .gLda n => some (n.word 0x73#8)
  | .gStrl n => some (n.word 0x74#8)
  | .gIrd n => some (n.word 0x75#8)
  | .gIwr n => some (n.word 0x76#8)
  | .gFence n => some (n.word 0x77#8)
  | .gPref n => some (n.word 0x78#8)
  | .gAmo n => some (n.word 0x80#8)
  | .gLkt n => some (n.word 0x81#8)
  | .gLkg n => some (n.word 0x82#8)
  | .gMcomb n => some (n.word 0x83#8)
  | .gPost n => some (n.word 0x90#8)
  | .gGat n => some (n.word 0x91#8)
  | .gSct n => some (n.word 0x92#8)
  | .gCpy n => some (n.word 0x93#8)
  | .gTadv n => some (n.word 0x94#8)
  | .gProbe n => some (n.word 0x95#8)
  | .gRec n => some (n.word 0x96#8)
  | .gSgen n => some (n.word 0xA0#8)
  | .gRpt n => some (n.word 0xA1#8)
  | .gCnt n => some (n.word 0xA2#8)
  | .gCtok n => some (n.word 0xA3#8)
  | .gDly n => some (n.word 0xA4#8)
  | .gMxp n => some (n.word 0xA5#8)
  | .gFin n => some (n.word 0xA6#8)
  | .gTnow n => some (n.word 0xB0#8)
  | .gTgate n => some (n.word 0xB1#8)
  | _ => none

/-! ## Bytes -/

/-- The word stored little-endian in the bytes. -/
def leNat : List Byte → Nat
  | [] => 0
  | b :: r => b.toNat + 256 * leNat r

/-- The `n` bytes of a number, little-endian (R1). -/
def leBytes : Nat → Nat → List Byte
  | 0, _ => []
  | n + 1, v => BitVec.ofNat 8 v :: leBytes n (v / 256)

/-- An L-set instruction from the bytes at its address (R30). -/
def decodeLBytes (bs : List Byte) : Except DecodeError Instr :=
  match bs with
  | b0 :: b1 :: b2 :: b3 :: _ => decodeL (b3 ++ b2 ++ b1 ++ b0)
  | _ => .error .short

/-- A node from the bytes of a block image (R51). -/
def decodeGBytes (bs : List Byte) : Except DecodeError Instr :=
  if 8 ≤ bs.length then decodeG (BitVec.ofNat 64 (leNat (bs.take 8))) else .error .short

/-- Answers of the decoder as an Option. -/
def okOnly (r : Except DecodeError Instr) : Option Instr :=
  match r with | .ok i => some i | .error _ => none

/-- The instruction of a row of spec/opcode_table.json from its bits: an L-set word of 32 bits, or a
node's word of 64. -/
def decodeTableWord (nbits w : Nat) : Option Instr :=
  if nbits ≤ 32 then okOnly (decodeLBytes (leBytes 4 w))
  else if nbits ≤ 64 then okOnly (decodeGBytes (leBytes 8 w))
  else none

end Sys2Proof
end

