-- ==== Sys2Proof/Config.lean ====
section
/-! DEFINITION. What an implementation fixes: the free values the spec leaves open (opaque: no proof can
see them), and the unloaded times it states with "about" (R230, R268, R412, R435, R465, R477, R518). -/

namespace Sys2Proof.Config

/-! ## Free values -/

/-- The n-th free choice of the run (log 2): which frame, stack, index or victim is taken (R277). -/
opaque freeNat : Nat → Nat

/-- The value an approximate or unstated result takes, by draw. -/
opaque freeWord : Nat → Word

/-- The signature bytes r and s (132) of the identity key over a message, by draw (R480): the private
key never leaves the device. -/
opaque identitySign : Nat → List Byte → List Byte

/-- The identity public key, x then y, 132 bytes (R482). -/
opaque identityKey : List Byte

/-- The certificate chain (R482). -/
opaque certChain : List Byte

/-- The serial number (R480). -/
opaque serial : Word

/-- Version and measurement of the firmware that runs after reset, by the flashed package (none: the
firmware of manufacture) (R480, R516). -/
opaque runningVersion : Option (List Byte) → BitVec 32
opaque runningMeasure : Option (List Byte) → BitVec 512

/-- Whether a package is signed by the Aedolmoft firmware key (R481), and the version it carries. -/
opaque packageSigned : List Byte → Bool
opaque packageVersion : List Byte → BitVec 32

/-- CXL link state per port: width and speed (R482). -/
opaque linkState : Nat → BitVec 32

/-- Whether the host refuses a translation of an IOVA under a PASID (R468). -/
opaque hostRefuses : Nat → Nat → Bool

/-- The hash of a matching entry's key (block slot, index, frame, frame generation, ITER + 1 or 0) that selects a bit of
the overflow presence filter (R296, R299). -/
opaque matchHash : Nat → Nat

/-! ## Unloaded times, in clk -/

def l2Clk : Nat := 40
def nearClk : Nat := 300
def lpddrClk : Nat := 500
def cxlClk : Nat := 1200
def hostClk : Nat := 1500
def regClk : Nat := 300
def meshCove : Nat := 12
def meshQuad : Nat := 40
def meshFar : Nat := 80
def spillClk : Nat := 40

end Sys2Proof.Config
end

