-- ==== Sys2Proof/Machine/Ev.lean ====
section
/-! DEFINITION. The events of the device, its host and its package as plain data of the schedule: one
constructor of `Ev` for each event row of the table of operations and events. An event in flight is held as
an `Ev`; the step of an `Ev` is the step of the constructor of `Instr` of the same name. -/

namespace Sys2Proof

/-- The events (95_what_each_step_holds.md). -/
inductive Ev where
  -- events of the slots and their cores
  | rotationBoundary (core : Nat)
  | dequePop (slot : Nat)
  | dequeSteal (slot : Nat)
  | joinwinExpiry (slot : Nat)
  | spillSaveComplete (slot : Nat)
  | spillRestore (slot : Nat)
  | messageArrival (m : Msg)
  | msgOverflowWrite (m : Msg) (bound : Gen)
  | messageDelivery (slot : Nat)
  | sleepDeadline (slot : Nat)
  | missFillArrival (slot : Nat)
  | tlbWalkComplete (slot : Nat)
  | divComplete (slot : Nat)
  | coalesceDrainTimeout (core : Nat) (line : Nat)
  | meshBurstMerge (cove : Nat)
  | l2WriteForward (cove : Nat) (line : Nat)
  | l1dLineExpiry (core : Nat) (line : Nat)
  | syncLoadComplete (slot : Nat)
  | boundedLoadComplete (slot : Nat)
  | tideTmo (slot : Nat)
  | amoComplete (slot : Nat)
  | lockGranted (slot : Nat)
  | mxComplete (core : Nat)
  | patrolScrub (hits : List EccHit)
  -- events of the engines
  | copyStart (cove : Nat)
  | copyBeat (cove : Nat)
  | copyComplete (cove : Nat) (id : Nat)
  | copyPause (cove : Nat) (id : Nat)
  | srpVerdict (slot : Nat)
  | replayCopyComplete (quad : Nat) (vmid : Nat) (key : Nat)
  | recordCopyComplete (quad : Nat) (vmid : Nat) (key : Nat)
  -- events of the graph
  | tokenMatch (rk : RKey) (t : Token) (src : Option IKey)
  | matchRefill (rk : RKey) (x y : Nat)
  | countToken (rk : RKey) (ik : IKey) (idx : Nat) (null : Bool)
  | instanceCommit (rk : RKey) (ik : IKey)
  | commitToken (rk : RKey) (ik : IKey) (cell : Nat)
  | gFaultReport (rk : RKey) (ik : IKey)
  | buoyTokenArrival (rk : RKey) (buoy : Nat) (t : Token) (src : Option (RKey × IKey))
  | moorDelivery (vmid : Nat) (desc : Word)
  | controlTokenArrival (rk : RKey) (ik : IKey) (idx : Nat) (finish : Bool)
  | streamLoopStart (rk : RKey) (ik : IKey) (cell : Nat)
  | streamLoopFinish (rk : RKey) (ik : IKey) (cell : Nat)
  | tgateDeadline (rk : RKey) (ik : IKey) (idx : Nat)
  | handoverToken (rk : RKey) (x y : Nat)
  | placementRequest (quad : Nat)
  | overlayLoadComplete (rk : RKey) (x y : Nat) (slot : Nat)
  | cellSave (rk : RKey) (x y : Nat)
  | slackWaveEnd (rk : RKey)
  | regionRestore (rk : RKey)
  -- events of the host and of management
  | packetIngress (q : Nat) (slot : Nat) (w : Word)
  | lTaskLaunch (q : Nat)
  | gLaunch (q : Nat)
  | hostMemoryAccess (write : Bool) (pa : Nat) (n : Nat) (data : List Byte)
  | tsyncWrite (ptm : Word) (t1588 : Word)
  | registerWriteIgnored (off : Nat)
  | tenantCreate (q : Nat) (p : MPkt)
  | tenantDestroy (q : Nat) (p : MPkt)
  | queueBind (q : Nat) (p : MPkt)
  | queueUnbind (q : Nat) (p : MPkt)
  | windowMap (q : Nat) (p : MPkt)
  | tideSet (q : Nat) (p : MPkt)
  | tlbShoot (q : Nat) (p : MPkt)
  | genWrap (q : Nat) (p : MPkt)
  | genWrapComplete
  | fenceUnit (q : Nat) (p : MPkt)
  | islandSet (q : Nat) (p : MPkt)
  | islandFreqChange (island : Nat)
  | powerCap (q : Nat) (p : MPkt)
  | timeSet (q : Nat) (p : MPkt)
  | timeCfg (q : Nat) (p : MPkt)
  | imageVerify (q : Nat) (p : MPkt)
  | attestQuote (q : Nat) (p : MPkt)
  | fwUpdate (q : Nat) (p : MPkt)
  | debugRead (q : Nat) (p : MPkt)
  | debugWrite (q : Nat) (p : MPkt)
  | infoRead (q : Nat) (p : MPkt)
  | countRead (q : Nat) (p : MPkt)
  | traceCfg (q : Nat) (p : MPkt)
  | regionSwap (q : Nat) (p : MPkt)
  | badcmd (q : Nat) (cmd : Byte) (p : MPkt)
  | powerSample (mw : Nat) (temps : List Int)
  | powerTrace
  | ptmExchange (ptm : Word)
  | ppsEdge
  | todMessage (bytes : List Byte)
  | timeHoldover
  | coldReset
  | warmReset
  | supplyOutOfLimits
  | illegalInstruction (w : BitVec 32)
  | fetchPageX (va : Word)
  | placerComplete (slot : Nat)
  | memoryReply (rk : RKey) (ik : IKey) (idx : Nat)
  | msixUnmask (fn : Nat) (vec : Nat)
  | queueWindowWrite (q : Nat) (off : Nat) (data : List Byte)
  deriving DecidableEq, Repr, Inhabited

end Sys2Proof
end

