-- ==== Sys2Proof/Machine/Map.lean ====
section
/-! DEFINITION. Sparse collections by number: lists of (key, value) pairs with the keys strictly rising.
Reading stops where the keys pass the one sought, so the laws of reading after writing hold of every
list; writing keeps the order. Memory is the byte case, with no entry equal to the default. -/

namespace Sys2Proof.Machine

/-- An element put in its place in a list in order. -/
def insertBy {α : Type} (le : α → α → Bool) (a : α) : List α → List α
  | [] => [a]
  | b :: r => if le a b then a :: b :: r else b :: insertBy le a r

/-- A list in order, equal elements keeping theirs. -/
def sortBy {α : Type} (le : α → α → Bool) : List α → List α
  | [] => []
  | a :: r => insertBy le a (sortBy le r)

/-- A sparse collection keyed by number. -/
abbrev AMap (α : Type) := List (Nat × α)

namespace AMap

/-- The entry of key `k`. -/
def get? {α : Type} : AMap α → Nat → Option α
  | [], _ => none
  | (k', v) :: r, k => if k = k' then some v else if k < k' then none else get? r k

/-- The value of key `k`, or `d` where none is listed. -/
def getD {α : Type} (m : AMap α) (k : Nat) (d : α) : α := (get? m k).getD d

/-- The collection with `v` at key `k`. -/
def set {α : Type} : AMap α → Nat → α → AMap α
  | [], k, v => [(k, v)]
  | (k', v') :: r, k, v =>
    if k < k' then (k, v) :: (k', v') :: r
    else if k = k' then (k, v) :: r
    else (k', v') :: set r k v

/-- The collection without key `k`. -/
def del {α : Type} : AMap α → Nat → AMap α
  | [], _ => []
  | (k', v') :: r, k =>
    if k < k' then (k', v') :: r
    else if k = k' then r.dropWhile (fun p => p.1 ≤ k)
    else (k', v') :: del r k

/-- Set, or remove where the value is the default. -/
def put {α : Type} [DecidableEq α] (d : α) (m : AMap α) (k : Nat) (v : α) : AMap α :=
  if v = d then del m k else set m k v

/-- Every key that is listed. -/
def keys {α : Type} (m : AMap α) : List Nat := m.map (·.1)

/-- The keys rise strictly. -/
def sorted {α : Type} : AMap α → Bool
  | [] => true
  | [_] => true
  | a :: b :: r => decide (a.1 < b.1) && sorted (b :: r)

/-- Each value changed by `f`, which sees the key. -/
def mapV {α : Type} (m : AMap α) (f : Nat → α → α) : AMap α := m.map fun p => (p.1, f p.1 p.2)

end AMap

/-- Bytes by address (memory, local stores): an unlisted byte reads 0. -/
abbrev Bytes := AMap Byte

namespace Bytes

/-- One byte. -/
def rd (m : Bytes) (a : Nat) : Byte := AMap.getD m a 0#8
/-- One byte written: a zero is not listed. -/
def wr (m : Bytes) (a : Nat) (b : Byte) : Bytes := AMap.put 0#8 m a b

/-- `n` bytes from `a` on. -/
def rdN (m : Bytes) (a : Nat) : Nat → List Byte
  | 0 => []
  | n + 1 => rd m a :: rdN m (a + 1) n

/-- The bytes `bs` at `a` on. -/
def wrN (m : Bytes) (a : Nat) : List Byte → Bytes
  | [] => m
  | b :: r => wrN (wr m a b) (a + 1) r

/-- The canonical form: keys strictly rising, no entry 0. -/
def wf (m : Bytes) : Bool := AMap.sorted m && m.all fun p => p.2 != 0#8

end Bytes

/-- Memory by physical address: what no one has written reads 0 (log 44). -/
abbrev Memory := Bytes

/-- The canonical form of memory. -/
def Memory.wf (m : Memory) : Bool := Bytes.wf m

end Sys2Proof.Machine
end

