-- ==== Sys2Proof/Machine/Units.lean ====
section
/-! DEFINITION. The state of the units of the device as plain data: barrel slots, lantern cores, coves,
home ports, tenants, queues (R8, R18, R19, R21, R112, R472, R487). Fields with a default are at reset at
that default: State.reset lists no unit, and an unlisted unit is the default one. -/

namespace Sys2Proof.Machine

/-! ## Registers with their generation stamps (R187) -/

/-- An x or shadow register (R112). -/
structure XR where
  val : Word := 0#64
  gen : Gen := 0#16
  deriving DecidableEq, Repr, Inhabited

/-- A v register (R18). -/
structure VR where
  val : VWord := 0#1024
  gen : Gen := 0#16
  deriving DecidableEq, Repr, Inhabited

/-- An operand descriptor md (R161). -/
structure MR where
  val : BitVec 128 := 0#128
  gen : Gen := 0#16
  deriving DecidableEq, Repr, Inhabited

/-- A stream register (R219-R221). `win` holds the window's bytes from TAIL to HEAD; `cmd` is the
feeding copy command. -/
structure QR where
  gen   : Gen := 0#16
  bnd   : Bool := false
  esz   : BitVec 2 := 0#2
  left  : Nat := 0
  win   : List Byte := []
  done  : Bool := false
  flt   : Bool := false
  cause : BitVec 8 := 0#8
  cmd   : Nat := 0
  deriving DecidableEq, Repr, Inhabited

/-- A tile descriptor td (R157, R167, R168). -/
structure TR where
  gen     : Gen := 0#16
  v       : Bool := false
  owner   : BitVec 3 := 0#3
  int32   : Bool := false
  base    : BitVec 10 := 0#10
  ncol    : BitVec 6 := 0#6
  nrow    : BitVec 6 := 0#6
  pflags  : BitVec 5 := 0#5
  restart : BitVec 7 := 0#7
  deriving DecidableEq, Repr, Inhabited

/-- A 64-byte granule of a typed buffer or local store (R187, R189). -/
structure Granule where
  data : BitVec 512 := 0#512
  gen  : Gen := 0#16
  deriving DecidableEq, Repr, Inhabited

/-! ## Barrel slots -/

/-- A message in a slot's inbox (R119). -/
structure InMsg where
  payload : Word
  sender  : Nat
  ovf     : Bool
  deriving DecidableEq, Repr, Inhabited

/-- What a slot out of the rotation waits for (R111). -/
inductive WaitKind where
  | fill | walk | amo | div | mx | srp | placer
  | sync | tide | cpFull | join | msg | sleep | stream | lock | moor | result | port
  deriving DecidableEq, Repr, Inhabited

/-- A slot's place in the rotation (R111): it issues; it has no task; it waits for the effect of a
performed instruction to arrive (`done`); it waits at an instruction still to take effect, with the time
in ns at which the wait began and the address or frame waited on (`hold`), re-executed by the completing
event; its wait has ended and its next issue finishes the instruction (`resume`); its save or restore by the spill engine is under way (`saving`, with the image's index); or its core is
fenced (R447). -/
inductive Wait where
  | run
  | idle
  | done (k : WaitKind)
  | hold (k : WaitKind) (i : Instr) (since : Nat) (addr : Word)
  | resume (k : WaitKind) (i : Instr) (since : Nat) (addr : Word)
  | saving (index : Nat)
  | fenced
  deriving DecidableEq, Repr, Inhabited

/-- SLOTOWN (R116). -/
structure SlotOwn where
  pre   : Bool := false
  idle  : Bool := true
  vmid  : BitVec 6 := 0#6
  cls   : BitVec 2 := 0#2
  owner : BitVec 11 := 0#11
  deriving DecidableEq, Repr, Inhabited

/-- The task a slot runs (R270): its frame, the stack of the pool it holds, its queue, and whether it
holds memory locks, which pin it to the slot (R258). -/
structure Task where
  frame : Word := 0#64
  stack : Option Nat := none
  queue : Nat := 0
  locks : Nat := 0
  deriving DecidableEq, Repr, Inhabited

/-- The trap CSRs (R116). -/
structure TrapCsrs where
  tepc     : Word := 0#64
  tcause   : BitVec 8 := 0#8
  tval     : Word := 0#64
  tvec     : Word := 0#64
  tstatus  : BitVec 12 := 0#12
  tscratch : Word := 0#64
  deriving DecidableEq, Repr, Inhabited

/-- The number, message and control CSRs (R90, R114). MSGVEC and MSGPC hold bits [1:0] as 0. -/
structure UserCsrs where
  vrm      : BitVec 3 := 0#3
  nxflags  : BitVec 5 := 0#5
  rngst    : Word := 0#64
  msgvec   : Word := 0#64
  msgpc    : Word := 0#64
  msgcause : BitVec 14 := 0#14
  msgscr   : Word := 0#64
  tmo      : BitVec 48 := 0xF4240#48
  joinwin  : BitVec 32 := 4096#32
  deriving DecidableEq, Repr, Inhabited

/-- A barrel slot (R112). `taken` holds the words a waiting `vld.s` has taken (R215). -/
structure Slot where
  pc        : Word := 0#64
  sup       : Bool := false
  x         : AMap XR := []
  sx        : AMap XR := []
  v         : AMap VR := []
  q         : AMap QR := []
  md        : AMap MR := []
  inbox     : List InMsg := []
  masked    : Bool := false
  inHandler : Bool := false
  wcnt      : Nat := 0
  user      : UserCsrs := {}
  trap      : TrapCsrs := {}
  troot     : Word := 0#64
  gen       : Gen := 0#16
  trapMode  : Bool := false
  own       : SlotOwn := {}
  mxTd      : BitVec 3 := 0#3
  mxRows    : BitVec 7 := 0#7
  wait      : Wait := .idle
  lastIssue : Option Nat := none
  runSince  : Nat := 0
  taken     : AMap Word := []
  task      : Option Task := none
  deriving DecidableEq, Repr, Inhabited

/-! ## Caches and translation -/

/-- An entry of a store-coalescing buffer (R203): a 32-byte line of PA, the bytes it holds, and the clk
of its last store. -/
structure CbEntry where
  line  : Nat
  bytes : AMap Byte
  last  : Nat
  tide  : Option (Nat × Nat) := none
  deriving DecidableEq, Repr, Inhabited

/-- A 32-byte L1D line (R19, R203, R226). -/
structure L1dLine where
  data  : BitVec 256
  stamp : Nat
  clk   : Nat
  deriving DecidableEq, Repr, Inhabited

/-- A 64-byte L1I line (R458). -/
structure L1iLine where
  va   : Nat
  asid : Nat
  vmid : Nat
  pa   : Nat
  data : BitVec 512
  deriving DecidableEq, Repr, Inhabited

/-- A 64-byte cove L2 line (R203, R226, R249, R458): data, the offsets written and not yet forwarded with
the clk of the first, whether one write covered the whole line (R200), stamp, superseded mark, the L1I
presence bits. -/
structure L2Line where
  data  : BitVec 512
  dirty : List Nat := []
  whole : Bool := false
  since : Nat := 0
  stamp : Nat := 0
  tide  : Option (Nat × Nat) := none
  sup   : Bool := false
  cores : List Nat := []
  deriving DecidableEq, Repr, Inhabited

/-- A TLB entry (R433): the stage-1 leaf (`size` is the log2 of its bytes) with the address it maps to,
the intersected rights, and the union of HS. -/
structure TlbEntry where
  vmid : Nat
  asid : Nat
  glob : Bool
  size : Nat
  vpn  : Nat
  pa   : Nat
  r    : Bool
  w    : Bool
  x    : Bool
  u    : Bool
  s2   : BitVec 3
  hs   : Bool
  deriving DecidableEq, Repr, Inhabited

/-- A non-leaf table entry in a cove's walk cache (R433): its tenant, its PA, its word. -/
structure WalkEntry where
  vmid : Nat
  pa   : Nat
  word : Word
  deriving DecidableEq, Repr, Inhabited

/-- A miss slot of a cove (R21, R433): the 64 KiB page missed on and the clk at which its walk ends. -/
structure MissSlot where
  vmid : Nat
  asid : Nat
  page : Nat
  due  : Nat
  deriving DecidableEq, Repr, Inhabited

/-! ## Lantern cores -/

/-- A deque entry (R271) with the queue whose logical deque holds it. -/
structure DqEntry where
  ptr   : Word
  frame : Word
  slot  : BitVec 3
  dom   : BitVec 3
  queue : Nat
  deriving DecidableEq, Repr, Inhabited

/-- A band of an accumulating operation under way (R168, R169): the first C-buffer row and the first column of its
accumulators, the restart row after it, whether it is the last, their values before the band (the band shadow), the
addends of each element's groups in order, the flags of the groups' sums, and the C-buffer words that another slot
has stored to since, each with the value stored and the number of groups added before it. -/
structure MxBand where
  row   : Nat
  col   : Nat
  stop  : Nat
  last  : Bool
  ints  : Bool
  accs  : List (List Nat)
  adds  : List (List (List Nat))
  flags : BitVec 5
  put   : AMap (Nat × Nat) := []
  deriving DecidableEq, Repr, Inhabited

/-- An operation in the matrix engine (R154): its slot, its td (none for operations on no td), the flags that join
NXFLAGS at its completion beside PFLAGS, and whether it accumulates; the clk of its issue, and for an accumulating
one that has begun its time (R179), its instruction and the band under way. -/
structure MxOp where
  slot   : Nat
  td     : Option Nat
  flags  : BitVec 5
  accum  : Bool
  issued : Nat := 0
  clks   : Option Nat := none
  instr  : Option Instr := none
  band   : Option MxBand := none
  deriving DecidableEq, Repr, Inhabited

/-- A slot save under way in the spill engine (R436): `push`: its continuation is pushed when it is saved;
else the ending side pushes it (R275). `begun`: what the slot had in flight is complete, and the save runs.
`next`: the slot is kept for the next boundary, to start the entry given (R289) or for class 0 (R291). -/
structure SpillJob where
  slot  : Nat
  index : Nat
  push  : Bool
  begun : Bool := true
  next  : Option (Option DqEntry) := none
  deriving DecidableEq, Repr, Inhabited

/-- A lantern core (R18, R19): its issue pointer and the clk of its last issue (R108), descriptors, buffers,
engine queue and the clk at which its last operation completes (R179), caches, deque, spill engine, and
the slots kept for an entry, or for class 0, at the next boundary (R289, R291). -/
structure Core where
  ptr     : Nat := 0
  issued  : Option Nat := none
  td      : AMap TR := []
  rt      : AMap XR := []
  wbuf    : AMap Granule := []
  abuf    : AMap Granule := []
  cbuf    : AMap Granule := []
  mxq     : List MxOp := []
  mxEnd   : Nat := 0
  staged  : Option (BitVec 128) := none
  cb      : List CbEntry := []
  l1d     : AMap L1dLine := []
  l1i     : List L1iLine := []
  tlb     : List TlbEntry := []
  deque   : List DqEntry := []
  deficit : AMap Int := []
  spill   : Option SpillJob := none
  reserve : AMap (Option DqEntry) := []
  mhz     : Nat := 1200
  ceiling : Nat := 1200
  fenced  : Bool := false
  deriving DecidableEq, Repr, Inhabited

/-! ## Home memory ports (R14) -/

/-- A waiter of a memory lock (R257): the slot and its allocation's generation. -/
structure Waiter where
  slot : Nat
  gen  : Gen
  deriving DecidableEq, Repr, Inhabited

/-- The lock tables of a home port (R259), by lock word address. -/
structure Port where
  fifo : AMap (List Waiter) := []
  held : AMap Waiter := []
  deriving DecidableEq, Repr, Inhabited

/-! ## Tenants (R472) -/

/-- A tide region and its state at its home (R224, R225). -/
structure Tide where
  base  : BitVec 34
  size  : BitVec 16
  p     : BitVec 16
  t     : BitVec 48 := 0#48
  count : Nat := 0
  deriving DecidableEq, Repr, Inhabited

/-- A message in a tenant's overflow ring (R119), bound to its target's generation at arrival. -/
structure OvMsg where
  target  : Nat
  sender  : Nat
  payload : Word
  gen     : Gen
  deriving DecidableEq, Repr, Inhabited

/-- The argument block of TENANT.CREATE (R472). -/
structure TenantArgs where
  s2root  : Word := 0#64
  troot   : Word := 0#64
  svec    : Word := 0#64
  pasid   : Word := 0#64
  stkBase : Word := 0#64
  stk     : Word := 0#64
  fheap   : Word := 0#64
  fhsize  : Word := 0#64
  movr    : Word := 0#64
  movrn   : Word := 0#64
  fring   : Word := 0#64
  fslot   : Word := 0#64
  save    : Word := 0#64
  saven   : Word := 0#64
  rtab    : Word := 0#64
  rsave   : Word := 0#64
  repl    : Word := 0#64
  replsz  : Word := 0#64
  tidet   : Word := 0#64
  trace   : Word := 0#64
  tracen  : Word := 0#64
  keys    : Word := 0#64
  keyn    : Word := 0#64
  deriving DecidableEq, Repr, Inhabited

/-- What the model keeps of a saved task beside its image (R437, R439): its task, the slot it left,
whether it is pinned, the wait it resumes, whether its image is linked into the resume list (R273), and its bound stream registers,
which stay in the core (R223). -/
structure Saved where
  task : Task
  gen  : Gen
  slot : Nat
  pin  : Bool
  wait : Wait := .run
  list : Bool := false
  q    : AMap QR := []
  deriving DecidableEq, Repr, Inhabited

/-- A tenant (R472). `movrPos` is the place of the next entry of the overflow ring (R119). `frl` and `cvl` are the hardware and cove frame lists, keyed by 8 x cove + class
(R277); `carved` is the heap bytes carved; `fgens` the frame generations; `classes` the size class of
each frame by number; `ctr` the counters by name code (R487). -/
structure Tenant where
  present : Bool := false
  args    : TenantArgs := {}
  gen     : Gen := 0#16
  ctr     : AMap Nat := []
  tides   : AMap Tide := []
  movr    : List OvMsg := []
  movrPos : Nat := 0
  stkUsed : List Nat := []
  saves   : AMap Saved := []
  frl     : AMap (List Nat) := []
  cvl     : AMap (List Nat) := []
  carved  : Nat := 0
  fgens   : AMap (BitVec 8) := []
  classes : AMap Nat := []
  mten    : BitVec 512 := 0#512
  trmask  : Word := 0#64
  deriving DecidableEq, Repr, Inhabited

/-! ## Queues (R286, R470) -/

/-- An entry spilled from a core's deque (R273) and its place in the queue's spill ring. -/
structure Spilled where
  core : Nat
  ent  : DqEntry
  pos  : Nat := 0
  deriving DecidableEq, Repr, Inhabited

/-- A queue (R286, R470). `ingress` lists the window slots whose packets are ingress tokens, in order of
arrival; a listed slot is locked. `waited`: the packet held at its push has counted DEQ_WAIT (R273). `met`: the
steps of R288 that the packet under way has passed, 1 its check, 3 its dependences and deadline. -/
structure Queue where
  bound    : Bool := false
  vmid     : Nat := 0
  kind     : Nat := 0
  cls      : BitVec 2 := 0#2
  weight   : Nat := 0
  dom      : BitVec 3 := 0#3
  mask     : BitVec 256 := 0#256
  spillVa  : Word := 0#64
  spillN   : Nat := 0
  trapMode : Bool := false
  gen      : Gen := 0#16
  window   : Bytes := []
  ingress  : List Nat := []
  cons     : BitVec 16 := 0#16
  dn       : BitVec 16 := 0#16
  ovr      : Bool := false
  spilled  : List Spilled := []
  callback : List Word := []
  live     : List (Word × Word) := []
  stopped  : Bool := false
  waited   : Bool := false
  met      : Nat := 0
  deriving DecidableEq, Repr, Inhabited

end Sys2Proof.Machine
end

