-- ==== Sys2Proof/Machine/GraphUnits.lean ====
section
/-! DEFINITION. The state of the cells, regions, copy engines, replay engines and placers as plain data
(R20, R183, R184, R293-R309, R358-R370, R384-R411, R440-R464). -/

namespace Sys2Proof.Machine

/-! ## Tokens held in cells -/

/-- A token held or matched, with the instance that produced it (none for an entry token) and, for a
wide value, the three payloads above the first (R355). -/
structure MTok where
  tok  : Token
  src  : Option IKey := none
  wide : List Word := []
  deriving DecidableEq, Repr, Inhabited

/-- A firing of a node (R297): where it stands, the captured operands, whether it is null (R302), and
for a body node of a stream block its step (R358); `since` is the time in ns at which it began to wait
(R341); `began`: it has started, and only waits to be performed. -/
structure Firing where
  rk   : RKey
  ik   : IKey
  x    : Nat
  y    : Nat
  slot : Nat
  idx  : Nat
  l    : Option MTok := none
  r    : Option MTok := none
  p    : Option MTok := none
  nul  : Bool := false
  body : Option Nat := none
  since : Option Nat := none
  began : Bool := false
  deriving DecidableEq, Repr, Inhabited

/-- What is in flight: an event, or the firing of a node (R297). -/
inductive Work where
  | ev (e : Ev)
  | node (i : Instr) (f : Firing)
  deriving DecidableEq, Repr

/-- An entry of a matching store (R296, R299, R301, R327, R349). `iter` is absent in the entry of a
sticky token and of an `omerge`; `kept` holds retained entry tokens (R293), `win` the window of an `omerge` (R327) and
the tokens of a `merge` or `omerge` that wait for their instance (R294, R418). -/
structure MEntry where
  slot  : Nat
  idx   : Nat
  ctx   : Ctx
  iter  : Option (BitVec 16)
  l     : Option MTok := none
  r     : Option MTok := none
  p     : Option MTok := none
  fired : Bool := false
  kept  : List MTok := []
  gen   : Gen := 0#16
  used  : Nat := 0
  age   : Nat := 0
  timed : Option Nat := none
  next  : Option (BitVec 16) := none
  win   : List MTok := []
  deriving DecidableEq, Repr, Inhabited

/-- A request waiting at an M-cell word (R263, R267, R345): the firing that waits. -/
structure Waiting where
  off : Nat
  f   : Firing
  node : Instr
  deriving DecidableEq, Repr

/-- A lock token of an M-cell (R262-R265). -/
structure LockTok where
  holder : Option Ctx := none
  by_    : Option IKey := none
  abn    : Bool := false
  wait   : List Waiting := []
  deriving DecidableEq, Repr

/-- A pipeline register f0-f2 (R20). -/
structure FR where
  val : BitVec 256 := 0#256
  gen : Gen := 0#16
  deriving DecidableEq, Repr, Inhabited

/-! ## Stream loops of a cell (R358-R370) -/

/-- A generator descriptor read for an instance (R365, R367) and the next value's number. -/
structure GenDesc where
  base : Word
  ext  : Word
  str0 : Word
  str2 : Word
  deriving DecidableEq, Repr, Inhabited

/-- What a delay line's bytes do not say: the tag of each value, and the place of the value that the first round takes. -/
structure DlyTags where
  head : Nat := 0
  tags : List Fmt := []
  deriving DecidableEq, Repr, Inhabited

/-- The loop of one cell of a stream instance (R360, R361). Keys of `queues` are 4 x index + operand slot;
a queue's values beyond the fourth are those its held-back link still carries (R358). `gens` is keyed by
the GEN field, `outs` (the values an output generator has written) by index; `wins` the bytes that an A-cell's input
generator has read ahead (R205), by GEN; `dlys` by 8 x index + interleave slot the tags of the values in a delay line,
whose bytes lie in storage (R369), `chain` by index the clk until which a carry chain holds a `dly` (R383). `rank` counts the body nodes of the step already issued, `emit` the steps whose delay
values have left; `busy`: a body node is under way. -/
structure Loop where
  ik      : IKey
  slot    : Nat
  wide    : Bool := false
  ilv     : Nat := 1
  n       : Option Word := none
  wst     : Bool := false
  ups     : Bool := false
  started : Bool := false
  finished : Bool := false
  startL  : Bool := false
  finL    : Bool := false
  step    : Nat := 0
  rank    : Nat := 0
  emit    : Nat := 0
  busy    : Bool := false
  drain   : Nat := 0
  queues  : AMap (List MTok) := []
  gens    : AMap GenDesc := []
  outs    : AMap Nat := []
  wins    : AMap (List Byte) := []
  dlys    : AMap DlyTags := []
  chain   : AMap Nat := []
  deriving DecidableEq, Repr, Inhabited

/-! ## Cells -/

/-- A load-type firing of an A-cell whose result has not left (R343): its value once it is known, and
whether its reply has returned. -/
structure Reply where
  f    : Firing
  node : Instr
  val  : Option Word := none
  back : Bool := false
  deriving DecidableEq, Repr

/-- A cell (R20, R183, R184). `store` is the local store of a C- or A-cell and the instruction store of
an M-cell, by granule; `mem` and `wst` the M-cell memory and its word states (0 empty, 1 full,
2 deferred). `acb` is the A-cell's store-coalescing buffer by 64-byte line of PA (R344). `ovf` holds the heap
blocks of the waiters beyond the pool (R262, R345); `waitOv` the tokens that wait for an overlay fetch
(R457) or for a stream instance's admission (R359), `lookup` those in the lookup buffer or held behind it
(R299, R327), `replies` the load results of the memory channel in firing order (R343). `fireAt` and `matchAt` are the
clk of the last firing begun and of the last matching access, `divTo` the clk from which the divide unit is free
(R296, R304); `sent` lists by link (local, west, north, east, south) the clk in which tokens leave (R304). -/
structure Cell where
  store  : AMap Granule := []
  xbnd   : Nat := 0x200
  mem    : AMap Granule := []
  wst    : AMap Nat := []
  defer  : List Waiting := []
  ovf    : List Word := []
  locks  : AMap LockTok := []
  freg   : AMap FR := []
  rhdr   : Word := 0#64
  sw     : AMap Word := []
  ow     : List (Word × Word) := []
  ms     : List MEntry := []
  waitOv : List MTok := []
  lookup : List MTok := []
  replies : List Reply := []
  loops  : List Loop := []
  mxpq   : List MTok := []
  acb    : List CbEntry := []
  fireAt : Option Nat := none
  matchAt : Option Nat := none
  divTo  : Nat := 0
  sent   : AMap (List Nat) := []
  crc    : Option (BitVec 32) := none
  owner  : Option RKey := none
  fenced : Bool := false
  deriving DecidableEq, Repr

/-! ## Block instances and regions -/

/-- A fault found in an instance (R418), or in a committed one (R264), not yet reported; `work` is what
`gctx.res` retries (R423). -/
structure HeldFault where
  ik        : IKey
  committed : Bool := false
  cause     : BitVec 8
  addr      : Word
  idx       : Nat
  x         : Nat := 0
  y         : Nat := 0
  step      : Nat := 0
  work      : List Work := []
  deriving DecidableEq, Repr

/-- An effect of a fired node that waits for the commit (R307): its address, and the words it read when it
fired (R331). -/
structure Pend where
  lsid : Nat
  f    : Firing
  node : Instr
  addr : Word := 0#64
  data : List Word := []
  done : Bool := false
  deriving DecidableEq, Repr

/-- A block instance (R293, R294, R306). `after` lists the instances whose `bro` or `fin` named it (R295), `from_`
those it has tokens from, the first that of its first token, `fired` the nodes that have fired, `frames` the frames
its nodes allocated; `freed`: it has retired, and only writes of it are still to be performed. -/
structure Inst where
  ik        : IKey
  admitted  : Bool := false
  adm       : Nat := 0
  committed : Bool := false
  com       : Nat := 0
  freed     : Bool := false
  after     : List IKey := []
  lsids     : List Nat := []
  fws       : Nat := 0
  bros      : Nat := 0
  flags     : BitVec 5 := 0#5
  fired     : List Nat := []
  from_     : List IKey := []
  pend      : List Pend := []
  frames    : List Word := []
  deriving DecidableEq, Repr

/-- A block of a region's block table (R451). -/
structure Block where
  hdr      : Word := 0#64
  urg      : Bool := false
  image    : Word := 0#64
  place    : List Nat := []
  words    : List Word := []
  held     : Bool := false
  resident : Bool := false
  slot     : Nat := 0
  box      : Nat := 0
  boy      : Nat := 0
  deriving DecidableEq, Repr, Inhabited

/-- A buoy binding (R73, R397). -/
structure Binding where
  inward : Bool := false
  tagged : Bool := false
  bind   : BitVec 2 := 0#2
  sva    : Word := 0#64
  deriving DecidableEq, Repr, Inhabited

/-- A region buoy (R73, R450): its cell, target node, image binding, current binding and posting
position (R410). -/
structure Buoy where
  x    : Nat := 0
  y    : Nat := 0
  blk  : Nat := 0
  idx  : Nat := 0
  img  : Binding := {}
  cur  : Binding := {}
  pos  : Nat := 0
  deriving DecidableEq, Repr, Inhabited

/-- A parked context (R418, R423): its faulting instance, its cause, and the firings held for it. -/
structure Parked where
  ctx   : Ctx
  ik    : IKey
  committed : Bool := false
  cause : BitVec 8
  work  : List Work := []
  deriving DecidableEq, Repr

/-- What arrives at a cell after it saved, or was ready to fire there (R443, R444). -/
structure ArcRec where
  x    : Nat
  y    : Nat
  work : Work
  deriving DecidableEq, Repr

/-- A slack wave in progress (R440-R443): `back`: the region is to be restored as soon as it fits; the
cells saved, whose normal context issues nothing more, by key; the records taken. -/
structure Wave where
  back  : Bool := false
  saved : List Nat := []
  arcs  : List ArcRec := []
  deriving DecidableEq, Repr

/-- The saved image of a swapped-out region (R444). -/
structure RegImage where
  cells : List (Nat × Cell) := []
  arcs  : List ArcRec := []
  time  : Nat := 0
  poison : Bool := false
  deriving DecidableEq, Repr

/-- A probe remembered for a repeating firing (R411). -/
structure Memo where
  key     : Nat
  step    : Nat
  ik      : IKey
  verdict : Word
  deriving DecidableEq, Repr, Inhabited

/-- An entry written back to the operand overflow table (R299): its cell and the heap blocks its records
take. -/
structure OvEntry where
  cell   : Nat
  ent    : MEntry
  frames : List Word
  deriving DecidableEq, Repr, Inhabited

/-- A region (R448, R449) with its block table, buoys, instances and waves. `qid` is the queue of R449;
`fn` the descriptors bound (R461); `held` the `inx` firings waiting on the throttle (R334); `keeps` the tags of the
lines that a KEEP carries (R382) by `keepKey`: block, cell, index and
interleave slot; `ovf` the operand overflow table by cell
(R299); `serial` numbers instances, admissions and commits; `launch`: it was placed for a launch or a start token;
`hand` lists the A-cells, by their place in the region, whose hand-over token is awaited (R344). While a
release is under way `st` is 5. -/
structure Region where
  handle : Word := 0#64
  st     : Nat := 0
  ncfg   : Nat := 0
  imgva  : Word := 0#64
  troot  : Word := 0#64
  cfgst  : Word := 0#64
  qid    : Nat := 0
  unused : List Nat := []
  bdir   : Word := 0#64
  nb     : Nat := 0
  blocks : AMap Block := []
  buoys  : AMap Buoy := []
  fn     : List Word := []
  insts  : List Inst := []
  serial : Nat := 0
  parked : List Parked := []
  faults : List HeldFault := []
  memos  : List Memo := []
  held   : List Work := []
  keeps  : AMap DlyTags := []
  ovf    : List OvEntry := []
  wave   : Option Wave := none
  image  : Option RegImage := none
  launch : Bool := false
  hand   : List Nat := []
  deriving DecidableEq, Repr

/-! ## Engines -/

/-- The state of a copy command (R384, R391). -/
inductive CopySt where
  | queued | running | ending | paused
  deriving DecidableEq, Repr, Inhabited

/-- A posted copy command (R385, R388): the packet's words, the poster's translation and acting
generation, its slot or region, its buoy, the node of a G-set posting, and its progress: `pos` elements
done, taken from element `rot` on, `down` or up; `word` the source word taken last under FEM (R390), `win` the elements read ahead (R205). -/
structure CopyCmd where
  id     : Nat
  pk     : List Word
  vmid   : Nat
  troot  : Word
  sup    : Bool := false
  gen    : Gen
  trap   : Bool
  slot   : Option Nat := none
  rk     : Option RKey := none
  buoy   : Option Nat := none
  node   : Option (Firing × Instr) := none
  st     : CopySt := .queued
  pos    : Nat := 0
  rot    : Nat := 0
  down   : Bool := false
  word   : Option (Nat × Word) := none
  win    : List Word := []
  status : BitVec 8 := 0#8
  deriving DecidableEq, Repr

/-- A cove (R8): its L2, TLB, its A-cells' micro-TLBs by cell, walk cache and miss slots (R433), copy
engine, burst window (R204) and fencing. -/
structure Cove where
  l2     : AMap L2Line := []
  tlb    : List TlbEntry := []
  mtlb   : AMap (List TlbEntry) := []
  wcache : List WalkEntry := []
  misses : List MissSlot := []
  cmds   : List CopyCmd := []
  nextId : Nat := 0
  turn   : Nat := 0
  burst  : List (Nat × Nat) := []
  fenced : Bool := false
  deriving DecidableEq, Repr

/-- A replay key's entry (R400). -/
structure ReplayKey where
  valid  : Bool := false
  icnt   : Nat := 0
  fmt    : Fmt := .int
  metric : Nat := 0
  osize  : Nat := 0
  lstep  : Nat := 0
  run    : Nat := 0
  pend   : Bool := false
  refb   : List Byte := []
  outb   : List Byte := []
  age    : Nat := 0
  deriving DecidableEq, Repr, Inhabited

/-- A replay or record copy in progress (R404, R405) with its bytes. -/
structure ReplayCopy where
  vmid  : Nat
  key   : Nat
  record : Bool
  ova   : Word
  troot : Word
  data  : List Byte
  deriving DecidableEq, Repr, Inhabited

/-- A request to the placer that waits for a region: a placement, or with `ridx` the restore of a region
swapped out (R455). -/
structure PlaceReq where
  vmid  : Nat
  desc  : Word
  troot : Word
  queue : Nat
  cls   : Nat
  ridx  : Option Nat := none
  deriving DecidableEq, Repr, Inhabited

/-- A quadrant (R8): its replay engine (keys by 4,096 x VMID + key, counters by 8 x VMID + counter) and
its placer. -/
structure Quad where
  keys    : AMap ReplayKey := []
  copies  : List ReplayCopy := []
  ctr     : AMap Word := []
  rfenced : Bool := false
  reqs    : List PlaceReq := []
  deriving DecidableEq, Repr, Inhabited

end Sys2Proof.Machine
end

