-- ==== Sys2Proof/Machine/State.lean ====
section
/-! DEFINITION. The machine's state: every unit of the device that holds anything but its reset contents,
memory, the management core, and the model's own schedule; the reasons a step can stop; the state right
after reset (R516). -/

namespace Sys2Proof.Machine

/-! ## Management core (R474-R489, R513-R516) -/

/-- An audit record (R479). -/
structure AuditRec where
  time  : Nat
  cmd   : Nat
  queue : Nat
  vmid  : Nat
  a0    : Word
  a1    : Word
  a2    : Word
  status : Nat
  deriving DecidableEq, Repr, Inhabited

/-- A device-memory window of BAR4 (WINDOW.MAP, R476). -/
structure Window where
  vmid : Nat
  ipa  : Word
  deriving DecidableEq, Repr, Inhabited

/-- An MSI-X vector: function and number (R466, R471). -/
structure Msix where
  fn  : Nat
  vec : Nat
  deriving DecidableEq, Repr, Inhabited

/-- A fenced unit: FENCE.UNIT's level and number (R447, R476). -/
structure FencedUnit where
  level : Nat
  num   : Nat
  deriving DecidableEq, Repr, Inhabited

/-- The time base (R17, R483-R486): the counter, the remainder of the 5/6 ns of each clk in sixths, the
offset still to be removed by slewing and its remainder, and the discipline's registers. -/
structure TimeBase where
  ns      : Nat := 0
  sixths  : Nat := 0
  slew    : Int := 0
  slewRem : Nat := 0
  src     : BitVec 2 := 0#2
  offs    : Int := 0
  near    : Nat := 0
  hold    : Bool := false
  lastRef : Nat := 0
  tsync0  : Word := 0#64
  tsync   : Option (Word × Word) := none
  tod     : Option Nat := none
  deriving DecidableEq, Repr, Inhabited

/-- The management core. `genNext` and `genNews` are the allocator of R191, `tokens` the management
queues' ingress tokens in order of arrival (R475), `eccLog` the units and addresses of the uncorrectable errors met (R199), `mtime` the samples of the last 1 ms (R489). -/
structure Mgmt where
  time     : TimeBase := {}
  genNext  : Nat := 1
  genNews  : List (Gen × Gen) := []
  wrapping : Bool := false
  fenced   : List FencedUnit := []
  audit    : List AuditRec := []
  auditN   : Nat := 0
  fwVer    : BitVec 32 := 0#32
  rollback : BitVec 32 := 0#32
  flash    : List Byte := []
  flashVer : Option (BitVec 32) := none
  mfw      : BitVec 512 := 0#512
  masked   : List Msix := []
  pending  : List Msix := []
  sent     : List Msix := []
  windows  : AMap Window := []
  cap      : Nat := 1600
  power    : List Nat := []
  temps    : List Int := []
  capMhz   : AMap Nat := []
  hotMhz   : AMap Nat := []
  ticks    : Nat := 0
  tokens   : List Nat := []
  ecc      : AMap Nat := []
  eccLog   : List EccHit := []
  off      : Bool := false
  deriving DecidableEq, Repr, Inhabited

/-- What the module is fitted with: populated bytes of LPDDR-6 and CXL per quadrant (R468, R482), the
fused-off cells as 128 y + x (R201). -/
structure Fitting where
  lpddr : List Nat
  cxl   : List Nat
  fused : List Nat
  deriving DecidableEq, Repr, Inhabited

/-! ## The model's schedule -/

/-- An event or firing in flight (R111, R120, R304) and the clk at which it takes effect. -/
structure Duty where
  due  : Nat
  work : Work
  link : Nat := 0
  deriving DecidableEq, Repr

/-- A turn still to be taken, the model's own: what moves next, in place of the order of R108 and of
`due`. -/
inductive Turn where
  /-- That many clk pass. -/
  | pass (clks : Nat)
  /-- A slot issues. -/
  | issue (slot : Nat)
  /-- The k-th event in flight takes effect. -/
  | duty (k : Nat)
  /-- An event from outside: the host, the package, an input. -/
  | event (e : Ev)
  deriving DecidableEq, Repr

/-! ## The machine -/

/-- The machine. Units are listed by number: slots and cores by R10, coves, quadrants, cells as
128 y + x, ports as 3 x quadrant + tier, regions as 256 x VMID + RIDX. `feEmpty` lists the 8-byte words
(address / 8) whose full/empty bit is empty (R185), `poison` the poisoned 64-byte lines (address / 64,
R200). `turns`, `duties`, `clk`, `cur`, `fire`, `freeCtr`, `stall` (the longest time of
the accesses of the instruction under way) and `walked` (a TLB miss among them) are the model's own. -/
structure State where
  turns   : List Turn
  duties  : List Duty
  clk     : Nat
  cur     : Nat
  fire    : Option Firing
  freeCtr : Nat
  stall   : Nat
  walked  : Bool
  mem     : Memory
  feEmpty : AMap Unit
  poison  : AMap Unit
  fit     : Fitting
  slots   : AMap Slot
  cores   : AMap Core
  coves   : AMap Cove
  quads   : AMap Quad
  ports   : AMap Port
  cells   : AMap Cell
  regions : AMap Region
  tenants : AMap Tenant
  queues  : AMap Queue
  mgmt    : Mgmt
  deriving DecidableEq, Repr

/-- Why a run stops with a fault. The spec gives every fault of its own a cause code and an effect
(R413, R414, R418), which are next states; the machine has no fault that stops it. -/
inductive Fault where
  /-- The module holds itself in reset or has lost power (R513, R515), and `step` is asked to go on
  without a reset. Raised by `step` only. Safe: the hardware executes nothing then. -/
  | powerOff
  deriving DecidableEq, Repr

/-- Why an instruction has no meaning in the model. -/
inductive Refusal where
  /-- The instruction's meaning is not written yet. Raised by `exec`'s arms only. Safe. -/
  | notModelled (mnemonic : String)
  deriving DecidableEq, Repr

/-- What `exec` and `step` answer. -/
abbrev Out := Host.Outcome State Fault Refusal

/-- The fitting at reset: log 4. -/
def Fitting.full : Fitting :=
  { lpddr := [0x4000000000, 0x4000000000, 0x4000000000, 0x4000000000]
    cxl := [0xC000000000, 0xC000000000, 0xC000000000, 0xC000000000]
    fused := [] }

/-- Queue 0 after bring-up: a host management queue (R516 step 8). -/
def Queue.host : Queue := { bound := true, vmid := 0xFF, kind := 3, weight := 1 }

/-- The machine right after reset (R516): no unit holds anything but its reset contents, the allocator
starts at 0x0001, the time base is 0 and free-runs, queue 0 is bound. -/
def State.reset : State :=
  { turns := [], duties := [], clk := 0, cur := 0, fire := none, freeCtr := 0, stall := 0, walked := false
    mem := [], feEmpty := [], poison := [], fit := Fitting.full
    slots := [], cores := [], coves := [], quads := [], ports := [], cells := [], regions := []
    tenants := [], queues := [(0, Queue.host)]
    mgmt := { fwVer := Config.runningVersion none, mfw := Config.runningMeasure none } }

end Sys2Proof.Machine
end

