-- ==== Sys2Proof/Machine/Access.lean ====
section
/-! DEFINITION. Bit fields and byte lists, the numbering of units (R10, R11), reading and writing one
unit of the state, free choices, the clock, and events in flight. -/

namespace Sys2Proof.Machine

/-! ## Bits and bytes -/

/-- Bits [hi:lo] as a number. -/
def fld {n : Nat} (w : BitVec n) (hi lo : Nat) : Nat := (w.toNat / 2 ^ lo) % 2 ^ (hi + 1 - lo)

/-- A bit. -/
def bitAt {n : Nat} (w : BitVec n) (k : Nat) : Bool := w.getLsbD k

/-- A Bool as a number, to build status words. -/
def b2n (b : Bool) : Nat := if b then 1 else 0

/-- A 64-bit word from a number. -/
def w64 (n : Nat) : Word := BitVec.ofNat 64 n

/-- The number in a little-endian byte list (R1). -/
def bytesNat : List Byte → Nat
  | [] => 0
  | b :: r => b.toNat + 256 * bytesNat r

/-- The `n` low bytes of a number, little-endian (R1). -/
def natBytes : Nat → Nat → List Byte
  | 0, _ => []
  | n + 1, v => BitVec.ofNat 8 v :: natBytes n (v / 256)

/-- A word from up to 8 bytes. -/
def bytesWord (bs : List Byte) : Word := w64 (bytesNat bs)

/-- The low `n` bytes of a bit vector. -/
def vecBytes {w : Nat} (n : Nat) (v : BitVec w) : List Byte := natBytes n v.toNat

/-- Sign extension of the low `n` bits of a word. -/
def sext (n : Nat) (v : Word) : Word := (v.setWidth n).signExtend 64

/-- Bytes [off, off + |bs|) of a vector replaced. -/
def insBytes {w : Nat} (v : BitVec w) (off : Nat) (bs : List Byte) : BitVec w :=
  let m : BitVec w := BitVec.ofNat w ((2 ^ (8 * bs.length) - 1) * 2 ^ (8 * off))
  (v &&& ~~~m) ||| BitVec.ofNat w (bytesNat bs * 2 ^ (8 * off))

/-- `n` bytes at `off` of a vector. -/
def getBytes {w : Nat} (v : BitVec w) (off n : Nat) : List Byte := natBytes n (v.toNat / 2 ^ (8 * off))

/-- The list cut or zero-filled to `n` bytes. -/
def fixLen (n : Nat) (bs : List Byte) : List Byte := (bs ++ List.replicate n 0#8).take n

/-! ## Numbering (R8-R11) -/

def coreOf (slot : Nat) : Nat := slot / 8
def coveOfCore (core : Nat) : Nat := core / 4
def quadOfCove (cove : Nat) : Nat := cove / 64
def coveOfSlot (slot : Nat) : Nat := slot / 32
def quadOfSlot (slot : Nat) : Nat := slot / 2048

/-- A cell's key: 128 y + x. -/
def cellKey (x y : Nat) : Nat := 128 * y + x
def quadOfXY (x y : Nat) : Nat := 2 * (y / 64) + x / 64
/-- The cove of a cell (R10). -/
def coveOfXY (x y : Nat) : Nat := 64 * quadOfXY x y + 8 * (y / 8 % 8) + x / 8 % 8
/-- The lantern core, and island, of a cell's unit (R10). -/
def coreOfXY (x y : Nat) : Nat := 4 * coveOfXY x y + (x / 4 % 2 + 2 * (y / 4 % 2))

/-- The x of cell column 0 of an island's unit (the inverse of R10). -/
def unitX (core : Nat) : Nat :=
  let cove := core / 4
  64 * (cove / 64 % 2) + 8 * (cove % 8) + 4 * (core % 2)
def unitY (core : Nat) : Nat :=
  let cove := core / 4
  64 * (cove / 128) + 8 * (cove / 8 % 8) + 4 * (core / 2 % 2)

/-- A cell's kind (R11): 0 C, 1 M, 2 A, as in R72. -/
def cellKind (x y : Nat) : Nat :=
  if x % 4 = 2 then 1
  else if (x % 4 = 3 ∧ y % 4 = 0) ∨ (x % 4 = 1 ∧ y % 4 = 3) then 2
  else 0

/-! ## Units -/

def State.slot (s : State) (n : Nat) : Slot := AMap.getD s.slots n {}
def State.setSlot (s : State) (n : Nat) (v : Slot) : State := { s with slots := AMap.set s.slots n v }
def State.modSlot (s : State) (n : Nat) (f : Slot → Slot) : State := s.setSlot n (f (s.slot n))

def State.core (s : State) (n : Nat) : Core := AMap.getD s.cores n {}
def State.setCore (s : State) (n : Nat) (v : Core) : State := { s with cores := AMap.set s.cores n v }
def State.modCore (s : State) (n : Nat) (f : Core → Core) : State := s.setCore n (f (s.core n))

def State.cove (s : State) (n : Nat) : Cove := AMap.getD s.coves n {}
def State.setCove (s : State) (n : Nat) (v : Cove) : State := { s with coves := AMap.set s.coves n v }
def State.modCove (s : State) (n : Nat) (f : Cove → Cove) : State := s.setCove n (f (s.cove n))

def State.quad (s : State) (n : Nat) : Quad := AMap.getD s.quads n {}
def State.setQuad (s : State) (n : Nat) (v : Quad) : State := { s with quads := AMap.set s.quads n v }
def State.modQuad (s : State) (n : Nat) (f : Quad → Quad) : State := s.setQuad n (f (s.quad n))

def State.port (s : State) (n : Nat) : Port := AMap.getD s.ports n {}
def State.setPort (s : State) (n : Nat) (v : Port) : State := { s with ports := AMap.set s.ports n v }
def State.modPort (s : State) (n : Nat) (f : Port → Port) : State := s.setPort n (f (s.port n))

def State.cell (s : State) (k : Nat) : Cell := AMap.getD s.cells k {}
def State.setCell (s : State) (k : Nat) (v : Cell) : State := { s with cells := AMap.set s.cells k v }
def State.modCell (s : State) (k : Nat) (f : Cell → Cell) : State := s.setCell k (f (s.cell k))

/-- A region's key. -/
def RKey.key (rk : RKey) : Nat := 256 * rk.vmid + rk.ridx
def State.region (s : State) (rk : RKey) : Region := AMap.getD s.regions (RKey.key rk) {}
def State.setRegion (s : State) (rk : RKey) (v : Region) : State :=
  { s with regions := AMap.set s.regions (RKey.key rk) v }
def State.modRegion (s : State) (rk : RKey) (f : Region → Region) : State := s.setRegion rk (f (s.region rk))

def State.tenant (s : State) (n : Nat) : Tenant := AMap.getD s.tenants n {}
def State.setTenant (s : State) (n : Nat) (v : Tenant) : State := { s with tenants := AMap.set s.tenants n v }
def State.modTenant (s : State) (n : Nat) (f : Tenant → Tenant) : State := s.setTenant n (f (s.tenant n))

def State.queue (s : State) (n : Nat) : Queue := AMap.getD s.queues n {}
def State.setQueue (s : State) (n : Nat) (v : Queue) : State := { s with queues := AMap.set s.queues n v }
def State.modQueue (s : State) (n : Nat) (f : Queue → Queue) : State := s.setQueue n (f (s.queue n))

def State.modMgmt (s : State) (f : Mgmt → Mgmt) : State := { s with mgmt := f s.mgmt }

/-- The slot that issues. -/
def State.me (s : State) : Slot := s.slot s.cur
def State.modMe (s : State) (f : Slot → Slot) : State := s.modSlot s.cur f
/-- Its core, cove and tenant. -/
def State.myCore (s : State) : Core := s.core (coreOf s.cur)
def State.modMyCore (s : State) (f : Core → Core) : State := s.modCore (coreOf s.cur) f
def State.vmid (s : State) : Nat := s.me.own.vmid.toNat

/-! ## Counters (R487) -/

/-- The counter codes of R487 that the machine counts. -/
inductive Ctr where
  | msgDrop | staleTag | matchEvict | matchRefill | squash
  | stackWait | joinUflow | trapLost | spillFail
  | winOvr | traceDrop | deqWait
  deriving DecidableEq, Repr

def Ctr.code : Ctr → Nat
  | .msgDrop => 0x10 | .staleTag => 0x11 | .matchEvict => 0x12 | .matchRefill => 0x13 | .squash => 0x14
  | .stackWait => 0x15 | .joinUflow => 0x16 | .trapLost => 0x17 | .spillFail => 0x18
  | .winOvr => 0x19 | .traceDrop => 0x1A | .deqWait => 0x1B

/-- One more on a tenant's counter, modulo 2^64. -/
def State.count (s : State) (vmid : Nat) (c : Ctr) : State :=
  s.modTenant vmid fun t => { t with ctr := AMap.set t.ctr c.code ((AMap.getD t.ctr c.code 0 + 1) % 2 ^ 64) }

/-- One more on the device-wide ECC_CE (0x20) or ECC_UE (0x21). -/
def State.countEcc (s : State) (code : Nat) : State :=
  s.modMgmt fun m => { m with ecc := AMap.set m.ecc code ((AMap.getD m.ecc code 0 + 1) % 2 ^ 64) }

/-! ## Free choices (log 2) -/

/-- A free number below `n` (0 where there is no choice) and the state with the draw used. -/
def State.pick (s : State) (n : Nat) : Nat × State :=
  if n ≤ 1 then (0, s) else (Config.freeNat s.freeCtr % n, { s with freeCtr := s.freeCtr + 1 })

/-! ## The clock (R4, R17, R486) -/

/-- The last value of the 64-bit time base: it counts no further, so it never decreases (R17, R486; DESIGN CHOICE,
log 68). -/
def timeMax : Nat := 2 ^ 64 - 1

/-- The time base moved by `d` ns of the reference, with slewing at 100 ppm until the offset is gone. -/
def TimeBase.run (t : TimeBase) (d : Nat) : TimeBase :=
  let gain := (t.slewRem + d) / 10000
  let rem := (t.slewRem + d) % 10000
  if t.slew = 0 then { t with ns := min timeMax (t.ns + d) }
  else if 0 < t.slew then
    let g := min gain t.slew.toNat
    { t with ns := min timeMax (t.ns + d + g), slew := t.slew - g, slewRem := if t.slew = g then 0 else rem }
  else
    let g := min (min gain (-t.slew).toNat) d
    { t with ns := min timeMax (t.ns + d - g), slew := t.slew + g, slewRem := if -t.slew = g then 0 else rem }

/-- `n` clk pass: 5/6 ns each at 1.2 GHz. -/
def State.pass (s : State) (n : Nat) : State :=
  let t := s.mgmt.time
  let six := t.sixths + 5 * n
  { s with clk := s.clk + n, mgmt := { s.mgmt with time := ({ t with sixths := six % 6 }).run (six / 6) } }

/-- Now() (R17): a 64-bit number of ns, which stops at its last value (log 68). -/
def State.now (s : State) : Nat := s.mgmt.time.ns

/-- A number of clk after which the time base has not yet passed `ns`, or has just reached it: exact while it
is not slewed, and short of it while it is slewed forward (R127, R486). At least 1. -/
def State.clkUntil (s : State) (ns : Nat) : Nat :=
  let d := ns - s.now
  let d := if 0 < s.mgmt.time.slew then d - (d / 10000 + 1) else d
  max 1 ((6 * d - s.mgmt.time.sixths + 4) / 5)

/-- An event that takes effect `n` clk from now. -/
def State.after (s : State) (n : Nat) (e : Ev) : State :=
  { s with duties := s.duties ++ [{ due := s.clk + n, work := .ev e }] }

/-- A firing that takes effect `n` clk from now (R297). -/
def State.fireAfter (s : State) (n : Nat) (i : Instr) (f : Firing) : State :=
  { s with duties := s.duties ++ [{ due := s.clk + n, work := .node i { f with began := true } }] }

/-- The events in flight that satisfy `p` are withdrawn. -/
def State.dropDuties (s : State) (p : Duty → Bool) : State := { s with duties := s.duties.filter fun d => !p d }

/-- Mesh time between two places of the device given by cove (R120, R518). -/
def meshClk (a b : Nat) : Nat :=
  if a = b then Config.meshCove else if quadOfCove a = quadOfCove b then Config.meshQuad else Config.meshFar

/-- A list with its k-th element changed. -/
def modifyAt {α : Type} (l : List α) (k : Nat) (f : α → α) : List α := l.modify k f

end Sys2Proof.Machine
end

