-- ==== Sys2Proof/Machine/DevRegs.lean ====
section
/-! DEFINITION. The device-register window (R467): queue windows and ingress (R470), queue status words,
the device information block (R482), the time registers (R485) and the audit log (R479); the management
command a packet holds (R474, R476). -/

namespace Sys2Proof.Machine

/-! ## The information block (R482) -/

def asciiBytes (t : String) : List Byte := t.toList.map fun c => BitVec.ofNat 8 c.toNat

/-- FUSEMAP (R201): valid entries in increasing order of 128 Y + X. -/
def fuseMap (s : State) : List Byte :=
  fixLen 64 ((sortBy (fun a b => decide (a ≤ b)) s.fit.fused).flatMap fun k => natBytes 2 (0x8000 + (k / 128) * 128 + k % 128))

/-- The fenced-unit bitmap: one bit per core (R482). -/
def fencedBitmap (s : State) : Nat := s.cores.foldl (fun a p => if p.2.fenced then a + 2 ^ p.1 else a) 0

/-- The device information block, 4 KiB (R482). -/
def infoBlock (s : State) : List Byte :=
  fixLen 4096
    (fixLen 32 (asciiBytes "AM-LX8-1024-LC") ++ vecBytes 8 Config.serial
      ++ vecBytes 4 s.mgmt.fwVer ++ vecBytes 4 s.mgmt.rollback
      ++ fixLen 64 (s.fit.lpddr.flatMap (natBytes 8) ++ s.fit.cxl.flatMap (natBytes 8))
      ++ vecBytes 4 (Config.linkState 0) ++ vecBytes 4 (Config.linkState 1)
      ++ vecBytes 4 (Config.linkState 2) ++ vecBytes 4 (Config.linkState 3)
      ++ fuseMap s ++ natBytes 128 (fencedBitmap s) ++ fixLen 132 Config.identityKey
      ++ natBytes 4 0x1CC ++ natBytes 4 (min Config.certChain.length (4096 - 0x1CC))
      ++ Config.certChain)

/-! ## Status words -/

/-- A queue's status word (R470). -/
def queueStatus (q : Queue) : Nat :=
  b2n q.ovr * 2 ^ 63 + b2n q.bound * 2 ^ 62 + q.dn.toNat * 2 ^ 16 + q.cons.toNat

/-- TSTAT (R485): OFFS saturates to 32 bits. -/
def tstat (t : TimeBase) : Nat :=
  let o : Int := max (-2 ^ 31) (min (2 ^ 31 - 1) t.offs)
  (o % 2 ^ 32).toNat * 2 ^ 32 + b2n (decide (1000000 < t.offs.natAbs)) * 128 + b2n t.hold * 64
    + b2n (decide (2 ≤ t.near)) * 32 + t.src.toNat

/-- An audit record's 64 bytes (R479; the order of the fields is log 7). -/
def auditBytes (r : AuditRec) : List Byte :=
  natBytes 8 r.time ++ natBytes 8 r.cmd ++ natBytes 4 r.queue ++ natBytes 4 r.vmid ++ vecBytes 8 r.a0
    ++ vecBytes 8 r.a1 ++ vecBytes 8 r.a2 ++ natBytes 8 r.status ++ natBytes 8 0

/-- Records the audit ring holds: 1 MiB less its 64-byte header. -/
def auditCap : Nat := 16383

/-- A record entered in the audit log (R479). -/
def State.audit (s : State) (cmd queue vmid : Nat) (a0 a1 a2 : Word) (status : Nat) : State :=
  let r : AuditRec := { time := s.now, cmd := cmd, queue := queue, vmid := vmid, a0 := a0, a1 := a1, a2 := a2,
                        status := status }
  s.modMgmt fun m => { m with audit := (m.audit ++ [r]).drop (m.audit.length + 1 - auditCap), auditN := m.auditN + 1 }

/-- A byte of the audit window: index of the next record and count of records, then the records. -/
def auditByte (m : Mgmt) (off : Nat) : Byte :=
  if off < 64 then (fixLen 64 (natBytes 8 (m.auditN % auditCap) ++ natBytes 8 m.auditN)).getD off 0#8
  else
    let k := (off - 64) / 64
    -- record k of the ring is the latest one entered with number = k modulo the capacity
    let first := m.auditN - m.audit.length
    let j := (k + auditCap - first % auditCap) % auditCap
    match m.audit[j]? with
    | some r => (auditBytes r).getD (off % 64) 0#8
    | none => 0#8

/-- A byte of the register window (R467). -/
def regByte (s : State) (off : Nat) : Byte :=
  if off < 0x800000 then 0#8
  else if off < 0x804000 then
    (natBytes 8 (queueStatus (s.queue ((off - 0x800000) / 8)))).getD (off % 8) 0#8
  else if off < 0x805000 then (infoBlock s).getD (off - 0x804000) 0#8
  else if 0x805010 ≤ off ∧ off < 0x805018 then (natBytes 8 (tstat s.mgmt.time)).getD (off - 0x805010) 0#8
  else if 0x900000 ≤ off ∧ off < 0xA00000 then auditByte s.mgmt (off - 0x900000)
  else 0#8

def regBytes (s : State) (off : Nat) : Nat → List Byte
  | 0 => []
  | n + 1 => regByte s off :: regBytes s (off + 1) n

/-! ## Packets and ingress (R287, R470, R474) -/

/-- A packet slot's 64 bytes. -/
def packetBytes (q : Queue) (slot : Nat) : List Byte := Bytes.rdN q.window (64 * slot) 64

/-- Word `k` of a packet. -/
def pktWord (bs : List Byte) (k : Nat) : Word := bytesWord ((bs.drop (8 * k)).take 8)

/-- The management command of a packet (R474, R476). -/
def mgmtEv (q : Nat) (bs : List Byte) : Ev :=
  let p : MPkt := { a0 := pktWord bs 1, a1 := pktWord bs 2, a2 := pktWord bs 3, a3 := pktWord bs 4,
                    a4 := pktWord bs 5, done := pktWord bs 6, resp := pktWord bs 7 }
  let cmd := fld (pktWord bs 0) 15 8
  if fld (pktWord bs 0) 7 0 ≠ 3 then .badcmd q (BitVec.ofNat 8 cmd) p
  else
    match cmd with
    | 0x01 => .tenantCreate q p | 0x02 => .tenantDestroy q p | 0x03 => .queueBind q p
    | 0x04 => .queueUnbind q p | 0x05 => .windowMap q p | 0x06 => .tideSet q p | 0x07 => .tlbShoot q p
    | 0x08 => .genWrap q p | 0x09 => .fenceUnit q p | 0x0A => .islandSet q p | 0x0B => .powerCap q p
    | 0x0C => .timeSet q p | 0x0D => .timeCfg q p | 0x0E => .imageVerify q p | 0x0F => .attestQuote q p
    | 0x10 => .fwUpdate q p | 0x11 => .debugRead q p | 0x12 => .debugWrite q p | 0x13 => .infoRead q p
    | 0x14 => .countRead q p | 0x15 => .traceCfg q p | 0x16 => .regionSwap q p
    | _ => .badcmd q (BitVec.ofNat 8 cmd) p

/-- Unloaded clk from ingress to a management command's completion (R477). -/
def mgmtClk (i : Ev) : Nat :=
  match i with
  | .tenantCreate .. | .queueBind .. | .tideSet .. | .windowMap .. => 24000
  | .tlbShoot _ p => 6000 + p.a2.toNat / 65536 * 6 / 5
  | .genWrap .. => 2400000
  | .islandSet _ p => if p.a0 = 0xFFFF#64 then 1024 * 2400 else 2400
  | .imageVerify _ p => 3600000 + p.a1.toNat / 2 * 6 / 5
  | .attestQuote .. => 3600000
  | .tenantDestroy .. | .fwUpdate .. => 120000000
  | _ => 12000

/-- The event that consumes the next packet of queue `q`, when its ingress token has arrived (R288,
R475): the window slot of packet number CONS. -/
def nextPacket (s : State) (q : Nat) : Option Ev :=
  let qu := s.queue q
  let sl := qu.cons.toNat % 64
  if qu.bound && !qu.stopped && qu.ingress.contains sl then
    some (match qu.kind with
      | 1 => .lTaskLaunch q
      | 2 => .gLaunch q
      | _ => mgmtEv q (packetBytes qu sl))
  else none

/-- A management command in flight. -/
def isCommand : Work → Bool
  | .ev (.tenantCreate ..) | .ev (.tenantDestroy ..) | .ev (.queueBind ..) | .ev (.queueUnbind ..) | .ev (.windowMap ..)
  | .ev (.tideSet ..) | .ev (.tlbShoot ..) | .ev (.genWrap ..) | .ev (.fenceUnit ..) | .ev (.islandSet ..) | .ev (.powerCap ..)
  | .ev (.timeSet ..) | .ev (.timeCfg ..) | .ev (.imageVerify ..) | .ev (.attestQuote ..) | .ev (.fwUpdate ..)
  | .ev (.debugRead ..) | .ev (.debugWrite ..) | .ev (.infoRead ..) | .ev (.countRead ..) | .ev (.traceCfg ..)
  | .ev (.regionSwap ..) | .ev (.badcmd ..) => true
  | _ => false

/-- The management core takes the command whose ingress token arrived first, when it has none under way
(R475). -/
def State.wakeMgmt (s : State) : State :=
  if s.duties.any fun d => isCommand d.work then s
  else
    match s.mgmt.tokens.findSome? (nextPacket s) with
    | none => s
    | some ev => s.after (mgmtClk ev) ev

/-- The dispatcher of `q` is set to work where a packet waits and no dispatch of it is in flight. -/
def State.wakeQueue (s : State) (q : Nat) (clks : Nat) : State :=
  if (s.queue q).kind = 3 then s.wakeMgmt
  else
    match nextPacket s q with
    | none => s
    | some ev => if s.duties.any (fun d => d.work == .ev ev) then s else s.after clks ev

/-- Bytes written to one packet slot of a window (R470): a locked slot keeps its bytes, and a write that
covers its bytes 56-63 sets OVR and counts WIN_OVR; else a write that covers bytes 56-63 makes the packet
an ingress token and locks the slot. -/
def slotWrite (s : State) (q off : Nat) (bs : List Byte) : State :=
  let qu := s.queue q
  let sl := off / 64
  let tail := off % 64 ≤ 56 && 64 ≤ off % 64 + bs.length
  if !qu.bound then s
  else if qu.ingress.contains sl then
    if tail then (s.setQueue q { qu with ovr := true }).count qu.vmid .winOvr else s
  else if tail then
    let s := s.setQueue q { qu with window := Bytes.wrN qu.window off bs, ingress := qu.ingress ++ [sl] }
    let s := if qu.kind = 3 then s.modMgmt fun m => { m with tokens := m.tokens ++ [q] } else s
    s.wakeQueue q 1
  else s.setQueue q { qu with window := Bytes.wrN qu.window off bs }

/-- A write to the queue windows from byte `off` of window `q`, slot by slot. -/
def windowWrite : Nat → State → Nat → Nat → List Byte → State
  | 0, s, _, _, _ => s
  | fuel + 1, s, q, off, bs =>
    let k := 64 - off % 64
    match bs with
    | [] => s
    | _ => windowWrite fuel (slotWrite s (q + off / 0x1000) (off % 0x1000) (bs.take k)) q (off + k) (bs.drop k)

/-- One 8-byte word of TSYNC written (R485): the pair takes effect at its second word. -/
def tsyncPut (s : State) (second : Bool) (w : Word) : State :=
  s.modMgmt fun m =>
    if second then { m with time := { m.time with tsync := some (m.time.tsync0, w) } }
    else { m with time := { m.time with tsync0 := w } }

/-- A write to the register window (R467): queue windows and TSYNC; other offsets ignore it (R2). -/
def regWrite (s : State) (off : Nat) (bs : List Byte) : State :=
  if off < 0x800000 then windowWrite (bs.length + 1) s (off / 0x1000) (off % 0x1000) bs
  else if off = 0x805000 ∧ bs.length = 8 then tsyncPut s false (bytesWord bs)
  else if off = 0x805008 ∧ bs.length = 8 then tsyncPut s true (bytesWord bs)
  else if off = 0x805000 ∧ bs.length = 16 then
    tsyncPut (tsyncPut s false (bytesWord (bs.take 8))) true (bytesWord (bs.drop 8))
  else s

end Sys2Proof.Machine
end

