-- ==== Sys2Proof/Machine/Memory.lean ====
section
/-! DEFINITION. Memory: the physical map (R468), the homes with full/empty bits and poison (R185, R200,
R214), the cove L2, the L1D, the store-coalescing buffers (R203, R226, R244, R249, R458), and translation
(R426-R433). -/

namespace Sys2Proof.Machine

/-! ## The physical map (R468) -/

/-- The tier of a physical address; `none` where no memory exists. -/
inductive Tier where
  | near | lpddr | cxl | regs | host | none
  deriving DecidableEq, Repr

def tierOf (ft : Fitting) (pa : Nat) : Tier :=
  if pa < 0x2000000000 then .near
  else if 0x10000000000 ≤ pa ∧ pa < 0x20000000000 then
    let o := pa - 0x10000000000
    if o % 0x4000000000 < ft.lpddr.getD (o / 0x4000000000) 0 then .lpddr else .none
  else if 0x40000000000 ≤ pa ∧ pa < 0x80000000000 then
    let o := pa - 0x40000000000
    if o % 0x10000000000 < ft.cxl.getD (o / 0x10000000000) 0 then .cxl else .none
  else if 0x80000000000 ≤ pa ∧ pa < 0x80001000000 then .regs
  else if 0x8000000000000 ≤ pa ∧ pa < 0x10000000000000 then .host
  else .none

def State.tier (s : State) (pa : Nat) : Tier := tierOf s.fit pa

/-- The quadrant of an address of a tier. -/
def tierQuad (pa : Nat) : Nat :=
  if pa < 0x2000000000 then pa / 0x800000000
  else if pa < 0x20000000000 then (pa - 0x10000000000) / 0x4000000000
  else if pa < 0x80000000000 then (pa - 0x40000000000) / 0x10000000000
  else 0

/-- The home memory port of an address (R14), 3 x quadrant + tier. -/
def homePort (ft : Fitting) (pa : Nat) : Nat :=
  3 * tierQuad pa + match tierOf ft pa with | .lpddr => 1 | .cxl => 2 | _ => 0

/-- Home latency of a tier (R230). -/
def tierClk : Tier → Nat
  | .near => Config.nearClk | .lpddr => Config.lpddrClk | .cxl => Config.cxlClk
  | .regs => Config.regClk | .host => Config.hostClk | .none => 0

/-- Full/empty bits exist in near memory and LPDDR-6 (R185). -/
def State.hasFe (s : State) (pa : Nat) : Bool := s.tier pa == .near || s.tier pa == .lpddr

/-! ## The homes -/

/-- The full/empty bit of the 8-byte word that holds the address (R185). -/
def State.isFull (s : State) (pa : Nat) : Bool := (AMap.get? s.feEmpty (pa / 8)).isNone

/-- The word's bit set full, or empty. -/
def State.setFull (s : State) (pa : Nat) : State := { s with feEmpty := AMap.del s.feEmpty (pa / 8) }
def State.setEmpty (s : State) (pa : Nat) : State := { s with feEmpty := AMap.set s.feEmpty (pa / 8) () }

/-- The 64-byte line that holds the address is poisoned (R200). -/
def State.isPoison (s : State) (pa : Nat) : Bool := (AMap.get? s.poison (pa / 64)).isSome

/-- Bytes read at their home, or in the register window. -/
def State.homeRead (s : State) (pa n : Nat) : List Byte :=
  if s.tier pa = .regs then regBytes s (pa - 0x80000000000) n else Bytes.rdN s.mem pa n

/-- A cove's L1I lines of a PA line dropped in the cores listed (R458). -/
def dropL1i (cores : AMap Core) (line : Nat) (which : List Nat) : AMap Core :=
  AMap.mapV cores fun k c =>
    if which.contains k then { c with l1i := c.l1i.filter fun l => l.pa / 64 != line } else c

/-- A cove's L1D halves of an L2 line dropped: the L2 includes the L1D (R226). -/
def dropL1d (cores : AMap Core) (cove line : Nat) : AMap Core :=
  AMap.mapV cores fun k c =>
    if k / 4 = cove then { c with l1d := AMap.del (AMap.del c.l1d (2 * line)) (2 * line + 1) } else c

/-- Bytes at their home: each listed offset of a line written and its word set full where the tier has
the bit (R214). -/
def putBytes (s : State) (line : Nat) : List (Nat × Byte) → State
  | [] => s
  | (o, b) :: r =>
    let pa := 64 * line + o
    let s := { s with mem := Bytes.wr s.mem pa b }
    putBytes (if s.hasFe pa then s.setFull pa else s) line r

/-- A line's bytes that its cove has not forwarded. -/
def L2Line.unsent (l : L2Line) : List (Nat × Byte) :=
  if l.sup then [] else l.dirty.map fun o => (o, (getBytes l.data o 1).getD 0 0#8)

/-- Bytes of a line reach its home. A write of part of a poisoned line is discarded and counted as ECC_UE;
a write of the whole line clears the mark (R200). -/
def putLine (s : State) (line : Nat) (whole : Bool) (bs : List (Nat × Byte)) : State :=
  if s.isPoison (64 * line) && !whole then s.countEcc 0x21
  else putBytes { s with poison := AMap.del s.poison line } line bs

/-- Every cove but `src` loses its copy of a line at a write at the home; bytes it has not forwarded are
performed first; in a tide region the copy stays, superseded (R249). -/
def invalidate (s : State) (src : Option Nat) (line : Nat) : List Nat → State
  | [] => s
  | c :: r =>
    let s :=
      if src = some c then s
      else
        match AMap.get? (s.cove c).l2 line with
        | none => s
        | some l =>
          let s := if l.unsent.isEmpty then s else putLine s line l.whole l.unsent
          let s := { s with cores := dropL1i s.cores line l.cores }
          if l.tide.isSome then
            s.modCove c fun v =>
              { v with l2 := AMap.set v.l2 line { l with sup := true, dirty := [], whole := false, cores := [] } }
          else
            { s.modCove c fun v => { v with l2 := AMap.del v.l2 line } with cores := dropL1d s.cores c line }
    invalidate s src line r

/-- A cove other than `src` holds bytes of a line that it has not forwarded. -/
def unsentElsewhere (s : State) (src : Option Nat) (line : Nat) : Bool :=
  (AMap.keys s.coves).any fun c =>
    src != some c && match AMap.get? (s.cove c).l2 line with | some l => !l.unsent.isEmpty | none => false

/-- Writes to bytes of one line performed at its home (R200, R214, R249). Where another cove's bytes are
performed before them, the writing cove's copy lacks those bytes and goes too. -/
def homePut (s : State) (src : Option Nat) (line : Nat) (whole : Bool) (bs : List (Nat × Byte)) : State :=
  if s.isPoison (64 * line) && !whole then s.countEcc 0x21
  else
    let src := if unsentElsewhere s src line then none else src
    putLine (invalidate s src line (AMap.keys s.coves)) line whole bs

/-- Offsets from `o` on with their bytes. -/
def indexed (o : Nat) : List Byte → List (Nat × Byte)
  | [] => []
  | b :: r => (o, b) :: indexed (o + 1) r

/-- Bytes written at their home, line by line. -/
def homeWriteAux : Nat → State → Option Nat → Nat → List Byte → State
  | 0, s, _, _, _ => s
  | fuel + 1, s, src, pa, bs =>
    match bs with
    | [] => s
    | _ =>
      let k := 64 - pa % 64
      homeWriteAux fuel (homePut s src (pa / 64) (decide ((bs.take k).length = 64)) (indexed (pa % 64) (bs.take k))) src (pa + k)
        (bs.drop k)

/-- Bytes written at their home, or in the register window (R467). -/
def State.homeWrite (s : State) (src : Option Nat) (pa : Nat) (bs : List Byte) : State :=
  if s.tier pa = .regs then regWrite s (pa - 0x80000000000) bs else homeWriteAux (bs.length + 1) s src pa bs

/-! ## Tides (R224) -/

/-- The valid tide region of a tenant that holds a VA. -/
def tideOf (t : Tenant) (va : Word) : Option Nat :=
  let u := fld va 54 21
  (t.tides.find? fun p => p.2.base.toNat ≤ u && u ≤ p.2.base.toNat + p.2.size.toNat).map (·.1)

/-- T of a tide region (R225). -/
def State.tideT (s : State) (k : Option (Nat × Nat)) : Nat :=
  match k with
  | none => 0
  | some (v, e) => match AMap.get? (s.tenant v).tides e with | some t => t.t.toNat | none => 0

/-! ## Physical addresses with their attributes -/

/-- An address translated: its PA, host-shared attribute (R431), and the tide region of its VA. -/
structure Phys where
  pa   : Nat
  hs   : Bool
  tide : Option (Nat × Nat)
  deriving DecidableEq, Repr, Inhabited

/-- Never held in a cache (R230, R431, R467). -/
def State.uncached (s : State) (p : Phys) : Bool := p.hs || s.tier p.pa == .regs || s.tier p.pa == .host

/-- The instruction under way waits at least `n` clk. -/
def State.stallFor (s : State) (n : Nat) : State := { s with stall := max s.stall n }

/-! ## The cove L2 -/

/-- Lines a cove L2 holds: 2 MiB of 64 bytes. -/
def l2Lines : Nat := 32768

/-- A line's not-yet-forwarded bytes performed at the home (R244). -/
def State.l2Forward (s : State) (cove line : Nat) : State :=
  match AMap.get? (s.cove cove).l2 line with
  | none => s
  | some l =>
    if l.unsent.isEmpty then s
    else
      homePut (s.modCove cove fun v => { v with l2 := AMap.set v.l2 line { l with dirty := [], whole := false } })
        (some cove) line l.whole l.unsent

/-- Every cove's bytes of a line performed at its home, so that a read there meets the write just before it
(R239). -/
def State.gather (s : State) (line : Nat) : State :=
  (AMap.keys s.coves).foldl (fun s c => s.l2Forward c line) s

/-- A superseded copy leaves a cove whose agent has acted at the line's home: a bounded load of that agent
may not return an older write (R238 items 2 and 4, R243). -/
def State.dropOld (s : State) (cove line : Nat) : State :=
  match AMap.get? (s.cove cove).l2 line with
  | none => s
  | some l =>
    if l.sup then { s.modCove cove fun v => { v with l2 := AMap.del v.l2 line } with cores := dropL1d s.cores cove line }
    else s

/-- A line leaves a full L2: a free choice (R19 names no replacement rule). -/
def State.l2Evict (s : State) (cove : Nat) : State :=
  if (s.cove cove).l2.length < l2Lines then s
  else
    let (k, s) := s.pick (s.cove cove).l2.length
    let line := (AMap.keys (s.cove cove).l2).getD k 0
    let s := s.l2Forward cove line
    match AMap.get? (s.cove cove).l2 line with
    | none => s
    | some l =>
      let s := { s with cores := dropL1d (dropL1i s.cores line l.cores) cove line }
      s.modCove cove fun v => { v with l2 := AMap.del v.l2 line }

/-- The L2's copy of the line of an address, filled from the home where it has none or a superseded one
(R226, R249). -/
def State.l2Line (s : State) (cove : Nat) (p : Phys) : L2Line × State :=
  let line := p.pa / 64
  match AMap.get? (s.cove cove).l2 line with
  | some l =>
    if l.sup then
      let n : L2Line := { data := insBytes 0#512 0 (s.homeRead (64 * line) 64), stamp := s.tideT p.tide, tide := p.tide }
      let s := { s with cores := dropL1d s.cores cove line }
      (n, (s.stallFor (tierClk (s.tier p.pa))).modCove cove fun v => { v with l2 := AMap.set v.l2 line n })
    else (l, s)
  | none =>
    let s := s.l2Evict cove
    let n : L2Line := { data := insBytes 0#512 0 (s.homeRead (64 * line) 64), stamp := s.tideT p.tide, tide := p.tide }
    let s := (s.stallFor (tierClk (s.tier p.pa))).modCove cove fun v => { v with l2 := AMap.set v.l2 line n }
    -- the miss joins the cove's burst window of 16 clk (R204)
    let s := if (s.cove cove).burst.isEmpty then s.after 16 (.meshBurstMerge cove) else s
    (n, s.modCove cove fun v => { v with burst := v.burst ++ [(line, s.clk)] })

/-- `n` bytes within one line read at the cove L2. -/
def State.l2Read (s : State) (cove : Nat) (p : Phys) (n : Nat) : List Byte × State :=
  if s.uncached p then (s.homeRead p.pa n, s.stallFor (tierClk (s.tier p.pa)))
  else
    let (l, s) := (s.stallFor Config.l2Clk).l2Line cove p
    (getBytes l.data (p.pa % 64) n, s)

/-- A write of the listed offsets of one line performed at the cove L2 (R203, R244, R458): the line's cores
drop its L1I copies. It delays no slot (R230). A part of a poisoned line is discarded as one write (R200); a
write of all of it goes to the home at once and clears the mark. -/
def State.l2Put (s : State) (cove : Nat) (p : Phys) (offs : List Nat) (whole : Bool) (f : BitVec 512 → BitVec 512) : State :=
  if s.isPoison p.pa && !whole then s.countEcc 0x21
  else
    let (l, t) := s.l2Line cove p
    let line := p.pa / 64
    let n : L2Line :=
      { l with data := f l.data, cores := [], whole := l.whole || whole
               dirty := l.dirty ++ offs.filter fun o => !l.dirty.contains o
               since := if l.dirty.isEmpty then s.clk else l.since }
    let t := { t with cores := dropL1i t.cores line l.cores, stall := s.stall, walked := s.walked }
    let t := t.modCove cove fun v => { v with l2 := AMap.set v.l2 line n }
    if s.isPoison p.pa then t.l2Forward cove line
    else if l.dirty.isEmpty then t.after 2048 (.l2WriteForward cove line)
    else t

/-- Every superseded copy leaves a cove. -/
def State.dropOlds (s : State) (cove : Nat) : State := (AMap.keys (s.cove cove).l2).foldl (fun s line => s.dropOld cove line) s

/-- Bytes within one line written at the cove L2. -/
def State.l2Write (s : State) (cove : Nat) (p : Phys) (bs : List Byte) : State :=
  if s.uncached p then s.homeWrite (some cove) p.pa bs
  else
    s.l2Put cove p ((indexed (p.pa % 64) bs).map (·.1)) (decide (bs.length = 64)) fun d => insBytes d (p.pa % 64) bs

/-- Every line of a cove L2 forwarded to its home: the device-scope half of a release. -/
def State.l2ForwardAll (s : State) (cove : Nat) : State :=
  (AMap.keys (s.cove cove).l2).foldl (fun s line => s.l2Forward cove line) s

/-! ## The L1D and the coalescing buffer of a core (R203) -/

/-- Lines an L1D holds: 64 KiB of 32 bytes. -/
def l1dLines : Nat := 2048

/-- A core's buffered bytes of one 32-byte line drained to the cove L2; the core's own L1D copy takes
them. -/
def State.cbDrain (s : State) (core line : Nat) : State :=
  let c := s.core core
  match c.cb.find? (fun e => e.line == line) with
  | none => s
  | some e =>
    let c := { c with cb := c.cb.filter fun e => e.line != line
                      l1d := match AMap.get? c.l1d line with
                        | some l => AMap.set c.l1d line { l with data := e.bytes.foldl (fun d p => insBytes d p.1 [p.2]) l.data }
                        | none => c.l1d }
    (s.setCore core c).l2Put (coveOfCore core) { pa := 32 * line, hs := false, tide := e.tide }
      (e.bytes.map fun p => 32 * (line % 2) + p.1) false
      fun d => e.bytes.foldl (fun d p => insBytes d (32 * (line % 2) + p.1) [p.2]) d

/-- Every entry of a core's coalescing buffer drained, oldest first. -/
def State.cbDrainAll (s : State) (core : Nat) : State :=
  ((s.core core).cb.map (·.line)).foldl (fun s line => s.cbDrain core line) s

/-- The core's L1D copy of the 32-byte line of an address, filled from the L2 where it has none; a
superseded line is a miss (R226, R249). -/
def State.l1dLine (s : State) (core : Nat) (p : Phys) : L1dLine × State :=
  let line := p.pa / 32
  let cove := coveOfCore core
  let sup := match AMap.get? (s.cove cove).l2 (p.pa / 64) with | some l => l.sup | none => true
  match (if sup then none else AMap.get? (s.core core).l1d line) with
  | some l => (l, s)
  | none =>
    let (l2, s) := (s.stallFor Config.l2Clk).l2Line cove p
    let n : L1dLine := { data := BitVec.ofNat 256 (l2.data.toNat / 2 ^ (256 * (line % 2))), stamp := l2.stamp, clk := s.clk }
    let c := s.core core
    let (l1d, s) :=
      if c.l1d.length < l1dLines then (c.l1d, s)
      else let (k, s) := s.pick c.l1d.length; (AMap.del c.l1d ((AMap.keys c.l1d).getD k 0), s)
    (n, (s.setCore core { s.core core with l1d := AMap.set l1d line n }).after 4096 (.l1dLineExpiry core line))

/-- The bytes a core's buffer holds, in preference to the line's (R203). -/
def overlay (c : Core) (pa : Nat) (bs : List Byte) : List Byte :=
  match c.cb.find? (fun e => e.line == pa / 32) with
  | none => bs
  | some e => (indexed (pa % 32) bs).map fun p => (AMap.get? e.bytes p.1).getD p.2

/-- MemRead of a slot: `n` bytes within one 32-byte line, at scope `.th`, relaxed. -/
def State.coreRead (s : State) (core : Nat) (p : Phys) (n : Nat) : List Byte × State :=
  if s.uncached p then (s.homeRead p.pa n, s.stallFor (tierClk (s.tier p.pa)))
  else
    let (l, s) := s.l1dLine core p
    (overlay (s.core core) p.pa (getBytes l.data (p.pa % 32) n), s)

/-- MemWrite of a slot: bytes within one 32-byte line, at scope `.th`, relaxed (R203). -/
def State.coreWrite (s : State) (core : Nat) (p : Phys) (bs : List Byte) : State :=
  if s.uncached p then s.homeWrite none p.pa bs
  else
    let line := p.pa / 32
    let put (m : AMap Byte) : AMap Byte := (indexed (p.pa % 32) bs).foldl (fun m q => AMap.set m q.1 q.2) m
    let c := s.core core
    if c.cb.any fun e => e.line == line then
      s.setCore core { c with cb := c.cb.map fun e =>
        if e.line = line then { e with bytes := put e.bytes, last := s.clk } else e }
    else
      let s := if c.cb.length < 16 then s else match c.cb with | [] => s | e :: _ => s.cbDrain core e.line
      let s := s.modCore core fun c =>
        { c with cb := c.cb ++ [{ line := line, bytes := put [], last := s.clk, tide := p.tide }] }
      s.after 64 (.coalesceDrainTimeout core line)

/-- A line brought to its home from a core's path, so that an access at the home follows the core's
earlier ones: its buffered bytes drained and every cove's bytes of it forwarded (R234, R239, R250). -/
def State.bringHome (s : State) (core : Nat) (p : Phys) : State :=
  ((s.cbDrain core (2 * (p.pa / 64))).cbDrain core (2 * (p.pa / 64) + 1)).gather (p.pa / 64)

/-- The line's copies discarded from a core's L1D. -/
def State.dropLine (s : State) (core : Nat) (p : Phys) : State :=
  let line := p.pa / 64
  s.modCore core fun c => { c with l1d := AMap.del (AMap.del c.l1d (2 * line)) (2 * line + 1) }

/-! ## Ordering (R203, R218, R234; Remark of 10_memory_model.md) -/

/-- A release by a slot of a core: `.cv` drains the coalescing buffer, wider scopes forward the cove's
writes to their homes. -/
def State.releaseAt (s : State) (core : Nat) (sc : Scope) : State :=
  match sc with
  | .th => s
  | .cv => s.cbDrainAll core
  | _ => (s.cbDrainAll core).l2ForwardAll (coveOfCore core)

/-- An acquire of scope `.cv` or wider self-invalidates the L1D (R218). -/
def State.acquireAt (s : State) (core : Nat) (sc : Scope) : State :=
  match sc with
  | .th => s
  | _ => s.modCore core fun c => { c with l1d := [] }

/-! ## Translation (R426-R433) -/

/-- A fault: cause code (R413) and TVAL; `log` marks a stage-2 refusal, which is entered in the audit log
(R430). -/
structure Trap where
  cause : BitVec 8
  tval  : Word
  log   : Bool := false
  deriving DecidableEq, Repr

/-- The cause codes (R413). -/
def cILLEGAL : BitVec 8 := 0x01
def cPRIV : BitVec 8 := 0x02
def cMISALIGN : BitVec 8 := 0x03
def cPAGE_R : BitVec 8 := 0x04
def cPAGE_W : BitVec 8 := 0x05
def cPAGE_X : BitVec 8 := 0x06
def cPERM : BitVec 8 := 0x07
def cGEN : BitVec 8 := 0x08
def cPOISON : BitVec 8 := 0x09
def cTAGPTR : BitVec 8 := 0x0A
def cFORMAT : BitVec 8 := 0x0B
def cISTRUCT : BitVec 8 := 0x0C
def cFRAME : BitVec 8 := 0x0D
def cTIDE_TMO : BitVec 8 := 0x0E
def cFE_UNSUP : BitVec 8 := 0x0F
def cOVERLAY_MISS : BitVec 8 := 0x10
def cSTALE_TAG : BitVec 8 := 0x11
def cMSG_MASK : BitVec 8 := 0x12
def cQUEUE : BitVec 8 := 0x13
def cLOCK : BitVec 8 := 0x14
def cECALL : BitVec 8 := 0x16
def cEBREAK : BitVec 8 := 0x17
def cREPLAY : BitVec 8 := 0x18
def cFENCED : BitVec 8 := 0x19
def cIMAGE : BitVec 8 := 0x1A

/-- What an access does to a page (R429). -/
inductive Kind where
  | r | w | x
  deriving DecidableEq, Repr

/-- The page fault of an access kind. -/
def Kind.cause : Kind → BitVec 8
  | .r => cPAGE_R | .w => cPAGE_W | .x => cPAGE_X

/-- Who accesses: tenant, stage-1 root and ASID, privilege, its core (none for an engine or cell), its
cove, and the A-cell whose micro-TLB it uses. -/
structure Agent where
  vmid  : Nat
  troot : Word
  sup   : Bool
  core  : Option Nat
  cove  : Nat
  cell  : Option Nat := none
  deriving DecidableEq, Repr

/-- A table entry's fields (R427). -/
def pteV (e : Word) : Bool := bitAt e 0
def pteLeaf (e : Word) : Bool := bitAt e 1 || bitAt e 2 || bitAt e 3

/-- log2 of the leaf size at a level (R426). -/
def leafBits (level : Nat) : Nat := 16 + 13 * (level - 1)

/-- A malformed entry (R427). -/
def pteBad (level : Nat) (e : Word) : Bool :=
  fld e 63 61 != 0 || fld e 15 6 != 0 || (bitAt e 2 && !bitAt e 1) ||
  (if pteLeaf e then
    (bitAt e 59 && level != 1) || fld e 51 0 % 2 ^ leafBits level / 2 ^ 16 != 0
  else level == 1 || bitAt e 60 || bitAt e 59 || bitAt e 5 || bitAt e 4)

/-- A usable entry. -/
def pteOk (level : Nat) (e : Word) : Bool := pteV e && !pteBad level e

/-- A leaf found by a walk: where it maps, its size, its attributes. -/
structure Leaf where
  pa   : Nat
  size : Nat
  bits : Word
  deriving DecidableEq, Repr

/-- The 8-byte table entry at a PA, read at its home. -/
def readPte (s : State) (pa : Nat) : Word := bytesWord (Bytes.rdN s.mem pa 8)

/-- The entries of the aligned 2 MiB block with CONT, as leaves for entry `i` of it (R428). -/
def contLeaves (rd : Nat → Option Word) (i : Nat) : Nat → List (Nat × Word)
  | 0 => []
  | j + 1 =>
    let rest := contLeaves rd i j
    match rd j with
    | some e =>
      if pteOk 1 e && pteLeaf e && bitAt e 59 then
        let pa := fld e 51 16 * 2 ^ 16 + i * 2 ^ 16 - j * 2 ^ 16
        (pa, (e &&& 0xFFF000000000FFFF#64)) :: rest
      else rest
    | none => rest

/-- The leaf of entry `i` of a level-1 table: its own entry, or with CONT one of its block that carries
CONT, chosen by the TLB (R428). -/
def leafOf (s : State) (rd : Nat → Option Word) (level idx : Nat) (e : Word) : Leaf × State :=
  let own := (fld e 51 16 * 2 ^ 16, (e &&& 0xFFF000000000FFFF#64))
  if level = 1 && bitAt e 59 then
    let base := idx / 32 * 32
    let cs := (own :: contLeaves (fun j => rd (base + j)) (idx % 32) 32).eraseDups
    let (k, s) := s.pick cs.length
    let c := cs.getD k own
    ({ pa := c.1, size := 16, bits := c.2 }, s)
  else ({ pa := own.1, size := leafBits level, bits := own.2 }, s)

/-- Why a walk finds no leaf: stage 1 refuses, stage 2 refuses, or the line of a table entry is poisoned
(R200). -/
inductive WalkFail where
  | refused | stage2 | poison
  deriving DecidableEq, Repr

/-- Whose walk it is: the cove whose walk cache serves it and the tenant; none for the management core. -/
abbrev Walker := Option (Nat × Nat)

/-- Entries of a cove's walk cache (R433). -/
def walkEntries : Nat := 256

/-- A table entry at a PA for a walk at a level: from the walk cache, or read at its home. A usable
non-leaf entry enters the walk cache, in place of one of a free choice where it is full (R433). -/
def State.tableEntry (s : State) (w : Walker) (level pa : Nat) : Except WalkFail (Word × State) :=
  match w with
  | none => if s.isPoison pa then .error .poison else .ok (readPte s pa, s)
  | some (cove, vmid) =>
    match (s.cove cove).wcache.find? fun e => e.vmid == vmid && e.pa == pa with
    | some e => .ok (e.word, s)
    | none =>
      if s.isPoison pa then .error .poison
      else
        let e := readPte s pa
        if !pteOk level e || pteLeaf e then .ok (e, s)
        else
          let n : WalkEntry := { vmid := vmid, pa := pa, word := e }
          if (s.cove cove).wcache.length < walkEntries then
            .ok (e, s.modCove cove fun v => { v with wcache := v.wcache ++ [n] })
          else
            let (k, s) := s.pick walkEntries
            .ok (e, s.modCove cove fun v => { v with wcache := v.wcache.eraseIdx k ++ [n] })

/-- The stage-2 walk from a level-3 table at a PA (R426, R430). -/
def walk2 (s : State) (w : Walker) (ipa : Nat) : Nat → Nat → Except WalkFail (Leaf × State)
  | _, 0 => .error .stage2
  | table, level + 1 =>
    let idx := ipa / 2 ^ leafBits (level + 1) % 8192
    match s.tableEntry w (level + 1) (table + 8 * idx) with
    | .error f => .error f
    | .ok (e, s) =>
      if !pteOk (level + 1) e then .error .stage2
      else if pteLeaf e then .ok (leafOf s (fun j => some (readPte s (table + 8 * j))) (level + 1) idx e)
      else walk2 s w ipa (fld e 51 16 * 2 ^ 16) level

/-- An IPA to a PA for a read by the walker: R = 1 is needed (R430). -/
def walkRead (s : State) (w : Walker) (s2root ipa : Nat) : Except WalkFail (Nat × State) :=
  if 2 ^ 52 ≤ ipa then .error .stage2
  else
    match walk2 s w ipa s2root 3 with
    | .error f => .error f
    | .ok (l, s) =>
      let pa := l.pa + ipa % 2 ^ l.size
      if bitAt l.bits 1 && s.tier pa != .none then .ok (pa, s) else .error .stage2

/-- The stage-1 walk. -/
def walk1 (s : State) (w : Walker) (s2root va : Nat) : Nat → Nat → Except WalkFail (Leaf × State)
  | _, 0 => .error .refused
  | table, level + 1 =>
    let idx := va / 2 ^ leafBits (level + 1) % 8192
    match walkRead s w s2root (table + 8 * idx) with
    | .error f => .error f
    | .ok (pa, s) =>
      match s.tableEntry w (level + 1) pa with
      | .error f => .error f
      | .ok (e, s) =>
        if !pteOk (level + 1) e then .error .refused
        else if pteLeaf e then
          .ok (leafOf s (fun j => match walkRead s w s2root (table + 8 * j) with | .ok (pa, s) => some (readPte s pa) | .error _ => none)
            (level + 1) idx e)
        else walk1 s w s2root va (fld e 51 16 * 2 ^ 16) level

/-- What translation finds for an address: an entry, or why there is none. -/
abbrev Walked := Except WalkFail (TlbEntry × State)

/-- Both stages walked for a VA. The entry covers the smaller of the two leaves. A leaf that stage 1
allows and stage 2 does not map is kept with no stage-2 right, so that the order of checks of R430
stands. -/
def walkBoth (s : State) (ag : Agent) (va : Nat) : Walked :=
  let s2root := fld (s.tenant ag.vmid).args.s2root 51 0
  let w : Walker := some (ag.cove, ag.vmid)
  match walk1 s w s2root va (fld ag.troot 51 16 * 2 ^ 16) 3 with
  | .error f => .error f
  | .ok (l, s) =>
    let ipa := l.pa + va % 2 ^ l.size
    let mk (size pa : Nat) (s2 : BitVec 3) (hs : Bool) : TlbEntry :=
      { vmid := ag.vmid, asid := fld ag.troot 15 0, glob := bitAt l.bits 5, size := size, vpn := va / 2 ^ size,
        pa := pa / 2 ^ size * 2 ^ size, r := bitAt l.bits 1, w := bitAt l.bits 2, x := bitAt l.bits 3,
        u := bitAt l.bits 4, s2 := s2, hs := hs }
    match walk2 s w ipa s2root 3 with
    | .error .poison => .error .poison
    | .error _ => .ok (mk 16 0 0#3 (bitAt l.bits 60), s)
    | .ok (l2, s) =>
      let size := min l.size l2.size
      .ok (mk size (l2.pa + ipa % 2 ^ l2.size) (l2.bits.extractLsb' 1 3) (bitAt l.bits 60 || bitAt l2.bits 60), s)

/-- A TLB holds the translation of a VA (R433). -/
def TlbEntry.hits (e : TlbEntry) (ag : Agent) (va : Nat) : Bool :=
  e.vmid == ag.vmid && (e.glob || e.asid == fld ag.troot 15 0) && e.vpn == va / 2 ^ e.size

/-- An entry added to a TLB of a number of entries; a full TLB loses one of a free choice. -/
def tlbAdd (s : State) (cap : Nat) (t : List TlbEntry) (e : TlbEntry) : List TlbEntry × State :=
  if t.length < cap then (t ++ [e], s)
  else let (k, s) := s.pick t.length; (t.eraseIdx k ++ [e], s)

/-- The entries of the L1 TLB of an agent's core, or of its A-cell's micro-TLB (R433). -/
def State.nearTlb (s : State) (ag : Agent) : List TlbEntry :=
  match ag.core, ag.cell with
  | some c, _ => (s.core c).tlb
  | none, some k => AMap.getD (s.cove ag.cove).mtlb k []
  | none, none => []

/-- An entry added to that TLB: 192 entries a core, 16 an A-cell. -/
def State.nearTlbAdd (s : State) (ag : Agent) (e : TlbEntry) : State :=
  match ag.core, ag.cell with
  | some c, _ =>
    let (t, s) := tlbAdd s 192 (s.core c).tlb e
    s.modCore c fun v => { v with tlb := t }
  | none, some k =>
    let (t, s) := tlbAdd s 16 (AMap.getD (s.cove ag.cove).mtlb k []) e
    s.modCove ag.cove fun v => { v with mtlb := AMap.set v.mtlb k t }
  | none, none => s

/-- A cove's walkers (R433) and the unloaded time of a walk of both stages. -/
def walkers : Nat := 16
def walkClk : Nat := 15 * Config.l2Clk

/-- The misses of a cove that are still walking or wait for a walker or a miss slot. -/
def liveMisses (s : State) (cove : Nat) : List MissSlot := (s.cove cove).misses.filter fun m => s.clk < m.due

/-- The walk of a page that is under way. -/
def MissSlot.is (m : MissSlot) (ag : Agent) (va : Nat) : Bool :=
  m.vmid == ag.vmid && m.asid == fld ag.troot 15 0 && m.page == va / 2 ^ 16

/-- The wait for a page's walk under way, which a miss joins (R433). -/
def joinMiss (s : State) (ag : Agent) (va : Nat) : State :=
  match (liveMisses s ag.cove).find? fun m => MissSlot.is m ag va with
  | some m => { s with walked := true }.stallFor (m.due - s.clk)
  | none => s

/-- A miss of the cove TLB takes a miss slot and, once one of the 16 walkers is free, its walk runs; where all
64 slots are held it waits for both (R433). Walks end in the order in which they began. -/
def startMiss (s : State) (ag : Agent) (va : Nat) : State :=
  let live := liveMisses s ag.cove
  let start := if live.length < walkers then s.clk else ((live.map (·.due)).getD (live.length - walkers) s.clk)
  let m : MissSlot := { vmid := ag.vmid, asid := fld ag.troot 15 0, page := va / 2 ^ 16, due := start + walkClk }
  ({ s with walked := true }.stallFor (m.due - s.clk)).modCove ag.cove fun v => { v with misses := live ++ [m] }

/-- The translation of a VA: the core's or A-cell's TLB, the cove's, or a walk (R433). -/
def lookup (s : State) (ag : Agent) (va : Nat) : Walked :=
  match (s.nearTlb ag).find? fun e => TlbEntry.hits e ag va with
  | some e => .ok (e, joinMiss s ag va)
  | none =>
    match (s.cove ag.cove).tlb.find? fun e => TlbEntry.hits e ag va with
    | some e => .ok (e, joinMiss ({ s.nearTlbAdd ag e with walked := true }.stallFor 4) ag va)
    | none =>
      match walkBoth s ag va with
      | .error f => .error f
      | .ok (e, s) =>
        if e.s2 = 0#3 then .ok (e, s)
        else
          let (t, s) := tlbAdd s 4096 (s.cove ag.cove).tlb e
          let s := s.modCove ag.cove fun v => { v with tlb := t }
          .ok (e, startMiss (s.nearTlbAdd ag e) ag va)

/-- A canonical VA: bits [63:55] equal bit 54 (R426). -/
def canonical (va : Word) : Bool := sext 55 va == va

/-- The translation of an access (R426-R431, R468): stage 1 first, then stage 2, then what the address
names. -/
def translate (s : State) (ag : Agent) (va : Word) (k : Kind) : Except Trap (Phys × State) :=
  let page : Except Trap (Phys × State) := .error { cause := k.cause, tval := va }
  let perm : Except Trap (Phys × State) := .error { cause := cPERM, tval := va, log := true }
  if !canonical va then page
  else
    match lookup s ag (fld va 54 0) with
    | .error .refused => page
    | .error .stage2 => perm
    | .error .poison => .error { cause := cPOISON, tval := va }
    | .ok (e, s) =>
      let right := match k with | .r => e.r | .w => e.w | .x => e.x
      let user := if ag.sup then !(k == .x && e.u) else e.u
      let bit := match k with | .r => e.s2.getLsbD 0 | .w => e.s2.getLsbD 1 | .x => e.s2.getLsbD 2
      if !right || !user then page
      else if !bit then perm
      else
        let pa := e.pa + fld va 54 0 % 2 ^ e.size
        let t := s.tenant ag.vmid
        match s.tier pa with
        | .none => perm
        | .host =>
          if Config.hostRefuses t.args.pasid.toNat (pa % 2 ^ 51) then perm
          else .ok ({ pa := pa, hs := true, tide := none }, s)
        | _ => .ok ({ pa := pa, hs := e.hs, tide := (tideOf t va).map fun i => (ag.vmid, i) }, s)

/-- The translation of an access to memory that may be poisoned: POISON where its line is (R199, R200). -/
def xlat (s : State) (ag : Agent) (va : Word) (k : Kind) : Except Trap (Phys × State) :=
  match translate s ag va k with
  | .error t => .error t
  | .ok (p, s) => if s.isPoison p.pa then .error { cause := cPOISON, tval := va } else .ok (p, s)

/-! ## The access of a slot, a cell or an engine -/

/-- The issuing slot as an agent. -/
def State.agent (s : State) : Agent :=
  { vmid := s.vmid, troot := s.me.troot, sup := s.me.sup, core := some (coreOf s.cur), cove := coveOfSlot s.cur }

/-- A read of a slot, translated and performed. -/
def State.load (s : State) (va : Word) (n : Nat) : Except Trap (List Byte × State) :=
  match xlat s s.agent va .r with
  | .error t => .error t
  | .ok (p, s) => .ok (s.coreRead (coreOf s.cur) p n)

/-- A write of a slot, translated and performed. -/
def State.store (s : State) (va : Word) (bs : List Byte) : Except Trap State :=
  match xlat s s.agent va .w with
  | .error t => .error t
  | .ok (p, s) => .ok (s.coreWrite (coreOf s.cur) p bs)

/-- A read by an agent at its cove L2: engines, cells' windows, `frd` (R205). Within one 64-byte line. -/
def State.readAs (s : State) (ag : Agent) (va : Word) (n : Nat) : Except Trap (List Byte × State) :=
  match xlat s ag va .r with
  | .error t => .error t
  | .ok (p, s) => .ok (s.l2Read ag.cove p n)

/-- A write by an agent at its cove L2. -/
def State.writeAs (s : State) (ag : Agent) (va : Word) (bs : List Byte) : Except Trap State :=
  match xlat s ag va .w with
  | .error t => .error t
  | .ok (p, s) => .ok (s.l2Write ag.cove p bs)

/-- The word of an agent read at its home, whatever copies its cove holds (R215). -/
def State.homeWord (s : State) (p : Phys) : Word := bytesWord (s.homeRead p.pa 8)

end Sys2Proof.Machine
end

