-- ==== Sys2Proof/Machine/Tasks.lean ====
section
/-! DEFINITION. Tasks and frames: home actions, tokens in memory (R58), rings (R351), tokens routed to a
function (R350), the frame allocator (R276, R277), stacks, deques (R271-R273), continuations (R275), frame
completion (R281, R330), launch completion (R288), and the end of a task (R415). -/

namespace Sys2Proof.Machine

/-! ## Home actions -/

/-- The device acting for a tenant at a cove, with its default root. -/
def State.devAgent (s : State) (vmid cove : Nat) : Agent :=
  { vmid := vmid, troot := (s.tenant vmid).args.troot, sup := true, core := none, cove := cove }

/-- The line of an address brought to its home from an agent's path. -/
def State.atHome (s : State) (ag : Agent) (p : Phys) : State :=
  match ag.core with
  | some c => s.bringHome c p
  | none => s.gather (p.pa / 64)

/-- A word read at its home. -/
def State.homeLoad (s : State) (ag : Agent) (va : Word) (k : Kind := .r) : Except Trap (Word × Phys × State) :=
  match xlat s ag va k with
  | .error t => .error t
  | .ok (p, s) => let s := s.atHome ag p; .ok (s.homeWord p, p, s)

/-- Bytes written at their home, all copies invalidated, a superseded one of the writer's cove dropped. -/
def State.putHome (s : State) (ag : Agent) (p : Phys) (bs : List Byte) : State :=
  ((s.atHome ag p).homeWrite none p.pa bs).dropOld ag.cove (p.pa / 64)

/-- A word written at its home. -/
def State.homeStore (s : State) (ag : Agent) (va : Word) (w : Word) : Except Trap State :=
  match xlat s ag va .w with
  | .error t => .error t
  | .ok (p, s) => .ok (s.putHome ag p (natBytes 8 w.toNat))

/-- The state of a result, the first state where it failed. -/
def orElse {ε : Type} (r : Except ε State) (s : State) : State :=
  match r with | .ok s => s | .error _ => s

/-- Consecutive words read at their homes. -/
def homeWords (s : State) (ag : Agent) (va : Word) : Nat → Except Trap (List Word × State)
  | 0 => .ok ([], s)
  | n + 1 =>
    match s.homeLoad ag va with
    | .error t => .error t
    | .ok (w, _, s) =>
      match homeWords s ag (va + 8#64) n with
      | .error t => .error t
      | .ok (ws, s) => .ok (w :: ws, s)

/-- Consecutive words written at their homes. -/
def homePuts (s : State) (ag : Agent) (va : Word) : List Word → Except Trap State
  | [] => .ok s
  | w :: r =>
    match s.homeStore ag va w with
    | .error t => .error t
    | .ok s => homePuts s ag (va + 8#64) r

/-! ## Tokens in memory (R58) -/

def Token.words (t : Token) : List Word :=
  [t.payload,
   w64 (t.iter.toNat * 2 ^ 32 + t.dx.toNat * 2 ^ 23 + t.dy.toNat * 2 ^ 17 + t.dslot.toNat * 2 ^ 14
     + t.didx.toNat * 2 ^ 7 + t.dop.toNat * 2 ^ 5
     + (match t.act with | .normal => 0 | .sticky => 1 | .purge => 2 | .null => 3) * 2 ^ 3 + t.ftag.code.toNat),
   w64 (t.ctx.fgen.toNat * 2 ^ 24 + t.ctx.frame.toNat)]

/-- A token from its three words; none for DOP 11 or a reserved bit set (R59). -/
def tokenOf (w0 w1 w2 : Word) : Option Token :=
  if fld w1 63 48 ≠ 0 ∨ fld w1 31 29 ≠ 0 ∨ fld w2 63 32 ≠ 0 ∨ fld w1 6 5 = 3 then none
  else some
    { payload := w0, ftag := Fmt.ofCode (w1.extractLsb' 0 3)
      ctx := { frame := w2.extractLsb' 0 24, fgen := w2.extractLsb' 24 8 }
      iter := w1.extractLsb' 32 16, dx := w1.extractLsb' 23 6, dy := w1.extractLsb' 17 6
      dslot := w1.extractLsb' 14 3, didx := w1.extractLsb' 7 7, dop := w1.extractLsb' 5 2
      act := match fld w1 4 3 with | 0 => .normal | 1 => .sticky | 2 => .purge | _ => .null }

/-! ## Rings (R351) -/

/-- An entry appended to a ring whose header and entries are in memory: none when it is full or cannot
be written. -/
def ringAppend (s : State) (ag : Agent) (base : Word) (ws : List Word) : Option State :=
  match homeWords s ag base 3 with
  | .ok ([h, t, cap], s) =>
    if cap = 0#64 then none
    else
      let t' := (t.toNat + 1) % cap.toNat
      if t' = h.toNat % cap.toNat then none
      else
        match homePuts s ag (base + 64#64 + w64 (8 * ws.length * (t.toNat % cap.toNat))) ws with
        | .error _ => none
        | .ok s => match s.homeStore ag (base + 8#64) (w64 t') with | .ok s => some s | .error _ => none
  | _ => none

/-- The oldest entry of a ring, `n` words, left in it; none when empty or unreadable. -/
def ringPeek (s : State) (ag : Agent) (base : Word) (n : Nat) : Option (List Word) :=
  match homeWords s ag base 3 with
  | .ok ([h, t, cap], s) =>
    if cap = 0#64 ∨ h.toNat % cap.toNat = t.toNat % cap.toNat then none
    else
      match homeWords s ag (base + 64#64 + w64 (8 * n * (h.toNat % cap.toNat))) n with
      | .ok (ws, _) => some ws
      | .error _ => none
  | _ => none

/-- The oldest entry removed. -/
def ringPop (s : State) (ag : Agent) (base : Word) : State :=
  match homeWords s ag base 3 with
  | .ok ([h, _, cap], s) => orElse (s.homeStore ag base (w64 ((h.toNat + 1) % cap.toNat))) s
  | _ => s

/-- One more at DROPS. -/
def ringDrop (s : State) (ag : Agent) (base : Word) : State :=
  match s.homeLoad ag (base + 24#64) .w with
  | .ok (d, p, s) => s.putHome ag p (natBytes 8 (d.toNat + 1))
  | .error _ => s

/-! ## MSI-X (R466, R471) and traces (R487) -/

/-- An MSI-X vector raised: one message, or one pending bit while it is masked. -/
def State.msix (s : State) (fn vec : Nat) : State :=
  let v : Msix := { fn := fn, vec := vec }
  s.modMgmt fun m =>
    if m.masked.contains v then
      if m.pending.contains v then m else { m with pending := m.pending ++ [v] }
    else { m with sent := m.sent ++ [v] }

/-- A trace record appended to a tenant's ring where its class is enabled (R487). -/
def State.trace (s : State) (vmid cls unit code : Nat) (a0 a1 : Word) : State :=
  let t := s.tenant vmid
  if !t.present || !bitAt t.trmask cls || t.args.trace = 0#64 then s
  else
    let ws := [w64 s.now, w64 (cls * 2 ^ 28 + unit + (code + vmid * 2 ^ 16) * 2 ^ 32), a0, a1]
    match ringAppend s (s.devAgent vmid 0) t.args.trace ws with
    | some s => s
    | none => s.count vmid .traceDrop

/-! ## Functions and regions -/

/-- A function descriptor's words (R67). -/
structure Desc where
  imgva  : Word
  word1  : Word
  fsize  : Word
  shape  : Word
  moorq  : Word
  placed : Word
  deriving DecidableEq, Repr

/-- The descriptor that a tag-01 pointer names. -/
def readDesc (s : State) (ag : Agent) (p : Word) : Except Trap (Desc × State) :=
  match homeWords s ag (p &&& ~~~3#64) 6 with
  | .ok ([a, b, c, d, e, f], s) =>
    .ok ({ imgva := a, word1 := b, fsize := c, shape := d, moorq := e, placed := f }, s)
  | .ok (_, s) => .ok ({ imgva := 0, word1 := 0, fsize := 0, shape := 0, moorq := 0, placed := 0 }, s)
  | .error t => .error t

def Desc.entry (d : Desc) : Nat := fld d.word1 7 0
def Desc.narg (d : Desc) : Nat := fld d.word1 15 8
def Desc.flags (d : Desc) : Nat := fld d.word1 31 24

/-- The region a handle names (R448). -/
def rkeyOf (vmid : Nat) (h : Word) : RKey := { vmid := vmid, ridx := fld h 55 48 }
def handleX (h : Word) : Nat := 4 * fld h 34 30
def handleY (h : Word) : Nat := 4 * fld h 39 35
def handleW (h : Word) : Nat := 4 * (fld h 43 40 + 1)
def handleH (h : Word) : Nat := 4 * (fld h 47 44 + 1)
def handleGen (h : Word) : Gen := h.extractLsb' 0 16
def handleMode (h : Word) : Bool := bitAt h 16
/-- The absolute key of a region's cell. -/
def cellAt (h : Word) (x y : Nat) : Nat := cellKey (handleX h + x) (handleY h + y)
/-- The region's home cove: that of its top-left cell (R285), and its quadrant. -/
def handleCove (h : Word) : Nat := coveOfXY (handleX h) (handleY h)
def handleQuad (h : Word) : Nat := quadOfXY (handleX h) (handleY h)

/-- The frame generation of a frame number (R276). -/
def Tenant.fgen (t : Tenant) (n : Nat) : BitVec 8 := AMap.getD t.fgens n 0#8

/-- The frame number of a VA of a tenant's heap (R276). -/
def Tenant.frameNo (t : Tenant) (va : Word) : Nat := (va - t.args.fheap).toNat / 64

/-- The VA lies in the tenant's frame heap. -/
def Tenant.inHeap (t : Tenant) (va : Word) : Bool := (va - t.args.fheap).toNat < t.args.fhsize.toNat

/-- The context of a frame (R58). -/
def Tenant.ctxOf (t : Tenant) (va : Word) : Ctx :=
  { frame := BitVec.ofNat 24 (t.frameNo va), fgen := t.fgen (t.frameNo va) }

/-- The frame VA of a context. -/
def Tenant.frameVa (t : Tenant) (c : Ctx) : Word := t.args.fheap + w64 (64 * c.frame.toNat)

/-- What becomes of a token for a function (R350, R352). -/
inductive Routed where
  | sent (s : State)
  /-- The mooring ring is full. -/
  | full
  /-- The function moors nothing. -/
  | noRing
  | fault (t : Trap)

/-- A request for a region waits at the quadrant's placer (R455). -/
def State.askPlacer (s : State) (quad : Nat) (r : PlaceReq) : State :=
  let s := s.modQuad quad fun q => if q.reqs.contains r then q else { q with reqs := q.reqs ++ [r] }
  if s.duties.any fun d => d.work == .ev (.placementRequest quad) then s else s.after 1 (.placementRequest quad)

/-- Where a buoy's A-cell stands: its cove, and its place in the region; an absent buoy counts as the region's corner. -/
def buoySpot (rg : Region) (b : Nat) : Nat × Nat × Nat :=
  match AMap.get? rg.buoys b with
  | some y => (coveOfXY (handleX rg.handle + y.x) (handleY rg.handle + y.y), y.x, y.y)
  | none => (handleCove rg.handle, 0, 0)

/-- Hops from a buoy's A-cell to the cell that a token names (R13, R518). -/
def buoyHops (rg : Region) (b : Nat) (t : Token) : Nat :=
  let (_, x, y) := buoySpot rg b
  (t.dx.toNat - x) + (x - t.dx.toNat) + (t.dy.toNat - y) + (y - t.dy.toNat)

/-- The time until a token sent from a cove stands in a mooring queue: to the ring's home, and its append there
(R518). -/
def moorClk (s : State) (ag : Agent) (ring : Word) : Nat :=
  match translate s ag ring .w with
  | .ok (p, _) => (if tierQuad p.pa = quadOfCove ag.cove then Config.meshQuad else Config.meshFar) + tierClk (s.tier p.pa)
  | .error _ => Config.meshQuad

/-- A token for a function, sent from a cove: a start token to its entry buoy, or a return token, through it, to the
cell it names (R350, R518). While the mooring queue is not empty, every token is appended behind (R352). `src` is the
context that sends it. -/
def routeToken (s : State) (vmid cove queue : Nat) (desc : Word) (tok : Token) (ret : Bool) (src : Option (RKey × IKey) := none) :
    Routed :=
  let ag := s.devAgent vmid cove
  match readDesc s ag desc with
  | .error t => .fault t
  | .ok (d, s) =>
    let rk := rkeyOf vmid d.placed
    let rg := s.region rk
    let waiting := d.moorq != 0#64 && (ringPeek s ag d.moorq 3).isSome
    if d.placed != 0#64 && rg.st == 3 && rg.wave.isNone && !waiting then
      let far := meshClk cove (buoySpot rg d.entry).1
      .sent (if ret then s.after (far + buoyHops rg d.entry tok) (.tokenMatch rk tok none)
             else s.after far (.buoyTokenArrival rk d.entry tok src))
    else if d.moorq = 0#64 then .noRing
    else
      match ringAppend s ag d.moorq (Token.words tok) with
      | none => .full
      | some s =>
        let s := s.after (moorClk s ag d.moorq) (.moorDelivery vmid (desc &&& ~~~3#64))
        .sent (if d.placed = 0#64 then
            s.askPlacer (quadOfCove cove)
              { vmid := vmid, desc := desc &&& ~~~3#64, troot := (s.tenant vmid).args.troot, queue := queue,
                cls := (s.queue queue).cls.toNat }
          else s)

/-- The start token of frame F (R280). -/
def startToken (t : Tenant) (f : Word) : Token :=
  { payload := f, ftag := .int, ctx := t.ctxOf f, iter := 0#16, dx := 0#6, dy := 0#6, dslot := 0#3, didx := 0#7,
    dop := 0#2, act := .normal }

/-! ## Messages (R119, R120) -/

/-- Time until a message is pending at its target. -/
def msgClk (sender target : Nat) : Nat :=
  if coreOf sender = coreOf target then 2 else meshClk (coveOfSlot sender) (coveOfSlot target)

/-- A message sent. -/
def State.sendMsg (s : State) (m : Msg) : State := s.after (msgClk m.sender m.target) (.messageArrival m)

/-- Messages pending for a slot, inbox plus overflow ring (R114). -/
def State.pend (s : State) (n : Nat) : Nat :=
  (s.slot n).inbox.length +
  ((s.tenant (s.slot n).own.vmid.toNat).movr.filter fun m => m.target == n && m.gen == (s.slot n).gen).length

/-! ## The frame allocator (R276, R277) -/

/-- The size class of a size, 0-5. -/
def sizeClass (n : Nat) : Nat :=
  if n ≤ 128 then 0 else if n ≤ 256 then 1 else if n ≤ 512 then 2 else if n ≤ 1024 then 3
  else if n ≤ 2048 then 4 else 5

def classBytes (c : Nat) : Nat := 128 * 2 ^ c

/-- The bytes of a frame's size class; a frame the allocator did not make is of the largest (R276). -/
def Tenant.frameBytes (t : Tenant) (va : Word) : Nat :=
  if t.inHeap va then classBytes (AMap.getD t.classes (t.frameNo va) 5) else 4096

/-- The frames of a heap range checked writable at stage 1, 64 KiB page by page (R277). -/
def checkCarve (s : State) (ag : Agent) (va : Word) (n : Nat) : Except Trap State :=
  match translate s ag va .w with
  | .error t => .error t
  | .ok (_, s) =>
    let last := va + w64 (n - 1)
    if va.toNat / 2 ^ 16 = last.toNat / 2 ^ 16 then .ok s
    else
      match translate s ag (last &&& ~~~0xFFFF#64) .w with
      | .error t => .error t
      | .ok (_, s) => .ok s

/-- Zeros written over a frame newly carved (R283). -/
def zeroFrame (s : State) (ag : Agent) (va : Word) : Nat → State
  | 0 => s
  | n + 1 =>
    let s := match xlat s ag va .w with
      | .error _ => s
      | .ok (p, s) => s.putHome ag p (List.replicate 64 0#8)
    zeroFrame s ag (va + 64#64) n

/-- A frame of at least `n` bytes: the cove's hardware list, its cove list, the heap (R277). Which frame
is a free choice. -/
def allocFrame (s : State) (ag : Agent) (n : Nat) : Except Trap (Word × State) :=
  let c := sizeClass n
  let key := 8 * ag.cove + c
  let t := s.tenant ag.vmid
  let hw := AMap.getD t.frl key []
  let cv := AMap.getD t.cvl key []
  -- a refill of an empty hardware list, 16 frames at a time
  let (hw, cv) := if hw.isEmpty then (cv.take 16, cv.drop 16) else (hw, cv)
  if hw.isEmpty then
    let va := t.args.fheap + w64 t.carved
    if t.args.fhsize.toNat < t.carved + classBytes c then .error { cause := cFRAME, tval := w64 n }
    else
      match checkCarve s ag va (classBytes c) with
      | .error t => .error t
      | .ok s =>
        let s := zeroFrame s { ag with core := none } va (classBytes c / 64)
        .ok (va, s.modTenant ag.vmid fun t =>
          { t with carved := t.carved + classBytes c, classes := AMap.set t.classes (t.frameNo va) c })
  else
    let (k, s) := s.pick hw.length
    let f := hw.getD k 0
    .ok (t.args.fheap + w64 (64 * f), s.modTenant ag.vmid fun t =>
      { t with frl := AMap.set t.frl key (hw.eraseIdx k), cvl := AMap.set t.cvl key cv })

/-- A frame returned to a cove's list, which spills 16 frames when full; its frame generation moves on
(R277, R284). -/
def returnFrame (s : State) (vmid cove : Nat) (va : Word) : State :=
  s.modTenant vmid fun t =>
    let f := t.frameNo va
    let c := AMap.getD t.classes f 5
    let key := 8 * cove + c
    let hw := AMap.getD t.frl key []
    let cv := AMap.getD t.cvl key []
    let (hw, cv) := if hw.length < 32 then (hw, cv) else (hw.drop 16, cv ++ hw.take 16)
    { t with frl := AMap.set t.frl key (f :: hw), cvl := AMap.set t.cvl key cv
             fgens := AMap.set t.fgens f (t.fgen f + 1#8) }

/-- The header words 0-7 of a frame as `frm.new` writes them (R283). -/
def frameHeader (retp : Word) (gen : Gen) : List Word :=
  [retp, 0#64, 0#64, 0#64, gen.setWidth 64, 0#64, 0#64, 0#64]

/-- A frame's header written at its home, RESULT left empty. -/
def writeHeader (s : State) (ag : Agent) (f retp : Word) (gen : Gen) : Except Trap State :=
  match homePuts s ag f (frameHeader retp gen) with
  | .error t => .error t
  | .ok s =>
    match xlat s ag (f + 40#64) .w with
    | .error t => .error t
    | .ok (p, s) => .ok (s.setEmpty p.pa)

/-! ## Free indices of stacks and save images (R270, R438) -/

/-- A free number below `n` that is not in use: none, or a free choice. -/
def freeIndex (s : State) (n : Nat) (used : List Nat) : Option (Nat × State) :=
  let free := (List.range n).filter fun i => !used.contains i
  if free.isEmpty then none
  else let (k, s) := s.pick free.length; some (free.getD k 0, s)

/-- A stack of the tenant's pool: its number and top (R270). -/
def takeStack (s : State) (vmid : Nat) : Option (Nat × Word × State) :=
  let t := s.tenant vmid
  match freeIndex s (fld t.args.stk 63 32) t.stkUsed with
  | none => none
  | some (i, s) =>
    some (i, t.args.stkBase + w64 (fld t.args.stk 31 0 * (i + 1)),
      s.modTenant vmid fun t => { t with stkUsed := i :: t.stkUsed })

def giveStack (s : State) (vmid : Nat) (i : Option Nat) : State :=
  match i with
  | none => s
  | some i => s.modTenant vmid fun t => { t with stkUsed := t.stkUsed.filter (· != i) }

/-! ## Deques (R271-R273) -/

/-- Room for 32 entries in a queue's spill area. -/
def spillRoom (q : Queue) : Bool := q.spilled.length + 32 ≤ q.spillN

/-- The entries of a queue's logical deque in a core's hardware deque, bottom first. -/
def ofQueue (d : List DqEntry) (q : Nat) : List DqEntry := d.filter fun e => e.queue == q

/-- The queue whose logical deque spills: the largest with room, ties to the lowest id (R273). -/
def spillVictim (s : State) (d : List DqEntry) : Option Nat :=
  let qs := sortBy (fun a b => decide (a ≤ b)) ((d.map (·.queue)).eraseDups.filter fun q => spillRoom (s.queue q))
  qs.foldl (fun best q =>
    match best with
    | none => some q
    | some b => if (ofQueue d b).length < (ofQueue d q).length then some q else some b) none

/-- A list without the last `n` of those that satisfy `p`. -/
def dropLastOf {α : Type} (p : α → Bool) (n : Nat) (l : List α) : List α :=
  (l.foldr (fun a (acc : Nat × List α) => if p a && decide (0 < acc.1) then (acc.1 - 1, acc.2) else (acc.1, a :: acc.2)) (n, [])).2

/-- An entry's two words (R271), and the entry of two words. -/
def DqEntry.words (e : DqEntry) : List Word :=
  [e.ptr, w64 (e.frame.toNat / 64 * 64 + e.slot.toNat * 8 + e.dom.toNat)]

def DqEntry.ofWords (q : Nat) (w0 w1 : Word) : DqEntry :=
  { ptr := w0, frame := w64 (w1.toNat / 64 * 64), slot := w1.extractLsb' 3 3, dom := w1.extractLsb' 0 3, queue := q }

/-- The address of a place of a queue's spill ring: 16 bytes each behind the 64-byte header (R273). -/
def Queue.spillPlace (q : Queue) (pos : Nat) : Word := q.spillVa + 64#64 + w64 (16 * pos)

/-- The lowest place of a queue's spill ring that holds no entry. -/
def Queue.freePlace (q : Queue) : Nat :=
  ((List.range (q.spilled.length + 1)).find? fun k => !(q.spilled.map (·.pos)).contains k).getD 0

/-- One entry of a core written to its queue's spill ring. -/
def spillEntry (s : State) (core : Nat) (e : DqEntry) : State :=
  let q := s.queue e.queue
  let pos := q.freePlace
  let s := orElse (homePuts s (s.devAgent q.vmid (coveOfCore core)) (q.spillPlace pos) e.words) s
  s.modQueue e.queue fun q => { q with spilled := q.spilled ++ [{ core := core, ent := e, pos := pos }] }

/-- A spilled entry read back from its place and taken from the ring; where the place cannot be read, as it was
written. -/
def unspill (s : State) (q : Nat) (e : Spilled) : DqEntry × State :=
  let qu := s.queue q
  let s := s.modQueue q fun qu => { qu with spilled := qu.spilled.erase e }
  match homeWords s (s.devAgent qu.vmid (coveOfCore e.core)) (qu.spillPlace e.pos) 2 with
  | .ok ([w0, w1], s) => (DqEntry.ofWords q w0 w1, s)
  | _ => (e.ent, s)

/-- The 32 top entries of a logical deque moved to its spill area, oldest first (DEQUE_SPILL). -/
def dequeSpill (s : State) (core q : Nat) : State :=
  let d := (s.core core).deque
  let mine := ofQueue d q
  let out := mine.drop (mine.length - 32)
  let s := s.modCore core fun c => { c with deque := dropLastOf (fun e => e.queue == q) 32 d }
  out.reverse.foldl (fun s e => spillEntry s core e) s

/-- An entry pushed onto the bottom of its queue's deque at a core; none when the 64 places are full and
no logical deque at the core can spill (R273). -/
def pushBottom (s : State) (core : Nat) (e : DqEntry) : Option State :=
  let d := (s.core core).deque
  if d.length < 64 then some (s.modCore core fun c => { c with deque := e :: d })
  else
    match spillVictim s d with
    | none => none
    | some q => some ((dequeSpill s core q).modCore core fun c => { c with deque := e :: c.deque })

/-- Up to 32 entries read back where the hardware part is empty (DEQUE_REFILL). -/
def dequeRefill (s : State) (core q : Nat) : State :=
  if !(ofQueue (s.core core).deque q).isEmpty then s
  else
    let mine := (s.queue q).spilled.filter fun e => e.core == core
    let n := min 32 (64 - (s.core core).deque.length)
    (mine.drop (mine.length - n)).foldl (fun s e =>
      let (d, s) := unspill s q e
      s.modCore core fun c => { c with deque := d :: c.deque }) s

/-- Entries a queue has at a core, hardware and spilled. -/
def State.backlog (s : State) (core q : Nat) : List DqEntry :=
  ofQueue (s.core core).deque q ++ (((s.queue q).spilled.filter fun e => e.core == core).reverse.map (·.ent))

/-! ## Continuations (R274, R275) -/

/-- The address of a save image (R437). -/
def saveVa (t : Tenant) (i : Nat) : Word := t.args.save + w64 (5376 * i)

/-- A continuation appended to its queue's resume list, linked through the save images (R273). -/
def resumeAppend (s : State) (vmid q i : Nat) : State :=
  let ag := s.devAgent vmid 0
  let base := (s.queue q).spillVa
  match homeWords s ag base 2 with
  | .ok ([h, t], s) =>
    let s := orElse (s.homeStore ag (saveVa (s.tenant vmid) i + 0x30#64) 0#64) s
    let s :=
      if t = 0#64 then s
      else orElse (s.homeStore ag (saveVa (s.tenant vmid) (t.toNat - 1) + 0x30#64) (w64 (i + 1))) s
    let s := if h = 0#64 then orElse (s.homeStore ag base (w64 (i + 1))) s else s
    let s := orElse (s.homeStore ag (base + 8#64) (w64 (i + 1))) s
    s.modTenant vmid fun t =>
      { t with saves := match AMap.get? t.saves i with | some v => AMap.set t.saves i { v with list := true } | none => t.saves }
  | _ => s

/-- The ending side re-enqueues a parked continuation at its home core (R275). -/
def pushContinuation (s : State) (vmid : Nat) (ref frame : Word) : State :=
  let i := ref.toNat / 4
  match AMap.get? (s.tenant vmid).saves i with
  | none => s
  | some sv =>
    let e : DqEntry := { ptr := ref, frame := frame, slot := BitVec.ofNat 3 sv.slot,
                         dom := if sv.pin then 1#3 else 2#3, queue := sv.task.queue }
    match pushBottom s (coreOf sv.slot) e with
    | some s => s
    | none => resumeAppend s vmid sv.task.queue i

/-! ## Waking (R111) -/

/-- Slots that wait as `p` says have their wait ended: their next issue finishes or repeats the
instruction. -/
def State.wake (s : State) (p : Nat → Slot → WaitKind → Word → Bool) : State :=
  { s with slots := AMap.mapV s.slots fun n v =>
      match v.wait with
      | .hold k i t a => if p n v k a then { v with wait := .resume k i t a } else v
      | _ => v }

/-- The slots of a tenant that wait on a frame. -/
def wakeFrame (s : State) (vmid : Nat) (k : WaitKind) (f : Word) : State :=
  s.wake fun _ v k' a => k' == k && a == f && v.own.vmid.toNat == vmid

/-! ## Completing a frame (R281, R288, R330) -/

/-- A join counter's COUNT, PARK and CONT (R274). -/
def joinCount (w : Word) : Nat := fld w 31 0
def joinPark (w : Word) : Bool := bitAt w 63
def joinCont (w : Word) : Nat := fld w 62 32

/-- A child's decrement of its caller's counter, as one action at its home; one that cannot be performed
counts TRAP_LOST (R281). -/
def decJoin (s : State) (vmid cove : Nat) (caller : Word) : State :=
  let ag := s.devAgent vmid cove
  match s.homeLoad ag (caller + 16#64) .w with
  | .error _ => s.count vmid .trapLost
  | .ok (w, p, s) =>
    if joinCount w = 0 then s.count vmid .joinUflow
    else
      let n := joinCount w - 1
      if n = 0 ∧ joinPark w then
        -- PARK := 0; CONT stays
        pushContinuation (s.putHome ag p (natBytes 8 (2 ^ 32 * joinCont w))) vmid (w64 (joinCont w * 4 + 3)) caller
      else
        let s := s.putHome ag p (natBytes 8 (w.toNat - 1))
        if n = 0 then wakeFrame s vmid .join caller else s

/-- Launch completion (R288): the completion word as a system-scope release, the MSI-X vector, DONE. -/
def launchComplete (s : State) (q : Nat) (done : Word) (status : Nat) : State :=
  let vmid := (s.queue q).vmid
  let s :=
    if done = 0#64 then s
    else
      match xlat s (s.devAgent vmid 0) done .w with
      | .error _ => s.count vmid .trapLost
      | .ok (p, s) => s.putHome (s.devAgent vmid 0) p (natBytes 8 status)
  (s.modQueue q fun qu => { qu with dn := qu.dn + 1#16 }).msix 0 q

/-- What RETP asks at the end of frame F (R330): nothing but the wake of an `xcall`; a return token,
null where the end is a fault; launch completion; or a continuation. -/
def actRetp (s : State) (vmid cove : Nat) (f retp : Word) (status : Nat) (payload : Word) (ftag : Fmt)
    (nul : Bool) : State :=
  let ag := s.devAgent vmid cove
  match fld retp 1 0 with
  | 0 => wakeFrame s vmid .result f
  | 1 =>
    match homeWords s ag (retp &&& ~~~3#64) 3 with
    | .ok ([w0, w1, w2], s) =>
      match tokenOf w0 w1 w2 with
      | none =>
        -- the caller's region deals with the malformed record (R59)
        match readDesc s ag w0 with
        | .ok (d, s) =>
          let rk := rkeyOf vmid d.placed
          let bad : Token := { (default : Token) with dop := 3#2, ctx := { frame := w2.extractLsb' 0 24, fgen := w2.extractLsb' 24 8 } }
          if d.placed != 0#64 && (s.region rk).st == 3 then s.after 1 (.tokenMatch rk bad none) else s.count vmid .staleTag
        | .error _ => s.count vmid .staleTag
      | some t =>
        let tok := { t with payload := if nul then 0#64 else payload, ftag := if nul then t.ftag else ftag,
                            act := if nul then .null else .normal }
        match routeToken s vmid cove 0 w0 tok true with
        | .sent s => s
        | _ => s.count vmid .staleTag
    | _ => s.count vmid .trapLost
  | 2 =>
    let q := fld retp 12 2
    let done := ((s.queue q).live.find? fun e => e.1 == f).map (·.2)
    let s := s.modQueue q fun qu => { qu with live := qu.live.filter fun e => e.1 != f }
    launchComplete s q (done.getD 0#64) status
  | _ => pushContinuation (orElse (s.homeStore ag f 0#64) s) vmid retp f

/-- RESULT of frame F written full, RETP acted on, and the caller's counter decremented (R281). -/
def finishFrame (s : State) (vmid cove : Nat) (f : Word) (result status : Nat) (payload : Word) (ftag : Fmt)
    (nul : Bool) : State :=
  let ag := s.devAgent vmid cove
  match homeWords s ag f 2 with
  | .ok ([retp, caller], s) =>
    let s := orElse (s.homeStore ag (f + 40#64) (w64 result)) s
    let s := actRetp s vmid cove f retp status payload ftag nul
    if caller = 0#64 then s else decJoin s vmid cove caller
  | _ => s.count vmid .trapLost

/-! ## The end of a task (R281, R415) -/

/-- An operation of the slot leaves the matrix engine without completing. -/
def State.mxDrop (s : State) (n : Nat) : State :=
  let core := coreOf n
  if (s.core core).mxq.any fun o => o.slot == n then
    let first := match (s.core core).mxq with | o :: _ => o.slot == n | [] => false
    (if first then s.dropDuties fun d => d.work == .ev (.mxComplete core) else s).modCore core fun c =>
      { c with mxq := c.mxq.filter fun o => o.slot != n }
  else s

/-- A slot with no task: its stack returns to the pool, its masked window closes (R281). -/
def State.slotIdle (s : State) (n : Nat) : State :=
  let s := s.mxDrop n
  let v := s.slot n
  let s := match v.task with
    | some t => giveStack s v.own.vmid.toNat t.stack
    | none => s
  s.modSlot n fun v =>
    { v with wait := .idle, task := none, sup := false, masked := false, inHandler := false, wcnt := 0
             own := { v.own with idle := true, pre := false } }

/-- The FAULT word of a task ended by a fault (R415, R420). -/
def faultWord (cause : BitVec 8) : Word := w64 (2 ^ 63 + cause.toNat)

/-- EndTask(cause) of the task on slot `n` (R415). -/
def endTask (s : State) (n : Nat) (cause : BitVec 8) : State :=
  let v := s.slot n
  let vmid := v.own.vmid.toNat
  let cove := coveOfSlot n
  let f := match v.task with | some t => t.frame | none => 0#64
  let s := s.releaseAt (coreOf n) .dv
  let s :=
    if f = 0#64 then s.count vmid .trapLost
    else
      match s.homeStore (s.devAgent vmid cove) (f + 24#64) (faultWord cause) with
      | .error _ => s.count vmid .trapLost
      | .ok s => finishFrame s vmid cove f 63 cause.toNat 0#64 .int true
  s.slotIdle n

end Sys2Proof.Machine
end

