-- ==== Sys2Proof/Machine/Ops.lean ====
section
/-! DEFINITION. The named operations of a slot over its registers and its program counter: reads and writes
under the generation rule (R112, R186, R189), retiring (R124), trap entry (R414, R425) and return (R417),
waiting (R111), message delivery (R122), and the units' generations (R191). -/

namespace Sys2Proof.Machine

/-! ## Stamped objects (R189) -/

/-- The rule of a read: POISON, the value, GEN in TRAP mode, or zero (R189). -/
def stampRead {α : Type} (stamp cur : Gen) (trap : Bool) (val zero : α) (tval : Word) : Except Trap α :=
  if stamp = 0xFFFF#16 then .error { cause := cPOISON, tval := tval }
  else if stamp = cur then .ok val
  else if trap then .error { cause := cGEN, tval := tval }
  else .ok zero

/-- The rule of a write: POISON, or the write (R186, R189). -/
def stampWrite {α : Type} (stamp : Gen) (new : α) (tval : Word) : Except Trap α :=
  if stamp = 0xFFFF#16 then .error { cause := cPOISON, tval := tval } else .ok new

/-- TVAL of a register of a slot or core (R413): bit 63, the space code, the number. -/
def regTval (space : BitVec 3) (n : Nat) : Word := w64 (2 ^ 63 + space.toNat * 32 + n)

/-- TVAL of a q register (KIND 0) or route-table entry (KIND 1) (R195, R413). -/
def qrTval (kind n : Nat) : Word := w64 (2 ^ 63 + kind * 256 + 7 * 32 + n)

/-! ## x registers -/

/-- While a handler runs, numbers 1-15 name the shadow bank (R122). -/
def Slot.shadowed (v : Slot) (r : XReg) : Bool := v.inHandler && decide (r.toNat < 16)

/-- The register a number names. -/
def Slot.xreg (v : Slot) (r : XReg) : XR :=
  if v.shadowed r then AMap.getD v.sx r.toNat {} else AMap.getD v.x r.toNat {}

/-- The register a number names replaced. -/
def Slot.putX (v : Slot) (r : XReg) (e : XR) : Slot :=
  if v.shadowed r then { v with sx := AMap.set v.sx r.toNat e } else { v with x := AMap.set v.x r.toNat e }

/-- x[r]: x0 reads zero and carries no generation (R112). -/
def State.xr (s : State) (r : XReg) : Except Trap Word :=
  if r = 0#5 then .ok 0#64
  else stampRead (s.me.xreg r).gen s.me.gen s.me.trapMode (s.me.xreg r).val 0#64 (regTval 3 r.toNat)

/-- x[r] := w, stamped GENCUR; x0 ignores writes (R112). -/
def State.setX (s : State) (r : XReg) (w : Word) : Except Trap State :=
  if r = 0#5 then .ok s
  else stampWrite (s.me.xreg r).gen (s.modMe fun v => v.putX r { val := w, gen := v.gen }) (regTval 3 r.toNat)

/-! ## v, md and q registers -/

def Slot.vreg (v : Slot) (r : VReg) : VR := AMap.getD v.v r.toNat {}

/-- v[r]. -/
def State.vr (s : State) (r : VReg) : Except Trap VWord :=
  stampRead (s.me.vreg r).gen s.me.gen s.me.trapMode (s.me.vreg r).val 0#1024 (regTval 4 r.toNat)

/-- v[r] := w. -/
def State.setV (s : State) (r : VReg) (w : VWord) : Except Trap State :=
  stampWrite (s.me.vreg r).gen (s.modMe fun v => { v with v := AMap.set v.v r.toNat { val := w, gen := v.gen } })
    (regTval 4 r.toNat)

/-- md[r]. -/
def State.mdr (s : State) (r : MdReg) : Except Trap (BitVec 128) :=
  let e := AMap.getD s.me.md r.toNat {}
  stampRead e.gen s.me.gen s.me.trapMode e.val 0#128 (regTval 5 r.toNat)

/-- md[r] := w. -/
def State.setMd (s : State) (r : MdReg) (w : BitVec 128) : Except Trap State :=
  let e := AMap.getD s.me.md r.toNat {}
  stampWrite e.gen (s.modMe fun v => { v with md := AMap.set v.md r.toNat { val := w, gen := v.gen } })
    (regTval 5 r.toNat)

/-- q[r]: a stale one reads as zero, unbound. -/
def State.qr (s : State) (r : QReg) : Except Trap QR :=
  let e := AMap.getD s.me.q r.toNat {}
  stampRead e.gen s.me.gen s.me.trapMode e {} (qrTval 0 r.toNat)

/-- q[r] := e. -/
def State.setQ (s : State) (r : QReg) (e : QR) : Except Trap State :=
  stampWrite (AMap.getD s.me.q r.toNat {}).gen
    (s.modMe fun v => { v with q := AMap.set v.q r.toNat { e with gen := v.gen } }) (qrTval 0 r.toNat)

/-- A tile descriptor of the core: a stale one reads as unconfigured (R157, R187). -/
def State.tdr (s : State) (r : TdReg) : Except Trap TR :=
  let e := AMap.getD s.myCore.td r.toNat {}
  stampRead e.gen s.me.gen s.me.trapMode e {} (regTval 6 r.toNat)

def State.setTd (s : State) (r : TdReg) (e : TR) : Except Trap State :=
  stampWrite (AMap.getD s.myCore.td r.toNat {}).gen
    (s.modMyCore fun c => { c with td := AMap.set c.td r.toNat { e with gen := s.me.gen } }) (regTval 6 r.toNat)

/-- A route-table entry of the core (R160). -/
def State.rtr (s : State) (r : TdReg) : Except Trap Word :=
  let e := AMap.getD s.myCore.rt r.toNat {}
  stampRead e.gen s.me.gen s.me.trapMode e.val 0#64 (qrTval 1 r.toNat)

def State.setRt (s : State) (r : TdReg) (w : Word) : Except Trap State :=
  stampWrite (AMap.getD s.myCore.rt r.toNat {}).gen
    (s.modMyCore fun c => { c with rt := AMap.set c.rt r.toNat { val := w, gen := s.me.gen } }) (qrTval 1 r.toNat)

/-! ## Granules of a storage space (R189, R190) -/

/-- The granules that hold bytes [off, off + n). -/
def granulesOf (off n : Nat) : List Nat :=
  if n = 0 then [] else (List.range ((off + n - 1) / 64 - off / 64 + 1)).map (· + off / 64)

/-- Bytes read under the generation rule: any granule's fault stops the whole access. DESIGN CHOICE (log 77): the offset in
TVAL is that of the granule's first byte. -/
def granRead (m : AMap Granule) (cur : Gen) (trap : Bool) (off n : Nat) : Except Trap (List Byte) := do
  let gs ← (granulesOf off n).mapM fun g =>
    let e := AMap.getD m g {}
    stampRead e.gen cur trap (vecBytes 64 e.data) (List.replicate 64 0#8) (w64 (64 * g))
  return (gs.flatten.drop (off % 64)).take n

/-- One granule written (R189): a partial write by another generation zeroes the rest. -/
def granPut (e : Granule) (cur : Gen) (o : Nat) (bs : List Byte) : Granule :=
  { data := insBytes (if e.gen = cur then e.data else 0#512) o bs, gen := cur }

def granWriteAux : Nat → AMap Granule → Gen → Nat → List Byte → AMap Granule
  | 0, m, _, _, _ => m
  | fuel + 1, m, cur, off, bs =>
    match bs with
    | [] => m
    | _ =>
      let k := 64 - off % 64
      granWriteAux fuel (AMap.set m (off / 64) (granPut (AMap.getD m (off / 64) {}) cur (off % 64) (bs.take k)))
        cur (off + k) (bs.drop k)

/-- Bytes written under the generation rule: a poisoned granule stops the whole access. -/
def granWrite (m : AMap Granule) (cur : Gen) (off : Nat) (bs : List Byte) : Except Trap (AMap Granule) :=
  match (granulesOf off bs.length).find? fun g => (AMap.getD m g {}).gen == 0xFFFF#16 with
  | some g => .error { cause := cPOISON, tval := w64 (64 * g) }
  | none => .ok (granWriteAux (bs.length + 1) m cur off bs)

/-! ## Faults of decoding and privilege (R36) -/

/-- The instruction's word, as TVAL of ILLEGAL and PRIV (R413). -/
def wordOf (i : Instr) : Word := ((encodeL i).getD 0#32).setWidth 64

def illegal {α : Type} (i : Instr) : Except Trap α := .error { cause := cILLEGAL, tval := wordOf i }

/-- PRIV in user mode (R36). -/
def State.needSup (s : State) (i : Instr) : Except Trap Unit :=
  if s.me.sup then .ok () else .error { cause := cPRIV, tval := wordOf i }

/-- A fault with its TVAL. -/
def fail {α : Type} (cause : BitVec 8) (tval : Word) : Except Trap α := .error { cause := cause, tval := tval }

/-- TVAL of a fault that concerns no address (R413 names none): free (log 2). -/
def State.openVal (s : State) : Word := Config.freeWord s.freeCtr

/-- A fault unless `b`. -/
def need (b : Bool) (cause : BitVec 8) (tval : Word) : Except Trap Unit :=
  if b then .ok () else .error { cause := cause, tval := tval }

/-! ## Retiring -/

/-- The instruction completes and the slot goes on at `pc`: a user-mode one inside a masked window is
counted (R124). -/
def Slot.goto (v : Slot) (pc : Word) : Slot :=
  { v with pc := pc, wait := .run, wcnt := if v.masked && !v.sup then v.wcnt + 1 else v.wcnt }

def State.jumpTo (s : State) (pc : Word) : State := s.modMe fun v => v.goto pc

/-- The instruction completes and the next one follows. -/
def State.retire (s : State) : State := s.modMe fun v => v.goto (v.pc + 4#64)

/-! ## Waiting (R111) -/

/-- The time at which a wait began: a resumed one keeps its own. -/
def Slot.waitSince (v : Slot) (now : Nat) : Nat :=
  match v.wait with | .resume _ _ t _ => t | _ => now

/-- The slot leaves the rotation at its instruction, which takes no effect yet. -/
def State.holdOn (s : State) (k : WaitKind) (i : Instr) (addr : Word) : State :=
  s.modMe fun v => { v with wait := .hold k i (v.waitSince s.now) addr }

/-- The slot completes its instruction and is out of the rotation for `n` clk, until `e`. -/
def State.retireFor (s : State) (k : WaitKind) (n : Nat) (e : Ev) : State :=
  ((s.retire).modMe fun v => { v with wait := .done k }).after n e

/-! ## Trap entry and return -/

/-- TSTATUS as trap entry saves it (R116, R414). -/
def Slot.status (v : Slot) : BitVec 12 :=
  BitVec.ofNat 12 (v.wcnt % 512 * 8 + b2n v.inHandler * 4 + b2n v.masked * 2 + b2n v.sup)

/-- The slot's registers at trap entry, before the PC is set. -/
def Slot.enter (v : Slot) (t : Trap) : Slot :=
  { v with
    trap := { v.trap with tepc := v.pc &&& ~~~3#64, tcause := t.cause, tval := t.tval, tstatus := v.status }
    masked := false, inHandler := false, wcnt := 0, sup := true, wait := .run }

/-- TRAP_ENTRY (R414): to TVEC, else to the tenant's SVEC, else the task ends (R415). A stage-2 refusal
is entered in the audit log (R430). -/
def State.takeTrap (s : State) (t : Trap) : State :=
  let s := if t.log then s.audit 0xFF s.me.own.owner.toNat s.vmid (w64 t.cause.toNat) t.tval 0#64 0 else s
  let svec := (s.tenant s.vmid).args.svec
  let s := { s.modMe (fun v => v.enter t) with freeCtr := s.freeCtr + 1 }
  if fld s.me.trap.tvec 63 2 ≠ 0 then s.modMe fun v => { v with pc := v.trap.tvec &&& ~~~3#64 }
  else if svec ≠ 0#64 then s.modMe fun v => { v with pc := svec }
  else endTask s s.cur t.cause

/-- The slot's registers after `tret` (R417). -/
def Slot.leave (v : Slot) : Slot :=
  { v with
    pc := v.trap.tepc &&& ~~~3#64
    wait := .run
    sup := bitAt v.trap.tstatus 0
    masked := !bitAt v.trap.tstatus 0 && bitAt v.trap.tstatus 1
    inHandler := !bitAt v.trap.tstatus 0 && bitAt v.trap.tstatus 2
    wcnt := if bitAt v.trap.tstatus 0 then 0 else fld v.trap.tstatus 11 3 }

/-- An instruction's outcome: its effect, or its trap with no effect (R414). -/
def State.commit (s : State) (r : Except Trap State) : Out :=
  match r with
  | .ok t => .next t
  | .error t => .next (s.takeTrap t)

/-! ## Message delivery (R122) -/

/-- A slot may take a message at its next issue. -/
def Slot.mayDeliver (v : Slot) : Bool :=
  fld v.user.msgvec 63 2 != 0 && !v.masked && !v.inHandler && !v.sup

/-- A wait that a message interrupts (R111). -/
def WaitKind.interruptible : WaitKind → Bool
  | .sync | .msg | .sleep | .stream | .lock => true
  | _ => false

/-- The slot's registers after delivery of a message: an instruction it waited on is executed again after
`msg.ret`. -/
def Slot.deliver (v : Slot) (m : InMsg) : Slot :=
  let a : XR := { val := m.payload, gen := v.gen }
  let b : XR := { val := w64 m.sender, gen := v.gen }
  { v with
    wait := .run
    user := { v.user with msgpc := v.pc &&& ~~~3#64
                          msgcause := BitVec.ofNat 14 (b2n m.ovf * 2 ^ 13 + m.sender % 2 ^ 13) }
    sx := AMap.set (AMap.set v.sx 10 a) 11 b
    inHandler := true
    pc := v.user.msgvec &&& ~~~3#64 }

/-- The oldest message pending for a slot, inbox first, then its overflow entries; and the state without
it. A free inbox entry takes nothing from the ring: its messages are delivered from there (R122). -/
def State.oldest (s : State) (n : Nat) : Option (InMsg × State) :=
  match (s.slot n).inbox with
  | m :: r => some (m, s.modSlot n fun v => { v with inbox := r })
  | [] =>
    let vmid := (s.slot n).own.vmid.toNat
    let mine : OvMsg → Bool := fun m => m.target == n && m.gen == (s.slot n).gen
    match (s.tenant vmid).movr.find? mine with
    | none => none
    | some m =>
      some ({ payload := m.payload, sender := m.sender, ovf := true },
        s.modTenant vmid fun t => { t with movr := t.movr.eraseP mine })

/-- A shadow register that a delivery writes is poisoned: its number from 32 on (R189, R195). -/
def Slot.poisonedShadow (v : Slot) : Option Nat :=
  [10, 11].find? (fun k => (AMap.getD v.sx k {}).gen == 0xFFFF#16)

/-- Delivery of the oldest pending message to a slot; a poisoned sx10 or sx11 faults POISON, and the message stays
pending (R189, R199). -/
def State.deliverTo (s : State) (n : Nat) : State :=
  match (s.slot n).poisonedShadow with
  | some k => State.takeTrap { s with cur := n } { cause := cPOISON, tval := regTval 3 k }
  | none =>
    match s.oldest n with
    | none => s
    | some (m, s) =>
      let v := s.slot n
      -- a message is an acquire of device scope (R121)
      ((s.acquireAt (coreOf n) .dv).setSlot n (v.deliver m))

/-! ## Generations (R191) -/

/-- A slot runs a task, or saves or restores one. -/
def Slot.busy (v : Slot) : Bool := v.task.isSome || match v.wait with | .saving _ => true | _ => false

/-- The generations of running slots and saved images, of placed and swapped-out regions, and of queued copy
commands. -/
def State.useGens (s : State) : List Gen :=
  (s.slots.filterMap fun p => if p.2.busy then some p.2.gen else none)
    ++ (s.tenants.flatMap fun p => p.2.saves.map fun v => v.2.gen)
    ++ (s.regions.filterMap fun p => if p.2.st = 0 then none else some (handleGen p.2.handle))
    ++ (s.coves.flatMap fun p => p.2.cmds.map (·.gen))

/-- The numbers that are live (R191): with those, the numbers that `gen.new` returned to an allocation that has
not ended. -/
def State.liveGens (s : State) : List Gen :=
  s.useGens ++ (s.mgmt.genNews.filter fun p => s.useGens.contains p.2).map (·.1)

/-- The numbers the allocator skips: the live ones, and those of present tenants and bound queues, which no use
may share (log 69). -/
def State.heldGens (s : State) : List Gen :=
  s.liveGens ++ (s.tenants.filterMap fun p => if p.2.present then some p.2.gen else none)
    ++ (s.queues.filterMap fun p => if p.2.bound then some p.2.gen else none)

/-- The first number from `n` on that is not live; none past 0xFFFD. -/
def nextFree (live : List Gen) : Nat → Nat → Option Nat
  | 0, _ => none
  | fuel + 1, n =>
    if 0xFFFD < n then none
    else if live.contains (BitVec.ofNat 16 n) then nextFree live fuel (n + 1) else some n

/-- A fresh generation, or none while the allocator is stopped (R191): past 0xFFFD it asks for GEN.WRAP. -/
def State.newGen (s : State) : Option Gen × State :=
  if s.mgmt.wrapping then (none, s)
  else
    let live := s.heldGens
    match nextFree live (live.length + 1) s.mgmt.genNext with
    | none =>
      -- the allocator stops and GEN.WRAP begins
      (none, (s.modMgmt fun m => { m with genNext := 0xFFFE, wrapping := true }).after 2400000 .genWrapComplete)
    | some n => (some (BitVec.ofNat 16 n), s.modMgmt fun m => { m with genNext := n + 1 })

end Sys2Proof.Machine
end

