-- ==== Sys2Proof/Machine/Scalar.lean ====
section
/-! DEFINITION. RV64I, M, Zicsr and Zifencei on a slot (R32, R33, R118) and the slot CSRs (R90, R113-R116,
R432). -/

namespace Sys2Proof.Machine

/-! ## Integer arithmetic -/

/-- OP-IMM (RV64I): the immediate is the 12-bit field, a shift amount its low six bits. -/
def immAlu (op : ImmOp) (a : Word) (imm : BitVec 12) : Word :=
  let b := imm.signExtend 64
  let sh := imm.toNat % 64
  match op with
  | .addi => a + b
  | .slti => if a.slt b then 1#64 else 0#64
  | .sltiu => if a.ult b then 1#64 else 0#64
  | .xori => a ^^^ b
  | .ori => a ||| b
  | .andi => a &&& b
  | .slli => a <<< sh
  | .srli => a >>> sh
  | .srai => a.sshiftRight sh

/-- OP-IMM-32: the low 32 bits, sign-extended. -/
def imm32Alu (op : Imm32Op) (a : Word) (imm : BitVec 12) : Word :=
  let a := a.setWidth 32
  let sh := imm.toNat % 32
  (match op with
    | .addiw => a + imm.signExtend 32
    | .slliw => a <<< sh
    | .srliw => a >>> sh
    | .sraiw => a.sshiftRight sh).signExtend 64

/-- OP: RV64I and M; division by zero and signed overflow as the standard states (R118). -/
def regAlu (op : RegOp) (a b : Word) : Word :=
  let sh := b.toNat % 64
  match op with
  | .add => a + b
  | .sub => a - b
  | .sll => a <<< sh
  | .slt => if a.slt b then 1#64 else 0#64
  | .sltu => if a.ult b then 1#64 else 0#64
  | .xor => a ^^^ b
  | .srl => a >>> sh
  | .sra => a.sshiftRight sh
  | .or => a ||| b
  | .and => a &&& b
  | .mul => a * b
  | .mulh => BitVec.ofInt 64 (a.toInt * b.toInt / 2 ^ 64)
  | .mulhsu => BitVec.ofInt 64 (a.toInt * b.toNat / 2 ^ 64)
  | .mulhu => BitVec.ofNat 64 (a.toNat * b.toNat / 2 ^ 64)
  | .div => if b = 0#64 then BitVec.allOnes 64 else BitVec.ofInt 64 (a.toInt.tdiv b.toInt)
  | .divu => if b = 0#64 then BitVec.allOnes 64 else a / b
  | .rem => if b = 0#64 then a else BitVec.ofInt 64 (a.toInt.tmod b.toInt)
  | .remu => if b = 0#64 then a else a % b

/-- OP-32: the low 32 bits of both, the result sign-extended. -/
def reg32Alu (op : Reg32Op) (a b : Word) : Word :=
  let a := a.setWidth 32
  let b := b.setWidth 32
  let sh := b.toNat % 32
  (match op with
    | .addw => a + b
    | .subw => a - b
    | .sllw => a <<< sh
    | .srlw => a >>> sh
    | .sraw => a.sshiftRight sh
    | .mulw => a * b
    | .divw => if b = 0#32 then BitVec.allOnes 32 else BitVec.ofInt 32 (a.toInt.tdiv b.toInt)
    | .divuw => if b = 0#32 then BitVec.allOnes 32 else a / b
    | .remw => if b = 0#32 then a else BitVec.ofInt 32 (a.toInt.tmod b.toInt)
    | .remuw => if b = 0#32 then a else a % b).signExtend 64

/-- The clk a division takes (R111); 0 for the rest. -/
def RegOp.clks : RegOp → Nat
  | .div | .divu | .rem | .remu => 40
  | _ => 0

def Reg32Op.clks : Reg32Op → Nat
  | .divw | .divuw | .remw | .remuw => 24
  | _ => 0

/-- An arithmetic result: the slot goes on, or leaves the rotation for `n` clk (R110, R111). -/
def State.retireIn (s : State) (n : Nat) : State :=
  if n = 0 then s.retire else s.retireFor .div n (.divComplete s.cur)

def execOpImm (op : ImmOp) (rd rs1 : XReg) (imm : BitVec 12) (s : State) : Out :=
  s.commit do
    let a ← s.xr rs1
    let s ← s.setX rd (immAlu op a imm)
    return s.retire

def execOpImm32 (op : Imm32Op) (rd rs1 : XReg) (imm : BitVec 12) (s : State) : Out :=
  s.commit do
    let a ← s.xr rs1
    let s ← s.setX rd (imm32Alu op a imm)
    return s.retire

def execOp (op : RegOp) (rd rs1 rs2 : XReg) (s : State) : Out :=
  s.commit do
    let a ← s.xr rs1
    let b ← s.xr rs2
    let s ← s.setX rd (regAlu op a b)
    return s.retireIn (RegOp.clks op)

def execOp32 (op : Reg32Op) (rd rs1 rs2 : XReg) (s : State) : Out :=
  s.commit do
    let a ← s.xr rs1
    let b ← s.xr rs2
    let s ← s.setX rd (reg32Alu op a b)
    return s.retireIn (Reg32Op.clks op)

/-- The immediate of LUI and AUIPC. -/
def upper (imm : BitVec 20) : Word := (imm ++ 0#12).signExtend 64

def execLui (rd : XReg) (imm : BitVec 20) (s : State) : Out :=
  s.commit do
    let s ← s.setX rd (upper imm)
    return s.retire

def execAuipc (rd : XReg) (imm : BitVec 20) (s : State) : Out :=
  s.commit do
    let s ← s.setX rd (s.me.pc + upper imm)
    return s.retire

/-! ## Control flow (R32) -/

/-- The target of a JAL: the offset field counts 2 bytes. -/
def jalTarget (pc : Word) (off : BitVec 20) : Word := pc + (off ++ 0#1).signExtend 64

/-- The target of a branch. -/
def branchTarget (pc : Word) (off : BitVec 12) : Word := pc + (off ++ 0#1).signExtend 64

def execJal (rd : XReg) (off : BitVec 20) (s : State) : Out :=
  s.commit do
    let t := jalTarget s.me.pc off
    need (fld t 1 0 == 0) cMISALIGN t
    let s ← s.setX rd (s.me.pc + 4#64)
    return s.jumpTo t

/-- JALR: the sum itself is checked, before bit 0 would be cleared (R32). -/
def execJalr (rd rs1 : XReg) (imm : BitVec 12) (s : State) : Out :=
  s.commit do
    let a ← s.xr rs1
    let t := a + imm.signExtend 64
    need (fld t 1 0 == 0) cTAGPTR t
    let s ← s.setX rd (s.me.pc + 4#64)
    return s.jumpTo t

/-- Whether a branch is taken. -/
def branchTaken (op : BranchOp) (a b : Word) : Bool :=
  match op with
  | .beq => a == b
  | .bne => a != b
  | .blt => a.slt b
  | .bge => !a.slt b
  | .bltu => a.ult b
  | .bgeu => !a.ult b

/-- A branch: a taken one to a target that is not 4-byte aligned faults (R32). -/
def execBranch (op : BranchOp) (rs1 rs2 : XReg) (off : BitVec 12) (s : State) : Out :=
  s.commit do
    let a ← s.xr rs1
    let b ← s.xr rs2
    if branchTaken op a b then
      let t := branchTarget s.me.pc off
      need (fld t 1 0 == 0) cMISALIGN t
      return s.jumpTo t
    else return s.retire

/-! ## Memory (R32, R118) -/

def Size.bytes : Size → Nat
  | .b => 1 | .h => 2 | .w => 4 | .d => 8

/-- An address is a multiple of a size. -/
def aligned (va : Word) (n : Nat) : Bool := va.toNat % n == 0

def LoadOp.bytes : LoadOp → Nat
  | .lb | .lbu => 1 | .lh | .lhu => 2 | .lw | .lwu => 4 | .ld => 8

/-- The value of a load's bytes: sign- or zero-extended. -/
def LoadOp.extend (op : LoadOp) (bs : List Byte) : Word :=
  let w := bytesWord bs
  match op with
  | .lb => sext 8 w | .lh => sext 16 w | .lw => sext 32 w
  | .ld | .lbu | .lhu | .lwu => w

def execLoad (op : LoadOp) (rd rs1 : XReg) (imm : BitVec 12) (s : State) : Out :=
  s.commit do
    let a ← s.xr rs1
    let va := a + imm.signExtend 64
    need (aligned va (LoadOp.bytes op)) cMISALIGN va
    let (bs, s) ← s.load va (LoadOp.bytes op)
    let s ← s.setX rd (LoadOp.extend op bs)
    return s.retire

def execStore (sz : Size) (rs2 rs1 : XReg) (imm : BitVec 12) (s : State) : Out :=
  s.commit do
    let a ← s.xr rs1
    let b ← s.xr rs2
    let va := a + imm.signExtend 64
    need (aligned va (Size.bytes sz)) cMISALIGN va
    let s ← s.store va (vecBytes (Size.bytes sz) b)
    return s.retire

/-! ## Fences, ECALL, EBREAK -/

/-- FENCE is `fence.sc.ar.dv` (R32): a release, then an acquire, of device scope. Its fields are
ignored. -/
def execFence (_rd _rs1 : XReg) (_imm : BitVec 12) (s : State) : Out :=
  let c := coreOf s.cur
  .next (((s.releaseAt c .dv).acquireAt c .dv).retire)

/-- FENCE.I (R118): the slot's stores leave its core's buffer and its core's fetched lines are dropped. -/
def execFenceI (_rd _rs1 : XReg) (_imm : BitVec 12) (s : State) : Out :=
  .next (((s.cbDrainAll (coreOf s.cur)).modMyCore fun c => { c with l1i := [] }).retire)

def execEcall (s : State) : Out := s.commit (fail cECALL 0#64)

def execEbreak (s : State) : Out := s.commit (fail cEBREAK 0#64)

/-! ## CSRs (R113-R116) -/

/-- Cells fused off or fenced in a core's unit, and fused off on the device (FUSESUM, R115). -/
def fuseSum (s : State) : Nat :=
  let c := coreOf s.cur
  let bad := (List.range 16).filter fun i =>
    let k := cellKey (unitX c + i % 4) (unitY c + i / 4)
    s.fit.fused.contains k || (s.cell k).fenced
  bad.length * 2 ^ 16 + s.fit.fused.length

/-- MSGST (R114). -/
def msgSt (s : State) : Nat :=
  let v := s.me
  min (s.pend s.cur) 0xFFFF * 2 ^ 16 + b2n v.inHandler * 2 ^ 10 + b2n v.masked * 2 ^ 9 + v.wcnt % 512

/-- SLOTOWN (R116). -/
def SlotOwn.word (o : SlotOwn) : Nat :=
  b2n o.pre * 2 ^ 23 + b2n o.idle * 2 ^ 22 + o.vmid.toNat * 2 ^ 16 + o.cls.toNat * 2 ^ 14 + o.owner.toNat

/-- The value of a CSR; none for a number not implemented (R113). -/
def csrRead (s : State) (n : BitVec 12) : Option Word :=
  let v := s.me
  let u := v.user
  let t := v.trap
  match n.toNat with
  | 0x800 => some (u.vrm.setWidth 64)
  | 0x801 => some (u.nxflags.setWidth 64)
  | 0x802 => some u.rngst
  | 0x803 => some u.msgvec
  | 0x804 => some u.msgpc
  | 0x805 => some (u.msgcause.setWidth 64)
  | 0x806 => some (u.tmo.setWidth 64)
  | 0x807 => some (u.joinwin.setWidth 64)
  | 0x808 => some (w64 (msgSt s))
  | 0x809 => some u.msgscr
  | 0xC01 => some (w64 s.now)
  | 0xCC0 => some (w64 (b2n v.trapMode * 2 ^ 16 + v.gen.toNat))
  | 0xCC1 => some (w64 s.cur)
  | 0xCC2 => some (w64 (v.mxTd.toNat * 2 ^ 8 + v.mxRows.toNat))
  | 0xCC3 => some (w64 (fuseSum s))
  | 0x5C0 => some t.tepc
  | 0x5C1 => some (t.tcause.setWidth 64)
  | 0x5C2 => some t.tval
  | 0x5C3 => some t.tvec
  | 0x5C4 => some (t.tstatus.setWidth 64)
  | 0x5C5 => some t.tscratch
  | 0x5C8 => some (w64 (SlotOwn.word v.own))
  | 0x5D0 => some v.troot
  | _ => none

/-- The access class is RO: time, GENCUR, SLOTID, MXROW, FUSESUM, SLOTOWN (R113). -/
def csrRO (n : BitVec 12) : Bool := [0xC01, 0xCC0, 0xCC1, 0xCC2, 0xCC3, 0x5C8].contains n.toNat

/-- A supervisor CSR: bits [9:8] are 01 (R113). -/
def csrSup (n : BitVec 12) : Bool := fld n 9 8 == 1

/-- A CSR written: fields marked RO keep their value (R2, R113). -/
def Slot.csrWrite (v : Slot) (n : BitVec 12) (w : Word) : Slot :=
  let u := v.user
  let t := v.trap
  match n.toNat with
  | 0x800 => { v with user := { u with vrm := w.setWidth 3 } }
  | 0x801 => { v with user := { u with nxflags := w.setWidth 5 } }
  | 0x802 => { v with user := { u with rngst := w } }
  | 0x803 => { v with user := { u with msgvec := w &&& ~~~3#64 } }
  | 0x804 => { v with user := { u with msgpc := w &&& ~~~3#64 } }
  | 0x805 => { v with user := { u with msgcause := w.setWidth 14 } }
  | 0x806 => { v with user := { u with tmo := w.setWidth 48 } }
  | 0x807 => { v with user := { u with joinwin := w.setWidth 32 } }
  | 0x809 => { v with user := { u with msgscr := w } }
  | 0x5C0 => { v with trap := { t with tepc := w &&& ~~~3#64 } }
  | 0x5C1 => { v with trap := { t with tcause := w.setWidth 8 } }
  | 0x5C2 => { v with trap := { t with tval := w } }
  | 0x5C3 => { v with trap := { t with tvec := w &&& ~~~3#64 } }
  | 0x5C4 => { v with trap := { t with tstatus := w.setWidth 12 } }
  | 0x5C5 => { v with trap := { t with tscratch := w } }
  | 0x5D0 => { v with troot := (w.setWidth 52).setWidth 64 }
  | _ => v

/-- The checks of R33 in the order of R36, and the value read. -/
def csrCheck (i : Instr) (n : BitVec 12) (writes : Bool) (s : State) : Except Trap Word := do
  let old ← match csrRead s n with
    | some w => pure w
    | none => illegal i
  if writes && csrRO n then illegal i
  if csrSup n && !s.me.sup then .error { cause := cPRIV, tval := wordOf i }
  return old

/-- A Zicsr instruction: the old value to rd, the new one where it writes. -/
def csrStep (i : Instr) (rd : XReg) (n : BitVec 12) (writes : Bool) (s : State) (new : Word → Except Trap Word) :
    Except Trap State := do
  let old ← csrCheck i n writes s
  let w ← new old
  let s ← s.setX rd old
  return (if writes then s.modMe fun v => v.csrWrite n w else s).retire

def execCsrrw (rd rs1 : XReg) (csr : BitVec 12) (s : State) : Out :=
  s.commit (csrStep (.csrrw rd rs1 csr) rd csr true s fun _ => s.xr rs1)

def execCsrrs (rd rs1 : XReg) (csr : BitVec 12) (s : State) : Out :=
  s.commit (csrStep (.csrrs rd rs1 csr) rd csr (rs1 != 0#5) s fun old => do return old ||| (← s.xr rs1))

def execCsrrc (rd rs1 : XReg) (csr : BitVec 12) (s : State) : Out :=
  s.commit (csrStep (.csrrc rd rs1 csr) rd csr (rs1 != 0#5) s fun old => do return old &&& ~~~(← s.xr rs1))

def execCsrrwi (rd : XReg) (zimm : BitVec 5) (csr : BitVec 12) (s : State) : Out :=
  s.commit (csrStep (.csrrwi rd zimm csr) rd csr true s fun _ => .ok (zimm.setWidth 64))

def execCsrrsi (rd : XReg) (zimm : BitVec 5) (csr : BitVec 12) (s : State) : Out :=
  s.commit (csrStep (.csrrsi rd zimm csr) rd csr (zimm != 0#5) s fun old => .ok (old ||| zimm.setWidth 64))

def execCsrrci (rd : XReg) (zimm : BitVec 5) (csr : BitVec 12) (s : State) : Out :=
  s.commit (csrStep (.csrrci rd zimm csr) rd csr (zimm != 0#5) s fun old => .ok (old &&& ~~~(zimm.setWidth 64)))

end Sys2Proof.Machine
end

