-- ==== Sys2Proof/Machine/Flags.lean ====
section
/-! DEFINITION. Numbers and their flags: the element formats (R76-R78), the LQ4 codebook (R80-R82), rounding
(R84-R86), conversion to integers (R88), the exception flags (R89), the random generator (R93), QuantLQ4
(R95), and the arithmetic of floating-point elements (R138, R139, R142, R144, R145). -/

namespace Sys2Proof.Machine

/-! ## Flags (R89, R90) -/

/-- NV, DZ, OF, UF, NX as NXFLAGS holds them. -/
abbrev NxFlags := BitVec 5
def fNV : NxFlags := 0x10#5
def fDZ : NxFlags := 0x08#5
def fOF : NxFlags := 0x04#5
def fUF : NxFlags := 0x02#5
def fNX : NxFlags := 0x01#5

/-- A flag, or none. -/
def flagIf (b : Bool) (f : NxFlags) : NxFlags := if b then f else 0#5

/-! ## Rounding modes (R84) -/

/-- The rounding modes; 111 is illegal and never reaches a rounding. -/
inductive Rm where
  | rne | rtz | rdn | rup | sr | rnes | srs
  deriving DecidableEq, Repr

def Rm.ofCode (n : Nat) : Rm :=
  match n with | 0 => .rne | 1 => .rtz | 2 => .rdn | 3 => .rup | 4 => .sr | 5 => .rnes | _ => .srs

/-- A saturating mode. -/
def Rm.sat : Rm → Bool
  | .rnes | .srs => true
  | _ => false

/-- A stochastic mode. -/
def Rm.stoch : Rm → Bool
  | .sr | .srs => true
  | _ => false

/-! ## Exact values -/

/-- A dyadic number n x 2^e. -/
structure Dy where
  n : Int
  e : Int
  deriving DecidableEq, Repr, Inhabited

/-- The numerators of two dyadic numbers at their smaller exponent. -/
def Dy.align (a b : Dy) : Int × Int × Int :=
  let e := min a.e b.e
  (a.n * 2 ^ (a.e - e).toNat, b.n * 2 ^ (b.e - e).toNat, e)

def Dy.add (a b : Dy) : Dy := let p := a.align b; { n := p.1 + p.2.1, e := p.2.2 }
def Dy.neg (a : Dy) : Dy := { n := -a.n, e := a.e }
def Dy.mul (a b : Dy) : Dy := { n := a.n * b.n, e := a.e + b.e }
def Dy.abs (a : Dy) : Dy := { n := a.n.natAbs, e := a.e }
def Dy.lt (a b : Dy) : Bool := let p := a.align b; decide (p.1 < p.2.1)
def Dy.le (a b : Dy) : Bool := let p := a.align b; decide (p.1 ≤ p.2.1)
def Dy.eq (a b : Dy) : Bool := let p := a.align b; decide (p.1 = p.2.1)
def Dy.ofInt (n : Int) : Dy := { n := n, e := 0 }

/-- A non-zero real by sign and magnitude: m x 2^e exactly, or strictly between it and (m + 1) x 2^e. -/
structure Ex where
  neg    : Bool
  m      : Nat
  e      : Int
  sticky : Bool := false
  deriving DecidableEq, Repr

/-- A floating-point value (R76, R78). -/
inductive FV where
  | nan (signalling : Bool)
  | inf (neg : Bool)
  | zero (neg : Bool)
  | fin (d : Dy)
  deriving DecidableEq, Repr

/-! ## Formats (R76) -/

/-- Exponent width, fraction width, bias. -/
structure Layout where
  ew   : Nat
  fw   : Nat
  bias : Nat
  deriving DecidableEq, Repr

def Fmt.layout : Fmt → Layout
  | .fp32 => { ew := 8, fw := 23, bias := 127 }
  | .bf16 => { ew := 8, fw := 7, bias := 127 }
  | .fp16 => { ew := 5, fw := 10, bias := 15 }
  | .e4m3 => { ew := 4, fw := 3, bias := 7 }
  | .e5m2 => { ew := 5, fw := 2, bias := 15 }
  | .int | .lq4 | .int8 => { ew := 0, fw := 0, bias := 0 }

/-- Element width in a vector or typed buffer: INT is 32 there (R77, R130). -/
def Fmt.width : Fmt → Nat
  | .int | .fp32 => 32 | .bf16 | .fp16 => 16 | .e4m3 | .e5m2 | .int8 => 8 | .lq4 => 4

/-- The width of an element in a token: INT is 64 there (R77, R101). -/
def Fmt.tokWidth : Fmt → Nat
  | .int => 64 | f => Fmt.width f

/-- Bits of a sign and the rest. -/
def Layout.signBit (l : Layout) : Nat := l.ew + l.fw

/-- The largest finite magnitude's bits (R76). -/
def Fmt.maxBits (f : Fmt) : Nat :=
  match f with
  | .e4m3 => 0x7E
  | _ => let l := Fmt.layout f; 2 ^ (l.ew + l.fw) - 2 ^ l.fw - 1

/-- Infinity's bits; the formats other than E4M3. -/
def Fmt.infBits (f : Fmt) : Nat := let l := Fmt.layout f; (2 ^ l.ew - 1) * 2 ^ l.fw

/-- The canonical NaN (R78). -/
def Fmt.nanBits : Fmt → Nat
  | .fp32 => 0x7FC00000 | .bf16 => 0x7FC0 | .fp16 => 0x7E00 | .e4m3 => 0x7F | .e5m2 => 0x7E | _ => 0

/-- The value of an element's bits (R76, R78, R79). -/
def Fmt.value (f : Fmt) (bits : Nat) : FV :=
  let l := Fmt.layout f
  let neg := bits / 2 ^ l.signBit % 2 == 1
  let e := bits / 2 ^ l.fw % 2 ^ l.ew
  let fr := bits % 2 ^ l.fw
  let sg (n : Nat) : Int := if neg then -n else n
  if f = .e4m3 ∧ bits % 128 = 127 then .nan false
  else if f ≠ .e4m3 ∧ e = 2 ^ l.ew - 1 then
    if fr = 0 then .inf neg else .nan (fr / 2 ^ (l.fw - 1) == 0)
  else if e = 0 then
    if fr = 0 then .zero neg else .fin { n := sg fr, e := 1 - (l.bias : Int) - l.fw }
  else .fin { n := sg (2 ^ l.fw + fr), e := (e : Int) - l.bias - l.fw }

/-- A signed integer of `w` bits. -/
def intOf (w bits : Nat) : Int :=
  let b := bits % 2 ^ w
  if b < 2 ^ (w - 1) then b else (b : Int) - 2 ^ w

/-- The low `w` bits of an integer. -/
def natOf (w : Nat) (n : Int) : Nat := (n % (2 ^ w : Int)).toNat

/-- An integer as a value to convert. -/
def FV.ofInt (n : Int) : FV := if n = 0 then .zero false else .fin (.ofInt n)

/-! ## Rounding (R85, R86) -/

/-- The random field of a destination element: its value and width (R87). -/
structure Rnd where
  r : Nat := 0
  k : Nat := 0
  deriving DecidableEq, Repr

/-- A magnitude as a multiple of 2^q under a mode: the multiple, and whether it is inexact. -/
def roundAt (x : Ex) (q : Int) (rm : Rm) (rnd : Rnd) : Nat × Bool :=
  if q ≤ x.e then (x.m * 2 ^ (x.e - q).toNat, x.sticky)
  else
    let sh := (q - x.e).toNat
    let k := x.m / 2 ^ sh
    let rem := x.m % 2 ^ sh
    let inexact := rem != 0 || x.sticky
    let half := 2 ^ (sh - 1)
    let up :=
      match rm with
      | .rne | .rnes => decide (half < rem) || (decide (rem = half) && (x.sticky || k % 2 == 1))
      | .rtz => false
      | .rdn => x.neg && inexact
      | .rup => !x.neg && inexact
      | .sr | .srs => inexact && decide (2 ^ rnd.k ≤ rem * 2 ^ rnd.k / 2 ^ sh + rnd.r)
    (if up then k + 1 else k, inexact)

/-- The exponent of a magnitude's leading bit. -/
def Ex.top (x : Ex) : Int := x.e + Nat.log2 x.m

/-- The result of an overflow (R84). -/
def overflowBits (f : Fmt) (rm : Rm) (neg : Bool) : Nat :=
  let l := Fmt.layout f
  let sign := if neg then 2 ^ l.signBit else 0
  let big := if f = .e4m3 then Fmt.nanBits f else Fmt.infBits f + sign
  match rm with
  | .rne | .sr => big
  | .rtz | .rnes | .srs => Fmt.maxBits f + sign
  | .rdn => if neg then big else Fmt.maxBits f
  | .rup => if neg then Fmt.maxBits f + sign else big

/-- A non-zero real rounded to a format (R85 steps 4-7). -/
def roundEx (f : Fmt) (rm : Rm) (rnd : Rnd) (x : Ex) : Nat × NxFlags :=
  let l := Fmt.layout f
  let emin : Int := 1 - l.bias
  let q := max (x.top - l.fw) (emin - l.fw)
  let (k, inexact) := roundAt x q rm rnd
  -- the largest finite value as a multiple of 2^q, and 2^emin for tininess
  let biased := (q + l.fw + l.bias).toNat
  let bits := if k < 2 ^ l.fw then k else biased * 2 ^ l.fw + (k - 2 ^ l.fw)
  let sign := if x.neg then 2 ^ l.signBit else 0
  if Fmt.maxBits f < bits then (overflowBits f rm x.neg, fOF ||| fNX)
  else
    let qu := x.top - l.fw
    let ku := (roundAt x qu rm rnd).1
    let tiny := ({ n := ku, e := qu } : Dy).lt { n := 1, e := emin }
    (bits + sign, flagIf inexact fNX ||| flagIf (inexact && tiny) fUF)

/-- A dyadic number as sign and magnitude. -/
def Dy.ex (d : Dy) : Ex := { neg := decide (d.n < 0), m := d.n.natAbs, e := d.e }

/-- Round(fmt, rm, v) for a value of a format (R85). -/
def roundFV (f : Fmt) (rm : Rm) (rnd : Rnd) (v : FV) : Nat × NxFlags :=
  let l := Fmt.layout f
  let sign (n : Bool) : Nat := if n then 2 ^ l.signBit else 0
  match v with
  | .nan s => (Fmt.nanBits f, flagIf s fNV)
  | .inf n =>
    if rm.sat then (Fmt.maxBits f + sign n, 0#5)
    else if f = .e4m3 then (Fmt.nanBits f, fNV) else (Fmt.infBits f + sign n, 0#5)
  | .zero n => (sign n, 0#5)
  | .fin d => if d.n = 0 then (0, 0#5) else roundEx f rm rnd d.ex

/-- A value converted to a `w`-bit integer (R88). -/
def toIntW (w : Nat) (rm : Rm) (rnd : Rnd) (v : FV) : Nat × NxFlags :=
  let lo : Int := -2 ^ (w - 1)
  let hi : Int := 2 ^ (w - 1) - 1
  let rm := match rm with | .rnes => .rne | .srs => .sr | r => r
  match v with
  | .nan _ => (0, fNV)
  | .inf n => (natOf w (if n then lo else hi), fNV)
  | .zero _ => (0, 0#5)
  | .fin d =>
    let (k, inexact) := roundAt d.ex 0 rm rnd
    let i : Int := if d.n < 0 then -k else k
    if i < lo then (natOf w lo, fNV)
    else if hi < i then (natOf w hi, fNV)
    else (natOf w i, flagIf inexact fNX)

/-! ## Results with their flags -/

/-- A NaN result: the canonical NaN, NV where asked. -/
def nanRes (f : Fmt) (nv : Bool) : Nat × NxFlags := (Fmt.nanBits f, flagIf nv fNV)

def FV.isNan : FV → Bool
  | .nan _ => true
  | _ => false

/-- A signalling NaN. -/
def FV.sig : FV → Bool
  | .nan s => s
  | _ => false

def FV.isNeg : FV → Bool
  | .nan _ => false
  | .inf n => n
  | .zero n => n
  | .fin d => decide (d.n < 0)

/-- The dyadic value of a finite element; 0 for the others. -/
def FV.dy : FV → Dy
  | .fin d => d
  | _ => { n := 0, e := 0 }

def FV.isZero : FV → Bool
  | .zero _ => true
  | _ => false

def FV.isInf : FV → Bool
  | .inf _ => true
  | _ => false

/-- A value negated. -/
def FV.negate : FV → FV
  | .nan s => .nan s
  | .inf n => .inf (!n)
  | .zero n => .zero (!n)
  | .fin d => .fin d.neg

/-- The exact product of two values that are no NaN and not 0 x infinity. -/
def FV.times (a b : FV) : FV :=
  let n := a.isNeg != b.isNeg
  if a.isInf || b.isInf then .inf n
  else if a.isZero || b.isZero then .zero n
  else .fin (a.dy.mul b.dy)

/-- The exact sum of two values that are no NaN and no infinities of unlike sign, with the sign of an
exact zero (R138). -/
def FV.plus (rm : Rm) (a b : FV) : FV :=
  if a.isInf then a
  else if b.isInf then b
  else if a.isZero && b.isZero then .zero (if a.isNeg == b.isNeg then a.isNeg else rm == .rdn)
  else if a.isZero then b
  else if b.isZero then a
  else
    let d := a.dy.add b.dy
    if d.n = 0 then .zero (rm == .rdn) else .fin d

/-- a + b (R138). -/
def fpAdd (f : Fmt) (rm : Rm) (rnd : Rnd) (a b : FV) : Nat × NxFlags :=
  if a.isNan || b.isNan then nanRes f (a.sig || b.sig)
  else if a.isInf && b.isInf && a.isNeg != b.isNeg then nanRes f true
  else roundFV f rm rnd (a.plus rm b)

def fpSub (f : Fmt) (rm : Rm) (rnd : Rnd) (a b : FV) : Nat × NxFlags := fpAdd f rm rnd a b.negate

/-- 0 x infinity in either order. -/
def badProduct (a b : FV) : Bool := (a.isZero && b.isInf) || (a.isInf && b.isZero)

def fpMul (f : Fmt) (rm : Rm) (rnd : Rnd) (a b : FV) : Nat × NxFlags :=
  if a.isNan || b.isNan then nanRes f (a.sig || b.sig)
  else if badProduct a b then nanRes f true
  else roundFV f rm rnd (a.times b)

/-- a * b + c with one rounding (R138). -/
def fpFma (f : Fmt) (rm : Rm) (rnd : Rnd) (a b c : FV) : Nat × NxFlags :=
  if badProduct a b then nanRes f true
  else if a.isNan || b.isNan || c.isNan then nanRes f (a.sig || b.sig || c.sig)
  else
    let p := a.times b
    if p.isInf && c.isInf && p.isNeg != c.isNeg then nanRes f true
    else roundFV f rm rnd (p.plus rm c)

/-- a < b for values that are no NaN; the zeros are equal. -/
def FV.lt (a b : FV) : Bool :=
  match a, b with
  | .inf n, .inf m => n && !m
  | .inf n, _ => n
  | _, .inf m => !m
  | _, _ => a.dy.lt b.dy

/-- a = b for values that are no NaN; the zeros are equal. -/
def FV.eq (a b : FV) : Bool :=
  match a, b with
  | .inf n, .inf m => n == m
  | .inf _, _ => false
  | _, .inf _ => false
  | _, _ => a.dy.eq b.dy

/-- Minimum or maximum of two elements: one of their bit patterns, or the canonical NaN (R139). -/
def fpMinMax (f : Fmt) (isMax : Bool) (x y : Nat) : Nat × NxFlags :=
  let a := Fmt.value f x
  let b := Fmt.value f y
  let nv := flagIf (a.sig || b.sig) fNV
  if a.isNan && b.isNan then (Fmt.nanBits f, nv)
  else if a.isNan then (y, nv)
  else if b.isNan then (x, nv)
  else
    -- a below b, with -0 below +0
    let below := a.lt b || (a.isZero && b.isZero && a.isNeg && !b.isNeg)
    (if below != isMax then x else y, nv)

/-- The three compares (R142): the truth and NV. -/
inductive Cmp where
  | lt | le | eq
  deriving DecidableEq, Repr

def fpCmp (c : Cmp) (a b : FV) : Bool × NxFlags :=
  if a.isNan || b.isNan then
    (false, flagIf (c != .eq || a.sig || b.sig) fNV)
  else
    (match c with | .lt => a.lt b | .le => a.lt b || a.eq b | .eq => a.eq b, 0#5)

/-! ## Divide and the function unit (R144, R145) -/

/-- The exact quotient of two non-zero finite values. -/
def quotient (a b : Dy) : Ex :=
  let x := a.n.natAbs * 2 ^ 128
  let y := b.n.natAbs
  { neg := decide (a.n < 0) != decide (b.n < 0), m := x / y, e := a.e - b.e - 128, sticky := x % y != 0 }

/-- ± infinity for a division by zero, largest finite under a saturating mode (R144). -/
def divByZero (f : Fmt) (rm : Rm) (neg : Bool) : Nat × NxFlags := ((roundFV f rm {} (.inf neg)).1, fDZ)

/-- a / b (R144). -/
def fpDiv (f : Fmt) (rm : Rm) (rnd : Rnd) (a b : FV) : Nat × NxFlags :=
  let n := a.isNeg != b.isNeg
  if a.isNan || b.isNan then nanRes f (a.sig || b.sig)
  else if (a.isZero && b.isZero) || (a.isInf && b.isInf) then nanRes f true
  else if a.isInf then roundFV f rm rnd (.inf n)
  else if b.isInf || a.isZero then roundFV f rm rnd (.zero n)
  else if b.isZero then divByZero f rm n
  else roundEx f rm rnd (quotient a.dy b.dy)

/-- The integer square root by one bit at a time from bit `b` down. -/
def isqrtAux (n : Nat) : Nat → Nat → Nat
  | 0, acc => acc
  | b + 1, acc => isqrtAux n b (if (acc + 2 ^ b) * (acc + 2 ^ b) ≤ n then acc + 2 ^ b else acc)

def isqrt (n : Nat) : Nat := isqrtAux n (Nat.log2 n / 2 + 1) 0

/-- √x (R145). -/
def fpSqrt (f : Fmt) (rm : Rm) (rnd : Rnd) (x : FV) : Nat × NxFlags :=
  match x with
  | .nan s => nanRes f s
  | .zero n => roundFV f rm rnd (.zero n)
  | .inf n => if n then nanRes f true else roundFV f rm rnd (.inf false)
  | .fin d =>
    if d.n < 0 then nanRes f true
    else
      -- an even exponent, and enough bits below
      let e := d.e - d.e % 2 - 160
      let m := d.n.natAbs * 2 ^ (d.e - e).toNat
      let r := isqrt m
      roundEx f rm rnd { neg := false, m := r, e := e / 2, sticky := r * r != m }

/-- 1 / x (R145). -/
def fpRcp (f : Fmt) (rm : Rm) (rnd : Rnd) (x : FV) : Nat × NxFlags :=
  match x with
  | .zero n => divByZero f rm n
  | _ => fpDiv f rm rnd (.fin { n := 1, e := 0 }) x

/-- Bits after the point of the fixed-point evaluation of exp2 and log2. -/
def fxBits : Nat := 256

/-- ln 2 = the sum of 1 / (k 2^k), in fixed point. -/
def ln2Aux : Nat → Nat
  | 0 => 0
  | k + 1 => 2 ^ fxBits / ((k + 1) * 2 ^ (k + 1)) + ln2Aux k
def ln2Fx : Nat := ln2Aux 300

/-- The sum of y^k / k! from the term `t` = y^k / k! on, in fixed point. -/
def expAux (y : Nat) : Nat → Nat → Nat → Nat
  | 0, _, _ => 0
  | fuel + 1, k, t => t + expAux y fuel (k + 1) (t * y / 2 ^ fxBits / (k + 1))

/-- 2^x for a finite non-zero x: the floor of its value at the precision of the evaluation. -/
def exp2Ex (d : Dy) : Ex :=
  -- the integer part, and the fraction in fixed point
  let sh := d.e + fxBits
  let fx : Int := if 0 ≤ sh then d.n * 2 ^ sh.toNat else d.n / 2 ^ (-sh).toNat
  let n := fx / 2 ^ fxBits
  let fr := (fx % 2 ^ fxBits).toNat
  if fr = 0 then { neg := false, m := 1, e := n }
  else { neg := false, m := expAux (fr * ln2Fx / 2 ^ fxBits) 100 0 (2 ^ fxBits) / 2 ^ 16,
         e := n - fxBits + 16, sticky := true }

/-- 2^x (R145). An x below -2^12 or above 2^12 is past every format's range. -/
def fpExp2 (f : Fmt) (rm : Rm) (rnd : Rnd) (x : FV) : Nat × NxFlags :=
  match x with
  | .nan s => nanRes f s
  | .zero _ => roundEx f rm rnd { neg := false, m := 1, e := 0 }
  | .inf n => if n then (0, 0#5) else roundFV f rm rnd (.inf false)
  | .fin d =>
    if (Dy.ofInt (2 ^ 12)).lt d then roundEx f rm rnd { neg := false, m := 1, e := 2 ^ 12 }
    else if d.lt (Dy.ofInt (-2 ^ 12)) then roundEx f rm rnd { neg := false, m := 1, e := -2 ^ 12, sticky := true }
    else roundEx f rm rnd (exp2Ex d)

/-- The sum of z^(2k+1) / (2k+1) from the power `t` = z^(2k+1) on, in fixed point. -/
def atanhAux (z2 : Nat) : Nat → Nat → Nat → Nat
  | 0, _, _ => 0
  | fuel + 1, k, t => t / (2 * k + 1) + atanhAux z2 fuel (k + 1) (t * z2 / 2 ^ fxBits)

/-- log2 x for a finite x > 0 other than 1. -/
def log2Ex (d : Dy) : Ex :=
  let m := d.n.natAbs
  let lg := Nat.log2 m
  let n : Int := d.e + lg
  if m = 2 ^ lg then { neg := decide (n < 0), m := n.natAbs, e := 0 }
  else
    -- m / 2^lg in (1, 2): z = (m - 2^lg) / (m + 2^lg)
    let z := (m - 2 ^ lg) * 2 ^ fxBits / (m + 2 ^ lg)
    let ln := 2 * atanhAux (z * z / 2 ^ fxBits) 120 0 z
    let v : Int := n * 2 ^ fxBits + (ln * 2 ^ fxBits / ln2Fx : Nat)
    if v < 0 then { neg := true, m := v.natAbs - 1, e := -(fxBits : Int), sticky := true }
    else { neg := false, m := v.natAbs, e := -(fxBits : Int), sticky := true }

/-- log2 x (R145). DESIGN CHOICE (log 76): of ±0 under the saturating modes the result is the most negative finite
number, with DZ. -/
def fpLog2 (f : Fmt) (rm : Rm) (rnd : Rnd) (x : FV) : Nat × NxFlags :=
  match x with
  | .nan s => nanRes f s
  | .zero _ => divByZero f rm true
  | .inf n => if n then nanRes f true else roundFV f rm rnd (.inf false)
  | .fin d =>
    if d.n < 0 then nanRes f true
    else if d.eq { n := 1, e := 0 } then (0, 0#5)
    else roundEx f rm rnd (log2Ex d)

/-! ## LQ4 (R80-R82, R95) -/

/-- M[m] as a dyadic number (R81). -/
def lq4Mag (m : Nat) : Dy :=
  (Fmt.value .bf16 ([0x3D2C, 0x3E02, 0x3E5D, 0x3E9F, 0x3ED5, 0x3F0B, 0x3F35, 0x3F80].getD m 0)).dy

/-- LQ4[c] (R80). -/
def lq4Val (c : Nat) : Dy := if c / 8 % 2 = 1 then (lq4Mag (c % 8)).neg else lq4Mag (c % 8)

/-- The block scale B = Round(FP32, 000, S x s), and its flags: +0 and none for s = 0 (R82). -/
def blockScale (ss sc : Nat) : FV × NxFlags :=
  if sc = 0 then (.zero false, 0#5)
  else
    let (b, fl) := fpMul .fp32 .rne {} (Fmt.value .fp32 ss) (.ofInt sc)
    (Fmt.value .fp32 b, fl)

/-- The largest m with M[m] x |B| ≤ |x|; none below M[0]. -/
def lq4Below (x b : Dy) : Nat → Option Nat
  | 0 => none
  | m + 1 => if ((lq4Mag m).mul b).le x then some m else lq4Below x b m

/-- QuantLQ4(x, B, rm, r) (R95). -/
def quantLq4 (x b : FV) (rm : Rm) (r : Nat) : Nat × NxFlags :=
  if b.isZero then (0, 0#5)
  else if b.isInf || b.isNan || x.isNan then (0, fNV)
  else
    let neg := x.isNeg != b.isNeg
    let sg (m : Nat) (n : Bool) : Nat := if n then m + 8 else m
    let ax := x.dy.abs
    let ab := b.dy.abs
    if x.isInf || ab.lt ax then (sg 7 neg, fOF ||| fNX)
    else
      let prod (m : Nat) : Dy := (lq4Mag m).mul ab
      let inexact (m : Nat) : NxFlags := flagIf (!(prod m).eq ax) fNX
      if x.isZero then (sg 0 neg, fNX)
      else
        match lq4Below ax ab 8 with
        | none =>
          -- |q| < M[0]: the neighbours are ±M[0]
          match rm with
          | .rne | .rnes | .rtz => (sg 0 neg, fNX)
          | .rdn => (8, fNX)
          | .rup => (0, fNX)
          | .sr | .srs =>
            -- (q + M0) / (2 M0) + r / 16 ≥ 1, as 16 (q + M0) ≥ (16 - r) 2 M0
            let q := if neg then ax.neg else ax
            let lhs := (q.add (prod 0)).mul (.ofInt 16)
            let rhs := (prod 0).mul (.ofInt (2 * ((16 : Int) - r)))
            (if rhs.le lhs then 0 else 8, fNX)
        | some m =>
          if (prod m).eq ax then (sg m neg, 0#5)
          else
            -- M[m] < |q| < M[m + 1]
            let up := m + 1
            match rm with
            | .rne | .rnes =>
              let twice := ax.mul (.ofInt 2)
              let mid := (prod m).add (prod up)
              let k := if mid.lt twice then up else m
              (sg k neg, inexact k)
            | .rtz => (sg m neg, fNX)
            | .rdn => (sg (if neg then up else m) neg, fNX)
            | .rup => (sg (if neg then m else up) neg, fNX)
            | .sr | .srs =>
              -- hi is the greater value: the lesser magnitude for a negative q
              let q := if neg then ax.neg else ax
              let lo := if neg then (prod up).neg else prod m
              let hi := if neg then (prod m).neg else prod up
              let lhs := (q.add lo.neg).mul (.ofInt 16)
              let rhs := (hi.add lo.neg).mul (.ofInt ((16 : Int) - r))
              let isHi := rhs.le lhs
              (sg (if isHi != neg then up else m) neg, fNX)

/-! ## The random generator (R93) -/

/-- NextRandom: the new state and the output. -/
def nextRandom (s : Word) : Word × Word :=
  let s := s + 0xD1B54A32D192ED03#64
  let z := (s ^^^ (s >>> 32)) * 0xAEF17502108EF2D9#64
  let z := (z ^^^ (z >>> 29)) * 0xF2DE6A7C5C3F2E31#64
  (s, z ^^^ (z >>> 32))

end Sys2Proof.Machine
end

