-- ==== Sys2Proof/Machine/Operands.lean ====
section
/-! DEFINITION. Elements of vectors and payloads (R28, R29, R101, R130), lanes under a mask (R131), random
fields (R87), and the arithmetic of one element, integer or floating-point (R138-R147). -/

namespace Sys2Proof.Machine

/-! ## Elements -/

/-- Element `i` of width `w` of a number that holds elements from bit 0 up (R29). -/
def elemN (v w i : Nat) : Nat := v / 2 ^ (w * i) % 2 ^ w

/-- The number whose elements 0 to n - 1 of width `w` are `f` of their number. -/
def buildN (w : Nat) (f : Nat → Nat) : Nat → Nat
  | 0 => 0
  | n + 1 => buildN w f n + f n % 2 ^ w * 2 ^ (w * n)

/-- Lanes of a format in a vector register (R130). -/
def lanes (f : Fmt) : Nat := 1024 / Fmt.width f

/-- Elements of a format in a 64-bit payload (R101). -/
def payloadElems (f : Fmt) : Nat := 64 / Fmt.tokWidth f

/-- Element `i` of a vector register. -/
def elemV (v : VWord) (w i : Nat) : Nat := elemN v.toNat w i

/-- The random field of element `i` (R87). -/
def rndAt (v w i : Nat) : Rnd := { r := elemN v w i, k := w }

/-- Results for elements 0 to n - 1 where `act` holds, the old elements elsewhere; and the flags of the
active ones (R91, R131). -/
def lanesOf (w : Nat) (old : Nat) (act : Nat → Bool) (res : Nat → Nat × NxFlags) : Nat → Nat × NxFlags
  | 0 => (0, 0#5)
  | n + 1 =>
    let (acc, fl) := lanesOf w old act res n
    if act n then
      let r := res n
      (acc + r.1 % 2 ^ w * 2 ^ (w * n), fl ||| r.2)
    else (acc + elemN old w n * 2 ^ (w * n), fl)

/-! ## The arithmetic of one element -/

/-- The four element operations of R138. -/
inductive Arith where
  | add | sub | mul | fma
  deriving DecidableEq, Repr

/-- A format whose elements are integers. -/
def isInt (f : Fmt) : Bool := f == .int || f == .int8

/-- a op b, or a * b + c: wrapped modulo 2^w for integers, rounded once otherwise (R138). -/
def arith (op : Arith) (f : Fmt) (w : Nat) (rm : Rm) (rnd : Rnd) (a b c : Nat) : Nat × NxFlags :=
  if isInt f then
    (natOf w (match op with
      | .add => (a : Int) + b
      | .sub => (a : Int) - b
      | .mul => (a : Int) * b
      | .fma => (a : Int) * b + c), 0#5)
  else
    let x := Fmt.value f a
    let y := Fmt.value f b
    match op with
    | .add => fpAdd f rm rnd x y
    | .sub => fpSub f rm rnd x y
    | .mul => fpMul f rm rnd x y
    | .fma => fpFma f rm rnd x y (Fmt.value f c)

/-- The lesser or the greater of two elements (R139). -/
def minMax (f : Fmt) (w : Nat) (isMax : Bool) (a b : Nat) : Nat × NxFlags :=
  if isInt f then (if decide (intOf w a < intOf w b) != isMax then a else b, 0#5) else fpMinMax f isMax a b

/-- A compare of two elements (R142). -/
def compare (f : Fmt) (w : Nat) (c : Cmp) (a b : Nat) : Bool × NxFlags :=
  if isInt f then
    let x := intOf w a
    let y := intOf w b
    (match c with | .lt => decide (x < y) | .le => decide (x ≤ y) | .eq => decide (x = y), 0#5)
  else fpCmp c (Fmt.value f a) (Fmt.value f b)

/-- The value of an element of any format but LQ4, `w` bits wide when an integer. -/
def valueOf (f : Fmt) (w bits : Nat) : FV := if isInt f then .ofInt (intOf w bits) else Fmt.value f bits

/-- Round or ToInt into a destination element of `w` bits (R85, R88). -/
def convert (dst : Fmt) (w : Nat) (rm : Rm) (rnd : Rnd) (v : FV) : Nat × NxFlags :=
  if isInt dst then toIntW w rm rnd v else roundFV dst rm rnd v

/-- LQ4[c] x B rounded once (R97). -/
def dequant (dst : Fmt) (rm : Rm) (rnd : Rnd) (c : Nat) (b : FV) : Nat × NxFlags :=
  fpMul dst rm rnd (.fin (lq4Val c)) b

/-! ## Trees and scans (R146, R147) -/

/-- One level of the reduction tree: pairs combined in order, an absent one passed over. -/
def reduceLevel (comb : Nat → Nat → Nat → Nat × NxFlags) : List (Option Nat) → Nat → List (Option Nat) × NxFlags
  | a :: b :: r, j =>
    let (rest, fl) := reduceLevel comb r (j + 1)
    match a, b with
    | none, _ => (b :: rest, fl)
    | _, none => (a :: rest, fl)
    | some x, some y => let (z, g) := comb j x y; (some z :: rest, fl ||| g)
  | l, _ => (l, 0#5)

/-- The tree from `n` entries down; node j of a level of n entries draws field n + j. -/
def reduceTree (comb : Nat → Nat → Nat → Nat × NxFlags) : Nat → List (Option Nat) → Option Nat × NxFlags
  | 0, l => (l.headD none, 0#5)
  | lev + 1, l =>
    let (u, fl) := reduceLevel (fun j => comb (2 ^ lev + j)) l 0
    let (t, g) := reduceTree comb lev u
    (t, fl ||| g)

/-- The prefix sums of the active elements, with their flags: one result per element, the sum before it
carried past an inactive one. -/
def scanFrom (add : Nat → Nat → Nat → Nat × NxFlags) (canon : Nat → Nat × NxFlags) (act : Nat → Bool) :
    List Nat → Nat → Option Nat → List Nat × NxFlags
  | [], _, _ => ([], 0#5)
  | x :: r, i, acc =>
    if act i then
      let (y, g) := match acc with | none => canon x | some a => add i a x
      let (l, fl) := scanFrom add canon act r (i + 1) (some y)
      (y :: l, g ||| fl)
    else
      let (l, fl) := scanFrom add canon act r (i + 1) acc
      (0 :: l, fl)

end Sys2Proof.Machine
end

