-- ==== Sys2Proof/Machine/Vector.lean ====
section
/-! DEFINITION. The vector instructions (R94, R96-R98, R130-R153). -/

namespace Sys2Proof.Machine

/-! ## What the instructions share -/

/-- The rounding mode of an instruction that rounds: RNE for integer lanes; ILLEGAL for VRM = 111 (R40,
R136). -/
def State.vecRm (s : State) (i : Instr) (f : Fmt) : Except Trap Rm :=
  if isInt f then .ok .rne
  else if s.me.user.vrm = 7#3 then illegal i
  else .ok (Rm.ofCode s.me.user.vrm.toNat)

/-- The random fields: v31, read in a stochastic mode only (R87, R132). -/
def State.vecRnd (s : State) (rm : Rm) : Except Trap VWord := if rm.stoch then s.vr 31#5 else .ok 0#1024

/-- The mask: v0, read when m = 1 only (R131). -/
def State.vecMask (s : State) (m : Bool) : Except Trap VWord := if m then s.vr 0#5 else .ok 0#1024

/-- Active(i) (R131). -/
def active (m : Bool) (v0 : VWord) (i : Nat) : Bool := !m || v0.getLsbD i

/-- The destination's elements that a partial write leaves: zero when its tag is stale (R132). -/
def State.vecOld (s : State) (vd : VReg) : VWord := if (s.me.vreg vd).gen = s.me.gen then (s.me.vreg vd).val else 0#1024

/-- vd written, the flags joined to NXFLAGS, the instruction retired (R91). -/
def State.vecPut (s : State) (vd : VReg) (v : Nat) (fl : NxFlags) : Except Trap State := do
  let s ← s.setV vd (BitVec.ofNat 1024 v)
  return (s.modMe fun t => { t with user := { t.user with nxflags := t.user.nxflags ||| fl } }).retire

/-- Each active element of vd given its result. -/
def State.vecMap (s : State) (m : Bool) (w n : Nat) (vd : VReg) (res : Nat → Nat × NxFlags) : Except Trap State := do
  let v0 ← s.vecMask m
  let (v, fl) := lanesOf w (s.vecOld vd).toNat (active m v0) res n
  s.vecPut vd v fl

/-- Element-wise arithmetic (R138). DESIGN CHOICE (log 75): of several stale or poisoned sources the first in the
order vs1, vs2, vd, v31, v0 gives the cause and TVAL. -/
def vecArith (i : Instr) (op : Arith) (m : Bool) (f : Fmt) (vd vs1 vs2 : VReg) (s : State) : Out :=
  s.commit do
    let rm ← s.vecRm i f
    let a ← s.vr vs1
    let b ← s.vr vs2
    let c ← if op = .fma then s.vr vd else .ok 0#1024
    let r ← s.vecRnd rm
    let w := Fmt.width f
    s.vecMap m w (lanes f) vd fun k =>
      arith op f w rm (rndAt r.toNat w k) (elemV a w k) (elemV b w k) (elemV c w k)

def execVadd (m : Bool) (f : Fmt) (vd vs1 vs2 : VReg) (s : State) : Out :=
  vecArith (.vadd m f vd vs1 vs2) .add m f vd vs1 vs2 s

def execVsub (m : Bool) (f : Fmt) (vd vs1 vs2 : VReg) (s : State) : Out :=
  vecArith (.vsub m f vd vs1 vs2) .sub m f vd vs1 vs2 s

def execVmul (m : Bool) (f : Fmt) (vd vs1 vs2 : VReg) (s : State) : Out :=
  vecArith (.vmul m f vd vs1 vs2) .mul m f vd vs1 vs2 s

def execVfma (m : Bool) (f : Fmt) (vd vs1 vs2 : VReg) (s : State) : Out :=
  vecArith (.vfma m f vd vs1 vs2) .fma m f vd vs1 vs2 s

/-- Two sources, one result per element, no rounding but the check of VRM where `chk` (R136). -/
def vecBinary (i : Instr) (chk m : Bool) (f : Fmt) (vd vs1 vs2 : VReg) (s : State)
    (op : Nat → Nat → Nat → Nat × NxFlags) : Out :=
  s.commit do
    let _ ← if chk then s.vecRm i f else .ok .rne
    let a ← s.vr vs1
    let b ← s.vr vs2
    let w := Fmt.width f
    s.vecMap m w (lanes f) vd fun k => op w (elemV a w k) (elemV b w k)

def execVmin (m : Bool) (f : Fmt) (vd vs1 vs2 : VReg) (s : State) : Out :=
  vecBinary (.vmin m f vd vs1 vs2) true m f vd vs1 vs2 s fun w a b => minMax f w false a b

def execVmax (m : Bool) (f : Fmt) (vd vs1 vs2 : VReg) (s : State) : Out :=
  vecBinary (.vmax m f vd vs1 vs2) true m f vd vs1 vs2 s fun w a b => minMax f w true a b

/-- Logic and shifts (R140, R141): the count is the element's low bits. -/
def execVand (m : Bool) (f : Fmt) (vd vs1 vs2 : VReg) (s : State) : Out :=
  vecBinary (.vand m f vd vs1 vs2) false m f vd vs1 vs2 s fun _ a b => (a &&& b, 0#5)

def execVor (m : Bool) (f : Fmt) (vd vs1 vs2 : VReg) (s : State) : Out :=
  vecBinary (.vor m f vd vs1 vs2) false m f vd vs1 vs2 s fun _ a b => (a ||| b, 0#5)

def execVxor (m : Bool) (f : Fmt) (vd vs1 vs2 : VReg) (s : State) : Out :=
  vecBinary (.vxor m f vd vs1 vs2) false m f vd vs1 vs2 s fun _ a b => (a ^^^ b, 0#5)

def execVsll (m : Bool) (f : Fmt) (vd vs1 vs2 : VReg) (s : State) : Out :=
  vecBinary (.vsll m f vd vs1 vs2) false m f vd vs1 vs2 s fun w a b => (a * 2 ^ (b % w) % 2 ^ w, 0#5)

def execVsrl (m : Bool) (f : Fmt) (vd vs1 vs2 : VReg) (s : State) : Out :=
  vecBinary (.vsrl m f vd vs1 vs2) false m f vd vs1 vs2 s fun w a b => (a / 2 ^ (b % w), 0#5)

def execVsra (m : Bool) (f : Fmt) (vd vs1 vs2 : VReg) (s : State) : Out :=
  vecBinary (.vsra m f vd vs1 vs2) false m f vd vs1 vs2 s fun w a b => (natOf w (intOf w a / 2 ^ (b % w)), 0#5)

/-! ## Compares, select (R142, R143) -/

/-- A mask of compare results; the bits above the lanes become 0. -/
def vecCompare (c : Cmp) (m : Bool) (f : Fmt) (vd vs1 vs2 : VReg) (s : State) : Out :=
  s.commit do
    let a ← s.vr vs1
    let b ← s.vr vs2
    let w := Fmt.width f
    s.vecMap m 1 (lanes f) vd fun k =>
      let (t, fl) := compare f w c (elemV a w k) (elemV b w k)
      (if t then 1 else 0, fl)

def execVclt (m : Bool) (f : Fmt) (vd vs1 vs2 : VReg) (s : State) : Out := vecCompare .lt m f vd vs1 vs2 s

def execVcle (m : Bool) (f : Fmt) (vd vs1 vs2 : VReg) (s : State) : Out := vecCompare .le m f vd vs1 vs2 s

def execVceq (m : Bool) (f : Fmt) (vd vs1 vs2 : VReg) (s : State) : Out := vecCompare .eq m f vd vs1 vs2 s

def execVsel (f : Fmt) (vd vs1 vs2 : VReg) (s : State) : Out :=
  s.commit do
    let v0 ← s.vr 0#5
    let a ← s.vr vs1
    let b ← s.vr vs2
    let w := Fmt.width f
    s.vecMap false w (lanes f) vd fun k => (if v0.getLsbD k then elemV a w k else elemV b w k, 0#5)

/-! ## Divide and the function unit (R144, R145) -/

def execVdiv (m : Bool) (f : Fmt) (vd vs1 vs2 : VReg) (s : State) : Out :=
  s.commit do
    let rm ← s.vecRm (.vdiv m f vd vs1 vs2) f
    let a ← s.vr vs1
    let b ← s.vr vs2
    let r ← s.vecRnd rm
    s.vecMap m 32 32 vd fun k =>
      let x := elemV a 32 k
      let y := elemV b 32 k
      if isInt f then (if y = 0 then 2 ^ 32 - 1 else natOf 32 ((intOf 32 x).tdiv (intOf 32 y)), 0#5)
      else fpDiv .fp32 rm (rndAt r.toNat 32 k) (Fmt.value .fp32 x) (Fmt.value .fp32 y)

/-- A function of one FP32 element. -/
def vecUnary (i : Instr) (m : Bool) (vd vs1 : VReg) (s : State)
    (fn : Fmt → Rm → Rnd → FV → Nat × NxFlags) : Out :=
  s.commit do
    let rm ← s.vecRm i .fp32
    let a ← s.vr vs1
    let r ← s.vecRnd rm
    s.vecMap m 32 32 vd fun k => fn .fp32 rm (rndAt r.toNat 32 k) (Fmt.value .fp32 (elemV a 32 k))

def execVsqrt (m : Bool) (vd vs1 : VReg) (s : State) : Out := vecUnary (.vsqrt m vd vs1) m vd vs1 s fpSqrt

def execVrcp (m : Bool) (vd vs1 : VReg) (s : State) : Out := vecUnary (.vrcp m vd vs1) m vd vs1 s fpRcp

def execVexp2 (m : Bool) (vd vs1 : VReg) (s : State) : Out := vecUnary (.vexp2 m vd vs1) m vd vs1 s fpExp2

def execVlog2 (m : Bool) (vd vs1 : VReg) (s : State) : Out := vecUnary (.vlog2 m vd vs1) m vd vs1 s fpLog2

/-! ## Reductions and scans (R146, R147) -/

/-- The canonical NaN for a NaN, the bits otherwise (R78). -/
def canonBits (f : Fmt) (x : Nat) : Nat := if isInt f then x else if (Fmt.value f x).isNan then Fmt.nanBits f else x

/-- A reduction of the active elements by the tree: element 0 of a vd otherwise zero; `rounds`: the tree's nodes
round, and may draw on v31 (R136, R146). A lone NaN that meets no other element is delivered canonical, without a
flag (log 8). -/
def vecReduce (i : Instr) (m : Bool) (f : Fmt) (rounds : Bool) (vd vs1 : VReg) (s : State)
    (comb : Rm → Rnd → Nat → Nat → Nat × NxFlags) : Out :=
  s.commit do
    let rm ← s.vecRm i f
    let a ← s.vr vs1
    let v0 ← s.vecMask m
    let r ← if rounds then s.vecRnd rm else .ok 0#1024
    let w := Fmt.width f
    let t := (List.range (lanes f)).map fun k => if active m v0 k then some (elemV a w k) else none
    let (e, fl) := reduceTree (fun k => comb rm (rndAt r.toNat w k)) (Nat.log2 (lanes f)) t
    s.vecPut vd (match e with | none => 0 | some x => canonBits f x) fl

def execVrsum (m : Bool) (f : Fmt) (vd vs1 : VReg) (s : State) : Out :=
  vecReduce (.vrsum m f vd vs1) m f true vd vs1 s fun rm rnd a b => arith .add f (Fmt.width f) rm rnd a b 0

def execVrmax (m : Bool) (f : Fmt) (vd vs1 : VReg) (s : State) : Out :=
  vecReduce (.vrmax m f vd vs1) m f false vd vs1 s fun _ _ a b => minMax f (Fmt.width f) true a b

def execVrmin (m : Bool) (f : Fmt) (vd vs1 : VReg) (s : State) : Out :=
  vecReduce (.vrmin m f vd vs1) m f false vd vs1 s fun _ _ a b => minMax f (Fmt.width f) false a b

def execVscan (m : Bool) (f : Fmt) (vd vs1 : VReg) (s : State) : Out :=
  s.commit do
    let rm ← s.vecRm (.vscan m f vd vs1) f
    let a ← s.vr vs1
    let v0 ← s.vecMask m
    let r ← s.vecRnd rm
    let w := Fmt.width f
    let xs := (List.range (lanes f)).map fun k => elemV a w k
    let canon (x : Nat) : Nat × NxFlags := (canonBits f x, flagIf (!isInt f && (Fmt.value f x).sig) fNV)
    let (ys, fl) := scanFrom (fun k x y => arith .add f w rm (rndAt r.toNat w k) x y 0) canon (active m v0) xs 0 none
    let (v, _) := lanesOf w (s.vecOld vd).toNat (active m v0) (fun k => (ys.getD k 0, 0#5)) (lanes f)
    s.vecPut vd v fl

/-! ## Permutation and movement (R148-R152) -/

def execVperm (m : Bool) (f : Fmt) (vd vs1 vs2 : VReg) (s : State) : Out :=
  s.commit do
    let a ← s.vr vs1
    let b ← s.vr vs2
    let w := Fmt.width f
    s.vecMap m w (lanes f) vd fun i =>
      let k := elemV b w i
      (elemV a w (if f = .lq4 then 16 * (i / 16) + k else k % lanes f), 0#5)

def execVslide (m : Bool) (f : Fmt) (vd vs1 : VReg) (rs2 : XReg) (s : State) : Out :=
  s.commit do
    let a ← s.vr vs1
    let n ← s.xr rs2
    let w := Fmt.width f
    s.vecMap m w (lanes f) vd fun i =>
      let k : Int := (i : Int) - n.toInt
      (if 0 ≤ k ∧ k < lanes f then elemV a w k.toNat else 0, 0#5)

def execVsplat (m : Bool) (f : Fmt) (vd : VReg) (rs1 : XReg) (s : State) : Out :=
  s.commit do
    let a ← s.xr rs1
    s.vecMap m (Fmt.width f) (lanes f) vd fun _ => (a.toNat, 0#5)

def execVxtr (f : Fmt) (rd : XReg) (vs1 : VReg) (rs2 : XReg) (s : State) : Out :=
  s.commit do
    let a ← s.vr vs1
    let k ← s.xr rs2
    let w := Fmt.width f
    let e := w64 (elemV a w k.toNat)
    let s ← s.setX rd (if lanes f ≤ k.toNat then 0#64 else if isInt f then sext w e else e)
    return s.retire

def execVmov (m : Bool) (f : Fmt) (vd vs1 : VReg) (s : State) : Out :=
  s.commit do
    let a ← s.vr vs1
    let w := Fmt.width f
    s.vecMap m w (lanes f) vd fun i => (elemV a w i, 0#5)

/-! ## Conversion (R94, R96-R98) -/

def execVcvt (m : Bool) (src dst : Fmt) (vd vs1 : VReg) (s : State) : Out :=
  s.commit do
    let rm ← s.vecRm (.vcvt m src dst vd vs1) src
    let a ← s.vr vs1
    let r ← s.vecRnd rm
    let w := Fmt.width dst
    s.vecMap m w (lanes dst) vd fun i =>
      if min (lanes src) (lanes dst) ≤ i then (0, 0#5)
      else convert dst w rm (rndAt r.toNat w i) (valueOf src (Fmt.width src) (elemV a (Fmt.width src) i))

/-- The flags of forming B, when some element is active (R96). -/
def scaleFlags (n : Nat) (m : Bool) (v0 : VWord) (fl : NxFlags) : NxFlags :=
  if (List.range n).any (active m v0) then fl else 0#5

def execVq (m : Bool) (f : Fmt) (vd vs1 : VReg) (rs2 : XReg) (s : State) : Out :=
  s.commit do
    let rm ← s.vecRm (.vq m f vd vs1 rs2) f
    let a ← s.vr vs1
    let x ← s.xr rs2
    let v0 ← s.vecMask m
    let r ← s.vecRnd rm
    let n := lanes f
    let p := fld x 42 40 % (256 / n)
    let (b, bf) := blockScale (fld x 31 0) (fld x 39 32)
    let old := (s.vecOld vd).toNat
    let (codes, fl) := lanesOf 4 (old / 2 ^ (4 * n * p)) (active m v0)
      (fun i => quantLq4 (Fmt.value f (elemV a (Fmt.width f) i)) b rm (elemV r 4 (n * p + i))) n
    -- the other codes of vd keep their values
    let v := old % 2 ^ (4 * n * p) + codes * 2 ^ (4 * n * p) + old / 2 ^ (4 * n * (p + 1)) * 2 ^ (4 * n * (p + 1))
    s.vecPut vd v (fl ||| scaleFlags n m v0 bf)

def execVdq (m : Bool) (f : Fmt) (vd vs1 : VReg) (rs2 : XReg) (s : State) : Out :=
  s.commit do
    let rm ← s.vecRm (.vdq m f vd vs1 rs2) f
    let a ← s.vr vs1
    let x ← s.xr rs2
    let v0 ← s.vecMask m
    let r ← s.vecRnd rm
    let n := lanes f
    let w := Fmt.width f
    let p := fld x 42 40 % (256 / n)
    let (b, bf) := blockScale (fld x 31 0) (fld x 39 32)
    let (v, fl) := lanesOf w (s.vecOld vd).toNat (active m v0)
      (fun i => dequant f rm (rndAt r.toNat w i) (elemV a 4 (n * p + i)) b) n
    s.vecPut vd v (fl ||| scaleFlags n m v0 bf)

/-- `k` outputs of the generator, and its state after them (R93). -/
def rngOutputs : Nat → Word → List Word × Word
  | 0, st => ([], st)
  | k + 1, st =>
    let (st, z) := nextRandom st
    let (l, st) := rngOutputs k st
    (z :: l, st)

def execVrng (m : Bool) (vd : VReg) (s : State) : Out :=
  s.commit do
    let (zs, st) := rngOutputs 16 s.me.user.rngst
    let t ← s.vecMap m 32 32 vd fun i => (elemN (zs.getD (i / 2) 0#64).toNat 32 (i % 2), 0#5)
    return t.modMe fun v => { v with user := { v.user with rngst := st } }

end Sys2Proof.Machine
end

