-- ==== Sys2Proof/Machine/LoadStore.lean ====
section
/-! DEFINITION. Vector, typed-buffer, synchronising, acquire, release, tide and bounded accesses of a slot, and
prefetch (R203-R218, R224-R229). -/

namespace Sys2Proof.Machine

/-! ## Checking the elements of an access (R208) -/

/-- Every element translated, in order: the first failure ends the instruction. -/
def xlatAll (s : State) (ag : Agent) (k : Kind) : List Word → Except Trap (List Phys × State)
  | [] => .ok ([], s)
  | va :: r => do
    let (p, s) ← translate s ag va k
    let (ps, s) ← xlatAll s ag k r
    return (p :: ps, s)

/-- POISON for the first element in a poisoned line. -/
def poisonAll (s : State) : List (Word × Phys) → Except Trap Unit
  | [] => .ok ()
  | (va, p) :: r => if s.isPoison p.pa then fail cPOISON va else poisonAll s r

/-- Alignment, then translation, then POISON, of every element of an access. -/
def checkAll (s : State) (k : Kind) (n : Nat) (vas : List Word) : Except Trap (List Phys × State) := do
  match vas.find? fun va => !aligned va n with
  | some va => fail cMISALIGN va
  | none => pure ()
  let (ps, s) ← xlatAll s s.agent k vas
  poisonAll s (vas.zip ps)
  return (ps, s)

/-- `n` bytes read at each place. -/
def readAll (s : State) (n : Nat) : List Phys → List Nat × State
  | [] => ([], s)
  | p :: r =>
    let (bs, s) := s.coreRead (coreOf s.cur) p n
    let (l, s) := readAll s n r
    (bytesNat bs :: l, s)

/-- Elements of `n` bytes written in order. -/
def writeAll (s : State) (n : Nat) : List (Phys × Nat) → State
  | [] => s
  | (p, e) :: r => writeAll (s.coreWrite (coreOf s.cur) p (natBytes n e)) n r

/-- The numbers of the active elements below `n`. -/
def activeOf (m : Bool) (v0 : VWord) (n : Nat) : List Nat := (List.range n).filter (active m v0)

/-- A vector load of `n` elements of `e` bytes at the addresses `at_`. -/
def vecLoad (m : Bool) (vd : VReg) (e n : Nat) (at_ : Nat → Word) (s : State) : Except Trap State := do
  let v0 ← s.vecMask m
  let act := activeOf m v0 n
  let (ps, s) ← checkAll s .r e (act.map at_)
  let (es, s) := readAll s e ps
  let got := act.zip es
  let (v, _) := lanesOf (8 * e) (s.vecOld vd).toNat (active m v0)
    (fun i => (((got.find? fun p => p.1 == i).map (·.2)).getD 0, 0#5)) n
  s.vecPut vd v 0#5

/-- A vector store of the elements of `data`. -/
def vecStore (m : Bool) (data : VWord) (e n : Nat) (at_ : Nat → Word) (s : State) : Except Trap State := do
  let v0 ← s.vecMask m
  let act := activeOf m v0 n
  let (ps, s) ← checkAll s .w e (act.map at_)
  return (writeAll s e (ps.zip (act.map fun i => elemV data (8 * e) i))).retire

/-! ## Vector loads and stores (R209, R210) -/

def execVld (m : Bool) (vd : VReg) (rs1 : XReg) (s : State) : Out :=
  s.commit do
    let a ← s.xr rs1
    let _ ← s.vecMask m
    need (aligned a 128) cMISALIGN a
    vecLoad m vd 4 32 (fun i => a + w64 (4 * i)) s

/-- The halves of a 128-byte store: a poisoned line that is wholly covered is written and cleared, one
covered in part faults (R200). -/
def storeLine (data : VWord) (a : Word) (ps : List (Nat × Phys)) (s : State) (h : Nat) :
    Except Trap State :=
  let mine := ps.filter fun q => q.1 / 16 == h
  match mine with
  | [] => .ok s
  | (i, p) :: _ =>
    if s.isPoison p.pa then
      if mine.length = 16 then
        let line : Phys := { p with pa := p.pa / 64 * 64 }
        .ok (((s.putHome s.agent line (getBytes data (64 * h) 64)).dropLine (coreOf s.cur) line))
      else fail cPOISON (a + w64 (4 * i))
    else .ok (writeAll s 4 (mine.map fun q => (q.2, elemV data 32 q.1)))

def execVst (m : Bool) (vs : VReg) (rs1 : XReg) (s : State) : Out :=
  s.commit do
    let a ← s.xr rs1
    let d ← s.vr vs
    let v0 ← s.vecMask m
    need (aligned a 128) cMISALIGN a
    let act := activeOf m v0 32
    let (ps, s) ← xlatAll s s.agent .w (act.map fun i => a + w64 (4 * i))
    let el := act.zip ps
    -- the poison of both lines is checked before either is written
    let _ ← storeLine d a el s 0
    let _ ← storeLine d a el s 1
    let s ← storeLine d a el s 0
    let s ← storeLine d a el s 1
    return s.retire

def execVlds (m : Bool) (sz : Size) (vd : VReg) (rs1 rs2 : XReg) (s : State) : Out :=
  s.commit do
    let a ← s.xr rs1
    let b ← s.xr rs2
    vecLoad m vd (Size.bytes sz) (128 / Size.bytes sz) (fun i => a + w64 i * b) s

def execVsts (m : Bool) (sz : Size) (vs : VReg) (rs1 rs2 : XReg) (s : State) : Out :=
  s.commit do
    let a ← s.xr rs1
    let b ← s.xr rs2
    let d ← s.vr vs
    vecStore m d (Size.bytes sz) (128 / Size.bytes sz) (fun i => a + w64 i * b) s

/-- The address of element `i` of a gather or scatter (R210). -/
def indexed64 (a : Word) (idx : VWord) (e : Nat) (scl : Bool) (i : Nat) : Word :=
  let k := sext 32 (w64 (elemV idx 32 i))
  a + (if scl then k * w64 e else k)

def execVlx (m : Bool) (sz : Size) (scl : Bool) (vd : VReg) (rs1 : XReg) (vs2 : VReg) (s : State) : Out :=
  s.commit do
    let a ← s.xr rs1
    let b ← s.vr vs2
    let e := Size.bytes sz
    vecLoad m vd e (min 32 (128 / e)) (indexed64 a b e scl) s

def execVsx (m : Bool) (sz : Size) (scl : Bool) (vs : VReg) (rs1 : XReg) (vs2 : VReg) (s : State) : Out :=
  s.commit do
    let a ← s.xr rs1
    let b ← s.vr vs2
    let d ← s.vr vs
    let e := Size.bytes sz
    vecStore m d e (min 32 (128 / e)) (indexed64 a b e scl) s

/-! ## Typed buffers (R213) -/

def Buf.size : Buf → Nat
  | .w => 0x80000 | .a => 0x40000 | .c => 0x40000

/-- A typed buffer of a core. -/
def Core.buf (c : Core) : Buf → AMap Granule
  | .w => c.wbuf | .a => c.abuf | .c => c.cbuf

/-- A typed buffer replaced: a write of W or A discards the staged operand (R180). -/
def Core.setBuf (c : Core) (b : Buf) (m : AMap Granule) : Core :=
  match b with
  | .w => { c with wbuf := m, staged := none }
  | .a => { c with abuf := m, staged := none }
  | .c => { c with cbuf := m }

/-- The offset of a `bufld` or `bufst`: a multiple of 64, its 128 bytes in the buffer. -/
def bufOffset (b : Buf) (o : Word) : Except Trap Nat := do
  need (aligned o 64) cMISALIGN o
  need (o.toNat + 128 ≤ Buf.size b) cPERM o
  return o.toNat

/-! ### C-buffer words of a running operation (R169) -/

/-- An addend added into an accumulator: FP32, or an integer modulo 2^32 (R164, R166). -/
def addTo (ints : Bool) (acc t : Nat) : Nat × NxFlags :=
  if ints then ((acc + t) % 2 ^ 32, 0#5) else fpAdd .fp32 .rne {} (Fmt.value .fp32 acc) (Fmt.value .fp32 t)

/-- Addends added in order. -/
def addAll (ints : Bool) (acc : Nat) (ts : List Nat) : Nat × NxFlags :=
  ts.foldl (fun a t => let (r, f) := addTo ints a.1 t; (r, a.2 ||| f)) (acc, 0#5)

/-- The element of a running band at a C-buffer word: a value and the addends still to come after it, from the band's
start or from the last store of another slot. -/
def MxBand.left (b : MxBand) (w : Nat) : Option (Nat × List Nat) :=
  if w / 64 < b.row ∨ w % 64 < b.col then none
  else
    match (b.accs.getD (w / 64 - b.row) [])[w % 64 - b.col]? with
    | none => none
    | some acc =>
      let ts := (b.adds.getD (w / 64 - b.row) []).getD (w % 64 - b.col) []
      match AMap.get? b.put w with
      | some (v, k) => some (v, ts.drop k)
      | none => some (acc, ts)

/-- The band that a core's engine is working on. -/
def runningBand (s : State) (core : Nat) : Option (MxOp × MxBand) :=
  match (s.core core).mxq with
  | o :: _ => o.band.map fun b => (o, b)
  | [] => none

/-- The C-buffer words that `n` bytes at an offset touch. -/
def wordsAt (off n : Nat) : List Nat := (List.range ((off + n + 3) / 4 - off / 4)).map (· + off / 4)

/-- The C-buffer as another slot or agent reads it: each element of a running band after some number of its groups,
a free choice (R169). -/
def cView (s : State) (core off n : Nat) : AMap Granule × State :=
  match runningBand s core with
  | none => ((s.core core).cbuf, s)
  | some (o, b) =>
    (wordsAt off n).foldl (fun (ms : AMap Granule × State) w =>
      match b.left w with
      | none => ms
      | some (v, ts) =>
        let (k, s) := ms.2.pick (ts.length + 1)
        if k = 0 then (ms.1, s)
        else (granWriteAux 2 ms.1 (s.slot o.slot).gen (4 * w) (natBytes 4 (addAll b.ints v (ts.take k)).1), s))
      ((s.core core).cbuf, s)

/-- A store of whole words into the C-buffer meets a running band: each later group adds to the stored value; which
are later is a free choice (R169). -/
def cStore (s : State) (core off : Nat) (bs : List Byte) : State :=
  match runningBand s core with
  | none => s
  | some (o, b) =>
    let (put, s) := (wordsAt off bs.length).foldl (fun (ms : AMap (Nat × Nat) × State) w =>
      match b.left w with
      | none => ms
      | some (_, ts) =>
        let before := match AMap.get? ms.1 w with | some (_, k) => k | none => 0
        let (k, s) := ms.2.pick (ts.length + 1)
        (AMap.set ms.1 w (bytesNat ((bs.drop (4 * w - off)).take 4), before + k), s)) (b.put, s)
    s.modCore core fun c => { c with mxq := { o with band := some { b with put := put } } :: c.mxq.drop 1 }

/-- A typed buffer of a core as a slot or the copy engine reads it. -/
def bufView (s : State) (core : Nat) (buf : Buf) (off n : Nat) : AMap Granule × State :=
  if buf = .c then cView s core off n else ((s.core core).buf buf, s)

def execBufld (buf : Buf) (vd : VReg) (rs1 : XReg) (s : State) : Out :=
  s.commit do
    let a ← s.xr rs1
    let o ← bufOffset buf a
    let (m, s) := bufView s (coreOf s.cur) buf o 128
    let bs ← granRead m s.me.gen s.me.trapMode o 128
    s.vecPut vd (bytesNat bs) 0#5

def execBufst (buf : Buf) (vs : VReg) (rs1 : XReg) (s : State) : Out :=
  s.commit do
    let a ← s.xr rs1
    let d ← s.vr vs
    let o ← bufOffset buf a
    let m ← granWrite (s.myCore.buf buf) s.me.gen o (vecBytes 128 d)
    let s := if buf = .c then cStore s (coreOf s.cur) o (vecBytes 128 d) else s
    return (s.modMyCore fun c => c.setBuf buf m).retire

/-! ## Synchronising loads (R214-R216) -/

/-- FE_UNSUP outside near memory and LPDDR-6 (R185; log 9). -/
def feOk (s : State) (p : Phys) (va : Word) : Except Trap Unit := need (s.hasFe p.pa) cFE_UNSUP va

/-- POISON where the line of an access is poisoned. -/
def noPoison (s : State) (p : Phys) (va : Word) : Except Trap Unit := need (!s.isPoison p.pa) cPOISON va

/-- `ld.s` and `ld.se`: the word taken at its home when it is full, and then emptied by `ld.se`; else the
slot waits (R111). An acquire of device scope when it completes (R216). -/
def syncLoad (i : Instr) (clear : Bool) (rd rs1 : XReg) (s : State) : Except Trap State := do
  let a ← s.xr rs1
  need (aligned a 8) cMISALIGN a
  let (p, s) ← translate s s.agent a .r
  feOk s p a
  noPoison s p a
  let s := s.atHome s.agent p
  if s.isFull p.pa then
    let w := s.homeWord p
    let s ← s.setX rd w
    let s := (if clear then s.setEmpty p.pa else s).dropOld (coveOfSlot s.cur) (p.pa / 64)
    return ((s.acquireAt (coreOf s.cur) .dv).stallFor (tierClk (s.tier p.pa))).retire
  else
    let _ ← s.setX rd 0#64
    return s.holdOn .sync i a

def execLdS (rd rs1 : XReg) (s : State) : Out := s.commit (syncLoad (.ldS rd rs1) false rd rs1 s)

def execLdSe (rd rs1 : XReg) (s : State) : Out := s.commit (syncLoad (.ldSe rd rs1) true rd rs1 s)

/-- The words of a `vld.s` found full now join those taken. -/
def takeWords (s : State) (a : Word) : List Nat → Except Trap State
  | [] => .ok s
  | j :: r => do
    let va := a + w64 (8 * j)
    let (p, s) ← translate s s.agent va .r
    feOk s p va
    noPoison s p va
    let s := (s.atHome s.agent p).dropOld (coveOfSlot s.cur) (p.pa / 64)
    let s := if s.isFull p.pa && (AMap.get? s.me.taken j).isNone then
        let w := s.homeWord p
        s.modMe fun v => { v with taken := AMap.set v.taken j w }
      else s
    takeWords (s.stallFor (tierClk (s.tier p.pa))) a r

def execVldS (vd : VReg) (rs1 : XReg) (s : State) : Out :=
  s.commit do
    let a ← s.xr rs1
    need (aligned a 128) cMISALIGN a
    -- a wait that goes on keeps the words it has taken
    let s := match s.me.wait with
      | .resume .sync .. => s
      | _ => s.modMe fun v => { v with taken := [] }
    let s ← takeWords s a (List.range 16)
    let t := s.me.taken
    if t.length = 16 then
      let s ← s.vecPut vd (bytesNat (t.flatMap fun q => natBytes 8 q.2.toNat)) 0#5
      return (s.acquireAt (coreOf s.cur) .dv).modMe fun v => { v with taken := [] }
    else
      let _ ← s.setV vd 0#1024
      return s.holdOn .sync (.vldS vd rs1) a

/-- `fe.set` and `fe.clr` (R217): a release of device scope, then the word's bit at its home. -/
def feStep (full : Bool) (rs1 : XReg) (s : State) : Except Trap State := do
  let a ← s.xr rs1
  need (aligned a 8) cMISALIGN a
  let (p, s) ← translate s s.agent a .w
  feOk s p a
  noPoison s p a
  let s := (s.releaseAt (coreOf s.cur) .dv).atHome s.agent p
  return (if full then s.setFull p.pa else s.setEmpty p.pa).retire

def execFeSet (rs1 : XReg) (s : State) : Out := s.commit (feStep true rs1 s)

def execFeClr (rs1 : XReg) (s : State) : Out := s.commit (feStep false rs1 s)

/-! ## Acquire loads and release stores (R218) -/

def execLdAcq (sz : Size) (sc : Scope) (rd rs1 : XReg) (s : State) : Out :=
  s.commit do
    let a ← s.xr rs1
    let n := Size.bytes sz
    need (aligned a n) cMISALIGN a
    let (bs, s) ← s.load a n
    let s ← s.setX rd (sext (8 * n) (bytesWord bs))
    return (s.acquireAt (coreOf s.cur) sc).retire

def execStRel (sz : Size) (sc : Scope) (rs2 rs1 : XReg) (s : State) : Out :=
  s.commit do
    let a ← s.xr rs1
    let b ← s.xr rs2
    let n := Size.bytes sz
    need (aligned a n) cMISALIGN a
    let (p, s) ← xlat s s.agent a .w
    let s := s.releaseAt (coreOf s.cur) sc
    return (s.coreWrite (coreOf s.cur) p (vecBytes n b)).retire

/-! ## Tides (R224-R228) -/

/-- The tide region of a tide instruction's address; PERM outside every one (R225). -/
def tideRegion (s : State) (p : Phys) (va : Word) : Except Trap (Nat × Nat × Tide) :=
  match p.tide with
  | none => fail cPERM va
  | some (v, e) =>
    match AMap.get? (s.tenant v).tides e with
    | none => fail cPERM va
    | some t => .ok (v, e, t)

/-- An arrival at a region's home (R225). -/
def Tide.arrive (t : Tide) : Tide :=
  if t.count + 1 = t.p.toNat then
    { t with count := 0, t := if t.t = BitVec.allOnes 48 then t.t else t.t + 1#48 }
  else { t with count := t.count + 1 }

def State.tideArrive (s : State) (v e : Nat) (t : Tide) : State :=
  s.modTenant v fun n => { n with tides := AMap.set n.tides e t.arrive }

def execTideAdv (rs1 : XReg) (s : State) : Out :=
  s.commit do
    let a ← s.xr rs1
    let (p, s) ← translate s s.agent a .w
    let (v, e, t) ← tideRegion s p a
    return ((s.releaseAt (coreOf s.cur) .dv).tideArrive v e t).retire

def execTideRd (rd rs1 : XReg) (s : State) : Out :=
  s.commit do
    let a ← s.xr rs1
    let (p, s) ← translate s s.agent a .r
    let (_, _, t) ← tideRegion s p a
    let s ← s.setX rd (t.t.setWidth 64)
    return (s.stallFor (tierClk (s.tier p.pa))).retire

/-- The floor of a bounded load (R227). -/
def tideFloor (c : Word) (b : BitVec 4) : Nat := fld c 47 0 - b.toNat

/-- The bytes of one 32-byte line or less from a copy stamped `f` or later, in the L1D or the cove L2. -/
def stampedCopy (s : State) (core : Nat) (p : Phys) (n f : Nat) : Option (List Byte) :=
  let l1 := (AMap.get? (s.core core).l1d (p.pa / 32)).bind fun l =>
    if f ≤ l.stamp then some (getBytes l.data (p.pa % 32) n) else none
  match l1 with
  | some bs => some (overlay (s.core core) p.pa bs)
  | none =>
    (AMap.get? (s.cove (coveOfCore core)).l2 (p.pa / 64)).bind fun l =>
      if f ≤ l.stamp then some (overlay (s.core core) p.pa (getBytes l.data (p.pa % 64) n)) else none

/-- A line refetched at the home: its copies in the cove L2 and the L1D replaced, stamped T (R227). -/
def refetch (s : State) (core : Nat) (p : Phys) : State :=
  if s.uncached p then s
  else
    let s := s.bringHome core p
    let line := p.pa / 64
    let t := s.tideT p.tide
    let n : L2Line := { data := insBytes 0#512 0 (s.homeRead (64 * line) 64), stamp := t, tide := p.tide }
    let cove := coveOfCore core
    let s := if (AMap.get? (s.cove cove).l2 line).isNone then s.l2Evict cove else s
    let s := { s with cores := dropL1d s.cores cove line }
    let s := s.modCove cove fun v => { v with l2 := AMap.set v.l2 line n }
    (s.l1dLine core p).2

/-- The places of a bounded load, each within one 32-byte line: all from copies, or all from the home, or
a wait for the tide. `none` is the wait. -/
def boundedRead (s : State) (n f : Nat) (ps : List Phys) : Option (List (List Byte) × State) :=
  let core := coreOf s.cur
  match ps.mapM fun p => stampedCopy s core p n f with
  | some bss => some (bss, s)
  | none =>
    if ps.any fun p => s.tideT p.tide < f then none
    else
      let s := ps.foldl (fun s p => refetch s core p) s
      let s := ps.foldl (fun s p => s.stallFor (tierClk (s.tier p.pa))) s
      some (ps.foldl (fun (acc : List (List Byte) × State) p =>
        let (bs, t) := acc.2.coreRead core p n
        (acc.1 ++ [bs], t)) ([], s))

/-- The time in ns at which the issuing slot's wait began: now, where none is resumed. -/
def State.waitStart (s : State) : Nat := s.me.waitSince s.now

/-- The wait of a bounded load, with its limit (R227): after it, the load faults TIDE_TMO. -/
def tideHold (s : State) (i : Instr) (a : Word) : State :=
  let t := s.holdOn .tide i a
  if s.me.user.tmo = 0#48 then t
  else
    (t.dropDuties fun w => w.work == .ev (.tideTmo s.cur)).after (s.clkUntil (s.waitStart + s.me.user.tmo.toNat + 1))
      (.tideTmo s.cur)

/-- A bounded load that waited and whose address now lies in no region is refetched at its home (R224). -/
def State.lapsed (s : State) (ps : List Phys) : State :=
  match s.me.wait with
  | .resume .tide .. => ps.foldl (fun s p => refetch s (coreOf s.cur) p) s
  | _ => s

def execLdB (dbl : Bool) (b : BitVec 4) (rd rs1 rs2 : XReg) (s : State) : Out :=
  s.commit do
    let a ← s.xr rs1
    let c ← s.xr rs2
    let n := if dbl then 8 else 4
    need (aligned a n) cMISALIGN a
    let (p, s) ← xlat s s.agent a .r
    if b = 15#4 ∨ p.tide = none then
      let (bs, s) := (s.lapsed [p]).coreRead (coreOf s.cur) p n
      let s ← s.setX rd (sext (8 * n) (bytesWord bs))
      return s.retire
    else
      match boundedRead s n (tideFloor c b) [p] with
      | some (bss, s) =>
        let s ← s.setX rd (sext (8 * n) (bytesWord bss.flatten))
        return s.retire
      | none =>
        let _ ← s.setX rd 0#64
        return tideHold s (.ldB dbl b rd rs1 rs2) a

def execVldB (b : BitVec 4) (vd : VReg) (rs1 rs2 : XReg) (s : State) : Out :=
  s.commit do
    let a ← s.xr rs1
    let c ← s.xr rs2
    need (aligned a 128) cMISALIGN a
    let (ps, s) ← checkAll s .r 32 ((List.range 4).map fun i => a + w64 (32 * i))
    if b = 15#4 ∨ ps.all (fun p => p.tide == none) then
      let (es, s) := readAll (s.lapsed ps) 32 ps
      s.vecPut vd (bytesNat (es.flatMap (natBytes 32))) 0#5
    else
      match boundedRead s 32 (tideFloor c b) ps with
      | some (bss, s) => s.vecPut vd (bytesNat bss.flatten) 0#5
      | none =>
        let _ ← s.setV vd 0#1024
        return tideHold s (.vldB b vd rs1 rs2) a

/-! ## Prefetch (R229) -/

/-- A line of a prefetch brought to the L1D or the cove L2; what cannot be read is skipped. -/
def prefLine (l2 : Bool) (s : State) (va : Word) : State :=
  match xlat s s.agent va .r with
  | .error _ => s
  | .ok (p, s) =>
    if s.uncached p || !s.hasFe p.pa then s
    else if l2 then (s.l2Line (coveOfSlot s.cur) p).2 else (s.l1dLine (coreOf s.cur) p).2

/-- The lines of `n` bytes from an address. -/
def linesFrom (a : Word) (n : Nat) : List Word :=
  if n = 0 then [] else (List.range ((a.toNat % 32 + n - 1) / 32 + 1)).map fun k => (a &&& ~~~31#64) + w64 (32 * k)

/-- A register as `pref` reads it: it never faults (R229; log 9). -/
def State.quietX (s : State) (r : XReg) : Word := match s.xr r with | .ok w => w | .error _ => 0#64

def execPref (l2 : Bool) (_w : Bool) (rs1 rs2 : XReg) (s : State) : Out :=
  let a := s.quietX rs1
  let n := min (s.quietX rs2).toNat 65536
  let t := (linesFrom a n).foldl (prefLine l2) s
  .next (({ t with stall := s.stall, walked := s.walked } : State).retire)

end Sys2Proof.Machine
end

