-- ==== Sys2Proof/Machine/Locks.lean ====
section
/-! DEFINITION. Memory locks at their home ports (R255-R259): the lock word, the tables, grants, withdrawal, and
the end of a generation. -/

namespace Sys2Proof.Machine

/-- A held lock's word (R255). -/
def lockWord (slot : Nat) (g : Gen) : Word := w64 (2 ^ 63 + slot * 2 ^ 16 + g.toNat)

/-- The word of a lock left by an ended generation. -/
def lockAbandoned : Word := w64 (2 ^ 62)

/-- Waiters a port holds, and its capacities (R259). -/
def Port.waiters (p : Port) : Nat := p.fifo.foldl (fun n q => n + q.2.length) 0
def portWaiters : Nat := 2048
def portHeld : Nat := 4096

/-- The holder that a lock word describes: its bits and the home's table agree (R255). -/
def holderOf (p : Port) (pa : Nat) (w : Word) : Option Waiter :=
  match AMap.get? p.held pa with
  | some h => if w = lockWord h.slot h.gen then some h else none
  | none => none

/-- A lock word written at its home, every copy of its line invalidated. -/
def putLock (s : State) (pa : Nat) (w : Word) : State := s.homeWrite none pa (vecBytes 8 w)

/-- A waiter granted a lock (R257): its `lk.take` completes with a status, an acquire at its scope, and its
slot rejoins after the home's latency. -/
def grantLock (s : State) (w : Waiter) (status : Nat) (clks : Nat) : State :=
  match (s.slot w.slot).wait with
  | .hold .lock (.lkTake sc rd _) _ _ =>
    let s := s.modSlot w.slot fun v =>
      let v := (if rd = 0#5 then v else v.putX rd { val := w64 status, gen := v.gen }).goto (v.pc + 4#64)
      { v with wait := .done .lock, task := v.task.map fun t => { t with locks := t.locks + 1 } }
    (s.acquireAt (coreOf w.slot) sc).after clks (.lockGranted w.slot)
  | _ => s

/-- A lock passes to the head of its queue with a status; none waiting leaves `free` in the word. -/
def passLock (s : State) (port pa : Nat) (status : Nat) (free : Word) : State :=
  let p := s.port port
  match AMap.getD p.fifo pa [] with
  | [] => putLock (s.setPort port { p with held := AMap.del p.held pa, fifo := AMap.del p.fifo pa }) pa free
  | w :: r =>
    let s := s.setPort port { p with held := AMap.set p.held pa w, fifo := AMap.put [] p.fifo pa r }
    grantLock (putLock s pa (lockWord w.slot w.gen)) w status (tierClk (s.tier pa))

/-- A slot's waiting entries withdrawn from every queue. -/
def withdrawWaits (s : State) (gone : Waiter → Bool) : State :=
  { s with ports := AMap.mapV s.ports fun _ p =>
      { p with fifo := (AMap.mapV p.fifo fun _ l => l.filter fun w => !gone w).filter fun q => !q.2.isEmpty } }

/-- Locks of a port released: each held one that satisfies `gone` passes on as abandoned. -/
def releaseHeld (s : State) (port : Nat) (gone : Waiter → Bool) : State :=
  ((s.port port).held.filter fun q => gone q.2).foldl (fun s q => passLock s port q.1 1 lockAbandoned) s

/-- GENERATION_END (R259): waiters of the generation are withdrawn from every queue, then its locks are
released. The numbers its allocation got from `gen.new` stop being live (R191). -/
def endGeneration (s : State) (g : Gen) : State :=
  let s := withdrawWaits s fun w => w.gen == g
  let s := (AMap.keys s.ports).foldl (fun s k => releaseHeld s k fun w => w.gen == g) s
  s.modMgmt fun m => { m with genNews := m.genNews.filter fun p => p.2 != g }

/-- A generation with locks, waiters or `gen.new` numbers that has stopped being live (R191, R259). -/
def deadGen (s : State) : Option Gen :=
  let used := (s.ports.flatMap fun p => p.2.held.map (fun q => q.2.gen) ++ p.2.fifo.flatMap fun q => q.2.map (·.gen))
    ++ s.mgmt.genNews.map (·.2)
  used.find? fun g => !s.liveGens.contains g

end Sys2Proof.Machine
end

