-- ==== Sys2Proof/Machine/Atomics.lean ====
section
/-! DEFINITION. The atomic family, `fence.sc` and the memory locks of a slot (R250-R258). -/

namespace Sys2Proof.Machine

/-! ## Atomics (R252) -/

/-- The operations of the family (R44, R260). -/
inductive AmoOp where
  | add | and | or | xor | min | max | minu | maxu | swap | cas | fadd
  deriving DecidableEq, Repr

/-- The new value of `n` bytes for the old one, the operand and the expected value; none where nothing is
written; and the flags of `fadd`. -/
def amoNew (op : AmoOp) (n : Nat) (old v e : Nat) : Option Nat × NxFlags :=
  let w := 8 * n
  match op with
  | .add => (some ((old + v) % 2 ^ w), 0#5)
  | .and => (some (old &&& v), 0#5)
  | .or => (some (old ||| v), 0#5)
  | .xor => (some (old ^^^ v), 0#5)
  | .min => (some (if intOf w v < intOf w old then v else old), 0#5)
  | .max => (some (if intOf w old < intOf w v then v else old), 0#5)
  | .minu => (some (Nat.min old v), 0#5)
  | .maxu => (some (Nat.max old v), 0#5)
  | .swap => (some v, 0#5)
  | .cas => (if old = e then some v else none, 0#5)
  | .fadd =>
    let r := fpAdd .fp32 .rne {} (Fmt.value .fp32 old) (Fmt.value .fp32 v)
    (some r.1, r.2)

def AmoOrd.acquires : AmoOrd → Bool
  | .acq | .ar => true
  | _ => false

def AmoOrd.releases : AmoOrd → Bool
  | .rel | .ar => true
  | _ => false

/-- PERM for what takes no read-modify-write (R251): host-shared pages, host memory, the register
window. -/
def rmwOk (s : State) (p : Phys) (va : Word) : Except Trap Unit := need (!s.uncached p) cPERM va

/-- The time of an atomic (R268). -/
def amoClk (s : State) (sc : Scope) (p : Phys) : Nat :=
  match sc with
  | .th | .cv => Config.l2Clk
  | _ => tierClk (s.tier p.pa)

/-- One action at the ALU: the old value, and the new one written. -/
def amoAt (s : State) (ag : Agent) (p : Phys) (op : AmoOp) (n v e : Nat) : Nat × NxFlags × State :=
  let s := s.atHome ag p
  let old := bytesNat (s.homeRead p.pa n)
  let (new, fl) := amoNew op n old v e
  (old, fl, match new with | some w => s.putHome ag p (natBytes n w) | none => s)

/-- An atomic of a slot (R252, R253). -/
def amoStep (op : AmoOp) (o : AmoOrd) (dbl : Bool) (sc : Scope) (rd rs1 rs2 : XReg) (s : State) :
    Except Trap State := do
  let n := if dbl then 8 else 4
  let core := coreOf s.cur
  let a ← s.xr rs1
  let v ← s.xr rs2
  let e ← if op = .cas then s.xr rd else .ok 0#64
  need (aligned a n) cMISALIGN a
  let (p, s) ← translate s s.agent a .w
  rmwOk s p a
  noPoison s p a
  let s := if AmoOrd.releases o then s.releaseAt core sc else s
  let (old, fl, s) := amoAt s s.agent p op n (v.toNat % 2 ^ (8 * n)) (e.toNat % 2 ^ (8 * n))
  let s ← (s.dropLine core p).setX rd (sext (8 * n) (w64 old))
  let s := if AmoOrd.acquires o then s.acquireAt core sc else s
  let s := s.modMe fun t => { t with user := { t.user with nxflags := t.user.nxflags ||| fl } }
  return s.retireFor .amo (amoClk s sc p) (.amoComplete s.cur)

def execAmoAdd (o : AmoOrd) (dbl : Bool) (sc : Scope) (rd rs1 rs2 : XReg) (s : State) : Out :=
  s.commit (amoStep .add o dbl sc rd rs1 rs2 s)

def execAmoAnd (o : AmoOrd) (dbl : Bool) (sc : Scope) (rd rs1 rs2 : XReg) (s : State) : Out :=
  s.commit (amoStep .and o dbl sc rd rs1 rs2 s)

def execAmoOr (o : AmoOrd) (dbl : Bool) (sc : Scope) (rd rs1 rs2 : XReg) (s : State) : Out :=
  s.commit (amoStep .or o dbl sc rd rs1 rs2 s)

def execAmoXor (o : AmoOrd) (dbl : Bool) (sc : Scope) (rd rs1 rs2 : XReg) (s : State) : Out :=
  s.commit (amoStep .xor o dbl sc rd rs1 rs2 s)

def execAmoMin (o : AmoOrd) (dbl : Bool) (sc : Scope) (rd rs1 rs2 : XReg) (s : State) : Out :=
  s.commit (amoStep .min o dbl sc rd rs1 rs2 s)

def execAmoMax (o : AmoOrd) (dbl : Bool) (sc : Scope) (rd rs1 rs2 : XReg) (s : State) : Out :=
  s.commit (amoStep .max o dbl sc rd rs1 rs2 s)

def execAmoMinu (o : AmoOrd) (dbl : Bool) (sc : Scope) (rd rs1 rs2 : XReg) (s : State) : Out :=
  s.commit (amoStep .minu o dbl sc rd rs1 rs2 s)

def execAmoMaxu (o : AmoOrd) (dbl : Bool) (sc : Scope) (rd rs1 rs2 : XReg) (s : State) : Out :=
  s.commit (amoStep .maxu o dbl sc rd rs1 rs2 s)

def execAmoSwap (o : AmoOrd) (dbl : Bool) (sc : Scope) (rd rs1 rs2 : XReg) (s : State) : Out :=
  s.commit (amoStep .swap o dbl sc rd rs1 rs2 s)

def execAmoCas (o : AmoOrd) (dbl : Bool) (sc : Scope) (rd rs1 rs2 : XReg) (s : State) : Out :=
  s.commit (amoStep .cas o dbl sc rd rs1 rs2 s)

/-- `fadd` is of 32 bits (R44). -/
def execAmoFadd (o : AmoOrd) (sc : Scope) (rd rs1 rs2 : XReg) (s : State) : Out :=
  s.commit (amoStep .fadd o false sc rd rs1 rs2 s)

/-! ## Fences (R254) -/

/-- `fence.sc`: the release, the acquire, or both; at `.th` nothing. -/
def execFenceSc (k : FenceKind) (sc : Scope) (s : State) : Out :=
  let c := coreOf s.cur
  .next (match k with
    | .acq => (s.acquireAt c sc).retire
    | .rel => (s.releaseAt c sc).retire
    | .ar => ((s.releaseAt c sc).acquireAt c sc).retire)

/-! ## Locks (R256-R258) -/

/-- The checks of a lock instruction and the word's place. -/
def lockAddr (rs1 : XReg) (s : State) : Except Trap (Word × Phys × State) := do
  let a ← s.xr rs1
  need (aligned a 8) cMISALIGN a
  let (p, s) ← translate s s.agent a .w
  need (s.hasFe p.pa && !p.hs) cPERM a
  noPoison s p a
  return (a, p, s)

/-- The task holds `d` more, or fewer, locks. -/
def State.countLocks (s : State) (f : Nat → Nat) : State :=
  s.modMe fun v => { v with task := v.task.map fun t => { t with locks := f t.locks } }

def execLkTake (sc : Scope) (rd rs1 : XReg) (s : State) : Out :=
  s.commit do
    let (a, p, s) ← lockAddr rs1 s
    let port := homePort s.fit p.pa
    let s := s.atHome s.agent p
    let w := s.homeWord p
    let pt := s.port port
    let me : Waiter := { slot := s.cur, gen := s.me.gen }
    let clks := tierClk (s.tier p.pa)
    match holderOf pt p.pa w with
    | some h =>
      if h = me then fail cLOCK a
      else if portWaiters ≤ pt.waiters then
        let s ← s.setX rd 2#64
        return (s.stallFor clks).retire
      else
        let _ ← s.setX rd 0#64
        let s := s.setPort port { pt with fifo := AMap.set pt.fifo p.pa (AMap.getD pt.fifo p.pa [] ++ [me]) }
        return s.holdOn .lock (.lkTake sc rd rs1) a
    | none =>
      if portHeld ≤ pt.held.length then
        let s ← s.setX rd 2#64
        return (s.stallFor clks).retire
      else
        let s := putLock (s.setPort port { pt with held := AMap.set pt.held p.pa me }) p.pa (lockWord me.slot me.gen)
        let s ← ((s.dropLine (coreOf s.cur) p).acquireAt (coreOf s.cur) sc).setX rd (w64 (fld w 62 62))
        return ((s.countLocks (· + 1)).stallFor clks).retire

def execLkGive (sc : Scope) (rs1 : XReg) (s : State) : Out :=
  s.commit do
    let (a, p, s) ← lockAddr rs1 s
    let port := homePort s.fit p.pa
    let s := (s.releaseAt (coreOf s.cur) sc).atHome s.agent p
    let me : Waiter := { slot := s.cur, gen := s.me.gen }
    need (holderOf (s.port port) p.pa (s.homeWord p) == some me) cLOCK a
    let s := passLock (s.dropLine (coreOf s.cur) p) port p.pa 0 0#64
    return (s.countLocks (· - 1)).retire

end Sys2Proof.Machine
end

