-- ==== Sys2Proof/Machine/NodeInfo.lean ====
section
/-! DEFINITION. What the node tables say of each node: its fields, class, required slots, expected and output
tags and latency (R52, R53, R57, R297, R305, R310, R311, R323, R353, R377, R383, R409). -/

namespace Sys2Proof.Machine

/-- A node's fields; none for what is no node. -/
def nodeOf : Instr → Option GNode
  | .gAdd n | .gSub n | .gMul n | .gMulh n | .gDiv n | .gRem n | .gAnd n | .gOr n | .gXor n | .gShl n
  | .gShr n | .gSra n | .gMin n | .gMax n | .gTlt n | .gTle n | .gTeq n | .gTne n | .gTltu n | .gTleu n
  | .gFadd n | .gFsub n | .gFmul n | .gFfma n | .gFmin n | .gFmax n | .gFdiv n | .gFsqrt n | .gFrcp n
  | .gFexp2 n | .gFlog2 n | .gFlt n | .gFle n | .gFeq n | .gCvt n | .gQcvt n | .gDq n | .gRng n
  | .gMov n | .gMovi n | .gFrd n | .gFwr n | .gNull n | .gSteer n | .gMerge n | .gOmerge n | .gBro n
  | .gCall n | .gRet n | .gCcall n | .gTrap n | .gInx n | .gFnew n | .gFfree n | .gTget n | .gTset n
  | .gPurge n | .gLd n | .gSt n | .gLdb n | .gLda n | .gStrl n | .gIrd n | .gIwr n | .gFence n
  | .gPref n | .gAmo n | .gLkt n | .gLkg n | .gMcomb n | .gPost n | .gGat n | .gSct n | .gCpy n
  | .gTadv n | .gProbe n | .gRec n | .gSgen n | .gRpt n | .gCnt n | .gCtok n | .gDly n | .gMxp n
  | .gFin n | .gTnow n | .gTgate n => some n
  | _ => none

/-- The fields of a node, all zero where there are none. -/
def fieldsOf (i : Instr) : GNode := (nodeOf i).getD default

/-- A valid target's instruction index and operand slot (R52). -/
def target (t : BitVec 10) : Option (Nat × Nat) := if bitAt t 9 then some (fld t 6 0, fld t 8 7) else none

/-- The store-type nodes of R57: they share the LSID space and count toward the commit. -/
def isStore : Instr → Bool
  | .gSt _ | .gStrl _ | .gIwr _ | .gAmo _ | .gSct _ => true
  | _ => false

/-- The load-type nodes (R340). -/
def isLoad : Instr → Bool
  | .gLd _ | .gLdb _ | .gLda _ | .gIrd _ => true
  | _ => false

/-- A node's LSID, IMM[17:13] of the memory class and the engine nodes. -/
def lsidOf (i : Instr) : Nat := (fieldsOf i).immField 17 13

/-- Where a node's effect stands in the commit of its instance (R307): by LSID, frame writes after the
stores, what ends the context last. -/
def commitRank : Instr → Nat
  | .gFwr _ => 32
  | .gPurge _ | .gTset _ => 33
  | .gCall _ | .gCcall _ => 34
  | .gFfree _ => 35
  | .gRet _ => 36
  | i => lsidOf i

/-- Nodes of the divide and function unit (R304, R305). -/
def usesDiv : Instr → Bool
  | .gDiv _ | .gRem _ | .gFdiv _ | .gFsqrt _ | .gFrcp _ | .gFexp2 _ | .gFlog2 _ => true
  | _ => false

/-- Latency from firing to result (R107, R305, R353, R383); memory nodes add their access. -/
def nodeClk : Instr → Nat
  | .gMul _ => 3
  | .gMulh _ => 4
  | .gDiv n | .gRem n => if n.fmt = .int then 20 else 12
  | .gFmin _ | .gFmax _ | .gFlt _ | .gFle _ | .gFeq _ => 2
  | .gFadd _ | .gFsub _ | .gFmul _ | .gFfma _ => 4
  | .gFdiv _ | .gFsqrt _ => 16
  | .gFrcp _ | .gFexp2 _ | .gFlog2 _ => 10
  | .gCvt _ | .gQcvt _ | .gDq _ => 2
  | .gRng _ => 3
  | .gFnew _ | .gLd _ | .gLda _ | .gLdb _ | .gIrd _ | .gDly _ => 2
  | _ => 1

/-- IV of the integer and test nodes (R53). -/
def ivOf : Instr → Bool
  | .gAdd n | .gSub n | .gMul n | .gMulh n | .gDiv n | .gRem n | .gAnd n | .gOr n | .gXor n
  | .gShl n | .gShr n | .gSra n | .gMin n | .gMax n | .gTlt n | .gTle n | .gTeq n | .gTne n
  | .gTltu n | .gTleu n => bitAt n.imm 17
  | _ => false

/-- A node's left and right slots that a firing from the matching store requires (R297, R311, R377); `a` on an
A-cell. -/
def needsLR (a : Bool) (i : Instr) : Bool × Bool :=
  match i with
  | .gFsqrt _ | .gFrcp _ | .gFexp2 _ | .gFlog2 _ | .gCvt _ | .gRng _ | .gMov _ | .gMovi _ | .gFrd _
  | .gFwr _ | .gNull _ | .gBro _ | .gRet _ | .gTrap _ | .gInx _ | .gFnew _ | .gFfree _ | .gTget _
  | .gPurge _ | .gLd _ | .gLda _ | .gIrd _ | .gFence _ | .gLkt _ | .gLkg _ | .gPost _ | .gGat _
  | .gSct _ | .gCpy _ | .gTadv _ | .gCnt _ | .gTnow _ => (true, false)
  | .gMerge _ | .gOmerge _ | .gRpt _ | .gCtok _ | .gFin _ => (false, false)
  | .gSgen _ => (a, false)
  | .gDly n => (true, n.immField 17 16 == 1)
  | .gMxp n => (n.immField 17 16 != 2, false)
  | i => (true, !ivOf i)

/-- The slots a firing waits for, as left, right, predicate. -/
def needs (a : Bool) (i : Instr) : List Bool :=
  let (l, r) := needsLR a i
  [l, r, (fieldsOf i).pred != .none]

/-- The format tag a slot expects (R99, R311); none: any tag. Addresses and descriptor addresses carry tag
0. -/
def slotTag (i : Instr) (dop : Nat) : Option Fmt :=
  let n := fieldsOf i
  if n.any || dop = 2 then none
  else if dop = 0 then
    match i with
    | .gMovi _ | .gFrd _ | .gNull _ | .gFence _ | .gTnow _ => none
    | .gSgen _ | .gLd _ | .gLda _ | .gLdb _ | .gSt _ | .gStrl _ | .gIrd _ | .gIwr _ | .gPref _ | .gAmo _
    | .gLkt _ | .gLkg _ | .gMcomb _ | .gGat _ => some .int
    | _ => some n.fmt
  else
    match i with
    | .gSteer _ | .gTset _ => none
    | .gQcvt _ | .gDq _ | .gTgate _ => some .int
    | _ => some n.fmt

/-- The tag a body slot of a stream block expects: the third slot of `ffma` takes its format, that of `dly` its marks of
tag 0 (R354, R357, R368). -/
def bodyTag (i : Instr) (dop : Nat) : Option Fmt :=
  if dop = 2 && !(fieldsOf i).any then
    match i with
    | .gFfma n => some n.fmt
    | .gDly _ => some .int
    | _ => none
  else slotTag i dop

/-- The tag of the tokens a node produces, from its left token's (R311, R325-R337). -/
def outTag (i : Instr) (l : Fmt) : Fmt :=
  match i with
  | .gMov _ | .gSteer _ | .gMerge _ | .gOmerge _ | .gBro _ | .gInx _ | .gTset _ | .gTgate _ | .gDly _
  | .gMxp _ => l
  | .gTlt _ | .gTle _ | .gTeq _ | .gTne _ | .gTltu _ | .gTleu _ | .gFlt _ | .gFle _ | .gFeq _ => .int
  | .gCvt n | .gQcvt n | .gDq n => n.dstFmt
  | i => (fieldsOf i).fmt

end Sys2Proof.Machine
end

