-- ==== Sys2Proof/Machine/Graph.lean ====
section
/-! DEFINITION. The fabric of a region: blocks and cells (R55, R56, R450), tokens on their way (R304), firings
(R297, R302), instances in commit order (R293-R295), lock tokens of M-cells (R262-R265), squashes (R309),
faults held until they are reported (R418), and the end of a context (R333). -/

namespace Sys2Proof.Machine

/-! ## Blocks (R55, R56, R451) -/

def Block.stream (b : Block) : Bool := bitAt b.hdr 0
def Block.unordered (b : Block) : Bool := bitAt b.hdr 1 || b.urg
def Block.fw (b : Block) : Nat := fld b.hdr 3 2 + 1
def Block.fh (b : Block) : Nat := fld b.hdr 5 4 + 1
def Block.ninst (b : Block) : Nat := fld b.hdr 13 6 + 1
def Block.throttle (b : Block) : Nat := fld b.hdr 21 14 + 1
def Block.fwcnt (b : Block) : Nat := fld b.hdr 29 22
def Block.stmask (b : Block) : Nat := fld b.hdr 63 32

/-- The footprint cell number of a node, and its cell within the region. -/
def Block.cellNo (b : Block) (i : Nat) : Nat := b.place.getD i 0
def Block.cellXY (b : Block) (c : Nat) : Nat × Nat := (b.box + c % 4, b.boy + c / 4)
def Block.at (b : Block) (i : Nat) : Nat × Nat := b.cellXY (b.cellNo i)

/-- The footprint cell numbers, commit cell first. -/
def Block.cells (b : Block) : List Nat :=
  (List.range 16).filter fun c => c % 4 < b.fw && c / 4 < b.fh

def Block.covers (b : Block) (x y : Nat) : Bool :=
  b.box ≤ x && x < b.box + b.fw && b.boy ≤ y && y < b.boy + b.fh

/-- A node of the block's image. -/
def Block.node (b : Block) (i : Nat) : Option Instr :=
  if i < b.ninst then okOnly (decodeG (b.words.getD i 0#64)) else none

/-- The nodes of the block with their indices. -/
def Block.nodes (b : Block) : List (Nat × Instr) :=
  (List.range b.ninst).filterMap fun i => (b.node i).map (i, ·)

/-- A node's entry within its cell (R56). -/
def Block.rank (b : Block) (i : Nat) : Nat := ((List.range i).filter fun j => b.cellNo j == b.cellNo i).length

def Region.block (rg : Region) (n : Nat) : Block := AMap.getD rg.blocks n {}

/-- The block whose table entry records a slot of a cell. -/
def Region.blockAt (rg : Region) (x y slot : Nat) : Option Nat :=
  (rg.blocks.find? fun p => p.2.held && p.2.slot == slot && p.2.covers x y).map (·.1)

/-- A region's acting generation and mode (R188). -/
def Region.gen (rg : Region) : Gen := handleGen rg.handle
def Region.trap (rg : Region) : Bool := handleMode rg.handle

/-- The key of a region's cell. -/
def State.cellOf (s : State) (rk : RKey) (x y : Nat) : Nat := cellAt (s.region rk).handle x y

/-- The region's cells, row-major, by their position. -/
def Region.xys (rg : Region) : List (Nat × Nat) :=
  (List.range (handleH rg.handle)).flatMap fun y => (List.range (handleW rg.handle)).map fun x => (x, y)

/-- A cell of the region is marked UNUSED. -/
def Region.isUnused (rg : Region) (x y : Nat) : Bool := rg.unused.contains (cellKey x y)

/-- A node read from its cell's instruction store (R183, R189). -/
def State.fetchNode (s : State) (rk : RKey) (blk idx : Nat) : Except Trap Instr :=
  let rg := s.region rk
  let b := rg.block blk
  let (x, y) := b.at idx
  match granRead (s.cell (s.cellOf rk x y)).store rg.gen rg.trap (64 * b.slot + 8 * b.rank idx) 8 with
  | .error t => .error t
  | .ok bs =>
    match decodeG (bytesWord bs) with
    | .ok i => .ok i
    | .error _ => .error { cause := cILLEGAL, tval := w64 idx }

/-! ## Stream blocks (R356) -/

/-- A per-step source. -/
def isSource : Instr → Bool
  | .gSgen n => n.immField 17 16 != 2
  | .gDly _ => true
  | .gMxp n => n.immField 17 16 == 2
  | _ => false

/-- A body node in every case. -/
def alwaysBody : Instr → Bool
  | .gSgen n => n.immField 17 16 == 2
  | .gDly _ | .gMxp _ => true
  | _ => false

/-- The left slots of `cnt` and of an A-cell's `sgen` are configuration slots, whatever node feeds them. -/
def configSlot (nodes : List (Nat × Instr)) (t : Nat × Nat) : Bool :=
  t.2 == 0 && nodes.any fun p => p.1 == t.1 && (match p.2 with | .gCnt _ | .gSgen _ => true | _ => false)

/-- The nodes to whose other slots one of the given nodes sends. -/
def feeds (nodes : List (Nat × Instr)) (src : List Nat) : List Nat :=
  nodes.flatMap fun p =>
    if src.contains p.1 then
      ([(fieldsOf p.2).t0, (fieldsOf p.2).t1].filterMap target).filterMap fun t => if configSlot nodes t then none else some t.1
    else []

/-- The least set of nodes closed under `feeds`. -/
def closeFeeds (nodes : List (Nat × Instr)) : Nat → List Nat → List Nat
  | 0, b => b
  | k + 1, b =>
    match ((feeds nodes b).filter fun i => !b.contains i).eraseDups with
    | [] => b
    | l => closeFeeds nodes k (b ++ l)

/-- The body nodes of a stream block; a per-step source counts with its step. -/
def Block.bodies (b : Block) : List Nat :=
  if b.stream then
    let ns := b.nodes
    closeFeeds ns ns.length ((ns.filter fun p => isSource p.2 || alwaysBody p.2).map (·.1))
  else []

/-- A body slot: every slot of a body node but the left one of an A-cell `sgen` and of `cnt`. -/
def Block.bodySlot (b : Block) (i dop : Nat) : Bool :=
  b.stream && b.bodies.contains i &&
  match b.node i with
  | some (.gSgen _) => dop != 0
  | some (.gCnt _) => false
  | _ => true

/-! ## Tokens on their way (R304) -/

def dist (a b : Nat) : Nat := (a - b) + (b - a)

/-- Hops of a route; a target in the same cell counts as one. -/
def hops (a b : Nat × Nat) : Nat := max 1 (dist a.1 b.1 + dist a.2 b.2)

/-- A token for a node of a block. -/
def tokenFor (b : Block) (idx dop : Nat) (c : Ctx) (iter : BitVec 16) (pay : Word) (ft : Fmt) (act : Act) : Token :=
  let (x, y) := b.at idx
  { payload := pay, ftag := ft, ctx := c, iter := iter, dx := BitVec.ofNat 6 x, dy := BitVec.ofNat 6 y
    dslot := BitVec.ofNat 3 b.slot, didx := BitVec.ofNat 7 idx, dop := BitVec.ofNat 2 dop, act := act }

/-- The clk until the last token in flight from an instance to an operand has arrived: tokens of one arc keep
their order (R16, R358). -/
def State.arcClk (s : State) (rk : RKey) (t : Token) (src : Option IKey) : Nat :=
  s.duties.foldl (fun m d =>
    match d.work with
    | .ev (.tokenMatch rk' u src') =>
      if rk' = rk ∧ src' = src ∧ u.dx = t.dx ∧ u.dy = t.dy ∧ u.dslot = t.dslot ∧ u.didx = t.didx ∧ u.dop = t.dop then max m (d.due - s.clk) else m
    | _ => m) 0

/-- The link by which a token leaves a cell, along x and then along y: 0 within the cell, 1 west, 2 north, 3 east,
4 south. -/
def linkOut (a b : Nat × Nat) : Nat :=
  if b.1 < a.1 then 1 else if a.1 < b.1 then 3 else if b.2 < a.2 then 2 else if a.2 < b.2 then 4 else 0

/-- The link by which it arrives. -/
def linkIn (a b : Nat × Nat) : Nat :=
  if b.2 < a.2 then 4 else if a.2 < b.2 then 2 else if b.1 < a.1 then 3 else if a.1 < b.1 then 1 else 0

/-- The first clk from `n` on in which nothing leaves yet; `k` bounds the search. -/
def freeClk (busy : List Nat) : Nat → Nat → Nat
  | 0, n => n
  | k + 1, n => if busy.contains n then freeClk busy k (n + 1) else n

/-- A token leaves a cell after `lat` clk, in the first clk in which its link takes no other (R304). -/
def State.sendTok (s : State) (rk : RKey) (xy : Nat × Nat) (lat : Nat) (t : Token) (src : Option IKey) : State :=
  let to_ := (t.dx.toNat, t.dy.toNat)
  let key := s.cellOf rk xy.1 xy.2
  let out := linkOut xy to_
  let busy := (AMap.getD (s.cell key).sent out []).filter fun n => decide (s.clk ≤ n)
  let go := freeClk busy busy.length (max (s.clk + lat) (s.clk + s.arcClk rk t src - hops xy to_))
  let s := s.modCell key fun c => { c with sent := AMap.set c.sent out (go :: busy) }
  { s with duties := s.duties ++ [{ due := go + hops xy to_, work := .ev (.tokenMatch rk t src), link := linkIn xy to_ }] }

/-- The loop of an instance in a cell's slot changed. -/
def Cell.modLoop (c : Cell) (ik : IKey) (slot : Nat) (g : Loop → Loop) : Cell :=
  { c with loops := c.loops.map fun l => if l.ik = ik ∧ l.slot = slot then g l else l }

def Cell.loop? (c : Cell) (ik : IKey) (slot : Nat) : Option Loop :=
  c.loops.find? fun l => l.ik == ik && l.slot == slot

/-- A value appended to a body slot's queue (R358). -/
def Loop.push (l : Loop) (idx dop : Nat) (m : MTok) : Loop :=
  { l with queues := AMap.set l.queues (4 * idx + dop) (AMap.getD l.queues (4 * idx + dop) [] ++ [m]) }

/-- A firing's result sent to one target: the payload, and above it those of a wide value (R355). -/
def State.sendT (s : State) (f : Firing) (t : BitVec 10) (lat : Nat) (pay : List Word) (ft : Fmt) (act : Act)
    (c : Ctx) (iter : BitVec 16) : State :=
  match target t with
  | none => s
  | some (idx, dop) =>
    let b := (s.region f.rk).block f.ik.blk
    let tok := tokenFor b idx dop c iter (pay.headD 0#64) ft act
    let fits := act == .normal && match (b.node idx).bind fun i => bodyTag i dop with | some g => g == ft | none => true
    if f.body.isSome && b.at idx == (f.x, f.y) && b.bodySlot idx dop && fits then
      s.modCell (s.cellOf f.rk f.x f.y) fun c =>
        c.modLoop f.ik f.slot fun l => l.push idx dop { tok := tok, src := some f.ik, wide := pay.drop 1 }
    else s.sendTok f.rk (f.x, f.y) lat tok (some f.ik)

/-- A result sent to T0 and T1 under the firing's context and ITER, with the node's action (R302). -/
def State.sendOut (s : State) (f : Firing) (n : GNode) (lat : Nat) (pay : List Word) (ft : Fmt) : State :=
  (s.sendT f n.t0 lat pay ft n.act f.ik.ctx f.ik.iter).sendT f n.t1 lat pay ft n.act f.ik.ctx f.ik.iter

/-- Null tokens to T0 and T1 (R302). -/
def State.sendNull (s : State) (f : Firing) (n : GNode) (lat : Nat) (ft : Fmt) : State :=
  (s.sendT f n.t0 lat [0#64] ft .null f.ik.ctx f.ik.iter).sendT f n.t1 lat [0#64] ft .null f.ik.ctx f.ik.iter

/-- A count token to the commit cell (R306). -/
def State.sendCount (s : State) (f : Firing) (nul : Bool) : State :=
  let b := (s.region f.rk).block f.ik.blk
  s.after (1 + hops (f.x, f.y) (b.box, b.boy)) (.countToken f.rk f.ik f.idx nul)

/-- A firing is ready `d` clk from now; it starts when its cell begins it (R304). -/
def State.startFire (s : State) (d : Nat) (i : Instr) (f : Firing) : State :=
  { s with duties := s.duties ++ [{ due := s.clk + d, work := .node i f }] }

/-- A firing begun: its cell begins no other in this clk, and its divide unit is busy for the node's time (R304). -/
def State.beginFire (s : State) (i : Instr) (f : Firing) : State :=
  if f.began then s
  else
    s.modCell (s.cellOf f.rk f.x f.y) fun c =>
      { c with fireAt := some s.clk, divTo := if usesDiv i then s.clk + nodeClk i else c.divTo }

/-! ## Instances (R293-R295) -/

def Region.inst? (rg : Region) (ik : IKey) : Option Inst := rg.insts.find? fun i => i.ik == ik

def State.modInst (s : State) (rk : RKey) (ik : IKey) (g : Inst → Inst) : State :=
  s.modRegion rk fun rg => { rg with insts := rg.insts.map fun i => if i.ik = ik then g i else i }

/-- The older instance of a key, while it has not retired (R293). -/
def Region.byKey (rg : Region) (blk : Nat) (c : Ctx) (iter : BitVec 16) : Option Inst :=
  rg.insts.find? fun i => i.ik.blk == blk && i.ik.ctx == c && i.ik.iter == iter && !i.freed

/-- The instance takes a place in its context's order. -/
def Region.ordered (rg : Region) (i : Inst) : Bool := !(rg.block i.ik.blk).unordered

/-- ITER `a` before ITER `b`, modulo 2^16 within 32,768. -/
def iterBefore (a b : BitVec 16) : Bool := a != b && decide ((b - a).toNat < 32768)

/-- Commit order of two ordered instances of one context (R295). -/
def Inst.before (a b : Inst) : Bool :=
  if a.ik.iter ≠ b.ik.iter then iterBefore a.ik.iter b.ik.iter
  else if b.after.contains a.ik then true
  else if a.after.contains b.ik then false
  else if a.admitted && b.admitted then decide (a.adm < b.adm)
  else if a.admitted then true
  else if b.admitted then false
  else decide (a.ik.ser < b.ik.ser)

/-- Uncommitted ordered instances of the context before an instance. -/
def Region.earlier (rg : Region) (i : Inst) : List Inst :=
  if rg.ordered i then
    rg.insts.filter fun j => j.ik.ctx == i.ik.ctx && j.ik != i.ik && !j.committed && rg.ordered j && j.before i
  else []

def Region.later (rg : Region) (i : Inst) : List Inst :=
  if rg.ordered i then
    rg.insts.filter fun j => j.ik.ctx == i.ik.ctx && j.ik != i.ik && !j.committed && rg.ordered j && i.before j
  else []

def Region.isParked (rg : Region) (c : Ctx) : Bool := rg.parked.any fun p => p.ctx == c

/-- The instance's nodes may fire. -/
def Region.live (rg : Region) (ik : IKey) : Bool :=
  !rg.isParked ik.ctx && match rg.inst? ik with | some i => i.admitted | none => false

/-- An entry belongs to an instance. -/
def entryOf (rg : Region) (x y : Nat) (ik : IKey) (e : MEntry) : Bool :=
  e.ctx == ik.ctx && e.iter == some ik.iter && rg.blockAt x y e.slot == some ik.blk

/-- Flags joined to an instance (R92). DESIGN CHOICE (log 71): of a node that fires after its instance has committed they
join the committed instance and so reach no NXFLAGS word. -/
def State.addFlags (s : State) (f : Firing) (fl : BitVec 5) : State :=
  s.modInst f.rk f.ik fun i => { i with flags := i.flags ||| fl }

/-! ## Lock tokens of an M-cell (R262-R265) -/

/-- The M-cell's answer to a waiting node, a payload of tag 0, as it leaves the cell where it waits. -/
def answer (s : State) (mx my : Nat) (w : Waiting) (pay : Word) : State :=
  s.sendOut w.f (fieldsOf w.node) (hops (mx, my) (w.f.x, w.f.y)) [pay] .int

/-- A lock token leaves its holder: the next waiter gets it, or it stands free, marked if abandoned. -/
def lockPass (s : State) (mx my key tok : Nat) (abn : Bool) : State :=
  let c := s.cell key
  let l := AMap.getD c.locks tok {}
  match l.wait with
  | [] => s.setCell key { c with locks := AMap.set c.locks tok { abn := abn } }
  | w :: r =>
    let s := s.setCell key { c with locks := AMap.set c.locks tok { holder := some w.f.ik.ctx, by_ := some w.f.ik, wait := r } }
    answer s mx my w (w64 (b2n abn))

/-- The lock tokens of a region's M-cells that satisfy `p` pass on; a region that is swapped out has no cells. -/
def lockPassAll (s : State) (rk : RKey) (p : LockTok → Bool) (abn : Bool) : State :=
  let rg := s.region rk
  rg.xys.foldl (fun s q =>
    let key := cellAt rg.handle q.1 q.2
    if (s.cell key).owner = some rk then
      ((s.cell key).locks.filter fun e => p e.2).foldl (fun s e => lockPass s q.1 q.2 key e.1 abn) s
    else s) s

/-! ## Squash (R309) -/

/-- Every cell that a region holds changed. -/
def State.modCells (s : State) (rk : RKey) (g : Nat → Nat → Cell → Cell) : State :=
  let rg := s.region rk
  { s with cells := AMap.mapV s.cells fun k c =>
      if c.owner = some rk then g (k % 128 - handleX rg.handle) (k / 128 - handleY rg.handle) c else c }

def fromAny (gone : List IKey) (m : MTok) : Bool := match m.src with | some k => gone.contains k | none => false

/-- An entry after a squash: its own instance's goes back to its entry tokens, and no token of a squashed
instance stays but an installed sticky one (R301, R309). -/
def cleanEntry (gone : List IKey) (own : Bool) (e : MEntry) : MEntry :=
  let ok (m : MTok) : Bool := !fromAny gone m
  let kept := e.kept.filter ok
  if own then
    { e with l := kept.find? fun m => m.tok.dop == 0#2
             r := kept.find? fun m => m.tok.dop == 1#2
             p := kept.find? fun m => m.tok.dop == 2#2
             fired := false, kept := kept, win := [], timed := none }
  else if e.iter.isNone && e.next.isNone then e
  else { e with l := e.l.filter ok, r := e.r.filter ok, p := e.p.filter ok, kept := kept, win := e.win.filter ok }

/-- The entry holds nothing. -/
def MEntry.empty (e : MEntry) : Bool :=
  e.l.isNone && e.r.isNone && e.p.isNone && e.kept.isEmpty && e.timed.isNone && e.next.isNone && e.win.isEmpty
    && e.gen != 0xFFFF#16

/-- An `omerge` entry after a squash of instances whose tokens it had passed: NEXT goes back to the first
of them, which fires again. -/
def backNext (rg : Region) (x y : Nat) (gone : List IKey) (e : MEntry) : MEntry :=
  match e.next with
  | none => e
  | some nx =>
    let again := gone.filter fun k => k.ctx == e.ctx && rg.blockAt x y e.slot == some k.blk
      && (match rg.inst? k with | some i => i.fired.contains e.idx | none => false) && iterBefore k.iter nx
    { e with next := some (again.foldl (fun m k => if iterBefore k.iter m then k.iter else m) nx) }

/-- The instances squashed with the given ones: those that received a token from one of them and are not
`fixed`. -/
def cascade (rg : Region) (fixed : List IKey) : Nat → List IKey → List IKey
  | 0, g => g
  | n + 1, g =>
    let more := rg.insts.filter fun i =>
      !i.committed && !g.contains i.ik && !fixed.contains i.ik && i.from_.any (g.contains ·)
    if more.isEmpty then g else cascade rg fixed n (g ++ more.map (·.ik))

/-- A region's instances of stream blocks that have started a loop: no squash reaches them (R359). -/
def State.looping (s : State) (rk : RKey) : List IKey :=
  s.cells.flatMap fun p => if p.2.owner = some rk then (p.2.loops.filter (·.started)).map (·.ik) else []

/-- A token of the instance is held in its region. -/
def State.holdsToken (s : State) (rk : RKey) (ik : IKey) : Bool :=
  let rg := s.region rk
  let own (k : Nat) (e : MEntry) : Bool := entryOf rg (k % 128 - handleX rg.handle) (k / 128 - handleY rg.handle) ik e
  (s.cells.any fun p => p.2.owner == some rk && p.2.ms.any (own p.1)) || rg.ovf.any fun o => own o.cell o.ent

/-- Work in flight of the given instances: their tokens, counts, firings and replies. -/
def workOf (rk : RKey) (gone : List IKey) (w : Work) : Bool :=
  match w with
  | .node _ f => f.rk == rk && gone.contains f.ik
  | .ev (.tokenMatch k _ src) => k == rk && (match src with | some i => gone.contains i | none => false)
  | .ev (.countToken k i _ _) | .ev (.instanceCommit k i) | .ev (.commitToken k i _) | .ev (.memoryReply k i _)
  | .ev (.tgateDeadline k i _) | .ev (.controlTokenArrival k i _ _) | .ev (.streamLoopStart k i _)
  | .ev (.streamLoopFinish k i _) => k == rk && gone.contains i
  | _ => false

/-- The instances' waiting requests withdrawn from an M-cell. -/
def Cell.withdraw (c : Cell) (gone : IKey → Bool) : Cell :=
  { c with defer := c.defer.filter fun w => !gone w.f.ik
           locks := AMap.mapV c.locks fun _ l => { l with wait := l.wait.filter fun w => !gone w.f.ik }
           replies := c.replies.filter fun r => !gone r.f.ik
           loops := c.loops.filter fun l => !gone l.ik }

/-! ## The replies of a memory channel (R343) -/

/-- The memory channel of an A-cell is ordered: the buoy declared on it has the ordered discipline. -/
def ordered (rg : Region) (x y : Nat) : Bool :=
  rg.buoys.any fun q => q.2.x == x && q.2.y == y && !q.2.cur.tagged

/-- A reply's result tokens leave. -/
def leaveReply (s : State) (r : Reply) : State :=
  s.sendOut r.f (fieldsOf r.node) 0 [r.val.getD 0#64] (fieldsOf r.node).fmt

/-- Replies that are back leave the head of an ordered channel in firing order. -/
def drainReplies : Nat → State → Nat → State
  | 0, s, _ => s
  | fuel + 1, s, key =>
    match (s.cell key).replies with
    | r :: rest => if r.back then drainReplies fuel (leaveReply (s.setCell key { s.cell key with replies := rest }) r) key else s
    | [] => s

/-- The ordered channels of a region give what stands at their head. -/
def drainChannels (s : State) (rk : RKey) : State :=
  let rg := s.region rk
  (rg.xys.filter fun q => ordered rg q.1 q.2).foldl (fun s q =>
    let key := cellAt rg.handle q.1 q.2
    if (s.cell key).owner = some rk then drainReplies 65 s key else s) s

/-- A firing's place in its channel given up. -/
def dropReply (s : State) (f : Firing) : State :=
  let key := s.cellOf f.rk f.x f.y
  let s := s.modCell key fun c => { c with replies := c.replies.filter fun r => r.f.ik != f.ik || r.f.idx != f.idx }
  if ordered (s.region f.rk) f.x f.y then drainReplies 65 s key else s

/-- The instances lose what they did; their entry tokens stay. `count`: those that were
admitted count as SQUASH (log 65). -/
def rollback (s : State) (rk : RKey) (gone : List IKey) (count : Bool) : State :=
  let rg := s.region rk
  let s := s.dropDuties fun d => workOf rk gone d.work
  let clean (x y : Nat) (e : MEntry) : MEntry :=
    backNext rg x y gone (cleanEntry gone (gone.any fun k => entryOf rg x y k e) e)
  let s := s.modCells rk fun x y c =>
    { c.withdraw (gone.contains ·) with
        ms := (c.ms.map (clean x y)).filter fun e => !e.empty
        waitOv := c.waitOv.filter fun m => !fromAny gone m
        lookup := c.lookup.filter fun m => !fromAny gone m }
  let s := s.modRegion rk fun r =>
    { r with ovf := (r.ovf.map fun o =>
                { o with ent := clean (o.cell % 128 - handleX r.handle) (o.cell / 128 - handleY r.handle) o.ent })
             held := r.held.filter fun w => !workOf rk gone w }
  -- frames their nodes allocated return (R331, R335)
  let frames := (rg.insts.filter fun i => gone.contains i.ik).flatMap (·.frames)
  let s := frames.foldl (fun s f => returnFrame s rk.vmid (handleCove rg.handle) f) s
  let reset (i : Inst) : Inst :=
    if gone.contains i.ik then
      { i with admitted := false, lsids := [], fws := 0, bros := 0, flags := 0#5, fired := [], pend := [], frames := []
               from_ := i.from_.filter fun k => !gone.contains k }
    else i
  let s := drainChannels (s.modRegion rk fun r => { r with insts := r.insts.map reset }) rk
  -- granted lock tokens are given back (R263)
  let s := lockPassAll s rk (fun l => match l.by_ with | some k => gone.contains k | none => false) false
  if count then (rg.insts.filter fun i => i.admitted && gone.contains i.ik).foldl (fun s _ => s.count rk.vmid .squash) s else s

/-- SQUASH (R309) of uncommitted instances and of those that depend on them. -/
def squash (s : State) (rk : RKey) (iks : List IKey) : State :=
  if iks.isEmpty then s
  else
    let rg := s.region rk
    let fixed := s.looping rk
    let gone := cascade rg fixed rg.insts.length (iks.filter fun k => !fixed.contains k)
    let s := rollback s rk gone true
    -- an instance without a token is none; faults of squashed instances are withdrawn
    let none_ := gone.filter fun k => !s.holdsToken rk k
    s.modRegion rk fun r =>
      { r with faults := r.faults.filter fun h => h.committed || !gone.contains h.ik
               insts := r.insts.filter fun i => !none_.contains i.ik }

/-! ## Faults of an instance (R418) -/

/-- A fault is held for its instance: the first one of it counts, and every younger instance of its
context is squashed. -/
def State.gFault (s : State) (rk : RKey) (h : HeldFault) : State :=
  let rg := s.region rk
  if rg.faults.any fun g => g.ik == h.ik && g.committed == h.committed then s
  else
    let s := s.modRegion rk fun r => { r with faults := r.faults ++ [h] }
    if h.committed then s
    else
      match rg.inst? h.ik with
      | none => s
      | some i => squash s rk ((rg.later i).map (·.ik))

/-- The fault of a firing; a load gives up its place in its channel. -/
def State.fireFault (s : State) (f : Firing) (t : Trap) (work : List Work) : State :=
  let s := dropReply s f
  let s := if t.log then s.audit 0xFF (s.region f.rk).qid f.rk.vmid (w64 t.cause.toNat) t.tval 0#64 0 else s
  s.gFault f.rk { ik := f.ik, cause := t.cause, addr := t.tval, idx := f.idx, x := f.x, y := f.y
                  step := f.body.getD 0, work := work }

/-- A fault of an effect performed after the commit (R264). -/
def State.lateFault (s : State) (f : Firing) (cause : BitVec 8) (addr : Word) : State :=
  s.gFault f.rk { ik := f.ik, committed := true, cause := cause, addr := addr, idx := f.idx, x := f.x, y := f.y }

/-! ## The end of a context (R333) -/

/-- CONTEXT_END: uncommitted instances go, with every waiting, sticky and `omerge` entry; lock tokens pass
on as abandoned; the frame generation moves on. -/
def endContext (s : State) (rk : RKey) (c : Ctx) : State :=
  let rg := s.region rk
  let gone := (rg.insts.filter fun i => i.ik.ctx == c && !i.committed).map (·.ik)
  let s := if gone.isEmpty then s else rollback s rk gone true
  let s := s.modCells rk fun _ _ cl =>
    { cl.withdraw (fun k => gone.contains k) with
        ms := cl.ms.filter fun e => e.ctx != c || e.gen == 0xFFFF#16
        waitOv := cl.waitOv.filter fun m => m.tok.ctx != c
        lookup := cl.lookup.filter fun m => m.tok.ctx != c }
  let s := s.modRegion rk fun r =>
    { r with insts := r.insts.filter fun i => !gone.contains i.ik
             ovf := r.ovf.filter fun o => o.ent.ctx != c
             parked := r.parked.filter fun p => p.ctx != c
             faults := r.faults.filter fun h => h.ik.ctx != c }
  let s := lockPassAll s rk (fun l => l.holder == some c) true
  -- an `ffree` of its frame has moved it on already (R284)
  s.modTenant rk.vmid fun t =>
    if t.fgen c.frame.toNat = c.fgen then
      { t with fgens := AMap.set t.fgens c.frame.toNat (t.fgen c.frame.toNat + 1#8) }
    else t

end Sys2Proof.Machine
end

