-- ==== Sys2Proof/Machine/Match.lean ====
section
/-! DEFINITION. Operand matching (R296-R302, R326, R327), admission (R294, R359), the loops of stream cells
(R358-R361), what the region does next (retiring, admission, commits, reports), and the events of tokens,
refills, counts and buoys. -/

namespace Sys2Proof.Machine

/-! ## The matching store (R296, R299) -/

/-- Entries of a context of a cell (R296, R303). -/
def msCap (x y : Nat) (urg : Bool) : Nat :=
  match cellKind x y, urg with
  | 0, false => 224
  | 0, true => 32
  | 2, false => 56
  | 2, true => 8
  | _, _ => 64

def MEntry.key (e : MEntry) (slot idx : Nat) (c : Ctx) (it : Option (BitVec 16)) : Bool :=
  e.slot == slot && e.idx == idx && e.ctx == c && e.iter == it

/-- The entry of a key; one with another stamp is free (R296). -/
def Cell.entry? (c : Cell) (g : Gen) (slot idx : Nat) (cx : Ctx) (it : Option (BitVec 16)) : Option MEntry :=
  c.ms.find? fun e => e.gen == g && e.key slot idx cx it

/-- The entry of a key is poisoned (R189, R199). -/
def Cell.badEntry (c : Cell) (slot idx : Nat) (cx : Ctx) (it : Option (BitVec 16)) : Bool :=
  c.ms.any fun e => e.gen == 0xFFFF#16 && e.key slot idx cx it

/-- An entry put in the place of the one of its key, or added; an empty one is removed. `same` tells
entries of one key apart. -/
def Cell.putEntry (c : Cell) (e : MEntry) : Cell :=
  let same (o : MEntry) : Bool :=
    o.key e.slot e.idx e.ctx e.iter && o.next.isSome == e.next.isSome
      && (e.iter.isSome || e.next.isSome || (o.l.isSome == e.l.isSome && o.r.isSome == e.r.isSome && o.p.isSome == e.p.isSome))
  if e.empty then { c with ms := c.ms.filter fun o => !same o }
  else if c.ms.any same then { c with ms := c.ms.map fun o => if same o then e else o }
  else { c with ms := c.ms ++ [e] }

/-- Entries of the cell's urgent, or normal, context; a poisoned one is not free. -/
def State.msCount (s : State) (rk : RKey) (x y : Nat) (urg : Bool) : Nat :=
  let rg := s.region rk
  ((s.cell (s.cellOf rk x y)).ms.filter fun e =>
    (e.gen == rg.gen || e.gen == 0xFFFF#16) && (match rg.blockAt x y e.slot with | some b => (rg.block b).urg | none => false) == urg).length

/-- The tokens an entry holds (R299). -/
def MEntry.tokens (e : MEntry) : List MTok := e.l.toList ++ e.r.toList ++ e.p.toList ++ e.kept ++ e.win

/-- The least recently used entry of the normal context, a timed one only where no other is (R349). -/
def victim (rg : Region) (x y : Nat) (ms : List MEntry) : Option MEntry :=
  let can (e : MEntry) : Bool := e.gen == rg.gen && !(match rg.blockAt x y e.slot with | some b => (rg.block b).urg | none => false)
  let oldest (l : List MEntry) : Option MEntry :=
    l.foldl (fun b e => match b with | none => some e | some o => if e.used < o.used then some e else b) none
  match oldest (ms.filter fun e => can e && e.timed.isNone) with
  | some e => some e
  | none => oldest (ms.filter can)

/-- Blocks of 128 bytes from the tenant's frame heap. -/
def takeBlocks (s : State) (ag : Agent) : Nat → Except Trap (List Word × State)
  | 0 => .ok ([], s)
  | n + 1 =>
    match allocFrame s ag 128 with
    | .error t => .error t
    | .ok (f, s) =>
      match takeBlocks s ag n with
      | .error t => .error t
      | .ok (l, s) => .ok (f :: l, s)

/-- A token's list rebuilt from the records left of those read back. -/
def takeToks (l : List MTok) (r : List (Option Token)) : List MTok × List (Option Token) :=
  ((l.zip r).filterMap fun p => p.2.map fun t => { p.1 with tok := t }, r.drop l.length)

/-- An entry from the records of its tokens, in the order of `MEntry.tokens`; a malformed one is gone (R59). -/
def MEntry.reread (e : MEntry) (r : List (Option Token)) : MEntry :=
  let (l, r) := takeToks e.l.toList r
  let (rt, r) := takeToks e.r.toList r
  let (p, r) := takeToks e.p.toList r
  let (kept, r) := takeToks e.kept r
  { e with l := l.head?, r := rt.head?, p := p.head?, kept := kept, win := (takeToks e.win r).1 }

/-- Token records written in chained blocks: five in each, the block's last word names the next (R58, R299). -/
def blocksOut (s : State) (ag : Agent) : List Word → List Token → Except Trap State
  | [], _ => .ok s
  | f :: fs, ts =>
    match homePuts s ag f ((ts.take 5).flatMap Token.words) with
    | .error t => .error t
    | .ok s =>
      match s.homeStore ag (f + 120#64) (fs.headD 0#64) with
      | .error t => .error t
      | .ok s => blocksOut s ag fs (ts.drop 5)

/-- Up to `n` token records read from a block; none for one that is malformed or cannot be read (R59). -/
def recordsIn (s : State) (ag : Agent) (va : Word) : Nat → List (Option Token)
  | 0 => []
  | n + 1 =>
    (match homeWords s ag va 3 with
      | .ok ([a, b, c], _) => tokenOf a b c
      | _ => none) :: recordsIn s ag (va + 24#64) n

/-- The records of the blocks of an entry of `n` tokens. -/
def blocksIn (s : State) (ag : Agent) : List Word → Nat → List (Option Token)
  | [], _ => []
  | f :: fs, n => recordsIn s ag f (min 5 n) ++ blocksIn s ag fs (n - 5)

/-- MATCH_EVICT: the victim written back to the overflow table. -/
def evict (s : State) (rk : RKey) (x y : Nat) : Except Trap State :=
  let rg := s.region rk
  let key := s.cellOf rk x y
  match victim rg x y (s.cell key).ms with
  | none => .ok s
  | some e =>
    let ag := s.devAgent rk.vmid (coveOfXY (key % 128) (key / 128))
    let r : Except Trap (List Word × State) := do
      let (fs, s) ← takeBlocks s ag ((e.tokens.length + 4) / 5)
      let s ← blocksOut s ag fs (e.tokens.map (·.tok))
      return (fs, s)
    match r with
    | .error t => .error t
    | .ok (fs, s) =>
      let s := s.modCell key fun c => { c with ms := c.ms.erase e }
      let s := s.modRegion rk fun r => { r with ovf := r.ovf ++ [{ cell := key, ent := e, frames := fs }] }
      .ok (s.count rk.vmid .matchEvict)

/-- Room for one more entry of a context: what is full writes one back; in the urgent context, which never does, the token
waits (R299, R303). -/
def makeRoom (s : State) (rk : RKey) (x y : Nat) (urg : Bool) : Except (Option Trap) State :=
  if s.msCount rk x y urg < msCap x y urg then .ok s
  else if urg then .error none
  else match evict s rk x y with | .ok s => .ok s | .error t => .error (some t)

/-- The clk of an access to a tenant's frame heap (R230). -/
def heapClk (s : State) (vmid cove : Nat) : Nat :=
  match translate s (s.devAgent vmid cove) (s.tenant vmid).args.fheap .r with
  | .ok (p, s) => tierClk (s.tier p.pa)
  | .error _ => Config.nearClk

/-- An event of which one is in flight at most. -/
def State.onceAfter (s : State) (n : Nat) (e : Ev) : State :=
  if s.duties.any fun d => d.work == .ev e then s else s.after n e

/-! ## Instances -/

/-- The instance of a token, made where there is none (R293). A token of another instance of the same context and ITER is
that of its `bro` or `fin`, which names this one (R295). -/
def ensureInst (s : State) (rk : RKey) (blk : Nat) (m : MTok) : Inst × State :=
  let rg := s.region rk
  let named (k : IKey) : Bool := k.ctx == m.tok.ctx && k.iter == m.tok.iter
  match rg.byKey blk m.tok.ctx m.tok.iter with
  | some i =>
    match m.src with
    | some k =>
      if k = i.ik ∨ i.from_.contains k then (i, s)
      else
        let i' := { i with from_ := i.from_ ++ [k], after := if named k then i.after ++ [k] else i.after }
        (i', s.modInst rk i.ik fun _ => i')
    | none => (i, s)
  | none =>
    let i : Inst :=
      { ik := { blk := blk, ctx := m.tok.ctx, iter := m.tok.iter, ser := rg.serial + 1 }
        after := m.src.toList.filter named
        from_ := m.src.toList }
    (i, s.modRegion rk fun r => { r with serial := r.serial + 1, insts := r.insts ++ [i] })

/-- A table entry is free (R294): an instance holds one from its admission until it retires. -/
def Region.tableFree (rg : Region) : Bool := decide ((rg.insts.filter fun i => i.admitted && !i.freed).length < 8)

/-- A stream instance waits for every earlier ordered instance (R359). -/
def Region.mayAdmit (rg : Region) (i : Inst) : Bool :=
  !rg.isParked i.ik.ctx && (!(rg.block i.ik.blk).stream || (rg.earlier i).isEmpty)

/-- The sticky token of a node's slot and context, on chip or written back (R301). -/
def stickyTok (rg : Region) (key : Nat) (c : Cell) (slot idx : Nat) (cx : Ctx) (dop : Nat) : Option MTok :=
  let of (e : MEntry) : Option MTok :=
    if e.gen == rg.gen && e.key slot idx cx none && e.next.isNone then
      match dop with | 0 => e.l | 1 => e.r | _ => e.p
    else none
  match c.ms.findSome? of with
  | some m => some m
  | none => rg.ovf.findSome? fun o => if o.cell = key then of o.ent else none

/-- The operands of an entry whose node is ready: every required slot filled, one at least of them by a token of
its own (R297, R301). -/
def readyOps (rg : Region) (key : Nat) (c : Cell) (i : Instr) (e : MEntry) :
    Option (Option MTok × Option MTok × Option MTok) :=
  let nd := needs (cellKind (key % 128) (key / 128) == 2) i
  let st (k : Nat) := stickyTok rg key c e.slot e.idx e.ctx k
  let get (k : Nat) (own : Option MTok) : Option (Option MTok) :=
    if !nd.getD k false then some none else match own with | some m => some (some m) | none => (st k).map some
  let own (k : Nat) (m : Option MTok) : Bool := nd.getD k false && m.isSome
  if !(own 0 e.l || own 1 e.r || own 2 e.p) then none
  else
    match get 0 e.l, get 1 e.r, get 2 e.p with
    | some l, some r, some p => some (l, r, p)
    | _, _, _ => none

def isNullTok (m : Option MTok) : Bool := match m with | some m => m.tok.act == .null | none => false

/-- The firing of a ready entry: the slots it consumed, those it required, are emptied (R297). -/
def fireEntry (s : State) (rk : RKey) (x y : Nat) (ik : IKey) (i : Instr) (e : MEntry)
    (ops : Option MTok × Option MTok × Option MTok) : State :=
  let f : Firing := { rk := rk, ik := ik, x := x, y := y, slot := e.slot, idx := e.idx, l := ops.1, r := ops.2.1
                      p := ops.2.2, nul := isNullTok ops.1 || isNullTok ops.2.1 || isNullTok ops.2.2 }
  let left (own used : Option MTok) : Option MTok := if used.isSome then none else own
  let s := s.modCell (s.cellOf rk x y) fun c =>
    c.putEntry { e with l := left e.l ops.1, r := left e.r ops.2.1, p := left e.p ops.2.2, fired := true, used := s.clk }
  let s := s.modInst rk ik fun n => { n with fired := n.fired ++ [e.idx] }
  s.startFire 1 i f

/-- An entry of a live instance fires where it is ready. -/
def tryFire (s : State) (rk : RKey) (x y : Nat) (ik : IKey) (i : Instr) (e : MEntry) : State :=
  let rg := s.region rk
  if !rg.live ik || e.fired then s
  else
    match readyOps rg (s.cellOf rk x y) (s.cell (s.cellOf rk x y)) i e with
    | none => s
    | some ops => fireEntry s rk x y ik i e ops

/-- A token of `merge` or `omerge` that fires alone. -/
def fireSingle (s : State) (rk : RKey) (x y : Nat) (ik : IKey) (i : Instr) (m : MTok) : State :=
  s.startFire 1 i
    { rk := rk, ik := ik, x := x, y := y, slot := m.tok.dslot.toNat, idx := m.tok.didx.toNat, l := some m }

/-- A fault of a token's arrival at a node (R298, R100). -/
def arriveFault (s : State) (rk : RKey) (ik : IKey) (m : MTok) (cause : BitVec 8) (tval : Word) : State :=
  s.gFault rk { ik := ik, cause := cause, addr := tval, idx := m.tok.didx.toNat, x := m.tok.dx.toNat, y := m.tok.dy.toNat }

/-! ## The overflow presence filter (R296, R299) -/

/-- The filter bit of an entry's key. -/
def filterBit (slot idx : Nat) (c : Ctx) (it : Option (BitVec 16)) : Nat :=
  Config.matchHash ((((slot * 128 + idx) * 2 ^ 24 + c.frame.toNat) * 256 + c.fgen.toNat) * 65537
    + match it with | some i => i.toNat + 1 | none => 0) % 1024

/-- The bit is set while the table holds a record of the cell that hashes to it. -/
def filterSet (rg : Region) (key bit : Nat) : Bool :=
  rg.ovf.any fun o => o.cell == key && filterBit o.ent.slot o.ent.idx o.ent.ctx o.ent.iter == bit

/-- A token's key, with ITER or without (a sticky token's, an `omerge`'s), hashes to a set bit. -/
def mustLook (rg : Region) (key : Nat) (t : Token) : Bool :=
  filterSet rg key (filterBit t.dslot.toNat t.didx.toNat t.ctx (some t.iter))
    || filterSet rg key (filterBit t.dslot.toNat t.didx.toNat t.ctx none)

/-- A written-back entry that a token of this key would match. -/
def OvEntry.holds (o : OvEntry) (key : Nat) (t : Token) : Bool :=
  o.cell == key && (o.ent.key t.dslot.toNat t.didx.toNat t.ctx (some t.iter) || o.ent.key t.dslot.toNat t.didx.toNat t.ctx none)

/-- A context is at fault for what stands in memory: the region's context named by FRAME (R59). -/
def ctxFault (s : State) (rk : RKey) (c : Ctx) (cause : BitVec 8) (addr : Word) (idx : Nat) : State :=
  let ik := match (s.region rk).insts.find? fun i => i.ik.ctx == c with
    | some i => i.ik
    | none => { (default : IKey) with ctx := c }
  s.gFault rk { ik := ik, committed := true, cause := cause, addr := addr, idx := idx }

/-- Trap mode of a token's destination: FLAGS bit 0 of its function's descriptor (R350), or where none is bound the
region's mode. -/
def trapFlag (s : State) (rk : RKey) (d : Option Word) : Bool :=
  let rg := s.region rk
  match d with
  | none => rg.trap
  | some d =>
    match readDesc s (s.devAgent rk.vmid (handleCove rg.handle)) d with
    | .ok (d, _) => d.flags % 2 == 1
    | .error _ => rg.trap

/-- A malformed stored token is discarded and counted; in trap mode the context named by FRAME, in its present
generation, faults STALE_TAG instead (R59, R60). `w2` is the token's last word. -/
def badToken (s : State) (rk : RKey) (w2 : Word) : State :=
  if trapFlag s rk (s.region rk).fn.head? then
    let fr : BitVec 24 := w2.extractLsb' 0 24
    ctxFault s rk { frame := fr, fgen := (s.tenant rk.vmid).fgen fr.toNat } cSTALE_TAG (w2 &&& 0xFFFFFFFF#64) 0
  else s.count rk.vmid .staleTag

/-- A written-back entry taken out of the table and installed again, its tokens read from their records; it displaces
another by the same rule (R299). -/
def reinstall (s : State) (rk : RKey) (x y : Nat) (o : OvEntry) : Except (Option Trap) State :=
  match makeRoom s rk x y false with
  | .error t => .error t
  | .ok s =>
    let rg := s.region rk
    let cove := coveOfXY (o.cell % 128) (o.cell / 128)
    let ag := s.devAgent rk.vmid cove
    let recs := blocksIn s ag o.frames o.ent.tokens.length
    let s := s.modRegion rk fun r => { r with ovf := r.ovf.erase o }
    let s := ((o.ent.tokens.zip recs).filter fun p => p.2.isNone).foldl
      (fun s p => badToken s rk (w64 (p.1.tok.ctx.fgen.toNat * 2 ^ 24 + p.1.tok.ctx.frame.toNat))) s
    let s := o.frames.foldl (fun s f => returnFrame s rk.vmid cove f) s
    let e := { o.ent.reread recs with used := s.clk, gen := rg.gen }
    .ok ((if e.empty then s else s.modCell o.cell fun c => { c with ms := c.ms ++ [e] }).count rk.vmid .matchRefill)

/-- The region's refills of a cell go on. -/
def askRefill (s : State) (rk : RKey) (x y : Nat) : State :=
  let key := s.cellOf rk x y
  s.onceAfter (heapClk s rk.vmid (coveOfXY (key % 128) (key / 128))) (.matchRefill rk x y)

/-! ## omerge (R327) -/

/-- The tokens held for an `omerge` of a context, taken out of the lookup buffer. -/
def takeHeld (c : Cell) (slot idx : Nat) (cx : Ctx) : List MTok × Cell :=
  let mine (m : MTok) : Bool := m.tok.dslot.toNat == slot && m.tok.didx.toNat == idx && m.tok.ctx == cx
  (c.lookup.filter mine, { c with lookup := c.lookup.filter fun m => !mine m })

/-- The entry of an `omerge` and a context on chip. -/
def omergeEntry (rg : Region) (c : Cell) (slot idx : Nat) (cx : Ctx) : Option MEntry :=
  c.ms.find? fun e => e.gen == rg.gen && e.key slot idx cx none && e.next.isSome

/-- A discarded token is retained no longer. -/
def unkeep (s : State) (rk : RKey) (x y : Nat) (m : MTok) : State :=
  s.modCell (s.cellOf rk x y) fun c => { c with ms := (c.ms.map fun e =>
    if e.key m.tok.dslot.toNat m.tok.didx.toNat m.tok.ctx (some m.tok.iter) then { e with kept := e.kept.erase m } else e).filter fun e => !e.empty }

/-- A token back in its cell's input register. -/
def backIn (s : State) (rk : RKey) (m : MTok) : State :=
  { s with duties := { due := s.clk + 1, work := .ev (.tokenMatch rk m.tok m.src) } :: s.duties }

/-- Decisions of an `omerge` on a list of tokens, each with its instance; an advance of NEXT brings the
window's next place and the held tokens to their decision. A token past the window is held in the lookup buffer, or where
that is full in its input register. -/
def omergeRun (rk : RKey) (x y : Nat) (i : Instr) (base : BitVec 16) : Nat → State → List (IKey × MTok) → State
  | 0, s, _ => s
  | _ + 1, s, [] => s
  | fuel + 1, s, (ik, m) :: rest =>
    let key := s.cellOf rk x y
    let rg := s.region rk
    let slot := m.tok.dslot.toNat
    let idx := m.tok.didx.toNat
    let c := s.cell key
    let e := (omergeEntry rg c slot idx m.tok.ctx).getD
      { slot := slot, idx := idx, ctx := m.tok.ctx, iter := none, gen := rg.gen, used := s.clk, age := s.clk
        next := some base }
    let next := e.next.getD base
    let d := (m.tok.iter - next).toNat
    let named (ms : List MTok) : List (IKey × MTok) :=
      ms.filterMap fun m => (rg.byKey ik.blk m.tok.ctx m.tok.iter).map fun i => (i.ik, m)
    if d = 0 then
      let s := fireSingle s rk x y ik i m
      let s := s.modInst rk ik fun n => { n with fired := n.fired ++ [idx] }
      let nx := next + 1#16
      let (follow, win) := (e.win.filter fun w => w.tok.iter == nx, e.win.filter fun w => w.tok.iter != nx)
      let (held, c) := takeHeld (s.cell key) slot idx m.tok.ctx
      let s := s.setCell key (c.putEntry { e with next := some nx, win := win, used := s.clk })
      omergeRun rk x y i base fuel s (named follow ++ named held ++ rest)
    else if d < 16 then
      if e.win.any fun w => w.tok.iter == m.tok.iter then
        omergeRun rk x y i base fuel (arriveFault (unkeep s rk x y m) rk ik m cILLEGAL (w64 idx)) rest
      else
        omergeRun rk x y i base fuel (s.setCell key (c.putEntry { e with win := e.win ++ [m], used := s.clk })) rest
    else if d < 32768 then
      if c.lookup.length < 4 then
        omergeRun rk x y i base fuel (s.setCell key ({ c with lookup := c.lookup ++ [m] }.putEntry e)) rest
      else omergeRun rk x y i base fuel (backIn (s.setCell key (c.putEntry e)) rk m) rest
    else omergeRun rk x y i base fuel (arriveFault (unkeep s rk x y m) rk ik m cILLEGAL (w64 idx)) rest

/-- One more token at an `omerge`, whose entry is brought back where it has been written back. -/
def omergeStep (s : State) (rk : RKey) (x y : Nat) (ik : IKey) (i : Instr) (m : MTok) : State :=
  let key := s.cellOf rk x y
  let back := match (s.region rk).ovf.find? fun o => o.cell == key && o.ent.key m.tok.dslot.toNat m.tok.didx.toNat m.tok.ctx none with
    | some o => reinstall s rk x y o
    | none => .ok s
  match back with
  | .error none => backIn s rk m
  | .error (some t) => arriveFault s rk ik m t.cause t.tval
  | .ok s =>
    omergeRun rk x y i (BitVec.ofNat 16 ((fieldsOf i).immField 15 0)) (64 + (s.cell key).lookup.length * 4) s [(ik, m)]

/-! ## Admission (R294) -/

/-- The nodes of a stream block that act at admission: `rpt` and the generators of C- and M-cells (R367,
R380). -/
def startNodes (b : Block) (hx hy : Nat) : List (Nat × Instr) :=
  b.nodes.filter fun p =>
    match p.2 with
    | .gRpt _ => true
    | .gSgen _ => let (x, y) := b.at p.1; cellKind (hx + x) (hy + y) != 2
    | _ => false

/-- A stream instance gets its loops, one in each cell that holds a `cnt`. -/
def makeLoops (s : State) (rk : RKey) (ik : IKey) : State :=
  let rg := s.region rk
  let b := rg.block ik.blk
  let s := b.nodes.foldl (fun s p =>
    match p.2 with
    | .gCnt _ =>
      let (x, y) := b.at p.1
      s.modCell (s.cellOf rk x y) fun c => { c with loops := c.loops ++ [{ ik := ik, slot := b.slot }] }
    | _ => s) s
  (startNodes b (handleX rg.handle) (handleY rg.handle)).foldl (fun s p =>
    let (x, y) := b.at p.1
    s.startFire 1 p.2 { rk := rk, ik := ik, x := x, y := y, slot := b.slot, idx := p.1 }) s

/-- The tokens of a `merge` or `omerge` entry that wait for their instance: all of its entry tokens where it has not
fired, and those that came while it could not fire. -/
def MEntry.waiting (e : MEntry) : List MTok := if e.fired then e.win else e.kept ++ e.win.filter fun m => !e.kept.contains m

/-- An entry of a live instance goes on: its waiting tokens are decided, or its node fires where it is ready. -/
def wakeEntry (s : State) (rk : RKey) (x y : Nat) (ik : IKey) (e : MEntry) : State :=
  let key := s.cellOf rk x y
  match s.fetchNode rk ik.blk e.idx with
  | .error _ => s
  | .ok i =>
    match i with
    | .gMerge _ =>
      let s := s.modCell key fun c => c.putEntry { e with fired := true, win := [] }
      e.waiting.foldl (fun s m => fireSingle s rk x y ik i m) s
    | .gOmerge _ =>
      let s := s.modCell key fun c => c.putEntry { e with fired := true, win := [] }
      e.waiting.foldl (fun s m => omergeStep s rk x y ik i m) s
    | i => tryFire s rk x y ik i e

/-- A written-back entry of a live instance whose node is ready (R300). -/
def ovReady (s : State) (rk : RKey) (x y : Nat) (o : OvEntry) : Bool :=
  let rg := s.region rk
  let key := s.cellOf rk x y
  o.cell == key && match rg.blockAt x y o.ent.slot, o.ent.iter with
    | some blk, some it =>
      match rg.byKey blk o.ent.ctx it, (rg.block blk).node o.ent.idx with
      | some n, some (.gMerge _) | some n, some (.gOmerge _) => rg.live n.ik && !o.ent.waiting.isEmpty
      | some n, some i => rg.live n.ik && !o.ent.fired && (readyOps rg key (s.cell key) i o.ent).isSome
      | _, _ => false
    | _, _ => false

/-- What waited for an instance goes on: ready entries fire, single tokens are decided, held ones are
matched again; entries in the overflow table are brought back. -/
def activate (s : State) (rk : RKey) (ik : IKey) : State :=
  let rg := s.region rk
  let b := rg.block ik.blk
  b.cells.foldl (fun s k =>
    let (x, y) := b.cellXY k
    let key := s.cellOf rk x y
    let s := ((s.cell key).ms.filter fun e => e.gen == rg.gen && entryOf rg x y ik e).foldl (fun s e => wakeEntry s rk x y ik e) s
    let s := if (s.region rk).ovf.any (ovReady s rk x y) then askRefill s rk x y else s
    let mine (m : MTok) : Bool := m.tok.ctx == ik.ctx && m.tok.iter == ik.iter && m.tok.dslot.toNat == b.slot
      && (AMap.get? (s.cell key).sw b.slot).isSome
    let again := (s.cell key).waitOv.filter mine
    let s := s.modCell key fun c => { c with waitOv := c.waitOv.filter fun m => !mine m }
    again.foldl (fun s m => s.after 1 (.tokenMatch rk m.tok m.src)) s) s

/-- INSTANCE_ADMIT. -/
def admitInst (s : State) (rk : RKey) (ik : IKey) : State :=
  let rg := s.region rk
  let s := s.modRegion rk fun r => { r with serial := r.serial + 1 }
  let s := s.modInst rk ik fun i => { i with admitted := true, adm := rg.serial + 1 }
  let s := if (rg.block ik.blk).stream then makeLoops s rk ik else s
  activate s rk ik

/-- An instance that a token has reached takes an entry: a free one, or that of the latest later ordered
instance of its context (R294). -/
def seekEntry (s : State) (rk : RKey) (ik : IKey) : State :=
  let rg := s.region rk
  match rg.inst? ik with
  | none => s
  | some i =>
    if i.admitted || !rg.mayAdmit i then s
    else if rg.tableFree then admitInst s rk ik
    else
      let cand := (rg.later i).filter fun j => j.admitted && !(rg.block j.ik.blk).stream
      match cand.foldl (fun b j => match b with | none => some j | some o => if o.before j then some j else b) (none : Option Inst) with
      | none => s
      | some j => admitInst (squash s rk [j.ik]) rk ik

/-! ## A token at its node -/

/-- A token discarded for a context that has ended (R350): where its destination's function is in trap mode, a
sending context that goes on faults. `from_` is the sender, `d` the descriptor that resolved the token, if one did. -/
def staleAt (s : State) (rk : RKey) (t : Token) (from_ : Option (RKey × IKey)) (d : Option Word) : State :=
  let s := s.count rk.vmid .staleTag
  match from_ with
  | none => s
  | some (k, ik) =>
    if trapFlag s rk d && (s.tenant k.vmid).fgen ik.ctx.frame.toNat == ik.ctx.fgen then
      -- the record's index is that of the sender, which the token does not carry: free (log 20)
      let (n, s) := s.pick 128
      s.gFault k { ik := ik, committed := true, cause := cSTALE_TAG
                   addr := w64 (t.ctx.fgen.toNat * 2 ^ 24 + t.ctx.frame.toNat), idx := n }
    else s

/-- A token inside a region for a context that has ended, or that names no node (R59, R350). -/
def staleTok (s : State) (rk : RKey) (m : MTok) : State :=
  staleAt s rk m.tok (m.src.map fun k => (rk, k)) (s.region rk).fn.head?

/-- A token's fault for want of an entry; the token waits for the context's resumption (R299). -/
def roomFault (s : State) (rk : RKey) (x y : Nat) (ik : IKey) (m : MTok) (t : Trap) : State :=
  s.gFault rk { ik := ik, cause := t.cause, addr := t.tval, idx := m.tok.didx.toNat, x := x, y := y
                work := [.ev (.tokenMatch rk m.tok m.src)] }

/-- A token in the lookup buffer, its key searched in the overflow table (R299). -/
def lookFor (s : State) (rk : RKey) (x y : Nat) (m : MTok) : State :=
  let key := s.cellOf rk x y
  if (s.cell key).lookup.length < 4 then askRefill (s.modCell key fun c => { c with lookup := c.lookup ++ [m] }) rk x y
  else backIn s rk m

/-- A normal or null token paired in the matching store (R296-R298). -/
def pairTok (s : State) (rk : RKey) (x y : Nat) (ik : IKey) (i : Instr) (m : MTok) : State :=
  let rg := s.region rk
  let key := s.cellOf rk x y
  let slot := m.tok.dslot.toNat
  let idx := m.tok.didx.toNat
  let inst := (rg.inst? ik).getD { ik := ik }
  let old := (s.cell key).entry? rg.gen slot idx m.tok.ctx (some m.tok.iter)
  let filled := match old with
    | none => false
    | some e => (match m.tok.dop.toNat with | 0 => e.l.isSome | 1 => e.r.isSome | _ => e.p.isSome)
  if (s.cell key).badEntry slot idx m.tok.ctx (some m.tok.iter) then arriveFault s rk ik m cPOISON (w64 idx)
  else if filled || inst.fired.contains idx then
    if inst.committed then s.count rk.vmid .staleTag
    else arriveFault s rk ik m cILLEGAL (w64 idx)
  else
    match (if old.isSome then .ok s else makeRoom s rk x y (rg.block ik.blk).urg) with
    | .error none => backIn s rk m
    | .error (some t) => roomFault s rk x y ik m t
    | .ok s =>
      let e := old.getD { slot := slot, idx := idx, ctx := m.tok.ctx, iter := some m.tok.iter, gen := rg.gen, age := s.clk }
      let e := { e with used := s.clk
                        kept := if m.src == some ik || inst.committed then e.kept else e.kept ++ [m] }
      let e := match m.tok.dop.toNat with
        | 0 => { e with l := some m }
        | 1 => { e with r := some m }
        | _ => { e with p := some m }
      tryFire (s.modCell key fun c => c.putEntry e) rk x y ik i e

/-- A token of `merge` or `omerge` (R326, R327): retained like any entry token; one whose instance cannot fire waits in
its entry (R294, R418). -/
def singleTok (s : State) (rk : RKey) (x y : Nat) (ik : IKey) (i : Instr) (m : MTok) : State :=
  let rg := s.region rk
  let key := s.cellOf rk x y
  let slot := m.tok.dslot.toNat
  let idx := m.tok.didx.toNat
  let live := rg.live ik
  let inst := (rg.inst? ik).getD { ik := ik }
  let old := (s.cell key).entry? rg.gen slot idx m.tok.ctx (some m.tok.iter)
  if m.tok.act = .sticky ∨ m.tok.act = .purge then arriveFault s rk ik m cILLEGAL (w64 idx)
  else if (s.cell key).badEntry slot idx m.tok.ctx (some m.tok.iter) || (s.cell key).badEntry slot idx m.tok.ctx none then
    arriveFault s rk ik m cPOISON (w64 idx)
  else
    let keep := m.src != some ik && !inst.committed
    match (if old.isSome || (!keep && live) then .ok s else makeRoom s rk x y (rg.block ik.blk).urg) with
    | .error none => backIn s rk m
    | .error (some t) => roomFault s rk x y ik m t
    | .ok s =>
      let e := old.getD { slot := slot, idx := idx, ctx := m.tok.ctx, iter := some m.tok.iter, gen := rg.gen, age := s.clk }
      let kept := if keep && !e.kept.contains m then e.kept ++ [m] else e.kept
      let s := if keep || !live then
          s.modCell key fun c => c.putEntry
            { e with kept := kept, win := if live then e.win else e.win ++ [m], fired := e.fired || live, used := s.clk }
        else s
      if !live then s
      else match i with
        | .gOmerge _ => omergeStep s rk x y ik i m
        | _ => fireSingle s rk x y ik i m

/-- The key of a sticky token's entry. -/
def stickyEntry (rg : Region) (clk : Nat) (m : MTok) : MEntry :=
  let e : MEntry := { slot := m.tok.dslot.toNat, idx := m.tok.didx.toNat, ctx := m.tok.ctx, iter := none, gen := rg.gen
                      used := clk, age := clk }
  match m.tok.dop.toNat with
  | 0 => { e with l := some m }
  | 1 => { e with r := some m }
  | _ => { e with p := some m }

/-- Sticky entries of a slot and context removed, on chip and written back. -/
def dropSticky (s : State) (rk : RKey) (key slot idx : Nat) (cx : Ctx) (dop : Nat) : State :=
  let rg := s.region rk
  let is (e : MEntry) : Bool :=
    e.gen == rg.gen && e.key slot idx cx none && e.next.isNone
      && (match dop with | 0 => e.l.isSome | 1 => e.r.isSome | _ => e.p.isSome)
  let out (o : OvEntry) : Bool := o.cell == key && is o.ent
  let s := (s.modCell key fun c => { c with ms := c.ms.filter fun e => !is e }).modRegion rk fun r =>
    { r with ovf := r.ovf.filter fun o => !out o }
  ((rg.ovf.filter out).flatMap (·.frames)).foldl (fun s f => returnFrame s rk.vmid (coveOfXY (key % 128) (key / 128)) f) s

/-- The instance on which a fault of a sticky token falls: that of its key, else its producer, else a new one. -/
def stickyInst (s : State) (rk : RKey) (blk : Nat) (m : MTok) : IKey × State :=
  let rg := s.region rk
  match rg.byKey blk m.tok.ctx m.tok.iter, m.src.bind rg.inst? with
  | some i, _ => (i.ik, s)
  | none, some i => (i.ik, s)
  | none, none => let (i, s) := ensureInst s rk blk m; (i.ik, s)

/-- STICKY_INSTALL (R301): entries of its context that are now ready fire in order of age, those written back once they
are on chip again. -/
def stickyIn (s : State) (rk : RKey) (x y : Nat) (blk : Nat) (i : Instr) (m : MTok) : State :=
  let rg := s.region rk
  let key := s.cellOf rk x y
  let idx := m.tok.didx.toNat
  let slot := m.tok.dslot.toNat
  if (s.cell key).badEntry slot idx m.tok.ctx none then
    let (ik, s) := stickyInst s rk blk m
    arriveFault s rk ik m cPOISON (w64 idx)
  else
    let s := dropSticky s rk key slot idx m.tok.ctx m.tok.dop.toNat
    match makeRoom s rk x y (rg.block blk).urg with
    | .error none => backIn s rk m
    | .error (some t) =>
      let (ik, s) := stickyInst s rk blk m
      roomFault s rk x y ik m t
    | .ok s =>
      let s := s.modCell key fun c => { c with ms := c.ms ++ [stickyEntry rg s.clk m] }
      let here := (s.cell key).ms.filter fun e =>
        e.gen == rg.gen && e.slot == slot && e.idx == idx && e.ctx == m.tok.ctx && e.iter.isSome && !e.fired
      let s := (sortBy (fun a b => decide (a.age ≤ b.age)) here).foldl (fun s e =>
        match rg.byKey blk e.ctx (e.iter.getD 0#16) with
        | none => s
        | some n => tryFire s rk x y n.ik i e) s
      if (s.region rk).ovf.any (ovReady s rk x y) then askRefill s rk x y else s

/-- A token at a body slot of a stream block (R358). -/
def bodyTok (s : State) (rk : RKey) (x y : Nat) (ik : IKey) (i : Instr) (m : MTok) : State :=
  let key := s.cellOf rk x y
  let rg := s.region rk
  let idx := m.tok.didx.toNat
  let slot := m.tok.dslot.toNat
  let dop := m.tok.dop.toNat
  match m.tok.act with
  | .sticky => stickyIn s rk x y ik.blk i m
  | .purge =>
    if (stickyTok rg key (s.cell key) slot idx m.tok.ctx dop).isSome then dropSticky s rk key slot idx m.tok.ctx dop
    else arriveFault s rk ik m cILLEGAL (w64 idx)
  | .null => arriveFault s rk ik m cILLEGAL (w64 idx)
  | .normal =>
    match (s.cell key).loop? ik slot with
    | none =>
      if rg.live ik then s else s.modCell key fun c => { c with waitOv := c.waitOv ++ [m] }
    | some l =>
      if l.finished then s else s.modCell key fun c => c.modLoop ik slot fun l => l.push idx dop m

/-- A token at a node that is read from its cell; `look`: the overflow table has not been searched for it yet. -/
def atNode (s : State) (rk : RKey) (x y blk : Nat) (i : Instr) (m : MTok) (look : Bool := true) : State :=
  let rg := s.region rk
  let n := fieldsOf i
  let idx := m.tok.didx.toNat
  let key := s.cellOf rk x y
  let body := (rg.block blk).bodySlot idx m.tok.dop.toNat
  let tag := if body then bodyTag i m.tok.dop.toNat else slotTag i m.tok.dop.toNat
  let misfit := m.tok.act != .null && (match tag with | some g => g != m.tok.ftag | none => false)
  if misfit then
    match target n.tm with
    | some (j, dop) =>
      let t := tokenFor (rg.block blk) j dop m.tok.ctx m.tok.iter m.tok.payload m.tok.ftag m.tok.act
      s.sendTok rk (x, y) 0 t m.src
    | none =>
      let (inst, s) := ensureInst s rk blk m
      arriveFault s rk inst.ik m cFORMAT (w64 idx)
  else if m.tok.act = .sticky ∧ !body then
    match i with
    | .gMerge _ | .gOmerge _ =>
      let (inst, s) := ensureInst s rk blk m
      singleTok s rk x y inst.ik i m
    | i => stickyIn s rk x y blk i m
  else if m.tok.act = .purge ∧ !body then
    match i with
    | .gMerge _ | .gOmerge _ =>
      let (inst, s) := ensureInst s rk blk m
      singleTok s rk x y inst.ik i m
    | _ => dropSticky s rk key m.tok.dslot.toNat idx m.tok.ctx m.tok.dop.toNat
  else
    let (inst, s) := ensureInst s rk blk m
    let s := seekEntry s rk inst.ik
    if body then bodyTok s rk x y inst.ik i m
    else if look && mustLook rg key m.tok then lookFor s rk x y m
    else
      match i with
      | .gMerge _ | .gOmerge _ => singleTok s rk x y inst.ik i m
      | i => pairTok s rk x y inst.ik i m

/-- A token that reaches a cell of its region. -/
def arrive (s : State) (rk : RKey) (m : MTok) (look : Bool := true) : State :=
  let rg := s.region rk
  let t := m.tok
  let x := t.dx.toNat
  let y := t.dy.toNat
  let key := s.cellOf rk x y
  let idx := t.didx.toNat
  -- DOP 11 is what a malformed record of a token carries (R59)
  if t.dop = 3#2 then badToken s rk (w64 (t.ctx.fgen.toNat * 2 ^ 24 + t.ctx.frame.toNat))
  else if (s.tenant rk.vmid).fgen t.ctx.frame.toNat ≠ t.ctx.fgen then staleTok s rk m
  else if handleW rg.handle ≤ x ∨ handleH rg.handle ≤ y then s.count rk.vmid .staleTag
  else
    match rg.blockAt x y t.dslot.toNat with
    | none => s.count rk.vmid .staleTag
    | some blk =>
      let b := rg.block blk
      if b.ninst ≤ idx ∨ b.at idx ≠ (x, y) then s.count rk.vmid .staleTag
      else if (AMap.get? (s.cell key).sw t.dslot.toNat).isNone then
        -- OVERLAY_FETCH (R457)
        (s.modCell key fun c => { c with waitOv := c.waitOv ++ [m] }).onceAfter (6 + Config.nearClk)
          (.overlayLoadComplete rk x y t.dslot.toNat)
      else
        match s.fetchNode rk blk idx with
        | .ok i => atNode s rk x y blk i m look
        | .error e =>
          let (inst, s) := ensureInst s rk blk m
          arriveFault s rk inst.ik m e.cause e.tval

/-! ## What goes in a clk (R296, R303, R304, R361) -/

/-- A token that arrives at a body slot takes no matching access (R358). -/
def bodyArrival (rg : Region) (t : Token) : Bool :=
  match rg.blockAt t.dx.toNat t.dy.toNat t.dslot.toNat with
  | some blk => (rg.block blk).bodySlot t.didx.toNat t.dop.toNat && t.act == .normal
  | none => false

/-- The token's block is urgent. -/
def urgentTok (rg : Region) (t : Token) : Bool :=
  match rg.blockAt t.dx.toNat t.dy.toNat t.dslot.toNat with | some blk => (rg.block blk).urg | none => false

/-- A token that must wait in its input register and hold its link back: its stream queue is full (R358); the lookup
buffer is full (R299, R327); the urgent context's entries are full (R303). -/
def heldAtLink (s : State) (rk : RKey) (t : Token) : Bool :=
  let rg := s.region rk
  let key := s.cellOf rk t.dx.toNat t.dy.toNat
  let c := s.cell key
  let slot := t.dslot.toNat
  let idx := t.didx.toNat
  if bodyArrival rg t then
    c.loops.any fun l => l.ik.ctx == t.ctx && l.ik.iter == t.iter && l.slot == slot
      && decide (4 ≤ (AMap.getD l.queues (4 * idx + t.dop.toNat) []).length)
  else
    (decide (4 ≤ c.lookup.length) && (mustLook rg key t || match omergeEntry rg c slot idx t.ctx with
      | some e => let d := (t.iter - e.next.getD 0#16).toNat; decide (16 ≤ d) && decide (d < 32768)
      | none => false))
    || (urgentTok rg t && (c.entry? rg.gen slot idx t.ctx (some t.iter)).isNone
      && decide (msCap t.dx.toNat t.dy.toNat true ≤ s.msCount rk t.dx.toNat t.dy.toNat true))

/-- The tokens that stand before a cell, by place in flight: those due at one of its links. -/
def Duty.tokenAt (d : Duty) (clk : Nat) (rk : RKey) (x y : Nat) : Option Token :=
  match d.work with
  | .ev (.tokenMatch k t _) => if d.due ≤ clk ∧ k = rk ∧ t.dx.toNat = x ∧ t.dy.toNat = y then some t else none
  | _ => none

/-- The token of duty `k` stands at the head of its link and context, and is not held there. -/
def headOfLink (s : State) (k : Nat) (d : Duty) (rk : RKey) (t : Token) : Bool :=
  let rg := s.region rk
  !heldAtLink s rk t && s.duties.zipIdx.all fun q =>
    match q.1.tokenAt s.clk rk t.dx.toNat t.dy.toNat with
    | some u => q.1.link != d.link || urgentTok rg u != urgentTok rg t || !(q.1.due < d.due || (q.1.due == d.due && q.2 < k))
    | none => true

/-- The token of duty `k` is matched next in its cell: no access was made in this clk, and no other link before its own
holds one that can be matched (R296). -/
def tokenGoes (s : State) (k : Nat) (d : Duty) (rk : RKey) (t : Token) : Bool :=
  let rg := s.region rk
  headOfLink s k d rk t && (bodyArrival rg t ||
    ((s.cell (s.cellOf rk t.dx.toNat t.dy.toNat)).matchAt != some s.clk && s.duties.zipIdx.all fun q =>
      match q.1.tokenAt s.clk rk t.dx.toNat t.dy.toNat with
      | some u => bodyArrival rg u || !(q.1.link < d.link || (q.1.link == d.link && q.2 < k)) || !headOfLink s q.2 q.1 rk u
      | none => true))

/-- The rank of a firing in its cell: the urgent context first, then stream bodies, then the rest (R303, R361). -/
def fireRank (rg : Region) (f : Firing) : Nat :=
  if (rg.block f.ik.blk).urg then 0 else if f.body.isSome then 1 else 2

/-- A firing can begin as far as the divide unit goes. -/
def divFree (s : State) (i : Instr) (f : Firing) : Bool :=
  !usesDiv i || decide ((s.cell (s.cellOf f.rk f.x f.y)).divTo ≤ s.clk)

/-- A firing begins, or goes on: its cell has begun none in this clk, and none of a higher rank is ready there. -/
def firingGoes (s : State) (i : Instr) (f : Firing) : Bool :=
  f.began || ((s.cell (s.cellOf f.rk f.x f.y)).fireAt != some s.clk && divFree s i f && s.duties.all fun d =>
    match d.work with
    | .node j g =>
      !(decide (d.due ≤ s.clk) && !g.began && g.rk == f.rk && g.x == f.x && g.y == f.y && divFree s j g
        && decide (fireRank (s.region g.rk) g < fireRank (s.region f.rk) f))
    | .ev _ => true)

/-- What is in flight and due may take effect in this clk. -/
def dutyGoes (s : State) (k : Nat) (d : Duty) : Bool :=
  match d.work with
  | .node i f => firingGoes s i f
  | .ev (.tokenMatch rk t _) => tokenGoes s k d rk t
  | .ev _ => true

/-! ## Loops of stream cells (R358-R361) -/

/-- The block's nodes of one cell, in rank order. -/
def Block.inCell (b : Block) (x y : Nat) : List (Nat × Instr) := b.nodes.filter fun p => b.at p.1 == (x, y)

def isGen (out : Bool) : Instr → Bool
  | .gSgen n => (n.immField 17 16 == 2) == out
  | _ => false

/-- What a step issues: the values of the input generators, which take no issue clk, then the body nodes in
rank order (R361, R379). -/
def Block.issues (b : Block) (x y : Nat) : List (Nat × Instr) :=
  let here := b.inCell x y
  let bodies := b.bodies
  (here.filter fun p => isGen false p.2)
    ++ here.filter fun p => bodies.contains p.1 && !isGen false p.2 && !isGen true p.2

/-! ## Delay lines (R368, R369) -/

/-- The interleave count of a cell of a block, as its `rpt` sets it. -/
def Block.ilvOf (b : Block) (x y : Nat) : Nat :=
  ((b.inCell x y).findSome? fun p => match p.2 with | .gRpt n => some (n.immField 16 14 + 1) | _ => none).getD 1

def Block.wideOf (b : Block) (x y : Nat) : Bool :=
  ((b.inCell x y).findSome? fun p => match p.2 with | .gRpt n => some (n.immField 17 17 == 1) | _ => none).getD false

/-- Bytes of one interleave slot's part of a `dly`'s line. -/
def slotBytes (n : GNode) (wide : Bool) : Nat :=
  let g := if wide then 32 else 8
  let l := n.immField 9 0 + 1
  if n.immField 17 16 = 1 then l * (2 * g + 8) + 2 * g else l * g

/-- Bytes of a `dly`'s line (R369). -/
def lineBytes (n : GNode) (ilv : Nat) (wide : Bool) : Nat := slotBytes n wide * ilv

/-- Where a line lies: in f0-f2, in the cell's store, or in the M-cell of its unit row; and its first byte. -/
inductive LinePlace where
  | f (o : Nat)
  | store (o : Nat)
  | mcell (x y o : Nat)
  deriving DecidableEq, Repr

/-- The places of a cell's `dly` lines. Those of LOC 0 are taken in index order: in f0-f2 while the total there stays
within 96 bytes, the others in the local store from XBND on. -/
def Block.lines (b : Block) (x y xbnd : Nat) : List (Nat × LinePlace) :=
  ((b.inCell x y).foldl (fun (acc : Nat × Nat × List (Nat × LinePlace)) p =>
    match p.2 with
    | .gDly n =>
      let k := lineBytes n (b.ilvOf x y) (b.wideOf x y)
      let at_ := (acc.2.1 + 63) / 64 * 64
      if n.immField 15 15 = 1 then (acc.1, acc.2.1, acc.2.2 ++ [(p.1, .mcell (x / 4 * 4 + 2) y (4096 * n.immField 14 11))])
      else if acc.1 + k ≤ 96 then (acc.1 + k, acc.2.1, acc.2.2 ++ [(p.1, .f acc.1)])
      else (acc.1, at_ + k, acc.2.2 ++ [(p.1, .store at_)])
    | _ => acc) (0, xbnd, [])).2.2

def Block.linePlace (b : Block) (x y xbnd idx : Nat) : LinePlace :=
  (((b.lines x y xbnd).find? fun p => p.1 == idx).map (·.2)).getD (.f 0)

/-- The TVAL of an f register of the normal context (R413). -/
def fTval (k : Nat) : Word := w64 (2 ^ 63 + k)

/-- A word of a line, read from its storage by R189. -/
def lineWord (s : State) (rk : RKey) (x y : Nat) (pl : LinePlace) (o : Nat) : Except Trap Word :=
  let rg := s.region rk
  let at_ (a : Word) (r : Except Trap (List Byte)) : Except Trap Word :=
    match r with | .ok bs => .ok (bytesWord bs) | .error t => .error { t with tval := a }
  match pl with
  | .f b =>
    let k := (b + o) / 32
    let e := AMap.getD (s.cell (s.cellOf rk x y)).freg k {}
    if e.gen = 0xFFFF#16 then .error { cause := cPOISON, tval := fTval k }
    else if e.gen = rg.gen then .ok (w64 (e.val.toNat / 2 ^ (8 * ((b + o) % 32))))
    else if rg.trap then .error { cause := cGEN, tval := fTval k }
    else .ok 0#64
  | .store b => at_ (w64 (b + o)) (granRead (s.cell (s.cellOf rk x y)).store rg.gen rg.trap (b + o) 8)
  | .mcell mx my b => at_ (w64 (b + o)) (granRead (s.cell (s.cellOf rk mx my)).mem rg.gen rg.trap (b + o) 8)

/-- `k` words of a line. -/
def lineWords (s : State) (rk : RKey) (x y : Nat) (pl : LinePlace) (o : Nat) : Nat → Except Trap (List Word)
  | 0 => .ok []
  | k + 1 =>
    match lineWord s rk x y pl o with
    | .error t => .error t
    | .ok w =>
      match lineWords s rk x y pl (o + 8) k with
      | .error t => .error t
      | .ok ws => .ok (w :: ws)

/-- A step of a cell: its interleave slot and round (R361). -/
def Loop.slotAt (l : Loop) (step : Nat) : Nat := step % l.ilv
def Loop.roundAt (l : Loop) (step : Nat) : Nat := step / l.ilv

/-- Bytes of a value in a loop. -/
def Loop.g (l : Loop) : Nat := if l.wide then 32 else 8

/-- The tags of a node's line in the slot of a step, and the place there of the value that a delay-mode `dly` emits in
the step, and that the step's input then takes. -/
def Loop.dlyTags (l : Loop) (idx step : Nat) : DlyTags := AMap.getD l.dlys (8 * idx + l.slotAt step) {}
def Loop.delayNo (l : Loop) (idx : Nat) (n : GNode) (step : Nat) : Nat :=
  ((l.dlyTags idx step).head + l.roundAt step) % (n.immField 9 0 + 1)
def Loop.delayAt (l : Loop) (idx : Nat) (n : GNode) (step : Nat) : Nat :=
  l.slotAt step * slotBytes n l.wide + l.delayNo idx n step * l.g

/-- The values of a step's delay-mode `dly` nodes leave, D rounds after they came (R368); with them a loop may issue the
step. -/
def emitDlys (s : State) (rk : RKey) (x y : Nat) (l : Loop) (b : Block) : State :=
  let c := s.cell (s.cellOf rk x y)
  let all := (b.inCell x y).filter fun p => match p.2 with | .gDly n => n.immField 17 16 == 0 | _ => false
  let got : Except (Nat × Trap) (List (Nat × GNode × Fmt × List Word)) := all.foldr (fun p acc =>
    match acc, p.2 with
    | .error e, _ => .error e
    | .ok r, .gDly n =>
      match lineWords s rk x y (b.linePlace x y c.xbnd p.1) (l.delayAt p.1 n l.step) (l.g / 8) with
      | .error t => .error (p.1, t)
      | .ok ws =>
        let ft := (l.dlyTags p.1 l.step).tags.getD (l.delayNo p.1 n l.step) n.fmt
        .ok ((p.1, n, ft, ws) :: r)
    | .ok r, _ => .ok r) (.ok [])
  let f (idx : Nat) : Firing := { rk := rk, ik := l.ik, x := x, y := y, slot := l.slot, idx := idx, body := some l.step }
  match got with
  | .error (idx, t) => s.fireFault (f idx) t []
  | .ok vs =>
    let s := s.modCell (s.cellOf rk x y) fun c => c.modLoop l.ik l.slot fun l => { l with emit := l.step + 1 }
    vs.foldl (fun s v =>
      let (idx, n, ft, ws) := v
      let t (s : State) (to_ : BitVec 10) : State := s.sendT (f idx) to_ (nodeClk (.gDly n)) ws ft n.act l.ik.ctx l.ik.iter
      t (t s n.t0) n.t1) s

/-- The slots a body node reads. -/
def bodyNeeds (i : Instr) : List Bool :=
  match i with
  | .gSgen n => [false, n.immField 17 16 == 2, false]
  | i => needs false i

/-- The head of a body slot: its sticky token, or the first queued value. -/
def bodyHead (rg : Region) (key : Nat) (c : Cell) (l : Loop) (idx dop : Nat) : Option (MTok × Bool) :=
  match stickyTok rg key c l.slot idx l.ik.ctx dop with
  | some m => some (m, true)
  | none => ((AMap.getD l.queues (4 * idx + dop) []).head?).map fun m => (m, false)

/-- The operands of a body node, and the loop without the queued ones; none where one is not present. -/
def bodyOps (rg : Region) (key : Nat) (c : Cell) (l : Loop) (i : Instr) (idx : Nat) : Option (List (Option MTok) × Loop) :=
  (List.range 3).foldl (fun acc dop =>
    match acc with
    | none => none
    | some (ops, l) =>
      if !(bodyNeeds i).getD dop false then some (ops ++ [none], l)
      else
        match bodyHead rg key c l idx dop with
        | none => none
        | some (m, true) => some (ops ++ [some m], l)
        | some (m, false) =>
          some (ops ++ [some m], { l with queues := AMap.set l.queues (4 * idx + dop) ((AMap.getD l.queues (4 * idx + dop) []).drop 1) }))
    (some ([], l))

/-- The rounds a cell has run. -/
def Loop.rounds (l : Loop) : Nat := l.step / l.ilv

/-- Values of a body slot's queue that a `dly` sent ahead of the steps they are for: that of the next step, or
a chunk's local states, one for each slot. -/
def dlyAhead (b : Block) (ilv key : Nat) : Nat :=
  b.nodes.foldl (fun n p =>
    match p.2 with
    | .gDly g =>
      let feeds (t : BitVec 10) : Bool := match target t with | some (i, dop) => 4 * i + dop == key | none => false
      if g.immField 17 16 = 1 then (if feeds g.t0 then max n ilv else n)
      else if feeds g.t0 || feeds g.t1 then max n 1 else n
    | _ => n) 0

/-- At a round boundary the loop is at its end (R362): what a `dly` sent ahead is no value left to
consume. -/
def Loop.atEnd (l : Loop) (b : Block) : Bool :=
  let n := (l.n.getD 0#64).toNat
  let idle := l.queues.all fun q => decide (q.2.length ≤ dlyAhead b l.ilv q.1)
  l.step % l.ilv = 0 && l.rank = 0 &&
    (if l.ups then (n != 0 && n ≤ l.rounds) || (l.finL && idle) else n ≤ l.rounds)

/-- Drain steps of a cell's chunk-mode nodes: L rounds (R370). -/
def drainSteps (b : Block) (x y : Nat) (l : Loop) : Nat :=
  (b.inCell x y).foldl (fun n p =>
    match p.2 with
    | .gDly g => if g.immField 17 16 = 1 then max n ((g.immField 9 0 + 1) * l.ilv) else n
    | _ => n) 0

/-- The output generators have performed every write (R362). -/
def outsDone (b : Block) (x y : Nat) (l : Loop) : Bool :=
  (b.inCell x y).all fun p => !isGen true p.2 || l.step ≤ AMap.getD l.outs p.1 0

def bodyFiring (rk : RKey) (l : Loop) (x y idx step : Nat) (ops : List (Option MTok)) : Firing :=
  { rk := rk, ik := l.ik, x := x, y := y, slot := l.slot, idx := idx, l := ops.getD 0 none, r := ops.getD 1 none
    p := ops.getD 2 none, body := some step }

/-- Output generators whose value is here write it (R379), up to the step under way. -/
def pumpOuts (s : State) (rk : RKey) (x y : Nat) (l : Loop) (b : Block) : State :=
  ((b.inCell x y).filter fun p => isGen true p.2).foldl (fun s p =>
    let key := s.cellOf rk x y
    match (s.cell key).loop? l.ik l.slot with
    | none => s
    | some l =>
      match bodyOps (s.region rk) key (s.cell key) l p.2 p.1 with
      | none => s
      | some (ops, l') =>
        let v := AMap.getD l.outs p.1 0
        if l.step < v || (v == l.step && l.atEnd b) then s else
        let s := s.modCell key fun c => c.modLoop l.ik l.slot fun _ => { l' with outs := AMap.set l.outs p.1 (v + 1) }
        s.fireAfter 0 p.2 (bodyFiring rk l x y p.1 v ops)) s

/-- The loop of a cell goes on: its next issue, its drain, or its finish. -/
def pumpLoop (s : State) (rk : RKey) (x y : Nat) (l : Loop) : State :=
  let rg := s.region rk
  let key := s.cellOf rk x y
  let b := rg.block l.ik.blk
  let stopped := rg.isParked l.ik.ctx || (rg.faults.any fun h => h.ik == l.ik)
    || (match rg.wave with | some w => w.saved.contains key | none => false)
  if !l.started || l.finished || stopped then s
  else
    let s := pumpOuts s rk x y l b
    let l := ((s.cell key).loop? l.ik l.slot).getD l
    let put (s : State) (l : Loop) : State := s.modCell key fun c => c.modLoop l.ik l.slot fun _ => l
    if l.busy then s
    else if l.atEnd b || 0 < l.drain then
      if l.drain < drainSteps b x y l then
        -- CHUNK_DRAIN: the chunk-mode nodes issue alone
        let d := (b.inCell x y).filter fun p =>
          match p.2 with | .gDly g => g.immField 17 16 == 1 && l.drain < (g.immField 9 0 + 1) * l.ilv | _ => false
        let s := put s { l with drain := l.drain + 1, busy := true }
        d.foldl (fun s p => s.startFire 1 p.2 (bodyFiring rk l x y p.1 (l.step + l.drain) [])) s
      else if outsDone b x y l then
        let c := (b.cells.find? fun k => b.cellXY k == (x, y)).getD 0
        s.onceAfter 1 (.streamLoopFinish rk l.ik c)
      else s
    else
      let s := if l.rank = 0 ∧ l.emit ≤ l.step then emitDlys s rk x y l b else s
      let l := ((s.cell key).loop? l.ik l.slot).getD l
      if l.emit ≤ l.step then s
      else
        match (b.issues x y)[l.rank]? with
        | none =>
          let outs := (b.inCell x y).filter fun p => isGen true p.2
          if !(b.issues x y).isEmpty then put s { l with step := l.step + 1, rank := 0 }
          -- a cell that only writes keeps step with its output generators
          else if !outs.isEmpty then
            if outs.any fun p => AMap.getD l.outs p.1 0 ≤ l.step then s else put s { l with step := l.step + 1, rank := 0 }
          -- one that issues nothing passes its N rounds at once
          else match l.n with
            | some n => if n = 0#64 then s else put s { l with step := n.toNat * l.ilv, emit := n.toNat * l.ilv }
            | none => s
        | some (idx, i) =>
          match bodyOps rg key (s.cell key) l i idx with
          | none => s
          | some (ops, l') =>
            let s := put s { l' with rank := l.rank + 1, busy := true }
            let f := bodyFiring rk l x y idx l.step ops
            if isGen false i then s.fireAfter 0 i f else s.startFire 0 i f

/-- A step boundary passes before the next issue. -/
def pumpTwice (s : State) (rk : RKey) (x y : Nat) (l : Loop) : State :=
  let s := pumpLoop s rk x y l
  match (s.cell (s.cellOf rk x y)).loop? l.ik l.slot with
  | some l' => if l'.rank = 0 ∧ l'.step ≠ l.step then pumpLoop s rk x y l' else s
  | none => s

/-- A loop may start (R359, R360): N, the descriptors, the start token, and no earlier instance of the block that is
uncommitted. -/
def mayStart (s : State) (rk : RKey) (x y : Nat) (l : Loop) : Bool :=
  let rg := s.region rk
  let b := rg.block l.ik.blk
  !l.started && !l.finished && l.n.isSome && rg.live l.ik && (!l.wst || l.startL)
    && ((b.inCell x y).all fun p =>
      match p.2 with | .gSgen n => (AMap.get? l.gens (n.immField 17 16)).isSome | _ => true)
    && !(rg.insts.any fun j => j.ik.blk == l.ik.blk && j.ik != l.ik && j.admitted && !j.committed
      && match rg.inst? l.ik with | some i => decide (j.adm < i.adm) | none => true)

/-- Every loop of a region goes on as far as it can. -/
def pumpAll (s : State) (rk : RKey) : State :=
  let rg := s.region rk
  (rg.xys.filter fun q => !(s.cell (cellAt rg.handle q.1 q.2)).loops.isEmpty).foldl (fun s q =>
    ((s.cell (cellAt rg.handle q.1 q.2)).loops).foldl (fun s l =>
      if mayStart s rk q.1 q.2 l then
        let b := rg.block l.ik.blk
        let c := (b.cells.find? fun k => b.cellXY k == q).getD 0
        s.onceAfter 1 (.streamLoopStart rk l.ik c)
      else pumpTwice s rk q.1 q.2 l) s) s

/-! ## What a region does next -/

/-- Effects whose node sends tokens once they are performed. -/
def sendsLater : Instr → Bool
  | .gAmo _ | .gTset _ | .gCall _ | .gCcall _ => true
  | _ => false

/-- A token that an instance produced, or is still to produce, is not consumed (R293). -/
def outstanding (s : State) (rk : RKey) (i : Inst) : Bool :=
  let mine (m : MTok) : Bool := m.src == some i.ik
  let mineO (m : Option MTok) : Bool := match m with | some m => mine m | none => false
  let ent (e : MEntry) : Bool := mineO e.l || mineO e.r || mineO e.p || e.win.any mine || (!e.fired && e.kept.any mine)
  let write (w : Work) : Bool := match w with | .ev (.commitToken _ _ _) => true | _ => false
  i.pend.any (fun p => !p.done && sendsLater p.node)
  || (s.duties.any fun d => workOf rk [i.ik] d.work && !write d.work)
  || (s.cells.any fun p => p.2.owner == some rk && ((p.2.ms.any ent) || p.2.waitOv.any mine || p.2.lookup.any mine
      || (p.2.replies.any fun r => r.f.ik == i.ik) || (p.2.defer.any fun w => w.f.ik == i.ik)
      || (p.2.locks.any fun l => l.2.wait.any fun w => w.f.ik == i.ik)
      || p.2.loops.any fun l => l.queues.any fun q => q.2.any mine))
  || (s.region rk).ovf.any (fun o => ent o.ent)
  || (s.region rk).held.any (workOf rk [i.ik])

/-- Retired instances leave the table (R293); one with writes still to be performed is kept for their order. -/
def retireAll (s : State) (rk : RKey) : State :=
  s.modRegion rk fun r =>
    let mark (i : Inst) : Inst := if i.committed && !outstanding s rk i then { i with freed := true } else i
    { r with insts := (r.insts.map mark).filter fun i => !i.freed || i.pend.any (!·.done) }

/-- Waiting instances are admitted in the order of their first tokens (R294). -/
def admitAll (s : State) (rk : RKey) : State :=
  ((s.region rk).insts.filter fun i => !i.admitted && !i.committed).foldl (fun s i =>
    let rg := s.region rk
    if rg.tableFree && rg.mayAdmit i && (rg.inst? i.ik).isSome then admitInst s rk i.ik else s) s

/-- An `inx` output of ITER j waits for the throttle (R334). -/
def throttled (rg : Region) (f : Firing) (j : BitVec 16) : Bool :=
  let k := (rg.block f.ik.blk).throttle
  rg.insts.any fun i => i.ik.blk == f.ik.blk && i.ik.ctx == f.ik.ctx && !i.committed
    && (let d := (j - i.ik.iter).toNat; decide (1 ≤ d) && decide (d ≤ k))

/-- The ITER an `inx` gives (R334). -/
def inxIter (n : GNode) (it : BitVec 16) : BitVec 16 :=
  if n.immField 16 16 = 1 then BitVec.ofNat 16 (n.immField 15 0) else it + 1#16

/-- INX_RELEASE. -/
def releaseInx (s : State) (rk : RKey) : State :=
  let rg := s.region rk
  let free (w : Work) : Bool :=
    match w with
    | .node i f => !throttled rg f (inxIter (fieldsOf i) f.ik.iter)
    | .ev _ => true
  let s := { s.modRegion rk fun r => { r with held := r.held.filter fun w => !free w } with
    duties := s.duties ++ (rg.held.filter free).map fun w => { due := s.clk + 1, work := w } }
  s

/-- The counts of an instance are complete (R306, R362). -/
def countsDone (s : State) (rk : RKey) (i : Inst) : Bool :=
  let b := (s.region rk).block i.ik.blk
  if b.stream then
    i.admitted && s.cells.all fun p => p.2.owner != some rk || p.2.loops.all fun l => l.ik != i.ik || l.finished
  else
    ((List.range 32).all fun k => !b.stmask.testBit k || i.lsids.contains k) && i.fws == b.fwcnt && i.bros == 1

/-- An instance may commit (R307, R418). -/
def mayCommit (s : State) (rk : RKey) (i : Inst) : Bool :=
  let rg := s.region rk
  !i.committed && i.admitted && countsDone s rk i && (rg.earlier i).isEmpty && !rg.isParked i.ik.ctx
    && !rg.faults.any fun h => h.ik == i.ik || (h.committed && h.ik.ctx == i.ik.ctx)

/-- A held fault is reported (R418): for an ordered instance when it is the oldest. -/
def mayReport (rg : Region) (h : HeldFault) : Bool :=
  !rg.isParked h.ik.ctx &&
    (h.committed || match rg.inst? h.ik with | none => false | some i => (rg.earlier i).isEmpty)

/-- What follows at once in a region: instances retire, wait no more, go on, commit, are reported. -/
def settle (s : State) (rk : RKey) : State :=
  let s := pumpAll (releaseInx (admitAll (retireAll s rk) rk) rk) rk
  let rg := s.region rk
  let s := rg.insts.foldl (fun s i => if mayCommit s rk i then s.onceAfter 1 (.instanceCommit rk i.ik) else s) s
  rg.faults.foldl (fun s h => if mayReport rg h then s.onceAfter 1 (.gFaultReport rk h.ik) else s) s

/-! ## Events -/

/-- Work that concerns a cell which a slack wave has saved is recorded for its arc (R443); urgent blocks
keep running (R446). -/
def recordArc (s : State) (rk : RKey) (x y blk : Nat) (w : Work) : Option State :=
  let rg := s.region rk
  let a : ArcRec := { x := x, y := y, work := w }
  if (rg.block blk).urg then none
  else
    match rg.wave with
    | some v =>
      if v.saved.contains (s.cellOf rk x y) then
        some (s.modRegion rk fun r => { r with wave := some { v with arcs := v.arcs ++ [a] } })
      else none
    | none =>
      match rg.st, rg.image with
      | 4, some im => some (s.modRegion rk fun r => { r with image := some { im with arcs := im.arcs ++ [a] } })
      | _, _ => none

/-- TOKEN_MATCH (R296). -/
def execTokenMatch (rk : RKey) (t : Token) (src : Option IKey) (s : State) : Out :=
  let rg := s.region rk
  let blk := (rg.blockAt t.dx.toNat t.dy.toNat t.dslot.toNat).getD 0
  .next <|
    match recordArc s rk t.dx.toNat t.dy.toNat blk (.ev (.tokenMatch rk t src)) with
    | some s => s
    | none =>
      if rg.st ≠ 3 then s.count rk.vmid .staleTag
      else
        let s := if bodyArrival rg t then s
          else s.modCell (s.cellOf rk t.dx.toNat t.dy.toNat) fun c => { c with matchAt := some s.clk }
        settle (arrive s rk { tok := t, src := src }) rk

/-- A token in the lookup buffer is held for its `omerge` (R327). -/
def heldForMerge (rg : Region) (c : Cell) (m : MTok) : Bool :=
  match omergeEntry rg c m.tok.dslot.toNat m.tok.didx.toNat m.tok.ctx with
  | some e => let d := (m.tok.iter - e.next.getD 0#16).toNat; decide (16 ≤ d) && decide (d < 32768)
  | none => false

/-- One more refill of a cell is due: a token waits for the table, or a written-back entry is ready. -/
def refillMore (s : State) (rk : RKey) (x y : Nat) : Bool :=
  let rg := s.region rk
  let c := s.cell (s.cellOf rk x y)
  c.lookup.any (fun m => !heldForMerge rg c m) || rg.ovf.any (ovReady s rk x y)

/-- MATCH_REFILL (R299): an entry that the first waiting token would match, else one that is ready, is reinstalled; a token
for which nothing is left in the table is matched. -/
def execMatchRefill (rk : RKey) (x y : Nat) (s : State) : Out :=
  let rg := s.region rk
  let key := s.cellOf rk x y
  let c := s.cell key
  let more (s : State) : State := if refillMore s rk x y then askRefill s rk x y else s
  let bring (s : State) (o : OvEntry) : State :=
    let blk := (rg.blockAt x y o.ent.slot).getD 0
    match reinstall s rk x y o with
    | .error none => s.onceAfter 1 (.matchRefill rk x y)
    | .error (some t) =>
      let ik := match o.ent.iter.bind fun it => rg.byKey blk o.ent.ctx it with
        | some i => i.ik
        | none => (((rg.insts.find? fun i => i.ik.ctx == o.ent.ctx && !i.committed).map (·.ik))).getD { (default : IKey) with ctx := o.ent.ctx }
      s.gFault rk { ik := ik, cause := t.cause, addr := t.tval, idx := o.ent.idx, x := x, y := y, work := [.ev (.matchRefill rk x y)] }
    | .ok s =>
      let s := match o.ent.iter.bind fun it => rg.byKey blk o.ent.ctx it with
        | some i =>
          if rg.live i.ik then
            match (s.cell key).ms.find? fun e => e.gen == rg.gen && e.key o.ent.slot o.ent.idx o.ent.ctx o.ent.iter with
            | some e => wakeEntry s rk x y i.ik e
            | none => s
          else s
        | none => s
      more s
  match c.lookup.find? fun m => !heldForMerge rg c m with
  | some m =>
    match rg.ovf.find? fun o => o.holds key m.tok with
    | some o => .next (settle (bring s o) rk)
    | none =>
      let s := arrive (s.modCell key fun c => { c with lookup := c.lookup.erase m }) rk m false
      .next (settle (more s) rk)
  | none =>
    match rg.ovf.find? (ovReady s rk x y) with
    | some o => .next (settle (bring s o) rk)
    | none => .next s

/-- COUNT_TOKEN (R306): a second count of one LSID, or a second non-null `bro`, faults the instance. A count that comes after the commit completes nothing
(log 43). -/
def execCountToken (rk : RKey) (ik : IKey) (idx : Nat) (null : Bool) (s : State) : Out :=
  let rg := s.region rk
  match rg.inst? ik, (rg.block ik.blk).node idx with
  | some i, some nd =>
    let bad := s.gFault rk { ik := ik, cause := cILLEGAL, addr := w64 idx, idx := idx
                             x := ((rg.block ik.blk).at idx).1, y := ((rg.block ik.blk).at idx).2 }
    .next <| if i.committed then s else settle (match nd with
      | .gBro _ =>
        if null then s
        else if 0 < i.bros then bad
        else s.modInst rk ik fun i => { i with bros := i.bros + 1 }
      | .gFwr _ => s.modInst rk ik fun i => { i with fws := i.fws + 1 }
      | nd =>
        if i.lsids.contains (lsidOf nd) then bad
        else s.modInst rk ik fun i => { i with lsids := i.lsids ++ [lsidOf nd] }) rk
  | _, _ => .next s

/-- The descriptor whose entry a buoy is. -/
def entryDesc (s : State) (rk : RKey) (buoy : Nat) : Option Word :=
  let rg := s.region rk
  rg.fn.find? fun d => match readDesc s (s.devAgent rk.vmid (handleCove rg.handle)) d with
    | .ok (d, _) => d.entry == buoy
    | .error _ => false

/-- A token at a buoy (R490), sent by `src`: the buoy's A-cell forwards the token to the left slot of the target node. A token for a
context that has ended is discarded (R350), as is one for a buoy that does not stand in the region. A region that is not
placed moors it; where the ring is full, or there is none, the context that sent it faults QUEUE (R352). -/
def buoyArrive (rk : RKey) (buoy : Nat) (t : Token) (src : Option (RKey × IKey)) (s : State) : Out :=
  let rg := s.region rk
  match AMap.get? rg.buoys buoy with
  | none => .next (s.count rk.vmid .staleTag)
  | some b =>
    if (s.tenant rk.vmid).fgen t.ctx.frame.toNat ≠ t.ctx.fgen then .next (staleAt s rk t src (entryDesc s rk buoy))
    else if rg.st = 3 ∧ rg.wave.isNone then
      let bk := rg.block b.blk
      let tok := tokenFor bk b.idx 0 t.ctx t.iter t.payload t.ftag t.act
      .next (s.sendTok rk (b.x, b.y) 0 tok none)
    else
      -- the region is being saved or is swapped out: the token moors with its function (R350)
      match (entryDesc s rk buoy).or rg.fn.head? with
      | none => .next (s.count rk.vmid .staleTag)
      | some d =>
        match routeToken s rk.vmid (buoySpot rg buoy).1 rg.qid d t false src with
        | .sent s => .next s
        | _ =>
          match src with
          | none => .next (s.count rk.vmid .staleTag)
          | some (k, ik) =>
            .next (settle (s.gFault k { ik := ik, committed := true, cause := cQUEUE, addr := d ||| 1#64, idx := 0
                                        work := [.ev (.buoyTokenArrival rk buoy t src)] }) k)

/-- BUOY_TOKEN_ARRIVAL: a token of no context that could fault. -/
def execBuoyTokenArrival (rk : RKey) (buoy : Nat) (t : Token) (s : State) : Out := buoyArrive rk buoy t none s

end Sys2Proof.Machine
end

