-- ==== Sys2Proof/Machine/GMem.lean ====
section
/-! DEFINITION. What a region's nodes reach: the address forms (R339), the owning A-cells and their coalescing
buffers (R344), local stores (R183), M-cell words with their states and waiters (R184, R262, R345), frames
(R320), the values of pending writes (R340), and the event of a reply (R343). -/

namespace Sys2Proof.Machine

/-! ## Address forms (R339) -/

/-- What an address names. -/
inductive GAddr where
  | va (a : Word)
  | mcell (x y off : Nat)
  | loc (off : Nat)
  | bad
  deriving DecidableEq, Repr

def gForm (a : Word) : GAddr :=
  if canonical a then .va a
  else if fld a 63 60 = 0xA ∧ fld a 59 28 = 0 then .mcell (fld a 27 22) (fld a 21 16) (fld a 15 0)
  else if fld a 63 60 = 0xB ∧ fld a 59 13 = 0 then .loc (fld a 12 0)
  else .bad

/-- A region as an agent at a cove: its TROOT (R432), user access (log 21). -/
def State.gAgent (s : State) (rk : RKey) (cove : Nat) : Agent :=
  { vmid := rk.vmid, troot := (s.region rk).troot, sup := false, core := none, cove := cove }

/-- A region's cell as an agent: an A-cell translates through its micro-TLB (R433). -/
def State.cellAgent (s : State) (rk : RKey) (key : Nat) : Agent :=
  { s.gAgent rk (coveOfXY (key % 128) (key / 128)) with
    cell := if cellKind (key % 128) (key / 128) = 2 then some key else none }

/-- A fault with its TVAL. -/
def gErr {α : Type} (cause : BitVec 8) (tval : Word) : Except Trap α := .error { cause := cause, tval := tval }

/-- The M-cell of a region that an address names; PERM for a position outside it, another kind, or one
marked UNUSED. -/
def mCellAt (s : State) (rk : RKey) (x y : Nat) (a : Word) : Except Trap Nat :=
  let rg := s.region rk
  if x < handleW rg.handle ∧ y < handleH rg.handle ∧ cellKind x y = 1 ∧ !rg.isUnused x y then
    .ok (cellAt rg.handle x y)
  else gErr cPERM a

/-! ## Owning A-cells (R344) -/

/-- The region's A-cells not marked UNUSED, row-major. -/
def Region.aCells (rg : Region) : List (Nat × Nat) :=
  rg.xys.filter fun q => cellKind q.1 q.2 == 2 && !rg.isUnused q.1 q.2

/-- The owner of a VA's line. -/
def Region.ownerOf (rg : Region) (va : Word) : Nat × Nat :=
  let l := rg.aCells
  l.getD (va.toNat / 64 % max 1 l.length) (0, 0)

/-- The number by which a drain of a cell's buffer is known: after the cores. -/
def drainNo (key : Nat) : Nat := 1024 + key

/-- One line of an A-cell's buffer drained to its cove L2. -/
def acbDrain (s : State) (key line : Nat) : State :=
  let c := s.cell key
  match c.acb.find? fun e => e.line == line with
  | none => s
  | some e =>
    (s.setCell key { c with acb := c.acb.filter fun e => e.line != line }).l2Put (coveOfXY (key % 128) (key / 128))
      { pa := 64 * line, hs := false, tide := e.tide } (e.bytes.map (·.1)) false
      fun d => e.bytes.foldl (fun d p => insBytes d p.1 [p.2]) d

/-- An A-cell's buffer flushed. -/
def acbFlush (s : State) (key : Nat) : State :=
  ((s.cell key).acb.map (·.line)).foldl (fun s l => acbDrain s key l) s

/-- Every buffer of a region flushed. -/
def flushRegion (s : State) (rk : RKey) : State :=
  let rg := s.region rk
  rg.aCells.foldl (fun s q => acbFlush s (cellAt rg.handle q.1 q.2)) s

/-- The coves a region lies in. -/
def Region.coves (rg : Region) : List Nat :=
  (rg.xys.map fun q => coveOfXY (handleX rg.handle + q.1) (handleY rg.handle + q.2)).eraseDups

/-- The scope of a region's event: `.cv` in a region that lies in several coves is `.dv` (R232). -/
def Region.scope (rg : Region) (sc : Scope) : Scope := if sc = .cv && 1 < rg.coves.length then .dv else sc

/-- A release by a region's context: buffers flushed, at `.dv` and `.sy` every write of its coves performed
at its home (Remark of 10_memory_model.md). -/
def gRelease (s : State) (rk : RKey) (sc : Scope) : State :=
  match (s.region rk).scope sc with
  | .th => s
  | .cv => flushRegion s rk
  | _ => ((s.region rk).coves).foldl (fun s c => s.l2ForwardAll c) (flushRegion s rk)

/-- An acquire by a region's context: what its stream windows hold was read before it and is read again (R205, R234). No
cache of a cell is older than the home (R249). -/
def gAcquire (s : State) (rk : RKey) (sc : Scope) : State :=
  if sc = .th then s
  else s.modCells rk fun _ _ c => { c with loops := c.loops.map fun l => { l with wins := [] } }

/-- Bytes of one 64-byte line read by a line's owner: its buffer's bytes over the cove L2's. -/
def ownerRead (s : State) (rk : RKey) (va : Word) (n : Nat) (k : Kind := .r) : Except Trap (List Byte × Phys × State) :=
  let rg := s.region rk
  let (ox, oy) := rg.ownerOf va
  let key := cellAt rg.handle ox oy
  let cove := coveOfXY (key % 128) (key / 128)
  match xlat s (s.cellAgent rk key) va k with
  | .error t => .error t
  | .ok (p, s) =>
    let (bs, s) := s.l2Read cove p n
    match (s.cell key).acb.find? fun e => e.line == p.pa / 64 with
    | none => .ok (bs, p, s)
    | some e => .ok ((indexed (p.pa % 64) bs).map (fun q => (AMap.get? e.bytes q.1).getD q.2), p, s)

/-- Bytes of one line written by its owner into its buffer of 16 lines. -/
def ownerPut (s : State) (rk : RKey) (va : Word) (p : Phys) (bs : List Byte) : State :=
  let rg := s.region rk
  let (ox, oy) := rg.ownerOf va
  let key := cellAt rg.handle ox oy
  let line := p.pa / 64
  let cove := coveOfXY (key % 128) (key / 128)
  let put (m : AMap Byte) : AMap Byte := (indexed (p.pa % 64) bs).foldl (fun m q => AMap.set m q.1 q.2) m
  let c := s.cell key
  if s.uncached p then s.homeWrite (some cove) p.pa bs
  else if c.acb.any fun e => e.line == line then
    s.setCell key { c with acb := c.acb.map fun e => if e.line = line then { e with bytes := put e.bytes, last := s.clk } else e }
  else
    let s := if c.acb.length < 16 then s else match c.acb with | [] => s | e :: _ => acbDrain s key e.line
    let s := s.modCell key fun c => { c with acb := c.acb ++ [{ line := line, bytes := put [], last := s.clk, tide := p.tide }] }
    s.after 64 (.coalesceDrainTimeout (drainNo key) line)

/-- A word's line brought to its home from its owner, whose cove keeps no superseded copy of it (R243). -/
def ownerHome (s : State) (rk : RKey) (va : Word) (p : Phys) : State :=
  let rg := s.region rk
  let (ox, oy) := rg.ownerOf va
  let key := cellAt rg.handle ox oy
  ((acbDrain s key (p.pa / 64)).gather (p.pa / 64)).dropOld (coveOfXY (key % 128) (key / 128)) (p.pa / 64)

/-- Bytes of one line written, translated and performed. -/
def ownerWrite (s : State) (rk : RKey) (va : Word) (bs : List Byte) : Except Trap State :=
  let rg := s.region rk
  let (ox, oy) := rg.ownerOf va
  let key := cellAt rg.handle ox oy
  match xlat s (s.cellAgent rk key) va .w with
  | .error t => .error t
  | .ok (p, s) => .ok (ownerPut s rk va p bs)

/-- A write that waited for its commit: one that reaches part of a line poisoned meanwhile is discarded and counted as
ECC_UE (R200). -/
def ownerWriteLate (s : State) (rk : RKey) (va : Word) (bs : List Byte) : Except Trap State :=
  let rg := s.region rk
  let (ox, oy) := rg.ownerOf va
  let key := cellAt rg.handle ox oy
  match translate s (s.cellAgent rk key) va .w with
  | .error t => .error t
  | .ok (p, s) => .ok (if s.isPoison p.pa then s.countEcc 0x21 else ownerPut s rk va p bs)

/-- Hops from an A-cell to a VA's owner and back. -/
def ownerHops (s : State) (rk : RKey) (x y : Nat) (va : Word) : Nat :=
  let o := (s.region rk).ownerOf va
  if o = (x, y) then 0 else 2 * hops (x, y) o

/-! ## M-cell words (R184, R189) -/

/-- A word's state as a generation sees it. -/
def mState (c : Cell) (g : Gen) (off : Nat) : Nat :=
  if (AMap.getD c.mem (off / 64) {}).gen = g then AMap.getD c.wst (off / 8) 0 else 0

/-- The stamp of a granule of M-cell memory becomes `g`: the words of another generation are 0 and empty,
and its deferred readers are discarded as stale. -/
def mRestamp (s : State) (rk : RKey) (key : Nat) (g : Gen) (off : Nat) : State :=
  let c := s.cell key
  if (AMap.getD c.mem (off / 64) {}).gen = g then s
  else
    let old (w : Waiting) : Bool := w.off / 64 == off / 64 && w.f.rk != rk
    let s := (c.defer.filter old).foldl (fun s w => s.count w.f.rk.vmid .staleTag) s
    s.setCell key { c with
      wst := c.wst.filter fun q => q.1 / 8 != off / 64
      defer := c.defer.filter fun w => !old w }

/-- A word's state set. -/
def mSet (s : State) (key off st : Nat) : State :=
  s.modCell key fun c => { c with wst := AMap.put 0 c.wst (off / 8) st }

/-- Heap blocks that the waiters beyond the pool no longer need return (R262). -/
def trimPool (s : State) (rk : RKey) (key : Nat) : State :=
  let c := s.cell key
  let n := c.defer.length + c.locks.foldl (fun n q => n + q.2.wait.length) 0
  let need := (n - 512 + 3) / 4
  let cove := coveOfXY (key % 128) (key / 128)
  (c.ovf.drop need).foldl (fun s f => returnFrame s rk.vmid cove f)
    (s.setCell key { c with ovf := c.ovf.take need })

/-- Room for one more waiter of an M-cell: beyond 512 a 32-byte entry of the frame heap. -/
def poolRoom (s : State) (rk : RKey) (key : Nat) : Except Trap State :=
  let c := s.cell key
  let n := c.defer.length + c.locks.foldl (fun n q => n + q.2.wait.length) 0
  if n < 512 ∨ (n - 512) / 4 < c.ovf.length then .ok s
  else
    match allocFrame s (s.devAgent rk.vmid (coveOfXY (key % 128) (key / 128))) 128 with
    | .error t => .error t
    | .ok (f, s) => .ok (s.modCell key fun c => { c with ovf := c.ovf ++ [f] })

/-- The value of a full word goes to its deferred readers, in the order they deferred; deferred
contributions come to their decision (R267, R346). -/
def mWake (s : State) (rk : RKey) (mx my key off : Nat) (v : Word) : State :=
  let c := s.cell key
  let mine (w : Waiting) : Bool := w.off == off / 8 * 8
  let s := s.setCell key { c with defer := c.defer.filter fun w => !(mine w && isLoad w.node) }
  trimPool ((c.defer.filter mine).foldl (fun s w =>
    let d := hops (mx, my) (w.f.x, w.f.y)
    let s := if isLoad w.node then
        gAcquire (s.modCell (s.cellOf w.f.rk w.f.x w.f.y) fun c =>
          { c with replies := c.replies.map fun r =>
              if r.f.ik = w.f.ik ∧ r.f.idx = w.f.idx then { r with val := some v } else r }) w.f.rk .dv
      else s
    s.after d (.memoryReply w.f.rk w.f.ik w.f.idx)) s) rk key

/-- The words that bytes [off, off + n) touch. -/
def wordsOf (off n : Nat) : List Nat :=
  if n = 0 then [] else (List.range ((off + n - 1) / 8 - off / 8 + 1)).map fun k => 8 * (off / 8 + k)

/-- Bytes of M-cell memory written under a generation without a change of state. -/
def mPutG (s : State) (rk : RKey) (key : Nat) (g : Gen) (off : Nat) (bs : List Byte) : Except Trap State :=
  match granWrite (s.cell key).mem g off bs with
  | .error t => .error t
  | .ok m =>
    let s := (wordsOf off bs.length).foldl (fun s w => mRestamp s rk key g w) s
    .ok (s.modCell key fun c => { c with mem := m })

/-- Bytes of M-cell memory written as `st` writes them: each word touched becomes full and wakes its
readers (R342). -/
def mWriteG (s : State) (rk : RKey) (mx my key : Nat) (g : Gen) (off : Nat) (bs : List Byte) : Except Trap State :=
  match mPutG s rk key g off bs with
  | .error t => .error t
  | .ok s =>
    .ok ((wordsOf off bs.length).foldl (fun s w =>
      let v := match granRead (s.cell key).mem g false w 8 with | .ok bs => bytesWord bs | .error _ => 0#64
      mWake (mSet s key w 1) rk mx my key w v) s)

/-- Bytes of M-cell memory read by a region (R189). -/
def mRead (s : State) (rk : RKey) (key off n : Nat) : Except Trap (List Byte) :=
  let rg := s.region rk
  granRead (s.cell key).mem rg.gen rg.trap off n

/-- A word of M-cell memory, zero where it cannot be read. -/
def mWord (s : State) (rk : RKey) (key off : Nat) : Word :=
  match mRead s rk key off 8 with | .ok bs => bytesWord bs | .error _ => 0#64

/-- Writes of a region. -/
def mPut (s : State) (rk : RKey) (key off : Nat) (bs : List Byte) : Except Trap State :=
  let rg := s.region rk
  mPutG s rk key rg.gen off bs
def mWrite (s : State) (rk : RKey) (mx my key off : Nat) (bs : List Byte) : Except Trap State :=
  let rg := s.region rk
  mWriteG s rk mx my key rg.gen off bs

/-! ## Local stores (R183) -/

/-- An access to a cell's own store: PERM below XBND or above 0x11FF. -/
def localOk (c : Cell) (off n : Nat) (a : Word) : Except Trap Unit :=
  if c.xbnd ≤ off ∧ off + n ≤ 0x1200 then .ok () else gErr cPERM a

def localRead (s : State) (rk : RKey) (key off n : Nat) (a : Word) : Except Trap (List Byte) :=
  let rg := s.region rk
  let c := s.cell key
  match localOk c off n a with
  | .error t => .error t
  | .ok _ => granRead c.store rg.gen rg.trap off n

def localWrite (s : State) (rk : RKey) (key off : Nat) (bs : List Byte) (a : Word) : Except Trap State :=
  let rg := s.region rk
  let c := s.cell key
  match localOk c off bs.length a with
  | .error t => .error t
  | .ok _ =>
    match granWrite c.store rg.gen off bs with
    | .error t => .error t
    | .ok m => .ok (s.setCell key { c with store := m })

/-! ## Sizes and payloads -/

/-- The size field in bytes (R53). -/
def nodeBytes (n : GNode) : Nat := 2 ^ (n.sizeField % 4)

/-- The scope field (R42). -/
def nodeScope (n : GNode) : Scope :=
  match n.scopeField with | 0 => .th | 1 => .cv | 2 => .dv | _ => .sy

/-- The signed byte offset IMM[7:0]. -/
def nodeOff (n : GNode) : Word := sext 8 (w64 (n.immField 7 0))

/-- Bytes read as a payload (R341): sign-extended for INT, else the low bytes. -/
def loadPay (f : Fmt) (bs : List Byte) : Word :=
  if f = .int then sext (8 * bs.length) (bytesWord bs) else bytesWord bs

/-- An urgent block's memory nodes reach VA only (R303). -/
def formOk (s : State) (f : Firing) (a : Word) (k : Kind) : Except Trap GAddr :=
  match gForm a with
  | .va a => .ok (.va a)
  | .bad => gErr k.cause a
  | g => if ((s.region f.rk).block f.ik.blk).urg then gErr cPERM a else .ok g

/-! ## Pending writes (R340) -/

/-- The commit order of a context's instances. -/
def comOrder (a b : Inst) : Bool := decide (a.com ≤ b.com)

/-- The writes of a context that an instance's load must see, oldest first: committed and not yet
performed, of earlier instances, and its own of lower LSID. -/
def pendBefore (rg : Region) (ik : IKey) (lsid : Nat) : List Pend :=
  match rg.inst? ik with
  | none => []
  | some me =>
    let done := sortBy comOrder (rg.insts.filter fun i => i.committed && i.ik.ctx == ik.ctx && i.ik != ik)
    let before := sortBy (fun a b => a.before b) (rg.earlier me)
    (done ++ before).flatMap (fun i => sortBy (fun a b => decide (a.lsid ≤ b.lsid)) (i.pend.filter fun p => !p.done))
      ++ sortBy (fun a b => decide (a.lsid ≤ b.lsid)) (me.pend.filter fun p => !p.done && decide (p.lsid < lsid))

/-- The bytes a pending plain store writes, and where. -/
def pendBytes (p : Pend) : Option (Nat × List Byte) :=
  let v := match p.f.r with | some m => m.tok.payload | none => 0#64
  match p.node with
  | .gSt n | .gStrl n => some (p.addr.toNat, natBytes (nodeBytes n) v.toNat)
  | .gIwr _ => some (p.addr.toNat, natBytes 8 v.toNat)
  | _ => none

/-- The bytes of an `amo` in waiting. -/
def pendAmo (p : Pend) : Option (Nat × Nat) :=
  match p.node with
  | .gAmo n => some (p.addr.toNat, nodeBytes n)
  | _ => none

def overlaps (a n b m : Nat) : Bool := decide (a < b + m) && decide (b < a + n)

/-- Bytes with the pending writes put over them, byte by byte, the youngest last. -/
def forwardOver (ps : List Pend) (a : Nat) (bs : List Byte) : List Byte :=
  ps.foldl (fun bs p =>
    match pendBytes p with
    | none => bs
    | some (b, w) =>
      (indexed a bs).map fun q => if b ≤ q.1 ∧ q.1 < b + w.length then w.getD (q.1 - b) q.2 else q.2) bs

/-- The store-type nodes whose LSID satisfies `p` have all fired. -/
def storesFired (s : State) (rk : RKey) (i : Inst) (p : Nat → Bool) : Bool :=
  let b := (s.region rk).block i.ik.blk
  (b.nodes.all fun q => !isStore q.2 || !p (lsidOf q.2) || i.fired.contains q.1)
    && !s.duties.any fun d =>
      match d.work with
      | .node nd f => f.rk == rk && f.ik == i.ik && isStore nd && p (lsidOf nd)
      | .ev _ => false

/-- A load-type node may be performed (R340). -/
def loadReady (s : State) (f : Firing) (nd : Instr) : Bool :=
  let rg := s.region f.rk
  match rg.inst? f.ik with
  | none => true
  | some i => storesFired s f.rk i (fun k => decide (k < lsidOf nd))
    && (rg.earlier i).all fun j => storesFired s f.rk j fun _ => true

/-- An `amo` that a load overlaps: ILLEGAL where it is the instance's own, a wait where an earlier one's. -/
def amoClash (s : State) (f : Firing) (nd : Instr) (a : Word) (n : Nat) : Except (Option Trap) Unit :=
  match (pendBefore (s.region f.rk) f.ik (lsidOf nd)).find? fun p =>
      match pendAmo p with | some (b, m) => overlaps a.toNat n b m | none => false with
  | none => .ok ()
  | some p => if p.f.ik = f.ik then .error (some { cause := cILLEGAL, tval := w64 f.idx }) else .error none

/-! ## Frames (R320, R321) -/

/-- The VA of a frame word of a context, checked against the frame's size class. -/
def frameWord (s : State) (rk : RKey) (c : Ctx) (fw : Nat) : Except Trap Word :=
  let t := s.tenant rk.vmid
  let va := t.frameVa c
  if t.frameBytes va < 8 * fw + 8 then gErr cFRAME va else .ok (va + w64 (8 * fw))

/-! ## Replies (R343) -/

/-- A load-type firing takes its place in its A-cell's channel as it begins (R343). -/
def State.takePlace (s : State) (i : Instr) (f : Firing) : State :=
  if !f.began then s.modCell (s.cellOf f.rk f.x f.y) fun c => { c with replies := c.replies ++ [{ f := f, node := i }] } else s

/-- A load performed: its value in its place; `lat` clk later its reply is back. -/
def State.openReply (s : State) (f : Firing) (nd : Instr) (v : Option Word) (lat : Nat) : State :=
  let same (r : Reply) : Bool := r.f.ik == f.ik && r.f.idx == f.idx
  let s := s.modCell (s.cellOf f.rk f.x f.y) fun c =>
    { c with replies := if c.replies.any same then c.replies.map fun r => if same r then { r with f := f, val := v } else r
                        else c.replies ++ [{ f := f, node := nd, val := v }] }
  if v.isSome then s.after lat (.memoryReply f.rk f.ik f.idx) else s

/-- The reorder buffer of an ordered channel is full. -/
def channelFull (s : State) (f : Firing) : Bool :=
  ordered (s.region f.rk) f.x f.y && decide (64 ≤ (s.cell (s.cellOf f.rk f.x f.y)).replies.length)

/-- The `ird` of a memory word takes it when it is full (R345). -/
def irdTake (s : State) (r : Reply) : Option (Except Trap (Word × State)) :=
  let a := match r.f.l with | some m => m.tok.payload | none => 0#64
  match xlat s (s.cellAgent r.f.rk (s.cellOf r.f.rk r.f.x r.f.y)) a .r with
  | .error t => some (.error t)
  | .ok (p, s) =>
    let s := ownerHome s r.f.rk a p
    if s.isFull p.pa then some (.ok (s.homeWord p, s)) else none

/-! ## Program order (R234, R245, R341, R347) -/

/-- The operation and ordering of an `amo` (R44, R260). -/
def nodeAmoOp (n : GNode) : AmoOp :=
  match n.immField 7 4 with
  | 0 => .add | 1 => .and | 2 => .or | 3 => .xor | 4 => .min | 5 => .max | 6 => .minu | 7 => .maxu | 8 => .swap
  | 9 => .cas | _ => .fadd

def nodeAmoOrd (n : GNode) : AmoOrd :=
  match n.immField 3 2 with | 0 => .relaxed | 1 => .acq | 2 => .rel | _ => .ar

def isFence : Instr → Bool
  | .gFence _ => true
  | _ => false

def isLda : Instr → Bool
  | .gLda _ => true
  | _ => false

/-- The nodes that acquire (R233). -/
def isAcquire : Instr → Bool
  | .gLda _ | .gFence _ | .gIrd _ | .gLkt _ => true
  | .gAmo n => AmoOrd.acquires (nodeAmoOrd n)
  | _ => false

/-- The nodes whose effect is a release (R233, R264, R267). -/
def isRelease : Instr → Bool
  | .gStrl _ | .gLkg _ | .gMcomb _ | .gCall _ | .gCcall _ | .gFfree _ | .gRet _ | .gGat _ | .gSct _ | .gCpy _ | .gTadv _
  | .gRec _ => true
  | .gAmo n => AmoOrd.releases (nodeAmoOrd n)
  | _ => false

/-- The nodes that a fence orders by LSID. -/
def hasLsid (i : Instr) : Bool :=
  isLoad i || isStore i || isFence i || match i with
    | .gLkt _ | .gLkg _ | .gMcomb _ | .gPost _ | .gGat _ | .gCpy _ | .gTadv _ | .gRec _ => true
    | _ => false

/-- The node `q` of an instance has fired, and no firing of it is under way. -/
def nodeDone (s : State) (rk : RKey) (i : Inst) (q : Nat × Instr) : Bool :=
  i.fired.contains q.1 && !s.duties.any fun d =>
    match d.work with
    | .node _ f => f.rk == rk && f.ik == i.ik && f.idx == q.1
    | .ev _ => false

/-- Every node of the instance that satisfies `p` is done. -/
def nodesDone (s : State) (rk : RKey) (i : Inst) (p : Instr → Bool) : Bool :=
  ((s.region rk).block i.ik.blk).nodes.all fun q => !p q.2 || nodeDone s rk i q

/-- The node has fired and been performed: its effect is not left to the commit, its value is taken, its lock granted. -/
def nodePerformed (s : State) (rk : RKey) (i : Inst) (q : Nat × Instr) : Bool :=
  let (x, y) := ((s.region rk).block i.ik.blk).at q.1
  let mine (f : Firing) : Bool := f.ik == i.ik && f.idx == q.1
  nodeDone s rk i q && !(i.pend.any fun p => !p.done && mine p.f)
    && !((s.cell (s.cellOf rk x y)).replies.any fun r => mine r.f && r.val.isNone)
    && (match q.2 with
      | .gLkt _ => !(s.cells.any fun c => c.2.owner == some rk && c.2.locks.any fun l => l.2.wait.any fun w => mine w.f)
      | _ => true)

/-- An instance's events come before another's: both ordered, in commit order; or it started the other (R245). -/
def Region.precedes (rg : Region) (j me : Inst) : Bool :=
  j.ik != me.ik &&
    ((rg.ordered j && rg.ordered me && j.ik.ctx == me.ik.ctx
      && if j.committed then !me.committed || decide (j.com < me.com) else !me.committed && j.before me)
    || me.from_.head? == some j.ik)

/-- Nodes of the instances before one that satisfy `p` are still to be performed; of a committed one, those that have
fired. -/
def leftBefore (s : State) (rk : RKey) (me : Inst) (p : Instr → Bool) : Bool :=
  let rg := s.region rk
  rg.insts.any fun j => rg.precedes j me && (rg.block j.ik.blk).nodes.any fun q =>
    p q.2 && (!j.committed || j.fired.contains q.1) && !nodePerformed s rk j q

/-- Nodes of the instance below an LSID that satisfy `p` are still to be performed. -/
def leftBelow (s : State) (rk : RKey) (me : Inst) (lsid : Nat) (p : Instr → Bool) : Bool :=
  ((s.region rk).block me.ik.blk).nodes.any fun q => p q.2 && decide (lsidOf q.2 < lsid) && !nodePerformed s rk me q

/-- The same of those that have fired. -/
def firedBelow (s : State) (rk : RKey) (me : Inst) (lsid : Nat) (p : Instr → Bool) : Bool :=
  ((s.region rk).block me.ik.blk).nodes.any fun q =>
    p q.2 && decide (lsidOf q.2 < lsid) && me.fired.contains q.1 && !nodePerformed s rk me q

/-- An access of a firing may be performed as far as acquires go: every fence and `lda` below it, and every acquire of the
instances before, is performed. -/
def fenceReady (s : State) (f : Firing) (nd : Instr) : Bool :=
  match (s.region f.rk).inst? f.ik with
  | none => true
  | some me => !leftBelow s f.rk me (lsidOf nd) (fun q => isFence q || isLda q) && !leftBefore s f.rk me isAcquire

/-- A fence may be performed: every node below it, every access of the instances before, and their commits (R347). -/
def fenceMay (s : State) (f : Firing) (nd : Instr) : Bool :=
  let rg := s.region f.rk
  match rg.inst? f.ik with
  | none => true
  | some me => !leftBelow s f.rk me (lsidOf nd) hasLsid && !leftBefore s f.rk me (fun q => isLoad q || isAcquire q)
    && rg.insts.all fun j => !rg.precedes j me || (j.committed && !j.pend.any (!·.done))

/-! ## Combining at an M-cell (R266, R267) -/

/-- The operation of a control word. -/
def combOp (k : Nat) : Option AmoOp :=
  match k with
  | 0 => some .add | 1 => some .and | 2 => some .or | 3 => some .xor | 4 => some .min | 5 => some .max
  | 6 => some .minu | 7 => some .maxu | 10 => some .fadd
  | _ => none

/-- NXFLAGS of a region's table entry: flags joined (R92, R449). -/
def regionFlags (s : State) (rk : RKey) (fl : BitVec 5) : State :=
  let rg := s.region rk
  let va := (s.tenant rk.vmid).args.rtab + w64 (64 * rk.ridx + 16)
  if fl = 0#5 then s
  else
    match s.homeLoad (s.devAgent rk.vmid (handleCove rg.handle)) va .w with
    | .ok (w, p, s) => s.putHome (s.devAgent rk.vmid (handleCove rg.handle)) p (natBytes 8 (w ||| fl.setWidth 64).toNat)
    | .error _ => s

/-- A contribution at its M-cell, as one action: none while the control word is not full. -/
def combine (s : State) (f : Firing) (nd : Instr) : Option State :=
  let rg := s.region f.rk
  let a := match f.l with | some m => m.tok.payload | none => 0#64
  let v := match f.r with | some m => m.tok.payload | none => 0#64
  match gForm a with
  | .mcell x y off =>
    let key := cellAt rg.handle x y
    if mState (s.cell key) rg.gen (off + 8) ≠ 1 then none
    else
      let c := mWord s f.rk key (off + 8)
      let fp := (fieldsOf nd).fmt == .fp32
      match combOp (fld c 63 60) with
      | none => some (s.lateFault f cISTRUCT a)
      | some op =>
        if fld c 31 0 = 0 ∨ (op = .fadd) ≠ (fp = true) then some (s.lateFault f cISTRUCT a)
        else
          let seen := bitAt c 56
          let acc := mWord s f.rk key off
          let (w, fl) : Word × NxFlags :=
            if !seen then (if fp then v &&& 0xFFFFFFFF#64 else v, 0#5)
            else if fp then
              let r := amoNew .fadd 4 (fld acc 31 0) (fld v 31 0) 0
              (w64 (r.1.getD 0), r.2)
            else (w64 ((amoNew op 8 acc.toNat v.toNat 0).1.getD 0), 0#5)
          let n := fld c 31 0 - 1
          let c' := (c &&& ~~~0xFFFFFFFF#64 ||| w64 n) ||| w64 (2 ^ 56)
          let s := match mPut s f.rk key off (natBytes 8 w.toNat) with | .ok s => s | .error _ => s
          let s := match mPut s f.rk key (off + 8) (natBytes 8 c'.toNat) with | .ok s => s | .error _ => s
          let s := if seen then s
            else if mState (s.cell key) rg.gen off = 1 then mSet s key off 0 else s
          let s := regionFlags s f.rk fl
          some (if n = 0 then mWake (mSet s key off 1) f.rk x y key off w else s)
  | _ => some s

/-- MEMORY_REPLY (R343): a reply returns to its A-cell and leaves as a result token, at once or through the
reorder buffer; a read that waits at a memory word looks again; a deferred contribution comes to its
decision. -/
def execMemoryReply (rk : RKey) (ik : IKey) (idx : Nat) (s : State) : Out :=
  let rg := s.region rk
  let (x, y) := (rg.block ik.blk).at idx
  let key := s.cellOf rk x y
  let same (f : Firing) : Bool := f.ik == ik && f.idx == idx
  match recordArc s rk x y ik.blk (.ev (.memoryReply rk ik idx)) with
  | some s => .next s
  | none =>
  match (s.cell key).replies.find? fun r => same r.f && !r.back with
  | some r =>
    let done (s : State) (v : Word) : State :=
      let s := s.modCell key fun c =>
        { c with replies := c.replies.map fun q => if same q.f then { q with val := some v, back := true } else q }
      if ordered rg x y then drainReplies 65 s key
      else
        leaveReply (s.modCell key fun c => { c with replies := c.replies.filter fun q => !same q.f }) { r with val := some v }
    match r.val with
    | some v => .next (settle (done s v) rk)
    | none =>
      match irdTake s r with
      | none => .next (s.after 1 (.memoryReply rk ik idx))
      | some (.ok (v, s)) => .next (settle (done (gAcquire s rk .dv) v) rk)
      | some (.error t) =>
        .next (settle (s.fireFault r.f t []) rk)
  | none =>
    -- a contribution deferred at its M-cell
    match s.cells.find? fun q => q.2.owner == some rk && q.2.defer.any fun w => same w.f with
    | none => .next s
    | some (k, c) =>
      match c.defer.find? fun w => same w.f with
      | none => .next s
      | some w =>
        match combine s w.f w.node with
        | none => .next s
        | some s =>
          .next (settle (trimPool (s.modCell k fun c => { c with defer := c.defer.filter fun w => !same w.f }) rk k) rk)

end Sys2Proof.Machine
end

