-- ==== Sys2Proof/Machine/Matrix.lean ====
section
/-! DEFINITION. The matrix engine of a core (R154-R173, R175-R180), but for `mx.drn`. The engine takes its
operations in turn; one that accumulates goes band by band, each of whose results is written at the band's end
(log 10). -/

namespace Sys2Proof.Machine

/-! ## The engine's queue (R154, R179) -/

/-- The issuing slot's operation in the engine. -/
def State.mxMine (s : State) : Option MxOp := s.myCore.mxq.find? fun o => o.slot == s.cur

/-- The turn of the issuing slot: the engine holds no operation before its own (R154). -/
def mxTurn (s : State) : Bool := match s.myCore.mxq with | o :: _ => o.slot == s.cur | [] => true

/-- The slot's operation as the engine holds it from now on. -/
def mxPut (s : State) (op : MxOp) : State :=
  s.modMyCore fun c =>
    { c with mxq := if c.mxq.any fun o => o.slot == op.slot then c.mxq.map fun o => if o.slot = op.slot then op else o
                    else c.mxq ++ [op] }

/-- The clk at which the slot's operation starts: that of its issue, or the end of the previous one's compute clks, so
that its 24-clk pipeline overlaps it (R179). -/
def mxStart (s : State) : Nat := max ((s.mxMine.map (·.issued)).getD s.clk) (s.myCore.mxEnd - 24)

/-- The operation's effect is done, and its slot leaves the rotation until it completes, `clks` after its start. -/
def mxQueue (s : State) (op : MxOp) (clks : Nat) : State :=
  let due := max s.clk (mxStart s + clks)
  ((mxPut s op).modMyCore fun c => { c with mxEnd := due }).retireFor .mx (due - s.clk) (.mxComplete (coreOf s.cur))

/-- The instruction waits for its turn in the engine. -/
def mxWaitTurn (s : State) (i : Instr) (td : Option Nat) : State :=
  let op : MxOp := { slot := s.cur, td := td, flags := 0#5, accum := false, issued := s.clk }
  (if s.mxMine.isSome then s else mxPut s op).holdOn .mx i 0#64

/-- An instruction of the engine: at its turn its effect, or its trap; before it, its wait. -/
def mxExec (i : Instr) (td : Option Nat) (s : State) (r : Except Trap State) : Out :=
  if mxTurn s then
    match r with
    | .ok t => .next t
    | .error e => .next ((s.mxDrop s.cur).takeTrap e)
  else .next (mxWaitTurn s i td)

/-- An operation on a td is in the engine. -/
def mxBusy (c : Core) (td : Nat) : Bool := c.mxq.any fun o => o.td == some td

/-! ## Tile descriptors (R157-R159) -/

/-- The issuing slot owns the td (R158). -/
def State.owns (s : State) (t : TR) : Bool := t.v && t.owner.toNat == s.cur % 8

def State.needOwner (s : State) (t : TR) : Except Trap Unit := need (s.owns t) cPERM s.openVal

def TR.rows (t : TR) : Nat := t.nrow.toNat + 1
def TR.cols (t : TR) : Nat := t.ncol.toNat + 1

/-- Granules of `n` C-buffer rows from `base` on stamped 0x0000; poison stays. -/
def clearRows (m : AMap Granule) (base n : Nat) : AMap Granule :=
  (List.range (4 * n)).foldl (fun m i =>
    let g := 4 * base + i
    match AMap.get? m g with
    | none => m
    | some e => if e.gen = 0xFFFF#16 then m else AMap.set m g { e with gen := 0#16 }) m

/-- The td as an `mx.tcfg` sees it: a stale one is unconfigured (log 10). -/
def State.oldTd (s : State) (td : TdReg) : TR :=
  let e := AMap.getD s.myCore.td td.toNat {}
  if e.gen = s.me.gen then e else {}

/-- A tile configuration word applied (R157, R159). -/
def tileCfg (i : Instr) (td : TdReg) (w : Word) (s : State) : Except Trap State := do
  let old := s.oldTd td
  need (!(old.v && old.owner.toNat != s.cur % 8 && !s.me.sup)) cPERM s.openVal
  let new : TR := { v := bitAt w 39, owner := w.extractLsb' 36 3, int32 := bitAt w 32, base := w.extractLsb' 12 10,
                    ncol := w.extractLsb' 6 6, nrow := w.extractLsb' 0 6 }
  if fld w 61 40 ≠ 0 then illegal i
  if new.v && 1024 < new.base.toNat + new.rows then illegal i
  let same := old.v && old.base == new.base && old.nrow == new.nrow && old.ncol == new.ncol && old.int32 == new.int32
  let new := if same then { new with restart := old.restart, pflags := old.pflags } else new
  let s ← s.setTd td new
  let stamp := new.v && !same
  let s := if stamp then
      s.modMyCore fun c =>
        let m := if old.v then clearRows c.cbuf old.base.toNat old.rows else c.cbuf
        { c with cbuf := clearRows m new.base.toNat new.rows }
    else s
  return mxQueue s { slot := s.cur, td := some td.toNat, flags := 0#5, accum := false } (if stamp then 4 else 2)

/-- A route entry written (R160). -/
def routeCfg (i : Instr) (td : TdReg) (w : Word) (s : State) : Except Trap State := do
  if fld w 61 60 = 3 ∨ 6 ≤ fld w 59 57 then illegal i
  let s ← s.setRt td (w &&& 0x3E7FFFFFFFFFFFFF#64)
  return mxQueue s { slot := s.cur, td := none, flags := 0#5, accum := false } 2

/-- `mx.tcfg` of either form: bits [63:62] of the word choose (R157, R160). -/
def mxTcfgStep (i : Instr) (td : TdReg) (rs1 : XReg) (s : State) : Except Trap State := do
  let w ← s.xr rs1
  match fld w 63 62 with
  | 0 => tileCfg i td w s
  | 1 => routeCfg i td w s
  | _ => illegal i

/-- The td that a configuration word is for: none for a route entry. -/
def tcfgTd (td : TdReg) (rs1 : XReg) (s : State) : Option Nat :=
  match s.xr rs1 with | .ok w => if fld w 63 62 = 0 then some td.toNat else none | .error _ => none

def execMxTcfg (td : TdReg) (rs1 : XReg) (s : State) : Out :=
  mxExec (.mxTcfg td rs1) (tcfgTd td rs1 s) s (mxTcfgStep (.mxTcfg td rs1) td rs1 s)

def execMxTcfgRoute (td : TdReg) (rs1 : XReg) (s : State) : Out :=
  mxExec (.mxTcfgRoute td rs1) (tcfgTd td rs1 s) s (mxTcfgStep (.mxTcfgRoute td rs1) td rs1 s)

/-- `mx.desc` (R161): nothing is checked; a staged copy of the descriptor is discarded (R180). -/
def execMxDesc (md : MdReg) (rs1 rs2 : XReg) (s : State) : Out :=
  mxExec (.mxDesc md rs1 rs2) none s do
    let a ← s.xr rs1
    let b ← s.xr rs2
    let old := (AMap.getD s.me.md md.toNat {}).val
    let s ← s.setMd md (b ++ a)
    let s := s.modMyCore fun c => { c with staged := if c.staged = some old then none else c.staged }
    return mxQueue s { slot := s.cur, td := none, flags := 0#5, accum := false } 2

/-! ## Operand descriptors (R161, R162) -/

def mdBase (d : BitVec 128) : Word := d.extractLsb' 0 64
def mdSpace (d : BitVec 128) : Nat := fld d 127 126
def mdFmt (d : BitVec 128) : Fmt := Fmt.ofCode (d.extractLsb' 123 3)
def mdRows (d : BitVec 128) : Nat := fld d 122 112 + 1
def mdCols (d : BitVec 128) : Nat := fld d 111 101 + 1
def mdRstr (d : BitVec 128) : Int := (d.extractLsb' 75 26).toInt
def mdCstr (d : BitVec 128) : Nat := fld d 74 64

/-- Bytes read from memory or a typed buffer for an operand (R162). -/
def operandBytes (i : Instr) (s : State) (space : Nat) (at_ : Int) (n : Nat) : Except Trap (List Byte × State) := do
  let a := BitVec.ofInt 64 at_
  match space with
  | 0 =>
    need (aligned a n) cMISALIGN a
    s.load a n
  | 3 => illegal i
  | k =>
    let b := if k = 1 then Buf.w else Buf.a
    need (decide (0 ≤ at_) && decide (at_ + n ≤ Buf.size b)) cPERM a
    let bs ← granRead (s.myCore.buf b) s.me.gen s.me.trapMode at_.toNat n
    return (bs, s)

/-- The bits of element (r, c) of an operand. -/
def mdElem (i : Instr) (s : State) (d : BitVec 128) (r c : Nat) : Except Trap (Nat × State) := do
  let f := mdFmt d
  let e : Int := r * mdRstr d + c * mdCstr d
  if f = .lq4 then
    let (bs, s) ← operandBytes i s (mdSpace d) ((mdBase d).toNat + e / 2) 1
    return (bytesNat bs / 2 ^ (4 * (e % 2).toNat) % 16, s)
  else
    let n := Fmt.width f / 8
    let (bs, s) ← operandBytes i s (mdSpace d) ((mdBase d).toNat + e * n) n
    return (bytesNat bs, s)

/-- A row of elements, columns `c` on. -/
def mdRow (i : Instr) (d : BitVec 128) (r : Nat) (s : State) : List Nat → Except Trap (List Nat × State)
  | [] => .ok ([], s)
  | c :: cs => do
    let (x, s) ← mdElem i s d r c
    let (xs, s) ← mdRow i d r s cs
    return (x :: xs, s)

/-- Rows of elements. -/
def mdBlock (i : Instr) (d : BitVec 128) (cols : List Nat) (s : State) : List Nat → Except Trap (List (List Nat) × State)
  | [] => .ok ([], s)
  | r :: rs => do
    let (x, s) ← mdRow i d r s cols
    let (xs, s) ← mdBlock i d cols s rs
    return (x :: xs, s)

/-! ## Summation (R164-R166) -/

/-- The exact sum of products of a group with its special values (R164); an exact zero is -0 only where
every product is -0 (log 10). -/
def prodSum (ps : List (FV × FV)) : FV × NxFlags :=
  let bad (p : FV × FV) : Bool := p.1.isNan || p.2.isNan || badProduct p.1 p.2
  let prods := (ps.filter fun p => !bad p).map fun p => p.1.times p.2
  let pos := prods.any fun p => p.isInf && !p.isNeg
  let neg := prods.any fun p => p.isInf && p.isNeg
  let nv := pos && neg || ps.any fun p => p.1.sig || p.2.sig || badProduct p.1 p.2
  if ps.any bad || pos && neg then (.nan false, flagIf nv fNV)
  else if pos || neg then (.inf neg, 0#5)
  else
    let d := prods.foldl (fun (a : Dy) (p : FV) => a.add p.dy) ({ n := 0, e := 0 } : Dy)
    if d.n = 0 then (.zero (!prods.isEmpty && prods.all fun p => p.isZero && p.isNeg), 0#5) else (.fin d, 0#5)

/-- The addend of a group (AddGroup): its sum rounded to FP32. -/
def groupAdd (ps : List (FV × FV)) : Nat × NxFlags :=
  let (s, f) := prodSum ps
  let (t, g) := roundFV .fp32 .rne {} s
  (t, f ||| g)

/-- The addend of an LQ4 block (AddBlock, R165). -/
def blockAdd (ps : List (FV × FV)) (ss sc : Nat) : Nat × NxFlags :=
  let (b, f) := blockScale ss sc
  let (t, g) := groupAdd ps
  let (u, h) := fpMul .fp32 .rne {} (Fmt.value .fp32 t) b
  (u, f ||| g ||| h)

/-- A list cut into groups of `g`. -/
def groupsOf {α : Type} (g : Nat) : Nat → List α → List (List α)
  | 0, _ => []
  | fuel + 1, l => if l.isEmpty then [] else l.take g :: groupsOf g fuel (l.drop g)

/-- The addends of an element's groups, in order, with the flags of their sums. -/
def addends (l : List (Nat × NxFlags)) : List Nat × NxFlags := (l.map (·.1), l.foldl (fun fl p => fl ||| p.2) 0#5)

/-- The addend of an element of integers: the sum of products modulo 2^32 (R166). -/
def intAdd (ps : List (Nat × Nat)) : Nat := natOf 32 (ps.foldl (fun a p => a + intOf 8 p.1 * intOf 8 p.2) 0)

/-! ## The tile -/

/-- The accumulators of columns [c, c + n) of a C-buffer row: zero in a granule of another generation
(R159); POISON for a poisoned one. -/
def accRow (s : State) (row c n : Nat) : Except Trap (List Nat) :=
  (List.range n).mapM fun k =>
    let g := 4 * row + (c + k) / 16
    let e := AMap.getD s.myCore.cbuf g {}
    if e.gen = 0xFFFF#16 then fail cPOISON (w64 (64 * g))
    else .ok (if e.gen = s.me.gen then elemN e.data.toNat 32 ((c + k) % 16) else 0)

/-- A row's columns [c, ..) written (R172). -/
def putRow (s : State) (row c : Nat) (xs : List Nat) : State :=
  s.modMyCore fun k =>
    { k with cbuf := granWriteAux (4 * xs.length + 1) k.cbuf s.me.gen (256 * row + 4 * c) (xs.flatMap (natBytes 4)) }

/-- The band of rows [m0, m1) of an operation on `mRows` rows: its accumulators, and the addends that `f` gives for
the elements of each row. DESIGN CHOICE (log 78): A is read before B, B before the side records, and the accumulators
after them, so the first of these to fail gives the band's fault (R168). -/
def mkBand (s : State) (base c n m0 m1 mRows : Nat) (ints : Bool) (f : Nat → List (List Nat × NxFlags)) :
    Except Trap MxBand := do
  let ms := (List.range (m1 - m0)).map (· + m0)
  let accs ← ms.mapM fun m => accRow s (base + m) c n
  let rows := ms.map f
  return { row := base + m0, col := c, stop := m1, last := decide (mRows ≤ m1), ints := ints, accs := accs
           adds := rows.map fun r => r.map (·.1)
           flags := rows.foldl (fun fl r => r.foldl (fun fl e => fl ||| e.2) fl) 0#5 }

/-- The td's restart row and flags changed. -/
def setProgress (s : State) (td : TdReg) (row : Nat) (fl : NxFlags) : State :=
  s.modMyCore fun c =>
    let t := AMap.getD c.td td.toNat {}
    { c with td := AMap.set c.td td.toNat { t with restart := BitVec.ofNat 7 row, pflags := t.pflags ||| fl } }

/-- MXROW as an operation that stops leaves it (R115, R168). -/
def setMxrow (s : State) (td : TdReg) (row : Nat) : State :=
  s.modMe fun v => { v with mxTd := td, mxRows := BitVec.ofNat 7 row }

/-- A band begins: the slot is out of the rotation until its end, in proportion to the operation's compute clks. -/
def mxBandStart (s : State) (op : MxOp) (b : MxBand) (mRows : Nat) : State :=
  let due := max (s.clk + 1) (mxStart s + (op.clks.getD 0 - 24) * b.stop / mRows)
  ((mxPut s { op with band := some b }).modMe fun v => { v with wait := .done .mx }).after (due - s.clk)
    (.mxComplete (coreOf s.cur))

/-- An accumulating operation at its turn, its checks passed: the band at RESTART is checked and begins, a fault stops
the operation there with RESTART and MXROW set; after the last band it completes (R168, R172). -/
def mxBands (i : Instr) (td : TdReg) (t : TR) (mRows bh clks : Nat) (s : State)
    (band : State → Nat → Nat → Except Trap (State × MxBand)) : State :=
  let m0 := t.restart.toNat
  let begun := s.mxMine.bind (·.clks)
  if mRows ≤ m0 then mxQueue s { slot := s.cur, td := some td.toNat, flags := 0#5, accum := true } (begun.getD 0)
  else
    match band s m0 (min (m0 + bh) mRows) with
    | .error f => (setMxrow (setProgress (s.mxDrop s.cur) td m0 0#5) td m0).takeTrap f
    | .ok (s, b) =>
      mxBandStart s { slot := s.cur, td := some td.toNat, flags := 0#5, accum := true, instr := some i
                      issued := (s.mxMine.map (·.issued)).getD s.clk, clks := some (begun.getD clks) } b mRows

/-- The results of a band written, with its flags and the restart row after it (R168, R172). -/
def mxBandEnd (s : State) (td : TdReg) (b : MxBand) : State :=
  let res := (List.range b.accs.length).map fun r =>
    (List.range (b.accs.getD r []).length).map fun c =>
      let (v, ts) := (b.left (64 * (b.row + r) + b.col + c)).getD (0, [])
      addAll b.ints v ts
  let s := (res.zip (List.range res.length)).foldl (fun s p => putRow s (b.row + p.2) b.col (p.1.map (·.1))) s
  setProgress s td b.stop (res.foldl (fun fl r => r.foldl (fun fl e => fl ||| e.2) fl) b.flags)

/-- The spill engine waits to save the slot (R156, R436). -/
def spillWaits (s : State) (n : Nat) : Bool :=
  match (s.core (coreOf n)).spill with | some j => j.slot == n && !j.begun | none => false

/-- MX_COMPLETE (R172): the band under way ends, where an eviction stops the operation before its last band (R156);
or the engine's oldest operation is complete: its flags, and those of an accumulation, join NXFLAGS of its slot. -/
def execMxComplete (core : Nat) (s : State) : Out :=
  match (s.core core).mxq with
  | [] => .next s
  | o :: r =>
    let td : TdReg := BitVec.ofNat 3 (o.td.getD 0)
    match o.band with
    | some b =>
      let t := mxBandEnd { s with cur := o.slot } td b
      let t := if spillWaits s o.slot && !b.last then
          ((setMxrow t td b.stop).modCore core fun c => { c with mxq := r }).modMe fun v => { v with wait := .run }
        else
          (t.modCore core fun c => { c with mxq := { o with band := none } :: r }).modMe fun v =>
            { v with wait := (o.instr.map fun i => Wait.hold .mx i s.now 0#64).getD .run }
      .next { t with cur := s.cur }
    | none =>
      let s := s.modCore core fun c => { c with mxq := r }
      let t : TR := if o.td.isSome then AMap.getD (s.core core).td td.toNat {} else {}
      let fl := if o.accum then o.flags ||| t.pflags else o.flags
      let s := if o.accum && o.td.isSome then
          s.modCore core fun c => { c with td := AMap.set c.td td.toNat { t with pflags := 0#5, restart := 0#7 } }
        else s
      .next (s.modSlot o.slot fun v =>
        { v with user := { v.user with nxflags := v.user.nxflags ||| fl }, wait := if v.wait = .done .mx then .run else v.wait })

/-! ## mx.mma, mx.mmq, mx.mms -/

/-- FP8. -/
def isFp8 (f : Fmt) : Bool := f == .e4m3 || f == .e5m2

/-- G of a dense format pair (R163); none where the pair is not listed. `k` is the group of INT8. -/
def denseGroup (a b : Fmt) (int32 : Bool) (k : Nat) : Option Nat :=
  match a, b with
  | .bf16, .bf16 => if int32 then none else some 32
  | .fp16, .fp16 => if int32 then none else some 32
  | .e4m3, .e4m3 | .e4m3, .e5m2 | .e5m2, .e4m3 | .e5m2, .e5m2 => if int32 then none else some 64
  | .int8, .int8 => if int32 then some k else none
  | _, _ => none

/-- BH (R163): 32 for 16-bit operands, 64 otherwise. -/
def bandHeight (a : Fmt) : Nat := if Fmt.width a = 16 then 32 else 64

/-- ⌈a / b⌉. -/
def cdiv (a b : Nat) : Nat := (a + b - 1) / b

/-- Supply clks (R179): bytes of A and B by the port each is read through; a staged A reads none (R180). -/
def supplyClk (s : State) (a b : BitVec 128) (aBytes bBytes : Nat) : Nat :=
  let aB := if s.myCore.staged = some a then 0 else aBytes
  let of_ (sp : Nat) : Nat := (if mdSpace a = sp then aB else 0) + (if mdSpace b = sp then bBytes else 0)
  max (cdiv (of_ 2) 64) (max (cdiv (of_ 1) 128) (cdiv (of_ 0) 64))

/-- The A operand staged after an operation (R180). -/
def stage (s : State) (a : BitVec 128) (aBytes : Nat) : State :=
  s.modMyCore fun c => { c with staged := if mdSpace a ≠ 0 ∧ aBytes ≤ 16384 then some a else none }

/-- The td that an accumulating operation needs, once its registers are read (R158, R170). -/
def mxOwned (td : TdReg) (s : State) : Except Trap TR := do
  let t ← s.tdr td
  s.needOwner t
  return t

/-- Element pairs of row `xs` of A and column `n` of B. -/
def pairsAt (fa fb : Fmt) (xs : List Nat) (bs : List (List Nat)) (n : Nat) : List (FV × FV) :=
  (xs.zip bs).map fun p => (Fmt.value fa p.1, Fmt.value fb (p.2.getD n 0))

def execMxMma (td : TdReg) (a b : MdReg) (s : State) : Out :=
  let i : Instr := .mxMma td a b
  mxExec i (some td.toNat) s do
    let da ← s.mdr a
    let db ← s.mdr b
    let t ← mxOwned td s
    match denseGroup (mdFmt da) (mdFmt db) t.int32 (mdCols da) with
    | none => illegal i
    | some g =>
      if mdRows db ≠ mdCols da ∨ t.rows < mdRows da ∨ t.cols < mdCols db then illegal i
      let m := mdRows da
      let k := mdCols da
      let n := mdCols db
      let fa := mdFmt da
      let fb := mdFmt db
      let bh := bandHeight fa
      let aBytes := m * k * Fmt.width fa / 8
      let clks := max (cdiv m bh * k) (supplyClk s da db aBytes (k * n * Fmt.width fb / 8)) + 24
      return mxBands i td t m bh clks (stage s da aBytes) fun s m0 m1 => do
        let (xa, s) ← mdBlock i da (List.range k) s ((List.range (m1 - m0)).map (· + m0))
        let (xb, s) ← mdBlock i db (List.range n) s (List.range k)
        let b ← mkBand s t.base.toNat 0 n m0 m1 m (fa == .int8) fun r =>
          let row := xa.getD (r - m0) []
          (List.range n).map fun c =>
            if fa = .int8 then ([intAdd ((row.zip xb).map fun q => (q.1, q.2.getD c 0))], 0#5)
            else addends ((groupsOf g (k + 1) (pairsAt fa fb row xb c)).map groupAdd)
        return (s, b)

/-- S and s of the LQ4 block of element `e` (R83, R165). -/
def sideRead (i : Instr) (s : State) (base : Word) (e : Nat) : Except Trap (Nat × Nat × State) := do
  let rec_ : Int := base.toNat + 320 * (e / 16384)
  let (bs, s) ← operandBytes i s 0 rec_ 4
  let (c, s) ← operandBytes i s 0 (rec_ + 64 + (e / 64) % 256) 1
  return (bytesNat bs, bytesNat c, s)

/-- The scales of the blocks listed, in order. -/
def sideReads (i : Instr) (base : Word) (s : State) : List Nat → Except Trap (List (Nat × Nat) × State)
  | [] => .ok ([], s)
  | e :: r => do
    let (ss, sc, s) ← sideRead i s base e
    let (l, s) ← sideReads i base s r
    return ((ss, sc) :: l, s)

def execMxMmq (td : TdReg) (a w sc : MdReg) (s : State) : Out :=
  let i : Instr := .mxMmq td a w sc
  mxExec i (some td.toNat) s do
    let da ← s.mdr a
    let db ← s.mdr w
    let ds ← s.mdr sc
    let t ← mxOwned td s
    let fa := mdFmt da
    let k := mdCols da
    if !(fa == .bf16 || fa == .fp16 || isFp8 fa) || mdFmt db != .lq4 || t.int32 then illegal i
    if mdRows db ≠ k ∨ t.rows < mdRows da ∨ t.cols < mdCols db then illegal i
    if k % 64 ≠ 0 ∨ mdRstr db ≠ 1 ∨ mdCstr db % 64 ≠ 0 then illegal i
    if mdSpace ds ≠ 0 ∨ mdFmt ds ≠ .lq4 ∨ mdRows ds ≠ 1 ∨ mdCols ds ≠ 1 ∨ mdCstr ds ≠ 0 then illegal i
    if mdRstr ds < 0 ∨ mdRstr ds % 64 ≠ 0 then illegal i
    let m := mdRows da
    let n := mdCols db
    let bh := bandHeight fa
    let e0 := (mdRstr ds).toNat
    let nb := k / 64
    let aBytes := m * k * Fmt.width fa / 8
    let clks := max (cdiv m bh * cdiv k 2) (supplyClk s da db aBytes (k * n / 2)) + 24
    return mxBands i td t m bh clks (stage s da aBytes) fun s m0 m1 => do
      let (xa, s) ← mdBlock i da (List.range k) s ((List.range (m1 - m0)).map (· + m0))
      let (xb, s) ← mdBlock i db (List.range n) s (List.range k)
      -- the scales of block g of column c stand at n-major place c * nb + g
      let (scs, s) ← sideReads i (mdBase ds) s
        ((List.range n).flatMap fun c => (List.range nb).map fun g => e0 + 64 * g + c * mdCstr db)
      let b ← mkBand s t.base.toNat 0 n m0 m1 m false fun r =>
        let row := xa.getD (r - m0) []
        (List.range n).map fun c =>
          let ps := (row.zip xb).map fun q => (FV.fin (lq4Val (q.2.getD c 0)), Fmt.value fa q.1)
          addends (((groupsOf 64 (nb + 1) ps).zip (List.range nb)).map fun q =>
            let (ss, sc) := scs.getD (c * nb + q.2) (0, 0)
            blockAdd q.1 ss sc)
      return (s, b)

/-- The pairs of `mx.mms` for column `c`: the kept values against the elements of A that the metadata
names (R173). -/
def sparsePairs (fa fb : Fmt) (meta_ : VWord) (row : List Nat) (bs : List (List Nat)) (c : Nat) : List (FV × FV) :=
  (List.range bs.length).map fun r =>
    let nib := elemV meta_ 4 (16 * (r / 2) + c)
    let idx := if r % 2 = 0 then nib % 4 else nib / 4
    (Fmt.value fa (row.getD (4 * (r / 2) + idx) 0), Fmt.value fb ((bs.getD r []).getD c 0))

def execMxMms (td : TdReg) (a b : MdReg) (vm : VReg) (q : BitVec 2) (s : State) : Out :=
  let i : Instr := .mxMms td a b vm q
  mxExec i (some td.toNat) s do
    let meta_ ← s.vr vm
    let da ← s.mdr a
    let db ← s.mdr b
    let t ← mxOwned td s
    let k := mdCols da
    match denseGroup (mdFmt da) (mdFmt db) t.int32 k with
    | none => illegal i
    | some _ =>
      if mdFmt da = .int8 ∨ k % 4 ≠ 0 ∨ 64 < k ∨ mdRows db ≠ k / 2 ∨ 16 < mdCols db
          ∨ t.cols < 16 * q.toNat + mdCols db ∨ t.rows < mdRows da then illegal i
      let m := mdRows da
      let n := mdCols db
      let fa := mdFmt da
      let fb := mdFmt db
      let bh := bandHeight fa
      let aBytes := m * k * Fmt.width fa / 8
      let clks := max (cdiv m bh * cdiv k 8) (supplyClk s da db aBytes (k / 2 * n * Fmt.width fb / 8)) + 24
      return mxBands i td t m bh clks (stage s da aBytes) fun s m0 m1 => do
        let (xa, s) ← mdBlock i da (List.range k) s ((List.range (m1 - m0)).map (· + m0))
        let (xb, s) ← mdBlock i db (List.range n) s (List.range (k / 2))
        let b ← mkBand s t.base.toNat (16 * q.toNat) n m0 m1 m false fun r =>
          (List.range n).map fun c => addends [groupAdd (sparsePairs fa fb meta_ (xa.getD (r - m0) []) xb c)]
        return (s, b)

/-! ## mx.zero, mx.rd, mx.wr, mx.wait, mx.rowp, mx.stat -/

def execMxZero (td : TdReg) (s : State) : Out :=
  mxExec (.mxZero td) (some td.toNat) s do
    let t ← s.tdr td
    s.needOwner t
    let m ← granWrite s.myCore.cbuf s.me.gen (256 * t.base.toNat) (List.replicate (256 * t.rows) 0#8)
    let s := s.modMyCore fun c => { c with cbuf := m }
    return mxQueue s { slot := s.cur, td := some td.toNat, flags := 0#5, accum := false } (2 + cdiv t.rows 4)

/-- The row selector of `mx.rd` and `mx.wr`: row and half (R175). -/
def rowSel (i : Instr) (w : Word) : Except Trap (Nat × Nat) :=
  if fld w 63 7 ≠ 0 then illegal i else .ok (fld w 5 0, fld w 6 6)

/-- The columns of a half that a row holds. -/
def halfCols (t : TR) (r h : Nat) : Nat := if t.rows ≤ r then 0 else min 32 (t.cols - 32 * h)

def execMxRd (td : TdReg) (vd : VReg) (rs1 : XReg) (s : State) : Out :=
  mxExec (.mxRd td vd rs1) (some td.toNat) s do
    let w ← s.xr rs1
    let t ← s.tdr td
    s.needOwner t
    let (r, h) ← rowSel (.mxRd td vd rs1) w
    let bs ← granRead s.myCore.cbuf s.me.gen s.me.trapMode (256 * (t.base.toNat + r) + 128 * h) (4 * halfCols t r h)
    let s ← s.setV vd (BitVec.ofNat 1024 (bytesNat bs))
    return mxQueue s { slot := s.cur, td := some td.toNat, flags := 0#5, accum := false } 4

def execMxWr (td : TdReg) (vs : VReg) (rs1 : XReg) (s : State) : Out :=
  mxExec (.mxWr td vs rs1) (some td.toNat) s do
    let w ← s.xr rs1
    let d ← s.vr vs
    let t ← s.tdr td
    s.needOwner t
    let (r, h) ← rowSel (.mxWr td vs rs1) w
    let m ← granWrite s.myCore.cbuf s.me.gen (256 * (t.base.toNat + r) + 128 * h) (vecBytes (4 * halfCols t r h) d)
    let s := s.modMyCore fun c => { c with cbuf := m }
    return mxQueue s { slot := s.cur, td := some td.toNat, flags := 0#5, accum := false } 4

/-- `mx.wait` (R176): at once for an unconfigured td, or where no operation on the td is in the engine. -/
def execMxWait (td : TdReg) (s : State) : Out :=
  match s.tdr td with
  | .error e => .next (s.takeTrap e)
  | .ok t =>
    if s.mxMine.isNone && !(t.v && mxBusy s.myCore td.toNat) then .next s.retire
    else mxExec (.mxWait td) none s (.ok (mxQueue s { slot := s.cur, td := none, flags := 0#5, accum := false } 0))

/-- `mx.rowp` (R177): ILLEGAL above 64. -/
def execMxRowp (td : TdReg) (rs1 : XReg) (s : State) : Out :=
  mxExec (.mxRowp td rs1) (some td.toNat) s do
    let w ← s.xr rs1
    let t ← s.tdr td
    s.needOwner t
    if 64 < w.toNat then illegal (.mxRowp td rs1)
    let s ← s.setTd td { t with restart := w.setWidth 7 }
    return mxQueue s { slot := s.cur, td := some td.toNat, flags := 0#5, accum := false } 2

/-- The word of `mx.stat` (R178). -/
def tdWord (t : TR) (busy : Bool) : Word :=
  w64 (t.pflags.toNat * 2 ^ 40 + b2n t.v * 2 ^ 39 + t.owner.toNat * 2 ^ 36 + b2n t.int32 * 2 ^ 32
    + t.restart.toNat * 2 ^ 25 + b2n busy * 2 ^ 24 + t.base.toNat * 2 ^ 12 + t.ncol.toNat * 2 ^ 6 + t.nrow.toNat)

def execMxStat (td : TdReg) (rd : XReg) (s : State) : Out :=
  s.commit do
    let e := AMap.getD s.myCore.td td.toNat {}
    let w ← stampRead e.gen s.me.gen s.me.trapMode (tdWord e (mxBusy s.myCore td.toNat)) 0#64 (regTval 6 td.toNat)
    let s ← s.setX rd w
    return s.retire

end Sys2Proof.Machine
end

