-- ==== Sys2Proof/Machine/Threads.lean ====
section
/-! DEFINITION. Messages, waiting, sleeping, yielding (R119-R129), generations read and drawn (R195-R197), and
`tret` (R417). -/

namespace Sys2Proof.Machine

/-! ## Messages -/

/-- `msg.send` (R119): PERM past the last slot; a release of device scope; the slot does not wait. -/
def execMsgSend (rs1 rs2 : XReg) (s : State) : Out :=
  s.commit do
    let t ← s.xr rs1
    let p ← s.xr rs2
    need (t.toNat ≤ 8191) cPERM t
    let s := s.releaseAt (coreOf s.cur) .dv
    return (s.sendMsg { target := t.toNat, sender := s.cur, payload := p, vmid := s.vmid }).retire

/-- `msg.msk` opens a masked window outside a handler; it does not count itself (R124). -/
def execMsgMsk (s : State) : Out :=
  let v := s.me
  let t := s.retire
  .next (if v.masked || v.inHandler then t else t.modMe fun v => { v with masked := true, wcnt := 0 })

/-- `msg.unm` closes an open window (R124). -/
def execMsgUnm (s : State) : Out :=
  let v := s.me
  let t := s.retire
  .next (if v.masked && !v.inHandler then t.modMe fun v => { v with masked := false, wcnt := 0 } else t)

/-- `msg.ret` (R123): ILLEGAL outside a handler. -/
def execMsgRet (s : State) : Out :=
  s.commit do
    if !s.me.inHandler then illegal .msgRet
    return (s.jumpTo (s.me.user.msgpc &&& ~~~3#64)).modMe fun v => { v with inHandler := false }

/-- `wait` completes where a message is pending; else the slot waits for one (R126). -/
def execWait (s : State) : Out :=
  .next (if 0 < s.pend s.cur then s.retire else s.holdOn .msg .wait 0#64)

/-- `sleep.t` completes at or after its deadline; else the slot sleeps until it (R127). -/
def execSleepT (rs1 : XReg) (s : State) : Out :=
  s.commit do
    let d ← s.xr rs1
    if d.toNat ≤ s.now then return s.retire
    else
      return ((s.holdOn .sleep (.sleepT rs1) d).dropDuties fun w => w.work == .ev (.sleepDeadline s.cur)).after
        (s.clkUntil d.toNat) (.sleepDeadline s.cur)

/-- `yield` marks the slot pre-emptable at the next rotation boundary (R128). -/
def execYield (s : State) : Out := .next (s.retire.modMe fun v => { v with own := { v.own with pre := true } })

/-! ## Generations (R195-R197) -/

/-- The object that a selector of `gen.rd` or `gen.scrub` names (R195). -/
inductive GenSel where
  | gran (b : Buf) (off count : Nat)
  | x (shadow all : Bool) (n : Nat)
  | v (all : Bool) (n : Nat)
  | md (all : Bool) (n : Nat)
  | td (all : Bool) (n : Nat)
  | q (all : Bool) (n : Nat)
  | rt (all : Bool) (n : Nat)
  deriving DecidableEq, Repr

/-- Bytes of a typed buffer. -/
def bufBytes : Buf → Nat
  | .w => 0x80000 | .a => 0x40000 | .c => 0x40000

/-- A selector read: ILLEGAL for a bit that must be 0 or a number out of range, PERM for an offset beyond
the buffer (R195). `scrub` admits COUNT and ALL. -/
def genSel (i : Instr) (scrub : Bool) (sp : Space) (w : Word) : Except Trap GenSel := do
  let all := bitAt w 8
  let n := fld w 4 0
  let ill (b : Bool) : Except Trap Unit := if b then illegal i else .ok ()
  let buf (b : Buf) : Except Trap GenSel := do
    ill (fld w 63 48 != 0 || (!scrub && fld w 47 32 != 0))
    need (fld w 31 0 < bufBytes b) cPERM w
    return .gran b (fld w 31 0) (fld w 47 32)
  match sp with
  | .w => buf .w
  | .a => buf .a
  | .c => buf .c
  | .x =>
    ill (fld w 63 9 != 0 || (all && !scrub) || fld w 7 6 != 0)
    ill (bitAt w 5 && !all && !(decide (1 ≤ n) && decide (n ≤ 15)))
    return .x (bitAt w 5) all n
  | .v =>
    ill (fld w 63 9 != 0 || (all && !scrub) || fld w 7 5 != 0)
    return .v all n
  | .md =>
    ill (fld w 63 9 != 0 || (all && !scrub) || fld w 7 5 != 0 || !decide (n < 8))
    return .md all n
  | .td =>
    ill (fld w 63 9 != 0 || (all && !scrub) || fld w 7 5 != 0 || !decide (n < 8))
    return .td all n
  | .qr =>
    ill (fld w 63 9 != 0 || (all && !scrub) || bitAt w 7 || bitAt w 6 || fld w 4 3 != 0)
    return if bitAt w 5 then .rt all (fld w 2 0) else .q all (fld w 2 0)

/-- A typed buffer of a core. -/
def Core.gran (c : Core) : Buf → AMap Granule
  | .w => c.wbuf | .a => c.abuf | .c => c.cbuf

/-- The stamp of a selected object; none for x0. -/
def stampOf (s : State) (sel : GenSel) : Option Gen :=
  let v := s.me
  let c := s.myCore
  match sel with
  | .gran b off _ => some (AMap.getD (c.gran b) (off / 64) {}).gen
  | .x sh _ n =>
    if n = 0 then none
    else if sh then some (AMap.getD v.sx n {}).gen
    else some (v.xreg (BitVec.ofNat 5 n)).gen
  | .v _ n => some (AMap.getD v.v n {}).gen
  | .md _ n => some (AMap.getD v.md n {}).gen
  | .td _ n => some (AMap.getD c.td n {}).gen
  | .q _ n => some (AMap.getD v.q n {}).gen
  | .rt _ n => some (AMap.getD c.rt n {}).gen

/-- CLASS of a stamp (R196). -/
def stampClass (g cur : Gen) : Nat := if g = cur then 0 else if g = 0#16 then 1 else if g = 0xFFFF#16 then 3 else 2

/-- The word `gen.rd` writes: a user sees no number of another allocation (R196). -/
def genWord (g cur : Gen) (sup : Bool) : Word :=
  let k := stampClass g cur
  w64 (k * 2 ^ 16 + (if k = 2 && !sup then 0 else g.toNat))

def execGenRd (sp : Space) (rd rs1 : XReg) (s : State) : Out :=
  s.commit do
    let w ← s.xr rs1
    let sel ← genSel (.genRd sp rd rs1) false sp w
    let s ← s.setX rd (genWord ((stampOf s sel).getD s.me.gen) s.me.gen s.me.sup)
    return s.retire

/-- `gen.new` (R197): 0 while the allocator is stopped. -/
def execGenNew (rd : XReg) (s : State) : Out :=
  s.commit do
    s.needSup (.genNew rd)
    match s.newGen with
    | (none, s) =>
      let s ← s.setX rd 0#64
      return s.retire
    | (some g, s) =>
      let s ← s.setX rd (g.setWidth 64)
      return (s.modMgmt fun m => { m with genNews := m.genNews ++ [(g, s.me.gen)] }).retire

/-! ## Return from a trap (R417) -/

def execTret (s : State) : Out :=
  s.commit do
    s.needSup .tret
    return s.modMe fun v => v.leave

end Sys2Proof.Machine
end

