-- ==== Sys2Proof/Machine/Arrivals.lean ====
section
/-! DEFINITION. The events that slots wait for (R111), messages (R119-R122), the buffers and caches in time (R203,
R204, R244), and the traps of fetching and decoding (R31, R429). -/

namespace Sys2Proof.Machine

/-! ## Waits that end (R111) -/

/-- A slot whose instruction is performed rejoins the rotation. -/
def rejoin (k : WaitKind) (slot : Nat) (s : State) : State :=
  s.modSlot slot fun v => if v.wait = .done k then { v with wait := .run } else v

/-- The instruction a slot waits at completes with no further effect. -/
def completeSlot (s : State) (slot : Nat) : State := s.modSlot slot fun v => v.goto (v.pc + 4#64)

/-- A slot that waits at its instruction goes on with it. -/
def resumeSlot (s : State) (slot : Nat) : State :=
  s.modSlot slot fun v => match v.wait with | .hold k i t a => { v with wait := .resume k i t a } | _ => v

/-- MISS_FILL_ARRIVAL. -/
def execMissFillArrival (slot : Nat) (s : State) : Out := .next (rejoin .fill slot s)

/-- TLB_WALK_COMPLETE (R433): the entry has been placed in both TLBs. -/
def execTlbWalkComplete (slot : Nat) (s : State) : Out := .next (rejoin .walk slot s)

/-- DIV_COMPLETE. -/
def execDivComplete (slot : Nat) (s : State) : Out := .next (rejoin .div slot s)

/-- AMO_COMPLETE (R253): the old value has arrived. -/
def execAmoComplete (slot : Nat) (s : State) : Out := .next (rejoin .amo slot s)

/-- LOCK_GRANTED (R257): status and lock are the slot's already. -/
def execLockGranted (slot : Nat) (s : State) : Out := .next (rejoin .lock slot s)

/-- The outcome leaves a slot in its wait. -/
def stillHeld (k : WaitKind) (o : Out) (n : Nat) : Bool :=
  match o with
  | .next t => (match (t.slot n).wait with | .hold j _ _ _ => j == k | _ => false)
  | _ => true

/-- The state in which a waiting slot tries its instruction again. -/
def trial (s : State) (slot : Nat) : State := { resumeSlot s slot with cur := slot }

/-- A waiting synchronising or bounded load can go on: it completes, faults, or takes a word. -/
def loadOver (s : State) (slot : Nat) (i : Instr) : Bool :=
  let t := trial s slot
  match i with
  | .ldS rd rs1 => !stillHeld .sync (execLdS rd rs1 t) slot
  | .ldSe rd rs1 => !stillHeld .sync (execLdSe rd rs1 t) slot
  | .vldS vd rs1 =>
    match execVldS vd rs1 t with
    | .next u => !stillHeld .sync (.next u) slot || (s.slot slot).taken.length < (u.slot slot).taken.length
    | _ => false
  | .ldB dbl b rd rs1 rs2 => !stillHeld .tide (execLdB dbl b rd rs1 rs2 t) slot
  | .vldB b vd rs1 rs2 => !stillHeld .tide (execVldB b vd rs1 rs2 t) slot
  | _ => false

/-- What an instruction that waited does once its wait is over: its time has passed already. -/
def arrived (o : Out) (s : State) : State :=
  match o with | .next t => { t with stall := 0, walked := false, cur := s.cur } | _ => s

/-- A load that waited is performed, where it can be. -/
def loadGoes (k : WaitKind) (slot : Nat) (s : State) : Out :=
  let t := trial s slot
  .next (match (s.slot slot).wait with
    | .hold k' i _ _ =>
      if k' = k ∧ loadOver s slot i then
        match i with
        | .ldS rd rs1 => arrived (execLdS rd rs1 t) s
        | .ldSe rd rs1 => arrived (execLdSe rd rs1 t) s
        | .vldS vd rs1 => arrived (execVldS vd rs1 t) s
        | .ldB dbl b rd rs1 rs2 => arrived (execLdB dbl b rd rs1 rs2 t) s
        | .vldB b vd rs1 rs2 => arrived (execVldB b vd rs1 rs2 t) s
        | _ => s
      else s
    | _ => s)

/-- SYNC_LOAD_COMPLETE (R215, R216): the word waited for is full, and is taken. -/
def execSyncLoadComplete (slot : Nat) (s : State) : Out := loadGoes .sync slot s

/-- BOUNDED_LOAD_COMPLETE (R227): the tide has risen far enough, and the load is performed. -/
def execBoundedLoadComplete (slot : Nat) (s : State) : Out := loadGoes .tide slot s

/-- TIDE_TMO (R227): the limit has passed, and the load faults. -/
def execTideTmo (slot : Nat) (s : State) : Out :=
  let v := s.slot slot
  match v.wait with
  | .hold .tide _ t a =>
    if v.user.tmo ≠ 0#48 ∧ t + v.user.tmo.toNat < s.now then
      .next (({ s with cur := slot } : State).takeTrap { cause := cTIDE_TMO, tval := a })
    else if v.user.tmo = 0#48 then .next s
    else .next (s.after (s.clkUntil (t + v.user.tmo.toNat + 1)) (.tideTmo slot))
  | _ => .next s

/-- SLEEP_DEADLINE (R127): the sleep completes, never before its deadline on the time base. -/
def execSleepDeadline (slot : Nat) (s : State) : Out :=
  match (s.slot slot).wait with
  | .hold .sleep _ _ d =>
    .next (if d.toNat ≤ s.now then completeSlot s slot else s.after (s.clkUntil d.toNat) (.sleepDeadline slot))
  | _ => .next s

/-! ## Messages (R119-R122) -/

/-- Messages on their way to a slot's overflow entries. -/
def ringBound (s : State) (target : Nat) : Nat :=
  (s.duties.filter fun d => match d.work with | .ev (.msgOverflowWrite m _) => m.target == target | _ => false).length

/-- Entries of a tenant's overflow ring, written and on their way. -/
def ringUsed (s : State) (vmid : Nat) : Nat :=
  (s.tenant vmid).movr.length
    + (s.duties.filter fun d => match d.work with | .ev (.msgOverflowWrite m _) => m.vmid == vmid | _ => false).length

/-- The home latency of a tenant's overflow ring. -/
def ringClk (s : State) (vmid : Nat) : Nat :=
  match translate s (s.devAgent vmid 0) (s.tenant vmid).args.movr .w with
  | .ok (p, s) => tierClk (s.tier p.pa)
  | .error _ => Config.nearClk

/-- MESSAGE_ARRIVAL (R119): a message for another tenant's slot, or a fenced core, is dropped; it takes a free entry
of the inbox, or goes to the overflow ring. -/
def execMessageArrival (m : Msg) (s : State) : Out :=
  let v := s.slot m.target
  let mine (o : OvMsg) : Bool := o.target == m.target && o.gen == v.gen
  .next (if v.own.vmid.toNat ≠ m.vmid ∨ (s.core (coreOf m.target)).fenced ∨ 8191 < m.target then s.count m.vmid .msgDrop
    else if v.inbox.length < 8 ∧ !(s.tenant m.vmid).movr.any mine ∧ ringBound s m.target = 0 then
      s.modSlot m.target fun v => { v with inbox := v.inbox ++ [{ payload := m.payload, sender := m.sender, ovf := false }] }
    else if (s.tenant m.vmid).args.movrn.toNat ≤ ringUsed s m.vmid then s.count m.vmid .msgDrop
    else s.after (max 1 (ringClk s m.vmid)) (.msgOverflowWrite m v.gen))

/-- The address of the next entry of a tenant's overflow ring: 16 bytes each behind a 64-byte header, the place
after the last one written (log 12). -/
def ringEntryVa (s : State) (vmid : Nat) : Word :=
  let t := s.tenant vmid
  t.args.movr + 64#64 + w64 (16 * (t.movrPos % max 1 t.args.movrn.toNat))

/-- MSG_OVERFLOW_WRITE (R119, R120): a write that fails, or whose target has another allocation by now (R117),
drops the message. -/
def execMsgOverflowWrite (m : Msg) (bound : Gen) (s : State) : Out :=
  let v := s.slot m.target
  .next (if v.own.vmid.toNat ≠ m.vmid ∨ v.gen ≠ bound then s.count m.vmid .msgDrop
    else
      match xlat s (s.devAgent m.vmid 0) (ringEntryVa s m.vmid) .w with
      | .error _ => s.count m.vmid .msgDrop
      | .ok (p, s) =>
        let e : OvMsg := { target := m.target, sender := m.sender, payload := m.payload, gen := bound }
        -- an entry's bytes have no stated layout: free values (log 12)
        let bytes := natBytes 8 s.openVal.toNat ++ natBytes 8 (Config.freeWord (s.freeCtr + 1)).toNat
        ({ s.putHome (s.devAgent m.vmid 0) p bytes with freeCtr := s.freeCtr + 2 }).modTenant m.vmid fun t =>
          { t with movr := t.movr ++ [e], movrPos := t.movrPos + 1 })

/-- A message may be delivered to a slot now (R122). -/
def canDeliver (s : State) (n : Nat) : Bool :=
  let v := s.slot n
  v.mayDeliver && decide (0 < s.pend n) && match v.wait with
    | .run => true
    | .hold k _ _ _ | .resume k _ _ _ => k.interruptible
    | _ => false

/-- MESSAGE_DELIVERY: the oldest message; a `wait` is complete, since a message is pending (R126); a wait for a
lock is withdrawn, and its instruction executes again. -/
def execMessageDelivery (slot : Nat) (s : State) : Out :=
  .next (if canDeliver s slot then
      let s := match (s.slot slot).wait with
        | .hold .lock _ _ _ => withdrawWaits s fun w => w.slot == slot
        | .hold .msg _ _ _ => completeSlot s slot
        | _ => s
      s.deliverTo slot
    else s)

/-! ## Buffers and caches in time (R203, R204, R244) -/

/-- COALESCE_DRAIN_TIMEOUT: a line that has taken no store for 64 clk drains; numbers from 1,024 on are the
buffers of A-cells. -/
def execCoalesceDrainTimeout (core line : Nat) (s : State) : Out :=
  let cb := if core < 1024 then (s.core core).cb else (s.cell (core - 1024)).acb
  match cb.find? fun e => e.line == line with
  | none => .next s
  | some e =>
    if e.last + 64 ≤ s.clk then .next (if core < 1024 then s.cbDrain core line else acbDrain s (core - 1024) line)
    else .next (s.after (e.last + 64 - s.clk) (.coalesceDrainTimeout core line))

/-- L2_WRITE_FORWARD: a line's writes go to the home within 2,048 clk of the first. -/
def execL2WriteForward (cove line : Nat) (s : State) : Out :=
  match AMap.get? (s.cove cove).l2 line with
  | none => .next s
  | some l =>
    if l.dirty.isEmpty then .next s
    else if l.since + 2048 ≤ s.clk then .next (s.l2Forward cove line)
    else .next (s.after (l.since + 2048 - s.clk) (.l2WriteForward cove line))

/-- L1D_LINE_EXPIRY: a line is discarded 4,096 clk after its fill. -/
def execL1dLineExpiry (core line : Nat) (s : State) : Out :=
  match AMap.get? (s.core core).l1d line with
  | none => .next s
  | some l =>
    .next (if l.clk + 4096 ≤ s.clk then s.modCore core fun c => { c with l1d := AMap.del c.l1d line } else s)

/-- MESH_BURST_MERGE (R204): the misses of a window have gone to their homes; no value or order changes. -/
def execMeshBurstMerge (cove : Nat) (s : State) : Out := .next (s.modCove cove fun v => { v with burst := [] })

/-! ## Fetching and decoding -/

/-- ILLEGAL_INSTRUCTION (R31-R35): a word with no meaning faults ILLEGAL, with the word as TVAL. -/
def execIllegalInstruction (w : BitVec 32) (s : State) : Out := .next (s.takeTrap { cause := cILLEGAL, tval := w.setWidth 64 })

/-- FETCH_PAGE_X (R429): a fetch that stage 1 refuses. -/
def execFetchPageX (va : Word) (s : State) : Out := .next (s.takeTrap { cause := cPAGE_X, tval := va })

end Sys2Proof.Machine
end

