-- ==== Sys2Proof/Machine/Calls.lean ====
section
/-! DEFINITION. What calls across encodings share (R66, R273, R276-R285): pointers, frames taken and freed, the
start of a G-set function, callback records, and pushes of tasks started by the fabric. -/

namespace Sys2Proof.Machine

/-! ## Pointers (R66) -/

/-- A descriptor pointer is of tag 01 with address bits [5:2] zero. -/
def descOk (p : Word) : Bool := fld p 1 0 == 1 && fld p 5 2 == 0

/-- The queue a callback pointer names, of the tenant. -/
def callbackQ (s : State) (vmid : Nat) (p : Word) : Option Nat :=
  let q := fld p 12 2
  if fld p 1 0 = 2 ∧ fld p 63 13 = 0 ∧ (s.queue q).bound ∧ (s.queue q).vmid = vmid then some q else none

/-- A callback record appended and the vector raised (R280). -/
def callbackAppend (s : State) (q : Nat) (f : Word) : State :=
  (s.modQueue q fun qu => { qu with callback := qu.callback ++ [f] }).msix 0 q

/-! ## Frames (R276, R283, R284) -/

/-- FE_UNSUP for a frame in a tier without full/empty bits (R69). -/
def frameTier (s : State) (p : Phys) (va : Word) : Except Trap Unit := need (s.hasFe p.pa) cFE_UNSUP va

/-- A frame allocated with its header (R283). -/
def newFrame (s : State) (ag : Agent) (n : Nat) (retp : Word) (gen : Gen) : Except Trap (Word × State) := do
  let (f, s) ← allocFrame s ag n
  let (p, _) ← xlat s ag (f + 40#64) .w
  frameTier s p (f + 40#64)
  let s ← writeHeader s ag f retp gen
  return (f, s)

/-- The checks of R284 on the frame at a VA. -/
def freeCheck (s : State) (ag : Agent) (f : Word) : Except Trap State := do
  let (ws, s) ← homeWords s ag f 5
  let (p, s) ← xlat s ag (f + 40#64) .w
  frameTier s p (f + 40#64)
  let retp := ws.getD 0 0#64
  let jn := ws.getD 2 0#64
  let gen := ws.getD 4 0#64
  need (fld gen 15 0 != 0 && joinCount jn == 0 && !joinPark jn && fld retp 1 0 != 3
    && (s.tenant ag.vmid).inHeap f) cFRAME f
  return s

/-- The frame returned to the allocator: GEN := 0, its generation moved on. -/
def freeFrame (s : State) (ag : Agent) (f : Word) : Except Trap State := do
  let s ← s.homeStore ag (f + 32#64) 0#64
  return returnFrame s ag.vmid ag.cove f

/-! ## Where tasks are pushed (R285, R288) -/

/-- The core of a list that holds fewest of a queue's entries, ties to the lowest number. -/
def leastCore (s : State) (q : Nat) (cores : List Nat) : Nat :=
  (cores.foldl (fun best c =>
    let n := (s.backlog c q).length
    match best with
    | none => some (c, n)
    | some (b, m) => if n < m then some (c, n) else some (b, m)) none).elim 0 (·.1)

/-- The cores of a cove. -/
def coresOf (cove : Nat) : List Nat := [4 * cove, 4 * cove + 1, 4 * cove + 2, 4 * cove + 3]

/-- The cores of a queue's cove mask. -/
def maskCores (q : Queue) : List Nat := ((List.range 256).filter fun c => q.mask.getLsbD c).flatMap coresOf

/-! ## Start tokens (R280, R350) -/

/-- The start token of frame F sent to a G-set function (PostStart). -/
def postStart (s : State) (vmid cove queue : Nat) (p f : Word) (src : Option (RKey × IKey) := none) : Routed :=
  routeToken s vmid cove queue (p &&& ~~~3#64) (startToken (s.tenant vmid) f) false src

end Sys2Proof.Machine
end

