-- ==== Sys2Proof/Machine/Nodes.lean ====
section
/-! DEFINITION. The firing of a node (R297, R302, R304, R358) and the nodes that compute on payloads: integer
and test (R312, R313), floating-point (R314-R317, R357), conversion (R99-R105), `mov`, `movi`, `null`
(R318, R319, R322). -/

namespace Sys2Proof.Machine

/-! ## Firing (R297, R302) -/

/-- What a node's effect answers: a state; a fault of its instance; or none: it is tried again. -/
abbrev NodeOut := Except (Option Trap) State

def liftT {α : Type} (r : Except Trap α) : Except (Option Trap) α :=
  match r with | .ok a => .ok a | .error t => .error (some t)

/-- The tag of the left token. -/
def Firing.ltag (f : Firing) : Fmt := match f.l with | some m => m.tok.ftag | none => .int
/-- The payloads of the left and the right token. -/
def Firing.lpay (f : Firing) : Word := match f.l with | some m => m.tok.payload | none => 0#64
def Firing.rpay (f : Firing) : Word := match f.r with | some m => m.tok.payload | none => 0#64

/-- Nodes whose firing the commit cell counts (R306). -/
def counted : Instr → Bool
  | .gFwr _ | .gBro _ => true
  | i => isStore i

/-- A predicated token-mode firing whose predicate does not match (R99, R302). -/
def offPred (i : Instr) (f : Firing) : Bool :=
  let b := match f.p with | some m => m.tok.payload != 0#64 | none => false
  f.body.isNone && match (fieldsOf i).pred with
    | .none => false
    | .onTrue => !b
    | .onFalse => b

/-- The firing makes a load-type access. -/
def loads (i : Instr) (f : Firing) : Bool := isLoad i && !f.nul && !offPred i f

/-- A null firing (R302, R330). -/
def nullFire (i : Instr) (f : Firing) (s : State) : State :=
  match i with
  | .gRet _ => s
  | i =>
    let s := s.sendNull f (fieldsOf i) (nodeClk i) (outTag i f.ltag)
    if counted i then s.sendCount f true else s

/-- A body firing of a loop is over. -/
def bodyDone (i : Instr) (f : Firing) (s : State) : State :=
  if f.body.isSome && !isGen true i then
    s.modCell (s.cellOf f.rk f.x f.y) fun c => c.modLoop f.ik f.slot fun l => { l with busy := false }
  else s

/-- The firing of a live instance's node. A firing that cannot be performed yet is tried in the next
clk. A fault of a stream instance whose loops run keeps the firing, which `gctx.res` tries again (R364). -/
def fireNode (i : Instr) (f : Firing) (s : State) (act : Firing → State → NodeOut) : State :=
  if f.nul then nullFire i f s
  else if offPred i f then s
  else
    match act f s with
    | .ok s => bodyDone i f s
    | .error none => s.fireAfter 1 i f
    | .error (some t) => s.fireFault f t (if f.body.isSome || (s.looping f.rk).contains f.ik then [.node i f] else [])

/-- A firing is kept with its parked context. -/
def keepParked (s : State) (f : Firing) (w : Work) : State :=
  s.modRegion f.rk fun r =>
    { r with parked := r.parked.map fun p => if p.ctx = f.ik.ctx then { p with work := p.work ++ [w] } else p }

/-- The step of a node: the firing under way, in its region. One of a cell that has saved is recorded; one
of an instance that is gone, or of a region that is not placed, is nothing; one of a parked context is kept, but for a body
firing that has begun, whose step is completed (R364). A load waits for a place in its channel (R343). -/
def runNode (i : Instr) (s : State) (act : Firing → State → NodeOut) : Out :=
  match s.fire with
  | none => .next s
  | some f =>
    let s := { s with fire := none, stall := 0 }
    let rg := s.region f.rk
    .next (match recordArc s f.rk f.x f.y f.ik.blk (.node i f) with
      | some s => s
      | none =>
        if rg.st ≠ 3 ∨ (rg.inst? f.ik).isNone then s
        else if rg.isParked f.ik.ctx && f.body.isNone then keepParked s f (.node i f)
        else if loads i f && !f.began && channelFull s f then
          { s with duties := s.duties ++ [{ due := s.clk + 1, work := .node i f }] }
        else
          let s := s.beginFire i f
          let s := if loads i f then s.takePlace i f else s
          settle (fireNode i { f with began := true } s act) f.rk)

/-! ## Values of one or four payloads (R355) -/

/-- Payloads of a firing's values: four in a wide loop. -/
def payloads (s : State) (f : Firing) : Nat :=
  match f.body with
  | none => 1
  | some _ =>
    match (s.cell (s.cellOf f.rk f.x f.y)).loop? f.ik f.slot with
    | some l => if l.wide then 4 else 1
    | none => 1

/-- `k` payloads as a number; a narrow value on a wide slot is replicated (R356). -/
def opN (k : Nat) (m : Option MTok) : Nat :=
  match m with
  | none => 0
  | some m => buildN 64 (fun j => if j = 0 then m.tok.payload.toNat else (m.wide.getD (j - 1) m.tok.payload).toNat) k

/-- A number as `k` payloads. -/
def outWords (k v : Nat) : List Word := (List.range k).map fun j => w64 (v / 2 ^ (64 * j))

/-- The right operand, or the immediate with IV = 1 (R53). -/
def rightN (i : Instr) (k : Nat) (f : Firing) : Nat :=
  if ivOf i then buildN 64 (fun _ => (sext 17 ((fieldsOf i).imm.setWidth 64)).toNat) k else opN k f.r

/-- All elements of width `w` of `k` payloads. -/
def eachEl (k w : Nat) (res : Nat → Nat × NxFlags) : Nat × NxFlags := lanesOf w 0 (fun _ => true) res (k * (64 / w))

/-- A node whose result elements are computed from left, right and third elements of its payloads. -/
def eltNode (i : Instr) (w : Nat) (ft : Fmt) (s : State) (op : Nat → Nat → Nat → Nat × NxFlags) : Out :=
  runNode i s fun f s =>
    let k := payloads s f
    let a := opN k f.l
    let b := rightN i k f
    let c := opN k f.p
    let (v, fl) := eachEl k w fun j => op (elemN a w j) (elemN b w j) (elemN c w j)
    .ok ((s.addFlags f fl).sendOut f (fieldsOf i) (nodeClk i) (outWords k v) ft)

/-! ## Integer nodes (R312) -/

/-- An integer node: eight INT8 elements with FMT 7, else one of 64 bits. -/
def intNode (i : Instr) (s : State) (op : Nat → Nat → Nat → Nat) : Out :=
  let n := fieldsOf i
  let w := Fmt.tokWidth n.fmt
  eltNode i w n.fmt s fun a b _ => (op w a b, 0#5)

def execGAdd (n : GNode) (s : State) : Out := intNode (.gAdd n) s fun w a b => natOf w (intOf w a + intOf w b)
def execGSub (n : GNode) (s : State) : Out := intNode (.gSub n) s fun w a b => natOf w (intOf w a - intOf w b)
def execGMul (n : GNode) (s : State) : Out := intNode (.gMul n) s fun w a b => natOf w (intOf w a * intOf w b)
def execGMulh (n : GNode) (s : State) : Out :=
  intNode (.gMulh n) s fun w a b => natOf w ((intOf w a * intOf w b) / 2 ^ w)

/-- Division by zero gives -1, an overflow the dividend. -/
def execGDiv (n : GNode) (s : State) : Out :=
  intNode (.gDiv n) s fun w a b => if b = 0 then natOf w (-1) else natOf w (Int.tdiv (intOf w a) (intOf w b))

def execGRem (n : GNode) (s : State) : Out :=
  intNode (.gRem n) s fun w a b => if b = 0 then a else natOf w (Int.tmod (intOf w a) (intOf w b))

def execGAnd (n : GNode) (s : State) : Out := intNode (.gAnd n) s fun _ a b => a &&& b
def execGOr (n : GNode) (s : State) : Out := intNode (.gOr n) s fun _ a b => a ||| b
def execGXor (n : GNode) (s : State) : Out := intNode (.gXor n) s fun _ a b => a ^^^ b
def execGShl (n : GNode) (s : State) : Out := intNode (.gShl n) s fun w a b => a * 2 ^ (b % w)
def execGShr (n : GNode) (s : State) : Out := intNode (.gShr n) s fun w a b => a / 2 ^ (b % w)
def execGSra (n : GNode) (s : State) : Out := intNode (.gSra n) s fun w a b => natOf w (intOf w a / 2 ^ (b % w))
def execGMin (n : GNode) (s : State) : Out := intNode (.gMin n) s fun w a b => if intOf w a ≤ intOf w b then a else b
def execGMax (n : GNode) (s : State) : Out := intNode (.gMax n) s fun w a b => if intOf w a ≤ intOf w b then b else a

/-! ## Test nodes (R313) -/

/-- A test of whole payloads: 1 or 0 with tag 0. -/
def testNode (i : Instr) (s : State) (op : Nat → Nat → Bool) : Out := eltNode i 64 .int s fun a b _ => (b2n (op a b), 0#5)

def execGTlt (n : GNode) (s : State) : Out := testNode (.gTlt n) s fun a b => decide (intOf 64 a < intOf 64 b)
def execGTle (n : GNode) (s : State) : Out := testNode (.gTle n) s fun a b => decide (intOf 64 a ≤ intOf 64 b)
def execGTeq (n : GNode) (s : State) : Out := testNode (.gTeq n) s fun a b => a == b
def execGTne (n : GNode) (s : State) : Out := testNode (.gTne n) s fun a b => a != b
def execGTltu (n : GNode) (s : State) : Out := testNode (.gTltu n) s fun a b => decide (a < b)
def execGTleu (n : GNode) (s : State) : Out := testNode (.gTleu n) s fun a b => decide (a ≤ b)

/-! ## Floating-point nodes (R314-R317) -/

/-- The rounding field IMM[17:15]. -/
def nodeRm (n : GNode) : Rm := Rm.ofCode (n.immField 17 15)

/-- A floating-point node: each element of width of its format. -/
def fpNode (i : Instr) (s : State) (op : Nat → Nat → Nat → Nat × NxFlags) : Out :=
  eltNode i (Fmt.width (fieldsOf i).fmt) (fieldsOf i).fmt s op

def execGFadd (n : GNode) (s : State) : Out :=
  fpNode (.gFadd n) s fun a b _ => arith .add n.fmt (Fmt.width n.fmt) (nodeRm n) {} a b 0
def execGFsub (n : GNode) (s : State) : Out :=
  fpNode (.gFsub n) s fun a b _ => arith .sub n.fmt (Fmt.width n.fmt) (nodeRm n) {} a b 0
def execGFmul (n : GNode) (s : State) : Out :=
  fpNode (.gFmul n) s fun a b _ => arith .mul n.fmt (Fmt.width n.fmt) (nodeRm n) {} a b 0

/-- `ffma`: in a token block the addend is the upper half of the left payload (R315); in a stream block it
is the third operand (R357). -/
def execGFfma (n : GNode) (s : State) : Out :=
  runNode (.gFfma n) s fun f s =>
    let w := Fmt.width n.fmt
    let k := payloads s f
    let a := opN k f.l
    let b := opN k f.r
    let fma (x y z : Nat) := arith .fma n.fmt w (nodeRm n) {} x y z
    let (v, fl) :=
      if ((s.region f.rk).block f.ik.blk).stream then
        let c := opN k f.p
        eachEl k w fun j => fma (elemN a w j) (elemN b w j) (if f.p.isSome then elemN c w j else 0)
      else
        let h := 64 / w / 2
        lanesOf w 0 (fun _ => true) (fun j => fma (elemN a w j) (elemN b w j) (elemN a w (h + j))) h
    .ok ((s.addFlags f fl).sendOut f n (nodeClk (.gFfma n)) (outWords k v) n.fmt)

def execGFmin (n : GNode) (s : State) : Out := fpNode (.gFmin n) s fun a b _ => minMax n.fmt (Fmt.width n.fmt) false a b
def execGFmax (n : GNode) (s : State) : Out := fpNode (.gFmax n) s fun a b _ => minMax n.fmt (Fmt.width n.fmt) true a b
def execGFdiv (n : GNode) (s : State) : Out :=
  fpNode (.gFdiv n) s fun a b _ => fpDiv n.fmt (nodeRm n) {} (Fmt.value n.fmt a) (Fmt.value n.fmt b)
def execGFsqrt (n : GNode) (s : State) : Out :=
  fpNode (.gFsqrt n) s fun a _ _ => fpSqrt n.fmt (nodeRm n) {} (Fmt.value n.fmt a)
def execGFrcp (n : GNode) (s : State) : Out :=
  fpNode (.gFrcp n) s fun a _ _ => fpRcp n.fmt (nodeRm n) {} (Fmt.value n.fmt a)
def execGFexp2 (n : GNode) (s : State) : Out :=
  fpNode (.gFexp2 n) s fun a _ _ => fpExp2 n.fmt (nodeRm n) {} (Fmt.value n.fmt a)
def execGFlog2 (n : GNode) (s : State) : Out :=
  fpNode (.gFlog2 n) s fun a _ _ => fpLog2 n.fmt (nodeRm n) {} (Fmt.value n.fmt a)

/-- Bit j of the result is the comparison of elements j; tag 0 (R317). -/
def cmpNode (i : Instr) (c : Cmp) (s : State) : Out :=
  runNode i s fun f s =>
    let n := fieldsOf i
    let w := Fmt.width n.fmt
    let k := payloads s f
    let a := opN k f.l
    let b := opN k f.r
    let (v, fl) := lanesOf 1 0 (fun _ => true)
      (fun j => let (r, g) := compare n.fmt w c (elemN a w j) (elemN b w j); (b2n r, g)) (k * (64 / w))
    .ok ((s.addFlags f fl).sendOut f n (nodeClk i) (outWords k v) .int)

def execGFlt (n : GNode) (s : State) : Out := cmpNode (.gFlt n) .lt s
def execGFle (n : GNode) (s : State) : Out := cmpNode (.gFle n) .le s
def execGFeq (n : GNode) (s : State) : Out := cmpNode (.gFeq n) .eq s

/-! ## Conversion nodes (R101-R105) -/

/-- The elements of `k` payloads converted; destination elements without a source are zero (R101). -/
def cvtPay (src dst : Fmt) (rm : Rm) (k a r : Nat) : Nat × NxFlags :=
  let ws := Fmt.tokWidth src
  let wd := Fmt.tokWidth dst
  lanesOf wd 0 (fun _ => true) (fun j => convert dst wd rm (rndAt r wd j) (valueOf src ws (elemN a ws j)))
    (k * min (64 / ws) (64 / wd))

/-- `cvt` (R102): SRC is FMT, or the arriving tag with ANY = 1. -/
def execGCvt (n : GNode) (s : State) : Out :=
  runNode (.gCvt n) s fun f s =>
    let src := if n.any then f.ltag else n.fmt
    if src = .lq4 then .error (some { cause := cFORMAT, tval := w64 f.idx })
    else
      let k := payloads s f
      let (v, fl) := cvtPay src n.dstFmt (nodeRm n) k (opN k f.l) 0
      .ok ((s.addFlags f fl).sendOut f n (nodeClk (.gCvt n)) (outWords k v) n.dstFmt)

/-- `qcvt` (R103): the random fields come from the right payload. -/
def execGQcvt (n : GNode) (s : State) : Out :=
  runNode (.gQcvt n) s fun f s =>
    let k := payloads s f
    let (v, fl) := cvtPay n.fmt n.dstFmt (nodeRm n) k (opN k f.l) (opN k f.r)
    .ok ((s.addFlags f fl).sendOut f n (nodeClk (.gQcvt n)) (outWords k v) n.dstFmt)

/-- `dq` (R104). DESIGN CHOICE (log 72): in a wide cell J + e counts the lanes of the whole left value, and the scale is
that of the right value's first payload. -/
def execGDq (n : GNode) (s : State) : Out :=
  runNode (.gDq n) s fun f s =>
    let k := payloads s f
    let a := opN k f.l
    let w := Fmt.width n.dstFmt
    let j := fld f.rpay 43 40
    let (b, bf) := blockScale (fld f.rpay 31 0) (fld f.rpay 39 32)
    let (v, fl) := eachEl k w fun e =>
      if 15 < j + e then (0, 0#5) else dequant n.dstFmt (nodeRm n) {} (elemN a 4 (j + e)) b
    .ok ((s.addFlags f (bf ||| fl)).sendOut f n (nodeClk (.gDq n)) (outWords k v) n.dstFmt)

/-- `rng` (R105): z to T0, the new state to T1. -/
def execGRng (n : GNode) (s : State) : Out :=
  runNode (.gRng n) s fun f s =>
    let k := payloads s f
    let st := outWords k (opN k f.l)
    let s := s.sendT f n.t0 (nodeClk (.gRng n)) (st.map fun w => (nextRandom w).2) .int n.act f.ik.ctx f.ik.iter
    .ok (s.sendT f n.t1 (nodeClk (.gRng n)) (st.map fun w => (nextRandom w).1) .int n.act f.ik.ctx f.ik.iter)

/-! ## mov, movi, null -/

def execGMov (n : GNode) (s : State) : Out :=
  runNode (.gMov n) s fun f s =>
    let k := payloads s f
    .ok (s.sendOut f n (nodeClk (.gMov n)) (outWords k (opN k f.l)) f.ltag)

def execGMovi (n : GNode) (s : State) : Out :=
  runNode (.gMovi n) s fun f s => .ok (s.sendOut f n (nodeClk (.gMovi n)) [n.imm.signExtend 64] n.fmt)

/-- `null` sends null tokens whatever its ACT. -/
def execGNull (n : GNode) (s : State) : Out :=
  runNode (.gNull n) s fun f s => .ok (s.sendNull f n (nodeClk (.gNull n)) n.fmt)

end Sys2Proof.Machine
end

