-- ==== Sys2Proof/Machine/NodesCtl.lean ====
section
/-! DEFINITION. Frame words (R320, R321), steering and merging (R325-R327), successors, calls and returns
(R328-R332), tags and frames (R334-R338), and time (R349). -/

namespace Sys2Proof.Machine

/-! ## Shared -/

/-- The cove of a firing's cell. -/
def State.coveOf (s : State) (f : Firing) : Nat :=
  let k := s.cellOf f.rk f.x f.y
  coveOfXY (k % 128) (k / 128)

/-- The region as an agent at a firing's cell. -/
def State.fireAgent (s : State) (f : Firing) : Agent := s.cellAgent f.rk (s.cellOf f.rk f.x f.y)

/-- An effect left to the commit of its instance (R307); one whose instance has committed is performed
next. -/
def State.pendOn (s : State) (f : Firing) (i : Instr) (addr : Word) (data : List Word) : State :=
  let rg := s.region f.rk
  let s := s.modInst f.rk f.ik fun n =>
    { n with pend := n.pend ++ [{ lsid := commitRank i, f := f, node := i, addr := addr, data := data }] }
  match rg.inst? f.ik with
  | some n =>
    if n.committed then s.onceAfter 1 (.commitToken f.rk f.ik ((rg.block f.ik.blk).cellNo f.idx)) else s
  | none => s

/-- A fault of a node, with its TVAL. -/
def nodeFail {α : Type} (cause : BitVec 8) (tval : Word) : Except (Option Trap) α :=
  .error (some { cause := cause, tval := tval })

def nodeNeed (b : Bool) (cause : BitVec 8) (tval : Word) : Except (Option Trap) Unit :=
  if b then .ok () else nodeFail cause tval

/-- The firing cannot be performed yet. -/
def notYet (b : Bool) : Except (Option Trap) Unit := if b then .ok () else .error none

/-! ## Frame words -/

def isFwr : Instr → Bool
  | .gFwr _ => true
  | _ => false

/-- `frd` (R320): after every `fwr` of the context's earlier instances has fired, with the youngest pending
value of the word. -/
def execGFrd (n : GNode) (s : State) : Out :=
  runNode (.gFrd n) s fun f s => do
    let rg := s.region f.rk
    match rg.inst? f.ik with
    | none => .ok s
    | some me =>
      notYet ((rg.earlier me).all (fun j => nodesDone s f.rk j isFwr) && !leftBefore s f.rk me isAcquire)
      let va ← liftT (frameWord s f.rk f.ik.ctx (n.immField 8 0))
      let (bs, _, s) ← liftT (ownerRead s f.rk va 8)
      let pend := (pendBefore rg f.ik 0).filter fun p => isFwr p.node && p.addr == va && p.f.ik != f.ik
      let v := match pend.getLast? with
        | some p => p.f.lpay
        | none => bytesWord bs
      return s.sendOut f n (max 1 s.stall) [v] n.fmt

/-- `fwr` (R321): checked when it fires, written at commit. -/
def execGFwr (n : GNode) (s : State) : Out :=
  runNode (.gFwr n) s fun f s => do
    let fw := n.immField 8 0
    let va ← liftT (frameWord s f.rk f.ik.ctx fw)
    nodeNeed (decide (8 ≤ fw)) cPERM va
    let (_, s) ← liftT (xlat s (s.fireAgent f) va .w)
    return (s.pendOn f (.gFwr n) va []).sendCount f false

/-! ## Steering and merging (R325-R327) -/

def execGSteer (n : GNode) (s : State) : Out :=
  runNode (.gSteer n) s fun f s =>
    let t := f.rpay != 0#64
    let s := s.sendT f (if t then n.t0 else n.t1) 1 [f.lpay] f.ltag n.act f.ik.ctx f.ik.iter
    .ok (if n.immField 0 0 = 1 then
        s.sendT f (if t then n.t1 else n.t0) 1 [0#64] f.ltag .null f.ik.ctx f.ik.iter
      else s)

/-- The token of a single firing passed on, one clk after its matching access: a null one stays null. -/
def passOn (s : State) (f : Firing) (n : GNode) : State :=
  let a := match f.l with | some m => if m.tok.act = .null then .null else n.act | none => n.act
  (s.sendT f n.t0 0 [f.lpay] f.ltag a f.ik.ctx f.ik.iter).sendT f n.t1 0 [f.lpay] f.ltag a f.ik.ctx f.ik.iter

def execGMerge (n : GNode) (s : State) : Out := runNode (.gMerge n) s fun f s => .ok (passOn s f n)

/-- `omerge`: the order among its tokens is made where they arrive (`omergeRun`). -/
def execGOmerge (n : GNode) (s : State) : Out := runNode (.gOmerge n) s fun f s => .ok (passOn s f n)

/-! ## Successors, calls and returns (R328-R332) -/

/-- A token to the left slot of node ENT of block BLK of the function (R328, R381); a block that the region
does not hold is no destination: OVERLAY_MISS (R457). -/
def sendStart (s : State) (f : Firing) (n : GNode) (pay : Word) (ft : Fmt) (act : Act) : State :=
  let b := (s.region f.rk).block (n.immField 17 10)
  if !b.held then s.fireFault f { cause := cOVERLAY_MISS, tval := w64 (n.immField 17 10) } []
  else s.sendTok f.rk (f.x, f.y) 1 (tokenFor b (n.immField 6 0) 0 f.ik.ctx f.ik.iter pay ft act) (some f.ik)

def execGBro (n : GNode) (s : State) : Out :=
  runNode (.gBro n) s fun f s => .ok ((sendStart s f n f.lpay f.ltag n.act).sendCount f false)

/-- `call` (R329): the pointer, the callee frame and the return record are checked when it fires. -/
def execGCall (n : GNode) (s : State) : Out :=
  runNode (.gCall n) s fun f s => do
    let p := f.lpay
    let c := f.rpay
    let ag := s.fireAgent f
    nodeNeed (descOk p) cTAGPTR p
    nodeNeed (fld c 5 0 == 0) cFRAME c
    nodeNeed (match homeWords s ag c 5 with | .ok (ws, _) => fld (ws.getD 4 0#64) 15 0 != 0 | .error _ => true) cFRAME c
    let t := s.tenant f.rk.vmid
    let fr := t.frameVa f.ik.ctx
    let rec_ := fr + w64 (8 * n.immField 8 0)
    nodeNeed (decide (8 * n.immField 8 0 + 24 ≤ t.frameBytes fr)) cFRAME rec_
    let (_, s) ← liftT (readDesc s ag p)
    let (_, s) ← liftT (homeWords s ag c 5)
    let (_, s) ← liftT (xlat s ag rec_ .w)
    let (_, s) ← liftT (xlat s ag (rec_ + 16#64) .w)
    let (q, s) ← liftT (xlat s ag (c + 40#64) .w)
    liftT (frameTier s q (c + 40#64))
    return s.pendOn f (.gCall n) c []

/-- `ret` (R330): the caller's counter is translated when it fires. -/
def execGRet (n : GNode) (s : State) : Out :=
  runNode (.gRet n) s fun f s => do
    let ag := s.fireAgent f
    let fr := (s.tenant f.rk.vmid).frameVa f.ik.ctx
    let (ws, s) ← liftT (homeWords s ag fr 2)
    let caller := ws.getD 1 0#64
    if caller = 0#64 then return s.pendOn f (.gRet n) fr []
    else
      let (_, s) ← liftT (xlat s ag (caller + 16#64) .w)
      return s.pendOn f (.gRet n) fr []

/-- Words of an argument block, with the context's pending writes over them. -/
def argWords (s : State) (f : Firing) (va : Word) : Nat → Except Trap (List Word × State)
  | 0 => .ok ([], s)
  | k + 1 =>
    match ownerRead s f.rk va 8 with
    | .error t => .error t
    | .ok (bs, _, s) =>
      let w := bytesWord (forwardOver (pendBefore (s.region f.rk) f.ik 32) va.toNat bs)
      match argWords s f (va + 8#64) k with
      | .error t => .error t
      | .ok (ws, s) => .ok (w :: ws, s)

/-- `ccall` (R331): the frame is taken and then the arguments are read when it fires; its header is left to the commit. -/
def execGCcall (n : GNode) (s : State) : Out :=
  runNode (.gCcall n) s fun f s => do
    let p := f.lpay
    let k := n.immField 5 0
    nodeNeed (fld p 1 0 == 0 || fld p 1 0 == 2) cTAGPTR p
    nodeNeed (fld p 1 0 == 0 || (callbackQ s f.rk.vmid p).isSome) cQUEUE (w64 (fld p 12 2))
    nodeNeed (fld f.rpay 2 0 == 0 || k == 0) cMISALIGN f.rpay
    let (c, s) ← liftT (allocFrame s (s.fireAgent f) (64 + 8 * max k 8))
    let (q, s) ← liftT (xlat s (s.fireAgent f) (c + 40#64) .w)
    liftT (frameTier s q (c + 40#64))
    let (ws, s) ← liftT (argWords s f f.rpay k)
    let s := s.modInst f.rk f.ik fun i => { i with frames := i.frames ++ [c] }
    return s.pendOn f (.gCcall n) c ws

/-- `trap` (R332). -/
def execGTrap (n : GNode) (s : State) : Out :=
  runNode (.gTrap n) s fun f _ => nodeFail (if n.immField 0 0 = 1 then cEBREAK else cECALL) f.lpay

/-! ## Tags and frames (R334-R338) -/

/-- `inx`: the output waits for the throttle. -/
def execGInx (n : GNode) (s : State) : Out :=
  runNode (.gInx n) s fun f s =>
    let j := inxIter n f.ik.iter
    let rg := s.region f.rk
    if throttled rg f j then .ok (s.modRegion f.rk fun r => { r with held := r.held ++ [.node (.gInx n) f] })
    else
      let s := s.sendT f n.t0 1 [f.lpay] f.ltag n.act f.ik.ctx j
      .ok (s.sendT f n.t1 1 [f.lpay] f.ltag n.act f.ik.ctx j)

def execGFnew (n : GNode) (s : State) : Out :=
  runNode (.gFnew n) s fun f s => do
    let k := f.lpay.toNat
    nodeNeed (k != 0 && decide (k ≤ 4096)) cFRAME f.lpay
    let (c, s) ← liftT (newFrame s (s.fireAgent f) k 0#64 (s.region f.rk).gen)
    let s := s.modInst f.rk f.ik fun i => { i with frames := i.frames ++ [c] }
    return s.sendOut f n 2 [c] .int

/-- `ffree`: the checks of R284 when it fires, and again when it is performed. -/
def execGFfree (n : GNode) (s : State) : Out :=
  runNode (.gFfree n) s fun f s => do
    nodeNeed (fld f.lpay 5 0 == 0) cFRAME f.lpay
    let s ← liftT (freeCheck s (s.fireAgent f) f.lpay)
    return s.pendOn f (.gFfree n) f.lpay []

/-- The packed form of a context and ITER. -/
def packCtx (c : Ctx) (it : BitVec 16) : Word := w64 (it.toNat * 2 ^ 32 + c.fgen.toNat * 2 ^ 24 + c.frame.toNat)

def execGTget (n : GNode) (s : State) : Out :=
  runNode (.gTget n) s fun f s =>
    let v : Word := match n.immField 1 0 with
      | 0 => f.ik.iter.setWidth 64
      | 1 => (s.tenant f.rk.vmid).frameVa f.ik.ctx
      | 2 => f.ik.ctx.fgen.setWidth 64
      | _ => packCtx f.ik.ctx f.ik.iter
    .ok (s.sendOut f n 1 [v] .int)

/-- The context and ITER that a `tset` gives. -/
def tsetTo (s : State) (n : GNode) (f : Firing) : Except Trap (Ctx × BitVec 16) :=
  let r := f.rpay
  let t := s.tenant f.rk.vmid
  match n.immField 1 0 with
  | 0 => .ok (f.ik.ctx, r.extractLsb' 0 16)
  | 1 => if fld r 5 0 = 0 ∧ t.inHeap r then .ok (t.ctxOf r, 0#16) else gErr cFRAME r
  | _ => .ok ({ frame := r.extractLsb' 0 24, fgen := r.extractLsb' 24 8 }, r.extractLsb' 32 16)

/-- `tset`: into another context only at commit (R308). -/
def execGTset (n : GNode) (s : State) : Out :=
  runNode (.gTset n) s fun f s => do
    let (c, it) ← liftT (tsetTo s n f)
    if c = f.ik.ctx then
      let s := s.sendT f n.t0 1 [f.lpay] f.ltag n.act c it
      return s.sendT f n.t1 1 [f.lpay] f.ltag n.act c it
    else return s.pendOn f (.gTset n) 0#64 [packCtx c it]

def execGPurge (n : GNode) (s : State) : Out :=
  runNode (.gPurge n) s fun f s =>
    if n.immField 0 0 = 1 then .ok (s.pendOn f (.gPurge n) 0#64 [])
    else
      let s := s.sendT f n.t0 1 [0#64] n.fmt .purge f.ik.ctx f.ik.iter
      .ok (s.sendT f n.t1 1 [0#64] n.fmt .purge f.ik.ctx f.ik.iter)

/-! ## Time (R349) -/

def execGTnow (n : GNode) (s : State) : Out := runNode (.gTnow n) s fun f s => .ok (s.sendOut f n 1 [w64 s.now] .int)

/-- `tgate`: before its deadline the token keeps its matching entry, marked timed. -/
def execGTgate (n : GNode) (s : State) : Out :=
  runNode (.gTgate n) s fun f s =>
    if f.rpay.toNat ≤ s.now then .ok (s.sendOut f n 1 [f.lpay] f.ltag)
    else
      let rg := s.region f.rk
      let key := s.cellOf f.rk f.x f.y
      let old := ((s.cell key).entry? rg.gen f.slot f.idx f.ik.ctx (some f.ik.iter)).getD
        { slot := f.slot, idx := f.idx, ctx := f.ik.ctx, iter := some f.ik.iter, gen := rg.gen, age := s.clk }
      let e := { old with l := f.l, fired := true, timed := some f.rpay.toNat, used := s.clk }
      let s := s.modCell key fun c => c.putEntry e
      .ok (s.after (s.clkUntil f.rpay.toNat) (.tgateDeadline f.rk f.ik f.idx))

/-- TGATE_DEADLINE: the timed entry's token leaves. -/
def execTgateDeadline (rk : RKey) (ik : IKey) (idx : Nat) (s : State) : Out :=
  let rg := s.region rk
  let b := rg.block ik.blk
  let (x, y) := b.at idx
  let key := s.cellOf rk x y
  let mine (e : MEntry) : Bool := e.idx == idx && e.ctx == ik.ctx && e.iter == some ik.iter && e.timed.isSome
  match recordArc s rk x y ik.blk (.ev (.tgateDeadline rk ik idx)) with
  | some s => .next s
  | none =>
  -- an entry written back is reinstalled by the region's timer
  let s := match rg.ovf.find? fun o => o.cell == key && mine o.ent with
    | none => s
    | some o => match reinstall s rk x y o with | .ok s => s | .error _ => s.after 1 (.tgateDeadline rk ik idx)
  match (s.cell key).ms.find? mine, b.node idx with
  | some e, some nd =>
    .next (if rg.isParked ik.ctx then
        s.modRegion rk fun r => { r with parked := r.parked.map fun p =>
          if p.ctx = ik.ctx then { p with work := p.work ++ [.ev (.tgateDeadline rk ik idx)] } else p }
      else if s.now < e.timed.getD 0 then s.after (s.clkUntil (e.timed.getD 0)) (.tgateDeadline rk ik idx)
      else
        let f : Firing := { rk := rk, ik := ik, x := x, y := y, slot := e.slot, idx := idx, l := e.l }
        let s := s.modCell key fun c => c.putEntry { e with l := none, timed := none }
        settle (s.sendOut f (fieldsOf nd) 0 [f.lpay] f.ltag) rk)
  | _, _ => .next s

end Sys2Proof.Machine
end

