-- ==== Sys2Proof/Machine/NodesMem.lean ====
section
/-! DEFINITION. The memory nodes (R339-R348) and the atomic nodes (R260-R267) as they fire; what they leave to
the commit is performed in Commit. -/

namespace Sys2Proof.Machine

/-! ## Accesses by address form (R339) -/

/-- What an address names as one number, unique in the region. -/
def linAddr (s : State) (f : Firing) : GAddr → Word
  | .va a => a
  | .mcell x y off => w64 (0xA * 2 ^ 60 + x * 2 ^ 22 + y * 2 ^ 16 + off)
  | .loc off => w64 (0xB * 2 ^ 60 + s.cellOf f.rk f.x f.y * 2 ^ 13 + off)
  | .bad => 0#64

/-- The address as the TVAL of a fault of a cell's storage. -/
def atAddr {α : Type} (a : Word) (r : Except Trap α) : Except (Option Trap) α :=
  match r with | .ok v => .ok v | .error t => .error (some { t with tval := a })

/-- Form and alignment. -/
def nodeAddr (s : State) (f : Firing) (a : Word) (n : Nat) (k : Kind) : Except (Option Trap) GAddr := do
  let g ← liftT (formOk s f a k)
  nodeNeed (a.toNat % n == 0) cMISALIGN a
  return g

/-- `n` bytes read, with the latency of the access (R353). -/
def nodeRead (s : State) (f : Firing) (a : Word) (n : Nat) : GAddr → Except (Option Trap) (List Byte × Nat × State)
  | .va va => do
    let (bs, _, s) ← liftT (ownerRead s f.rk va n)
    return (bs, 2 + s.stall + ownerHops s f.rk f.x f.y va, s)
  | .mcell x y off => do
    let key ← liftT (mCellAt s f.rk x y a)
    let bs ← atAddr a (mRead s f.rk key off n)
    return (bs, 2 * hops (f.x, f.y) (x, y) + 2, s)
  | .loc off => do
    let bs ← atAddr a (localRead s f.rk (s.cellOf f.rk f.x f.y) off n a)
    return (bs, 2, s)
  | .bad => nodeFail cPAGE_R a

/-- The checks of a write of `bs` when its node fires. -/
def nodeWriteOk (s : State) (f : Firing) (a : Word) (bs : List Byte) : GAddr → Except (Option Trap) State
  | .va va => do
    let rg := s.region f.rk
    let (ox, oy) := rg.ownerOf va
    let key := cellAt rg.handle ox oy
    let (_, s) ← liftT (xlat s (s.cellAgent f.rk key) va .w)
    return s
  | .mcell x y off => do
    let key ← liftT (mCellAt s f.rk x y a)
    let _ ← atAddr a (mPut s f.rk key off bs)
    return s
  | .loc off => do
    let _ ← atAddr a (localWrite s f.rk (s.cellOf f.rk f.x f.y) off bs a)
    return s
  | .bad => nodeFail cPAGE_W a

/-- A load may be performed now. -/
def loadNow (s : State) (f : Firing) (i : Instr) : Except (Option Trap) Unit :=
  notYet (loadReady s f i && fenceReady s f i)

/-! ## Loads (R340, R341) -/

/-- A load of `k` bytes at `a`. -/
def loadAt (i : Instr) (f : Firing) (a : Word) (k : Nat) (s : State) : NodeOut := do
  loadNow s f i
  let g ← nodeAddr s f a k .r
  let lin := linAddr s f g
  amoClash s f i lin k
  let (bs, lat, s) ← nodeRead s f a k g
  let bs := forwardOver (pendBefore (s.region f.rk) f.ik (lsidOf i)) lin.toNat bs
  return s.openReply f i (some (loadPay (fieldsOf i).fmt bs)) lat

def execGLd (n : GNode) (s : State) : Out :=
  runNode (.gLd n) s fun f s => loadAt (.gLd n) f (f.lpay + nodeOff n) (nodeBytes n) s

/-- `lda`: an acquire; what is above it in LSID, and later instances, wait for it (`fenceReady`, `nextPend`). -/
def execGLda (n : GNode) (s : State) : Out :=
  runNode (.gLda n) s fun f s => do
    let s ← loadAt (.gLda n) f (f.lpay + nodeOff n) (nodeBytes n) s
    return gAcquire s f.rk (nodeScope n)

/-- The region's tide stall limit (R449). -/
def tideLimit (s : State) (rk : RKey) : Nat :=
  let va := (s.tenant rk.vmid).args.rtab + w64 (64 * rk.ridx + 24)
  match s.homeLoad (s.devAgent rk.vmid (handleCove (s.region rk).handle)) va with
  | .ok (w, _, _) => fld w 47 0
  | .error _ => 1000000

/-- A line of a tide region refetched for its owner. -/
def ownerRefetch (s : State) (rk : RKey) (va : Word) (p : Phys) : State :=
  if s.uncached p then s
  else
    let rg := s.region rk
    let (ox, oy) := rg.ownerOf va
    let cove := coveOfXY (handleX rg.handle + ox) (handleY rg.handle + oy)
    let line := p.pa / 64
    let s := s.l2Forward cove line
    let n : L2Line := { data := insBytes 0#512 0 (s.homeRead (64 * line) 64), stamp := s.tideT p.tide, tide := p.tide }
    let s := if (AMap.get? (s.cove cove).l2 line).isNone then s.l2Evict cove else s
    let s := { s with cores := dropL1d s.cores cove line }
    (s.stallFor (tierClk (s.tier p.pa))).modCove cove fun v => { v with l2 := AMap.set v.l2 line n }

/-- `ldb` (R227, R341): from a copy stamped with the floor or later; else at the home, where it waits for the
tide up to the region's limit. -/
def execGLdb (n : GNode) (s : State) : Out :=
  runNode (.gLdb n) s fun f s => do
    let a := f.lpay
    let k := nodeBytes n
    let b := n.immField 7 4
    loadNow s f (.gLdb n)
    match ← nodeAddr s f a k .r with
    | .va va =>
      let rg := s.region f.rk
      let (ox, oy) := rg.ownerOf va
      let cove := coveOfXY (handleX rg.handle + ox) (handleY rg.handle + oy)
      let (p, s) ← liftT (xlat s (s.cellAgent f.rk (cellAt rg.handle ox oy)) va .r)
      if b = 15 ∨ p.tide = none then loadAt (.gLdb n) f a k s
      else
        let floor := fld f.rpay 47 0 - b
        let fresh := match AMap.get? (s.cove cove).l2 (p.pa / 64) with | some l => decide (floor ≤ l.stamp) | none => false
        if fresh then
          -- a superseded copy still serves a bounded load (R249)
          let l := (AMap.get? (s.cove cove).l2 (p.pa / 64)).getD { data := 0#512 }
          let bs := getBytes l.data (p.pa % 64) k
          let bs := match (s.cell (cellAt rg.handle ox oy)).acb.find? fun e => e.line == p.pa / 64 with
            | none => bs
            | some e => (indexed (p.pa % 64) bs).map fun q => (AMap.get? e.bytes q.1).getD q.2
          amoClash s f (.gLdb n) va k
          let bs := forwardOver (pendBefore rg f.ik (lsidOf (.gLdb n))) va.toNat bs
          return s.openReply f (.gLdb n) (some (loadPay n.fmt bs)) (2 + Config.l2Clk + ownerHops s f.rk f.x f.y va)
        else if s.tideT p.tide < floor then
          let began := f.since.getD s.now
          let lim := tideLimit s f.rk
          if lim ≠ 0 ∧ began + lim < s.now then nodeFail cTIDE_TMO a
          else return s.fireAfter 1 (.gLdb n) { f with since := some began }
        else loadAt (.gLdb n) f a k (ownerRefetch s f.rk va p)
    | _ => loadAt (.gLdb n) f a k s

/-! ## Stores (R342) -/

/-- The checks of a store; the write is left to the commit. -/
def storeAt (i : Instr) (f : Firing) (a : Word) (k : Nat) (s : State) : NodeOut := do
  let g ← nodeAddr s f a k .w
  let s ← nodeWriteOk s f a (natBytes k f.rpay.toNat) g
  return (s.pendOn f i (linAddr s f g) [a]).sendCount f false

def execGSt (n : GNode) (s : State) : Out :=
  runNode (.gSt n) s fun f s => storeAt (.gSt n) f (f.lpay + nodeOff n) (nodeBytes n) s

/-- `strl`: its release goes before its write at commit. -/
def execGStrl (n : GNode) (s : State) : Out :=
  runNode (.gStrl n) s fun f s => storeAt (.gStrl n) f (f.lpay + nodeOff n) (nodeBytes n) s

/-! ## I-structures (R345, R346) -/

/-- An `ird` of an M-cell word that is not full defers. -/
def irdDefer (i : Instr) (f : Firing) (key off : Nat) (s : State) : NodeOut := do
  let s ← liftT (poolRoom s f.rk key)
  let s := mRestamp s f.rk key (s.region f.rk).gen off
  let s := (mSet s key off 2).modCell key fun c => { c with defer := c.defer ++ [{ off := off, f := f, node := i }] }
  return s.openReply f i none 0

def execGIrd (n : GNode) (s : State) : Out :=
  runNode (.gIrd n) s fun f s => do
    let i : Instr := .gIrd n
    let a := f.lpay
    loadNow s f i
    let g ← nodeAddr s f a 8 .r
    let lin := linAddr s f g
    amoClash s f i lin 8
    let ps := (pendBefore (s.region f.rk) f.ik (lsidOf i)).filter fun p =>
      match pendBytes p with | some (b, w) => overlaps lin.toNat 8 b w.length | none => false
    match g with
    | .mcell x y off =>
      let key ← liftT (mCellAt s f.rk x y a)
      let bs ← atAddr a (mRead s f.rk key off 8)
      if mState (s.cell key) (s.region f.rk).gen off = 1 ∨ !ps.isEmpty then
        return (gAcquire s f.rk .dv).openReply f i (some (bytesWord (forwardOver ps lin.toNat bs))) (2 * hops (f.x, f.y) (x, y) + 2)
      else irdDefer i f key off s
    | .va va =>
      let (bs, p, s) ← liftT (ownerRead s f.rk va 8)
      nodeNeed (s.hasFe p.pa) cFE_UNSUP va
      if !ps.isEmpty then
        return (gAcquire s f.rk .dv).openReply f i (some (bytesWord (forwardOver ps lin.toNat bs))) (2 + s.stall)
      else
        return (s.openReply f i none 0).after (2 + tierClk (s.tier p.pa)) (.memoryReply f.rk f.ik f.idx)
    | _ => nodeFail cPERM a

def execGIwr (n : GNode) (s : State) : Out :=
  runNode (.gIwr n) s fun f s => do
    let a := f.lpay
    match ← nodeAddr s f a 8 .w with
    | .loc _ => nodeFail cPERM a
    | .va va =>
      let (p, s) ← liftT (xlat s (s.fireAgent f) va .w)
      nodeNeed (s.hasFe p.pa) cFE_UNSUP va
      storeAt (.gIwr n) f a 8 s
    | _ => storeAt (.gIwr n) f a 8 s

/-! ## Fences and prefetch (R347, R348) -/

/-- `fence` (R347): performed once every node below it and every access of the instances before is; what is above it in
LSID, and later instances, wait for it (`fenceReady`, `nextPend`). -/
def execGFence (n : GNode) (s : State) : Out :=
  runNode (.gFence n) s fun f s => do
    notYet (fenceMay s f (.gFence n))
    return gAcquire (gRelease s f.rk (nodeScope n)) f.rk (nodeScope n)

/-- The 64-byte lines of a prefetch that can be read, brought to their owners' cove L2. -/
def nodePref (s : State) (f : Firing) (va : Word) : State :=
  let rg := s.region f.rk
  let (ox, oy) := rg.ownerOf va
  let cove := coveOfXY (handleX rg.handle + ox) (handleY rg.handle + oy)
  match xlat s (s.cellAgent f.rk (cellAt rg.handle ox oy)) va .r with
  | .error _ => s
  | .ok (p, s) => if s.uncached p || !s.hasFe p.pa then s else (s.l2Line cove p).2

def execGPref (n : GNode) (s : State) : Out :=
  runNode (.gPref n) s fun f s =>
    let a := f.lpay
    let k := min f.rpay.toNat 65536
    if k = 0 then .ok s
    else
      .ok ((List.range ((a.toNat % 64 + k - 1) / 64 + 1)).foldl
        (fun s j => nodePref s f ((a &&& ~~~63#64) + w64 (64 * j))) s)

/-! ## Atomic nodes (R260-R267) -/

/-- `amo`: MISALIGN, PAGE_W, PERM, POISON when it fires; performed at commit. -/
def execGAmo (n : GNode) (s : State) : Out :=
  runNode (.gAmo n) s fun f s => do
    let a := f.lpay
    let k := nodeBytes n
    match ← nodeAddr s f a k .w with
    | .loc _ => nodeFail cPERM a
    | .va va =>
      let (p, s) ← liftT (translate s (s.fireAgent f) va .w)
      liftT (rmwOk s p va)
      nodeNeed (!s.isPoison p.pa) cPOISON va
      return (s.pendOn f (.gAmo n) va [a]).sendCount f false
    | _ => storeAt (.gAmo n) f a k s

/-- The M-cell and offset of a lock or combining node: no other form names one. -/
def lockPlace (s : State) (f : Firing) (n : Nat) : Except (Option Trap) (Nat × Nat × Nat × Nat) := do
  let a := f.lpay
  match ← nodeAddr s f a n .w with
  | .mcell x y off =>
    let key ← liftT (mCellAt s f.rk x y a)
    return (x, y, key, off)
  | _ => nodeFail cPERM a

/-- The number of the token that guards a word (R262). -/
def lockNo (off : Nat) : Nat := Nat.xor (Nat.xor (off / 8 % 64) (off / 512 % 64)) (off / 32768 % 2)

/-- The lock tokens a context holds in its region. -/
def locksHeld (s : State) (rk : RKey) (c : Ctx) : Nat :=
  let rg := s.region rk
  rg.xys.foldl (fun n q =>
    n + ((s.cell (cellAt rg.handle q.1 q.2)).locks.filter fun l => l.2.holder == some c).length) 0

/-- `lkt` (R263): performed when it fires; granted at once or queued. -/
def execGLkt (n : GNode) (s : State) : Out :=
  runNode (.gLkt n) s fun f s => do
    let (x, y, key, off) ← lockPlace s f 8
    notYet (fenceReady s f (.gLkt n))
    let c := f.ik.ctx
    let l := AMap.getD (s.cell key).locks (lockNo off) {}
    nodeNeed (l.holder != some c && decide (locksHeld s f.rk c < 4)) cLOCK f.lpay
    match l.holder with
    | none =>
      let s := s.modCell key fun c' => { c' with
        locks := AMap.set c'.locks (lockNo off) { l with holder := some c, by_ := some f.ik, abn := false } }
      return (gAcquire s f.rk (nodeScope n)).sendOut f n (2 * hops (f.x, f.y) (x, y) + 2) [w64 (b2n l.abn)] .int
    | some _ =>
      let s ← liftT (poolRoom s f.rk key)
      return s.modCell key fun c' => { c' with
        locks := AMap.set c'.locks (lockNo off) { l with wait := l.wait ++ [{ off := off, f := f, node := .gLkt n }] } }

/-- `lkg` (R264): performed at the later of its firing and the commit. -/
def execGLkg (n : GNode) (s : State) : Out :=
  runNode (.gLkg n) s fun f s => do
    let _ ← lockPlace s f 8
    return s.pendOn f (.gLkg n) 0#64 [f.lpay]

/-- `mcomb` (R267): MISALIGN when it fires; performed at the later of its firing and the commit. -/
def execGMcomb (n : GNode) (s : State) : Out :=
  runNode (.gMcomb n) s fun f s => do
    let _ ← lockPlace s f 16
    return s.pendOn f (.gMcomb n) 0#64 [f.lpay]

end Sys2Proof.Machine
end

