-- ==== Sys2Proof/Machine/Copy.lean ====
section
/-! DEFINITION. The copy engines of the coves (R384-R399): command packets and their checks, posting, control, the
movement of elements, completion; stream registers (R219-R223); buoys of commands (R395-R397); `post`. -/

namespace Sys2Proof.Machine

/-! ## Packets (R385-R387) -/

/-- A word of a packet. -/
def pkW (pk : List Word) (k : Nat) : Word := pk.getD k 0#64

def cpOp (pk : List Word) : Nat := fld (pkW pk 0) 17 16
def cpAct (pk : List Word) : Nat := fld (pkW pk 0) 1 0
def cpCmpl (pk : List Word) : Nat := fld (pkW pk 0) 23 22
def cpPrio (pk : List Word) : Nat := fld (pkW pk 0) 21 20
def cpFem (pk : List Word) : Nat := fld (pkW pk 0) 19 18
def cpIsz (pk : List Word) : Nat := if bitAt (pkW pk 0) 14 then 8 else 4
def cpIscl (pk : List Word) : Bool := bitAt (pkW pk 0) 13
def cpEsz (pk : List Word) : Nat := 2 ^ fld (pkW pk 0) 12 11
def cpDst (pk : List Word) : Nat := fld (pkW pk 0) 10 8
def cpSrc (pk : List Word) : Nat := fld (pkW pk 0) 7 5
def cpFtag (pk : List Word) : Fmt := Fmt.ofCode ((pkW pk 0).extractLsb' 2 3)
def cpCw (pk : List Word) : Word := pkW pk 2
def cpCtx (pk : List Word) : Ctx :=
  { frame := (pkW pk 12).extractLsb' 0 24, fgen := (pkW pk 12).extractLsb' 24 8 }
def cpIter (pk : List Word) : BitVec 16 := (pkW pk 12).extractLsb' 32 16

/-- The extents of a side whose address is word `k`. -/
def cpExts (pk : List Word) (k : Nat) : List Nat :=
  (List.range 4).map fun j => fld (pkW pk (k + 1)) (16 * j + 15) (16 * j) + 1

/-- Its signed strides. -/
def cpStrs (pk : List Word) (k : Nat) : List Int :=
  (List.range 4).map fun j => (sext 32 (pkW pk (k + 2 + j / 2) >>> (32 * (j % 2)))).toInt

def cpCount (l : List Nat) : Nat := l.foldl (· * ·) 1

/-- The elements of a command. -/
def cpTotal (pk : List Word) : Nat := cpCount (cpExts pk (if cpOp pk = 1 then 8 else 4))

/-- The offset of element `t` of a shaped side (R388). -/
def shapeOff : List Nat → List Int → Nat → Int
  | e :: es, d :: ds, t => (t % e : Nat) * d + shapeOff es ds (t / e)
  | _, _, _ => 0

/-- The least and the greatest offset of a shaped side. -/
def shapeSpan : List Nat → List Int → Int × Int
  | e :: es, d :: ds =>
    let (lo, hi) := shapeSpan es ds
    (lo + min 0 ((e - 1 : Nat) * d), hi + max 0 ((e - 1 : Nat) * d))
  | _, _ => (0, 0)

/-- A place of the cell space: an M-cell, or a local store, with the offset (R387). -/
def cellForm (a : Word) : Option (Bool × Nat × Nat × Nat) :=
  if fld a 59 28 ≠ 0 then none
  else if fld a 63 60 = 0xA then some (true, fld a 27 22, fld a 21 16, fld a 15 0)
  else if fld a 63 60 = 0xC ∧ fld a 15 13 = 0 then some (false, fld a 27 22, fld a 21 16, fld a 12 0)
  else none

/-- The address has a bit set that its space wants 0. -/
def cpBadAddr (space : Nat) (a : Word) : Bool :=
  match space with
  | 1 | 2 | 3 => fld a 63 22 != 0
  | 4 => (cellForm a).isNone
  | 5 => fld a 63 3 != 0
  | 6 => a != 0#64
  | _ => false

/-- The typed buffer of a space code, and its size. -/
def spaceBuf : Nat → Buf
  | 1 => .w | 2 => .a | _ => .c

/-! ## Buoys (R10, R12, R395, R396) -/

/-- The device position of the buoy cell that bits [2:0] of a selector name in a cove. -/
def buoyXY (cove sel : Nat) : Nat × Nat :=
  let core := 4 * cove + sel / 2 % 4
  if sel % 2 = 0 then (unitX core + 3, unitY core) else (unitX core + 1, unitY core + 3)

/-- The region of a tenant in state `st` that covers a position. -/
def regionAt (s : State) (vmid st X Y : Nat) : Option (RKey × Region) :=
  (s.regions.find? fun p =>
    let h := p.2.handle
    p.1 / 256 == vmid && p.2.st == st && handleX h ≤ X && X < handleX h + handleW h && handleY h ≤ Y
      && Y < handleY h + handleH h).map fun p => ({ vmid := p.1 / 256, ridx := p.1 % 256 }, p.2)

/-- The region buoy at a region's cell. -/
def Region.buoyAt (rg : Region) (x y : Nat) : Option (Nat × Buoy) := rg.buoys.find? fun b => b.2.x == x && b.2.y == y

/-- The buoy a selector names: of a placed region of the slot's tenant, or with `away` also of a
swapped-out one. -/
def buoyOf (s : State) (sel : Nat) (away : Bool) : Option (RKey × Nat × Buoy) :=
  let (X, Y) := buoyXY (coveOfSlot s.cur) sel
  let rg := match regionAt s s.vmid 3 X Y with
    | some r => some r
    | none => if away then regionAt s s.vmid 4 X Y else none
  rg.bind fun r =>
    (r.2.buoyAt (X - handleX r.2.handle) (Y - handleY r.2.handle)).map fun b => (r.1, b.1, b.2)

/-- A selector that must name a buoy. -/
def needBuoy (i : Instr) (s : State) (w : Word) (away : Bool) : Except Trap (RKey × Nat × Buoy) :=
  if !bitAt w 3 || fld w 7 4 != 0 then illegal i
  else
    match buoyOf s (fld w 2 0) away with
    | some b => .ok b
    | none => fail cPERM w

/-- The cove of a region's buoy. -/
def buoyCove (s : State) (rk : RKey) (b : Nat) : Nat :=
  let rg := s.region rk
  match AMap.get? rg.buoys b with
  | some y => coveOfXY (handleX rg.handle + y.x) (handleY rg.handle + y.y)
  | none => handleCove rg.handle

/-- A token for a region's buoy, sent from a cove (R518). -/
def sendBuoy (s : State) (cove : Nat) (rk : RKey) (b : Nat) (t : Token) : State :=
  s.after (meshClk cove (buoyCove s rk b)) (.buoyTokenArrival rk b t none)

/-! ## Checks (R389) -/

/-- What a packet's check asks beside the packet: the trap of a malformed one, the buoy, and whether a
node posts. -/
structure CopyCk where
  ill  : Trap
  buoy : Option (RKey × Nat × Buoy)
  node : Bool
  deriving DecidableEq, Repr

/-- Step 1: ILLEGAL. -/
def cpIllegal (ck : CopyCk) (pk : List Word) : Bool :=
  let op := cpOp pk
  let c := pkW pk 0
  fld c 63 24 != 0 || cpCmpl pk == 3 || cpFem pk == 3 || fld c 15 15 != 0 || cpDst pk == 7 || cpSrc pk == 7
    || (if op = 3 then cpAct pk != 1 && cpAct pk != 2 else cpAct pk != 0)
    || pkW pk 13 != 0#64 || pkW pk 14 != 0#64 || pkW pk 15 != 0#64 || fld (pkW pk 12) 63 48 != 0
    || ((op == 0 || op == 3) && pkW pk 3 != 0#64)
    || (cpCmpl pk == 2 && ck.buoy.isNone)
    || (op != 3 &&
      (5 ≤ cpSrc pk || (op == 0 && cpCount (cpExts pk 4) != cpCount (cpExts pk 8))
        || (op == 1 && cpSrc pk != 0) || (op == 2 && cpDst pk != 0)
        || ((cpSrc pk == 4 || cpDst pk == 4 || cpDst pk == 6) && ck.buoy.isNone)
        || (ck.node && cpDst pk == 5)
        || (cpFem pk != 0 && (cpSrc pk == 1 || cpSrc pk == 2 || cpSrc pk == 3
              || (cpSrc pk == 4 && ((cellForm (pkW pk 4)).map (·.1)) != some true)))
        || cpBadAddr (cpSrc pk) (pkW pk 4) || cpBadAddr (cpDst pk) (pkW pk 8)))

/-- A typed-buffer side runs past the end of its buffer. -/
def cpPast (pk : List Word) (k space : Nat) : Bool :=
  let o : Int := fld (pkW pk k) 19 0
  let (lo, hi) := shapeSpan (cpExts pk k) (cpStrs pk k)
  (space == 1 || space == 2 || space == 3) && (o + lo < 0 || (bufBytes (spaceBuf space) : Int) < o + hi + cpEsz pk)

/-- The first failure of a packet, but for the stream register. -/
def checkPacket (ck : CopyCk) (pk : List Word) : Except Trap Unit := do
  let op := cpOp pk
  let al (a : Word) (n : Nat) : Except Trap Unit := need (a.toNat % n == 0) cMISALIGN a
  if cpIllegal ck pk then .error ck.ill
  al (cpCw pk) 8
  if op ≠ 3 then
    if op = 1 ∨ op = 2 then al (pkW pk 3) (cpIsz pk)
    if cpSrc pk ≤ 4 then al (pkW pk 4) (cpEsz pk)
    if cpDst pk ≤ 4 then al (pkW pk 8) (cpEsz pk)
    need (cpSrc pk != 1 && !(op != 1 && cpPast pk 4 (cpSrc pk))) cPERM (pkW pk 4)
    need (cpDst pk != 3 && !(op != 2 && cpPast pk 8 (cpDst pk))) cPERM (pkW pk 8)
  match ck.buoy with
  | some (_, b, y) => need (y.cur.bind == 1#2) cPERM (w64 b)
  | none => .ok ()

/-- Step 5: the completion word can be written and has a full/empty bit. -/
def checkCw (s : State) (ag : Agent) (pk : List Word) : Except Trap State :=
  if cpCw pk = 0#64 then .ok s
  else
    match xlat s ag (cpCw pk) .w with
    | .error t => .error t
    | .ok (p, s) => if s.hasFe p.pa then .ok s else .error { cause := cFE_UNSUP, tval := cpCw pk }

/-! ## Commands -/

/-- The engine acting for a command. -/
def CopyCmd.agent (c : CopyCmd) (cove : Nat) : Agent :=
  { vmid := c.vmid, troot := c.troot, sup := c.sup, core := none, cove := cove }

def State.modCmd (s : State) (cove id : Nat) (f : CopyCmd → CopyCmd) : State :=
  s.modCove cove fun v => { v with cmds := v.cmds.map fun c => if c.id = id then f c else c }

def State.cmd? (s : State) (cove id : Nat) : Option CopyCmd := (s.cove cove).cmds.find? fun c => c.id == id

/-- The queue has a free entry (R384). -/
def copyRoom (s : State) (cove : Nat) : Bool := decide ((s.cove cove).cmds.length < 32)

/-- The stream register a command feeds, changed: in its slot, or with its evicted task (R223). -/
def modFeed (s : State) (c : CopyCmd) (f : QR → QR) : State :=
  match c.slot with
  | none => s
  | some n =>
    let ch (m : AMap QR) : AMap QR := AMap.mapV m fun _ q => if q.bnd && q.cmd == c.id then f q else q
    let s := s.modSlot n fun v => { v with q := ch v.q }
    s.modTenant c.vmid fun t =>
      { t with saves := AMap.mapV t.saves fun _ v => if coveOfSlot v.slot = coveOfSlot n then { v with q := ch v.q } else v }

/-- The stream register a command feeds. -/
def feedOf (s : State) (c : CopyCmd) : Option QR :=
  match c.slot with
  | none => none
  | some n =>
    let fd (m : AMap QR) : Option QR := (m.find? fun q => q.2.bnd && q.2.cmd == c.id).map (·.2)
    match fd (s.slot n).q with
    | some q => some q
    | none => (s.tenant c.vmid).saves.findSome? fun v => if coveOfSlot v.2.slot = coveOfSlot n then fd v.2.q else none

/-- The window of the fed register has no room for an element, or is gone. -/
def feedFull (s : State) (c : CopyCmd) : Bool :=
  match feedOf s c with
  | some q => decide (512 < q.win.length + cpEsz c.pk)
  | none => true

/-- A token of a command: to the targets of its node, or through its buoy (R392, R410). -/
def cmdToken (s : State) (cove : Nat) (c : CopyCmd) (pay : Word) (ft : Fmt) (t : Nat) : State :=
  match c.node with
  | some (f, i) =>
    let n := fieldsOf i
    let it := f.ik.iter + 1#16 + BitVec.ofNat 16 t
    let s := s.sendT f n.t0 Config.meshCove [pay] ft n.act f.ik.ctx it
    s.sendT f n.t1 Config.meshCove [pay] ft n.act f.ik.ctx it
  | none =>
    match c.rk, c.buoy with
    | some rk, some b =>
      sendBuoy s cove rk b
        { payload := pay, ftag := ft, ctx := cpCtx c.pk, iter := cpIter c.pk + BitVec.ofNat 16 t, dx := 0#6, dy := 0#6
          dslot := 0#3, didx := 0#7, dop := 0#2, act := .normal }
    | _, _ => s

/-- A write of the completion word, and the port token that follows it (R391, R392): a write that cannot be
performed is counted. -/
def writeCw (s : State) (cove : Nat) (c : CopyCmd) (w : Word) : State :=
  let s :=
    if cpCw c.pk = 0#64 then s
    else
      match xlat s (c.agent cove) (cpCw c.pk) .w with
      | .error _ => s.count c.vmid .trapLost
      | .ok (p, s) => s.putHome (c.agent cove) p (natBytes 8 w.toNat)
  if cpCmpl c.pk = 2 then cmdToken s cove c w .int 0 else s

/-- The completion word (R392). -/
def cwWord (c : CopyCmd) (paused late : Bool) : Word :=
  w64 (min c.pos 0xFFFFFFFF * 2 ^ 16 + b2n late * 2 ^ 9 + b2n paused * 2 ^ 8 + c.status.toNat)

/-- The completion word set to 0 and empty. -/
def clearCw (s : State) (cove : Nat) (c : CopyCmd) : State :=
  if cpCw c.pk = 0#64 then s
  else
    match xlat s (c.agent cove) (cpCw c.pk) .w with
    | .error _ => s
    | .ok (p, s) => (s.putHome (c.agent cove) p (List.replicate 8 0#8)).setEmpty p.pa

/-- The completion word set empty, as a resume leaves it (R391). -/
def emptyCw (s : State) (cove : Nat) (c : CopyCmd) : State :=
  if cpCw c.pk = 0#64 then s
  else
    match xlat s (c.agent cove) (cpCw c.pk) .w with
    | .error _ => s
    | .ok (p, s) => ((s.atHome (c.agent cove) p).setEmpty p.pa)

/-- The home latency of a command's completion (R412). -/
def cwClk (s : State) (cove : Nat) (c : CopyCmd) : Nat :=
  match translate s (c.agent cove) (cpCw c.pk) .w with
  | .ok (p, s) => tierClk (s.tier p.pa)
  | .error _ => Config.nearClk

/-- A command ends with a status: its feed is done, its completion follows. -/
def copyEnd (s : State) (cove id : Nat) (status : BitVec 8) : State :=
  match s.cmd? cove id with
  | none => s
  | some c =>
    let s := s.modCmd cove id fun c => { c with st := .ending, status := status }
    let s := modFeed s c fun q => { q with done := true, flt := false, cause := status }
    s.after (cwClk s cove c) (.copyComplete cove id)

/-- A command queued (R399): its completion word 0 and empty, its stream register bound. -/
def enqueueCopy (s : State) (cove : Nat) (c : CopyCmd) : State :=
  let id := (s.cove cove).nextId + 1
  let c := { c with id := id }
  let s := clearCw s cove c
  let s := s.modCove cove fun v => { v with nextId := id, cmds := v.cmds ++ [c] }
  let s := match c.slot with
    | some n =>
      let bound (g : Gen) : QR :=
        { gen := g, bnd := true, esz := (pkW c.pk 0).extractLsb' 11 2, left := cpTotal c.pk, cmd := id }
      if cpDst c.pk = 5 then s.modSlot n fun v => { v with q := AMap.set v.q (fld (pkW c.pk 8) 2 0) (bound v.gen) }
      else s
    | none => s
  s.onceAfter 4 (.copyStart cove)

/-- A cancel (R391): the beats in flight are written already. -/
def cancelCmd (s : State) (cove id : Nat) : State :=
  match s.cmd? cove id with
  | none => s
  | some c => if c.st = .ending then s else copyEnd s cove id 0xFE#8

/-- A resume (R391): only of a paused command. -/
def resumeCmd (s : State) (cove id : Nat) : State :=
  match s.cmd? cove id with
  | none => s
  | some c =>
    if c.st = .paused then
      let s := emptyCw s cove c
      let s := s.modCmd cove id fun c => { c with st := .running, status := 0#8 }
      (modFeed s c fun q => { q with flt := false, cause := 0#8 }).onceAfter 1 (.copyBeat cove)
    else s

/-- A control command (R391), applied at once. -/
def applyControl (s : State) (cove : Nat) (k : CopyCmd) : State :=
  let t := pkW k.pk 4
  match (s.cove cove).cmds.find? fun c => c.vmid == k.vmid && cpCw c.pk == t && t != 0#64 with
  | none => if cpCw k.pk = 0#64 then s else writeCw s cove k 0xFD#64
  | some c =>
    let s := if cpAct k.pk = 1 then resumeCmd s cove c.id else cancelCmd s cove c.id
    if cpCw k.pk = 0#64 then s else writeCw s cove k 0#64

/-! ## Elements (R387-R390) -/

/-- What becomes of an element. -/
inductive Moved where
  | done (s : State)
  | wait
  | fault (t : Trap)

/-- A source element read, or a wait (R390). -/
inductive Got where
  | val (v : Word) (c : CopyCmd) (s : State)
  | wait
  | fault (t : Trap)

/-- The region of the cell space of a command is in place. -/
def cmdPlaced (s : State) (c : CopyCmd) : Bool :=
  match c.rk with
  | none => true
  | some rk => (s.region rk).wave.isNone && (s.region rk).st == 3

/-- A cell of the command's region: an M-cell, or a C- or A-cell whose data holds the bytes. -/
def cmdCell (s : State) (c : CopyCmd) (a : Word) (n : Nat) : Except Trap (Bool × Nat × Nat × Nat × Nat) :=
  match c.rk, cellForm a with
  | some rk, some (true, x, y, off) =>
    match mCellAt s rk x y a with
    | .error t => .error t
    | .ok key => .ok (true, key, x, y, off)
  | some rk, some (false, x, y, off) =>
    let rg := s.region rk
    let key := cellAt rg.handle x y
    if x < handleW rg.handle ∧ y < handleH rg.handle ∧ cellKind x y ≠ 1 ∧ !rg.isUnused x y then
      match localOk (s.cell key) off n a with
      | .error t => .error t
      | .ok _ => .ok (false, key, x, y, off)
    else gErr cPERM a
  | _, _ => gErr cPERM a

/-- A word taken under FEM, kept for the elements that share it. -/
def fromWord (w : Word) (a : Word) (n : Nat) : Word := w64 (fld (w >>> (8 * (a.toNat % 8))) (8 * n - 1) 0)

def copyRead (s : State) (cove : Nat) (c : CopyCmd) (a : Word) : Got :=
  let n := cpEsz c.pk
  let ag := c.agent cove
  let kept := match c.word with | some (k, w) => if k = a.toNat / 8 ∧ n < 8 then some w else none | none => none
  if a.toNat % n ≠ 0 then .fault { cause := cMISALIGN, tval := a }
  else
    match cpSrc c.pk with
    | 0 =>
      match xlat s ag a .r with
      | .error t => .fault t
      | .ok (p, s) =>
        if cpFem c.pk = 0 then
          let (bs, s) := s.l2Read cove p n
          .val (bytesWord bs) c s
        else if !s.hasFe p.pa then .fault { cause := cFE_UNSUP, tval := a }
        else
          match kept with
          | some w => .val (fromWord w a n) c s
          | none =>
            let s := s.atHome ag p
            if !s.isFull p.pa then .wait
            else
              let w := bytesWord (s.homeRead (p.pa / 8 * 8) 8)
              .val (fromWord w a n) { c with word := some (a.toNat / 8, w) } (if cpFem c.pk = 2 then s.setEmpty p.pa else s)
    | 4 =>
      match cmdCell s c a n with
      | .error t => .fault t
      | .ok (m, key, _, _, off) =>
        let st := (if m then (s.cell key).mem else (s.cell key).store)
        match granRead st c.gen c.trap off n with
        | .error t => .fault { t with tval := a }
        | .ok bs =>
          if cpFem c.pk = 0 then .val (bytesWord bs) c s
          else
            match kept with
            | some w => .val (fromWord w a n) c s
            | none =>
              if mState (s.cell key) c.gen off ≠ 1 then .wait
              else
                let w := match granRead st c.gen false (off / 8 * 8) 8 with | .ok b => bytesWord b | .error _ => 0#64
                .val (fromWord w a n) { c with word := some (a.toNat / 8, w) } (if cpFem c.pk = 2 then mSet s key off 0 else s)
    | k =>
      let core := 4 * cove + fld a 21 20
      let off := fld a 19 0
      if bufBytes (spaceBuf k) < off + n then .fault { cause := cPERM, tval := a }
      else
        let (m, s) := bufView s core (spaceBuf k) off n
        match granRead m c.gen c.trap off n with
        | .error t => .fault { t with tval := a }
        | .ok bs => .val (bytesWord bs) c s

/-- Index `t` of the list of a gather or scatter. -/
def copyIndex (s : State) (cove : Nat) (c : CopyCmd) (t : Nat) : Except Trap (Word × State) :=
  match s.readAs (c.agent cove) (pkW c.pk 3 + w64 (cpIsz c.pk * t)) (cpIsz c.pk) with
  | .error e => .error e
  | .ok (bs, s) =>
    let k := sext (8 * cpIsz c.pk) (bytesWord bs)
    .ok (if cpIscl c.pk then k * w64 (cpEsz c.pk) else k, s)

/-- The addresses of element `t`: source and destination. -/
def copyAddrs (s : State) (cove : Nat) (c : CopyCmd) (t : Nat) : Except Trap (Word × Word × State) :=
  let at_ (k : Nat) : Word := pkW c.pk k + BitVec.ofInt 64 (shapeOff (cpExts c.pk k) (cpStrs c.pk k) t)
  match cpOp c.pk with
  | 1 =>
    match copyIndex s cove c t with
    | .error e => .error e
    | .ok (k, s) => .ok (pkW c.pk 4 + k, at_ 8, s)
  | 2 =>
    match copyIndex s cove c t with
    | .error e => .error e
    | .ok (k, s) => .ok (at_ 4, pkW c.pk 8 + k, s)
  | _ => .ok (at_ 4, at_ 8, s)

/-- The number of the element at a place in the command's order (R388). -/
def CopyCmd.elem (c : CopyCmd) (pos : Nat) : Nat :=
  let n := max 1 (cpTotal c.pk)
  if c.down then (c.rot + (n - pos % n)) % n else (c.rot + pos) % n

/-- A command reads its source through a window: VA, without FEM (R205). -/
def windowed (c : CopyCmd) : Bool := cpSrc c.pk == 0 && cpFem c.pk == 0

/-- Up to `k` elements from place `pos` on read ahead, as far as they can be read. -/
def copyAhead (s : State) (cove : Nat) (c : CopyCmd) (pos : Nat) : Nat → List Word × State
  | 0 => ([], s)
  | k + 1 =>
    match copyAddrs s cove c (c.elem pos) with
    | .error _ => ([], s)
    | .ok (a, _, s') =>
      match copyRead s' cove c a with
      | .val v _ s =>
        let (r, s) := copyAhead s cove c (pos + 1) k
        (v :: r, s)
      | _ => ([], s)

/-- The element at `a`, the next in order: from the window of 4,096 bytes, which is filled when it is empty. -/
def copyTake (s : State) (cove : Nat) (c : CopyCmd) (a : Word) : Got :=
  if !windowed c then copyRead s cove c a
  else
    match c.win with
    | v :: r => .val v { c with win := r } s
    | [] =>
      match copyRead s cove c a with
      | .val v c s =>
        let (r, s) := copyAhead s cove c (c.pos + 1) (min (4096 / cpEsz c.pk - 1) (cpTotal c.pk - c.pos - 1))
        .val v { c with win := r } s
      | g => g

/-- Element `t` written at its destination. -/
def copyWrite (s : State) (cove : Nat) (c : CopyCmd) (a : Word) (v : Word) (t : Nat) : Moved :=
  let n := cpEsz c.pk
  let bs := natBytes n v.toNat
  match cpDst c.pk with
  | 0 =>
    if a.toNat % n ≠ 0 then .fault { cause := cMISALIGN, tval := a }
    else
      match xlat s (c.agent cove) a .w with
      | .error e => .fault e
      | .ok (p, s) => .done (s.putHome (c.agent cove) p bs)
  | 4 =>
    if a.toNat % n ≠ 0 then .fault { cause := cMISALIGN, tval := a }
    else
      match cmdCell s c a n with
      | .error e => .fault e
      | .ok (true, key, x, y, off) =>
        match mWriteG s (c.rk.getD default) x y key c.gen off bs with
        | .error e => .fault { e with tval := a }
        | .ok s => .done s
      | .ok (false, key, _, _, off) =>
        match granWrite (s.cell key).store c.gen off bs with
        | .error e => .fault { e with tval := a }
        | .ok m => .done (s.modCell key fun v => { v with store := m })
  | 5 => if feedFull s c then .wait else .done (modFeed s c fun q => { q with win := q.win ++ bs })
  | 6 => .done (cmdToken s cove c v (cpFtag c.pk) t)
  | k =>
    let core := 4 * cove + fld a 21 20
    let off := fld a 19 0
    if a.toNat % n ≠ 0 then .fault { cause := cMISALIGN, tval := a }
    else if bufBytes (spaceBuf k) < off + n then .fault { cause := cPERM, tval := a }
    else
      match granWrite ((s.core core).gran (spaceBuf k)) c.gen off bs with
      | .error e => .fault { e with tval := a }
      | .ok m => .done (s.modCore core fun v => v.setBuf (spaceBuf k) m)

/-- Element `t` moved. -/
def moveElem (s : State) (cove : Nat) (c : CopyCmd) (t : Nat) : Moved :=
  if (cpSrc c.pk = 4 ∨ cpDst c.pk = 4 ∨ cpDst c.pk = 6) ∧ !cmdPlaced s c then .wait
  else if cpDst c.pk = 5 ∧ feedFull s c then .wait
  else
    match copyAddrs s cove c t with
    | .error e => .fault e
    | .ok (a, b, s) =>
      match copyTake s cove c a with
      | .wait => .wait
      | .fault e => .fault e
      | .val v c' s =>
        match copyWrite s cove c b v t with
        | .done s => .done (s.modCmd cove c.id fun o => { o with word := c'.word, win := c'.win, pos := o.pos + 1 })
        | .wait => .wait
        | .fault e => .fault e

/-! ## Beats (R384, R200) -/

/-- The elements of the command's next beat of 64 bytes. -/
def beatElems (c : CopyCmd) : List Nat :=
  (List.range (min (64 / cpEsz c.pk) (cpTotal c.pk - c.pos))).map fun k => c.elem (c.pos + k)

/-- The bytes that a beat writes in a poisoned line; none past an element that cannot be read. -/
def beatCover (s : State) (cove : Nat) (c : CopyCmd) : List Nat → AMap Nat
  | [] => []
  | t :: r =>
    match copyAddrs s cove c t with
    | .error _ => []
    | .ok (a, b, s) =>
      match translate s (c.agent cove) b .w, copyTake s cove c a with
      | .ok (p, _), .val _ c s =>
        let m := beatCover s cove { c with pos := c.pos + 1 } r
        if s.isPoison p.pa then AMap.set m (p.pa / 64) (AMap.getD m (p.pa / 64) 0 ||| ((2 ^ cpEsz c.pk - 1) * 2 ^ (p.pa % 64)))
        else m
      | _, _ => []

/-- A beat that covers a whole poisoned line clears its mark. -/
def beatRepair (s : State) (cove : Nat) (c : CopyCmd) : State :=
  if cpDst c.pk ≠ 0 ∨ s.poison.isEmpty then s
  else
    (beatCover s cove c (beatElems c)).foldl (fun s q =>
      if q.2 = 2 ^ 64 - 1 then { s with poison := AMap.del s.poison q.1 } else s) s

/-- A fault pauses a running command (R391). -/
def copyFault (s : State) (cove id : Nat) (t : Trap) : State :=
  match s.cmd? cove id with
  | none => s
  | some c =>
    let s := if t.log then s.audit 0xFF 0 c.vmid (w64 t.cause.toNat) t.tval 0#64 0 else s
    (s.modCmd cove id fun c => { c with st := .paused, status := t.cause, win := [] }).after (cwClk s cove c) (.copyPause cove id)

/-- Elements of one command moved until one waits, faults, or the beat or the command ends; the Bool says
that one at least moved, or that the command left the running ones. -/
def runBeat (cove id : Nat) : Nat → State → Bool × State
  | 0, s => (false, s)
  | k + 1, s =>
    match s.cmd? cove id with
    | none => (false, s)
    | some c =>
      if cpTotal c.pk ≤ c.pos then (true, copyEnd s cove id 0#8)
      else
        match moveElem s cove c (c.elem c.pos) with
        | .wait => (false, s)
        | .fault t => (true, copyFault s cove id t)
        | .done s =>
          match s.cmd? cove id with
          | some c => if cpTotal c.pk ≤ c.pos then (true, copyEnd s cove id 0#8) else (true, (runBeat cove id k s).2)
          | none => (true, s)

/-- Running commands in the order of service: lower PRIO first, and in turn (R384). -/
def beatOrder (v : Cove) : List CopyCmd :=
  let after (c : CopyCmd) : Nat := if v.turn < c.id then 0 else 1
  sortBy (fun a b => decide (4 * (cpPrio a.pk) + 2 * after a < 4 * cpPrio b.pk + 2 * after b)
      || (decide (4 * (cpPrio a.pk) + 2 * after a = 4 * cpPrio b.pk + 2 * after b) && decide (a.id ≤ b.id)))
    (v.cmds.filter fun c => c.st == .running)

/-- One 64-byte beat given to the first stream that can use it. -/
def giveBeat (cove : Nat) : List CopyCmd → State → State
  | [], s => s
  | c :: r, s =>
    let s' := beatRepair s cove c
    match runBeat cove c.id (64 / cpEsz c.pk) s' with
    | (true, t) => t.modCove cove fun v => { v with turn := c.id }
    | (false, _) => giveBeat cove r s

/-- COPY_BEAT: two beats of 64 bytes each clk. -/
def execCopyBeat (cove : Nat) (s : State) : Out :=
  let s := giveBeat cove (beatOrder (s.cove cove)) s
  let s := giveBeat cove (beatOrder (s.cove cove)) s
  .next (if (s.cove cove).cmds.any fun c => c.st == .running then s.onceAfter 1 (.copyBeat cove) else s)

/-! ## Starting and ending -/

/-- The queued command that starts next (R384). -/
def nextCopy (v : Cove) : Option CopyCmd :=
  let dl (c : CopyCmd) : Nat := if pkW c.pk 1 = 0#64 then 2 ^ 64 else (pkW c.pk 1).toNat
  (v.cmds.filter fun c => c.st == .queued).foldl (fun b c =>
    match b with
    | none => some c
    | some o =>
      if cpPrio c.pk < cpPrio o.pk ∨ (cpPrio c.pk = cpPrio o.pk ∧ dl c < dl o) then some c else some o) none

/-- Its destination takes its elements in increasing order. -/
def inOrder (s : State) (c : CopyCmd) : Bool :=
  cpFem c.pk != 0 || cpDst c.pk == 5 ||
  (cpDst c.pk == 6 && match c.rk, c.buoy with
    | some rk, some b => (match AMap.get? (s.region rk).buoys b with | some y => !y.cur.tagged | none => false)
    | _, _ => false)

/-- Commands take free streams (R384, R393). -/
def startCopies (cove : Nat) : Nat → State → State
  | 0, s => s
  | k + 1, s =>
    let v := s.cove cove
    if 16 ≤ (v.cmds.filter fun c => c.st != .queued).length then s
    else
      match nextCopy v with
      | none => s
      | some c =>
        let d := pkW c.pk 1
        if d ≠ 0#64 ∧ d.toNat < s.now then startCopies cove k (copyEnd s cove c.id 0xFF#8)
        else
          let (rot, s) := if inOrder s c then (0, s) else s.pick (cpTotal c.pk)
          let (dn, s) := if inOrder s c then (0, s) else s.pick 2
          let s := s.modCmd cove c.id fun c => { c with st := .running, rot := rot, down := dn == 1 }
          startCopies cove k (s.onceAfter 1 (.copyBeat cove))

def execCopyStart (cove : Nat) (s : State) : Out :=
  .next (if (s.cove cove).fenced then
      -- a fenced engine pauses its commands (R447)
      ((s.cove cove).cmds.filter fun c => c.st == .queued).foldl
        (fun s c => copyFault s cove c.id { cause := cFENCED, tval := w64 cove }) s
    else startCopies cove 32 s)

/-- COPY_COMPLETE: the completion word, and the entry freed (R392). -/
def execCopyComplete (cove id : Nat) (s : State) : Out :=
  match s.cmd? cove id with
  | none => .next s
  | some c =>
    if c.st ≠ .ending then .next s
    else
      let d := pkW c.pk 1
      let late := d != 0#64 && c.status != 0xFF#8 && decide (d.toNat < s.now)
      let s := writeCw s cove c (cwWord c false late)
      let s := s.modCove cove fun v => { v with cmds := v.cmds.filter fun c => c.id != id }
      .next (s.onceAfter 1 (.copyStart cove))

/-- COPY_PAUSE: the pause of a command that has not been resumed is reported (R391). -/
def execCopyPause (cove id : Nat) (s : State) : Out :=
  match s.cmd? cove id with
  | none => .next s
  | some c =>
    if c.st ≠ .paused then .next s
    else .next (modFeed (writeCw s cove c (cwWord c true false)) c fun q => { q with flt := true, cause := c.status })

/-! ## cp.post, cp.bind, post -/

/-- `cp.post`, with a control packet `cp.resume` or `cp.cancel` (R399). -/
def copyStep (i : Instr) (vs : VReg) (rs1 : XReg) (s : State) : Except Trap State := do
  let w ← s.xr rs1
  let v ← s.vr vs
  let pk := (List.range 16).map fun k => w64 (v.toNat / 2 ^ (64 * k))
  if fld w 63 8 ≠ 0 then illegal i
  let buoy ← if w = 0#64 then (.ok none) else (needBuoy i s w false).map some
  checkPacket { ill := { cause := cILLEGAL, tval := wordOf i }, buoy := buoy, node := false } pk
  let n := fld (pkW pk 8) 2 0
  if cpOp pk ≠ 3 ∧ cpDst pk = 5 then
    let e := AMap.getD s.me.q n {}
    let _ ← stampWrite e.gen () (qrTval 0 n)
    need (!(e.bnd && e.gen == s.me.gen)) cQUEUE (w64 n)
  let ag := { s.agent with core := none }
  let s ← checkCw s ag pk
  let cove := coveOfSlot s.cur
  let c : CopyCmd :=
    { id := 0, pk := pk, vmid := s.vmid, troot := s.me.troot, sup := s.me.sup, gen := s.me.gen, trap := s.me.trapMode
      slot := some s.cur, rk := buoy.map (·.1), buoy := buoy.map (·.2.1) }
  -- every post is a device-scope release (R246)
  if cpOp pk = 3 then return (applyControl (s.releaseAt (coreOf s.cur) .dv) cove c).retire
  else if !copyRoom s cove then return s.holdOn .cpFull i 0#64
  else return (enqueueCopy (s.releaseAt (coreOf s.cur) .dv) cove c).retire

def execCpPost (vs : VReg) (rs1 : XReg) (s : State) : Out := s.commit (copyStep (.cpPost vs rs1) vs rs1 s)

/-- `cp.resume`: `cp.post` of a control packet with ACTION 01 (R391). -/
def execCpResume (vs : VReg) (rs1 : XReg) (s : State) : Out := s.commit (copyStep (.cpResume vs rs1) vs rs1 s)

/-- `cp.cancel`: `cp.post` of a control packet with ACTION 10 (R391). -/
def execCpCancel (vs : VReg) (rs1 : XReg) (s : State) : Out := s.commit (copyStep (.cpCancel vs rs1) vs rs1 s)

/-- A command posted through a buoy stands in some queue. -/
def buoyBusy (s : State) (rk : RKey) (b : Nat) : Bool :=
  s.coves.any fun v => v.2.cmds.any fun c => c.rk == some rk && c.buoy == some b && c.st != .ending

/-- A buoy's current binding changed; a memory binding starts its stream anew (R397). -/
def bindBuoy (s : State) (rk : RKey) (b : Nat) (y : Buoy) (n : Binding) : State :=
  s.modRegion rk fun r =>
    { r with buoys := AMap.set r.buoys b { y with cur := n, pos := if n.bind = 0#2 then 0 else y.pos } }

def execCpBind (rs1 rs2 : XReg) (s : State) : Out :=
  s.commit do
    let i : Instr := .cpBind rs1 rs2
    let w ← s.xr rs1
    let v ← s.xr rs2
    if fld w 63 8 ≠ 0 then illegal i
    if !bitAt w 3 || fld w 7 4 ≠ 0 then illegal i
    let sva := v &&& ~~~0xFF#64
    if fld v 7 5 ≠ 0 ∨ (fld v 2 1 ≠ 0 ∧ sva ≠ 0#64) ∨ !canonical sva then illegal i
    let (rk, b, y) ← needBuoy i s w false
    need (!(bitAt v 0 && fld v 2 1 == 3 && y.img.bind != 3#2)) cPERM w
    if buoyBusy s rk b then return s.holdOn .cpFull i 0#64
    else
      let n : Binding :=
        if bitAt v 0 then { inward := !bitAt v 3, tagged := bitAt v 4, bind := v.extractLsb' 1 2, sva := sva } else y.img
      return (bindBuoy s rk b y n).retire

def execPost (rs1 rs2 : XReg) (s : State) : Out :=
  s.commit do
    let i : Instr := .post rs1 rs2
    let w ← s.xr rs1
    let v ← s.xr rs2
    if fld w 15 11 ≠ 0 then illegal i
    let (rk, b, y) ← needBuoy i s w true
    need (y.cur.inward && y.cur.bind != 3#2) cPERM w
    let t : Token :=
      { payload := v, ftag := Fmt.ofCode (w.extractLsb' 8 3)
        ctx := { frame := w.extractLsb' 32 24, fgen := w.extractLsb' 56 8 }
        iter := w.extractLsb' 16 16, dx := 0#6, dy := 0#6, dslot := 0#3, didx := 0#7, dop := 0#2, act := .normal }
    return (sendBuoy s (coveOfSlot s.cur) rk b t).retire

/-! ## Stream registers (R219-R223) -/

/-- A register's window gives its first `n` bytes, `k` elements; the engine goes on. -/
def takeQ (s : State) (q : QReg) (e : QR) (n k : Nat) : Except Trap State := do
  let s ← s.setQ q { e with win := e.win.drop n, left := e.left - k }
  return if n = 0 then s else s.onceAfter 1 (.copyBeat (coveOfSlot s.cur))

/-- What `q.get` and `vq.get` share: the bytes needed are returned with the state without them, or the slot
waits. -/
def qTake (i : Instr) (q : QReg) (s : State) (need_ : Nat → Nat → Nat) : Except Trap (Option (List Byte × State) × State) := do
  let e ← s.qr q
  need e.bnd cQUEUE (w64 q.toNat)
  let k := 2 ^ e.esz.toNat
  let n := need_ k e.left
  if n = 0 then return (some ([], s), s)
  else if e.win.length < n then
    need (!e.flt && e.cause == 0#8) cQUEUE (w64 q.toNat)
    return (none, s.holdOn .stream i (w64 q.toNat))
  else
    let t ← takeQ s q e n (n / k)
    return (some (e.win.take n, t), s)

def execQGet (q : QReg) (rd : XReg) (s : State) : Out :=
  s.commit do
    let (r, t) ← qTake (.qGet q rd) q s fun k l => min k (l * k)
    match r with
    | none => return t
    | some (bs, t) =>
      let t ← t.setX rd (bytesWord bs)
      return t.retire

def execVqGet (q : QReg) (vd : VReg) (s : State) : Out :=
  s.commit do
    let (r, t) ← qTake (.vqGet q vd) q s fun k l => min 128 (l * k)
    match r with
    | none => return t
    | some (bs, t) =>
      let t ← t.setV vd (BitVec.ofNat 1024 (bytesNat bs))
      return t.retire

/-- The status word of a stream register (R220). -/
def qWord (e : QR) : Word :=
  w64 (e.cause.toNat * 2 ^ 56 + b2n e.bnd * 2 ^ 55 + b2n e.done * 2 ^ 54 + b2n e.flt * 2 ^ 53 + e.esz.toNat * 2 ^ 51
    + min e.left 0xFFFFFFFF * 2 ^ 16 + min e.win.length 512)

def execQStat (q : QReg) (rd : XReg) (s : State) : Out :=
  s.commit do
    let e ← s.qr q
    let s ← s.setX rd (qWord e)
    return s.retire

/-- A stream register of a slot unbound, its feed cancelled. -/
def closeQ (s : State) (slot n : Nat) : State :=
  let e := AMap.getD (s.slot slot).q n {}
  if !e.bnd then s
  else
    let s := cancelCmd s (coveOfSlot slot) e.cmd
    s.modSlot slot fun v => { v with q := AMap.set v.q n { gen := e.gen } }

/-- Every stream register that a slot's allocation has bound is closed (R223). -/
def closeAllQ (s : State) (slot : Nat) : State := (List.range 8).foldl (fun s n => closeQ s slot n) s

/-- `q.close` (R222): nothing for an unbound or stale register. -/
def execQClose (q : QReg) (s : State) : Out :=
  let e := AMap.getD s.me.q q.toNat {}
  .next ((if e.gen = s.me.gen then closeQ s s.cur q.toNat else s).retire)

end Sys2Proof.Machine
end

