-- ==== Sys2Proof/Machine/Replay.lean ====
section
/-! DEFINITION. The step replay engines of the quadrants (R400-R408, R411). -/

namespace Sys2Proof.Machine

/-! ## Descriptors (R401) -/

/-- A replay descriptor's fields. -/
structure RDesc where
  iva    : Word
  icnt   : Nat
  ova    : Word
  osize  : Nat
  thr    : Nat
  runmax : Nat
  metric : Nat
  fmt    : Fmt
  deriving DecidableEq, Repr

/-- Bytes of an input element. -/
def RDesc.esz (d : RDesc) : Nat := Fmt.width d.fmt / 8
def RDesc.inBytes (d : RDesc) : Nat := d.icnt * d.esz

/-- The fields of a descriptor's words. -/
def rdescOf (ws : List Word) : RDesc :=
  let w (k : Nat) : Word := ws.getD k 0#64
  { iva := w 0, icnt := fld (w 1) 24 0, ova := w 2, osize := (w 3).toNat, thr := fld (w 4) 63 32
    runmax := fld (w 4) 23 16, metric := fld (w 4) 7 4, fmt := Fmt.ofCode ((w 4).extractLsb' 0 3) }

/-- A reserved value or field, or a broken limit. -/
def rdescBad (ws : List Word) : Bool :=
  let w (k : Nat) : Word := ws.getD k 0#64
  let d := rdescOf ws
  fld (w 1) 63 25 != 0 || d.icnt == 0 || 2 ^ 24 < d.icnt || d.osize % 64 != 0 || d.osize < 64 || 2 ^ 28 < d.osize
    || fld (w 4) 31 24 != 0 || fld (w 4) 15 8 != 0 || bitAt (w 4) 3 || 1 < d.metric
    || fld (w 4) 2 0 == 0 || 5 < fld (w 4) 2 0 || w 5 != 0#64

/-- A descriptor read and checked (R401, R408). -/
def readRDesc (s : State) (ag : Agent) (ill : Trap) (va : Word) : Except Trap (RDesc × State) := do
  need (fld va 2 0 == 0) cMISALIGN va
  let (ws, s) ← homeWords s ag va 6
  if rdescBad ws then .error ill
  let d := rdescOf ws
  need (d.iva.toNat % d.esz == 0) cMISALIGN d.iva
  need (fld d.ova 5 0 == 0) cMISALIGN d.ova
  return (d, s)

/-! ## Ranges of memory -/

/-- `n` bytes read line by line at their homes. -/
def rangeRead (ag : Agent) : Nat → State → Word → Nat → Except Trap (List Byte × State)
  | 0, s, _, _ => .ok ([], s)
  | fuel + 1, s, va, n =>
    if n = 0 then .ok ([], s)
    else
      let k := min n (64 - va.toNat % 64)
      match xlat s ag va .r with
      | .error t => .error t
      | .ok (p, s) =>
        let s := s.atHome ag p
        match rangeRead ag fuel s (va + w64 k) (n - k) with
        | .error t => .error t
        | .ok (bs, s) => .ok (s.homeRead p.pa k ++ bs, s)

/-- The pages of an output range are writable and carry full/empty bits (R401, R408). -/
def rangeWritable (ag : Agent) : Nat → State → Word → Nat → Except Trap State
  | 0, s, _, _ => .ok s
  | fuel + 1, s, va, n =>
    if n = 0 then .ok s
    else
      let k := min n (65536 - va.toNat % 65536)
      match translate s ag va .w with
      | .error t => .error t
      | .ok (p, s) =>
        if s.hasFe p.pa then rangeWritable ag fuel s (va + w64 k) (n - k)
        else .error { cause := cFE_UNSUP, tval := va }

/-- The words of `n` lines set empty at their homes; false where a line cannot be reached (R404). -/
def rangeEmpty (ag : Agent) : Nat → State → Word → Bool × State
  | 0, s, _ => (true, s)
  | n + 1, s, va =>
    match xlat s ag va .w with
    | .error _ => (false, s)
    | .ok (p, s) =>
      let s := s.atHome ag p
      rangeEmpty ag n ((List.range 8).foldl (fun s j => s.setEmpty (p.pa + 8 * j)) s) (va + 64#64)

/-- Lines written at their homes; false where one cannot be reached. -/
def rangeWrite (ag : Agent) : Nat → State → Word → List Byte → Bool × State
  | 0, s, _, _ => (true, s)
  | n + 1, s, va, bs =>
    match xlat s ag va .w with
    | .error _ => (false, s)
    | .ok (p, s) => rangeWrite ag n (s.putHome ag p (bs.take 64)) (va + 64#64) (bs.drop 64)

/-! ## The metric (R403) -/

/-- The FP32 magnitude of a value. -/
def magBits (n : Nat) : Nat := n % 2 ^ 31

/-- A sum of FP32 values rounded to nearest, flags discarded. -/
def addF (a b : Nat) : Nat := (fpAdd .fp32 .rne {} (Fmt.value .fp32 a) (Fmt.value .fp32 b)).1

/-- A list cut into groups of `k`. -/
def groups {α : Type} (k : Nat) : Nat → List α → List (List α)
  | 0, _ => []
  | n + 1, l => if l.isEmpty then [] else l.take k :: groups k n (l.drop k)

/-- The pairwise tree over the groups, absent past the last. -/
def treeSum (l : List Nat) : Nat :=
  let lev := Nat.log2 (2 * l.length - 1)
  ((reduceTree (fun _ a b => (addF a b, 0#5)) lev
    (l.map some ++ List.replicate (2 ^ lev - l.length) none)).1).getD 0

/-- The sum of a group from +0, at exact magnitudes. -/
def groupSum (vs : List FV) : Nat := vs.foldl (fun a v => (fpAdd .fp32 .rne {} (Fmt.value .fp32 a) v).1) 0

/-- The magnitude of a value. -/
def FV.mag (v : FV) : FV := if v.isNeg then v.negate else v

/-- Metric(d, p). -/
def replayMetric (metric : Nat) (fmt : Fmt) (xs ps : List Nat) : Nat :=
  let nan := 0x7FC00000
  let vx := xs.map (Fmt.value fmt)
  let vp := ps.map (Fmt.value fmt)
  let es := (vx.zip vp).map fun q => (fpSub .fp32 .rne {} q.1 q.2).1
  if vx.any FV.isNan || vp.any FV.isNan || es.any (fun e => (Fmt.value .fp32 e).isNan) then nan
  else if metric = 1 then es.foldl (fun m e => max m (magBits e)) 0
  else
    let g := es.length / 64 + 1
    let a := (groups 64 g es).map fun l => groupSum (l.map fun e => Fmt.value .fp32 (magBits e))
    let b := (groups 64 g vp).map fun l => groupSum (l.map FV.mag)
    let num := treeSum a
    let den := treeSum b
    if den = 0 then (if num = 0 then 0 else 0x7F800000)
    else (fpDiv .fp32 .rne {} (Fmt.value .fp32 num) (Fmt.value .fp32 den)).1

/-- Elements of `e` bytes of a list of bytes. -/
def elemsOf (e n : Nat) (bs : List Byte) : List Nat := (groups e n bs).map bytesNat

/-! ## Keys (R400) -/

def keyNo (vmid key : Nat) : Nat := 4096 * vmid + key % 4096

def State.rkey (s : State) (quad vmid key : Nat) : ReplayKey := AMap.getD (s.quad quad).keys (keyNo vmid key) {}

def State.setRkey (s : State) (quad vmid key : Nat) (e : ReplayKey) : State :=
  s.modQuad quad fun q => { q with keys := AMap.set q.keys (keyNo vmid key) e }

/-- One more on a counter of a replay engine (R407). -/
def State.countSrp (s : State) (quad vmid code : Nat) : State :=
  s.modQuad quad fun q => { q with ctr := AMap.set q.ctr (8 * vmid + code) (AMap.getD q.ctr (8 * vmid + code) 0#64 + 1#64) }

/-- The storage of an entry. -/
def entrySize (e : ReplayKey) : Nat :=
  if e.valid then (e.icnt * (Fmt.width e.fmt / 8) + 63) / 64 * 64 + e.osize else 0

/-- The storage of a tenant's entries in all engines. -/
def areaUsed (s : State) (vmid : Nat) : Nat :=
  s.quads.foldl (fun n q => (q.2.keys.filter fun k => k.1 / 4096 == vmid).foldl (fun n k => n + entrySize k.2) n) 0

/-- A copy of the key is in progress: later requests to it wait. -/
def keyBusy (s : State) (quad vmid key : Nat) : Bool :=
  (s.quad quad).copies.any fun c => c.vmid == vmid && c.key == key

/-- REPLAY: no area, or a fenced engine (R408). -/
def areaOk (s : State) (quad vmid key : Nat) : Except Trap Unit :=
  let a := (s.tenant vmid).args
  need (a.repl != 0#64 && a.replsz != 0#64 && !(s.quad quad).rfenced) cREPLAY (w64 key)

/-- Least recently probed other keys evicted until an entry fits (R400). -/
def evictKeys (quad vmid key size : Nat) : Nat → State → State
  | 0, s => s
  | n + 1, s =>
    let cap := (s.tenant vmid).args.replsz.toNat
    if areaUsed s vmid + size ≤ cap ∨ cap < size then s
    else
      let cand := (s.quad quad).keys.filter fun k =>
        k.1 / 4096 == vmid && k.1 % 4096 != key % 4096 && k.2.valid && !keyBusy s quad vmid (k.1 % 4096)
      match cand.foldl (fun b k => match b with | none => some k | some o => if k.2.age < o.2.age then some k else b)
          (none : Option (Nat × ReplayKey)) with
      | none => s
      | some k =>
        evictKeys quad vmid key size n ((s.setRkey quad vmid (k.1 % 4096) { age := k.2.age }).countSrp quad vmid 5)

/-- TakeReference: false where no storage can be had (R402). -/
def takeRef (s : State) (quad vmid key : Nat) (d : RDesc) (x : List Byte) (n age : Nat) : Bool × State :=
  let new : ReplayKey :=
    { valid := true, icnt := d.icnt, fmt := d.fmt, metric := d.metric, osize := d.osize, lstep := n, run := 0, pend := true
      refb := x, outb := [], age := age }
  let s := s.setRkey quad vmid key { age := age }
  let s := evictKeys quad vmid key (entrySize new) 4096 s
  if areaUsed s vmid + entrySize new ≤ (s.tenant vmid).args.replsz.toNat then (true, s.setRkey quad vmid key new)
  else (false, s)

/-- Shape(d) is that of the entry. -/
def sameShape (e : ReplayKey) (d : RDesc) : Bool :=
  e.icnt == d.icnt && e.fmt == d.fmt && e.metric == d.metric && e.osize == d.osize

/-- The verdict word (R402). -/
def verdictWord (v frc dist : Nat) : Word := w64 (dist * 2 ^ 32 + frc * 2 ^ 4 + v)

/-- StartReplayCopy (R404): OVA emptied, the copy under way; a fault makes the entry invalid. -/
def startReplay (s : State) (ag : Agent) (quad key : Nat) (d : RDesc) (e : ReplayKey) : State :=
  match rangeEmpty ag (d.osize / 64) s d.ova with
  | (false, s) => s.setRkey quad ag.vmid key { e with valid := false, pend := false }
  | (true, s) =>
    let c : ReplayCopy := { vmid := ag.vmid, key := key, record := false, ova := d.ova, troot := ag.troot, data := e.outb }
    (s.modQuad quad fun q => { q with copies := q.copies ++ [c] }).after (d.osize / 128 + 1)
      (.replayCopyComplete quad ag.vmid key)

/-- A probe (R402): its verdict, and the clk until it returns. -/
def probeKey (s : State) (ag : Agent) (quad : Nat) (ill : Trap) (key step : Nat) (va : Word) :
    Except Trap (Word × Nat × State) := do
  let (d, s) ← readRDesc s ag ill va
  let s ← rangeWritable ag (d.osize / 65536 + 2) s d.ova d.osize
  let (x, s) ← rangeRead ag (d.inBytes / 64 + 2) s d.iva d.inBytes
  let vmid := ag.vmid
  let s := s.countSrp quad vmid 0
  let e := s.rkey quad vmid key
  let age := 1 + (s.quad quad).keys.foldl (fun n k => max n k.2.age) 0
  let e := { e with age := age }
  let same := e.valid && sameShape e d
  let clks := Config.nearClk + (if same then 2 * d.inBytes else d.inBytes) / 128
  let reason := if !same then 4 else if step ≤ e.lstep then 1 else if e.pend then 3 else if d.runmax ≤ e.run then 2 else 0
  let (v, s) : Word × State :=
    if reason ≠ 0 then
      let (ok, s) := takeRef s quad vmid key d x step age
      (verdictWord 2 (if ok then reason else 5) 0, s.countSrp quad vmid 3)
    else
      let m := replayMetric d.metric d.fmt (elemsOf d.esz d.icnt x) (elemsOf d.esz d.icnt e.refb)
      if (compare .fp32 32 .le m d.thr).1 then
        let e := { e with run := e.run + 1, lstep := step }
        (verdictWord 1 0 m, startReplay ((s.setRkey quad vmid key e).countSrp quad vmid 1) ag quad key d e)
      else
        let (ok, s) := takeRef s quad vmid key d x step age
        if ok then (verdictWord 0 0 m, s.countSrp quad vmid 2)
        else (verdictWord 2 5 0, s.countSrp quad vmid 3)
  -- a firing that repeats an older probe of the key is a new one (R411)
  let s := { s with regions := AMap.mapV s.regions fun k r =>
    if k / 256 = vmid ∧ handleQuad r.handle = quad then { r with memos := r.memos.filter fun m => m.key != key } else r }
  return (v, clks, s.trace vmid 3 quad 0 (w64 key) v)

/-- A record (R405): nothing unless a compute of the same shape awaits it. -/
def recordKey (s : State) (ag : Agent) (quad key : Nat) (d : RDesc) : State :=
  let e := s.rkey quad ag.vmid key
  if !(e.valid && e.pend && sameShape e d) then s
  else
    match rangeRead ag (d.osize / 64 + 1) s d.ova d.osize with
    | .error _ => s
    | .ok (bs, s) =>
      let c : ReplayCopy := { vmid := ag.vmid, key := key, record := true, ova := d.ova, troot := ag.troot, data := bs }
      ((s.modQuad quad fun q => { q with copies := q.copies ++ [c] }).countSrp quad ag.vmid 4).after
        (Config.nearClk + d.osize / 128) (.recordCopyComplete quad ag.vmid key)

/-! ## L-set instructions (R398, R405-R408) -/

/-- A key operand (R408). -/
def keyOf (i : Instr) (w : Word) : Except Trap Nat := if fld w 63 12 ≠ 0 then illegal i else .ok w.toNat

def execSrpProbe (rd rs1 rs2 : XReg) (s : State) : Out :=
  s.commit do
    let i : Instr := .srpProbe rd rs1 rs2
    let n ← s.xr rd
    let k ← s.xr rs1
    let va ← s.xr rs2
    let key ← keyOf i k
    if fld n 63 32 ≠ 0 then illegal i
    let quad := quadOfSlot s.cur
    areaOk s quad s.vmid key
    if keyBusy s quad s.vmid key then return s.holdOn .srp i k
    else
      let (v, clks, s) ← probeKey (s.releaseAt (coreOf s.cur) .dv) s.agent quad { cause := cILLEGAL, tval := wordOf i } key n.toNat va
      let s ← s.setX rd v
      return s.retireFor .srp clks (.srpVerdict s.cur)

/-- SRP_VERDICT: the verdict is in its register, and the slot goes on. -/
def execSrpVerdict (slot : Nat) (s : State) : Out :=
  .next (match (s.slot slot).wait with
    | .done .srp => s.modSlot slot fun v => { v with wait := .run }
    | _ => s)

def execSrpRec (rs1 rs2 : XReg) (s : State) : Out :=
  s.commit do
    let i : Instr := .srpRec rs1 rs2
    let k ← s.xr rs1
    let va ← s.xr rs2
    let key ← keyOf i k
    let quad := quadOfSlot s.cur
    areaOk s quad s.vmid key
    if keyBusy s quad s.vmid key then return s.holdOn .srp i k
    else
      let (d, s) ← readRDesc s s.agent { cause := cILLEGAL, tval := wordOf i } va
      let s := recordKey (s.releaseAt (coreOf s.cur) .dv) s.agent quad key d
      return (s.stallFor Config.nearClk).retire

/-- An entry made invalid, its storage freed. -/
def dropKey (s : State) (quad vmid key : Nat) : State :=
  s.setRkey quad vmid key { age := (s.rkey quad vmid key).age }

def execSrpInv (rs1 : XReg) (s : State) : Out :=
  s.commit do
    let k ← s.xr rs1
    let key ← keyOf (.srpInv rs1) k
    let quad := quadOfSlot s.cur
    if keyBusy s quad s.vmid key then return s.holdOn .srp (.srpInv rs1) k
    else return (dropKey s quad s.vmid key).retire

def execSrpInvAll (s : State) : Out :=
  let quad := quadOfSlot s.cur
  .next (if (s.quad quad).copies.any fun c => c.vmid == s.vmid then s.holdOn .srp .srpInvAll 0#64
    else
      (((s.quad quad).keys.filter fun k => k.1 / 4096 == s.vmid).foldl
        (fun s k => dropKey s quad (k.1 / 4096) (k.1 % 4096)) s).retire)

def SrpCtr.code : SrpCtr → Nat
  | .probe => 0 | .replay => 1 | .compute => 2 | .forced => 3 | .record => 4 | .evict => 5

def execSrpStat (c : SrpCtr) (rd : XReg) (s : State) : Out :=
  s.commit do
    let s ← s.setX rd (AMap.getD (s.quad (quadOfSlot s.cur)).ctr (8 * s.vmid + SrpCtr.code c) 0#64)
    return s.retire

/-! ## The ends of copies -/

/-- REPLAY_COPY_COMPLETE: the output written, each word set full; a fault leaves the rest and makes the entry
invalid (R404). -/
def execReplayCopyComplete (quad vmid key : Nat) (s : State) : Out :=
  match (s.quad quad).copies.find? fun c => c.vmid == vmid && c.key == key && !c.record with
  | none => .next s
  | some c =>
    let ag : Agent := { vmid := vmid, troot := c.troot, sup := true, core := none, cove := 64 * quad }
    let (ok, s) := rangeWrite ag (c.data.length / 64) s c.ova c.data
    let s := s.modQuad quad fun q => { q with copies := q.copies.erase c }
    .next (if ok then s else s.setRkey quad vmid key { s.rkey quad vmid key with valid := false, pend := false })

/-- RECORD_COPY_COMPLETE (R405). -/
def execRecordCopyComplete (quad vmid key : Nat) (s : State) : Out :=
  match (s.quad quad).copies.find? fun c => c.vmid == vmid && c.key == key && c.record with
  | none => .next s
  | some c =>
    let s := s.modQuad quad fun q => { q with copies := q.copies.erase c }
    .next (s.setRkey quad vmid key { s.rkey quad vmid key with outb := c.data, pend := false })

end Sys2Proof.Machine
end

