-- ==== Sys2Proof/Machine/NodesEng.lean ====
section
/-! DEFINITION. The engine nodes as they fire (R409-R411, R519): `post`, `gat`, `sct`, `cpy`, `tadv`, `probe`, `rec`;
what they leave to the commit is performed in Commit. -/

namespace Sys2Proof.Machine

/-! ## Buoy cells -/

/-- The buoy of a firing's cell; PERM where its current binding does not fit the node (R519). -/
def needBinding (s : State) (f : Firing) (p : Binding → Bool) : Except (Option Trap) (Nat × Buoy) :=
  let rg := s.region f.rk
  match rg.buoyAt f.x f.y with
  | some (b, y) => if p y.cur then .ok (b, y) else nodeFail cPERM (w64 f.idx)
  | none => nodeFail cPERM (w64 f.idx)

/-- A copy binding. -/
def copyBound (c : Binding) : Bool := c.bind == 1#2

/-- Posts of a buoy that wait for their commit. -/
def postsPending (s : State) (rk : RKey) (b : Nat) : Nat :=
  let rg := s.region rk
  rg.insts.foldl (fun n i => n + (i.pend.filter fun p =>
    !p.done && p.data == [w64 b] && (match p.node with | .gPost _ => true | _ => false)).length) 0

/-- `post` (R410): where its word will go is checked when it fires. -/
def execGPost (n : GNode) (s : State) : Out :=
  runNode (.gPost n) s fun f s => do
    let (b, y) ← needBinding s f fun c => !c.inward && c.bind == 0#2
    let (_, s) ← liftT (xlat s (s.fireAgent f) (y.cur.sva + w64 (8 * (y.pos + postsPending s f.rk b))) .w)
    return s.pendOn f (.gPost n) 0#64 [w64 b]

/-! ## Copies -/

/-- The checks of a node's packet. -/
def nodeCk (f : Firing) (b : Nat) (y : Buoy) : CopyCk :=
  { ill := { cause := cILLEGAL, tval := w64 f.idx }, buoy := some (f.rk, b, y), node := true }

/-- A descriptor of `gat` or `sct` with a reserved bit set. -/
def gatBad (ws : List Word) (gat : Bool) : Bool :=
  let c := ws.getD 3 0#64
  fld c 63 48 != 0 || fld c 31 6 != 0 || fld c 1 0 != 0 || (gat && ws.getD 2 0#64 != 0#64)

/-- CTL of a command for a descriptor: its operation, destination space and tag. -/
def gatCtl (c : Word) (op dst : Nat) (ft : Fmt) : Word :=
  w64 (op * 2 ^ 16 + fld c 2 2 * 2 ^ 14 + fld c 3 3 * 2 ^ 13 + fld c 5 4 * 2 ^ 11 + dst * 2 ^ 8 + ft.code.toNat * 2 ^ 2)

/-- The gather of a `gat`: its destination is the fabric. -/
def gatPacket (ft : Fmt) (ws : List Word) : List Word :=
  let c := ws.getD 3 0#64
  [gatCtl c 1 6 ft, 0, 0, ws.getD 1 0, ws.getD 0 0, 0, 0, 0, 0, w64 (fld c 47 32), 0, 0, 0, 0, 0, 0]

/-- The scatter of an `sct`: its source is the consecutive elements at DATA. -/
def sctPacket (ws : List Word) : List Word :=
  let c := ws.getD 3 0#64
  [gatCtl c 2 0 .int, 0, 0, ws.getD 1 0, ws.getD 2 0, w64 (fld c 47 32), w64 (2 ^ fld c 5 4), 0, ws.getD 0 0,
    0, 0, 0, 0, 0, 0, 0]

/-- The descriptor of a `gat` or `sct`, read and checked. -/
def readGat (s : State) (f : Firing) (gat : Bool) : Except (Option Trap) (List Word × State) := do
  nodeNeed (fld f.lpay 2 0 == 0) cMISALIGN f.lpay
  let (ws, s) ← liftT (argWords s f f.lpay 4)
  nodeNeed (!gatBad ws gat) cILLEGAL (w64 f.idx)
  return (ws, s)

def execGGat (n : GNode) (s : State) : Out :=
  runNode (.gGat n) s fun f s => do
    let (b, y) ← needBinding s f copyBound
    let (ws, s) ← readGat s f true
    let pk := gatPacket n.fmt ws
    liftT (checkPacket (nodeCk f b y) pk)
    return s.pendOn f (.gGat n) 0#64 pk

def execGSct (n : GNode) (s : State) : Out :=
  runNode (.gSct n) s fun f s => do
    let (b, y) ← needBinding s f copyBound
    let (ws, s) ← readGat s f false
    let pk := sctPacket ws
    liftT (checkPacket (nodeCk f b y) pk)
    return (s.pendOn f (.gSct n) 0#64 pk).sendCount f false

/-- `cpy`: its packet, with its own context and the next ITER in place of CCTX. -/
def execGCpy (n : GNode) (s : State) : Out :=
  runNode (.gCpy n) s fun f s => do
    let (b, y) ← needBinding s f copyBound
    nodeNeed (fld f.lpay 5 0 == 0) cMISALIGN f.lpay
    let (ws, s) ← liftT (argWords s f f.lpay 16)
    let pk := ws.set 12 (packCtx f.ik.ctx (f.ik.iter + 1#16))
    liftT (checkPacket (nodeCk f b y) pk)
    let s ← liftT (checkCw s (s.fireAgent f) pk)
    return s.pendOn f (.gCpy n) 0#64 pk

/-! ## Tides and replay -/

/-- `tadv`: the checks of `tide.adv` when it fires. -/
def execGTadv (n : GNode) (s : State) : Out :=
  runNode (.gTadv n) s fun f s => do
    let (p, s) ← liftT (translate s (s.fireAgent f) f.lpay .w)
    let (v, e, _) ← liftT (tideRegion s p f.lpay)
    return s.pendOn f (.gTadv n) f.lpay [w64 v, w64 e]

/-- The key and the step of a `probe` or `rec` (R411). -/
def probeArg (f : Firing) : Except (Option Trap) (Nat × Nat) :=
  let r := f.rpay
  if fld r 63 48 ≠ 0 ∨ fld r 15 12 ≠ 0 then nodeFail cILLEGAL (w64 f.idx) else .ok (fld r 11 0, fld r 47 16)

/-- A firing that repeats the probe that last made its key's entry. -/
def memoOf (s : State) (f : Firing) (key step : Nat) : Option Memo :=
  let rg := s.region f.rk
  rg.memos.find? fun m => m.key == key && m.step == step && m.ik.ctx == f.ik.ctx && m.ik.iter == f.ik.iter

/-- `probe`: performed when it fires. -/
def execGProbe (n : GNode) (s : State) : Out :=
  runNode (.gProbe n) s fun f s => do
    let (key, step) ← probeArg f
    let rg := s.region f.rk
    let quad := handleQuad rg.handle
    liftT (areaOk s quad f.rk.vmid key)
    match memoOf s f key step with
    | some m => return s.sendOut f n Config.nearClk [m.verdict] .int
    | none =>
      notYet (!keyBusy s quad f.rk.vmid key)
      let (v, clks, s) ← liftT (probeKey (gRelease s f.rk .dv) (s.fireAgent f) quad
        { cause := cILLEGAL, tval := w64 f.idx } key step f.lpay)
      let m : Memo := { key := key, step := step, ik := f.ik, verdict := v }
      return (s.modRegion f.rk fun r => { r with memos := r.memos ++ [m] }).sendOut f n clks [v] .int

/-- `rec`: its descriptor is read and checked when it fires. -/
def execGRec (n : GNode) (s : State) : Out :=
  runNode (.gRec n) s fun f s => do
    let (key, _) ← probeArg f
    let rg := s.region f.rk
    liftT (areaOk s (handleQuad rg.handle) f.rk.vmid key)
    let (_, s) ← liftT (readRDesc s (s.fireAgent f) { cause := cILLEGAL, tval := w64 f.idx } f.lpay)
    let (ws, s) ← liftT (homeWords s (s.fireAgent f) f.lpay 6)
    return s.pendOn f (.gRec n) f.lpay (w64 key :: ws)

end Sys2Proof.Machine
end

