-- ==== Sys2Proof/Machine/Streams.lean ====
section
/-! DEFINITION. The stream nodes (R365-R383) and the events of loops and control tokens (R360, R362, R380). -/

namespace Sys2Proof.Machine

/-! ## The loop of a firing -/

def modLoopOf (s : State) (f : Firing) (g : Loop → Loop) : State :=
  s.modCell (s.cellOf f.rk f.x f.y) fun c => c.modLoop f.ik f.slot g

def loopOf (s : State) (f : Firing) : Loop :=
  ((s.cell (s.cellOf f.rk f.x f.y)).loop? f.ik f.slot).getD { ik := f.ik, slot := f.slot }

/-- The kind of a firing's cell. -/
def kindOf (s : State) (f : Firing) : Nat :=
  let k := s.cellOf f.rk f.x f.y
  cellKind (k % 128) (k / 128)

/-! ## Generators (R365-R367) -/

/-- A descriptor from its words. -/
def genOf (ws : List Word) : GenDesc :=
  { base := ws.getD 0 0#64, ext := ws.getD 1 0#64, str0 := ws.getD 2 0#64, str2 := ws.getD 3 0#64 }

def GenDesc.exts (d : GenDesc) : List Nat := (List.range 4).map fun j => fld d.ext (16 * j + 15) (16 * j) + 1
def GenDesc.strs (d : GenDesc) : List Int :=
  [(sext 32 d.str0).toInt, (sext 32 (d.str0 >>> 32)).toInt, (sext 32 d.str2).toInt, (sext 32 (d.str2 >>> 32)).toInt]

/-- The address of the element with number `t` of the sequence, which wraps after the last tuple (R366). -/
def GenDesc.addr (d : GenDesc) (t : Nat) : Word :=
  d.base + BitVec.ofInt 64 (shapeOff d.exts d.strs (t % cpCount d.exts))

/-- An A-cell's stream passes by no committed write of its context: the bytes that the line's owner still holds go to its
cove's L2, and from another cove to the home (R234). -/
def genOwner (s : State) (f : Firing) (a : Word) : State :=
  let (ox, oy) := (s.region f.rk).ownerOf a
  let key := s.cellOf f.rk ox oy
  match translate s (s.fireAgent f) a .r with
  | .error _ => s
  | .ok (p, s) =>
    if coveOfXY (key % 128) (key / 128) = (s.fireAgent f).cove then acbDrain s key (p.pa / 64) else ownerHome s f.rk a p

/-- `n` bytes of a generator's cell: local store, M-cell memory, or VA. -/
def genRead (s : State) (f : Firing) (a : Word) (n : Nat) : Except Trap (List Byte × State) :=
  let key := s.cellOf f.rk f.x f.y
  match kindOf s f with
  | 2 => (genOwner s f a).readAs (s.fireAgent f) a n
  | 1 =>
    if 0xFFFF < a.toNat then gErr cPERM a
    else
      match mRead s f.rk key a.toNat n with
      | .error t => .error { t with tval := a }
      | .ok bs => .ok (bs, s)
  | _ =>
    match localRead s f.rk key a.toNat n a with
    | .error t => .error { t with tval := a }
    | .ok bs => .ok (bs, s)

def genWrite (s : State) (f : Firing) (a : Word) (bs : List Byte) : Except Trap State :=
  let key := s.cellOf f.rk f.x f.y
  let at_ (r : Except Trap State) : Except Trap State := match r with | .error t => .error { t with tval := a } | .ok s => .ok s
  match kindOf s f with
  | 2 => (genOwner s f a).writeAs (s.fireAgent f) a bs
  | 1 => if 0xFFFF < a.toNat then gErr cPERM a else at_ (mWrite s f.rk f.x f.y key a.toNat bs)
  | _ => at_ (localWrite s f.rk key a.toNat bs a)

/-- The four words of a descriptor: from the cell's own store at DADDR, or in an A-cell from the VA on the
left slot. -/
def genWords (s : State) (f : Firing) (a : Word) : Nat → Except Trap (List Word × State)
  | 0 => .ok ([], s)
  | k + 1 =>
    match genRead s f a 8 with
    | .error t => .error t
    | .ok (bs, s) =>
      match genWords s f (a + 8#64) k with
      | .error t => .error t
      | .ok (ws, s) => .ok (bytesWord bs :: ws, s)

/-- Bytes of an element. -/
def genBytes (ft : Fmt) : Nat := Fmt.tokWidth ft / 8

/-- Lanes of value `v` from lane `j` on, read. -/
def genIn (s : State) (f : Firing) (ft : Fmt) (d : GenDesc) (first : Nat) : Nat → Except Trap (List Nat × State)
  | 0 => .ok ([], s)
  | k + 1 => do
    let e := genBytes ft
    let a := d.addr first
    need (a.toNat % e == 0) cMISALIGN a
    let (bs, s) ← genRead s f a e
    let (vs, s) ← genIn s f ft d (first + 1) k
    return (bytesNat bs :: vs, s)

/-- The elements that an A-cell generator's window reads ahead, up to one that cannot be read (R205). -/
def genAhead (s : State) (f : Firing) (ft : Fmt) (d : GenDesc) (first : Nat) : Nat → List Nat × State
  | 0 => ([], s)
  | k + 1 =>
    match genIn s f ft d first 1 with
    | .error _ => ([], s)
    | .ok (vs, s) =>
      let (r, s) := genAhead s f ft d (first + 1) k
      (vs ++ r, s)

/-- A value of an A-cell's generator, taken at TAIL of its window of 1,024 bytes, which is filled again, and its clks. -/
def genWindow (s : State) (f : Firing) (ft : Fmt) (d : GenDesc) (gen v lanes : Nat) :
    Except Trap (List Nat × State × Nat) := do
  let e := genBytes ft
  let l := loopOf s f
  let w := AMap.getD l.wins gen []
  let here := (List.range (w.length / e)).map fun j => bytesNat ((w.drop (e * j)).take e)
  let (more, s) ← genIn s f ft d (v * lanes + here.length) (lanes - here.length)
  let clks := max 1 s.stall
  let all := here ++ more
  let n := (l.n.getD 0#64).toNat
  let room := 1024 / e - (all.length - lanes)
  let left := if n = 0 then room else min room (n * l.ilv * lanes - (v * lanes + all.length))
  let (ahead, s) := genAhead s f ft d (v * lanes + all.length) left
  let win := ((all ++ ahead).drop lanes).flatMap (natBytes e)
  return (all.take lanes, modLoopOf s f (fun l => { l with wins := AMap.set l.wins gen win }), clks)

/-- Lanes written. -/
def genOut (s : State) (f : Firing) (ft : Fmt) (d : GenDesc) (first : Nat) : List Nat → Except Trap State
  | [] => .ok s
  | v :: vs => do
    let e := genBytes ft
    let a := d.addr first
    need (a.toNat % e == 0) cMISALIGN a
    let s ← genWrite s f a (natBytes e v)
    genOut s f ft d (first + 1) vs

/-- The distinct 32-byte lines that a value's elements lie in (R383). -/
def genLines (d : GenDesc) (first w : Nat) : Nat := ((List.range w).map fun j => (d.addr (first + j)).toNat / 32).eraseDups.length

/-- `sgen`: reads its descriptor once per instance; then yields, or writes, one value per step. -/
def execGSgen (n : GNode) (s : State) : Out :=
  runNode (.gSgen n) s fun f s => do
    let gen := n.immField 17 16
    match f.body with
    | none =>
      let a := if kindOf s f = 2 then f.lpay else w64 (n.immField 12 0)
      nodeNeed (a.toNat % 8 == 0) cMISALIGN a
      let (ws, s) ← liftT (genWords s f a 4)
      return modLoopOf s f fun l => { l with gens := AMap.set l.gens gen (genOf ws) }
    | some v =>
      let k := payloads s f
      let w := Fmt.tokWidth n.fmt
      let lanes := k * (64 / w)
      let d := AMap.getD (loopOf s f).gens gen default
      if gen = 2 then
        let x := opN k f.r
        liftT (genOut s f n.fmt d (v * lanes) ((List.range lanes).map fun j => elemN x w j))
      else
        let (vs, s, clks) ← liftT (if kindOf s f = 2 then genWindow s f n.fmt d gen v lanes
          else (genIn s f n.fmt d (v * lanes) lanes).map fun r => (r.1, r.2, genLines d (v * lanes) lanes))
        return s.sendOut f n clks (outWords k (buildN w (fun j => vs.getD j 0) lanes)) n.fmt

/-! ## Configuration nodes (R380) -/

/-- `rpt`: the form of the cell and its interleave count. -/
def execGRpt (n : GNode) (s : State) : Out :=
  runNode (.gRpt n) s fun f s =>
    .ok (modLoopOf s f fun l => { l with wide := n.immField 17 17 == 1, ilv := n.immField 16 14 + 1 })

/-- `cnt`: N and the finish rule. -/
def execGCnt (n : GNode) (s : State) : Out :=
  runNode (.gCnt n) s fun f s =>
    .ok (modLoopOf s f fun l =>
      { l with n := some f.lpay, wst := n.immField 17 17 == 1, ups := n.immField 16 16 == 1 })

/-- A control token to the `cnt` that a target names, 1 clk per hop. -/
def sendControl (s : State) (f : Firing) (t : BitVec 10) (finish : Bool) : State :=
  match target t with
  | none => s
  | some (idx, _) =>
    s.after (1 + hops (f.x, f.y) (((s.region f.rk).block f.ik.blk).at idx)) (.controlTokenArrival f.rk f.ik idx finish)

/-- `ctok`: fires when its cell's loop starts or finishes. -/
def execGCtok (n : GNode) (s : State) : Out :=
  runNode (.gCtok n) s fun f s =>
    let fin := n.immField 17 16 == 1
    .ok (sendControl (sendControl s f n.t0 fin) f n.t1 fin)

/-- The `ctok` nodes of a cell for an event fire. -/
def fireCtoks (s : State) (rk : RKey) (x y : Nat) (l : Loop) (finish : Bool) : State :=
  let rg := s.region rk
  (((rg.block l.ik.blk).inCell x y).filter fun p =>
    match p.2 with | .gCtok n => (n.immField 17 16 == 1) == finish | _ => false).foldl
    (fun s p => s.fireAfter 0 p.2 { rk := rk, ik := l.ik, x := x, y := y, slot := l.slot, idx := p.1 }) s

/-- CONTROL_TOKEN_ARRIVAL: the latches of a `cnt`; a start token where WST is 0, or a finish token where UPS
is 0, is ignored. -/
def execControlTokenArrival (rk : RKey) (ik : IKey) (idx : Nat) (finish : Bool) (s : State) : Out :=
  let rg := s.region rk
  let b := rg.block ik.blk
  let (x, y) := b.at idx
  .next (match recordArc s rk x y ik.blk (.ev (.controlTokenArrival rk ik idx finish)), b.node idx with
    | some s, _ => s
    | none, some (.gCnt n) =>
      let take := n.immField (if finish then 16 else 17) (if finish then 16 else 17) == 1
      let s := s.modCell (s.cellOf rk x y) fun c => c.modLoop ik b.slot fun l =>
        if !take then l else if finish then { l with finL := true } else { l with startL := true }
      settle s rk
    | none, _ => s)

/-! ## Delay nodes (R368-R370) -/

/-- A word of a line written (R189). -/
def setLineWord (s : State) (rk : RKey) (x y : Nat) (pl : LinePlace) (o : Nat) (v : Word) : Except Trap State :=
  let g := (s.region rk).gen
  let at_ (a : Word) (r : Except Trap State) : Except Trap State :=
    match r with | .ok s => .ok s | .error t => .error { t with tval := a }
  match pl with
  | .f b =>
    let k := (b + o) / 32
    let key := s.cellOf rk x y
    let e := AMap.getD (s.cell key).freg k {}
    match stampWrite e.gen (insBytes (if e.gen = g then e.val else 0#256) ((b + o) % 32) (vecBytes 8 v)) (fTval k) with
    | .error t => .error t
    | .ok val => .ok (s.modCell key fun c => { c with freg := AMap.set c.freg k { val := val, gen := g } })
  | .store b =>
    let key := s.cellOf rk x y
    at_ (w64 (b + o)) ((granWrite (s.cell key).store g (b + o) (vecBytes 8 v)).map fun m => s.modCell key fun c => { c with store := m })
  | .mcell mx my b => at_ (w64 (b + o)) (mPut s rk (s.cellOf rk mx my) (b + o) (vecBytes 8 v))

/-- Words of a line written in order. -/
def setLineWords (s : State) (rk : RKey) (x y : Nat) (pl : LinePlace) (o : Nat) : List Word → Except Trap State
  | [] => .ok s
  | v :: vs =>
    match setLineWord s rk x y pl o v with
    | .error t => .error t
    | .ok s => setLineWords s rk x y pl (o + 8) vs

/-- The `dly` nodes of a cell whose lines lie in f0-f2. -/
def Block.fLines (b : Block) (x y : Nat) : List Nat :=
  (b.lines x y 0).filterMap fun p => match p.2 with | .f _ => some p.1 | _ => none

/-- The key of a carried line: block, cell, index, interleave slot. -/
def keepKey (blk cell idx slot : Nat) : Nat := ((blk * 16384 + cell) * 128 + idx) * 8 + slot

/-- The value without the lanes that a reset mark names. -/
def maskLanes (w k v : Nat) (mark : Word) : Nat :=
  buildN w (fun j => if mark.toNat.testBit j then 0 else elemN v w j) (k * (64 / w))

/-- The stamps of a line are the region's generation. -/
def lineFresh (s : State) (rk : RKey) (x y : Nat) (pl : LinePlace) (bytes : Nat) : Bool :=
  let g := (s.region rk).gen
  let here := s.cell (s.cellOf rk x y)
  match pl with
  | .f b => (List.range ((b % 32 + bytes + 31) / 32)).all fun k => (AMap.getD here.freg (b / 32 + k) {}).gen == g
  | .store b => (granulesOf b bytes).all fun k => (AMap.getD here.store k {}).gen == g
  | .mcell mx my b => (granulesOf b bytes).all fun k => (AMap.getD (s.cell (s.cellOf rk mx my)).mem k {}).gen == g

/-- The place of Cprev in a slot of a chunk-mode line: after its L records of G, P and a word of flags, and Cin. -/
def cprevAt (n : GNode) (wide : Bool) (slot : Nat) : Nat := slot * slotBytes n wide + slotBytes n wide - (if wide then 32 else 8)

/-- A `dly`'s line at loop start: the carried one of a KEEP (R382), or +0; of a chunk-mode line only Cprev is carried. -/
def dlyInit (s : State) (rk : RKey) (l : Loop) (x y : Nat) (b : Block) (idx : Nat) (n : GNode) : Except Trap State := do
  let rg := s.region rk
  let key := s.cellOf rk x y
  let pl := b.linePlace x y (s.cell key).xbnd idx
  let bytes := lineBytes n l.ilv l.wide
  let kept (slot : Nat) : Option DlyTags :=
    if n.immField 10 10 = 1 then AMap.get? rg.keeps (keepKey l.ik.blk (cellKey x y) idx slot) else none
  let carried := (kept 0).isSome && lineFresh s rk x y pl bytes
  let put (s : State) (f : Nat → DlyTags) : State := s.modCell key fun c => c.modLoop l.ik l.slot fun l =>
    { l with dlys := (List.range l.ilv).foldl (fun m k => AMap.set m (8 * idx + k) (f k)) l.dlys }
  if n.immField 17 16 = 1 then do
    let at_ (k : Nat) : Nat := cprevAt n l.wide k
    let cp ← (List.range l.ilv).mapM fun k => if carried then lineWord s rk x y pl (at_ k) else .ok 0#64
    let s ← setLineWords s rk x y pl 0 (List.replicate (bytes / 8) 0#64)
    let s ← (List.range l.ilv).foldlM (fun s k => setLineWord s rk x y pl (at_ k) (cp.getD k 0#64)) s
    return put s fun _ => {}
  else if carried then
    return put s fun k => (kept k).getD {}
  else
    let s ← setLineWords s rk x y pl 0 (List.replicate (bytes / 8) 0#64)
    return put s fun _ => { tags := List.replicate (n.immField 9 0 + 1) n.fmt }

/-- Every line of a cell at loop start. -/
def dlyInits (s : State) (rk : RKey) (l : Loop) (x y : Nat) (b : Block) : List (Nat × GNode) → Except (Nat × Trap) State
  | [] => .ok s
  | p :: r =>
    match dlyInit s rk l x y b p.1 p.2 with
    | .error t => .error (p.1, t)
    | .ok s => dlyInits s rk l x y b r

/-- An emission of a `dly` on T0. -/
def dlySend (s : State) (f : Firing) (t : BitVec 10) (n : GNode) (ft : Fmt) (pay : List Word) : State :=
  s.sendT f t (nodeClk (.gDly n)) pay ft n.act f.ik.ctx f.ik.iter

/-- A fused multiply-add of FP32 values, to nearest. -/
def fma32 (a b c : BitVec 32) : BitVec 32 × NxFlags :=
  let r := arith .fma .fp32 32 .rne {} a.toNat b.toNat c.toNat
  (BitVec.ofNat 32 r.1, r.2)

/-- A product of FP32 values, to nearest. -/
def mul32 (a b : BitVec 32) : BitVec 32 × NxFlags :=
  let r := arith .mul .fp32 32 .rne {} a.toNat b.toNat 0
  (BitVec.ofNat 32 r.1, r.2)

def lane32 (l : List (BitVec 32)) (j : Nat) : BitVec 32 := l.getD j 0#32

/-- The payloads of 32-bit lanes. -/
def lanesPay (k : Nat) (l : List (BitVec 32)) : List Word := outWords k (buildN 32 (fun j => (lane32 l j).toNat) (2 * k))

/-- A step's record in a chunk-mode line: the arrays G, P and Z of R370, and the marks that came with the step. -/
structure ChunkRec where
  g : List (BitVec 32) := []
  p : List (BitVec 32) := []
  z : List Bool := []
  m : List Bool := []
  deriving DecidableEq, Repr, Inhabited

/-- The lanes of words, and the bits of a flag byte. -/
def wordLanes (ws : List Word) : List (BitVec 32) := ws.flatMap fun (v : Word) => [v.setWidth 32, (v >>> 32).setWidth 32]
def flagBits (w : Nat) (v : Word) : List Bool := (List.range w).map fun j => v.toNat.testBit j
def bitsNat (l : List Bool) : Nat := l.foldr (fun b n => (if b then 1 else 0) + 2 * n) 0

/-- The record of a step read from, and as written to, its line. -/
def chunkRec (s : State) (f : Firing) (pl : LinePlace) (k o : Nat) : Except Trap ChunkRec := do
  let ws ← lineWords s f.rk f.x f.y pl o (2 * k + 1)
  let v := ws.getD (2 * k) 0#64
  return { g := wordLanes (ws.take k), p := wordLanes ((ws.drop k).take k), z := flagBits (2 * k) v, m := flagBits (2 * k) (v >>> 8) }

def ChunkRec.words (d : ChunkRec) (k : Nat) : List Word :=
  lanesPay k d.g ++ lanesPay k d.p ++ [w64 (bitsNat d.z + 256 * bitsNat d.m)]

/-- Pass 2 of the last group at a step: per lane the result and its flags (R370). -/
def chunkOut (d : ChunkRec) (cin : List (BitVec 32)) (w : Nat) : List (BitVec 32) × NxFlags :=
  let r := (List.range w).map fun j =>
    let g := lane32 d.g j
    if d.z.getD j false then (g, 0#5) else fma32 (lane32 d.p j) (lane32 cin j) g
  (r.map (·.1), r.foldl (fun fl e => fl ||| e.2) 0#5)

/-- The carry chain over a group's last record, lanes in order: Cin, and the new Cprev. -/
def carryChain (d : ChunkRec) (cprev : BitVec 32) (w : Nat) : List (BitVec 32) × BitVec 32 × NxFlags :=
  let (c, cin, fl) := (List.range w).foldl (fun (acc : BitVec 32 × List (BitVec 32) × NxFlags) j =>
    let g := lane32 d.g j
    let r := if d.z.getD j false then (g, 0#5) else fma32 (lane32 d.p j) acc.1 g
    (r.1, acc.2.1 ++ [acc.1], acc.2.2 ||| r.2)) (cprev, [], 0#5)
  (cin, c, fl)

/-- Pass 1 of step `i` after the record `d` of the step before, with the lanes' local states, coefficients and marks: the
step's record, and the local states that T0 returns. -/
def chunkIn (d : ChunkRec) (len i w : Nat) (g a : List (BitVec 32)) (mark : Word) : ChunkRec × List (BitVec 32) × NxFlags :=
  let r := (List.range w).map fun j =>
    let aj := lane32 a j
    if i = 0 then (aj, false, 0#5)
    else if d.m.getD j false then (aj, true, 0#5)
    else let (p, fl) := mul32 aj (lane32 d.p j); (p, d.z.getD j false, fl)
  let m := flagBits w mark
  let t0 := (List.range w).map fun j => if i = len - 1 ∨ m.getD j false then 0#32 else lane32 g j
  ({ g := g, p := r.map (·.1), z := r.map (·.2.1), m := m }, t0, r.foldl (fun fl e => fl ||| e.2.2) 0#5)

/-- The 32-bit lanes of an operand. -/
def operLanes (k : Nat) (m : Option MTok) : List (BitVec 32) :=
  (List.range (2 * k)).map fun j => BitVec.ofNat 32 (elemN (opN k m) 32 j)

/-- The place of a firing's line. -/
def dlyPlace (s : State) (f : Firing) : LinePlace :=
  ((s.region f.rk).block f.ik.blk).linePlace f.x f.y (s.cell (s.cellOf f.rk f.x f.y)).xbnd f.idx

/-- A step of a chunk-mode `dly`; without operands a drain step. -/
def chunkStep (n : GNode) (f : Firing) (l : Loop) (step : Nat) (s : State) : Except Trap State := do
  let k := if l.wide then 4 else 1
  let w := 2 * k
  let len := n.immField 9 0 + 1
  let pl := dlyPlace s f
  let base := l.slotAt step * slotBytes n l.wide
  let i := l.roundAt step % len
  let at_ (i : Nat) : Nat := base + i * (2 * l.g + 8)
  let s ← if len ≤ l.roundAt step then do
      let d ← chunkRec s f pl k (at_ i)
      let cin ← lineWords s f.rk f.x f.y pl (at_ len) k
      let (h, fl) := chunkOut d (wordLanes cin) w
      pure ((dlySend s f n.t1 n .fp32 (lanesPay k h)).addFlags f fl)
    else pure s
  if f.l.isNone then return s
  let mark := match f.p with | some m => m.tok.payload | none => 0#64
  let prev ← if i = 0 then pure {} else chunkRec s f pl k (at_ (i - 1))
  let (d, t0, fl) := chunkIn prev len i w (operLanes k f.l) (operLanes k f.r) mark
  let s ← setLineWords s f.rk f.x f.y pl (at_ i) (ChunkRec.words d k)
  let s := (dlySend s f n.t0 n .fp32 (lanesPay k t0)).addFlags f fl
  if i ≠ len - 1 then return s
  let cp ← lineWord s f.rk f.x f.y pl (at_ len + l.g)
  let (cin, c, fl) := carryChain d (cp.setWidth 32) w
  let s ← setLineWords s f.rk f.x f.y pl (at_ len) (lanesPay k cin ++ [c.setWidth 64])
  -- 4 clk per lane, in which the node issues nothing
  return (modLoopOf s f fun l => { l with chain := AMap.set l.chain f.idx (s.clk + 4 * w) }).addFlags f fl

/-- A step of a delay-mode `dly`: its value takes the place of the one the step has emitted, and leaves D rounds on. -/
def delayStep (n : GNode) (f : Firing) (l : Loop) (step : Nat) (s : State) : Except Trap State := do
  let k := if l.wide then 4 else 1
  let mark := match f.p with | some m => m.tok.payload | none => 0#64
  let pay := outWords k (maskLanes (Fmt.tokWidth (if n.any then f.ltag else n.fmt)) k (opN k f.l) mark)
  let s ← setLineWords s f.rk f.x f.y (dlyPlace s f) (l.delayAt f.idx n step) pay
  let d := l.dlyTags f.idx step
  let d := { d with tags := d.tags.set (l.delayNo f.idx n step) f.ltag }
  return modLoopOf s f fun l => { l with dlys := AMap.set l.dlys (8 * f.idx + l.slotAt step) d }

def execGDly (n : GNode) (s : State) : Out :=
  runNode (.gDly n) s fun f s =>
    let l := loopOf s f
    let step := f.body.getD 0
    if s.clk < AMap.getD l.chain f.idx 0 then .error none
    else liftT (if n.immField 17 16 = 1 then chunkStep n f l step s else delayStep n f l step s)

/-! ## Matrix ports (R376) -/

/-- `mxp`: a step writes its value into a buffer of the unit's lantern core, or takes a token of the
result port. -/
def execGMxp (n : GNode) (s : State) : Out :=
  runNode (.gMxp n) s fun f s => do
    let port := n.immField 17 16
    let key := s.cellOf f.rk f.x f.y
    let rg := s.region f.rk
    if port = 2 then
      match (s.cell key).mxpq with
      | [] => .error none
      | m :: r =>
        nodeNeed (n.any || m.tok.ftag == n.fmt) cFORMAT (w64 f.idx)
        return (s.modCell key fun c => { c with mxpq := r }).sendOut f n 1 [m.tok.payload] m.tok.ftag
    else
      let b : Buf := if port = 0 then .a else .w
      let core := coreOfXY (key % 128) (key / 128)
      let k := payloads s f
      let off := 64 * n.immField 12 0 + f.body.getD 0 * (8 * k)
      nodeNeed (decide (off + 8 * k ≤ bufBytes b)) cPERM (w64 off)
      let m ← liftT (granWrite ((s.core core).gran b) rg.gen off (natBytes (8 * k) (opN k f.l)))
      return s.modCore core fun c => c.setBuf b m

/-! ## fin (R381) -/

/-- `fin` fires in the commit clk: the rounds of cell 0, as its firing holds them, go to the successor. -/
def execGFin (n : GNode) (s : State) : Out :=
  runNode (.gFin n) s fun f s => .ok (sendStart s f n f.lpay .int n.act)

/-! ## Loop start and finish (R360, R362) -/

/-- Lines of other blocks that a cell carries in f0-f2 are lost (R382). -/
def dropKeeps (s : State) (rk : RKey) (x y blk : Nat) : State :=
  let rg := s.region rk
  if (rg.block blk).fLines x y |>.isEmpty then s
  else
    s.modRegion rk fun r => { r with keeps := r.keeps.filter fun q =>
      let b := q.1 / 8 / 128 / 16384
      q.1 / 8 / 128 % 16384 != cellKey x y || b == blk || !((rg.block b).fLines x y).contains (q.1 / 8 % 128) }

/-- A chunk-mode node whose length does not divide N. -/
def badChunk (b : Block) (x y : Nat) (l : Loop) : Option Nat :=
  ((b.inCell x y).find? fun p =>
    match p.2 with
    | .gDly g => g.immField 17 16 == 1 && (l.n.getD 0#64).toNat % (g.immField 9 0 + 1) != 0
    | _ => false).map (·.1)

/-- At loop start a chunk-mode node's T0 supplies +0 to the first step of each slot. -/
def dlyStart (s : State) (f : Firing) (n : GNode) : State :=
  let l := loopOf s f
  let k := if l.wide then 4 else 1
  let last := match l.n with | some m => m.toNat | none => 0
  if n.immField 17 16 = 1 ∧ ((last = 0 ∧ l.ups) ∨ 0 < last) then
    (List.range l.ilv).foldl (fun s _ => dlySend s f n.t0 n .fp32 (List.replicate k 0#64)) s
  else s

/-- STREAM_LOOP_START. -/
def execStreamLoopStart (rk : RKey) (ik : IKey) (cell : Nat) (s : State) : Out :=
  let rg := s.region rk
  let b := rg.block ik.blk
  let (x, y) := b.cellXY cell
  let key := s.cellOf rk x y
  .next (match recordArc s rk x y ik.blk (.ev (.streamLoopStart rk ik cell)), (s.cell key).loop? ik b.slot with
    | some s, _ => s
    | none, none => s
    | none, some l =>
      if !mayStart s rk x y l then s
      else
        match badChunk b x y l with
        | some idx => settle (s.gFault rk { ik := ik, cause := cILLEGAL, addr := w64 idx, idx := idx, x := x, y := y }) rk
        | none =>
          let dl := (b.inCell x y).filterMap fun p => match p.2 with | .gDly n => some (p.1, n) | _ => none
          match dlyInits (dropKeeps s rk x y ik.blk) rk l x y b dl with
          | .error (idx, t) => settle (s.gFault rk { ik := ik, cause := t.cause, addr := t.tval, idx := idx, x := x, y := y }) rk
          | .ok s =>
            let s := s.modCell key fun c => c.modLoop ik b.slot fun l => { l with started := true }
            let s := dl.foldl (fun s p =>
              dlyStart s { rk := rk, ik := ik, x := x, y := y, slot := b.slot, idx := p.1, body := some 0 } p.2) s
            settle (fireCtoks s rk x y l false) rk)

/-- STREAM_LOOP_FINISH: after the drain. -/
def execStreamLoopFinish (rk : RKey) (ik : IKey) (cell : Nat) (s : State) : Out :=
  let rg := s.region rk
  let b := rg.block ik.blk
  let (x, y) := b.cellXY cell
  let key := s.cellOf rk x y
  .next (match recordArc s rk x y ik.blk (.ev (.streamLoopFinish rk ik cell)), (s.cell key).loop? ik b.slot with
    | some s, _ => s
    | none, none => s
    | none, some l =>
      if !l.started || l.finished || rg.isParked ik.ctx || rg.faults.any (fun h => h.ik == ik) then s
      else
        let s := s.modCell key fun c => c.modLoop ik b.slot fun l => { l with finished := true }
        settle (fireCtoks s rk x y l true) rk)

end Sys2Proof.Machine
end

