-- ==== Sys2Proof/Machine/Commit.lean ====
section
/-! DEFINITION. What follows a commit: INSTANCE_COMMIT, the effects left to it in the order of R307, performed one
node at a time, and the report of a fault (R419). -/

namespace Sys2Proof.Machine

/-! ## One effect performed -/

/-- What becomes of an effect: performed; tried again in the next clk; or kept until the context resumes
(R352, R423). -/
inductive Perf where
  | done (s : State)
  | wait (s : State)
  | held (s : State)

/-- A fault of an effect performed after the commit (R264), with the audit record of a stage-2 refusal. -/
def lateTrap (s : State) (f : Firing) (t : Trap) : State :=
  let s := if t.log then s.audit 0xFF (s.region f.rk).qid f.rk.vmid (w64 t.cause.toNat) t.tval 0#64 0 else s
  s.lateFault f t.cause t.tval

/-- The state of an effect, or its fault. -/
def orLate (s : State) (f : Firing) (r : Except Trap State) : State :=
  match r with | .ok s => s | .error t => lateTrap s f t

/-- A write to what an address names, performed (R342). -/
def performStore (s : State) (p : Pend) (bs : List Byte) : State :=
  let f := p.f
  let a := p.data.headD 0#64
  orLate s f <|
    match gForm a with
    | .va va => ownerWriteLate s f.rk va bs
    | .mcell x y off =>
      match mCellAt s f.rk x y a with
      | .error t => .error t
      | .ok key =>
        match mWrite s f.rk x y key off bs with
        | .error t => .error { t with tval := a }
        | .ok s => .ok s
    | .loc off => localWrite s f.rk (s.cellOf f.rk f.x f.y) off bs a
    | .bad => gErr cPAGE_W a

/-- `iwr` performed: a full word is left, and the context faults ISTRUCT (R346). -/
def performIwr (s : State) (p : Pend) : State :=
  let f := p.f
  let a := p.data.headD 0#64
  match gForm a with
  | .va va =>
    match translate s (s.fireAgent f) va .w with
    | .error t => lateTrap s f t
    | .ok (q, s) =>
      let s := ownerHome s f.rk va q
      if s.isPoison q.pa then s.countEcc 0x21
      else if s.isFull q.pa then s.lateFault f cISTRUCT a else s.putHome (s.fireAgent f) q (natBytes 8 f.rpay.toNat)
  | .mcell x y off =>
    let rg := s.region f.rk
    if mState (s.cell (cellAt rg.handle x y)) rg.gen off = 1 then s.lateFault f cISTRUCT a
    else performStore s p (natBytes 8 f.rpay.toNat)
  | _ => s.lateFault f cPERM a

/-- The payload of an old value (R261). -/
def amoPay (n : GNode) (old : Nat) : Word := if n.fmt = .int then sext (8 * nodeBytes n) (w64 old) else w64 old

/-- `amo` performed: a release before it, an acquire after it as its ordering says; its flags go to the region, the old value
leaves (R261). -/
def performAmo (s : State) (p : Pend) (n : GNode) : State :=
  let f := p.f
  let a := p.data.headD 0#64
  let k := nodeBytes n
  let op := nodeAmoOp n
  let cas := op == .cas
  let v := if cas then fld f.rpay 31 0 else f.rpay.toNat % 2 ^ (8 * k)
  let e := if cas then fld f.rpay 63 32 else 0
  let s := if AmoOrd.releases (nodeAmoOrd n) then gRelease s f.rk (nodeScope n) else s
  match gForm a with
  | .va va =>
    match xlat s (s.fireAgent f) va .w with
    | .error t => lateTrap s f t
    | .ok (q, s) =>
      let (old, fl, s) := amoAt (ownerHome s f.rk va q) (s.fireAgent f) q op k v e
      let s := if AmoOrd.acquires (nodeAmoOrd n) then gAcquire s f.rk (nodeScope n) else s
      (regionFlags s f.rk fl).sendOut f n (max 1 (tierClk (s.tier q.pa))) [amoPay n old] n.fmt
  | .mcell x y off =>
    let r : Except Trap (Nat × List Byte) := do
      let key ← mCellAt s f.rk x y a
      let bs ← mRead s f.rk key off k
      return (key, bs)
    match r with
    | .error t => lateTrap s f { t with tval := a }
    | .ok (key, bs) =>
      let (new, fl) := amoNew op k (bytesNat bs) v e
      let s := match new with
        | none => s
        | some w => orLate s f (mWrite s f.rk x y key off (natBytes k w))
      let s := if AmoOrd.acquires (nodeAmoOrd n) then gAcquire s f.rk (nodeScope n) else s
      (regionFlags s f.rk fl).sendOut f n (2 * hops (f.x, f.y) (x, y) + 2) [amoPay n (bytesNat bs)] n.fmt
  | _ => s.lateFault f cPERM a

/-- The M-cell place that a lock or combining node's address names. -/
def mPlace (s : State) (f : Firing) (a : Word) : Option (Nat × Nat × Nat × Nat) :=
  match gForm a with
  | .mcell x y off => match mCellAt s f.rk x y a with | .ok key => some (x, y, key, off) | .error _ => none
  | _ => none

/-- `lkg` performed (R264). -/
def performLkg (s : State) (p : Pend) (n : GNode) : State :=
  let f := p.f
  let a := p.data.headD 0#64
  match mPlace s f a with
  | none => s.lateFault f cPERM a
  | some (x, y, key, off) =>
    if (AMap.getD (s.cell key).locks (lockNo off) {}).holder ≠ some f.ik.ctx then s.lateFault f cLOCK a
    else trimPool (lockPass (gRelease s f.rk (nodeScope n)) x y key (lockNo off) false) f.rk key

/-- `mcomb` performed: a contribution whose control word is not full defers (R267). -/
def performMcomb (s : State) (p : Pend) (n : GNode) : State :=
  let f := p.f
  let a := p.data.headD 0#64
  match mPlace s f a with
  | none => s.lateFault f cPERM a
  | some (_, _, key, off) =>
    let s := gRelease s f.rk (nodeScope n)
    match combine s f p.node with
    | some s => s
    | none =>
      match poolRoom s f.rk key with
      | .error t => lateTrap s f t
      | .ok s =>
        let rg := s.region f.rk
        let s := mRestamp s f.rk key rg.gen (off + 8)
        (mSet s key (off + 8) 2).modCell key fun c => { c with defer := c.defer ++ [{ off := off + 8, f := f, node := p.node }] }

/-- Every sticky token of a context removed from a region (R338). -/
def purgeAll (s : State) (rk : RKey) (c : Ctx) : State :=
  let st (e : MEntry) : Bool := e.ctx == c && e.iter.isNone && e.next.isNone
  (s.modCells rk fun _ _ cl => { cl with ms := cl.ms.filter fun e => !st e || e.gen == 0xFFFF#16 }).modRegion rk fun r =>
    { r with ovf := r.ovf.filter fun o => !st o.ent }

/-- The return record of a `call`: the token that T0 names, of this firing, with the caller's descriptor. -/
def returnRecord (s : State) (f : Firing) (n : GNode) : List Word :=
  let rg := s.region f.rk
  let (idx, dop) := (target n.t0).getD (0, 0)
  Token.words (tokenFor (rg.block f.ik.blk) idx dop f.ik.ctx f.ik.iter (rg.fn.headD 0#64) n.fmt .normal)

/-- `call` performed (R329): the return record, the callee frame's header, a release, the start token. -/
def performCall (s : State) (p : Pend) (n : GNode) : Perf :=
  let f := p.f
  let c := p.addr
  let s := gRelease s f.rk .dv
  let ag := s.fireAgent f
  let rg := s.region f.rk
  let r := (s.tenant f.rk.vmid).frameVa f.ik.ctx + w64 (8 * n.immField 8 0)
  let head := [r ||| 1#64, 0#64, 0#64, 0#64, rg.gen.setWidth 64, 0#64]
  let res : Except Trap State := do
    let s ← homePuts s ag r (returnRecord s f n)
    let s ← homePuts s ag c head
    let (q, s) ← xlat s ag (c + 40#64) .w
    return s.setEmpty q.pa
  match res with
  | .error t => .done (lateTrap s f t)
  | .ok s =>
    match postStart s f.rk.vmid (s.coveOf f) rg.qid f.lpay c (some (f.rk, f.ik)) with
    | .sent s => .done (s.sendT f n.t1 1 [c] .int n.act f.ik.ctx f.ik.iter)
    | .fault t => .done (lateTrap s f t)
    | _ => .held (s.lateFault f cQUEUE f.lpay)

/-- `ccall` performed (R331, R285): the header, the slots, a release, and the push; a push that finds no room
waits, counted once. -/
def performCcall (s : State) (p : Pend) (n : GNode) : Perf :=
  let f := p.f
  let c := p.addr
  let s := gRelease s f.rk .dv
  let ag := s.fireAgent f
  let rg := s.region f.rk
  let k := n.immField 5 0
  let res : Except Trap State := do
    let s ← writeHeader s ag c 0#64 rg.gen
    homePuts s ag (c + 64#64) (p.data.take k ++ List.replicate (8 - k) 0#64)
  match res with
  | .error t => .done (lateTrap s f t)
  | .ok t =>
    if fld f.lpay 1 0 = 2 then
      .done ((callbackAppend t (fld f.lpay 12 2) c).sendOut f n 1 [c] .int)
    else
      let core := leastCore t rg.qid (coresOf (handleCove rg.handle))
      match pushBottom t core { ptr := f.lpay, frame := c, slot := 0#3, dom := 2#3, queue := rg.qid } with
      | some t => .done (t.sendOut f n 1 [c] .int)
      | none =>
        if f.since.isSome then .wait s
        else
          let p' := { p with f := { f with since := some s.now } }
          .wait ((s.count f.rk.vmid .deqWait).modInst f.rk f.ik fun i => { i with pend := i.pend.map fun q => if q = p then p' else q })

/-- `ffree` performed: the checks again; a frame of its own ends the context (R336). -/
def performFfree (s : State) (p : Pend) : State :=
  let f := p.f
  let s := gRelease s f.rk .dv
  match freeCheck s (s.fireAgent f) p.addr with
  | .error t => s.lateFault f (if t.cause = cFRAME then cFRAME else t.cause) p.addr
  | .ok s =>
    match freeFrame s (s.fireAgent f) p.addr with
    | .error t => lateTrap s f t
    | .ok s => if p.addr = (s.tenant f.rk.vmid).frameVa f.ik.ctx then endContext s f.rk f.ik.ctx else s

/-- `ret` performed (R330): slot 0, a release, the frame's completion, the end of the context. -/
def performRet (s : State) (p : Pend) (n : GNode) : State :=
  let f := p.f
  let fr := p.addr
  let ag := s.fireAgent f
  let nres := n.immField 5 0
  let s := gRelease s f.rk .dv
  let r : Except Trap (Bool × State) := do
    let (g, _, s) ← s.homeLoad ag (fr + 32#64)
    let (q, s) ← xlat s ag (fr + 40#64) .w
    return (fld g 15 0 == 0 || s.isFull q.pa, s)
  match r with
  | .error t => lateTrap s f t
  | .ok (true, s) => s.lateFault f cFRAME fr
  | .ok (false, s) =>
    let slot0 := if nres = 0 then .ok s else ownerWrite s f.rk (fr + 64#64) (natBytes 8 f.lpay.toNat)
    match slot0 with
    | .error t => lateTrap s f t
    | .ok s =>
      let s := gRelease s f.rk .dv
      endContext (finishFrame s f.rk.vmid (s.coveOf f) fr nres 0 f.lpay f.ltag false) f.rk f.ik.ctx

/-- `post` performed: the next word of the buoy's stream (R410), one mesh time of its cove after the commit token
(R518). -/
def performPost (s : State) (p : Pend) : Perf :=
  let f := p.f
  let rg := s.region f.rk
  let b := (p.data.headD 0#64).toNat
  match AMap.get? rg.buoys b with
  | none => .done (s.lateFault f cPERM (w64 f.idx))
  | some y =>
    if s.clk < f.since.getD s.clk + (if f.since.isSome then Config.meshCove else 1) then
      let p' := { p with f := { f with since := some (f.since.getD s.clk) } }
      .wait (s.modInst f.rk f.ik fun i => { i with pend := i.pend.map fun q => if q = p then p' else q })
    else
      match translate s (s.fireAgent f) (y.cur.sva + w64 (8 * y.pos)) .w with
      | .error t => .done (lateTrap s f t)
      | .ok (q, s) =>
        let s := if s.isPoison q.pa then s.countEcc 0x21 else s.l2Write (s.coveOf f) q (natBytes 8 f.lpay.toNat)
        .done (s.modRegion f.rk fun r => { r with buoys := AMap.set r.buoys b { y with pos := y.pos + 1 } })

/-- `gat`, `sct` and `cpy` performed: a posting (R246); a full queue is waited for (R410). -/
def performCopy (s : State) (p : Pend) : Perf :=
  let f := p.f
  let rg := s.region f.rk
  let cove := s.coveOf f
  let c : CopyCmd :=
    { id := 0, pk := p.data, vmid := f.rk.vmid, troot := rg.troot, gen := rg.gen, trap := rg.trap, rk := some f.rk
      buoy := (rg.buoyAt f.x f.y).map (·.1), node := some (f, p.node) }
  if cpOp p.data = 3 then .done (applyControl (gRelease s f.rk .dv) cove c)
  else if !copyRoom s cove then .wait s
  else .done (enqueueCopy (gRelease s f.rk .dv) cove c)

/-- `tadv` performed: a release, then the arrival (R225, R410). -/
def performTadv (s : State) (p : Pend) : State :=
  let v := (p.data.getD 0 0#64).toNat
  let e := (p.data.getD 1 0#64).toNat
  let s := gRelease s p.f.rk .dv
  match AMap.get? (s.tenant v).tides e with | some t => s.tideArrive v e t | none => s

/-- `rec` performed: after the copy of its key that is under way (R405). -/
def performRec (s : State) (p : Pend) : Perf :=
  let f := p.f
  let rg := s.region f.rk
  let quad := handleQuad rg.handle
  let key := (p.data.headD 0#64).toNat
  if keyBusy s quad f.rk.vmid key then .wait s
  else .done (recordKey (gRelease s f.rk .dv) (s.fireAgent f) quad key (rdescOf (p.data.drop 1)))

/-- The effect of a node, performed. -/
def perform (s : State) (p : Pend) : Perf :=
  let f := p.f
  match p.node with
  | .gSt n => .done (performStore s p (natBytes (nodeBytes n) f.rpay.toNat))
  | .gStrl n => .done (performStore (gRelease s f.rk (nodeScope n)) p (natBytes (nodeBytes n) f.rpay.toNat))
  | .gIwr _ => .done (performIwr s p)
  | .gAmo n => .done (performAmo s p n)
  | .gLkg n => .done (performLkg s p n)
  | .gMcomb n => .done (performMcomb s p n)
  | .gFwr _ => .done (orLate s f (ownerWriteLate s f.rk p.addr (natBytes 8 f.lpay.toNat)))
  | .gPurge _ => .done (purgeAll s f.rk f.ik.ctx)
  | .gTset n =>
    let w := p.data.headD 0#64
    let c : Ctx := { frame := w.extractLsb' 0 24, fgen := w.extractLsb' 24 8 }
    let it := w.extractLsb' 32 16
    .done ((s.sendT f n.t0 1 [f.lpay] f.ltag n.act c it).sendT f n.t1 1 [f.lpay] f.ltag n.act c it)
  | .gCall n => performCall s p n
  | .gCcall n => performCcall s p n
  | .gFfree _ => .done (performFfree s p)
  | .gRet n => .done (performRet s p n)
  | .gPost _ => performPost s p
  | .gGat _ | .gSct _ | .gCpy _ => performCopy s p
  | .gTadv _ => .done (performTadv s p)
  | .gRec _ => performRec s p
  | _ => .done s

/-! ## The order of effects (R245, R307) -/

/-- Effects of the context wait for `gctx.res`, which sends a token again (R352, R423). -/
def heldCtx (rg : Region) (c : Ctx) : Bool :=
  (rg.faults.any fun h => h.committed && h.ik.ctx == c && h.cause == cQUEUE)
    || rg.parked.any fun p => p.committed && p.ctx == c && p.cause == cQUEUE

/-- What a cell does next for a committed instance: nothing is left, one effect, or others come first. -/
inductive NextPend where
  | nothing
  | effect (p : Pend)
  | blocked

/-- An instance of the context that committed before has effects still to perform: an ordered one before an ordered one
any, and before any other frame writes (R307). -/
def olderPending (rg : Region) (i : Inst) : Bool :=
  rg.insts.any fun j =>
    j.committed && j.ik.ctx == i.ik.ctx && j.ik != i.ik && decide (j.com < i.com)
      && j.pend.any fun p => !p.done && ((rg.ordered i && rg.ordered j) || isFwr p.node)

/-- What an effect waits for beside the effects before it (R245, R341, R347): the acquires of the instances before; fences and
`lda` below it; loads below it that have begun, for `strl` all of them; and where it is a release the loads of the
instances before. -/
def mustWait (s : State) (rk : RKey) (i : Inst) (p : Pend) : Bool :=
  leftBefore s rk i isAcquire
    || (decide (p.lsid < 32) && (leftBelow s rk i p.lsid (fun q => isFence q || isLda q) || firedBelow s rk i p.lsid isLoad))
    || (match p.node with | .gStrl _ => leftBelow s rk i p.lsid isLoad | _ => false)
    || (isRelease p.node && leftBefore s rk i isLoad)

/-- The first effect of a cell in LSID order, when every lower one of the instance is performed. -/
def nextPend (s : State) (rk : RKey) (i : Inst) (x y : Nat) : NextPend :=
  let rg := s.region rk
  let left := i.pend.filter (!·.done)
  let mine := left.filter fun p => p.f.x == x && p.f.y == y
  match mine.foldl (fun b p => match b with | none => some p | some o => if p.lsid < o.lsid then some p else b) none with
  | none => .nothing
  | some p =>
    if left.any (fun q => decide (q.lsid < p.lsid)) || olderPending rg i || mustWait s rk i p then .blocked else .effect p

/-- The instance's effect is performed. -/
def markDone (s : State) (rk : RKey) (ik : IKey) (p : Pend) : State :=
  s.modInst rk ik fun i => { i with pend := i.pend.map fun q => if q = p then { q with done := true } else q }

/-- The effects of one cell, as far as they may go. -/
def runPends (rk : RKey) (ik : IKey) (x y : Nat) (again : Ev) : Nat → State → State
  | 0, s => s
  | k + 1, s =>
    let rg := s.region rk
    match rg.inst? ik with
    | none => s
    | some i =>
      if heldCtx rg ik.ctx then s
      else
        match nextPend s rk i x y with
        | .nothing => s
        | .blocked => s.onceAfter 1 again
        | .effect p =>
          match perform s p with
          | .done s => runPends rk ik x y again k (markDone s rk ik p)
          | .wait s => s.onceAfter 1 again
          | .held s => s

/-- COMMIT_TOKEN (R307): a cell performs its writes as the commit token arrives. -/
def execCommitToken (rk : RKey) (ik : IKey) (cell : Nat) (s : State) : Out :=
  let rg := s.region rk
  let (x, y) := (rg.block ik.blk).cellXY cell
  let e : Ev := .commitToken rk ik cell
  .next (match recordArc s rk x y ik.blk (.ev e) with
    | some s => s
    | none =>
      match rg.inst? ik with
      | none => s
      | some i => settle (runPends rk ik x y e (i.pend.length + 1) s) rk)

/-! ## Commit (R307, R362) -/

/-- The carried lines of a stream instance's `dly` nodes with KEEP (R382). -/
def keepLines (s : State) (rk : RKey) (ik : IKey) : State :=
  let rg := s.region rk
  let b := rg.block ik.blk
  b.nodes.foldl (fun s p =>
    match p.2 with
    | .gDly n =>
      if n.immField 10 10 = 0 then s
      else
        let (x, y) := b.at p.1
        let key := s.cellOf rk x y
        match (s.cell key).loop? ik b.slot with
        | none => s
        | some l =>
          (List.range l.ilv).foldl (fun s k =>
            match AMap.get? l.dlys (8 * p.1 + k) with
            | none => s
            | some d =>
              -- the value that a run's next round would take comes first in the next one
              let d := { d with head := d.head + l.rounds }
              s.modRegion rk fun r => { r with keeps := AMap.set r.keeps (keepKey ik.blk (cellKey x y) p.1 k) d }) s
    | _ => s) s

/-- The commit of a stream instance: a release, its `fin`, and its loops and latches cleared. -/
def commitStream (s : State) (rk : RKey) (ik : IKey) : State :=
  let rg := s.region rk
  let b := rg.block ik.blk
  let s := keepLines (gRelease s rk .dv) rk ik
  let l := ((s.cell (s.cellOf rk b.box b.boy)).loop? ik b.slot).getD { ik := ik, slot := b.slot }
  let s := b.nodes.foldl (fun s p =>
    match p.2 with
    | .gFin _ =>
      let (x, y) := b.at p.1
      let m : MTok := { tok := { (default : Token) with payload := w64 l.rounds } }
      s.fireAfter 0 p.2 { rk := rk, ik := ik, x := x, y := y, slot := b.slot, idx := p.1, l := some m }
    | _ => s) s
  s.modCells rk fun _ _ c => { c with loops := c.loops.filter fun l => l.ik != ik }

/-- The entry tokens kept for a squash are kept no longer. -/
def dropKept (s : State) (rk : RKey) (ik : IKey) : State :=
  let rg := s.region rk
  let clr (x y : Nat) (e : MEntry) : MEntry := if entryOf rg x y ik e then { e with kept := [] } else e
  (s.modCells rk fun x y c => { c with ms := (c.ms.map (clr x y)).filter fun e => !e.empty }).modRegion rk fun r =>
    { r with ovf := r.ovf.map fun o =>
        { o with ent := clr (o.cell % 128 - handleX r.handle) (o.cell / 128 - handleY r.handle) o.ent } }

/-- Commit tokens to the cells of the footprint that hold an effect. -/
def sendCommits (s : State) (rk : RKey) (ik : IKey) : State :=
  let rg := s.region rk
  let b := rg.block ik.blk
  match rg.inst? ik with
  | none => s
  | some i =>
    (b.cells.filter fun c => i.pend.any fun p => !p.done && b.cellXY c == (p.f.x, p.f.y)).foldl
      (fun s c => s.onceAfter (hops (b.box, b.boy) (b.cellXY c)) (.commitToken rk ik c)) s

/-- INSTANCE_COMMIT (R307). -/
def execInstanceCommit (rk : RKey) (ik : IKey) (s : State) : Out :=
  let rg := s.region rk
  let b := rg.block ik.blk
  .next (match recordArc s rk b.box b.boy ik.blk (.ev (.instanceCommit rk ik)), rg.inst? ik with
    | some s, _ => s
    | none, none => s
    | none, some i =>
      if rg.st ≠ 3 ∨ !mayCommit s rk i then s
      else
        let s := s.modRegion rk fun r => { r with serial := r.serial + 1 }
        let s := s.modInst rk ik fun i => { i with committed := true, com := rg.serial + 1 }
        let s := regionFlags s rk i.flags
        let s := dropKept s rk ik
        let s := if b.stream then commitStream s rk ik else s
        settle (sendCommits s rk ik) rk)

/-! ## Reports (R418-R421) -/

/-- The FAULT word of a parked context (R420). -/
def parkWord (h : HeldFault) (recorded : Bool) : Word :=
  w64 (2 ^ 63 + b2n recorded * 2 ^ 62 + h.ik.iter.toNat * 2 ^ 32 + h.ik.blk % 256 * 2 ^ 24 + h.idx % 128 * 2 ^ 16 + h.cause.toNat)

/-- The record of a report (R421). -/
def faultRecord (s : State) (rk : RKey) (h : HeldFault) : List Word :=
  let rg := s.region rk
  let b := rg.block h.ik.blk
  [(s.tenant rk.vmid).frameVa h.ik.ctx, b.image, h.addr, parkWord h true, w64 h.step, w64 s.now, rg.handle,
    w64 ((b.cells.find? fun c => b.cellXY c == (h.x, h.y)).getD 0)]

/-- A report: the record with its MSI-X vector (R471), the FAULT word, the message. -/
def report (s : State) (rk : RKey) (h : HeldFault) : State :=
  let t := s.tenant rk.vmid
  let rg := s.region rk
  let ag := s.devAgent rk.vmid (handleCove rg.handle)
  let fr := t.frameVa h.ik.ctx
  let (ok, s) :=
    if t.args.fring = 0#64 then (false, s)
    else
      match ringAppend s ag t.args.fring (faultRecord s rk h) with
      | some s => (true, s.msix 1 rk.vmid)
      | none => (false, ringDrop s ag t.args.fring)
  let s := match s.homeStore ag (fr + 24#64) (parkWord h ok) with
    | .ok s => s
    | .error _ => s.count rk.vmid .trapLost
  let n := t.args.fslot.toNat
  s.sendMsg { target := n, sender := n, payload := fr ||| 1#64, vmid := rk.vmid }

/-- G_FAULT_REPORT: the context parks. An uncommitted instance goes back to its entry tokens; one of a stream
block whose loops have started stands where it is (R364). -/
def execGFaultReport (rk : RKey) (ik : IKey) (s : State) : Out :=
  let rg := s.region rk
  match rg.faults.find? fun h => h.ik == ik && mayReport rg h with
  | none => .next s
  | some h =>
    let s := s.modRegion rk fun r =>
      { r with faults := r.faults.erase h
               parked := r.parked ++ [{ ctx := ik.ctx, ik := ik, committed := h.committed, cause := h.cause, work := h.work }] }
    let s := if h.committed || (s.looping rk).contains ik then s else rollback s rk [ik] false
    .next (settle (report s rk h) rk)

end Sys2Proof.Machine
end

