-- ==== Sys2Proof/Machine/Drain.lean ====
section
/-! DEFINITION. `mx.drn` and the matrix result ports (R174, R376); `gen.scrub` (R192, R198). -/

namespace Sys2Proof.Machine

/-! ## The result port of a unit (R12, R376) -/

/-- The device position of a core's result port cell. -/
def resultXY (core : Nat) : Nat × Nat := (unitX core + 3, unitY core + 1)

/-- A resident block of the region holds an `mxp` for results on the cell. -/
def bindsResult (rg : Region) (x y : Nat) : Bool :=
  rg.blocks.any fun b => b.2.held && b.2.resident && b.2.nodes.any fun p =>
    b.2.at p.1 == (x, y) && (match p.2 with | .gMxp n => n.immField 17 16 == 2 | _ => false)

/-- The placed region that binds the result port of the slot's unit, of whichever tenant (R174). -/
def resultRegion (s : State) : Option (RKey × Region) :=
  let (X, Y) := resultXY (coreOf s.cur)
  ((List.range 64).findSome? fun v => regionAt s v 3 X Y).filter fun r =>
    bindsResult r.2 (X - handleX r.2.handle) (Y - handleY r.2.handle)

/-- The port queue of the slot's unit. -/
def portKey (slot : Nat) : Nat := let (X, Y) := resultXY (coreOf slot); cellKey X Y
def portQueue (s : State) (slot : Nat) : List MTok := (s.cell (portKey slot)).mxpq

/-- A drain waits for the port: with mark 0 for room, with mark 1 until its last token is accepted. -/
def portFree (s : State) (slot : Nat) (mark : Word) : Bool :=
  let n := (portQueue s slot).length
  if mark = 0#64 then
    n < 16 && (match resultRegion { s with cur := slot } with | some r => r.2.wave.isNone | none => true)
  else n ≤ 16

/-! ## mx.drn (R174) -/

/-- The elements of a tile, row by row, as the engine reads the C-buffer (R189). -/
def tileElems (s : State) (t : TR) : Except Trap (List (List Nat)) :=
  (List.range t.rows).mapM fun m => do
    let bs ← granRead s.myCore.cbuf s.me.gen s.me.trapMode (256 * (t.base.toNat + m)) (4 * t.cols)
    return (List.range t.cols).map fun c => bytesNat ((bs.drop (4 * c)).take 4)

/-- An element as the drain writes it, with the conversion's flags. -/
def drainElem (out : Fmt) (rm : Rm) (x : Nat) : Nat × NxFlags :=
  if out = .int then (x, 0#5) else roundFV out rm {} (Fmt.value .fp32 x)

/-- Bits of an element written. -/
def drainWidth (out : Fmt) : Nat := if out = .int then 32 else Fmt.width out

/-- Payloads of one row: for INT one per element; else elements packed, the last zero-filled. -/
def rowPays (out : Fmt) (es : List Nat) : List Word :=
  if out = .int then es.map fun e => sext 32 (w64 e)
  else
    let k := 64 / Fmt.width out
    (groupsOf k (es.length + 1) es).map fun g => w64 (buildN (Fmt.width out) (fun j => g.getD j 0) k)

/-- Tokens of a drain queued at the port. -/
def drainTok (out : Fmt) (pay : Word) : MTok := { tok := { (default : Token) with payload := pay, ftag := out } }

/-- The drained elements of the slot's tile, with their flags. -/
def drained (s : State) (t : TR) (out : Fmt) (rm : Rm) : Except Trap (List (List Nat) × NxFlags) := do
  let rows ← tileElems s t
  let res := rows.map fun r => r.map (drainElem out rm)
  return (res.map fun r => r.map (·.1), res.foldl (fun fl r => r.foldl (fun fl e => fl ||| e.2) fl) 0#5)

/-- A drain waits in the engine for the port, with the mark of `portFree`. -/
def mxPortWait (s : State) (op : MxOp) (i : Instr) (mark : Word) : State :=
  (mxPut s { op with issued := (s.mxMine.map (·.issued)).getD s.clk }).holdOn .port i mark

/-- `mx.drn` (R174). DESIGN CHOICE (log 79): to memory the alignment asked for is that of one element; a drain that
covers a whole poisoned line faults POISON like any store to it. -/
def execMxDrn (td : TdReg) (rs1 : XReg) (s : State) : Out :=
  mxExec (.mxDrn td rs1) (some td.toNat) s do
    let i : Instr := .mxDrn td rs1
    let w ← s.xr rs1
    let t ← s.tdr td
    let r ← s.rtr (w.extractLsb' 0 3)
    s.needOwner t
    if fld w 63 40 ≠ 0 ∨ fld w 4 3 ≠ 0 ∨ !([0, 1, 2, 3, 5].contains (fld w 7 5)) then illegal i
    let out := Fmt.ofCode (r.extractLsb' 57 3)
    if t.int32 != (out == .int) then illegal i
    let (rows, fl) ← drained s t out (Rm.ofCode (fld w 7 5))
    let bytes := t.rows * t.cols * drainWidth out / 8
    let op : MxOp := { slot := s.cur, td := some td.toNat, flags := fl, accum := false }
    let flat := rows.flatten
    let e := drainWidth out / 8
    match fld r 61 60 with
    | 0 =>
      let o := fld r 54 0 + fld w 39 8
      need (o + bytes ≤ bufBytes .a) cPERM (w64 o)
      let m ← granWrite s.myCore.abuf s.me.gen o (flat.flatMap (natBytes e))
      return mxQueue (s.modMyCore fun c => c.setBuf .a m) op (cdiv bytes 64 + 12)
    | 1 =>
      let va := sext 55 r + w64 (fld w 39 8)
      let (ps, s) ← checkAll s .w e ((List.range flat.length).map fun k => va + w64 (e * k))
      return mxQueue (writeAll s e (ps.zip flat)) op (cdiv bytes 64 + 12)
    | _ =>
      let sent := match s.me.wait with
        | .resume .port _ _ a => a == 1#64
        | _ => false
      if sent then
        if portFree s s.cur 1#64 then return mxQueue s op 12
        else return mxPortWait s op i 1#64
      else
        match resultRegion s with
        | none => fail cPERM s.openVal
        | some (_, rg) =>
          if rg.wave.isSome || 16 ≤ (portQueue s s.cur).length then return mxPortWait s op i 0#64
          else
            let toks := (rows.flatMap (rowPays out)).map (drainTok out)
            let s := s.modCell (portKey s.cur) fun c => { c with mxpq := c.mxpq ++ toks }
            if portFree s s.cur 1#64 then return mxQueue s op (toks.length + 12)
            else return mxPortWait s op i 1#64

/-! ## gen.scrub (R192, R198) -/

/-- An object scrubbed: data zero, stamp 0x0000; a poisoned one is left. -/
def scrubX (e : XR) : XR := if e.gen = 0xFFFF#16 then e else {}
def scrubV (e : VR) : VR := if e.gen = 0xFFFF#16 then e else {}
def scrubMd (e : MR) : MR := if e.gen = 0xFFFF#16 then e else {}
def scrubTd (e : TR) : TR := if e.gen = 0xFFFF#16 then e else {}
def scrubQ (e : QR) : QR := if e.gen = 0xFFFF#16 then e else {}
def scrubGran (e : Granule) : Granule := if e.gen = 0xFFFF#16 then e else {}

/-- The entries of a collection that `p` selects, scrubbed. -/
def scrubIn {α : Type} (m : AMap α) (p : Nat → Bool) (f : α → α) : AMap α := AMap.mapV m fun k e => if p k then f e else e

/-- Operations of the core's matrix engine that a scrub waits for. -/
def scrubBusy (s : State) (sel : GenSel) : Bool :=
  match sel with
  | .gran .c _ _ => !s.myCore.mxq.isEmpty
  | .td all n => s.myCore.mxq.any fun o => match o.td with | some k => all || k == n | none => false
  | _ => false

/-- A selection of the slot or its core scrubbed. -/
def scrubSel (s : State) (sel : GenSel) : State :=
  let hit (all : Bool) (n k : Nat) : Bool := all || k == n
  match sel with
  | .gran b off count =>
    let n := if count = 0 then (bufBytes b - off) / 64 else count
    s.modMyCore fun c =>
      c.setBuf b (scrubIn (c.gran b) (fun k => decide (off / 64 ≤ k) && decide (k < off / 64 + n)) scrubGran)
  | .x false all n => s.modMe fun v => { v with x := scrubIn v.x (fun k => hit all n k && k != 0) scrubX }
  | .x true all n => s.modMe fun v => { v with sx := scrubIn v.sx (hit all n) scrubX }
  | .v all n => s.modMe fun v => { v with v := scrubIn v.v (hit all n) scrubV }
  | .md all n => s.modMe fun v => { v with md := scrubIn v.md (hit all n) scrubMd }
  | .td all n => s.modMyCore fun c => { c with td := scrubIn c.td (hit all n) scrubTd }
  | .q all n =>
    let s := ((List.range 8).filter (hit all n)).foldl (fun s k => closeQ s s.cur k) s
    s.modMe fun v => { v with q := scrubIn v.q (hit all n) scrubQ }
  | .rt all n => s.modMyCore fun c => { c with rt := scrubIn c.rt (hit all n) scrubX }

/-- The offset and range of a buffer selection. -/
def scrubRange (sel : GenSel) : Except Trap Unit :=
  match sel with
  | .gran b off count => do
    need (off % 64 == 0) cMISALIGN (w64 off)
    need (decide (off + 64 * count ≤ bufBytes b)) cPERM (w64 off)
  | _ => .ok ()

def execGenScrub (sp : Space) (rs1 : XReg) (s : State) : Out :=
  s.commit do
    let i : Instr := .genScrub sp rs1
    s.needSup i
    let w ← s.xr rs1
    let sel ← genSel i true sp w
    scrubRange sel
    if scrubBusy s sel then return s.holdOn .mx i w
    else return (scrubSel s sel).retire

end Sys2Proof.Machine
end

