-- ==== Sys2Proof/Machine/Spawn.lean ====
section
/-! DEFINITION. The spawn instructions (R278-R284), tasks taken from deques (R270-R273), the arbiter (R289-R291) and
the spill engines (R275, R436-R439). -/

namespace Sys2Proof.Machine

/-! ## Frames as the spawn instructions check them (R278) -/

/-- The frame's header words, readable and aligned, in a tier with full/empty bits. -/
def frameRead (s : State) (f : Word) : Except Trap (List Word × State) := do
  need (fld f 5 0 == 0) cMISALIGN f
  let (ws, s) ← homeWords s s.agent f 6
  let (p, s) ← xlat s s.agent (f + 40#64) .r
  frameTier s p (f + 40#64)
  return (ws, s)

/-- The same of a frame whose first `n` bytes are written. -/
def frameWrite (s : State) (f : Word) (n : Nat := 64) : Except Trap (List Word × Phys × State) := do
  need (fld f 5 0 == 0) cMISALIGN f
  let (ws, s) ← homeWords s s.agent f 6
  let (_, s) ← xlat s s.agent f .w
  let (_, s) ← xlat s s.agent (f + w64 (n - 8)) .w
  let (p, s) ← xlat s s.agent (f + 40#64) .w
  frameTier s p (f + 40#64)
  return (ws, p, s)

/-- a0 to a7. -/
def argRegs (s : State) : Except Trap (List Word) := (List.range 8).mapM fun k => s.xr (BitVec.ofNat 5 (10 + k))

/-- The queue a slot serves. -/
def State.myQueue (s : State) : Nat := s.me.own.owner.toNat

/-- A tag-01 pointer's descriptor: TAGPTR for one that fails R66, QUEUE for one that moors nothing. -/
def callDesc (s : State) (p : Word) : Except Trap (Desc × State) := do
  need (descOk p) cTAGPTR p
  let (d, s) ← readDesc s s.agent p
  need (d.moorq != 0#64) cQUEUE p
  return (d, s)

/-- A start token on its way, or the slot waits for a mooring entry (R352) with the frame. -/
def startOrMoor (s : State) (i : Instr) (p f : Word) (sent : State → State) : Except Trap State :=
  match postStart s s.vmid (coveOfSlot s.cur) s.myQueue p f with
  | .sent s => .ok (sent s)
  | .full => .ok (s.holdOn .moor i f)
  | .noRing => .error { cause := cQUEUE, tval := p }
  | .fault t => .error t

/-! ## fork (R279) -/

def Domain.code : Domain → Nat
  | .dflt => 0 | .slot => 1 | .core => 2 | .cove => 3 | .quad => 4 | .device => 5

/-- The parent's counter, one higher; FRAME where it is full. -/
def countChild (s : State) (caller : Word) (f : Word) : Except Trap State := do
  if caller = 0#64 then return s
  else
    let (w, p, s) ← s.homeLoad s.agent (caller + 16#64) .w
    need (joinCount w != 0xFFFFFFFF) cFRAME f
    return s.putHome s.agent p (natBytes 8 (w.toNat + 1))

def execFork (d : Domain) (rs1 rs2 : XReg) (s : State) : Out :=
  s.commit do
    let i : Instr := .fork d rs1 rs2
    let p ← s.xr rs1
    let c ← s.xr rs2
    match s.me.wait with
    | .resume .moor _ _ _ => startOrMoor s i p c State.retire
    | _ =>
      let (ws, q, s) ← frameWrite s c
      need (fld p 1 0 < 2) cTAGPTR p
      let s ← if fld p 1 0 = 1 then (do let (_, s) ← callDesc s p; return s) else (return s)
      need (fld (ws.getD 4 0#64) 15 0 != 0) cFRAME c
      let s := s.releaseAt (coreOf s.cur) .dv
      let s ← s.homeStore s.agent c 0#64
      let s ← s.homeStore s.agent (c + 16#64) 0#64
      let s ← s.homeStore s.agent (c + 40#64) 0#64
      let s ← countChild (s.setEmpty q.pa) (ws.getD 1 0#64) c
      if fld p 1 0 = 1 then startOrMoor s i p c State.retire
      else
        let dom := if d = .dflt then (s.queue s.myQueue).dom else BitVec.ofNat 3 (Domain.code d)
        let e : DqEntry := { ptr := p, frame := c, slot := BitVec.ofNat 3 s.cur, dom := dom, queue := s.myQueue }
        match pushBottom s (coreOf s.cur) e with
        | some s => return s.retire
        | none => fail cQUEUE (w64 s.myQueue)

/-! ## join (R282) -/

/-- JOINWIN.WIN in clk: values below 64 act as 64 (R114). -/
def UserCsrs.window (u : UserCsrs) : Nat := max 64 u.joinwin.toNat

/-- A wait that JOINWIN bounds (R275). -/
def holdJoin (s : State) (k : WaitKind) (i : Instr) (f : Word) : State :=
  let e : Ev := .joinwinExpiry s.cur
  let since := match s.me.wait with | .resume .. => true | _ => false
  let t := s.holdOn k i f
  if since && s.duties.any (fun d => d.work == .ev e) then t
  else (t.dropDuties fun d => d.work == .ev e).after s.me.user.window e

/-- A `join` that waited, or was parked, has had its counter reach 0: it completes, whatever the counter holds by
now (R275, R282). -/
def execJoin (rs1 : XReg) (s : State) : Out :=
  s.commit do
    match s.me.wait with
    | .resume .join _ _ _ => return (s.acquireAt (coreOf s.cur) .dv).retire
    | _ =>
      let f ← s.xr rs1
      let (ws, s) ← frameRead s f
      if joinCount (ws.getD 2 0#64) = 0 then return (s.acquireAt (coreOf s.cur) .dv).retire
      else return holdJoin s .join (.join rs1) f

/-! ## xcall (R280) -/

/-- The result of an `xcall` taken: a0 to a7, and the frame freed; the wait goes on while RESULT is
empty. -/
def takeResult (s : State) (i : Instr) (p f : Word) : Except Trap State := do
  let (q, s) ← xlat s s.agent (f + 40#64) .r
  let s := s.atHome s.agent q
  if !s.isFull q.pa then return holdJoin s .result i f
  else
    let s := s.acquireAt (coreOf s.cur) (if fld p 1 0 = 2 then .sy else .dv)
    let c := fld (s.homeWord q) 5 0
    need (c != 63) cFRAME f
    let (ws, s) ← homeWords s s.agent (f + 64#64) 8
    let s ← freeCheck s s.agent f
    let s ← (List.range 8).foldlM (fun s k =>
      State.setX s (BitVec.ofNat 5 (10 + k)) (if k < c then ws.getD k 0#64 else 0#64)) s
    let s ← freeFrame s s.agent f
    return s.retire

/-- The frame of a call, with its arguments (R280). -/
def callFrame (s : State) (n narg : Nat) (args : List Word) : Except Trap (Word × State) := do
  need (decide (n ≤ 4096)) cFRAME (w64 n)
  let (f, s) ← newFrame s s.agent n (s.me.pc + 4#64) s.me.gen
  let s ← homePuts s s.agent (f + 64#64) (args ++ List.replicate (narg - 8) 0#64)
  return (f, s.releaseAt (coreOf s.cur) .dv)

def execXcall (rs1 : XReg) (s : State) : Out :=
  s.commit do
    let i : Instr := .xcall rs1
    let p ← s.xr rs1
    let waitOn (f : Word) (s : State) : State := holdJoin s .result i f
    match s.me.wait with
    | .resume .moor _ _ f => startOrMoor s i p f (waitOn f)
    | .resume .result _ _ f => takeResult s i p f
    | _ =>
      match fld p 1 0 with
      | 0 =>
        let s ← s.setX 1#5 (s.me.pc + 4#64)
        return s.jumpTo p
      | 1 =>
        let args ← argRegs s
        let (d, s) ← callDesc s p
        let (f, s) ← callFrame s (max 128 d.fsize.toNat) d.narg args
        startOrMoor s i p f (waitOn f)
      | 2 =>
        let args ← argRegs s
        need (callbackQ s s.vmid p).isSome cQUEUE (w64 (fld p 12 2))
        let (f, s) ← callFrame s 128 8 args
        return waitOn f (callbackAppend s (fld p 12 2) f)
      | _ => fail cTAGPTR p

/-! ## xret (R281) -/

/-- RESULT of frame F := 8, full; RETP acted on, but for a return record; the caller's counter. -/
def finishTask (s : State) (vmid cove : Nat) (f retp caller : Word) : State :=
  let ag := s.devAgent vmid cove
  let s := orElse (s.homeStore ag (f + 40#64) 8#64) s
  let s := if fld retp 1 0 = 1 then s else actRetp s vmid cove f retp 0 0#64 .int false
  if caller = 0#64 then s else decJoin s vmid cove caller

def execXret (rs1 : XReg) (s : State) : Out :=
  s.commit do
    let i : Instr := .xret rs1
    let f ← s.xr rs1
    let args ← argRegs s
    let (ws, q, s) ← frameWrite s f 128
    if s.me.inHandler || s.me.sup then illegal i
    need (fld (ws.getD 4 0#64) 15 0 != 0 && !s.isFull q.pa) cFRAME f
    let caller := ws.getD 1 0#64
    let s ← if caller = 0#64 then (return s) else (do let (_, s) ← xlat s s.agent (caller + 16#64) .w; return s)
    let s := s.releaseAt (coreOf s.cur) .dv
    let s ← homePuts s s.agent (f + 64#64) args
    return (finishTask s s.vmid (coveOfSlot s.cur) f (ws.getD 0 0#64) caller).slotIdle s.cur

/-! ## frm.new, frm.free (R283, R284) -/

def execFrmNew (rd rs1 : XReg) (s : State) : Out :=
  s.commit do
    let n ← s.xr rs1
    need (n != 0#64 && decide (n.toNat ≤ 4096)) cFRAME n
    let (f, s) ← newFrame s s.agent n.toNat 0#64 s.me.gen
    let s ← s.setX rd f
    return s.retire

def execFrmFree (rs1 : XReg) (s : State) : Out :=
  s.commit do
    let f ← s.xr rs1
    need (fld f 5 0 == 0) cMISALIGN f
    let s ← freeCheck s s.agent f
    let s ← freeFrame s s.agent f
    return s.retire

/-! ## Assignment (R117) -/

/-- A slot serves a queue: another allocation's registers stay with their stamps, its stream registers are
closed, its messages are discarded. -/
def assignSlot (s : State) (n q : Nat) : State :=
  let v := s.slot n
  let qu := s.queue q
  if v.own.owner.toNat = q ∧ v.own.vmid.toNat = qu.vmid ∧ v.gen = qu.gen then s
  else
    let s := closeAllQ s n
    let old := v.own.vmid.toNat
    let mine (m : OvMsg) : Bool := m.target == n && m.gen == v.gen
    let lost := v.inbox.length + ((s.tenant old).movr.filter mine).length
    let s := (List.range lost).foldl (fun s _ => s.count old .msgDrop) s
    let s := s.modTenant old fun t => { t with movr := t.movr.filter fun m => !mine m }
    let own : SlotOwn := { idle := v.own.idle, vmid := BitVec.ofNat 6 qu.vmid, cls := qu.cls, owner := BitVec.ofNat 11 q }
    s.modSlot n fun v =>
      { v with own := own, gen := qu.gen, trapMode := qu.trapMode, inbox := [], user := {}, trap := {}
               troot := (s.tenant qu.vmid).args.troot, mxTd := 0#3, mxRows := 0#7, masked := false, inHandler := false
               wcnt := 0 }

/-! ## Entries (R271-R273) -/

/-- A slot of a core may take an entry of a deque at a core (R272). -/
def mayTake (q : Queue) (at_ slot : Nat) (e : DqEntry) : Bool :=
  let c := coreOf slot
  match e.dom.toNat with
  | 1 => at_ == c && e.slot.toNat == slot % 8
  | 2 => at_ == c
  | 3 => coveOfCore at_ == coveOfCore c
  | 4 => quadOfCove (coveOfCore at_) == quadOfCove (coveOfCore c)
  | _ => q.mask.getLsbD (coveOfCore c)

/-- The entry nearest the bottom of the queue's deque at the slot's core that it may take. -/
def popEntry (s : State) (q slot : Nat) : Option DqEntry := (s.backlog (coreOf slot) q).find? (mayTake (s.queue q) (coreOf slot) slot)

/-- The other cores with entries of a queue, in increasing number after one, cyclically. -/
def coresAfter (s : State) (q c : Nat) : List Nat :=
  let place (v : Nat) : Nat := (v + 1023 - c) % 1024
  let listed := (AMap.keys s.cores ++ (s.queue q).spilled.map (·.core)).eraseDups
  sortBy (fun a b => decide (place a ≤ place b)) (listed.filter fun v => v != c && !(s.backlog v q).isEmpty)

/-- The victims of a thief of a queue, in order: core by core in each widening step of its domain, within
the cove mask (R272). -/
def victims (s : State) (q slot : Nat) : List Nat :=
  let qu := s.queue q
  let c := coreOf slot
  let others := (coresAfter s q c).filter fun v => qu.mask.getLsbD (coveOfCore v)
  let cove := others.filter fun v => coveOfCore v == coveOfCore c
  let quad := others.filter fun v => coveOfCore v != coveOfCore c && quadOfCove (coveOfCore v) == quadOfCove (coveOfCore c)
  let far := others.filter fun v => quadOfCove (coveOfCore v) != quadOfCove (coveOfCore c)
  match qu.dom.toNat with
  | 3 => cove
  | 4 => cove ++ quad
  | 5 => cove ++ quad ++ far
  | _ => []

/-- The top entry of the first victim whose top entry the thief may take. -/
def stealEntry (s : State) (q slot : Nat) : Option (Nat × DqEntry) :=
  (victims s q slot).findSome? fun v =>
    match (s.backlog v q).getLast? with
    | some e => if mayTake (s.queue q) v slot e then some (v, e) else none
    | none => none

/-- An entry taken from a core, wherever it lies: a spilled one is read back from its ring. -/
def takeEntry (s : State) (core : Nat) (e : DqEntry) : DqEntry × State :=
  if (s.core core).deque.contains e then (e, s.modCore core fun c => { c with deque := c.deque.erase e })
  else
    match (s.queue e.queue).spilled.find? fun p => p.core == core && p.ent == e with
    | some p => unspill s e.queue p
    | none => (e, s)

/-- The home core of a save image. -/
def homeCore (s : State) (vmid i : Nat) : Option Nat := (AMap.get? (s.tenant vmid).saves i).map fun v => coreOf v.slot

/-- The head of the queue's resume list, where its image's home core is the slot's (R273). -/
def resumeHead (s : State) (q slot : Nat) : Option Nat :=
  let vmid := (s.queue q).vmid
  if (s.queue q).spillVa = 0#64 ∨ (s.tenant vmid).saves.isEmpty then none
  else
    match s.homeLoad (s.devAgent vmid 0) (s.queue q).spillVa with
    | .ok (h, _, _) =>
      if h = 0#64 then none
      else
        match AMap.get? (s.tenant vmid).saves (h.toNat - 1) with
        | some sv => if coreOf sv.slot = coreOf slot ∧ (!sv.pin || sv.slot == slot) then some (h.toNat - 1) else none
        | none => none
    | .error _ => none

/-- The head of a resume list removed. -/
def resumePop (s : State) (q i : Nat) : State :=
  let vmid := (s.queue q).vmid
  let ag := s.devAgent vmid 0
  let base := (s.queue q).spillVa
  match s.homeLoad ag (saveVa (s.tenant vmid) i + 0x30#64) with
  | .error _ => s
  | .ok (next, _, s) =>
    let s := orElse (s.homeStore ag base next) s
    if next = 0#64 then orElse (s.homeStore ag (base + 8#64) 0#64) s else s

/-! ## Starting a task (R270) -/

/-- A register that a task's start writes is poisoned: x1, x2 or x10 (R189, R199). -/
def Slot.poisonedStart (v : Slot) : Option Nat := [1, 2, 10].find? fun k => (AMap.getD v.x k {}).gen == 0xFFFF#16

/-- An entry started on a slot: a continuation goes to the spill engine, a task gets a stack; none where the
pool is empty. `lat`: the clk until it issues. A task's start is an acquire of device scope (R233); one that
writes a poisoned register faults POISON at the task's first instruction. -/
def startEntry (s : State) (n : Nat) (e : DqEntry) (lat : Nat) : Option State :=
  let v := s.slot n
  if fld e.ptr 1 0 = 3 then
    some ((s.modSlot n fun v => { v with wait := .saving (e.ptr.toNat / 4), own := { v.own with idle := false } }).after
      (Config.spillClk + lat) (.spillRestore n))
  else
    match takeStack s v.own.vmid.toNat with
    | none => none
    | some (k, sp, s) =>
      let r (w : Word) : XR := { val := w, gen := v.gen }
      let x := AMap.set (AMap.set (AMap.set v.x 1 (r 0#64)) 2 (r sp)) 10 (r e.frame)
      let s := (s.acquireAt (coreOf n) .dv).modSlot n fun v =>
        { v with pc := e.ptr, x := if v.poisonedStart.isSome then v.x else x, sup := false, masked := false, inHandler := false
                 wcnt := 0, wait := if lat = 0 then .run else .done .fill, runSince := s.clk
                 own := { v.own with idle := false, pre := false }
                 task := some { frame := e.frame, stack := some k, queue := e.queue } }
      match v.poisonedStart with
      | some k => some (State.takeTrap { s with cur := n } { cause := cPOISON, tval := regTval 3 k })
      | none => some (if lat = 0 then s else s.after lat (.missFillArrival n))

/-- STACK_WAIT: the entry stays, and the slot tries again at a later boundary. -/
def stackWait (s : State) (n : Nat) : State :=
  (s.count (s.slot n).own.vmid.toNat .stackWait).modSlot n fun v => { v with lastIssue := some s.clk }

/-- An entry of the queue at the slot's own core is taken: the head of the resume list, then the deque's, refilled
where its hardware part is empty (R272, R273). -/
def popTake (s : State) (n q : Nat) : Option (DqEntry × State) :=
  let core := coreOf n
  match resumeHead s q n with
  | some i => some ({ ptr := w64 (i * 4 + 3), frame := 0#64, slot := 0#3, dom := 2#3, queue := q }, resumePop s q i)
  | none =>
    let s := dequeRefill s core q
    (popEntry s q n).map fun e => takeEntry s core e

/-- An entry of the queue is stolen, with the clk that takes (R272). -/
def stealTake (s : State) (n q : Nat) : Option (DqEntry × Nat × State) :=
  (stealEntry s q n).map fun ve =>
    let (e, t) := takeEntry s ve.1 ve.2
    (e, if coveOfCore ve.1 = coveOfSlot n then Config.l2Clk else Config.nearClk, t)

/-- The slot starts work of its queue at its own core; without a stack the entry stays (R270). -/
def popWork (s : State) (n : Nat) : Option State :=
  (popTake s n (s.slot n).own.owner.toNat).map fun et => (startEntry et.2 n et.1 0).getD (stackWait s n)

/-- The slot steals. -/
def stealWork (s : State) (n : Nat) : Option State :=
  (stealTake s n (s.slot n).own.owner.toNat).map fun et => (startEntry et.2.2 n et.1 et.2.1).getD (stackWait s n)

/-- An idle slot of a queue, kept for no other: work dispatched before an unbinding runs on (R476). -/
def idleFor (s : State) (n : Nat) : Bool :=
  let v := s.slot n
  let q := s.queue v.own.owner.toNat
  v.wait == .idle && q.vmid == v.own.vmid.toNat && v.gen == q.gen && (AMap.get? (s.core (coreOf n)).reserve n).isNone

/-- DEQUE_POP. -/
def execDequePop (slot : Nat) (s : State) : Out := .next (if idleFor s slot then (popWork s slot).getD s else s)

/-- DEQUE_STEAL: only where the slot's own core holds nothing it may take. -/
def execDequeSteal (slot : Nat) (s : State) : Out :=
  let q := (s.slot slot).own.owner.toNat
  .next (if idleFor s slot && (popEntry s q slot).isNone && (resumeHead s q slot).isNone then (stealWork s slot).getD s else s)

/-! ## Save images (R437) -/

/-- The CSRs of an image, in order; SLOTID stands last. -/
def imageCsrs : List Nat :=
  [0x800, 0x801, 0x802, 0x803, 0x804, 0x805, 0x806, 0x807, 0x809, 0xCC2, 0x5C0, 0x5C1, 0x5C2, 0x5C3, 0x5C4, 0x5C5, 0x5D0, 0xCC1]

/-- The tags of an image. -/
def imageTags (v : Slot) : List Gen :=
  (List.range 31).map (fun k => (AMap.getD v.x (k + 1) {}).gen)
    ++ (List.range 15).map (fun k => (AMap.getD v.sx (k + 1) {}).gen)
    ++ (List.range 32).map (fun k => (AMap.getD v.v k {}).gen)
    ++ (List.range 8).map (fun k => (AMap.getD v.q k {}).gen)
    ++ (List.range 8).map (fun k => (AMap.getD v.md k {}).gen)

/-- The state word at 0x008. -/
def imageState (s : State) (n : Nat) (pin : Bool) : Word :=
  let v := s.slot n
  w64 (b2n v.sup + b2n v.masked * 2 + b2n v.inHandler * 4 + v.wcnt % 512 * 2 ^ 3 + b2n pin * 2 ^ 12
    + (if pin then n % 8 * 2 ^ 13 + coreOf n * 2 ^ 16 else 0))

/-- The 5,376 bytes of a slot's image; `frame` is the frame waited on, `link` the resume-list link. -/
def imageBytes (s : State) (n : Nat) (pin : Bool) (frame link : Word) : List Byte :=
  let v := s.slot n
  let at_ := { s with cur := n }
  let ws (l : List Word) : List Byte := l.flatMap fun w => natBytes 8 w.toNat
  let head := ws
    [v.pc, imageState s n pin, w64 (b2n v.trapMode * 2 ^ 16 + v.gen.toNat), w64 (SlotOwn.word v.own), frame, w64 s.now, link,
      w64 (coreOf n)]
  let tags := (imageTags v).flatMap fun g => natBytes 2 g.toNat
  let xs := ws ((List.range 31).map fun k => (AMap.getD v.x (k + 1) {}).val)
  let sxs := ws ((List.range 15).map fun k => (AMap.getD v.sx (k + 1) {}).val)
  let mds := (List.range 8).flatMap fun k => natBytes 16 (AMap.getD v.md k {}).val.toNat
  let csrs := ws (imageCsrs.map fun c => (csrRead at_ (BitVec.ofNat 12 c)).getD 0#64)
  let msgs := (List.range 8).flatMap fun k =>
    match v.inbox[k]? with
    | some m => natBytes 8 m.payload.toNat ++ natBytes 8 (2 ^ 63 + b2n m.ovf * 2 ^ 13 + m.sender % 2 ^ 13)
    | none => List.replicate 16 0#8
  let vs := (List.range 32).flatMap fun k => natBytes 128 (AMap.getD v.v k {}).val.toNat
  fixLen 0x100 (head ++ tags) ++ fixLen 0x100 xs ++ fixLen 0x80 sxs ++ fixLen 0x80 mds ++ fixLen 0x100 csrs
    ++ fixLen 0x100 msgs ++ vs

/-- Bytes written at their homes, line by line. -/
def writeRange (ag : Agent) : Nat → State → Word → List Byte → Except Trap State
  | 0, s, _, _ => .ok s
  | fuel + 1, s, va, bs =>
    match bs with
    | [] => .ok s
    | _ =>
      let k := 64 - va.toNat % 64
      match xlat s ag va .w with
      | .error t => .error t
      | .ok (p, s) => writeRange ag fuel (s.putHome ag p (bs.take k)) (va + w64 k) (bs.drop k)

/-- Bytes read at their homes, line by line. -/
def readRange (ag : Agent) : Nat → State → Word → Nat → Except Trap (List Byte × State)
  | 0, s, _, _ => .ok ([], s)
  | fuel + 1, s, va, n =>
    if n = 0 then .ok ([], s)
    else
      let k := min n (64 - va.toNat % 64)
      match xlat s ag va .r with
      | .error t => .error t
      | .ok (p, s) =>
        let s := s.atHome ag p
        match readRange ag fuel s (va + w64 k) (n - k) with
        | .error t => .error t
        | .ok (bs, t) => .ok (s.homeRead p.pa k ++ bs, t)

/-- The registers of an image put into a slot. DESIGN CHOICE (log 74): the image's inbox replaces what reached the
slot's inbox since the save, which is not counted. -/
def imageSlot (v : Slot) (bs : List Byte) : Slot :=
  let word (o : Nat) : Word := bytesWord ((bs.drop o).take 8)
  let tag (k : Nat) : Gen := BitVec.ofNat 16 (bytesNat ((bs.drop (0x40 + 2 * k)).take 2))
  let put {α : Type} (n first : Nat) (f : Nat → α) : AMap α := (List.range n).foldl (fun m k => AMap.set m (first + k) (f k)) []
  let st := word 8
  let own := word 0x18
  let v := imageCsrs.foldl (fun (acc : Nat × Slot) c =>
    (acc.1 + 1, acc.2.csrWrite (BitVec.ofNat 12 c) (word (0x300 + 8 * acc.1)))) (0, v) |>.2
  let msg (k : Nat) : Option InMsg :=
    let w := word (0x408 + 16 * k)
    if bitAt w 63 then some { payload := word (0x400 + 16 * k), sender := fld w 12 0, ovf := bitAt w 13 } else none
  let x : AMap XR := put 31 1 fun k => { val := word (0x100 + 8 * k), gen := tag k }
  let sx : AMap XR := put 15 1 fun k => { val := word (0x200 + 8 * k), gen := tag (31 + k) }
  let vv : AMap VR := put 32 0 fun k => { val := BitVec.ofNat 1024 (bytesNat ((bs.drop (0x500 + 128 * k)).take 128)), gen := tag (46 + k) }
  let q : AMap QR := put 8 0 fun k => { gen := tag (78 + k) }
  let md : AMap MR := put 8 0 fun k => { val := BitVec.ofNat 128 (bytesNat ((bs.drop (0x280 + 16 * k)).take 16)), gen := tag (86 + k) }
  { v with
    pc := word 0, sup := bitAt st 0, masked := bitAt st 1, inHandler := bitAt st 2, wcnt := fld st 11 3
    gen := (word 0x10).extractLsb' 0 16, trapMode := bitAt (word 0x10) 16
    own := { pre := bitAt own 23, idle := false, vmid := own.extractLsb' 16 6, cls := own.extractLsb' 14 2
             owner := own.extractLsb' 0 11 }
    x := x, sx := sx, v := vv, q := q, md := md, inbox := (List.range 8).filterMap msg
    mxTd := (word 0x348).extractLsb' 8 3, mxRows := (word 0x348).extractLsb' 0 7 }

/-! ## Eviction (R436, R438) -/

/-- A task tied to its core: it owns a td, has a bound stream register, or holds locks (R156, R223, R258). -/
def pinned (s : State) (n : Nat) : Bool :=
  let v := s.slot n
  ((s.core (coreOf n)).td.any fun t => t.2.v && t.2.owner.toNat == n % 8 && t.2.gen == v.gen)
    || (v.q.any fun q => q.2.bnd && q.2.gen == v.gen)
    || (match v.task with | some t => t.locks != 0 | none => false)

/-- A slot holds a task that no spill engine is saving or restoring. -/
def occupied (s : State) (n : Nat) : Bool :=
  let v := s.slot n
  v.task.isSome && match v.wait with | .saving _ | .fenced | .idle => false | _ => true

/-- Its task can be saved now: what is in flight is done, or can be withdrawn (R436). -/
def evictable (s : State) (n : Nat) : Bool :=
  let engine (k : WaitKind) : Bool := k == .mx || k == .srp || k == .port
  occupied s n && match (s.slot n).wait with
    | .run => true
    | .hold k _ _ _ | .resume k _ _ _ => !engine k
    | _ => false

/-- A slot as an agent. -/
def State.agentOf (s : State) (n : Nat) : Agent := State.agent { s with cur := n }

/-- The park of R275 as one action at the frame's home: none where the wait is over, or the page is gone. -/
def park (s : State) (n : Nat) (k : WaitKind) (f : Word) (i : Nat) : Option State :=
  let ag := s.devAgent (s.slot n).own.vmid.toNat (coveOfSlot n)
  if k = .join then
    match s.homeLoad ag (f + 16#64) .w with
    | .error _ => none
    | .ok (w, p, s) => if joinCount w = 0 then none else some (s.putHome ag p (natBytes 8 (2 ^ 63 + i * 2 ^ 32 + joinCount w)))
  else
    match xlat s ag (f + 40#64) .w with
    | .error _ => none
    | .ok (p, s) => if s.isFull p.pa then none else (s.homeStore ag f (w64 (i * 4 + 3))).toOption

/-- The wait a saved task goes on with: a `join` that is parked is complete when it resumes (R282), an `xcall` resumes
its wait (R280), everything else executes again from its PC. -/
def savedWait (v : Slot) : Wait :=
  match v.wait with
  | .hold k i t a | .resume k i t a => if k == .join || k == .result || k == .moor then .resume k i t a else .run
  | _ => .run

/-- The frame waited on by a `join` or an `xcall`, else 0. -/
def waitFrame (v : Slot) : Word :=
  match v.wait with
  | .hold .join _ _ a | .hold .result _ _ a => a
  | _ => 0#64

/-- The pages of an image can be written. -/
def imageOk (s : State) (vmid cove i : Nat) : Bool :=
  let ag := s.devAgent vmid cove
  let a := saveVa (s.tenant vmid) i
  match xlat s ag a .w, xlat s ag (a + 5368#64) .w with
  | .ok _, .ok _ => true
  | _, _ => false

/-- The image indices of a tenant in use: those of its images, and of saves that have not begun (R438). -/
def usedIndices (s : State) (vmid : Nat) : List Nat :=
  AMap.keys (s.tenant vmid).saves ++ s.cores.filterMap fun c =>
    match c.2.spill with
    | some j => if (s.slot j.slot).own.vmid.toNat = vmid then some j.index else none
    | none => none

/-- A slot's save begins, with what it has in flight complete or withdrawn: a `join` and an `xcall` park (none where
their wait is over, R275), the save is a release of device scope (R436). -/
def startSave (s : State) (j : SpillJob) : Option State :=
  let n := j.slot
  let v := s.slot n
  let vmid := v.own.vmid.toNat
  let core := coreOf n
  let parked := match v.wait with
    | .hold .join _ _ a => park s n .join a j.index
    | .hold .result _ _ a => park s n .result a j.index
    | _ => some s
  parked.map fun s =>
    let s := s.releaseAt core .dv
    let s := match v.wait with
      | .hold .lock _ _ _ => withdrawWaits s fun w => w.slot == n
      | _ => s
    let pushes := j.push && (match v.wait with | .hold .join .. | .hold .result .. => false | _ => true)
    let sv : Saved :=
      { task := v.task.getD {}, gen := v.gen, slot := n, pin := pinned s n, wait := savedWait v
        q := v.q.filter fun q => q.2.bnd && q.2.gen == v.gen }
    let s := s.modTenant vmid fun te => { te with saves := AMap.set te.saves j.index sv }
    let s := s.modCore core fun c => { c with spill := some { j with push := pushes, begun := true } }
    -- the frame waited on stays beside the slot until the image is written
    (s.modSlot n fun v => { v with wait := .saving j.index, taken := [(0, waitFrame v)] }).after
      Config.spillClk (.spillSaveComplete n)

/-- An eviction begins: the core's spill engine takes an index and saves the slot, once what it has in flight is
complete. None, with SPILL_FAIL counted, where no image is free or the save would fault; none without a count where
the engine is busy. -/
def beginEvict (s : State) (n : Nat) (push : Bool) (next : Option (Option DqEntry) := none) : Bool × State :=
  let vmid := (s.slot n).own.vmid.toNat
  let core := coreOf n
  if (s.core core).spill.isSome || !occupied s n then (false, s)
  else
    match freeIndex s (s.tenant vmid).args.saven.toNat (usedIndices s vmid) with
    | none => (false, s.count vmid .spillFail)
    | some (i, t) =>
      if !imageOk t vmid (coveOfSlot n) i then (false, t.count vmid .spillFail)
      else
        let j : SpillJob := { slot := n, index := i, push := push, begun := false, next := next }
        if evictable t n then
          match startSave t j with
          | none => (false, s)
          | some t => (true, t)
        else (true, (t.modCore core fun c => { c with spill := some j }).after 1 (.spillSaveComplete n))

/-- What an action of a park left is taken back, where a save has failed. -/
def unpark (s : State) (vmid cove : Nat) (f : Word) (i : Nat) : State :=
  let ag := s.devAgent vmid cove
  let ref := w64 (i * 4 + 3)
  if f = 0#64 then s
  else
    match homeWords s ag f 3 with
    | .ok ([retp, _, jn], s) =>
      let s := if retp = ref then orElse (s.homeStore ag f 0#64) s else s
      if joinPark jn && joinCont jn == i then orElse (s.homeStore ag (f + 16#64) (w64 (joinCount jn))) s else s
    | _ => s

/-- The entries that satisfy `p` removed from every deque, its spill area, and the slots kept for them. -/
def dropEntries (s : State) (p : DqEntry → Bool) : State :=
  let kept (r : Option DqEntry) : Option DqEntry := r.filter fun e => !p e
  { s with
    cores := AMap.mapV s.cores fun _ c =>
      { c with deque := c.deque.filter fun e => !p e, reserve := AMap.mapV c.reserve fun _ => kept
               spill := c.spill.map fun j => { j with next := j.next.map kept } }
    queues := AMap.mapV s.queues fun _ q => { q with spilled := q.spilled.filter fun e => !p e.ent } }

/-- Entries of a continuation removed. -/
def dropContinuation (s : State) (vmid i : Nat) : State :=
  dropEntries s fun e => e.ptr == w64 (i * 4 + 3) && (s.queue e.queue).vmid == vmid

/-- An entry taken for a slot that is not to have it goes back onto its deque (R289). -/
def giveBack (s : State) (core : Nat) (next : Option (Option DqEntry)) : State :=
  match next with
  | some (some e) => (pushBottom s core e).getD (s.modCore core fun c => { c with deque := c.deque ++ [e] })
  | _ => s

/-- A slot without its task, which lives on in an image. -/
def Slot.vacate (v : Slot) : Slot :=
  { v with wait := .idle, task := none, taken := [], sup := false, masked := false, inHandler := false, wcnt := 0, inbox := []
           q := v.q.filter fun q => !(q.2.bnd && q.2.gen == v.gen), own := { v.own with idle := true, pre := false } }

/-- The link of an image that is on its queue's resume list already (R273); else 0. -/
def imageLink (s : State) (ag : Agent) (vmid i : Nat) (sv : Saved) : Word :=
  if sv.list then match s.homeLoad ag (saveVa (s.tenant vmid) i + 0x30#64) with | .ok (w, _, _) => w | .error _ => 0#64
  else 0#64

/-- SPILL_SAVE_COMPLETE (R436, R437): the image is written, and the slot is idle, or kept for what evicted it; a failed
save cancels the eviction. A save that has not begun begins where what was in flight is complete. -/
def execSpillSaveComplete (slot : Nat) (s : State) : Out :=
  let core := coreOf slot
  let v := s.slot slot
  let vmid := v.own.vmid.toNat
  match (s.core core).spill with
  | some j =>
    if j.slot ≠ slot then .next s
    else if !j.begun then
      .next (if evictable s slot then (startSave s j).getD (s.modCore core fun c => { c with spill := none })
        else if occupied s slot then s.after 1 (.spillSaveComplete slot)
        else s.modCore core fun c => { c with spill := none })
    else
      let s := s.modCore core fun c => { c with spill := none }
      match AMap.get? (s.tenant vmid).saves j.index with
      | none => .next s
      | some sv =>
        let f := AMap.getD v.taken 0 0#64
        let ag := s.devAgent vmid (coveOfSlot slot)
        let link := imageLink s ag vmid j.index sv
        match writeRange ag 86 s (saveVa (s.tenant vmid) j.index) (imageBytes s slot sv.pin f link) with
        | .error _ =>
          let s := dropContinuation (unpark (s.count vmid .spillFail) vmid (coveOfSlot slot) f j.index) vmid j.index
          let s := s.modTenant vmid fun t => { t with saves := AMap.del t.saves j.index }
          .next (giveBack (s.modSlot slot fun v => { v with wait := sv.wait, taken := [] }) core j.next)
        | .ok s =>
          let s := s.modSlot slot Slot.vacate
          let s := match j.next with
            | some r => s.modCore core fun c => { c with reserve := AMap.set c.reserve slot r }
            | none => s
          .next (if j.push then pushContinuation s vmid (w64 (j.index * 4 + 3)) sv.task.frame else s)
  | none => .next s

/-- SPILL_RESTORE (R439): a device-scope acquire; a failed one ends the task. -/
def execSpillRestore (slot : Nat) (s : State) : Out :=
  match (s.slot slot).wait with
  | .saving i =>
    let core := coreOf slot
    let vmid := (s.slot slot).own.vmid.toNat
    -- the image is still being written
    if s.cores.any fun c => match c.2.spill with | some j => j.index == i && j.slot != slot | none => false then
      .next (s.after 1 (.spillRestore slot))
    else
      match AMap.get? (s.tenant vmid).saves i with
      | none => .next (s.slotIdle slot)
      | some sv =>
        let ag := s.devAgent vmid (coveOfSlot slot)
        let s := s.modTenant vmid fun t => { t with saves := AMap.del t.saves i }
        match readRange ag 86 ((s.acquireAt core .dv).dropOlds (coveOfCore core)) (saveVa (s.tenant vmid) i) 5376 with
        | .error t => .next (endTask (s.modSlot slot fun v => { v with task := some sv.task }) slot t.cause)
        | .ok (bs, s) =>
          let q := sv.q
          .next (s.modSlot slot fun v =>
            let v := imageSlot v bs
            { v with wait := sv.wait, task := some sv.task, runSince := s.clk
                     q := q.foldl (fun m e => AMap.set m e.1 e.2) v.q })
  | _ => .next s

/-- JOINWIN_EXPIRY (R275): the slot is parked, unless its wait is over; without an image it tries again. -/
def execJoinwinExpiry (slot : Nat) (s : State) : Out :=
  let v := s.slot slot
  .next (match v.wait with
    | .hold .join _ _ _ | .hold .result _ _ _ =>
      let (ok, t) := beginEvict s slot false
      if ok then t
      else if (s.core (coreOf slot)).spill.isSome then s.after Config.spillClk (.joinwinExpiry slot)
      else t.after v.user.window (.joinwinExpiry slot)
    | _ => s)

/-! ## The arbiter (R289-R291) -/

/-- The slot is pre-emptable: it has yielded, or waits without a bound (R109, R126-R128, R215, R257, R280). -/
def preemptable (s : State) (n : Nat) : Bool :=
  let v := s.slot n
  occupied s n && (v.own.pre || match v.wait with
    | .hold .msg .. | .hold .sleep .. | .hold .sync .. | .hold .result .. | .hold .moor .. | .hold .lock .. => true
    | _ => false)

/-- Queue `q` has an entry that the slot may pop or steal. -/
def hasWork (s : State) (q n : Nat) : Bool :=
  (popEntry s q n).isSome || (resumeHead s q n).isSome || (stealEntry s q n).isSome

/-- The entry a slot is kept for, or is being evicted for. -/
def keptFor (s : State) (n : Nat) : Option DqEntry :=
  let c := s.core (coreOf n)
  match AMap.get? c.reserve n with
  | some r => r
  | none => match c.spill with | some j => if j.slot = n then j.next.join else none | none => none

/-- The slots that a class holds: those that run its tasks, and those assigned to its queues (R289). -/
def heldBy (s : State) (slots : List Nat) (cls : BitVec 2) : Nat :=
  (slots.filter fun n =>
    match keptFor s n with
    | some e => (s.queue e.queue).cls == cls
    | none => (s.slot n).own.cls == cls && !(s.slot n).own.idle).length

def State.deficit (s : State) (core q : Nat) : Int := AMap.getD (s.core core).deficit q 0
def State.setDeficit (s : State) (core q : Nat) (d : Int) : State :=
  s.modCore core fun c => { c with deficit := AMap.set c.deficit q d }

/-- The queue that a slot is assigned to: the largest deficit, ties to the lowest id. -/
def pickQueue (s : State) (core n : Nat) (a : List Nat) : Option Nat :=
  (a.filter fun q => hasWork s q n).foldl (fun b q =>
    match b with
    | none => some q
    | some o => if s.deficit core o < s.deficit core q then some q else some o) none

/-- An entry of a queue taken for a slot. -/
def takeFor (s : State) (n q : Nat) : Option (DqEntry × State) :=
  match popTake s n q with
  | some r => some r
  | none => (stealTake s n q).map fun r => (r.1, r.2.2)

/-- A slot assigned to a queue: an idle one takes an entry and runs it; for a pre-emptable one an entry is taken, its
task is evicted, and it runs the entry from the next boundary on. False, with nothing taken, where it cannot be
evicted. -/
def giveSlot (s : State) (n q : Nat) : Bool × State :=
  if (s.slot n).own.idle then
    let s := assignSlot s n q
    match popWork s n with
    | some s => (true, s)
    | none => (true, (stealWork s n).getD s)
  else
    match beginEvict s n true (some none) with
    | (false, t) => (false, t)
    | (true, t) =>
      match takeFor t n q with
      | none => (true, t)
      | some (e, t) =>
        (true, t.modCore (coreOf n) fun c => { c with spill := c.spill.map fun j => { j with next := some (some e) } })

/-- The available slots of one class assigned in turn; a queue is charged for a slot it is given. -/
def assignClass (core : Nat) (a : List Nat) (w : Int) : List Nat → State → State
  | [], s => s
  | n :: r, s =>
    match pickQueue s core n a with
    | none => assignClass core a w r s
    | some q =>
      match giveSlot s n q with
      | (true, t) => assignClass core a w r (t.setDeficit core q (t.deficit core q - w))
      | (false, t) => assignClass core a w r t

/-- The slots still available: idle and kept for nothing, or pre-emptable. -/
def available (s : State) (slots : List Nat) : List Nat :=
  let kept (n : Nat) : Bool := (AMap.get? (s.core (coreOf n)).reserve n).isSome
  let leaving (n : Nat) : Bool := match (s.core (coreOf n)).spill with | some j => j.slot == n | none => false
  slots.filter (fun n => (s.slot n).wait == .idle && !kept n)
    ++ slots.filter fun n => (s.slot n).wait != .idle && preemptable s n && !leaving n

/-- The queues of a class that are backlogged at a core, by number. -/
def backlogged (s : State) (core : Nat) (slots : List Nat) (cls : BitVec 2) : List Nat :=
  (sortBy (fun a b => decide (a ≤ b)) ((s.queues.filter fun q => q.2.cls == cls).map (·.1))).filter fun q =>
    (s.queue q).mask.getLsbD (coveOfCore core) && slots.any fun n => hasWork s q n

/-- One class of a boundary. -/
def boundaryClass (core : Nat) (slots : List Nat) (cls : BitVec 2) (s : State) : State :=
  let a := backlogged s core slots cls
  -- a queue that leaves A loses its deficit; one that enters starts at 0
  let s := s.modCore core fun c => { c with deficit := c.deficit.filter fun d => (s.queue d.1).cls != cls || a.contains d.1 }
  let w : Int := a.foldl (fun n q => n + (s.queue q).weight) 0
  let s := assignClass core a w (available s slots) s
  let h : Int := heldBy s slots cls
  a.foldl (fun s q => s.setDeficit core q (s.deficit core q + (s.queue q).weight * h)) s

/-- A slot kept since the boundary before starts the entry it was kept for; without a stack it stays kept. One kept
for class 0 is available. -/
def startKept (s : State) (n : Nat) : State :=
  match AMap.get? (s.core (coreOf n)).reserve n with
  | none => s
  | some r =>
    let free (s : State) : State := s.modCore (coreOf n) fun c => { c with reserve := AMap.del c.reserve n }
    match r with
    | none => free s
    | some e =>
      let t := assignSlot (free s) n e.queue
      match startEntry t n e 0 with
      | some t => t
      | none => stackWait (t.modCore (coreOf n) fun c => { c with reserve := AMap.set c.reserve n (some e) }) n

/-- The running slot of the highest class above 0 that has run longest (R291). -/
def urgentVictim (s : State) (slots : List Nat) : Option Nat :=
  (slots.filter fun n => occupied s n && (s.slot n).own.cls != 0#2).foldl (fun b n =>
    match b with
    | none => some n
    | some o =>
      let (v, u) := (s.slot n, s.slot o)
      if u.own.cls.toNat < v.own.cls.toNat ∨ (u.own.cls = v.own.cls ∧ v.runSince < u.runSince) then some n else some o) none

/-- ROTATION_BOUNDARY (R289): the slots kept, then the classes in order; then the urgent eviction, for class 0 at the
next boundary (R291); PRE is cleared. -/
def execRotationBoundary (core : Nat) (s : State) : Out :=
  let slots := (List.range 8).map (8 * core + ·)
  if (s.core core).fenced then .next s
  else
    let s := boundaryClass core slots 0#2 (slots.foldl startKept s)
    let urgent := (available s slots).isEmpty && !(backlogged s core slots 0#2).isEmpty
    let s := boundaryClass core slots 3#2 (boundaryClass core slots 2#2 (boundaryClass core slots 1#2 s))
    let s := if urgent then match urgentVictim s slots with | some n => (beginEvict s n true (some none)).2 | none => s else s
    let clear (v : Slot) : Slot := { v with own := { v.own with pre := false } }
    .next { s with slots := AMap.mapV s.slots fun n v => if coreOf n = core then clear v else v }

end Sys2Proof.Machine
end

