-- ==== Sys2Proof/Machine/Image.lean ====
section
/-! DEFINITION. Images: block images and their checks (R55-R57, R106, R260, R303, R310, R323, R354-R357, R369, R376,
R377, R379, R409), region records (R72, R73, R450, R452) and the load status (R453). -/

namespace Sys2Proof.Machine

/-! ## Cell kinds of the nodes (R107, R260, R310, R323, R377, R409) -/

/-- The kinds of cell a node may sit on: C, M, A. -/
def nodeKinds : Instr → List Nat
  | .gAdd _ | .gSub _ | .gMul _ | .gDiv _ | .gRem _ | .gAnd _ | .gOr _ | .gXor _ | .gShl _ | .gShr _ | .gSra _
  | .gMin _ | .gMax _ | .gMulh _ | .gTlt _ | .gTle _ | .gTeq _ | .gTne _ | .gTltu _ | .gTleu _ | .gCvt _ | .gQcvt _
  | .gDq _ | .gRng _ | .gMov _ | .gMovi _ | .gNull _ | .gSteer _ | .gMerge _ | .gOmerge _ | .gBro _ | .gTrap _
  | .gInx _ | .gTget _ | .gTset _ | .gPurge _ | .gTnow _ | .gTgate _ => [0, 2]
  | .gFadd _ | .gFsub _ | .gFmul _ | .gFfma _ | .gFdiv _ | .gFsqrt _ | .gFrcp _ | .gFexp2 _ | .gFlog2 _ | .gFmin _
  | .gFmax _ | .gFlt _ | .gFle _ | .gFeq _ | .gDly _ | .gMxp _ => [0]
  | .gSgen _ | .gRpt _ | .gCnt _ | .gCtok _ | .gFin _ => [0, 1, 2]
  | _ => [2]

/-- The port cell that an `mxp` must sit on, by position modulo 4 (R12, R376). -/
def portCell (port : Nat) : Nat × Nat := match port with | 0 => (0, 1) | 1 => (0, 2) | _ => (3, 1)

/-- A node's conditions beside those of its word: its cell, at a position of the region, and its number in the
footprint. -/
def nodeAtOk (i : Instr) (x y cellNo : Nat) : Bool :=
  let kind := cellKind x y
  (nodeKinds i).contains kind &&
  match i with
  | .gSgen n => kind != 2 || n.immField 12 0 == 0
  | .gRpt n => kind == 0 || n.immField 17 17 == 0
  | .gMxp n => (x % 4, y % 4) == portCell (n.immField 17 16)
  | .gFin _ => cellNo == 0
  | _ => true

/-! ## Block images (R55, R56) -/

/-- A block of an image's bytes. -/
def blockOf (image : Word) (bs : List Byte) : Block :=
  let hdr := bytesWord (bs.take 8)
  let n := fld hdr 13 6 + 1
  let nib (i : Nat) : Nat := (bs.getD (64 + i / 2) 0#8).toNat / (if i % 2 = 0 then 1 else 16) % 16
  { hdr := hdr, urg := bitAt (bs.getD 8 0#8) 0, image := image, place := (List.range 128).map nib
    words := (List.range n).map fun i => bytesWord ((bs.drop (128 + 8 * i)).take 8) }

/-- A block image read from its VA: 128 + 8 n bytes. -/
def readBlock (s : State) (ag : Agent) (va : Word) : Except Trap (List Byte × Block × State) :=
  match readRange ag 3 s va 8 with
  | .error t => .error t
  | .ok (h, s) =>
    match readRange ag 20 s va (128 + 8 * (fld (bytesWord h) 13 6 + 1)) with
    | .error t => .error t
    | .ok (bs, s) => .ok (bs, blockOf va bs, s)

/-- Every target of a node. -/
def targetsOf (i : Instr) : List (Nat × Nat) := let n := fieldsOf i; [n.t0, n.t1, n.tm].filterMap target

/-- The reserved header bits of an image, and its placement map (R55-R57). -/
def headerOk (bs : List Byte) (b : Block) : Bool :=
  fld b.hdr 31 30 == 0 && (bs.getD 8 0#8).toNat < 2 && ((bs.drop 9).take 55).all (· == 0#8)
    && ((List.range 128).all fun i =>
      let c := b.place.getD i 0
      if i < b.ninst then c % 4 < b.fw && c / 4 < b.fh else c == 0)
    && ((List.range 16).all fun c => decide (((List.range b.ninst).filter fun i => b.cellNo i == c).length ≤ 8))

/-- A target names a node of the block, and no predicate slot of a node without one. -/
def targetOk (b : Block) (t : Nat × Nat) : Bool :=
  match b.node t.1 with
  | some j => t.2 != 2 || (fieldsOf j).pred != .none
  | none => false

/-- The store conditions of R57 and FWCNT. -/
def storesOk (b : Block) : Bool :=
  let ls := (b.nodes.filter fun p => isStore p.2).map fun p => lsidOf p.2
  ls.eraseDups.length == ls.length && ((List.range 32).all fun k => b.stmask.testBit k == ls.contains k)
    && (b.nodes.filter fun p => match p.2 with | .gFwr _ => true | _ => false).length == b.fwcnt

/-- A stream node (OPC 0xA0-0xA6). -/
def isStreamNode : Instr → Bool
  | .gSgen _ | .gRpt _ | .gCnt _ | .gCtok _ | .gDly _ | .gMxp _ | .gFin _ => true
  | _ => false

/-- The whole-block conditions of R57. -/
def block57 (bs : List Byte) (b : Block) : Bool :=
  headerOk bs b && ((List.range b.ninst).all fun i => (b.node i).isSome)
    && (b.nodes.all fun p => (targetsOf p.2).all (targetOk b)) && storesOk b
    && (b.stream || b.nodes.any fun p => match p.2 with | .gBro _ => true | _ => false)

/-- The nodes reachable from the given ones through any target. -/
def reach (b : Block) : Nat → List Nat → List Nat
  | 0, l => l
  | k + 1, l =>
    let next := (b.nodes.filter fun p => l.contains p.1).flatMap fun p => (targetsOf p.2).map (·.1)
    let new := (next.filter fun i => !l.contains i).eraseDups
    if new.isEmpty then l else reach b k (l ++ new)

/-- No `bro`, `fwr` or store-type node is reachable through the results of an `amo` (R260). -/
def amoOk (b : Block) : Bool :=
  b.nodes.all fun p =>
    match p.2 with
    | .gAmo n =>
      (reach b 128 ([n.t0, n.t1].filterMap target |>.map (·.1))).all fun i =>
        match b.node i with
        | some (.gBro _) | some (.gFwr _) => false
        | some j => !isStore j
        | none => true
    | _ => true

/-- An urgent block (R303); `urgentBlk` says which blocks of the function are urgent. -/
def urgentOk (b : Block) (urgentBlk : Nat → Bool) : Bool :=
  !b.urg || (!b.stream && bitAt b.hdr 1 && fld b.hdr 21 14 == 0 && b.nodes.all fun p =>
    match p.2 with
    | .gLkt _ | .gLkg _ | .gMcomb _ | .gFnew _ | .gFfree _ | .gCall _ | .gRet _ | .gCcall _ | .gIrd _ | .gIwr _ | .gPost _
    | .gGat _ | .gSct _ | .gCpy _ | .gTadv _ | .gProbe _ | .gRec _ => false
    | .gBro n => urgentBlk (n.immField 17 10)
    | _ => true)

/-! ## Stream blocks (R354-R357, R369, R379) -/

/-- A node that a stream block may hold. -/
def streamMay (i : Instr) : Bool :=
  isStreamNode i ||
  match i with
  | .gAdd _ | .gSub _ | .gMul _ | .gMulh _ | .gDiv _ | .gRem _ | .gAnd _ | .gOr _ | .gXor _ | .gShl _ | .gShr _ | .gSra _
  | .gMin _ | .gMax _ | .gTlt _ | .gTle _ | .gTeq _ | .gTne _ | .gTltu _ | .gTleu _ | .gFadd _ | .gFsub _ | .gFmul _
  | .gFfma _ | .gFmin _ | .gFmax _ | .gFdiv _ | .gFsqrt _ | .gFrcp _ | .gFexp2 _ | .gFlog2 _ | .gFlt _ | .gFle _
  | .gFeq _ | .gCvt _ | .gQcvt _ | .gDq _ | .gRng _ | .gMov _ | .gMovi _ | .gFrd _ => true
  | _ => false

/-- Nodes of a footprint cell that satisfy `p`. -/
def Block.countIn (b : Block) (c : Nat) (p : Instr → Bool) : Nat :=
  (b.nodes.filter fun q => b.cellNo q.1 == c && p q.2).length

def isRpt : Instr → Bool | .gRpt _ => true | _ => false
def isCnt : Instr → Bool | .gCnt _ => true | _ => false

/-- The form of a cell, as its `rpt` sets it. -/
def Block.wideCell (b : Block) (c : Nat) : Bool :=
  b.nodes.any fun p => b.cellNo p.1 == c && match p.2 with | .gRpt n => n.immField 17 17 == 1 | _ => false

/-- The interleave of a cell. -/
def Block.ilvCell (b : Block) (c : Nat) : Nat :=
  match b.nodes.find? fun p => b.cellNo p.1 == c && isRpt p.2 with
  | some (_, .gRpt n) => n.immField 16 14 + 1
  | _ => 1

/-- The tag of what a node sends in each step, where its image fixes it. -/
def stepTag (i : Instr) : Option Fmt :=
  let n := fieldsOf i
  match i with
  | .gMov _ | .gDly _ | .gMxp _ => if n.any then none else some n.fmt
  | i => some (outTag i n.fmt)

/-- Bytes of a node's delay line (R369). -/
def lineLen (b : Block) (c : Nat) (n : GNode) : Nat :=
  let g := if b.wideCell c then 32 else 8
  let len := n.immField 9 0 + 1
  if n.immField 17 16 = 1 then (len * (2 * g + 8) + 2 * g) * b.ilvCell c else len * b.ilvCell c * g

/-- The LOC-0 lines of a cell fit f0-f2 and the local store from XBND on; `at_` counts f bytes and the next
store byte. -/
def localLines (b : Block) (c : Nat) : List (Nat × Instr) → Nat × Nat → Bool
  | [], _ => true
  | (_, .gDly n) :: r, (f, o) =>
    if n.immField 15 15 = 1 then localLines b c r (f, o)
    else if f + lineLen b c n ≤ 96 then localLines b c r (f + lineLen b c n, o)
    else
      let start := (o + 63) / 64 * 64
      decide (start + lineLen b c n ≤ 0x1200) && localLines b c r (f, start + lineLen b c n)
  | _ :: r, a => localLines b c r a

/-- Every delay line fits its storage; `xb` gives a cell's XBND. -/
def linesOk (b : Block) (xb : Nat → Nat) : Bool :=
  b.cells.all fun c =>
    let here := b.nodes.filter fun p => b.cellNo p.1 == c
    localLines b c here (0, xb c) && here.all fun p =>
      match p.2 with
      | .gDly n => n.immField 15 15 == 0 || decide (4096 * n.immField 14 11 + lineLen b c n ≤ 0x10000)
      | _ => true

/-- `mxp` with PORT 10. -/
def isPortOut : Instr → Bool
  | .gMxp n => n.immField 17 16 == 2
  | _ => false

/-- One connection of a stream block: from node `i` to slot `dop` of node `j`. -/
def linkOk (b : Block) (bodies : List Nat) (i : Nat) (nd : Instr) (j dop : Nat) : Bool :=
  match b.node j with
  | none => false
  | some k =>
    let step := bodies.contains i
    let body := b.bodySlot j dop
    -- a token of a result port is narrow in a wide cell too (R376)
    (!(step && b.wideCell (b.cellNo i)) || b.cellNo i == b.cellNo j || isPortOut nd)
      && (!(step && body) || (match stepTag nd, bodyTag k dop with | some a, some e => a == e | _, _ => true))
      && (step || !body || (fieldsOf nd).act == .sticky)
      && (match nd with
        | .gCtok _ => (match k with | .gCnt _ => true | _ => false) && dop == 0 && b.cellNo i != b.cellNo j
        | _ => true)

/-- The predicate slot of a body node (R357). -/
def thirdOk (i : Instr) : Bool :=
  match (fieldsOf i).pred with
  | .none => true
  | .onTrue => (match i with | .gFfma _ | .gDly _ => true | _ => false)
  | .onFalse => false

/-- The conditions of a stream block. -/
def streamOk (b : Block) (xb : Nat → Nat) : Bool :=
  if !b.stream then b.nodes.all fun p => !isStreamNode p.2
  else
    let bodies := b.bodies
    let ns := b.nodes
    b.stmask == 0 && b.fwcnt == 0 && ns.all (fun p => streamMay p.2 && (fieldsOf p.2).tm == 0#10)
      && ((ns.filter fun p => match p.2 with | .gFin _ => true | _ => false).map fun p => b.cellNo p.1) == [0]
      && (b.cells.all fun c =>
        !(ns.any fun p => b.cellNo p.1 == c && (bodies.contains p.1 || isStreamNode p.2))
          || (b.countIn c isRpt == 1 && b.countIn c isCnt == 1))
      && (ns.all fun p => (targetsOf p.2).all fun t => linkOk b bodies p.1 p.2 t.1 t.2)
      && (ns.all fun p => !bodies.contains p.1 || thirdOk p.2)
      && (b.cells.all fun c => [0, 1, 2].all fun g =>
        decide (b.countIn c (fun i => match i with | .gSgen n => n.immField 17 16 == g | _ => false) ≤ 1))
      && linesOk b xb

/-! ## Region records (R72) -/

/-- A cell record. -/
structure ImgCell where
  no    : Nat
  x     : Nat
  y     : Nat
  kind  : Nat
  flags : Nat
  n     : Nat
  crc   : BitVec 32
  rest  : Nat
  words : List Word
  deriving DecidableEq, Repr, Inhabited

def ImgCell.isUnused (c : ImgCell) : Bool := c.flags % 2 == 1

/-- Configuration words of a cell: slots with their entries, overlay items, each with its word's index
(R450). -/
structure ImgWords where
  rhdr  : Word := 0#64
  slots : List (Nat × Nat × Word × List Word) := []
  items : List (Nat × Word × Word) := []
  deriving DecidableEq, Repr, Inhabited

/-- A region's image. -/
structure Img where
  va     : Word
  w      : Nat
  h      : Nat
  cells  : List (ImgCell × ImgWords)
  blocks : List (List Byte × Block)
  buoys  : List (List Byte)
  deriving DecidableEq, Repr, Inhabited

/-! ## The load status (R453) -/

/-- A load status word. -/
def loadStatus (cell word reason : Nat) (code : BitVec 8) : Word :=
  w64 (cell % 2 ^ 16 * 2 ^ 32 + word % 2 ^ 16 * 2 ^ 16 + reason * 2 ^ 8 + code.toNat)

/-- Success. -/
def loadOk : Word := loadStatus 0xFFFF 0xFFFF 0 0#8

/-- A failure that is not cell-specific. -/
def badImage (reason : Nat) : Word := loadStatus 0xFFFF 0xFFFF reason cIMAGE

/-- A handle or state that does not allow the load. -/
def badState : Word := loadStatus 0xFFFF 0xFFFF 10 cPERM

/-- The first failure of a list of checks, each with its cell and word. -/
def firstBad (reason : Nat) (l : List (Nat × Nat × Bool)) : Option Word :=
  (l.find? fun q => !q.2.2).map fun q => loadStatus q.1 q.2.1 reason cIMAGE

/-! ## CRC-32C (R452) -/

def crcBit (c : BitVec 32) : BitVec 32 := if c.getLsbD 0 then (c >>> 1) ^^^ 0x82F63B78#32 else c >>> 1

def crcByte (c : BitVec 32) (b : Byte) : BitVec 32 := Nat.repeat crcBit 8 (c ^^^ b.setWidth 32)

def crc32c (bs : List Byte) : BitVec 32 := ~~~(bs.foldl crcByte 0xFFFFFFFF#32)

/-! ## Cell records (R450) -/

/-- A cell record's header. -/
def cellHead (no : Nat) (bs : List Byte) : ImgCell :=
  { no := no, x := (bs.getD 0 0#8).toNat, y := (bs.getD 1 0#8).toNat, kind := (bs.getD 2 0#8).toNat
    flags := (bs.getD 3 0#8).toNat, n := bytesNat ((bs.drop 4).take 4)
    crc := BitVec.ofNat 32 (bytesNat ((bs.drop 8).take 4)), rest := bytesNat ((bs.drop 12).take 4), words := [] }

/-- A cell record read: its words only where their count can be one. -/
def readCell (s : State) (ag : Agent) (no : Nat) (va : Word) : Except Trap (ImgCell × State) :=
  match readRange ag 3 s va 16 with
  | .error t => .error t
  | .ok (hb, s) =>
    let c := cellHead no hb
    if 585 < c.n then .ok (c, s)
    else
      match readRange ag 80 s (va + 16#64) (8 * c.n) with
      | .error t => .error t
      | .ok (bs, s) => .ok ({ c with words := (List.range c.n).map fun k => bytesWord ((bs.drop (8 * k)).take 8) }, s)

/-- Reason 3 of a record. -/
def cellHeadOk (c : ImgCell) : Bool :=
  c.kind == cellKind c.x c.y && (!c.isUnused || (c.n == 0 && c.crc == 0#32)) && decide (c.n ≤ 585)
    && decide (c.flags < 2) && c.rest == 0

/-- Reason 4. -/
def cellCrcOk (c : ImgCell) : Bool := crc32c (c.words.flatMap fun w => natBytes 8 w.toNat) == c.crc

/-- The stream of a record parsed: its parts, and the index of a part that is cut short. -/
def parseSlots (ws : List Word) (rsv : Nat) : List Nat → Nat → List (Nat × Nat × Word × List Word) → Except Nat (Nat × List (Nat × Nat × Word × List Word))
  | [], k, acc => .ok (k, acc)
  | sl :: r, k, acc =>
    if !rsv.testBit sl then parseSlots ws rsv r k acc
    else if ws.length < k + 9 then .error k
    else parseSlots ws rsv r (k + 9) (acc ++ [(k, sl, ws.getD k 0#64, (ws.drop (k + 1)).take 8)])

def parseItems (ws : List Word) (k : Nat) : Nat → Except Nat (List (Nat × Word × Word))
  | 0 => .ok []
  | fuel + 1 =>
    if ws.length ≤ k then .ok []
    else if ws.length < k + 2 then .error k
    else
      match parseItems ws (k + 2) fuel with
      | .error e => .error e
      | .ok l => .ok ((k, ws.getD k 0#64, ws.getD (k + 1) 0#64) :: l)

def parseWords (ws : List Word) : Except Nat ImgWords :=
  match ws with
  | [] => .error 0
  | h :: _ =>
    match parseSlots ws (fld h 15 8) (List.range 8) 1 [] with
    | .error k => .error k
    | .ok (k, slots) =>
      match parseItems ws k (ws.length + 1) with
      | .error k => .error k
      | .ok items => .ok { rhdr := h, slots := slots, items := items }

/-- RHDR fields. -/
def rhdrXB (w : Word) : Nat := fld w 3 0
def rhdrBnum (w : Word) : Nat := fld w 21 16

def rhdrOk (c : ImgCell) (w : Word) : Bool :=
  fld w 63 34 == 0 && fld w 33 28 == c.x && fld w 27 22 == c.y && (rhdrBnum w == 0 || cellKind c.x c.y == 2)
    && fld w 7 4 == 0 && decide (rhdrXB w ≤ 8) && (cellKind c.x c.y != 1 || rhdrXB w == 8)
    && decide (fld w 15 8 < 2 ^ rhdrXB w)

/-- The fields of SW and OW words: block, cell number, footprint origin. -/
structure PlaceWord where
  blk    : Nat
  cellNo : Nat
  boy    : Nat
  box    : Nat
  deriving DecidableEq, Repr, Inhabited

def swPlace (w : Word) : PlaceWord := { blk := fld w 63 56, cellNo := fld w 55 52, boy := fld w 51 46, box := fld w 45 40 }
def owPlace (w : Word) : PlaceWord := { blk := fld w 63 56, cellNo := fld w 52 49, boy := fld w 48 43, box := fld w 42 37 }
def owSlot (w : Word) : Nat := fld w 55 53

/-- The word places its footprint cell on the cell that holds it; `foot` gives the footprint of its block
(none: any). -/
def placeOk (c : ImgCell) (p : PlaceWord) (foot : Option (Nat → Option (Nat × Nat))) : Bool :=
  p.box + p.cellNo % 4 == c.x && p.boy + p.cellNo / 4 == c.y &&
  match foot with
  | none => true
  | some f => match f p.blk with | some (w, h) => decide (p.cellNo % 4 < w) && decide (p.cellNo / 4 < h) | none => false

/-- Reason 5 of one record: its parts, or the failing word. -/
def cellParse (c : ImgCell) (foot : Option (Nat → Option (Nat × Nat))) : Except Nat ImgWords :=
  match parseWords c.words with
  | .error k => .error k
  | .ok p =>
    let bad : List (Nat × Bool) := (0, rhdrOk c p.rhdr)
      :: (p.slots.map fun q => (q.1, fld q.2.2.1 39 0 == 0 && placeOk c (swPlace q.2.2.1) foot))
      ++ p.items.map fun q => (q.1, fld q.2.1 36 0 == 0 && placeOk c (owPlace q.2.1) foot)
    match bad.find? fun q => !q.2 with
    | some q => .error q.1
    | none => .ok p

/-- Reason 6: the entries' per-word conditions; a zero entry holds no node. -/
def entryChecks (c : ImgCell) (p : ImgWords) : List (Nat × Nat × Bool) :=
  p.slots.flatMap fun q =>
    (List.range 8).map fun e =>
      let w := q.2.2.2.getD e 0#64
      (c.no, q.1 + 1 + e, w == 0#64 || match decodeG w with
        | .ok i => nodeAtOk i c.x c.y (swPlace q.2.2.1).cellNo
        | .error _ => false)

/-! ## Reading a region record -/

/-- Records read in row-major order until one is out of place or has a count that cannot be one; the
status of reason 2. -/
def readCells (s : State) (ag : Agent) (w count : Nat) (va : Word) :
    Nat → Nat → Except Trap (List ImgCell × Option Word × Word × State)
  | 0, _ => .ok ([], none, va, s)
  | fuel + 1, k =>
    if count ≤ k then .ok ([], none, va, s)
    else
      match readCell s ag k va with
      | .error t => .error t
      | .ok (c, s) =>
        if c.x ≠ k % w ∨ c.y ≠ k / w then .ok ([], some (loadStatus k 0xFFFF 2 cIMAGE), va, s)
        else if 585 < c.n then .ok ([c], none, va, s)
        else
          match readCells s ag w count (va + w64 (16 + 8 * c.n)) fuel (k + 1) with
          | .error t => .error t
          | .ok (l, st, e, s) => .ok (c :: l, st, e, s)

/-- Consecutive block images of a directory. -/
def readBlocks (s : State) (ag : Agent) : List Word → Except Trap (List (List Byte × Block) × State)
  | [] => .ok ([], s)
  | va :: r =>
    match readBlock s ag va with
    | .error t => .error t
    | .ok (bs, b, s) =>
      match readBlocks s ag r with
      | .error t => .error t
      | .ok (l, s) => .ok ((bs, b) :: l, s)

/-- The items of an image that place a block: SW words and OW words, each with its cell, its word's index,
its slot, and whether it is an overlay. -/
def Img.places (m : Img) : List (ImgCell × Nat × PlaceWord × Nat × Bool) :=
  m.cells.flatMap fun q =>
    (q.2.slots.map fun p => (q.1, p.1, swPlace p.2.2.1, p.2.1, false))
      ++ q.2.items.map fun p => (q.1, p.1, owPlace p.2.1, owSlot p.2.1, true)

/-- The place of a block. -/
def Img.placeOf (m : Img) (blk : Nat) : Option (PlaceWord × Nat × Bool) :=
  (m.places.find? fun q => q.2.2.1.blk == blk).map fun q => q.2.2

/-- XBND that an image gives a footprint cell of a block. -/
def Img.xbOf (m : Img) (p : PlaceWord) (c : Nat) : Nat :=
  match m.cells.find? fun q => q.1.x == p.box + c % 4 && q.1.y == p.boy + c / 4 with
  | some q => 64 * rhdrXB q.2.rhdr
  | none => 0x200

/-- A block of an image obeys every condition of a block image. -/
def blockOk (m : Img) (k : Nat) (bs : List Byte) (b : Block) : Bool :=
  let urgentBlk (n : Nat) : Bool := match m.blocks[n]? with | some q => q.2.urg | none => false
  -- an overlay raises XBND above its slot (R457)
  let xb (c : Nat) : Nat :=
    match m.placeOf k with
    | some (p, sl, ov) => max (m.xbOf p c) (if ov then 64 * (sl + 1) else 0)
    | none => 0
  block57 bs b && amoOk b && urgentOk b urgentBlk && streamOk b xb
    && (match m.placeOf k with
      | none => true
      | some (p, _) => b.nodes.all fun q =>
          let c := b.cellNo q.1
          nodeAtOk q.2 (p.box + c % 4) (p.boy + c / 4) c)

/-- The entries that an image assigns to a footprint cell of a block. -/
def Block.entries (b : Block) (c : Nat) : List Word :=
  fixLen' (((List.range b.ninst).filter fun i => b.cellNo i == c).map fun i => b.words.getD i 0#64)
where
  /-- Eight entries, the unused ones zero. -/
  fixLen' (l : List Word) : List Word := (l ++ List.replicate 8 0#64).take 8

/-- Reason 7 of the cells: OW addresses, the entries of SW words, blocks held twice. -/
def holdChecks (m : Img) : List (Nat × Nat × Bool) :=
  m.cells.flatMap fun q =>
    let once (w : Nat) (p : PlaceWord) (sl : Nat) (ov : Bool) : Bool :=
      (match m.placeOf p.blk with
        | some (p', sl', ov') => p'.box == p.box && p'.boy == p.boy && sl' == sl && ov' == ov
        | none => true)
        && !(m.places.any fun r => r.1.no == q.1.no && r.2.1 < w && r.2.2.1.blk == p.blk)
    (q.2.slots.map fun p =>
      let pw := swPlace p.2.2.1
      let own := match m.blocks[pw.blk]? with | some b => b.2.entries pw.cellNo == p.2.2.2 | none => false
      (q.1.no, p.1, own && once p.1 pw p.2.1 false))
      ++ q.2.items.map fun p =>
        let pw := owPlace p.2.1
        let same := match m.blocks[pw.blk]? with | some b => b.2.image == p.2.2 | none => false
        (q.1.no, if same then p.1 else p.1 + 1, same && once p.1 pw (owSlot p.2.1) true)

/-- The block numbers that `bro` and `fin` name exist. -/
def namesOk (m : Img) (b : Block) : Bool :=
  b.nodes.all fun p =>
    match p.2 with
    | .gBro n | .gFin n => decide (n.immField 17 10 < m.blocks.length)
    | _ => true

/-! ## Buoy bindings (R73) -/

/-- Byte `k` of an entry. -/
def entByte (e : List Byte) (k : Nat) : Nat := (e.getD k 0#8).toNat

def buoyEntOk (m : Img) (k : Nat) (e : List Byte) : Bool :=
  entByte e 0 == k && entByte e 1 < 2 && entByte e 2 < 2 && entByte e 3 < 4 && entByte e 6 == 0 && entByte e 7 == 0
    && bytesNat (e.drop 16) == 0 && (entByte e 3 == 0 || bytesNat ((e.drop 8).take 8) == 0)
    && (if entByte e 1 = 1 then entByte e 4 == 0 && entByte e 5 == 0
      else match m.blocks[entByte e 4]? with | some b => decide (entByte e 5 < b.2.ninst) | none => false)

/-- The cells at which a buoy enters. -/
def Img.buoyCells (m : Img) (k : Nat) : List ImgCell := (m.cells.filter fun q => rhdrBnum q.2.rhdr == k + 1).map (·.1)

/-- The entry of the buoy of a cell. -/
def Img.buoyEnt (m : Img) (p : ImgWords) : Option (List Byte) :=
  if rhdrBnum p.rhdr = 0 then none else m.buoys[rhdrBnum p.rhdr - 1]?

/-- The binding that an engine node requires of its buoy cell (R409). -/
def bindingOk (i : Instr) (e : Option (List Byte)) : Bool :=
  match i with
  | .gPost _ => (match e with | some b => entByte b 1 == 1 && entByte b 3 == 0 | none => false)
  | .gGat _ | .gSct _ | .gCpy _ => (match e with | some b => entByte b 3 == 1 | none => false)
  | _ => true

def bindChecks (m : Img) : List (Nat × Nat × Bool) :=
  m.cells.flatMap fun q => q.2.slots.flatMap fun p =>
    (List.range 8).map fun e =>
      (q.1.no, p.1 + 1 + e, match decodeG (p.2.2.2.getD e 0#64) with
        | .ok i => bindingOk i (m.buoyEnt q.2)
        | .error _ => true)

/-- The same of overlay blocks, whose nodes stand in no record. -/
def overlayBinds (m : Img) : List (Nat × Nat × Bool) :=
  m.cells.flatMap fun q => q.2.items.map fun p =>
    let pw := owPlace p.2.1
    (q.1.no, p.1, match m.blocks[pw.blk]? with
      | some b => b.2.nodes.all fun n => b.2.cellNo n.1 != pw.cellNo || bindingOk n.2 (m.buoyEnt q.2)
      | none => true)

def readBuoys (s : State) (ag : Agent) (va : Word) : Nat → Except Trap (List (List Byte) × State)
  | 0 => .ok ([], s)
  | n + 1 =>
    match readRange ag 2 s va 32 with
    | .error t => .error t
    | .ok (e, s) =>
      match readBuoys s ag (va + 32#64) n with
      | .error t => .error t
      | .ok (l, s) => .ok (e :: l, s)

/-! ## The checks of a record (R453) -/

/-- What a check answers: the status of the first failure, or the image. -/
inductive Checked where
  | bad (status : Word) (s : State)
  | good (m : Img) (s : State)

/-- Reasons 3 to 5 of the records read, in order. -/
def cellReasons (cells : List ImgCell) (foot : Nat → Option (Nat × Nat)) : Except Word (List (ImgCell × ImgWords)) :=
  match firstBad 3 (cells.map fun c => (c.no, 0xFFFF, cellHeadOk c)) with
  | some w => .error w
  | none =>
    match firstBad 4 (cells.map fun c => (c.no, 0xFFFF, cellCrcOk c)) with
    | some w => .error w
    | none =>
      cells.foldr (fun c acc =>
        match (if c.isUnused then .ok {} else cellParse c (some foot)) with
        | .error k => .error (loadStatus c.no k 5 cIMAGE)
        | .ok p =>
          match acc with
          | .error e => .error e
          | .ok l => .ok ((c, p) :: l)) (.ok [])

/-- Reasons 7 and 8 of an image. -/
def imageReasons (m : Img) : Option Word :=
  let ok (r : Nat) (b : Bool) : Option Word := if b then none else some (badImage r)
  let inBlk (e : List Byte) : Bool := entByte e 1 != 0 || decide (entByte e 4 < m.blocks.length)
  [ firstBad 6 (m.cells.flatMap fun q => entryChecks q.1 q.2),
    ok 7 (m.blocks.zipIdx.all fun q => blockOk m q.2 q.1.1 q.1.2),
    firstBad 7 (holdChecks m),
    ok 7 (m.blocks.all (fun q => namesOk m q.2) && m.buoys.all inBlk),
    ok 8 (m.buoys.zipIdx.all fun q => buoyEntOk m q.2 q.1 && (m.buoyCells q.2).length == 1),
    firstBad 8 (bindChecks m),
    firstBad 8 (overlayBinds m) ].findSome? id

/-- Reasons 1 to 8, and 11 for a handle's shape, of a region record. -/
def checkRecord (s : State) (ag : Agent) (va : Word) (shape : Option (Nat × Nat)) : Except Trap Checked :=
  match readRange ag 2 s va 64 with
  | .error t => .error t
  | .ok (hb, s) =>
    let w := 4 * (entByte hb 0 + 1)
    let h := 4 * (entByte hb 1 + 1)
    let nb := entByte hb 5 + 1
    if entByte hb 6 ≠ 0 ∨ entByte hb 7 ≠ 0 ∨ bytesNat (hb.drop 16) ≠ 0 ∨ 32 < w ∨ 32 < h then .ok (.bad (badImage 1) s)
    else if shape.any (· != (w, h)) then .ok (.bad (badImage 11) s)
    else
      let count := bytesNat ((hb.drop 2).take 2)
      match readCells s ag w (min count (w * h)) (va + 64#64) (w * h + 1) 0 with
      | .error t => .error t
      | .ok (_, some st, _, s) => .ok (.bad st s)
      | .ok (cells, none, dir, s) =>
        if count ≠ w * h then .ok (.bad (loadStatus (min count (w * h)) 0xFFFF 2 cIMAGE) s)
        else if cells.any fun c => 585 < c.n then
          .ok (.bad ((firstBad 3 (cells.map fun c => (c.no, 0xFFFF, cellHeadOk c))).getD (badImage 3)) s)
        else
          match firstBad 3 (cells.map fun c => (c.no, 0xFFFF, cellHeadOk c)),
              firstBad 4 (cells.map fun c => (c.no, 0xFFFF, cellCrcOk c)) with
          | some st, _ | none, some st => .ok (.bad st s)
          | none, none =>
            let rd : Except Trap (List (List Byte × Block) × List (List Byte) × State) := do
              let (ds, s) ← readRange ag 40 s dir (8 * nb)
              let (bl, s) ← readBlocks s ag ((List.range nb).map fun k => bytesWord ((ds.drop (8 * k)).take 8))
              let (bu, s) ← readBuoys s ag (va + bytesWord ((hb.drop 8).take 8)) (entByte hb 4)
              return (bl, bu, s)
            match rd with
            | .error t => .error t
            | .ok (bl, bu, s) =>
              let foot (k : Nat) : Option (Nat × Nat) := (bl[k]?).map fun q => (q.2.fw, q.2.fh)
              match cellReasons cells foot with
              | .error st => .ok (.bad st s)
              | .ok cs =>
                let m : Img := { va := va, w := w, h := h, cells := cs, blocks := bl, buoys := bu }
                match imageReasons m with
                | some st => .ok (.bad st s)
                | none => .ok (.good m s)

end Sys2Proof.Machine
end

