-- ==== Sys2Proof/Machine/Placement.lean ====
section
/-! DEFINITION. The placers: region table entries (R449), finding a region (R454, R460), writing cells (R451, R462),
loading (R461), releasing (R464), and the contexts that supervisor code resumes or ends (R422-R424). -/

namespace Sys2Proof.Machine

/-! ## Region table entries (R449) -/

/-- The VA of a region's entry. -/
def entryVa (t : Tenant) (ridx : Nat) : Word := t.args.rtab + w64 (64 * ridx)

/-- ST as the table shows it: a region under release is still placed, or swapped out. -/
def Region.shownSt (rg : Region) : Nat := if rg.st = 5 then 3 else rg.st

/-- A region under the placer's own agent: the tenant's privileges, the region's root. -/
def State.placerAgent (s : State) (rk : RKey) : Agent :=
  let rg := s.region rk
  { s.devAgent rk.vmid (handleCove rg.handle) with troot := rg.troot }

/-- The words of an entry that software may not write, in their places. -/
def entryWords (rg : Region) : List (Nat × Word) :=
  [(0, if rg.st = 0 then 0#64 else rg.handle), (1, w64 (rg.ncfg * 2 ^ 32 + rg.shownSt)), (4, rg.imgva), (5, rg.troot),
    (6, rg.cfgst), (7, w64 rg.qid)]

/-- Words of an entry written at their homes; the table stands under the tenant's default TROOT (R472). A
word that cannot be written is lost. -/
def putEntry (s : State) (rk : RKey) (ws : List (Nat × Word)) : State :=
  ws.foldl (fun s q =>
    orElse (s.homeStore (s.devAgent rk.vmid 0) (entryVa (s.tenant rk.vmid) rk.ridx + w64 (8 * q.1)) q.2) s) s

/-- The placer's entry after a change. -/
def writeEntry (s : State) (rk : RKey) : State := putEntry s rk (entryWords (s.region rk))

/-! ## Finding a region (R454) -/

/-- The cells of a rectangle. -/
def rectCells (x y w h : Nat) : List Nat := (List.range h).flatMap fun j => (List.range w).map fun i => cellKey (x + i) (y + j)

/-- The cells of a region. -/
def Region.keys (rg : Region) : List Nat := rectCells (handleX rg.handle) (handleY rg.handle) (handleW rg.handle) (handleH rg.handle)

/-- The origins of a quadrant for a shape, in search order. -/
def originsOf (quad w h : Nat) : List (Nat × Nat) :=
  (List.range ((64 - h) / 4 + 1)).flatMap fun j => (List.range ((64 - w) / 4 + 1)).map fun i =>
    (64 * (quad % 2) + 4 * i, 64 * (quad / 2) + 4 * j)

/-- Quadrants in search order: the placer's own, then the others. -/
def quadOrder (own : Nat) : List Nat := (List.range 4).map fun k => (own + k) % 4

/-- The candidate origins of a search, in order. -/
def candidates (own : Nat) (quads : Nat → Bool) (w h : Nat) : List (Nat × Nat) :=
  ((quadOrder own).filter quads).flatMap fun q => originsOf q w h

/-- No region holds the cell, and it is not fenced. -/
def cellFree (s : State) (k : Nat) : Bool := let c := s.cell k; c.owner.isNone && !c.fenced

/-- An origin fits a shape: its coves lie in the mask, its cells satisfy `free`, and a fused-off cell stands
only where `fused` permits it, by position in the rectangle. -/
def originFits (s : State) (mask : BitVec 256) (w h : Nat) (free : Nat → Bool) (fused : Nat → Nat → Bool) (o : Nat × Nat) : Bool :=
  (List.range h).all fun j => (List.range w).all fun i =>
    let k := cellKey (o.1 + i) (o.2 + j)
    mask.getLsbD (coveOfXY (o.1 + i) (o.2 + j)) && free k && (!s.fit.fused.contains k || fused i j)

/-- The lowest free entry of a tenant's region table. -/
def freeEntry (s : State) (vmid : Nat) : Option Nat := (List.range 256).find? fun i => (s.region { vmid := vmid, ridx := i }).st == 0

/-- The handle of a region. -/
def mkHandle (ridx x y w h : Nat) (trap : Bool) (gen : Gen) : Word :=
  w64 (ridx * 2 ^ 48 + (h / 4 - 1) * 2 ^ 44 + (w / 4 - 1) * 2 ^ 40 + y / 4 * 2 ^ 35 + x / 4 * 2 ^ 30 + b2n trap * 2 ^ 16 + gen.toNat)

/-- Cells given to a region, or to none. -/
def ownCells (s : State) (keys : List Nat) (o : Option RKey) : State :=
  keys.foldl (fun s k => s.modCell k fun c => { c with owner := o }) s

/-- An entry reserved with its cells, at its reset values. -/
def reserve (s : State) (rk : RKey) (h : Word) (qid : Nat) : State :=
  let rg : Region := { handle := h, st := 1, qid := qid }
  let s := ownCells (s.setRegion rk rg) rg.keys (some rk)
  putEntry s rk (entryWords rg ++ [(2, 0#64), (3, 1000000#64)])

/-- Requests that wait at a placer are tried again. -/
def retryPlacer (s : State) (quad : Nat) : State :=
  if (s.quad quad).reqs.isEmpty then s else s.onceAfter 1 (.placementRequest quad)

/-- Every placer tries again: a release or a fence in one quadrant may let a request of another fit. -/
def retryAll (s : State) : State := (List.range 4).foldl retryPlacer s

/-- A region's cells go free, as they stand, and its entry too where it is released. -/
def freeCells (s : State) (rk : RKey) : State :=
  let rg := s.region rk
  let s := ownCells s rg.keys none
  let s :=
    if rg.st ≠ 5 then s
    else
      let s := s.setRegion rk {}
      writeEntry s rk
  retryAll s

/-! ## Writing cells (R451, R462) -/

/-- The words of a slot as its granule. -/
def slotGranule (ws : List Word) (gen : Gen) : Granule :=
  { data := BitVec.ofNat 512 (bytesNat (ws.flatMap fun w => natBytes 8 w.toNat)), gen := gen }

/-- RHDR with the region's origin. -/
def placedHdr (w : Word) (h : Word) : Word := w ||| w64 (handleY h * 2 ^ 41 + handleX h * 2 ^ 34)

/-- The instruction granules of a loaded cell; the others, stamped 0. -/
def loadedStore (old : AMap Granule) (p : ImgWords) (gen : Gen) : AMap Granule :=
  let xb := rhdrXB p.rhdr
  let data := (AMap.mapV old fun _ e => { e with gen := 0#16 }).filter fun q => decide (xb ≤ q.1)
  (List.range xb).foldr (fun sl m =>
    let ws := match p.slots.find? fun q => q.2.1 == sl with | some q => q.2.2.2 | none => []
    (sl, slotGranule ws gen) :: m) data

/-- WriteCell (R462). -/
def writeCell (c : Cell) (h : Word) (p : ImgWords) : Cell :=
  { c with
    store := loadedStore c.store p (handleGen h)
    mem := AMap.mapV c.mem fun _ e => { e with gen := 0#16 }
    xbnd := 64 * rhdrXB p.rhdr
    rhdr := placedHdr p.rhdr h
    sw := p.slots.map fun q => (q.2.1, q.2.2.1)
    ow := p.items.map fun q => q.2
    ms := c.ms.filter (·.gen == 0xFFFF#16), waitOv := [], lookup := [], loops := [], replies := [], wst := [], defer := [], ovf := []
    crc := none
    locks := AMap.mapV c.locks fun _ l => { abn := l.abn } }

/-- A cell holds a poisoned object. -/
def Cell.poisoned (c : Cell) : Bool :=
  (c.store.any fun q => q.2.gen == 0xFFFF#16) || (c.mem.any fun q => q.2.gen == 0xFFFF#16) || (c.freg.any fun q => q.2.gen == 0xFFFF#16) || c.ms.any (·.gen == 0xFFFF#16)

/-- Reason 12 of a cell to be written. -/
def cellBad (c : Cell) : Option (BitVec 8) := if c.fenced then some cFENCED else if c.poisoned then some cPOISON else none

/-- Reason 9: a fused-off position under a cell that is not UNUSED. -/
def fusedBad (s : State) (h : Word) (cells : List (ImgCell × ImgWords)) : Option Word :=
  firstBad 9 (cells.map fun q => (q.1.no, 0xFFFF, q.1.isUnused || !s.fit.fused.contains (cellAt h q.1.x q.1.y)))

/-- The cells that a load writes: not UNUSED, and not kept from a `cfg.wr` of the same record. -/
def toWrite (s : State) (h : Word) (m : Img) : List (ImgCell × ImgWords) :=
  m.cells.filter fun q => !q.1.isUnused && (s.cell (cellAt h q.1.x q.1.y)).crc != some q.1.crc

/-- The cells of an image written; the status of the first that cannot be (R461): then every cell written is
stamped 0. -/
def writeCells (s : State) (h : Word) (l : List (ImgCell × ImgWords)) : Except (Word × State) State :=
  match l.findSome? fun q => (cellBad (s.cell (cellAt h q.1.x q.1.y))).map fun c => (q.1.no, c) with
  | some (no, code) =>
    let clear (c : Cell) : Cell :=
      { c with store := (AMap.mapV c.store fun _ e => { e with gen := 0#16 }), sw := [], ow := [] }
    let s := (l.filter fun q => decide (q.1.no < no)).foldl (fun s q =>
      s.modCell (cellAt h q.1.x q.1.y) fun c => clear (writeCell c h q.2)) s
    .error (loadStatus no 0xFFFF 12 code, s)
  | none => .ok (l.foldl (fun s q => s.modCell (cellAt h q.1.x q.1.y) fun c => writeCell c h q.2) s)

/-! ## The tables of a loaded region (R451) -/

/-- The block table of an image. -/
def blockTable (m : Img) : AMap Block :=
  m.blocks.zipIdx.map fun q =>
    (q.2, match m.placeOf q.2 with
      | some (p, sl, ov) => { q.1.2 with held := true, resident := !ov, slot := sl, box := p.box, boy := p.boy }
      | none => q.1.2)

/-- A buoy of a `.buoy.bind` entry (R73). -/
def buoyOfEnt (m : Img) (k : Nat) (e : List Byte) : Buoy :=
  let b : Binding := { inward := entByte e 1 == 0, tagged := entByte e 2 == 1, bind := BitVec.ofNat 2 (entByte e 3)
                       sva := bytesWord ((e.drop 8).take 8) }
  let c := (m.buoyCells k).headD default
  { x := c.x, y := c.y, blk := entByte e 4, idx := entByte e 5, img := b, cur := b }

/-- The region after its load: its tables and its image. -/
def loadedRegion (rg : Region) (m : Img) (troot : Word) : Region :=
  { rg with
    st := 3, imgva := m.va, troot := troot, nb := m.blocks.length, blocks := blockTable m
    bdir := m.va, unused := (m.cells.filter fun q => q.1.isUnused).map fun q => cellKey q.1.x q.1.y
    buoys := m.buoys.zipIdx.map fun q => (q.2, buoyOfEnt m q.2 q.1) }

/-- Moored tokens of a descriptor are set on their way (R352). -/
def deliverMoored (s : State) (vmid : Nat) (desc : Word) : State :=
  match readDesc s (s.devAgent vmid 0) desc with
  | .ok (d, s) => if d.moorq = 0#64 then s else s.onceAfter 1 (.moorDelivery vmid desc)
  | .error _ => s

/-- PLACED of a descriptor (R67). -/
def putPlaced (s : State) (rk : RKey) (desc h : Word) : State := orElse (s.homeStore (s.placerAgent rk) (desc + 40#64) h) s

/-- Bind(d) (R461): PLACED names the region, the moored tokens follow. -/
def bindDesc (s : State) (rk : RKey) (desc : Word) : State :=
  let s := s.modRegion rk fun r => if r.fn.contains desc then r else { r with fn := r.fn ++ [desc] }
  deliverMoored (putPlaced s rk desc (s.region rk).handle) rk.vmid desc

/-- A checked image loaded into a reserved region: reasons 9 and 12, the cells, the tables, the entry. -/
def loadImage (s : State) (rk : RKey) (m : Img) (troot : Word) : Word × State :=
  let rg := s.region rk
  match fusedBad s rg.handle m.cells with
  | some st => (st, s)
  | none =>
    match writeCells s rg.handle (toWrite s rg.handle m) with
    | .error (st, s) => (st, s)
    | .ok s =>
      let s := s.modRegion rk fun r => loadedRegion r m troot
      let s := putEntry (writeEntry s rk) rk [(2, 0#64)]
      (loadOk, gRelease s rk .dv)

/-! ## The end of contexts (R333, R424) -/

/-- Every context of a region that has not ended. -/
def contextsOf (s : State) (rk : RKey) : List Ctx :=
  let rg := s.region rk
  let held (c : Cell) : List Ctx :=
    c.ms.map (·.ctx) ++ c.waitOv.map (·.tok.ctx) ++ c.lookup.map (·.tok.ctx) ++ c.locks.filterMap fun l => l.2.holder
  let flying (d : Duty) : Option Ctx :=
    match d.work with
    | .ev (.tokenMatch k t _) | .ev (.buoyTokenArrival k _ t _) => if k = rk then some t.ctx else none
    | _ => none
  let arc (a : ArcRec) : Option Ctx :=
    match a.work with | .ev (.tokenMatch _ t _) => some t.ctx | .node _ f => some f.ik.ctx | _ => none
  let saved := match rg.image with | some m => m.cells.flatMap (fun q => held q.2) ++ m.arcs.filterMap arc | none => []
  let wave := match rg.wave with | some w => w.arcs.filterMap arc | none => []
  let all := (rg.insts.filter fun i => !i.committed).map (·.ik.ctx) ++ rg.parked.map (·.ctx) ++ rg.ovf.map (·.ent.ctx)
    ++ (s.cells.flatMap fun q => if q.2.owner = some rk then held q.2 else []) ++ s.duties.filterMap flying ++ saved ++ wave
  all.eraseDups.filter fun c => (s.tenant rk.vmid).fgen c.frame.toNat == c.fgen

/-- A context ended as `gctx.kill` does: its FAULT word where `write` is set, RESULT 63, RETP; KEEP carries of its
stream instances do not outlive it (R364). -/
def killContext (s : State) (rk : RKey) (c : Ctx) (cause : BitVec 8) (write : Bool) : State :=
  let rg := s.region rk
  let cove := handleCove rg.handle
  let fr := (s.tenant rk.vmid).frameVa c
  let s :=
    if !write then s
    else
      match s.homeStore (s.devAgent rk.vmid cove) (fr + 24#64) (faultWord cause) with
      | .ok s => s
      | .error _ => s.count rk.vmid .trapLost
  let streams := (rg.insts.filter fun i => i.ik.ctx == c && !i.committed && (rg.block i.ik.blk).stream).map (·.ik.blk)
  let s := s.modRegion rk fun r => { r with keeps := r.keeps.filter fun q => !streams.contains (q.1 / (8 * 128 * 16384)) }
  endContext (finishFrame s rk.vmid cove fr 63 cause.toNat 0#64 .int true) rk c

/-- The effects of committed instances performed, in commit order and LSID order. -/
def finishCommitted (s : State) (rk : RKey) : State :=
  let is := sortBy (fun a b => decide (a.com ≤ b.com)) ((s.region rk).insts.filter (·.committed))
  is.foldl (fun s i =>
    (sortBy (fun a b => decide (a.lsid ≤ b.lsid)) (i.pend.filter (!·.done))).foldl (fun s p =>
      match perform s p with
      | .done s => markDone s rk i.ik p
      | .wait s | .held s => s) s) s

/-! ## Release (R464) -/

/-- Work of a region in flight. -/
def ofRegion (rk : RKey) (w : Work) : Bool :=
  match w with
  | .node _ f => f.rk == rk
  | .ev (.tokenMatch k _ _) | .ev (.matchRefill k _ _) | .ev (.countToken k _ _ _) | .ev (.instanceCommit k _)
  | .ev (.commitToken k _ _) | .ev (.gFaultReport k _) | .ev (.controlTokenArrival k _ _ _) | .ev (.streamLoopStart k _ _)
  | .ev (.streamLoopFinish k _ _) | .ev (.tgateDeadline k _ _) | .ev (.overlayLoadComplete k _ _ _) | .ev (.memoryReply k _ _)
  | .ev (.cellSave k _ _) | .ev (.slackWaveEnd k) | .ev (.regionRestore k) | .ev (.buoyTokenArrival k _ _ _) => k == rk
  | _ => false

/-- A cell with no configuration: what it held stays under its stamps. -/
def emptyCell (c : Cell) : Cell :=
  { c with ms := c.ms.filter (·.gen == 0xFFFF#16), waitOv := [], lookup := [], loops := [], replies := [], defer := [], ovf := []
           sw := [], ow := [], mxpq := [], crc := none }

/-- A-cells not marked UNUSED, by their place, whose hand-over tokens a change of configuration awaits
(R344). -/
def handCells (rg : Region) : List Nat := rg.aCells.map fun q => cellKey q.1 q.2

/-- Hand-over tokens on their way to the placer, or the cells at once where the region has no owner. -/
def sendHands (s : State) (rk : RKey) : State :=
  let rg := s.region rk
  let hs := handCells rg
  let s := s.modRegion rk fun r => { r with hand := hs }
  if hs.isEmpty then freeCells s rk
  else hs.foldl (fun s k => s.after (max 1 (k % 128 + k / 128)) (.handoverToken rk (k % 128) (k / 128))) s

/-- Copy commands at a region's buoys lose them: they pause with PERM. -/
def dropBuoyCopies (s : State) (rk : RKey) : State :=
  let h := (s.region rk).handle
  (AMap.keys s.coves).foldl (fun s v =>
    ((s.cove v).cmds.filter fun c => c.rk == some rk && c.node.isNone && c.st != .ending && c.st != .paused).foldl
      (fun s c => copyFault s v c.id { cause := cPERM, tval := h }) s) s

/-- A region released: its contexts end, PLACED goes, its `mxp` queues are discarded, its cells flush and hand
over; a region swapped out holds no cells. -/
def releaseRegion (s : State) (rk : RKey) : State :=
  let rg := s.region rk
  let s := finishCommitted s rk
  let s := (contextsOf s rk).foldl (fun s c => killContext s rk c cFENCED true) s
  let s := rg.fn.foldl (fun s d => putPlaced s rk d 0#64) s
  let s := dropBuoyCopies (s.dropDuties fun d => ofRegion rk d.work) rk
  let queued := s.cells.foldl (fun n q => if q.2.owner = some rk then n + q.2.mxpq.length else n) 0
  let s := (List.range queued).foldl (fun s _ => s.count rk.vmid .staleTag) s
  let s := gRelease s rk .dv
  let s := { s with cells := AMap.mapV s.cells fun _ c => if c.owner = some rk then emptyCell c else c }
  let gen := handleGen rg.handle
  let held := rg.st != 4 || s.cells.any fun q => q.2.owner == some rk
  let s := s.setRegion rk { handle := rg.handle, st := 5, troot := rg.troot, qid := rg.qid, unused := rg.unused, imgva := rg.imgva }
  let s := if rg.st = 3 then sendHands s rk else if held then freeCells s rk else writeEntry (s.setRegion rk {}) rk
  let s := endGeneration s gen
  s.modMgmt fun m => { m with genNews := m.genNews.filter fun p => p.1 != gen }

/-- HANDOVER_TOKEN (R344): with the last one the placer holds, the cells are free. -/
def execHandoverToken (rk : RKey) (x y : Nat) (s : State) : Out :=
  let k := cellKey x y
  let rg := s.region rk
  if !rg.hand.contains k then .next s
  else
    let s := s.modRegion rk fun r => { r with hand := r.hand.erase k }
    .next (if (s.region rk).hand.isEmpty then freeCells s rk else s)

/-! ## The placement instructions (R459) -/

/-- The slot's placer. -/
def myQuad (s : State) : Nat := quadOfSlot s.cur

/-- The slot's own region of a handle: its entry equals bits [55:0], and with `cells` CX and CY are ignored. -/
def handleRegion (s : State) (h : Word) (cells : Bool) : Option RKey :=
  let rk := rkeyOf s.vmid h
  let rg := s.region rk
  let m : Word := if cells then 0x00FFFFFFF801FFFF#64 else 0x00FFFFFFFFFFFFFF#64
  if rg.st ≠ 0 ∧ rg.st ≠ 5 ∧ rg.handle &&& m = h &&& m then some rk else none

/-- Reserved bits of a handle operand (R448): ILLEGAL (R459). -/
def handleOk (h : Word) : Bool := fld h 63 56 == 0 && fld h 29 27 == 0

/-- The instruction completes, and the slot is out of the rotation for `n` clk. -/
def placerDone (s : State) (n : Nat) : State := s.retireFor .placer (max 1 n) (.placerComplete s.cur)

/-- An image operand (R459): the region record and, of a tag-01 pointer, its descriptor. -/
def imageOperand (s : State) (p : Word) : Except Trap (Word × Option Word × State) :=
  if fld p 5 0 = 0 then .ok (p, none, s)
  else if descOk p then
    match readDesc s s.agent p with
    | .ok (d, s) => .ok (d.imgva, some (p &&& ~~~3#64), s)
    | .error t => .error t
  else .error { cause := cMISALIGN, tval := p }

/-- The home latency of a VA. -/
def homeClk (s : State) (va : Word) : Nat :=
  match translate s s.agent va .r with | .ok (p, s) => tierClk (s.tier p.pa) | .error _ => 0

/-- Bytes of the cell records of an image, and of its blocks. -/
def Img.bytes (m : Img) : Nat :=
  m.cells.foldl (fun n q => n + 16 + 8 * q.1.n) 64 + m.blocks.foldl (fun n q => n + q.1.length) 0

/-- PLC_FIND (R460). -/
def execPlcFind (rd rs1 : XReg) (s : State) : Out :=
  s.commit do
    let i : Instr := .plcFind rd rs1
    s.needSup i
    let p ← s.xr rs1
    if fld p 63 48 ≠ 0 ∨ fld p 31 20 ≠ 0 ∨ fld p 15 10 ≠ 0 ∨ 7 < fld p 7 4 ∨ 7 < fld p 3 0 then illegal i
    let w := 4 * (fld p 3 0 + 1)
    let h := 4 * (fld p 7 4 + 1)
    let own := myQuad s
    let inMask (q : Nat) : Bool := if fld p 19 16 = 0 then q == own else (fld p 19 16).testBit q
    let cs := candidates own inMask w h
    let mask := (s.queue s.myQueue).mask
    let fits := originFits s mask w h (cellFree s) fun _ _ => bitAt p 8
    let at_ := cs.findIdx? fits
    let answer (s : State) (v : Word) : Except Trap State := do
      let s ← s.setX rd v
      return placerDone s (64 + match at_ with | some k => k + 1 | none => cs.length)
    let given : Gen := p.extractLsb' 32 16
    let bad := given != 0#16 && (!s.mgmt.genNews.contains (given, s.me.gen)
      || s.regions.any fun q => q.2.st != 0 && handleGen q.2.handle == given)
    match at_, freeEntry s s.vmid with
    | some k, some r =>
      if bad then answer s 0#64
      else
        let go (s : State) (g : Gen) : Except Trap State :=
          let o := cs.getD k (0, 0)
          let hd := mkHandle r o.1 o.2 w h (bitAt p 9) g
          answer (reserve s { vmid := s.vmid, ridx := r } hd s.myQueue) hd
        if given ≠ 0#16 then go s given
        else
          match s.newGen with
          | (some g, s) => go s g
          | (none, s) => return s.holdOn .placer i 0#64
    | _, _ => answer s 0#64

/-- PLC_LOAD (R461). -/
def execPlcLoad (rd rs1 rs2 : XReg) (s : State) : Out :=
  s.commit do
    let i : Instr := .plcLoad rd rs1 rs2
    s.needSup i
    let a ← s.xr rs1
    let h ← s.xr rs2
    if !handleOk h then illegal i
    let (rec_, d, s) ← imageOperand s a
    let answer (s : State) (v : Word) (n : Nat) : Except Trap State := do
      let s ← s.setX rd v
      return placerDone s n
    let bind (rk : RKey) (s : State) : State := match d with | some d => bindDesc s rk d | none => s
    match handleRegion s h true with
    | none => answer s badState 1
    | some rk =>
      let rg := s.region rk
      if rg.st = 3 ∧ rg.imgva = rec_ ∧ d.isSome ∧ rg.wave.isNone then answer (bind rk s) loadOk 1
      else if rg.st ≠ 1 ∧ rg.st ≠ 2 then answer s badState 1
      else
        match ← checkRecord s s.agent rec_ (some (handleW rg.handle, handleH rg.handle)) with
        | .bad st s => answer s st (homeClk s rec_)
        | .good m s =>
          let n := (toWrite s rg.handle m).foldl (fun n q => n + q.1.n) 0
          let (st, s) := loadImage s rk m s.me.troot
          answer (if st = loadOk then bind rk s else s) st (homeClk s rec_ + n / 4)

/-- PLC_REL (R464). -/
def execPlcRel (rs1 : XReg) (s : State) : Out :=
  s.commit do
    let i : Instr := .plcRel rs1
    s.needSup i
    let h ← s.xr rs1
    if !handleOk h then illegal i
    match handleRegion s h false with
    | none => return placerDone s 32
    | some rk => return placerDone (releaseRegion s rk) (32 + (s.region rk).keys.length)

/-- CFGST of the entry that a cell handle names. -/
def putCfgst (s : State) (h st : Word) : State :=
  let rk := rkeyOf s.vmid h
  let s := if (s.region rk).st = 0 then s else s.modRegion rk fun r => { r with cfgst := st }
  putEntry s rk [(6, st)]

/-- Position of a cell handle. -/
def handleCell (h : Word) : Nat × Nat := (fld h 21 17, fld h 26 22)

/-- A region whose cells `cfg.wr` may write (R462). -/
def cfgRegion (s : State) (h : Word) : Option RKey :=
  (handleRegion s h true).filter fun rk => (s.region rk).st == 1 || (s.region rk).st == 2

/-- One more cell in CELLS, or one less. -/
def recount (s : State) (rk : RKey) (c : Cell) (now : Bool) (key : Nat) (crc : Option (BitVec 32)) : State :=
  let s := s.modCell key fun c => { c with crc := crc }
  let was := c.crc.isSome
  s.modRegion rk fun r =>
    { r with ncfg := if now && !was then r.ncfg + 1 else if !now && was then r.ncfg - 1 else r.ncfg }

/-- The checks of a cell record for the cell at a position (R462): its words, or the status. -/
def checkCell (s : State) (h : Word) (c : ImgCell) (key : Nat) : Except Word ImgWords :=
  let (x, y) := handleCell h
  let bad (r w : Nat) (code : BitVec 8) : Except Word ImgWords := .error (loadStatus c.no w r code)
  if c.x ≠ x ∨ c.y ≠ y ∨ handleW h ≤ x ∨ handleH h ≤ y then bad 2 0xFFFF cIMAGE
  else if !cellHeadOk c then bad 3 0xFFFF cIMAGE
  else if !cellCrcOk c then bad 4 0xFFFF cIMAGE
  else
    match (if c.isUnused then .ok {} else cellParse c none) with
    | .error k => bad 5 k cIMAGE
    | .ok p =>
      match firstBad 6 (entryChecks c p) with
      | some st => .error st
      | none =>
        if !c.isUnused && s.fit.fused.contains key then bad 9 0xFFFF cIMAGE
        else
          match cellBad (s.cell key) with
          | some code => bad 12 0xFFFF code
          | none => .ok p

/-- The cell record form of `cfg.wr`: CFGST names the cell of the handle (R497). -/
def cfgRecord (s : State) (h va : Word) : Except Trap State :=
  let (x, y) := handleCell h
  match cfgRegion s h with
  | none => .ok (placerDone (putCfgst s h (loadStatus (handleW h * y + x) 0xFFFF 10 cPERM)) 1)
  | some rk =>
    let rg := s.region rk
    match readCell s s.agent (handleW rg.handle * y + x) va with
    | .error t => .error t
    | .ok (c, s) =>
      let n := homeClk s va + c.n / 4
      let key := cellAt rg.handle x y
      match checkCell s h c key with
      | .error st => .ok (placerDone (putCfgst s h st) n)
      | .ok p =>
        let old := s.cell key
        let s := s.modCell key fun c => writeCell c rg.handle p
        let s := recount s rk old true key (some c.crc)
        let s := s.modRegion rk fun r => { r with st := 2, cfgst := loadOk }
        .ok (placerDone (writeEntry s rk) n)

/-- A cell restamped (R462): poisoned granules stay so. -/
def restampCell (c : Cell) (x y : Nat) (g : Gen) : Cell :=
  let all (m : AMap Granule) (n : Nat) : AMap Granule :=
    (List.range n).map fun k =>
      let e := AMap.getD m k {}
      (k, if e.gen = 0xFFFF#16 then e else { e with gen := g })
  { c with store := all c.store 72, mem := if cellKind x y = 1 then all c.mem 1024 else c.mem
           ms := c.ms.map fun e => if e.gen = 0xFFFF#16 then e else { e with gen := g }
           sw := [], ow := [], xbnd := 0x200 }

/-- The restamp form of `cfg.wr`, which leaves CFGST (R497); a handle that names no cell of a reserved region does
nothing. -/
def cfgRestamp (s : State) (h : Word) (g : Gen) : State :=
  let (x, y) := handleCell h
  match cfgRegion s h with
  | none => placerDone s 1
  | some rk =>
    let rg := s.region rk
    if handleW rg.handle ≤ x ∨ handleH rg.handle ≤ y then placerDone s 1
    else
      let key := cellAt rg.handle x y
      let old := s.cell key
      let s := s.modCell key fun c => restampCell c x y g
      let s := recount s rk old false key none
      placerDone (writeEntry s rk) 1

/-- `cfg.wr` in either form (R462). -/
def cfgWrite (i : Instr) (rs1 rs2 : XReg) (s : State) : Except Trap State := do
  s.needSup i
  let h ← s.xr rs1
  let a ← s.xr rs2
  if !handleOk h then illegal i
  if bitAt a 0 then
    let g := fld a 16 1
    if fld a 63 17 ≠ 0 ∨ g = 0 ∨ 0xFFFD < g then illegal i
    return cfgRestamp s h (BitVec.ofNat 16 g)
  else
    need (fld a 2 0 == 0) cMISALIGN a
    cfgRecord s h a

/-- CFG_WR: the word is that of both forms. -/
def execCfgWr (rs1 rs2 : XReg) (s : State) : Out := s.commit (cfgWrite (.cfgWr rs1 rs2) rs1 rs2 s)

/-- CFG_WR_RESTAMP. -/
def execCfgWrRestamp (rs1 rs2 : XReg) (s : State) : Out := s.commit (cfgWrite (.cfgWrRestamp rs1 rs2) rs1 rs2 s)

/-- CFG_CHK (R463). -/
def execCfgChk (rd rs1 : XReg) (s : State) : Out :=
  s.commit do
    s.needSup (.cfgChk rd rs1)
    let a ← s.xr rs1
    let (rec_, _, s) ← imageOperand s a
    match ← checkRecord s s.agent rec_ none with
    | .bad st s =>
      let s ← s.setX rd st
      return placerDone s (homeClk s rec_)
    | .good m s =>
      let s ← s.setX rd loadOk
      return placerDone s (homeClk s rec_ + m.bytes / 64)

/-- PLACER_COMPLETE: the slot rejoins the rotation. -/
def execPlacerComplete (slot : Nat) (s : State) : Out :=
  .next (s.modSlot slot fun v => match v.wait with | .done .placer => { v with wait := .run } | _ => v)

/-! ## gctx.res and gctx.kill (R422-R424) -/

/-- The parked context of a tenant, with its region. -/
def parkedCtx (s : State) (vmid : Nat) (c : Ctx) : Option (RKey × Parked) :=
  s.regions.findSome? fun q =>
    if q.1 / 256 = vmid ∧ q.2.st ≠ 0 then (q.2.parked.find? fun p => p.ctx == c).map fun p => ({ vmid := vmid, ridx := q.1 % 256 }, p)
    else none

/-- The checks of R422. -/
def gctxCheck (s : State) (i : Instr) (rs1 : XReg) : Except Trap (RKey × Parked × Word × State) := do
  s.needSup i
  let f ← s.xr rs1
  need (fld f 5 0 == 0) cMISALIGN f
  let t := s.tenant s.vmid
  need (t.inHeap f) cPERM f
  let (w, _, s) ← s.homeLoad s.agent (f + 24#64)
  match parkedCtx s s.vmid (t.ctxOf f) with
  | some (rk, p) =>
    need (bitAt w 63) cFRAME f
    return (rk, p, f, s)
  | none => fail cFRAME f

/-- A context goes on (R423): what was kept for it follows at once, its admitted instances fire, its committed
ones perform what is left. -/
def resumeCtx (s : State) (rk : RKey) (p : Parked) : State :=
  let s := s.modRegion rk fun r => { r with parked := r.parked.filter fun q => q.ctx != p.ctx }
  let again : List Duty := p.work.map fun w => { due := s.clk + 1, work := w }
  let s := { s with duties := s.duties ++ again }
  let mine := (s.region rk).insts.filter fun i => i.ik.ctx == p.ctx
  let s := mine.foldl (fun s i =>
    if i.committed then sendCommits s rk i.ik else if i.admitted then activate s rk i.ik else s) s
  settle s rk

def execGctxRes (rs1 : XReg) (s : State) : Out :=
  s.commit do
    let (rk, p, f, s) ← gctxCheck s (.gctxRes rs1) rs1
    need (p.cause != cFENCED) cFENCED f
    let s := s.releaseAt (coreOf s.cur) .dv
    let s ← s.homeStore s.agent (f + 24#64) 0#64
    return (resumeCtx s rk p).retire

def execGctxKill (rs1 : XReg) (s : State) : Out :=
  s.commit do
    let (rk, p, _, s) ← gctxCheck s (.gctxKill rs1) rs1
    let s := s.releaseAt (coreOf s.cur) .dv
    return (settle (killContext s rk p.ctx p.cause false) rk).retire

end Sys2Proof.Machine
end

