-- ==== Sys2Proof/Machine/Wave.lean ====
section
/-! DEFINITION. The placers' own steps: slack waves (R440-R446), restores (R445), requests for a region (R455),
overlay fetches (R457) and the delivery of moored tokens (R352). -/

namespace Sys2Proof.Machine

/-! ## The start of a wave (R440) -/

/-- SLACK_WAVE_START: PLACED goes to 0 and the markers enter; `back` asks for a restore as soon as one
fits. -/
def startWave (s : State) (rk : RKey) (back : Bool) : State :=
  let rg := s.region rk
  if rg.st ≠ 3 ∨ rg.wave.isSome then s
  else
    let s := rg.fn.foldl (fun s d => putPlaced s rk d 0#64) s
    (s.modRegion rk fun r => { r with wave := some { back := back } }).after 1 (.cellSave rk 0 0)

/-! ## Saving cells (R442) -/

/-- Replies whose value is on its way to the cell: it waits for them. -/
def repliesDue (c : Cell) : Bool := c.replies.any fun r => !r.back && r.val.isSome

/-- Every forward arc of a cell holds its marker: its west and north neighbours have saved. -/
def markersIn (rg : Region) (w : Wave) (x y : Nat) : Bool :=
  (x = 0 || w.saved.contains (cellAt rg.handle (x - 1) y)) && (y = 0 || w.saved.contains (cellAt rg.handle x (y - 1)))

/-- CELL_SAVE: the cell's state is fixed from here on; its markers go on, one clk to leave, one to arrive, one
to the next save. -/
def execCellSave (rk : RKey) (x y : Nat) (s : State) : Out :=
  let rg := s.region rk
  match rg.wave with
  | none => .next s
  | some w =>
    let key := cellAt rg.handle x y
    if w.saved.contains key || !markersIn rg w x y then .next s
    else if repliesDue (s.cell key) then .next (s.after 1 (.cellSave rk x y))
    else
      let s := acbFlush s key
      let w := { w with saved := key :: w.saved }
      let s := s.modRegion rk fun r => { r with wave := some w }
      let next (s : State) (x y : Nat) : State :=
        if x < handleW rg.handle ∧ y < handleH rg.handle ∧ markersIn rg w x y then s.after 3 (.cellSave rk x y) else s
      let s := next (next s (x + 1) y) x (y + 1)
      .next (if w.saved.length = rg.keys.length then s.onceAfter 2 (.slackWaveEnd rk) else s)

/-! ## The end of a wave (R443, R444, R446) -/

/-- Work of the region still under way: deadlines may stand open. -/
def waveBusy (s : State) (rk : RKey) : Bool :=
  s.duties.any fun d => ofRegion rk d.work && (match d.work with
    | .ev (.tgateDeadline _ _ _) | .ev (.buoyTokenArrival _ _ _ _) => false
    | _ => true)

/-- An urgent instance of the region is uncommitted. -/
def urgentLeft (rg : Region) : Bool := rg.insts.any fun i => (rg.block i.ik.blk).urg && !i.committed

/-- A granule as a save reads it: zero where it is of another generation than `g`, poisoned where it is poisoned
(R193). -/
def savedGran (g : Gen) (e : Granule) : Granule :=
  if e.gen = 0xFFFF#16 then { data := 0#512, gen := 0xFFFF#16 } else if e.gen = g then e else { data := 0#512, gen := g }

/-- A cell of kind `kind` as it is saved for a region of generation `g`: no instruction store, nothing read ahead; words
whose granule is stale are empty. -/
def savedCell (g : Gen) (kind : Nat) (c : Cell) : Cell :=
  let all (m : AMap Granule) (lo hi : Nat) : AMap Granule := (List.range (hi - lo)).map fun k => (lo + k, savedGran g (AMap.getD m (lo + k) {}))
  { c with
    store := if kind = 1 then [] else all c.store ((c.xbnd + 63) / 64) 72
    mem := if kind = 1 then all c.mem 0 1024 else []
    wst := c.wst.filter fun q => (AMap.getD c.mem (q.1 / 8) {}).gen == g
    freg := (List.range 3).map fun k =>
      let e := AMap.getD c.freg k {}
      (k, if e.gen = 0xFFFF#16 then { val := 0#256, gen := 0xFFFF#16 } else if e.gen = g then e else { val := 0#256, gen := g })
    ms := c.ms.filter fun e => e.gen == g || e.gen == 0xFFFF#16
    loops := c.loops.map fun l => { l with wins := [] }
    sw := [], ow := [] }

/-- The save image of a region: its cells by their place. -/
def regionImage (s : State) (rk : RKey) (w : Wave) : RegImage :=
  let rg := s.region rk
  let cell (q : Nat × Nat) : Nat × Cell :=
    (cellKey q.1 q.2, savedCell rg.gen (cellKind q.1 q.2) (s.cell (cellAt rg.handle q.1 q.2)))
  { cells := rg.xys.map cell, arcs := w.arcs, time := s.now
    poison := rg.xys.any fun q => (s.cell (cellAt rg.handle q.1 q.2)).poisoned }

/-- A request for the restore of a region. -/
def restoreReq (s : State) (rk : RKey) : PlaceReq :=
  let rg := s.region rk
  { vmid := rk.vmid, desc := rg.fn.headD 0#64, troot := rg.troot, queue := rg.qid, cls := (s.queue rg.qid).cls.toNat
    ridx := some rk.ridx }

/-- SLACK_WAVE_END: a device-scope release of the region's contexts; the image is taken, the cells hand over. -/
def execSlackWaveEnd (rk : RKey) (s : State) : Out :=
  let rg := s.region rk
  match rg.wave with
  | none => .next s
  | some w =>
    if w.saved.length < rg.keys.length then .next s
    else
      -- an urgent instance, or work begun before the saves, is still under way
      let busy := { s with duties := s.duties.filter fun d => d.work != .ev (.slackWaveEnd rk) }
      if waveBusy busy rk || urgentLeft rg then .next (s.after 1 (.slackWaveEnd rk))
      else
        let s := gRelease s rk .dv
        let im := regionImage s rk w
        let s := s.modRegion rk fun r => { r with st := 4, wave := none, image := some im }
        let s := { s with cells := AMap.mapV s.cells fun _ c => if c.owner = some rk then emptyCell c else c }
        let s := sendHands (writeEntry s rk) rk
        .next (if w.back then s.askPlacer (handleQuad rg.handle) (restoreReq s rk) else s)

/-! ## Restores (R445) -/

/-- A saved cell on its new place: its loaded words, its data from XBND on, the rest as it was saved, every object stamped
with the region's generation `g` or as poisoned (R193). -/
def restoredCell (g : Gen) (new old : Cell) : Cell :=
  let st (e : Granule) : Granule := if e.gen = 0xFFFF#16 then e else { e with gen := g }
  let data := old.store.filter fun g => decide (max new.xbnd old.xbnd ≤ 64 * g.1)
  let mine := new.store.filter fun g => decide (64 * g.1 < max new.xbnd old.xbnd)
  { old with
    store := mine ++ AMap.mapV data fun _ e => st e
    mem := AMap.mapV old.mem fun _ e => st e
    freg := AMap.mapV old.freg fun _ e => if e.gen = 0xFFFF#16 then e else { e with gen := g }
    ms := old.ms.map fun e => if e.gen = 0xFFFF#16 then e else { e with gen := g }
    xbnd := new.xbnd, rhdr := new.rhdr, sw := new.sw, ow := new.ow, owner := new.owner
    fenced := new.fenced, waitOv := [], acb := [], crc := none, fireAt := new.fireAt, matchAt := new.matchAt
    divTo := new.divTo, sent := new.sent }

/-- What contexts that have ended meanwhile left in a cell. -/
def dropEnded (t : Tenant) (c : Cell) : Cell :=
  let ok (c : Ctx) : Bool := t.fgen c.frame.toNat == c.fgen
  { c with
    ms := c.ms.filter fun e => ok e.ctx || e.gen == 0xFFFF#16
    lookup := c.lookup.filter fun m => ok m.tok.ctx
    defer := c.defer.filter fun w => ok w.f.ik.ctx
    replies := c.replies.filter fun r => ok r.f.ik.ctx
    locks := AMap.mapV c.locks fun _ l => { l with wait := l.wait.filter fun w => ok w.f.ik.ctx } }

/-- The cells of an image put in place, and the tokens held for overlays or for admission sent again. -/
def putCells (s : State) (rk : RKey) (im : RegImage) : State :=
  let rg := s.region rk
  let t := s.tenant rk.vmid
  im.cells.foldl (fun s q =>
    let key := cellAt rg.handle (q.1 % 128) (q.1 / 128)
    let s := s.modCell key fun c => dropEnded t (restoredCell rg.gen c q.2)
    let s := q.2.waitOv.foldl (fun s m => s.after 1 (.tokenMatch rk m.tok m.src)) s
    if (s.cell key).lookup.isEmpty then s else s.onceAfter 1 (.matchRefill rk (q.1 % 128) (q.1 / 128))) s

/-- A place of the region's reservation: the cells go free, and the region stays swapped out. -/
def dropPlace (s : State) (rk : RKey) : State := retryAll (ownCells s (s.region rk).keys none)

/-- REGION_RESTORE: words loaded again from the image, saved state, recorded tokens ahead of new ones; an
acquire of the contexts; then PLACED and the moored tokens. -/
def execRegionRestore (rk : RKey) (s : State) : Out :=
  let rg := s.region rk
  match rg.image with
  | none => .next s
  | some im =>
    if rg.st ≠ 4 ∨ !rg.hand.isEmpty ∨ (s.cell (cellAt rg.handle 0 0)).owner ≠ some rk then .next s
    else
      match checkRecord s (s.placerAgent rk) rg.imgva (some (handleW rg.handle, handleH rg.handle)) with
      | .error _ => .next (dropPlace s rk)
      | .ok (.bad _ s) => .next (dropPlace s rk)
      | .ok (.good m s) =>
        match writeCells s rg.handle (m.cells.filter fun q => !q.1.isUnused) with
        | .error (_, s) => .next (dropPlace s rk)
        | .ok s =>
          let s := putCells s rk im
          let again : List Duty := im.arcs.map fun a => { due := s.clk + 1, work := a.work }
          let s := { s with duties := s.duties ++ again }
          let s := s.modRegion rk fun r => { r with st := 3, image := none }
          -- an acquire of its contexts: no older copy in its new coves serves what they read (R238, R445)
          let s := (s.region rk).coves.foldl (fun s c => s.dropOlds c) s
          let s := writeEntry s rk
          -- tokens of contexts that ended while the region was out pass on their locks
          let t := s.tenant rk.vmid
          let s := lockPassAll s rk (fun l => match l.holder with | some c => t.fgen c.frame.toNat != c.fgen | none => false) true
          let s := rg.fn.foldl (fun s d => bindDesc s rk d) s
          .next (settle s rk)

/-- A region that has moved: cells written back to memory follow it. -/
def moveRegion (rg : Region) (h : Word) : Region :=
  let newCell (k : Nat) : Nat := cellAt h (k % 128 - handleX rg.handle) (k / 128 - handleY rg.handle)
  { rg with handle := h, ovf := rg.ovf.map fun o => { o with cell := newCell o.cell } }

/-! ## Requests (R455) -/

/-- What becomes of a request: it is done, or waits. -/
inductive Asked where
  | done (s : State)
  | wait (s : State)

/-- A region launched from a queue of a lower class, which a request of class `cls` may move. -/
def mayMove (s : State) (cls : Nat) (o : Option RKey) : Bool :=
  match o with
  | none => true
  | some rk =>
    let rg := s.region rk
    rg.st == 3 && rg.launch && decide (cls < (s.queue rg.qid).cls.toNat)

/-- The first origin that fits when regions of lower classes leave; their waves start. -/
def makePlace (s : State) (quad cls : Nat) (mask : BitVec 256) (w h : Nat) (fused : Nat → Nat → Bool) : State :=
  let free (k : Nat) : Bool := let c := s.cell k; !c.fenced && mayMove s cls c.owner
  match (candidates quad (fun _ => true) w h).find? (originFits s mask w h free fused) with
  | none => s
  | some o =>
    (((rectCells o.1 o.2 w h).filterMap fun k => (s.cell k).owner).eraseDups).foldl (fun s rk => startWave s rk true) s

/-- The first origin that fits. -/
def firstFit (s : State) (quad : Nat) (mask : BitVec 256) (w h : Nat) (fused : Nat → Nat → Bool) : Option (Nat × Nat) :=
  (candidates quad (fun _ => true) w h).find? (originFits s mask w h (cellFree s) fused)

/-- A restore: the saved UNUSED cells alone stand on fused-off positions. -/
def askRestore (s : State) (quad : Nat) (r : PlaceReq) (rk : RKey) : Asked :=
  let rg := s.region rk
  if rg.st ≠ 4 then .done s
  else if !rg.hand.isEmpty then .wait s
  else
    let w := handleW rg.handle
    let h := handleH rg.handle
    let mask := (s.queue rg.qid).mask
    let fused (x y : Nat) : Bool := rg.isUnused x y
    match firstFit s quad mask w h fused with
    | none => .wait (makePlace s quad r.cls mask w h fused)
    | some o =>
      let hd := mkHandle rk.ridx o.1 o.2 w h rg.trap rg.gen
      let s := s.modRegion rk fun r => moveRegion r hd
      let s := ownCells s (s.region rk).keys (some rk)
      .done ((writeEntry s rk).after (max 1 (Config.nearClk + rg.keys.length)) (.regionRestore rk))

/-- A place for a function that no region holds yet. A record that cannot be read, or fails its checks, ends
the request (log 26). -/
def askPlace (s : State) (quad : Nat) (r : PlaceReq) (d : Desc) : Asked :=
  let w := 4 * (fld d.shape 3 0 + 1)
  let h := 4 * (fld d.shape 7 4 + 1)
  let ag := { s.devAgent r.vmid (64 * quad) with troot := r.troot }
  match checkRecord s ag d.imgva (some (w, h)) with
  | .error _ => .done s
  | .ok (.bad _ s) => .done s
  | .ok (.good m s) =>
    let mask := (s.queue r.queue).mask
    let unused := (m.cells.filter fun q => q.1.isUnused).map fun q => cellKey q.1.x q.1.y
    let fused (x y : Nat) : Bool := unused.contains (cellKey x y)
    match firstFit s quad mask w h fused, freeEntry s r.vmid with
    | none, _ => .wait (makePlace s quad r.cls mask w h fused)
    | some _, none => .wait s
    | some o, some ridx =>
      match s.newGen with
      | (none, s) => .wait s
      | (some g, s) =>
        let rk : RKey := { vmid := r.vmid, ridx := ridx }
        let s := reserve s rk (mkHandle ridx o.1 o.2 w h (d.flags % 2 == 1) g) r.queue
        let (st, s) := loadImage s rk m r.troot
        if st = loadOk then .done (bindDesc (s.modRegion rk fun rg => { rg with launch := true }) rk r.desc)
        else .done (freeCells (s.modRegion rk fun rg => { rg with st := 5 }) rk)

/-- A tenant's region that a descriptor is bound to. -/
def boundRegion (s : State) (vmid : Nat) (desc : Word) : Option RKey :=
  (s.regions.find? fun q => q.1 / 256 == vmid && q.2.st != 0 && q.2.st != 5 && q.2.fn.contains desc).map fun q =>
    { vmid := vmid, ridx := q.1 % 256 }

/-- One request tried. -/
def askOne (s : State) (quad : Nat) (r : PlaceReq) : Asked :=
  match r.ridx with
  | some k => askRestore s quad r { vmid := r.vmid, ridx := k }
  | none =>
    match boundRegion s r.vmid r.desc with
    | some rk => if (s.region rk).wave.isSome then .wait s else askRestore s quad r rk
    | none =>
      match readDesc s (s.devAgent r.vmid (64 * quad)) r.desc with
      | .error _ => .done s
      | .ok (d, s) => if d.placed ≠ 0#64 then .done s else askPlace s quad r d

/-- PLACEMENT_REQUEST: the requests that wait at a placer, in arrival order. -/
def execPlacementRequest (quad : Nat) (s : State) : Out :=
  .next ((s.quad quad).reqs.foldl (fun s r =>
    match askOne s quad r with
    | .done s => s.modQuad quad fun q => { q with reqs := q.reqs.erase r }
    | .wait s => s) s)

/-! ## Overlays (R457) -/

/-- The tokens held for a slot of a cell, taken out. -/
def takeOver (s : State) (key slot : Nat) : List MTok × State :=
  let mine (m : MTok) : Bool := m.tok.dslot.toNat == slot
  ((s.cell key).waitOv.filter mine, s.modCell key fun c => { c with waitOv := c.waitOv.filter fun m => !mine m })

/-- The instances of held tokens fault; the tokens are matched again when the context resumes. -/
def overlayFault (s : State) (rk : RKey) (blk : Nat) (ms : List MTok) (cause : BitVec 8) (addr : Word) : State :=
  ms.foldl (fun s m =>
    let (i, s) := ensureInst s rk blk m
    s.gFault rk { ik := i.ik, cause := cause, addr := addr, idx := m.tok.didx.toNat, x := m.tok.dx.toNat
                  y := m.tok.dy.toNat, work := [.ev (.tokenMatch rk m.tok m.src)] }) s

/-- The slot of a cell filled: XBND raised over it, the granules passed over stamped 0 where they are not poisoned, the
entries written. -/
def fillSlot (c : Cell) (slot : Nat) (ow : Word) (ws : List Word) (gen : Gen) : Cell :=
  let xb := max c.xbnd (64 * (slot + 1))
  let pass := (List.range (xb / 64)).filter fun g => decide (c.xbnd ≤ 64 * g)
  let m := pass.foldl (fun m g => 
    let e := AMap.getD m g {}
    if e.gen = 0xFFFF#16 then m else AMap.set m g { e with gen := 0#16 }) c.store
  { c with xbnd := xb, store := AMap.set m slot (slotGranule ws gen), sw := AMap.set c.sw slot ow }

/-- OVERLAY_LOAD_COMPLETE. -/
def execOverlayLoadComplete (rk : RKey) (x y slot : Nat) (s : State) : Out :=
  let rg := s.region rk
  let key := s.cellOf rk x y
  let c := s.cell key
  if rg.st ≠ 3 ∨ (AMap.get? c.sw slot).isSome then .next s
  else
    let blk := (rg.blockAt x y slot).getD 0
    let (ms, s) := takeOver s key slot
    let miss (s : State) : Out := .next (settle (overlayFault s rk blk ms cOVERLAY_MISS (w64 blk)) rk)
    match c.ow.find? fun q => owSlot q.1 == slot && (owPlace q.1).blk == blk with
    | none => miss s
    | some (ow, va) =>
      match readBlock s (s.placerAgent rk) va with
      | .error _ => miss s
      | .ok (bs, b, s) =>
        if !block57 bs b then miss s
        else if (AMap.getD c.store slot {}).gen = 0xFFFF#16 then
          .next (settle (overlayFault s rk blk ms cPOISON (w64 (64 * slot))) rk)
        else
          let s := s.modCell key fun c => fillSlot c slot ow (b.entries (owPlace ow).cellNo) rg.gen
          .next (settle (ms.foldl (fun s m => arrive s rk m) s) rk)

/-! ## Moored tokens (R350, R352) -/

/-- A moored token of a function on its way, as from another cove of the region's quadrant (R518): a start token to the
entry buoy, a return token through it to the cell it names. A malformed one goes by R59; one of a context that has ended is
discarded and counts in DROPS too (R350, R351). -/
def sendMoored (s : State) (rk : RKey) (ag : Agent) (desc : Word) (d : Desc) (ws : List Word) : State :=
  match tokenOf (ws.getD 0 0#64) (ws.getD 1 0#64) (ws.getD 2 0#64) with
  | none => badToken s rk (ws.getD 2 0#64)
  | some t =>
    if (s.tenant rk.vmid).fgen t.ctx.frame.toNat ≠ t.ctx.fgen then staleAt (ringDrop s ag d.moorq) rk t none (some desc)
    else if t.dx = 0#6 ∧ t.dy = 0#6 ∧ t.dslot = 0#3 ∧ t.didx = 0#7 ∧ t.dop = 0#2 then
      s.after Config.meshQuad (.buoyTokenArrival rk d.entry t none)
    else s.after (Config.meshQuad + buoyHops (s.region rk) d.entry t) (.tokenMatch rk t none)

/-- MOOR_DELIVERY: the oldest entry of a mooring queue, while its function is placed. -/
def execMoorDelivery (vmid : Nat) (desc : Word) (s : State) : Out :=
  let ag := s.devAgent vmid 0
  match readDesc s ag desc with
  | .error _ => .next s
  | .ok (d, s) =>
    let rk := rkeyOf vmid d.placed
    let rg := s.region rk
    if d.placed = 0#64 ∨ d.moorq = 0#64 ∨ rg.st ≠ 3 ∨ rg.wave.isSome then .next s
    else
      match ringPeek s ag d.moorq 3 with
      | none => .next s
      | some ws =>
        let s := settle (sendMoored (ringPop s ag d.moorq) rk ag desc d ws) rk
        .next (if (ringPeek s ag d.moorq 3).isSome then s.onceAfter 1 (.moorDelivery vmid desc) else s)

end Sys2Proof.Machine
end

