-- ==== Sys2Proof/Machine/Launch.lean ====
section
/-! DEFINITION. The host's side of the queues: ingress (R470), launch packets (R287, R288), host memory accesses
(R247, R468, R476), TSYNC (R485) and MSI-X (R466, R471). -/

namespace Sys2Proof.Machine

/-! ## Windows and registers (R467, R470) -/

/-- PACKET_INGRESS: bytes 56-63 of a slot written. -/
def execPacketIngress (q slot : Nat) (w : Word) (s : State) : Out :=
  .next (slotWrite s q (64 * slot + 56) (natBytes 8 w.toNat))

/-- QUEUE_WINDOW_WRITE: bytes of a window that do not make an ingress token. -/
def execQueueWindowWrite (q off : Nat) (data : List Byte) (s : State) : Out := .next (windowWrite (data.length + 1) s q off data)

/-- TSYNC_WRITE (R485): the pair takes effect at its second word. -/
def execTsyncWrite (ptm t1588 : Word) (s : State) : Out := .next (tsyncPut (tsyncPut s false ptm) true t1588)

/-- REGISTER_WRITE_IGNORED (R2, R467): a write to an offset that ignores writes. -/
def execRegisterWriteIgnored (_off : Nat) (s : State) : Out := .next s

/-- MSIX_UNMASK (R471): a vector raised while it was masked is sent once. -/
def execMsixUnmask (fn vec : Nat) (s : State) : Out :=
  let v : Msix := { fn := fn, vec := vec }
  .next (s.modMgmt fun m =>
    { m with masked := m.masked.erase v, pending := m.pending.filter (· != v)
             sent := if m.pending.contains v then m.sent ++ [v] else m.sent })

/-! ## Host accesses -/

/-- The PA that a host access names: addresses from 2^52 on are bytes of BAR4, whose 1 GiB windows map to a
tenant's IPA and its stage 2 (R466, R476); `none` where nothing is mapped. -/
def hostPa (s : State) (write : Bool) (a : Nat) : Option Nat :=
  if a < 2 ^ 52 then some a
  else
    let off := a - 2 ^ 52
    match AMap.get? s.mgmt.windows (off / 2 ^ 30) with
    | none => none
    | some w =>
      let ipa := w.ipa.toNat + off % 2 ^ 30
      match walk2 s none ipa (fld (s.tenant w.vmid).args.s2root 51 0) 3 with
      | .error _ => none
      | .ok (l, _) => if bitAt l.bits (if write then 2 else 1) then some (l.pa + ipa % 2 ^ l.size) else none

/-- A host's write of the RESULT of a parked `xcall`, at PA `pa`: RETP is cleared, and the continuation is pushed
(R275, R280). -/
def hostWakes (s : State) (pa n : Nat) : State :=
  (s.tenants.flatMap fun t => t.2.saves.map fun v => (t.1, v)).foldl (fun s t =>
    let (vmid, i, sv) := t
    match sv.wait with
    | .resume .result _ _ f =>
      let ag := s.devAgent vmid (coveOfSlot sv.slot)
      match xlat s ag (f + 40#64) .r, s.homeLoad ag f .w with
      | .ok (p, _), .ok (retp, _, t) =>
        if pa < p.pa + 8 ∧ p.pa < pa + n ∧ retp = w64 (i * 4 + 3) then
          pushContinuation (orElse (t.homeStore ag f 0#64) t) vmid retp f
        else s
      | _, _ => s
    | _ => s) s

/-- HOST_MEMORY_ACCESS: a system-scope access. A read leaves the state; a write is performed at the home, in the
register window under its own rules, and nowhere where no memory exists. -/
def execHostMemoryAccess (write : Bool) (pa n : Nat) (data : List Byte) (s : State) : Out :=
  let _ := n
  if !write then .next s
  else
    match hostPa s write pa with
    | none => .next s
    | some p => .next (if s.tier p = .none then s else hostWakes (s.homeWrite none p data) p data.length)

/-! ## Launch packets (R287, R288) -/

/-- A launch packet's fields. -/
structure LaunchPkt where
  kind  : Nat
  hw    : Nat
  hh    : Nat
  fptr  : Word
  frame : Word
  deps  : List Word
  done  : Word
  dead  : Word
  deriving DecidableEq, Repr, Inhabited

def launchPkt (bs : List Byte) : LaunchPkt :=
  let w (k : Nat) : Word := pktWord bs k
  { kind := fld (w 0) 7 0, hw := fld (w 0) 19 16, hh := fld (w 0) 23 20, fptr := w 1, frame := w 2
    deps := [w 3, w 4, w 5].filter (· != 0#64), done := w 6, dead := w 7 }

/-- An address of a packet: aligned, mapped for what it is used for, and not in CXL memory. -/
def pktAddr (s : State) (ag : Agent) (va : Word) (align : Nat) (k : Kind) : Bool :=
  va.toNat % align = 0 && match translate s ag va k with | .ok (p, s) => s.tier p.pa != .cxl | .error _ => false

/-- The addresses of a packet pass: the frame needs full/empty bits for its RESULT. -/
def pktOk (s : State) (ag : Agent) (p : LaunchPkt) : Bool :=
  (match translate s ag p.frame .w with | .ok (q, s) => s.hasFe q.pa | .error _ => false) && p.frame.toNat % 64 = 0
    && (p.deps.all fun d => pktAddr s ag d 8 .r) && (p.done = 0#64 || pktAddr s ag p.done 8 .w)

/-- The oldest packet of a queue is consumed, and its slot unlocks. -/
def consume (s : State) (q : Nat) : State :=
  s.modQueue q fun qu => { qu with cons := qu.cons + 1#16, ingress := qu.ingress.erase (qu.cons.toNat % 64), waited := false, met := 0 }

/-- The packet ends with a status; the next one follows. A completion word that is misaligned cannot be
written. -/
def endPacket (s : State) (q : Nat) (done : Word) (status : Nat) : State :=
  let s := consume s q
  let s :=
    if fld done 2 0 = 0 then launchComplete s q done status
    else launchComplete (s.count (s.queue q).vmid .trapLost) q 0#64 status
  s.wakeQueue q 1

/-- What a dispatcher does with the packet under way. -/
inductive Dispatched where
  /-- It is rejected, or past its deadline. -/
  | ended (status : Nat)
  /-- It waits on its dependences, or for room. -/
  | held (s : State)
  | go (s : State)

/-- The dependences hold full words. -/
def depsFull (s : State) (ag : Agent) (p : LaunchPkt) : Bool :=
  p.deps.all fun d => match translate s ag d .r with | .ok (q, s) => s.isFull q.pa | .error _ => true

/-- The frame header of a launch, and the completion it will bring. -/
def launchFrame (s : State) (ag : Agent) (q : Nat) (p : LaunchPkt) : Option State :=
  match writeHeader s ag p.frame (w64 (q * 4 + 2)) (s.queue q).gen with
  | .error _ => none
  | .ok s => some (s.modQueue q fun qu => { qu with live := (qu.live.filter fun e => e.1 != p.frame) ++ [(p.frame, p.done)] })

/-- Steps 1 to 3 of R288, each passed once, with the checks of one kind; then its start. -/
def dispatchPkt (s : State) (q : Nat) (check : Agent → LaunchPkt → Bool) (start : Agent → LaunchPkt → State → Dispatched) :
    Out :=
  let qu := s.queue q
  let p := launchPkt (packetBytes qu (qu.cons.toNat % 64))
  let ag := s.devAgent qu.vmid 0
  let again : Ev := if qu.kind = 1 then .lTaskLaunch q else .gLaunch q
  let at_ (s : State) (n : Nat) : State := s.modQueue q fun qu => { qu with met := n }
  if !(qu.bound && !qu.stopped && qu.ingress.contains (qu.cons.toNat % 64)) then .next s
  else if qu.met < 1 ∧ (p.kind ≠ qu.kind ∨ !pktOk s ag p ∨ !check ag p) then .next (endPacket s q p.done 0xFE)
  else if qu.met < 3 ∧ !depsFull s ag p then .next ((at_ s 1).after 1 again)
  else if qu.met < 3 ∧ p.dead ≠ 0#64 ∧ p.dead.toNat < s.now then .next (endPacket s q p.done 0xFF)
  else
    match start ag p s with
    | .ended st => .next (endPacket s q p.done st)
    | .held s => .next ((at_ s 3).after 1 again)
    | .go s => .next ((consume s q).wakeQueue q 1)

/-- The entry of an L-task pushed; a push without room waits, counted once (R273). -/
def startTask (q : Nat) (ag : Agent) (p : LaunchPkt) (s : State) : Dispatched :=
  let qu := s.queue q
  let core := leastCore s q (maskCores qu)
  match launchFrame s ag q p with
  | none => .ended 0xFE
  | some t =>
    match pushBottom t core { ptr := p.fptr, frame := p.frame, slot := 0#3, dom := 3#3, queue := q } with
    | some t => .go t
    | none => .held (if qu.waited then s else (s.count qu.vmid .deqWait).modQueue q fun qu => { qu with waited := true })

/-- L_TASK_LAUNCH. -/
def execLTaskLaunch (q : Nat) (s : State) : Out :=
  dispatchPkt s q
    (fun ag p => fld p.fptr 1 0 = 0 && (match translate s ag p.fptr .r with | .ok (a, s) => s.tier a.pa != .cxl | .error _ => false)
      && !(maskCores (s.queue q)).isEmpty)
    (startTask q)

/-- The descriptor of a G-launch matches its packet. -/
def gLaunchOk (s : State) (ag : Agent) (p : LaunchPkt) : Bool :=
  descOk p.fptr && pktAddr s ag (p.fptr &&& ~~~3#64) 64 .r && match readDesc s ag p.fptr with
    | .ok (d, _) => fld d.shape 3 0 = p.hw && fld d.shape 7 4 = p.hh && d.moorq != 0#64
    | .error _ => false

/-- The start token of a G-launch. -/
def startGraph (q : Nat) (ag : Agent) (p : LaunchPkt) (s : State) : Dispatched :=
  match launchFrame s ag q p with
  | none => .ended 0xFE
  | some t =>
    match postStart t (s.queue q).vmid 0 q p.fptr p.frame with
    | .sent t => .go t
    | .full => .held s
    | _ => .ended 0xFE

/-- G_LAUNCH. -/
def execGLaunch (q : Nat) (s : State) : Out := dispatchPkt s q (gLaunchOk s) (startGraph q)

end Sys2Proof.Machine
end

