-- ==== Sys2Proof/Machine/Fence.lean ====
section
/-! DEFINITION. Debug objects (R194, R478), the generation wrap (R192), fencing (R447) and the patrol scrubber
(R199). -/

namespace Sys2Proof.Machine

/-! ## Debug objects (R478) -/

/-- The object that a selector names. -/
inductive DebugObj where
  | buf (core : Nat) (b : Buf) (g : Nat)
  | store (cell g : Nat)
  | mcell (cell g : Nat)
  | x (slot : Nat) (shadow : Bool) (n : Nat)
  | v (slot n part : Nat)
  | md (slot n : Nat)
  | q (slot n : Nat)
  | td (core n : Nat)
  | rt (core n : Nat)
  | f (cell n : Nat) (urgent : Bool)
  deriving DecidableEq, Repr

/-- A granule selector within `bytes`. -/
def granObj (w : Word) (bytes : Nat) (mk : Nat → DebugObj) : Option DebugObj :=
  if fld w 39 0 % 64 = 0 ∧ fld w 39 0 < bytes then some (mk (fld w 39 0 / 64)) else none

/-- The register part of a selector: part, number, space, SH and CTX, slot. -/
def regObj (w : Word) : Option DebugObj :=
  let unit := fld w 59 40
  let part := fld w 15 13
  let n := fld w 12 8
  let sp := fld w 7 5
  let sh := bitAt w 4
  let ctx := bitAt w 3
  let slot := 8 * unit + fld w 2 0
  if fld w 39 16 ≠ 0 then none
  else
    match fld w 63 60 with
    | 5 =>
      if 1024 ≤ unit ∨ ctx then none
      else
        match sp with
        | 3 => if part ≠ 0 ∨ n = 0 ∨ (sh ∧ 15 < n) then none else some (.x slot sh n)
        | 4 => if 1 < part ∨ sh then none else some (.v slot n part)
        | 5 => if part ≠ 0 ∨ sh ∨ 7 < n then none else some (.md slot n)
        | 7 => if part ≠ 0 ∨ sh ∨ 7 < n then none else some (.q slot n)
        | _ => none
    | 6 =>
      if 1024 ≤ unit ∨ ctx ∨ sh ∨ part ≠ 0 ∨ 7 < n ∨ fld w 2 0 ≠ 0 then none
      else match sp with | 6 => some (.td unit n) | 7 => some (.rt unit n) | _ => none
    | _ =>
      if 16384 ≤ unit ∨ sp ≠ 0 ∨ sh ∨ part ≠ 0 ∨ 2 < n ∨ fld w 2 0 ≠ 0 ∨ cellKind (unit % 128) (unit / 128) ≠ 0 then none
      else some (.f unit n ctx)

def debugObj (w : Word) : Option DebugObj :=
  let unit := fld w 59 40
  let kind := cellKind (unit % 128) (unit / 128)
  match fld w 63 60 with
  | 0 => if unit < 1024 then granObj w 0x80000 (.buf unit .w) else none
  | 1 => if unit < 1024 then granObj w 0x40000 (.buf unit .a) else none
  | 2 => if unit < 1024 then granObj w 0x40000 (.buf unit .c) else none
  | 3 => if unit < 16384 then granObj w (if kind = 1 then 0x200 else 0x1200) (.store unit) else none
  | 4 => if unit < 16384 ∧ kind = 1 then granObj w 0x10000 (.mcell unit) else none
  | 5 | 6 | 7 => regObj w
  | _ => none

/-- A q register's 64 data bytes (the order of its parts is log 27). -/
def qrBytes (e : QR) : List Byte :=
  natBytes 8 (b2n e.bnd + e.esz.toNat * 2 + b2n e.done * 8 + b2n e.flt * 16 + e.cause.toNat * 256)
    ++ natBytes 8 e.left ++ natBytes 8 e.cmd ++ natBytes 8 e.win.length

def trBytes (e : TR) : List Byte :=
  natBytes 8 (b2n e.v + e.owner.toNat * 2 + b2n e.int32 * 16 + e.base.toNat * 2 ^ 5 + e.ncol.toNat * 2 ^ 15 + e.nrow.toNat * 2 ^ 21
    + e.pflags.toNat * 2 ^ 27 + e.restart.toNat * 2 ^ 32)

/-- The 64 data bytes and the stamp of an object, without the rule of R189; a poisoned one has zero data. -/
def debugRead (s : State) (o : DebugObj) : List Byte × Gen :=
  let r : List Byte × Gen :=
    match o with
    | .buf c b g => let e := AMap.getD ((s.core c).gran b) g {}; (vecBytes 64 e.data, e.gen)
    | .store c g => let e := AMap.getD (s.cell c).store g {}; (vecBytes 64 e.data, e.gen)
    | .mcell c g => let e := AMap.getD (s.cell c).mem g {}; (vecBytes 64 e.data, e.gen)
    | .x n sh k => let e := AMap.getD (if sh then (s.slot n).sx else (s.slot n).x) k {}; (natBytes 8 e.val.toNat, e.gen)
    | .v n k p => let e := AMap.getD (s.slot n).v k {}; (getBytes e.val (64 * p) 64, e.gen)
    | .md n k => let e := AMap.getD (s.slot n).md k {}; (natBytes 16 e.val.toNat, e.gen)
    | .q n k => let e := AMap.getD (s.slot n).q k {}; (qrBytes e, e.gen)
    | .td c k => let e := AMap.getD (s.core c).td k {}; (trBytes e, e.gen)
    | .rt c k => let e := AMap.getD (s.core c).rt k {}; (natBytes 8 e.val.toNat, e.gen)
    | .f c k u => let e := AMap.getD (s.cell c).freg (k + if u then 3 else 0) {}; (natBytes 32 e.val.toNat, e.gen)
  if r.2 = 0xFFFF#16 then (List.replicate 64 0#8, r.2) else (fixLen 64 r.1, r.2)

/-- A q register from its data bytes; it is bound to no window by a write. -/
def qrOf (old : QR) (bs : List Byte) (gen : Gen) : QR :=
  let w := bytesWord (bs.take 8)
  { old with gen := gen, bnd := bitAt w 0, esz := w.extractLsb' 1 2, done := bitAt w 3, flt := bitAt w 4
             cause := w.extractLsb' 8 8, left := bytesNat ((bs.drop 8).take 8), cmd := bytesNat ((bs.drop 16).take 8) }

def trOf (bs : List Byte) (gen : Gen) : TR :=
  let w := bytesWord (bs.take 8)
  { gen := gen, v := bitAt w 0, owner := w.extractLsb' 1 3, int32 := bitAt w 4, base := w.extractLsb' 5 10
    ncol := w.extractLsb' 15 6, nrow := w.extractLsb' 21 6, pflags := w.extractLsb' 27 5, restart := w.extractLsb' 32 7 }

/-- The 64 data bytes and stamp of an object written. -/
def debugWrite (s : State) (o : DebugObj) (bs : List Byte) (g : Gen) : State :=
  let gr : Granule := { data := BitVec.ofNat 512 (bytesNat bs), gen := g }
  let word : Word := bytesWord (bs.take 8)
  match o with
  | .buf c b k => s.modCore c fun v => v.setBuf b (AMap.set (v.gran b) k gr)
  | .store c k => s.modCell c fun v => { v with store := AMap.set v.store k gr }
  | .mcell c k => s.modCell c fun v => { v with mem := AMap.set v.mem k gr }
  | .x n sh k =>
    let e : XR := { val := word, gen := g }
    s.modSlot n fun v => if sh then { v with sx := AMap.set v.sx k e } else { v with x := AMap.set v.x k e }
  | .v n k p =>
    s.modSlot n fun v =>
      let old := AMap.getD v.v k {}
      { v with v := AMap.set v.v k { val := insBytes old.val (64 * p) bs, gen := g } }
  | .md n k => s.modSlot n fun v => { v with md := AMap.set v.md k { val := BitVec.ofNat 128 (bytesNat (bs.take 16)), gen := g } }
  | .q n k => s.modSlot n fun v => { v with q := AMap.set v.q k (qrOf (AMap.getD v.q k {}) bs g) }
  | .td c k => s.modCore c fun v => { v with td := AMap.set v.td k (trOf bs g) }
  | .rt c k => s.modCore c fun v => { v with rt := AMap.set v.rt k { val := word, gen := g } }
  | .f c k u =>
    s.modCell c fun v =>
      { v with freg := AMap.set v.freg (k + if u then 3 else 0) { val := BitVec.ofNat 256 (bytesNat (bs.take 32)), gen := g } }

/-! ## The generation wrap (R192) -/

/-- A stamp that a wrap scrubs: neither live nor 0x0000 nor 0xFFFF. -/
def dead (live : List Gen) (g : Gen) : Bool := g != 0#16 && g != 0xFFFF#16 && !live.contains g

/-- Registers or granules with dead stamps scrubbed. -/
def scrubDead {α : Type} (stamp : α → Gen) (live : List Gen) (m : AMap α) : AMap α := m.filter fun e => !dead live (stamp e.2)

/-- A slot without dead stamps. -/
def Slot.scrub (v : Slot) (live : List Gen) : Slot :=
  { v with x := scrubDead XR.gen live v.x, sx := scrubDead XR.gen live v.sx, v := scrubDead VR.gen live v.v
           q := scrubDead QR.gen live v.q, md := scrubDead MR.gen live v.md }

def Core.scrub (c : Core) (live : List Gen) : Core :=
  { c with td := scrubDead TR.gen live c.td, rt := scrubDead XR.gen live c.rt, wbuf := scrubDead Granule.gen live c.wbuf
           abuf := scrubDead Granule.gen live c.abuf, cbuf := scrubDead Granule.gen live c.cbuf }

/-- The words of granules that lost their stamp become empty; deferred readers of dead generations, which `gone`
names, are discarded (R192). -/
def Cell.scrub (c : Cell) (live : List Gen) (gone : Waiting → Bool) : Cell :=
  let lost (k : Nat) : Bool := dead live (AMap.getD c.mem k {}).gen
  { c with store := scrubDead Granule.gen live c.store, mem := scrubDead Granule.gen live c.mem
           wst := c.wst.filter fun e => !lost (e.1 / 8), defer := c.defer.filter fun w => !(lost (w.off / 64) && gone w)
           freg := scrubDead FR.gen live c.freg, ms := c.ms.filter fun e => !dead live e.gen }

/-- Every stamped object scrubbed, and the allocator restarted at the lowest free number. -/
def wrapGens (s : State) : State :=
  let live := s.liveGens
  let slots := AMap.mapV s.slots fun _ v => Slot.scrub v live
  let cores := AMap.mapV s.cores fun _ c => Core.scrub c live
  let gone (w : Waiting) : Bool := dead live (handleGen (s.region w.f.rk).handle)
  let cells := AMap.mapV s.cells fun _ c => Cell.scrub c live gone
  ({ s with slots := slots, cores := cores, cells := cells } : State).modMgmt fun m => { m with genNext := 1, wrapping := false }

/-- GEN_WRAP_COMPLETE: the wrap that the allocator asked for. -/
def execGenWrapComplete (s : State) : Out := .next (if s.mgmt.wrapping then wrapGens s else s)

/-! ## Fencing (R447) -/

/-- Cells of a FENCE.UNIT's level and number: a cell, or the 16 cells of a unit, of a unit of an island, or of
the four units of a cove (R8, R15). -/
def fenceCells (level n : Nat) : List Nat :=
  let unit (c : Nat) : List Nat := rectCells (unitX c) (unitY c) 4 4
  match level with
  | 0 => [n]
  | 1 => []
  | 4 => (List.range 4).flatMap fun k => unit (4 * n + k)
  | _ => unit n

/-- Its cores: an island is a core and the 16 cells of its unit. -/
def fenceCores (level n : Nat) : List Nat :=
  match level with
  | 0 => []
  | 4 => (List.range 4).map fun k => 4 * n + k
  | _ => [n]

/-- The slots of a fenced core stop: tasks end with FENCED. -/
def fenceCore (s : State) (core : Nat) : State :=
  let s := s.modCore core fun c => { c with fenced := true }
  let s := (List.range 8).foldl (fun s k =>
    let n := 8 * core + k
    let s := withdrawWaits s fun w => w.slot == n
    let s := if (s.slot n).task.isSome then endTask s n cFENCED else s
    s.modSlot n fun v => { v with wait := .fenced }) s
  -- entries taken for slots of the core go back
  let s := match (s.core core).spill with | some j => giveBack s core j.next | none => s
  let s := (s.core core).reserve.foldl (fun s r => giveBack s core (some r.2)) s
  s.modCore core fun c => { c with spill := none, reserve := [] }

/-- Saved images of tasks pinned to a fenced core end as at their restore (R447). -/
def endPinned (s : State) (core : Nat) : State :=
  (AMap.keys s.tenants).foldl (fun s v =>
    ((s.tenant v).saves.filter fun q => q.2.pin && coreOf q.2.slot == core).foldl (fun s q =>
      let t := q.2.task
      let cove := coveOfCore core
      let s := s.modTenant v fun te => { te with saves := AMap.del te.saves q.1 }
      let s := dropContinuation s v q.1
      let s := giveStack s v t.stack
      match s.homeStore (s.devAgent v cove) (t.frame + 24#64) (faultWord cFENCED) with
      | .error _ => s.count v .trapLost
      | .ok s => finishFrame s v cove t.frame 63 cFENCED.toNat 0#64 .int true) s) s

/-- A context parks with FENCED: reported, its work given up. -/
def parkFenced (s : State) (rk : RKey) (cell : Nat) (c : Ctx) : State :=
  let rg := s.region rk
  if rg.isParked c then
    s.modRegion rk fun r => { r with parked := r.parked.map fun p => if p.ctx = c then { p with cause := cFENCED } else p }
  else
    let ik : IKey := ((rg.insts.find? fun i => i.ik.ctx == c && !i.committed).map (·.ik)).getD { blk := 0, ctx := c, iter := 0#16, ser := 0 }
    let h : HeldFault := { ik := ik, committed := true, cause := cFENCED, addr := w64 cell, idx := 0 }
    let s := s.modRegion rk fun r =>
      { r with faults := r.faults.filter fun f => f.ik.ctx != c
               parked := r.parked ++ [{ ctx := c, ik := ik, committed := true, cause := cFENCED }] }
    report s rk h

/-- A region that holds a fenced cell: its contexts park where it needs the cell; else it moves (R440). -/
def fenceRegion (s : State) (rk : RKey) (cell : Nat) : State :=
  let rg := s.region rk
  let x := cell % 128 - handleX rg.handle
  let y := cell / 128 - handleY rg.handle
  if rg.isUnused x y then startWave s rk true
  else (contextsOf s rk).foldl (fun s c => parkFenced s rk cell c) s

/-- Commands of a fenced copy engine pause, and a fenced replay engine answers REPLAY (R447, R408): the engines
of a fenced cove. -/
def fenceEngines (s : State) (cove : Nat) : State :=
  let s := s.modCove cove fun v => { v with fenced := true }
  ((s.cove cove).cmds.filter fun c => c.st == .queued || c.st == .running).foldl
    (fun s c => copyFault s cove c.id { cause := cFENCED, tval := w64 cove }) s

/-- The tenants that use the units of a fence. -/
def fenceTenants (s : State) (cores cells : List Nat) : List Nat :=
  ((cores.flatMap fun c => ((List.range 8).filter fun k => (s.slot (8 * c + k)).task.isSome).map fun k => (s.slot (8 * c + k)).own.vmid.toNat)
    ++ cells.filterMap fun k => (s.cell k).owner.map (·.vmid)).eraseDups

/-- FENCE.UNIT sets in (R447). -/
def fenceUnit (s : State) (level n : Nat) : State :=
  let cores := fenceCores level n
  let cells := fenceCells level n
  let vs := fenceTenants s cores cells
  let regions := (cells.filterMap fun k => (s.cell k).owner.map fun r => (r, k))
  let s := s.modMgmt fun m =>
    let u : FencedUnit := { level := level, num := n }
    { m with fenced := if m.fenced.contains u then m.fenced else m.fenced ++ [u] }
  let s := cells.foldl (fun s k => s.modCell k fun c => { c with fenced := true }) s
  let s := cores.foldl (fun s c => endPinned (fenceCore s c) c) s
  let s := if level = 4 then fenceEngines s n else s
  let s := regions.foldl (fun s r => fenceRegion s r.1 r.2) s
  vs.foldl (fun s v => s.msix 1 v) s

/-- A register or granule that a clear returns to 0x0000. -/
def unpoison {α : Type} (stamp : α → Gen) (m : AMap α) : AMap α := m.filter fun e => stamp e.2 != 0xFFFF#16

/-- FENCE.UNIT with CLEAR: the unit is in service again, its poisoned objects are at 0x0000 (R199). -/
def unfenceUnit (s : State) (level n : Nat) : State :=
  let s := s.modMgmt fun m => { m with fenced := m.fenced.filter (· != { level := level, num := n }) }
  let cells := fenceCells level n
  let cores := fenceCores level n
  let s := cells.foldl (fun s k => s.modCell k fun c =>
    { c with fenced := false, store := unpoison Granule.gen c.store, mem := unpoison Granule.gen c.mem
             freg := unpoison FR.gen c.freg, ms := c.ms.filter fun e => e.gen != 0xFFFF#16 }) s
  let s := cores.foldl (fun s k =>
    let s := s.modCore k fun c =>
      { c with fenced := false, td := unpoison TR.gen c.td, rt := unpoison XR.gen c.rt, wbuf := unpoison Granule.gen c.wbuf
               abuf := unpoison Granule.gen c.abuf, cbuf := unpoison Granule.gen c.cbuf }
    (List.range 8).foldl (fun s j => s.modSlot (8 * k + j) fun v =>
      { v with wait := if v.wait = .fenced then .idle else v.wait, x := unpoison XR.gen v.x, sx := unpoison XR.gen v.sx
               v := unpoison VR.gen v.v, q := unpoison QR.gen v.q, md := unpoison MR.gen v.md }) s) s
  let s := if level = 4 then s.modCove n fun v => { v with fenced := false } else s
  retryAll s

/-! ## Patrol scrubbing (R199) -/

/-- Poisoned granules of the storage unit of an object, with the core or cell that encloses it. -/
def unitPoison (s : State) (o : DebugObj) : Option (Nat × Nat × Nat) :=
  let n (m : AMap Granule) : Nat := (m.filter fun e => e.2.gen == 0xFFFF#16).length
  match o with
  | .buf c b _ => some (1, c, n ((s.core c).gran b))
  | .store c _ => some (0, c, n (s.cell c).store)
  | .mcell c _ => some (0, c, n (s.cell c).mem)
  | _ => none

/-- POISON_MARK: an object stamped 0xFFFF; with the fourth poisoned granule of its unit, AUTO_FENCE. -/
def poisonObject (s : State) (o : DebugObj) : State :=
  let (bs, _) := debugRead s o
  let s := (debugWrite s o bs 0xFFFF#16).countEcc 0x21
  match unitPoison s o with
  | some (level, n, k) => if k < 4 ∨ s.mgmt.fenced.contains { level := level, num := n } then s else fenceUnit s level n
  | none => s

/-- A line of memory that can be reported poisoned: of near memory, LPDDR-6 or a CXL device (R200). -/
def poisonable (s : State) (pa : Nat) : Bool := s.hasFe pa || s.tier pa == .cxl

/-- A matching entry stamped 0xFFFF (R199). -/
def poisonEntry (s : State) (cell slot idx : Nat) (c : Ctx) (it : Option (BitVec 16)) : State :=
  (s.modCell cell fun v => { v with ms := v.ms.map fun e => if e.key slot idx c it then { e with gen := 0xFFFF#16 } else e }).countEcc 0x21

/-- One error that the scrubber meets; an uncorrectable one is logged with its unit and address. -/
def eccHit (s : State) (h : EccHit) : State :=
  let log (s : State) : State := s.modMgmt fun m => { m with eccLog := m.eccLog ++ [h] }
  match h with
  | .corrected => s.countEcc 0x20
  | .object sel => match debugObj sel with | some o => log (poisonObject s o) | none => s
  | .entry cell slot idx c it =>
    if (s.cell cell).ms.any fun e => e.key slot idx c it then log (poisonEntry s cell slot idx c it) else s
  | .line pa => if poisonable s pa then log ({ s with poison := AMap.set s.poison (pa / 64) () }.countEcc 0x21) else s

/-- PATROL_SCRUB: errors come from outside the machine; without one nothing changes. -/
def execPatrolScrub (hits : List EccHit) (s : State) : Out := .next (hits.foldl eccHit s)

end Sys2Proof.Machine
end

