-- ==== Sys2Proof/Machine/Crypto.lean ====
section
/-! DEFINITION. SHA-512 and ECDSA over P-521, which the spec names for measurements and signatures (R73, R480, R481) and
does not restate: taken from the public standards (log 28, PRESUMED). -/

namespace Sys2Proof.Machine

/-! ## SHA-512 -/

/-- The round constants. -/
def shaK : List Word :=
  [ 0x428A2F98D728AE22#64, 0x7137449123EF65CD#64, 0xB5C0FBCFEC4D3B2F#64, 0xE9B5DBA58189DBBC#64,
    0x3956C25BF348B538#64, 0x59F111F1B605D019#64, 0x923F82A4AF194F9B#64, 0xAB1C5ED5DA6D8118#64,
    0xD807AA98A3030242#64, 0x12835B0145706FBE#64, 0x243185BE4EE4B28C#64, 0x550C7DC3D5FFB4E2#64,
    0x72BE5D74F27B896F#64, 0x80DEB1FE3B1696B1#64, 0x9BDC06A725C71235#64, 0xC19BF174CF692694#64 ]
  ++ [ 0xE49B69C19EF14AD2#64, 0xEFBE4786384F25E3#64, 0x0FC19DC68B8CD5B5#64, 0x240CA1CC77AC9C65#64,
    0x2DE92C6F592B0275#64, 0x4A7484AA6EA6E483#64, 0x5CB0A9DCBD41FBD4#64, 0x76F988DA831153B5#64,
    0x983E5152EE66DFAB#64, 0xA831C66D2DB43210#64, 0xB00327C898FB213F#64, 0xBF597FC7BEEF0EE4#64,
    0xC6E00BF33DA88FC2#64, 0xD5A79147930AA725#64, 0x06CA6351E003826F#64, 0x142929670A0E6E70#64 ]
  ++ [ 0x27B70A8546D22FFC#64, 0x2E1B21385C26C926#64, 0x4D2C6DFC5AC42AED#64, 0x53380D139D95B3DF#64,
    0x650A73548BAF63DE#64, 0x766A0ABB3C77B2A8#64, 0x81C2C92E47EDAEE6#64, 0x92722C851482353B#64,
    0xA2BFE8A14CF10364#64, 0xA81A664BBC423001#64, 0xC24B8B70D0F89791#64, 0xC76C51A30654BE30#64,
    0xD192E819D6EF5218#64, 0xD69906245565A910#64, 0xF40E35855771202A#64, 0x106AA07032BBD1B8#64 ]
  ++ [ 0x19A4C116B8D2D0C8#64, 0x1E376C085141AB53#64, 0x2748774CDF8EEB99#64, 0x34B0BCB5E19B48A8#64,
    0x391C0CB3C5C95A63#64, 0x4ED8AA4AE3418ACB#64, 0x5B9CCA4F7763E373#64, 0x682E6FF3D6B2B8A3#64,
    0x748F82EE5DEFB2FC#64, 0x78A5636F43172F60#64, 0x84C87814A1F0AB72#64, 0x8CC702081A6439EC#64,
    0x90BEFFFA23631E28#64, 0xA4506CEBDE82BDE9#64, 0xBEF9A3F7B2C67915#64, 0xC67178F2E372532B#64 ]
  ++ [ 0xCA273ECEEA26619C#64, 0xD186B8C721C0C207#64, 0xEADA7DD6CDE0EB1E#64, 0xF57D4F7FEE6ED178#64,
    0x06F067AA72176FBA#64, 0x0A637DC5A2C898A6#64, 0x113F9804BEF90DAE#64, 0x1B710B35131C471B#64,
    0x28DB77F523047D84#64, 0x32CAAB7B40C72493#64, 0x3C9EBE0A15C9BEBC#64, 0x431D67C49C100D4C#64,
    0x4CC5D4BECB3E42B6#64, 0x597F299CFC657E2A#64, 0x5FCB6FAB3AD6FAEC#64, 0x6C44198C4A475817#64 ]

/-- The initial state. -/
def shaH : List Word :=
  [ 0x6A09E667F3BCC908#64, 0xBB67AE8584CAA73B#64, 0x3C6EF372FE94F82B#64, 0xA54FF53A5F1D36F1#64,
    0x510E527FADE682D1#64, 0x9B05688C2B3E6C1F#64, 0x1F83D9ABFB41BD6B#64, 0x5BE0CD19137E2179#64 ]

/-- Rotation to the right. -/
def rotr (x : Word) (n : Nat) : Word := (x >>> n) ||| (x <<< (64 - n))

def bigSigma0 (x : Word) : Word := rotr x 28 ^^^ rotr x 34 ^^^ rotr x 39
def bigSigma1 (x : Word) : Word := rotr x 14 ^^^ rotr x 18 ^^^ rotr x 41
def smallSigma0 (x : Word) : Word := rotr x 1 ^^^ rotr x 8 ^^^ (x >>> 7)
def smallSigma1 (x : Word) : Word := rotr x 19 ^^^ rotr x 61 ^^^ (x >>> 6)

/-- A big-endian number. -/
def beNat (bs : List Byte) : Nat := bytesNat bs.reverse

/-- `n` big-endian bytes of a number. -/
def beBytes (n v : Nat) : List Byte := (natBytes n v).reverse

/-- The message with its padding. -/
def shaPad (bs : List Byte) : List Byte :=
  bs ++ 0x80#8 :: List.replicate ((239 - bs.length % 128) % 128) 0#8 ++ beBytes 16 (8 * bs.length)

/-- Words 16 to 79 of a block's schedule; the list holds the words so far, latest first. -/
def shaSchedule : Nat → List Word → List Word
  | 0, l => l
  | k + 1, l =>
    shaSchedule k ((smallSigma1 (l.getD 1 0) + l.getD 6 0 + smallSigma0 (l.getD 14 0) + l.getD 15 0) :: l)

/-- One round: the eight working words. -/
def shaRound (v : List Word) (kw : Word) : List Word :=
  match v with
  | [a, b, c, d, e, f, g, h] =>
    let t1 := h + bigSigma1 e + ((e &&& f) ^^^ (~~~e &&& g)) + kw
    let t2 := bigSigma0 a + ((a &&& b) ^^^ (a &&& c) ^^^ (b &&& c))
    [t1 + t2, a, b, c, d + t1, e, f, g]
  | l => l

/-- The state after one 128-byte block. -/
def shaBlock (h : List Word) (bs : List Byte) : List Word :=
  let w := (List.range 16).map fun k => w64 (beNat ((bs.drop (8 * k)).take 8))
  let ws := (shaSchedule 64 w.reverse).reverse
  let v := (List.zipWith (· + ·) shaK ws).foldl shaRound h
  List.zipWith (· + ·) h v

def shaBlocks : Nat → List Word → List Byte → List Word
  | 0, h, _ => h
  | k + 1, h, bs => shaBlocks k (shaBlock h (bs.take 128)) (bs.drop 128)

/-- SHA-512: 64 bytes. -/
def sha512 (bs : List Byte) : List Byte :=
  let m := shaPad bs
  (shaBlocks (m.length / 128) shaH m).flatMap fun w => beBytes 8 w.toNat

/-! ## ECDSA over P-521 -/

def p521 : Nat := 2 ^ 521 - 1
def p521N : Nat := 0x1FFFFFFFFFFFFFFFFFFFFFFFFFFFFFFFFFFFFFFFFFFFFFFFFFFFFFFFFFFFFFFFFFA51868783BF2F966B7FCC0148F709A5D03BB5C9B8899C47AEBB6FB71E91386409
def p521B : Nat := 0x51953EB9618E1C9A1F929A21A0B68540EEA2DA725B99B315F3B8B489918EF109E156193951EC7E937B1652C0BD3BB1BF073573DF883D2C34F1EF451FD46B503F00
def p521G : Nat × Nat :=
  (0xC6858E06B70404E9CD9E3ECB662395B4429C648139053FB521F828AF606B4D3DBAA14B5E77EFE75928FE1DC127A2FFA8DE3348B3C1856A429BF97E7E31C2E5BD66,
   0x11839296A789A3BC0045C8A5FB42C7D1BD998F54449579B446817AFBD17273E662C97EE72995EF42640C550B9013FAD0761353C7086A272C24088BE94769FD16650)

/-- a to the b modulo m, for b below 2 to the fuel. -/
def powMod (m : Nat) : Nat → Nat → Nat → Nat
  | 0, _, _ => 1
  | k + 1, a, b =>
    let r := powMod m k (a * a % m) (b / 2)
    if b % 2 = 1 then a * r % m else r

/-- The inverse modulo a prime below 2^521. -/
def invMod (m a : Nat) : Nat := powMod m 521 (a % m) (m - 2)

/-- The difference modulo m. -/
def subMod (m a b : Nat) : Nat := (a % m + m - b % m) % m

/-- Addition on the curve; none is the point at infinity. -/
def ecAdd (a b : Option (Nat × Nat)) : Option (Nat × Nat) :=
  match a, b with
  | none, q => q
  | q, none => q
  | some (x, y), some (u, v) =>
    let via (l : Nat) : Option (Nat × Nat) :=
      let z := subMod p521 (l * l) (x + u)
      some (z, subMod p521 (l * subMod p521 x z) y)
    if x = u then
      if (y + v) % p521 = 0 then none
      else via (subMod p521 (3 * x * x) 3 * invMod p521 (2 * y) % p521)
    else via (subMod p521 v y * invMod p521 (subMod p521 u x) % p521)

/-- A multiple of a point, for numbers below 2 to the fuel. -/
def ecMul : Nat → Nat → Option (Nat × Nat) → Option (Nat × Nat)
  | 0, _, _ => none
  | k + 1, n, q =>
    let r := ecMul k (n / 2) (ecAdd q q)
    if n % 2 = 1 then ecAdd q r else r

/-- A signature (r, s) over a 64-byte digest, with the public key (x, y). -/
def ecdsaOk (digest : List Byte) (x y r s : Nat) : Bool :=
  let q := (x, y)
  decide (x < p521) && decide (y < p521) && (y * y % p521 == (subMod p521 (x * x * x) (3 * x) + p521B) % p521)
    && decide (0 < r) && decide (r < p521N) && decide (0 < s) && decide (s < p521N) &&
    (let w := invMod p521N s
     let e := beNat digest
     match ecAdd (ecMul 521 (e * w % p521N) (some p521G)) (ecMul 521 (r * w % p521N) (some q)) with
     | none => false
     | some (z, _) => z % p521N == r)

end Sys2Proof.Machine
end

