-- ==== Sys2Proof/Machine/Mgmt.lean ====
section
/-! DEFINITION. The management commands (R472-R482, R487), each whole before its completion word is written (R475). -/

namespace Sys2Proof.Machine

/-! ## The command under way (R474, R475) -/

/-- What a command comes to: done, with its result; failed, with a status and nothing changed; or it waits for
a generation (R191). -/
inductive Cmd where
  | ok (s : State) (result : Nat)
  | fail (status : Nat)
  | wait (s : State)

def stBADCMD : Nat := 0xE1
def stNOPRIV : Nat := 0xE2
def stBADARG : Nat := 0xE3
def stNORES : Nat := 0xE4
def stBADSIG : Nat := 0xE6
def stROLLBACK : Nat := 0xE7
def stADDR : Nat := 0xE8

/-- A host queue: bound with tenant 0xFF. -/
def isHostQ (s : State) (q : Nat) : Bool := (s.queue q).vmid == 0xFF

/-- A PA at which bytes can be read or written. -/
def paOk (s : State) (pa : Nat) : Bool := s.tier pa != .none && !s.isPoison pa

/-- Bytes at an address as the queue's owner means it: a PA on a host queue, else a VA of the tenant. -/
def cmdRead (s : State) (q : Nat) (a : Word) (n : Nat) : Option (List Byte × State) :=
  if isHostQ s q then
    if (List.range (n / 64 + 2)).all fun k => decide (n ≤ 64 * k) || paOk s (a.toNat + 64 * k) then
      if n = 0 ∨ paOk s (a.toNat + n - 1) then some (s.homeRead a.toNat n, s) else none
    else none
  else (readRange (s.devAgent (s.queue q).vmid 0) (n / 64 + 3) s a n).toOption

/-- Bytes written there. -/
def cmdWrite (s : State) (q : Nat) (a : Word) (bs : List Byte) : Option State :=
  if isHostQ s q then
    if (List.range (bs.length / 64 + 2)).all fun k => decide (bs.length ≤ 64 * k) || paOk s (a.toNat + 64 * k) then
      some (s.homeWrite none a.toNat bs)
    else none
  else (writeRange (s.devAgent (s.queue q).vmid 0) (bs.length / 64 + 3) s a bs).toOption

/-- RESULT to RESP, where one is given; ADDR where it cannot be written. -/
def respond (s : State) (q : Nat) (p : MPkt) (bs : List Byte) (result : Nat) : Cmd :=
  if p.resp = 0#64 then .ok s result
  else match cmdWrite s q p.resp bs with | some s => .ok s result | none => .fail stADDR

/-- The completion word (R475). -/
def cmdWord (cmd result status : Nat) : Nat := result % 2 ^ 48 * 2 ^ 16 + cmd % 256 * 2 ^ 8 + status

/-- The completion: the word as a system-scope release; one that cannot be written is entered in the audit log. On
a host queue the vector follows (R471). Then the next command. -/
def endCommand (s : State) (q cmd : Nat) (p : MPkt) (status result : Nat) : State :=
  let vmid := (s.queue q).vmid
  let s := (consume s q).modMgmt fun m => { m with tokens := m.tokens.erase q }
  let s :=
    if p.done = 0#64 then s
    else
      match (if fld p.done 2 0 = 0 then cmdWrite s q p.done (natBytes 8 (cmdWord cmd result status)) else none) with
      | some s => s
      | none => s.audit cmd q vmid p.a0 p.a1 p.a2 status
  let s := s.modQueue q fun qu => { qu with dn := qu.dn + 1#16 }
  (if vmid = 0xFF then s.msix 0 q else s).wakeMgmt

/-- A command executed: NOPRIV for one marked H on a tenant queue; every H command is entered in the audit
log. -/
def command (s : State) (q : Nat) (ev : Ev) (cmd : Nat) (hostOnly : Bool) (p : MPkt) (run : State → Cmd) : Out :=
  if nextPacket s q ≠ some ev then .next s
  else
    let fin (s : State) (status result : Nat) : State :=
      let s := if hostOnly then s.audit cmd q (s.queue q).vmid p.a0 p.a1 p.a2 status else s
      endCommand s q cmd p status result
    if hostOnly && !isHostQ s q then .next (fin s stNOPRIV 0)
    else
      match run s with
      | .ok s r => .next (fin s 0 r)
      | .fail st => .next (fin s st 0)
      | .wait s => .next (s.after 1 ev)

/-- A check that fails with a status. -/
def cmdNeed (b : Bool) (st : Nat) (k : Cmd) : Cmd := if b then k else .fail st

/-- A VMID argument of a T command: a tenant names its own. -/
def ownVmid (s : State) (q : Nat) (v : Word) (k : Cmd) : Cmd :=
  if !isHostQ s q && v.toNat != (s.queue q).vmid then .fail stNOPRIV
  else if 64 ≤ v.toNat ∨ !(s.tenant v.toNat).present then .fail stBADARG
  else k

/-! ## Tenants (R472, R473) -/

def tenantArgs (bs : List Byte) : TenantArgs :=
  let w (k : Nat) : Word := pktWord bs k
  { s2root := w 0, troot := (w 1).setWidth 52 |>.setWidth 64, svec := w 2, pasid := w 3, stkBase := w 4, stk := w 5, fheap := w 6, fhsize := w 7
    movr := w 8, movrn := w 9, fring := w 10, fslot := w 11, save := w 12, saven := w 13, rtab := w 14, rsave := w 15
    repl := w 16, replsz := w 17, tidet := w 18, trace := w 19, tracen := w 20, keys := w 21, keyn := w 22 }

/-- The areas of a tenant with their sizes; one with base or size 0 is none (log 29). -/
def tenantAreas (a : TenantArgs) : List (Word × Nat) :=
  [ (a.stkBase, fld a.stk 63 32 * fld a.stk 31 0), (a.fheap, a.fhsize.toNat), (a.movr, 64 + 16 * a.movrn.toNat), (a.fring, 64),
    (a.save, 5376 * a.saven.toNat), (a.rtab, 16384), (a.rsave, 64), (a.repl, a.replsz.toNat), (a.tidet, 65536),
    (a.trace, if a.tracen = 0#64 then 0 else 64 + 32 * a.tracen.toNat), (a.keys, 144 * a.keyn.toNat) ].filter fun q =>
    q.1 != 0#64 && q.2 != 0

/-- A page is mapped at stage 2 where stage 1 maps it. -/
def stage2Maps (s : State) (ag : Agent) (va : Word) : Bool :=
  match walkBoth s ag (fld va 54 0) with
  | .ok (e, _) => e.s2 != 0#3
  | .error .refused => true
  | .error _ => false

/-- Every 64 KiB page of an area. -/
def areaMapped (s : State) (ag : Agent) (q : Word × Nat) : Bool :=
  (List.range ((q.1.toNat % 65536 + q.2 + 65535) / 65536)).all fun k => stage2Maps s ag ((q.1 &&& ~~~0xFFFF#64) + w64 (65536 * k))

/-- Limits of an argument block. -/
def argsOk (a : TenantArgs) (bs : List Byte) : Bool :=
  ((bs.drop 0xB8).all (· == 0#8)) && fld a.pasid 63 20 == 0 && fld a.stk 31 0 % 16 == 0 && decide (a.fhsize.toNat ≤ 2 ^ 30)
    && decide (4096 ≤ a.movrn.toNat)

/-- The tide table of a new tenant in memory emptied (R472): its entries read as zero. The tenants' own fields stand. -/
def emptyTides (s : State) (ag : Agent) (a : TenantArgs) : State :=
  if a.tidet = 0#64 then s
  else { orElse (writeRange ag 1025 s a.tidet (List.replicate 65536 0#8)) s with tenants := s.tenants }

/-- TENANT_CREATE. -/
def execTenantCreate (q : Nat) (p : MPkt) (s : State) : Out :=
  command s q (.tenantCreate q p) 0x01 true p fun s =>
    match cmdRead s q p.a0 256 with
    | none => .fail stADDR
    | some (bs, s) =>
      let v := p.a1.toNat
      let a := tenantArgs bs
      -- the tenant as it would be, whose areas the management core then walks, with no walk cache
      let t : Tenant := { present := true, args := a }
      let probe := { s.setTenant v t with coves := [] }
      let ag : Agent := { vmid := v, troot := a.troot, sup := true, core := none, cove := 0 }
      if 64 ≤ v ∨ (s.tenant v).present ∨ !argsOk a bs ∨ !(tenantAreas a).all (areaMapped probe ag) then .fail stBADARG
      else
        match s.newGen with
        | (none, s) => .wait s
        | (some g, s) =>
          let clear (x : Quad) : Quad := { x with ctr := x.ctr.filter fun e => e.1 / 8 != v }
          let s := (List.range 4).foldl (fun s k => s.modQuad k clear) s
          .ok (emptyTides (s.setTenant v { t with gen := g }) ag a) v

/-- A queue unbound: its unconsumed packets complete with 0xFE; work already dispatched stays (R476). -/
def unbindQueue (s : State) (q : Nat) : State :=
  let s := s.modQueue q fun qu => { qu with stopped := true }
  let qu := s.queue q
  let s := (sortBy (fun a b => decide ((a + 64 - qu.cons.toNat % 64) % 64 ≤ (b + 64 - qu.cons.toNat % 64) % 64)) qu.ingress).foldl (fun s sl =>
    let done := pktWord (packetBytes qu sl) 6
    if qu.kind = 3 then s
    else launchComplete s q (if fld done 2 0 = 0 then done else 0#64) 0xFE) s
  let s := s.dropDuties fun d => d.work == .ev (.lTaskLaunch q) || d.work == .ev (.gLaunch q)
  (s.modMgmt fun m => { m with tokens := m.tokens.filter (· != q) }).modQueue q fun qu =>
    { qu with bound := false, ingress := [], window := [], stopped := false }

/-- Dispatched work of a queue is left: entries, tasks, launches. It runs on after QUEUE.UNBIND (R476), and while it does the
queue counts as bound for a new QUEUE.BIND (DESIGN CHOICE, log 70). -/
def queueBusy (s : State) (q : Nat) : Bool :=
  !(s.queue q).spilled.isEmpty || !(s.queue q).live.isEmpty || (s.cores.any fun c => c.2.deque.any fun e => e.queue == q)
    || (s.slots.any fun v => match v.2.task with | some t => t.queue == q | none => false)
    || s.tenants.any fun t => t.2.saves.any fun e => e.2.task.queue == q

/-- Translations of a tenant dropped: `hit` says of an entry's tenant, ASID and VA page. Every walk cache drops
all the tenant's entries, and its walks under way restart (R434). -/
def dropTlb (s : State) (vmid : Nat) (hit : TlbEntry → Bool) (line : L1iLine → Bool) : State :=
  let keep (l : List TlbEntry) : List TlbEntry := l.filter fun e => !hit e
  { s with cores := AMap.mapV s.cores fun _ c => { c with tlb := keep c.tlb, l1i := c.l1i.filter fun l => !line l }
           coves := AMap.mapV s.coves fun _ c =>
             { c with tlb := keep c.tlb, mtlb := AMap.mapV c.mtlb fun _ => keep
                      wcache := c.wcache.filter fun e => e.vmid != vmid
                      misses := c.misses.filter fun e => e.vmid != vmid } }

/-- TENANT_DESTROY, in the order of R473. Slots keep SLOTOWN and GENCUR until a boundary assigns them (R109). -/
def destroyTenant (s : State) (v : Nat) : State :=
  let qs := (s.queues.filter fun q => q.2.vmid == v).map (·.1)
  let s := qs.foldl (fun s q => s.modQueue q fun qu => { qu with stopped := true }) s
  let mine (n : Nat) : Bool := (s.slot n).own.vmid.toNat == v && (s.slot n).task.isSome
  let s := ((AMap.keys s.slots).filter mine).foldl (fun s n =>
    let s := withdrawWaits s fun w => w.slot == n
    endTask s n cFENCED) s
  let regions := (s.regions.filter fun r => r.1 / 256 == v && r.2.st != 0 && r.2.st != 5).map (·.1 % 256)
  let s := regions.foldl (fun s r => releaseRegion s { vmid := v, ridx := r }) s
  let s := { s with quads := AMap.mapV s.quads fun _ q =>
      { q with reqs := q.reqs.filter fun r => r.vmid != v, keys := q.keys.filter fun k => k.1 / 4096 != v
               copies := q.copies.filter fun c => c.vmid != v } }
  let s := (AMap.keys s.coves).foldl (fun s k =>
    let s := ((s.cove k).cmds.filter fun c => c.vmid == v).foldl (fun s c => writeCw s k c (cwWord { c with status := 0xFE#8 } false false)) s
    s.modCove k fun c => { c with cmds := c.cmds.filter fun c => c.vmid != v }) s
  let s := qs.foldl unbindQueue s
  let s := dropTlb s v (fun e => e.vmid == v) (fun l => l.vmid == v)
  let gens := (s.tenant v).gen :: qs.map fun q => (s.queue q).gen
  let s := gens.foldl endGeneration s
  let s := dropEntries s fun e => qs.contains e.queue
  let s := qs.foldl (fun s q => s.setQueue q {}) s
  let s := s.modMgmt fun m => { m with windows := m.windows.filter fun w => w.2.vmid != v }
  s.setTenant v {}

def execTenantDestroy (q : Nat) (p : MPkt) (s : State) : Out :=
  command s q (.tenantDestroy q p) 0x02 true p fun s =>
    cmdNeed (decide (p.a0.toNat < 64) && (s.tenant p.a0.toNat).present) stBADARG (.ok (destroyTenant s p.a0.toNat) 0)

/-! ## Queues and windows (R286, R476) -/

/-- The fields of QUEUE.BIND: a domain of 001-101 for every kind. Bits for which R476 names no field are refused as
bad fields (DESIGN CHOICE, log 70). -/
def bindOk (s : State) (p : MPkt) : Bool :=
  let v := fld p.a1 7 0
  let kind := fld p.a1 9 8
  let host := v == 0xFF
  decide (p.a0.toNat < 2048) && !(s.queue p.a0.toNat).bound && fld p.a1 63 24 == 0
    && kind != 0 && fld p.a1 19 12 != 0 && (host && kind == 3 || (decide (v < 64) && (s.tenant v).present))
    && decide (1 ≤ fld p.a1 22 20) && decide (fld p.a1 22 20 ≤ 5)

def execQueueBind (q : Nat) (p : MPkt) (s : State) : Out :=
  command s q (.queueBind q p) 0x03 true p fun s =>
    if !bindOk s p then .fail stBADARG
    else if queueBusy s p.a0.toNat then .fail stBADARG
    else
      match cmdRead s q p.a2 32 with
      | none => .fail stADDR
      | some (bs, s) =>
        match s.newGen with
        | (none, s) => .wait s
        | (some g, s) =>
          .ok (s.setQueue p.a0.toNat
            { bound := true, vmid := fld p.a1 7 0, kind := fld p.a1 9 8, cls := p.a1.extractLsb' 10 2, weight := fld p.a1 19 12
              dom := p.a1.extractLsb' 20 3, trapMode := bitAt p.a1 23, mask := BitVec.ofNat 256 (bytesNat bs), spillVa := p.a3
              spillN := p.a4.toNat, gen := g }) 0

def execQueueUnbind (q : Nat) (p : MPkt) (s : State) : Out :=
  command s q (.queueUnbind q p) 0x04 true p fun s =>
    let n := p.a0.toNat
    cmdNeed (decide (n < 2048) && (s.queue n).bound && n != q) stBADARG (.ok (unbindQueue s n) 0)

def execWindowMap (q : Nat) (p : MPkt) (s : State) : Out :=
  command s q (.windowMap q p) 0x05 true p fun s =>
    let n := p.a0.toNat
    if 64 ≤ n ∨ p.a3.toNat ≥ 2 then .fail stBADARG
    else if p.a3 = 0#64 then .ok (s.modMgmt fun m => { m with windows := AMap.del m.windows n }) 0
    else
      cmdNeed (decide (p.a1.toNat < 64) && (s.tenant p.a1.toNat).present && fld p.a2 29 0 == 0 && fld p.a2 63 52 == 0) stBADARG
        (.ok (s.modMgmt fun m => { m with windows := AMap.set m.windows n { vmid := p.a1.toNat, ipa := p.a2 } }) 0)

/-! ## Tides and translations (R224, R434) -/

/-- Cached copies of a tide entry's lines take stamp 0. -/
def unstamp (s : State) (v e : Nat) : State :=
  let lines := s.coves.flatMap fun c => (c.2.l2.filter fun l => l.2.tide == some (v, e)).map fun l => (c.1, l.1)
  let s := { s with coves := AMap.mapV s.coves fun _ c =>
      { c with l2 := AMap.mapV c.l2 fun _ l => if l.tide = some (v, e) then { l with stamp := 0, tide := none } else l } }
  { s with cores := AMap.mapV s.cores fun k c =>
      { c with l1d := AMap.mapV c.l1d fun ln l => if lines.contains (k / 4, ln / 2) then { l with stamp := 0 } else l } }

/-- Two tide regions overlap. -/
def tidesMeet (a b : Tide) : Bool :=
  decide (a.base.toNat ≤ b.base.toNat + b.size.toNat) && decide (b.base.toNat ≤ a.base.toNat + a.size.toNat)

def execTideSet (q : Nat) (p : MPkt) (s : State) : Out :=
  command s q (.tideSet q p) 0x06 false p fun s =>
    ownVmid s q p.a0
      (let v := p.a0.toNat
       let e := p.a1.toNat
       let t : Tide := { base := p.a2.extractLsb' 21 34, size := p.a3.extractLsb' 32 16, p := p.a3.extractLsb' 48 16 }
       let put (s : State) (w0 w1 : Word) : State :=
         orElse (homePuts s (s.devAgent v 0) ((s.tenant v).args.tidet + w64 (16 * e)) [w0, w1]) s
       if 4096 ≤ e then .fail stBADARG
       else if bitAt p.a3 0 then
         if t.p = 0#16 ∨ (s.tenant v).tides.any (fun o => o.1 != e && tidesMeet o.2 t) then .fail stBADARG
         else
           -- reserved bits of the entry read as zero (R2)
           .ok (put ((unstamp s v e).modTenant v fun x => { x with tides := AMap.set x.tides e t })
             (p.a2 &&& 0x007FFFFFFFE00000#64) (p.a3 &&& 0xFFFFFFFF00000001#64)) 0
       else .ok (put ((unstamp s v e).modTenant v fun x => { x with tides := AMap.del x.tides e }) 0#64 0#64) 0)

/-- A page meets a VA range; length 0 means all. -/
def inRange (va len : Word) (page size : Nat) : Bool :=
  let lo := fld va 54 0
  len = 0#64 || (decide (page < lo + len.toNat) && decide (lo < page + size))

def execTlbShoot (q : Nat) (p : MPkt) (s : State) : Out :=
  command s q (.tlbShoot q p) 0x07 false p fun s =>
    ownVmid s q (w64 (fld p.a0 5 0))
      (let v := fld p.a0 5 0
       let as (g : Bool) (a : Nat) : Bool := bitAt p.a0 6 || g || a == fld p.a0 31 16
       .ok (dropTlb s v (fun e => e.vmid == v && as e.glob e.asid && inRange p.a1 p.a2 (e.vpn * 2 ^ e.size) (2 ^ e.size))
         (fun l => l.vmid == v && as false l.asid && inRange p.a1 p.a2 (l.va % 2 ^ 55) 64)) 0)

/-- GEN_WRAP (R192). -/
def execGenWrap (q : Nat) (p : MPkt) (s : State) : Out :=
  command s q (.genWrap q p) 0x08 true p fun s => .ok (wrapGens s) 0

/-! ## Units (R447, R488, R489) -/

/-- Level and number of FENCE.UNIT. -/
def fenceOk (level n : Nat) : Bool :=
  match level with
  | 0 => decide (n < 16384)
  | 1 | 2 | 3 => decide (n < 1024)
  | 4 => decide (n < 256)
  | _ => false

def execFenceUnit (q : Nat) (p : MPkt) (s : State) : Out :=
  command s q (.fenceUnit q p) 0x09 true p fun s =>
    let level := fld p.a0 2 0
    let n := p.a1.toNat
    cmdNeed (fenceOk level n && fld p.a0 63 4 == 0) stBADARG
      (.ok (if bitAt p.a0 3 then unfenceUnit s level n else fenceUnit s level n) 0)

/-- The clk to an island's next rotation boundary: its slots take turns of eight. -/
def boundaryClk (s : State) : Nat := 8 - s.clk % 8

def execIslandSet (q : Nat) (p : MPkt) (s : State) : Out :=
  command s q (.islandSet q p) 0x0A true p fun s =>
    let mhz := p.a1.toNat
    let is := if p.a0 = 0xFFFF#64 then List.range 1024 else [p.a0.toNat]
    cmdNeed ((p.a0 == 0xFFFF#64 || decide (p.a0.toNat < 1024)) && decide (350 ≤ mhz) && decide (mhz ≤ 1200) && mhz % 25 == 0) stBADARG
      (.ok (is.foldl (fun s i => (s.modCore i fun c => { c with ceiling := mhz }).after (boundaryClk s) (.islandFreqChange i)) s) 0)

def execPowerCap (q : Nat) (p : MPkt) (s : State) : Out :=
  command s q (.powerCap q p) 0x0B true p fun s =>
    cmdNeed (decide (400 ≤ p.a0.toNat) && decide (p.a0.toNat ≤ 1600)) stBADARG (.ok (s.modMgmt fun m => { m with cap := p.a0.toNat }) 0)

/-! ## Time (R484, R486) -/

/-- A deadline that a step may have passed is looked at in the next clk. -/
def recheck (clk : Nat) (d : Duty) : Duty :=
  match d.work with
  | .ev (.tgateDeadline _ _ _) | .ev (.sleepDeadline _) | .ev (.tideTmo _) => { d with due := min d.due (clk + 1) }
  | _ => d

/-- The counter steps forward (R486). -/
def stepTime (s : State) (ns : Nat) : State :=
  let s := s.modMgmt fun m => { m with time := { m.time with ns := ns, slew := 0, slewRem := 0 } }
  { s with duties := s.duties.map (recheck s.clk) }

def execTimeSet (q : Nat) (p : MPkt) (s : State) : Out :=
  command s q (.timeSet q p) 0x0C true p fun s =>
    cmdNeed (decide (s.now ≤ p.a0.toNat)) stBADARG (.ok (stepTime (s.audit 0xFE q (s.queue q).vmid p.a0 (w64 s.now) 0#64 0) p.a0.toNat) 0)

def execTimeCfg (q : Nat) (p : MPkt) (s : State) : Out :=
  command s q (.timeCfg q p) 0x0D true p fun s =>
    cmdNeed (decide (p.a0.toNat < 3)) stBADARG
      (.ok ((s.modMgmt fun m => { m with time := { m.time with src := p.a0.extractLsb' 0 2, near := 0, hold := false, lastRef := m.time.ns } }).after
        (s.clkUntil (s.now + 3000000000)) .timeHoldover) 0)

/-! ## Identity and signatures (R480, R481) -/

/-- The section headers of an ELF64 image: type, offset, size. -/
def elfSections (im : List Byte) : List (Nat × Nat × Nat) :=
  let u (o n : Nat) : Nat := bytesNat ((im.drop o).take n)
  let off := u 0x28 8
  let sz := u 0x3A 2
  (List.range (u 0x3C 2)).map fun k =>
    let h := off + k * sz
    (u (h + 4) 4, u (h + 0x18) 8, u (h + 0x20) 8)

/-- What the digest of R73 covers: each other section's size and contents. -/
def signedBytes (im : List Byte) : List Byte :=
  ((elfSections im).filter fun q => q.1 != 0 && q.1 != 0x70000005).flatMap fun q =>
    natBytes 8 q.2.2 ++ (if q.1 = 8 then [] else (im.drop q.2.1).take q.2.2)

/-- The signature section. -/
def sigOf (im : List Byte) : Option (List Byte) :=
  (elfSections im).findSome? fun q => if q.1 = 0x70000005 ∧ q.2.2 = 144 then some ((im.drop q.2.1).take 144) else none

/-- The key of a key list with an identifier (R481). -/
def findKey (keys : List Byte) (ident : Nat) : Nat → Option (List Byte)
  | 0 => none
  | n + 1 => if bytesNat (keys.take 8) = ident then some ((keys.drop 8).take 132) else findKey (keys.drop 144) ident n

def execImageVerify (q : Nat) (p : MPkt) (s : State) : Out :=
  command s q (.imageVerify q p) 0x0E false p fun s =>
    let v := (s.queue q).vmid
    match cmdRead s q p.a0 p.a1.toNat with
    | none => .fail stADDR
    | some (im, s) =>
      if isHostQ s q then .fail stBADSIG
      else
        let a := (s.tenant v).args
        match cmdRead s q a.keys (144 * a.keyn.toNat), sigOf im with
        | none, _ => .fail stADDR
        | _, none => .fail stBADSIG
        | some (keys, s), some sig =>
          match findKey keys (bytesNat (sig.take 8)) a.keyn.toNat with
          | none => .fail stBADSIG
          | some k =>
            let d := sha512 (signedBytes im)
            if ecdsaOk d (beNat (k.take 66)) (beNat ((k.drop 66).take 66)) (beNat ((sig.drop 8).take 66)) (beNat ((sig.drop 74).take 66)) then
              .ok (s.modTenant v fun t => { t with mten := BitVec.ofNat 512 (bytesNat (sha512 (vecBytes 64 t.mten ++ d))) }) 0
            else .fail stBADSIG

/-- Bytes 0-255 of a quote. -/
def quoteBody (s : State) (vmid : Nat) (nonce : List Byte) : List Byte :=
  fixLen 64 ([1#8, BitVec.ofNat 8 vmid] ++ List.replicate 6 0#8 ++ vecBytes 8 Config.serial ++ vecBytes 4 s.mgmt.fwVer
    ++ vecBytes 4 s.mgmt.rollback) ++ fixLen 64 nonce ++ vecBytes 64 s.mgmt.mfw ++ vecBytes 64 (s.tenant vmid).mten

def execAttestQuote (q : Nat) (p : MPkt) (s : State) : Out :=
  command s q (.attestQuote q p) 0x0F false p fun s =>
    match cmdRead s q p.a0 64 with
    | none => .fail stADDR
    | some (nonce, s) =>
      let body := quoteBody s (s.queue q).vmid nonce
      let sig := fixLen 132 (Config.identitySign s.freeCtr (sha512 body))
      respond { s with freeCtr := s.freeCtr + 1 } q p (fixLen 448 (body ++ sig)) 0

def execFwUpdate (q : Nat) (p : MPkt) (s : State) : Out :=
  command s q (.fwUpdate q p) 0x10 true p fun s =>
    match cmdRead s q p.a0 p.a1.toNat with
    | none => .fail stADDR
    | some (pk, s) =>
      if !Config.packageSigned pk then .fail stBADSIG
      else if Config.packageVersion pk ≤ s.mgmt.rollback then .fail stROLLBACK
      else .ok (s.modMgmt fun m => { m with flash := pk, flashVer := some (Config.packageVersion pk) }) 0

/-! ## Debugging, information, counters, traces (R478, R482, R487) -/

def execDebugRead (q : Nat) (p : MPkt) (s : State) : Out :=
  command s q (.debugRead q p) 0x11 true p fun s =>
    match debugObj p.a0 with
    | none => .fail stBADARG
    | some o =>
      let (bs, g) := debugRead s o
      respond s q p (bs ++ natBytes 8 g.toNat) 0

def execDebugWrite (q : Nat) (p : MPkt) (s : State) : Out :=
  command s q (.debugWrite q p) 0x12 true p fun s =>
    match debugObj p.a0, cmdRead s q p.a1 64 with
    | none, _ => .fail stBADARG
    | some _, none => .fail stADDR
    | some o, some (bs, s) => cmdNeed (decide (p.a2.toNat ≤ 0xFFFE)) stBADARG (.ok (debugWrite s o bs (p.a2.extractLsb' 0 16)) 0)

def execInfoRead (q : Nat) (p : MPkt) (s : State) : Out :=
  command s q (.infoRead q p) 0x13 false p fun s => respond s q p (infoBlock s) 0

/-- A counter by its code. -/
def counter (s : State) (v code : Nat) : Option Nat :=
  if code < 6 then some (((List.range 4).foldl (fun n k => n + (AMap.getD (s.quad k).ctr (8 * v + code) 0#64).toNat) 0) % 2 ^ 64)
  else if 0x10 ≤ code ∧ code ≤ 0x1B then some (AMap.getD (s.tenant v).ctr code 0)
  else none

def execCountRead (q : Nat) (p : MPkt) (s : State) : Out :=
  command s q (.countRead q p) 0x14 false p fun s =>
    let code := p.a1.toNat
    if code = 0x20 ∨ code = 0x21 then respond s q p (natBytes 8 (AMap.getD s.mgmt.ecc code 0)) 0
    else
      ownVmid s q p.a0
        (match counter s p.a0.toNat code with
          | none => .fail stBADARG
          | some n => respond s q p (natBytes 8 n) 0)

def execTraceCfg (q : Nat) (p : MPkt) (s : State) : Out :=
  command s q (.traceCfg q p) 0x15 false p fun s =>
    ownVmid s q p.a0 (.ok (s.modTenant p.a0.toNat fun t => { t with trmask := p.a1 }) 0)

/-- REGION_SWAP (R440, R445). -/
def execRegionSwap (q : Nat) (p : MPkt) (s : State) : Out :=
  command s q (.regionSwap q p) 0x16 true p fun s =>
    let rk : RKey := { vmid := p.a0.toNat, ridx := p.a1.toNat }
    let rg := s.region rk
    if 64 ≤ rk.vmid ∨ 256 ≤ rk.ridx then .fail stBADARG
    else if p.a2 = 0#64 ∧ rg.st = 3 ∧ rg.wave.isNone then .ok (startWave s rk false) 0
    else if p.a2 = 1#64 ∧ rg.st = 4 then .ok (s.askPlacer (handleQuad rg.handle) (restoreReq s rk)) 0
    else .fail stBADARG

/-- BADCMD (R474, R476). -/
def execBadcmd (q : Nat) (cmd : Byte) (p : MPkt) (s : State) : Out :=
  command s q (.badcmd q cmd p) cmd.toNat false p fun _ => .fail stBADCMD

end Sys2Proof.Machine
end

