-- ==== Sys2Proof/Machine/Power.lean ====
section
/-! DEFINITION. Islands, power and heat (R488, R489, R514, R515), the discipline of the time base
(R483-R486), reset and loss of supply (R513, R516). -/

namespace Sys2Proof.Machine

/-! ## Islands (R488, R489, R515) -/

/-- What power capping and thermal throttling allow an island; neither has lowered an unlisted one. -/
def Mgmt.capOf (m : Mgmt) (i : Nat) : Nat := AMap.getD m.capMhz i 1200
def Mgmt.hotOf (m : Mgmt) (i : Nat) : Nat := AMap.getD m.hotMhz i 1200

/-- The lowest of the ceiling and the two limits (R515). -/
def islandMhz (s : State) (i : Nat) : Nat := min (s.core i).ceiling (min (s.mgmt.capOf i) (s.mgmt.hotOf i))

/-- The island runs at what it is allowed. -/
def settleIsland (s : State) (i : Nat) : State := s.modCore i fun c => { c with mhz := islandMhz s i }

/-- The change of ISLAND.SET at the island's rotation boundary. -/
def execIslandFreqChange (i : Nat) (s : State) : Out := .next (settleIsland s i)

/-- A record of the management core in the ring of every tenant that enables class 5 (R487, R514). -/
def mgmtTrace (s : State) (code : Nat) (a0 a1 : Word) : State :=
  (AMap.keys s.tenants).foldl (fun s v => s.trace v 5 0 code a0 a1) s

/-- The island run anew, and event 0x30 where its frequency changed (R489). -/
def capIsland (s : State) (i : Nat) : State :=
  let old := (s.core i).mhz
  let s := settleIsland s i
  if (s.core i).mhz = old then s else mgmtTrace s 0x30 (w64 i) (w64 (s.core i).mhz)

/-- 25 MHz less for power; 350 MHz is the least (R489). -/
def capLower (s : State) (i : Nat) : State :=
  let f := (s.core i).mhz
  if f ≤ 350 then s else capIsland (s.modMgmt fun m => { m with capMhz := AMap.set m.capMhz i (f - 25) }) i

/-- 25 MHz more, up to the ceiling (R489). -/
def capRaise (s : State) (i : Nat) : State :=
  let f := s.mgmt.capOf i
  if (s.core i).ceiling ≤ f then s
  else capIsland (s.modMgmt fun m => { m with capMhz := AMap.set m.capMhz i (f + 25) }) i

/-- Heat: 25 MHz less from 95 degrees, 25 MHz more below 90 (R515). -/
def heatIsland (s : State) (mC : Int) (i : Nat) : State :=
  let f := (s.core i).mhz
  let h := s.mgmt.hotOf i
  let put (n : Nat) : State := settleIsland (s.modMgmt fun m => { m with hotMhz := AMap.set m.hotMhz i n }) i
  if 95000 ≤ mC then (if f ≤ 350 then s else put (f - 25))
  else if mC < 90000 ∧ h < 1200 then put (h + 25)
  else s

/-- The average package power over the samples of the last 1 ms, in mW (R489). -/
def powerAverage (m : Mgmt) : Nat := if m.power.isEmpty then 0 else m.power.sum / m.power.length

/-- The die of a quadrant reaches 95 degrees: event 0x32 (R514). -/
def dieHot (s : State) (old : List Int) (q : Nat) : State :=
  let t := s.mgmt.temps.getD q 0
  if 95000 ≤ t ∧ old.getD q 0 < 95000 then mgmtTrace s 0x32 (w64 q) (BitVec.ofInt 64 t) else s

/-- Everything volatile as it is after reset (R516): what stays is what the module is fitted with, the flash and
the fused counter, and the model's own turns and draws. The firmware in flash runs, and its version is fused. -/
def resetOf (s : State) : State :=
  let pk := s.mgmt.flashVer.map fun _ => s.mgmt.flash
  let mgmt : Mgmt :=
    { State.reset.mgmt with fwVer := Config.runningVersion pk, mfw := Config.runningMeasure pk, flash := s.mgmt.flash
                            flashVer := s.mgmt.flashVer, rollback := s.mgmt.flashVer.getD s.mgmt.rollback }
  { State.reset with fit := s.fit, turns := s.turns, freeCtr := s.freeCtr, mgmt := mgmt }

/-- Reset held or power lost: volatile state is gone and nothing runs until a reset (R513, R515). -/
def powerLost (s : State) : State :=
  let keep : Mgmt := { State.reset.mgmt with flash := s.mgmt.flash, flashVer := s.mgmt.flashVer, rollback := s.mgmt.rollback, off := true }
  { State.reset with fit := s.fit, turns := s.turns, freeCtr := s.freeCtr, mgmt := keep }

/-- POWER_SAMPLE: package power in mW and the four dies' temperatures in thousandths of a degree. -/
def execPowerSample (mw : Nat) (temps : List Int) (s : State) : Out :=
  let old := s.mgmt.temps
  if temps.any fun t => decide (105000 ≤ t) then .next (powerLost s)
  else
    let s := s.modMgmt fun m => { m with power := (m.power ++ [mw]).drop (m.power.length - 9), temps := temps }
    let avg := powerAverage s.mgmt
    let cap := 1000 * s.mgmt.cap
    let islands := List.range 1024
    let s :=
      if cap < avg then islands.foldl capLower s
      else if avg * 10 < cap * 9 then islands.foldl capRaise s
      else s
    let s := (List.range 4).foldl (fun s q => dieHot s old q) s
    .next (islands.foldl (fun s i => heatIsland s (temps.getD (i / 256) 0) i) s)

/-- POWER_TRACE: event 0x31, each ms. -/
def execPowerTrace (s : State) : Out :=
  .next (mgmtTrace s 0x31 (w64 (powerAverage s.mgmt)) (BitVec.ofInt 64 (s.mgmt.temps.foldl max (s.mgmt.temps.getD 0 0))))

/-! ## The time base's reference (R484-R486) -/

/-- A reference sample: OFFS is measured and slewing set to remove it. -/
def refSample (s : State) (ref : Int) : State :=
  let offs := ref - s.now
  let s := s.modMgmt fun m =>
    { m with time := { m.time with offs := offs, slew := offs, slewRem := 0, near := if offs.natAbs ≤ 100 then min 2 (m.time.near + 1) else 0
                                   hold := false, lastRef := m.time.ns } }
  s.after (s.clkUntil (s.now + 3000000000)) .timeHoldover

/-- PTM_EXCHANGE: the root's PTM time now, and the reference from the latest TSYNC pair. -/
def execPtmExchange (ptm : Word) (s : State) : Out :=
  match s.mgmt.time.src, s.mgmt.time.tsync with
  | 1#2, some (root, t1588) => .next (refSample s ((t1588.toNat : Int) + ptm.toNat - root.toNat))
  | _, _ => .next s

/-- PPS_EDGE: an edge that a message has named. -/
def execPpsEdge (s : State) : Out :=
  match s.mgmt.time.tod with
  | none => .next s
  | some sec =>
    let s' := s.modMgmt fun m => { m with time := { m.time with tod := none } }
    if s.mgmt.time.src = 2#2 then .next (refSample s' (1000000000 * (sec : Int))) else .next s'

/-- TOD_MESSAGE: a well-formed message with its valid bit names the seconds of the next edge. -/
def execTodMessage (bytes : List Byte) (s : State) : Out :=
  let body := (bytes.drop 2).take 9
  if bytes.length = 12 ∧ bytes.take 2 = [0xA5#8, 0x5A#8] ∧ bytes.getD 11 0#8 = body.foldl (· + ·) 0#8 ∧ bitAt (bytes.getD 10 0#8) 0 then
    .next (s.modMgmt fun m => { m with time := { m.time with tod := some (bytesNat ((bytes.drop 2).take 8)) } })
  else .next s

/-- TIME_HOLDOVER: no reference for 3 s (R485). -/
def execTimeHoldover (s : State) : Out :=
  if s.mgmt.time.lastRef + 3000000000 ≤ s.now then .next (s.modMgmt fun m => { m with time := { m.time with hold := true } })
  else if s.mgmt.time.lastRef + 2999000000 ≤ s.now then
    -- the time base was slewed meanwhile
    .next (s.after (s.clkUntil (s.mgmt.time.lastRef + 3000000000)) .timeHoldover)
  else .next s

/-! ## Reset (R513, R516) -/

def execColdReset (s : State) : Out := .next (resetOf s)

def execWarmReset (s : State) : Out := .next (resetOf s)

def execSupplyOutOfLimits (s : State) : Out := .next (powerLost s)

end Sys2Proof.Machine
end

