-- ==== Sys2Proof/Machine/Dispatch.lean ====
section
/-! DEFINITION. One arm for each row of the table of operations and events: its meaning. -/

namespace Sys2Proof.Machine

/-- The effect of a step on the machine. -/
def exec (i : Instr) (s : State) : Host.Outcome State Fault Refusal :=
  match i with
  | .load op rd rs1 imm => Sys2Proof.Machine.execLoad op rd rs1 imm s
  | .store size rs2 rs1 imm => Sys2Proof.Machine.execStore size rs2 rs1 imm s
  | .opImm op rd rs1 imm => Sys2Proof.Machine.execOpImm op rd rs1 imm s
  | .opImm32 op rd rs1 imm => Sys2Proof.Machine.execOpImm32 op rd rs1 imm s
  | .op op rd rs1 rs2 => Sys2Proof.Machine.execOp op rd rs1 rs2 s
  | .op32 op rd rs1 rs2 => Sys2Proof.Machine.execOp32 op rd rs1 rs2 s
  | .lui rd imm => Sys2Proof.Machine.execLui rd imm s
  | .auipc rd imm => Sys2Proof.Machine.execAuipc rd imm s
  | .jal rd off => Sys2Proof.Machine.execJal rd off s
  | .jalr rd rs1 imm => Sys2Proof.Machine.execJalr rd rs1 imm s
  | .branch op rs1 rs2 off => Sys2Proof.Machine.execBranch op rs1 rs2 off s
  | .fence rd rs1 imm => Sys2Proof.Machine.execFence rd rs1 imm s
  | .fenceI rd rs1 imm => Sys2Proof.Machine.execFenceI rd rs1 imm s
  | .ecall => Sys2Proof.Machine.execEcall s
  | .ebreak => Sys2Proof.Machine.execEbreak s
  | .csrrw rd rs1 csr => Sys2Proof.Machine.execCsrrw rd rs1 csr s
  | .csrrs rd rs1 csr => Sys2Proof.Machine.execCsrrs rd rs1 csr s
  | .csrrc rd rs1 csr => Sys2Proof.Machine.execCsrrc rd rs1 csr s
  | .csrrwi rd zimm csr => Sys2Proof.Machine.execCsrrwi rd zimm csr s
  | .csrrsi rd zimm csr => Sys2Proof.Machine.execCsrrsi rd zimm csr s
  | .csrrci rd zimm csr => Sys2Proof.Machine.execCsrrci rd zimm csr s
  | .vadd m f vd vs1 vs2 => Sys2Proof.Machine.execVadd m f vd vs1 vs2 s
  | .vsub m f vd vs1 vs2 => Sys2Proof.Machine.execVsub m f vd vs1 vs2 s
  | .vmul m f vd vs1 vs2 => Sys2Proof.Machine.execVmul m f vd vs1 vs2 s
  | .vfma m f vd vs1 vs2 => Sys2Proof.Machine.execVfma m f vd vs1 vs2 s
  | .vmin m f vd vs1 vs2 => Sys2Proof.Machine.execVmin m f vd vs1 vs2 s
  | .vmax m f vd vs1 vs2 => Sys2Proof.Machine.execVmax m f vd vs1 vs2 s
  | .vand m f vd vs1 vs2 => Sys2Proof.Machine.execVand m f vd vs1 vs2 s
  | .vor m f vd vs1 vs2 => Sys2Proof.Machine.execVor m f vd vs1 vs2 s
  | .vxor m f vd vs1 vs2 => Sys2Proof.Machine.execVxor m f vd vs1 vs2 s
  | .vsll m f vd vs1 vs2 => Sys2Proof.Machine.execVsll m f vd vs1 vs2 s
  | .vsrl m f vd vs1 vs2 => Sys2Proof.Machine.execVsrl m f vd vs1 vs2 s
  | .vsra m f vd vs1 vs2 => Sys2Proof.Machine.execVsra m f vd vs1 vs2 s
  | .vclt m f vd vs1 vs2 => Sys2Proof.Machine.execVclt m f vd vs1 vs2 s
  | .vcle m f vd vs1 vs2 => Sys2Proof.Machine.execVcle m f vd vs1 vs2 s
  | .vceq m f vd vs1 vs2 => Sys2Proof.Machine.execVceq m f vd vs1 vs2 s
  | .vsel f vd vs1 vs2 => Sys2Proof.Machine.execVsel f vd vs1 vs2 s
  | .vdiv m f vd vs1 vs2 => Sys2Proof.Machine.execVdiv m f vd vs1 vs2 s
  | .vsqrt m vd vs1 => Sys2Proof.Machine.execVsqrt m vd vs1 s
  | .vrcp m vd vs1 => Sys2Proof.Machine.execVrcp m vd vs1 s
  | .vexp2 m vd vs1 => Sys2Proof.Machine.execVexp2 m vd vs1 s
  | .vlog2 m vd vs1 => Sys2Proof.Machine.execVlog2 m vd vs1 s
  | .vrsum m f vd vs1 => Sys2Proof.Machine.execVrsum m f vd vs1 s
  | .vrmax m f vd vs1 => Sys2Proof.Machine.execVrmax m f vd vs1 s
  | .vrmin m f vd vs1 => Sys2Proof.Machine.execVrmin m f vd vs1 s
  | .vperm m f vd vs1 vs2 => Sys2Proof.Machine.execVperm m f vd vs1 vs2 s
  | .vslide m f vd vs1 rs2 => Sys2Proof.Machine.execVslide m f vd vs1 rs2 s
  | .vsplat m f vd rs1 => Sys2Proof.Machine.execVsplat m f vd rs1 s
  | .vxtr f rd vs1 rs2 => Sys2Proof.Machine.execVxtr f rd vs1 rs2 s
  | .vcvt m src dst vd vs1 => Sys2Proof.Machine.execVcvt m src dst vd vs1 s
  | .vq m f vd vs1 rs2 => Sys2Proof.Machine.execVq m f vd vs1 rs2 s
  | .vdq m f vd vs1 rs2 => Sys2Proof.Machine.execVdq m f vd vs1 rs2 s
  | .vrng m vd => Sys2Proof.Machine.execVrng m vd s
  | .vscan m f vd vs1 => Sys2Proof.Machine.execVscan m f vd vs1 s
  | .vmov m f vd vs1 => Sys2Proof.Machine.execVmov m f vd vs1 s
  | .vld m vd rs1 => Sys2Proof.Machine.execVld m vd rs1 s
  | .vst m vs rs1 => Sys2Proof.Machine.execVst m vs rs1 s
  | .vlds m sz vd rs1 rs2 => Sys2Proof.Machine.execVlds m sz vd rs1 rs2 s
  | .vsts m sz vs rs1 rs2 => Sys2Proof.Machine.execVsts m sz vs rs1 rs2 s
  | .vlx m sz scl vd rs1 vs2 => Sys2Proof.Machine.execVlx m sz scl vd rs1 vs2 s
  | .vsx m sz scl vs rs1 vs2 => Sys2Proof.Machine.execVsx m sz scl vs rs1 vs2 s
  | .vldS vd rs1 => Sys2Proof.Machine.execVldS vd rs1 s
  | .bufld buf vd rs1 => Sys2Proof.Machine.execBufld buf vd rs1 s
  | .bufst buf vs rs1 => Sys2Proof.Machine.execBufst buf vs rs1 s
  | .vldB b vd rs1 rs2 => Sys2Proof.Machine.execVldB b vd rs1 rs2 s
  | .ldS rd rs1 => Sys2Proof.Machine.execLdS rd rs1 s
  | .ldSe rd rs1 => Sys2Proof.Machine.execLdSe rd rs1 s
  | .ldB dbl b rd rs1 rs2 => Sys2Proof.Machine.execLdB dbl b rd rs1 rs2 s
  | .ldAcq sz sc rd rs1 => Sys2Proof.Machine.execLdAcq sz sc rd rs1 s
  | .stRel sz sc rs2 rs1 => Sys2Proof.Machine.execStRel sz sc rs2 rs1 s
  | .feSet rs1 => Sys2Proof.Machine.execFeSet rs1 s
  | .feClr rs1 => Sys2Proof.Machine.execFeClr rs1 s
  | .amoAdd o dbl sc rd rs1 rs2 => Sys2Proof.Machine.execAmoAdd o dbl sc rd rs1 rs2 s
  | .amoAnd o dbl sc rd rs1 rs2 => Sys2Proof.Machine.execAmoAnd o dbl sc rd rs1 rs2 s
  | .amoOr o dbl sc rd rs1 rs2 => Sys2Proof.Machine.execAmoOr o dbl sc rd rs1 rs2 s
  | .amoXor o dbl sc rd rs1 rs2 => Sys2Proof.Machine.execAmoXor o dbl sc rd rs1 rs2 s
  | .amoMin o dbl sc rd rs1 rs2 => Sys2Proof.Machine.execAmoMin o dbl sc rd rs1 rs2 s
  | .amoMax o dbl sc rd rs1 rs2 => Sys2Proof.Machine.execAmoMax o dbl sc rd rs1 rs2 s
  | .amoMinu o dbl sc rd rs1 rs2 => Sys2Proof.Machine.execAmoMinu o dbl sc rd rs1 rs2 s
  | .amoMaxu o dbl sc rd rs1 rs2 => Sys2Proof.Machine.execAmoMaxu o dbl sc rd rs1 rs2 s
  | .amoSwap o dbl sc rd rs1 rs2 => Sys2Proof.Machine.execAmoSwap o dbl sc rd rs1 rs2 s
  | .amoCas o dbl sc rd rs1 rs2 => Sys2Proof.Machine.execAmoCas o dbl sc rd rs1 rs2 s
  | .amoFadd o sc rd rs1 rs2 => Sys2Proof.Machine.execAmoFadd o sc rd rs1 rs2 s
  | .fenceSc k sc => Sys2Proof.Machine.execFenceSc k sc s
  | .tideAdv rs1 => Sys2Proof.Machine.execTideAdv rs1 s
  | .tideRd rd rs1 => Sys2Proof.Machine.execTideRd rd rs1 s
  | .lkTake sc rd rs1 => Sys2Proof.Machine.execLkTake sc rd rs1 s
  | .lkGive sc rs1 => Sys2Proof.Machine.execLkGive sc rs1 s
  | .qGet q rd => Sys2Proof.Machine.execQGet q rd s
  | .vqGet q vd => Sys2Proof.Machine.execVqGet q vd s
  | .qStat q rd => Sys2Proof.Machine.execQStat q rd s
  | .qClose q => Sys2Proof.Machine.execQClose q s
  | .pref l2 w rs1 rs2 => Sys2Proof.Machine.execPref l2 w rs1 rs2 s
  | .mxDesc md rs1 rs2 => Sys2Proof.Machine.execMxDesc md rs1 rs2 s
  | .mxTcfg td rs1 => Sys2Proof.Machine.execMxTcfg td rs1 s
  | .mxTcfgRoute td rs1 => Sys2Proof.Machine.execMxTcfgRoute td rs1 s
  | .mxZero td => Sys2Proof.Machine.execMxZero td s
  | .mxMma td a b => Sys2Proof.Machine.execMxMma td a b s
  | .mxMmq td a w sg => Sys2Proof.Machine.execMxMmq td a w sg s
  | .mxMms td a b vm q => Sys2Proof.Machine.execMxMms td a b vm q s
  | .mxDrn td rs1 => Sys2Proof.Machine.execMxDrn td rs1 s
  | .mxRd td vd rs1 => Sys2Proof.Machine.execMxRd td vd rs1 s
  | .mxWr td vs rs1 => Sys2Proof.Machine.execMxWr td vs rs1 s
  | .mxWait td => Sys2Proof.Machine.execMxWait td s
  | .mxRowp td rs1 => Sys2Proof.Machine.execMxRowp td rs1 s
  | .mxStat td rd => Sys2Proof.Machine.execMxStat td rd s
  | .cpPost vs rs1 => Sys2Proof.Machine.execCpPost vs rs1 s
  | .cpResume vs rs1 => Sys2Proof.Machine.execCpResume vs rs1 s
  | .cpCancel vs rs1 => Sys2Proof.Machine.execCpCancel vs rs1 s
  | .cpBind rs1 rs2 => Sys2Proof.Machine.execCpBind rs1 rs2 s
  | .post rs1 rs2 => Sys2Proof.Machine.execPost rs1 rs2 s
  | .srpProbe rd rs1 rs2 => Sys2Proof.Machine.execSrpProbe rd rs1 rs2 s
  | .srpRec rs1 rs2 => Sys2Proof.Machine.execSrpRec rs1 rs2 s
  | .srpInv rs1 => Sys2Proof.Machine.execSrpInv rs1 s
  | .srpInvAll => Sys2Proof.Machine.execSrpInvAll s
  | .srpStat c rd => Sys2Proof.Machine.execSrpStat c rd s
  | .fork d rs1 rs2 => Sys2Proof.Machine.execFork d rs1 rs2 s
  | .join rs1 => Sys2Proof.Machine.execJoin rs1 s
  | .xcall rs1 => Sys2Proof.Machine.execXcall rs1 s
  | .xret rs1 => Sys2Proof.Machine.execXret rs1 s
  | .frmNew rd rs1 => Sys2Proof.Machine.execFrmNew rd rs1 s
  | .frmFree rs1 => Sys2Proof.Machine.execFrmFree rs1 s
  | .msgSend rs1 rs2 => Sys2Proof.Machine.execMsgSend rs1 rs2 s
  | .msgMsk => Sys2Proof.Machine.execMsgMsk s
  | .msgUnm => Sys2Proof.Machine.execMsgUnm s
  | .msgRet => Sys2Proof.Machine.execMsgRet s
  | .wait => Sys2Proof.Machine.execWait s
  | .sleepT rs1 => Sys2Proof.Machine.execSleepT rs1 s
  | .yield => Sys2Proof.Machine.execYield s
  | .genRd sp rd rs1 => Sys2Proof.Machine.execGenRd sp rd rs1 s
  | .genNew rd => Sys2Proof.Machine.execGenNew rd s
  | .genScrub sp rs1 => Sys2Proof.Machine.execGenScrub sp rs1 s
  | .tret => Sys2Proof.Machine.execTret s
  | .gctxRes rs1 => Sys2Proof.Machine.execGctxRes rs1 s
  | .gctxKill rs1 => Sys2Proof.Machine.execGctxKill rs1 s
  | .plcFind rd rs1 => Sys2Proof.Machine.execPlcFind rd rs1 s
  | .plcLoad rd rs1 rs2 => Sys2Proof.Machine.execPlcLoad rd rs1 rs2 s
  | .plcRel rs1 => Sys2Proof.Machine.execPlcRel rs1 s
  | .cfgWr rs1 rs2 => Sys2Proof.Machine.execCfgWr rs1 rs2 s
  | .cfgWrRestamp rs1 rs2 => Sys2Proof.Machine.execCfgWrRestamp rs1 rs2 s
  | .cfgChk rd rs1 => Sys2Proof.Machine.execCfgChk rd rs1 s
  | .gAdd n => Sys2Proof.Machine.execGAdd n s
  | .gSub n => Sys2Proof.Machine.execGSub n s
  | .gMul n => Sys2Proof.Machine.execGMul n s
  | .gMulh n => Sys2Proof.Machine.execGMulh n s
  | .gDiv n => Sys2Proof.Machine.execGDiv n s
  | .gRem n => Sys2Proof.Machine.execGRem n s
  | .gAnd n => Sys2Proof.Machine.execGAnd n s
  | .gOr n => Sys2Proof.Machine.execGOr n s
  | .gXor n => Sys2Proof.Machine.execGXor n s
  | .gShl n => Sys2Proof.Machine.execGShl n s
  | .gShr n => Sys2Proof.Machine.execGShr n s
  | .gSra n => Sys2Proof.Machine.execGSra n s
  | .gMin n => Sys2Proof.Machine.execGMin n s
  | .gMax n => Sys2Proof.Machine.execGMax n s
  | .gTlt n => Sys2Proof.Machine.execGTlt n s
  | .gTle n => Sys2Proof.Machine.execGTle n s
  | .gTeq n => Sys2Proof.Machine.execGTeq n s
  | .gTne n => Sys2Proof.Machine.execGTne n s
  | .gTltu n => Sys2Proof.Machine.execGTltu n s
  | .gTleu n => Sys2Proof.Machine.execGTleu n s
  | .gFadd n => Sys2Proof.Machine.execGFadd n s
  | .gFsub n => Sys2Proof.Machine.execGFsub n s
  | .gFmul n => Sys2Proof.Machine.execGFmul n s
  | .gFfma n => Sys2Proof.Machine.execGFfma n s
  | .gFmin n => Sys2Proof.Machine.execGFmin n s
  | .gFmax n => Sys2Proof.Machine.execGFmax n s
  | .gFdiv n => Sys2Proof.Machine.execGFdiv n s
  | .gFsqrt n => Sys2Proof.Machine.execGFsqrt n s
  | .gFrcp n => Sys2Proof.Machine.execGFrcp n s
  | .gFexp2 n => Sys2Proof.Machine.execGFexp2 n s
  | .gFlog2 n => Sys2Proof.Machine.execGFlog2 n s
  | .gFlt n => Sys2Proof.Machine.execGFlt n s
  | .gFle n => Sys2Proof.Machine.execGFle n s
  | .gFeq n => Sys2Proof.Machine.execGFeq n s
  | .gCvt n => Sys2Proof.Machine.execGCvt n s
  | .gQcvt n => Sys2Proof.Machine.execGQcvt n s
  | .gDq n => Sys2Proof.Machine.execGDq n s
  | .gRng n => Sys2Proof.Machine.execGRng n s
  | .gMov n => Sys2Proof.Machine.execGMov n s
  | .gMovi n => Sys2Proof.Machine.execGMovi n s
  | .gFrd n => Sys2Proof.Machine.execGFrd n s
  | .gFwr n => Sys2Proof.Machine.execGFwr n s
  | .gNull n => Sys2Proof.Machine.execGNull n s
  | .gSteer n => Sys2Proof.Machine.execGSteer n s
  | .gMerge n => Sys2Proof.Machine.execGMerge n s
  | .gOmerge n => Sys2Proof.Machine.execGOmerge n s
  | .gBro n => Sys2Proof.Machine.execGBro n s
  | .gCall n => Sys2Proof.Machine.execGCall n s
  | .gRet n => Sys2Proof.Machine.execGRet n s
  | .gCcall n => Sys2Proof.Machine.execGCcall n s
  | .gTrap n => Sys2Proof.Machine.execGTrap n s
  | .gInx n => Sys2Proof.Machine.execGInx n s
  | .gFnew n => Sys2Proof.Machine.execGFnew n s
  | .gFfree n => Sys2Proof.Machine.execGFfree n s
  | .gTget n => Sys2Proof.Machine.execGTget n s
  | .gTset n => Sys2Proof.Machine.execGTset n s
  | .gPurge n => Sys2Proof.Machine.execGPurge n s
  | .gLd n => Sys2Proof.Machine.execGLd n s
  | .gSt n => Sys2Proof.Machine.execGSt n s
  | .gLdb n => Sys2Proof.Machine.execGLdb n s
  | .gLda n => Sys2Proof.Machine.execGLda n s
  | .gStrl n => Sys2Proof.Machine.execGStrl n s
  | .gIrd n => Sys2Proof.Machine.execGIrd n s
  | .gIwr n => Sys2Proof.Machine.execGIwr n s
  | .gFence n => Sys2Proof.Machine.execGFence n s
  | .gPref n => Sys2Proof.Machine.execGPref n s
  | .gAmo n => Sys2Proof.Machine.execGAmo n s
  | .gLkt n => Sys2Proof.Machine.execGLkt n s
  | .gLkg n => Sys2Proof.Machine.execGLkg n s
  | .gMcomb n => Sys2Proof.Machine.execGMcomb n s
  | .gPost n => Sys2Proof.Machine.execGPost n s
  | .gGat n => Sys2Proof.Machine.execGGat n s
  | .gSct n => Sys2Proof.Machine.execGSct n s
  | .gCpy n => Sys2Proof.Machine.execGCpy n s
  | .gTadv n => Sys2Proof.Machine.execGTadv n s
  | .gProbe n => Sys2Proof.Machine.execGProbe n s
  | .gRec n => Sys2Proof.Machine.execGRec n s
  | .gSgen n => Sys2Proof.Machine.execGSgen n s
  | .gRpt n => Sys2Proof.Machine.execGRpt n s
  | .gCnt n => Sys2Proof.Machine.execGCnt n s
  | .gCtok n => Sys2Proof.Machine.execGCtok n s
  | .gDly n => Sys2Proof.Machine.execGDly n s
  | .gMxp n => Sys2Proof.Machine.execGMxp n s
  | .gFin n => Sys2Proof.Machine.execGFin n s
  | .gTnow n => Sys2Proof.Machine.execGTnow n s
  | .gTgate n => Sys2Proof.Machine.execGTgate n s
  | .rotationBoundary core => Sys2Proof.Machine.execRotationBoundary core s
  | .dequePop slot => Sys2Proof.Machine.execDequePop slot s
  | .dequeSteal slot => Sys2Proof.Machine.execDequeSteal slot s
  | .joinwinExpiry slot => Sys2Proof.Machine.execJoinwinExpiry slot s
  | .spillSaveComplete slot => Sys2Proof.Machine.execSpillSaveComplete slot s
  | .spillRestore slot => Sys2Proof.Machine.execSpillRestore slot s
  | .messageArrival m => Sys2Proof.Machine.execMessageArrival m s
  | .msgOverflowWrite m bound => Sys2Proof.Machine.execMsgOverflowWrite m bound s
  | .messageDelivery slot => Sys2Proof.Machine.execMessageDelivery slot s
  | .sleepDeadline slot => Sys2Proof.Machine.execSleepDeadline slot s
  | .missFillArrival slot => Sys2Proof.Machine.execMissFillArrival slot s
  | .tlbWalkComplete slot => Sys2Proof.Machine.execTlbWalkComplete slot s
  | .divComplete slot => Sys2Proof.Machine.execDivComplete slot s
  | .coalesceDrainTimeout core line => Sys2Proof.Machine.execCoalesceDrainTimeout core line s
  | .meshBurstMerge cove => Sys2Proof.Machine.execMeshBurstMerge cove s
  | .l2WriteForward cove line => Sys2Proof.Machine.execL2WriteForward cove line s
  | .l1dLineExpiry core line => Sys2Proof.Machine.execL1dLineExpiry core line s
  | .syncLoadComplete slot => Sys2Proof.Machine.execSyncLoadComplete slot s
  | .boundedLoadComplete slot => Sys2Proof.Machine.execBoundedLoadComplete slot s
  | .tideTmo slot => Sys2Proof.Machine.execTideTmo slot s
  | .amoComplete slot => Sys2Proof.Machine.execAmoComplete slot s
  | .lockGranted slot => Sys2Proof.Machine.execLockGranted slot s
  | .mxComplete core => Sys2Proof.Machine.execMxComplete core s
  | .patrolScrub hits => Sys2Proof.Machine.execPatrolScrub hits s
  | .copyStart cove => Sys2Proof.Machine.execCopyStart cove s
  | .copyBeat cove => Sys2Proof.Machine.execCopyBeat cove s
  | .copyComplete cove id => Sys2Proof.Machine.execCopyComplete cove id s
  | .copyPause cove id => Sys2Proof.Machine.execCopyPause cove id s
  | .srpVerdict slot => Sys2Proof.Machine.execSrpVerdict slot s
  | .replayCopyComplete quad vmid key => Sys2Proof.Machine.execReplayCopyComplete quad vmid key s
  | .recordCopyComplete quad vmid key => Sys2Proof.Machine.execRecordCopyComplete quad vmid key s
  | .tokenMatch rk t src => Sys2Proof.Machine.execTokenMatch rk t src s
  | .matchRefill rk x y => Sys2Proof.Machine.execMatchRefill rk x y s
  | .countToken rk ik idx null => Sys2Proof.Machine.execCountToken rk ik idx null s
  | .instanceCommit rk ik => Sys2Proof.Machine.execInstanceCommit rk ik s
  | .commitToken rk ik cell => Sys2Proof.Machine.execCommitToken rk ik cell s
  | .gFaultReport rk ik => Sys2Proof.Machine.execGFaultReport rk ik s
  | .buoyTokenArrival rk buoy t => Sys2Proof.Machine.execBuoyTokenArrival rk buoy t s
  | .moorDelivery vmid desc => Sys2Proof.Machine.execMoorDelivery vmid desc s
  | .controlTokenArrival rk ik idx finish => Sys2Proof.Machine.execControlTokenArrival rk ik idx finish s
  | .streamLoopStart rk ik cell => Sys2Proof.Machine.execStreamLoopStart rk ik cell s
  | .streamLoopFinish rk ik cell => Sys2Proof.Machine.execStreamLoopFinish rk ik cell s
  | .tgateDeadline rk ik idx => Sys2Proof.Machine.execTgateDeadline rk ik idx s
  | .handoverToken rk x y => Sys2Proof.Machine.execHandoverToken rk x y s
  | .placementRequest quad => Sys2Proof.Machine.execPlacementRequest quad s
  | .overlayLoadComplete rk x y slot => Sys2Proof.Machine.execOverlayLoadComplete rk x y slot s
  | .cellSave rk x y => Sys2Proof.Machine.execCellSave rk x y s
  | .slackWaveEnd rk => Sys2Proof.Machine.execSlackWaveEnd rk s
  | .regionRestore rk => Sys2Proof.Machine.execRegionRestore rk s
  | .packetIngress q slot w => Sys2Proof.Machine.execPacketIngress q slot w s
  | .lTaskLaunch q => Sys2Proof.Machine.execLTaskLaunch q s
  | .gLaunch q => Sys2Proof.Machine.execGLaunch q s
  | .hostMemoryAccess write pa n data => Sys2Proof.Machine.execHostMemoryAccess write pa n data s
  | .tsyncWrite ptm t1588 => Sys2Proof.Machine.execTsyncWrite ptm t1588 s
  | .registerWriteIgnored off => Sys2Proof.Machine.execRegisterWriteIgnored off s
  | .tenantCreate q p => Sys2Proof.Machine.execTenantCreate q p s
  | .tenantDestroy q p => Sys2Proof.Machine.execTenantDestroy q p s
  | .queueBind q p => Sys2Proof.Machine.execQueueBind q p s
  | .queueUnbind q p => Sys2Proof.Machine.execQueueUnbind q p s
  | .windowMap q p => Sys2Proof.Machine.execWindowMap q p s
  | .tideSet q p => Sys2Proof.Machine.execTideSet q p s
  | .tlbShoot q p => Sys2Proof.Machine.execTlbShoot q p s
  | .genWrap q p => Sys2Proof.Machine.execGenWrap q p s
  | .genWrapComplete => Sys2Proof.Machine.execGenWrapComplete s
  | .fenceUnit q p => Sys2Proof.Machine.execFenceUnit q p s
  | .islandSet q p => Sys2Proof.Machine.execIslandSet q p s
  | .islandFreqChange island => Sys2Proof.Machine.execIslandFreqChange island s
  | .powerCap q p => Sys2Proof.Machine.execPowerCap q p s
  | .timeSet q p => Sys2Proof.Machine.execTimeSet q p s
  | .timeCfg q p => Sys2Proof.Machine.execTimeCfg q p s
  | .imageVerify q p => Sys2Proof.Machine.execImageVerify q p s
  | .attestQuote q p => Sys2Proof.Machine.execAttestQuote q p s
  | .fwUpdate q p => Sys2Proof.Machine.execFwUpdate q p s
  | .debugRead q p => Sys2Proof.Machine.execDebugRead q p s
  | .debugWrite q p => Sys2Proof.Machine.execDebugWrite q p s
  | .infoRead q p => Sys2Proof.Machine.execInfoRead q p s
  | .countRead q p => Sys2Proof.Machine.execCountRead q p s
  | .traceCfg q p => Sys2Proof.Machine.execTraceCfg q p s
  | .regionSwap q p => Sys2Proof.Machine.execRegionSwap q p s
  | .badcmd q cmd p => Sys2Proof.Machine.execBadcmd q cmd p s
  | .powerSample mw temps => Sys2Proof.Machine.execPowerSample mw temps s
  | .powerTrace => Sys2Proof.Machine.execPowerTrace s
  | .ptmExchange ptm => Sys2Proof.Machine.execPtmExchange ptm s
  | .ppsEdge => Sys2Proof.Machine.execPpsEdge s
  | .todMessage bytes => Sys2Proof.Machine.execTodMessage bytes s
  | .timeHoldover => Sys2Proof.Machine.execTimeHoldover s
  | .coldReset => Sys2Proof.Machine.execColdReset s
  | .warmReset => Sys2Proof.Machine.execWarmReset s
  | .supplyOutOfLimits => Sys2Proof.Machine.execSupplyOutOfLimits s
  | .illegalInstruction w => Sys2Proof.Machine.execIllegalInstruction w s
  | .fetchPageX va => Sys2Proof.Machine.execFetchPageX va s
  | .placerComplete slot => Sys2Proof.Machine.execPlacerComplete slot s
  | .memoryReply rk ik idx => Sys2Proof.Machine.execMemoryReply rk ik idx s
  | .msixUnmask fn vec => Sys2Proof.Machine.execMsixUnmask fn vec s
  | .queueWindowWrite q off data => Sys2Proof.Machine.execQueueWindowWrite q off data s

end Sys2Proof.Machine
end

