-- ==== Sys2Proof/Machine/Sched.lean ====
section
/-! DEFINITION. What moves next (log 1): fetching an instruction's bytes (R429, R458), the issue of a slot
(R108, R122, R124), waits that can end (R111), the events and firings in flight, rotation boundaries (R109)
and the passing of time. -/

namespace Sys2Proof.Machine

/-! ## Events -/

/-- The step of an event in flight. -/
def runEv (e : Ev) (s : State) : Out :=
  match e with
  | .rotationBoundary core => execRotationBoundary core s
  | .dequePop slot => execDequePop slot s
  | .dequeSteal slot => execDequeSteal slot s
  | .joinwinExpiry slot => execJoinwinExpiry slot s
  | .spillSaveComplete slot => execSpillSaveComplete slot s
  | .spillRestore slot => execSpillRestore slot s
  | .messageArrival m => execMessageArrival m s
  | .msgOverflowWrite m bound => execMsgOverflowWrite m bound s
  | .messageDelivery slot => execMessageDelivery slot s
  | .sleepDeadline slot => execSleepDeadline slot s
  | .missFillArrival slot => execMissFillArrival slot s
  | .tlbWalkComplete slot => execTlbWalkComplete slot s
  | .divComplete slot => execDivComplete slot s
  | .coalesceDrainTimeout core line => execCoalesceDrainTimeout core line s
  | .meshBurstMerge cove => execMeshBurstMerge cove s
  | .l2WriteForward cove line => execL2WriteForward cove line s
  | .l1dLineExpiry core line => execL1dLineExpiry core line s
  | .syncLoadComplete slot => execSyncLoadComplete slot s
  | .boundedLoadComplete slot => execBoundedLoadComplete slot s
  | .tideTmo slot => execTideTmo slot s
  | .amoComplete slot => execAmoComplete slot s
  | .lockGranted slot => execLockGranted slot s
  | .mxComplete core => execMxComplete core s
  | .patrolScrub hits => execPatrolScrub hits s
  | .copyStart cove => execCopyStart cove s
  | .copyBeat cove => execCopyBeat cove s
  | .copyComplete cove id => execCopyComplete cove id s
  | .copyPause cove id => execCopyPause cove id s
  | .srpVerdict slot => execSrpVerdict slot s
  | .replayCopyComplete quad vmid key => execReplayCopyComplete quad vmid key s
  | .recordCopyComplete quad vmid key => execRecordCopyComplete quad vmid key s
  | .tokenMatch rk t src => execTokenMatch rk t src s
  | .matchRefill rk x y => execMatchRefill rk x y s
  | .countToken rk ik idx null => execCountToken rk ik idx null s
  | .instanceCommit rk ik => execInstanceCommit rk ik s
  | .commitToken rk ik cell => execCommitToken rk ik cell s
  | .gFaultReport rk ik => execGFaultReport rk ik s
  | .buoyTokenArrival rk buoy t src => buoyArrive rk buoy t src s
  | .moorDelivery vmid desc => execMoorDelivery vmid desc s
  | .controlTokenArrival rk ik idx finish => execControlTokenArrival rk ik idx finish s
  | .streamLoopStart rk ik cell => execStreamLoopStart rk ik cell s
  | .streamLoopFinish rk ik cell => execStreamLoopFinish rk ik cell s
  | .tgateDeadline rk ik idx => execTgateDeadline rk ik idx s
  | .handoverToken rk x y => execHandoverToken rk x y s
  | .placementRequest quad => execPlacementRequest quad s
  | .overlayLoadComplete rk x y slot => execOverlayLoadComplete rk x y slot s
  | .cellSave rk x y => execCellSave rk x y s
  | .slackWaveEnd rk => execSlackWaveEnd rk s
  | .regionRestore rk => execRegionRestore rk s
  | .packetIngress q slot w => execPacketIngress q slot w s
  | .lTaskLaunch q => execLTaskLaunch q s
  | .gLaunch q => execGLaunch q s
  | .hostMemoryAccess write pa n data => execHostMemoryAccess write pa n data s
  | .tsyncWrite ptm t1588 => execTsyncWrite ptm t1588 s
  | .registerWriteIgnored off => execRegisterWriteIgnored off s
  | .tenantCreate q p => execTenantCreate q p s
  | .tenantDestroy q p => execTenantDestroy q p s
  | .queueBind q p => execQueueBind q p s
  | .queueUnbind q p => execQueueUnbind q p s
  | .windowMap q p => execWindowMap q p s
  | .tideSet q p => execTideSet q p s
  | .tlbShoot q p => execTlbShoot q p s
  | .genWrap q p => execGenWrap q p s
  | .genWrapComplete => execGenWrapComplete s
  | .fenceUnit q p => execFenceUnit q p s
  | .islandSet q p => execIslandSet q p s
  | .islandFreqChange island => execIslandFreqChange island s
  | .powerCap q p => execPowerCap q p s
  | .timeSet q p => execTimeSet q p s
  | .timeCfg q p => execTimeCfg q p s
  | .imageVerify q p => execImageVerify q p s
  | .attestQuote q p => execAttestQuote q p s
  | .fwUpdate q p => execFwUpdate q p s
  | .debugRead q p => execDebugRead q p s
  | .debugWrite q p => execDebugWrite q p s
  | .infoRead q p => execInfoRead q p s
  | .countRead q p => execCountRead q p s
  | .traceCfg q p => execTraceCfg q p s
  | .regionSwap q p => execRegionSwap q p s
  | .badcmd q cmd p => execBadcmd q cmd p s
  | .powerSample mw temps => execPowerSample mw temps s
  | .powerTrace => execPowerTrace s
  | .ptmExchange ptm => execPtmExchange ptm s
  | .ppsEdge => execPpsEdge s
  | .todMessage bytes => execTodMessage bytes s
  | .timeHoldover => execTimeHoldover s
  | .coldReset => execColdReset s
  | .warmReset => execWarmReset s
  | .supplyOutOfLimits => execSupplyOutOfLimits s
  | .illegalInstruction w => execIllegalInstruction w s
  | .fetchPageX va => execFetchPageX va s
  | .placerComplete slot => execPlacerComplete slot s
  | .memoryReply rk ik idx => execMemoryReply rk ik idx s
  | .msixUnmask fn vec => execMsixUnmask fn vec s
  | .queueWindowWrite q off data => execQueueWindowWrite q off data s

/-- What is in flight takes effect: an event, or the firing of a node. -/
def runWork (w : Work) (s : State) : Out :=
  match w with
  | .ev e => runEv e s
  | .node i f => exec i { s with fire := some f }

/-! ## Fetching (R19, R429, R458) -/

/-- Lines an L1I holds: 64 KiB. DESIGN CHOICE (log 73): R19 gives no line size, and a line here has 64 bytes. -/
def l1iLines : Nat := 1024

/-- The L1I line of an address that is at a PA: held under VA, ASID and VMID, or filled from the cove L2, whose
presence bit for the core is set (R19; a line of 64 bytes, log 73). -/
def fetchLine (s : State) (va : Word) (p : Phys) : BitVec 512 × State :=
  let core := coreOf s.cur
  let asid := fld s.me.troot 15 0
  let key (l : L1iLine) : Bool := l.va == va.toNat / 64 * 64 && l.asid == asid && l.vmid == s.vmid
  match (s.core core).l1i.find? key with
  | some l => (l.data, s)
  | none =>
    if s.uncached p then (insBytes 0#512 0 (s.homeRead (p.pa / 64 * 64) 64), s.stallFor (tierClk (s.tier p.pa)))
    else
      let cove := coveOfCore core
      let (l, s) := (s.stallFor Config.l2Clk).l2Line cove p
      let mark (m : L2Line) : L2Line := if m.cores.contains core then m else { m with cores := m.cores ++ [core] }
      let s := s.modCove cove fun v => { v with l2 := AMap.set v.l2 (p.pa / 64) (mark l) }
      let n : L1iLine := { va := va.toNat / 64 * 64, asid := asid, vmid := s.vmid, pa := p.pa, data := l.data }
      let c := s.core core
      if c.l1i.length < l1iLines then (l.data, s.setCore core { c with l1i := c.l1i ++ [n] })
      else
        let (k, s) := s.pick c.l1i.length
        (l.data, s.setCore core { c with l1i := c.l1i.eraseIdx k ++ [n] })

/-- The four bytes at the program counter, in order of address. -/
def fetchBytes (s : State) : Except Trap (List Byte × State) :=
  match xlat s s.agent s.me.pc .x with
  | .error t => .error t
  | .ok (p, s) =>
    let (d, s) := fetchLine s s.me.pc p
    .ok (getBytes d (s.me.pc.toNat / 4 % 16 * 4) 4, s)

/-! ## Issue -/

/-- A slot's masked window is full and its next instruction does not close it (R124). -/
def windowFull (v : Slot) (bs : List Byte) : Bool :=
  v.masked && !v.sup && decide (256 ≤ v.wcnt) && decide (okOnly (decodeLBytes bs) ≠ some .msgUnm)

/-- The instruction at the program counter: a fetch that fails, a full masked window, a word with no meaning, or
the instruction executed. -/
def fetchExec (s : State) : Out :=
  match fetchBytes s with
  | .error t => if t.cause = cPAGE_X then execFetchPageX s.me.pc s else .next (s.takeTrap t)
  | .ok (bs, s) =>
    if windowFull s.me bs then .next (s.takeTrap { cause := cMSG_MASK, tval := 0#64 })
    else
      match decodeLBytes bs with
      | .ok i => exec i s
      | .error _ => execIllegalInstruction (BitVec.ofNat 32 (bytesNat bs)) s

/-- The core's pointer moves past a slot that issues; the slot's issue of an instruction is noted (R108). -/
def markIssue (s : State) (n : Nat) : State :=
  (s.modSlot n fun v => if v.wait = .idle then v else { v with lastIssue := some s.clk }).modCore (coreOf n) fun c =>
    { c with ptr := (n + 1) % 8, issued := some s.clk }

/-- The instruction under way is over; a slot whose accesses missed is out of the rotation until they arrive
(R111). -/
def afterIssue (n : Nat) (o : Out) : Out :=
  match o with
  | .next t =>
    let k : WaitKind := if t.walked then .walk else .fill
    let e : Ev := if t.walked then .tlbWalkComplete n else .missFillArrival n
    let u : State := { t with stall := 0, walked := false }
    .next (if t.stall ≠ 0 ∧ (t.slot n).wait = .run then (u.modSlot n fun v => { v with wait := .done k }).after t.stall e else u)
  | o => o

/-- The issue of slot `n`: a message is delivered, a waiting instruction goes on, the next instruction is
fetched and executed, or an idle slot takes work of its queue. -/
def issueSlot (n : Nat) (s : State) : Out :=
  let s := markIssue { s with cur := n, stall := 0, walked := false } n
  if canDeliver s n then execMessageDelivery n s
  else
    match (s.slot n).wait with
    | .run => afterIssue n (fetchExec s)
    | .resume _ i _ _ => afterIssue n (exec i s)
    | .idle =>
      let q := (s.slot n).own.owner.toNat
      if (popEntry s q n).isSome || (resumeHead s q n).isSome then execDequePop n s else execDequeSteal n s
    | _ => .next s

/-- There is an entry, or a saved task, anywhere. -/
def anyEntry (s : State) : Bool :=
  (s.cores.any fun c => !c.2.deque.isEmpty) || (s.queues.any fun q => !q.2.spilled.isEmpty) || s.tenants.any fun t => !t.2.saves.isEmpty

/-- The slot has something to issue. -/
def runnable (s : State) (n : Nat) : Bool :=
  canDeliver s n || match (s.slot n).wait with
    | .run => true
    | .idle => idleFor s n && anyEntry s && hasWork s (s.slot n).own.owner.toNat n
    | _ => false

/-- The slot is eligible: runnable, and it issued nothing in the last 7 clk or this one (R108). -/
def eligible (s : State) (n : Nat) : Bool :=
  (match (s.slot n).lastIssue with | none => true | some t => decide (t + 8 ≤ s.clk)) && runnable s n

/-- A core has issued in this clk. -/
def coreIssued (s : State) (core : Nat) : Bool := (s.core core).issued == some s.clk

/-- The slot that a core issues from in this clk (R108). -/
def nextOfCore (s : State) (core : Nat) : Option Nat :=
  if coreIssued s core then none
  else ((List.range 8).map fun k => 8 * core + ((s.core core).ptr + k) % 8).find? (eligible s)

/-- The slot that issues next: cores by number. -/
def nextIssue (s : State) : Option Nat :=
  ((s.slots.map fun p => coreOf p.1).eraseDups).findSome? (nextOfCore s)

/-! ## Waits that can end (R111) -/

/-- A slot's wait is over: it was ended by an event; a message is pending for `wait`; a deadline has passed; a
synchronising or bounded load completes or takes a word; any other instruction, tried, waits no longer. A `join`
is ended by the decrement of its counter, a wait for a lock by its grant. -/
def canGo (s : State) (n : Nat) : Bool :=
  match (s.slot n).wait with
  | .resume .. => true
  | .hold .join _ _ _ | .hold .lock _ _ _ => false
  | .hold .sleep _ _ d => decide (d.toNat ≤ s.now)
  | .hold .msg _ _ _ => decide (0 < s.pend n)
  | .hold .sync i _ _ | .hold .tide i _ _ => loadOver s n i
  | .hold .mx i _ _ =>
    if (s.core (coreOf n)).mxq.any fun o => o.slot == n then mxTurn { s with cur := n } else !stillHeld .mx (exec i (trial s n)) n
  | .hold k i _ _ => !stillHeld k (exec i (trial s n)) n
  | _ => false

/-- The clk in which a slot's wait began: that of its last issue. -/
def waitBegan (v : Slot) : Nat := v.lastIssue.getD 0

/-- Of the waiting slots that can go on, the one that has waited longest. -/
def nextReady (s : State) : Option Nat :=
  ((sortBy (fun a b => decide (waitBegan a.2 ≤ waitBegan b.2)) s.slots).map (·.1)).find? (canGo s)

/-- The wait of a slot ends, and its instruction goes on in that clk, without an issue: what follows it issues at the
slot's next turn (R111). -/
def readySlot (n : Nat) (s : State) : Out :=
  match (s.slot n).wait with
  | .hold .sync _ _ _ => execSyncLoadComplete n s
  | .hold .tide _ _ _ => execBoundedLoadComplete n s
  | .hold .sleep _ _ _ => execSleepDeadline n s
  | .hold .msg _ _ _ => .next (completeSlot s n)
  | .hold _ i _ _ | .resume _ i _ _ => afterIssue n (exec i { resumeSlot s n with cur := n, stall := 0, walked := false })
  | _ => .next s

/-! ## Time -/

/-- Of what is in flight, due and free to go in this clk (R296, R303, R304), the earliest. -/
def nextDue (s : State) : Option Nat :=
  (s.duties.zipIdx.foldl (fun (b : Option (Nat × Nat)) p =>
    if s.clk < p.1.due || !dutyGoes s p.2 p.1 then b
    else
      match b with
      | none => some (p.1.due, p.2)
      | some q => if p.1.due < q.1 then some (p.1.due, p.2) else b) none).map (·.2)

/-- The k-th event in flight takes effect. -/
def runDuty (k : Nat) (s : State) : Out :=
  match s.duties[k]? with
  | none => .next s
  | some d => runWork d.work { s with duties := s.duties.eraseIdx k }

/-- A boundary of this core does something: a queue has entries that a slot of it may take, a slot has yielded, or a
deficit is kept (R109, R289). -/
def boundaryDue (s : State) (core : Nat) : Bool :=
  let slots := (List.range 8).map (8 * core + ·)
  slots.any (fun n => (s.slot n).own.pre) || !(s.core core).deficit.isEmpty || !(s.core core).reserve.isEmpty
    || anyEntry s && s.queues.any fun q => q.2.mask.getLsbD (coveOfCore core) && slots.any fun n => hasWork s q.1 n

/-- The cores with a boundary to take. -/
def boundaryCores (s : State) : List Nat :=
  let listed := (s.slots.map fun p => coreOf p.1) ++ AMap.keys s.cores
  let all := anyEntry s
  (List.range 1024).filter fun c => (all || listed.contains c) && boundaryDue s c

/-- A slot will issue without anything in flight. -/
def anyRunnable (s : State) : Bool := s.slots.any fun p => runnable s p.1

/-- Time goes on: to the next clk where a slot may issue or a core has a boundary to take, else to the next event in
flight. Every eighth clk is a rotation boundary (R109). -/
def advance (s : State) : State :=
  let cores := boundaryCores s
  let next := s.duties.foldl (fun m d => match m with | none => some d.due | some x => some (min x d.due)) (none : Option Nat)
  let step := if !cores.isEmpty || anyRunnable s then 1 else match next with | some t => max 1 (t - s.clk) | none => 1
  let s := s.pass step
  if s.clk % 8 = 0 then { s with turns := (boundaryCores s).map fun c => .event (.rotationBoundary c) } else s

/-- With no turn given: the end of a generation that is no longer live, what is due, a wait that can end, an issue, or
the next clk. -/
def natural (s : State) : Out :=
  match deadGen s with
  | some g => .next (endGeneration s g)
  | none =>
    match nextDue s with
    | some k => runDuty k s
    | none =>
      match nextReady s with
      | some n => readySlot n s
      | none =>
        match nextIssue s with
        | some n => issueSlot n s
        | none => .next (advance s)

/-- A turn taken. -/
def runTurn (t : Turn) (s : State) : Out :=
  match t with
  | .pass n => .next (s.pass n)
  | .issue n => issueSlot n s
  | .duty k => runDuty k s
  | .event e => runEv e s

/-- The next turn releases the module from reset. -/
def State.resets (s : State) : Bool :=
  match s.turns with
  | .event .coldReset :: _ | .event .warmReset :: _ => true
  | _ => false

/-- The next move of a module that has power: the first turn given, else what the machine itself does next. -/
def moveNext (s : State) : Out :=
  match s.turns with
  | t :: r => runTurn t { s with turns := r }
  | [] => natural s

end Sys2Proof.Machine
end

