-- ==== Sys2Proof/Machine/Step.lean ====
section
/-! DEFINITION. One step of the machine, and the placing of an instruction where the step fetches it. -/

namespace Sys2Proof.Machine

/-- One step: nothing runs while the module has no power or holds itself in reset (R513, R515); else the next
move. -/
def step (s : State) : Out :=
  if s.mgmt.off && !s.resets then .fault .powerOff else moveNext s

/-! ## A program placed from outside (log 30) -/

/-- Tenant 0 with identity mapping of the first 4 TiB: its stage-2 table at PA 0x10000, its stage-1 table at IPA
0x20000, one leaf of level 3 each. -/
def withMapping (s : State) : State :=
  let m := Bytes.wrN (Bytes.wrN s.mem 0x10000 (natBytes 8 0x0F)) 0x20000 (natBytes 8 0x1F)
  let s := { s with mem := m, fire := none, cur := 0, mgmt := { s.mgmt with off := false } }
  let s := s.modTenant 0 fun t => { t with present := true, args := { t.args with s2root := 0x10000#64, troot := 0x20000#64 } }
  let s := s.modCore 0 fun c => { c with tlb := [], l1i := [], cb := [], fenced := false }
  s.modCove 0 fun c => { c with tlb := [], l2 := [] }

/-- A word of the L-set at VA 0x40000, where slot 0 stands, which issues next. -/
def withSlotWord (s : State) (w : Nat) : State :=
  let s := withMapping s
  let s := { s with mem := Bytes.wrN s.mem 0x40000 (natBytes 4 w), poison := AMap.del s.poison (0x40000 / 64)
                    turns := .issue 0 :: s.turns }
  s.modSlot 0 fun v =>
    { v with pc := 0x40000#64, troot := 0x20000#64, wait := .run, masked := false, inHandler := false, wcnt := 0
             user := { v.user with msgvec := 0#64 }, own := { v.own with vmid := 0#6, idle := false }
             task := some (v.task.getD {}) }

/-- A node of the G-set in cell (0, 0) of a placed region of one block, whose firing on zero tokens takes effect
next. -/
def withNodeWord (s : State) (w : Nat) : State :=
  let s := withMapping s
  let rk : RKey := { vmid := 0, ridx := 0 }
  let ik : IKey := { blk := 0, ctx := default, iter := 0#16, ser := 0 }
  let blk : Block := { words := [BitVec.ofNat 64 w], place := [0], held := true, resident := true }
  let inst : Inst := { ik := ik, admitted := true }
  let s := s.setRegion rk { st := 3, ncfg := 1, troot := 0x20000#64, nb := 1, blocks := [(0, blk)], insts := [inst], serial := 1 }
  let s := s.modCell 0 fun c => { c with store := AMap.set c.store 0 { data := BitVec.ofNat 512 w }, owner := some rk }
  let zero : Option MTok := some { tok := default }
  match decodeG (BitVec.ofNat 64 w) with
  | .error _ => s
  | .ok i =>
    let f : Firing := { rk := rk, ik := ik, x := 0, y := 0, slot := 0, idx := 0, l := zero, r := zero, p := zero }
    { s with duties := { due := s.clk, work := .node i f } :: s.duties, turns := .duty 0 :: s.turns }

/-- The state with an instruction where the next step fetches it: a word of 32 bits for a slot, or a node's word
of 64 bits in a cell. -/
def State.withFetchWord (s : State) (nbits w : Nat) : State := if nbits ≤ 32 then withSlotWord s w else withNodeWord s w

end Sys2Proof.Machine
end

