-- ==== Sys2Proof/Safety.lean ====
section
/-! DEFINITION. What counts as a safe run, and the vocabulary of the claims: registers that can be written, their
values written, and results computed on integers, beside the machine's own computation on bit vectors. -/

namespace Sys2Proof.Machine

/-! ## Safe runs -/

/-- The step goes on: the machine has no other end than a module without power. -/
def goesOn (s : State) : Prop := ∃ t, step s = .next t

/-- Memory and every queue window are in their canonical form, and the lists of empty words and poisoned lines are in
order. -/
def State.canonical (s : State) : Prop :=
  Memory.wf s.mem = true ∧ AMap.sorted s.feEmpty = true ∧ AMap.sorted s.poison = true
    ∧ ∀ q ∈ s.queues, Bytes.wf q.2.window = true

/-- The state apart from what memory accesses work on: memory, its bits and its marks, the caches, buffers and TLBs, the
queue windows and counters in reach of the register window, the audit log, and the accesses' timing. -/
def State.apart (s : State) : State :=
  { s with duties := [], freeCtr := 0, stall := 0, walked := false, mem := [], feEmpty := [], poison := [], cores := []
           coves := [], mgmt := {}, queues := [], tenants := [] }

/-- `t` differs from `s` in what memory accesses work on only, and memory stays canonical. -/
def keeps (s t : State) : Prop := t.apart = s.apart ∧ (s.canonical → t.canonical)

/-! ## Registers of the issuing slot -/

/-- x[r] may be written: it is x0, or not poisoned (R189). -/
def State.xOk (s : State) (r : XReg) : Prop := r = 0#5 ∨ (s.me.xreg r).gen ≠ 0xFFFF#16

/-- v[r] may be written. -/
def State.vOk (s : State) (r : VReg) : Prop := (s.me.vreg r).gen ≠ 0xFFFF#16

/-- The state with x[r] = w, stamped with the slot's generation; x0 takes nothing (R112). -/
def State.putX (s : State) (r : XReg) (w : Word) : State :=
  if r = 0#5 then s else s.modMe fun v => v.putX r { val := w, gen := v.gen }

/-- The state with v[r] = w, stamped with the slot's generation. -/
def State.putV (s : State) (r : VReg) (w : VWord) : State :=
  s.modMe fun v => { v with v := AMap.set v.v r.toNat { val := w, gen := v.gen } }

/-! ## Integer results (R32, R118) -/

/-- A word of an integer, modulo 2^64; a word of 32 bits, sign-extended. -/
def word (n : Int) : Word := BitVec.ofInt 64 n
def word32 (n : Int) : Word := (BitVec.ofInt 32 n).signExtend 64

/-- 1 where the condition holds. -/
def flag (c : Prop) [Decidable c] : Word := if c then 1#64 else 0#64

/-- OP-IMM on integers: the immediate is signed, a shift amount its low six bits. -/
def intImm (o : ImmOp) (a : Word) (imm : BitVec 12) : Word :=
  match o with
  | .addi => word (a.toInt + imm.toInt)
  | .slti => flag (a.toInt < imm.toInt)
  | .sltiu => flag (a.toNat < (word imm.toInt).toNat)
  | .xori => a ^^^ word imm.toInt
  | .ori => a ||| word imm.toInt
  | .andi => a &&& word imm.toInt
  | .slli => word (a.toInt * 2 ^ (imm.toNat % 64))
  | .srli => word (a.toNat / 2 ^ (imm.toNat % 64) : Nat)
  | .srai => word (a.toInt / 2 ^ (imm.toNat % 64))

/-- The low 32 bits of a word, signed and unsigned. -/
def low32 (a : Word) : Int := (a.setWidth 32).toInt
def ulow32 (a : Word) : Nat := a.toNat % 2 ^ 32

/-- OP-IMM-32 on integers. -/
def intImm32 (o : Imm32Op) (a : Word) (imm : BitVec 12) : Word :=
  match o with
  | .addiw => word32 (low32 a + imm.toInt)
  | .slliw => word32 (low32 a * 2 ^ (imm.toNat % 32))
  | .srliw => word32 (ulow32 a / 2 ^ (imm.toNat % 32) : Nat)
  | .sraiw => word32 (low32 a / 2 ^ (imm.toNat % 32))

/-- A quotient rounded towards zero, and all ones where the divisor is 0; the remainder, and the dividend
(R118). -/
def quot (a b : Int) : Int := if b = 0 then -1 else a.tdiv b
def remd (a b : Int) : Int := if b = 0 then a else a.tmod b

/-- OP on integers. -/
def intReg (o : RegOp) (a b : Word) : Word :=
  match o with
  | .add => word (a.toInt + b.toInt)
  | .sub => word (a.toInt - b.toInt)
  | .sll => word (a.toInt * 2 ^ (b.toNat % 64))
  | .slt => flag (a.toInt < b.toInt)
  | .sltu => flag (a.toNat < b.toNat)
  | .xor => a ^^^ b
  | .srl => word (a.toNat / 2 ^ (b.toNat % 64) : Nat)
  | .sra => word (a.toInt / 2 ^ (b.toNat % 64))
  | .or => a ||| b
  | .and => a &&& b
  | .mul => word (a.toInt * b.toInt)
  | .mulh => word (a.toInt * b.toInt / 2 ^ 64)
  | .mulhsu => word (a.toInt * b.toNat / 2 ^ 64)
  | .mulhu => word (a.toNat * b.toNat / 2 ^ 64 : Nat)
  | .div => word (quot a.toInt b.toInt)
  | .divu => word (quot a.toNat b.toNat)
  | .rem => word (remd a.toInt b.toInt)
  | .remu => word (remd a.toNat b.toNat)

/-- OP-32 on integers. -/
def intReg32 (o : Reg32Op) (a b : Word) : Word :=
  match o with
  | .addw => word32 (low32 a + low32 b)
  | .subw => word32 (low32 a - low32 b)
  | .sllw => word32 (low32 a * 2 ^ (b.toNat % 32))
  | .srlw => word32 (ulow32 a / 2 ^ (b.toNat % 32) : Nat)
  | .sraw => word32 (low32 a / 2 ^ (b.toNat % 32))
  | .mulw => word32 (low32 a * low32 b)
  | .divw => word32 (quot (low32 a) (low32 b))
  | .divuw => word32 (quot (ulow32 a) (ulow32 b))
  | .remw => word32 (remd (low32 a) (low32 b))
  | .remuw => word32 (remd (ulow32 a) (ulow32 b))

/-- A branch is taken (R32). -/
def taken (o : BranchOp) (a b : Word) : Prop :=
  match o with
  | .beq => a = b
  | .bne => a ≠ b
  | .blt => a.toInt < b.toInt
  | .bge => b.toInt ≤ a.toInt
  | .bltu => a.toNat < b.toNat
  | .bgeu => b.toNat ≤ a.toNat

/-! ## Vector results (R91, R131, R132) -/

/-- The state with vd written, the flags joined to NXFLAGS and the instruction retired. -/
def State.vecDone (s : State) (vd : VReg) (v : VWord) (fl : NxFlags) : State :=
  ((s.putV vd v).modMe fun t => { t with user := { t.user with nxflags := t.user.nxflags ||| fl } }).retire

/-- The outcome `o` writes to vd, `n` elements of `w` bits: each active one has its result, each inactive one what it
held (zero under a stale tag), the bits above are 0; NXFLAGS takes the flags of the active elements. -/
def State.vecWrites (s : State) (m : Bool) (v0 : VWord) (w n : Nat) (vd : VReg) (res : Nat → Nat × NxFlags) (o : Out) :
    Prop :=
  ∃ (v : VWord) (fl : NxFlags), o = .next (s.vecDone vd v fl) ∧ v.toNat < 2 ^ (w * n)
    ∧ (∀ k, k < n → elemV v w k = if m = false ∨ v0.getLsbD k then (res k).1 % 2 ^ w else elemV (s.vecOld vd) w k)
    ∧ ∀ b, fl.getLsbD b = true ↔ ∃ k, k < n ∧ (m = false ∨ v0.getLsbD k) ∧ (res k).2.getLsbD b = true

/-- A floating-point instruction may round: VRM holds a rounding mode, and v31 its random fields where the mode is
stochastic (R84, R87, R136). -/
def State.rounds (s : State) (rm : Rm) (r : VWord) : Prop :=
  s.me.user.vrm ≠ 7#3 ∧ rm = Rm.ofCode s.me.user.vrm.toNat ∧ if rm.stoch then s.vr 31#5 = .ok r else r = 0#1024

/-! ## Memory accesses (R118, R203) -/

/-- The word a load writes: the bytes as a signed or an unsigned integer. -/
def loaded (o : LoadOp) (bs : List Byte) : Word :=
  match o with
  | .lb => word (BitVec.ofNat 8 (bytesNat bs)).toInt
  | .lh => word (BitVec.ofNat 16 (bytesNat bs)).toInt
  | .lw => word (BitVec.ofNat 32 (bytesNat bs)).toInt
  | .ld | .lbu | .lhu | .lwu => word (bytesNat bs)

/-- The bytes of a signed access, sign-extended. -/
def signedOf (n : Nat) (bs : List Byte) : Word := word (BitVec.ofNat (8 * n) (bytesNat bs)).toInt

/-- A core's buffer is empty and its cove's L2 holds no bytes that it has still to forward: what a release of device
scope leaves (R203, R218). -/
def State.drained (s : State) (core : Nat) : Prop :=
  (s.core core).cb = [] ∧ ∀ line l, AMap.get? (s.cove (coveOfCore core)).l2 line = some l → l.unsent = []

/-! ## CSRs (R90, R113-R116) -/

/-- The bits of a writable CSR that a write sets; the rest read 0. -/
def csrMask (n : Nat) : Option Word :=
  match n with
  | 0x800 => some 0x7#64
  | 0x801 => some 0x1F#64
  | 0x802 | 0x809 | 0x5C2 | 0x5C5 => some 0xFFFFFFFFFFFFFFFF#64
  | 0x803 | 0x804 | 0x5C0 | 0x5C3 => some 0xFFFFFFFFFFFFFFFC#64
  | 0x805 => some 0x3FFF#64
  | 0x806 => some 0xFFFFFFFFFFFF#64
  | 0x807 => some 0xFFFFFFFF#64
  | 0x5C1 => some 0xFF#64
  | 0x5C4 => some 0xFFF#64
  | 0x5D0 => some 0xFFFFFFFFFFFFF#64
  | _ => none

/-- The CSRs that are read-only (R113). -/
def csrReadOnly : List Nat := [0xC01, 0xCC0, 0xCC1, 0xCC2, 0xCC3, 0x5C8]

/-- Every CSR of the map. -/
def csrMap : List Nat :=
  [0x800, 0x801, 0x802, 0x803, 0x804, 0x805, 0x806, 0x807, 0x808, 0x809, 0xC01, 0xCC0, 0xCC1, 0xCC2, 0xCC3,
    0x5C0, 0x5C1, 0x5C2, 0x5C3, 0x5C4, 0x5C5, 0x5C8, 0x5D0]

/-! ## Traps (R413-R417) -/

/-- The handler of a slot: TVEC, else SVEC of its tenant. -/
def State.handler (s : State) : Option Word :=
  if s.me.trap.tvec.toNat / 4 ≠ 0 then some (s.me.trap.tvec &&& ~~~3#64)
  else if (s.tenant s.vmid).args.svec ≠ 0#64 then some (s.tenant s.vmid).args.svec
  else none

/-- The word of an instruction, as TVAL of ILLEGAL and PRIV (R413). -/
def codeOf (i : Instr) : Word := ((encodeL i).getD 0#32).setWidth 64

/-! ## Firings of nodes (R297, R302, R304, R355) -/

/-- The firing under way in `s`, begun as `f` on the machine `u`: its cell has begun it, and a load holds its place in its
channel (R304, R343). -/
def State.begins (s : State) (i : Instr) (f : Firing) (u : State) : Prop :=
  ∃ g, s.fire = some g ∧ f = { g with began := true }
    ∧ (let v := State.beginFire { s with fire := none, stall := 0 } i g
      u = if loads i g then v.takePlace i g else v)
    ∧ (loads i g = true → g.began = true ∨ channelFull s g = false)

/-- Node `i` fires as `f` on the machine `u`: in a placed region, its context running or the step of its loop begun, no
operand null and its predicate matching. -/
def State.fires (s : State) (i : Instr) (f : Firing) (u : State) : Prop :=
  s.begins i f u ∧ (s.region f.rk).st = 3 ∧ (s.region f.rk).wave = none ∧ ((s.region f.rk).inst? f.ik).isSome
    ∧ ((s.region f.rk).isParked f.ik.ctx = false ∨ f.body.isSome) ∧ f.nul = false ∧ offPred i f = false

/-- A firing with the effect `t` is over, and its region goes on. -/
def firedTo (i : Instr) (f : Firing) (t : State) : Out := .next (settle (bodyDone i f t) f.rk)

/-- A firing faults: its instance holds the fault (R418), with the firing where its loops run, for `gctx.res` (R364). -/
def State.firedBad (u : State) (i : Instr) (f : Firing) (cause : BitVec 8) (tval : Word) : Out :=
  .next (settle (u.fireFault f { cause := cause, tval := tval }
    (if f.body.isSome || (u.looping f.rk).contains f.ik then [.node i f] else [])) f.rk)

/-- The node's result is `cnt` elements of `w` bits in `k` payloads, sent to its targets after `clk` with tag
`ft`; the elements' flags join those of the instance (R92). -/
def State.nodeSends (s u : State) (i : Instr) (f : Firing) (clk : Nat) (ft : Fmt) (k w cnt : Nat) (res : Nat → Nat × NxFlags) :
    Prop :=
  ∃ (v : Nat) (fl : NxFlags),
    exec i s = firedTo i f ((u.addFlags f fl).sendOut f (fieldsOf i) clk (outWords k v) ft) ∧ v < 2 ^ (w * cnt)
    ∧ (∀ j, j < cnt → elemN v w j = (res j).1 % 2 ^ w)
    ∧ ∀ b, fl.getLsbD b = true ↔ ∃ j, j < cnt ∧ (res j).2.getLsbD b = true

/-! ## Instructions and events as the step runs them (R30, R51; log 1) -/

/-- The instruction that a word of the L-set decodes to: three pairs of rows of the opcode table share their words, and the
operand in a register tells them apart (R160, R386, R462). -/
def coreForm : Instr → Instr
  | .mxTcfgRoute td rs1 => .mxTcfg td rs1
  | .cpResume vs rs1 => .cpPost vs rs1
  | .cpCancel vs rs1 => .cpPost vs rs1
  | .cfgWrRestamp rs1 rs2 => .cfgWr rs1 rs2
  | i => i

/-- The event that a row of the table of events stands for, as the schedule holds it. -/
def eventOf : Instr → Option Ev
  | .rotationBoundary core => some (.rotationBoundary core)
  | .dequePop slot => some (.dequePop slot)
  | .dequeSteal slot => some (.dequeSteal slot)
  | .joinwinExpiry slot => some (.joinwinExpiry slot)
  | .spillSaveComplete slot => some (.spillSaveComplete slot)
  | .spillRestore slot => some (.spillRestore slot)
  | .messageArrival m => some (.messageArrival m)
  | .msgOverflowWrite m bound => some (.msgOverflowWrite m bound)
  | .messageDelivery slot => some (.messageDelivery slot)
  | .sleepDeadline slot => some (.sleepDeadline slot)
  | .missFillArrival slot => some (.missFillArrival slot)
  | .tlbWalkComplete slot => some (.tlbWalkComplete slot)
  | .divComplete slot => some (.divComplete slot)
  | .coalesceDrainTimeout core line => some (.coalesceDrainTimeout core line)
  | .meshBurstMerge cove => some (.meshBurstMerge cove)
  | .l2WriteForward cove line => some (.l2WriteForward cove line)
  | .l1dLineExpiry core line => some (.l1dLineExpiry core line)
  | .syncLoadComplete slot => some (.syncLoadComplete slot)
  | .boundedLoadComplete slot => some (.boundedLoadComplete slot)
  | .tideTmo slot => some (.tideTmo slot)
  | .amoComplete slot => some (.amoComplete slot)
  | .lockGranted slot => some (.lockGranted slot)
  | .mxComplete core => some (.mxComplete core)
  | .patrolScrub hits => some (.patrolScrub hits)
  | .copyStart cove => some (.copyStart cove)
  | .copyBeat cove => some (.copyBeat cove)
  | .copyComplete cove id => some (.copyComplete cove id)
  | .copyPause cove id => some (.copyPause cove id)
  | .srpVerdict slot => some (.srpVerdict slot)
  | .replayCopyComplete quad vmid key => some (.replayCopyComplete quad vmid key)
  | .recordCopyComplete quad vmid key => some (.recordCopyComplete quad vmid key)
  | .tokenMatch rk t src => some (.tokenMatch rk t src)
  | .matchRefill rk x y => some (.matchRefill rk x y)
  | .countToken rk ik idx null => some (.countToken rk ik idx null)
  | .instanceCommit rk ik => some (.instanceCommit rk ik)
  | .commitToken rk ik cell => some (.commitToken rk ik cell)
  | .gFaultReport rk ik => some (.gFaultReport rk ik)
  | .buoyTokenArrival rk buoy t => some (.buoyTokenArrival rk buoy t none)
  | .moorDelivery vmid desc => some (.moorDelivery vmid desc)
  | .controlTokenArrival rk ik idx finish => some (.controlTokenArrival rk ik idx finish)
  | .streamLoopStart rk ik cell => some (.streamLoopStart rk ik cell)
  | .streamLoopFinish rk ik cell => some (.streamLoopFinish rk ik cell)
  | .tgateDeadline rk ik idx => some (.tgateDeadline rk ik idx)
  | .handoverToken rk x y => some (.handoverToken rk x y)
  | .placementRequest quad => some (.placementRequest quad)
  | .overlayLoadComplete rk x y slot => some (.overlayLoadComplete rk x y slot)
  | .cellSave rk x y => some (.cellSave rk x y)
  | .slackWaveEnd rk => some (.slackWaveEnd rk)
  | .regionRestore rk => some (.regionRestore rk)
  | .packetIngress q slot w => some (.packetIngress q slot w)
  | .lTaskLaunch q => some (.lTaskLaunch q)
  | .gLaunch q => some (.gLaunch q)
  | .hostMemoryAccess write pa n data => some (.hostMemoryAccess write pa n data)
  | .tsyncWrite ptm t1588 => some (.tsyncWrite ptm t1588)
  | .registerWriteIgnored off => some (.registerWriteIgnored off)
  | .tenantCreate q p => some (.tenantCreate q p)
  | .tenantDestroy q p => some (.tenantDestroy q p)
  | .queueBind q p => some (.queueBind q p)
  | .queueUnbind q p => some (.queueUnbind q p)
  | .windowMap q p => some (.windowMap q p)
  | .tideSet q p => some (.tideSet q p)
  | .tlbShoot q p => some (.tlbShoot q p)
  | .genWrap q p => some (.genWrap q p)
  | .genWrapComplete => some .genWrapComplete
  | .fenceUnit q p => some (.fenceUnit q p)
  | .islandSet q p => some (.islandSet q p)
  | .islandFreqChange island => some (.islandFreqChange island)
  | .powerCap q p => some (.powerCap q p)
  | .timeSet q p => some (.timeSet q p)
  | .timeCfg q p => some (.timeCfg q p)
  | .imageVerify q p => some (.imageVerify q p)
  | .attestQuote q p => some (.attestQuote q p)
  | .fwUpdate q p => some (.fwUpdate q p)
  | .debugRead q p => some (.debugRead q p)
  | .debugWrite q p => some (.debugWrite q p)
  | .infoRead q p => some (.infoRead q p)
  | .countRead q p => some (.countRead q p)
  | .traceCfg q p => some (.traceCfg q p)
  | .regionSwap q p => some (.regionSwap q p)
  | .badcmd q cmd p => some (.badcmd q cmd p)
  | .powerSample mw temps => some (.powerSample mw temps)
  | .powerTrace => some .powerTrace
  | .ptmExchange ptm => some (.ptmExchange ptm)
  | .ppsEdge => some .ppsEdge
  | .todMessage bytes => some (.todMessage bytes)
  | .timeHoldover => some .timeHoldover
  | .coldReset => some .coldReset
  | .warmReset => some .warmReset
  | .supplyOutOfLimits => some .supplyOutOfLimits
  | .illegalInstruction w => some (.illegalInstruction w)
  | .fetchPageX va => some (.fetchPageX va)
  | .placerComplete slot => some (.placerComplete slot)
  | .memoryReply rk ik idx => some (.memoryReply rk ik idx)
  | .msixUnmask fn vec => some (.msixUnmask fn vec)
  | .queueWindowWrite q off data => some (.queueWindowWrite q off data)
  | _ => none

end Sys2Proof.Machine
end

