-- ==== Sys2Proof/Certificates/Slice0/Obligations.lean ====
section
/-! DEFINITION. The statements for the provers. -/

open Sys2Proof Sys2Proof.Machine

/-! ## RV64I and M on a slot -/

/-- The integer instructions on registers and immediates, and LUI and AUIPC (R32, R112, R118): with readable sources and a
destination that is not poisoned, the next state is the one with rd written and the next instruction's PC; nothing else
changes. x0 takes nothing. A division leaves the slot out of the rotation until its result arrives, 40 clk later, or 24 for a
32-bit one (R111). -/
def Obligations.IntegerInstructions : Prop :=
  (∀ (s : State) (rd rs1 : XReg), s.xOk rd →
      (∀ a, s.xr rs1 = .ok a →
        (∀ o imm, exec (.opImm o rd rs1 imm) s = .next (s.putX rd (intImm o a imm)).retire)
        ∧ ∀ o imm, exec (.opImm32 o rd rs1 imm) s = .next (s.putX rd (intImm32 o a imm)).retire)
      ∧ (∀ imm, exec (.lui rd imm) s = .next (s.putX rd (word (imm.toInt * 2 ^ 12))).retire)
      ∧ ∀ imm, exec (.auipc rd imm) s = .next (s.putX rd (word (s.me.pc.toInt + imm.toInt * 2 ^ 12))).retire)
  ∧ (∀ (s : State) (rd rs1 rs2 : XReg) (a b : Word), s.xOk rd → s.xr rs1 = .ok a → s.xr rs2 = .ok b →
      (∀ o : RegOp, exec (.op o rd rs1 rs2) s = .next
        (if o ∈ [RegOp.div, .divu, .rem, .remu] then
          ((s.putX rd (intReg o a b)).retire.modMe fun v => { v with wait := .done .div }).after 40 (.divComplete s.cur)
        else (s.putX rd (intReg o a b)).retire))
      ∧ ∀ o : Reg32Op, exec (.op32 o rd rs1 rs2) s = .next
        (if o ∈ [Reg32Op.divw, .divuw, .remw, .remuw] then
          ((s.putX rd (intReg32 o a b)).retire.modMe fun v => { v with wait := .done .div }).after 24 (.divComplete s.cur)
        else (s.putX rd (intReg32 o a b)).retire))

/-- Jumps and branches (R32): to a 4-byte aligned target they write the link and go there; a branch that is not taken goes on,
whatever its target. Misaligned targets and addresses trap: MISALIGN of JAL, a taken branch, a load and a store, TAGPTR of
JALR, with the target or address in TVAL and no register written. -/
def Obligations.JumpsAndBranches : Prop :=
  (∀ (s : State) (rd rs1 rs2 : XReg) (a b : Word), s.xOk rd → s.xr rs1 = .ok a → s.xr rs2 = .ok b →
      (∀ off : BitVec 20, (s.me.pc.toInt + off.toInt * 2) % 4 = 0 →
        exec (.jal rd off) s = .next ((s.putX rd (s.me.pc + 4#64)).jumpTo (word (s.me.pc.toInt + off.toInt * 2))))
      ∧ (∀ imm : BitVec 12, (a.toInt + imm.toInt) % 4 = 0 →
        exec (.jalr rd rs1 imm) s = .next ((s.putX rd (s.me.pc + 4#64)).jumpTo (word (a.toInt + imm.toInt))))
      ∧ (∀ (o : BranchOp) (off : BitVec 12), taken o a b → (s.me.pc.toInt + off.toInt * 2) % 4 = 0 →
        exec (.branch o rs1 rs2 off) s = .next (s.jumpTo (word (s.me.pc.toInt + off.toInt * 2))))
      ∧ ∀ (o : BranchOp) (off : BitVec 12), ¬ taken o a b → exec (.branch o rs1 rs2 off) s = .next s.retire)
  ∧ (∀ (s : State) (rd rs1 rs2 : XReg) (a b : Word), s.xr rs1 = .ok a → s.xr rs2 = .ok b →
      (∀ off : BitVec 20, (s.me.pc.toInt + off.toInt * 2) % 4 ≠ 0 →
        exec (.jal rd off) s = .next (s.takeTrap { cause := 0x03, tval := word (s.me.pc.toInt + off.toInt * 2) }))
      ∧ (∀ imm : BitVec 12, (a.toInt + imm.toInt) % 4 ≠ 0 →
        exec (.jalr rd rs1 imm) s = .next (s.takeTrap { cause := 0x0A, tval := word (a.toInt + imm.toInt) }))
      ∧ (∀ (o : BranchOp) (off : BitVec 12), taken o a b → (s.me.pc.toInt + off.toInt * 2) % 4 ≠ 0 →
        exec (.branch o rs1 rs2 off) s =
          .next (s.takeTrap { cause := 0x03, tval := word (s.me.pc.toInt + off.toInt * 2) }))
      ∧ (∀ (o : LoadOp) (imm : BitVec 12), (word (a.toInt + imm.toInt)).toNat % LoadOp.bytes o ≠ 0 →
        exec (.load o rd rs1 imm) s = .next (s.takeTrap { cause := 0x03, tval := word (a.toInt + imm.toInt) }))
      ∧ ∀ (z : Size) (imm : BitVec 12), (word (a.toInt + imm.toInt)).toNat % Size.bytes z ≠ 0 →
        exec (.store z rs2 rs1 imm) s = .next (s.takeTrap { cause := 0x03, tval := word (a.toInt + imm.toInt) }))

/-- Loads and stores (R32, R118): an aligned access whose page admits it reads the bytes as the core sees them, sign- or
zero-extended into rd, or writes the low bytes of rs2; one whose page does not traps with the cause and address that the
translation gives, and writes nothing. -/
def Obligations.LoadsAndStores : Prop :=
  ∀ (s : State) (rd rs1 rs2 : XReg) (imm : BitVec 12) (a b va : Word),
    s.xr rs1 = .ok a → s.xr rs2 = .ok b → va = word (a.toInt + imm.toInt) →
    (∀ (o : LoadOp) (p : Phys) (t u : State) (bs : List Byte), va.toNat % LoadOp.bytes o = 0 →
      xlat s s.agent va .r = .ok (p, t) → t.coreRead (coreOf s.cur) p (LoadOp.bytes o) = (bs, u) → u.xOk rd →
      exec (.load o rd rs1 imm) s = .next (u.putX rd (loaded o bs)).retire)
    ∧ (∀ (z : Size) (p : Phys) (t : State), va.toNat % Size.bytes z = 0 → xlat s s.agent va .w = .ok (p, t) →
      exec (.store z rs2 rs1 imm) s = .next (t.coreWrite (coreOf s.cur) p (natBytes (Size.bytes z) b.toNat)).retire)
    ∧ (∀ (o : LoadOp) (t : Trap), va.toNat % LoadOp.bytes o = 0 → xlat s s.agent va .r = .error t →
      exec (.load o rd rs1 imm) s = .next (s.takeTrap t))
    ∧ ∀ (z : Size) (t : Trap), va.toNat % Size.bytes z = 0 → xlat s s.agent va .w = .error t →
      exec (.store z rs2 rs1 imm) s = .next (s.takeTrap t)

/-- A core reads what it last stored, whatever its caches hold (R203): bytes within one 32-byte line of cached memory read back as
stored, and every other byte of that line reads as it read before. With a cached address and a place in its core's
buffer, a plain store changes that buffer and the drain that is timed; memory at its home, every cache and every register
stay as they are. -/
def Obligations.StoreThenLoad : Prop :=
  (∀ (s : State) (core : Nat) (p q : Phys) (bs : List Byte), s.uncached p = false → p.pa % 32 + bs.length ≤ 32 →
      ((s.coreWrite core p bs).coreRead core p bs.length).1 = bs
      ∧ ((s.core core).cb.length < 16 → q.pa / 32 = p.pa / 32 → q.hs = p.hs → q.tide = p.tide →
        q.pa < p.pa ∨ p.pa + bs.length ≤ q.pa →
        ((s.coreWrite core p bs).coreRead core q 1).1 = (s.coreRead core q 1).1))
  ∧ (∀ (s : State) (core : Nat) (p : Phys) (bs : List Byte), s.uncached p = false → (s.core core).cb.length < 16 →
      ∃ cb duties, s.coreWrite core p bs =
        { s with cores := AMap.set s.cores core { s.core core with cb := cb }, duties := s.duties ++ duties }
        ∧ (∀ e ∈ cb, e.line ≠ p.pa / 32 → e ∈ (s.core core).cb) ∧ ∀ e ∈ (s.core core).cb, e.line ≠ p.pa / 32 → e ∈ cb)

/-- FENCE, FENCE.I, `fence.sc`, acquire loads, release stores and `pref` (R32, R118, R218, R229, R254): a release empties the core's
buffer and forwards its cove's writes to their homes, an acquire empties the core's L1D, FENCE.I drops the core's fetched
lines; registers stay, the PC goes on. An acquire load takes its bytes sign-extended, then acquires; a release store releases,
then stores. A prefetch completes whatever its address and changes what accesses work on only. -/
def Obligations.Fences : Prop :=
  (∀ (s : State) (rd rs1 : XReg) (imm : BitVec 12) (sc : Scope),
      let c := coreOf s.cur
      (∃ t, exec (.fence rd rs1 imm) s = .next t ∧ t.slots = s.retire.slots ∧ t.drained c ∧ (t.core c).l1d = [])
      ∧ (∃ t, exec (.fenceI rd rs1 imm) s = .next t ∧ t.slots = s.retire.slots ∧ (t.core c).cb = [] ∧ (t.core c).l1i = [])
      ∧ (∃ t, exec (.fenceSc .rel sc) s = .next t ∧ t.slots = s.retire.slots
        ∧ (sc ≠ .th → (t.core c).cb = []) ∧ (sc = .dv ∨ sc = .sy → t.drained c))
      ∧ (∃ t, exec (.fenceSc .acq sc) s = .next t ∧ t.slots = s.retire.slots ∧ t.mem = s.mem ∧ (sc ≠ .th → (t.core c).l1d = []))
      ∧ (∃ t, exec (.fenceSc .ar sc) s = .next t ∧ t.slots = s.retire.slots
        ∧ (sc ≠ .th → (t.core c).cb = [] ∧ (t.core c).l1d = []) ∧ (sc = .dv ∨ sc = .sy → t.drained c)))
  ∧ (∀ (s t : State) (rd rs1 rs2 : XReg) (z : Size) (sc : Scope) (a b : Word) (p : Phys),
      s.xr rs1 = .ok a → s.xr rs2 = .ok b → a.toNat % Size.bytes z = 0 →
      (∀ bs u, xlat s s.agent a .r = .ok (p, t) → t.coreRead (coreOf t.cur) p (Size.bytes z) = (bs, u) → u.xOk rd →
        exec (.ldAcq z sc rd rs1) s =
          .next ((u.putX rd (signedOf (Size.bytes z) bs)).acquireAt (coreOf u.cur) sc).retire)
      ∧ (xlat s s.agent a .w = .ok (p, t) →
        exec (.stRel z sc rs2 rs1) s = .next ((t.releaseAt (coreOf t.cur) sc).coreWrite (coreOf (t.releaseAt (coreOf t.cur) sc).cur) p
          (natBytes (Size.bytes z) b.toNat)).retire))
  ∧ (∀ (s : State) (l2 w : Bool) (rs1 rs2 : XReg), ∃ u, keeps s u
      ∧ exec (.pref l2 w rs1 rs2) s = .next ({ u with stall := s.stall, walked := s.walked } : State).retire)

/-! ## CSRs -/

/-- The six Zicsr forms complete on an implemented CSR that the mode may name (R33, R113): rd takes the old value, the CSR the new
one; the set and clear forms with x0 or a zero immediate write nothing. The numbers of the map (R90, R113-R116) are implemented
and no other; a write sets the bits that exist and changes no other CSR; a write to a CSR without writable bits changes
nothing. -/
def Obligations.CsrForms : Prop :=
  (∀ (s : State) (rd rs1 : XReg) (z : BitVec 5) (n : BitVec 12) (a old : Word),
      csrRead s n = some old → (n.toNat / 256 % 4 = 1 → s.me.sup = true) → s.xOk rd → s.xr rs1 = .ok a →
      let wr (w : Word) : State := (((s.putX rd old).modMe fun v => v.csrWrite n w).retire)
      (n.toNat ∉ csrReadOnly →
        exec (.csrrw rd rs1 n) s = .next (wr a) ∧ exec (.csrrwi rd z n) s = .next (wr (z.setWidth 64))
        ∧ (rs1 ≠ 0#5 → exec (.csrrs rd rs1 n) s = .next (wr (old ||| a)) ∧ exec (.csrrc rd rs1 n) s = .next (wr (old &&& ~~~a)))
        ∧ (z ≠ 0#5 → exec (.csrrsi rd z n) s = .next (wr (old ||| z.setWidth 64))
          ∧ exec (.csrrci rd z n) s = .next (wr (old &&& ~~~(z.setWidth 64)))))
      ∧ (rs1 = 0#5 → exec (.csrrs rd rs1 n) s = .next (s.putX rd old).retire ∧ exec (.csrrc rd rs1 n) s = .next (s.putX rd old).retire)
      ∧ (z = 0#5 → exec (.csrrsi rd z n) s = .next (s.putX rd old).retire ∧ exec (.csrrci rd z n) s = .next (s.putX rd old).retire))
  ∧ ((∀ (s : State) (n : BitVec 12), (csrRead s n).isSome ↔ n.toNat ∈ csrMap)
    ∧ (∀ (s : State) (n : BitVec 12) (w m : Word), csrMask n.toNat = some m →
      csrRead (s.modMe fun v => v.csrWrite n w) n = some (w &&& m))
    ∧ (∀ (s : State) (n k : BitVec 12) (w : Word), k ≠ n → csrRead (s.modMe fun v => v.csrWrite n w) k = csrRead s k)
    ∧ ∀ (v : Slot) (n : BitVec 12) (w : Word), csrMask n.toNat = none → v.csrWrite n w = v)

/-- Zicsr faults (R33): ILLEGAL for a number not implemented and for a write of a read-only CSR, PRIV for a supervisor CSR
named from user mode; TVAL is the word, and nothing is written. -/
def Obligations.CsrFaults : Prop :=
  ∀ (s : State) (rd rs1 : XReg) (z : BitVec 5) (n : BitVec 12),
    let all (w : Bool) : List Instr :=
      [.csrrw rd rs1 n, .csrrwi rd z n] ++ (if w then [] else [.csrrs rd rs1 n, .csrrc rd rs1 n, .csrrsi rd z n, .csrrci rd z n])
    (n.toNat ∉ csrMap → ∀ i ∈ all false, exec i s = .next (s.takeTrap { cause := 0x01, tval := codeOf i }))
    ∧ (n.toNat ∈ csrReadOnly → ∀ i ∈ all true, exec i s = .next (s.takeTrap { cause := 0x01, tval := codeOf i }))
    ∧ (n.toNat ∈ csrReadOnly → rs1 ≠ 0#5 → z ≠ 0#5 →
      ∀ i ∈ all false, exec i s = .next (s.takeTrap { cause := 0x01, tval := codeOf i }))
    ∧ (n.toNat ∈ csrMap → n.toNat ∉ csrReadOnly → n.toNat / 256 % 4 = 1 → s.me.sup = false →
      ∀ i ∈ all false, exec i s = .next (s.takeTrap { cause := 0x02, tval := codeOf i }))
    ∧ (n.toNat ∈ csrMap → n.toNat / 256 % 4 = 1 → s.me.sup = false → rs1 = 0#5 → z = 0#5 →
      ∀ i ∈ [Instr.csrrs rd rs1 n, .csrrc rd rs1 n, .csrrsi rd z n, .csrrci rd z n],
        exec i s = .next (s.takeTrap { cause := 0x02, tval := codeOf i }))

/-! ## Taking an exception and returning from it -/

/-- Trap entry (R414): TEPC, TCAUSE, TVAL and TSTATUS saved, MASKED, INHANDLER and WCNT cleared, supervisor mode, and the
PC at TVEC, else at the tenant's SVEC; the registers, memory and every other slot stay. (A trap that is no stage-2 refusal
writes no audit record; `freeCtr` is the model's own.) -/
def Obligations.TrapEntry : Prop :=
  ∀ (s : State) (t : Trap) (h : Word), t.log = false → s.handler = some h →
    s.takeTrap t = { s.modMe fun v =>
      { v with
        trap := { v.trap with
          tepc := v.pc &&& ~~~3#64, tcause := t.cause, tval := t.tval
          tstatus := BitVec.ofNat 9 v.wcnt ++ BitVec.ofBool v.inHandler ++ BitVec.ofBool v.masked ++ BitVec.ofBool v.sup }
        masked := false, inHandler := false, wcnt := 0, sup := true, wait := .run, pc := h } with freeCtr := s.freeCtr + 1 }

/-- ECALL and EBREAK take their trap, with causes 0x16 and 0x17 (R32, R414). `tret` (R417): the PC from TEPC, the mode from TSTATUS.PP,
and to user mode the message state too; to supervisor mode the message state is cleared. Trap entry followed by `tret`
restores the PC, mode and message state it saved. -/
def Obligations.TrapReturn : Prop :=
  (∀ s : State, exec .ecall s = .next (s.takeTrap { cause := 0x16, tval := 0#64 })
      ∧ exec .ebreak s = .next (s.takeTrap { cause := 0x17, tval := 0#64 }))
  ∧ ((∀ s : State, s.me.sup = true → exec .tret s = .next (s.modMe fun v =>
      { v with
        pc := v.trap.tepc &&& ~~~3#64
        sup := v.trap.tstatus.getLsbD 0
        masked := if v.trap.tstatus.getLsbD 0 then false else v.trap.tstatus.getLsbD 1
        inHandler := if v.trap.tstatus.getLsbD 0 then false else v.trap.tstatus.getLsbD 2
        wcnt := if v.trap.tstatus.getLsbD 0 then 0 else (v.trap.tstatus.extractLsb' 3 9).toNat
        wait := .run }))
    ∧ ∀ (s : State) (t : Trap), t.log = false → s.handler.isSome → s.me.sup = false → s.me.pc.toNat % 4 = 0 →
      s.me.wcnt < 512 → ∃ u, exec .tret (s.takeTrap t) = .next u
        ∧ u.me = { s.me with trap := (s.takeTrap t).me.trap, wait := .run } ∧ u.mem = s.mem)

/-- Supervisor instructions in user mode take PRIV with their word in TVAL, before any operand is read (R36). -/
def Obligations.PrivilegedInUserMode : Prop :=
  ∀ (s : State) (rd rs1 rs2 : XReg), s.me.sup = false →
    ∀ i ∈ [Instr.tret, .genNew rd, .gctxRes rs1, .gctxKill rs1, .plcFind rd rs1, .plcLoad rd rs1 rs2, .plcRel rs1,
        .cfgWr rs1 rs2, .cfgWrRestamp rs1 rs2, .cfgChk rd rs1],
      exec i s = .next (s.takeTrap { cause := 0x02, tval := codeOf i })

/-! ## Vectors -/

/-- Element-wise arithmetic (R138, R139, R144): integer elements wrap, their minimum and maximum are signed, and a
division by zero is all ones; floating-point ones are computed on exact values and rounded once under VRM; VRM = 111 is
ILLEGAL (R136). -/
def Obligations.VectorArithmetic : Prop :=
  ∀ (s : State) (m : Bool) (f : Fmt) (vd vs1 vs2 : VReg) (v0 a b : VWord),
    s.vOk vd → s.vecMask m = .ok v0 → s.vr vs1 = .ok a → s.vr vs2 = .ok b →
    let w := Fmt.width f
    let x (k : Nat) : Nat := elemV a w k
    let y (k : Nat) : Nat := elemV b w k
    let fx (k : Nat) : FV := Fmt.value f (x k)
    let fy (k : Nat) : FV := Fmt.value f (y k)
    let ints (i : Instr) (res : Nat → Int) : Prop :=
      s.vecWrites m v0 w (lanes f) vd (fun k => (natOf w (res k), 0#5)) (exec i s)
    let reals (i : Instr) (res : Nat → Nat × NxFlags) : Prop := s.vecWrites m v0 w (lanes f) vd res (exec i s)
    (isInt f = true →
      ints (.vadd m f vd vs1 vs2) (fun k => x k + y k) ∧ ints (.vsub m f vd vs1 vs2) (fun k => x k - y k)
      ∧ ints (.vmul m f vd vs1 vs2) (fun k => x k * y k)
      ∧ (∀ c, s.vr vd = .ok c → ints (.vfma m f vd vs1 vs2) fun k => x k * y k + elemV c w k)
      ∧ ints (.vmin m f vd vs1 vs2) (fun k => min (intOf w (x k)) (intOf w (y k)))
      ∧ ints (.vmax m f vd vs1 vs2) (fun k => max (intOf w (x k)) (intOf w (y k))))
    ∧ (f = .int → ints (.vdiv m f vd vs1 vs2) fun k => quot (intOf 32 (x k)) (intOf 32 (y k)))
    ∧ (isInt f = false → ∀ (rm : Rm) (r : VWord), s.rounds rm r →
      let rnd (k : Nat) : Rnd := rndAt r.toNat w k
      reals (.vadd m f vd vs1 vs2) (fun k => fpAdd f rm (rnd k) (fx k) (fy k))
      ∧ reals (.vsub m f vd vs1 vs2) (fun k => fpSub f rm (rnd k) (fx k) (fy k))
      ∧ reals (.vmul m f vd vs1 vs2) (fun k => fpMul f rm (rnd k) (fx k) (fy k))
      ∧ (∀ c, s.vr vd = .ok c →
        reals (.vfma m f vd vs1 vs2) fun k => fpFma f rm (rnd k) (fx k) (fy k) (Fmt.value f (elemV c w k)))
      ∧ reals (.vmin m f vd vs1 vs2) (fun k => fpMinMax f false (x k) (y k))
      ∧ reals (.vmax m f vd vs1 vs2) (fun k => fpMinMax f true (x k) (y k))
      ∧ (f = .fp32 → reals (.vdiv m f vd vs1 vs2) fun k => fpDiv .fp32 rm (rnd k) (fx k) (fy k)))
    ∧ (isInt f = false → s.me.user.vrm = 7#3 →
      ∀ i ∈ [Instr.vadd m f vd vs1 vs2, .vsub m f vd vs1 vs2, .vmul m f vd vs1 vs2, .vfma m f vd vs1 vs2,
          .vmin m f vd vs1 vs2, .vmax m f vd vs1 vs2, .vdiv m f vd vs1 vs2],
        exec i s = .next (s.takeTrap { cause := 0x01, tval := codeOf i }))

/-- Logic and shifts of elements (R140, R141): of any format, by the bits; a count is the low bits of its element; no
flag is set. -/
def Obligations.VectorLogic : Prop :=
  ∀ (s : State) (m : Bool) (f : Fmt) (vd vs1 vs2 : VReg) (v0 a b : VWord),
    s.vOk vd → s.vecMask m = .ok v0 → s.vr vs1 = .ok a → s.vr vs2 = .ok b →
    let w := Fmt.width f
    let gives (i : Instr) (res : BitVec w → BitVec w → BitVec w) : Prop :=
      s.vecWrites m v0 w (lanes f) vd
        (fun k => ((res (BitVec.ofNat w (elemV a w k)) (BitVec.ofNat w (elemV b w k))).toNat, 0#5)) (exec i s)
    gives (.vand m f vd vs1 vs2) (fun x y => x &&& y) ∧ gives (.vor m f vd vs1 vs2) (fun x y => x ||| y)
    ∧ gives (.vxor m f vd vs1 vs2) (fun x y => x ^^^ y)
    ∧ gives (.vsll m f vd vs1 vs2) (fun x y => x <<< (y.toNat % w))
    ∧ gives (.vsrl m f vd vs1 vs2) (fun x y => x >>> (y.toNat % w))
    ∧ gives (.vsra m f vd vs1 vs2) (fun x y => x.sshiftRight (y.toNat % w))

/-- Compares and select (R142, R143): a compare writes one bit for each lane and 0 above them; integers compare signed; `vsel` takes
its elements by the bits of v0. Movement of elements (R148-R152): permutation by index modulo the lanes, or within its group of
16 codes for LQ4; slides by a signed count with zeros shifted in; splat, extraction (sign-extended for integers, 0 past the
lanes) and move. -/
def Obligations.VectorComparesAndMoves : Prop :=
  (∀ (s : State) (m : Bool) (f : Fmt) (vd vs1 vs2 : VReg) (v0 a b : VWord),
      s.vOk vd → s.vr vs1 = .ok a → s.vr vs2 = .ok b →
      let w := Fmt.width f
      let x (k : Nat) : Int := intOf w (elemV a w k)
      let y (k : Nat) : Int := intOf w (elemV b w k)
      let bit (c : Bool) : Nat := if c then 1 else 0
      (s.vecMask m = .ok v0 →
        let bits (i : Instr) (res : Nat → Bool × NxFlags) : Prop :=
          s.vecWrites m v0 1 (lanes f) vd (fun k => (bit (res k).1, (res k).2)) (exec i s)
        (isInt f = true → bits (.vclt m f vd vs1 vs2) (fun k => (decide (x k < y k), 0#5))
          ∧ bits (.vcle m f vd vs1 vs2) (fun k => (decide (x k ≤ y k), 0#5))
          ∧ bits (.vceq m f vd vs1 vs2) (fun k => (decide (x k = y k), 0#5)))
        ∧ (isInt f = false →
          let fc (c : Cmp) (k : Nat) : Bool × NxFlags := fpCmp c (Fmt.value f (elemV a w k)) (Fmt.value f (elemV b w k))
          bits (.vclt m f vd vs1 vs2) (fc .lt) ∧ bits (.vcle m f vd vs1 vs2) (fc .le) ∧ bits (.vceq m f vd vs1 vs2) (fc .eq)))
      ∧ (s.vr 0#5 = .ok v0 →
        s.vecWrites false v0 w (lanes f) vd (fun k => (if v0.getLsbD k then elemV a w k else elemV b w k, 0#5))
          (exec (.vsel f vd vs1 vs2) s)))
  ∧ (∀ (s : State) (m : Bool) (f : Fmt) (vd vs1 vs2 : VReg) (rd rs : XReg) (v0 a b : VWord) (x : Word),
      s.vr vs1 = .ok a → s.xr rs = .ok x →
      let w := Fmt.width f
      let n := lanes f
      (s.vOk vd → s.vecMask m = .ok v0 →
        let gives (i : Instr) (res : Nat → Nat) : Prop := s.vecWrites m v0 w n vd (fun k => (res k, 0#5)) (exec i s)
        (s.vr vs2 = .ok b → f ≠ .lq4 → gives (.vperm m f vd vs1 vs2) fun k => elemV a w (elemV b w k % n))
        ∧ (s.vr vs2 = .ok b → f = .lq4 → gives (.vperm m f vd vs1 vs2) fun k => elemV a 4 (16 * (k / 16) + elemV b 4 k))
        ∧ gives (.vslide m f vd vs1 rs) (fun k =>
          if 0 ≤ (k : Int) - x.toInt ∧ (k : Int) - x.toInt < n then elemV a w ((k : Int) - x.toInt).toNat else 0)
        ∧ gives (.vsplat m f vd rs) (fun _ => x.toNat)
        ∧ gives (.vmov m f vd vs1) (fun k => elemV a w k))
      ∧ (s.xOk rd → exec (.vxtr f rd vs1 rs) s = .next (s.putX rd
          (if n ≤ x.toNat then 0#64
          else if isInt f then word (intOf w (elemV a w x.toNat)) else w64 (elemV a w x.toNat))).retire))

/-- Conversions and random words (R94, R96, R97, R153): `vcvt` converts the elements that both formats have and zeroes the
rest; `vq` writes the codes of its part of vd and keeps the others; `vdq` reads its part of vs1; `vrng` writes 32 fields
of 16 outputs of the generator, which moves on. -/
def Obligations.VectorConversions : Prop :=
  ∀ (s : State) (m : Bool) (f g : Fmt) (vd vs1 : VReg) (rs : XReg) (v0 a r : VWord) (x : Word) (rm : Rm),
    s.vOk vd → s.vecMask m = .ok v0 → s.vr vs1 = .ok a → s.xr rs = .ok x →
    let w := Fmt.width f
    let n := lanes f
    (((isInt f = true ∧ rm = .rne ∧ r = 0#1024) ∨ (isInt f = false ∧ s.rounds rm r)) →
      s.vecWrites m v0 (Fmt.width g) (lanes g) vd (fun k =>
        if min n (lanes g) ≤ k then (0, 0#5)
        else convert g (Fmt.width g) rm (rndAt r.toNat (Fmt.width g) k) (valueOf f w (elemV a w k))) (exec (.vcvt m f g vd vs1) s))
    ∧ (isInt f = false → f ≠ .lq4 → s.rounds rm r →
      let p := fld x 42 40 % (256 / n)
      let sc := blockScale (fld x 31 0) (fld x 39 32)
      s.vecWrites m v0 w n vd
        (fun k => let d := dequant f rm (rndAt r.toNat w k) (elemV a 4 (n * p + k)) sc.1; (d.1, d.2 ||| sc.2)) (exec (.vdq m f vd vs1 rs) s)
      ∧ ∃ (v : VWord) (fl : NxFlags), exec (.vq m f vd vs1 rs) s = .next (s.vecDone vd v fl)
        ∧ ∀ k, k < 256 → elemV v 4 k =
          if n * p ≤ k ∧ k < n * (p + 1) ∧ (m = false ∨ v0.getLsbD (k - n * p))
          then (quantLq4 (Fmt.value f (elemV a w (k - n * p))) sc.1 rm (elemV r 4 k)).1 % 16
          else elemV (s.vecOld vd) 4 k)
    ∧ ∃ v : VWord, exec (.vrng m vd) s = .next
        ((s.vecDone vd v 0#5).modMe fun t => { t with user := { t.user with rngst := s.me.user.rngst + 16 * 0xD1B54A32D192ED03#64 } })
      ∧ ∀ k, k < 32 → elemV v 32 k =
        if m = false ∨ v0.getLsbD k
        then elemN (nextRandom (s.me.user.rngst + BitVec.ofNat 64 (k / 2) * 0xD1B54A32D192ED03#64)).2.toNat 32 (k % 2)
        else elemV (s.vecOld vd) 32 k

/-- The function unit, reductions and scans (R145-R147): √x, 1/x, 2^x and log2 x of each FP32 element; a reduction writes
its one element and zeros; an integer sum wraps and an integer maximum or minimum is one of the active elements, with
nothing beyond it; an integer scan writes to each active element the sum of the active ones up to it. -/
def Obligations.VectorFunctionsAndReductions : Prop :=
  ∀ (s : State) (m : Bool) (f : Fmt) (vd vs1 : VReg) (v0 a r : VWord) (rm : Rm),
    s.vOk vd → s.vecMask m = .ok v0 → s.vr vs1 = .ok a →
    (s.rounds rm r →
      let gives (i : Instr) (fn : Fmt → Rm → Rnd → FV → Nat × NxFlags) : Prop :=
        s.vecWrites m v0 32 32 vd (fun k => fn .fp32 rm (rndAt r.toNat 32 k) (Fmt.value .fp32 (elemV a 32 k))) (exec i s)
      gives (.vsqrt m vd vs1) fpSqrt ∧ gives (.vrcp m vd vs1) fpRcp ∧ gives (.vexp2 m vd vs1) fpExp2
      ∧ gives (.vlog2 m vd vs1) fpLog2
      ∧ (isInt f = false → f ≠ .lq4 → ∀ i ∈ [Instr.vrsum m f vd vs1, .vscan m f vd vs1],
        ∃ (v : VWord) (fl : NxFlags), exec i s = .next (s.vecDone vd v fl) ∧ (i ≠ .vscan m f vd vs1 → v.toNat < 2 ^ Fmt.width f)))
    ∧ (s.me.user.vrm ≠ 7#3 → isInt f = false → f ≠ .lq4 → ∀ i ∈ [Instr.vrmax m f vd vs1, .vrmin m f vd vs1],
      ∃ (v : VWord) (fl : NxFlags), exec i s = .next (s.vecDone vd v fl) ∧ v.toNat < 2 ^ Fmt.width f)
    ∧ (isInt f = true →
      let w := Fmt.width f
      let act := (List.range (lanes f)).filter fun k => !m || v0.getLsbD k
      let xs := act.map fun k => intOf w (elemV a w k)
      let gives (i : Instr) (res : Int → Prop) : Prop :=
        ∃ x : Int, exec i s = .next (s.vecDone vd (BitVec.ofNat 1024 (natOf w x)) 0#5) ∧ res x
      gives (.vrsum m f vd vs1) (fun x => x = xs.sum)
      ∧ (xs ≠ [] → gives (.vrmax m f vd vs1) (fun x => x ∈ xs ∧ ∀ y ∈ xs, y ≤ x)
        ∧ gives (.vrmin m f vd vs1) (fun x => x ∈ xs ∧ ∀ y ∈ xs, x ≤ y))
      ∧ s.vecWrites m v0 w (lanes f) vd
        (fun k => (natOf w ((act.filter (· ≤ k)).map fun j => intOf w (elemV a w j)).sum, 0#5)) (exec (.vscan m f vd vs1) s))

/-! ## Vector, typed-buffer and synchronising accesses -/

/-- Vector loads and stores (R208-R210): when every active element is aligned, translates and lies in no poisoned line, each active
element takes the bytes at its address, or its low bytes are written there in the order of the elements; inactive elements keep
what they held and access nothing. An element of a store that does not translate stops it before any is written; a `vld` or
`vst` of an address that is no multiple of 128 is MISALIGN. -/
def Obligations.VectorAccesses : Prop :=
  (∀ (s t u : State) (m : Bool) (vd vs2 : VReg) (rs1 rs2 : XReg) (a b : Word) (ix v0 : VWord) (val : Nat → Nat),
      s.xr rs1 = .ok a → s.xr rs2 = .ok b → s.vr vs2 = .ok ix → s.vecMask m = .ok v0 → u.vOk vd →
      let reads (e n : Nat) (addr : Nat → Word) (i : Instr) : Prop :=
        ∀ ps, (∀ k ∈ activeOf m v0 n, (addr k).toNat % e = 0)
          → xlatAll s s.agent .r ((activeOf m v0 n).map addr) = .ok (ps, t) → (∀ p ∈ ps, t.isPoison p.pa = false)
          → readAll t e ps = ((activeOf m v0 n).map val, u)
          → u.vecWrites m v0 (8 * e) n vd (fun k => (val k, 0#5)) (exec i s)
      (a.toNat % 128 = 0 → reads 4 32 (fun k => a + w64 (4 * k)) (.vld m vd rs1))
      ∧ (a.toNat % 128 ≠ 0 → exec (.vld m vd rs1) s = .next (s.takeTrap { cause := 0x03, tval := a }))
      ∧ (∀ z, reads (Size.bytes z) (128 / Size.bytes z) (fun k => a + w64 k * b) (.vlds m z vd rs1 rs2))
      ∧ ∀ z scl, reads (Size.bytes z) (min 32 (128 / Size.bytes z))
        (fun k => a + word (intOf 32 (elemV ix 32 k) * (if scl then Size.bytes z else 1))) (.vlx m z scl vd rs1 vs2))
  ∧ (∀ (s t : State) (m : Bool) (vs vs2 : VReg) (rs1 rs2 : XReg) (a b : Word) (d ix v0 : VWord),
      s.xr rs1 = .ok a → s.xr rs2 = .ok b → s.vr vs = .ok d → s.vr vs2 = .ok ix → s.vecMask m = .ok v0 →
      let act (n : Nat) := activeOf m v0 n
      let writes (e n : Nat) (addr : Nat → Word) (i : Instr) : Prop :=
        (∀ k ∈ act n, (addr k).toNat % e = 0) →
        (∀ ps, xlatAll s s.agent .w ((act n).map addr) = .ok (ps, t) → (∀ p ∈ ps, t.isPoison p.pa = false) →
          exec i s = .next (writeAll t e (ps.zip ((act n).map fun k => elemV d (8 * e) k))).retire)
        ∧ ∀ f, xlatAll s s.agent .w ((act n).map addr) = .error f → exec i s = .next (s.takeTrap f)
      (a.toNat % 128 = 0 → ∀ ps, xlatAll s s.agent .w ((act 32).map fun k => a + w64 (4 * k)) = .ok (ps, t) →
        let half (h : Nat) := ((act 32).zip ps).filterMap fun q => if q.1 / 16 = h then some (q.2, elemV d 32 q.1) else none
        (∀ p ∈ ps, t.isPoison p.pa = false ∧ (writeAll t 4 (half 0)).isPoison p.pa = false) →
        exec (.vst m vs rs1) s = .next (writeAll (writeAll t 4 (half 0)) 4 (half 1)).retire)
      ∧ (a.toNat % 128 ≠ 0 → exec (.vst m vs rs1) s = .next (s.takeTrap { cause := 0x03, tval := a }))
      ∧ (∀ z, writes (Size.bytes z) (128 / Size.bytes z) (fun k => a + w64 k * b) (.vsts m z vs rs1 rs2))
      ∧ ∀ z scl, writes (Size.bytes z) (min 32 (128 / Size.bytes z))
        (fun k => a + word (intOf 32 (elemV ix 32 k) * (if scl then Size.bytes z else 1))) (.vsx m z scl vs rs1 vs2))

/-- Typed buffers (R169, R189, R213): a store puts its 128 bytes into the two granules it covers and stamps them with the slot's
generation, and changes no other granule; a load gives the bytes of its two granules where they carry that generation, and so
what a store has just written; of the C-buffer under a running matrix operation a load gives the bytes of the view that it
finds. An offset that is no multiple of 64, or past the buffer, faults with the offset in TVAL. -/
def Obligations.TypedBuffers : Prop :=
  ∀ (s : State) (z : Buf) (vs vd : VReg) (rs1 : XReg) (o : Word) (d : VWord),
    s.xr rs1 = .ok o → s.vr vs = .ok d → s.vOk vd →
    let size : Nat := if z = .w then 0x80000 else 0x40000
    let quiet : Prop := z = .c → runningBand s (coreOf s.cur) = none
    (o.toNat % 64 = 0 → o.toNat + 128 ≤ size →
      (∀ g ∈ [o.toNat / 64, o.toNat / 64 + 1], (AMap.getD (s.myCore.buf z) g {}).gen ≠ 0xFFFF#16) →
      ∃ t : State, exec (.bufst z vs rs1) s = .next t
        ∧ (∀ k, k < 2 → AMap.get? (t.myCore.buf z) (o.toNat / 64 + k) =
          some { data := BitVec.ofNat 512 (d.toNat / 2 ^ (512 * k)), gen := s.me.gen })
        ∧ (∀ g, g ≠ o.toNat / 64 → g ≠ o.toNat / 64 + 1 →
          AMap.get? (t.myCore.buf z) g = AMap.get? (s.myCore.buf z) g)
        ∧ t.slots = s.retire.slots ∧ t.mem = s.mem
        ∧ (quiet → t = ((s.modMyCore fun c => c.setBuf z (t.myCore.buf z)).retire))
        ∧ (quiet → s.me.gen ≠ 0xFFFF#16 → exec (.bufld z vd rs1) t = .next (t.vecDone vd d 0#5)))
    ∧ (∀ lo hi : BitVec 512, o.toNat % 64 = 0 → o.toNat + 128 ≤ size → quiet → s.me.gen ≠ 0xFFFF#16 →
      AMap.get? (s.myCore.buf z) (o.toNat / 64) = some { data := lo, gen := s.me.gen } →
      AMap.get? (s.myCore.buf z) (o.toNat / 64 + 1) = some { data := hi, gen := s.me.gen } →
      exec (.bufld z vd rs1) s = .next (s.vecDone vd (hi ++ lo) 0#5))
    ∧ (∀ m u bs, o.toNat % 64 = 0 → o.toNat + 128 ≤ size → bufView s (coreOf s.cur) z o.toNat 128 = (m, u) →
      granRead m s.me.gen s.me.trapMode o.toNat 128 = .ok bs →
      exec (.bufld z vd rs1) s = .next (u.vecDone vd (BitVec.ofNat 1024 (bytesNat bs)) 0#5))
    ∧ (o.toNat % 64 ≠ 0 → ∀ i ∈ [Instr.bufld z vd rs1, .bufst z vs rs1],
      exec i s = .next (s.takeTrap { cause := 0x03, tval := o }))
    ∧ (o.toNat % 64 = 0 → size < o.toNat + 128 → ∀ i ∈ [Instr.bufld z vd rs1, .bufst z vs rs1],
      exec i s = .next (s.takeTrap { cause := 0x07, tval := o }))

/-- Synchronising loads and the full/empty bits (R214-R217): `ld.s` and `ld.se` take a full word at its home and acquire at
device scope, and `ld.se` leaves it empty; an empty word holds the slot at its instruction; `vld.s` completes when its 16
words have been full; `fe.set` and `fe.clr` release at device scope and set the bit of their word alone. -/
def Obligations.FullEmpty : Prop :=
  ∀ (s t : State) (rd rs1 : XReg) (vd : VReg) (a : Word) (p : Phys), s.xr rs1 = .ok a →
    (a.toNat % 8 = 0 → translate s s.agent a .r = .ok (p, t) → t.hasFe p.pa = true → t.isPoison p.pa = false →
      let h := t.atHome t.agent p
      let c := coreOf h.cur
      let taken (u : State) : State :=
        ((((u.dropOld (coveOfSlot h.cur) (p.pa / 64)).acquireAt c .dv).stallFor (tierClk (h.tier p.pa))).retire)
      h.xOk rd →
      (h.isFull p.pa = true →
        exec (.ldS rd rs1) s = .next (taken (h.putX rd (h.homeWord p)))
        ∧ exec (.ldSe rd rs1) s = .next (taken ((h.putX rd (h.homeWord p)).setEmpty p.pa)))
      ∧ (h.isFull p.pa = false → exec (.ldS rd rs1) s = .next (h.holdOn .sync (.ldS rd rs1) a)
        ∧ exec (.ldSe rd rs1) s = .next (h.holdOn .sync (.ldSe rd rs1) a)))
    ∧ (a.toNat % 128 = 0 → s.me.wait = .run → ∀ val : Nat → Word,
      takeWords (s.modMe fun v => { v with taken := [] }) a (List.range 16) = .ok t →
      t.me.taken = (List.range 16).map (fun j => (j, val j)) → t.vOk vd →
      ∃ v : VWord, exec (.vldS vd rs1) s = .next
          (((t.vecDone vd v 0#5).acquireAt (coreOf t.cur) .dv).modMe fun x => { x with taken := [] })
        ∧ ∀ j, j < 16 → elemV v 64 j = (val j).toNat)
    ∧ (a.toNat % 8 = 0 → translate s s.agent a .w = .ok (p, t) → t.hasFe p.pa = true → t.isPoison p.pa = false →
      let h := (t.releaseAt (coreOf t.cur) .dv).atHome t.agent p
      exec (.feSet rs1) s = .next (h.setFull p.pa).retire ∧ exec (.feClr rs1) s = .next (h.setEmpty p.pa).retire
      ∧ (h.setEmpty p.pa).isFull p.pa = false
      ∧ ∀ q, s.canonical → q / 8 ≠ p.pa / 8 → (h.setFull p.pa).isFull q = h.isFull q ∧ (h.setEmpty p.pa).isFull q = h.isFull q)

/-- Tides (R224-R228): `tide.adv` releases at device scope and counts an arrival, the P-th of which raises T by one and
clears the count; `tide.rd` reads T; a bounded load takes a copy whose stamp is not below its floor c[47:0] - b, or else,
when T has come to the floor, the bytes at the home, or else waits; outside a tide region it reads like a plain
load, and the two tide instructions are PERM. -/
def Obligations.Tides : Prop :=
  ∀ (s t : State) (rd rs1 rs2 : XReg) (vd : VReg) (b : BitVec 4) (dbl : Bool) (a c : Word) (p : Phys),
    s.xr rs1 = .ok a → s.xr rs2 = .ok c →
    (translate s s.agent a .w = .ok (p, t) →
      (∀ v e z, p.tide = some (v, e) → AMap.get? (t.tenant v).tides e = some z →
        exec (.tideAdv rs1) s = .next (((t.releaseAt (coreOf t.cur) .dv).modTenant v fun n => { n with
          tides := AMap.set n.tides e
            (if z.count + 1 = z.p.toNat then { z with count := 0, t := if z.t = BitVec.allOnes 48 then z.t else z.t + 1#48 }
            else { z with count := z.count + 1 }) }).retire))
      ∧ (p.tide = none → exec (.tideAdv rs1) s = .next (s.takeTrap { cause := 0x07, tval := a })))
    ∧ (translate s s.agent a .r = .ok (p, t) →
      (∀ v e z, p.tide = some (v, e) → AMap.get? (t.tenant v).tides e = some z → t.xOk rd →
        exec (.tideRd rd rs1) s = .next (((t.putX rd (z.t.setWidth 64)).stallFor (tierClk (t.tier p.pa))).retire))
      ∧ (p.tide = none → exec (.tideRd rd rs1) s = .next (s.takeTrap { cause := 0x07, tval := a })))
    ∧ (let n := if dbl then 8 else 4
      let core := coreOf t.cur
      a.toNat % n = 0 → xlat s s.agent a .r = .ok (p, t) →
      (b = 15#4 ∨ p.tide = none → s.me.wait = .run → ∀ bs u, t.coreRead core p n = (bs, u) → u.xOk rd →
        exec (.ldB dbl b rd rs1 rs2) s = .next (u.putX rd (signedOf n bs)).retire)
      ∧ (b ≠ 15#4 → p.tide ≠ none →
        let f := fld c 47 0 - b.toNat
        (∀ bs, stampedCopy t core p n f = some bs → t.xOk rd →
          exec (.ldB dbl b rd rs1 rs2) s = .next (t.putX rd (signedOf n bs)).retire)
        ∧ (stampedCopy t core p n f = none → f ≤ t.tideT p.tide → ∀ bs u,
          ((refetch t core p).stallFor (tierClk ((refetch t core p).tier p.pa))).coreRead core p n = (bs, u) → u.xOk rd →
          exec (.ldB dbl b rd rs1 rs2) s = .next (u.putX rd (signedOf n bs)).retire)
        ∧ (stampedCopy t core p n f = none → t.tideT p.tide < f → t.xOk rd → t.me.user.tmo = 0#48 →
          exec (.ldB dbl b rd rs1 rs2) s = .next (t.holdOn .tide (.ldB dbl b rd rs1 rs2) a))))
    ∧ ∀ ps bss u, a.toNat % 128 = 0 → b ≠ 15#4 →
      checkAll s .r 32 ((List.range 4).map fun i => a + w64 (32 * i)) = .ok (ps, t) → (∃ p ∈ ps, p.tide ≠ none) →
      boundedRead t 32 (fld c 47 0 - b.toNat) ps = some (bss, u) → u.vOk vd →
      exec (.vldB b vd rs1 rs2) s = .next (u.vecDone vd (BitVec.ofNat 1024 (bytesNat bss.flatten)) 0#5)

/-- Atomics (R250-R253, R260): one read-modify-write at the home, with the release before it and the acquire after it; rd
takes the old value sign-extended; `cas` writes only where the old value equals rd's low bytes; `fadd` rounds to
nearest even and joins its flags; a misaligned address is MISALIGN and an uncached one PERM. -/
def Obligations.Atomics : Prop :=
  ∀ (s t : State) (o : AmoOrd) (dbl : Bool) (sc : Scope) (rd rs1 rs2 : XReg) (a v : Word) (p : Phys),
    s.xr rs1 = .ok a → s.xr rs2 = .ok v →
    let n := if dbl then 8 else 4
    let all : List Instr := [.amoAdd o dbl sc rd rs1 rs2, .amoAnd o dbl sc rd rs1 rs2, .amoOr o dbl sc rd rs1 rs2,
      .amoXor o dbl sc rd rs1 rs2, .amoMin o dbl sc rd rs1 rs2, .amoMax o dbl sc rd rs1 rs2,
      .amoMinu o dbl sc rd rs1 rs2, .amoMaxu o dbl sc rd rs1 rs2, .amoSwap o dbl sc rd rs1 rs2]
    (a.toNat % n ≠ 0 → ∀ i ∈ all, exec i s = .next (s.takeTrap { cause := 0x03, tval := a }))
    ∧ (a.toNat % n = 0 → translate s s.agent a .w = .ok (p, t) → t.uncached p = true →
      ∀ i ∈ all, exec i s = .next (s.takeTrap { cause := 0x07, tval := a }))
    ∧ (translate s s.agent a .w = .ok (p, t) → t.uncached p = false → t.isPoison p.pa = false →
      let core := coreOf s.cur
      let r := if o = .rel ∨ o = .ar then t.releaseAt core sc else t
      let h := r.atHome r.agent p
      let gives (n : Nat) (i : Instr) (new : Nat → Option Nat) (fl : Nat → NxFlags) : Prop :=
        a.toNat % n = 0 →
        let bs := h.homeRead p.pa n
        let u := (match new (bytesNat bs) with | some w => h.putHome r.agent p (natBytes n w) | none => h).dropLine core p
        let x := u.putX rd (signedOf n bs)
        let y := if o = .acq ∨ o = .ar then x.acquireAt core sc else x
        let z := y.modMe fun e => { e with user := { e.user with nxflags := e.user.nxflags ||| fl (bytesNat bs) } }
        u.xOk rd → exec i s = .next (z.retireFor .amo
          (match sc with | .th | .cv => Config.l2Clk | _ => tierClk (z.tier p.pa)) (.amoComplete z.cur))
      let k := v.toNat % 2 ^ (8 * n)
      let word (i : Instr) (new : Nat → Nat) : Prop := gives n i (fun old => some (new old)) fun _ => 0#5
      word (.amoAdd o dbl sc rd rs1 rs2) (fun old => (old + k) % 2 ^ (8 * n))
      ∧ word (.amoAnd o dbl sc rd rs1 rs2) (fun old => old &&& k) ∧ word (.amoOr o dbl sc rd rs1 rs2) (fun old => old ||| k)
      ∧ word (.amoXor o dbl sc rd rs1 rs2) (fun old => old ^^^ k)
      ∧ word (.amoMin o dbl sc rd rs1 rs2) (fun old => if intOf (8 * n) k < intOf (8 * n) old then k else old)
      ∧ word (.amoMax o dbl sc rd rs1 rs2) (fun old => if intOf (8 * n) old < intOf (8 * n) k then k else old)
      ∧ word (.amoMinu o dbl sc rd rs1 rs2) (fun old => min old k) ∧ word (.amoMaxu o dbl sc rd rs1 rs2) (fun old => max old k)
      ∧ word (.amoSwap o dbl sc rd rs1 rs2) (fun _ => k)
      ∧ (∀ e, s.xr rd = .ok e → gives n (.amoCas o dbl sc rd rs1 rs2)
        (fun old => if old = e.toNat % 2 ^ (8 * n) then some k else none) fun _ => 0#5)
      ∧ let sum (old : Nat) := fpAdd .fp32 .rne {} (Fmt.value .fp32 old) (Fmt.value .fp32 (v.toNat % 2 ^ 32))
        gives 4 (.amoFadd o sc rd rs1 rs2) (fun old => some (sum old).1) fun old => (sum old).2)

/-- Memory locks (R255-R258): `lk.take` of a word whose lock is free writes the held word, enters the home's table and
answers 0, or 1 for a lock left by an ended generation; of one held by another, it joins the queue and waits; of its own,
LOCK. `lk.give` frees the lock, or passes it to the head of its queue with status 0; of a lock not held, LOCK. -/
def Obligations.Locks : Prop :=
  ∀ (s t : State) (sc : Scope) (rd rs1 : XReg) (a : Word) (p : Phys),
    s.xr rs1 = .ok a → a.toNat % 8 = 0 → translate s s.agent a .w = .ok (p, t) → t.hasFe p.pa = true → p.hs = false →
    t.isPoison p.pa = false →
    let port := homePort t.fit p.pa
    let clks := tierClk (t.tier p.pa)
    (let h := t.atHome t.agent p
      let me : Waiter := { slot := h.cur, gen := h.me.gen }
      let pt := h.port port
      (holderOf pt p.pa (h.homeWord p) = none → pt.held.length < 4096 →
        let g := ((h.setPort port { pt with held := AMap.set pt.held p.pa me }).homeWrite none p.pa
          (natBytes 8 (lockWord me.slot me.gen).toNat)).dropLine (coreOf h.cur) p
        let u := g.acquireAt (coreOf h.cur) sc
        u.xOk rd → exec (.lkTake sc rd rs1) s = .next
          ((((u.putX rd (if (h.homeWord p).getLsbD 62 then 1#64 else 0#64)).countLocks (· + 1)).stallFor clks).retire))
      ∧ (∀ w, holderOf pt p.pa (h.homeWord p) = some w → w ≠ me → pt.waiters < 2048 → h.xOk rd →
        exec (.lkTake sc rd rs1) s = .next
          ((h.setPort port { pt with fifo := AMap.set pt.fifo p.pa (AMap.getD pt.fifo p.pa [] ++ [me]) }).holdOn .lock
            (.lkTake sc rd rs1) a))
      ∧ (holderOf pt p.pa (h.homeWord p) = some me → exec (.lkTake sc rd rs1) s = .next (s.takeTrap { cause := 0x14, tval := a })))
    ∧ (let h := (t.releaseAt (coreOf t.cur) sc).atHome t.agent p
      let me : Waiter := { slot := h.cur, gen := h.me.gen }
      let pt := h.port port
      let d := h.dropLine (coreOf h.cur) p
      (holderOf pt p.pa (h.homeWord p) = some me →
        (AMap.getD pt.fifo p.pa [] = [] → exec (.lkGive sc rs1) s = .next
          ((((d.setPort port { pt with held := AMap.del pt.held p.pa, fifo := AMap.del pt.fifo p.pa }).homeWrite none p.pa
            (natBytes 8 0)).countLocks (· - 1)).retire))
        ∧ ∀ w r, AMap.getD pt.fifo p.pa [] = w :: r → exec (.lkGive sc rs1) s = .next
          (((grantLock ((d.setPort port
            { pt with held := AMap.set pt.held p.pa w, fifo := AMap.put [] pt.fifo p.pa r }).homeWrite none p.pa
              (natBytes 8 (lockWord w.slot w.gen).toNat)) w 0 clks).countLocks (· - 1)).retire))
      ∧ (holderOf pt p.pa (h.homeWord p) ≠ some me →
        exec (.lkGive sc rs1) s = .next (s.takeTrap { cause := 0x14, tval := a })))

/-! ## The matrix engine -/

/-- Descriptors and tiles (R154, R157-R161): an instruction whose turn in the engine has not come waits for it; at its turn `mx.desc`
writes md without a check and unstages the descriptor it replaces; `mx.tcfg` configures a tile whose owner is the slot, or is none, or
in supervisor mode any; an unchanged configuration keeps RESTART and PFLAGS; bits 63-62 = 01 write a route entry; another slot's
tile is PERM, and a reserved field ILLEGAL. The operations on a tile's rows (R158, R175-R178): `mx.zero` writes zeros to its rows,
`mx.rd` and `mx.wr` move the columns of one half of a row, `mx.rowp` sets RESTART, `mx.stat` reads the descriptor with its busy bit,
and `mx.wait` goes on at once where no operation on the tile remains; a tile of another slot is PERM, a row selector or restart
out of range ILLEGAL. -/
def Obligations.MatrixTiles : Prop :=
  (∀ (s : State) (td : TdReg) (md : MdReg) (rs1 rs2 : XReg) (a b : Word), s.xr rs1 = .ok a → s.xr rs2 = .ok b →
      let none_ : MxOp := { slot := s.cur, td := none, flags := 0#5, accum := false }
      let here : MxOp := { slot := s.cur, td := some td.toNat, flags := 0#5, accum := false }
      let old : TR := s.oldTd td
      let out (t : Trap) : State := (s.mxDrop s.cur).takeTrap t
      (mxTurn s = false → exec (.mxDesc md rs1 rs2) s = .next (mxWaitTurn s (.mxDesc md rs1 rs2) none)
        ∧ ∀ i ∈ [Instr.mxTcfg td rs1, .mxTcfgRoute td rs1],
          exec i s = .next (mxWaitTurn s i (if fld a 63 62 = 0 then some td.toNat else none)))
      ∧ (mxTurn s = true →
        ((AMap.getD s.me.md md.toNat {}).gen ≠ 0xFFFF#16 →
          let was := (AMap.getD s.me.md md.toNat {}).val
          exec (.mxDesc md rs1 rs2) s = .next (mxQueue
            ((s.modMe fun v => { v with md := AMap.set v.md md.toNat { val := b ++ a, gen := v.gen } }).modMyCore fun c =>
              { c with staged := if c.staged = some was then none else c.staged }) none_ 2))
        ∧ (∀ i ∈ [Instr.mxTcfg td rs1, .mxTcfgRoute td rs1],
          (fld a 63 62 = 0 → fld a 61 40 = 0 → (AMap.getD s.myCore.td td.toNat {}).gen ≠ 0xFFFF#16 →
            (old.v = true → old.owner.toNat ≠ s.cur % 8 → s.me.sup = true) →
            (a.getLsbD 39 = true → fld a 21 12 + fld a 5 0 + 1 ≤ 1024) →
            ∃ (u : State) (t : TR), exec i s = .next (mxQueue u here (if t.v = true ∧ t ≠ { old with gen := t.gen, owner := t.owner } then 4 else 2))
              ∧ AMap.getD u.myCore.td td.toNat {} = t
              ∧ t.gen = s.me.gen ∧ t.v = a.getLsbD 39 ∧ t.owner = a.extractLsb' 36 3 ∧ t.int32 = a.getLsbD 32
              ∧ t.base = a.extractLsb' 12 10 ∧ t.ncol = a.extractLsb' 6 6 ∧ t.nrow = a.extractLsb' 0 6)
          ∧ (fld a 63 62 = 0 → old.v = true → old.owner.toNat ≠ s.cur % 8 → s.me.sup = false →
            exec i s = .next (out { cause := 0x07, tval := Config.freeWord s.freeCtr }))
          ∧ (fld a 63 62 = 1 → fld a 61 60 ≠ 3 → fld a 59 57 < 6 → (AMap.getD s.myCore.rt td.toNat {}).gen ≠ 0xFFFF#16 →
            exec i s = .next (mxQueue (s.modMyCore fun c =>
              { c with rt := AMap.set c.rt td.toNat { val := a &&& 0x3E7FFFFFFFFFFFFF#64, gen := s.me.gen } }) none_ 2))
          ∧ (2 ≤ fld a 63 62 → exec i s = .next (out { cause := 0x01, tval := codeOf i })))))
  ∧ (∀ (s : State) (td : TdReg) (vd vs : VReg) (rd rs1 : XReg) (w : Word) (d : VWord) (t : TR),
      s.xr rs1 = .ok w → s.vr vs = .ok d → s.tdr td = .ok t →
      let none_ : MxOp := { slot := s.cur, td := none, flags := 0#5, accum := false }
      let here : MxOp := { slot := s.cur, td := some td.toNat, flags := 0#5, accum := false }
      let mine : Prop := t.v = true ∧ t.owner.toNat = s.cur % 8
      let out (t : Trap) : State := (s.mxDrop s.cur).takeTrap t
      let r := w.toNat % 64
      let h := w.toNat / 64
      let rows := t.nrow.toNat + 1
      let n := if rows ≤ r then 0 else min 32 (t.ncol.toNat + 1 - 32 * h)
      let off := 256 * (t.base.toNat + r) + 128 * h
      (mxTurn s = false → ∀ i ∈ [Instr.mxZero td, .mxRd td vd rs1, .mxWr td vs rs1, .mxRowp td rs1, .mxDrn td rs1],
        exec i s = .next (mxWaitTurn s i (some td.toNat)))
      ∧ (mxTurn s = true →
        (mine → ∀ m, granWrite s.myCore.cbuf s.me.gen (256 * t.base.toNat) (List.replicate (256 * rows) 0#8) = .ok m →
          exec (.mxZero td) s = .next (mxQueue (s.modMyCore fun c => { c with cbuf := m }) here (2 + (rows + 3) / 4)))
        ∧ (mine → w.toNat < 128 → ∀ bs, granRead s.myCore.cbuf s.me.gen s.me.trapMode off (4 * n) = .ok bs → s.vOk vd →
          exec (.mxRd td vd rs1) s = .next (mxQueue (s.putV vd (BitVec.ofNat 1024 (bytesNat bs))) here 4))
        ∧ (mine → w.toNat < 128 → ∀ m, granWrite s.myCore.cbuf s.me.gen off (natBytes (4 * n) d.toNat) = .ok m →
          exec (.mxWr td vs rs1) s = .next (mxQueue (s.modMyCore fun c => { c with cbuf := m }) here 4))
        ∧ (mine → w.toNat ≤ 64 → (AMap.getD s.myCore.td td.toNat {}).gen ≠ 0xFFFF#16 →
          exec (.mxRowp td rs1) s = .next (mxQueue (s.modMyCore fun c =>
            { c with td := AMap.set c.td td.toNat { t with restart := w.setWidth 7, gen := s.me.gen } }) here 2))
        ∧ (mine → 64 < w.toNat → exec (.mxRowp td rs1) s = .next (out { cause := 0x01, tval := codeOf (.mxRowp td rs1) }))
        ∧ (mine → 128 ≤ w.toNat → ∀ i ∈ [Instr.mxRd td vd rs1, .mxWr td vs rs1],
          exec i s = .next (out { cause := 0x01, tval := codeOf i }))
        ∧ (¬ mine → ∀ i ∈ [Instr.mxZero td, .mxRd td vd rs1, .mxWr td vs rs1, .mxRowp td rs1],
          exec i s = .next (out { cause := 0x07, tval := Config.freeWord s.freeCtr })))
      ∧ (s.mxMine = none → t.v = false ∨ mxBusy s.myCore td.toNat = false → exec (.mxWait td) s = .next s.retire)
      ∧ (t.v = true → mxBusy s.myCore td.toNat = true →
        (mxTurn s = true → exec (.mxWait td) s = .next (mxQueue s none_ 0))
        ∧ (mxTurn s = false → exec (.mxWait td) s = .next (mxWaitTurn s (.mxWait td) none)))
      ∧ ((AMap.getD s.myCore.td td.toNat {}).gen = s.me.gen → s.xOk rd → exec (.mxStat td rd) s = .next (s.putX rd
        (w64 (t.pflags.toNat * 2 ^ 40 + b2n t.v * 2 ^ 39 + t.owner.toNat * 2 ^ 36 + b2n t.int32 * 2 ^ 32
          + t.restart.toNat * 2 ^ 25 + b2n (mxBusy s.myCore td.toNat) * 2 ^ 24 + t.base.toNat * 2 ^ 12 + t.ncol.toNat * 2 ^ 6
          + t.nrow.toNat))).retire))

/-- The products (R162-R168, R173, R179): with the descriptors readable, the tile the slot's own, the shapes in agreement and the
engine's turn come, an operation begins the band of rows at RESTART, of at most BH rows, with the accumulators as they stand and the addends of
their groups in order: of INT8 the integer sum of the products; of the floating-point pairs the groups' exact sums, each rounded;
of LQ4 codes the blocks' with their scales; of sparse pairs the one that the metadata names. An operand that cannot be read
stops it there, with RESTART and MXROW at the band's first row. With RESTART at the row count it completes. A pair of formats
that is not listed is ILLEGAL. (The end of a band is in `CompletionsInTime`.) -/
def Obligations.MatrixProducts : Prop :=
  ∀ (s x u : State) (td : TdReg) (a b sc : MdReg) (vm : VReg) (q : BitVec 2) (t : TR) (da db ds : BitVec 128) (xa xb : List (List Nat))
    (accs : Nat → List Nat),
    s.mdr a = .ok da → s.mdr b = .ok db → s.mdr sc = .ok ds → s.tdr td = .ok t → t.v = true → t.owner.toNat = s.cur % 8 → mxTurn s = true →
    let m := mdRows da
    let k := mdCols da
    let n := mdCols db
    let fa := mdFmt da
    let fb := mdFmt db
    let bh := if Fmt.width fa = 16 then 32 else 64
    let m0 := t.restart.toNat
    let rows := (List.range (min (m0 + bh) m - m0)).map (· + m0)
    let aBytes := m * k * Fmt.width fa / 8
    let z := stage s da aBytes
    let row (r : Nat) : List Nat := xa.getD (r - m0) []
    let col (p : Nat) : List Nat := xb.map fun y => y.getD p 0
    let values (r c : Nat) : List (FV × FV) := ((row r).zip (col c)).map fun p => (Fmt.value fa p.1, Fmt.value fb p.2)
    let reads (i : Instr) (kb c0 : Nat) (v : State) : Prop :=
      mdBlock i da (List.range k) z rows = .ok (xa, x)
        ∧ mdBlock i db (List.range n) x (List.range kb) = .ok (xb, u) ∧ ∀ r ∈ rows, accRow v (t.base.toNat + r) c0 n = .ok (accs r)
    let begins (i : Instr) (v : State) (c0 clks : Nat) (new : Nat → Nat → List Nat × NxFlags) : Prop :=
      exec i s = .next (mxBandStart v
        { slot := v.cur, td := some td.toNat, flags := 0#5, accum := true, instr := some i
          issued := (v.mxMine.map (·.issued)).getD v.clk, clks := some ((z.mxMine.bind (·.clks)).getD (clks + 24)) }
        { row := t.base.toNat + m0, col := c0, stop := min (m0 + bh) m, last := decide (m ≤ min (m0 + bh) m), ints := fa == .int8
          accs := rows.map accs, adds := rows.map fun r => (List.range n).map fun c => (new r c).1
          flags := rows.foldl (fun fl r => (List.range n).foldl (fun fl c => fl ||| (new r c).2) fl) 0#5 } m)
    let ends (i : Instr) : Prop := exec i s = .next (mxQueue z { slot := z.cur, td := some td.toNat, flags := 0#5, accum := true }
      ((z.mxMine.bind (·.clks)).getD 0))
    let passes := (m + bh - 1) / bh
    m ≤ t.nrow.toNat + 1 →
    (∀ g, mdRows db = k → n ≤ t.ncol.toNat + 1 → denseGroup fa fb t.int32 k = some g →
      let clks := max (passes * k) (supplyClk s da db aBytes (k * n * Fmt.width fb / 8))
      (m ≤ m0 → ends (.mxMma td a b))
      ∧ (m0 < m → reads (.mxMma td a b) k 0 u → begins (.mxMma td a b) u 0 clks fun r c =>
        if fa = .int8 then ([natOf 32 (((row r).zip (col c)).map fun p => intOf 8 p.1 * intOf 8 p.2).sum], 0#5)
        else addends ((groupsOf g (k + 1) (values r c)).map groupAdd))
      ∧ ∀ f, m0 < m → mdBlock (.mxMma td a b) da (List.range k) z rows = .error f →
        exec (.mxMma td a b) s = .next ((setMxrow (setProgress (z.mxDrop z.cur) td m0 0#5) td m0).takeTrap f))
    ∧ (fa = .lq4 ∨ fb = .lq4 ∨ fa = .int ∨ fb = .int ∨ fa = .fp32 ∨ fb = .fp32 →
      exec (.mxMma td a b) s = .next ((s.mxDrop s.cur).takeTrap { cause := 0x01, tval := codeOf (.mxMma td a b) }))
    ∧ (mdRows db = k → n ≤ t.ncol.toNat + 1 → (fa = .bf16 ∨ fa = .fp16 ∨ fa = .e4m3 ∨ fa = .e5m2) → fb = .lq4 → t.int32 = false →
      k % 64 = 0 → mdRstr db = 1 → mdCstr db % 64 = 0 →
      mdSpace ds = 0 → mdFmt ds = .lq4 → mdRows ds = 1 → mdCols ds = 1 → mdCstr ds = 0 → 0 ≤ mdRstr ds → mdRstr ds % 64 = 0 →
      (m ≤ m0 → ends (.mxMmq td a b sc))
      ∧ ∀ v scs, m0 < m → reads (.mxMmq td a b sc) k 0 v →
        sideReads (.mxMmq td a b sc) (mdBase ds) u ((List.range n).flatMap fun c => (List.range (k / 64)).map fun g =>
          (mdRstr ds).toNat + 64 * g + c * mdCstr db) = .ok (scs, v) →
        begins (.mxMmq td a b sc) v 0 (max (passes * ((k + 1) / 2)) (supplyClk s da db aBytes (k * n / 2))) fun r c =>
          let ps := ((row r).zip (col c)).map fun p => (FV.fin (lq4Val p.2), Fmt.value fa p.1)
          addends (((groupsOf 64 (k / 64 + 1) ps).zip (List.range (k / 64))).map fun y =>
            let e := scs.getD (c * (k / 64) + y.2) (0, 0)
            blockAdd y.1 e.1 e.2))
    ∧ ∀ md g, s.vr vm = .ok md → denseGroup fa fb t.int32 k = some g → fa ≠ .int8 → k % 4 = 0 → k ≤ 64 → mdRows db = k / 2 → n ≤ 16 →
      16 * q.toNat + n ≤ t.ncol.toNat + 1 →
      (m ≤ m0 → ends (.mxMms td a b vm q))
      ∧ (m0 < m → reads (.mxMms td a b vm q) (k / 2) (16 * q.toNat) u → begins (.mxMms td a b vm q) u (16 * q.toNat)
        (max (passes * ((k + 7) / 8)) (supplyClk s da db aBytes (k / 2 * n * Fmt.width fb / 8)))
        fun r c => addends [groupAdd (sparsePairs fa fb md (row r) xb c)])

/-! ## Copy engines and stream registers -/

/-- Command packets (R246, R384-R391, R399): a copy packet that passes its checks, posted with no buoy or through one of the slot's
cove, is queued at the cove's engine, after a release of device scope and with its completion word 0 and empty, or waits for a
free entry; a control packet acts at once, after such a release, on the tenant's command with that completion word: a resume
sets a paused one going, a cancel ends one with status 0xFE, and a target that is not found is answered 0xFD. A malformed
packet is ILLEGAL and changes nothing. `cp.bind` and `post` (R395-R398, R518): a placed region's buoy in the slot's cove
takes a binding, a memory binding from its first place on, or its image's own again; a word posted to an inward buoy goes there
as a normal token with the format, iteration and context of the selector word; an outward or unbound buoy is PERM. -/
def Obligations.CopyCommandsAndBuoys : Prop :=
  (∀ (s t : State) (vs : VReg) (rs1 : XReg) (w : Word) (v : VWord) (bu : Option (RKey × Nat × Buoy)), s.xr rs1 = .ok w → s.vr vs = .ok v →
      fld w 63 8 = 0 →
      (w = 0#64 ∧ bu = none ∨ w ≠ 0#64 ∧ w.getLsbD 3 = true ∧ fld w 7 4 = 0 ∧ bu.isSome ∧ bu = buoyOf s (fld w 2 0) false) →
      let pk : List Word := (List.range 16).map fun k => w64 (v.toNat / 2 ^ (64 * k))
      ∀ i ∈ [Instr.cpPost vs rs1, .cpResume vs rs1, .cpCancel vs rs1],
        let ck : CopyCk := { ill := { cause := 0x01, tval := codeOf i }, buoy := bu, node := false }
        let q := AMap.getD s.me.q (fld (pkW pk 8) 2 0) {}
        (cpIllegal ck pk = true → exec i s = .next (s.takeTrap { cause := 0x01, tval := codeOf i }))
        ∧ (checkPacket ck pk = .ok () → checkCw s { s.agent with core := none } pk = .ok t →
          (cpOp pk ≠ 3 → cpDst pk = 5 → q.gen ≠ 0xFFFF#16 ∧ (q.bnd = false ∨ q.gen ≠ s.me.gen)) →
          let cove := coveOfSlot t.cur
          let r := t.releaseAt (coreOf t.cur) .dv
          let c : CopyCmd :=
            { id := 0, pk := pk, vmid := t.vmid, troot := t.me.troot, sup := t.me.sup, gen := t.me.gen, trap := t.me.trapMode
              slot := some t.cur, rk := bu.map (·.1), buoy := bu.map (·.2.1) }
          (cpOp pk ≠ 3 → (t.cove cove).cmds.length < 32 → exec i s = .next (enqueueCopy r cove c).retire)
          ∧ (cpOp pk ≠ 3 → 32 ≤ (t.cove cove).cmds.length → exec i s = .next (t.holdOn .cpFull i 0#64))
          ∧ (cpOp pk = 3 → exec i s = .next (applyControl r cove c).retire
            ∧ let target := (r.cove cove).cmds.find? fun k => k.vmid == t.vmid && cpCw k.pk == pkW pk 4 && pkW pk 4 != 0#64
            let answer (u : State) (st : Word) : State := if cpCw pk = 0#64 then u else writeCw u cove c st
            (target = none → applyControl r cove c = answer r 0xFD#64)
            ∧ ∀ k, target = some k → r.cmd? cove k.id = some k →
              (cpAct pk = 1 → k.st = .paused → applyControl r cove c = answer
                ((modFeed ((emptyCw r cove k).modCmd cove k.id fun o => { o with st := .running, status := 0#8 }) k
                  fun q => { q with flt := false, cause := 0#8 }).onceAfter 1 (.copyBeat cove)) 0#64)
              ∧ (cpAct pk = 1 → k.st ≠ .paused → applyControl r cove c = answer r 0#64)
              ∧ (cpAct pk = 2 → k.st ≠ .ending → applyControl r cove c = answer (copyEnd r cove k.id 0xFE#8) 0#64)
              ∧ (cpAct pk = 2 → k.st = .ending → applyControl r cove c = answer r 0#64))))
  ∧ (∀ (s : State) (rs1 rs2 : XReg) (w v : Word) (rk : RKey) (b : Nat) (y : Buoy),
      s.xr rs1 = .ok w → s.xr rs2 = .ok v → w.getLsbD 3 = true → fld w 7 4 = 0 →
      (fld w 63 8 = 0 → fld v 7 5 = 0 → (fld v 2 1 = 0 ∨ v &&& ~~~0xFF#64 = 0#64) → canonical (v &&& ~~~0xFF#64) = true →
        buoyOf s (fld w 2 0) false = some (rk, b, y) → (v.getLsbD 0 = true → fld v 2 1 = 3 → y.img.bind = 3#2) →
        let bound : Binding :=
          { inward := !v.getLsbD 3, tagged := v.getLsbD 4, bind := v.extractLsb' 1 2, sva := v &&& ~~~0xFF#64 }
        let new : Binding := if v.getLsbD 0 then bound else y.img
        let now : Buoy := { y with cur := new, pos := if new.bind = 0#2 then 0 else y.pos }
        (buoyBusy s rk b = false →
          exec (.cpBind rs1 rs2) s = .next (s.modRegion rk fun r => { r with buoys := AMap.set r.buoys b now }).retire)
        ∧ (buoyBusy s rk b = true → exec (.cpBind rs1 rs2) s = .next (s.holdOn .cpFull (.cpBind rs1 rs2) 0#64)))
      ∧ (fld w 15 11 = 0 → buoyOf s (fld w 2 0) true = some (rk, b, y) →
        (y.cur.inward = true → y.cur.bind ≠ 3#2 → exec (.post rs1 rs2) s = .next
          (s.after (meshClk (coveOfSlot s.cur) (buoyCove s rk b)) (.buoyTokenArrival rk b
            { payload := v, ftag := Fmt.ofCode (w.extractLsb' 8 3)
              ctx := { frame := w.extractLsb' 32 24, fgen := w.extractLsb' 56 8 }
              iter := w.extractLsb' 16 16, dx := 0#6, dy := 0#6, dslot := 0#3, didx := 0#7, dop := 0#2, act := .normal } none)).retire)
        ∧ (y.cur.inward = false ∨ y.cur.bind = 3#2 → exec (.post rs1 rs2) s = .next (s.takeTrap { cause := 0x07, tval := w })))
      ∧ (buoyOf s (fld w 2 0) true = none → fld w 15 11 = 0 → exec (.post rs1 rs2) s = .next (s.takeTrap { cause := 0x07, tval := w })))

/-- Stream registers (R219-R222): `q.get` and `vq.get` give the next element, or the next 128 bytes or what is left, and zero
once nothing is left; while the window holds too little they wait, and a failed feed or a register that is not bound is
QUEUE; `q.stat` reads the register's status; `q.close` cancels the feed and unbinds. -/
def Obligations.StreamRegisters : Prop :=
  ∀ (s : State) (q : QReg) (rd : XReg) (vd : VReg) (e : QR), s.qr q = .ok e →
    let k := 2 ^ e.esz.toNat
    let one := min k (e.left * k)
    let all := min 128 (e.left * k)
    let rest (n : Nat) (g : Gen) : QR := { e with win := e.win.drop n, left := e.left - n / k, gen := g }
    let took (n : Nat) : State :=
      (s.modMe fun v => { v with q := AMap.set v.q q.toNat (rest n v.gen) }).onceAfter 1 (.copyBeat (coveOfSlot s.cur))
    (e.bnd = true → e.left = 0 → (s.xOk rd → exec (.qGet q rd) s = .next (s.putX rd 0#64).retire)
      ∧ (s.vOk vd → exec (.vqGet q vd) s = .next (s.putV vd 0#1024).retire))
    ∧ (e.bnd = true → 0 < e.left → (AMap.getD s.me.q q.toNat {}).gen ≠ 0xFFFF#16 →
      (one ≤ e.win.length → (took one).xOk rd →
        exec (.qGet q rd) s = .next ((took one).putX rd (w64 (bytesNat (e.win.take one)))).retire)
      ∧ (all ≤ e.win.length → (took all).vOk vd →
        exec (.vqGet q vd) s = .next ((took all).putV vd (BitVec.ofNat 1024 (bytesNat (e.win.take all)))).retire))
    ∧ (e.bnd = true → 0 < e.left → e.win.length < one → e.flt = false → e.cause = 0#8 →
      exec (.qGet q rd) s = .next (s.holdOn .stream (.qGet q rd) (w64 q.toNat)))
    ∧ (e.bnd = true → 0 < e.left → e.win.length < one → e.flt = true ∨ e.cause ≠ 0#8 →
      exec (.qGet q rd) s = .next (s.takeTrap { cause := 0x13, tval := w64 q.toNat }))
    ∧ (e.bnd = true → 0 < e.left → e.win.length < all →
      (e.flt = false → e.cause = 0#8 → exec (.vqGet q vd) s = .next (s.holdOn .stream (.vqGet q vd) (w64 q.toNat)))
      ∧ (e.flt = true ∨ e.cause ≠ 0#8 → exec (.vqGet q vd) s = .next (s.takeTrap { cause := 0x13, tval := w64 q.toNat })))
    ∧ (e.bnd = false → exec (.qGet q rd) s = .next (s.takeTrap { cause := 0x13, tval := w64 q.toNat })
      ∧ exec (.vqGet q vd) s = .next (s.takeTrap { cause := 0x13, tval := w64 q.toNat }))
    ∧ (s.xOk rd → exec (.qStat q rd) s = .next (s.putX rd
      (w64 (e.cause.toNat * 2 ^ 56 + b2n e.bnd * 2 ^ 55 + b2n e.done * 2 ^ 54 + b2n e.flt * 2 ^ 53 + e.esz.toNat * 2 ^ 51
        + min e.left 0xFFFFFFFF * 2 ^ 16 + min e.win.length 512))).retire)
    ∧ ((AMap.getD s.me.q q.toNat {}).gen = s.me.gen → e.bnd = true → exec (.qClose q) s = .next
      ((cancelCmd s (coveOfSlot s.cur) e.cmd).modSlot s.cur fun v => { v with q := AMap.set v.q q.toNat { gen := e.gen } }).retire)
    ∧ (e.bnd = false → exec (.qClose q) s = .next s.retire)

/-- Draining a tile (R160, R174): at its turn in the engine a drain reads the tile's rows and converts them by the format of the route
entry under its rounding mode; they go to the A buffer, to memory, or as tokens to the unit's result port, where a drain waits in
the engine for a place, and until its last token is accepted; INT32 tiles drain unconverted, a tile kind that the route's
format does not fit is ILLEGAL, and the conversion's flags travel with the operation. -/
def Obligations.MatrixDrain : Prop :=
  ∀ (s : State) (td : TdReg) (rs1 : XReg) (w r : Word) (t : TR) (rows : List (List Nat)),
    s.xr rs1 = .ok w → s.tdr td = .ok t → s.rtr (w.extractLsb' 0 3) = .ok r → t.v = true → t.owner.toNat = s.cur % 8 →
    fld w 63 40 = 0 → fld w 4 3 = 0 → fld w 7 5 ∈ [0, 1, 2, 3, 5] → mxTurn s = true →
    let i : Instr := .mxDrn td rs1
    let out := Fmt.ofCode (r.extractLsb' 57 3)
    let conv (x : Nat) : Nat × NxFlags :=
      if out = .int then (x, 0#5) else roundFV out (Rm.ofCode (fld w 7 5)) {} (Fmt.value .fp32 x)
    let flags := (rows.map fun l => l.map conv).foldl (fun fl l => l.foldl (fun fl e => fl ||| e.2) fl) 0#5
    let op : MxOp := { slot := s.cur, td := some td.toNat, flags := flags, accum := false }
    let es := (rows.map fun l => l.map fun x => (conv x).1).flatten
    let e := Fmt.width out / 8
    let bytes := (t.nrow.toNat + 1) * (t.ncol.toNat + 1) * Fmt.width out / 8
    (t.int32 ≠ (out == .int) → exec i s = .next ((s.mxDrop s.cur).takeTrap { cause := 0x01, tval := codeOf i }))
    ∧ (t.int32 = (out == .int) → tileElems s t = .ok rows →
      (∀ m, fld r 61 60 = 0 → fld r 54 0 + fld w 39 8 + bytes ≤ 0x40000 →
        granWrite s.myCore.abuf s.me.gen (fld r 54 0 + fld w 39 8) (es.flatMap (natBytes e)) = .ok m →
        exec i s = .next (mxQueue (s.modMyCore fun c => { c with abuf := m, staged := none }) op ((bytes + 63) / 64 + 12)))
      ∧ (∀ ps u, fld r 61 60 = 1 →
        checkAll s .w e ((List.range es.length).map fun k => sext 55 r + w64 (fld w 39 8) + w64 (e * k)) = .ok (ps, u) →
        exec i s = .next (mxQueue (writeAll u e (ps.zip es)) op ((bytes + 63) / 64 + 12)))
      ∧ (∀ rk rg, fld r 61 60 = 2 → s.me.wait = .run → resultRegion s = some (rk, rg) →
        let toks := ((rows.map fun l => l.map fun x => (conv x).1).flatMap (rowPays out)).map (drainTok out)
        let sent := s.modCell (portKey s.cur) fun c => { c with mxpq := c.mxpq ++ toks }
        let free := 16 - (portQueue s s.cur).length
        (rg.wave = none → 0 < free → toks.length ≤ free → exec i s = .next (mxQueue sent op (toks.length + 12)))
        ∧ (rg.wave = none → 0 < free → free < toks.length → exec i s = .next (mxPortWait sent op i 1#64))
        ∧ (rg.wave ≠ none ∨ free = 0 → exec i s = .next (mxPortWait s op i 0#64)))
      ∧ (∀ k j b, fld r 61 60 = 2 → s.me.wait = .resume k j b 1#64 → k = .port →
        exec i s = .next (if (portQueue s s.cur).length ≤ 16 then mxQueue s op 12 else mxPortWait s op i 1#64)))

/-! ## Step replay -/

/-- Step replay (R400-R408): a probe whose entry is not valid for its shape, does not follow its last step, awaits its record
or has run RUNMAX times is FORCED with its reason, or 5 where no storage can be had; else it is REPLAY where the metric
does not exceed THR, and COMPUTE where it does; the slot rejoins when the metric has been computed. A record is taken
only where one is awaited. `srp.inv` and `srp.inv.all` make entries invalid, `srp.stat` reads a counter of the slot's
engine. A key above 12 bits is ILLEGAL, and REPLAY faults a tenant without an area. -/
def Obligations.StepReplay : Prop :=
  ∀ (s : State) (rd rs1 rs2 : XReg) (n k va : Word), s.xr rd = .ok n → s.xr rs1 = .ok k → s.xr rs2 = .ok va →
    let quad := quadOfSlot s.cur
    let area := (s.tenant s.vmid).args
    let key := k.toNat
    (4096 ≤ key → ∀ i ∈ [Instr.srpProbe rd rs1 rs2, .srpRec rs1 rs2, .srpInv rs1],
      exec i s = .next (s.takeTrap { cause := 0x01, tval := codeOf i }))
    ∧ (key < 4096 → n.toNat < 2 ^ 32 → (area.repl = 0#64 ∨ area.replsz = 0#64) →
      exec (.srpProbe rd rs1 rs2) s = .next (s.takeTrap { cause := 0x18, tval := w64 key })
      ∧ exec (.srpRec rs1 rs2) s = .next (s.takeTrap { cause := 0x18, tval := w64 key }))
    ∧ (key < 4096 → area.repl ≠ 0#64 → area.replsz ≠ 0#64 → (s.quad quad).rfenced = false →
      (keyBusy s quad s.vmid key = true → n.toNat < 2 ^ 32 →
        exec (.srpProbe rd rs1 rs2) s = .next (s.holdOn .srp (.srpProbe rd rs1 rs2) k))
      ∧ (keyBusy s quad s.vmid key = false →
        let r := s.releaseAt (coreOf s.cur) .dv
        (n.toNat < 2 ^ 32 → ∀ d t u x y,
          readRDesc r s.agent { cause := 0x01, tval := codeOf (.srpProbe rd rs1 rs2) } va = .ok (d, t) →
          rangeWritable s.agent (d.osize / 65536 + 2) t d.ova d.osize = .ok u →
          rangeRead s.agent (d.inBytes / 64 + 2) u d.iva d.inBytes = .ok (x, y) → s.xOk rd →
          let e := y.rkey quad s.vmid key
          let same := e.valid = true ∧ sameShape e d = true
          let m := replayMetric d.metric d.fmt (elemsOf d.esz d.icnt x) (elemsOf d.esz d.icnt e.refb)
          let near := (compare .fp32 32 .le m d.thr).1
          ∃ (z : State) (v : Word), exec (.srpProbe rd rs1 rs2) s = .next ((z.putX rd v).retireFor .srp
              (Config.nearClk + (if e.valid && sameShape e d then 2 * d.inBytes else d.inBytes) / 128) (.srpVerdict z.cur))
            ∧ (¬ same → v = 0x42#64 ∨ v = 0x52#64)
            ∧ (same → n.toNat ≤ e.lstep → v = 0x12#64 ∨ v = 0x52#64)
            ∧ (same → e.lstep < n.toNat → e.pend = true → v = 0x32#64 ∨ v = 0x52#64)
            ∧ (same → e.lstep < n.toNat → e.pend = false → d.runmax ≤ e.run → v = 0x22#64 ∨ v = 0x52#64)
            ∧ (same → e.lstep < n.toNat → e.pend = false → e.run < d.runmax → near = true → v = w64 (m * 2 ^ 32 + 1))
            ∧ (same → e.lstep < n.toNat → e.pend = false → e.run < d.runmax → near = false →
              v = w64 (m * 2 ^ 32) ∨ v = 0x52#64))
        ∧ (∀ d t, readRDesc s s.agent { cause := 0x01, tval := codeOf (.srpRec rs1 rs2) } va = .ok (d, t) →
          let u := t.releaseAt (coreOf t.cur) .dv
          exec (.srpRec rs1 rs2) s = .next ((recordKey u t.agent quad key d).stallFor Config.nearClk).retire
          ∧ ((u.rkey quad t.agent.vmid key).valid = false ∨ (u.rkey quad t.agent.vmid key).pend = false →
            recordKey u t.agent quad key d = u))))
    ∧ (key < 4096 → keyBusy s quad s.vmid key = false → ∃ t, exec (.srpInv rs1) s = .next t
      ∧ (t.rkey quad s.vmid key).valid = false ∧ t.slots = s.retire.slots
      ∧ ∀ q v j, (q ≠ quad ∨ keyNo v j ≠ keyNo s.vmid key) → t.rkey q v j = s.rkey q v j)
    ∧ (((s.quad quad).copies.any fun c => c.vmid == s.vmid) = false → AMap.sorted (s.quad quad).keys = true → ∃ t, exec .srpInvAll s = .next t
      ∧ t.slots = s.retire.slots ∧ ∀ j, j < 4096 → (t.rkey quad s.vmid j).valid = false)
    ∧ ∀ c, s.xOk rd → exec (.srpStat c rd) s = .next (s.putX rd (AMap.getD (s.quad quad).ctr (8 * s.vmid +
      match c with | .probe => 0 | .replay => 1 | .compute => 2 | .forced => 3 | .record => 4 | .evict => 5) 0#64)).retire

/-! ## Messages, waiting, generations -/

/-- Messages and masked windows (R119-R124): a message goes out after a release of device scope, and is dropped by PERM past the last
slot; `msg.msk` opens a window of its own count outside a handler, `msg.unm` closes it, `msg.ret` returns to MSGPC and leaves the
handler, and is ILLEGAL outside one. A message of the tenant arriving at a slot with a free inbox entry is pending there, one of
another tenant is dropped and counted; its delivery saves the PC in MSGPC, enters the handler at MSGVEC with the payload and the
sender in the shadow a0 and a1, and leaves the main registers alone. `wait`, `sleep.t` and `yield` (R126-R128): `wait` goes on
where a message is pending and else waits for one; a sleep goes on at or after its deadline and not before; `yield` goes
on, and its slot may be pre-empted. -/
def Obligations.MessagesAndWaiting : Prop :=
  (∀ (s : State) (rs1 rs2 : XReg) (t p : Word), s.xr rs1 = .ok t → s.xr rs2 = .ok p →
      (t.toNat ≤ 8191 →
        let r := s.releaseAt (coreOf s.cur) .dv
        exec (.msgSend rs1 rs2) s = .next ((r.after (msgClk r.cur t.toNat)
          (.messageArrival { target := t.toNat, sender := r.cur, payload := p, vmid := r.vmid })).retire))
      ∧ (8191 < t.toNat → exec (.msgSend rs1 rs2) s = .next (s.takeTrap { cause := 0x07, tval := t }))
      ∧ exec .msgMsk s = .next (s.modMe fun v =>
        let w := v.goto (v.pc + 4#64)
        if v.masked || v.inHandler then w else { w with masked := true, wcnt := 0 })
      ∧ exec .msgUnm s = .next (s.modMe fun v =>
        let w := v.goto (v.pc + 4#64)
        if v.masked && !v.inHandler then { w with masked := false, wcnt := 0 } else w)
      ∧ (s.me.inHandler = true → exec .msgRet s = .next (s.modMe fun v =>
        { v.goto (v.user.msgpc &&& ~~~3#64) with inHandler := false }))
      ∧ (s.me.inHandler = false → exec .msgRet s = .next (s.takeTrap { cause := 0x01, tval := codeOf .msgRet })))
  ∧ ((∀ (s : State) (m : Msg), m.target ≤ 8191 → (s.slot m.target).own.vmid.toNat = m.vmid → (s.core (coreOf m.target)).fenced = false →
      (s.slot m.target).inbox.length < 8 → (s.tenant m.vmid).movr = [] → ringBound s m.target = 0 →
      exec (.messageArrival m) s = .next (s.modSlot m.target fun v =>
        { v with inbox := v.inbox ++ [{ payload := m.payload, sender := m.sender, ovf := false }] }))
    ∧ (∀ (s : State) (m : Msg), (s.slot m.target).own.vmid.toNat ≠ m.vmid →
      exec (.messageArrival m) s = .next (s.count m.vmid .msgDrop)
      ∧ ∀ g, exec (.msgOverflowWrite m g) s = .next (s.count m.vmid .msgDrop))
    ∧ (∀ (s t : State) (m : Msg) (p : Phys), (s.slot m.target).own.vmid.toNat = m.vmid →
      xlat s (s.devAgent m.vmid 0) (ringEntryVa s m.vmid) .w = .ok (p, t) → ∃ x y : Word,
        let u : State := t.putHome (t.devAgent m.vmid 0) p (natBytes 8 x.toNat ++ natBytes 8 y.toNat)
        exec (.msgOverflowWrite m (s.slot m.target).gen) s = .next
          (({ u with freeCtr := t.freeCtr + 2 } : State).modTenant m.vmid fun n => { n with
            movr := n.movr ++ [{ target := m.target, sender := m.sender, payload := m.payload, gen := (s.slot m.target).gen }]
            movrPos := n.movrPos + 1 }))
    ∧ (∀ (s : State) (m : Msg) (e : Trap), xlat s (s.devAgent m.vmid 0) (ringEntryVa s m.vmid) .w = .error e →
      ∀ g, exec (.msgOverflowWrite m g) s = .next (s.count m.vmid .msgDrop))
    ∧ (∀ (s : State) (n k : Nat), (s.slot n).poisonedShadow = some k → canDeliver s n = true → (s.slot n).wait = .run →
      exec (.messageDelivery n) s = .next (({ s with cur := n } : State).takeTrap { cause := 0x09, tval := regTval 3 k }))
    ∧ ∀ (s : State) (n : Nat) (m : InMsg) (r : List InMsg), (s.slot n).inbox = m :: r → canDeliver s n = true →
      (s.slot n).wait = .run → (s.slot n).poisonedShadow = none → ∃ t, exec (.messageDelivery n) s = .next t
        ∧ (t.slot n).pc = (s.slot n).user.msgvec &&& ~~~3#64 ∧ (t.slot n).inHandler = true ∧ (t.slot n).inbox = r
        ∧ (t.slot n).user.msgpc = (s.slot n).pc &&& ~~~3#64 ∧ (t.slot n).x = (s.slot n).x ∧ (t.slot n).v = (s.slot n).v
        ∧ ((t.slot n).xreg 10#5).val = m.payload ∧ ((t.slot n).xreg 11#5).val = w64 m.sender
        ∧ t.mem = s.mem ∧ (t.core (coreOf n)).l1d = [] ∧ ∀ k, k ≠ n → t.slot k = s.slot k)
  ∧ (∀ (s : State) (rs1 : XReg) (d : Word), s.xr rs1 = .ok d →
      (0 < s.pend s.cur → exec .wait s = .next s.retire)
      ∧ (s.pend s.cur = 0 → exec .wait s = .next (s.holdOn .msg .wait 0#64))
      ∧ (d.toNat ≤ s.now → exec (.sleepT rs1) s = .next s.retire)
      ∧ (s.now < d.toNat → exec (.sleepT rs1) s =
        .next (((s.holdOn .sleep (.sleepT rs1) d).dropDuties fun w => w.work == .ev (.sleepDeadline s.cur)).after
          (s.clkUntil d.toNat) (.sleepDeadline s.cur)))
      ∧ exec .yield s = .next (s.retire.modMe fun v => { v with own := { v.own with pre := true } })
      ∧ ∀ n i t, (s.slot n).wait = .hold .sleep i t d →
        (d.toNat ≤ s.now → exec (.sleepDeadline n) s = .next (s.modSlot n fun v => v.goto (v.pc + 4#64)))
        ∧ (s.now < d.toNat → ∃ u, exec (.sleepDeadline n) s = .next u ∧ u.slots = s.slots))

/-- Generations (R191-R198): `gen.rd` tells of an object's stamp its class, and its number but for another allocation's in user mode;
`gen.new` answers a number that is not live, or 0 while the allocator is stopped; `gen.scrub` zeroes and unstamps the
objects it names, but poisoned ones. -/
def Obligations.Generations : Prop :=
  ∀ (s : State) (rd rs1 : XReg) (w : Word), s.xr rs1 = .ok w →
    (∀ sp sel g, genSel (.genRd sp rd rs1) false sp w = .ok sel → stampOf s sel = some g → s.xOk rd →
      exec (.genRd sp rd rs1) s = .next (s.putX rd
        (if g = s.me.gen then w64 g.toNat
        else if g = 0#16 then 0x10000#64
        else if g = 0xFFFF#16 then 0x3FFFF#64
        else if s.me.sup then w64 (0x20000 + g.toNat) else 0x20000#64)).retire)
    ∧ (s.me.sup = true → s.mgmt.wrapping = true → s.xOk rd → exec (.genNew rd) s = .next (s.putX rd 0#64).retire)
    ∧ (s.me.sup = true → s.mgmt.wrapping = false → s.xOk rd → s.mgmt.genNext ≤ 0xFFFD → 1 ≤ s.mgmt.genNext →
      (∃ g, s.mgmt.genNext ≤ g ∧ g ≤ 0xFFFD ∧ BitVec.ofNat 16 g ∉ s.heldGens) →
      ∃ g : Gen, g ∉ s.liveGens ∧ g ≠ 0#16 ∧ g ≠ 0xFFFF#16 ∧ g ≠ 0xFFFE#16
        ∧ exec (.genNew rd) s = .next (((s.modMgmt fun m => { m with genNext := g.toNat + 1 }).putX rd (g.setWidth 64)).modMgmt
          fun m => { m with genNews := m.genNews ++ [(g, s.me.gen)] }).retire)
    ∧ (s.me.sup = true → (w = 0x100#64 → exec (.genScrub .v rs1) s = .next (s.modMe fun v =>
        { v with v := AMap.mapV v.v fun _ e => if e.gen = 0xFFFF#16 then e else {} }).retire)
      ∧ (w = 0x100#64 → exec (.genScrub .md rs1) s = .next (s.modMe fun v =>
        { v with md := AMap.mapV v.md fun _ e => if e.gen = 0xFFFF#16 then e else {} }).retire)
      ∧ (w = 0#64 → s.myCore.mxq = [] → exec (.genScrub .c rs1) s = .next (s.modMyCore fun c =>
        { c with cbuf := AMap.mapV c.cbuf fun k e => if k < 4096 then (if e.gen = 0xFFFF#16 then e else {}) else e }).retire)
      ∧ (w = 0#64 → s.myCore.mxq ≠ [] → exec (.genScrub .c rs1) s = .next (s.holdOn .mx (.genScrub .c rs1) 0#64)))

/-! ## Spawning and calling -/

/-- `fork` and `join` (R274, R278, R279, R282): a fork of a task checks its frame, releases at device scope, clears the frame's words 0
and 2, sets RESULT empty, and pushes the task at the bottom of its queue's deque at the slot's core, QUEUE where no place is
left; a frame whose generation is 0 is FRAME and a pointer of tag 10 or 11 TAGPTR. A join goes on, with an acquire, where
the count is 0, and else waits within JOINWIN, of at least 64 clk (R114); one whose wait has ended goes on without a second look. -/
def Obligations.ForkJoin : Prop :=
  (∀ (s : State) (rs1 : XReg) (i : Instr) (t : Nat) (f : Word), s.me.wait = .resume .join i t f →
    exec (.join rs1) s = .next ((s.acquireAt (coreOf s.cur) .dv).retire))
  ∧ ∀ (s t : State) (d : Domain) (rs1 rs2 : XReg) (p f : Word) (ws : List Word),
    s.xr rs1 = .ok p → s.xr rs2 = .ok f → s.me.wait = .run →
    (∀ q, frameWrite s f = .ok (ws, q, t) →
      (2 ≤ fld p 1 0 → exec (.fork d rs1 rs2) s = .next (s.takeTrap { cause := 0x0A, tval := p }))
      ∧ (fld p 1 0 = 0 → fld (ws.getD 4 0#64) 15 0 = 0 → exec (.fork d rs1 rs2) s = .next (s.takeTrap { cause := 0x0D, tval := f }))
      ∧ (fld p 1 0 = 0 → fld (ws.getD 4 0#64) 15 0 ≠ 0 → ws.getD 1 0#64 = 0#64 → ∀ t1 t2 t3,
        (t.releaseAt (coreOf t.cur) .dv).homeStore (t.releaseAt (coreOf t.cur) .dv).agent f 0#64 = .ok t1 →
        t1.homeStore t1.agent (f + 16#64) 0#64 = .ok t2 → t2.homeStore t2.agent (f + 40#64) 0#64 = .ok t3 →
        let u := t3.setEmpty q.pa
        let e : DqEntry :=
          { ptr := p, frame := f, slot := BitVec.ofNat 3 u.cur, queue := u.me.own.owner.toNat
            dom := match d with | .dflt => (u.queue u.me.own.owner.toNat).dom | .slot => 1#3 | .core => 2#3 | .cove => 3#3 | .quad => 4#3 | .device => 5#3 }
        let c := coreOf u.cur
        ((u.core c).deque.length < 64 → exec (.fork d rs1 rs2) s =
          .next (u.modCore c fun k => { k with deque := e :: k.deque }).retire)
        ∧ (64 ≤ (u.core c).deque.length → spillVictim u (u.core c).deque = none →
          exec (.fork d rs1 rs2) s = .next (s.takeTrap { cause := 0x13, tval := w64 u.me.own.owner.toNat }))))
    ∧ (frameRead s p = .ok (ws, t) →
      (fld (ws.getD 2 0#64) 31 0 = 0 → exec (.join rs1) s = .next (t.acquireAt (coreOf t.cur) .dv).retire)
      ∧ (fld (ws.getD 2 0#64) 31 0 ≠ 0 → t.me.wait = .run → exec (.join rs1) s =
        .next (((t.holdOn .join (.join rs1) p).dropDuties fun w => w.work == .ev (.joinwinExpiry t.cur)).after
          (max 64 t.me.user.joinwin.toNat) (.joinwinExpiry t.cur))))

/-- Frames (R276, R277, R283, R284): `frm.new` answers a frame of its size class with a header whose generation is the slot's and whose
RESULT is empty; a size of 0 or above 4,096 is FRAME. `frm.free` checks the frame, clears its generation and returns it, whose
frame generation moves on. `xcall` and `xret` (R66, R280, R281): a call through a code address links x1 and jumps; through a
function's descriptor it builds a frame, sends the start token and waits for the result; a pointer of tag 11 is TAGPTR. `xret` is
ILLEGAL in a handler and in supervisor mode; else it writes a0 to a7 as the results of its frame, finishes the frame and
ends the task. -/
def Obligations.FramesAndCalls : Prop :=
  (∀ (s t : State) (rd rs1 : XReg) (n f : Word), s.xr rs1 = .ok n →
      ((n = 0#64 ∨ 4096 < n.toNat) → exec (.frmNew rd rs1) s = .next (s.takeTrap { cause := 0x0D, tval := n }))
      ∧ (n ≠ 0#64 → n.toNat ≤ 4096 → ∀ u p z, allocFrame s s.agent n.toNat = .ok (f, t) → xlat t s.agent (f + 40#64) .w = .ok (p, u) →
        t.hasFe p.pa = true → writeHeader t s.agent f 0#64 s.me.gen = .ok z → z.xOk rd →
        exec (.frmNew rd rs1) s = .next (z.putX rd f).retire)
      ∧ (n.toNat % 64 ≠ 0 → exec (.frmFree rs1) s = .next (s.takeTrap { cause := 0x03, tval := n }))
      ∧ (n.toNat % 64 = 0 → ∀ u, freeCheck s s.agent n = .ok t → t.homeStore t.agent (n + 32#64) 0#64 = .ok u →
        exec (.frmFree rs1) s = .next (returnFrame u t.agent.vmid t.agent.cove n).retire
        ∧ ((returnFrame u t.agent.vmid t.agent.cove n).tenant t.agent.vmid).fgen ((u.tenant t.agent.vmid).frameNo n)
          = (u.tenant t.agent.vmid).fgen ((u.tenant t.agent.vmid).frameNo n) + 1#8))
  ∧ (∀ (s t u : State) (rs1 : XReg) (p f : Word) (args ws : List Word), s.xr rs1 = .ok p → s.me.wait = .run →
      (fld p 1 0 = 0 → s.xOk 1#5 → exec (.xcall rs1) s = .next ((s.putX 1#5 (s.me.pc + 4#64)).jumpTo p))
      ∧ (fld p 1 0 = 3 → exec (.xcall rs1) s = .next (s.takeTrap { cause := 0x0A, tval := p }))
      ∧ (∀ d v, fld p 1 0 = 1 → argRegs s = .ok args → callDesc s p = .ok (d, t) → callFrame t (max 128 d.fsize.toNat) d.narg args = .ok (f, u) →
        postStart u u.vmid (coveOfSlot u.cur) u.myQueue p f = .sent v →
        exec (.xcall rs1) s = .next (holdJoin v .result (.xcall rs1) f))
      ∧ (∀ q, (s.me.inHandler = true ∨ s.me.sup = true) → argRegs s = .ok args → frameWrite s p 128 = .ok (ws, q, t) →
        exec (.xret rs1) s = .next (s.takeTrap { cause := 0x01, tval := codeOf (.xret rs1) }))
      ∧ (∀ q v, s.me.inHandler = false → s.me.sup = false → argRegs s = .ok args → frameWrite s p 128 = .ok (ws, q, t) →
        fld (ws.getD 4 0#64) 15 0 ≠ 0 → t.isFull q.pa = false → ws.getD 1 0#64 = 0#64 →
        homePuts (t.releaseAt (coreOf t.cur) .dv) (t.releaseAt (coreOf t.cur) .dv).agent (p + 64#64) args = .ok v →
        exec (.xret rs1) s = .next ((finishTask v v.vmid (coveOfSlot v.cur) p (ws.getD 0 0#64) 0#64).slotIdle v.cur)
        ∧ ∀ z : State, ((z.slotIdle z.cur).slot z.cur).wait = .idle ∧ ((z.slotIdle z.cur).slot z.cur).task = none))

/-! ## Events of the slots -/

/-- Completions of what a slot performs (R111, R155, R172, R253, R257): each returns the slot that waits for it to the rotation with its
registers as they are, and no other; a matrix completion takes the oldest operation from the engine and joins its flags to
NXFLAGS of its slot, or ends its band: each accumulator takes its addends in order, RESTART is the row after it and the operation
goes on, or stops there for an eviction (R156). Waits at memory that end (R215, R227): a waiting load is performed where it can
complete or faults, and its limit ends one with TIDE_TMO. Buffers and caches in time (R203, R204, R244): a buffered line that has taken no store for 64 clk
drains to the cove L2, an L2 line forwards its writes to the home within 2,048 clk of the first, an L1D line is discarded 4,096
clk after its fill, and the end of a burst window changes no value. -/
def Obligations.CompletionsInTime : Prop :=
  (∀ (s : State) (n : Nat),
      let back (k : WaitKind) (e : Instr) : Prop := ∃ t, exec e s = .next t ∧ t.apart = { s with slots := t.slots }.apart ∧ t.mem = s.mem
        ∧ (∀ j, j ≠ n → t.slot j = s.slot j)
        ∧ ((s.slot n).wait = .done k → t.slot n = { s.slot n with wait := .run }) ∧ ((s.slot n).wait ≠ .done k → t.slot n = s.slot n)
      back .fill (.missFillArrival n) ∧ back .walk (.tlbWalkComplete n) ∧ back .div (.divComplete n) ∧ back .amo (.amoComplete n)
      ∧ back .lock (.lockGranted n) ∧ back .srp (.srpVerdict n) ∧ back .placer (.placerComplete n)
      ∧ (∀ c o r b i, (s.core c).mxq = o :: r → o.band = some b → b.put = [] → coreOf o.slot = c → o.instr = some i →
        (∀ l ∈ b.accs, b.col + l.length ≤ 64) →
        let td : TdReg := BitVec.ofNat 3 (o.td.getD 0)
        let sums (r : Nat) : List (Nat × NxFlags) := (List.range (b.accs.getD r []).length).map fun k =>
          addAll b.ints ((b.accs.getD r []).getD k 0) ((b.adds.getD r []).getD k [])
        let rows := List.range b.accs.length
        let u := setProgress (rows.foldl (fun s r => putRow s (b.row + r) b.col ((sums r).map (·.1))) { s with cur := o.slot }) td b.stop
          (rows.foldl (fun fl r => (sums r).foldl (fun fl e => fl ||| e.2) fl) b.flags)
        ((spillWaits s o.slot = false ∨ b.last = true) → exec (.mxComplete c) s = .next
          { ((u.modCore c fun k => { k with mxq := { o with band := none } :: r }).modMe fun v =>
            { v with wait := .hold .mx i s.now 0#64 }) with cur := s.cur })
        ∧ (spillWaits s o.slot = true → b.last = false → exec (.mxComplete c) s = .next
          { (((setMxrow u td b.stop).modCore c fun k => { k with mxq := r }).modMe fun v => { v with wait := .run }) with cur := s.cur }))
      ∧ ∀ c o r, (s.core c).mxq = o :: r → o.band = none → (s.slot o.slot).wait = .done .mx → ∃ t, exec (.mxComplete c) s = .next t
        ∧ (t.core c).mxq = r ∧ (t.slot o.slot).wait = .run
        ∧ (o.accum = false → (t.slot o.slot).user.nxflags = (s.slot o.slot).user.nxflags ||| o.flags ∧ (t.core c).td = (s.core c).td)
        ∧ (∀ k, o.accum = true → o.td = some k → k < 8 →
          (t.slot o.slot).user.nxflags = (s.slot o.slot).user.nxflags ||| (o.flags ||| (AMap.getD (s.core c).td k {}).pflags)
          ∧ (AMap.getD (t.core c).td k {}).pflags = 0#5 ∧ (AMap.getD (t.core c).td k {}).restart = 0#7))
  ∧ (∀ (s : State) (n : Nat) (i : Instr) (t : Nat) (a : Word),
      ((s.slot n).wait = .hold .sync i t a → loadOver s n i = true →
        exec (.syncLoadComplete n) s = .next (arrived (exec i (trial s n)) s))
      ∧ ((s.slot n).wait = .hold .sync i t a → loadOver s n i = false → exec (.syncLoadComplete n) s = .next s)
      ∧ ((s.slot n).wait = .hold .tide i t a → loadOver s n i = true →
        exec (.boundedLoadComplete n) s = .next (arrived (exec i (trial s n)) s))
      ∧ ((s.slot n).wait = .hold .tide i t a → loadOver s n i = false → exec (.boundedLoadComplete n) s = .next s)
      ∧ ((s.slot n).wait = .hold .tide i t a → (s.slot n).user.tmo ≠ 0#48 → t + (s.slot n).user.tmo.toNat < s.now →
        exec (.tideTmo n) s = .next (({ s with cur := n } : State).takeTrap { cause := 0x0E, tval := a }))
      ∧ ((s.slot n).wait = .hold .tide i t a → (s.slot n).user.tmo ≠ 0#48 → s.now ≤ t + (s.slot n).user.tmo.toNat →
        exec (.tideTmo n) s = .next (s.after (s.clkUntil (t + (s.slot n).user.tmo.toNat + 1)) (.tideTmo n)))
      ∧ ((s.slot n).wait = .hold .tide i t a → (s.slot n).user.tmo = 0#48 → exec (.tideTmo n) s = .next s))
  ∧ (∀ (s : State) (core cove line : Nat),
      (∀ e, core < 1024 → (s.core core).cb.find? (fun e => e.line == line) = some e →
        (e.last + 64 ≤ s.clk → exec (.coalesceDrainTimeout core line) s = .next (s.cbDrain core line)
          ∧ ∀ x ∈ ((s.cbDrain core line).core core).cb, x.line ≠ line)
        ∧ (s.clk < e.last + 64 → exec (.coalesceDrainTimeout core line) s =
          .next (s.after (e.last + 64 - s.clk) (.coalesceDrainTimeout core line))))
      ∧ (∀ l, AMap.get? (s.cove cove).l2 line = some l → l.dirty ≠ [] →
        (l.since + 2048 ≤ s.clk → exec (.l2WriteForward cove line) s = .next (s.l2Forward cove line)
          ∧ ∀ z, AMap.get? ((s.l2Forward cove line).cove cove).l2 line = some z → z.unsent = [])
        ∧ (s.clk < l.since + 2048 → exec (.l2WriteForward cove line) s =
          .next (s.after (l.since + 2048 - s.clk) (.l2WriteForward cove line))))
      ∧ (∀ l, AMap.get? (s.core core).l1d line = some l → l.clk + 4096 ≤ s.clk →
        exec (.l1dLineExpiry core line) s = .next (s.modCore core fun c => { c with l1d := AMap.del c.l1d line }))
      ∧ exec (.meshBurstMerge cove) s = .next (s.modCove cove fun v => { v with burst := [] }))

/-- Tasks taken, parked and restored (R270-R275, R436-R439): an idle slot of a queue takes the entry nearest the bottom of its own core's
deque, with a stack of the pool as sp, the frame in a0 and no link; a stolen task starts after its latency; a saved slot's image
is written and the slot is idle; a restored one goes on with what its image holds; a wait that outlasts JOINWIN is parked. A
rotation boundary with no queue to serve and no slot kept for an entry (R109, R289) clears PRE of the core's slots and the deficits that ended, and changes no slot
of another core, no memory and no register. -/
def Obligations.TaskEvents : Prop :=
  (∀ (s : State) (n : Nat),
      let core := coreOf n
      let q := (s.slot n).own.owner.toNat
      (∀ e t0, idleFor s n = true → popTake s n q = some (e, t0) → fld e.ptr 1 0 = 3 → ∃ u, exec (.dequePop n) s = .next u
        ∧ (u.slot n).wait = .saving (e.ptr.toNat / 4)
        ∧ { due := t0.clk + Config.spillClk, work := .ev (.spillRestore n) : Duty } ∈ u.duties)
      ∧ (∀ e t0 i sp t, idleFor s n = true → popTake s n q = some (e, t0) → fld e.ptr 1 0 ≠ 3 →
        takeStack t0 (t0.slot n).own.vmid.toNat = some (i, sp, t) → (t0.slot n).poisonedStart = none →
        ∃ u, exec (.dequePop n) s = .next u ∧ (u.slot n).pc = e.ptr ∧ (u.slot n).wait = .run ∧ (u.slot n).sup = false
          ∧ (u.slot n).task = some { frame := e.frame, stack := some i, queue := e.queue }
          ∧ (AMap.getD (u.slot n).x 1 {}).val = 0#64 ∧ (AMap.getD (u.slot n).x 2 {}).val = sp ∧ (AMap.getD (u.slot n).x 10 {}).val = e.frame)
      ∧ (idleFor s n = false → exec (.dequePop n) s = .next s ∧ exec (.dequeSteal n) s = .next s)
      ∧ (∀ v e0 e t0 i sp t, idleFor s n = true → popEntry s q n = none → resumeHead s q n = none → stealEntry s q n = some (v, e0) →
        takeEntry s v e0 = (e, t0) → fld e.ptr 1 0 ≠ 3 →
        takeStack t0 (t0.slot n).own.vmid.toNat = some (i, sp, t) → (t0.slot n).poisonedStart = none →
        ∃ u, exec (.dequeSteal n) s = .next u ∧ (u.slot n).pc = e.ptr ∧ (u.slot n).wait = .done .fill
          ∧ { due := t.clk + (if coveOfCore v = coveOfSlot n then Config.l2Clk else Config.nearClk), work := .ev (.missFillArrival n) : Duty } ∈ u.duties)
      ∧ (∀ j sv t f, (s.core core).spill = some j → j.slot = n → j.begun = true → j.next = none → AMap.get? (s.tenant (s.slot n).own.vmid.toNat).saves j.index = some sv →
        AMap.getD (s.slot n).taken 0 0#64 = f →
        let s1 := s.modCore core fun c => { c with spill := none }
        let vmid := (s.slot n).own.vmid.toNat
        writeRange (s1.devAgent vmid (coveOfSlot n)) 86 s1 (saveVa (s1.tenant vmid) j.index) 
          (imageBytes s1 n sv.pin f (imageLink s1 (s1.devAgent vmid (coveOfSlot n)) vmid j.index sv)) = .ok t → j.push = false →
        exec (.spillSaveComplete n) s = .next (t.modSlot n fun v =>
          { v with wait := .idle, task := none, taken := [], sup := false, masked := false, inHandler := false, wcnt := 0, inbox := []
                   q := v.q.filter fun q => !(q.2.bnd && q.2.gen == v.gen), own := { v.own with idle := true, pre := false } }))
      ∧ (∀ i sv t bs, (s.slot n).wait = .saving i → (∀ c ∈ s.cores, c.2.spill = none) →
        AMap.get? (s.tenant (s.slot n).own.vmid.toNat).saves i = some sv →
        let vmid := (s.slot n).own.vmid.toNat
        let s1 := s.modTenant vmid fun t => { t with saves := AMap.del t.saves i }
        readRange (s.devAgent vmid (coveOfSlot n)) 86 ((s1.acquireAt core .dv).dropOlds (coveOfCore core)) (saveVa (s1.tenant vmid) i) 5376 = .ok (bs, t) →
        ∃ u, exec (.spillRestore n) s = .next u ∧ (u.slot n).pc = bytesWord (bs.take 8) ∧ (u.slot n).wait = sv.wait
          ∧ (u.slot n).task = some sv.task ∧ (u.slot n).gen = (bytesWord ((bs.drop 16).take 8)).extractLsb' 0 16)
      ∧ (∀ i t f, (s.slot n).wait = .hold .join i t f → (beginEvict s n false).1 = true →
        exec (.joinwinExpiry n) s = .next (beginEvict s n false).2)
      ∧ (∀ i t f u, (s.slot n).wait = .hold .join i t f → (beginEvict s n false).1 = true → (beginEvict s n false).2 = u →
        ∃ k, (u.slot n).wait = .saving k ∧ (AMap.get? (u.tenant (s.slot n).own.vmid.toNat).saves k).isSome)
      ∧ ∀ c, (s.core c).fenced = true → exec (.rotationBoundary c) s = .next s)
  ∧ (∀ (s : State) (c : Nat), s.queues = [] → (s.core c).fenced = false → (s.core c).reserve = [] →
      ∃ t, exec (.rotationBoundary c) s = .next t ∧ t.mem = s.mem ∧ t.tenants = s.tenants
        ∧ (t.core c).deficit = [] ∧ (t.core c).deque = (s.core c).deque
        ∧ ∀ n, AMap.get? t.slots n = (AMap.get? s.slots n).map fun v =>
          if coreOf n = c then { v with own := { v.own with pre := false } } else v)

/-! ## Nodes -/

/-- Integer and test nodes (R53, R310, R312, R313): elements wrap, products and remainders are those of signed elements, a
division by zero gives -1 and leaves the dividend as remainder, a shift count is taken modulo the width; a test of
whole payloads is 1 or 0 with tag 0. With IV = 1 the right operand is the signed 17-bit immediate. -/
def Obligations.IntegerNodes : Prop :=
  ∀ (s u : State) (n : GNode) (f : Firing),
    let k := payloads u f
    let w := Fmt.tokWidth n.fmt
    let cnt := k * (64 / w)
    let bits (i : Instr) (clk : Nat) (res : Nat → Nat → Nat) : Prop := s.fires i f u →
      s.nodeSends u i f clk n.fmt k w cnt fun j => (res (elemN (opN k f.l) w j) (elemN (rightN i k f) w j), 0#5)
    let ints (i : Instr) (clk : Nat) (res : Int → Int → Int) : Prop :=
      bits i clk fun a b => natOf w (res (intOf w a) (intOf w b))
    let test (i : Instr) (res : Nat → Nat → Bool) : Prop := s.fires i f u →
      s.nodeSends u i f 1 .int k 64 k fun j => (if res (elemN (opN k f.l) 64 j) (elemN (rightN i k f) 64 j) then 1 else 0, 0#5)
    let divClk := if n.fmt = .int then 20 else 12
    ints (.gAdd n) 1 (· + ·) ∧ ints (.gSub n) 1 (· - ·) ∧ ints (.gMul n) 3 (· * ·) ∧ ints (.gMulh n) 4 (fun a b => a * b / 2 ^ w)
    ∧ ints (.gDiv n) divClk quot ∧ ints (.gRem n) divClk remd
    ∧ bits (.gAnd n) 1 (· &&& ·) ∧ bits (.gOr n) 1 (· ||| ·) ∧ bits (.gXor n) 1 (· ^^^ ·)
    ∧ bits (.gShl n) 1 (fun a b => a * 2 ^ (b % w)) ∧ bits (.gShr n) 1 (fun a b => a / 2 ^ (b % w))
    ∧ bits (.gSra n) 1 (fun a b => natOf w (intOf w a / 2 ^ (b % w)))
    ∧ ints (.gMin n) 1 min ∧ ints (.gMax n) 1 max
    ∧ test (.gTlt n) (fun a b => decide (intOf 64 a < intOf 64 b)) ∧ test (.gTle n) (fun a b => decide (intOf 64 a ≤ intOf 64 b))
    ∧ test (.gTeq n) (fun a b => decide (a = b)) ∧ test (.gTne n) (fun a b => decide (a ≠ b))
    ∧ test (.gTltu n) (fun a b => decide (a < b)) ∧ test (.gTleu n) (fun a b => decide (a ≤ b))
    ∧ ∀ i, nodeOf i = some n → (ivOf i = true → outWords k (rightN i k f) = List.replicate k ((n.imm.setWidth 17).signExtend 64))
      ∧ (ivOf i = false → rightN i k f = opN k f.r)

/-- Floating-point and conversion nodes (R99-R105, R314-R317, R357): each element is computed on exact values and rounded once
under IMM[17:15]; `ffma` of a token block takes its addends from the upper half of the left payload, that of a stream
block from the third operand; bit j of a compare is that of elements j; an arriving LQ4 payload cannot be converted by
`cvt` (FORMAT). -/
def Obligations.FloatNodes : Prop :=
  ∀ (s u : State) (n : GNode) (f : Firing),
    let k := payloads u f
    let w := Fmt.width n.fmt
    let rm := Rm.ofCode (n.immField 17 15)
    let l (j : Nat) : Nat := elemN (opN k f.l) w j
    let r (j : Nat) : Nat := elemN (opN k f.r) w j
    let v (b : Nat) : FV := Fmt.value n.fmt b
    (isInt n.fmt = false →
      let els (i : Instr) (clk : Nat) (res : Nat → Nat × NxFlags) : Prop :=
        s.fires i f u → s.nodeSends u i f clk n.fmt k w (k * (64 / w)) res
      let cmp (i : Instr) (c : Cmp) : Prop := s.fires i f u →
        s.nodeSends u i f 2 .int k 1 (k * (64 / w)) fun j => (if (fpCmp c (v (l j)) (v (r j))).1 then 1 else 0, (fpCmp c (v (l j)) (v (r j))).2)
      els (.gFadd n) 4 (fun j => fpAdd n.fmt rm {} (v (l j)) (v (r j))) ∧ els (.gFsub n) 4 (fun j => fpSub n.fmt rm {} (v (l j)) (v (r j)))
      ∧ els (.gFmul n) 4 (fun j => fpMul n.fmt rm {} (v (l j)) (v (r j)))
      ∧ els (.gFmin n) 2 (fun j => fpMinMax n.fmt false (l j) (r j)) ∧ els (.gFmax n) 2 (fun j => fpMinMax n.fmt true (l j) (r j))
      ∧ els (.gFdiv n) 16 (fun j => fpDiv n.fmt rm {} (v (l j)) (v (r j))) ∧ els (.gFsqrt n) 16 (fun j => fpSqrt n.fmt rm {} (v (l j)))
      ∧ els (.gFrcp n) 10 (fun j => fpRcp n.fmt rm {} (v (l j))) ∧ els (.gFexp2 n) 10 (fun j => fpExp2 n.fmt rm {} (v (l j)))
      ∧ els (.gFlog2 n) 10 (fun j => fpLog2 n.fmt rm {} (v (l j)))
      ∧ cmp (.gFlt n) .lt ∧ cmp (.gFle n) .le ∧ cmp (.gFeq n) .eq
      ∧ (((s.region f.rk).block f.ik.blk).stream = true →
        els (.gFfma n) 4 fun j => fpFma n.fmt rm {} (v (l j)) (v (r j)) (v (elemN (opN k f.p) w j)))
      ∧ (((s.region f.rk).block f.ik.blk).stream = false → s.fires (.gFfma n) f u →
        s.nodeSends u (.gFfma n) f 4 n.fmt k w (64 / w / 2) fun j => fpFma n.fmt rm {} (v (l j)) (v (r j)) (v (l (64 / w / 2 + j)))))
    ∧ (s.fires (.gCvt n) f u →
      let src := if n.any then f.ltag else n.fmt
      let ws := Fmt.tokWidth src
      let wd := Fmt.tokWidth n.dstFmt
      (src ≠ .lq4 → s.nodeSends u (.gCvt n) f 2 n.dstFmt k wd (k * min (64 / ws) (64 / wd))
        fun j => convert n.dstFmt wd rm (rndAt 0 wd j) (valueOf src ws (elemN (opN k f.l) ws j)))
      ∧ (src = .lq4 → exec (.gCvt n) s = u.firedBad (.gCvt n) f 0x0B (w64 f.idx)))
    ∧ (s.fires (.gQcvt n) f u →
      let ws := Fmt.tokWidth n.fmt
      let wd := Fmt.tokWidth n.dstFmt
      s.nodeSends u (.gQcvt n) f 2 n.dstFmt k wd (k * min (64 / ws) (64 / wd))
        fun j => convert n.dstFmt wd rm (rndAt (opN k f.r) wd j) (valueOf n.fmt ws (elemN (opN k f.l) ws j)))
    ∧ (s.fires (.gDq n) f u →
      let wd := Fmt.width n.dstFmt
      let q := fld f.rpay 43 40
      let sc := blockScale (fld f.rpay 31 0) (fld f.rpay 39 32)
      ∃ (x : Nat) (fl : NxFlags), exec (.gDq n) s = firedTo (.gDq n) f ((u.addFlags f fl).sendOut f n 2 (outWords k x) n.dstFmt)
        ∧ ∀ j, j < k * (64 / wd) → elemN x wd j =
          if 15 < q + j then 0 else (dequant n.dstFmt rm {} (elemN (opN k f.l) 4 (q + j)) sc.1).1 % 2 ^ wd)
    ∧ (s.fires (.gRng n) f u → exec (.gRng n) s =
      let st := outWords k (opN k f.l)
      firedTo (.gRng n) f ((u.sendT f n.t0 3 (st.map fun x => (nextRandom x).2) .int n.act f.ik.ctx f.ik.iter).sendT
        f n.t1 3 (st.map fun x => (nextRandom x).1) .int n.act f.ik.ctx f.ik.iter))

/-- Nodes that move tokens (R302, R304, R318, R319, R322, R325-R328, R334, R337, R338, R349, R381): what each sends to which target, under which context and ITER;
`steer` by its predicate payload; `bro` and `fin` to the successor's node, with a count token; an `inx` output waits for
the throttle and a `tgate` for its time. A result leaves for a valid target as one token that arrives after the node's
latency and a clk for each hop; an invalid target takes nothing. -/
def Obligations.TokenNodes : Prop :=
  ∀ (s u : State) (n : GNode) (f : Firing),
    let c := f.ik.ctx
    let it := f.ik.iter
    let k := payloads u f
    let both (v : List Word) (ft : Fmt) (a : Act) (c : Ctx) (it : BitVec 16) : State :=
      (u.sendT f n.t0 1 v ft a c it).sendT f n.t1 1 v ft a c it
    let gives (i : Instr) (t : State) : Prop := s.fires i f u → exec i s = firedTo i f t
    let passed := if (f.l.map (·.tok.act)) = some .null then Act.null else n.act
    let on (v : List Word) (ft : Fmt) (a : Act) : State := (u.sendT f n.t0 0 v ft a c it).sendT f n.t1 0 v ft a c it
    let succ := (u.region f.rk).block (n.immField 17 10)
    let start (ft : Fmt) : State :=
      u.sendTok f.rk (f.x, f.y) 1 (tokenFor succ (n.immField 6 0) 0 c it f.lpay ft n.act) (some f.ik)
    (∀ t lat v ft a, target t = none → u.sendT f t lat v ft a c it = u)
    ∧ (∀ t lat v ft a i d, target t = some (i, d) → f.body = none →
      let tok := tokenFor ((u.region f.rk).block f.ik.blk) i d c it (v.headD 0#64) ft a
      let to_ := (tok.dx.toNat, tok.dy.toNat)
      let key := u.cellOf f.rk f.x f.y
      ∃ go sent, u.clk + lat ≤ go ∧ go ∉ AMap.getD (u.cell key).sent (linkOut (f.x, f.y) to_) []
        ∧ go ∈ AMap.getD sent (linkOut (f.x, f.y) to_) []
        ∧ u.sendT f t lat v ft a c it = { u.modCell key (fun c => { c with sent := sent }) with duties := u.duties ++
          [{ due := go + hops (f.x, f.y) to_, work := .ev (.tokenMatch f.rk tok (some f.ik)), link := linkIn (f.x, f.y) to_ }] })
    ∧ gives (.gMov n) (both (outWords k (opN k f.l)) f.ltag n.act c it)
    ∧ gives (.gMovi n) (both [n.imm.signExtend 64] n.fmt n.act c it)
    ∧ gives (.gNull n) (both [0#64] n.fmt .null c it)
    ∧ gives (.gMerge n) (on [f.lpay] f.ltag passed) ∧ gives (.gOmerge n) (on [f.lpay] f.ltag passed)
    ∧ (f.rpay ≠ 0#64 → n.immField 0 0 = 0 → gives (.gSteer n) (u.sendT f n.t0 1 [f.lpay] f.ltag n.act c it))
    ∧ (f.rpay = 0#64 → n.immField 0 0 = 0 → gives (.gSteer n) (u.sendT f n.t1 1 [f.lpay] f.ltag n.act c it))
    ∧ (f.rpay ≠ 0#64 → n.immField 0 0 = 1 →
      gives (.gSteer n) ((u.sendT f n.t0 1 [f.lpay] f.ltag n.act c it).sendT f n.t1 1 [0#64] f.ltag .null c it))
    ∧ (f.rpay = 0#64 → n.immField 0 0 = 1 →
      gives (.gSteer n) ((u.sendT f n.t1 1 [f.lpay] f.ltag n.act c it).sendT f n.t0 1 [0#64] f.ltag .null c it))
    ∧ (succ.held = true → gives (.gBro n) ((start f.ltag).sendCount f false) ∧ gives (.gFin n) (start .int))
    ∧ (let j := if n.immField 16 16 = 1 then BitVec.ofNat 16 (n.immField 15 0) else it + 1#16
      (throttled (u.region f.rk) f j = false → gives (.gInx n) (both [f.lpay] f.ltag n.act c j))
      ∧ (throttled (u.region f.rk) f j = true →
        gives (.gInx n) (u.modRegion f.rk fun r => { r with held := r.held ++ [.node (.gInx n) f] })))
    ∧ (let tget (o : Nat) (v : Word) : Prop := n.immField 1 0 = o → gives (.gTget n) (both [v] .int n.act c it)
      tget 0 (it.setWidth 64) ∧ tget 1 ((u.tenant f.rk.vmid).frameVa c) ∧ tget 2 (c.fgen.setWidth 64)
      ∧ tget 3 (w64 (it.toNat * 2 ^ 32 + c.fgen.toNat * 2 ^ 24 + c.frame.toNat)))
    ∧ (n.immField 1 0 = 0 → gives (.gTset n) (both [f.lpay] f.ltag n.act c (f.rpay.extractLsb' 0 16)))
    ∧ (∀ c' it', tsetTo u n f = .ok (c', it') → (c' = c → gives (.gTset n) (both [f.lpay] f.ltag n.act c' it'))
      ∧ (c' ≠ c → gives (.gTset n) (u.pendOn f (.gTset n) 0#64 [packCtx c' it'])))
    ∧ (n.immField 0 0 = 0 → gives (.gPurge n) (both [0#64] n.fmt .purge c it))
    ∧ (n.immField 0 0 = 1 → gives (.gPurge n) (u.pendOn f (.gPurge n) 0#64 []))
    ∧ gives (.gTnow n) (both [w64 u.now] .int n.act c it)
    ∧ (f.rpay.toNat ≤ u.now → gives (.gTgate n) (both [f.lpay] f.ltag n.act c it))
    ∧ (u.now < f.rpay.toNat → s.fires (.gTgate n) f u → ∃ t, exec (.gTgate n) s = firedTo (.gTgate n) f t
      ∧ (∃ d ∈ t.duties, d.work = .ev (.tgateDeadline f.rk f.ik f.idx))
      ∧ ∃ e ∈ (t.cell (u.cellOf f.rk f.x f.y)).ms, e.idx = f.idx ∧ e.l = f.l ∧ e.timed = some f.rpay.toNat)

/-- Null and predicated firings (R297, R302, R306), of every node: a firing with a null operand sends null tokens and, where the
commit counts the node, a null count token, and `ret` does nothing; a token-mode firing whose predicate does not match sends
nothing; a firing of an instance that is gone, or of a region that is not placed, does nothing; one of a parked context is
kept, and a load waits for a place in a full channel (R343). -/
def Obligations.NullFirings : Prop :=
  ∀ (s u : State) (i : Instr) (n : GNode) (f : Firing),
    nodeOf i = some n → (s.region f.rk).wave = none →
    let rg := s.region f.rk
    let z : State := { s with fire := none, stall := 0 }
    let runs := rg.st = 3 ∧ (rg.inst? f.ik).isSome = true
    let cond := s.begins i f u ∧ runs ∧ (rg.isParked f.ik.ctx = false ∨ f.body.isSome = true)
    let nulls := u.sendNull f n (nodeClk i) (outTag i f.ltag)
    let counts := isStore i = true ∨ (∃ m, i = .gFwr m) ∨ (∃ m, i = .gBro m)
    (cond → f.nul = true → counts → exec i s = .next (settle (nulls.sendCount f true) f.rk))
    ∧ (cond → f.nul = true → ¬ counts → (∀ m, i ≠ .gRet m) → exec i s = .next (settle nulls f.rk))
    ∧ (cond → f.nul = true → (∃ m, i = .gRet m) → exec i s = .next (settle u f.rk))
    ∧ (cond → f.nul = false → f.body = none → n.pred = .onTrue → (∀ m, f.p = some m → m.tok.payload = 0#64) → exec i s = .next (settle u f.rk))
    ∧ (cond → f.nul = false → f.body = none → n.pred = .onFalse → (∃ m, f.p = some m ∧ m.tok.payload ≠ 0#64) → exec i s = .next (settle u f.rk))
    ∧ (s.fire = some f →
      ((rg.inst? f.ik).isNone = true → rg.st = 3 → exec i s = .next z)
      ∧ (rg.st ≠ 3 → rg.image = none → exec i s = .next z)
      ∧ (runs → rg.isParked f.ik.ctx = true → f.body = none → exec i s = .next (keepParked z f (.node i f)))
      ∧ (runs → rg.isParked f.ik.ctx = false → loads i f = true → f.began = false → channelFull z f = true →
        exec i s = .next { z with duties := z.duties ++ [{ due := z.clk + 1, work := .node i f }] }))

/-- Frame words, calls and the trap node (R307, R320, R321, R329-R332, R335, R336): what a firing checks, and what it leaves to the commit of its
instance (`pendOn`). A frame read waits for the frame writes of earlier instances of its context, and takes the youngest
pending value of the word. -/
def Obligations.FrameNodes : Prop :=
  ∀ (s t u : State) (n : GNode) (f : Firing) (va : Word),
    let rg := u.region f.rk
    let ten := u.tenant f.rk.vmid
    let fr := ten.frameVa f.ik.ctx
    let ready (me : Inst) : Bool := (rg.earlier me).all (fun j => nodesDone u f.rk j isFwr) && !leftBefore u f.rk me isAcquire
    let gives (i : Instr) (w : State) : Prop := exec i s = firedTo i f w
    let bad (i : Instr) (c : BitVec 8) (a : Word) : Prop := exec i s = u.firedBad i f c a
    (s.fires (.gFrd n) f u → ∀ me, rg.inst? f.ik = some me →
      (ready me = false →
        exec (.gFrd n) s = .next (settle (u.fireAfter 1 (.gFrd n) f) f.rk))
      ∧ (ready me = true → frameWord u f.rk f.ik.ctx (n.immField 8 0) = .ok va →
        ∀ bs q, ownerRead u f.rk va 8 = .ok (bs, q, t) →
          let ps := (pendBefore rg f.ik 0).filter fun p => isFwr p.node && p.addr == va && p.f.ik != f.ik
          (ps = [] → gives (.gFrd n) (t.sendOut f n (max 1 t.stall) [bytesWord bs] n.fmt))
          ∧ ∀ p, ps.getLast? = some p → gives (.gFrd n) (t.sendOut f n (max 1 t.stall) [p.f.lpay] n.fmt)))
    ∧ (s.fires (.gFwr n) f u → frameWord u f.rk f.ik.ctx (n.immField 8 0) = .ok va →
      (n.immField 8 0 < 8 → bad (.gFwr n) 0x07 va)
      ∧ ∀ q, 8 ≤ n.immField 8 0 → xlat u (u.fireAgent f) va .w = .ok (q, t) →
        gives (.gFwr n) ((t.pendOn f (.gFwr n) va []).sendCount f false))
    ∧ (s.fires (.gTrap n) f u → bad (.gTrap n) (if n.immField 0 0 = 1 then 0x17 else 0x16) f.lpay)
    ∧ (s.fires (.gCall n) f u → (descOk f.lpay = false → bad (.gCall n) 0x0A f.lpay)
      ∧ (descOk f.lpay = true → fld f.rpay 5 0 ≠ 0 → bad (.gCall n) 0x0D f.rpay)
      ∧ (∀ ws z, descOk f.lpay = true → fld f.rpay 5 0 = 0 → homeWords u (u.fireAgent f) f.rpay 5 = .ok (ws, z) →
        fld (ws.getD 4 0#64) 15 0 = 0 → bad (.gCall n) 0x0D f.rpay)
      ∧ ∀ d ws0 ws z t1 t2 t3 t4 p1 p2 q, descOk f.lpay = true → fld f.rpay 5 0 = 0 →
        homeWords u (u.fireAgent f) f.rpay 5 = .ok (ws0, z) → fld (ws0.getD 4 0#64) 15 0 ≠ 0 →
        let r := fr + w64 (8 * n.immField 8 0)
        (ten.frameBytes fr < 8 * n.immField 8 0 + 24 → bad (.gCall n) 0x0D r)
        ∧ (8 * n.immField 8 0 + 24 ≤ ten.frameBytes fr → readDesc u (u.fireAgent f) f.lpay = .ok (d, t1) →
        homeWords t1 (u.fireAgent f) f.rpay 5 = .ok (ws, t2) →
        xlat t2 (u.fireAgent f) r .w = .ok (p1, t3) → xlat t3 (u.fireAgent f) (r + 16#64) .w = .ok (p2, t4) →
        xlat t4 (u.fireAgent f) (f.rpay + 40#64) .w = .ok (q, t) → t.hasFe q.pa = true →
        gives (.gCall n) (t.pendOn f (.gCall n) f.rpay [])))
    ∧ (s.fires (.gRet n) f u → ∀ ws, homeWords u (u.fireAgent f) fr 2 = .ok (ws, t) →
      (ws.getD 1 0#64 = 0#64 → gives (.gRet n) (t.pendOn f (.gRet n) fr []))
      ∧ ∀ q v, ws.getD 1 0#64 ≠ 0#64 → xlat t (u.fireAgent f) (ws.getD 1 0#64 + 16#64) .w = .ok (q, v) →
        gives (.gRet n) (v.pendOn f (.gRet n) fr []))
    ∧ (s.fires (.gCcall n) f u → (fld f.lpay 1 0 ≠ 0 → fld f.lpay 1 0 ≠ 2 → bad (.gCcall n) 0x0A f.lpay)
      ∧ (fld f.lpay 1 0 = 2 → callbackQ u f.rk.vmid f.lpay = none → bad (.gCcall n) 0x13 (w64 (fld f.lpay 12 2)))
      ∧ let target := fld f.lpay 1 0 = 0 ∨ fld f.lpay 1 0 = 2 ∧ (callbackQ u f.rk.vmid f.lpay).isSome = true
      (target → fld f.rpay 2 0 ≠ 0 → n.immField 5 0 ≠ 0 → bad (.gCcall n) 0x03 f.rpay)
      ∧ ∀ ws c q t1 t2, target → (fld f.rpay 2 0 = 0 ∨ n.immField 5 0 = 0) →
        allocFrame u (u.fireAgent f) (64 + 8 * max (n.immField 5 0) 8) = .ok (c, t1) →
        xlat t1 (t1.fireAgent f) (c + 40#64) .w = .ok (q, t2) → t2.hasFe q.pa = true → argWords t2 f f.rpay (n.immField 5 0) = .ok (ws, t) →
        gives (.gCcall n) ((t.modInst f.rk f.ik fun i => { i with frames := i.frames ++ [c] }).pendOn f (.gCcall n) c ws))
    ∧ (s.fires (.gFnew n) f u → ((f.lpay = 0#64 ∨ 4096 < f.lpay.toNat) → bad (.gFnew n) 0x0D f.lpay)
      ∧ ∀ c, f.lpay ≠ 0#64 → f.lpay.toNat ≤ 4096 → newFrame u (u.fireAgent f) f.lpay.toNat 0#64 rg.gen = .ok (c, t) →
        gives (.gFnew n) ((t.modInst f.rk f.ik fun i => { i with frames := i.frames ++ [c] }).sendOut f n 2 [c] .int))
    ∧ (s.fires (.gFfree n) f u → (fld f.lpay 5 0 ≠ 0 → bad (.gFfree n) 0x0D f.lpay)
      ∧ (fld f.lpay 5 0 = 0 → freeCheck u (u.fireAgent f) f.lpay = .ok t → gives (.gFfree n) (t.pendOn f (.gFfree n) f.lpay [])))

/-- Memory nodes as they fire (R245, R339-R348): a load waits for the stores and fences before it, reads the bytes its address names - a
VA through its owner, an M-cell word, the cell's own store - with the pending writes of its context over them, and its
reply follows; a store is checked and left to the commit with its count token; an `ird` of a word that is not full defers;
a fence is performed once everything before it is, and its acquire drops the windows read before it; a prefetch sends nothing. Misalignment is MISALIGN. -/
def Obligations.MemoryNodes : Prop :=
  ∀ (s t u : State) (n : GNode) (f : Firing),
    let rg := u.region f.rk
    let gives (i : Instr) (w : State) : Prop := exec i s = firedTo i f w
    let ready (i : Instr) : Prop := loadReady u f i = true ∧ fenceReady u f i = true
    let after (i : Instr) (w : State) : State := if i = .gLda n then gAcquire w f.rk (nodeScope n) else w
    let urg := (rg.block f.ik.blk).urg
    let a := f.lpay + nodeOff n
    let k := nodeBytes n
    let overlaid (w : State) (i : Instr) (lin : Word) (bs : List Byte) : Word :=
      loadPay n.fmt (forwardOver (pendBefore (w.region f.rk) f.ik (lsidOf i)) lin.toNat bs)
    (∀ i ∈ [Instr.gLd n, .gLda n], s.fires i f u →
      (¬ ready i → exec i s = .next (settle (u.fireAfter 1 i f) f.rk))
      ∧ (ready i → canonical a = true → a.toNat % k ≠ 0 → exec i s = u.firedBad i f 0x03 a)
      ∧ (ready i → a.toNat % k = 0 →
        (∀ bs p, gForm a = .va a → amoClash u f i a k = .ok () → ownerRead u f.rk a k = .ok (bs, p, t) →
          gives i (after i (t.openReply f i (some (overlaid t i a bs)) (2 + t.stall + ownerHops t f.rk f.x f.y a))))
        ∧ (∀ x y off key bs, gForm a = .mcell x y off → urg = false → amoClash u f i (linAddr u f (.mcell x y off)) k = .ok () →
          mCellAt u f.rk x y a = .ok key → mRead u f.rk key off k = .ok bs →
          gives i (after i (u.openReply f i (some (overlaid u i (linAddr u f (.mcell x y off)) bs)) (2 * hops (f.x, f.y) (x, y) + 2))))
        ∧ ∀ off bs, gForm a = .loc off → urg = false → amoClash u f i (linAddr u f (.loc off)) k = .ok () →
          localRead u f.rk (u.cellOf f.rk f.x f.y) off k a = .ok bs →
          gives i (after i (u.openReply f i (some (overlaid u i (linAddr u f (.loc off)) bs)) 2))))
    ∧ (s.fires (.gLdb n) f u → ready (.gLdb n) → f.lpay.toNat % k = 0 → ∀ p, gForm f.lpay = .va f.lpay →
      let o := rg.ownerOf f.lpay
      let own := cellAt rg.handle o.1 o.2
      let cove := coveOfXY (handleX rg.handle + o.1) (handleY rg.handle + o.2)
      let b := n.immField 7 4
      xlat u (u.cellAgent f.rk own) f.lpay .r = .ok (p, t) →
      (∀ v, (b = 15 ∨ p.tide = none) → loadAt (.gLdb n) f f.lpay k t = .ok v → gives (.gLdb n) v)
      ∧ (∀ l, b ≠ 15 → p.tide ≠ none → AMap.get? (t.cove cove).l2 (p.pa / 64) = some l → fld f.rpay 47 0 - b ≤ l.stamp →
        (t.cell own).acb = [] → amoClash t f (.gLdb n) f.lpay k = .ok () →
        gives (.gLdb n) (t.openReply f (.gLdb n) (some (loadPay n.fmt (forwardOver (pendBefore rg f.ik (lsidOf (.gLdb n))) f.lpay.toNat
          (getBytes l.data (p.pa % 64) k)))) (2 + Config.l2Clk + ownerHops t f.rk f.x f.y f.lpay)))
      ∧ (b ≠ 15 → p.tide ≠ none → (∀ l, AMap.get? (t.cove cove).l2 (p.pa / 64) = some l → l.stamp < fld f.rpay 47 0 - b) →
        (t.tideT p.tide < fld f.rpay 47 0 - b →
          let began := f.since.getD t.now
          let lim := tideLimit t f.rk
          (lim ≠ 0 → began + lim < t.now → exec (.gLdb n) s = u.firedBad (.gLdb n) f 0x0E f.lpay)
          ∧ ((lim = 0 ∨ t.now ≤ began + lim) → gives (.gLdb n) (t.fireAfter 1 (.gLdb n) { f with since := some began })))
        ∧ ∀ v, fld f.rpay 47 0 - b ≤ t.tideT p.tide → loadAt (.gLdb n) f f.lpay k (ownerRefetch t f.rk f.lpay p) = .ok v → gives (.gLdb n) v))
    ∧ (∀ i ∈ [Instr.gSt n, .gStrl n], s.fires i f u →
      (canonical a = true → a.toNat % k ≠ 0 → exec i s = u.firedBad i f 0x03 a)
      ∧ (a.toNat % k = 0 → ∀ w, (gForm a = .va a ∨ urg = false) → gForm a ≠ .bad → nodeWriteOk u f a (natBytes k f.rpay.toNat) (gForm a) = .ok w →
        gives i ((w.pendOn f i (linAddr w f (gForm a)) [a]).sendCount f false)))
    ∧ (s.fires (.gIrd n) f u → ready (.gIrd n) → f.lpay.toNat % 8 = 0 →
      (∀ x y off key bs, gForm f.lpay = .mcell x y off → urg = false → pendBefore rg f.ik (lsidOf (.gIrd n)) = [] →
        mCellAt u f.rk x y f.lpay = .ok key → mRead u f.rk key off 8 = .ok bs →
        (mState (u.cell key) rg.gen off = 1 → gives (.gIrd n) ((gAcquire u f.rk .dv).openReply f (.gIrd n) (some (bytesWord bs)) (2 * hops (f.x, f.y) (x, y) + 2)))
        ∧ (mState (u.cell key) rg.gen off ≠ 1 → ∀ v, irdDefer (.gIrd n) f key off u = .ok v →
          gives (.gIrd n) v ∧ ∃ c ∈ (v.cell key).defer, c.off = off ∧ c.f = f))
      ∧ ∀ bs p, gForm f.lpay = .va f.lpay → pendBefore rg f.ik (lsidOf (.gIrd n)) = [] → ownerRead u f.rk f.lpay 8 = .ok (bs, p, t) →
        (t.hasFe p.pa = false → exec (.gIrd n) s = u.firedBad (.gIrd n) f 0x0F f.lpay)
        ∧ (t.hasFe p.pa = true → gives (.gIrd n) ((t.openReply f (.gIrd n) none 0).after (2 + tierClk (t.tier p.pa)) (.memoryReply f.rk f.ik f.idx))))
    ∧ (s.fires (.gIwr n) f u → f.lpay.toNat % 8 = 0 →
      (∀ off, gForm f.lpay = .loc off → urg = false → exec (.gIwr n) s = u.firedBad (.gIwr n) f 0x07 f.lpay)
      ∧ (∀ p w, gForm f.lpay = .va f.lpay → xlat u (u.fireAgent f) f.lpay .w = .ok (p, t) → t.hasFe p.pa = true →
        nodeWriteOk t f f.lpay (natBytes 8 f.rpay.toNat) (.va f.lpay) = .ok w →
        gives (.gIwr n) ((w.pendOn f (.gIwr n) f.lpay [f.lpay]).sendCount f false))
      ∧ ∀ x y off w, gForm f.lpay = .mcell x y off → urg = false → nodeWriteOk u f f.lpay (natBytes 8 f.rpay.toNat) (.mcell x y off) = .ok w →
        gives (.gIwr n) ((w.pendOn f (.gIwr n) (linAddr w f (.mcell x y off)) [f.lpay]).sendCount f false))
    ∧ (s.fires (.gFence n) f u →
      (fenceMay u f (.gFence n) = true → gives (.gFence n) (gAcquire (gRelease u f.rk (nodeScope n)) f.rk (nodeScope n)))
      ∧ (fenceMay u f (.gFence n) = false → exec (.gFence n) s = .next (settle (u.fireAfter 1 (.gFence n) f) f.rk)))
    ∧ (s.fires (.gPref n) f u → (f.rpay = 0#64 → gives (.gPref n) u) ∧ ∃ w, gives (.gPref n) w ∧ keeps u w)

/-- Atomic, lock and combining nodes as they fire (R260-R267): `amo` is checked and left to the commit, PERM in a cell's own store;
a lock token that is free is granted with the abandoned mark, one that is held is waited for, one of its own holder or a
fifth is LOCK; `lkg` and `mcomb` name an M-cell word and are left to the commit, and any other address is PERM. -/
def Obligations.AtomicNodes : Prop :=
  ∀ (s t u : State) (n : GNode) (f : Firing) (x y off key : Nat),
    let a := f.lpay
    let gives (i : Instr) (w : State) : Prop := exec i s = firedTo i f w
    let urg := ((u.region f.rk).block f.ik.blk).urg
    let here := gForm a = .mcell x y off ∧ urg = false ∧ mCellAt u f.rk x y a = .ok key
    let l := AMap.getD (u.cell key).locks (lockNo off) {}
    (s.fires (.gAmo n) f u → a.toNat % nodeBytes n = 0 →
      (∀ p, gForm a = .va a → translate u (u.fireAgent f) a .w = .ok (p, t) → rmwOk t p a = .ok () → t.isPoison p.pa = false →
        gives (.gAmo n) ((t.pendOn f (.gAmo n) a [a]).sendCount f false))
      ∧ (∀ p, gForm a = .va a → translate u (u.fireAgent f) a .w = .ok (p, t) → rmwOk t p a = .ok () → t.isPoison p.pa = true →
        exec (.gAmo n) s = u.firedBad (.gAmo n) f 0x09 a)
      ∧ (∀ w, gForm a = .mcell x y off → urg = false → nodeWriteOk u f a (natBytes (nodeBytes n) f.rpay.toNat) (.mcell x y off) = .ok w →
        gives (.gAmo n) ((w.pendOn f (.gAmo n) (linAddr w f (.mcell x y off)) [a]).sendCount f false))
      ∧ (gForm a = .loc off → urg = false → exec (.gAmo n) s = u.firedBad (.gAmo n) f 0x07 a))
    ∧ (s.fires (.gLkt n) f u → a.toNat % 8 = 0 → here → fenceReady u f (.gLkt n) = true →
      ((l.holder = some f.ik.ctx ∨ 4 ≤ locksHeld u f.rk f.ik.ctx) → exec (.gLkt n) s = u.firedBad (.gLkt n) f 0x14 a)
      ∧ (locksHeld u f.rk f.ik.ctx < 4 → l.holder = none →
        gives (.gLkt n) ((gAcquire (u.modCell key fun c => { c with
          locks := AMap.set c.locks (lockNo off) { l with holder := some f.ik.ctx, by_ := some f.ik, abn := false } }) f.rk (nodeScope n)).sendOut
            f n (2 * hops (f.x, f.y) (x, y) + 2) [if l.abn then 1#64 else 0#64] .int))
      ∧ ∀ h, locksHeld u f.rk f.ik.ctx < 4 → l.holder = some h → h ≠ f.ik.ctx → poolRoom u f.rk key = .ok t →
        gives (.gLkt n) (t.modCell key fun c => { c with
          locks := AMap.set c.locks (lockNo off) { l with wait := l.wait ++ [{ off := off, f := f, node := .gLkt n }] } }))
    ∧ (s.fires (.gLkg n) f u → a.toNat % 8 = 0 → (here → gives (.gLkg n) (u.pendOn f (.gLkg n) 0#64 [a]))
      ∧ (canonical a = true → exec (.gLkg n) s = u.firedBad (.gLkg n) f 0x07 a))
    ∧ (s.fires (.gMcomb n) f u → (a.toNat % 16 = 0 → here → gives (.gMcomb n) (u.pendOn f (.gMcomb n) 0#64 [a]))
      ∧ (canonical a = true → a.toNat % 16 ≠ 0 → exec (.gMcomb n) s = u.firedBad (.gMcomb n) f 0x03 a))

/-- Engine nodes as they fire (R401, R409-R411): a node of a cell without a fitting buoy binding is PERM; descriptors are read and checked
as the node fires, and the post, copy, tide or record is left to the commit; `probe` is performed at once, and a repeated firing
answers what it answered. -/
def Obligations.EngineNodes : Prop :=
  ∀ (s t u : State) (n : GNode) (f : Firing) (b : Nat) (y : Buoy),
    let rg := u.region f.rk
    let gives (i : Instr) (w : State) : Prop := exec i s = firedTo i f w
    let bound := rg.buoyAt f.x f.y = some (b, y)
    (∀ i ∈ [Instr.gPost n, .gGat n, .gSct n, .gCpy n], s.fires i f u → rg.buoyAt f.x f.y = none → exec i s = u.firedBad i f 0x07 (w64 f.idx))
    ∧ (s.fires (.gPost n) f u → bound → y.cur.inward = false → y.cur.bind = 0#2 → ∀ p,
      xlat u (u.fireAgent f) (y.cur.sva + w64 (8 * (y.pos + postsPending u f.rk b))) .w = .ok (p, t) →
      gives (.gPost n) (t.pendOn f (.gPost n) 0#64 [w64 b]))
    ∧ (s.fires (.gGat n) f u → bound → y.cur.bind = 1#2 → ∀ ws, readGat u f true = .ok (ws, t) →
      checkPacket (nodeCk f b y) (gatPacket n.fmt ws) = .ok () → gives (.gGat n) (t.pendOn f (.gGat n) 0#64 (gatPacket n.fmt ws)))
    ∧ (s.fires (.gSct n) f u → bound → y.cur.bind = 1#2 → ∀ ws, readGat u f false = .ok (ws, t) →
      checkPacket (nodeCk f b y) (sctPacket ws) = .ok () →
      gives (.gSct n) ((t.pendOn f (.gSct n) 0#64 (sctPacket ws)).sendCount f false))
    ∧ (s.fires (.gCpy n) f u → bound → y.cur.bind = 1#2 → fld f.lpay 5 0 = 0 → ∀ ws v, argWords u f f.lpay 16 = .ok (ws, t) →
      let pk := ws.set 12 (packCtx f.ik.ctx (f.ik.iter + 1#16))
      checkPacket (nodeCk f b y) pk = .ok () → checkCw t (t.fireAgent f) pk = .ok v → gives (.gCpy n) (v.pendOn f (.gCpy n) 0#64 pk))
    ∧ (s.fires (.gTadv n) f u → ∀ p v e d, translate u (u.fireAgent f) f.lpay .w = .ok (p, t) → tideRegion t p f.lpay = .ok (v, e, d) →
      gives (.gTadv n) (t.pendOn f (.gTadv n) f.lpay [w64 v, w64 e]))
    ∧ (let key := fld f.rpay 11 0
      let step := fld f.rpay 47 16
      let quad := handleQuad rg.handle
      (∀ i ∈ [Instr.gProbe n, .gRec n], s.fires i f u → (fld f.rpay 63 48 ≠ 0 ∨ fld f.rpay 15 12 ≠ 0) →
        exec i s = u.firedBad i f 0x01 (w64 f.idx))
      ∧ (fld f.rpay 63 48 = 0 → fld f.rpay 15 12 = 0 → areaOk u quad f.rk.vmid key = .ok () →
        (s.fires (.gProbe n) f u → ∀ m, memoOf u f key step = some m → gives (.gProbe n) (u.sendOut f n Config.nearClk [m.verdict] .int))
        ∧ (s.fires (.gProbe n) f u → memoOf u f key step = none → keyBusy u quad f.rk.vmid key = true →
          exec (.gProbe n) s = .next (settle (u.fireAfter 1 (.gProbe n) f) f.rk))
        ∧ (s.fires (.gProbe n) f u → memoOf u f key step = none → keyBusy u quad f.rk.vmid key = false → ∀ v clks,
          probeKey (gRelease u f.rk .dv) (u.fireAgent f) quad { cause := 0x01, tval := w64 f.idx } key step f.lpay = .ok (v, clks, t) →
          gives (.gProbe n) ((t.modRegion f.rk fun r => { r with memos := r.memos ++ [{ key := key, step := step, ik := f.ik, verdict := v }] }).sendOut
            f n clks [v] .int))
        ∧ (s.fires (.gRec n) f u → ∀ d ws v, readRDesc u (u.fireAgent f) { cause := 0x01, tval := w64 f.idx } f.lpay = .ok (d, t) →
          homeWords t (t.fireAgent f) f.lpay 6 = .ok (ws, v) → gives (.gRec n) (v.pendOn f (.gRec n) f.lpay (w64 key :: ws)))))

/-- Stream nodes as they fire (R358, R361, R365-R370, R376, R380): `rpt` and `cnt` set their cell's loop, `ctok` sends control tokens; `sgen` reads its four
descriptor words once, then yields the elements at the addresses of its sequence, which wraps, or writes them there; a
delay-mode `dly` puts the masked value in its line where the step's own value stood, and a step of a chunk-mode one runs both
passes; a node whose carry chain runs waits; an `mxp` writes its value into a buffer of the core, or takes a token of the result port, FORMAT where its tag does
not fit. -/
def Obligations.StreamNodes : Prop :=
  ∀ (s t u : State) (n : GNode) (f : Firing),
    let gives (i : Instr) (w : State) : Prop := exec i s = firedTo i f w
    let l := loopOf u f
    let k := payloads u f
    let w := Fmt.tokWidth n.fmt
    (s.fires (.gRpt n) f u → gives (.gRpt n) (modLoopOf u f fun l => { l with wide := n.immField 17 17 == 1, ilv := n.immField 16 14 + 1 }))
    ∧ (s.fires (.gCnt n) f u → gives (.gCnt n) (modLoopOf u f fun l =>
        { l with n := some f.lpay, wst := n.immField 17 17 == 1, ups := n.immField 16 16 == 1 }))
    ∧ (s.fires (.gCtok n) f u → ∀ i d, target n.t0 = some (i, d) → target n.t1 = none →
      gives (.gCtok n) (u.after (1 + hops (f.x, f.y) (((u.region f.rk).block f.ik.blk).at i)) (.controlTokenArrival f.rk f.ik i (n.immField 17 16 == 1))))
    ∧ (s.fires (.gSgen n) f u →
      (∀ ws, f.body = none → let a := if kindOf u f = 2 then f.lpay else w64 (n.immField 12 0)
        (a.toNat % 8 ≠ 0 → exec (.gSgen n) s = u.firedBad (.gSgen n) f 0x03 a)
        ∧ (a.toNat % 8 = 0 → genWords u f a 4 = .ok (ws, t) →
          gives (.gSgen n) (modLoopOf t f fun l => { l with gens := AMap.set l.gens (n.immField 17 16) (genOf ws) })))
      ∧ ∀ v, f.body = some v →
        let d := AMap.getD l.gens (n.immField 17 16) default
        let cnt := k * (64 / w)
        (∀ vs, n.immField 17 16 ≠ 2 → kindOf u f ≠ 2 → genIn u f n.fmt d (v * cnt) cnt = .ok (vs, t) →
          gives (.gSgen n) (t.sendOut f n (genLines d (v * cnt) cnt) (outWords k (buildN w (fun j => vs.getD j 0) cnt)) n.fmt))
        ∧ (∀ vs clks, n.immField 17 16 ≠ 2 → kindOf u f = 2 → genWindow u f n.fmt d (n.immField 17 16) v cnt = .ok (vs, t, clks) →
          gives (.gSgen n) (t.sendOut f n clks (outWords k (buildN w (fun j => vs.getD j 0) cnt)) n.fmt))
        ∧ (n.immField 17 16 = 2 → genOut u f n.fmt d (v * cnt) ((List.range cnt).map fun j => elemN (opN k f.r) w j) = .ok t →
          gives (.gSgen n) t))
    ∧ (∀ (d : GenDesc) (q r : Nat), d.addr (q + r * cpCount d.exts) = d.addr q)
    ∧ (s.fires (.gDly n) f u → u.clk < AMap.getD l.chain f.idx 0 → exec (.gDly n) s = .next (settle (u.fireAfter 1 (.gDly n) f) f.rk))
    ∧ (s.fires (.gDly n) f u → AMap.getD l.chain f.idx 0 ≤ u.clk →
      let kk := if l.wide then 4 else 1
      let step := f.body.getD 0
      let mark := match f.p with | some m => m.tok.payload | none => 0#64
      let pay := outWords kk (maskLanes (Fmt.tokWidth (if n.any then f.ltag else n.fmt)) kk (opN kk f.l) mark)
      let tags := (l.dlyTags f.idx step).tags.set (l.delayNo f.idx n step) f.ltag
      (n.immField 17 16 = 1 → chunkStep n f l step u = .ok t → gives (.gDly n) t)
      ∧ (n.immField 17 16 ≠ 1 → setLineWords u f.rk f.x f.y (dlyPlace u f) (l.delayAt f.idx n step) pay = .ok t →
        gives (.gDly n) (modLoopOf t f fun z =>
          { z with dlys := AMap.set z.dlys (8 * f.idx + l.slotAt step) { l.dlyTags f.idx step with tags := tags } })))
    ∧ (s.fires (.gMxp n) f u →
      let key := u.cellOf f.rk f.x f.y
      let core := coreOfXY (key % 128) (key / 128)
      (n.immField 17 16 = 2 → (u.cell key).mxpq = [] → exec (.gMxp n) s = .next (settle (u.fireAfter 1 (.gMxp n) f) f.rk))
      ∧ (∀ m r, n.immField 17 16 = 2 → (u.cell key).mxpq = m :: r →
        ((n.any = true ∨ m.tok.ftag = n.fmt) →
          gives (.gMxp n) ((u.modCell key fun c => { c with mxpq := r }).sendOut f n 1 [m.tok.payload] m.tok.ftag))
        ∧ (n.any = false → m.tok.ftag ≠ n.fmt → exec (.gMxp n) s = u.firedBad (.gMxp n) f 0x0B (w64 f.idx)))
      ∧ ∀ b m, (n.immField 17 16 = 0 ∧ b = Buf.a ∨ n.immField 17 16 = 1 ∧ b = Buf.w) →
        let off := 64 * n.immField 12 0 + f.body.getD 0 * (8 * k)
        (bufBytes b < off + 8 * k → exec (.gMxp n) s = u.firedBad (.gMxp n) f 0x07 (w64 off))
        ∧ (off + 8 * k ≤ bufBytes b → granWrite ((u.core core).gran b) (u.region f.rk).gen off (natBytes (8 * k) (opN k f.l)) = .ok m →
          gives (.gMxp n) (u.modCore core fun c => c.setBuf b m)))

/-- Commit (R264, R293, R295, R307): an instance that may commit is committed once, next in the order of commits, with its flags joined to
the region's; the effects a cell performs come in LSID order, none while a lower one of the instance waits; none before what R245 orders before it; each effect is
what the node's firing left: a store writes its bytes at its address, unless its line is poisoned meanwhile (R200), an `iwr` of a
full word and an `lkg` of a token not held fault, a lock token passes on. -/
def Obligations.Commits : Prop :=
  ∀ (s t : State) (rk : RKey) (ik : IKey) (i : Inst) (p : Pend) (n : GNode) (cell : Nat),
    let rg := s.region rk
    let f := p.f
    (rg.inst? ik = some i → rg.wave = none → rg.st = 3 →
      (mayCommit s rk i = false → exec (.instanceCommit rk ik) s = .next s)
      ∧ (mayCommit s rk i = true → (rg.block ik.blk).stream = false →
        let s1 := s.modRegion rk fun r => { r with serial := r.serial + 1 }
        let s2 := s1.modInst rk ik fun i => { i with committed := true, com := rg.serial + 1 }
        exec (.instanceCommit rk ik) s = .next (settle (sendCommits (dropKept (regionFlags s2 rk i.flags) rk ik) rk ik) rk)))
    ∧ (rg.inst? ik = some i → rg.wave = none → rg.st = 3 → exec (.commitToken rk ik cell) s =
        .next (settle (runPends rk ik ((rg.block ik.blk).cellXY cell).1 ((rg.block ik.blk).cellXY cell).2 (.commitToken rk ik cell) (i.pend.length + 1) s) rk))
    ∧ (∀ (x y : Nat), nextPend s rk i x y = .effect p → p ∈ i.pend ∧ p.done = false ∧ f.x = x ∧ f.y = y
      ∧ (∀ q ∈ i.pend, q.done = false → p.lsid ≤ q.lsid) ∧ olderPending rg i = false ∧ mustWait s rk i p = false)
    ∧ (let late (z : State) (a : Word) (q : Phys) : Prop :=
        let o := (z.region f.rk).ownerOf a
        translate z (z.cellAgent f.rk (cellAt (z.region f.rk).handle o.1 o.2)) a .w = .ok (q, t)
      (∀ q, p.node = .gFwr n → late s p.addr q →
        perform s p = .done (if t.isPoison q.pa then t.countEcc 0x21 else ownerPut t f.rk p.addr q (natBytes 8 f.lpay.toNat)))
      ∧ let a := p.data.headD 0#64
      let bs := natBytes (nodeBytes n) f.rpay.toNat
      ∀ z, (p.node = .gSt n ∧ z = s ∨ p.node = .gStrl n ∧ z = gRelease s f.rk (nodeScope n)) →
        (∀ q, gForm a = .va a → late z a q →
          perform s p = .done (if t.isPoison q.pa then t.countEcc 0x21 else ownerPut t f.rk a q bs))
        ∧ (∀ x y off key, gForm a = .mcell x y off → mCellAt z f.rk x y a = .ok key → mWrite z f.rk x y key off bs = .ok t → perform s p = .done t)
        ∧ ∀ off, gForm a = .loc off → localWrite z f.rk (z.cellOf f.rk f.x f.y) off bs a = .ok t → perform s p = .done t)
    ∧ (p.node = .gIwr n → gForm (p.data.headD 0#64) = .va (p.data.headD 0#64) → ∀ q, translate s (s.fireAgent f) (p.data.headD 0#64) .w = .ok (q, t) →
      let z := ownerHome t f.rk (p.data.headD 0#64) q
      (z.isPoison q.pa = true → perform s p = .done (z.countEcc 0x21))
      ∧ (z.isPoison q.pa = false → z.isFull q.pa = true → perform s p = .done (z.lateFault f 0x0C (p.data.headD 0#64)))
      ∧ (z.isPoison q.pa = false → z.isFull q.pa = false → perform s p = .done (z.putHome (z.fireAgent f) q (natBytes 8 f.rpay.toNat))))
    ∧ (p.node = .gLkg n → ∀ x y key off, mPlace s f (p.data.headD 0#64) = some (x, y, key, off) →
      ((AMap.getD (s.cell key).locks (lockNo off) {}).holder ≠ some f.ik.ctx → perform s p = .done (s.lateFault f 0x14 (p.data.headD 0#64)))
      ∧ ((AMap.getD (s.cell key).locks (lockNo off) {}).holder = some f.ik.ctx → perform s p =
        .done (trimPool (lockPass (gRelease s f.rk (nodeScope n)) x y key (lockNo off) false) f.rk key)))
    ∧ (∀ (x y key tok : Nat) (b : Bool), (AMap.getD (s.cell key).locks tok {}).wait = [] →
      let l := AMap.getD ((lockPass s x y key tok b).cell key).locks tok {}
      l.holder = none ∧ l.abn = b ∧ l.wait = [])
    ∧ (∀ (x y key tok : Nat) (b : Bool) (w : Waiting) (r : List Waiting), (AMap.getD (s.cell key).locks tok {}).wait = w :: r →
      ∃ z, lockPass s x y key tok b = answer z x y w (if b then 1#64 else 0#64)
        ∧ (AMap.getD (z.cell key).locks tok {}).holder = some w.f.ik.ctx ∧ (AMap.getD (z.cell key).locks tok {}).wait = r)

/-- Effects left to the commit, performed (R261, R266, R307, R308, R329-R331, R336, R338, R405, R410): each after its release; `amo` sends the old value and joins its
flags to the region's; `tset` sends into the other context and `purge` clears the sticky tokens; a call writes its record
and the frame's header and sends the start token; `ret` finishes the frame and ends the context, as `ffree` of its own frame
does; a post takes the next word of its stream one mesh time after its commit token; a copy is posted where the queue has room, and waits else. -/
def Obligations.CommitEffects : Prop :=
  ∀ (s t : State) (p : Pend) (n : GNode),
    let f := p.f
    let a := p.data.headD 0#64
    let dv := gRelease s f.rk .dv
    let does (i : Instr) (v : State) : Prop := p.node = i → perform s p = .done v
    (∀ q v fl old, p.node = .gAmo n → gForm a = .va a →
      let z := if nodeAmoOrd n = .rel ∨ nodeAmoOrd n = .ar then gRelease s f.rk (nodeScope n) else s
      let o := if nodeAmoOrd n = .acq ∨ nodeAmoOrd n = .ar then gAcquire v f.rk (nodeScope n) else v
      let k := nodeBytes n
      let cas := nodeAmoOp n = .cas
      xlat z (z.fireAgent f) a .w = .ok (q, t) →
      amoAt (ownerHome t f.rk a q) (t.fireAgent f) q (nodeAmoOp n) k (if cas then fld f.rpay 31 0 else f.rpay.toNat % 2 ^ (8 * k))
        (if cas then fld f.rpay 63 32 else 0) = (old, fl, v) →
      perform s p = .done ((regionFlags o f.rk fl).sendOut f n (max 1 (tierClk (o.tier q.pa)))
        [if n.fmt = .int then sext (8 * k) (w64 old) else w64 old] n.fmt))
    ∧ (∀ x y key off, p.node = .gMcomb n → mPlace s f a = some (x, y, key, off) → combine (gRelease s f.rk (nodeScope n)) f p.node = some t →
      perform s p = .done t)
    ∧ does (.gPurge n) (purgeAll s f.rk f.ik.ctx)
    ∧ (let c : Ctx := { frame := a.extractLsb' 0 24, fgen := a.extractLsb' 24 8 }
      does (.gTset n) ((s.sendT f n.t0 1 [f.lpay] f.ltag n.act c (a.extractLsb' 32 16)).sendT f n.t1 1 [f.lpay] f.ltag n.act c (a.extractLsb' 32 16)))
    ∧ (∀ t1 t2 q v, p.node = .gCall n →
      let r := (dv.tenant f.rk.vmid).frameVa f.ik.ctx + w64 (8 * n.immField 8 0)
      homePuts dv (dv.fireAgent f) r (returnRecord dv f n) = .ok t1 →
      homePuts t1 (dv.fireAgent f) p.addr [r ||| 1#64, 0#64, 0#64, 0#64, (dv.region f.rk).gen.setWidth 64, 0#64] = .ok t2 →
      xlat t2 (dv.fireAgent f) (p.addr + 40#64) .w = .ok (q, t) →
      postStart (t.setEmpty q.pa) f.rk.vmid ((t.setEmpty q.pa).coveOf f) (dv.region f.rk).qid f.lpay p.addr (some (f.rk, f.ik)) = .sent v →
      perform s p = .done (v.sendT f n.t1 1 [p.addr] .int n.act f.ik.ctx f.ik.iter))
    ∧ (∀ t1 v, p.node = .gCcall n → fld f.lpay 1 0 = 0 → writeHeader dv (dv.fireAgent f) p.addr 0#64 (dv.region f.rk).gen = .ok t1 →
      homePuts t1 (dv.fireAgent f) (p.addr + 64#64) (p.data.take (n.immField 5 0) ++ List.replicate (8 - n.immField 5 0) 0#64) = .ok t →
      pushBottom t (leastCore t (dv.region f.rk).qid (coresOf (handleCove (dv.region f.rk).handle)))
        { ptr := f.lpay, frame := p.addr, slot := 0#3, dom := 2#3, queue := (dv.region f.rk).qid } = some v →
      perform s p = .done (v.sendOut f n 1 [p.addr] .int))
    ∧ (∀ t1, p.node = .gCcall n → fld f.lpay 1 0 = 2 → writeHeader dv (dv.fireAgent f) p.addr 0#64 (dv.region f.rk).gen = .ok t1 →
      homePuts t1 (dv.fireAgent f) (p.addr + 64#64) (p.data.take (n.immField 5 0) ++ List.replicate (8 - n.immField 5 0) 0#64) = .ok t →
      perform s p = .done ((callbackAppend t (fld f.lpay 12 2) p.addr).sendOut f n 1 [p.addr] .int))
    ∧ (∀ v, p.node = .gFfree n → freeCheck dv (dv.fireAgent f) p.addr = .ok t → freeFrame t (t.fireAgent f) p.addr = .ok v →
      (p.addr = (v.tenant f.rk.vmid).frameVa f.ik.ctx → perform s p = .done (endContext v f.rk f.ik.ctx))
      ∧ (p.addr ≠ (v.tenant f.rk.vmid).frameVa f.ik.ctx → perform s p = .done v))
    ∧ (∀ g h q v, p.node = .gRet n → dv.homeLoad (s.fireAgent f) (p.addr + 32#64) = .ok (g, h, v) →
      xlat v (s.fireAgent f) (p.addr + 40#64) .w = .ok (q, t) → fld g 15 0 ≠ 0 → t.isFull q.pa = false →
      ∀ o, (if n.immField 5 0 = 0 then .ok t else ownerWrite t f.rk (p.addr + 64#64) (natBytes 8 f.lpay.toNat)) = .ok o →
      let z := gRelease o f.rk .dv
      perform s p = .done (endContext (finishFrame z f.rk.vmid (z.coveOf f) p.addr (n.immField 5 0) 0 f.lpay f.ltag false) f.rk f.ik.ctx))
    ∧ (∀ b y, p.node = .gPost n → b = (p.data.headD 0#64).toNat → AMap.get? (s.region f.rk).buoys b = some y →
      (∀ c, (f.since = none ∧ c = s.clk ∨ f.since = some c ∧ s.clk < c + Config.meshCove) →
        let p' := { p with f := { f with since := some c } }
        perform s p = .wait (s.modInst f.rk f.ik fun i => { i with pend := i.pend.map fun q => if q = p then p' else q }))
      ∧ ∀ c q, f.since = some c → c + Config.meshCove ≤ s.clk → translate s (s.fireAgent f) (y.cur.sva + w64 (8 * y.pos)) .w = .ok (q, t) →
        let v := if t.isPoison q.pa then t.countEcc 0x21 else t.l2Write (t.coveOf f) q (natBytes 8 f.lpay.toNat)
        perform s p = .done (v.modRegion f.rk fun r => { r with buoys := AMap.set r.buoys b { y with pos := y.pos + 1 } }))
    ∧ (∀ i ∈ [Instr.gGat n, .gSct n, .gCpy n], p.node = i → cpOp p.data ≠ 3 →
      (copyRoom s (s.coveOf f) = false → perform s p = .wait s)
      ∧ (copyRoom s (s.coveOf f) = true → ∃ c, perform s p = .done (enqueueCopy dv (s.coveOf f) c) ∧ c.pk = p.data
        ∧ c.rk = some f.rk ∧ c.node = some (f, i)))
    ∧ (∀ v e d, p.node = .gTadv n → p.data = [w64 v, w64 e] → v < 2 ^ 64 → e < 2 ^ 64 → AMap.get? (dv.tenant v).tides e = some d →
      perform s p = .done (dv.tideArrive v e d))
    ∧ (p.node = .gRec n →
      let key := (p.data.headD 0#64).toNat
      let quad := handleQuad (s.region f.rk).handle
      (keyBusy s quad f.rk.vmid key = true → perform s p = .wait s)
      ∧ (keyBusy s quad f.rk.vmid key = false → perform s p = .done (recordKey dv (s.fireAgent f) quad key (rdescOf (p.data.drop 1)))))

/-! ## Events of the graph -/

/-- Matching and counting (R296-R298, R301, R306, R358, R490): a node is ready when every required slot holds a token of its own or a sticky one, and one at
least is its own; a token that reaches a placed region is matched there, a stale one is discarded and counted, and one of a
saved cell is recorded; a buoy forwards its tokens to its node's left slot; a second count of one LSID is ILLEGAL, and a
count after the commit does nothing. -/
def Obligations.Matching : Prop :=
  ∀ (s : State) (rk : RKey) (ik : IKey) (t : Token) (src : Option IKey),
    let rg := s.region rk
    (∀ (key : Nat) (c : Cell) (i : Instr) (e : MEntry) (a b : MTok), needs (cellKind (key % 128) (key / 128) == 2) i = [true, true, false] →
      (e.l = none → e.r = none → e.p = none → readyOps rg key c i e = none)
      ∧ (e.l = some a → e.r = some b → readyOps rg key c i e = some (some a, some b, none))
      ∧ (e.l = some a → e.r = none → stickyTok rg key c e.slot e.idx e.ctx 1 = some b → readyOps rg key c i e = some (some a, some b, none))
      ∧ (e.l = some a → e.r = none → stickyTok rg key c e.slot e.idx e.ctx 1 = none → readyOps rg key c i e = none)
      ∧ (e.r = some b → e.l = none → stickyTok rg key c e.slot e.idx e.ctx 0 = none → readyOps rg key c i e = none))
    ∧ (rg.st = 3 → rg.wave = none →
      let z := if bodyArrival rg t then s else s.modCell (s.cellOf rk t.dx.toNat t.dy.toNat) fun c => { c with matchAt := some s.clk }
      exec (.tokenMatch rk t src) s = .next (settle (arrive z rk { tok := t, src := src }) rk))
    ∧ (t.dop = 3#2 → arrive s rk { tok := t, src := src } = badToken s rk (w64 (t.ctx.fgen.toNat * 2 ^ 24 + t.ctx.frame.toNat)))
    ∧ (t.dop ≠ 3#2 → (s.tenant rk.vmid).fgen t.ctx.frame.toNat ≠ t.ctx.fgen →
      arrive s rk { tok := t, src := none } = s.count rk.vmid .staleTag)
    ∧ (∀ w, rg.wave = some w → w.saved.contains (s.cellOf rk t.dx.toNat t.dy.toNat) = true →
      (rg.block ((rg.blockAt t.dx.toNat t.dy.toNat t.dslot.toNat).getD 0)).urg = false →
      ∃ u, exec (.tokenMatch rk t src) s = .next u ∧ u = s.modRegion rk fun r => { r with wave := some { w with
        arcs := w.arcs ++ [{ x := t.dx.toNat, y := t.dy.toNat, work := .ev (.tokenMatch rk t src) }] } })
    ∧ (rg.st ≠ 3 → rg.st ≠ 4 → rg.wave = none → exec (.tokenMatch rk t src) s = .next (s.count rk.vmid .staleTag))
    ∧ (∀ k b, AMap.get? rg.buoys k = some b → (s.tenant rk.vmid).fgen t.ctx.frame.toNat ≠ t.ctx.fgen →
      exec (.buoyTokenArrival rk k t) s = .next (s.count rk.vmid .staleTag))
    ∧ (∀ k b, AMap.get? rg.buoys k = some b → (s.tenant rk.vmid).fgen t.ctx.frame.toNat = t.ctx.fgen → rg.st = 3 → rg.wave = none →
      exec (.buoyTokenArrival rk k t) s = .next (s.sendTok rk (b.x, b.y) 0 (tokenFor (rg.block b.blk) b.idx 0 t.ctx t.iter t.payload t.ftag t.act) none))
    ∧ (∀ k, AMap.get? rg.buoys k = none → exec (.buoyTokenArrival rk k t) s = .next (s.count rk.vmid .staleTag))
    ∧ ∀ (i : Inst) (idx : Nat) (nul : Bool) (nd : Instr), rg.inst? ik = some i → (rg.block ik.blk).node idx = some nd →
      let at_ := (rg.block ik.blk).at idx
      let bad := s.gFault rk { ik := ik, cause := 0x01, addr := w64 idx, idx := idx, x := at_.1, y := at_.2 }
      let is (u : State) : Prop := exec (.countToken rk ik idx nul) s = .next (settle u rk)
      (i.committed = true → exec (.countToken rk ik idx nul) s = .next s)
      ∧ (i.committed = false → isStore nd = true →
        (i.lsids.contains (lsidOf nd) = true → is bad)
        ∧ (i.lsids.contains (lsidOf nd) = false → is (s.modInst rk ik fun i => { i with lsids := i.lsids ++ [lsidOf nd] })))
      ∧ (i.committed = false → (∃ n, nd = .gFwr n) → is (s.modInst rk ik fun i => { i with fws := i.fws + 1 }))
      ∧ (i.committed = false → (∃ n, nd = .gBro n) → (nul = true → is s) ∧ (nul = false → 0 < i.bros → is bad)
        ∧ (nul = false → i.bros = 0 → is (s.modInst rk ik fun i => { i with bros := i.bros + 1 })))

/-- Replies, deadlines, loops and reports (R299, R343, R349, R360, R362, R380, R418-R421): a reply leaves as its node's result, in an ordered channel from the head
only; a timed token leaves at its deadline; a control token sets its latch where `cnt` takes it; a loop starts and
finishes once; an entry written back comes from its records before the token that waits for it, and the token is then matched; a report parks its context. -/
def Obligations.GraphEvents : Prop :=
  ∀ (s : State) (rk : RKey) (ik : IKey) (idx : Nat),
    let rg := s.region rk
    let b := rg.block ik.blk
    let at_ := b.at idx
    let key := s.cellOf rk at_.1 at_.2
    rg.wave = none → rg.st = 3 →
    (∀ r v, ordered rg at_.1 at_.2 = false → (s.cell key).replies.find? (fun r => r.f.ik == ik && r.f.idx == idx && !r.back) = some r → r.val = some v →
      exec (.memoryReply rk ik idx) s = .next (settle (leaveReply
        (s.modCell key fun c => { c with replies := c.replies.filter fun q => !(q.f.ik == ik && q.f.idx == idx) }) { r with val := some v }) rk)
      ∧ ∀ u : State, leaveReply u { r with val := some v } = u.sendOut r.f (fieldsOf r.node) 0 [v] (fieldsOf r.node).fmt)
    ∧ (∀ fuel k r rest, (s.cell k).replies = r :: rest → r.back = false → drainReplies fuel s k = s)
    ∧ (∀ e nd d, (s.cell key).ms.find? (fun e => e.idx == idx && e.ctx == ik.ctx && e.iter == some ik.iter && e.timed.isSome) = some e →
      e.timed = some d → b.node idx = some nd → rg.ovf = [] → rg.isParked ik.ctx = false →
      (s.now < d → exec (.tgateDeadline rk ik idx) s = .next (s.after (s.clkUntil d) (.tgateDeadline rk ik idx)))
      ∧ (d ≤ s.now →
        let f : Firing := { rk := rk, ik := ik, x := at_.1, y := at_.2, slot := e.slot, idx := idx, l := e.l }
        exec (.tgateDeadline rk ik idx) s = .next (settle
          ((s.modCell key fun c => c.putEntry { e with l := none, timed := none }).sendOut f (fieldsOf nd) 0 [f.lpay] f.ltag) rk)))
    ∧ (∀ n, b.node idx = some (.gCnt n) →
      let set (g : Loop → Loop) : State := s.modCell key fun c => c.modLoop ik b.slot g
      (n.immField 17 17 = 1 → exec (.controlTokenArrival rk ik idx false) s = .next (settle (set fun l => { l with startL := true }) rk))
      ∧ (n.immField 17 17 = 0 → exec (.controlTokenArrival rk ik idx false) s = .next (settle (set fun l => l) rk))
      ∧ (n.immField 16 16 = 1 → exec (.controlTokenArrival rk ik idx true) s = .next (settle (set fun l => { l with finL := true }) rk))
      ∧ (n.immField 16 16 = 0 → exec (.controlTokenArrival rk ik idx true) s = .next (settle (set fun l => l) rk)))
    ∧ (∀ cell l,
      let q := b.cellXY cell
      let k := s.cellOf rk q.1 q.2
      (s.cell k).loop? ik b.slot = some l →
      (mayStart s rk q.1 q.2 l = false → exec (.streamLoopStart rk ik cell) s = .next s)
      ∧ (∀ j, mayStart s rk q.1 q.2 l = true → badChunk b q.1 q.2 l = some j → exec (.streamLoopStart rk ik cell) s =
        .next (settle (s.gFault rk { ik := ik, cause := 0x01, addr := w64 j, idx := j, x := q.1, y := q.2 }) rk))
      ∧ (mayStart s rk q.1 q.2 l = true → badChunk b q.1 q.2 l = none →
        let dl := (b.inCell q.1 q.2).filterMap fun p => match p.2 with | .gDly n => some (p.1, n) | _ => none
        ∀ u, dlyInits (dropKeeps s rk q.1 q.2 ik.blk) rk l q.1 q.2 b dl = .ok u →
        let v := u.modCell k fun c => c.modLoop ik b.slot fun x => { x with started := true }
        exec (.streamLoopStart rk ik cell) s = .next (settle (fireCtoks (dl.foldl (fun s p =>
          dlyStart s { rk := rk, ik := ik, x := q.1, y := q.2, slot := b.slot, idx := p.1, body := some 0 } p.2) v) rk q.1 q.2 l false) rk))
      ∧ (l.started = true → l.finished = false → rg.isParked ik.ctx = false → rg.faults = [] → exec (.streamLoopFinish rk ik cell) s =
        .next (settle (fireCtoks (s.modCell k fun c => c.modLoop ik b.slot fun l => { l with finished := true }) rk q.1 q.2 l true) rk))
      ∧ (l.finished = true → exec (.streamLoopFinish rk ik cell) s = .next s))
    ∧ (∀ x y m o,
      let k := s.cellOf rk x y
      (s.cell k).lookup = [m] → heldForMerge rg (s.cell k) m = false → rg.ovf = [o] → o.holds k m.tok = true → o.ent.next = none →
      s.msCount rk x y false < msCap x y false → o.ent.tokens ≠ [] →
      blocksIn s (s.devAgent rk.vmid (coveOfXY (k % 128) (k / 128))) o.frames o.ent.tokens.length = o.ent.tokens.map (fun t => some t.tok) →
      (o.ent.iter.bind fun it => rg.byKey ((rg.blockAt x y o.ent.slot).getD 0) o.ent.ctx it) = none →
      ∃ v, exec (.matchRefill rk x y) s = .next (settle v rk) ∧ (v.region rk).ovf = [] ∧ (v.cell k).lookup = [m]
        ∧ { o.ent with used := s.clk, gen := rg.gen } ∈ (v.cell k).ms ∧ ∃ d ∈ v.duties, d.work = .ev (.matchRefill rk x y))
    ∧ (∀ x y m,
      let k := s.cellOf rk x y
      (s.cell k).lookup = [m] → heldForMerge rg (s.cell k) m = false → rg.ovf = [] →
      let v := arrive (s.modCell k fun c => { c with lookup := [] }) rk m false
      exec (.matchRefill rk x y) s = .next (settle (if refillMore v rk x y then askRefill v rk x y else v) rk))
    ∧ (∀ h, rg.faults = [h] → h.ik = ik → mayReport rg h = true →
      let u := s.modRegion rk fun r => { r with faults := [], parked := r.parked ++ [{ ctx := ik.ctx, ik := ik, committed := h.committed, cause := h.cause, work := h.work }] }
      exec (.gFaultReport rk ik) s = .next (settle (report (if h.committed || (u.looping rk).contains ik then u else rollback u rk [ik] false) rk h) rk))
    ∧ (rg.faults = [] → exec (.gFaultReport rk ik) s = .next s)

/-! ## Placers -/

/-- The placement instructions (R454, R459-R464): in supervisor mode `plc.find` reserves the first free entry and the first origin that
fits, and answers its handle, or 0; `plc.load` checks the image and answers its status, BADSTATE where the handle names no reserved
region; `plc.rel` releases; `cfg.wr` writes or restamps one cell of a reserved region, and `cfg.chk` answers the status of the checks.
Each keeps its slot out of the rotation for its time. A handle with a reserved bit set is ILLEGAL. -/
def Obligations.PlacementInstructions : Prop :=
  ∀ (s t : State) (rd rs1 rs2 : XReg) (a h : Word),
    s.xr rs1 = .ok a → s.xr rs2 = .ok h → s.me.sup = true → s.me.wait = .run → s.xOk rd →
    let word (i : Instr) : State := s.takeTrap { cause := 0x01, tval := codeOf i }
    (let w := 4 * (fld a 3 0 + 1)
      let hh := 4 * (fld a 7 4 + 1)
      let own := quadOfSlot s.cur
      let cs := candidates own (fun q => if fld a 19 16 = 0 then q == own else (fld a 19 16).testBit q) w hh
      let fits := originFits s (s.queue s.myQueue).mask w hh (cellFree s) fun _ _ => bitAt a 8
      let ok := fld a 63 48 = 0 ∧ fld a 31 20 = 0 ∧ fld a 15 10 = 0 ∧ fld a 7 4 ≤ 7 ∧ fld a 3 0 ≤ 7
      (¬ ok → exec (.plcFind rd rs1) s = .next (word (.plcFind rd rs1)))
      ∧ (ok → cs.find? fits = none → exec (.plcFind rd rs1) s = .next (placerDone (s.putX rd 0#64) (64 + cs.length)))
      ∧ (ok → freeEntry s s.vmid = none → ∃ n, exec (.plcFind rd rs1) s = .next (placerDone (s.putX rd 0#64) n))
      ∧ (∀ k r, ok → cs.findIdx? fits = some k → freeEntry s s.vmid = some r → fld a 47 32 = 0 → s.newGen = (none, t) →
        exec (.plcFind rd rs1) s = .next (t.holdOn .placer (.plcFind rd rs1) 0#64))
      ∧ ∀ k o r g, ok → cs.findIdx? fits = some k → cs[k]? = some o → freeEntry s s.vmid = some r → fld a 47 32 = 0 → s.newGen = (some g, t) →
        let hd := mkHandle r o.1 o.2 w hh (bitAt a 9) g
        t.xOk rd → exec (.plcFind rd rs1) s = .next (placerDone ((reserve t { vmid := s.vmid, ridx := r } hd s.myQueue).putX rd hd) (64 + k + 1)))
    ∧ (handleOk h = false → exec (.plcLoad rd rs1 rs2) s = .next (word (.plcLoad rd rs1 rs2)))
    ∧ (∀ rec_ d, handleOk h = true → imageOperand s a = .ok (rec_, d, t) → t.xOk rd →
      (handleRegion t h true = none → exec (.plcLoad rd rs1 rs2) s = .next (placerDone (t.putX rd badState) 1))
      ∧ ∀ rk, handleRegion t h true = some rk →
        let rg := t.region rk
        (rg.st = 4 → exec (.plcLoad rd rs1 rs2) s = .next (placerDone (t.putX rd badState) 1))
        ∧ ((rg.st = 1 ∨ rg.st = 2) →
          (∀ st v, checkRecord t t.agent rec_ (some (handleW rg.handle, handleH rg.handle)) = .ok (.bad st v) → v.xOk rd →
            ∃ n, exec (.plcLoad rd rs1 rs2) s = .next (placerDone (v.putX rd st) n))
          ∧ ∀ m v st z, d = none → checkRecord t t.agent rec_ (some (handleW rg.handle, handleH rg.handle)) = .ok (.good m v) →
            loadImage v rk m v.me.troot = (st, z) → z.xOk rd → ∃ n, exec (.plcLoad rd rs1 rs2) s = .next (placerDone (z.putX rd st) n)))
    ∧ (handleOk a = true → (handleRegion s a false = none → exec (.plcRel rs1) s = .next (placerDone s 32))
      ∧ ∀ rk, handleRegion s a false = some rk →
        exec (.plcRel rs1) s = .next (placerDone (releaseRegion s rk) (32 + (s.region rk).keys.length)))
    ∧ (handleOk a = false → ∀ i ∈ [Instr.plcRel rs1, .cfgWr rs1 rs2, .cfgWrRestamp rs1 rs2], exec i s = .next (word i))
    ∧ (handleOk a = true → ∀ i ∈ [Instr.cfgWr rs1 rs2, .cfgWrRestamp rs1 rs2],
      (bitAt h 0 = true → fld h 63 17 = 0 → 1 ≤ fld h 16 1 → fld h 16 1 ≤ 0xFFFD →
        exec i s = .next (cfgRestamp s a (BitVec.ofNat 16 (fld h 16 1))))
      ∧ (bitAt h 0 = true → (fld h 63 17 ≠ 0 ∨ fld h 16 1 = 0 ∨ 0xFFFD < fld h 16 1) → exec i s = .next (word i))
      ∧ (bitAt h 0 = false → fld h 2 0 ≠ 0 → exec i s = .next (s.takeTrap { cause := 0x03, tval := h }))
      ∧ (bitAt h 0 = false → fld h 2 0 = 0 → cfgRecord s a h = .ok t → exec i s = .next t))
    ∧ (∀ (g : Gen) rk, cfgRegion s a = some rk → (handleCell a).1 < handleW (s.region rk).handle → (handleCell a).2 < handleH (s.region rk).handle →
      let key := cellAt (s.region rk).handle (handleCell a).1 (handleCell a).2
      ∀ n, n < 72 → ((AMap.getD (s.cell key).store n {}).gen ≠ 0xFFFF#16 →
          (AMap.getD (restampCell (s.cell key) (handleCell a).1 (handleCell a).2 g).store n {}).gen = g)
        ∧ ((AMap.getD (s.cell key).store n {}).gen = 0xFFFF#16 →
          (AMap.getD (restampCell (s.cell key) (handleCell a).1 (handleCell a).2 g).store n {}) = AMap.getD (s.cell key).store n {}))
    ∧ (∀ rec_ d v, imageOperand s a = .ok (rec_, d, t) →
      (∀ st, checkRecord t t.agent rec_ none = .ok (.bad st v) → v.xOk rd → ∃ n, exec (.cfgChk rd rs1) s = .next (placerDone (v.putX rd st) n))
      ∧ ∀ m, checkRecord t t.agent rec_ none = .ok (.good m v) → v.xOk rd → ∃ n, exec (.cfgChk rd rs1) s = .next (placerDone (v.putX rd loadOk) n))

/-- `gctx.res` and `gctx.kill` (R422-R424): of a parked context, after a release: a resume clears the FAULT word and
lets the context go on, unless it parked FENCED; a kill ends it with RESULT 63. A frame that is not 64-byte aligned is MISALIGN,
one outside the heap PERM, one that is not parked FRAME. -/
def Obligations.ParkedContexts : Prop :=
  ∀ (s t : State) (rs1 : XReg) (f w : Word) (p : Phys), s.xr rs1 = .ok f → s.me.sup = true →
    let ten := s.tenant s.vmid
    (∀ i ∈ [Instr.gctxRes rs1, .gctxKill rs1],
      (fld f 5 0 ≠ 0 → exec i s = .next (s.takeTrap { cause := 0x03, tval := f }))
      ∧ (fld f 5 0 = 0 → ten.inHeap f = false → exec i s = .next (s.takeTrap { cause := 0x07, tval := f }))
      ∧ (fld f 5 0 = 0 → ten.inHeap f = true → s.homeLoad s.agent (f + 24#64) = .ok (w, p, t) →
        (parkedCtx t t.vmid (ten.ctxOf f) = none ∨ bitAt w 63 = false) → exec i s = .next (s.takeTrap { cause := 0x0D, tval := f })))
    ∧ (fld f 5 0 = 0 → ten.inHeap f = true → s.homeLoad s.agent (f + 24#64) = .ok (w, p, t) → bitAt w 63 = true →
      ∀ rk q, parkedCtx t t.vmid (ten.ctxOf f) = some (rk, q) →
        let r := t.releaseAt (coreOf t.cur) .dv
        (q.cause = 0x19#8 → exec (.gctxRes rs1) s = .next (s.takeTrap { cause := 0x19, tval := f }))
        ∧ (∀ u, q.cause ≠ 0x19#8 → r.homeStore r.agent (f + 24#64) 0#64 = .ok u → exec (.gctxRes rs1) s = .next (resumeCtx u rk q).retire)
        ∧ exec (.gctxKill rs1) s = .next (settle (killContext r rk q.ctx q.cause false) rk).retire)

/-- Events of the placers (R340, R344, R350, R352, R440-R445, R455, R457): requests are tried in order and leave the list where they are done; the last hand-over token
frees the cells; a cell saves when its markers are in and sends them on; a wave ends with the image and the
entry at ST 4; a restore whose record cannot be read leaves the region out; an overlay fills its slot and lets the held
tokens in, and one that fails faults their instances; the oldest moored entry is delivered while its function is placed. -/
def Obligations.PlacerEvents : Prop :=
  ∀ (s t : State) (rk : RKey) (x y : Nat),
    let rg := s.region rk
    let key := cellAt rg.handle x y
    (∀ q, (s.quad q).reqs = [] → exec (.placementRequest q) s = .next s)
    ∧ (∀ q r, (s.quad q).reqs = [r] → (askOne s q r = .done t → exec (.placementRequest q) s = .next (t.modQuad q fun q => { q with reqs := q.reqs.erase r }))
      ∧ (askOne s q r = .wait t → exec (.placementRequest q) s = .next t))
    ∧ (rg.hand.contains (cellKey x y) = false → exec (.handoverToken rk x y) s = .next s)
    ∧ (rg.hand = [cellKey x y] → exec (.handoverToken rk x y) s = .next (freeCells (s.modRegion rk fun r => { r with hand := [] }) rk))
    ∧ (rg.wave = none → exec (.cellSave rk x y) s = .next s ∧ exec (.slackWaveEnd rk) s = .next s)
    ∧ (∀ w, rg.wave = some w → w.saved.contains key = false → markersIn rg w x y = true →
      (repliesDue (s.cell key) = true → exec (.cellSave rk x y) s = .next (s.after 1 (.cellSave rk x y)))
      ∧ (repliesDue (s.cell key) = false → ∃ u, exec (.cellSave rk x y) s = .next u
        ∧ (u.region rk).wave = some { w with saved := key :: w.saved } ∧ (u.cell key).acb = []
        ∧ (w.saved.length + 1 = rg.keys.length → u.duties.any (fun d => d.work == .ev (.slackWaveEnd rk)) = true)))
    ∧ (∀ w, rg.wave = some w → rg.keys.length ≤ w.saved.length → s.duties = [] → urgentLeft rg = false → w.back = false →
      let z := gRelease s rk .dv
      let im := regionImage z rk w
      ∃ u, exec (.slackWaveEnd rk) s = .next u ∧ u = sendHands (writeEntry { (z.modRegion rk fun r => { r with st := 4, wave := none, image := some im }) with
          cells := AMap.mapV z.cells fun _ c => if c.owner = some rk then emptyCell c else c } rk) rk)
    ∧ (rg.image = none → exec (.regionRestore rk) s = .next s)
    ∧ (∀ im e, rg.image = some im → rg.st = 4 → rg.hand = [] → (s.cell (cellAt rg.handle 0 0)).owner = some rk →
      checkRecord s (s.placerAgent rk) rg.imgva (some (handleW rg.handle, handleH rg.handle)) = .error e →
      exec (.regionRestore rk) s = .next (dropPlace s rk))
    ∧ (∀ im m z, rg.image = some im → rg.st = 4 → rg.hand = [] → (s.cell (cellAt rg.handle 0 0)).owner = some rk →
      checkRecord s (s.placerAgent rk) rg.imgva (some (handleW rg.handle, handleH rg.handle)) = .ok (.good m z) →
      writeCells z rg.handle (m.cells.filter fun q => !q.1.isUnused) = .ok t →
      ∃ v, exec (.regionRestore rk) s = .next (settle v rk) ∧ (rg.fn = [] → (v.region rk).st = 3 ∧ (v.region rk).image = none))
    ∧ (∀ slot, (AMap.get? (s.cell key).sw slot).isSome = true → exec (.overlayLoadComplete rk x y slot) s = .next s)
    ∧ (∀ slot ow va bs b, rg.st = 3 → AMap.get? (s.cell key).sw slot = none →
      let blk := (rg.blockAt x y slot).getD 0
      let o := takeOver s key slot
      (s.cell key).ow.find? (fun q => owSlot q.1 == slot && (owPlace q.1).blk == blk) = some (ow, va) →
      (readBlock o.2 (o.2.placerAgent rk) va = .ok (bs, b, t) → block57 bs b = true →
        (AMap.getD (s.cell key).store slot {}).gen = 0xFFFF#16 → exec (.overlayLoadComplete rk x y slot) s =
          .next (settle (overlayFault t rk blk o.1 0x09 (w64 (64 * slot))) rk))
      ∧ (readBlock o.2 (o.2.placerAgent rk) va = .ok (bs, b, t) → block57 bs b = true →
        (AMap.getD (s.cell key).store slot {}).gen ≠ 0xFFFF#16 → exec (.overlayLoadComplete rk x y slot) s =
        .next (settle (o.1.foldl (fun s m => arrive s rk m) (t.modCell key fun c => fillSlot c slot ow (b.entries (owPlace ow).cellNo) rg.gen)) rk))
      ∧ (∀ e, readBlock o.2 (o.2.placerAgent rk) va = .error e → exec (.overlayLoadComplete rk x y slot) s =
        .next (settle (overlayFault o.2 rk blk o.1 0x10 (w64 blk)) rk)))
    ∧ (∀ v desc d ws, readDesc s (s.devAgent v 0) desc = .ok (d, t) → d.placed ≠ 0#64 → d.moorq ≠ 0#64 →
      let k := rkeyOf v d.placed
      (t.region k).st = 3 → (t.region k).wave = none → ringPeek t (s.devAgent v 0) d.moorq 3 = some ws →
      let u := settle (sendMoored (ringPop t (s.devAgent v 0) d.moorq) k (s.devAgent v 0) desc d ws) k
      exec (.moorDelivery v desc) s = .next (if (ringPeek u (s.devAgent v 0) d.moorq 3).isSome then u.onceAfter 1 (.moorDelivery v desc) else u))
    ∧ (∀ v desc e, readDesc s (s.devAgent v 0) desc = .error e → exec (.moorDelivery v desc) s = .next s)

/-! ## Engines -/

/-- Copies as events (R384, R391-R393, R405): a queued command takes a free stream, or ends with DEADLINE where its time has passed, and pauses FENCED in a
fenced cove; an element that waits leaves the command running, one that faults pauses it, the last one ends it; a completion writes its
word and frees the entry, a pause its own; a replayed output is written to its place and a recorded one becomes the key's. The
scrubber counts what it corrects and marks what it cannot. -/
def Obligations.CopyEvents : Prop :=
  ∀ (s t : State) (cove : Nat) (c : CopyCmd),
    let one := (s.cove cove).cmds = [c]
    let d := pkW c.pk 1
    (one → c.st = .queued → (s.cove cove).fenced = false →
      (d ≠ 0#64 → d.toNat < s.now → exec (.copyStart cove) s = .next (copyEnd s cove c.id 0xFF#8))
      ∧ ((d = 0#64 ∨ s.now ≤ d.toNat) → ∃ u c', exec (.copyStart cove) s = .next u ∧ (u.cove cove).cmds = [c'] ∧ c'.st = .running
        ∧ c'.pk = c.pk ∧ c'.pos = c.pos ∧ u.duties.any (fun d => d.work == .ev (.copyBeat cove)) = true))
    ∧ (one → c.st = .queued → (s.cove cove).fenced = true →
      exec (.copyStart cove) s = .next (copyFault s cove c.id { cause := 0x19, tval := w64 cove }))
    ∧ ((∀ c ∈ (s.cove cove).cmds, c.st ≠ .running) → exec (.copyBeat cove) s = .next s)
    ∧ (one → c.st = .running → c.pos < cpTotal c.pk → s.poison = [] →
      (moveElem s cove c (c.elem c.pos) = .wait → exec (.copyBeat cove) s = .next (s.onceAfter 1 (.copyBeat cove)))
      ∧ (∀ f, moveElem s cove c (c.elem c.pos) = .fault f →
        exec (.copyBeat cove) s = .next ((copyFault s cove c.id f).modCove cove fun v => { v with turn := c.id }))
      ∧ ∀ c', moveElem s cove c (c.elem c.pos) = .done t → (t.cove cove).cmds = [c'] → c'.id = c.id → cpTotal c'.pk ≤ c'.pos →
        exec (.copyBeat cove) s = .next ((copyEnd t cove c.id 0#8).modCove cove fun v => { v with turn := c.id }))
    ∧ (∀ id, s.cmd? cove id = none → exec (.copyComplete cove id) s = .next s ∧ exec (.copyPause cove id) s = .next s)
    ∧ (∀ id, s.cmd? cove id = some c → c.st = .ending →
      let late := d != 0#64 && c.status != 0xFF#8 && decide (d.toNat < s.now)
      exec (.copyComplete cove id) s = .next (((writeCw s cove c (cwWord c false late)).modCove cove
        fun v => { v with cmds := v.cmds.filter fun c => c.id != id }).onceAfter 1 (.copyStart cove)))
    ∧ (∀ id, s.cmd? cove id = some c → c.st = .paused → exec (.copyPause cove id) s =
      .next (modFeed (writeCw s cove c (cwWord c true false)) c fun q => { q with flt := true, cause := c.status }))
    ∧ (∀ q v k cc, (s.quad q).copies.find? (fun c => c.vmid == v && c.key == k && !c.record) = some cc →
      let r := rangeWrite { vmid := v, troot := cc.troot, sup := true, core := none, cove := 64 * q } (cc.data.length / 64) s cc.ova cc.data
      let u := r.2.modQuad q fun x => { x with copies := x.copies.erase cc }
      (r.1 = true → exec (.replayCopyComplete q v k) s = .next u)
      ∧ (r.1 = false → exec (.replayCopyComplete q v k) s = .next (u.setRkey q v k { u.rkey q v k with valid := false, pend := false })))
    ∧ (∀ q v k cc, (s.quad q).copies.find? (fun c => c.vmid == v && c.key == k && c.record) = some cc →
      let u := s.modQuad q fun x => { x with copies := x.copies.erase cc }
      exec (.recordCopyComplete q v k) s = .next (u.setRkey q v k { u.rkey q v k with outb := cc.data, pend := false }))
    ∧ exec (.patrolScrub []) s = .next s
    ∧ exec (.patrolScrub [.corrected]) s = .next (s.countEcc 0x20)
    ∧ (let log (h : EccHit) (u : State) : Out := .next (u.modMgmt fun m => { m with eccLog := m.eccLog ++ [h] })
      (∀ pa, poisonable s pa = true → exec (.patrolScrub [.line pa]) s =
        log (.line pa) (({ s with poison := AMap.set s.poison (pa / 64) () } : State).countEcc 0x21))
      ∧ (∀ cell slot idx cx it, (s.cell cell).ms.any (fun e => e.key slot idx cx it) = true →
        exec (.patrolScrub [.entry cell slot idx cx it]) s = log (.entry cell slot idx cx it) (poisonEntry s cell slot idx cx it))
      ∧ ∀ w o, debugObj w = some o → exec (.patrolScrub [.object w]) s = log (.object w) (poisonObject s o))

/-! ## Host and management -/

/-- The host's side (R2, R247, R287, R288, R467-R471, R485): bytes of a free packet slot are stored and its last 8 bytes make an ingress token; a locked slot keeps its bytes,
and overrunning it sets OVR; a host write is performed at its home, a read changes nothing; TSYNC takes effect as a pair; an
offset without a register ignores the write; a vector raised while masked is sent once it is unmasked. A launch packet with a bad field
completes with 0xFE, one past its deadline as its dependences are met with 0xFF; one whose dependences are not full waits, else its
task or start token is sent and the packet is consumed, or the packet waits for room; no step is made twice. A host write that gives
the RESULT of a parked host callback wakes the call. -/
def Obligations.HostEvents : Prop :=
  ∀ (s : State) (q : Nat),
    let qu := s.queue q
    (∀ sl w, sl < 64 → (qu.bound = false → exec (.packetIngress q sl w) s = .next s)
      ∧ (qu.bound = true → qu.ingress.contains sl = true →
        exec (.packetIngress q sl w) s = .next ((s.setQueue q { qu with ovr := true }).count qu.vmid .winOvr))
      ∧ (qu.bound = true → qu.ingress.contains sl = false → ∃ u, exec (.packetIngress q sl w) s = .next u
        ∧ (u.queue q).ingress = qu.ingress ++ [sl] ∧ (u.queue q).window = Bytes.wrN qu.window (64 * sl + 56) (natBytes 8 w.toNat)
        ∧ u.mem = s.mem ∧ u.slots = s.slots ∧ (qu.kind = 3 → u.mgmt.tokens = s.mgmt.tokens ++ [q])))
    ∧ (∀ off data, data ≠ [] → off % 64 + data.length ≤ 56 →
      (qu.bound = true → qu.ingress.contains (off / 64) = false →
        exec (.queueWindowWrite q off data) s = .next (s.setQueue q { qu with window := Bytes.wrN qu.window off data }))
      ∧ ((qu.bound = false ∨ qu.ingress.contains (off / 64) = true) → exec (.queueWindowWrite q off data) s = .next s))
    ∧ (∀ pa n bs, exec (.hostMemoryAccess false pa n bs) s = .next s
      ∧ (pa < 2 ^ 52 → s.tier pa ≠ .none → exec (.hostMemoryAccess true pa n bs) s = .next (hostWakes (s.homeWrite none pa bs) pa bs.length))
      ∧ (pa < 2 ^ 52 → s.tier pa = .none → exec (.hostMemoryAccess true pa n bs) s = .next s))
    ∧ (∀ a b, ∃ u, exec (.tsyncWrite a b) s = .next u ∧ u.mgmt.time.tsync = some (a, b) ∧ u.mgmt.time.ns = s.mgmt.time.ns
      ∧ u = s.modMgmt fun m => { m with time := u.mgmt.time })
    ∧ (∀ off, exec (.registerWriteIgnored off) s = .next s)
    ∧ (∀ fn vec, let v : Msix := { fn := fn, vec := vec }
      ∃ u, exec (.msixUnmask fn vec) s = .next u ∧ v ∉ u.mgmt.pending ∧ u.mgmt.masked = s.mgmt.masked.erase v
        ∧ (v ∈ s.mgmt.pending → u.mgmt.sent = s.mgmt.sent ++ [v]) ∧ (v ∉ s.mgmt.pending → u.mgmt.sent = s.mgmt.sent)
        ∧ u = { s with mgmt := u.mgmt })
    ∧ ∀ (t : State),
      let p := launchPkt (packetBytes qu (qu.cons.toNat % 64))
      let ag := s.devAgent qu.vmid 0
      let here := (qu.bound && !qu.stopped && qu.ingress.contains (qu.cons.toNat % 64)) = true
      let late := p.dead ≠ 0#64 ∧ p.dead.toNat < s.now
      let again (u : State) (n : Nat) : State :=
        (u.modQueue q fun qu => { qu with met := n }).after 1 (if qu.kind = 1 then .lTaskLaunch q else .gLaunch q)
      let launch (i : Instr) (ok : Bool) (go : State → Dispatched) : Prop :=
        let good := p.kind = qu.kind ∧ pktOk s ag p = true ∧ ok = true
        (¬ here → exec i s = .next s)
        ∧ (here → qu.met = 0 → ¬ good → exec i s = .next (endPacket s q p.done 0xFE))
        ∧ (here → (qu.met = 0 → good) →
          (qu.met < 3 → depsFull s ag p = false → exec i s = .next (again s 1))
          ∧ (qu.met < 3 → depsFull s ag p = true → late → exec i s = .next (endPacket s q p.done 0xFF))
          ∧ ((3 ≤ qu.met ∨ depsFull s ag p = true ∧ ¬ late) →
            (go s = .held t → exec i s = .next (again t 3)) ∧ (go s = .go t → exec i s = .next ((consume t q).wakeQueue q 1))))
      launch (.lTaskLaunch q) (fld p.fptr 1 0 = 0 && (match translate s ag p.fptr .r with | .ok (a, s) => s.tier a.pa != .cxl | .error _ => false)
        && !(maskCores qu).isEmpty) (startTask q ag p)
      ∧ launch (.gLaunch q) (gLaunchOk s ag p) (startGraph q ag p)
      ∧ ∀ e, launchFrame s ag q p = some e →
        (∀ u, pushBottom e (leastCore s q (maskCores qu)) { ptr := p.fptr, frame := p.frame, slot := 0#3, dom := 3#3, queue := q } = some u →
          startTask q ag p s = .go u)
        ∧ ∀ u, postStart e qu.vmid 0 q p.fptr p.frame = .sent u → startGraph q ag p s = .go u

/-- Management commands (R471-R482, R487-R489): a packet that is not the next one does nothing; a command marked H is NOPRIV on a tenant's queue and is
entered in the audit log; one with a bad argument is BADARG and changes nothing else; one
without a free generation is tried again; else its effect is whole before its completion
word, whose status is 0. An unknown command is BADCMD. -/
def Obligations.Commands : Prop :=
  ∀ (s t : State) (q : Nat) (p : MPkt),
    let fin (h : Bool) (cmd st res : Nat) (u : State) : State :=
      endCommand (if h then u.audit cmd q (u.queue q).vmid p.a0 p.a1 p.a2 st else u) q cmd p st res
    let here (e : Ev) : Prop := nextPacket s q = some e
    let host := isHostQ s q = true
    let ends (i : Instr) (u : State) : Prop := exec i s = .next u
    let bad (i : Instr) (cmd st : Nat) (h : Bool) : Prop := ends i (fin h cmd st 0 s)
    let v := p.a0.toNat
    let own := (isHostQ s q = true ∨ v = (s.queue q).vmid) ∧ v < 64 ∧ (s.tenant v).present = true
    (∀ e ∈ [(Ev.tenantCreate q p, Instr.tenantCreate q p, 1), (.tenantDestroy q p, .tenantDestroy q p, 2), (.queueBind q p, .queueBind q p, 3),
        (.queueUnbind q p, .queueUnbind q p, 4), (.windowMap q p, .windowMap q p, 5), (.genWrap q p, .genWrap q p, 8),
        (.fenceUnit q p, .fenceUnit q p, 9), (.islandSet q p, .islandSet q p, 10), (.powerCap q p, .powerCap q p, 11), (.timeSet q p, .timeSet q p, 12),
        (.timeCfg q p, .timeCfg q p, 13), (.fwUpdate q p, .fwUpdate q p, 16), (.debugRead q p, .debugRead q p, 17),
        (.debugWrite q p, .debugWrite q p, 18), (.regionSwap q p, .regionSwap q p, 22)],
      (nextPacket s q ≠ some e.1 → ends e.2.1 s) ∧ (here e.1 → isHostQ s q = false → bad e.2.1 e.2.2 0xE2 true))
    ∧ (∀ e ∈ [(Ev.tideSet q p, Instr.tideSet q p, 6), (.tlbShoot q p, .tlbShoot q p, 7), (.imageVerify q p, .imageVerify q p, 14),
        (.attestQuote q p, .attestQuote q p, 15), (.infoRead q p, .infoRead q p, 19), (.countRead q p, .countRead q p, 20),
        (.traceCfg q p, .traceCfg q p, 21)], nextPacket s q ≠ some e.1 → ends e.2.1 s)
    ∧ (here (.tenantCreate q p) → host → ∀ bs g u, cmdRead s q p.a0 256 = some (bs, u) →
      let a := tenantArgs bs
      let ag : Agent := { vmid := p.a1.toNat, troot := a.troot, sup := true, core := none, cove := 0 }
      let ok := p.a1.toNat < 64 ∧ (u.tenant p.a1.toNat).present = false ∧ argsOk a bs = true
        ∧ (tenantAreas a).all (areaMapped { u.setTenant p.a1.toNat { present := true, args := a } with coves := [] } ag) = true
      (¬ ok → ends (.tenantCreate q p) (fin true 1 0xE3 0 s))
      ∧ (ok → u.newGen = (none, t) → ends (.tenantCreate q p) (t.after 1 (.tenantCreate q p)))
      ∧ (ok → u.newGen = (some g, t) → ∃ z, ends (.tenantCreate q p) (fin true 1 0 p.a1.toNat z)
        ∧ z.tenant p.a1.toNat = { present := true, args := a, gen := g } ∧ ∀ k, k ≠ p.a1.toNat → z.tenant k = t.tenant k))
    ∧ (here (.tenantDestroy q p) → host →
      (v < 64 → (s.tenant v).present = true → ends (.tenantDestroy q p) (fin true 2 0 0 (destroyTenant s v)) ∧ (destroyTenant s v).tenant v = {})
      ∧ ((64 ≤ v ∨ (s.tenant v).present = false) → bad (.tenantDestroy q p) 2 0xE3 true))
    ∧ (here (.queueBind q p) → host → (bindOk s p = false → bad (.queueBind q p) 3 0xE3 true)
      ∧ (bindOk s p = true → queueBusy s v = true → bad (.queueBind q p) 3 0xE3 true)
      ∧ (∀ bs u, bindOk s p = true → queueBusy s v = false → cmdRead s q p.a2 32 = some (bs, u) → u.newGen = (none, t) →
        ends (.queueBind q p) (t.after 1 (.queueBind q p)))
      ∧ ∀ bs u g, bindOk s p = true → queueBusy s v = false → cmdRead s q p.a2 32 = some (bs, u) → u.newGen = (some g, t) →
        ends (.queueBind q p) (fin true 3 0 0 (t.setQueue v
          { bound := true, vmid := fld p.a1 7 0, kind := fld p.a1 9 8, cls := p.a1.extractLsb' 10 2, weight := fld p.a1 19 12
            dom := p.a1.extractLsb' 20 3, trapMode := bitAt p.a1 23, mask := BitVec.ofNat 256 (bytesNat bs), spillVa := p.a3
            spillN := p.a4.toNat, gen := g })))
    ∧ (here (.queueUnbind q p) → host →
      (v < 2048 → (s.queue v).bound = true → v ≠ q → ends (.queueUnbind q p) (fin true 4 0 0 (unbindQueue s v)) ∧ ((unbindQueue s v).queue v).bound = false)
      ∧ ((2048 ≤ v ∨ (s.queue v).bound = false ∨ v = q) → bad (.queueUnbind q p) 4 0xE3 true))
    ∧ (here (.windowMap q p) → host →
      (v < 64 → p.a3 = 0#64 → ends (.windowMap q p) (fin true 5 0 0 (s.modMgmt fun m => { m with windows := AMap.del m.windows v })))
      ∧ (v < 64 → p.a3 = 1#64 → p.a1.toNat < 64 → (s.tenant p.a1.toNat).present = true → fld p.a2 29 0 = 0 → fld p.a2 63 52 = 0 →
        ends (.windowMap q p) (fin true 5 0 0 (s.modMgmt fun m => { m with windows := AMap.set m.windows v { vmid := p.a1.toNat, ipa := p.a2 } })))
      ∧ (64 ≤ v → bad (.windowMap q p) 5 0xE3 true))
    ∧ (here (.tideSet q p) → own → p.a1.toNat < 4096 →
      let d : Tide := { base := p.a2.extractLsb' 21 34, size := p.a3.extractLsb' 32 16, p := p.a3.extractLsb' 48 16 }
      (bitAt p.a3 0 = true → d.p = 0#16 → bad (.tideSet q p) 6 0xE3 false)
      ∧ ((bitAt p.a3 0 = false ∨ (d.p ≠ 0#16 ∧ (s.tenant v).tides.any (fun o => o.1 != p.a1.toNat && tidesMeet o.2 d) = false)) →
        ∃ z, ends (.tideSet q p) (fin false 6 0 0 z) ∧ AMap.get? (z.tenant v).tides p.a1.toNat = if bitAt p.a3 0 then some d else none))
    ∧ (here (.tideSet q p) → isHostQ s q = false → v ≠ (s.queue q).vmid → bad (.tideSet q p) 6 0xE2 false)
    ∧ (here (.tlbShoot q p) → (isHostQ s q = true ∨ fld p.a0 5 0 = (s.queue q).vmid) → (s.tenant (fld p.a0 5 0)).present = true →
      let as (g : Bool) (a : Nat) : Bool := bitAt p.a0 6 || g || a == fld p.a0 31 16
      ends (.tlbShoot q p) (fin false 7 0 0 (dropTlb s (fld p.a0 5 0) (fun e => e.vmid == fld p.a0 5 0 && as e.glob e.asid && inRange p.a1 p.a2 (e.vpn * 2 ^ e.size) (2 ^ e.size))
        (fun l => l.vmid == fld p.a0 5 0 && as false l.asid && inRange p.a1 p.a2 (l.va % 2 ^ 55) 64))))
    ∧ (here (.genWrap q p) → host → ends (.genWrap q p) (fin true 8 0 0 (wrapGens s)))
    ∧ (s.mgmt.wrapping = true → ends .genWrapComplete (wrapGens s)) ∧ (s.mgmt.wrapping = false → ends .genWrapComplete s)
    ∧ (here (.fenceUnit q p) → host →
      let ok := (fenceOk (fld p.a0 2 0) p.a1.toNat && fld p.a0 63 4 == 0) = true
      (¬ ok → bad (.fenceUnit q p) 9 0xE3 true)
      ∧ (ok → ends (.fenceUnit q p) (fin true 9 0 0 (if bitAt p.a0 3 then unfenceUnit s (fld p.a0 2 0) p.a1.toNat else fenceUnit s (fld p.a0 2 0) p.a1.toNat))))
    ∧ (here (.islandSet q p) → host → v < 1024 → let f := p.a1.toNat
      (350 ≤ f → f ≤ 1200 → f % 25 = 0 → ends (.islandSet q p) (fin true 10 0 0
        ((s.modCore v fun c => { c with ceiling := f }).after (8 - s.clk % 8) (.islandFreqChange v))))
      ∧ ((f < 350 ∨ 1200 < f ∨ f % 25 ≠ 0) → bad (.islandSet q p) 10 0xE3 true))
    ∧ (here (.powerCap q p) → host → (400 ≤ v → v ≤ 1600 → ends (.powerCap q p) (fin true 11 0 0 (s.modMgmt fun m => { m with cap := v })))
      ∧ ((v < 400 ∨ 1600 < v) → bad (.powerCap q p) 11 0xE3 true))
    ∧ (here (.timeSet q p) → host → (s.now ≤ v → ∃ z, ends (.timeSet q p) (fin true 12 0 0 z) ∧ z.mgmt.time.ns = v ∧ z.mgmt.auditN = s.mgmt.auditN + 1)
      ∧ (v < s.now → bad (.timeSet q p) 12 0xE3 true))
    ∧ (here (.timeCfg q p) → host → (v < 3 → ∃ z, ends (.timeCfg q p) (fin true 13 0 0 z) ∧ z.mgmt.time.src.toNat = v ∧ z.mgmt.time.near = 0)
      ∧ (3 ≤ v → bad (.timeCfg q p) 13 0xE3 true))
    ∧ (here (.imageVerify q p) → ∀ im u, cmdRead s q p.a0 p.a1.toNat = some (im, u) →
      (host → ends (.imageVerify q p) (fin false 14 0xE6 0 s))
      ∧ (isHostQ s q = false → ∀ ks sig k z,
        let n := (s.queue q).vmid
        let a := (u.tenant n).args
        let d := sha512 (signedBytes im)
        isHostQ u q = false → cmdRead u q a.keys (144 * a.keyn.toNat) = some (ks, z) → sigOf im = some sig →
        findKey ks (bytesNat (sig.take 8)) a.keyn.toNat = some k →
        let good := ecdsaOk d (beNat (k.take 66)) (beNat ((k.drop 66).take 66)) (beNat ((sig.drop 8).take 66)) (beNat ((sig.drop 74).take 66))
        (good = false → bad (.imageVerify q p) 14 0xE6 false)
        ∧ (good = true → ends (.imageVerify q p) (fin false 14 0 0
          (z.modTenant n fun t => { t with mten := BitVec.ofNat 512 (bytesNat (sha512 (vecBytes 64 t.mten ++ d))) })))))
    ∧ (here (.attestQuote q p) → ∀ nonce u w, cmdRead s q p.a0 64 = some (nonce, u) →
      let body := quoteBody u (u.queue q).vmid nonce
      cmdWrite { u with freeCtr := u.freeCtr + 1 } q p.resp (fixLen 448 (body ++ fixLen 132 (Config.identitySign u.freeCtr (sha512 body)))) = some w →
      p.resp ≠ 0#64 → ends (.attestQuote q p) (fin false 15 0 0 w))
    ∧ (here (.fwUpdate q p) → host → ∀ pk u, cmdRead s q p.a0 p.a1.toNat = some (pk, u) →
      (Config.packageSigned pk = false → bad (.fwUpdate q p) 16 0xE6 true)
      ∧ (Config.packageSigned pk = true → Config.packageVersion pk ≤ u.mgmt.rollback → bad (.fwUpdate q p) 16 0xE7 true)
      ∧ (Config.packageSigned pk = true → u.mgmt.rollback < Config.packageVersion pk →
        ends (.fwUpdate q p) (fin true 16 0 0 (u.modMgmt fun m => { m with flash := pk, flashVer := some (Config.packageVersion pk) }))))
    ∧ (∀ i e cmd h bs, (e, i, cmd, h, bs) ∈ ([(.debugRead q p, .debugRead q p, 17, true,
          (debugObj p.a0).elim [] fun o => (debugRead s o).1 ++ natBytes 8 (debugRead s o).2.toNat),
          (.infoRead q p, .infoRead q p, 19, false, infoBlock s),
          (.countRead q p, .countRead q p, 20, false, natBytes 8 ((counter s v p.a1.toNat).getD 0))] : List (Ev × Instr × Nat × Bool × List Byte)) →
      here e → (h = true → host) → (cmd = 17 → (debugObj p.a0).isSome) → (cmd = 20 → own ∧ p.a1.toNat ≠ 0x20 ∧ p.a1.toNat ≠ 0x21 ∧ (counter s v p.a1.toNat).isSome) →
      (p.resp = 0#64 → ends i (fin h cmd 0 0 s))
      ∧ (p.resp ≠ 0#64 → cmdWrite s q p.resp bs = none → bad i cmd 0xE8 h)
      ∧ (p.resp ≠ 0#64 → cmdWrite s q p.resp bs = some t → ends i (fin h cmd 0 0 t)))
    ∧ (here (.debugWrite q p) → host → ∀ o bs u, debugObj p.a0 = some o → cmdRead s q p.a1 64 = some (bs, u) →
      (p.a2.toNat ≤ 0xFFFE → ends (.debugWrite q p) (fin true 18 0 0 (debugWrite u o bs (p.a2.extractLsb' 0 16))))
      ∧ (0xFFFE < p.a2.toNat → bad (.debugWrite q p) 18 0xE3 true))
    ∧ (here (.traceCfg q p) → own → ends (.traceCfg q p) (fin false 21 0 0 (s.modTenant v fun t => { t with trmask := p.a1 })))
    ∧ (here (.regionSwap q p) → host →
      let rk : RKey := { vmid := v, ridx := p.a1.toNat }
      (v < 64 → p.a1.toNat < 256 → p.a2 = 0#64 → (s.region rk).st = 3 → (s.region rk).wave = none → ends (.regionSwap q p) (fin true 22 0 0 (startWave s rk false)))
      ∧ (v < 64 → p.a1.toNat < 256 → p.a2 = 1#64 → (s.region rk).st = 4 →
        ends (.regionSwap q p) (fin true 22 0 0 (s.askPlacer (handleQuad (s.region rk).handle) (restoreReq s rk))))
      ∧ ((64 ≤ v ∨ 256 ≤ p.a1.toNat ∨ 2 ≤ p.a2.toNat) → bad (.regionSwap q p) 22 0xE3 true))
    ∧ (∀ c, here (.badcmd q c p) → bad (.badcmd q c p) c.toNat 0xE1 false)

/-- Power, heat, time and reset (R447, R483-R486, R489, R513-R516): an island runs at the lowest of its ceiling and limits; a die at 105 degrees
or a supply out of limits stops the module; the power record goes to every tenant that enables it; a reference sets OFFS, which ends
HOLD, and 3 s without one set it; a well-formed message names the seconds of the next edge; a reset leaves every unit at its
reset contents, with the flash and the fused counter as they were. A word without a meaning faults ILLEGAL with the word, a fetch that
stage 1 refuses PAGE_X. -/
def Obligations.PowerTimeReset : Prop :=
  ∀ (s : State),
    (∀ i, exec (.islandFreqChange i) s = .next (s.modCore i fun c =>
      { c with mhz := min (s.core i).ceiling (min (AMap.getD s.mgmt.capMhz i 1200) (AMap.getD s.mgmt.hotMhz i 1200)) }))
    ∧ (∀ mw a b c d, (105000 ≤ a ∨ 105000 ≤ b ∨ 105000 ≤ c ∨ 105000 ≤ d) → exec (.powerSample mw [a, b, c, d]) s = .next (powerLost s))
    ∧ (∀ mw a b c d, a < 105000 → b < 105000 → c < 105000 → d < 105000 → ∃ t, exec (.powerSample mw [a, b, c, d]) s = .next t
      ∧ t.mgmt.temps = [a, b, c, d] ∧ t.mgmt.power = (s.mgmt.power ++ [mw]).drop (s.mgmt.power.length - 9))
    ∧ exec .supplyOutOfLimits s = .next (powerLost s) ∧ (powerLost s).mgmt.off = true
    ∧ exec .powerTrace s = .next ((AMap.keys s.tenants).foldl (fun u v => u.trace v 5 0 0x31 (w64 (powerAverage s.mgmt))
        (BitVec.ofInt 64 (s.mgmt.temps.foldl max (s.mgmt.temps.getD 0 0)))) s)
    ∧ (∀ x root t, s.mgmt.time.src = 1#2 → s.mgmt.time.tsync = some (root, t) → ∃ u, exec (.ptmExchange x) s = .next u
      ∧ u.mgmt.time.offs = (t.toNat : Int) + x.toNat - root.toNat - s.now ∧ u.mgmt.time.hold = false ∧ u.mem = s.mem ∧ u.slots = s.slots)
    ∧ (∀ x, (s.mgmt.time.src ≠ 1#2 ∨ s.mgmt.time.tsync = none) → exec (.ptmExchange x) s = .next s)
    ∧ (s.mgmt.time.tod = none → exec .ppsEdge s = .next s)
    ∧ (∀ sec, s.mgmt.time.tod = some sec → ∃ u, exec .ppsEdge s = .next u ∧ u.mgmt.time.tod = none
      ∧ (s.mgmt.time.src = 2#2 → u.mgmt.time.offs = 1000000000 * (sec : Int) - s.now) ∧ (s.mgmt.time.src ≠ 2#2 → u.mgmt.time.offs = s.mgmt.time.offs))
    ∧ (∀ b0 b1 b2 b3 b4 b5 b6 b7 b8 ck : Byte, let body := [b0, b1, b2, b3, b4, b5, b6, b7]
      (b8.getLsbD 0 = true → ck = b0 + b1 + b2 + b3 + b4 + b5 + b6 + b7 + b8 → ∃ u, exec (.todMessage ([0xA5#8, 0x5A#8] ++ body ++ [b8, ck])) s = .next u
        ∧ u.mgmt.time.tod = some (bytesNat body))
      ∧ ((b8.getLsbD 0 = false ∨ ck ≠ b0 + b1 + b2 + b3 + b4 + b5 + b6 + b7 + b8) → exec (.todMessage ([0xA5#8, 0x5A#8] ++ body ++ [b8, ck])) s = .next s))
    ∧ (s.mgmt.time.lastRef + 3000000000 ≤ s.now → exec .timeHoldover s =
      .next (s.modMgmt fun m => { m with time := { m.time with hold := true } }))
    ∧ (s.now < s.mgmt.time.lastRef + 2999000000 → exec .timeHoldover s = .next s)
    ∧ (∀ i ∈ [Instr.coldReset, .warmReset], ∃ t, exec i s = .next t ∧ t.mem = [] ∧ t.slots = [] ∧ t.cores = [] ∧ t.coves = [] ∧ t.cells = [] ∧ t.regions = []
      ∧ t.tenants = [] ∧ t.queues = [(0, Queue.host)] ∧ t.duties = [] ∧ t.feEmpty = [] ∧ t.poison = [] ∧ t.fit = s.fit ∧ t.mgmt.off = false
      ∧ t.mgmt.time = {} ∧ t.mgmt.genNext = 1 ∧ t.mgmt.flash = s.mgmt.flash ∧ t.mgmt.rollback = s.mgmt.flashVer.getD s.mgmt.rollback)
    ∧ (∀ w, exec (.illegalInstruction w) s = .next (s.takeTrap { cause := 0x01, tval := w.setWidth 64 }))
    ∧ ∀ va, exec (.fetchPageX va) s = .next (s.takeTrap { cause := 0x06, tval := va })

/-! ## Decoding and the step -/

/-- The words of the L-set (R30-R50, R60), both ways: the word that a well-formed instruction encodes to decodes to it (three
pairs of rows share their words: `coreForm`), and a word that decodes to an instruction is that instruction's word, which
is well formed. -/
def Obligations.LanternCodec : Prop :=
  ∀ (i : Instr) (w : BitVec 32),
    (i.wf = true → encodeL i = some w → decodeL w = .ok (coreForm i)) ∧ (decodeL w = .ok i → i.wf = true ∧ encodeL i = some w)

/-- The words of the G-set (R51-R57), both ways: every node has a word, that of a well-formed node decodes to it, and a
word that decodes to a node is that node's word, which is well formed. -/
def Obligations.NodeCodec : Prop :=
  ∀ (i : Instr) (w : BitVec 64),
    ((nodeOf i).isSome = true → (encodeG i).isSome = true) ∧ (i.wf = true → encodeG i = some w → decodeG w = .ok i)
    ∧ (decodeG w = .ok i → i.wf = true ∧ encodeG i = some w)

/-- Words that the spec writes out, decoded (R47, R123, R133, R136, R222, R252, R310, R333 and the examples of the
encoding tables), and words that it refuses. -/
def Obligations.DecodeWords : Prop :=
  decodeL 0x00000073#32 = .ok .ecall ∧ decodeL 0x00100073#32 = .ok .ebreak ∧ decodeL 0x3000107B#32 = .ok .msgRet
  ∧ decodeL 0x6000107B#32 = .ok .yield ∧ decodeL 0x8662A20B#32 = .ok (.vfma true .bf16 4#5 5#5 6#5)
  ∧ decodeL 0x0AB6552B#32 = .ok (.amoAdd .rel true .dv 10#5 12#5 11#5)
  ∧ decodeL 0x3010015B#32 = .ok (.mxMma 2#3 0#3 1#3) ∧ decodeL 0x0693007B#32 = .ok (.fork .cove 6#5 9#5)
  ∧ (∀ w : BitVec 32, w.extractLsb' 0 2 ≠ 3#2 → decodeL w = .error .compressed)
  ∧ decodeL 0x30200073#32 = .error .reserved ∧ decodeL 0x00003003#32 = .ok (.load .ld 0#5 0#5 0#12)
  ∧ decodeL 0x00007003#32 = .error .reserved

/-- A step runs the instruction that the bytes at the program counter decode to (R19, R30, R60, R108, R122; log 1): of the slot
whose turn it is, after a message that can be delivered; a waiting instruction goes on as itself, in the clk in which its wait is over (R111); bytes that decode to none are
ILLEGAL and a page that is not executable PAGE_X. An event, or a firing, that is due runs as its own instruction. -/
def Obligations.StepRunsInstructions : Prop :=
  ∀ (s : State) (r : List Turn), (s.mgmt.off = false ∨ s.resets = true) →
    (∀ n, (s.turns = .issue n :: r ∨ (s.turns = [] ∧ r = [] ∧ deadGen s = none ∧ nextDue s = none ∧ nextReady s = none ∧ nextIssue s = some n)) →
      let u := markIssue { s with turns := r, cur := n, stall := 0, walked := false } n
      (canDeliver u n = true → step s = exec (.messageDelivery n) u)
      ∧ (canDeliver u n = false → (u.slot n).wait = .run →
        (∀ (b0 b1 b2 b3 : Byte) (t : State), fetchBytes u = .ok ([b0, b1, b2, b3], t) → windowFull t.me [b0, b1, b2, b3] = false →
          (∀ i, decodeL (b3 ++ b2 ++ b1 ++ b0) = .ok i → step s = afterIssue n (exec i t))
          ∧ ∀ e, decodeL (b3 ++ b2 ++ b1 ++ b0) = .error e → step s = afterIssue n (exec (.illegalInstruction (b3 ++ b2 ++ b1 ++ b0)) t))
        ∧ ∀ t, fetchBytes u = .error t → t.cause = 0x06 → step s = afterIssue n (exec (.fetchPageX u.me.pc) u))
      ∧ ∀ k i t a, canDeliver u n = false → (u.slot n).wait = .resume k i t a → step s = afterIssue n (exec i u))
    ∧ (∀ n k i t a, s.turns = [] → deadGen s = none → nextDue s = none → nextReady s = some n →
      ((s.slot n).wait = .resume k i t a ∨ ((s.slot n).wait = .hold k i t a ∧ k ∉ [WaitKind.sync, .tide, .sleep, .msg])) →
      step s = afterIssue n (exec i { resumeSlot s n with cur := n, stall := 0, walked := false }))
    ∧ (∀ i e, eventOf i = some e → s.turns = .event e :: r → step s = exec i { s with turns := r })
    ∧ (∀ k d, (s.turns = .duty k :: r ∨ (s.turns = [] ∧ r = [] ∧ deadGen s = none ∧ nextDue s = some k)) → s.duties[k]? = some d →
      let u : State := { s with turns := r, duties := s.duties.eraseIdx k }
      (∀ i e, eventOf i = some e → d.work = .ev e → step s = exec i u)
      ∧ ∀ i f, d.work = .node i f → step s = exec i { u with fire := some f })
    ∧ ∀ n, s.turns = .pass n :: r → step s = .next (({ s with turns := r } : State).pass n)

/-! ## The whole machine -/

/-- No instruction and no event stops the machine: every fault that the spec names is a next state (R60, R413, R414, R418); a
step stops only while the module has no power (R513, R515), until a reset. -/
def Obligations.NothingStops : Prop :=
  (∀ (i : Instr) (s : State), ∃ t, exec i s = .next t)
  ∧ ∀ s : State, (s.mgmt.off = true → s.resets = false → step s = .fault .powerOff)
    ∧ (s.mgmt.off = false ∨ s.resets = true → ∃ t, step s = .next t)

/-- What reset leaves (R516): every stamped object zero with stamp 0, no tenant, no queue but queue 0, which is a host management
queue, the allocator at 1, the time base 0 and free-running, an empty audit log, zero counters, and memory zero and
full, in its canonical form. -/
def Obligations.ResetState : Prop :=
  let r := State.reset
  r.canonical
  ∧ (∀ n k, AMap.getD (r.slot n).x k {} = {} ∧ AMap.getD (r.slot n).v k {} = {} ∧ AMap.getD (r.slot n).md k {} = {}
    ∧ AMap.getD (r.slot n).q k {} = {} ∧ AMap.getD (r.core n).wbuf k {} = {} ∧ AMap.getD (r.core n).abuf k {} = {}
    ∧ AMap.getD (r.core n).cbuf k {} = {} ∧ AMap.getD (r.core n).td k {} = {} ∧ AMap.getD (r.core n).rt k {} = {}
    ∧ AMap.getD (r.cell n).store k {} = {} ∧ AMap.getD (r.cell n).mem k {} = {})
  ∧ (∀ v, (r.tenant v).present = false) ∧ (∀ q, q ≠ 0 → (r.queue q).bound = false)
  ∧ (r.queue 0).bound = true ∧ (r.queue 0).vmid = 0xFF ∧ (r.queue 0).kind = 3 ∧ (r.queue 0).cls = 0#2 ∧ queueStatus (r.queue 0) = 2 ^ 62
  ∧ r.mgmt.genNext = 1 ∧ r.now = 0 ∧ r.mgmt.time.src = 0#2 ∧ r.mgmt.audit = [] ∧ (∀ v n, (counter r v n).getD 0 = 0)
  ∧ ∀ pa, r.isFull pa = true ∧ r.isPoison pa = false ∧ (r.tier pa ≠ .regs → ∀ n, r.homeRead pa n = List.replicate n 0#8)

/-- Every step keeps the canonical form of memory, of its full/empty bits and marks and of the queue windows, whichever instruction
or event it runs (R185, R200; log 44): an invariant of the model's own representation. -/
def Obligations.CanonicalMemory : Prop :=
  ∀ s t : State, s.canonical → step s = .next t → t.canonical
end

