-- ==== Sys2Proof/Laws/Maps.lean ====
section
/-! SUPPORT. Laws of the sparse collections: reading after writing, the order of the keys, and the canonical form of
byte collections, which every write keeps. -/

namespace Sys2Proof.Machine

namespace AMap

variable {α : Type}

theorem get?_set_self (m : AMap α) (k : Nat) (v : α) : get? (set m k v) k = some v := by
  induction m with
  | nil => simp [set, get?]
  | cons p r ih =>
    obtain ⟨k', v'⟩ := p
    unfold set
    split
    · simp [get?]
    · split
      · simp [get?]
      · simp_all [get?]

theorem get?_set_ne (m : AMap α) {j k : Nat} (v : α) (h : j ≠ k) : get? (set m k v) j = get? m j := by
  induction m with
  | nil => simp [set, get?, h]
  | cons p r ih =>
    obtain ⟨k', v'⟩ := p
    simp only [set]
    split
    · rename_i hk
      simp only [get?, if_neg h]
      split
      · rename_i hj
        rw [if_neg (by omega), if_pos (by omega)]
      · rfl
    · split
      · rename_i hk
        subst hk
        simp [get?, h]
      · simp only [get?]
        split
        · rfl
        · split
          · rfl
          · exact ih

@[simp] theorem getD_set_self (m : AMap α) (k : Nat) (v d : α) : getD (set m k v) k d = v := by
  simp [getD, get?_set_self]

theorem getD_set_ne (m : AMap α) {j k : Nat} (v d : α) (h : j ≠ k) : getD (set m k v) j d = getD m j d := by
  simp [getD, get?_set_ne m v h]

theorem getD_set (m : AMap α) (j k : Nat) (v d : α) : getD (set m k v) j d = if j = k then v else getD m j d := by
  split
  · next h => subst h; simp
  · next h => exact getD_set_ne m v d h

/-- A collection in order below a key. -/
theorem sorted_cons {p : Nat × α} {m : AMap α} :
    sorted (p :: m) = true ↔ sorted m = true ∧ ∀ q ∈ m.head?, p.1 < q.1 := by
  cases m with
  | nil => simp [sorted]
  | cons q r => simp [sorted, And.comm]

theorem sorted_set (m : AMap α) (k : Nat) (v : α) (h : sorted m = true) : sorted (set m k v) = true := by
  induction m with
  | nil => rfl
  | cons p r ih =>
    obtain ⟨k', v'⟩ := p
    rw [sorted_cons] at h
    simp only [set]
    split
    · rw [sorted_cons, sorted_cons]
      exact ⟨h, by simpa⟩
    · split
      · next hk => rw [sorted_cons]; exact ⟨h.1, by rw [hk]; exact h.2⟩
      · rw [sorted_cons]
        refine ⟨ih h.1, ?_⟩
        cases r with
        | nil => simp [set]; omega
        | cons q r' =>
          obtain ⟨kq, vq⟩ := q
          have hq := h.2 (kq, vq) rfl
          simp only [set]
          split
          · simp; omega
          · split
            · simp; omega
            · simpa using hq

theorem mem_lt_of_sorted {m : AMap α} {p : Nat × α} (h : sorted (p :: m) = true) : ∀ q ∈ m, p.1 < q.1 := by
  induction m generalizing p with
  | nil => simp
  | cons a r ih =>
    rw [sorted_cons] at h
    have ha := h.2 a rfl
    intro q hq
    rcases List.mem_cons.1 hq with rfl | hq
    · exact ha
    · exact Nat.lt_trans ha (ih h.1 q hq)

theorem dropWhile_of_sorted {m : AMap α} {p : Nat × α} (h : sorted (p :: m) = true) :
    m.dropWhile (fun q => decide (q.1 ≤ p.1)) = m := by
  cases m with
  | nil => rfl
  | cons a r =>
    have := mem_lt_of_sorted h a (by simp)
    simp [List.dropWhile, Nat.not_le.2 this]

theorem sorted_del (m : AMap α) (k : Nat) (h : sorted m = true) : sorted (del m k) = true := by
  induction m with
  | nil => rfl
  | cons p r ih =>
    obtain ⟨k', v'⟩ := p
    have h' := h
    rw [sorted_cons] at h
    simp only [del]
    split
    · exact h'
    · split
      · next hk => subst hk; rw [dropWhile_of_sorted h']; exact h.1
      · rw [sorted_cons]
        refine ⟨ih h.1, ?_⟩
        cases r with
        | nil => simp [del]
        | cons q r' =>
          obtain ⟨kq, vq⟩ := q
          have hq := h.2 (kq, vq) rfl
          simp only [del]
          split
          · simpa using hq
          · split
            · next hkq =>
              subst hkq
              rw [dropWhile_of_sorted h.1]
              intro a ha
              exact mem_lt_of_sorted h' a (by
                simp only [Option.mem_def] at ha
                exact List.mem_cons_of_mem _ (List.mem_of_mem_head? ha))
            · simpa using hq

theorem get?_of_lt_all {m : AMap α} {k : Nat} (h : ∀ q ∈ m, k < q.1) : get? m k = none := by
  cases m with
  | nil => rfl
  | cons p r =>
    have := h p (by simp)
    simp [get?, this, Nat.ne_of_lt this]

theorem get?_del_self (m : AMap α) (k : Nat) (h : sorted m = true) : get? (del m k) k = none := by
  induction m with
  | nil => rfl
  | cons p r ih =>
    obtain ⟨k', v'⟩ := p
    simp only [del]
    split
    · next hk => simp [get?, hk, Nat.ne_of_lt hk]
    · split
      · next hk =>
        subst hk
        rw [dropWhile_of_sorted h]
        exact get?_of_lt_all (mem_lt_of_sorted h)
      · next h1 h2 =>
        simp only [get?, if_neg h2, if_neg h1]
        exact ih (sorted_cons.1 h).1

theorem get?_del_ne (m : AMap α) {j k : Nat} (hjk : j ≠ k) (h : sorted m = true) : get? (del m k) j = get? m j := by
  induction m with
  | nil => rfl
  | cons p r ih =>
    obtain ⟨k', v'⟩ := p
    simp only [del]
    split
    · rfl
    · split
      · next hk =>
        subst hk
        rw [dropWhile_of_sorted h]
        simp only [get?, if_neg hjk]
        split
        · next hj => exact get?_of_lt_all fun q hq => Nat.lt_trans hj (mem_lt_of_sorted h q hq)
        · rfl
      · simp only [get?]
        split
        · rfl
        · split
          · rfl
          · exact ih (sorted_cons.1 h).1

end AMap

namespace Bytes

theorem rd_wr_self (m : Bytes) (a : Nat) (b : Byte) (h : wf m = true) : rd (wr m a b) a = b := by
  unfold rd wr AMap.put
  split
  · next hb => simp [AMap.getD, AMap.get?_del_self m a (by simp [wf] at h; exact h.1), hb]
  · simp

theorem rd_wr_ne (m : Bytes) {a c : Nat} (b : Byte) (hc : c ≠ a) (h : wf m = true) : rd (wr m a b) c = rd m c := by
  unfold rd wr AMap.put
  split
  · simp [AMap.getD, AMap.get?_del_ne m hc (by simp [wf] at h; exact h.1)]
  · exact AMap.getD_set_ne m b 0#8 hc

theorem mem_set {α : Type} {m : AMap α} {k : Nat} {v : α} {p : Nat × α} (h : p ∈ AMap.set m k v) : p = (k, v) ∨ p ∈ m := by
  induction m with
  | nil => simp [AMap.set] at h; exact .inl h
  | cons q r ih =>
    obtain ⟨k', v'⟩ := q
    simp only [AMap.set] at h
    split at h
    · simpa using h
    · split at h
      · rcases List.mem_cons.1 h with h | h
        · exact .inl h
        · exact .inr (by simp [h])
      · rcases List.mem_cons.1 h with h | h
        · exact .inr (by simp [h])
        · rcases ih h with h | h
          · exact .inl h
          · exact .inr (by simp [h])

theorem mem_del {α : Type} {m : AMap α} {k : Nat} {p : Nat × α} (h : p ∈ AMap.del m k) : p ∈ m := by
  induction m with
  | nil => simp [AMap.del] at h
  | cons q r ih =>
    obtain ⟨k', v'⟩ := q
    simp only [AMap.del] at h
    split at h
    · exact h
    · split at h
      · exact List.mem_cons_of_mem _ (List.dropWhile_suffix _ |>.subset h)
      · rcases List.mem_cons.1 h with h | h
        · simp [h]
        · exact List.mem_cons_of_mem _ (ih h)

/-- A write keeps the canonical form. -/
theorem wf_wr (m : Bytes) (a : Nat) (b : Byte) (h : wf m = true) : wf (wr m a b) = true := by
  simp only [wf, Bool.and_eq_true, List.all_eq_true, bne_iff_ne, ne_eq] at h ⊢
  unfold wr AMap.put
  split
  · exact ⟨AMap.sorted_del m a h.1, fun p hp => h.2 p (mem_del hp)⟩
  · next hb =>
    refine ⟨AMap.sorted_set m a b h.1, fun p hp => ?_⟩
    rcases mem_set hp with rfl | hp
    · exact hb
    · exact h.2 p hp

theorem wf_wrN (m : Bytes) (a : Nat) (bs : List Byte) (h : wf m = true) : wf (wrN m a bs) = true := by
  induction bs generalizing m a with
  | nil => exact h
  | cons b r ih => exact ih _ _ (wf_wr m a b h)

/-- Outside the bytes written, every address reads as before. -/
theorem rd_wrN_out (m : Bytes) (a c : Nat) (bs : List Byte) (h : wf m = true) (hc : c < a ∨ a + bs.length ≤ c) :
    rd (wrN m a bs) c = rd m c := by
  induction bs generalizing m a with
  | nil => rfl
  | cons b r ih =>
    simp only [List.length_cons] at hc
    rw [wrN, ih _ _ (wf_wr m a b h) (by omega)]
    exact rd_wr_ne m b (by omega) h

/-- The bytes written read back. -/
theorem rdN_wrN (m : Bytes) (a : Nat) (bs : List Byte) (h : wf m = true) : rdN (wrN m a bs) a bs.length = bs := by
  induction bs generalizing m a with
  | nil => rfl
  | cons b r ih =>
    simp only [List.length_cons, rdN, wrN]
    rw [rd_wrN_out _ _ _ _ (wf_wr m a b h) (by omega), rd_wr_self m a b h, ih _ _ (wf_wr m a b h)]

end Bytes

end Sys2Proof.Machine
end

