-- ==== Sys2Proof/Laws/State.lean ====
section
/-! SUPPORT. What each update of the state does to each of its fields, one lemma per field per update, and reading a unit
after writing one: no later proof unfolds a record update. -/

namespace Sys2Proof.Machine

/-! ## Slot -/

@[simp] theorem setSlot_turns (s : State) (n : Nat) (v : Slot) : (s.setSlot n v).turns = s.turns := rfl
@[simp] theorem setSlot_duties (s : State) (n : Nat) (v : Slot) : (s.setSlot n v).duties = s.duties := rfl
@[simp] theorem setSlot_clk (s : State) (n : Nat) (v : Slot) : (s.setSlot n v).clk = s.clk := rfl
@[simp] theorem setSlot_cur (s : State) (n : Nat) (v : Slot) : (s.setSlot n v).cur = s.cur := rfl
@[simp] theorem setSlot_fire (s : State) (n : Nat) (v : Slot) : (s.setSlot n v).fire = s.fire := rfl
@[simp] theorem setSlot_freeCtr (s : State) (n : Nat) (v : Slot) : (s.setSlot n v).freeCtr = s.freeCtr := rfl
@[simp] theorem setSlot_stall (s : State) (n : Nat) (v : Slot) : (s.setSlot n v).stall = s.stall := rfl
@[simp] theorem setSlot_walked (s : State) (n : Nat) (v : Slot) : (s.setSlot n v).walked = s.walked := rfl
@[simp] theorem setSlot_mem (s : State) (n : Nat) (v : Slot) : (s.setSlot n v).mem = s.mem := rfl
@[simp] theorem setSlot_feEmpty (s : State) (n : Nat) (v : Slot) : (s.setSlot n v).feEmpty = s.feEmpty := rfl
@[simp] theorem setSlot_poison (s : State) (n : Nat) (v : Slot) : (s.setSlot n v).poison = s.poison := rfl
@[simp] theorem setSlot_fit (s : State) (n : Nat) (v : Slot) : (s.setSlot n v).fit = s.fit := rfl
@[simp] theorem setSlot_slots (s : State) (n : Nat) (v : Slot) : (s.setSlot n v).slots = AMap.set s.slots (n) v := rfl
@[simp] theorem setSlot_cores (s : State) (n : Nat) (v : Slot) : (s.setSlot n v).cores = s.cores := rfl
@[simp] theorem setSlot_coves (s : State) (n : Nat) (v : Slot) : (s.setSlot n v).coves = s.coves := rfl
@[simp] theorem setSlot_quads (s : State) (n : Nat) (v : Slot) : (s.setSlot n v).quads = s.quads := rfl
@[simp] theorem setSlot_ports (s : State) (n : Nat) (v : Slot) : (s.setSlot n v).ports = s.ports := rfl
@[simp] theorem setSlot_cells (s : State) (n : Nat) (v : Slot) : (s.setSlot n v).cells = s.cells := rfl
@[simp] theorem setSlot_regions (s : State) (n : Nat) (v : Slot) : (s.setSlot n v).regions = s.regions := rfl
@[simp] theorem setSlot_tenants (s : State) (n : Nat) (v : Slot) : (s.setSlot n v).tenants = s.tenants := rfl
@[simp] theorem setSlot_queues (s : State) (n : Nat) (v : Slot) : (s.setSlot n v).queues = s.queues := rfl
@[simp] theorem setSlot_mgmt (s : State) (n : Nat) (v : Slot) : (s.setSlot n v).mgmt = s.mgmt := rfl
@[simp] theorem modSlot_turns (s : State) (n : Nat) (g : Slot → Slot) : (s.modSlot n g).turns = s.turns := rfl
@[simp] theorem modSlot_duties (s : State) (n : Nat) (g : Slot → Slot) : (s.modSlot n g).duties = s.duties := rfl
@[simp] theorem modSlot_clk (s : State) (n : Nat) (g : Slot → Slot) : (s.modSlot n g).clk = s.clk := rfl
@[simp] theorem modSlot_cur (s : State) (n : Nat) (g : Slot → Slot) : (s.modSlot n g).cur = s.cur := rfl
@[simp] theorem modSlot_fire (s : State) (n : Nat) (g : Slot → Slot) : (s.modSlot n g).fire = s.fire := rfl
@[simp] theorem modSlot_freeCtr (s : State) (n : Nat) (g : Slot → Slot) : (s.modSlot n g).freeCtr = s.freeCtr := rfl
@[simp] theorem modSlot_stall (s : State) (n : Nat) (g : Slot → Slot) : (s.modSlot n g).stall = s.stall := rfl
@[simp] theorem modSlot_walked (s : State) (n : Nat) (g : Slot → Slot) : (s.modSlot n g).walked = s.walked := rfl
@[simp] theorem modSlot_mem (s : State) (n : Nat) (g : Slot → Slot) : (s.modSlot n g).mem = s.mem := rfl
@[simp] theorem modSlot_feEmpty (s : State) (n : Nat) (g : Slot → Slot) : (s.modSlot n g).feEmpty = s.feEmpty := rfl
@[simp] theorem modSlot_poison (s : State) (n : Nat) (g : Slot → Slot) : (s.modSlot n g).poison = s.poison := rfl
@[simp] theorem modSlot_fit (s : State) (n : Nat) (g : Slot → Slot) : (s.modSlot n g).fit = s.fit := rfl
@[simp] theorem modSlot_cores (s : State) (n : Nat) (g : Slot → Slot) : (s.modSlot n g).cores = s.cores := rfl
@[simp] theorem modSlot_coves (s : State) (n : Nat) (g : Slot → Slot) : (s.modSlot n g).coves = s.coves := rfl
@[simp] theorem modSlot_quads (s : State) (n : Nat) (g : Slot → Slot) : (s.modSlot n g).quads = s.quads := rfl
@[simp] theorem modSlot_ports (s : State) (n : Nat) (g : Slot → Slot) : (s.modSlot n g).ports = s.ports := rfl
@[simp] theorem modSlot_cells (s : State) (n : Nat) (g : Slot → Slot) : (s.modSlot n g).cells = s.cells := rfl
@[simp] theorem modSlot_regions (s : State) (n : Nat) (g : Slot → Slot) : (s.modSlot n g).regions = s.regions := rfl
@[simp] theorem modSlot_tenants (s : State) (n : Nat) (g : Slot → Slot) : (s.modSlot n g).tenants = s.tenants := rfl
@[simp] theorem modSlot_queues (s : State) (n : Nat) (g : Slot → Slot) : (s.modSlot n g).queues = s.queues := rfl
@[simp] theorem modSlot_mgmt (s : State) (n : Nat) (g : Slot → Slot) : (s.modSlot n g).mgmt = s.mgmt := rfl
@[simp] theorem slot_setSlot (s : State) (n : Nat) (v : Slot) : (s.setSlot n v).slot n = v := by
  simp [State.slot, State.setSlot]
theorem slot_setSlot_ne (s : State) {m n : Nat} (v : Slot) (h : m ≠ n) : (s.setSlot n v).slot m = s.slot m := by
  simp [State.slot, State.setSlot, AMap.getD_set_ne _ _ _ h]
theorem slot_modSlot_ne (s : State) {m n : Nat} (g : Slot → Slot) (h : m ≠ n) : (s.modSlot n g).slot m = s.slot m :=
  slot_setSlot_ne s _ h
@[simp] theorem slot_modSlot (s : State) (n : Nat) (g : Slot → Slot) : (s.modSlot n g).slot n = g (s.slot n) := by
  simp [State.modSlot]
@[simp] theorem core_setSlot (s : State) (n : Nat) (v : Slot) (m : Nat) : (s.setSlot n v).core m = s.core m := rfl
@[simp] theorem core_modSlot (s : State) (n : Nat) (g : Slot → Slot) (m : Nat) : (s.modSlot n g).core m = s.core m := rfl
@[simp] theorem cove_setSlot (s : State) (n : Nat) (v : Slot) (m : Nat) : (s.setSlot n v).cove m = s.cove m := rfl
@[simp] theorem cove_modSlot (s : State) (n : Nat) (g : Slot → Slot) (m : Nat) : (s.modSlot n g).cove m = s.cove m := rfl
@[simp] theorem quad_setSlot (s : State) (n : Nat) (v : Slot) (m : Nat) : (s.setSlot n v).quad m = s.quad m := rfl
@[simp] theorem quad_modSlot (s : State) (n : Nat) (g : Slot → Slot) (m : Nat) : (s.modSlot n g).quad m = s.quad m := rfl
@[simp] theorem port_setSlot (s : State) (n : Nat) (v : Slot) (m : Nat) : (s.setSlot n v).port m = s.port m := rfl
@[simp] theorem port_modSlot (s : State) (n : Nat) (g : Slot → Slot) (m : Nat) : (s.modSlot n g).port m = s.port m := rfl
@[simp] theorem cell_setSlot (s : State) (n : Nat) (v : Slot) (m : Nat) : (s.setSlot n v).cell m = s.cell m := rfl
@[simp] theorem cell_modSlot (s : State) (n : Nat) (g : Slot → Slot) (m : Nat) : (s.modSlot n g).cell m = s.cell m := rfl
@[simp] theorem region_setSlot (s : State) (n : Nat) (v : Slot) (m : RKey) : (s.setSlot n v).region m = s.region m := rfl
@[simp] theorem region_modSlot (s : State) (n : Nat) (g : Slot → Slot) (m : RKey) : (s.modSlot n g).region m = s.region m := rfl
@[simp] theorem tenant_setSlot (s : State) (n : Nat) (v : Slot) (m : Nat) : (s.setSlot n v).tenant m = s.tenant m := rfl
@[simp] theorem tenant_modSlot (s : State) (n : Nat) (g : Slot → Slot) (m : Nat) : (s.modSlot n g).tenant m = s.tenant m := rfl
@[simp] theorem queue_setSlot (s : State) (n : Nat) (v : Slot) (m : Nat) : (s.setSlot n v).queue m = s.queue m := rfl
@[simp] theorem queue_modSlot (s : State) (n : Nat) (g : Slot → Slot) (m : Nat) : (s.modSlot n g).queue m = s.queue m := rfl

/-! ## Core -/

@[simp] theorem setCore_turns (s : State) (n : Nat) (v : Core) : (s.setCore n v).turns = s.turns := rfl
@[simp] theorem setCore_duties (s : State) (n : Nat) (v : Core) : (s.setCore n v).duties = s.duties := rfl
@[simp] theorem setCore_clk (s : State) (n : Nat) (v : Core) : (s.setCore n v).clk = s.clk := rfl
@[simp] theorem setCore_cur (s : State) (n : Nat) (v : Core) : (s.setCore n v).cur = s.cur := rfl
@[simp] theorem setCore_fire (s : State) (n : Nat) (v : Core) : (s.setCore n v).fire = s.fire := rfl
@[simp] theorem setCore_freeCtr (s : State) (n : Nat) (v : Core) : (s.setCore n v).freeCtr = s.freeCtr := rfl
@[simp] theorem setCore_stall (s : State) (n : Nat) (v : Core) : (s.setCore n v).stall = s.stall := rfl
@[simp] theorem setCore_walked (s : State) (n : Nat) (v : Core) : (s.setCore n v).walked = s.walked := rfl
@[simp] theorem setCore_mem (s : State) (n : Nat) (v : Core) : (s.setCore n v).mem = s.mem := rfl
@[simp] theorem setCore_feEmpty (s : State) (n : Nat) (v : Core) : (s.setCore n v).feEmpty = s.feEmpty := rfl
@[simp] theorem setCore_poison (s : State) (n : Nat) (v : Core) : (s.setCore n v).poison = s.poison := rfl
@[simp] theorem setCore_fit (s : State) (n : Nat) (v : Core) : (s.setCore n v).fit = s.fit := rfl
@[simp] theorem setCore_slots (s : State) (n : Nat) (v : Core) : (s.setCore n v).slots = s.slots := rfl
@[simp] theorem setCore_cores (s : State) (n : Nat) (v : Core) : (s.setCore n v).cores = AMap.set s.cores (n) v := rfl
@[simp] theorem setCore_coves (s : State) (n : Nat) (v : Core) : (s.setCore n v).coves = s.coves := rfl
@[simp] theorem setCore_quads (s : State) (n : Nat) (v : Core) : (s.setCore n v).quads = s.quads := rfl
@[simp] theorem setCore_ports (s : State) (n : Nat) (v : Core) : (s.setCore n v).ports = s.ports := rfl
@[simp] theorem setCore_cells (s : State) (n : Nat) (v : Core) : (s.setCore n v).cells = s.cells := rfl
@[simp] theorem setCore_regions (s : State) (n : Nat) (v : Core) : (s.setCore n v).regions = s.regions := rfl
@[simp] theorem setCore_tenants (s : State) (n : Nat) (v : Core) : (s.setCore n v).tenants = s.tenants := rfl
@[simp] theorem setCore_queues (s : State) (n : Nat) (v : Core) : (s.setCore n v).queues = s.queues := rfl
@[simp] theorem setCore_mgmt (s : State) (n : Nat) (v : Core) : (s.setCore n v).mgmt = s.mgmt := rfl
@[simp] theorem modCore_turns (s : State) (n : Nat) (g : Core → Core) : (s.modCore n g).turns = s.turns := rfl
@[simp] theorem modCore_duties (s : State) (n : Nat) (g : Core → Core) : (s.modCore n g).duties = s.duties := rfl
@[simp] theorem modCore_clk (s : State) (n : Nat) (g : Core → Core) : (s.modCore n g).clk = s.clk := rfl
@[simp] theorem modCore_cur (s : State) (n : Nat) (g : Core → Core) : (s.modCore n g).cur = s.cur := rfl
@[simp] theorem modCore_fire (s : State) (n : Nat) (g : Core → Core) : (s.modCore n g).fire = s.fire := rfl
@[simp] theorem modCore_freeCtr (s : State) (n : Nat) (g : Core → Core) : (s.modCore n g).freeCtr = s.freeCtr := rfl
@[simp] theorem modCore_stall (s : State) (n : Nat) (g : Core → Core) : (s.modCore n g).stall = s.stall := rfl
@[simp] theorem modCore_walked (s : State) (n : Nat) (g : Core → Core) : (s.modCore n g).walked = s.walked := rfl
@[simp] theorem modCore_mem (s : State) (n : Nat) (g : Core → Core) : (s.modCore n g).mem = s.mem := rfl
@[simp] theorem modCore_feEmpty (s : State) (n : Nat) (g : Core → Core) : (s.modCore n g).feEmpty = s.feEmpty := rfl
@[simp] theorem modCore_poison (s : State) (n : Nat) (g : Core → Core) : (s.modCore n g).poison = s.poison := rfl
@[simp] theorem modCore_fit (s : State) (n : Nat) (g : Core → Core) : (s.modCore n g).fit = s.fit := rfl
@[simp] theorem modCore_slots (s : State) (n : Nat) (g : Core → Core) : (s.modCore n g).slots = s.slots := rfl
@[simp] theorem modCore_coves (s : State) (n : Nat) (g : Core → Core) : (s.modCore n g).coves = s.coves := rfl
@[simp] theorem modCore_quads (s : State) (n : Nat) (g : Core → Core) : (s.modCore n g).quads = s.quads := rfl
@[simp] theorem modCore_ports (s : State) (n : Nat) (g : Core → Core) : (s.modCore n g).ports = s.ports := rfl
@[simp] theorem modCore_cells (s : State) (n : Nat) (g : Core → Core) : (s.modCore n g).cells = s.cells := rfl
@[simp] theorem modCore_regions (s : State) (n : Nat) (g : Core → Core) : (s.modCore n g).regions = s.regions := rfl
@[simp] theorem modCore_tenants (s : State) (n : Nat) (g : Core → Core) : (s.modCore n g).tenants = s.tenants := rfl
@[simp] theorem modCore_queues (s : State) (n : Nat) (g : Core → Core) : (s.modCore n g).queues = s.queues := rfl
@[simp] theorem modCore_mgmt (s : State) (n : Nat) (g : Core → Core) : (s.modCore n g).mgmt = s.mgmt := rfl
@[simp] theorem core_setCore (s : State) (n : Nat) (v : Core) : (s.setCore n v).core n = v := by
  simp [State.core, State.setCore]
theorem core_setCore_ne (s : State) {m n : Nat} (v : Core) (h : m ≠ n) : (s.setCore n v).core m = s.core m := by
  simp [State.core, State.setCore, AMap.getD_set_ne _ _ _ h]
theorem core_modCore_ne (s : State) {m n : Nat} (g : Core → Core) (h : m ≠ n) : (s.modCore n g).core m = s.core m :=
  core_setCore_ne s _ h
@[simp] theorem core_modCore (s : State) (n : Nat) (g : Core → Core) : (s.modCore n g).core n = g (s.core n) := by
  simp [State.modCore]
@[simp] theorem slot_setCore (s : State) (n : Nat) (v : Core) (m : Nat) : (s.setCore n v).slot m = s.slot m := rfl
@[simp] theorem slot_modCore (s : State) (n : Nat) (g : Core → Core) (m : Nat) : (s.modCore n g).slot m = s.slot m := rfl
@[simp] theorem cove_setCore (s : State) (n : Nat) (v : Core) (m : Nat) : (s.setCore n v).cove m = s.cove m := rfl
@[simp] theorem cove_modCore (s : State) (n : Nat) (g : Core → Core) (m : Nat) : (s.modCore n g).cove m = s.cove m := rfl
@[simp] theorem quad_setCore (s : State) (n : Nat) (v : Core) (m : Nat) : (s.setCore n v).quad m = s.quad m := rfl
@[simp] theorem quad_modCore (s : State) (n : Nat) (g : Core → Core) (m : Nat) : (s.modCore n g).quad m = s.quad m := rfl
@[simp] theorem port_setCore (s : State) (n : Nat) (v : Core) (m : Nat) : (s.setCore n v).port m = s.port m := rfl
@[simp] theorem port_modCore (s : State) (n : Nat) (g : Core → Core) (m : Nat) : (s.modCore n g).port m = s.port m := rfl
@[simp] theorem cell_setCore (s : State) (n : Nat) (v : Core) (m : Nat) : (s.setCore n v).cell m = s.cell m := rfl
@[simp] theorem cell_modCore (s : State) (n : Nat) (g : Core → Core) (m : Nat) : (s.modCore n g).cell m = s.cell m := rfl
@[simp] theorem region_setCore (s : State) (n : Nat) (v : Core) (m : RKey) : (s.setCore n v).region m = s.region m := rfl
@[simp] theorem region_modCore (s : State) (n : Nat) (g : Core → Core) (m : RKey) : (s.modCore n g).region m = s.region m := rfl
@[simp] theorem tenant_setCore (s : State) (n : Nat) (v : Core) (m : Nat) : (s.setCore n v).tenant m = s.tenant m := rfl
@[simp] theorem tenant_modCore (s : State) (n : Nat) (g : Core → Core) (m : Nat) : (s.modCore n g).tenant m = s.tenant m := rfl
@[simp] theorem queue_setCore (s : State) (n : Nat) (v : Core) (m : Nat) : (s.setCore n v).queue m = s.queue m := rfl
@[simp] theorem queue_modCore (s : State) (n : Nat) (g : Core → Core) (m : Nat) : (s.modCore n g).queue m = s.queue m := rfl

/-! ## Cove -/

@[simp] theorem setCove_turns (s : State) (n : Nat) (v : Cove) : (s.setCove n v).turns = s.turns := rfl
@[simp] theorem setCove_duties (s : State) (n : Nat) (v : Cove) : (s.setCove n v).duties = s.duties := rfl
@[simp] theorem setCove_clk (s : State) (n : Nat) (v : Cove) : (s.setCove n v).clk = s.clk := rfl
@[simp] theorem setCove_cur (s : State) (n : Nat) (v : Cove) : (s.setCove n v).cur = s.cur := rfl
@[simp] theorem setCove_fire (s : State) (n : Nat) (v : Cove) : (s.setCove n v).fire = s.fire := rfl
@[simp] theorem setCove_freeCtr (s : State) (n : Nat) (v : Cove) : (s.setCove n v).freeCtr = s.freeCtr := rfl
@[simp] theorem setCove_stall (s : State) (n : Nat) (v : Cove) : (s.setCove n v).stall = s.stall := rfl
@[simp] theorem setCove_walked (s : State) (n : Nat) (v : Cove) : (s.setCove n v).walked = s.walked := rfl
@[simp] theorem setCove_mem (s : State) (n : Nat) (v : Cove) : (s.setCove n v).mem = s.mem := rfl
@[simp] theorem setCove_feEmpty (s : State) (n : Nat) (v : Cove) : (s.setCove n v).feEmpty = s.feEmpty := rfl
@[simp] theorem setCove_poison (s : State) (n : Nat) (v : Cove) : (s.setCove n v).poison = s.poison := rfl
@[simp] theorem setCove_fit (s : State) (n : Nat) (v : Cove) : (s.setCove n v).fit = s.fit := rfl
@[simp] theorem setCove_slots (s : State) (n : Nat) (v : Cove) : (s.setCove n v).slots = s.slots := rfl
@[simp] theorem setCove_cores (s : State) (n : Nat) (v : Cove) : (s.setCove n v).cores = s.cores := rfl
@[simp] theorem setCove_coves (s : State) (n : Nat) (v : Cove) : (s.setCove n v).coves = AMap.set s.coves (n) v := rfl
@[simp] theorem setCove_quads (s : State) (n : Nat) (v : Cove) : (s.setCove n v).quads = s.quads := rfl
@[simp] theorem setCove_ports (s : State) (n : Nat) (v : Cove) : (s.setCove n v).ports = s.ports := rfl
@[simp] theorem setCove_cells (s : State) (n : Nat) (v : Cove) : (s.setCove n v).cells = s.cells := rfl
@[simp] theorem setCove_regions (s : State) (n : Nat) (v : Cove) : (s.setCove n v).regions = s.regions := rfl
@[simp] theorem setCove_tenants (s : State) (n : Nat) (v : Cove) : (s.setCove n v).tenants = s.tenants := rfl
@[simp] theorem setCove_queues (s : State) (n : Nat) (v : Cove) : (s.setCove n v).queues = s.queues := rfl
@[simp] theorem setCove_mgmt (s : State) (n : Nat) (v : Cove) : (s.setCove n v).mgmt = s.mgmt := rfl
@[simp] theorem modCove_turns (s : State) (n : Nat) (g : Cove → Cove) : (s.modCove n g).turns = s.turns := rfl
@[simp] theorem modCove_duties (s : State) (n : Nat) (g : Cove → Cove) : (s.modCove n g).duties = s.duties := rfl
@[simp] theorem modCove_clk (s : State) (n : Nat) (g : Cove → Cove) : (s.modCove n g).clk = s.clk := rfl
@[simp] theorem modCove_cur (s : State) (n : Nat) (g : Cove → Cove) : (s.modCove n g).cur = s.cur := rfl
@[simp] theorem modCove_fire (s : State) (n : Nat) (g : Cove → Cove) : (s.modCove n g).fire = s.fire := rfl
@[simp] theorem modCove_freeCtr (s : State) (n : Nat) (g : Cove → Cove) : (s.modCove n g).freeCtr = s.freeCtr := rfl
@[simp] theorem modCove_stall (s : State) (n : Nat) (g : Cove → Cove) : (s.modCove n g).stall = s.stall := rfl
@[simp] theorem modCove_walked (s : State) (n : Nat) (g : Cove → Cove) : (s.modCove n g).walked = s.walked := rfl
@[simp] theorem modCove_mem (s : State) (n : Nat) (g : Cove → Cove) : (s.modCove n g).mem = s.mem := rfl
@[simp] theorem modCove_feEmpty (s : State) (n : Nat) (g : Cove → Cove) : (s.modCove n g).feEmpty = s.feEmpty := rfl
@[simp] theorem modCove_poison (s : State) (n : Nat) (g : Cove → Cove) : (s.modCove n g).poison = s.poison := rfl
@[simp] theorem modCove_fit (s : State) (n : Nat) (g : Cove → Cove) : (s.modCove n g).fit = s.fit := rfl
@[simp] theorem modCove_slots (s : State) (n : Nat) (g : Cove → Cove) : (s.modCove n g).slots = s.slots := rfl
@[simp] theorem modCove_cores (s : State) (n : Nat) (g : Cove → Cove) : (s.modCove n g).cores = s.cores := rfl
@[simp] theorem modCove_quads (s : State) (n : Nat) (g : Cove → Cove) : (s.modCove n g).quads = s.quads := rfl
@[simp] theorem modCove_ports (s : State) (n : Nat) (g : Cove → Cove) : (s.modCove n g).ports = s.ports := rfl
@[simp] theorem modCove_cells (s : State) (n : Nat) (g : Cove → Cove) : (s.modCove n g).cells = s.cells := rfl
@[simp] theorem modCove_regions (s : State) (n : Nat) (g : Cove → Cove) : (s.modCove n g).regions = s.regions := rfl
@[simp] theorem modCove_tenants (s : State) (n : Nat) (g : Cove → Cove) : (s.modCove n g).tenants = s.tenants := rfl
@[simp] theorem modCove_queues (s : State) (n : Nat) (g : Cove → Cove) : (s.modCove n g).queues = s.queues := rfl
@[simp] theorem modCove_mgmt (s : State) (n : Nat) (g : Cove → Cove) : (s.modCove n g).mgmt = s.mgmt := rfl
@[simp] theorem cove_setCove (s : State) (n : Nat) (v : Cove) : (s.setCove n v).cove n = v := by
  simp [State.cove, State.setCove]
theorem cove_setCove_ne (s : State) {m n : Nat} (v : Cove) (h : m ≠ n) : (s.setCove n v).cove m = s.cove m := by
  simp [State.cove, State.setCove, AMap.getD_set_ne _ _ _ h]
theorem cove_modCove_ne (s : State) {m n : Nat} (g : Cove → Cove) (h : m ≠ n) : (s.modCove n g).cove m = s.cove m :=
  cove_setCove_ne s _ h
@[simp] theorem cove_modCove (s : State) (n : Nat) (g : Cove → Cove) : (s.modCove n g).cove n = g (s.cove n) := by
  simp [State.modCove]
@[simp] theorem slot_setCove (s : State) (n : Nat) (v : Cove) (m : Nat) : (s.setCove n v).slot m = s.slot m := rfl
@[simp] theorem slot_modCove (s : State) (n : Nat) (g : Cove → Cove) (m : Nat) : (s.modCove n g).slot m = s.slot m := rfl
@[simp] theorem core_setCove (s : State) (n : Nat) (v : Cove) (m : Nat) : (s.setCove n v).core m = s.core m := rfl
@[simp] theorem core_modCove (s : State) (n : Nat) (g : Cove → Cove) (m : Nat) : (s.modCove n g).core m = s.core m := rfl
@[simp] theorem quad_setCove (s : State) (n : Nat) (v : Cove) (m : Nat) : (s.setCove n v).quad m = s.quad m := rfl
@[simp] theorem quad_modCove (s : State) (n : Nat) (g : Cove → Cove) (m : Nat) : (s.modCove n g).quad m = s.quad m := rfl
@[simp] theorem port_setCove (s : State) (n : Nat) (v : Cove) (m : Nat) : (s.setCove n v).port m = s.port m := rfl
@[simp] theorem port_modCove (s : State) (n : Nat) (g : Cove → Cove) (m : Nat) : (s.modCove n g).port m = s.port m := rfl
@[simp] theorem cell_setCove (s : State) (n : Nat) (v : Cove) (m : Nat) : (s.setCove n v).cell m = s.cell m := rfl
@[simp] theorem cell_modCove (s : State) (n : Nat) (g : Cove → Cove) (m : Nat) : (s.modCove n g).cell m = s.cell m := rfl
@[simp] theorem region_setCove (s : State) (n : Nat) (v : Cove) (m : RKey) : (s.setCove n v).region m = s.region m := rfl
@[simp] theorem region_modCove (s : State) (n : Nat) (g : Cove → Cove) (m : RKey) : (s.modCove n g).region m = s.region m := rfl
@[simp] theorem tenant_setCove (s : State) (n : Nat) (v : Cove) (m : Nat) : (s.setCove n v).tenant m = s.tenant m := rfl
@[simp] theorem tenant_modCove (s : State) (n : Nat) (g : Cove → Cove) (m : Nat) : (s.modCove n g).tenant m = s.tenant m := rfl
@[simp] theorem queue_setCove (s : State) (n : Nat) (v : Cove) (m : Nat) : (s.setCove n v).queue m = s.queue m := rfl
@[simp] theorem queue_modCove (s : State) (n : Nat) (g : Cove → Cove) (m : Nat) : (s.modCove n g).queue m = s.queue m := rfl

/-! ## Quad -/

@[simp] theorem setQuad_turns (s : State) (n : Nat) (v : Quad) : (s.setQuad n v).turns = s.turns := rfl
@[simp] theorem setQuad_duties (s : State) (n : Nat) (v : Quad) : (s.setQuad n v).duties = s.duties := rfl
@[simp] theorem setQuad_clk (s : State) (n : Nat) (v : Quad) : (s.setQuad n v).clk = s.clk := rfl
@[simp] theorem setQuad_cur (s : State) (n : Nat) (v : Quad) : (s.setQuad n v).cur = s.cur := rfl
@[simp] theorem setQuad_fire (s : State) (n : Nat) (v : Quad) : (s.setQuad n v).fire = s.fire := rfl
@[simp] theorem setQuad_freeCtr (s : State) (n : Nat) (v : Quad) : (s.setQuad n v).freeCtr = s.freeCtr := rfl
@[simp] theorem setQuad_stall (s : State) (n : Nat) (v : Quad) : (s.setQuad n v).stall = s.stall := rfl
@[simp] theorem setQuad_walked (s : State) (n : Nat) (v : Quad) : (s.setQuad n v).walked = s.walked := rfl
@[simp] theorem setQuad_mem (s : State) (n : Nat) (v : Quad) : (s.setQuad n v).mem = s.mem := rfl
@[simp] theorem setQuad_feEmpty (s : State) (n : Nat) (v : Quad) : (s.setQuad n v).feEmpty = s.feEmpty := rfl
@[simp] theorem setQuad_poison (s : State) (n : Nat) (v : Quad) : (s.setQuad n v).poison = s.poison := rfl
@[simp] theorem setQuad_fit (s : State) (n : Nat) (v : Quad) : (s.setQuad n v).fit = s.fit := rfl
@[simp] theorem setQuad_slots (s : State) (n : Nat) (v : Quad) : (s.setQuad n v).slots = s.slots := rfl
@[simp] theorem setQuad_cores (s : State) (n : Nat) (v : Quad) : (s.setQuad n v).cores = s.cores := rfl
@[simp] theorem setQuad_coves (s : State) (n : Nat) (v : Quad) : (s.setQuad n v).coves = s.coves := rfl
@[simp] theorem setQuad_quads (s : State) (n : Nat) (v : Quad) : (s.setQuad n v).quads = AMap.set s.quads (n) v := rfl
@[simp] theorem setQuad_ports (s : State) (n : Nat) (v : Quad) : (s.setQuad n v).ports = s.ports := rfl
@[simp] theorem setQuad_cells (s : State) (n : Nat) (v : Quad) : (s.setQuad n v).cells = s.cells := rfl
@[simp] theorem setQuad_regions (s : State) (n : Nat) (v : Quad) : (s.setQuad n v).regions = s.regions := rfl
@[simp] theorem setQuad_tenants (s : State) (n : Nat) (v : Quad) : (s.setQuad n v).tenants = s.tenants := rfl
@[simp] theorem setQuad_queues (s : State) (n : Nat) (v : Quad) : (s.setQuad n v).queues = s.queues := rfl
@[simp] theorem setQuad_mgmt (s : State) (n : Nat) (v : Quad) : (s.setQuad n v).mgmt = s.mgmt := rfl
@[simp] theorem modQuad_turns (s : State) (n : Nat) (g : Quad → Quad) : (s.modQuad n g).turns = s.turns := rfl
@[simp] theorem modQuad_duties (s : State) (n : Nat) (g : Quad → Quad) : (s.modQuad n g).duties = s.duties := rfl
@[simp] theorem modQuad_clk (s : State) (n : Nat) (g : Quad → Quad) : (s.modQuad n g).clk = s.clk := rfl
@[simp] theorem modQuad_cur (s : State) (n : Nat) (g : Quad → Quad) : (s.modQuad n g).cur = s.cur := rfl
@[simp] theorem modQuad_fire (s : State) (n : Nat) (g : Quad → Quad) : (s.modQuad n g).fire = s.fire := rfl
@[simp] theorem modQuad_freeCtr (s : State) (n : Nat) (g : Quad → Quad) : (s.modQuad n g).freeCtr = s.freeCtr := rfl
@[simp] theorem modQuad_stall (s : State) (n : Nat) (g : Quad → Quad) : (s.modQuad n g).stall = s.stall := rfl
@[simp] theorem modQuad_walked (s : State) (n : Nat) (g : Quad → Quad) : (s.modQuad n g).walked = s.walked := rfl
@[simp] theorem modQuad_mem (s : State) (n : Nat) (g : Quad → Quad) : (s.modQuad n g).mem = s.mem := rfl
@[simp] theorem modQuad_feEmpty (s : State) (n : Nat) (g : Quad → Quad) : (s.modQuad n g).feEmpty = s.feEmpty := rfl
@[simp] theorem modQuad_poison (s : State) (n : Nat) (g : Quad → Quad) : (s.modQuad n g).poison = s.poison := rfl
@[simp] theorem modQuad_fit (s : State) (n : Nat) (g : Quad → Quad) : (s.modQuad n g).fit = s.fit := rfl
@[simp] theorem modQuad_slots (s : State) (n : Nat) (g : Quad → Quad) : (s.modQuad n g).slots = s.slots := rfl
@[simp] theorem modQuad_cores (s : State) (n : Nat) (g : Quad → Quad) : (s.modQuad n g).cores = s.cores := rfl
@[simp] theorem modQuad_coves (s : State) (n : Nat) (g : Quad → Quad) : (s.modQuad n g).coves = s.coves := rfl
@[simp] theorem modQuad_ports (s : State) (n : Nat) (g : Quad → Quad) : (s.modQuad n g).ports = s.ports := rfl
@[simp] theorem modQuad_cells (s : State) (n : Nat) (g : Quad → Quad) : (s.modQuad n g).cells = s.cells := rfl
@[simp] theorem modQuad_regions (s : State) (n : Nat) (g : Quad → Quad) : (s.modQuad n g).regions = s.regions := rfl
@[simp] theorem modQuad_tenants (s : State) (n : Nat) (g : Quad → Quad) : (s.modQuad n g).tenants = s.tenants := rfl
@[simp] theorem modQuad_queues (s : State) (n : Nat) (g : Quad → Quad) : (s.modQuad n g).queues = s.queues := rfl
@[simp] theorem modQuad_mgmt (s : State) (n : Nat) (g : Quad → Quad) : (s.modQuad n g).mgmt = s.mgmt := rfl
@[simp] theorem quad_setQuad (s : State) (n : Nat) (v : Quad) : (s.setQuad n v).quad n = v := by
  simp [State.quad, State.setQuad]
theorem quad_setQuad_ne (s : State) {m n : Nat} (v : Quad) (h : m ≠ n) : (s.setQuad n v).quad m = s.quad m := by
  simp [State.quad, State.setQuad, AMap.getD_set_ne _ _ _ h]
theorem quad_modQuad_ne (s : State) {m n : Nat} (g : Quad → Quad) (h : m ≠ n) : (s.modQuad n g).quad m = s.quad m :=
  quad_setQuad_ne s _ h
@[simp] theorem quad_modQuad (s : State) (n : Nat) (g : Quad → Quad) : (s.modQuad n g).quad n = g (s.quad n) := by
  simp [State.modQuad]
@[simp] theorem slot_setQuad (s : State) (n : Nat) (v : Quad) (m : Nat) : (s.setQuad n v).slot m = s.slot m := rfl
@[simp] theorem slot_modQuad (s : State) (n : Nat) (g : Quad → Quad) (m : Nat) : (s.modQuad n g).slot m = s.slot m := rfl
@[simp] theorem core_setQuad (s : State) (n : Nat) (v : Quad) (m : Nat) : (s.setQuad n v).core m = s.core m := rfl
@[simp] theorem core_modQuad (s : State) (n : Nat) (g : Quad → Quad) (m : Nat) : (s.modQuad n g).core m = s.core m := rfl
@[simp] theorem cove_setQuad (s : State) (n : Nat) (v : Quad) (m : Nat) : (s.setQuad n v).cove m = s.cove m := rfl
@[simp] theorem cove_modQuad (s : State) (n : Nat) (g : Quad → Quad) (m : Nat) : (s.modQuad n g).cove m = s.cove m := rfl
@[simp] theorem port_setQuad (s : State) (n : Nat) (v : Quad) (m : Nat) : (s.setQuad n v).port m = s.port m := rfl
@[simp] theorem port_modQuad (s : State) (n : Nat) (g : Quad → Quad) (m : Nat) : (s.modQuad n g).port m = s.port m := rfl
@[simp] theorem cell_setQuad (s : State) (n : Nat) (v : Quad) (m : Nat) : (s.setQuad n v).cell m = s.cell m := rfl
@[simp] theorem cell_modQuad (s : State) (n : Nat) (g : Quad → Quad) (m : Nat) : (s.modQuad n g).cell m = s.cell m := rfl
@[simp] theorem region_setQuad (s : State) (n : Nat) (v : Quad) (m : RKey) : (s.setQuad n v).region m = s.region m := rfl
@[simp] theorem region_modQuad (s : State) (n : Nat) (g : Quad → Quad) (m : RKey) : (s.modQuad n g).region m = s.region m := rfl
@[simp] theorem tenant_setQuad (s : State) (n : Nat) (v : Quad) (m : Nat) : (s.setQuad n v).tenant m = s.tenant m := rfl
@[simp] theorem tenant_modQuad (s : State) (n : Nat) (g : Quad → Quad) (m : Nat) : (s.modQuad n g).tenant m = s.tenant m := rfl
@[simp] theorem queue_setQuad (s : State) (n : Nat) (v : Quad) (m : Nat) : (s.setQuad n v).queue m = s.queue m := rfl
@[simp] theorem queue_modQuad (s : State) (n : Nat) (g : Quad → Quad) (m : Nat) : (s.modQuad n g).queue m = s.queue m := rfl

/-! ## Port -/

@[simp] theorem setPort_turns (s : State) (n : Nat) (v : Port) : (s.setPort n v).turns = s.turns := rfl
@[simp] theorem setPort_duties (s : State) (n : Nat) (v : Port) : (s.setPort n v).duties = s.duties := rfl
@[simp] theorem setPort_clk (s : State) (n : Nat) (v : Port) : (s.setPort n v).clk = s.clk := rfl
@[simp] theorem setPort_cur (s : State) (n : Nat) (v : Port) : (s.setPort n v).cur = s.cur := rfl
@[simp] theorem setPort_fire (s : State) (n : Nat) (v : Port) : (s.setPort n v).fire = s.fire := rfl
@[simp] theorem setPort_freeCtr (s : State) (n : Nat) (v : Port) : (s.setPort n v).freeCtr = s.freeCtr := rfl
@[simp] theorem setPort_stall (s : State) (n : Nat) (v : Port) : (s.setPort n v).stall = s.stall := rfl
@[simp] theorem setPort_walked (s : State) (n : Nat) (v : Port) : (s.setPort n v).walked = s.walked := rfl
@[simp] theorem setPort_mem (s : State) (n : Nat) (v : Port) : (s.setPort n v).mem = s.mem := rfl
@[simp] theorem setPort_feEmpty (s : State) (n : Nat) (v : Port) : (s.setPort n v).feEmpty = s.feEmpty := rfl
@[simp] theorem setPort_poison (s : State) (n : Nat) (v : Port) : (s.setPort n v).poison = s.poison := rfl
@[simp] theorem setPort_fit (s : State) (n : Nat) (v : Port) : (s.setPort n v).fit = s.fit := rfl
@[simp] theorem setPort_slots (s : State) (n : Nat) (v : Port) : (s.setPort n v).slots = s.slots := rfl
@[simp] theorem setPort_cores (s : State) (n : Nat) (v : Port) : (s.setPort n v).cores = s.cores := rfl
@[simp] theorem setPort_coves (s : State) (n : Nat) (v : Port) : (s.setPort n v).coves = s.coves := rfl
@[simp] theorem setPort_quads (s : State) (n : Nat) (v : Port) : (s.setPort n v).quads = s.quads := rfl
@[simp] theorem setPort_ports (s : State) (n : Nat) (v : Port) : (s.setPort n v).ports = AMap.set s.ports (n) v := rfl
@[simp] theorem setPort_cells (s : State) (n : Nat) (v : Port) : (s.setPort n v).cells = s.cells := rfl
@[simp] theorem setPort_regions (s : State) (n : Nat) (v : Port) : (s.setPort n v).regions = s.regions := rfl
@[simp] theorem setPort_tenants (s : State) (n : Nat) (v : Port) : (s.setPort n v).tenants = s.tenants := rfl
@[simp] theorem setPort_queues (s : State) (n : Nat) (v : Port) : (s.setPort n v).queues = s.queues := rfl
@[simp] theorem setPort_mgmt (s : State) (n : Nat) (v : Port) : (s.setPort n v).mgmt = s.mgmt := rfl
@[simp] theorem modPort_turns (s : State) (n : Nat) (g : Port → Port) : (s.modPort n g).turns = s.turns := rfl
@[simp] theorem modPort_duties (s : State) (n : Nat) (g : Port → Port) : (s.modPort n g).duties = s.duties := rfl
@[simp] theorem modPort_clk (s : State) (n : Nat) (g : Port → Port) : (s.modPort n g).clk = s.clk := rfl
@[simp] theorem modPort_cur (s : State) (n : Nat) (g : Port → Port) : (s.modPort n g).cur = s.cur := rfl
@[simp] theorem modPort_fire (s : State) (n : Nat) (g : Port → Port) : (s.modPort n g).fire = s.fire := rfl
@[simp] theorem modPort_freeCtr (s : State) (n : Nat) (g : Port → Port) : (s.modPort n g).freeCtr = s.freeCtr := rfl
@[simp] theorem modPort_stall (s : State) (n : Nat) (g : Port → Port) : (s.modPort n g).stall = s.stall := rfl
@[simp] theorem modPort_walked (s : State) (n : Nat) (g : Port → Port) : (s.modPort n g).walked = s.walked := rfl
@[simp] theorem modPort_mem (s : State) (n : Nat) (g : Port → Port) : (s.modPort n g).mem = s.mem := rfl
@[simp] theorem modPort_feEmpty (s : State) (n : Nat) (g : Port → Port) : (s.modPort n g).feEmpty = s.feEmpty := rfl
@[simp] theorem modPort_poison (s : State) (n : Nat) (g : Port → Port) : (s.modPort n g).poison = s.poison := rfl
@[simp] theorem modPort_fit (s : State) (n : Nat) (g : Port → Port) : (s.modPort n g).fit = s.fit := rfl
@[simp] theorem modPort_slots (s : State) (n : Nat) (g : Port → Port) : (s.modPort n g).slots = s.slots := rfl
@[simp] theorem modPort_cores (s : State) (n : Nat) (g : Port → Port) : (s.modPort n g).cores = s.cores := rfl
@[simp] theorem modPort_coves (s : State) (n : Nat) (g : Port → Port) : (s.modPort n g).coves = s.coves := rfl
@[simp] theorem modPort_quads (s : State) (n : Nat) (g : Port → Port) : (s.modPort n g).quads = s.quads := rfl
@[simp] theorem modPort_cells (s : State) (n : Nat) (g : Port → Port) : (s.modPort n g).cells = s.cells := rfl
@[simp] theorem modPort_regions (s : State) (n : Nat) (g : Port → Port) : (s.modPort n g).regions = s.regions := rfl
@[simp] theorem modPort_tenants (s : State) (n : Nat) (g : Port → Port) : (s.modPort n g).tenants = s.tenants := rfl
@[simp] theorem modPort_queues (s : State) (n : Nat) (g : Port → Port) : (s.modPort n g).queues = s.queues := rfl
@[simp] theorem modPort_mgmt (s : State) (n : Nat) (g : Port → Port) : (s.modPort n g).mgmt = s.mgmt := rfl
@[simp] theorem port_setPort (s : State) (n : Nat) (v : Port) : (s.setPort n v).port n = v := by
  simp [State.port, State.setPort]
theorem port_setPort_ne (s : State) {m n : Nat} (v : Port) (h : m ≠ n) : (s.setPort n v).port m = s.port m := by
  simp [State.port, State.setPort, AMap.getD_set_ne _ _ _ h]
theorem port_modPort_ne (s : State) {m n : Nat} (g : Port → Port) (h : m ≠ n) : (s.modPort n g).port m = s.port m :=
  port_setPort_ne s _ h
@[simp] theorem port_modPort (s : State) (n : Nat) (g : Port → Port) : (s.modPort n g).port n = g (s.port n) := by
  simp [State.modPort]
@[simp] theorem slot_setPort (s : State) (n : Nat) (v : Port) (m : Nat) : (s.setPort n v).slot m = s.slot m := rfl
@[simp] theorem slot_modPort (s : State) (n : Nat) (g : Port → Port) (m : Nat) : (s.modPort n g).slot m = s.slot m := rfl
@[simp] theorem core_setPort (s : State) (n : Nat) (v : Port) (m : Nat) : (s.setPort n v).core m = s.core m := rfl
@[simp] theorem core_modPort (s : State) (n : Nat) (g : Port → Port) (m : Nat) : (s.modPort n g).core m = s.core m := rfl
@[simp] theorem cove_setPort (s : State) (n : Nat) (v : Port) (m : Nat) : (s.setPort n v).cove m = s.cove m := rfl
@[simp] theorem cove_modPort (s : State) (n : Nat) (g : Port → Port) (m : Nat) : (s.modPort n g).cove m = s.cove m := rfl
@[simp] theorem quad_setPort (s : State) (n : Nat) (v : Port) (m : Nat) : (s.setPort n v).quad m = s.quad m := rfl
@[simp] theorem quad_modPort (s : State) (n : Nat) (g : Port → Port) (m : Nat) : (s.modPort n g).quad m = s.quad m := rfl
@[simp] theorem cell_setPort (s : State) (n : Nat) (v : Port) (m : Nat) : (s.setPort n v).cell m = s.cell m := rfl
@[simp] theorem cell_modPort (s : State) (n : Nat) (g : Port → Port) (m : Nat) : (s.modPort n g).cell m = s.cell m := rfl
@[simp] theorem region_setPort (s : State) (n : Nat) (v : Port) (m : RKey) : (s.setPort n v).region m = s.region m := rfl
@[simp] theorem region_modPort (s : State) (n : Nat) (g : Port → Port) (m : RKey) : (s.modPort n g).region m = s.region m := rfl
@[simp] theorem tenant_setPort (s : State) (n : Nat) (v : Port) (m : Nat) : (s.setPort n v).tenant m = s.tenant m := rfl
@[simp] theorem tenant_modPort (s : State) (n : Nat) (g : Port → Port) (m : Nat) : (s.modPort n g).tenant m = s.tenant m := rfl
@[simp] theorem queue_setPort (s : State) (n : Nat) (v : Port) (m : Nat) : (s.setPort n v).queue m = s.queue m := rfl
@[simp] theorem queue_modPort (s : State) (n : Nat) (g : Port → Port) (m : Nat) : (s.modPort n g).queue m = s.queue m := rfl

/-! ## Cell -/

@[simp] theorem setCell_turns (s : State) (n : Nat) (v : Cell) : (s.setCell n v).turns = s.turns := rfl
@[simp] theorem setCell_duties (s : State) (n : Nat) (v : Cell) : (s.setCell n v).duties = s.duties := rfl
@[simp] theorem setCell_clk (s : State) (n : Nat) (v : Cell) : (s.setCell n v).clk = s.clk := rfl
@[simp] theorem setCell_cur (s : State) (n : Nat) (v : Cell) : (s.setCell n v).cur = s.cur := rfl
@[simp] theorem setCell_fire (s : State) (n : Nat) (v : Cell) : (s.setCell n v).fire = s.fire := rfl
@[simp] theorem setCell_freeCtr (s : State) (n : Nat) (v : Cell) : (s.setCell n v).freeCtr = s.freeCtr := rfl
@[simp] theorem setCell_stall (s : State) (n : Nat) (v : Cell) : (s.setCell n v).stall = s.stall := rfl
@[simp] theorem setCell_walked (s : State) (n : Nat) (v : Cell) : (s.setCell n v).walked = s.walked := rfl
@[simp] theorem setCell_mem (s : State) (n : Nat) (v : Cell) : (s.setCell n v).mem = s.mem := rfl
@[simp] theorem setCell_feEmpty (s : State) (n : Nat) (v : Cell) : (s.setCell n v).feEmpty = s.feEmpty := rfl
@[simp] theorem setCell_poison (s : State) (n : Nat) (v : Cell) : (s.setCell n v).poison = s.poison := rfl
@[simp] theorem setCell_fit (s : State) (n : Nat) (v : Cell) : (s.setCell n v).fit = s.fit := rfl
@[simp] theorem setCell_slots (s : State) (n : Nat) (v : Cell) : (s.setCell n v).slots = s.slots := rfl
@[simp] theorem setCell_cores (s : State) (n : Nat) (v : Cell) : (s.setCell n v).cores = s.cores := rfl
@[simp] theorem setCell_coves (s : State) (n : Nat) (v : Cell) : (s.setCell n v).coves = s.coves := rfl
@[simp] theorem setCell_quads (s : State) (n : Nat) (v : Cell) : (s.setCell n v).quads = s.quads := rfl
@[simp] theorem setCell_ports (s : State) (n : Nat) (v : Cell) : (s.setCell n v).ports = s.ports := rfl
@[simp] theorem setCell_cells (s : State) (n : Nat) (v : Cell) : (s.setCell n v).cells = AMap.set s.cells (n) v := rfl
@[simp] theorem setCell_regions (s : State) (n : Nat) (v : Cell) : (s.setCell n v).regions = s.regions := rfl
@[simp] theorem setCell_tenants (s : State) (n : Nat) (v : Cell) : (s.setCell n v).tenants = s.tenants := rfl
@[simp] theorem setCell_queues (s : State) (n : Nat) (v : Cell) : (s.setCell n v).queues = s.queues := rfl
@[simp] theorem setCell_mgmt (s : State) (n : Nat) (v : Cell) : (s.setCell n v).mgmt = s.mgmt := rfl
@[simp] theorem modCell_turns (s : State) (n : Nat) (g : Cell → Cell) : (s.modCell n g).turns = s.turns := rfl
@[simp] theorem modCell_duties (s : State) (n : Nat) (g : Cell → Cell) : (s.modCell n g).duties = s.duties := rfl
@[simp] theorem modCell_clk (s : State) (n : Nat) (g : Cell → Cell) : (s.modCell n g).clk = s.clk := rfl
@[simp] theorem modCell_cur (s : State) (n : Nat) (g : Cell → Cell) : (s.modCell n g).cur = s.cur := rfl
@[simp] theorem modCell_fire (s : State) (n : Nat) (g : Cell → Cell) : (s.modCell n g).fire = s.fire := rfl
@[simp] theorem modCell_freeCtr (s : State) (n : Nat) (g : Cell → Cell) : (s.modCell n g).freeCtr = s.freeCtr := rfl
@[simp] theorem modCell_stall (s : State) (n : Nat) (g : Cell → Cell) : (s.modCell n g).stall = s.stall := rfl
@[simp] theorem modCell_walked (s : State) (n : Nat) (g : Cell → Cell) : (s.modCell n g).walked = s.walked := rfl
@[simp] theorem modCell_mem (s : State) (n : Nat) (g : Cell → Cell) : (s.modCell n g).mem = s.mem := rfl
@[simp] theorem modCell_feEmpty (s : State) (n : Nat) (g : Cell → Cell) : (s.modCell n g).feEmpty = s.feEmpty := rfl
@[simp] theorem modCell_poison (s : State) (n : Nat) (g : Cell → Cell) : (s.modCell n g).poison = s.poison := rfl
@[simp] theorem modCell_fit (s : State) (n : Nat) (g : Cell → Cell) : (s.modCell n g).fit = s.fit := rfl
@[simp] theorem modCell_slots (s : State) (n : Nat) (g : Cell → Cell) : (s.modCell n g).slots = s.slots := rfl
@[simp] theorem modCell_cores (s : State) (n : Nat) (g : Cell → Cell) : (s.modCell n g).cores = s.cores := rfl
@[simp] theorem modCell_coves (s : State) (n : Nat) (g : Cell → Cell) : (s.modCell n g).coves = s.coves := rfl
@[simp] theorem modCell_quads (s : State) (n : Nat) (g : Cell → Cell) : (s.modCell n g).quads = s.quads := rfl
@[simp] theorem modCell_ports (s : State) (n : Nat) (g : Cell → Cell) : (s.modCell n g).ports = s.ports := rfl
@[simp] theorem modCell_regions (s : State) (n : Nat) (g : Cell → Cell) : (s.modCell n g).regions = s.regions := rfl
@[simp] theorem modCell_tenants (s : State) (n : Nat) (g : Cell → Cell) : (s.modCell n g).tenants = s.tenants := rfl
@[simp] theorem modCell_queues (s : State) (n : Nat) (g : Cell → Cell) : (s.modCell n g).queues = s.queues := rfl
@[simp] theorem modCell_mgmt (s : State) (n : Nat) (g : Cell → Cell) : (s.modCell n g).mgmt = s.mgmt := rfl
@[simp] theorem cell_setCell (s : State) (n : Nat) (v : Cell) : (s.setCell n v).cell n = v := by
  simp [State.cell, State.setCell]
theorem cell_setCell_ne (s : State) {m n : Nat} (v : Cell) (h : m ≠ n) : (s.setCell n v).cell m = s.cell m := by
  simp [State.cell, State.setCell, AMap.getD_set_ne _ _ _ h]
theorem cell_modCell_ne (s : State) {m n : Nat} (g : Cell → Cell) (h : m ≠ n) : (s.modCell n g).cell m = s.cell m :=
  cell_setCell_ne s _ h
@[simp] theorem cell_modCell (s : State) (n : Nat) (g : Cell → Cell) : (s.modCell n g).cell n = g (s.cell n) := by
  simp [State.modCell]
@[simp] theorem slot_setCell (s : State) (n : Nat) (v : Cell) (m : Nat) : (s.setCell n v).slot m = s.slot m := rfl
@[simp] theorem slot_modCell (s : State) (n : Nat) (g : Cell → Cell) (m : Nat) : (s.modCell n g).slot m = s.slot m := rfl
@[simp] theorem core_setCell (s : State) (n : Nat) (v : Cell) (m : Nat) : (s.setCell n v).core m = s.core m := rfl
@[simp] theorem core_modCell (s : State) (n : Nat) (g : Cell → Cell) (m : Nat) : (s.modCell n g).core m = s.core m := rfl
@[simp] theorem cove_setCell (s : State) (n : Nat) (v : Cell) (m : Nat) : (s.setCell n v).cove m = s.cove m := rfl
@[simp] theorem cove_modCell (s : State) (n : Nat) (g : Cell → Cell) (m : Nat) : (s.modCell n g).cove m = s.cove m := rfl
@[simp] theorem quad_setCell (s : State) (n : Nat) (v : Cell) (m : Nat) : (s.setCell n v).quad m = s.quad m := rfl
@[simp] theorem quad_modCell (s : State) (n : Nat) (g : Cell → Cell) (m : Nat) : (s.modCell n g).quad m = s.quad m := rfl
@[simp] theorem port_setCell (s : State) (n : Nat) (v : Cell) (m : Nat) : (s.setCell n v).port m = s.port m := rfl
@[simp] theorem port_modCell (s : State) (n : Nat) (g : Cell → Cell) (m : Nat) : (s.modCell n g).port m = s.port m := rfl
@[simp] theorem region_setCell (s : State) (n : Nat) (v : Cell) (m : RKey) : (s.setCell n v).region m = s.region m := rfl
@[simp] theorem region_modCell (s : State) (n : Nat) (g : Cell → Cell) (m : RKey) : (s.modCell n g).region m = s.region m := rfl
@[simp] theorem tenant_setCell (s : State) (n : Nat) (v : Cell) (m : Nat) : (s.setCell n v).tenant m = s.tenant m := rfl
@[simp] theorem tenant_modCell (s : State) (n : Nat) (g : Cell → Cell) (m : Nat) : (s.modCell n g).tenant m = s.tenant m := rfl
@[simp] theorem queue_setCell (s : State) (n : Nat) (v : Cell) (m : Nat) : (s.setCell n v).queue m = s.queue m := rfl
@[simp] theorem queue_modCell (s : State) (n : Nat) (g : Cell → Cell) (m : Nat) : (s.modCell n g).queue m = s.queue m := rfl

/-! ## Region -/

@[simp] theorem setRegion_turns (s : State) (n : RKey) (v : Region) : (s.setRegion n v).turns = s.turns := rfl
@[simp] theorem setRegion_duties (s : State) (n : RKey) (v : Region) : (s.setRegion n v).duties = s.duties := rfl
@[simp] theorem setRegion_clk (s : State) (n : RKey) (v : Region) : (s.setRegion n v).clk = s.clk := rfl
@[simp] theorem setRegion_cur (s : State) (n : RKey) (v : Region) : (s.setRegion n v).cur = s.cur := rfl
@[simp] theorem setRegion_fire (s : State) (n : RKey) (v : Region) : (s.setRegion n v).fire = s.fire := rfl
@[simp] theorem setRegion_freeCtr (s : State) (n : RKey) (v : Region) : (s.setRegion n v).freeCtr = s.freeCtr := rfl
@[simp] theorem setRegion_stall (s : State) (n : RKey) (v : Region) : (s.setRegion n v).stall = s.stall := rfl
@[simp] theorem setRegion_walked (s : State) (n : RKey) (v : Region) : (s.setRegion n v).walked = s.walked := rfl
@[simp] theorem setRegion_mem (s : State) (n : RKey) (v : Region) : (s.setRegion n v).mem = s.mem := rfl
@[simp] theorem setRegion_feEmpty (s : State) (n : RKey) (v : Region) : (s.setRegion n v).feEmpty = s.feEmpty := rfl
@[simp] theorem setRegion_poison (s : State) (n : RKey) (v : Region) : (s.setRegion n v).poison = s.poison := rfl
@[simp] theorem setRegion_fit (s : State) (n : RKey) (v : Region) : (s.setRegion n v).fit = s.fit := rfl
@[simp] theorem setRegion_slots (s : State) (n : RKey) (v : Region) : (s.setRegion n v).slots = s.slots := rfl
@[simp] theorem setRegion_cores (s : State) (n : RKey) (v : Region) : (s.setRegion n v).cores = s.cores := rfl
@[simp] theorem setRegion_coves (s : State) (n : RKey) (v : Region) : (s.setRegion n v).coves = s.coves := rfl
@[simp] theorem setRegion_quads (s : State) (n : RKey) (v : Region) : (s.setRegion n v).quads = s.quads := rfl
@[simp] theorem setRegion_ports (s : State) (n : RKey) (v : Region) : (s.setRegion n v).ports = s.ports := rfl
@[simp] theorem setRegion_cells (s : State) (n : RKey) (v : Region) : (s.setRegion n v).cells = s.cells := rfl
@[simp] theorem setRegion_regions (s : State) (n : RKey) (v : Region) : (s.setRegion n v).regions = AMap.set s.regions (RKey.key n) v := rfl
@[simp] theorem setRegion_tenants (s : State) (n : RKey) (v : Region) : (s.setRegion n v).tenants = s.tenants := rfl
@[simp] theorem setRegion_queues (s : State) (n : RKey) (v : Region) : (s.setRegion n v).queues = s.queues := rfl
@[simp] theorem setRegion_mgmt (s : State) (n : RKey) (v : Region) : (s.setRegion n v).mgmt = s.mgmt := rfl
@[simp] theorem modRegion_turns (s : State) (n : RKey) (g : Region → Region) : (s.modRegion n g).turns = s.turns := rfl
@[simp] theorem modRegion_duties (s : State) (n : RKey) (g : Region → Region) : (s.modRegion n g).duties = s.duties := rfl
@[simp] theorem modRegion_clk (s : State) (n : RKey) (g : Region → Region) : (s.modRegion n g).clk = s.clk := rfl
@[simp] theorem modRegion_cur (s : State) (n : RKey) (g : Region → Region) : (s.modRegion n g).cur = s.cur := rfl
@[simp] theorem modRegion_fire (s : State) (n : RKey) (g : Region → Region) : (s.modRegion n g).fire = s.fire := rfl
@[simp] theorem modRegion_freeCtr (s : State) (n : RKey) (g : Region → Region) : (s.modRegion n g).freeCtr = s.freeCtr := rfl
@[simp] theorem modRegion_stall (s : State) (n : RKey) (g : Region → Region) : (s.modRegion n g).stall = s.stall := rfl
@[simp] theorem modRegion_walked (s : State) (n : RKey) (g : Region → Region) : (s.modRegion n g).walked = s.walked := rfl
@[simp] theorem modRegion_mem (s : State) (n : RKey) (g : Region → Region) : (s.modRegion n g).mem = s.mem := rfl
@[simp] theorem modRegion_feEmpty (s : State) (n : RKey) (g : Region → Region) : (s.modRegion n g).feEmpty = s.feEmpty := rfl
@[simp] theorem modRegion_poison (s : State) (n : RKey) (g : Region → Region) : (s.modRegion n g).poison = s.poison := rfl
@[simp] theorem modRegion_fit (s : State) (n : RKey) (g : Region → Region) : (s.modRegion n g).fit = s.fit := rfl
@[simp] theorem modRegion_slots (s : State) (n : RKey) (g : Region → Region) : (s.modRegion n g).slots = s.slots := rfl
@[simp] theorem modRegion_cores (s : State) (n : RKey) (g : Region → Region) : (s.modRegion n g).cores = s.cores := rfl
@[simp] theorem modRegion_coves (s : State) (n : RKey) (g : Region → Region) : (s.modRegion n g).coves = s.coves := rfl
@[simp] theorem modRegion_quads (s : State) (n : RKey) (g : Region → Region) : (s.modRegion n g).quads = s.quads := rfl
@[simp] theorem modRegion_ports (s : State) (n : RKey) (g : Region → Region) : (s.modRegion n g).ports = s.ports := rfl
@[simp] theorem modRegion_cells (s : State) (n : RKey) (g : Region → Region) : (s.modRegion n g).cells = s.cells := rfl
@[simp] theorem modRegion_tenants (s : State) (n : RKey) (g : Region → Region) : (s.modRegion n g).tenants = s.tenants := rfl
@[simp] theorem modRegion_queues (s : State) (n : RKey) (g : Region → Region) : (s.modRegion n g).queues = s.queues := rfl
@[simp] theorem modRegion_mgmt (s : State) (n : RKey) (g : Region → Region) : (s.modRegion n g).mgmt = s.mgmt := rfl
@[simp] theorem region_setRegion (s : State) (n : RKey) (v : Region) : (s.setRegion n v).region n = v := by
  simp [State.region, State.setRegion]
@[simp] theorem region_modRegion (s : State) (n : RKey) (g : Region → Region) : (s.modRegion n g).region n = g (s.region n) := by
  simp [State.modRegion]
@[simp] theorem slot_setRegion (s : State) (n : RKey) (v : Region) (m : Nat) : (s.setRegion n v).slot m = s.slot m := rfl
@[simp] theorem slot_modRegion (s : State) (n : RKey) (g : Region → Region) (m : Nat) : (s.modRegion n g).slot m = s.slot m := rfl
@[simp] theorem core_setRegion (s : State) (n : RKey) (v : Region) (m : Nat) : (s.setRegion n v).core m = s.core m := rfl
@[simp] theorem core_modRegion (s : State) (n : RKey) (g : Region → Region) (m : Nat) : (s.modRegion n g).core m = s.core m := rfl
@[simp] theorem cove_setRegion (s : State) (n : RKey) (v : Region) (m : Nat) : (s.setRegion n v).cove m = s.cove m := rfl
@[simp] theorem cove_modRegion (s : State) (n : RKey) (g : Region → Region) (m : Nat) : (s.modRegion n g).cove m = s.cove m := rfl
@[simp] theorem quad_setRegion (s : State) (n : RKey) (v : Region) (m : Nat) : (s.setRegion n v).quad m = s.quad m := rfl
@[simp] theorem quad_modRegion (s : State) (n : RKey) (g : Region → Region) (m : Nat) : (s.modRegion n g).quad m = s.quad m := rfl
@[simp] theorem port_setRegion (s : State) (n : RKey) (v : Region) (m : Nat) : (s.setRegion n v).port m = s.port m := rfl
@[simp] theorem port_modRegion (s : State) (n : RKey) (g : Region → Region) (m : Nat) : (s.modRegion n g).port m = s.port m := rfl
@[simp] theorem cell_setRegion (s : State) (n : RKey) (v : Region) (m : Nat) : (s.setRegion n v).cell m = s.cell m := rfl
@[simp] theorem cell_modRegion (s : State) (n : RKey) (g : Region → Region) (m : Nat) : (s.modRegion n g).cell m = s.cell m := rfl
@[simp] theorem tenant_setRegion (s : State) (n : RKey) (v : Region) (m : Nat) : (s.setRegion n v).tenant m = s.tenant m := rfl
@[simp] theorem tenant_modRegion (s : State) (n : RKey) (g : Region → Region) (m : Nat) : (s.modRegion n g).tenant m = s.tenant m := rfl
@[simp] theorem queue_setRegion (s : State) (n : RKey) (v : Region) (m : Nat) : (s.setRegion n v).queue m = s.queue m := rfl
@[simp] theorem queue_modRegion (s : State) (n : RKey) (g : Region → Region) (m : Nat) : (s.modRegion n g).queue m = s.queue m := rfl

/-! ## Tenant -/

@[simp] theorem setTenant_turns (s : State) (n : Nat) (v : Tenant) : (s.setTenant n v).turns = s.turns := rfl
@[simp] theorem setTenant_duties (s : State) (n : Nat) (v : Tenant) : (s.setTenant n v).duties = s.duties := rfl
@[simp] theorem setTenant_clk (s : State) (n : Nat) (v : Tenant) : (s.setTenant n v).clk = s.clk := rfl
@[simp] theorem setTenant_cur (s : State) (n : Nat) (v : Tenant) : (s.setTenant n v).cur = s.cur := rfl
@[simp] theorem setTenant_fire (s : State) (n : Nat) (v : Tenant) : (s.setTenant n v).fire = s.fire := rfl
@[simp] theorem setTenant_freeCtr (s : State) (n : Nat) (v : Tenant) : (s.setTenant n v).freeCtr = s.freeCtr := rfl
@[simp] theorem setTenant_stall (s : State) (n : Nat) (v : Tenant) : (s.setTenant n v).stall = s.stall := rfl
@[simp] theorem setTenant_walked (s : State) (n : Nat) (v : Tenant) : (s.setTenant n v).walked = s.walked := rfl
@[simp] theorem setTenant_mem (s : State) (n : Nat) (v : Tenant) : (s.setTenant n v).mem = s.mem := rfl
@[simp] theorem setTenant_feEmpty (s : State) (n : Nat) (v : Tenant) : (s.setTenant n v).feEmpty = s.feEmpty := rfl
@[simp] theorem setTenant_poison (s : State) (n : Nat) (v : Tenant) : (s.setTenant n v).poison = s.poison := rfl
@[simp] theorem setTenant_fit (s : State) (n : Nat) (v : Tenant) : (s.setTenant n v).fit = s.fit := rfl
@[simp] theorem setTenant_slots (s : State) (n : Nat) (v : Tenant) : (s.setTenant n v).slots = s.slots := rfl
@[simp] theorem setTenant_cores (s : State) (n : Nat) (v : Tenant) : (s.setTenant n v).cores = s.cores := rfl
@[simp] theorem setTenant_coves (s : State) (n : Nat) (v : Tenant) : (s.setTenant n v).coves = s.coves := rfl
@[simp] theorem setTenant_quads (s : State) (n : Nat) (v : Tenant) : (s.setTenant n v).quads = s.quads := rfl
@[simp] theorem setTenant_ports (s : State) (n : Nat) (v : Tenant) : (s.setTenant n v).ports = s.ports := rfl
@[simp] theorem setTenant_cells (s : State) (n : Nat) (v : Tenant) : (s.setTenant n v).cells = s.cells := rfl
@[simp] theorem setTenant_regions (s : State) (n : Nat) (v : Tenant) : (s.setTenant n v).regions = s.regions := rfl
@[simp] theorem setTenant_tenants (s : State) (n : Nat) (v : Tenant) : (s.setTenant n v).tenants = AMap.set s.tenants (n) v := rfl
@[simp] theorem setTenant_queues (s : State) (n : Nat) (v : Tenant) : (s.setTenant n v).queues = s.queues := rfl
@[simp] theorem setTenant_mgmt (s : State) (n : Nat) (v : Tenant) : (s.setTenant n v).mgmt = s.mgmt := rfl
@[simp] theorem modTenant_turns (s : State) (n : Nat) (g : Tenant → Tenant) : (s.modTenant n g).turns = s.turns := rfl
@[simp] theorem modTenant_duties (s : State) (n : Nat) (g : Tenant → Tenant) : (s.modTenant n g).duties = s.duties := rfl
@[simp] theorem modTenant_clk (s : State) (n : Nat) (g : Tenant → Tenant) : (s.modTenant n g).clk = s.clk := rfl
@[simp] theorem modTenant_cur (s : State) (n : Nat) (g : Tenant → Tenant) : (s.modTenant n g).cur = s.cur := rfl
@[simp] theorem modTenant_fire (s : State) (n : Nat) (g : Tenant → Tenant) : (s.modTenant n g).fire = s.fire := rfl
@[simp] theorem modTenant_freeCtr (s : State) (n : Nat) (g : Tenant → Tenant) : (s.modTenant n g).freeCtr = s.freeCtr := rfl
@[simp] theorem modTenant_stall (s : State) (n : Nat) (g : Tenant → Tenant) : (s.modTenant n g).stall = s.stall := rfl
@[simp] theorem modTenant_walked (s : State) (n : Nat) (g : Tenant → Tenant) : (s.modTenant n g).walked = s.walked := rfl
@[simp] theorem modTenant_mem (s : State) (n : Nat) (g : Tenant → Tenant) : (s.modTenant n g).mem = s.mem := rfl
@[simp] theorem modTenant_feEmpty (s : State) (n : Nat) (g : Tenant → Tenant) : (s.modTenant n g).feEmpty = s.feEmpty := rfl
@[simp] theorem modTenant_poison (s : State) (n : Nat) (g : Tenant → Tenant) : (s.modTenant n g).poison = s.poison := rfl
@[simp] theorem modTenant_fit (s : State) (n : Nat) (g : Tenant → Tenant) : (s.modTenant n g).fit = s.fit := rfl
@[simp] theorem modTenant_slots (s : State) (n : Nat) (g : Tenant → Tenant) : (s.modTenant n g).slots = s.slots := rfl
@[simp] theorem modTenant_cores (s : State) (n : Nat) (g : Tenant → Tenant) : (s.modTenant n g).cores = s.cores := rfl
@[simp] theorem modTenant_coves (s : State) (n : Nat) (g : Tenant → Tenant) : (s.modTenant n g).coves = s.coves := rfl
@[simp] theorem modTenant_quads (s : State) (n : Nat) (g : Tenant → Tenant) : (s.modTenant n g).quads = s.quads := rfl
@[simp] theorem modTenant_ports (s : State) (n : Nat) (g : Tenant → Tenant) : (s.modTenant n g).ports = s.ports := rfl
@[simp] theorem modTenant_cells (s : State) (n : Nat) (g : Tenant → Tenant) : (s.modTenant n g).cells = s.cells := rfl
@[simp] theorem modTenant_regions (s : State) (n : Nat) (g : Tenant → Tenant) : (s.modTenant n g).regions = s.regions := rfl
@[simp] theorem modTenant_queues (s : State) (n : Nat) (g : Tenant → Tenant) : (s.modTenant n g).queues = s.queues := rfl
@[simp] theorem modTenant_mgmt (s : State) (n : Nat) (g : Tenant → Tenant) : (s.modTenant n g).mgmt = s.mgmt := rfl
@[simp] theorem tenant_setTenant (s : State) (n : Nat) (v : Tenant) : (s.setTenant n v).tenant n = v := by
  simp [State.tenant, State.setTenant]
theorem tenant_setTenant_ne (s : State) {m n : Nat} (v : Tenant) (h : m ≠ n) : (s.setTenant n v).tenant m = s.tenant m := by
  simp [State.tenant, State.setTenant, AMap.getD_set_ne _ _ _ h]
theorem tenant_modTenant_ne (s : State) {m n : Nat} (g : Tenant → Tenant) (h : m ≠ n) : (s.modTenant n g).tenant m = s.tenant m :=
  tenant_setTenant_ne s _ h
@[simp] theorem tenant_modTenant (s : State) (n : Nat) (g : Tenant → Tenant) : (s.modTenant n g).tenant n = g (s.tenant n) := by
  simp [State.modTenant]
@[simp] theorem slot_setTenant (s : State) (n : Nat) (v : Tenant) (m : Nat) : (s.setTenant n v).slot m = s.slot m := rfl
@[simp] theorem slot_modTenant (s : State) (n : Nat) (g : Tenant → Tenant) (m : Nat) : (s.modTenant n g).slot m = s.slot m := rfl
@[simp] theorem core_setTenant (s : State) (n : Nat) (v : Tenant) (m : Nat) : (s.setTenant n v).core m = s.core m := rfl
@[simp] theorem core_modTenant (s : State) (n : Nat) (g : Tenant → Tenant) (m : Nat) : (s.modTenant n g).core m = s.core m := rfl
@[simp] theorem cove_setTenant (s : State) (n : Nat) (v : Tenant) (m : Nat) : (s.setTenant n v).cove m = s.cove m := rfl
@[simp] theorem cove_modTenant (s : State) (n : Nat) (g : Tenant → Tenant) (m : Nat) : (s.modTenant n g).cove m = s.cove m := rfl
@[simp] theorem quad_setTenant (s : State) (n : Nat) (v : Tenant) (m : Nat) : (s.setTenant n v).quad m = s.quad m := rfl
@[simp] theorem quad_modTenant (s : State) (n : Nat) (g : Tenant → Tenant) (m : Nat) : (s.modTenant n g).quad m = s.quad m := rfl
@[simp] theorem port_setTenant (s : State) (n : Nat) (v : Tenant) (m : Nat) : (s.setTenant n v).port m = s.port m := rfl
@[simp] theorem port_modTenant (s : State) (n : Nat) (g : Tenant → Tenant) (m : Nat) : (s.modTenant n g).port m = s.port m := rfl
@[simp] theorem cell_setTenant (s : State) (n : Nat) (v : Tenant) (m : Nat) : (s.setTenant n v).cell m = s.cell m := rfl
@[simp] theorem cell_modTenant (s : State) (n : Nat) (g : Tenant → Tenant) (m : Nat) : (s.modTenant n g).cell m = s.cell m := rfl
@[simp] theorem region_setTenant (s : State) (n : Nat) (v : Tenant) (m : RKey) : (s.setTenant n v).region m = s.region m := rfl
@[simp] theorem region_modTenant (s : State) (n : Nat) (g : Tenant → Tenant) (m : RKey) : (s.modTenant n g).region m = s.region m := rfl
@[simp] theorem queue_setTenant (s : State) (n : Nat) (v : Tenant) (m : Nat) : (s.setTenant n v).queue m = s.queue m := rfl
@[simp] theorem queue_modTenant (s : State) (n : Nat) (g : Tenant → Tenant) (m : Nat) : (s.modTenant n g).queue m = s.queue m := rfl

/-! ## Queue -/

@[simp] theorem setQueue_turns (s : State) (n : Nat) (v : Queue) : (s.setQueue n v).turns = s.turns := rfl
@[simp] theorem setQueue_duties (s : State) (n : Nat) (v : Queue) : (s.setQueue n v).duties = s.duties := rfl
@[simp] theorem setQueue_clk (s : State) (n : Nat) (v : Queue) : (s.setQueue n v).clk = s.clk := rfl
@[simp] theorem setQueue_cur (s : State) (n : Nat) (v : Queue) : (s.setQueue n v).cur = s.cur := rfl
@[simp] theorem setQueue_fire (s : State) (n : Nat) (v : Queue) : (s.setQueue n v).fire = s.fire := rfl
@[simp] theorem setQueue_freeCtr (s : State) (n : Nat) (v : Queue) : (s.setQueue n v).freeCtr = s.freeCtr := rfl
@[simp] theorem setQueue_stall (s : State) (n : Nat) (v : Queue) : (s.setQueue n v).stall = s.stall := rfl
@[simp] theorem setQueue_walked (s : State) (n : Nat) (v : Queue) : (s.setQueue n v).walked = s.walked := rfl
@[simp] theorem setQueue_mem (s : State) (n : Nat) (v : Queue) : (s.setQueue n v).mem = s.mem := rfl
@[simp] theorem setQueue_feEmpty (s : State) (n : Nat) (v : Queue) : (s.setQueue n v).feEmpty = s.feEmpty := rfl
@[simp] theorem setQueue_poison (s : State) (n : Nat) (v : Queue) : (s.setQueue n v).poison = s.poison := rfl
@[simp] theorem setQueue_fit (s : State) (n : Nat) (v : Queue) : (s.setQueue n v).fit = s.fit := rfl
@[simp] theorem setQueue_slots (s : State) (n : Nat) (v : Queue) : (s.setQueue n v).slots = s.slots := rfl
@[simp] theorem setQueue_cores (s : State) (n : Nat) (v : Queue) : (s.setQueue n v).cores = s.cores := rfl
@[simp] theorem setQueue_coves (s : State) (n : Nat) (v : Queue) : (s.setQueue n v).coves = s.coves := rfl
@[simp] theorem setQueue_quads (s : State) (n : Nat) (v : Queue) : (s.setQueue n v).quads = s.quads := rfl
@[simp] theorem setQueue_ports (s : State) (n : Nat) (v : Queue) : (s.setQueue n v).ports = s.ports := rfl
@[simp] theorem setQueue_cells (s : State) (n : Nat) (v : Queue) : (s.setQueue n v).cells = s.cells := rfl
@[simp] theorem setQueue_regions (s : State) (n : Nat) (v : Queue) : (s.setQueue n v).regions = s.regions := rfl
@[simp] theorem setQueue_tenants (s : State) (n : Nat) (v : Queue) : (s.setQueue n v).tenants = s.tenants := rfl
@[simp] theorem setQueue_queues (s : State) (n : Nat) (v : Queue) : (s.setQueue n v).queues = AMap.set s.queues (n) v := rfl
@[simp] theorem setQueue_mgmt (s : State) (n : Nat) (v : Queue) : (s.setQueue n v).mgmt = s.mgmt := rfl
@[simp] theorem modQueue_turns (s : State) (n : Nat) (g : Queue → Queue) : (s.modQueue n g).turns = s.turns := rfl
@[simp] theorem modQueue_duties (s : State) (n : Nat) (g : Queue → Queue) : (s.modQueue n g).duties = s.duties := rfl
@[simp] theorem modQueue_clk (s : State) (n : Nat) (g : Queue → Queue) : (s.modQueue n g).clk = s.clk := rfl
@[simp] theorem modQueue_cur (s : State) (n : Nat) (g : Queue → Queue) : (s.modQueue n g).cur = s.cur := rfl
@[simp] theorem modQueue_fire (s : State) (n : Nat) (g : Queue → Queue) : (s.modQueue n g).fire = s.fire := rfl
@[simp] theorem modQueue_freeCtr (s : State) (n : Nat) (g : Queue → Queue) : (s.modQueue n g).freeCtr = s.freeCtr := rfl
@[simp] theorem modQueue_stall (s : State) (n : Nat) (g : Queue → Queue) : (s.modQueue n g).stall = s.stall := rfl
@[simp] theorem modQueue_walked (s : State) (n : Nat) (g : Queue → Queue) : (s.modQueue n g).walked = s.walked := rfl
@[simp] theorem modQueue_mem (s : State) (n : Nat) (g : Queue → Queue) : (s.modQueue n g).mem = s.mem := rfl
@[simp] theorem modQueue_feEmpty (s : State) (n : Nat) (g : Queue → Queue) : (s.modQueue n g).feEmpty = s.feEmpty := rfl
@[simp] theorem modQueue_poison (s : State) (n : Nat) (g : Queue → Queue) : (s.modQueue n g).poison = s.poison := rfl
@[simp] theorem modQueue_fit (s : State) (n : Nat) (g : Queue → Queue) : (s.modQueue n g).fit = s.fit := rfl
@[simp] theorem modQueue_slots (s : State) (n : Nat) (g : Queue → Queue) : (s.modQueue n g).slots = s.slots := rfl
@[simp] theorem modQueue_cores (s : State) (n : Nat) (g : Queue → Queue) : (s.modQueue n g).cores = s.cores := rfl
@[simp] theorem modQueue_coves (s : State) (n : Nat) (g : Queue → Queue) : (s.modQueue n g).coves = s.coves := rfl
@[simp] theorem modQueue_quads (s : State) (n : Nat) (g : Queue → Queue) : (s.modQueue n g).quads = s.quads := rfl
@[simp] theorem modQueue_ports (s : State) (n : Nat) (g : Queue → Queue) : (s.modQueue n g).ports = s.ports := rfl
@[simp] theorem modQueue_cells (s : State) (n : Nat) (g : Queue → Queue) : (s.modQueue n g).cells = s.cells := rfl
@[simp] theorem modQueue_regions (s : State) (n : Nat) (g : Queue → Queue) : (s.modQueue n g).regions = s.regions := rfl
@[simp] theorem modQueue_tenants (s : State) (n : Nat) (g : Queue → Queue) : (s.modQueue n g).tenants = s.tenants := rfl
@[simp] theorem modQueue_mgmt (s : State) (n : Nat) (g : Queue → Queue) : (s.modQueue n g).mgmt = s.mgmt := rfl
@[simp] theorem queue_setQueue (s : State) (n : Nat) (v : Queue) : (s.setQueue n v).queue n = v := by
  simp [State.queue, State.setQueue]
theorem queue_setQueue_ne (s : State) {m n : Nat} (v : Queue) (h : m ≠ n) : (s.setQueue n v).queue m = s.queue m := by
  simp [State.queue, State.setQueue, AMap.getD_set_ne _ _ _ h]
theorem queue_modQueue_ne (s : State) {m n : Nat} (g : Queue → Queue) (h : m ≠ n) : (s.modQueue n g).queue m = s.queue m :=
  queue_setQueue_ne s _ h
@[simp] theorem queue_modQueue (s : State) (n : Nat) (g : Queue → Queue) : (s.modQueue n g).queue n = g (s.queue n) := by
  simp [State.modQueue]
@[simp] theorem slot_setQueue (s : State) (n : Nat) (v : Queue) (m : Nat) : (s.setQueue n v).slot m = s.slot m := rfl
@[simp] theorem slot_modQueue (s : State) (n : Nat) (g : Queue → Queue) (m : Nat) : (s.modQueue n g).slot m = s.slot m := rfl
@[simp] theorem core_setQueue (s : State) (n : Nat) (v : Queue) (m : Nat) : (s.setQueue n v).core m = s.core m := rfl
@[simp] theorem core_modQueue (s : State) (n : Nat) (g : Queue → Queue) (m : Nat) : (s.modQueue n g).core m = s.core m := rfl
@[simp] theorem cove_setQueue (s : State) (n : Nat) (v : Queue) (m : Nat) : (s.setQueue n v).cove m = s.cove m := rfl
@[simp] theorem cove_modQueue (s : State) (n : Nat) (g : Queue → Queue) (m : Nat) : (s.modQueue n g).cove m = s.cove m := rfl
@[simp] theorem quad_setQueue (s : State) (n : Nat) (v : Queue) (m : Nat) : (s.setQueue n v).quad m = s.quad m := rfl
@[simp] theorem quad_modQueue (s : State) (n : Nat) (g : Queue → Queue) (m : Nat) : (s.modQueue n g).quad m = s.quad m := rfl
@[simp] theorem port_setQueue (s : State) (n : Nat) (v : Queue) (m : Nat) : (s.setQueue n v).port m = s.port m := rfl
@[simp] theorem port_modQueue (s : State) (n : Nat) (g : Queue → Queue) (m : Nat) : (s.modQueue n g).port m = s.port m := rfl
@[simp] theorem cell_setQueue (s : State) (n : Nat) (v : Queue) (m : Nat) : (s.setQueue n v).cell m = s.cell m := rfl
@[simp] theorem cell_modQueue (s : State) (n : Nat) (g : Queue → Queue) (m : Nat) : (s.modQueue n g).cell m = s.cell m := rfl
@[simp] theorem region_setQueue (s : State) (n : Nat) (v : Queue) (m : RKey) : (s.setQueue n v).region m = s.region m := rfl
@[simp] theorem region_modQueue (s : State) (n : Nat) (g : Queue → Queue) (m : RKey) : (s.modQueue n g).region m = s.region m := rfl
@[simp] theorem tenant_setQueue (s : State) (n : Nat) (v : Queue) (m : Nat) : (s.setQueue n v).tenant m = s.tenant m := rfl
@[simp] theorem tenant_modQueue (s : State) (n : Nat) (g : Queue → Queue) (m : Nat) : (s.modQueue n g).tenant m = s.tenant m := rfl

/-! ## Management core, events in flight -/

@[simp] theorem modMgmt_turns (s : State) (g : Mgmt → Mgmt) : (s.modMgmt g).turns = s.turns := rfl
@[simp] theorem modMgmt_duties (s : State) (g : Mgmt → Mgmt) : (s.modMgmt g).duties = s.duties := rfl
@[simp] theorem modMgmt_clk (s : State) (g : Mgmt → Mgmt) : (s.modMgmt g).clk = s.clk := rfl
@[simp] theorem modMgmt_cur (s : State) (g : Mgmt → Mgmt) : (s.modMgmt g).cur = s.cur := rfl
@[simp] theorem modMgmt_fire (s : State) (g : Mgmt → Mgmt) : (s.modMgmt g).fire = s.fire := rfl
@[simp] theorem modMgmt_freeCtr (s : State) (g : Mgmt → Mgmt) : (s.modMgmt g).freeCtr = s.freeCtr := rfl
@[simp] theorem modMgmt_stall (s : State) (g : Mgmt → Mgmt) : (s.modMgmt g).stall = s.stall := rfl
@[simp] theorem modMgmt_walked (s : State) (g : Mgmt → Mgmt) : (s.modMgmt g).walked = s.walked := rfl
@[simp] theorem modMgmt_mem (s : State) (g : Mgmt → Mgmt) : (s.modMgmt g).mem = s.mem := rfl
@[simp] theorem modMgmt_feEmpty (s : State) (g : Mgmt → Mgmt) : (s.modMgmt g).feEmpty = s.feEmpty := rfl
@[simp] theorem modMgmt_poison (s : State) (g : Mgmt → Mgmt) : (s.modMgmt g).poison = s.poison := rfl
@[simp] theorem modMgmt_fit (s : State) (g : Mgmt → Mgmt) : (s.modMgmt g).fit = s.fit := rfl
@[simp] theorem modMgmt_slots (s : State) (g : Mgmt → Mgmt) : (s.modMgmt g).slots = s.slots := rfl
@[simp] theorem modMgmt_cores (s : State) (g : Mgmt → Mgmt) : (s.modMgmt g).cores = s.cores := rfl
@[simp] theorem modMgmt_coves (s : State) (g : Mgmt → Mgmt) : (s.modMgmt g).coves = s.coves := rfl
@[simp] theorem modMgmt_quads (s : State) (g : Mgmt → Mgmt) : (s.modMgmt g).quads = s.quads := rfl
@[simp] theorem modMgmt_ports (s : State) (g : Mgmt → Mgmt) : (s.modMgmt g).ports = s.ports := rfl
@[simp] theorem modMgmt_cells (s : State) (g : Mgmt → Mgmt) : (s.modMgmt g).cells = s.cells := rfl
@[simp] theorem modMgmt_regions (s : State) (g : Mgmt → Mgmt) : (s.modMgmt g).regions = s.regions := rfl
@[simp] theorem modMgmt_tenants (s : State) (g : Mgmt → Mgmt) : (s.modMgmt g).tenants = s.tenants := rfl
@[simp] theorem modMgmt_queues (s : State) (g : Mgmt → Mgmt) : (s.modMgmt g).queues = s.queues := rfl
@[simp] theorem modMgmt_mgmt (s : State) (g : Mgmt → Mgmt) : (s.modMgmt g).mgmt = g s.mgmt := rfl
@[simp] theorem after_turns (s : State) (n : Nat) (e : Ev) : (s.after n e).turns = s.turns := rfl
@[simp] theorem after_duties (s : State) (n : Nat) (e : Ev) : (s.after n e).duties = s.duties ++ [{ due := s.clk + n, work := .ev e }] := rfl
@[simp] theorem after_clk (s : State) (n : Nat) (e : Ev) : (s.after n e).clk = s.clk := rfl
@[simp] theorem after_cur (s : State) (n : Nat) (e : Ev) : (s.after n e).cur = s.cur := rfl
@[simp] theorem after_fire (s : State) (n : Nat) (e : Ev) : (s.after n e).fire = s.fire := rfl
@[simp] theorem after_freeCtr (s : State) (n : Nat) (e : Ev) : (s.after n e).freeCtr = s.freeCtr := rfl
@[simp] theorem after_stall (s : State) (n : Nat) (e : Ev) : (s.after n e).stall = s.stall := rfl
@[simp] theorem after_walked (s : State) (n : Nat) (e : Ev) : (s.after n e).walked = s.walked := rfl
@[simp] theorem after_mem (s : State) (n : Nat) (e : Ev) : (s.after n e).mem = s.mem := rfl
@[simp] theorem after_feEmpty (s : State) (n : Nat) (e : Ev) : (s.after n e).feEmpty = s.feEmpty := rfl
@[simp] theorem after_poison (s : State) (n : Nat) (e : Ev) : (s.after n e).poison = s.poison := rfl
@[simp] theorem after_fit (s : State) (n : Nat) (e : Ev) : (s.after n e).fit = s.fit := rfl
@[simp] theorem after_slots (s : State) (n : Nat) (e : Ev) : (s.after n e).slots = s.slots := rfl
@[simp] theorem after_cores (s : State) (n : Nat) (e : Ev) : (s.after n e).cores = s.cores := rfl
@[simp] theorem after_coves (s : State) (n : Nat) (e : Ev) : (s.after n e).coves = s.coves := rfl
@[simp] theorem after_quads (s : State) (n : Nat) (e : Ev) : (s.after n e).quads = s.quads := rfl
@[simp] theorem after_ports (s : State) (n : Nat) (e : Ev) : (s.after n e).ports = s.ports := rfl
@[simp] theorem after_cells (s : State) (n : Nat) (e : Ev) : (s.after n e).cells = s.cells := rfl
@[simp] theorem after_regions (s : State) (n : Nat) (e : Ev) : (s.after n e).regions = s.regions := rfl
@[simp] theorem after_tenants (s : State) (n : Nat) (e : Ev) : (s.after n e).tenants = s.tenants := rfl
@[simp] theorem after_queues (s : State) (n : Nat) (e : Ev) : (s.after n e).queues = s.queues := rfl
@[simp] theorem after_mgmt (s : State) (n : Nat) (e : Ev) : (s.after n e).mgmt = s.mgmt := rfl
@[simp] theorem slot_modMgmt (s : State) (h : Mgmt → Mgmt) (m : Nat) : (s.modMgmt h).slot m = s.slot m := rfl
@[simp] theorem slot_after (s : State) (n : Nat) (e : Ev) (m : Nat) : (s.after n e).slot m = s.slot m := rfl
@[simp] theorem core_modMgmt (s : State) (h : Mgmt → Mgmt) (m : Nat) : (s.modMgmt h).core m = s.core m := rfl
@[simp] theorem core_after (s : State) (n : Nat) (e : Ev) (m : Nat) : (s.after n e).core m = s.core m := rfl
@[simp] theorem cove_modMgmt (s : State) (h : Mgmt → Mgmt) (m : Nat) : (s.modMgmt h).cove m = s.cove m := rfl
@[simp] theorem cove_after (s : State) (n : Nat) (e : Ev) (m : Nat) : (s.after n e).cove m = s.cove m := rfl
@[simp] theorem quad_modMgmt (s : State) (h : Mgmt → Mgmt) (m : Nat) : (s.modMgmt h).quad m = s.quad m := rfl
@[simp] theorem quad_after (s : State) (n : Nat) (e : Ev) (m : Nat) : (s.after n e).quad m = s.quad m := rfl
@[simp] theorem port_modMgmt (s : State) (h : Mgmt → Mgmt) (m : Nat) : (s.modMgmt h).port m = s.port m := rfl
@[simp] theorem port_after (s : State) (n : Nat) (e : Ev) (m : Nat) : (s.after n e).port m = s.port m := rfl
@[simp] theorem cell_modMgmt (s : State) (h : Mgmt → Mgmt) (m : Nat) : (s.modMgmt h).cell m = s.cell m := rfl
@[simp] theorem cell_after (s : State) (n : Nat) (e : Ev) (m : Nat) : (s.after n e).cell m = s.cell m := rfl
@[simp] theorem region_modMgmt (s : State) (h : Mgmt → Mgmt) (m : RKey) : (s.modMgmt h).region m = s.region m := rfl
@[simp] theorem region_after (s : State) (n : Nat) (e : Ev) (m : RKey) : (s.after n e).region m = s.region m := rfl
@[simp] theorem tenant_modMgmt (s : State) (h : Mgmt → Mgmt) (m : Nat) : (s.modMgmt h).tenant m = s.tenant m := rfl
@[simp] theorem tenant_after (s : State) (n : Nat) (e : Ev) (m : Nat) : (s.after n e).tenant m = s.tenant m := rfl
@[simp] theorem queue_modMgmt (s : State) (h : Mgmt → Mgmt) (m : Nat) : (s.modMgmt h).queue m = s.queue m := rfl
@[simp] theorem queue_after (s : State) (n : Nat) (e : Ev) (m : Nat) : (s.after n e).queue m = s.queue m := rfl

/-! ## The slot that issues -/

@[simp] theorem modMe_turns (s : State) (g : Slot → Slot) : (s.modMe g).turns = s.turns := rfl
@[simp] theorem jumpTo_turns (s : State) (p : Word) : (s.jumpTo p).turns = s.turns := rfl
@[simp] theorem retire_turns (s : State) : s.retire.turns = s.turns := rfl
@[simp] theorem holdOn_turns (s : State) (k : WaitKind) (i : Instr) (a : Word) : (s.holdOn k i a).turns = s.turns := rfl
@[simp] theorem retireFor_turns (s : State) (k : WaitKind) (n : Nat) (e : Ev) : (s.retireFor k n e).turns = s.turns := rfl
@[simp] theorem modMe_duties (s : State) (g : Slot → Slot) : (s.modMe g).duties = s.duties := rfl
@[simp] theorem jumpTo_duties (s : State) (p : Word) : (s.jumpTo p).duties = s.duties := rfl
@[simp] theorem retire_duties (s : State) : s.retire.duties = s.duties := rfl
@[simp] theorem holdOn_duties (s : State) (k : WaitKind) (i : Instr) (a : Word) : (s.holdOn k i a).duties = s.duties := rfl
@[simp] theorem modMe_clk (s : State) (g : Slot → Slot) : (s.modMe g).clk = s.clk := rfl
@[simp] theorem jumpTo_clk (s : State) (p : Word) : (s.jumpTo p).clk = s.clk := rfl
@[simp] theorem retire_clk (s : State) : s.retire.clk = s.clk := rfl
@[simp] theorem holdOn_clk (s : State) (k : WaitKind) (i : Instr) (a : Word) : (s.holdOn k i a).clk = s.clk := rfl
@[simp] theorem retireFor_clk (s : State) (k : WaitKind) (n : Nat) (e : Ev) : (s.retireFor k n e).clk = s.clk := rfl
@[simp] theorem modMe_cur (s : State) (g : Slot → Slot) : (s.modMe g).cur = s.cur := rfl
@[simp] theorem jumpTo_cur (s : State) (p : Word) : (s.jumpTo p).cur = s.cur := rfl
@[simp] theorem retire_cur (s : State) : s.retire.cur = s.cur := rfl
@[simp] theorem holdOn_cur (s : State) (k : WaitKind) (i : Instr) (a : Word) : (s.holdOn k i a).cur = s.cur := rfl
@[simp] theorem retireFor_cur (s : State) (k : WaitKind) (n : Nat) (e : Ev) : (s.retireFor k n e).cur = s.cur := rfl
@[simp] theorem modMe_fire (s : State) (g : Slot → Slot) : (s.modMe g).fire = s.fire := rfl
@[simp] theorem jumpTo_fire (s : State) (p : Word) : (s.jumpTo p).fire = s.fire := rfl
@[simp] theorem retire_fire (s : State) : s.retire.fire = s.fire := rfl
@[simp] theorem holdOn_fire (s : State) (k : WaitKind) (i : Instr) (a : Word) : (s.holdOn k i a).fire = s.fire := rfl
@[simp] theorem retireFor_fire (s : State) (k : WaitKind) (n : Nat) (e : Ev) : (s.retireFor k n e).fire = s.fire := rfl
@[simp] theorem modMe_freeCtr (s : State) (g : Slot → Slot) : (s.modMe g).freeCtr = s.freeCtr := rfl
@[simp] theorem jumpTo_freeCtr (s : State) (p : Word) : (s.jumpTo p).freeCtr = s.freeCtr := rfl
@[simp] theorem retire_freeCtr (s : State) : s.retire.freeCtr = s.freeCtr := rfl
@[simp] theorem holdOn_freeCtr (s : State) (k : WaitKind) (i : Instr) (a : Word) : (s.holdOn k i a).freeCtr = s.freeCtr := rfl
@[simp] theorem retireFor_freeCtr (s : State) (k : WaitKind) (n : Nat) (e : Ev) : (s.retireFor k n e).freeCtr = s.freeCtr := rfl
@[simp] theorem modMe_stall (s : State) (g : Slot → Slot) : (s.modMe g).stall = s.stall := rfl
@[simp] theorem jumpTo_stall (s : State) (p : Word) : (s.jumpTo p).stall = s.stall := rfl
@[simp] theorem retire_stall (s : State) : s.retire.stall = s.stall := rfl
@[simp] theorem holdOn_stall (s : State) (k : WaitKind) (i : Instr) (a : Word) : (s.holdOn k i a).stall = s.stall := rfl
@[simp] theorem retireFor_stall (s : State) (k : WaitKind) (n : Nat) (e : Ev) : (s.retireFor k n e).stall = s.stall := rfl
@[simp] theorem modMe_walked (s : State) (g : Slot → Slot) : (s.modMe g).walked = s.walked := rfl
@[simp] theorem jumpTo_walked (s : State) (p : Word) : (s.jumpTo p).walked = s.walked := rfl
@[simp] theorem retire_walked (s : State) : s.retire.walked = s.walked := rfl
@[simp] theorem holdOn_walked (s : State) (k : WaitKind) (i : Instr) (a : Word) : (s.holdOn k i a).walked = s.walked := rfl
@[simp] theorem retireFor_walked (s : State) (k : WaitKind) (n : Nat) (e : Ev) : (s.retireFor k n e).walked = s.walked := rfl
@[simp] theorem modMe_mem (s : State) (g : Slot → Slot) : (s.modMe g).mem = s.mem := rfl
@[simp] theorem jumpTo_mem (s : State) (p : Word) : (s.jumpTo p).mem = s.mem := rfl
@[simp] theorem retire_mem (s : State) : s.retire.mem = s.mem := rfl
@[simp] theorem holdOn_mem (s : State) (k : WaitKind) (i : Instr) (a : Word) : (s.holdOn k i a).mem = s.mem := rfl
@[simp] theorem retireFor_mem (s : State) (k : WaitKind) (n : Nat) (e : Ev) : (s.retireFor k n e).mem = s.mem := rfl
@[simp] theorem modMe_feEmpty (s : State) (g : Slot → Slot) : (s.modMe g).feEmpty = s.feEmpty := rfl
@[simp] theorem jumpTo_feEmpty (s : State) (p : Word) : (s.jumpTo p).feEmpty = s.feEmpty := rfl
@[simp] theorem retire_feEmpty (s : State) : s.retire.feEmpty = s.feEmpty := rfl
@[simp] theorem holdOn_feEmpty (s : State) (k : WaitKind) (i : Instr) (a : Word) : (s.holdOn k i a).feEmpty = s.feEmpty := rfl
@[simp] theorem retireFor_feEmpty (s : State) (k : WaitKind) (n : Nat) (e : Ev) : (s.retireFor k n e).feEmpty = s.feEmpty := rfl
@[simp] theorem modMe_poison (s : State) (g : Slot → Slot) : (s.modMe g).poison = s.poison := rfl
@[simp] theorem jumpTo_poison (s : State) (p : Word) : (s.jumpTo p).poison = s.poison := rfl
@[simp] theorem retire_poison (s : State) : s.retire.poison = s.poison := rfl
@[simp] theorem holdOn_poison (s : State) (k : WaitKind) (i : Instr) (a : Word) : (s.holdOn k i a).poison = s.poison := rfl
@[simp] theorem retireFor_poison (s : State) (k : WaitKind) (n : Nat) (e : Ev) : (s.retireFor k n e).poison = s.poison := rfl
@[simp] theorem modMe_fit (s : State) (g : Slot → Slot) : (s.modMe g).fit = s.fit := rfl
@[simp] theorem jumpTo_fit (s : State) (p : Word) : (s.jumpTo p).fit = s.fit := rfl
@[simp] theorem retire_fit (s : State) : s.retire.fit = s.fit := rfl
@[simp] theorem holdOn_fit (s : State) (k : WaitKind) (i : Instr) (a : Word) : (s.holdOn k i a).fit = s.fit := rfl
@[simp] theorem retireFor_fit (s : State) (k : WaitKind) (n : Nat) (e : Ev) : (s.retireFor k n e).fit = s.fit := rfl
@[simp] theorem modMe_cores (s : State) (g : Slot → Slot) : (s.modMe g).cores = s.cores := rfl
@[simp] theorem jumpTo_cores (s : State) (p : Word) : (s.jumpTo p).cores = s.cores := rfl
@[simp] theorem retire_cores (s : State) : s.retire.cores = s.cores := rfl
@[simp] theorem holdOn_cores (s : State) (k : WaitKind) (i : Instr) (a : Word) : (s.holdOn k i a).cores = s.cores := rfl
@[simp] theorem retireFor_cores (s : State) (k : WaitKind) (n : Nat) (e : Ev) : (s.retireFor k n e).cores = s.cores := rfl
@[simp] theorem modMe_coves (s : State) (g : Slot → Slot) : (s.modMe g).coves = s.coves := rfl
@[simp] theorem jumpTo_coves (s : State) (p : Word) : (s.jumpTo p).coves = s.coves := rfl
@[simp] theorem retire_coves (s : State) : s.retire.coves = s.coves := rfl
@[simp] theorem holdOn_coves (s : State) (k : WaitKind) (i : Instr) (a : Word) : (s.holdOn k i a).coves = s.coves := rfl
@[simp] theorem retireFor_coves (s : State) (k : WaitKind) (n : Nat) (e : Ev) : (s.retireFor k n e).coves = s.coves := rfl
@[simp] theorem modMe_quads (s : State) (g : Slot → Slot) : (s.modMe g).quads = s.quads := rfl
@[simp] theorem jumpTo_quads (s : State) (p : Word) : (s.jumpTo p).quads = s.quads := rfl
@[simp] theorem retire_quads (s : State) : s.retire.quads = s.quads := rfl
@[simp] theorem holdOn_quads (s : State) (k : WaitKind) (i : Instr) (a : Word) : (s.holdOn k i a).quads = s.quads := rfl
@[simp] theorem retireFor_quads (s : State) (k : WaitKind) (n : Nat) (e : Ev) : (s.retireFor k n e).quads = s.quads := rfl
@[simp] theorem modMe_ports (s : State) (g : Slot → Slot) : (s.modMe g).ports = s.ports := rfl
@[simp] theorem jumpTo_ports (s : State) (p : Word) : (s.jumpTo p).ports = s.ports := rfl
@[simp] theorem retire_ports (s : State) : s.retire.ports = s.ports := rfl
@[simp] theorem holdOn_ports (s : State) (k : WaitKind) (i : Instr) (a : Word) : (s.holdOn k i a).ports = s.ports := rfl
@[simp] theorem retireFor_ports (s : State) (k : WaitKind) (n : Nat) (e : Ev) : (s.retireFor k n e).ports = s.ports := rfl
@[simp] theorem modMe_cells (s : State) (g : Slot → Slot) : (s.modMe g).cells = s.cells := rfl
@[simp] theorem jumpTo_cells (s : State) (p : Word) : (s.jumpTo p).cells = s.cells := rfl
@[simp] theorem retire_cells (s : State) : s.retire.cells = s.cells := rfl
@[simp] theorem holdOn_cells (s : State) (k : WaitKind) (i : Instr) (a : Word) : (s.holdOn k i a).cells = s.cells := rfl
@[simp] theorem retireFor_cells (s : State) (k : WaitKind) (n : Nat) (e : Ev) : (s.retireFor k n e).cells = s.cells := rfl
@[simp] theorem modMe_regions (s : State) (g : Slot → Slot) : (s.modMe g).regions = s.regions := rfl
@[simp] theorem jumpTo_regions (s : State) (p : Word) : (s.jumpTo p).regions = s.regions := rfl
@[simp] theorem retire_regions (s : State) : s.retire.regions = s.regions := rfl
@[simp] theorem holdOn_regions (s : State) (k : WaitKind) (i : Instr) (a : Word) : (s.holdOn k i a).regions = s.regions := rfl
@[simp] theorem retireFor_regions (s : State) (k : WaitKind) (n : Nat) (e : Ev) : (s.retireFor k n e).regions = s.regions := rfl
@[simp] theorem modMe_tenants (s : State) (g : Slot → Slot) : (s.modMe g).tenants = s.tenants := rfl
@[simp] theorem jumpTo_tenants (s : State) (p : Word) : (s.jumpTo p).tenants = s.tenants := rfl
@[simp] theorem retire_tenants (s : State) : s.retire.tenants = s.tenants := rfl
@[simp] theorem holdOn_tenants (s : State) (k : WaitKind) (i : Instr) (a : Word) : (s.holdOn k i a).tenants = s.tenants := rfl
@[simp] theorem retireFor_tenants (s : State) (k : WaitKind) (n : Nat) (e : Ev) : (s.retireFor k n e).tenants = s.tenants := rfl
@[simp] theorem modMe_queues (s : State) (g : Slot → Slot) : (s.modMe g).queues = s.queues := rfl
@[simp] theorem jumpTo_queues (s : State) (p : Word) : (s.jumpTo p).queues = s.queues := rfl
@[simp] theorem retire_queues (s : State) : s.retire.queues = s.queues := rfl
@[simp] theorem holdOn_queues (s : State) (k : WaitKind) (i : Instr) (a : Word) : (s.holdOn k i a).queues = s.queues := rfl
@[simp] theorem retireFor_queues (s : State) (k : WaitKind) (n : Nat) (e : Ev) : (s.retireFor k n e).queues = s.queues := rfl
@[simp] theorem modMe_mgmt (s : State) (g : Slot → Slot) : (s.modMe g).mgmt = s.mgmt := rfl
@[simp] theorem jumpTo_mgmt (s : State) (p : Word) : (s.jumpTo p).mgmt = s.mgmt := rfl
@[simp] theorem retire_mgmt (s : State) : s.retire.mgmt = s.mgmt := rfl
@[simp] theorem holdOn_mgmt (s : State) (k : WaitKind) (i : Instr) (a : Word) : (s.holdOn k i a).mgmt = s.mgmt := rfl
@[simp] theorem retireFor_mgmt (s : State) (k : WaitKind) (n : Nat) (e : Ev) : (s.retireFor k n e).mgmt = s.mgmt := rfl
@[simp] theorem me_modMe (s : State) (g : Slot → Slot) : (s.modMe g).me = g s.me := slot_modSlot s s.cur g
@[simp] theorem modMe_modMe (s : State) (g h : Slot → Slot) : ((s.modMe g).modMe h).slots = AMap.set (s.modMe g).slots s.cur (h (g s.me)) := by
  show AMap.set _ _ (h (s.modMe g).me) = _
  rw [me_modMe]; rfl
@[simp] theorem me_jumpTo (s : State) (p : Word) : (s.jumpTo p).me = s.me.goto p := me_modMe s _
@[simp] theorem me_retire (s : State) : s.retire.me = s.me.goto (s.me.pc + 4#64) := me_modMe s _
theorem slot_modMe_ne (s : State) (g : Slot → Slot) {n : Nat} (h : n ≠ s.cur) : (s.modMe g).slot n = s.slot n :=
  slot_modSlot_ne s g h

end Sys2Proof.Machine
end

