-- ==== Sys2Proof/Laws/Slot.lean ====
section
/-! SUPPORT. The operations of a slot, said once: what a commit answers, what reading and writing a register answers, and
what neither changes. -/

namespace Sys2Proof.Machine

/-! ## Outcomes -/

@[simp] theorem commit_ok (s t : State) : s.commit (.ok t) = .next t := rfl
@[simp] theorem commit_error (s : State) (t : Trap) : s.commit (.error t) = .next (s.takeTrap t) := rfl

@[simp] theorem ok_bind {ε α β : Type} (a : α) (f : α → Except ε β) : ((.ok a : Except ε α) >>= f) = f a := rfl
@[simp] theorem error_bind {ε α β : Type} (e : ε) (f : α → Except ε β) : ((.error e : Except ε α) >>= f) = .error e := rfl
@[simp] theorem pure_eq_ok {ε α : Type} (a : α) : (pure a : Except ε α) = .ok a := rfl

theorem need_ok {b : Bool} (h : b = true) (c : BitVec 8) (v : Word) : need b c v = .ok () := by simp [need, h]
theorem need_error {b : Bool} (h : b = false) (c : BitVec 8) (v : Word) : need b c v = .error { cause := c, tval := v } := by
  simp [need, h]

/-! ## Registers -/

@[simp] theorem xr_zero (s : State) : s.xr 0#5 = .ok 0#64 := by simp [State.xr]
@[simp] theorem putX_zero (s : State) (w : Word) : s.putX 0#5 w = s := by simp [State.putX]

/-- Writing a register that may be written. -/
theorem setX_of_xOk {s : State} {r : XReg} (h : s.xOk r) (w : Word) : s.setX r w = .ok (s.putX r w) := by
  unfold State.setX State.putX
  split
  · rfl
  · next hr => rw [stampWrite, if_neg (h.resolve_left hr)]

/-- A write answers the state written, or POISON. -/
theorem setX_eq {s t : State} {r : XReg} {w : Word} (h : s.setX r w = .ok t) : t = s.putX r w ∧ s.xOk r := by
  unfold State.setX at h
  unfold State.putX State.xOk
  split at h
  · next hr => cases h; simp [hr]
  · next hr =>
    unfold stampWrite at h
    split at h
    · cases h
    · next hg => cases h; simp [hr, hg]

/-- Writing v[r], likewise. -/
theorem setV_of_vOk {s : State} {r : VReg} (h : s.vOk r) (w : VWord) : s.setV r w = .ok (s.putV r w) := by
  unfold State.setV State.putV
  rw [stampWrite, if_neg h]

/-- What reads back after a write: the value of another register is the one it had; that of the register itself the
value written (R112, R189), when the slot's own generation is not poison. -/
theorem xr_putX_self (s : State) {r : XReg} (h : r ≠ 0#5) (hg : s.me.gen ≠ 0xFFFF#16) (w : Word) :
    (s.putX r w).xr r = .ok w := by
  have hx : ∀ v : Slot, (v.putX r { val := w, gen := v.gen }).xreg r = { val := w, gen := v.gen } := by
    intro v
    cases hv : v.inHandler <;> by_cases hr : r.toNat < 16 <;> simp [Slot.xreg, Slot.putX, Slot.shadowed, hv, hr]
  have hgen : ∀ v : Slot, (v.putX r { val := w, gen := v.gen }).gen = v.gen := by
    intro v; unfold Slot.putX; split <;> rfl
  simp [State.putX, State.xr, h, hx, hgen, stampRead, hg]

@[simp] theorem putX_cur (s : State) (r : XReg) (w : Word) : (s.putX r w).cur = s.cur := by
  unfold State.putX; split <;> simp
@[simp] theorem putX_mem (s : State) (r : XReg) (w : Word) : (s.putX r w).mem = s.mem := by
  unfold State.putX; split <;> simp

end Sys2Proof.Machine
end

