-- ==== Sys2Proof/Laws/Memory.lean ====
section
/-! SUPPORT. The memory operations, said once: each keeps the canonical form and leaves alone what is no memory, cache,
queue window, tenant counter or timing (`keeps`). -/

namespace Sys2Proof.Machine

theorem keeps_refl (s : State) : keeps s s := ⟨rfl, id⟩

theorem keeps_trans {s t u : State} (h : keeps s t) (g : keeps t u) : keeps s u := ⟨g.1.trans h.1, fun c => g.2 (h.2 c)⟩

theorem keeps_foldl {α : Type} {f : State → α → State} (h : ∀ s a, keeps s (f s a)) (l : List α) (s : State) :
    keeps s (l.foldl f s) := by
  induction l generalizing s with
  | nil => exact keeps_refl s
  | cons a l ih => exact keeps_trans (h s a) (ih _)

/-! ## Updates that touch no memory -/

theorem keeps_modCore (s : State) (n : Nat) (f : Core → Core) : keeps s (s.modCore n f) := ⟨rfl, id⟩
theorem keeps_setCore (s : State) (n : Nat) (v : Core) : keeps s (s.setCore n v) := ⟨rfl, id⟩
theorem keeps_modCove (s : State) (n : Nat) (f : Cove → Cove) : keeps s (s.modCove n f) := ⟨rfl, id⟩
theorem keeps_modTenant (s : State) (n : Nat) (f : Tenant → Tenant) : keeps s (s.modTenant n f) := ⟨rfl, id⟩
theorem keeps_modMgmt (s : State) (f : Mgmt → Mgmt) : keeps s (s.modMgmt f) := ⟨rfl, id⟩
theorem keeps_countEcc (s : State) (n : Nat) : keeps s (s.countEcc n) := ⟨rfl, id⟩
theorem keeps_count (s : State) (v : Nat) (c : Ctr) : keeps s (s.count v c) := ⟨rfl, id⟩
theorem keeps_after (s : State) (n : Nat) (e : Ev) : keeps s (s.after n e) := ⟨rfl, id⟩
theorem keeps_stallFor (s : State) (n : Nat) : keeps s (s.stallFor n) := ⟨rfl, id⟩
theorem keeps_cores (s : State) (c : AMap Core) : keeps s { s with cores := c } := ⟨rfl, id⟩
theorem keeps_walked (s : State) (b : Bool) : keeps s { s with walked := b } := ⟨rfl, id⟩
theorem keeps_pick (s : State) (n : Nat) : keeps s (s.pick n).2 := by
  unfold State.pick; split <;> exact ⟨rfl, id⟩
theorem keeps_dropLine (s : State) (core : Nat) (p : Phys) : keeps s (s.dropLine core p) := ⟨rfl, id⟩

/-! ## The homes -/

theorem keeps_setFull (s : State) (pa : Nat) : keeps s (s.setFull pa) :=
  ⟨rfl, fun h => ⟨h.1, AMap.sorted_del _ _ h.2.1, h.2.2⟩⟩
theorem keeps_setEmpty (s : State) (pa : Nat) : keeps s (s.setEmpty pa) :=
  ⟨rfl, fun h => ⟨h.1, AMap.sorted_set _ _ _ h.2.1, h.2.2⟩⟩
theorem keeps_wr (s : State) (pa : Nat) (b : Byte) : keeps s { s with mem := Bytes.wr s.mem pa b } :=
  ⟨rfl, fun h => ⟨Bytes.wf_wr _ _ _ h.1, h.2⟩⟩
theorem keeps_clean (s : State) (line : Nat) : keeps s { s with poison := AMap.del s.poison line } :=
  ⟨rfl, fun h => ⟨h.1, h.2.1, AMap.sorted_del _ _ h.2.2.1, h.2.2.2⟩⟩

theorem keeps_putBytes (s : State) (line : Nat) (bs : List (Nat × Byte)) : keeps s (putBytes s line bs) := by
  induction bs generalizing s with
  | nil => exact keeps_refl s
  | cons p r ih =>
    obtain ⟨o, b⟩ := p
    refine keeps_trans (keeps_wr s (64 * line + o) b) (keeps_trans ?_ (ih _))
    split
    · exact keeps_setFull _ _
    · exact keeps_refl _

theorem keeps_putLine (s : State) (line : Nat) (whole : Bool) (bs : List (Nat × Byte)) : keeps s (putLine s line whole bs) := by
  unfold putLine
  split
  · exact keeps_countEcc _ _
  · exact keeps_trans (keeps_clean _ _) (keeps_putBytes _ _ _)

theorem keeps_invalidate (s : State) (src : Option Nat) (line : Nat) (l : List Nat) : keeps s (invalidate s src line l) := by
  induction l generalizing s with
  | nil => exact keeps_refl s
  | cons c r ih =>
    refine keeps_trans ?_ (ih _)
    split
    · exact keeps_refl s
    · split
      · exact keeps_refl s
      · next l _ =>
        have hk : keeps s (if l.unsent.isEmpty then s else putLine s line l.whole l.unsent) := by
          split
          · exact keeps_refl s
          · exact keeps_putLine _ _ _ _
        refine keeps_trans hk ?_
        dsimp only
        generalize (if l.unsent.isEmpty = true then s else putLine s line l.whole l.unsent) = u
        split
        · exact keeps_trans (keeps_cores u _) (keeps_modCove _ _ _)
        · exact keeps_trans (keeps_cores u _) (keeps_trans (keeps_modCove _ _ _) (keeps_cores _ _))

theorem keeps_homePut (s : State) (src : Option Nat) (line : Nat) (whole : Bool) (bs : List (Nat × Byte)) :
    keeps s (homePut s src line whole bs) := by
  unfold homePut
  split
  · exact keeps_countEcc _ _
  · exact keeps_trans (keeps_invalidate _ _ _ _) (keeps_putLine _ _ _ _)

theorem keeps_homeWriteAux (n : Nat) (s : State) (src : Option Nat) (pa : Nat) (bs : List Byte) :
    keeps s (homeWriteAux n s src pa bs) := by
  induction n generalizing s pa bs with
  | zero => exact keeps_refl s
  | succ n ih =>
    unfold homeWriteAux
    split
    · exact keeps_refl s
    · exact keeps_trans (keeps_homePut _ _ _ _ _) (ih _ _ _)

/-! ## The register window -/

/-- A listed queue's window is canonical in a canonical state, and that of one not listed is empty. -/
theorem queue_wf {s : State} (h : s.canonical) (q : Nat) : Bytes.wf (s.queue q).window = true := by
  have key : ∀ m : AMap Queue, (∀ p ∈ m, Bytes.wf p.2.window = true) → Bytes.wf (AMap.getD m q {}).window = true := by
    intro m hm
    induction m with
    | nil => rfl
    | cons p m ih =>
      simp only [AMap.getD, AMap.get?]
      split
      · exact hm p (by simp)
      · split
        · rfl
        · exact ih fun p hp => hm p (by simp [hp])
  exact key _ h.2.2.2

theorem keeps_setQueue (s : State) (q : Nat) (v : Queue) (h : s.canonical → Bytes.wf v.window = true) :
    keeps s (s.setQueue q v) :=
  ⟨rfl, fun c => ⟨c.1, c.2.1, c.2.2.1, fun p hp => by
    rcases Bytes.mem_set hp with rfl | hp
    · exact h c
    · exact c.2.2.2 p hp⟩⟩

theorem keeps_wakeMgmt (s : State) : keeps s s.wakeMgmt := by
  unfold State.wakeMgmt
  split
  · exact keeps_refl s
  · split
    · exact keeps_refl s
    · exact keeps_after _ _ _

theorem keeps_wakeQueue (s : State) (q n : Nat) : keeps s (s.wakeQueue q n) := by
  unfold State.wakeQueue
  split
  · exact keeps_wakeMgmt s
  · split
    · exact keeps_refl s
    · split
      · exact keeps_refl s
      · exact keeps_after _ _ _

theorem keeps_slotWrite (s : State) (q off : Nat) (bs : List Byte) : keeps s (slotWrite s q off bs) := by
  have hw : s.canonical → Bytes.wf (Bytes.wrN (s.queue q).window off bs) = true := fun c => Bytes.wf_wrN _ _ _ (queue_wf c q)
  unfold slotWrite
  dsimp only
  split
  · exact keeps_refl s
  · split
    · split
      · exact keeps_trans (keeps_setQueue s q { s.queue q with ovr := true } fun c => queue_wf c q) (keeps_count _ _ _)
      · exact keeps_refl s
    · split
      · refine keeps_trans (keeps_setQueue s q
          { s.queue q with
            window := Bytes.wrN (s.queue q).window off bs, ingress := (s.queue q).ingress ++ [off / 64] } hw) (keeps_trans ?_ (keeps_wakeQueue _ _ _))
        split
        · exact keeps_modMgmt _ _
        · exact keeps_refl _
      · exact keeps_setQueue s q { s.queue q with window := Bytes.wrN (s.queue q).window off bs } hw

theorem keeps_windowWrite (n : Nat) (s : State) (q off : Nat) (bs : List Byte) : keeps s (windowWrite n s q off bs) := by
  induction n generalizing s off bs with
  | zero => exact keeps_refl s
  | succ n ih =>
    unfold windowWrite
    split
    · exact keeps_refl s
    · exact keeps_trans (keeps_slotWrite _ _ _ _) (ih _ _ _)

theorem keeps_tsyncPut (s : State) (b : Bool) (w : Word) : keeps s (tsyncPut s b w) := keeps_modMgmt _ _

theorem keeps_regWrite (s : State) (off : Nat) (bs : List Byte) : keeps s (regWrite s off bs) := by
  unfold regWrite
  split
  · exact keeps_windowWrite _ _ _ _ _
  · split
    · exact keeps_tsyncPut _ _ _
    · split
      · exact keeps_tsyncPut _ _ _
      · split
        · exact keeps_trans (keeps_tsyncPut _ _ _) (keeps_tsyncPut _ _ _)
        · exact keeps_refl s

theorem keeps_homeWrite (s : State) (src : Option Nat) (pa : Nat) (bs : List Byte) : keeps s (s.homeWrite src pa bs) := by
  unfold State.homeWrite
  split
  · exact keeps_regWrite _ _ _
  · exact keeps_homeWriteAux _ _ _ _ _

/-! ## Caches and buffers -/

theorem keeps_l2Forward (s : State) (cove line : Nat) : keeps s (s.l2Forward cove line) := by
  unfold State.l2Forward
  split
  · exact keeps_refl s
  · split
    · exact keeps_refl s
    · exact keeps_trans (keeps_modCove _ _ _) (keeps_homePut _ _ _ _ _)

theorem keeps_gather (s : State) (line : Nat) : keeps s (s.gather line) := keeps_foldl (fun _ _ => keeps_l2Forward _ _ _) _ _

theorem keeps_dropOld (s : State) (cove line : Nat) : keeps s (s.dropOld cove line) := by
  unfold State.dropOld
  split
  · exact keeps_refl s
  · split
    · exact keeps_trans (keeps_modCove _ _ _) (keeps_cores _ _)
    · exact keeps_refl s

theorem keeps_dropOlds (s : State) (cove : Nat) : keeps s (s.dropOlds cove) := keeps_foldl (fun _ _ => keeps_dropOld _ _ _) _ _

theorem keeps_l2Evict (s : State) (cove : Nat) : keeps s (s.l2Evict cove) := by
  unfold State.l2Evict
  split
  · exact keeps_refl s
  · have h := keeps_pick s (s.cove cove).l2.length
    generalize s.pick (s.cove cove).l2.length = r at h ⊢
    obtain ⟨k, u⟩ := r
    refine keeps_trans h (keeps_trans (keeps_l2Forward u cove ((AMap.keys (u.cove cove).l2).getD k 0)) ?_)
    dsimp only
    split
    · exact keeps_refl _
    · exact ⟨rfl, id⟩

theorem keeps_l2Line (s : State) (cove : Nat) (p : Phys) : keeps s (s.l2Line cove p).2 := by
  unfold State.l2Line
  dsimp only
  split
  · split
    · exact ⟨rfl, id⟩
    · exact keeps_refl s
  · refine keeps_trans (keeps_l2Evict s cove) ?_
    generalize s.l2Evict cove = u
    dsimp only
    split <;> exact ⟨rfl, id⟩

theorem keeps_l2Read (s : State) (cove : Nat) (p : Phys) (n : Nat) : keeps s (s.l2Read cove p n).2 := by
  unfold State.l2Read
  split
  · exact keeps_stallFor _ _
  · exact keeps_trans (keeps_stallFor _ _) (keeps_l2Line _ _ _)

theorem keeps_l2Put (s : State) (cove : Nat) (p : Phys) (offs : List Nat) (whole : Bool) (f : BitVec 512 → BitVec 512) :
    keeps s (s.l2Put cove p offs whole f) := by
  unfold State.l2Put
  split
  · exact keeps_countEcc _ _
  · have h := keeps_l2Line s cove p
    generalize s.l2Line cove p = r at h ⊢
    obtain ⟨l, u⟩ := r
    refine keeps_trans h ?_
    dsimp only
    split
    · refine keeps_trans ?_ (keeps_l2Forward _ _ _)
      exact ⟨rfl, id⟩
    · split <;> exact ⟨rfl, id⟩

theorem keeps_l2Write (s : State) (cove : Nat) (p : Phys) (bs : List Byte) : keeps s (s.l2Write cove p bs) := by
  unfold State.l2Write
  split
  · exact keeps_homeWrite _ _ _ _
  · exact keeps_l2Put _ _ _ _ _ _

theorem keeps_l2ForwardAll (s : State) (cove : Nat) : keeps s (s.l2ForwardAll cove) :=
  keeps_foldl (fun _ _ => keeps_l2Forward _ _ _) _ _

theorem keeps_cbDrain (s : State) (core line : Nat) : keeps s (s.cbDrain core line) := by
  unfold State.cbDrain
  dsimp only
  split
  · exact keeps_refl s
  · exact keeps_trans (keeps_setCore _ _ _) (keeps_l2Put _ _ _ _ _ _)

theorem keeps_cbDrainAll (s : State) (core : Nat) : keeps s (s.cbDrainAll core) :=
  keeps_foldl (fun _ _ => keeps_cbDrain _ _ _) _ _

theorem keeps_l1dLine (s : State) (core : Nat) (p : Phys) : keeps s (s.l1dLine core p).2 := by
  have h1 : keeps s (((s.stallFor Config.l2Clk).l2Line (coveOfCore core) p).2) :=
    keeps_trans (keeps_stallFor s Config.l2Clk) (keeps_l2Line _ (coveOfCore core) p)
  unfold State.l1dLine
  dsimp only
  generalize (s.stallFor Config.l2Clk).l2Line (coveOfCore core) p = r at h1 ⊢
  obtain ⟨l2, u⟩ := r
  have h2 := keeps_pick u (u.core core).l1d.length
  generalize u.pick (u.core core).l1d.length = q at h2 ⊢
  obtain ⟨k, w⟩ := q
  generalize (if (match AMap.get? (s.cove (coveOfCore core)).l2 (p.pa / 64) with | some l => l.sup | none => true) = true
    then none else AMap.get? (s.core core).l1d (p.pa / 32)) = o
  cases o with
  | some l => exact keeps_refl s
  | none =>
    dsimp only
    by_cases hl : (u.core core).l1d.length < l1dLines
    · rw [if_pos hl]; exact keeps_trans h1 ⟨rfl, id⟩
    · rw [if_neg hl]; exact keeps_trans h1 (keeps_trans h2 ⟨rfl, id⟩)

theorem keeps_coreRead (s : State) (core : Nat) (p : Phys) (n : Nat) : keeps s (s.coreRead core p n).2 := by
  unfold State.coreRead
  split
  · exact keeps_stallFor _ _
  · exact keeps_l1dLine _ _ _

theorem keeps_coreWrite (s : State) (core : Nat) (p : Phys) (bs : List Byte) : keeps s (s.coreWrite core p bs) := by
  unfold State.coreWrite
  split
  · exact keeps_homeWrite _ _ _ _
  · dsimp only
    split
    · exact keeps_setCore _ _ _
    · refine keeps_trans ?_ (keeps_trans (keeps_modCore _ _ _) (keeps_after _ _ _))
      split
      · exact keeps_refl s
      · split
        · exact keeps_refl s
        · exact keeps_cbDrain _ _ _

theorem keeps_bringHome (s : State) (core : Nat) (p : Phys) : keeps s (s.bringHome core p) :=
  keeps_trans (keeps_cbDrain _ _ _) (keeps_trans (keeps_cbDrain _ _ _) (keeps_gather _ _))

theorem keeps_releaseAt (s : State) (core : Nat) (sc : Scope) : keeps s (s.releaseAt core sc) := by
  cases sc
  · exact keeps_refl s
  · exact keeps_cbDrainAll _ _
  · exact keeps_trans (keeps_cbDrainAll _ _) (keeps_l2ForwardAll _ _)
  · exact keeps_trans (keeps_cbDrainAll _ _) (keeps_l2ForwardAll _ _)

theorem keeps_acquireAt (s : State) (core : Nat) (sc : Scope) : keeps s (s.acquireAt core sc) := by
  cases sc
  · exact keeps_refl s
  all_goals exact keeps_modCore _ _ _

theorem keeps_atHome (s : State) (ag : Agent) (p : Phys) : keeps s (s.atHome ag p) := by
  unfold State.atHome
  split
  · exact keeps_bringHome _ _ _
  · exact keeps_gather _ _

theorem keeps_putHome (s : State) (ag : Agent) (p : Phys) (bs : List Byte) : keeps s (s.putHome ag p bs) :=
  keeps_trans (keeps_atHome _ _ _) (keeps_trans (keeps_homeWrite _ _ _ _) (keeps_dropOld _ _ _))

/-! ## Translation -/

theorem keeps_leafOf (s : State) (rd : Nat → Option Word) (level idx : Nat) (e : Word) :
    keeps s (leafOf s rd level idx e).2 := by
  unfold leafOf
  dsimp only
  split
  · exact keeps_pick _ _
  · exact keeps_refl s

theorem keeps_tableEntry {s t : State} {w : Walker} {level pa : Nat} {e : Word} (h : s.tableEntry w level pa = .ok (e, t)) :
    keeps s t := by
  have ok : ∀ {x : Word} {u : State}, keeps s u → (.ok (x, u) : Except WalkFail (Word × State)) = .ok (e, t) → keeps s t := by
    intro x u hu he
    simp only [Except.ok.injEq, Prod.mk.injEq] at he
    exact he.2 ▸ hu
  unfold State.tableEntry at h
  split at h
  · split at h
    · simp at h
    · exact ok (keeps_refl s) h
  · split at h
    · exact ok (keeps_refl s) h
    · split at h
      · simp at h
      · dsimp only at h
        split at h
        · exact ok (keeps_refl s) h
        · split at h
          · exact ok (keeps_modCove _ _ _) h
          · exact ok (keeps_trans (keeps_pick _ _) (keeps_modCove _ _ _)) h

theorem keeps_walk2 {w : Walker} {ipa n : Nat} {l : Leaf} {t : State} :
    ∀ {s : State} {table : Nat}, walk2 s w ipa table n = .ok (l, t) → keeps s t := by
  induction n with
  | zero => intro s table h; simp [walk2] at h
  | succ n ih =>
    intro s table h
    simp only [walk2] at h
    split at h
    · cases h
    · next e u he =>
      refine keeps_trans (keeps_tableEntry he) ?_
      split at h
      · cases h
      · split at h
        · injection h with h
          exact (congrArg (fun q => keeps u q.2) h).mp (keeps_leafOf u _ (n + 1) _ _)
        · exact ih h

theorem keeps_walkRead {s t : State} {w : Walker} {root ipa pa : Nat} (h : walkRead s w root ipa = .ok (pa, t)) : keeps s t := by
  unfold walkRead at h
  split at h
  · cases h
  · split at h
    · cases h
    · next h2 =>
      dsimp only at h
      split at h
      · cases h; exact keeps_walk2 h2
      · cases h

theorem keeps_walk1 {w : Walker} {root va n : Nat} {l : Leaf} {t : State} :
    ∀ {s : State} {table : Nat}, walk1 s w root va table n = .ok (l, t) → keeps s t := by
  induction n with
  | zero => intro s table h; simp [walk1] at h
  | succ n ih =>
    intro s table h
    simp only [walk1] at h
    split at h
    · cases h
    · next hr =>
      split at h
      · cases h
      · next e u he =>
        refine keeps_trans (keeps_walkRead hr) (keeps_trans (keeps_tableEntry he) ?_)
        split at h
        · cases h
        · split at h
          · injection h with h
            exact (congrArg (fun q => keeps u q.2) h).mp (keeps_leafOf u _ (n + 1) _ _)
          · exact ih h

theorem keeps_walkBoth {s t : State} {ag : Agent} {va : Nat} {e : TlbEntry} (h : walkBoth s ag va = .ok (e, t)) :
    keeps s t := by
  unfold walkBoth at h
  dsimp only at h
  split at h
  · cases h
  · next hw =>
    split at h
    · cases h
    · cases h; exact keeps_walk1 hw
    · next h2 => cases h; exact keeps_trans (keeps_walk1 hw) (keeps_walk2 h2)

theorem keeps_tlbAdd (s : State) (cap : Nat) (t : List TlbEntry) (e : TlbEntry) : keeps s (tlbAdd s cap t e).2 := by
  unfold tlbAdd
  split
  · exact keeps_refl s
  · exact keeps_pick _ _

theorem keeps_nearTlbAdd (s : State) (ag : Agent) (e : TlbEntry) : keeps s (s.nearTlbAdd ag e) := by
  unfold State.nearTlbAdd
  split
  · exact keeps_trans (keeps_tlbAdd _ _ _ _) (keeps_modCore _ _ _)
  · exact keeps_trans (keeps_tlbAdd _ _ _ _) (keeps_modCove _ _ _)
  · exact keeps_refl s

theorem keeps_joinMiss (s : State) (ag : Agent) (va : Nat) : keeps s (joinMiss s ag va) := by
  unfold joinMiss
  split
  · exact keeps_trans (keeps_walked _ _) (keeps_stallFor _ _)
  · exact keeps_refl s

theorem keeps_startMiss (s : State) (ag : Agent) (va : Nat) : keeps s (startMiss s ag va) :=
  keeps_trans (keeps_walked _ _) (keeps_trans (keeps_stallFor _ _) (keeps_modCove _ _ _))

theorem keeps_lookup {s t : State} {ag : Agent} {va : Nat} {e : TlbEntry} (h : lookup s ag va = .ok (e, t)) : keeps s t := by
  unfold lookup at h
  split at h
  · cases h; exact keeps_joinMiss _ _ _
  · split at h
    · cases h
      exact keeps_trans (keeps_nearTlbAdd _ _ _) (keeps_trans (keeps_walked _ _) (keeps_trans (keeps_stallFor _ _) (keeps_joinMiss _ _ _)))
    · split at h
      · cases h
      · next hw =>
        split at h
        · cases h; exact keeps_walkBoth hw
        · cases h
          exact keeps_trans (keeps_walkBoth hw) (keeps_trans (keeps_tlbAdd _ _ _ _) (keeps_trans (keeps_modCove _ _ _)
            (keeps_trans (keeps_nearTlbAdd _ _ _) (keeps_startMiss _ _ _))))

theorem keeps_translate {s t : State} {ag : Agent} {va : Word} {k : Kind} {p : Phys}
    (h : translate s ag va k = .ok (p, t)) : keeps s t := by
  unfold translate at h
  cases hl : lookup s ag (fld va 54 0) with
  | error f => simp only [hl] at h; split at h <;> cases f <;> simp at h
  | ok r =>
    obtain ⟨e, u⟩ := r
    have hk := keeps_lookup hl
    simp only [hl] at h
    repeat' split at h
    all_goals first
      | (injection h with h; exact (congrArg (fun q => keeps s q.2) h).mp hk)
      | exact absurd h (by simp)

theorem keeps_xlat {s t : State} {ag : Agent} {va : Word} {k : Kind} {p : Phys} (h : xlat s ag va k = .ok (p, t)) :
    keeps s t := by
  unfold xlat at h
  split at h
  · cases h
  · next ht =>
    split at h
    · cases h
    · cases h; exact keeps_translate ht

theorem keeps_load {s t : State} {va : Word} {n : Nat} {bs : List Byte} (h : s.load va n = .ok (bs, t)) : keeps s t := by
  unfold State.load at h
  split at h
  · cases h
  · next hx =>
    injection h with h
    exact (congrArg (fun q => keeps s q.2) h).mp (keeps_trans (keeps_xlat hx) (keeps_coreRead _ _ _ _))

theorem keeps_store {s t : State} {va : Word} {bs : List Byte} (h : s.store va bs = .ok t) : keeps s t := by
  unfold State.store at h
  split at h
  · cases h
  · next hx =>
    injection h with h
    exact h ▸ keeps_trans (keeps_xlat hx) (keeps_coreWrite _ _ _ _)

theorem keeps_readAs {s t : State} {ag : Agent} {va : Word} {n : Nat} {bs : List Byte} (h : s.readAs ag va n = .ok (bs, t)) :
    keeps s t := by
  unfold State.readAs at h
  split at h
  · cases h
  · next hx =>
    injection h with h
    exact (congrArg (fun q => keeps s q.2) h).mp (keeps_trans (keeps_xlat hx) (keeps_l2Read _ _ _ _))

theorem keeps_writeAs {s t : State} {ag : Agent} {va : Word} {bs : List Byte} (h : s.writeAs ag va bs = .ok t) :
    keeps s t := by
  unfold State.writeAs at h
  split at h
  · cases h
  · next hx =>
    injection h with h
    exact h ▸ keeps_trans (keeps_xlat hx) (keeps_l2Write _ _ _ _)

/-! ## What `keeps` says of a slot's view -/

theorem keeps_slots {s t : State} (h : keeps s t) : t.slots = s.slots := by
  have := congrArg State.slots h.1; exact this
theorem keeps_cur {s t : State} (h : keeps s t) : t.cur = s.cur := by
  have := congrArg State.cur h.1; exact this
theorem keeps_fit {s t : State} (h : keeps s t) : t.fit = s.fit := by
  have := congrArg State.fit h.1; exact this
theorem keeps_ports {s t : State} (h : keeps s t) : t.ports = s.ports := by
  have := congrArg State.ports h.1; exact this
theorem keeps_cells {s t : State} (h : keeps s t) : t.cells = s.cells := by
  have := congrArg State.cells h.1; exact this
theorem keeps_regions {s t : State} (h : keeps s t) : t.regions = s.regions := by
  have := congrArg State.regions h.1; exact this
theorem keeps_quads {s t : State} (h : keeps s t) : t.quads = s.quads := by
  have := congrArg State.quads h.1; exact this
theorem keeps_me {s t : State} (h : keeps s t) : t.me = s.me := by
  unfold State.me State.slot
  rw [keeps_slots h, keeps_cur h]
theorem keeps_xr {s t : State} (h : keeps s t) (r : XReg) : t.xr r = s.xr r := by
  unfold State.xr; rw [keeps_me h]
theorem keeps_vr {s t : State} (h : keeps s t) (r : VReg) : t.vr r = s.vr r := by
  unfold State.vr; rw [keeps_me h]
theorem keeps_tier {s t : State} (h : keeps s t) (pa : Nat) : t.tier pa = s.tier pa := by
  unfold State.tier; rw [keeps_fit h]

end Sys2Proof.Machine
end

