-- ==== Sys2Proof/Laws/Vector.lean ====
section
/-! SUPPORT. Lanes under a mask, said once: each element of what `lanesOf` builds, its bound and its flags; and what writing
a vector register answers. -/

namespace Sys2Proof.Machine

/-- One more lane. -/
theorem lanesOf_succ (w old : Nat) (act : Nat → Bool) (res : Nat → Nat × NxFlags) (n : Nat) :
    lanesOf w old act res (n + 1) =
      if act n then
        ((lanesOf w old act res n).1 + (res n).1 % 2 ^ w * 2 ^ (w * n), (lanesOf w old act res n).2 ||| (res n).2)
      else ((lanesOf w old act res n).1 + elemN old w n * 2 ^ (w * n), (lanesOf w old act res n).2) := rfl

/-- What is below the lanes' width. -/
theorem lanesOf_lt (w old : Nat) (act : Nat → Bool) (res : Nat → Nat × NxFlags) (n : Nat) :
    (lanesOf w old act res n).1 < 2 ^ (w * n) := by
  induction n with
  | zero => simp [lanesOf]
  | succ n ih =>
    have key : ∀ e, e < 2 ^ w → (lanesOf w old act res n).1 + e * 2 ^ (w * n) < 2 ^ (w * (n + 1)) := by
      intro e he
      have : 2 ^ (w * (n + 1)) = 2 ^ w * 2 ^ (w * n) := by rw [← pow_add]; ring_nf
      rw [this]
      calc _ < 2 ^ (w * n) + e * 2 ^ (w * n) := Nat.add_lt_add_right ih _
        _ = (e + 1) * 2 ^ (w * n) := by ring
        _ ≤ _ := Nat.mul_le_mul_right _ he
    rw [lanesOf_succ]
    split
    · exact key _ (Nat.mod_lt _ (by positivity))
    · exact key _ (Nat.mod_lt _ (by positivity))

/-- An element of a sum of a low part and one element above it. -/
theorem elemN_add {w n k lo e : Nat} (hlo : lo < 2 ^ (w * n)) (he : e < 2 ^ w) (hk : k ≤ n) :
    elemN (lo + e * 2 ^ (w * n)) w k = if k = n then e else elemN lo w k := by
  unfold elemN
  split
  · next h =>
    subst h
    rw [Nat.add_mul_div_right _ _ (by positivity), Nat.div_eq_of_lt hlo, Nat.zero_add, Nat.mod_eq_of_lt he]
  · next h =>
    obtain ⟨d, rfl⟩ : ∃ d, n = k + 1 + d := ⟨n - k - 1, by omega⟩
    have : e * 2 ^ (w * (k + 1 + d)) = 2 ^ (w * k) * (2 ^ w * (e * 2 ^ (w * d))) := by
      rw [show w * (k + 1 + d) = w * k + w + w * d by ring, pow_add, pow_add]; ring
    rw [this, Nat.add_mul_div_left _ _ (by positivity), Nat.add_mul_mod_self_left]

/-- Each element of the lanes: its result where the element is active, what it held elsewhere. -/
theorem lanesOf_elem (w old : Nat) (act : Nat → Bool) (res : Nat → Nat × NxFlags) {n k : Nat} (hk : k < n) :
    elemN (lanesOf w old act res n).1 w k = if act k then (res k).1 % 2 ^ w else elemN old w k := by
  induction n with
  | zero => omega
  | succ n ih =>
    have hlt : ∀ e, elemN e w n < 2 ^ w := fun e => Nat.mod_lt _ (by positivity)
    rw [lanesOf_succ]
    by_cases hn : k = n
    · subst hn
      split
      · rw [elemN_add (lanesOf_lt ..) (Nat.mod_lt _ (by positivity)) le_rfl, if_pos rfl]
      · rw [elemN_add (lanesOf_lt ..) (hlt _) le_rfl, if_pos rfl]
    · split
      · rw [elemN_add (lanesOf_lt ..) (Nat.mod_lt _ (by positivity)) (by omega), if_neg hn, ih (by omega)]
      · rw [elemN_add (lanesOf_lt ..) (hlt _) (by omega), if_neg hn, ih (by omega)]

/-- The flags of the lanes are those of the active elements. -/
theorem lanesOf_flags (w old : Nat) (act : Nat → Bool) (res : Nat → Nat × NxFlags) (n b : Nat) :
    (lanesOf w old act res n).2.getLsbD b = true ↔ ∃ k, k < n ∧ act k = true ∧ (res k).2.getLsbD b = true := by
  induction n with
  | zero => simp [lanesOf]
  | succ n ih =>
    rw [lanesOf_succ]
    split
    · next h =>
      simp only [BitVec.getLsbD_or, Bool.or_eq_true, ih]
      constructor
      · rintro (⟨k, hk, h1, h2⟩ | h2)
        · exact ⟨k, by omega, h1, h2⟩
        · exact ⟨n, by omega, h, h2⟩
      · rintro ⟨k, hk, h1, h2⟩
        by_cases hn : k = n
        · exact .inr (hn ▸ h2)
        · exact .inl ⟨k, by omega, h1, h2⟩
    · next h =>
      simp only [ih]
      constructor
      · rintro ⟨k, hk, h1⟩
        exact ⟨k, by omega, h1⟩
      · rintro ⟨k, hk, h1, h2⟩
        by_cases hn : k = n
        · exact absurd (hn ▸ h1) h
        · exact ⟨k, by omega, h1, h2⟩

/-- A vector write that may take place. -/
theorem vecPut_of_vOk {s : State} {vd : VReg} (h : s.vOk vd) (v : Nat) (fl : NxFlags) :
    s.vecPut vd v fl = .ok (s.vecDone vd (BitVec.ofNat 1024 v) fl) := by
  simp [State.vecPut, setV_of_vOk h, State.vecDone]

/-- Element-wise results, said once: what `vecMap` answers is what `vecWrites` describes. -/
theorem vecWrites_of_vecMap {s : State} {m : Bool} {w n : Nat} {vd : VReg} {v0 : VWord} {res : Nat → Nat × NxFlags}
    (hd : s.vOk vd) (hm : s.vecMask m = .ok v0) (hw : w * n ≤ 1024) :
    s.vecWrites m v0 w n vd res (s.commit (s.vecMap m w n vd res)) := by
  have hlt := lanesOf_lt w (s.vecOld vd).toNat (active m v0) res n
  have h1024 : (lanesOf w (s.vecOld vd).toNat (active m v0) res n).1 < 2 ^ 1024 :=
    lt_of_lt_of_le hlt (Nat.pow_le_pow_right (by norm_num) hw)
  have hact : ∀ k, (active m v0 k = true) ↔ (m = false ∨ v0.getLsbD k) := by
    intro k; cases m <;> simp [active]
  refine ⟨BitVec.ofNat 1024 (lanesOf w (s.vecOld vd).toNat (active m v0) res n).1,
    (lanesOf w (s.vecOld vd).toNat (active m v0) res n).2, ?_, ?_, ?_, ?_⟩
  · simp [State.vecMap, hm, vecPut_of_vOk hd]
  · simpa [BitVec.toNat_ofNat, Nat.mod_eq_of_lt h1024] using hlt
  · intro k hk
    simp only [elemV, BitVec.toNat_ofNat, Nat.mod_eq_of_lt h1024, lanesOf_elem _ _ _ _ hk, hact]
  · intro b
    simp only [lanesOf_flags, hact]

end Sys2Proof.Machine
end

