-- ==== Sys2Proof/Tests/Slice0.lean ====
section
/-! SUPPORT. Tests: words of the encoding tables and what the decoder and the encoders make of them; words and terms that are refused; worked
examples of the manual; and for every statement one concrete state and operands that meet its hypotheses. -/

open Sys2Proof Sys2Proof.Machine

namespace Sys2Proof.Tests

-- one theorem at a time: each evaluation waits for the ones before it
set_option Elab.async false

/-! ## A small machine -/

/-- The value of a read or an access, where it has one and it satisfies `f`. -/
def okThat {ε α : Type} (r : Except ε α) (f : α → Bool) : Bool := match r with | .ok x => f x | .error _ => false

/-- What `okThat` says. -/
theorem okThat_iff {ε α : Type} (r : Except ε α) (f : α → Bool) : okThat r f = true ↔ ∃ x, r = .ok x ∧ f x = true := by
  cases r <;> simp [okThat]

/-- It has a value; it has none. -/
def hasVal {ε α : Type} (r : Except ε α) : Bool := okThat r fun _ => true
def noVal {ε α : Type} (r : Except ε α) : Bool := !hasVal r

/-- A trap taken, with its cause and TVAL. -/
def errIs {α : Type} (r : Except Trap α) (cause : BitVec 8) (tval : Word) : Bool :=
  match r with | .ok _ => false | .error t => t.cause == cause && t.tval == tval

/-- The next state, where there is one and it satisfies `f`. -/
def nextThat (o : Out) (f : State → Bool) : Bool := match o with | .next t => f t | _ => false

theorem nextThat_iff (o : Out) (f : State → Bool) : nextThat o f = true ↔ ∃ t, o = .next t ∧ f t = true := by
  cases o <;> simp [nextThat]

/-- The state after an instruction. -/
def after (i : Instr) (s : State) : State := match exec i s with | .next t => t | _ => s

/-- x[r], or v[r], of the issuing slot may be written. -/
def xFree (s : State) (r : XReg) : Bool := r == 0#5 || (s.me.xreg r).gen != 0xFFFF#16
def vFree (s : State) (r : VReg) : Bool := (s.me.vreg r).gen != 0xFFFF#16

theorem xFree_iff (s : State) (r : XReg) : xFree s r = true ↔ s.xOk r := by simp [xFree, State.xOk]
theorem vFree_iff (s : State) (r : VReg) : vFree s r = true ↔ s.vOk r := by simp [vFree, State.vOk]

/-- Every entry holds. -/
def allOf (l : List Bool) : Bool := l.all id

/-- Slot 0 in user mode under generation 5, with the first 4 TiB mapped onto themselves, x registers and vector
registers as listed (by rising number), and bytes of near memory from 0x50000 on. -/
def lab (xs : List (Nat × Word)) (vs : List (Nat × VWord) := []) (bytes : List Byte := []) : State :=
  let s := withMapping State.reset
  let s := { s with mem := Bytes.wrN s.mem 0x50000 bytes }
  s.modSlot 0 fun v =>
    { v with pc := 0x40000#64, troot := 0x20000#64, gen := 5#16, wait := .run, own := { v.own with vmid := 0#6, idle := false }
             task := some {}, x := xs.map fun p => (p.1, { val := p.2, gen := 5#16 })
             v := vs.map fun p => (p.1, { val := p.2, gen := 5#16 }) }

/-- The slot in supervisor mode. -/
def sup (s : State) : State := s.modMe fun v => { v with sup := true }
/-- Words of LOAD, STORE, OP-IMM, OP-IMM-32, OP and OP-32 (R32; layouts of R30). -/
def wordsInteger : List (BitVec 32 × Instr) :=
  [(0xFFD58A03#32, .load .lb 20 11 0xFFD), (0xFFD59A03#32, .load .lh 20 11 0xFFD),
   (0xFFD5AA03#32, .load .lw 20 11 0xFFD), (0xFFD5BA03#32, .load .ld 20 11 0xFFD),
   (0xFFD5CA03#32, .load .lbu 20 11 0xFFD), (0xFFD5DA03#32, .load .lhu 20 11 0xFFD),
   (0xFFD5EA03#32, .load .lwu 20 11 0xFFD), (0xFFA58EA3#32, .store .b 26 11 0xFFD),
   (0xFFA59EA3#32, .store .h 26 11 0xFFD), (0xFFA5AEA3#32, .store .w 26 11 0xFFD),
   (0xFFA5BEA3#32, .store .d 26 11 0xFFD), (0x7A558A13#32, .opImm .addi 20 11 0x7A5),
   (0x7A55AA13#32, .opImm .slti 20 11 0x7A5), (0x7A55BA13#32, .opImm .sltiu 20 11 0x7A5),
   (0x7A55CA13#32, .opImm .xori 20 11 0x7A5), (0x7A55EA13#32, .opImm .ori 20 11 0x7A5),
   (0x7A55FA13#32, .opImm .andi 20 11 0x7A5), (0x02559A13#32, .opImm .slli 20 11 37),
   (0x0255DA13#32, .opImm .srli 20 11 37), (0x4255DA13#32, .opImm .srai 20 11 37),
   (0xFFF58A1B#32, .opImm32 .addiw 20 11 0xFFF), (0x01359A1B#32, .opImm32 .slliw 20 11 19),
   (0x0135DA1B#32, .opImm32 .srliw 20 11 19), (0x4135DA1B#32, .opImm32 .sraiw 20 11 19)] ++
  [(0x01A58A33#32, .op .add 20 11 26), (0x41A58A33#32, .op .sub 20 11 26), (0x01A59A33#32, .op .sll 20 11 26),
   (0x01A5AA33#32, .op .slt 20 11 26), (0x01A5BA33#32, .op .sltu 20 11 26), (0x01A5CA33#32, .op .xor 20 11 26),
   (0x01A5DA33#32, .op .srl 20 11 26), (0x41A5DA33#32, .op .sra 20 11 26), (0x01A5EA33#32, .op .or 20 11 26),
   (0x01A5FA33#32, .op .and 20 11 26), (0x03A58A33#32, .op .mul 20 11 26), (0x03A59A33#32, .op .mulh 20 11 26),
   (0x03A5AA33#32, .op .mulhsu 20 11 26), (0x03A5BA33#32, .op .mulhu 20 11 26), (0x03A5CA33#32, .op .div 20 11 26),
   (0x03A5DA33#32, .op .divu 20 11 26), (0x03A5EA33#32, .op .rem 20 11 26), (0x03A5FA33#32, .op .remu 20 11 26),
   (0x01A58A3B#32, .op32 .addw 20 11 26), (0x41A58A3B#32, .op32 .subw 20 11 26),
   (0x01A59A3B#32, .op32 .sllw 20 11 26), (0x01A5DA3B#32, .op32 .srlw 20 11 26),
   (0x41A5DA3B#32, .op32 .sraw 20 11 26), (0x03A58A3B#32, .op32 .mulw 20 11 26)] ++
  [(0x03A5CA3B#32, .op32 .divw 20 11 26), (0x03A5DA3B#32, .op32 .divuw 20 11 26),
   (0x03A5EA3B#32, .op32 .remw 20 11 26), (0x03A5FA3B#32, .op32 .remuw 20 11 26)]

theorem test_wordsInteger : wordsInteger.all (fun p => okOnly (decodeL p.1) == some p.2) = true := by decide +kernel

theorem test_wordsInteger_encode : wordsInteger.all (fun p => encodeL p.2 == some p.1 && p.2.wf) = true := by decide +kernel

/-- Words of LUI, AUIPC, JAL, JALR, BRANCH, MISC-MEM and SYSTEM (R32, R33). -/
def wordsControl : List (BitVec 32 × Instr) :=
  [(0xABCDEA37#32, .lui 20 0xABCDE), (0xABCDEA17#32, .auipc 20 0xABCDE), (0xCB47FA6F#32, .jal 20 0xBFA5A),
   (0x34412A6F#32, .jal 20 0x091A2), (0xFFC58A67#32, .jalr 20 11 0xFFC), (0x1BA584E3#32, .branch .beq 11 26 0x4D4),
   (0x83A593E3#32, .branch .bne 11 26 0xC13), (0x1BA5C4E3#32, .branch .blt 11 26 0x4D4),
   (0x83A5D3E3#32, .branch .bge 11 26 0xC13), (0x1BA5E4E3#32, .branch .bltu 11 26 0x4D4),
   (0x83A5F3E3#32, .branch .bgeu 11 26 0xC13), (0x0FF58A0F#32, .fence 20 11 0x0FF),
   (0x12359A0F#32, .fenceI 20 11 0x123), (0x00000073#32, .ecall), (0x00100073#32, .ebreak),
   (0xC0159A73#32, .csrrw 20 11 0xC01), (0xC015AA73#32, .csrrs 20 11 0xC01), (0xC015BA73#32, .csrrc 20 11 0xC01),
   (0xC015DA73#32, .csrrwi 20 11 0xC01), (0xC015EA73#32, .csrrsi 20 11 0xC01), (0xC015FA73#32, .csrrci 20 11 0xC01)]

theorem test_wordsControl : wordsControl.all (fun p => okOnly (decodeL p.1) == some p.2) = true := by decide +kernel

theorem test_wordsControl_encode : wordsControl.all (fun p => encodeL p.2 == some p.1 && p.2.wf) = true := by decide +kernel

/-- Words of the VEC instructions (R37-R39). -/
def wordsVector : List (BitVec 32 × Instr) :=
  [(0x005A9F0B#32, .vadd false .fp32 30 21 5), (0x03E4BB0B#32, .vsub false .fp16 22 9 30),
   (0x85669D0B#32, .vmul true .fp32 26 13 22), (0x87A2BA8B#32, .vfma true .fp16 21 5 26),
   (0x895F148B#32, .vmin true .fp32 9 30 21), (0x0A9B368B#32, .vmax false .fp16 13 22 9),
   (0x0CDD028B#32, .vand false .int 5 26 13), (0x0E5A8F0B#32, .vor false .int 30 21 5),
   (0x91E4FB0B#32, .vxor true .int8 22 9 30), (0x9366FD0B#32, .vsll true .int8 26 13 22),
   (0x95A28A8B#32, .vsrl true .int 21 5 26), (0x175F048B#32, .vsra false .int 9 30 21),
   (0x189B168B#32, .vclt false .fp32 13 22 9), (0x1ADD328B#32, .vcle false .fp16 5 26 13),
   (0x9C5A9F0B#32, .vceq true .fp32 30 21 5), (0x1E9B668B#32, .vsel .lq4 13 22 9),
   (0x20DD028B#32, .vdiv false .int 5 26 13), (0x220F148B#32, .vsqrt false 9 30), (0xA40D128B#32, .vrcp true 5 26),
   (0x26049B0B#32, .vexp2 false 22 9), (0xA8029A8B#32, .vlog2 true 21 5), (0x2A04FB0B#32, .vrsum false .int8 22 9),
   (0xAC0D128B#32, .vrmax true .fp32 5 26), (0xAE0F348B#32, .vrmin true .fp16 9 30)] ++
  [(0x3166FD0B#32, .vperm false .int8 26 13 22), (0x33A29A8B#32, .vslide false .fp32 21 5 26),
   (0xB40F448B#32, .vsplat true .e4m3 9 30), (0x36DD528B#32, .vxtr .e5m2 5 26 13),
   (0x3832BA8B#32, .vcvt false .fp16 .fp16 21 5), (0x3BE49B0B#32, .vq false .fp32 22 9 30),
   (0xBD669D0B#32, .vdq true .fp32 26 13 22), (0xBE000F0B#32, .vrng true 30),
   (0x4006AD0B#32, .vscan false .bf16 26 13), (0xC20AAF0B#32, .vmov true .bf16 30 21)]

theorem test_wordsVector : wordsVector.all (fun p => okOnly (decodeL p.1) == some p.2) = true := by decide +kernel

theorem test_wordsVector_encode : wordsVector.all (fun p => encodeL p.2 == some p.1 && p.2.wf) = true := by decide +kernel

/-- Words of the MEM instructions (R41-R45). -/
def wordsMemory : List (BitVec 32 × Instr) :=
  [(0x00068D2B#32, .vld false 26 13), (0x300F04AB#32, .vst true 9 30), (0x4D668D2B#32, .vlds false .d 26 13 22),
   (0x69A28AAB#32, .vsts false .w 21 5 26), (0x805A8F2B#32, .vlx false .b false 30 21 5),
   (0xAD5F04AB#32, .vsx false .d false 9 30 21), (0xC00D02AB#32, .vldS 5 26), (0xCA048B2B#32, .bufld .a 22 9),
   (0xD4028AAB#32, .bufst .c 21 5), (0xF49B06AB#32, .vldB 10 13 22 9), (0x000A9F2B#32, .ldS 30 21),
   (0x400D12AB#32, .ldSe 5 26), (0x8D5F14AB#32, .ldB false 6 9 30 21), (0xC40B16AB#32, .ldAcq .b .cv 13 22),
   (0x2D52A02B#32, .stRel .w .sy 21 5), (0x400D202B#32, .feSet 26), (0x8006A02B#32, .feClr 13),
   (0x07A2DAAB#32, .amoAdd .acq true .dv 21 5 26), (0x125ACF2B#32, .amoAnd .relaxed true .cv 30 21 5),
   (0x2F5F34AB#32, .amoOr .ar true .th 9 30 21), (0x3BE4EB2B#32, .amoXor .rel true .sy 22 9 30),
   (0x469B56AB#32, .amoMin .acq true .dv 13 22 9), (0x5366CD2B#32, .amoMax .relaxed true .cv 26 13 22),
   (0x6EDD32AB#32, .amoMinu .ar true .th 5 26 13)] ++
  [(0x7BA2EAAB#32, .amoMaxu .rel true .sy 21 5 26), (0x865ADF2B#32, .amoSwap .acq true .dv 30 21 5),
   (0x935F44AB#32, .amoCas .relaxed true .cv 9 30 21), (0xAC9B36AB#32, .amoFadd .ar .th 13 22 9),
   (0x080070AB#32, .fenceSc .acq .dv), (0x1002F02B#32, .tideAdv 5), (0x2006FD2B#32, .tideRd 26 13),
   (0x300F74AB#32, .lkTake .th 9 30), (0x4802F02B#32, .lkGive .dv 5), (0x560076AB#32, .qGet 3 13),
   (0x620074AB#32, .vqGet 1 9), (0x76007AAB#32, .qStat 3 21), (0x8200702B#32, .qClose 1),
   (0x949B702B#32, .pref true false 22 9)]

theorem test_wordsMemory : wordsMemory.all (fun p => okOnly (decodeL p.1) == some p.2) = true := by decide +kernel

theorem test_wordsMemory_encode : wordsMemory.all (fun p => encodeL p.2 == some p.1 && p.2.wf) = true := by decide +kernel

/-- Words of the MXE instructions (R46-R48). -/
def wordsEngine : List (BitVec 32 × Instr) :=
  [(0x0C5A805B#32, .mxDesc 6 21 5), (0x1206805B#32, .mxTcfg 1 13), (0x2600005B#32, .mxZero 3),
   (0x3060825B#32, .mxMma 4 1 6), (0x4C1201DB#32, .mxMmq 3 4 1 6), (0x0A1229DB#32, .mxMms 3 4 1 5 2),
   (0x580B005B#32, .mxDrn 4 22), (0x6C0A8F5B#32, .mxRd 6 30 21), (0x72068D5B#32, .mxWr 1 26 13),
   (0x8800005B#32, .mxWait 4), (0x920F005B#32, .mxRowp 1 30), (0xA60002DB#32, .mxStat 3 5),
   (0x00069D5B#32, .cpPost 26 13), (0x109B105B#32, .cpBind 22 9), (0x215F105B#32, .post 30 21),
   (0x30DD12DB#32, .srpProbe 5 26 13), (0x409B105B#32, .srpRec 22 9), (0x500F105B#32, .srpInv 30),
   (0x5200105B#32, .srpInvAll), (0x640012DB#32, .srpStat .compute 5)]

theorem test_wordsEngine : wordsEngine.all (fun p => okOnly (decodeL p.1) == some p.2) = true := by decide +kernel

theorem test_wordsEngine_encode : wordsEngine.all (fun p => encodeL p.2 == some p.1 && p.2.wf) = true := by decide +kernel

/-- Words of the SYS instructions (R49, R50). -/
def wordsSystem : List (BitVec 32 × Instr) :=
  [(0x0766807B#32, .fork .cove 13 22), (0x1004807B#32, .join 9), (0x200F007B#32, .xcall 30),
   (0x300A807B#32, .xret 21), (0x400D02FB#32, .frmNew 5 26), (0x5006807B#32, .frmFree 13),
   (0x009B107B#32, .msgSend 22 9), (0x1000107B#32, .msgMsk), (0x2000107B#32, .msgUnm), (0x3000107B#32, .msgRet),
   (0x4000107B#32, .wait), (0x500F107B#32, .sleepT 30), (0x6000107B#32, .yield), (0x020D22FB#32, .genRd .a 5 26),
   (0x100026FB#32, .genNew 13), (0x2604A07B#32, .genScrub .x 9), (0x0000307B#32, .tret),
   (0x100F307B#32, .gctxRes 30), (0x200AB07B#32, .gctxKill 21), (0x300D32FB#32, .plcFind 5 26),
   (0x409B36FB#32, .plcLoad 13 22 9), (0x500F307B#32, .plcRel 30), (0x605AB07B#32, .cfgWr 21 5),
   (0x7006BD7B#32, .cfgChk 26 13)]

theorem test_wordsSystem : wordsSystem.all (fun p => okOnly (decodeL p.1) == some p.2) = true := by decide +kernel

theorem test_wordsSystem_encode : wordsSystem.all (fun p => encodeL p.2 == some p.1 && p.2.wf) = true := by decide +kernel

/-- The fields of a node word, in the order of R51 from FMT down. -/
def gn (f : Fmt) (any : Bool) (p : Pred) (a : Act) (t0 t1 tm : BitVec 10) (imm : BitVec 18) : GNode :=
  { fmt := f, any := any, pred := p, act := a, t0 := t0, t1 := t1, tm := tm, imm := imm }

/-- Words of the nodes, one and more for each row of R54 (fields of R51-R53). -/
def wordsNodes : List (BitVec 64 × Instr) :=
  [(0x00038329BCC7FFFD#64, .gAdd (gn .int false .none .null 0x20C 0x29B 0x331 0x3FFFD)),
   (0x01E58329BCC40000#64, .gSub (gn .int8 false .onTrue .sticky 0x20C 0x29B 0x331 0x00000)),
   (0x02038329BCC7FFFD#64, .gMul (gn .int false .none .null 0x20C 0x29B 0x331 0x3FFFD)),
   (0x03008329BCC60005#64, .gMulh (gn .int false .none .normal 0x20C 0x29B 0x331 0x20005)),
   (0x04038329BCC7FFFD#64, .gDiv (gn .int false .none .null 0x20C 0x29B 0x331 0x3FFFD)),
   (0x05E58329BCC40000#64, .gRem (gn .int8 false .onTrue .sticky 0x20C 0x29B 0x331 0x00000)),
   (0x06038329BCC7FFFD#64, .gAnd (gn .int false .none .null 0x20C 0x29B 0x331 0x3FFFD)),
   (0x07E58329BCC40000#64, .gOr (gn .int8 false .onTrue .sticky 0x20C 0x29B 0x331 0x00000)),
   (0x08038329BCC7FFFD#64, .gXor (gn .int false .none .null 0x20C 0x29B 0x331 0x3FFFD)),
   (0x09E58329BCC40000#64, .gShl (gn .int8 false .onTrue .sticky 0x20C 0x29B 0x331 0x00000)),
   (0x0A038329BCC7FFFD#64, .gShr (gn .int false .none .null 0x20C 0x29B 0x331 0x3FFFD)),
   (0x0BE58329BCC40000#64, .gSra (gn .int8 false .onTrue .sticky 0x20C 0x29B 0x331 0x00000)),
   (0x0C038329BCC7FFFD#64, .gMin (gn .int false .none .null 0x20C 0x29B 0x331 0x3FFFD)),
   (0x0DE58329BCC40000#64, .gMax (gn .int8 false .onTrue .sticky 0x20C 0x29B 0x331 0x00000)),
   (0x10088329BCC70001#64, .gTlt (gn .int false .onFalse .normal 0x20C 0x29B 0x331 0x30001)),
   (0x11088329BCC70001#64, .gTle (gn .int false .onFalse .normal 0x20C 0x29B 0x331 0x30001)),
   (0x12088329BCC70001#64, .gTeq (gn .int false .onFalse .normal 0x20C 0x29B 0x331 0x30001)),
   (0x13088329BCC70001#64, .gTne (gn .int false .onFalse .normal 0x20C 0x29B 0x331 0x30001)),
   (0x14088329BCC70001#64, .gTltu (gn .int false .onFalse .normal 0x20C 0x29B 0x331 0x30001)),
   (0x15088329BCC70001#64, .gTleu (gn .int false .onFalse .normal 0x20C 0x29B 0x331 0x30001)),
   (0x20208329BCC40000#64, .gFadd (gn .fp32 false .none .normal 0x20C 0x29B 0x331 0x00000)),
   (0x21408329BCC48000#64, .gFsub (gn .bf16 false .none .normal 0x20C 0x29B 0x331 0x08000)),
   (0x22608329BCC50000#64, .gFmul (gn .fp16 false .none .normal 0x20C 0x29B 0x331 0x10000)),
   (0x23208329BCC58000#64, .gFfma (gn .fp32 false .none .normal 0x20C 0x29B 0x331 0x18000))] ++
  [(0x24648329BCC40000#64, .gFmin (gn .fp16 false .onTrue .normal 0x20C 0x29B 0x331 0x00000)),
   (0x25648329BCC40000#64, .gFmax (gn .fp16 false .onTrue .normal 0x20C 0x29B 0x331 0x00000)),
   (0x26208329BCC48000#64, .gFdiv (gn .fp32 false .none .normal 0x20C 0x29B 0x331 0x08000)),
   (0x27408329BCC50000#64, .gFsqrt (gn .bf16 false .none .normal 0x20C 0x29B 0x331 0x10000)),
   (0x28608329BCC58000#64, .gFrcp (gn .fp16 false .none .normal 0x20C 0x29B 0x331 0x18000)),
   (0x29208329BCC68000#64, .gFexp2 (gn .fp32 false .none .normal 0x20C 0x29B 0x331 0x28000)),
   (0x2A408329BCC40000#64, .gFlog2 (gn .bf16 false .none .normal 0x20C 0x29B 0x331 0x00000)),
   (0x2B648329BCC40000#64, .gFlt (gn .fp16 false .onTrue .normal 0x20C 0x29B 0x331 0x00000)),
   (0x2C648329BCC40000#64, .gFle (gn .fp16 false .onTrue .normal 0x20C 0x29B 0x331 0x00000)),
   (0x2D648329BCC40000#64, .gFeq (gn .fp16 false .onTrue .normal 0x20C 0x29B 0x331 0x00000)),
   (0x30A08329BCC6C000#64, .gCvt (gn .e5m2 false .none .normal 0x20C 0x29B 0x331 0x2C000)),
   (0x31208329BCC72000#64, .gQcvt (gn .fp32 false .none .normal 0x20C 0x29B 0x331 0x32000)),
   (0x32C08329BCC4B000#64, .gDq (gn .lq4 false .none .normal 0x20C 0x29B 0x331 0x0B000)),
   (0x33018329BCC40000#64, .gRng (gn .int false .none .sticky 0x20C 0x29B 0x331 0x00000)),
   (0x40128329BCC40000#64, .gMov (gn .int true .none .purge 0x20C 0x29B 0x331 0x00000)),
   (0x41E08329BCC7FFF0#64, .gMovi (gn .int8 false .none .normal 0x20C 0x29B 0x331 0x3FFF0)),
   (0x42208329BCC401F5#64, .gFrd (gn .fp32 false .none .normal 0x20C 0x29B 0x331 0x001F5)),
   (0x430000000000000A#64, .gFwr (gn .int false .none .normal 0x000 0x000 0x000 0x0000A)),
   (0x44038329BCC40000#64, .gNull (gn .int false .none .null 0x20C 0x29B 0x331 0x00000)),
   (0x50008329BCC40001#64, .gSteer (gn .int false .none .normal 0x20C 0x29B 0x331 0x00001)),
   (0x51108329B0000000#64, .gMerge (gn .int true .none .normal 0x20C 0x29B 0x000 0x00000)),
   (0x52008329BCC4ABCD#64, .gOmerge (gn .int false .none .normal 0x20C 0x29B 0x331 0x0ABCD)),
   (0x530000000CC69415#64, .gBro (gn .int false .none .normal 0x000 0x000 0x331 0x29415)),
   (0x54008329BCC401FD#64, .gCall (gn .int false .none .normal 0x20C 0x29B 0x331 0x001FD))] ++
  [(0x5500000000000020#64, .gRet (gn .int false .none .normal 0x000 0x000 0x000 0x00020)),
   (0x56008329BCC40020#64, .gCcall (gn .int false .none .normal 0x20C 0x29B 0x331 0x00020)),
   (0x5700000000000001#64, .gTrap (gn .int false .none .normal 0x000 0x000 0x000 0x00001)),
   (0x60008329BCC5BEEF#64, .gInx (gn .int false .none .normal 0x20C 0x29B 0x331 0x1BEEF)),
   (0x61008329BCC40000#64, .gFnew (gn .int false .none .normal 0x20C 0x29B 0x331 0x00000)),
   (0x6200000000000000#64, .gFfree (gn .int false .none .normal 0x000 0x000 0x000 0x00000)),
   (0x63008329BCC40003#64, .gTget (gn .int false .none .normal 0x20C 0x29B 0x331 0x00003)),
   (0x64008329BCC40002#64, .gTset (gn .int false .none .normal 0x20C 0x29B 0x331 0x00002)),
   (0x6500000000000001#64, .gPurge (gn .int false .none .normal 0x000 0x000 0x000 0x00001)),
   (0x70408329BCC66CF8#64, .gLd (gn .bf16 false .none .normal 0x20C 0x29B 0x331 0x26CF8)),
   (0x710000000000E87C#64, .gSt (gn .int false .none .normal 0x000 0x000 0x000 0x0E87C)),
   (0x72008329BCC468B0#64, .gLdb (gn .int false .none .normal 0x20C 0x29B 0x331 0x068B0)),
   (0x73008329BCC7E602#64, .gLda (gn .int false .none .normal 0x20C 0x29B 0x331 0x3E602)),
   (0x7400000000002301#64, .gStrl (gn .int false .none .normal 0x000 0x000 0x000 0x02301)),
   (0x75008329BCC52C00#64, .gIrd (gn .int false .none .normal 0x20C 0x29B 0x331 0x12C00)),
   (0x7600000000014C00#64, .gIwr (gn .int false .none .normal 0x000 0x000 0x000 0x14C00)),
   (0x7700000000016300#64, .gFence (gn .int false .none .normal 0x000 0x000 0x000 0x16300)),
   (0x7800000000018000#64, .gPref (gn .int false .none .normal 0x000 0x000 0x000 0x18000)),
   (0x80008329BCC6AD4C#64, .gAmo (gn .int false .none .normal 0x20C 0x29B 0x331 0x2AD4C)),
   (0x80208329BCC6AAA8#64, .gAmo (gn .fp32 false .none .normal 0x20C 0x29B 0x331 0x2AAA8)),
   (0x81008329BCC4AE00#64, .gLkt (gn .int false .none .normal 0x20C 0x29B 0x331 0x0AE00)),
   (0x820000000000CD00#64, .gLkg (gn .int false .none .normal 0x000 0x000 0x000 0x0CD00)),
   (0x8320000000004E00#64, .gMcomb (gn .fp32 false .none .normal 0x000 0x000 0x000 0x04E00)),
   (0x9000000000008000#64, .gPost (gn .int false .none .normal 0x000 0x000 0x000 0x08000))] ++
  [(0x91608329B0008000#64, .gGat (gn .fp16 false .none .normal 0x20C 0x29B 0x000 0x08000)),
   (0x9200000000008000#64, .gSct (gn .int false .none .normal 0x000 0x000 0x000 0x08000)),
   (0x93008329BCC7C000#64, .gCpy (gn .int false .none .normal 0x20C 0x29B 0x331 0x3C000)),
   (0x9400000000022200#64, .gTadv (gn .int false .none .normal 0x000 0x000 0x000 0x22200)),
   (0x95008329BCC40000#64, .gProbe (gn .int false .none .normal 0x20C 0x29B 0x331 0x00000)),
   (0x9600000000010000#64, .gRec (gn .int false .none .normal 0x000 0x000 0x000 0x10000)),
   (0xA0408329B0011238#64, .gSgen (gn .bf16 false .none .normal 0x20C 0x29B 0x000 0x11238)),
   (0xA100000000034000#64, .gRpt (gn .int false .none .normal 0x000 0x000 0x000 0x34000)),
   (0xA200000000030000#64, .gCnt (gn .int false .none .normal 0x000 0x000 0x000 0x30000)),
   (0xA3008320B0010000#64, .gCtok (gn .int false .none .normal 0x20C 0x20B 0x000 0x10000)),
   (0xA4208329B001900F#64, .gDly (gn .fp32 false .none .normal 0x20C 0x29B 0x000 0x1900F)),
   (0xA540000000010155#64, .gMxp (gn .bf16 false .none .normal 0x000 0x000 0x000 0x10155)),
   (0xA600000000000C41#64, .gFin (gn .int false .none .normal 0x000 0x000 0x000 0x00C41)),
   (0xB0008329BCC40000#64, .gTnow (gn .int false .none .normal 0x20C 0x29B 0x331 0x00000)),
   (0xB1118329BCC40000#64, .gTgate (gn .int true .none .sticky 0x20C 0x29B 0x331 0x00000))]

theorem test_wordsNodes : wordsNodes.all (fun p => okOnly (decodeG p.1) == some p.2) = true := by decide +kernel

theorem test_wordsNodes_encode : wordsNodes.all (fun p => encodeG p.2 == some p.1 && p.2.wf) = true := by decide +kernel

/-! ## Words and terms that are refused -/

/-- Words of no instruction: all zeros and all ones, the compressed and the standard F, A and V opcodes (R31), a funct7 of OP and a shift
with reserved bits (R34), a zero field that is not zero and reserved selectors (R35). -/
def wordsRefused : List (BitVec 32) :=
  [0x00000000#32, 0xFFFFFFFF#32, 0x00000001#32, 0x00000007#32, 0x00000027#32, 0x0000002F#32, 0x00000043#32, 0x00000053#32, 0x00000057#32,
   0x0000003F#32, 0x0000005F#32, 0x0000007F#32, 0x0000006B#32, 0x00000077#32] ++
  [0x05A58A33#32, 0x41A59A33#32, 0x44059A13#32, 0x02059A1B#32, 0x00200073#32, 0x0205A17B#32 ||| 0x7E000000#32, 0x4000117B#32, 0x80000FFB#32, 0xF000107B#32]

theorem test_wordsRefused : wordsRefused.all (fun w => (okOnly (decodeL w)).isNone) = true := by decide +kernel

/-- Nodes that an image check refuses (R57): an OPC without a node, ANY with a format, PRED 11, operand slot 11, a target without
its valid bit, a reserved rounding, a reserved bit of the immediate. -/
def nodesRefused : List (BitVec 64) :=
  [0xFF00000000000000#64, 0x3030804000000000#64, 0x000C804000000000#64, 0x0000F04000000000#64, 0x0000004000000000#64, 0x2020804000038000#64,
   0x7700000000000001#64]

theorem test_nodesRefused : nodesRefused.all (fun w => (okOnly (decodeG w)).isNone) = true := by decide +kernel

/-- Ill-formed L-set terms, one for each check of a format or an immediate, each beside a well-formed one. -/
def illFormedL : List (Instr × Instr) :=
  [(.opImm .slli 1 2 64, .opImm .slli 1 2 63), (.opImm .srli 1 2 64, .opImm .srli 1 2 63), (.opImm .srai 1 2 64, .opImm .srai 1 2 63),
   (.opImm32 .slliw 1 2 32, .opImm32 .slliw 1 2 31), (.opImm32 .srliw 1 2 32, .opImm32 .srliw 1 2 31), (.opImm32 .sraiw 1 2 32, .opImm32 .sraiw 1 2 31)] ++
  [(.vadd false .lq4 1 2 3, .vadd false .int8 1 2 3), (.vsub false .e4m3 1 2 3, .vsub false .int 1 2 3), (.vmul false .e5m2 1 2 3, .vmul false .fp32 1 2 3),
   (.vfma false .lq4 1 2 3, .vfma false .bf16 1 2 3), (.vmin false .e4m3 1 2 3, .vmin false .fp16 1 2 3), (.vmax false .e4m3 1 2 3, .vmax false .fp16 1 2 3),
   (.vclt false .e4m3 1 2 3, .vclt false .fp16 1 2 3), (.vcle false .e4m3 1 2 3, .vcle false .fp16 1 2 3), (.vceq false .e4m3 1 2 3, .vceq false .fp16 1 2 3)] ++
  [(.vrsum false .lq4 1 2, .vrsum false .int 1 2), (.vrmax false .lq4 1 2, .vrmax false .int 1 2), (.vrmin false .lq4 1 2, .vrmin false .int 1 2),
   (.vscan false .lq4 1 2, .vscan false .int 1 2), (.vand false .fp32 1 2 3, .vand false .int8 1 2 3), (.vor false .fp32 1 2 3, .vor false .int 1 2 3),
   (.vxor false .fp32 1 2 3, .vxor false .int 1 2 3), (.vsll false .fp32 1 2 3, .vsll false .int 1 2 3), (.vsrl false .fp32 1 2 3, .vsrl false .int 1 2 3),
   (.vsra false .fp32 1 2 3, .vsra false .int 1 2 3), (.vdiv false .bf16 1 2 3, .vdiv false .fp32 1 2 3), (.vcvt false .lq4 .fp32 1 2, .vcvt false .fp32 .e4m3 1 2),
   (.vcvt false .fp32 .lq4 1 2, .vcvt false .e4m3 .fp32 1 2), (.vq false .int 1 2 3, .vq false .fp32 1 2 3), (.vdq false .e4m3 1 2 3, .vdq false .bf16 1 2 3)]

theorem test_illFormedL : illFormedL.all (fun p => !p.1.wf && p.2.wf) = true := by decide +kernel

/-- A node with format, ANY, PRED, ACT, targets T0 and TM and the immediate given. -/
def nd (f : Fmt) (any : Bool) (p : Pred) (a : Act) (t0 tm : BitVec 10) (imm : BitVec 18) : GNode :=
  { fmt := f, any := any, pred := p, act := a, t0 := t0, t1 := 0, tm := tm, imm := imm }
/-- A node of format int with targets T0 and the immediate given. -/
def ni (t0 : BitVec 10) (imm : BitVec 18) : GNode := nd .int false .none .normal t0 0 imm

/-- Ill-formed nodes, one at least for each check. -/
def illFormedG : List Instr :=
  [.gMov (ni 0x001 0), .gMov (ni 0x380 0), .gMov (nd .int false .none .normal 0 0x001 0), .gMov (nd .fp32 true .none .normal 0 0 0), .gMov (ni 0 1),
   .gAdd (nd .int true .none .normal 0 0 0), .gAdd (nd .fp32 false .none .normal 0 0 0), .gMin (nd .int8 false .none .normal 0 0 0x20000),
   .gMulh (nd .int8 false .none .normal 0 0 0), .gTlt (nd .fp32 false .none .normal 0 0 0), .gFadd (ni 0 0), .gFadd (nd .fp32 false .none .normal 0 0 0x20000),
   .gFmul (nd .fp32 false .none .normal 0 0 1), .gFmin (nd .fp32 false .none .normal 0 0 0x08000), .gFlt (nd .e4m3 false .none .normal 0 0 0)] ++
  [.gCvt (nd .lq4 false .none .normal 0 0 0), .gCvt (ni 0 0x06000), .gCvt (ni 0 0x20000), .gQcvt (ni 0 0x01000), .gQcvt (ni 0 0x26000),
   .gDq (ni 0 0x01000), .gDq (nd .lq4 false .none .normal 0 0 0), .gRng (ni 0 1), .gMovi (nd .int true .none .normal 0 0 0), .gFrd (ni 0 0x200),
   .gFwr (ni 0x200 0), .gFwr (ni 0 0x200), .gNull (nd .int false .none .sticky 0x200 0 0), .gNull (nd .int false .none .purge 0x200 0 0), .gNull (ni 0 1)] ++
  [.gSteer (nd .int false .onTrue .normal 0 0 0), .gSteer (ni 0 2), .gSteer (nd .int true .none .normal 0 0x200 0), .gMerge (ni 0 1),
   .gMerge (nd .int false .onFalse .normal 0 0 0), .gOmerge (ni 0 0x10000), .gOmerge (nd .int true .none .normal 0 0x200 0), .gBro (ni 0 0x080), .gBro (ni 0x200 0),
   .gCall (ni 0 7), .gCall (ni 0 510), .gRet (ni 0 33), .gRet (ni 0x200 1), .gCcall (ni 0 33), .gTrap (ni 0 2)] ++
  [.gInx (ni 0 0x20000), .gFnew (ni 0 1), .gFfree (ni 0x200 0), .gTget (ni 0 4), .gTset (ni 0 3), .gPurge (ni 0x200 1), .gPurge (ni 0 2),
   .gLd (ni 0 0x01000), .gLd (ni 0 0x00F00), .gLd (nd .bf16 false .none .normal 0 0 0), .gSt (ni 0x200 0x00C00), .gLdb (ni 0 0x00400), .gLdb (ni 0 0x00C01),
   .gLda (ni 0 0x01000), .gStrl (ni 0x200 0x00C00)] ++
  [.gIrd (ni 0 0x00800), .gIwr (ni 0x200 0x00C00), .gFence (ni 0x200 0), .gFence (ni 0 1), .gPref (ni 0 0x100), .gAmo (ni 0 0x00C01), .gAmo (ni 0 0x00CA0), .gAmo (ni 0 0x00C90),
   .gAmo (ni 0 0x00CB0), .gAmo (ni 0 0x00400), .gLkt (ni 0 0x00800), .gLkg (ni 0x200 0x00C00), .gMcomb (nd .bf16 false .none .normal 0 0 0x00C00)] ++
  [.gPost (ni 0x200 0), .gPost (ni 0 1), .gGat (ni 0 1), .gGat (nd .int false .none .normal 0x200 0x200 0), .gSct (ni 0x200 0), .gSct (nd .fp32 false .none .normal 0 0 0),
   .gCpy (ni 0 1), .gTadv (ni 0 0), .gProbe (ni 0 1), .gRec (ni 0x200 0), .gSgen (ni 0 0x30000), .gSgen (ni 0 4), .gSgen (ni 0x200 0x20000), .gRpt (ni 0 1), .gCnt (ni 0 1)] ++
  [.gCtok (ni 0 0), .gCtok (ni 0x280 0), .gDly (ni 0 0x20000), .gDly (ni 0 0x00800), .gDly (nd .fp32 false .none .normal 0 0 0x1000E), .gDly (nd .lq4 false .none .normal 0 0 0),
   .gMxp (ni 0 0x30000), .gMxp (ni 0 0x20001), .gMxp (ni 0x200 0), .gFin (ni 0 0x080), .gFin (ni 0x200 0), .gTnow (ni 0 1), .gTgate (ni 0 1)]

theorem test_illFormedG : illFormedG.all (fun i => !i.wf) = true := by decide +kernel

/-- Events that name no unit of the device (R8). -/
theorem test_illFormedEvents : ([.rotationBoundary 1024, .coalesceDrainTimeout 17408 0, .l1dLineExpiry 1024 0, .dequePop 8192, .sleepDeadline 8192,
    .messageArrival { target := 8192, sender := 0, payload := 0, vmid := 0 }, .messageArrival { target := 0, sender := 0, payload := 0, vmid := 64 },
    .copyBeat 256, .l2WriteForward 256 0, .replayCopyComplete 4 0 0, .recordCopyComplete 0 64 0, .replayCopyComplete 0 0 4096, .placementRequest 4,
    .matchRefill ⟨0, 256⟩ 0 0, .cellSave ⟨0, 0⟩ 64 0, .overlayLoadComplete ⟨0, 0⟩ 0 0 8, .slackWaveEnd ⟨64, 0⟩] : List Instr).all (fun i => !i.wf) = true := by
  decide +kernel

theorem test_illFormedEvents_host : ([.buoyTokenArrival ⟨0, 0⟩ 63 default, .tokenMatch ⟨0, 0⟩ { (default : Token) with dop := 3 } none,
    .commitToken ⟨0, 0⟩ default 16, .countToken ⟨0, 0⟩ default 128 false, .moorDelivery 64 0, .packetIngress 0 64 0, .packetIngress 2048 0 0,
    .lTaskLaunch 2048, .queueWindowWrite 0 0 (List.replicate 57 0), .queueWindowWrite 0 4096 [0], .hostMemoryAccess true 0 2 [0],
    .hostMemoryAccess false (2 ^ 53) 8 [], .registerWriteIgnored (2 ^ 24), .tenantCreate 2048 default, .badcmd 2048 0 default,
    .powerSample 0 [0], .todMessage [0], .msixUnmask 1 64, .msixUnmask 2 0] : List Instr).all (fun i => !i.wf) = true := by decide +kernel

/-! ## What the encoders' statements ask for -/

theorem test_meets_LanternCodec : (Instr.op .add 3 4 5).wf = true ∧ encodeL (.op .add 3 4 5) = some 0x005201B3#32 := by decide +kernel
theorem test_meets_NodeCodec : (Instr.gMovi (ni 0x201 3)).wf = true ∧ encodeG (.gMovi (ni 0x201 3)) = some 0x4100804000000003#64 := by decide +kernel

theorem test_meets_DecodeWords : (0x00000001#32).extractLsb' 0 2 ≠ 3#2 := by decide +kernel
theorem test_meets_NothingStops : ({ State.reset with mgmt := { State.reset.mgmt with off := true } } : State).mgmt.off = true ∧
    ({ State.reset with mgmt := { State.reset.mgmt with off := true } } : State).resets = false ∧ State.reset.mgmt.off = false := by decide +kernel

/-! ## Worked examples of the manual -/

/-- The example of chapter 1: cell (77, 21). -/
theorem test_example_cell : quadOfXY 77 21 = 1 ∧ coveOfXY 77 21 = 81 ∧ coreOfXY 77 21 = 327 := by decide +kernel

/-- The example of `vcvt.f32.e4m3`: 300.0 gives 0x79 and NX. -/
theorem test_example_convert : roundFV .e4m3 .rne {} (Fmt.value .fp32 0x43960000) = (0x79, fNX) := by decide +kernel
/-- 464 rounds to 448 (0x7E) under RNE; 480 overflows to NaN (0x7F), and to 448 under 101. -/
theorem test_example_overflow : (roundFV .e4m3 .rne {} (.fin (.ofInt 464))).1 = 0x7E ∧ (roundFV .e4m3 .rne {} (.fin (.ofInt 480))).1 = 0x7F ∧
    (roundFV .e4m3 .rnes {} (.fin (.ofInt 480))).1 = 0x7E := by decide +kernel

/-- The example of `vq` and `vdq`: SS = 0.5, SC = 3; 0.375 gives code 2 and NX; code 2 gives 0.32373046875 in FP32 and 0.32421875 in BF16. -/
theorem test_example_quantize : quantLq4 (Fmt.value .fp32 0x3EC00000) (blockScale 0x3F000000 3).1 .rne 0 = (2, fNX) := by decide +kernel
theorem test_example_dequantize :
    roundFV .fp32 .rne {} (FV.times (.fin (lq4Val 2)) (blockScale 0x3F000000 3).1) = (0x3EA5C000, 0#5) ∧
    roundFV .bf16 .rne {} (FV.times (.fin (lq4Val 2)) (blockScale 0x3F000000 3).1) = (0x3EA6, fNX) := by decide +kernel

/-- The example of `fadd.f32.rtz`: 2^24 + 1 truncates to 2^24 and sets NX; 1 + 1 is exact. -/
theorem test_example_fadd : fpAdd .fp32 .rtz {} (Fmt.value .fp32 0x4B800000) (Fmt.value .fp32 0x3F800000) = (0x4B800000, fNX) ∧
    fpAdd .fp32 .rtz {} (Fmt.value .fp32 0x3F800000) (Fmt.value .fp32 0x3F800000) = (0x40000000, 0#5) := by decide +kernel

/-- The example of R164: the element ends at 0x4B800010 with NX. -/
theorem test_example_groups : (let a := addends ((groupsOf 32 64 ((Fmt.value .bf16 0x3F80, Fmt.value .bf16 0x4B80) ::
    List.replicate 32 (Fmt.value .bf16 0x3F80, Fmt.value .bf16 0x3F80))).map groupAdd)
    let r := addAll false 0 a.1
    (r.1, a.2 ||| r.2)) = (0x4B800010, fNX) := by decide +kernel

/-- The example of the replay engine: (1, 2.5, 3, 1.5) against (1, 2, 3, 2) gives D = 0.125; its verdict word. -/
theorem test_example_metric : replayMetric 0 .fp32 [0x3F800000, 0x40200000, 0x40400000, 0x3FC00000] [0x3F800000, 0x40000000, 0x40400000, 0x40000000] = 0x3E000000 ∧
    verdictWord 1 0 0x3E000000 = 0x3E00000000000001 := by decide +kernel

/-- The example of `amo.cas`: 7 is replaced by 9 and returned; a second one finds 9, writes nothing and returns it. -/
def casTwice : State × State :=
  let i : Instr := .amoCas .ar true .dv 10 12 11
  let s := after i (lab [(10, 7), (11, 9), (12, 0x50000)] [] [7])
  (s, after i (s.modMe fun v => { v with wait := .run, x := AMap.set v.x 10 { val := 7, gen := 5 } }))
theorem test_example_cas : bytesNat (Bytes.rdN casTwice.1.mem 0x50000 8) = 9 ∧ bytesNat (Bytes.rdN casTwice.2.mem 0x50000 8) = 9 := by decide +kernel

/-! ## Steps on fetched words -/

/-- `addi x1, x0, 5` writes x1 and moves past its word. -/
theorem test_step_addi : nextThat (step (State.reset.withFetchWord 32 0x00500093)) (fun t => ((t.slot 0).xreg 1).val == 5 && (t.slot 0).pc == 0x40004) = true := by
  decide +kernel
/-- `lui x2, 0x80000` sign-extends. -/
theorem test_step_lui : nextThat (step (State.reset.withFetchWord 32 0x80000137)) (fun t => ((t.slot 0).xreg 2).val == 0xFFFFFFFF80000000) = true := by
  decide +kernel
/-- `jal x1, 16` links and jumps. -/
theorem test_step_jal : nextThat (step (State.reset.withFetchWord 32 0x010000EF)) (fun t => ((t.slot 0).xreg 1).val == 0x40004 && (t.slot 0).pc == 0x40010) = true := by
  decide +kernel
/-- The word of all zeros is ILLEGAL: the trap's cause and the value it saves (R31, R110). -/
theorem test_step_illegal : nextThat (step (State.reset.withFetchWord 32 0)) (fun t => (t.slot 0).trap.tcause == 0x01) = true := by
  decide +kernel

/-! ## What the statements ask for can be had: the scalar instructions

`meets<Name>` lists, for the hypotheses of the statement `<Name>` and of each of its clauses, what one concrete state and
operands give: `test_meets_<Name>` shows all of it. -/

/-- x5 = 7, x6 = 0: readable sources (a divisor of 0 among them), a destination that can be written, x0 too. -/
def meetsIntegerInstructions : List Bool :=
  let s := lab [(5, 7), (6, 0)]
  [okThat (s.xr 5) (· == 7), okThat (s.xr 6) (· == 0), xFree s 9, xFree s 0]

theorem test_meets_IntegerInstructions : allOf meetsIntegerInstructions = true := by decide +kernel

/-- Targets that are aligned and that are not, a branch taken and one not, a misaligned address of each access. -/
def meetsJumpsAndBranches : List Bool :=
  let s := lab [(5, 0x50004), (6, 0x50004), (7, 0x50001)]
  [okThat (s.xr 5) (· == 0x50004), okThat (s.xr 6) (· == 0x50004), xFree s 9, decide ((s.me.pc.toInt + (2 : BitVec 20).toInt * 2) % 4 = 0),
    decide (((0x50004 : Word).toInt + (0 : BitVec 12).toInt) % 4 = 0), decide ((s.me.pc.toInt + (2 : BitVec 12).toInt * 2) % 4 = 0),
    decide ((s.me.pc.toInt + (1 : BitVec 20).toInt * 2) % 4 ≠ 0), decide (((0x50004 : Word).toInt + (2 : BitVec 12).toInt) % 4 ≠ 0),
    decide ((s.me.pc.toInt + (1 : BitVec 12).toInt * 2) % 4 ≠ 0), decide ((word ((0x50004 : Word).toInt + 1)).toNat % LoadOp.bytes .lh ≠ 0),
    decide ((word ((0x50004 : Word).toInt + 4)).toNat % Size.bytes .d = 0), decide ((0x50001 : Word).toNat % Size.bytes .w ≠ 0)]

theorem test_meets_JumpsAndBranches : allOf meetsJumpsAndBranches = true := by decide +kernel

theorem test_meets_JumpsAndBranches_taken : taken .beq 5 5 ∧ ¬ taken .bne 5 5 := by simp [taken]

/-- 0x50008 is read and written; no page maps 2^46. -/
def meetsLoadsAndStores : List Bool :=
  let s := lab [(5, 0x50008), (6, 0x0123456789ABCDEF), (7, 0x400000000000)]
  [okThat (s.xr 5) (· == 0x50008), hasVal (s.xr 6), (0x50008 : Word).toNat % LoadOp.bytes .ld == 0,
    okThat (xlat s s.agent 0x50008 .r) fun q => xFree (q.2.coreRead (coreOf s.cur) q.1 (LoadOp.bytes .ld)).2 9,
    hasVal (xlat s s.agent 0x50008 .w), noVal (xlat s s.agent 0x400000000000 .r), noVal (xlat s s.agent 0x400000000000 .w)]

theorem test_meets_LoadsAndStores : allOf meetsLoadsAndStores = true := by decide +kernel

/-- 8 bytes at the end of a line of cached memory, and a byte below them. -/
def meetsStoreThenLoad : List Bool :=
  let s := lab []
  let p : Phys := { pa := 0x50018, hs := false, tide := none }
  let q : Phys := { pa := 0x50017, hs := false, tide := none }
  [!s.uncached p, decide (p.pa % 32 + 8 ≤ 32), decide ((s.core 0).cb.length < 16), q.pa / 32 == p.pa / 32, decide (q.pa < p.pa)]

theorem test_meets_StoreThenLoad : allOf meetsStoreThenLoad = true := by decide +kernel

/-- An aligned address that is read and written. -/
def meetsFences : List Bool :=
  let s := lab [(5, 0x50008), (6, 3)]
  [hasVal (s.xr 5), hasVal (s.xr 6), (0x50008 : Word).toNat % Size.bytes .d == 0,
    okThat (xlat s s.agent 0x50008 .r) fun q => xFree (q.2.coreRead (coreOf q.2.cur) q.1 8).2 9, hasVal (xlat s s.agent 0x50008 .w)]

theorem test_meets_Fences : allOf meetsFences = true := by decide +kernel

/-- Every CSR of the map in supervisor mode, those without a supervisor number in user mode; x5 and x0 as sources; a mask, and
none. -/
def meetsCsrForms : List Bool :=
  let s := lab [(5, 0xF0)]
  [csrMap.all fun n => (csrRead (sup s) (BitVec.ofNat 12 n)).isSome, (csrRead s 0x800).isSome && 0x800 / 256 % 4 != 1, xFree s 9,
    hasVal (s.xr 5), hasVal (s.xr 0), !csrReadOnly.contains 0x800, csrReadOnly.contains 0xC01, (csrMask 0x800).isSome, (csrMask 0xC01).isNone]

theorem test_meets_CsrForms : allOf meetsCsrForms = true := by decide +kernel

/-- A number that is not implemented, a read-only CSR, a supervisor one that can be written, in user mode. -/
def meetsCsrFaults : List Bool :=
  let s := lab []
  [!csrMap.contains 0xFFF, csrReadOnly.contains 0xC01, csrMap.contains 0x5C0 && !csrReadOnly.contains 0x5C0, 0x5C0 / 256 % 4 == 1, !s.me.sup]

theorem test_meets_CsrFaults : allOf meetsCsrFaults = true := by decide +kernel

/-- A trap with the slot's own handler, and with its tenant's. -/
def meetsTrapEntry : List Bool :=
  let s := (lab []).modMe fun v => { v with trap := { v.trap with tvec := 0x60000 } }
  let u := (lab []).modTenant 0 fun t => { t with args := { t.args with svec := 0x70000 } }
  [!({ cause := 0x16, tval := 0#64 } : Trap).log, s.handler == some 0x60000, u.handler == some 0x70000]

theorem test_meets_TrapEntry : allOf meetsTrapEntry = true := by decide +kernel

/-- Supervisor mode for `tret`; user mode at an aligned PC with a handler for the trap before it. -/
def meetsTrapReturn : List Bool :=
  let s := (lab []).modMe fun v => { v with trap := { v.trap with tvec := 0x60000 }, wcnt := 511 }
  [(sup s).me.sup, !({ cause := 0x16, tval := 0#64 } : Trap).log, s.handler.isSome, !s.me.sup, s.me.pc.toNat % 4 == 0, decide (s.me.wcnt < 512)]

theorem test_meets_TrapReturn : allOf meetsTrapReturn = true := by decide +kernel

theorem test_meets_PrivilegedInUserMode : (lab []).me.sup = false := by decide +kernel

/-! ## Vectors -/

/-- A vector state: v0 a mask, v1 and v2 operands, v3 the destination, v31 random bits; x5 = 3; VRM as given. -/
def vlab (vrm : BitVec 3) : State :=
  (lab [(5, 3)] [(0, 0x5), (1, 0x3F8000007FC00001), (2, 0x4000000080000000), (3, 9), (31, 0x1234)]).modMe fun v =>
    { v with user := { v.user with vrm := vrm } }

/-- Readable operands and a mask, under a rounding mode that is fixed, one that draws random bits, and one that is not. -/
def meetsVectors : List Bool :=
  let s := vlab 0
  [vFree s 3, okThat (s.vecMask true) (· == 5), hasVal (s.vecMask false), hasVal (s.vr 1), hasVal (s.vr 2), hasVal (s.vr 3), hasVal (s.vr 0),
    hasVal (s.vr 31), okThat (s.xr 5) (· == 3), xFree s 9, isInt .int && isInt .int8, !isInt .fp32, !(Rm.ofCode 0).stoch, (vlab 4).me.user.vrm == 4,
    (vlab 7).me.user.vrm == 7, ((List.range (lanes .int)).filter fun k => (5 : VWord).getLsbD k) != []]

/-- The same state and operands meet what the five statements on vector arithmetic ask for. -/
theorem test_meets_VectorArithmetic : allOf meetsVectors = true := by decide +kernel
theorem test_meets_VectorLogic : vFree (vlab 0) 3 = true ∧ okThat ((vlab 0).vecMask true) (· == 5) = true := by decide +kernel
theorem test_meets_VectorComparesAndMoves : hasVal ((vlab 0).vr 0) = true ∧ okThat ((vlab 0).xr 5) (· == 3) = true ∧ xFree (vlab 0) 9 = true := by
  decide +kernel
theorem test_meets_VectorConversions : hasVal ((vlab 0).vr 1) = true ∧ (vlab 0).rounds .rne 0 :=
  ⟨by decide +kernel, by decide +kernel, by decide +kernel, by simp [Rm.stoch]⟩
theorem test_meets_VectorFunctionsAndReductions : ∃ r, (vlab 4).rounds (Rm.ofCode 4) r := by
  have h : okThat ((vlab 4).vr 31#5) (fun _ => true) = true := by decide +kernel
  obtain ⟨r, hr, -⟩ := (okThat_iff _ _).mp h
  have e : (vlab 4).me.user.vrm.toNat = 4 := by decide +kernel
  exact ⟨r, by decide +kernel, by rw [e], by simpa [Rm.ofCode, Rm.stoch] using hr⟩

/-! ## Accesses and engines of a slot -/

/-- Aligned and mapped vectors, strides and indexes (elements 0 and 2 active), a vector that is misaligned, a stride into what
no page maps. -/
def meetsVectorAccesses : List Bool :=
  let s := lab [(5, 0x50080), (6, 8), (7, 0x50004), (8, 0x400000000000)] [(0, 0x5), (2, 0x700000000), (3, 9)]
  let adr (n e : Nat) (k : Kind) : Except Trap (List Phys × State) :=
    xlatAll s s.agent k ((activeOf true 0x5 n).map fun j => (0x50080 : Word) + w64 (e * j))
  [hasVal (s.xr 5), hasVal (s.xr 6), hasVal (s.vr 2), hasVal (s.vr 3), okThat (s.vecMask true) (· == 5), (0x50080 : Word).toNat % 128 == 0,
    (0x50004 : Word).toNat % 128 != 0,
    okThat (adr 32 4 .r) fun q => q.1.all (fun p => !q.2.isPoison p.pa) && vFree (readAll q.2 4 q.1).2 3,
    okThat (adr 16 8 .r) fun q => q.1.all (fun p => !q.2.isPoison p.pa) && vFree (readAll q.2 8 q.1).2 3,
    okThat (adr 32 4 .w) fun q => q.1.all (fun p => !q.2.isPoison p.pa), okThat (adr 16 8 .w) fun q => q.1.all (fun p => !q.2.isPoison p.pa),
    noVal (xlatAll s s.agent .w ((activeOf true 0x5 16).map fun k => (0x50080 : Word) + w64 k * 0x400000000000))]

theorem test_meets_VectorAccesses : allOf meetsVectorAccesses = true := by decide +kernel

/-- The last two granules of each buffer, an offset between granules, and one past the end. -/
def meetsTypedBuffers : List Bool :=
  let s := lab [(5, 0x7FF80), (6, 0x3FF80), (7, 32), (8, 0x3FFC0)] [(3, 9), (4, 1)]
  [okThat (s.xr 5) (·.toNat + 128 == 0x80000), okThat (s.xr 6) (·.toNat + 128 == 0x40000), hasVal (s.vr 3), vFree s 4, s.me.gen != 0xFFFF#16,
    (AMap.getD (s.myCore.buf .w) (0x7FF80 / 64) {}).gen != 0xFFFF#16, (AMap.getD (s.myCore.buf .w) (0x7FF80 / 64 + 1) {}).gen != 0xFFFF#16,
    (AMap.getD (s.myCore.buf .a) (0x3FF80 / 64) {}).gen != 0xFFFF#16, okThat (s.xr 7) (·.toNat % 64 != 0),
    okThat (s.xr 8) fun o => o.toNat % 64 == 0 && decide (0x40000 < o.toNat + 128)]

theorem test_meets_TypedBuffers : allOf meetsTypedBuffers = true := by decide +kernel

/-- A full word and an empty one, and 16 full words for `vld.s`. -/
def meetsFullEmpty : List Bool :=
  let s := lab [(5, 0x50000), (6, 0x50008)]
  let e := s.setEmpty 0x50008
  let at_ (s : State) (a : Word) (full : Bool) : Bool := okThat (translate s s.agent a .r) fun q =>
    q.2.hasFe q.1.pa && !q.2.isPoison q.1.pa && xFree (q.2.atHome q.2.agent q.1) 9 && (q.2.atHome q.2.agent q.1).isFull q.1.pa == full
  [hasVal (s.xr 5), (0x50008 : Word).toNat % 8 == 0, at_ s 0x50000 true, at_ e 0x50008 false, (0x50000 : Word).toNat % 128 == 0, s.me.wait == .run,
    (match takeWords (s.modMe fun v => { v with taken := [] }) 0x50000 (List.range 16) with
      | .ok t => t.me.taken.map (·.1) == List.range 16 && vFree t 4
      | _ => false),
    okThat (translate s s.agent 0x50000 .w) fun q => q.2.hasFe q.1.pa && !q.2.isPoison q.1.pa]

theorem test_meets_FullEmpty : allOf meetsFullEmpty = true := by decide +kernel

/-- Tide region 7 (the first 2 MiB) with one arrival of three to come and T = 5; an address outside it. -/
def meetsTides : List Bool :=
  let z : Tide := { base := 0, size := 0, p := 3, t := 5, count := 2 }
  let s := (lab [(5, 0x8000), (6, 7), (7, 0x200000)]).modTenant 0 fun n => { n with tides := [(7, z)] }
  let u := s.modMe fun v => { v with user := { v.user with tmo := 0 } }
  let tidal (a : Word) (k : Kind) (yes : Bool) : Bool := okThat (translate s s.agent a k) fun q => q.1.tide == (if yes then some (0, 7) else none) && xFree q.2 9
  let c (n b : Nat) : Nat := fld (w64 n) 47 0 - b
  let stamped (f : Nat) : Bool := okThat (xlat u u.agent 0x8000 .r) fun q =>
    (stampedCopy q.2 (coreOf q.2.cur) q.1 8 f).isNone && (if f ≤ 5 then decide (f ≤ q.2.tideT q.1.tide) else decide (q.2.tideT q.1.tide < f))
  let warm := after (.ldB true 1 9 5 6) (s.modMe fun v => { v with x := AMap.set v.x 6 { val := 6, gen := 5 } })
  [tidal 0x8000 .w true, tidal 0x8000 .r true, tidal 0x200000 .w false, tidal 0x200000 .r false, AMap.get? (s.tenant 0).tides 7 == some z,
    z.count + 1 == z.p.toNat, s.me.wait == .run, (0x8000 : Word).toNat % 8 == 0, stamped (c 5 0), stamped (c 6 0), u.me.user.tmo == 0,
    okThat (xlat warm warm.agent 0x8000 .r) fun q => (stampedCopy q.2 (coreOf q.2.cur) q.1 8 5).isSome && xFree q.2 9,
    okThat (checkAll s .r 32 ((List.range 4).map fun i => (0x8000 : Word) + w64 (32 * i))) fun q =>
      q.1.any (fun p => p.tide.isSome) && (boundedRead q.2 32 (c 5 0) q.1).any fun r => vFree r.2 4]

theorem test_meets_Tides : allOf meetsTides = true := by decide +kernel

/-- An aligned cached word, a misaligned one, and one of a page that is host-shared. -/
def meetsAtomics : List Bool :=
  let s := lab [(5, 0x50008), (6, 1), (9, 0)]
  let h := { s with mem := Bytes.wrN s.mem 0x20000 (natBytes 8 0x100000000000001F) }
  [hasVal (s.xr 5), hasVal (s.xr 6), hasVal (s.xr 9), (0x50008 : Word).toNat % 8 == 0, (0x50004 : Word).toNat % 8 != 0,
    okThat (translate s s.agent 0x50008 .w) fun q => !q.2.uncached q.1 && !q.2.isPoison q.1.pa && xFree (q.2.atHome q.2.agent q.1) 9,
    okThat (translate h h.agent 0x50008 .w) fun q => q.2.uncached q.1]

theorem test_meets_Atomics : allOf meetsAtomics = true := by decide +kernel

/-- Slot 9 like slot 0, at 0x40100 under generation 7. -/
def twoSlots (s : State) : State := s.setSlot 9 { (s.slot 0) with gen := 7#16, pc := 0x40100, x := (s.slot 0).x.map fun p => (p.1, { p.2 with gen := 7#16 }) }

/-- The lock word's holder, and the waiters behind it, as a slot finds them. -/
def lockAt (s : State) (a : Word) (f : Option Waiter → Waiter → List Waiter → State → Bool) : Bool :=
  okThat (translate s s.agent a .w) fun q =>
    let h := q.2.atHome q.2.agent q.1
    let pt := h.port (homePort q.2.fit q.1.pa)
    q.2.hasFe q.1.pa && !q.1.hs && !q.2.isPoison q.1.pa && decide (pt.held.length < 4096) && decide (pt.waiters < 2048)
      && f (holderOf pt q.1.pa (h.homeWord q.1)) { slot := h.cur, gen := h.me.gen } (AMap.getD pt.fifo q.1.pa []) h

/-- A free lock; one held by slot 0 seen by slot 0 and by slot 9; one with slot 9 waiting. -/
def meetsLocks : List Bool :=
  let s := twoSlots (lab [(5, 0x50008), (9, 3)])
  let held := after (.lkTake .dv 9 5) s
  let queued := { after (.lkTake .dv 9 5) { held with cur := 9 } with cur := 0 }
  [hasVal (s.xr 5), (0x50008 : Word).toNat % 8 == 0, lockAt s 0x50008 fun w _ _ h => w.isNone && xFree h 9,
    lockAt held 0x50008 fun w me q _ => w == some me && q.isEmpty,
    lockAt { held with cur := 9 } 0x50008 fun w me _ h => w.isSome && w != some me && xFree h 9,
    lockAt queued 0x50008 fun w me q _ => w == some me && q.length == 1]

theorem test_meets_Locks : allOf meetsLocks = true := by decide +kernel

/-- Tile 2 configured by slot 0 with 4 rows and 4 columns. -/
def tiled (xs : List (Nat × Word)) : State :=
  let s := after (.mxTcfg 2 5) (sup (lab [(5, 0x80_0000_00C3)]))
  let s := s.modMe fun v => { v with sup := false, wait := .run, x := xs.map fun p => (p.1, { val := p.2, gen := 5#16 }), v := [(3, { val := 9, gen := 5 })] }
  { (s.modMyCore fun c => { c with mxq := [] }) with duties := [] }

/-- Configurations of a fresh tile and of one's own; the tile of slot 1 in user mode; a route entry; a reserved form; rows and
columns within the tile, a row past 63, a restart past 64; a tile busy and idle. -/
def meetsMatrixTiles : List Bool :=
  let s := tiled [(5, 0x80_0000_00C3), (6, 7), (7, 3), (8, 200), (9, 65), (10, 64)]
  let busy := after (.mxTcfg 2 5) s
  let slot1 := s.modMyCore fun c => { c with td := [(2, { (AMap.getD c.td 2 {}) with owner := 1 })] }
  let mine (s : State) : Bool := okThat (s.tdr 2) fun t => t.v && t.owner.toNat == s.cur % 8
  [hasVal (s.xr 5), hasVal (s.xr 6), (AMap.getD s.me.md 1 {}).gen != 0xFFFF#16, fld (0x80_0000_00C3 : Word) 63 40 == 0,
    (AMap.getD s.myCore.td 2 {}).gen != 0xFFFF#16, !(lab []).me.sup && !((lab []).oldTd 2).v, decide (fld (0x80_0000_00C3 : Word) 21 12 + 3 + 1 ≤ 1024),
    (slot1.oldTd 2).v && (slot1.oldTd 2).owner.toNat != slot1.cur % 8 && !slot1.me.sup, fld (0x4A00000000000001 : Word) 63 62 == 1,
    fld (0x4A00000000000001 : Word) 61 60 != 3, decide (fld (0x4A00000000000001 : Word) 59 57 < 6), decide (2 ≤ fld (0x8000000000000000 : Word) 63 62),
    mine s, !mine slot1, hasVal (slot1.tdr 2), hasVal (s.xr 7), hasVal (s.vr 3), vFree s 3,
    hasVal (granWrite s.myCore.cbuf s.me.gen 0 (List.replicate (256 * 4) 0#8)), hasVal (granRead s.myCore.cbuf s.me.gen s.me.trapMode (256 * 3) 16),
    hasVal (granWrite s.myCore.cbuf s.me.gen (256 * 3) (natBytes 16 9)), okThat (s.xr 8) (128 ≤ ·.toNat), okThat (s.xr 9) (64 < ·.toNat),
    okThat (s.xr 10) (·.toNat == 64), mxBusy busy.myCore 2, !mxBusy s.myCore 2, (AMap.getD s.myCore.td 2 {}).gen == s.me.gen, xFree s 9]

theorem test_meets_MatrixTiles : allOf meetsMatrixTiles = true := by decide +kernel

/-- An operand descriptor: base, space, format, rows, columns and strides. -/
def mdw (base sp : Nat) (f : Fmt) (rows cols : Nat) (rstr cstr : Int) : BitVec 128 :=
  BitVec.ofNat 2 sp ++ f.code ++ BitVec.ofNat 11 (rows-1) ++ BitVec.ofNat 11 (cols-1) ++ BitVec.ofInt 26 rstr ++ BitVec.ofInt 11 cstr ++ BitVec.ofNat 64 base

/-- Tile 2 with 16 rows and 64 columns, of FP32 or INT32, and descriptors md0, md1, md4; buffers of zeros written. -/
def multiplied (int : Bool) (da db ds : BitVec 128) : State :=
  let s := after (.mxTcfg 2 5) (sup (lab [(5, if int then 0x81_0000_0FCF else 0x80_0000_0FCF)] [(3, 0x4444)]))
  let s := s.modMe fun v => { v with sup := false, wait := .run, md := [(0, { val := da, gen := 5 }), (1, { val := db, gen := 5 }), (4, { val := ds, gen := 5 })] }
  let zeros (n : Nat) : AMap Granule := match granWrite [] 5 0 (List.replicate n 0#8) with | .ok m => m | _ => []
  s.modMyCore fun c => { c with abuf := zeros 512, wbuf := zeros 512, cbuf := zeros 1024 }

/-- Both operands' blocks are read, and the accumulators of every row. -/
def readable (i : Instr) (s : State) (da db : BitVec 128) (kb c0 : Nat) : Bool :=
  okThat (s.tdr 2) fun t => t.v && t.owner.toNat == s.cur % 8 && t.restart == 0
    && decide (mdRows da ≤ t.nrow.toNat + 1) && decide (mdCols db ≤ t.ncol.toNat + 1)
    && okThat (mdBlock i da (List.range (mdCols da)) (stage s da (mdRows da * mdCols da * Fmt.width (mdFmt da) / 8)) (List.range (mdRows da))) fun x =>
      okThat (mdBlock i db (List.range (mdCols db)) x.2 (List.range kb)) fun u =>
        (List.range (mdRows da)).all fun r => hasVal (accRow u.2 (t.base.toNat + r) c0 (mdCols db))

/-- Operands of INT8, of BF16, of BF16 by LQ4 with a scale side, and of sparse BF16. -/
def meetsMatrixProducts : List Bool :=
  let a8 := mdw 0 2 .int8 2 8 8 1
  let b8 := mdw 0 1 .int8 8 2 2 1
  let a16 := mdw 0 2 .bf16 2 8 8 1
  let b16 := mdw 0 1 .bf16 8 2 2 1
  let a64 := mdw 0 2 .bf16 1 64 64 1
  let bq := mdw 0 1 .lq4 64 1 1 64
  let bs := mdw 0 1 .bf16 4 2 2 1
  let side := mdw 0x50000 0 .lq4 1 1 64 0
  let q := multiplied false a64 bq side
  [readable (.mxMma 2 0 1) (multiplied true a8 b8 side) a8 b8 8 0, readable (.mxMma 2 0 1) (multiplied false a16 b16 side) a16 b16 8 0,
    (denseGroup .bf16 .bf16 false 8).isSome, readable (.mxMmq 2 0 1 4) q a64 bq 64 0, hasVal (q.mdr 4), mdRows bq == 64, mdRstr bq == 1 && mdCstr bq % 64 == 0,
    mdSpace side == 0 && mdFmt side == .lq4 && mdRows side == 1 && mdCols side == 1 && mdCstr side == 0 && mdRstr side == 64,
    hasVal (sideReads (.mxMmq 2 0 1 4) (mdBase side) q [64]), readable (.mxMms 2 0 1 3 3) (multiplied false a16 bs side) a16 bs 4 48,
    hasVal ((multiplied false a16 bs side).vr 3), mdRows bs == 8 / 2, decide (16 * 3 + 2 ≤ 64)]

theorem test_meets_MatrixProducts : allOf meetsMatrixProducts = true := by decide +kernel

/-! ## Copies, streams, replay, messages, generations, frames, tasks -/

/-- A command packet of the words given by position. -/
def packet (ws : List (Nat × Nat)) : VWord := BitVec.ofNat 1024 (ws.foldl (fun a p => a + p.2 * 2 ^ (64 * p.1)) 0)

/-- Word 0 of a packet: its operation, destination and source kinds, element size and action. -/
def packet0 (op dst src esz act : Nat) : Nat := op * 2^16 + esz * 2^11 + dst * 2^8 + src * 2^5 + act

/-- A copy of 3 doublewords from 0x50000 to 0x52000 with its completion word at 0x51000, and a control packet on it. -/
def copyPacket : VWord := packet [(0, packet0 0 0 0 3 0), (2, 0x51000), (4, 0x50000), (5, 3), (8, 0x52000), (9, 3)]
def controlPacket (act cw target : Nat) : VWord := packet [(0, packet0 3 0 0 0 act), (2, cw), (4, target)]

/-- The words of a packet; its checks pass. -/
def wordsOf (v : VWord) : List Word := (List.range 16).map fun k => w64 (v.toNat / 2 ^ (64 * k))
def checked (s : State) (v : VWord) (f : State → Bool) : Bool :=
  let ck : CopyCk := { ill := { cause := 0x01, tval := codeOf (.cpPost 3 5) }, buoy := none, node := false }
  !cpIllegal ck (wordsOf v) && hasVal (checkPacket ck (wordsOf v)) && okThat (checkCw s { s.agent with core := none } (wordsOf v)) f

/-- A region placed at the first cell of its quadrant with an inward buoy 7 in A-cell 0, of the binding given. -/
def buoyed (cur : Binding) : State :=
  (lab [(5, 0xAB00_1234_5678_0308), (6, 0x50101), (7, 8)]).setRegion ⟨0, 3⟩
    { handle := mkHandle 3 0 0 8 8 false 5, st := 3, buoys := [(7, { x := 3, y := 0, blk := 0, idx := 4, img := { inward := true, bind := 1 }, cur := cur, pos := 9 })] }

/-- A fresh engine; a full one; a paused and a running command to resume and cancel; no target; a malformed packet. A buoy that is
free, one with a command on it, inward and outward, and a slot without a region. -/
def meetsCopyCommandsAndBuoys : List Bool :=
  let s := lab [(5, 0)] [(3, copyPacket)]
  let posted := (after (.cpPost 3 5) s).modMe fun v => { v with wait := .run }
  let withSt (st : CopySt) : State := posted.modCove 0 fun c => { c with cmds := c.cmds.map fun k => { k with st := st } }
  let full := posted.modCove 0 fun c => { c with cmds := (List.range 32).map fun j => { (c.cmds.headD { id := 0, pk := [], vmid := 0, troot := 0, gen := 0, trap := false }) with id := j + 1 } }
  let pk := wordsOf copyPacket
  let target (s : State) (v : VWord) : Option CopyCmd := (s.cove 0).cmds.find? fun k => k.vmid == s.vmid && cpCw k.pk == pkW (wordsOf v) 4 && pkW (wordsOf v) 4 != 0#64
  let paused := withSt .paused
  let y := buoyed { inward := true }
  let busy := y.modCove 0 fun c => { c with cmds := [{ id := 1, pk := [], vmid := 0, troot := 0, gen := 5, trap := false, rk := some ⟨0, 3⟩, buoy := some 7 }] }
  let w : Word := 0xAB00_1234_5678_0308
  [okThat (s.xr 5) (· == 0), okThat (s.vr 3) (· == copyPacket),
    cpIllegal { ill := { cause := 0x01, tval := 0 }, buoy := none, node := false } (wordsOf (packet [(0, packet0 0 0 0 3 1)])),
    checked s copyPacket fun t => decide ((t.cove 0).cmds.length < 32), cpOp pk != 3 && cpDst pk != 5,
    checked full copyPacket fun t => decide (32 ≤ (t.cove 0).cmds.length),
    checked s (controlPacket 1 0 0x51000) fun t => (target t (controlPacket 1 0 0x51000)).isNone,
    cpOp (wordsOf (controlPacket 1 0 0x51000)) == 3 && cpCw (wordsOf (controlPacket 1 0 0x51000)) == 0,
    checked paused (controlPacket 1 0 0x51000) fun t => (target t (controlPacket 1 0 0x51000)).any fun k => k.st == .paused && (t.cmd? 0 k.id) == some k,
    checked (withSt .running) (controlPacket 1 0 0x51000) fun t => (target t (controlPacket 1 0 0x51000)).any fun k => k.st != .paused,
    checked (withSt .running) (controlPacket 2 0 0x51000) fun t => (target t (controlPacket 2 0 0x51000)).any fun k => k.st != .ending,
    checked s (controlPacket 1 0x53000 0x51000) fun t => (target t (controlPacket 1 0x53000 0x51000)).isNone,
    cpCw (wordsOf (controlPacket 1 0x53000 0x51000)) != 0,
    (buoyOf y 0 false).any (fun b => b.1 == ⟨0, 3⟩ && b.2.1 == 7), fld (8 : Word) 63 8 == 0 && fld (8 : Word) 7 4 == 0 && bitAt (8 : Word) 3,
    fld (0x50101 : Word) 7 5 == 0 && fld (0x50101 : Word) 2 1 == 0 && canonical ((0x50101 : Word) &&& ~~~0xFF#64), !buoyBusy y ⟨0, 3⟩ 7, buoyBusy busy ⟨0, 3⟩ 7,
    bitAt w 3 && fld w 7 4 == 0 && fld w 15 11 == 0, (buoyOf y (fld w 2 0) true).any fun b => b.2.2.cur.inward && b.2.2.cur.bind != 3,
    (buoyOf (buoyed { bind := 1 }) (fld w 2 0) true).any fun b => !b.2.2.cur.inward, (buoyOf (buoyed { inward := true, bind := 3 }) (fld w 2 0) true).any fun b => b.2.2.cur.bind == 3,
    (buoyOf (lab []) (fld w 2 0) true).isNone]

theorem test_meets_CopyCommandsAndBuoys : allOf meetsCopyCommandsAndBuoys = true := by decide +kernel

/-- A stream register with so many elements left and so many bytes in its window. -/
def streaming (bnd : Bool) (left win : Nat) (flt : Bool) : State :=
  (lab []).modMe fun v => { v with q := [(2, { gen := 5, bnd := bnd, esz := 3, left := left, win := List.replicate win 7#8, flt := flt, cmd := 1 })] }

/-- Nothing left; one element and 128 bytes there; 7 bytes where 8 are asked for, with and without a failed feed; not bound. -/
def meetsStreamRegisters : List Bool :=
  [okThat ((streaming true 0 0 false).qr 2) fun e => e.bnd && e.left == 0,
    okThat ((streaming true 16 128 false).qr 2) fun e => e.bnd && decide (0 < e.left) && decide (min 128 (e.left * 8) ≤ e.win.length),
    okThat ((streaming true 1 8 false).qr 2) fun e => decide (min 8 (e.left * 8) ≤ e.win.length), xFree (streaming true 1 8 false) 9, vFree (streaming true 1 8 false) 4,
    okThat ((streaming true 1 7 false).qr 2) fun e => decide (e.win.length < min 8 (e.left * 8)) && !e.flt && e.cause == 0,
    okThat ((streaming true 1 7 true).qr 2) fun e => decide (e.win.length < min 8 (e.left * 8)) && e.flt, okThat ((streaming false 0 0 false).qr 2) fun e => !e.bnd,
    (AMap.getD (streaming true 1 7 true).me.q 2 {}).gen == (lab []).me.gen]

theorem test_meets_StreamRegisters : allOf meetsStreamRegisters = true := by decide +kernel

/-- Tile 2 (2 rows, 4 columns), a route entry of the destination and format given, and a node that takes tokens of the result port. -/
def drained (int : Bool) (dst : Nat) (f : Fmt) (base : Nat) : State :=
  let s := sup (lab [(5, if int then 0x81_0000_00C1 else 0x80_0000_00C1), (6, w64 (2^62 + dst * 2^60 + f.code.toNat * 2^57 + base))])
  let s := (after (.mxTcfg 2 5) s).modMe fun v => { v with wait := .run }
  let s := (after (.mxTcfgRoute 1 6) s).modMe fun v => { v with wait := .run, sup := false, x := [(5, { val := 1, gen := 5 })] }
  let s := s.modMyCore fun c => { c with cbuf := match granWrite [] 5 0 (List.replicate 512 0#8) with | .ok m => m | _ => [] }
  s.setRegion ⟨0, 3⟩
    { handle := mkHandle 3 0 0 8 8 false 5, st := 3
      blocks := [(0, { held := true, resident := true, place := [3 + 1 * 4], hdr := 0
                       words := [(encodeG (.gMxp { fmt := .int, any := true, pred := .none, act := .normal, t0 := 0, t1 := 0, tm := 0, imm := 0x20000 })).getD 0] })] }

/-- A tile whose kind does not fit; drains to the A buffer up to its end, to memory, and to the port. -/
def meetsMatrixDrain : List Bool :=
  let ok (s : State) (f : TR → Word → List (List Nat) → Bool) : Bool := okThat (s.tdr 2) fun t => okThat (s.rtr 1) fun r =>
    t.v && t.owner.toNat == s.cur % 8 && okThat ((List.range (t.nrow.toNat + 1)).mapM (fun m => accRow s (t.base.toNat + m) 0 (t.ncol.toNat + 1))) (f t r)
  let a := drained false 0 .bf16 0x3FFF0
  let m := drained false 1 .bf16 0x50000
  let p := drained true 2 .int 0
  [fld (1 : Word) 63 40 == 0 && fld (1 : Word) 4 3 == 0 && [0, 1, 2, 3, 5].contains (fld (1 : Word) 7 5), okThat (a.xr 5) (· == 1),
    ok (drained true 0 .bf16 0) fun t r _ => t.int32 != (Fmt.ofCode (r.extractLsb' 57 3) == .int),
    ok a fun t r rows => t.int32 == (Fmt.ofCode (r.extractLsb' 57 3) == .int) && fld r 61 60 == 0 && fld r 54 0 + 16 == 0x40000
      && hasVal (granWrite a.myCore.abuf a.me.gen 0x3FFF0 (rows.flatten.flatMap (natBytes 2))),
    ok m fun _ r rows => fld r 61 60 == 1 && hasVal (checkAll m .w 2 ((List.range rows.flatten.length).map fun k => sext 55 r + w64 (2 * k))),
    ok p fun t r rows => t.int32 && fld r 61 60 == 2 && (rows.flatMap (rowPays .int)).length ≤ 16, p.me.wait == .run, (portQueue p p.cur).isEmpty,
    (resultRegion p).any fun q => q.2.wave.isNone]

theorem test_meets_MatrixDrain : allOf meetsMatrixDrain = true := by decide +kernel

/-- A tenant with a replay area and a descriptor at 0x50000 of 16 FP32 elements and 128 bytes of output; x9 the step, x5 the
key. -/
def replaying (n key : Nat) : State :=
  let ws : List Word := [0x51000, 16, 0x52000, 128, 0x3F80000000040001, 0]
  let s := lab [(5, w64 key), (6, 0x50000), (9, w64 n)] [] (ws.flatMap fun w => natBytes 8 w.toNat)
  s.modTenant 0 fun t => { t with args := { t.args with repl := 0x1000000, replsz := 0x10000 } }

/-- The entry of key 5 with the shape of that descriptor. -/
def entryOf (last run : Nat) (pend : Bool) (fill : Byte) : ReplayKey :=
  { valid := true, icnt := 16, fmt := .fp32, metric := 0, osize := 128, lstep := last, run := run, pend := pend, refb := List.replicate 64 fill, outb := List.replicate 128 0 }

/-- What a probe of a state finds: the descriptor, and the entry of the key. -/
def probed (s : State) (f : RDesc → ReplayKey → List Byte → Bool) : Bool :=
  let r := s.releaseAt (coreOf s.cur) .dv
  okThat (readRDesc r s.agent { cause := 0x01, tval := 0 } 0x50000) fun q => okThat (rangeWritable s.agent (q.1.osize / 65536 + 2) q.2 q.1.ova q.1.osize) fun u =>
    okThat (rangeRead s.agent (q.1.inBytes / 64 + 2) u q.1.iva q.1.inBytes) fun x => xFree x.2 9 && f q.1 (x.2.rkey 0 0 5) x.1

/-- The largest key and one past it; no area; an entry of another shape, one not past, awaiting, run out, near and far; a record
awaited, and copies of the tenant under way. -/
def meetsStepReplay : List Bool :=
  let s := replaying 9 5
  let with_ (e : ReplayKey) : State := s.setRkey 0 0 5 e
  let same (q : RDesc) (e : ReplayKey) : Bool := e.valid && sameShape e q
  let far (q : RDesc) (e : ReplayKey) (x : List Byte) : Bool := !(compare .fp32 32 .le (replayMetric q.metric q.fmt (elemsOf q.esz q.icnt x) (elemsOf q.esz q.icnt e.refb)) q.thr).1
  let busy := s.modQuad 0 fun q => { q with copies := [{ vmid := 0, key := 5, record := false, ova := 0, troot := 0, data := [] }] }
  [okThat ((replaying 1 4096).xr 5) (4096 ≤ ·.toNat), decide (4095 < 4096), (lab []).vmid == 0 && ((lab []).tenant 0).args.repl == 0, okThat (s.xr 9) (·.toNat == 9),
    (s.tenant s.vmid).args.repl != 0 && (s.tenant s.vmid).args.replsz != 0 && !(s.quad (quadOfSlot s.cur)).rfenced, quadOfSlot s.cur == 0,
    keyBusy busy 0 0 5, !keyBusy s 0 0 5, probed s fun q e _ => !same q e,
    probed (with_ (entryOf 9 0 false 0)) fun q e _ => same q e && decide (9 ≤ e.lstep),
    probed (with_ (entryOf 8 0 true 0)) fun q e _ => same q e && decide (e.lstep < 9) && e.pend,
    probed (with_ (entryOf 8 4 false 0)) fun q e _ => same q e && !e.pend && decide (q.runmax ≤ e.run),
    probed (with_ (entryOf 8 3 false 0)) fun q e x => same q e && !e.pend && decide (e.run < q.runmax) && !far q e x,
    probed (with_ (entryOf 8 3 false 0x7F)) fun q e x => same q e && !e.pend && decide (e.run < q.runmax) && far q e x,
    okThat (readRDesc s s.agent { cause := 0x01, tval := 0 } 0x50000) fun q => !(q.2.rkey 0 0 5).valid, !(s.quad 0).copies.any (fun c => c.vmid == 0), AMap.sorted (s.quad 0).keys]

theorem test_meets_StepReplay : allOf meetsStepReplay = true := by decide +kernel

/-- Slot 8191 and one past it; in and out of a handler; a free inbox; a message that can be delivered; a deadline at hand and one
ahead. -/
def meetsMessagesAndWaiting : List Bool :=
  let s := lab [(5, 8191), (6, 3), (7, 8192)]
  let h := s.modMe fun v => { v with inHandler := true }
  let d := s.modMe fun v => { v with inbox := [{ payload := 3, sender := 9, ovf := false }], user := { v.user with msgvec := 0x60000 } }
  let slept := s.modMe fun v => { v with wait := .hold .sleep (.sleepT 5) 0 100 }
  let ring := s.modTenant 0 fun t => { t with args := { t.args with movr := 0x50000, movrn := 8 } }
  [okThat (s.xr 5) (·.toNat ≤ 8191), hasVal (s.xr 6), okThat (s.xr 7) (8191 < ·.toNat), h.me.inHandler, !s.me.inHandler, (s.slot 0).own.vmid.toNat == 0,
    !(s.core (coreOf 0)).fenced, decide ((s.slot 0).inbox.length < 8), (s.tenant 0).movr.isEmpty, ringBound s 0 == 0, (s.slot 0).own.vmid.toNat != 3,
    hasVal (xlat ring (ring.devAgent 0 0) (ring.tenant 0).args.movr .w), canDeliver d 0 && (d.slot 0).wait == .run, decide (0 < d.pend d.cur), s.pend s.cur == 0,
    decide ((0 : Word).toNat ≤ s.now), decide (s.now < (100 : Word).toNat), (slept.slot 0).wait == .hold .sleep (.sleepT 5) 0 100]

theorem test_meets_MessagesAndWaiting : allOf meetsMessagesAndWaiting = true := by decide +kernel

/-- A stamp of one's own, of nobody, poisoned and another's; the allocator free and stopped; everything named and one granule, with
the engine idle and busy. -/
def meetsGenerations : List Bool :=
  let s := lab [(5, 1), (6, 0x100), (7, 0)] [(1, 7), (2, 8)]
  let u := s.modMe fun v => { v with v := [(1, { val := 0, gen := 9 }), (2, { val := 0, gen := 0xFFFF })] }
  let stamp (s : State) (w : Word) : Option Gen := match genSel (.genRd .v 9 5) false .v w with | .ok sel => stampOf s sel | _ => none
  [hasVal (s.xr 5), stamp s 1 == some s.me.gen, stamp s 3 == some 0, stamp u 2 == some 0xFFFF, stamp u 1 == some 9, xFree s 9, (sup s).me.sup,
    !(sup s).mgmt.wrapping && decide ((sup s).mgmt.genNext ≤ 0xFFFD) && decide (1 ≤ (sup s).mgmt.genNext), !(sup s).liveGens.contains (BitVec.ofNat 16 0xFFFD),
    ((sup s).modMgmt fun m => { m with wrapping := true }).mgmt.wrapping, okThat (s.xr 6) (· == 0x100), okThat (s.xr 7) (· == 0), s.myCore.mxq.isEmpty,
    !(s.modMyCore fun c => { c with mxq := [{ slot := 0, td := none, flags := 0, accum := false }] }).myCore.mxq.isEmpty]

theorem test_meets_Generations : allOf meetsGenerations = true := by decide +kernel

/-- A tenant with a frame heap at 0x100000, a stack of 4 KiB and a save image. -/
def heaped (s : State) : State := s.modTenant 0 fun t =>
  { t with args := { t.args with fheap := 0x100000, fhsize := 0x10000, stkBase := 0x300000, stk := 0x100001000, save := 0x400000, saven := 1 } }

/-- A frame of the generation given at 0x100000, with that count of tasks to wait for and RESULT empty; x10 to x17 set. -/
def framed (xs : List (Nat × Word)) (gen count : Nat) : State :=
  let s := heaped (lab (xs ++ (List.range 8).map fun k => (10 + k, w64 (1000 + k))))
  { s with mem := Bytes.wrN s.mem 0x100000 ([0, 0, count, 0, gen, 0].flatMap fun w => natBytes 8 w), feEmpty := AMap.set s.feEmpty (0x100028 / 8) () }

/-- A code address, a tag of 10, a frame of generation 0, a deque with and without a place; a count of 0 and of 1. -/
def meetsForkJoin : List Bool :=
  let s := framed [(5, 0x40100), (6, 0x100000), (7, 0x100000)] 5 0
  let full := s.modMyCore fun c => { c with deque := List.replicate 64 { ptr := 0, frame := 0, slot := 0, dom := 0, queue := 3 } }
  let frm (s : State) (f : List Word → State → Bool) : Bool := okThat (frameWrite s 0x100000) fun q => f q.1 q.2.2
  let cleared (s : State) (f : State → Bool) : Bool := frm s fun _ t =>
    let r := t.releaseAt (coreOf t.cur) .dv
    okThat (r.homeStore r.agent 0x100000 0) fun a => okThat (a.homeStore a.agent 0x100010 0) fun b => okThat (b.homeStore b.agent 0x100028 0) f
  [okThat (s.xr 5) fun p => fld p 1 0 == 0, okThat (s.xr 6) (· == 0x100000), s.me.wait == .run, fld (0x40102 : Word) 1 0 == 2, frm (framed [] 0 0) fun ws _ => fld (ws.getD 4 0) 15 0 == 0,
    frm s fun ws _ => fld (ws.getD 4 0) 15 0 != 0 && ws.getD 1 0 == 0, cleared s fun t => decide ((t.core 0).deque.length < 64),
    cleared full fun t => decide (64 ≤ (t.core 0).deque.length) && (spillVictim t (t.core 0).deque).isNone,
    okThat (frameRead s 0x100000) fun q => fld (q.1.getD 2 0) 31 0 == 0,
    okThat (frameRead (framed [] 5 1) 0x100000) fun q => fld (q.1.getD 2 0) 31 0 != 0 && q.2.me.wait == .run]

theorem test_meets_ForkJoin : allOf meetsForkJoin = true := by decide +kernel

/-- Sizes of 1, 4,096 and 4,097 bytes, a frame to free, a misaligned one; pointers of tags 00, 01 and 11; `xret` of a task. -/
def meetsFramesAndCalls : List Bool :=
  let s := framed [(5, 4096), (6, 0x100000), (7, 0x50001)] 5 0
  let hd : Word := mkHandle 3 0 0 8 8 false 5
  let ws : List Word := [0x60000, 0x0901, 0, 0, 0x58000, hd, 0, 0]
  let c := { s with mem := Bytes.wrN s.mem 0x50000 (ws.flatMap fun (w : Word) => natBytes 8 w.toNat) }
  let c := c.setRegion ⟨0, 3⟩ { handle := hd, st := 3, buoys := [(1, { x := 3, y := 0, cur := { inward := true, bind := 1 } })] }
  let freed := heaped (lab [])
  let got := match allocFrame freed freed.agent 256 with | .ok (_, t) => t | _ => freed
  let got := { got with mem := Bytes.wrN got.mem 0x100000 ([0, 0, 0, 0, 5, 0].flatMap fun w => natBytes 8 w) }
  let alloc (n : Nat) : Bool := okThat (allocFrame s s.agent n) fun q => okThat (xlat q.2 s.agent (q.1 + 40) .w) fun p =>
    q.2.hasFe p.1.pa && okThat (writeHeader q.2 s.agent q.1 0 s.me.gen) fun z => xFree z 9
  [okThat (s.xr 5) (·.toNat ≤ 4096), alloc 1, alloc 4096, decide (4096 < (4097 : Word).toNat), (0x100020 : Word).toNat % 64 != 0, (0x100000 : Word).toNat % 64 == 0,
    okThat (freeCheck got got.agent 0x100000) fun t => hasVal (t.homeStore t.agent 0x100020 0), s.me.wait == .run, xFree s 1, fld (0x40103 : Word) 1 0 == 3,
    okThat (argRegs c) fun args => okThat (callDesc c 0x50001) fun d => okThat (callFrame d.2 (max 128 d.1.fsize.toNat) d.1.narg args) fun u =>
      match postStart u.2 u.2.vmid (coveOfSlot u.2.cur) u.2.myQueue 0x50001 u.1 with | .sent _ => true | _ => false,
    (s.modMe fun v => { v with inHandler := true }).me.inHandler, (sup s).me.sup,
    okThat (argRegs s) fun args => okThat (frameWrite s 0x100000) fun q => fld (q.1.getD 4 0) 15 0 != 0 && !q.2.2.isFull q.2.1.pa && q.1.getD 1 0 == 0
      && hasVal (homePuts (q.2.2.releaseAt (coreOf q.2.2.cur) .dv) (q.2.2.releaseAt (coreOf q.2.2.cur) .dv).agent 0x100040 args)]

theorem test_meets_FramesAndCalls : allOf meetsFramesAndCalls = true := by decide +kernel

/-- A load that waits on an empty word, one that it no longer waits for, one bounded by a tide, one past its limit and one without
a limit; a line of the buffer, of the L2 and of the L1D, before and after their times; an engine with an operation of each kind. -/
def meetsCompletionsInTime : List Bool :=
  let s := lab [(5, 0x50008), (6, 7), (9, 0x1122)]
  let hold (k : WaitKind) (i : Instr) (tmo : BitVec 48) (s : State) : State := s.modMe fun v => { v with wait := .hold k i 40 0x50008, user := { v.user with tmo := tmo } }
  let tide (t : Nat) (s : State) : State := s.modTenant 0 fun n => { n with tides := [(7, { base := 0, size := 0, p := 1, t := BitVec.ofNat 48 t })] }
  let late := (hold .tide (.ldB true 1 9 5 6) 5 s).modMgmt fun m => { m with time := { m.time with ns := 100 } }
  let stored := after (.store .d 9 5 0) s
  let cb (clk : Nat) : List CbEntry := ({ stored with clk := clk }.core 0).cb.filter fun e => e.line == 0x50008 / 32
  let l2 : State := after (.load .ld 9 5 0) (after (.fenceSc .rel .cv) stored)
  let mx (o : MxOp) : State := (s.modCore 0 fun c => { c with mxq := [o], td := [(2, { gen := 5, v := true, pflags := 8, restart := 3 })] }).modMe fun v => { v with wait := .done .mx }
  [loadOver (hold .sync (.ldS 9 5) 0 s) 0 (.ldS 9 5), !loadOver (hold .sync (.ldS 9 5) 0 (s.setEmpty 0x50008)) 0 (.ldS 9 5),
    loadOver (hold .tide (.ldB true 1 9 5 6) 0 (tide 6 s)) 0 (.ldB true 1 9 5 6), (late.slot 0).user.tmo != 0 && decide (40 + (late.slot 0).user.tmo.toNat < late.now),
    ((hold .tide (.ldB true 1 9 5 6) 0 s).slot 0).user.tmo == 0, (cb 64).any fun e => decide (e.last + 64 ≤ 64), (cb 63).any fun e => decide (63 < e.last + 64),
    (AMap.get? (l2.cove 0).l2 (0x50008 / 64)).any fun l => !l.dirty.isEmpty && decide (l.since + 2048 ≤ 2048) && decide (2047 < l.since + 2048),
    (AMap.get? (l2.core 0).l1d (0x50008 / 32)).any fun l => decide (l.clk + 4096 ≤ 4096),
    ((mx { slot := 0, td := some 2, flags := 6, accum := true }).core 0).mxq == [{ slot := 0, td := some 2, flags := 6, accum := true }],
    ((mx { slot := 0, td := none, flags := 6, accum := false }).slot 0).wait == .done .mx]

theorem test_meets_CompletionsInTime : allOf meetsCompletionsInTime = true := by decide +kernel

/-- Queue 3 of tenant 0, slot 1 idle in it, and a task of it at the given core. -/
def queued (core : Nat) (dom : BitVec 3) : State :=
  let s := heaped (lab [])
  let s := s.setQueue 3 { bound := true, vmid := 0, kind := 1, weight := 1, dom := 3, mask := BitVec.allOnes 256, gen := 5, spillVa := 0x58000, spillN := 64 }
  let s := s.modSlot 1 fun v => { v with gen := 5, troot := 0x20000, own := { idle := true, vmid := 0, cls := 0, owner := 3 } }
  s.modCore core fun c => { c with deque := [{ ptr := 0x40100, frame := 0x100000, slot := 1, dom := dom, queue := 3 }] }

/-- The entry taken for slot 1 is a task, with a stack for it. -/
def startable (r : Option (DqEntry × State)) : Bool :=
  r.any fun q => fld q.1.ptr 1 0 != 3 && (takeStack q.2 (q.2.slot 1).own.vmid.toNat).isSome && (q.2.slot 1).poisonedStart.isNone

/-- An idle slot with a task of its own core, and of another; a busy slot; a save that completes, a restore, a join that is parked;
a fenced core. -/
def meetsTaskEvents : List Bool :=
  let s := queued 0 2
  let v := queued 1 3
  let saving := s.modCore 0 fun c => { c with spill := some { slot := 1, index := 2, push := false } }
  let resumed := (s.modSlot 1 id).setTenant 0 { s.tenant 0 with saves := [(2, { task := {}, gen := 5, slot := 1, pin := false })] }
  let resumed := { resumed with mem := Bytes.wrN resumed.mem 0x58000 (natBytes 8 3) }
  let saving := saving.modTenant 0 fun t => { t with saves := [(2, { task := {}, gen := 5, slot := 1, pin := false })] }
  let joined := (framed [(5, 0x100000)] 5 1).modMe fun v => { v with wait := .hold .join (.join 5) 0 0x100000 }
  [idleFor s 1, idleFor resumed 1 && (popTake resumed 1 3).any fun q => fld q.1.ptr 1 0 == 3, startable (popTake s 1 3), !idleFor s 0,
    idleFor v 1 && (popEntry v 3 1).isNone && (resumeHead v 3 1).isNone, (stealEntry v 3 1).any fun e => e.1 == 1 && startable (some (takeEntry v e.1 e.2)),
    (saving.core 0).spill == some { slot := 1, index := 2, push := false } && (AMap.get? (saving.tenant 0).saves 2).any fun sv =>
      hasVal (writeRange ((saving.modCore 0 fun c => { c with spill := none }).devAgent 0 0) 86 (saving.modCore 0 fun c => { c with spill := none }) (saveVa (saving.tenant 0) 2)
        (imageBytes (saving.modCore 0 fun c => { c with spill := none }) 1 sv.pin 0 0)) && !sv.list,
    s.cores.all (fun c => c.2.spill.isNone) && hasVal (readRange (s.devAgent 0 0) 86 ((s.acquireAt 0 .dv).dropOlds 0) (saveVa (s.tenant 0) 2) 5376),
    (beginEvict joined 0 false).1, (s.core 0).reserve == [], (s.modCore 0 fun c => { c with fenced := true }).core 0 |>.fenced, (lab []).queues.length == 1,
    ({ lab [] with queues := [] } : State).queues.isEmpty && !(({ lab [] with queues := [] } : State).core 0).fenced]

theorem test_meets_TaskEvents : allOf meetsTaskEvents = true := by decide +kernel

/-! ## Nodes -/

/-- Region 3 of tenant 0, and an instance of its block 0. -/
def rk0 : RKey := { vmid := 0, ridx := 3 }
def ctx0 : Ctx := { frame := 5, fgen := 0 }
def ik0 : IKey := { blk := 0, ctx := ctx0, iter := 7#16, ser := 4 }
def handle0 : Word := mkHandle 3 4 0 8 8 false 5

/-- Firing `f` takes effect in region 3, whose block 0 has the words, places and header bits given; loops of its cell; `g` changes
the region. -/
def firing (f : Firing) (ws : List Word := [0, 0x0000804000000000]) (place : List Nat := [0, 0]) (hdr : Word := 0) (loops : List Loop := [])
    (g : Region → Region := id) : State :=
  let s := heaped (lab [])
  let blk : Block := { hdr := hdr ||| (w64 (ws.length - 1) <<< 6) ||| 0x3C, words := ws, place := place, held := true, resident := true }
  let s := s.setRegion rk0 (g { handle := handle0, st := 3, ncfg := 1, troot := 0x20000, nb := 1, blocks := [(0, blk)], insts := [{ ik := ik0, admitted := true }], serial := 4, qid := 9 })
  let s := (s.region rk0).keys.foldl (fun s k => s.modCell k fun c => { c with owner := some rk0 }) s
  let s := s.modCell (s.cellOf rk0 f.x f.y) fun c => { c with loops := loops }
  { s with fire := some f }

/-- A token with a payload, its firing, and a node. -/
def tokOf (p : Word) (ft : Fmt := .int) (a : Act := .normal) : Option MTok :=
  some { tok := { (default : Token) with payload := p, ftag := ft, act := a, ctx := ctx0, iter := 7#16 } }
def fired (l r : Option MTok) (body : Option Nat := none) : Firing :=
  { rk := rk0, ik := ik0, x := 0, y := 0, slot := 0, idx := 0, l := l, r := r, body := body, began := true }
def node (imm : Nat := 0) (fmt : Fmt := .int) (t0 : Nat := 0x281) (t1 : Nat := 0) : GNode :=
  { fmt := fmt, any := false, pred := .none, act := .normal, t0 := BitVec.ofNat _ t0, t1 := BitVec.ofNat _ t1, tm := 0, imm := BitVec.ofNat _ imm }

/-- The machine that a firing acts on, which its cell has begun now or before. -/
def begun (s : State) (i : Instr) (f : Firing) : State :=
  let v := State.beginFire { s with fire := none, stall := 0 } i f
  if loads i f then v.takePlace i f else v

/-- The node fires with an effect. -/
def firesB (s : State) (i : Instr) (f : Firing) : Bool :=
  s.fire == some f && (s.region f.rk).st == 3 && (s.region f.rk).wave.isNone && ((s.region f.rk).inst? f.ik).isSome && !(s.region f.rk).isParked f.ik.ctx && !f.nul
    && !offPred i f && (!loads i f || f.began || !channelFull s f)

theorem firesB_fires (s : State) (i : Instr) (f : Firing) (h : firesB s i f = true) : s.fires i { f with began := true } (begun s i f) := by
  simp only [firesB, Bool.and_eq_true, Bool.or_eq_true, Bool.not_eq_true', beq_iff_eq, Option.isNone_iff_eq_none] at h
  obtain ⟨⟨⟨⟨⟨⟨⟨hf, hs⟩, hw⟩, hi⟩, hp⟩, hn⟩, ho⟩, hl⟩ := h
  refine ⟨⟨f, hf, rfl, rfl, fun h1 => ?_⟩, hs, hw, hi, .inl hp, hn, ho⟩
  rcases hl with (h2 | h2) | h2
  · simp [h1] at h2
  · exact .inl h2
  · exact .inr h2

/-- The machine of a firing that has begun before. -/
def goes (s : State) : State := { s with fire := none, stall := 0 }

theorem begun_goes (s : State) (i : Instr) (f : Firing) (h : f.began = true) : begun s i f = goes s := by
  simp [begun, State.beginFire, State.takePlace, goes, h]

/-- A loop of the cell in wide form, and not. -/
def loopOf0 (wide : Bool) (n : Option Word := some 9) : Loop := { ik := ik0, slot := 0, wide := wide, started := true, n := n, busy := true }

/-- A firing in a token block and a step of a stream block, with the divisor 0 and with the immediate as right operand. -/
def meetsIntegerNodes : List Bool :=
  let f := fired (tokOf 7) (tokOf 0)
  let b := fired (tokOf 7) (tokOf 3) (some 3)
  [firesB (firing f) (.gAdd (node)) f, firesB (firing f) (.gDiv (node)) f, firesB (firing f) (.gTlt (node)) f, firesB (firing f) (.gShl (node 0 .int8)) f,
    firesB (firing b [0, 0x0000804000000000] [0, 0] 1 [loopOf0 true]) (.gMul (node)) b, !ivOf (.gAdd (node)), nodeOf (.gAdd (node)) == some (node),
    ivOf (.gAdd (node 0x3FFFF))]

theorem test_meets_IntegerNodes : allOf meetsIntegerNodes = true := by decide +kernel

/-- FP32 elements in a token block and in a stream block; conversions of INT and of arriving LQ4; LQ4 codes from the fifteenth on. -/
def meetsFloatNodes : List Bool :=
  let f := fired (tokOf 0x3F800000 .fp32) (tokOf 0xFFF_3F800000)
  let q := fired (tokOf 0x12 .lq4) (tokOf 0)
  let b := fired (tokOf 7) (tokOf 3) (some 3)
  let body := firing b [0, 0x0000804000000000] [0, 0] 1 [loopOf0 true]
  let any : GNode := { node with any := true }
  [isInt .fp32 == false, firesB (firing f) (.gFadd (node 0 .fp32)) f, firesB (firing f) (.gFlt (node 0 .fp32)) f, firesB (firing f) (.gFfma (node 0 .fp32)) f,
    !(((firing f).region rk0).block 0).stream, ((body.region rk0).block 0).stream && firesB body (.gFfma (node 0 .fp32)) b, firesB (firing f) (.gCvt (node)) f,
    (if any.any then q.ltag else any.fmt) == .lq4 && firesB (firing q) (.gCvt any) q, firesB (firing f) (.gQcvt (node 0 .fp32)) f, firesB (firing f) (.gDq (node 0x1000 .lq4)) f,
    fld f.rpay 43 40 == 15, firesB (firing f) (.gRng (node)) f]

theorem test_meets_FloatNodes : allOf meetsFloatNodes = true := by decide +kernel

/-- A target and none; the predicate of `steer` 0 and not, with each of its forms; a block to start; a throttle open and closed; each
register of `tget`; a time that has come and one that has not. -/
def meetsTokenNodes : List Bool :=
  let f := fired (tokOf 5) (tokOf 0)
  let g := fired (tokOf 5) (tokOf 9)
  let n := node 0 .int 0x281 0
  let s := firing f
  let far := fired (tokOf 5) (tokOf 100)
  [(target n.t0).isSome && (target n.t1).isNone && f.body.isNone, firesB s (.gMov n) f && firesB s (.gMovi n) f && firesB s (.gNull n) f && firesB s (.gMerge n) f,
    g.rpay != 0 && n.immField 0 0 == 0 && firesB (firing g) (.gSteer n) g, f.rpay == 0 && firesB s (.gSteer n) f, (node 1).immField 0 0 == 1 && firesB s (.gSteer (node 1)) f,
    firesB (firing g) (.gSteer (node 1)) g, ((s.region rk0).block (n.immField 17 10)).held && firesB s (.gBro n) f && firesB s (.gFin n) f,
    throttled (s.region rk0) f 8 && firesB s (.gInx n) f, !throttled (s.region rk0) f 20 && (node 0x10014).immField 16 16 == 1 && (node 0x10014).immField 15 0 == 20,
    (List.range 4).all (fun o => (node o).immField 1 0 == o && firesB s (.gTget (node o)) f), n.immField 1 0 == 0 && firesB s (.gTset n) f,
    (node 1).immField 0 0 == 1 && firesB s (.gPurge (node 1)) f && firesB s (.gPurge n) f, firesB s (.gTnow n) f, decide (f.rpay.toNat ≤ s.now) && firesB s (.gTgate n) f,
    decide ((firing far).now < far.rpay.toNat) && firesB (firing far) (.gTgate n) far,
    (match tsetTo (firing (fired (tokOf 5) (tokOf 0x0007_00_000005))) (node 1) (fired (tokOf 5) (tokOf 0x0007_00_000005)) with | .ok r => r.1 == ctx0 | .error _ => true)]

theorem test_meets_TokenNodes : allOf meetsTokenNodes = true := by decide +kernel

/-- A null firing, one whose predicate does not match either way, an instance that is gone, and a region that is not placed. -/
def meetsNullFirings : List Bool :=
  let f := { fired (tokOf 5) (tokOf 9) with nul := true }
  let s := firing f
  let cond (s : State) : Bool := (s.region rk0).st == 3 && ((s.region rk0).inst? ik0).isSome && !(s.region rk0).isParked ctx0 && (s.region rk0).wave.isNone
  let p0 := { fired (tokOf 5) (tokOf 9) with p := tokOf 0 }
  let p1 := { fired (tokOf 5) (tokOf 9) with p := tokOf 4 }
  let gone := firing f [0] [0] 0 [] fun r => { r with insts := [] }
  let out := firing f [0] [0] 0 [] fun r => { r with st := 0 }
  [nodeOf (.gSt (node)) == some (node) && s.fire == some f && cond s && f.nul && isStore (.gSt (node)), nodeOf (.gRet (node)) == some (node), !isStore (.gAdd (node)),
    cond (firing p0) && !p0.nul && p0.body.isNone && p0.p.all (fun m => m.tok.payload == 0), ({ (node) with pred := .onTrue } : GNode).pred == .onTrue,
    cond (firing p1) && p1.p.any (fun m => m.tok.payload != 0), ({ (node) with pred := .onFalse } : GNode).pred == .onFalse,
    ((gone.region rk0).inst? ik0).isNone && (gone.region rk0).st == 3, (out.region rk0).st != 3 && (out.region rk0).image.isNone]

theorem test_meets_NullFirings : allOf meetsNullFirings = true := by decide +kernel

/-- Frames of 256 bytes of the generation 5, one after the other, of contexts that fire nodes; a function's descriptor at 0x50000. -/
def frames2 : State × Word × Word :=
  match newFrame (firing (fired none none)) (firing (fired none none)).agent 256 0 5 with
  | .ok (a, s) => (match newFrame s s.agent 256 0 5 with
    | .ok (b, t) => ({ t with mem := Bytes.wrN t.mem 0x50000 ([0x60000, 0x0901, 0, 0, 0x58000, handle0.toNat, 0, 0].flatMap fun w => natBytes 8 w) }, a, b)
    | .error _ => (s, a, 0))
  | .error _ => (State.reset, 0, 0)

/-- A firing with payloads l and r in the context of the first frame. -/
def inFrame (l r : Word) : Firing := { fired (tokOf l) (tokOf r) with ik := { ik0 with ctx := (frames2.1.tenant 0).ctxOf frames2.2.1 } }
def framing (f : Firing) (g : Region → Region := id) : State :=
  { frames2.1.modRegion rk0 fun r => g { r with insts := [{ ik := f.ik, admitted := true, adm := 2 }] } with fire := some f }

/-- Word 7 and word 8 of the frame; a trap; a call with a bad pointer, a misaligned frame, and whole; a return; a task's call; sizes of 0
and 256; a frame freed, and a misaligned one; a frame write of an earlier instance pending, and one still to come. -/
def meetsFrameNodes : List Bool :=
  let b := frames2.2.2
  let f := inFrame 0x50001 b
  let s := framing f
  let u := goes s
  let ag := u.fireAgent f
  let n := node 8
  let older : Inst := { ik := { f.ik with iter := 6, ser := 1 }, admitted := true, adm := 1, fws := 1
                        pend := [{ lsid := 32, f := { f with ik := { f.ik with iter := 6, ser := 1 } }, node := .gFwr n, addr := frames2.2.1 + 64 }] }
  let w := framing f fun r => { r with insts := older :: r.insts }
  let c := inFrame 0x40000 0x50000
  let z := inFrame 0 0
  let v := inFrame 256 0
  let fr := inFrame b 0
  let mis := inFrame (b + 8) 0
  [firesB s (.gFrd n) f && ((s.region rk0).inst? f.ik).isSome, okThat (frameWord u rk0 f.ik.ctx 8) fun va => hasVal (ownerRead u rk0 va 8), (pendBefore (u.region rk0) f.ik 0).isEmpty,
    (pendBefore ((goes w).region rk0) f.ik 0).any (fun p => isFwr p.node && p.addr == frames2.2.1 + 64 && p.f.ik != f.ik),
    firesB s (.gFwr n) f && hasVal (frameWord u rk0 f.ik.ctx 8) && hasVal (frameWord u rk0 f.ik.ctx 7) && (node 7).immField 8 0 == 7 && n.immField 8 0 == 8,
    okThat (frameWord u rk0 f.ik.ctx 8) fun va => hasVal (xlat u ag va .w), firesB s (.gTrap n) f, firesB s (.gCall n) f && descOk f.lpay && fld f.rpay 5 0 == 0,
    !descOk (0x50002 : Word), fld (b + 8) 5 0 != 0,
    okThat (readDesc u ag f.lpay) fun d => okThat (homeWords d.2 ag f.rpay 5) fun ws => fld (ws.1.getD 4 0) 15 0 != 0
      && decide (8 * 8 + 24 ≤ (ws.2.tenant 0).frameBytes ((ws.2.tenant 0).frameVa f.ik.ctx))
      && okThat (xlat ws.2 ag ((ws.2.tenant 0).frameVa f.ik.ctx + 64) .w) fun p => okThat (xlat p.2 ag ((ws.2.tenant 0).frameVa f.ik.ctx + 80) .w) fun q =>
        okThat (xlat q.2 ag (f.rpay + 40) .w) fun x => x.2.hasFe x.1.pa,
    firesB s (.gRet n) f && okThat (homeWords u ag ((s.tenant 0).frameVa f.ik.ctx) 2) fun ws => ws.1.getD 1 0 == 0,
    firesB (framing c) (.gCcall (node)) c && fld c.lpay 1 0 == 0 && okThat (argWords (goes (framing c)) c c.rpay 0) fun ws =>
      hasVal (newFrame ws.2 (ws.2.fireAgent c) 128 0 (ws.2.region rk0).gen),
    fld (0x50001 : Word) 1 0 != 0 && fld (0x50001 : Word) 1 0 != 2, firesB (framing z) (.gFnew n) z && z.lpay == 0,
    firesB (framing v) (.gFnew n) v && okThat (newFrame (goes (framing v)) ((goes (framing v)).fireAgent v) 256 0 ((framing v).region rk0).gen) fun _ => true,
    firesB (framing fr) (.gFfree n) fr && fld fr.lpay 5 0 == 0 && hasVal (freeCheck (goes (framing fr)) ((goes (framing fr)).fireAgent fr) fr.lpay), fld mis.lpay 5 0 != 0]

theorem test_meets_FrameNodes : allOf meetsFrameNodes = true := by decide +kernel

/-- Addresses of the linear form of an M-cell, and of the cell's own store. -/
def mcellAddr (x y off : Nat) : Word := w64 (0xA * 2^60 + x * 2^22 + y * 2^16 + off)
def localAddr (off : Nat) : Word := w64 (0xB * 2^60 + off)

/-- A load, a store and a fence in block 0, of which those listed have fired; word 0x100 of every M-cell full; locks, tides and
poison as given. -/
def memFiring (f : Firing) (done : List Nat) (full : Bool := true) (locks : AMap LockTok := []) (pend : List Pend := []) : State :=
  let enc (i : Instr) : Word := (encodeG i).getD 0
  let ws : List Word := [0, 0x7000814000004C08, enc (.gSt (node (1 * 2^13 + 3) .int 0)), enc (.gFence (node (2 * 2^13) .int 0))]
  let s := firing f ws [0, 9, 2, 15] 0 [] fun r => { r with insts := [{ ik := f.ik, admitted := true, fired := done, pend := pend }] }
  (s.region rk0).xys.foldl (fun s q => s.modCell (cellAt handle0 q.1 q.2) fun c =>
    if cellKind q.1 q.2 = 1 then { c with mem := [(0x100 / 64, { gen := 5, data := 0x1234567890ABCDEF00112233 })], wst := if full then [(0x100 / 8, 1)] else [], locks := locks } else c) s

/-- Node fields of a load or store of 8 bytes after every other of its block. -/
def memNode : GNode := node (3 * 2^10 + 3 * 2^13) .int 0x281

/-- A load whose turn has not come; one of a VA, misaligned, of an M-cell, of the own store; a bounded load without a tide, before and
at its floor; stores; `ird` of a full and an empty word and of a VA; `iwr`; a prefetch. -/
def meetsMemoryNodes : List Bool :=
  let go (a b : Word) : Firing := { fired (tokOf a) (tokOf b) with x := 1, y := 3, idx := 1 }
  let n := memNode
  let f := go 0x50000 5
  let s := memFiring f [1, 2, 3]
  let u := goes s
  let ready (s : State) (f : Firing) (i : Instr) : Bool := loadReady (goes s) f i && fenceReady (goes s) f i && !channelFull (goes s) f
  let mc := go (mcellAddr 2 1 0x100) 5
  let lo := go (localAddr 0x1000) 5
  let ms := memFiring mc [1, 2, 3]
  let ls := memFiring lo [1, 2, 3]
  let me := memFiring mc [1, 2, 3] false
  let tidal (t : Nat) : State := s.modTenant 0 fun n => { n with tides := [(2, { base := 0, size := 1, p := 4, t := BitVec.ofNat 48 t })] }
  let bound (t : Nat) (p : Phys → State → Bool) : Bool :=
    let o := ((tidal t).region rk0).ownerOf f.lpay
    okThat (xlat (goes (tidal t)) ((goes (tidal t)).gAgent rk0 (coveOfXY (handleX handle0 + o.1) (handleY handle0 + o.2))) f.lpay .r) fun q => p q.1 q.2
  [firesB s (.gLd n) f && firesB s (.gLda n) f, !ready (memFiring f []) f (.gLd n), ready s f (.gLd n), canonical (0x50001 : Word), (0x50001 : Word).toNat % nodeBytes n != 0,
    f.lpay + nodeOff n == f.lpay && f.lpay.toNat % nodeBytes n == 0, gForm f.lpay == .va f.lpay && hasVal (amoClash u f (.gLd n) f.lpay 8) && hasVal (ownerRead u rk0 f.lpay 8),
    ready ms mc (.gLd n) && gForm mc.lpay == .mcell 2 1 0x100 && okThat (mCellAt (goes ms) rk0 2 1 mc.lpay) fun key => hasVal (mRead (goes ms) rk0 key 0x100 8),
    !((ms.region rk0).block 0).urg, ready ls lo (.gLd n) && gForm lo.lpay == .loc 0x1000 && hasVal (localRead (goes ls) rk0 (ls.cellOf rk0 1 3) 0x1000 8 lo.lpay),
    firesB s (.gLdb n) f && ready s f (.gLdb n), bound 20 fun p t => p.tide.isSome && hasVal (loadAt (.gLdb { n with imm := n.imm ||| 0xF0 }) f f.lpay 8 t),
    bound 4 fun p t => p.tide.isSome && decide (t.tideT p.tide < fld f.rpay 47 0 - 0) && tideLimit t rk0 == 0 || decide (t.now ≤ (f.since.getD t.now) + tideLimit t rk0),
    bound 5 fun p t => decide (fld f.rpay 47 0 ≤ t.tideT p.tide) && hasVal (loadAt (.gLdb n) f f.lpay 8 (ownerRefetch t rk0 f.lpay p)),
    firesB s (.gSt n) f && firesB s (.gStrl n) f && hasVal (nodeWriteOk u f f.lpay (natBytes 8 5) (.va f.lpay)), hasVal (nodeWriteOk (goes ms) mc mc.lpay (natBytes 8 5) (.mcell 2 1 0x100)),
    firesB ms (.gIrd n) mc && ready ms mc (.gIrd n) && okThat (mCellAt (goes ms) rk0 2 1 mc.lpay) fun key => mState (ms.cell key) 5 0x100 == 1,
    ready me mc (.gIrd n) && okThat (mCellAt (goes me) rk0 2 1 mc.lpay) fun key => mState (me.cell key) 5 0x100 != 1 && hasVal (irdDefer (.gIrd n) mc key 0x100 (goes me)),
    (pendBefore (s.region rk0) ik0 (lsidOf (.gIrd n))).isEmpty && okThat (ownerRead u rk0 f.lpay 8) fun q => q.2.2.hasFe q.2.1.pa,
    firesB s (.gIwr n) f && okThat (xlat u (u.fireAgent f) f.lpay .w) fun q => q.2.hasFe q.1.pa && hasVal (nodeWriteOk q.2 f f.lpay (natBytes 8 5) (.va f.lpay)),
    firesB ls (.gIwr n) lo && gForm lo.lpay == .loc 0x1000, firesB s (.gFence n) f, firesB s (.gPref n) f]

theorem test_meets_MemoryNodes : allOf meetsMemoryNodes = true := by decide +kernel

/-- An `amo` of a clean and of a poisoned line, of an M-cell and of the own store; a lock token that is free, one's own, another's, and a
fifth; a VA and a misaligned word. -/
def meetsAtomicNodes : List Bool :=
  let go (a b : Word) : Firing := { fired (tokOf a) (tokOf b) with x := 1, y := 3, idx := 1 }
  let n : GNode := node 0x6E08 .int 0x281
  let f := go 0x50000 5
  let s := memFiring f [1, 2, 3]
  let u := goes s
  let mc := go (mcellAddr 2 1 0x100) 5
  let ms := memFiring mc [1, 2, 3]
  let lo := go (localAddr 0x1000) 5
  let no := lockNo 0x100
  let own := memFiring mc [1, 2, 3] true [(no, { holder := some ctx0 })]
  let oth := memFiring mc [1, 2, 3] true [(no, { holder := some { frame := 9, fgen := 0 } })]
  let holds (s : State) (p : LockTok → State → Nat → Bool) : Bool := gForm mc.lpay == .mcell 2 1 0x100 && okThat (mCellAt (goes s) rk0 2 1 mc.lpay) fun key =>
    p (AMap.getD (s.cell key).locks no {}) (goes s) key
  [firesB s (.gAmo n) f && f.lpay.toNat % nodeBytes n == 0 && gForm f.lpay == .va f.lpay,
    okThat (translate u (u.fireAgent f) f.lpay .w) fun q => hasVal (rmwOk q.2 q.1 f.lpay) && !q.2.isPoison q.1.pa && ({ q.2 with poison := [(0x50000 / 64, ())] } : State).isPoison q.1.pa,
    firesB ms (.gAmo n) mc && hasVal (nodeWriteOk (goes ms) mc mc.lpay (natBytes (nodeBytes n) 5) (.mcell 2 1 0x100)), gForm lo.lpay == .loc 0x1000 && firesB (memFiring lo []) (.gAmo n) lo,
    firesB ms (.gLkt n) mc && mc.lpay.toNat % 8 == 0 && fenceReady (goes ms) mc (.gLkt n), holds ms fun l u _ => l.holder.isNone && decide (locksHeld u rk0 ctx0 < 4),
    holds own fun l _ _ => l.holder == some ctx0, holds own fun _ u _ => decide (4 ≤ locksHeld u rk0 ctx0),
    holds oth fun l u key => l.holder.isSome && l.holder != some ctx0 && hasVal (poolRoom u rk0 key) && decide (locksHeld u rk0 ctx0 < 4),
    firesB ms (.gLkg n) mc, canonical f.lpay && firesB s (.gLkg n) f, firesB ms (.gMcomb n) mc && mc.lpay.toNat % 16 == 0, (0x50008 : Word).toNat % 16 != 0]

theorem test_meets_AtomicNodes : allOf meetsAtomicNodes = true := by decide +kernel

/-- A cell without a buoy, and one with a buoy that posts or copies; descriptors that pass; a tide; a reserved key field; a probe that is
remembered, one that waits and one that is made; a record. -/
def meetsEngineNodes : List Bool :=
  let buoy (b : BitVec 2) : Buoy := { x := 3, y := 0, blk := 0, idx := 1, img := { bind := b }, cur := { bind := b, sva := 0x58000 } }
  let at3 (a b : Word) : Firing := { fired (tokOf a) (tokOf b) with x := 3, idx := 1 }
  let bs : List Nat := [0x52000, 0x54000, 0, 0x0000000400000030, 0, 0]
  let put (s : State) (a : Nat) (ws : List Nat) : State := { s with mem := Bytes.wrN s.mem a (ws.flatMap fun w => natBytes 8 w) }
  let f := at3 0x50000 5
  let on (b : BitVec 2) (f : Firing) : State := firing f [0, 0] [0, 3] 0 [] fun r => { r with buoys := [(7, buoy b)] }
  let p := on 0 f
  let c := put (on 1 f) 0x50000 bs
  let cp := put (on 1 f) 0x50000 [packet0 0 0 0 3 0, 0, 0, 0, 0x54000, 3, 0, 0, 0x56000, 3, 0, 0, 0, 0, 0, 0]
  let rd : List Nat := [0x51000, 16, 0x52000, 128, 0x3F80000000040001, 0]
  let key := at3 0x50000 (w64 (9 * 65536 + 5))
  let pr := (put (on 0 key) 0x50000 rd).modTenant 0 fun t => { t with args := { t.args with repl := 0x1000000, replsz := 0x10000 } }
  let quad := handleQuad handle0
  let memo := pr.modRegion rk0 fun r => { r with memos := [{ key := 5, step := 9, ik := ik0, verdict := 1 }] }
  let busy := pr.modQuad quad fun q => { q with copies := [{ vmid := 0, key := 5, record := false, ova := 0, troot := 0, data := [] }] }
  let n := node 0 .fp32
  [firesB (firing f) (.gPost n) f && (((firing f).region rk0).buoyAt 3 0).isNone, firesB p (.gPost n) f && ((p.region rk0).buoyAt 3 0) == some (7, buoy 0),
    hasVal (xlat (goes p) ((goes p).fireAgent f) (0x58000 + w64 (8 * postsPending (goes p) rk0 7)) .w), ((c.region rk0).buoyAt 3 0) == some (7, buoy 1),
    firesB c (.gGat n) f && okThat (readGat (goes c) f true) fun q => hasVal (checkPacket (nodeCk f 7 (buoy 1)) (gatPacket n.fmt q.1)),
    firesB c (.gSct n) f && okThat (readGat (goes c) f false) fun q => hasVal (checkPacket (nodeCk f 7 (buoy 1)) (sctPacket q.1)),
    firesB cp (.gCpy n) f && okThat (argWords (goes cp) f f.lpay 16) fun q =>
      let pk := q.1.set 12 (packCtx ctx0 8)
      hasVal (checkPacket (nodeCk f 7 (buoy 1)) pk) && hasVal (checkCw q.2 (q.2.fireAgent f) pk),
    let t := p.modTenant 0 fun n => { n with tides := [(2, { base := 0, size := 1, p := 4, t := 5 })] }
    firesB t (.gTadv n) f && okThat (translate (goes t) ((goes t).fireAgent f) f.lpay .w) fun q => okThat (tideRegion q.2 q.1 f.lpay) fun r => r.1 == 0 && r.2.1 == 2,
    firesB (on 0 (at3 0 0x1000)) (.gProbe n) (at3 0 0x1000) && fld (0x1000 : Word) 15 12 != 0, fld key.rpay 63 48 == 0 && fld key.rpay 15 12 == 0 && hasVal (areaOk (goes pr) quad 0 5),
    firesB memo (.gProbe n) key && (memoOf memo key 5 9).isSome, firesB busy (.gProbe n) key && (memoOf busy key 5 9).isNone && keyBusy (goes busy) quad 0 5,
    firesB pr (.gProbe n) key && !keyBusy (goes pr) quad 0 5 && hasVal (probeKey (gRelease (goes pr) rk0 .dv) ((goes pr).fireAgent key) quad { cause := 0x01, tval := 1 } 5 9 key.lpay),
    firesB pr (.gRec n) key && okThat (readRDesc (goes pr) ((goes pr).fireAgent key) { cause := 0x01, tval := 1 } key.lpay) fun q => hasVal (homeWords q.2 (q.2.fireAgent key) key.lpay 6)]

theorem test_meets_EngineNodes : allOf meetsEngineNodes = true := by decide +kernel

/-- Every stream node at a firing of its block; a generator's descriptor aligned and not, its reads and writes; a delay line with rounds to
come and without; each use of `mxp`, within the buffer and past it, and a port with a token and without. -/
def meetsStreamNodes : List Bool :=
  let f := fired (tokOf 3) (tokOf 4)
  let b := fired (tokOf 3) (tokOf 4) (some 3)
  let s := firing f [0, 0] [0, 0] 1 [loopOf0 false]
  let body (l : Loop) : State := firing b [0, 0] [0, 0] 1 [l]
  let n := node 0
  let g : GenDesc := { base := 0x200, ext := 0xFFFF, str0 := 8, str2 := 0 }
  let gen := body { loopOf0 false with gens := [(0, g), (2, g)] }
  let port (q : List MTok) : State := s.modCell (s.cellOf rk0 0 0) fun c => { c with mxpq := q }
  let tok := tokOf 6 .fp32
  [firesB s (.gRpt n) f && firesB s (.gCnt n) f, firesB s (.gCtok n) f && (target n.t0).isSome && (target n.t1).isNone,
    firesB s (.gSgen n) f && f.body.isNone && kindOf s f != 2 && n.immField 12 0 % 8 == 0 && hasVal (genWords (goes s) f 0x200 4) && (node 0x200).immField 12 0 == 0x200, (node 4).immField 12 0 % 8 != 0,
    firesB gen (.gSgen n) b && b.body == some 3 && n.immField 17 16 != 2 && hasVal (genIn (goes gen) b .int g 3 1) , (node 0x20000).immField 17 16 == 2,
    hasVal (genOut (goes gen) b .int g 3 [4]), firesB s (.gDly (node 0x10000)) f && (node 0x10000).immField 17 16 == 1, firesB (body (loopOf0 false)) (.gDly n) b,
    (let l := loopOf (body (loopOf0 false)) b; decide (3 / l.ilv + (n.immField 9 0 + 1) < (l.n.getD 0).toNat)),
    (let l := loopOf (body (loopOf0 false (some 4))) b; !(decide (3 / l.ilv + (n.immField 9 0 + 1) < (l.n.getD 0).toNat)) && !l.ups),
    firesB s (.gMxp (node 0x20000)) f && (s.cell (s.cellOf rk0 0 0)).mxpq.isEmpty, ((port tok.toList).cell (s.cellOf rk0 0 0)).mxpq == tok.toList,
    tok.all fun m => m.tok.ftag != (node 0x20000).fmt && m.tok.ftag == .fp32, decide (bufBytes .a < 64 * (node 0x1FFF).immField 12 0 + 8) && (node 0x1FFF).immField 17 16 == 0,
    hasVal (granWrite ((s.core (coreOfXY (s.cellOf rk0 0 0 % 128) (s.cellOf rk0 0 0 / 128))).gran .a) 5 0 (natBytes 8 3)) && n.immField 17 16 == 0]

theorem test_meets_StreamNodes : allOf meetsStreamNodes = true := by decide +kernel

/-! ## Commits, events of the graph, placers, engines, the host -/

/-- An effect of node `i` fired with payloads l and r in the M-cell's neighbour (1, 3), with what it read. -/
def pending (i : Instr) (l r addr : Word) (data : List Word) : Pend :=
  { lsid := 2, f := { fired (tokOf l) (tokOf r) with x := 1, y := 3, idx := 1 }, node := i, addr := addr, data := data }

/-- An instance that may commit and one with a store still to come; its lowest effect; each kind of effect: stores of a VA, an M-cell and
the own store, an empty and a full word, a frame word, a lock token of its own and another's, one waiter and none. -/
def meetsCommits : List Bool :=
  let f : Firing := { fired (tokOf 0x50000) (tokOf 5) with x := 1, y := 3, idx := 1 }
  let n := memNode
  let p := pending (.gSt n) 0x50000 5 0x50000 [0x50000]
  let s := memFiring f [1, 2, 3] true [] [p]
  let done := firing f [0] [0] 0 [] fun r => { r with insts := [{ ik := ik0, admitted := true, bros := 1 }] }
  let ms := memFiring f [1, 2, 3] true [(lockNo 0x100, { holder := some ctx0 })]
  let rg (s : State) : Region := s.region rk0
  let insts (s : State) (c : Inst → Bool) : Bool := ((rg s).inst? ik0).any c && (rg s).wave.isNone && (rg s).st == 3
  let mc := mcellAddr 2 1 0x100
  [insts s fun i => !mayCommit s rk0 i, insts done fun i => mayCommit done rk0 i && !((rg done).block 0).stream,
    insts s fun i => (match nextPend s rk0 i 1 3 with | .effect q => q == p | _ => false), gForm (0x50000 : Word) == .va 0x50000 && hasVal (ownerWrite s rk0 0x50000 (natBytes 8 5)),
    gForm mc == .mcell 2 1 0x100 && okThat (mCellAt ms rk0 2 1 mc) fun key => hasVal (mWrite ms rk0 2 1 key 0x100 (natBytes 8 5)),
    gForm (localAddr 0x1000) == .loc 0x1000 && hasVal (localWrite s rk0 (s.cellOf rk0 1 3) 0x1000 (natBytes 8 5) (localAddr 0x1000)),
    okThat (xlat s (s.fireAgent f) 0x50000 .w) fun q => (ownerHome q.2 rk0 0x50000 q.1).isFull q.1.pa,
    let e := s.setEmpty 0x50000
    okThat (xlat e (e.fireAgent f) 0x50000 .w) fun q => !(ownerHome q.2 rk0 0x50000 q.1).isFull q.1.pa,
    (mPlace ms f mc).any fun q => (AMap.getD (ms.cell q.2.2.1).locks (lockNo q.2.2.2) {}).holder == some ctx0 && (AMap.getD (ms.cell q.2.2.1).locks (lockNo q.2.2.2) {}).wait.isEmpty,
    (mPlace s f mc).any fun q => (AMap.getD (s.cell q.2.2.1).locks (lockNo q.2.2.2) {}).holder != some ctx0,
    ((({} : LockTok).wait ++ [{ off := 0x100, f := f, node := .gLkt n }] : List Waiting)).length == 1]

theorem test_meets_Commits : allOf meetsCommits = true := by decide +kernel

/-- What each effect finds when it is performed: an atomic, a combining word, a call and a task's call, a frame to free, a return, a post, room
for a copy and none, a tide, and a record with the key free and busy. -/
def meetsCommitEffects : List Bool :=
  let b := frames2.2.2
  let s := framing (inFrame 0x50001 b)
  let f := inFrame 0x50001 b
  let dv := gRelease s rk0 .dv
  let ag := dv.fireAgent f
  let n := node 8
  let amo : GNode := node 0x6E08
  let r := (dv.tenant 0).frameVa f.ik.ctx + 64
  let ms := memFiring { fired (tokOf (mcellAddr 2 1 0x100)) (tokOf 5) with x := 1, y := 3, idx := 1 } [1, 2, 3]
  let full := s.modCove (s.coveOf f) fun c => { c with cmds := List.replicate 32 { id := 1, pk := [], vmid := 0, troot := 0, gen := 5, trap := false } }
  let quad := handleQuad (s.region rk0).handle
  [okThat (xlat s (s.fireAgent f) 0x50000 .w) (fun q => (amoAt (ownerHome q.2 rk0 0x50000 q.1) (q.2.fireAgent f) q.1 (nodeAmoOp amo) 8 5 0).1 == 0x60000),
    (mPlace ms { fired (tokOf 5) none with x := 1, y := 3 } (mcellAddr 2 1 0x100)).isSome,
    okThat (homePuts dv ag r (returnRecord dv f n)) fun t1 => okThat (homePuts t1 ag b [r ||| 1, 0, 0, 0, (dv.region rk0).gen.setWidth 64, 0]) fun t2 => hasVal (xlat t2 ag (b + 40) .w),
    fld (0x40000 : Word) 1 0 == 0 && okThat (writeHeader dv ag b 0 (dv.region rk0).gen) fun t1 => okThat (homePuts t1 ag (b + 64) (List.replicate 8 0)) fun t =>
      (pushBottom t (leastCore t (dv.region rk0).qid (coresOf (handleCove (dv.region rk0).handle))) { ptr := 0x40000, frame := b, slot := 0, dom := 2, queue := (dv.region rk0).qid }).isSome,
    okThat (freeCheck dv ag b) fun t => okThat (freeFrame t (t.fireAgent f) b) fun v => b != (v.tenant 0).frameVa f.ik.ctx,
    okThat (freeCheck dv ag frames2.2.1) fun t => okThat (freeFrame t (t.fireAgent f) frames2.2.1) fun v => frames2.2.1 == (v.tenant 0).frameVa f.ik.ctx,
    okThat (dv.homeLoad (s.fireAgent f) (frames2.2.1 + 32)) fun q => fld q.1 15 0 != 0 && hasVal (xlat q.2.2 (s.fireAgent f) (frames2.2.1 + 40) .w),
    hasVal (s.writeAs (s.fireAgent f) 0x58000 (natBytes 8 5)), cpOp (wordsOf copyPacket) != 3, copyRoom s (s.coveOf f), !copyRoom full (s.coveOf f),
    !keyBusy s quad 0 5, keyBusy (s.modQuad quad fun q => { q with copies := [{ vmid := 0, key := 5, record := false, ova := 0, troot := 0, data := [] }] }) quad 0 5]

theorem test_meets_CommitEffects : allOf meetsCommitEffects = true := by decide +kernel

/-- A node of two operands; a placed region; a stale context; a wave with the cell saved; a buoy and none; an instance whose store, frame
write and branch are counted, once and twice. -/
def meetsMatching : List Bool :=
  let f := fired (tokOf 5) (tokOf 9)
  let s := firing f
  let t : Token := { (default : Token) with payload := 5, ctx := ctx0, iter := 7 }
  let wave := s.modRegion rk0 fun r => { r with wave := some { saved := [s.cellOf rk0 0 0] } }
  let out := s.modRegion rk0 fun r => { r with st := 1 }
  let b := s.modRegion rk0 fun r => { r with buoys := [(7, { x := 3, y := 0, blk := 0, idx := 1 })] }
  let m := memFiring { f with x := 1, y := 3, idx := 1 } []
  let twice := m.modRegion rk0 fun r => { r with insts := r.insts.map fun i => { i with lsids := [1] } }
  [needs false (.gAdd (node)) == [true, true, false], (s.region rk0).st == 3 && (s.region rk0).wave.isNone, (s.tenant 0).fgen t.ctx.frame.toNat == t.ctx.fgen,
    (s.tenant 0).fgen t.ctx.frame.toNat != ({ t.ctx with fgen := 1 } : Ctx).fgen,
    (wave.region rk0).wave.any fun w => w.saved.contains (wave.cellOf rk0 t.dx.toNat t.dy.toNat), !((s.region rk0).block (((s.region rk0).blockAt 0 0 0).getD 0)).urg,
    (out.region rk0).st != 3 && (out.region rk0).st != 4 && (out.region rk0).wave.isNone, (AMap.get? (b.region rk0).buoys 7).isSome, (AMap.get? (s.region rk0).buoys 7).isNone,
    ((m.region rk0).inst? ik0).any fun i => !i.committed && (((m.region rk0).block 0).node 2).any fun d => isStore d && !i.lsids.contains (lsidOf d),
    ((twice.region rk0).inst? ik0).any fun i => (((twice.region rk0).block 0).node 2).any fun d => i.lsids.contains (lsidOf d)]

theorem test_meets_Matching : allOf meetsMatching = true := by decide +kernel

/-- A reply that is known, in an unordered channel and at its head not back; a timed token before and at its deadline; `cnt` with its
latches; a loop that may start, one without its count, one to finish; a refill; a held fault of the first instance. -/
def meetsGraphEvents : List Bool :=
  let f := fired (tokOf 5) (tokOf 9)
  let s := firing f
  let key := s.cellOf rk0 0 0
  let rep (back : Bool) (v : Option Word) : Reply := { f := f, node := .gLd memNode, val := v, back := back }
  let replied := s.modCell key fun c => { c with replies := [rep false (some 3)] }
  let ent : MEntry := { slot := 0, idx := 0, ctx := ctx0, iter := some 7, l := tokOf 5, timed := some 9 }
  let timed := s.modCell key fun c => { c with ms := [ent] }
  let enc (i : Instr) : Word := (encodeG i).getD 0
  let cnt (a b : Nat) : State := firing f [enc (.gCnt (node (a * 2^17 + b * 2^16) .int 0))] [0]
  let fresh : Loop := { ik := ik0, slot := 0, n := some 4 }
  let loop (l : Loop) : State := firing f [0, enc (.gRpt (node 0 .int 0))] [0, 0] 1 [l]
  let m : MTok := { tok := { (default : Token) with payload := 5, ctx := ctx0, iter := 7 } }
  let o : OvEntry := { cell := key, ent := { ent with timed := none }, frames := [] }
  let refill := (s.modCell key fun c => { c with lookup := [m] }).modRegion rk0 fun r => { r with ovf := [o] }
  let h : HeldFault := { ik := ik0, cause := 0x03, addr := 0x50001, idx := 0 }
  let held := s.modRegion rk0 fun r => { r with faults := [h] }
  let region (s : State) : Region := s.region rk0
  [(region s).wave.isNone && (region s).st == 3, !ordered (region s) 0 0, ((replied.cell key).replies.find? fun r => r.f.ik == ik0 && r.f.idx == 0 && !r.back).any (·.val.isSome),
    (replied.cell key).replies == [rep false (some 3)],
    ((timed.cell key).ms.find? fun e => e.idx == 0 && e.ctx == ctx0 && e.iter == some 7 && e.timed.isSome) == some ent, (((region timed).block 0).node 1).isSome,
    decide (timed.now < 9), (region timed).ovf.isEmpty && !(region timed).isParked ctx0,
    [(0, 0), (0, 1), (1, 0), (1, 1)].all (fun q => (((region (cnt q.1 q.2)).block 0).node 0) == some (.gCnt (node (q.1 * 2^17 + q.2 * 2^16) .int 0))),
    ((loop fresh).cell key).loop? ik0 0 == some fresh, mayStart (loop fresh) rk0 0 0 fresh && (badChunk ((region (loop fresh)).block 0) 0 0 fresh).isNone,
    !mayStart s rk0 0 0 { fresh with n := none }, ((region (loop fresh)).block 0).cellXY 0 == (0, 0),
    (loopOf0 false).started && !(loopOf0 false).finished && (region s).faults.isEmpty,
    (refill.cell key).lookup == [m] && (region refill).ovf == [o] && o.ent.key m.tok.dslot.toNat m.tok.didx.toNat m.tok.ctx (some m.tok.iter) && hasVal (makeRoom refill rk0 0 0 false),
    (region held).faults == [h] && mayReport (region held) h]

theorem test_meets_GraphEvents : allOf meetsGraphEvents = true := by decide +kernel

/-- A region of 4 by 4 cells: its record at 0x60000 (no cell holds entries) and its block image at 0x62000, a `bro` to itself;
the record has a reserved byte set where it is not good. -/
def regionRecord (good : Bool) : List Byte :=
  let cells := (List.range 16).flatMap fun k => [BitVec.ofNat 8 (k % 4), BitVec.ofNat 8 (k / 4), BitVec.ofNat 8 (cellKind (k % 4) (k / 4)), 1] ++ natBytes 12 0
  [0, 0] ++ natBytes 2 16 ++ [0, 0, if good then 0 else 1, 0] ++ natBytes 56 0 ++ cells ++ natBytes 8 0x62000
def blockImage : List Byte := natBytes 128 0 ++ natBytes 8 ((encodeG (.gBro (node 0 .int 0))).getD 0).toNat

/-- Memory with that image, and a descriptor of it at 0x61000, with payloads of the instructions as given. -/
def imaged (good : Bool) (xs : List (Nat × Word)) : State :=
  let s := sup (lab xs)
  { s with mem := Bytes.wrN (Bytes.wrN s.mem 0x60000 (regionRecord good)) 0x62000 blockImage }

/-- The region reserved in the first quadrant. -/
def handle4 : Word := mkHandle 3 0 0 4 4 false 5
def reserved (s : State) (st : Nat) : State :=
  let s := s.setRegion ⟨0, 3⟩ { handle := handle4, st := st, ncfg := 1, troot := 0x20000 }
  ((s.region ⟨0, 3⟩).keys).foldl (fun s k => s.modCell k fun c => { c with owner := some ⟨0, 3⟩ }) s

/-- A shape that fits, one that does not, a bad one, and no free entry; a handle that is reserved, one that is not, one with a reserved
bit; images that pass and that do not; a cell word and a restamp at the ends of their range. -/
def meetsPlacementInstructions : List Bool :=
  let shape : Word := 0x0000012300000000
  let s := sup (lab [(5, shape), (6, handle4)])
  let r := reserved (imaged true [(5, 0x60000), (6, handle4)]) 1
  let b := reserved (imaged false [(5, 0x60000), (6, handle4)]) 1
  let at_ (a : Word) : State := r.modMe fun v => { v with x := [(5, { val := handle4, gen := 5 }), (6, { val := a, gen := 5 })] }
  let cs := candidates 0 (fun q => q == 0) 4 4
  let fits (s : State) : Nat × Nat → Bool := originFits s (s.queue s.myQueue).mask 4 4 (cellFree s) fun _ _ => false
  let open_ := s.setQueue 0 { Queue.host with mask := BitVec.allOnes 256 }
  let all := open_.modTenant 0 id
  let full := { open_ with regions := (List.range 256).map fun k => (k, { st := 1 }) }
  let same (s : State) (p : Checked → Bool) : Bool := okThat (imageOperand s 0x60000) fun q => q.2.1.isNone && okThat (checkRecord q.2.2 q.2.2.agent q.1 (some (4, 4))) p
  [okThat (s.xr 5) (· == shape) && okThat (s.xr 6) (· == handle4) && s.me.sup && s.me.wait == .run && xFree s 9, fld (0x400 : Word) 15 10 != 0, fld shape 63 48 == 0 && fld shape 15 4 == 0,
    (cs.find? (fits s)).isNone, (cs.findIdx? (fits all)).any fun k => (cs[k]?).isSome, (freeEntry all 0) == some 0, (freeEntry full 0).isNone, fld (0 : Word) 47 32 == 0 && (all.newGen).1.isSome,
    handleOk handle4 && !handleOk (handle4 ||| 0x8000000), handleRegion r handle4 true == some ⟨0, 3⟩, (handleRegion s handle4 true).isNone, (r.region ⟨0, 3⟩).st == 1,
    ((reserved s 4).region ⟨0, 3⟩).st == 4, same r fun c => (match c with | .good m v => xFree (loadImage v ⟨0, 3⟩ m v.me.troot).2 9 | .bad _ _ => false),
    same b fun c => (match c with | .bad _ v => xFree v 9 | .good _ _ => false), bitAt (0x1FFFB : Word) 0 && fld (0x1FFFB : Word) 16 1 == 0xFFFD, fld (3 : Word) 16 1 == 1,
    fld (1 : Word) 16 1 == 0, decide (0xFFFD < fld (0x1FFFD : Word) 16 1), !bitAt (0x60044 : Word) 0 && fld (0x60044 : Word) 2 0 != 0,
    hasVal (cfgRecord (at_ 0x60040) handle4 0x60040), cfgRegion r handle4 == some ⟨0, 3⟩ && decide ((handleCell handle4).1 < handleW handle4)]

theorem test_meets_PlacementInstructions : allOf meetsPlacementInstructions = true := by decide +kernel

/-- A frame that is misaligned, outside the heap, not parked, parked, and parked in a fenced unit. -/
def meetsParkedContexts : List Bool :=
  let s := sup (framed [(5, 0x100000), (6, 0x100020), (7, 0x200000)] 5 0)
  let c := (s.tenant 0).ctxOf 0x100000
  let park (cause : BitVec 8) : State :=
    let s := s.setRegion ⟨0, 3⟩ { handle := handle4, st := 3, parked := [{ ctx := c, ik := { ik0 with ctx := c }, cause := cause }] }
    { s with mem := Bytes.wrN s.mem 0x100018 (natBytes 8 (2^63)) }
  let word (s : State) (p : Word → State → Bool) : Bool := okThat (s.homeLoad s.agent 0x100018) fun q => p q.1 q.2.2
  [okThat (s.xr 5) (· == 0x100000) && s.me.sup, fld (0x100020 : Word) 5 0 != 0, fld (0x200000 : Word) 5 0 == 0 && !(s.tenant 0).inHeap 0x200000, (s.tenant 0).inHeap 0x100000,
    word s fun w t => (parkedCtx t 0 c).isNone && !bitAt w 63, word (park 0x03) fun w t => bitAt w 63 && (parkedCtx t 0 c).any fun q => q.2.cause != 0x19,
    word (park 0x19) fun _ t => (parkedCtx t 0 c).any fun q => q.2.cause == 0x19,
    let r := (park 0x03).releaseAt 0 .dv
    hasVal (r.homeStore r.agent 0x100018 0)]

theorem test_meets_ParkedContexts : allOf meetsParkedContexts = true := by decide +kernel

/-- Requests that are done and that wait, hand-over tokens, a cell to save with its markers in, the end of a wave, a restore that cannot read
its image and one that can, an overlay that can be fetched and one that cannot, and a moored entry. -/
def meetsPlacerEvents : List Bool :=
  let s := reserved (imaged true []) 3
  let rk : RKey := ⟨0, 3⟩
  let keys := (s.region rk).keys
  let wave (saved : List Nat) : State := s.modRegion rk fun r => { r with wave := some { saved := saved } }
  let corner := cellAt handle4 0 0
  let busy := (wave []).modCell corner fun c => { c with replies := [{ f := fired none none, node := .gLd memNode, val := some 3 }] }
  let hand := s.modRegion rk fun r => { r with hand := [cellKey 3 0] }
  let q : Quad := { reqs := [{ vmid := 0, desc := 0x61001, troot := 0x20000, queue := 0, cls := 0 }] }
  let asked := s.modQuad 0 fun _ => q
  let out (va : Word) : State := s.modRegion rk fun r => { r with st := 4, image := some {}, imgva := va }
  let missing (va : Word) : State := s.modCell corner fun c => { c with ow := [(0, va)] }
  let ws : List Word := [0x60000, 0x0901, 0, 0, 0x58000, handle4, 0, 0]
  let ring : List Word := [0, 1, 4, 0, 0, 0, 0, 0, 7, 8, 9]
  let moored := { s with mem := Bytes.wrN (Bytes.wrN s.mem 0x61000 (ws.flatMap fun (w : Word) => natBytes 8 w.toNat)) 0x58000 (ring.flatMap fun (w : Word) => natBytes 8 w.toNat) }
  let ag := s.devAgent 0 0
  [(s.quad 0).reqs.isEmpty, (match askOne asked 0 (q.reqs.headD default) with | .done _ => true | .wait _ => false), !(s.region rk).hand.contains (cellKey 3 0),
    (hand.region rk).hand == [cellKey 3 0], (s.region rk).wave.isNone, ((wave []).region rk).wave.any fun w => !w.saved.contains corner && markersIn (s.region rk) w 0 0,
    !repliesDue ((wave []).cell corner), repliesDue (busy.cell corner), (wave keys).duties.isEmpty && !urgentLeft (s.region rk), decide ((s.region rk).keys.length ≤ keys.length),
    (s.region rk).image.isNone, ((out 0x400000000000).region rk).image.isSome && ((out 0x400000000000).cell corner).owner == some rk,
    noVal (checkRecord (out 0x400000000000) ((out 0x400000000000).placerAgent rk) 0x400000000000 (some (4, 4))),
    okThat (checkRecord (out 0x60000) ((out 0x60000).placerAgent rk) 0x60000 (some (4, 4))) fun c => (match c with
      | .good m z => (match writeCells z handle4 (m.cells.filter fun q => !q.1.isUnused) with | .ok _ => true | .error _ => false) | .bad _ _ => false),
    (((missing 0x62000).cell corner).ow.find? fun q => owSlot q.1 == 0 && (owPlace q.1).blk == 0).isSome && (AMap.get? ((missing 0x62000).cell corner).sw 0).isNone,
    okThat (readBlock (takeOver (missing 0x62000) corner 0).2 (s.placerAgent rk) 0x62000) fun q => block57 q.1 q.2.1,
    noVal (readBlock (takeOver (missing 0) corner 0).2 (s.placerAgent rk) 0x400000000000), okThat (readDesc moored ag 0x61001) fun q => q.1.placed != 0 && q.1.moorq != 0
      && (q.2.region (rkeyOf 0 q.1.placed)).st == 3 && (ringPeek q.2 ag q.1.moorq 3).isSome, noVal (readDesc s ag 0x400000000001)]

theorem test_meets_PlacerEvents : allOf meetsPlacerEvents = true := by decide +kernel

/-- A copy command at cove 0: queued, queued past its deadline, running with an element to move and none left, ending, paused; in a fenced
cove; a replay and a record copy; a line and an object to mark. -/
def meetsCopyEvents : List Bool :=
  let pk (dead : Nat) : List Word := (wordsOf copyPacket).set 1 (w64 dead)
  let cmd (st : CopySt) (dead pos : Nat) : CopyCmd := { id := 1, pk := pk dead, vmid := 0, troot := 0x20000, gen := 5, trap := false, st := st, pos := pos }
  let at_ (c : CopyCmd) : State := (lab []).modCove 0 fun v => { v with cmds := [c], fenced := false }
  let late := (at_ (cmd .queued 5 0)).modMgmt fun m => { m with time := { m.time with ns := 6 } }
  let far := { (cmd .running 0 0) with pk := (pk 0).set 4 0x400000000000 }
  let run := cmd .running 0 3
  let wait := { (cmd .running 0 0) with rk := some ⟨0, 9⟩, pk := [packet0 0 4 0 3 0, 0, 0, 0, 0x50000, 3, 0, 0, 0, 0, 0, 0, 0, 0, 0, 0] }
  let kept (r : Bool) : State := (lab []).modQuad 0 fun q => { q with copies := [{ vmid := 0, key := 5, record := r, ova := 0x52000, troot := 0x20000, data := List.replicate 64 1 }] }
  [((at_ (cmd .queued 0 0)).cove 0).cmds == [cmd .queued 0 0] && !((at_ (cmd .queued 0 0)).cove 0).fenced, decide ((pkW (cmd .queued 5 0).pk 1).toNat < late.now),
    decide ((at_ (cmd .queued 0 0)).now ≤ (pkW (cmd .queued 5 0).pk 1).toNat), pkW (cmd .queued 0 0).pk 1 == 0,
    (((at_ (cmd .queued 0 0)).modCove 0 fun v => { v with fenced := true }).cove 0).fenced, ((lab []).cove 0).cmds.isEmpty,
    decide (run.pos < cpTotal run.pk) && (at_ run).poison.isEmpty && (match moveElem (at_ run) 0 run (run.elem run.pos) with | .done t => (t.cove 0).cmds.all fun c => decide (cpTotal c.pk ≤ c.pos) | _ => false),
    decide (far.pos < cpTotal far.pk) && (match moveElem (at_ far) 0 far (far.elem 0) with | .fault _ => true | _ => false),
    decide (wait.pos < cpTotal wait.pk) && (match moveElem (at_ wait) 0 wait (wait.elem 0) with | .wait => true | _ => false),
    ((lab []).cmd? 0 1).isNone, (at_ (cmd .ending 0 3)).cmd? 0 1 == some (cmd .ending 0 3), (at_ (cmd .paused 0 1)).cmd? 0 1 == some (cmd .paused 0 1),
    (((kept false).quad 0).copies.find? fun c => c.vmid == 0 && c.key == 5 && !c.record).isSome, (((kept true).quad 0).copies.find? fun c => c.vmid == 0 && c.key == 5 && c.record).isSome,
    (lab []).hasFe 0x50000, (debugObj 0).isSome]

theorem test_meets_CopyEvents : allOf meetsCopyEvents = true := by decide +kernel

/-- Queue 3 of tenant 0 of the kind given, with a launch packet in slot 0 of its window: a task at 0x40100 or the function of the
descriptor at 0x50000, a frame at 0x100000, a dependence. -/
def launching (kind : Nat) (fptr dep dead : Word) : State :=
  let s := framed [] 5 0
  let ws : List Word := [0x60000, 0x0901, 0, 0, 0x58000, handle0, 0, 0]
  let s := { s with mem := Bytes.wrN s.mem 0x50000 (ws.flatMap fun (w : Word) => natBytes 8 w.toNat) }
  let s := s.setRegion rk0 { handle := handle0, st := 3, buoys := [(1, { x := 3, y := 0, cur := { inward := true, bind := 1 } })] }
  let pk : List Word := [w64 kind, fptr, 0x100000, dep, 0, 0, 0, dead]
  s.setQueue 3 { bound := true, vmid := 0, kind := kind, weight := 1, dom := 3, mask := BitVec.allOnes 256, gen := 5, ingress := [0]
                 window := Bytes.wrN [] 0 (pk.flatMap fun (w : Word) => natBytes 8 w.toNat) }

/-- Slots 0 and 63 of a window, free and locked, of a queue bound and not; bytes up to the ingress word; a PA that is fitted and one that is
not; a vector pending; launches of a task and of a graph, whole, with a bad field, late, and held by a dependence. -/
def meetsHostEvents : List Bool :=
  let s := launching 1 0x40100 0 0
  let g := launching 2 0x50001 0 0
  let b := launching 1 0x40102 0 0
  let p (s : State) : LaunchPkt := launchPkt (packetBytes (s.queue 3) ((s.queue 3).cons.toNat % 64))
  let ag := s.devAgent 0 0
  let held := (launching 1 0x40100 0x50000 0).setEmpty 0x50000
  let late := (launching 1 0x40100 0 5).modMgmt fun m => { m with time := { m.time with ns := 6 } }
  let pend := s.modMgmt fun m => { m with masked := [{ fn := 0, vec := 1 }], pending := [{ fn := 0, vec := 1 }] }
  [decide (63 < 64), !(s.queue 4).bound && (s.queue 3).bound && (s.queue 3).ingress.contains 0 && !(s.queue 3).ingress.contains 63, decide (0 % 64 + 56 ≤ 56),
    decide (0x50000 < 2 ^ 52) && s.tier 0x50000 != .none, s.tier 0xFFF00000000 == .none, pend.mgmt.pending.contains { fn := 0, vec := 1 },
    (s.queue 3).bound && !(s.queue 3).stopped && (p s).kind == 1 && pktOk s ag (p s) && depsFull s ag (p s) && fld (p s).fptr 1 0 == 0 && !(maskCores (s.queue 3)).isEmpty,
    (match translate s ag (p s).fptr .r with | .ok (a, t) => t.tier a.pa != .cxl | .error _ => false), (p s).dead == 0,
    (match startTask 3 ag (p s) s with | .go _ => true | _ => false), (launchFrame s ag 3 (p s)).isSome, fld (p b).fptr 1 0 != 0, !depsFull held ag (p held) && pktOk held ag (p held),
    (p late).dead != 0 && decide ((p late).dead.toNat < late.now), (p g).kind == 2 && pktOk g ag (p g) && gLaunchOk g ag (p g),
    (match startGraph 3 ag (p g) g with | .go _ => true | _ => false)]

theorem test_meets_HostEvents : allOf meetsHostEvents = true := by decide +kernel

/-- A queue of the tenant and kind given with a management packet in its window, and a present tenant 0. -/
def commanded (vmid cmd : Nat) (a0 a1 a2 a3 resp : Word) : State :=
  let pk : List Word := [w64 (cmd * 256 + 3), a0, a1, a2, a3, 0, 0, resp]
  (lab []).setQueue 3 { bound := true, vmid := vmid, kind := 3, weight := 1, ingress := [0], window := Bytes.wrN [] 0 (pk.flatMap fun (w : Word) => natBytes 8 w.toNat) }
def mpkt (a0 a1 a2 a3 resp : Word) : MPkt := { a0 := a0, a1 := a1, a2 := a2, a3 := a3, a4 := 0, done := 0, resp := resp }

/-- The packet is the queue's next. -/
def isNext (s : State) (e : Ev) : Bool := nextPacket s 3 == some e

/-- Each command as the next packet of the host's queue (or its tenant's), with good and bad arguments at the ends of their ranges; a
packet that is not next. -/
def meetsCommands : List Bool :=
  let h (cmd : Nat) (a0 a1 a2 a3 resp : Word) : State := commanded 0xFF cmd a0 a1 a2 a3 resp
  let t (cmd : Nat) (a0 a1 a2 a3 resp : Word) : State := commanded 0 cmd a0 a1 a2 a3 resp
  let p := mpkt
  let args : List Word := [0x10000, 0x20000, 0, 0, 0, 0, 0, 0, 0, 4096]
  let created := { h 1 0x50000 5 0 0 0 with mem := Bytes.wrN (h 1 0x50000 5 0 0 0).mem 0x50000 (args.flatMap fun (w : Word) => natBytes 8 w.toNat) }
  let wrap := (h 8 0 0 0 0 0).modMgmt fun m => { m with wrapping := true }
  [isNext (h 1 0x50000 5 0 0 0) (.tenantCreate 3 (p 0x50000 5 0 0 0)), isHostQ (h 1 0 0 0 0 0) 3, !isHostQ (t 1 0 0 0 0 0) 3, nextPacket (lab []) 3 != some (.tenantCreate 3 (p 0 0 0 0 0)),
    (cmdRead created 3 0x50000 256).any fun q => argsOk (tenantArgs q.1) q.1 && (tenantAreas (tenantArgs q.1)).isEmpty && !(q.2.tenant 5).present && (q.2.newGen).1.isSome,
    (cmdRead (h 1 0x50000 0 0 0 0) 3 0x50000 256).any fun q => (q.2.tenant 0).present,
    isNext (h 2 0 0 0 0 0) (.tenantDestroy 3 (p 0 0 0 0 0)) && ((h 2 0 0 0 0 0).tenant 0).present, !((h 2 63 0 0 0 0).tenant 63).present,
    isNext (h 3 7 0x1100 0x50000 0 0) (.queueBind 3 (p 7 0x1100 0x50000 0 0)), bindOk (h 3 7 0x101100 0x50000 0 0) (p 7 0x101100 0x50000 0 0), !bindOk (h 3 0 0 0 0 0) (p 0 0 0 0 0),
    !queueBusy (h 3 7 0 0 0 0) 7 && (cmdRead (h 3 7 0 0 0 0) 3 0x50000 32).isSome && ((h 3 7 0 0 0 0).newGen).1.isSome, queueBusy ((h 3 7 0 0 0 0).setQueue 7 { live := [(0, 0)] }) 7,
    isNext (h 4 0 0 0 0 0) (.queueUnbind 3 (p 0 0 0 0 0)) && ((h 4 0 0 0 0 0).queue 0).bound, !((h 4 2047 0 0 0 0).queue 2047).bound,
    isNext (h 5 63 0 0x40000000 1 0) (.windowMap 3 (p 63 0 0x40000000 1 0)) && fld (0x40000000 : Word) 29 0 == 0 && fld (0x40000000 : Word) 63 52 == 0,
    isNext (t 6 0 4095 0 0x1000000000001 0) (.tideSet 3 (p 0 4095 0 0x1000000000001 0)) && !((t 6 0 4095 0 0x1000000000001 0).tenant 0).tides.any (fun o => o.1 != 4095),
    bitAt (1 : Word) 0 && (1 : Word).extractLsb' 48 16 == 0, isNext (t 7 0 0 0 0 0) (.tlbShoot 3 (p 0 0 0 0 0)) && ((t 7 0 0 0 0 0).tenant 0).present,
    isNext (h 8 0 0 0 0 0) (.genWrap 3 (p 0 0 0 0 0)), wrap.mgmt.wrapping && !(lab []).mgmt.wrapping, isNext (h 9 4 255 0 0 0) (.fenceUnit 3 (p 4 255 0 0 0)) && fenceOk 4 255 && !fenceOk 4 256,
    isNext (h 10 1023 350 0 0 0) (.islandSet 3 (p 1023 350 0 0 0)) && 1200 % 25 == 0, isNext (h 11 400 0 0 0 0) (.powerCap 3 (p 400 0 0 0 0)) && isNext (h 11 1601 0 0 0 0) (.powerCap 3 (p 1601 0 0 0 0)),
    isNext (h 12 0 0 0 0 0) (.timeSet 3 (p 0 0 0 0 0)) && decide ((h 12 0 0 0 0 0).now ≤ 0), isNext (h 13 2 0 0 0 0) (.timeCfg 3 (p 2 0 0 0 0)) && isNext (h 13 3 0 0 0 0) (.timeCfg 3 (p 3 0 0 0 0)),
    isNext (t 14 0x50000 64 0 0 0) (.imageVerify 3 (p 0x50000 64 0 0 0)) && (cmdRead (t 14 0x50000 64 0 0 0) 3 0x50000 64).isSome && (cmdRead (h 14 0x50000 64 0 0 0) 3 0x50000 64).isSome,
    isNext (t 15 0x50000 0 0 0 0x51000) (.attestQuote 3 (p 0x50000 0 0 0 0x51000)) && (cmdRead (t 15 0x50000 0 0 0 0x51000) 3 0x50000 64).isSome,
    isNext (h 16 0x50000 64 0 0 0) (.fwUpdate 3 (p 0x50000 64 0 0 0)) && (cmdRead (h 16 0x50000 64 0 0 0) 3 0x50000 64).isSome,
    isNext (h 17 0 0 0 0 0x51000) (.debugRead 3 (p 0 0 0 0 0x51000)) && (debugObj 0).isSome && (cmdWrite (h 17 0 0 0 0 0x51000) 3 0x51000 (List.replicate 72 0)).isSome,
    (cmdWrite (h 17 0 0 0 0 0xFFF00000000) 3 0xFFF00000000 [0]).isNone, isNext (h 18 0 0x50000 0xFFFE 0 0) (.debugWrite 3 (p 0 0x50000 0xFFFE 0 0)),
    (cmdRead (h 18 0 0x50000 0xFFFE 0 0) 3 0x50000 64).isSome, isNext (t 19 0 0 0 0 0x51000) (.infoRead 3 (p 0 0 0 0 0x51000)), isNext (t 20 0 0 0 0 0x51000) (.countRead 3 (p 0 0 0 0 0x51000)),
    (counter (t 20 0 0 0 0 0x51000) 0 0).isSome, isNext (t 21 0 3 0 0 0) (.traceCfg 3 (p 0 3 0 0 0)), isNext (h 22 0 3 1 0 0) (.regionSwap 3 (p 0 3 1 0 0)),
    ((h 22 0 3 0 0 0).setRegion rk0 { handle := handle0, st := 3 }).region rk0 |>.wave.isNone, isNext (h 0x30 0 0 0 0 0) (.badcmd 3 0x30 (p 0 0 0 0 0))]

theorem test_meets_Commands : allOf meetsCommands = true := by decide +kernel

/-- A source of time with a pair written, a message named, a reference 3 s back and less, temperatures at the limit. -/
def meetsPowerTimeReset : List Bool :=
  let s := lab []
  let ptm := s.modMgmt fun m => { m with time := { m.time with src := 1, tsync := some (5, 6), tod := some 9 } }
  let old := s.modMgmt fun m => { m with time := { m.time with ns := 3000000000 } }
  [decide (105000 ≤ 105000) && decide (104999 < 105000), ptm.mgmt.time.src == 1 && ptm.mgmt.time.tsync == some (5, 6) && ptm.mgmt.time.tod == some 9, s.mgmt.time.tsync.isNone && s.mgmt.time.tod.isNone,
    decide (old.mgmt.time.lastRef + 3000000000 ≤ old.now), decide (s.now < s.mgmt.time.lastRef + 2999000000), (1 : Byte).getLsbD 0 && !(0 : Byte).getLsbD 0]

theorem test_meets_PowerTimeReset : allOf meetsPowerTimeReset = true := by decide +kernel

/-- A slot at its turn with an instruction that is fetched and decodes, one that does not, a page that cannot be executed, a message to deliver
and a wait that has ended; an event and duties at their turn, a turn that lets time pass; the module without power. -/
def meetsStepRunsInstructions : List Bool :=
  let at_ (w : Nat) : State := markIssue { withSlotWord State.reset w with turns := [] } 0
  let fetched (w : Nat) (f : BitVec 32 → Slot → Bool) : Bool := okThat (fetchBytes (at_ w)) fun q =>
    (match q.1 with | [b0, b1, b2, b3] => f (b3 ++ b2 ++ b1 ++ b0) q.2.me && !windowFull q.2.me q.1 | _ => false)
  let s := lab []
  let far := s.modMe fun v => { v with pc := 0x400000000000 }
  let msg := s.modMe fun v => { v with inbox := [{ payload := 3, sender := 9, ovf := false }], user := { v.user with msgvec := 0x60000 } }
  let back := s.modMe fun v => { v with wait := .resume .sleep (.sleepT 5) 0 0 }
  let node_ := State.reset.withFetchWord 64 0x0000804000000000
  [!s.mgmt.off, (withSlotWord State.reset 0x00000073).turns == [.issue 0], !canDeliver (at_ 0x73) 0 && ((at_ 0x73).slot 0).wait == .run,
    fetched 0x73 fun w _ => (match decodeL w with | .ok .ecall => true | _ => false), fetched 0 fun w _ => (match decodeL w with | .error _ => true | _ => false),
    (match fetchBytes far with | .error t => t.cause == 0x06 | .ok _ => false), canDeliver msg 0, (back.slot 0).wait == .resume .sleep (.sleepT 5) 0 0 && !canDeliver back 0,
    eventOf (.divComplete 0) == some (.divComplete 0), node_.turns == [.duty 0] && (match node_.duties with | [d] => (match d.work with | .node (.gAdd ..) _ => true | _ => false) | _ => false),
    !({ s with mgmt := { s.mgmt with off := true } } : State).resets]

theorem test_meets_StepRunsInstructions : allOf meetsStepRunsInstructions = true := by decide +kernel

/-! ## The further clauses -/

/-- Slot 0's turn in the engine, and not; a tile past its last row; an operand that cannot be read; a drain to the port at its
turn, with room, with less than it needs, and one whose last tokens have been accepted; a wave under way. -/
def meetsEngineTurns : List Bool :=
  let s := tiled [(5, 0x80_0000_00C3)]
  let busy := s.modMyCore fun c => { c with mxq := [{ slot := 1, td := some 2, flags := 0, accum := false }] }
  let a16 := mdw 0 2 .bf16 2 8 8 1
  let b16 := mdw 0 1 .bf16 8 2 2 1
  let m := multiplied false a16 b16 0
  let over_ := m.modMyCore fun c => { c with td := c.td.map fun p => (p.1, { p.2 with restart := 2 }) }
  let far := mdw 0x400000000000 0 .bf16 2 8 16 2
  let d := drained true 2 .int 0
  let queue (n : Nat) : State := d.modCell (portKey d.cur) fun c => { c with mxpq := List.replicate n (drainTok .int 3) }
  let rows (s : State) : Nat := match s.tdr 2 with
    | .ok t => (match tileElems s t with | .ok r => (r.flatMap (rowPays .int)).length | .error _ => 0)
    | .error _ => 0
  let waved := d.modRegion ⟨0, 3⟩ fun r => { r with wave := some { saved := [] } }
  [mxTurn s, s.mxMine.isNone, !mxTurn busy, mxBusy busy.myCore 2 && okThat (busy.tdr 2) (·.v), mxTurn d && mxTurn m,
    okThat (over_.tdr 2) fun t => decide (mdRows a16 ≤ t.restart.toNat), noVal (mdBlock (.mxMma 2 0 1) far (List.range 8) (multiplied false far b16 0) [0, 1]),
    rows d == 8 && decide (rows d ≤ 16), decide (0 < 16 - (portQueue (queue 12) 0).length) && decide (16 - (portQueue (queue 12) 0).length < rows (queue 12)),
    (portQueue (queue 16) 0).length == 16, (resultRegion (queue 12)).isSome, (resultRegion waved).any fun q => q.2.wave.isSome,
    (d.modMe fun v => { v with wait := .resume .port (.mxDrn 2 5) 0 1 }).me.wait == .resume .port (.mxDrn 2 5) 0 1]

theorem test_meets_MatrixTiles_turns : allOf meetsEngineTurns = true := by decide +kernel

/-- A buoy a packet is posted through; an entry of the overflow ring that can be written and one that cannot; a poisoned shadow
register; generations held; a join whose wait is over; results written by `xret`. -/
def meetsScalarMore : List Bool :=
  let y := buoyed { inward := true }
  let s := lab [(5, 8191), (6, 3)]
  let ring (va : Word) : State := s.modTenant 0 fun t => { t with args := { t.args with movr := va, movrn := 8 } }
  let bad := s.modMe fun v => { v with sx := [(10, { val := 0, gen := 0xFFFF })], inbox := [{ payload := 3, sender := 9, ovf := false }], user := { v.user with msgvec := 0x60000 } }
  let f := framed [(5, 0x100000)] 5 0
  [(buoyOf y 0 false).isSome && (9 : Word).getLsbD 3 && fld (9 : Word) 7 4 == 0 && fld (9 : Word) 63 8 == 0, hasVal (xlat (ring 0x50000) ((ring 0x50000).devAgent 0 0) (ringEntryVa (ring 0x50000) 0) .w),
    noVal (xlat (ring 0x400000000000) (s.devAgent 0 0) (ringEntryVa (ring 0x400000000000) 0) .w), (bad.slot 0).poisonedShadow == some 10 && canDeliver bad 0,
    (s.slot 0).poisonedShadow.isNone, !(sup s).heldGens.contains (BitVec.ofNat 16 (sup s).mgmt.genNext),
    (f.modMe fun v => { v with wait := .resume .join (.join 5) 0 0x100000 }).me.wait == .resume .join (.join 5) 0 0x100000,
    okThat (argRegs f) fun _ => okThat (frameWrite f 0x100000 128) fun _ => (sup f).me.sup && okThat (frameWrite (sup f) 0x100000 128) fun _ => true]

theorem test_meets_CopyCommandsAndBuoys_more : allOf meetsScalarMore = true := by decide +kernel

/-- A band at its end, with the next to come, and with an eviction that waits for it. -/
def meetsBands : List Bool :=
  let o : MxOp := { slot := 0, td := some 2, flags := 0, accum := true, instr := some (.mxMma 2 0 1)
                    band := some { row := 0, col := 0, stop := 2, last := false, ints := false, accs := [[0, 0], [0, 0]], adds := [[[0x3F800000], []], [[], []]], flags := 0 } }
  let s := (lab []).modCore 0 fun c => { c with mxq := [o] }
  let w := s.modCore 0 fun c => { c with spill := some { slot := 0, index := 0, push := false, begun := false } }
  [(s.core 0).mxq == [o] && (o.band.any fun b => b.put.isEmpty && b.accs.all fun l => decide (b.col + l.length ≤ 64)), coreOf o.slot == 0 && o.instr.isSome,
    !spillWaits s 0, spillWaits w 0 && o.band.any fun b => !b.last]

theorem test_meets_CompletionsInTime_bands : allOf meetsBands = true := by decide +kernel

/-- A node that its cell begins now: an access to a VA, and one with the divide unit; a full channel; a parked context; a frame
read behind a frame write that has not fired; descriptors and callbacks of calls; frames too small for a record. -/
def meetsFirings : List Bool :=
  let f := { fired (tokOf 5) (tokOf 9) with began := false }
  let ld := { fired (tokOf 0x50000) (tokOf 5) with began := false }
  let ordered_ := firing ld [0, 0] [0, 0] 0 [] fun r => { r with buoys := [(7, { x := 0, y := 0 })] }
  let full := ordered_.modCell (ordered_.cellOf rk0 0 0) fun c => { c with replies := List.replicate 64 { f := ld, node := .gLd memNode } }
  let parked := firing f [0, 0] [0, 0] 0 [] fun r => { r with parked := [{ ctx := ctx0, ik := ik0, cause := 3 }] }
  let b := frames2.2.2
  let fr := inFrame 0x50001 b
  let older : Inst := { ik := { fr.ik with iter := 6, ser := 1 }, admitted := true, adm := 1 }
  let blk : Block := { hdr := 0x7C, words := [0, (encodeG (.gFwr (node 8 .int 0))).getD 0], place := [0, 0], held := true, resident := true }
  let w := framing fr fun r => { r with insts := older :: r.insts, blocks := [(0, blk)] }
  let ready (s : State) (me : Inst) : Bool := ((s.region rk0).earlier me).all (fun j => nodesDone s rk0 j isFwr) && !leftBefore s rk0 me isAcquire
  let me (s : State) (p : Inst → Bool) : Bool := ((s.region rk0).inst? fr.ik).any p
  let gone := inFrame 0x50001 (b + 256)
  let q := (framing fr).setQueue 7 { bound := true, vmid := 0, kind := 0 }
  let cb : Word := 7 * 4 + 2
  let c := inFrame cb 0x50000
  [firesB (firing f) (.gDiv (node)) f, firesB (firing ld) (.gLd memNode) ld && loads (.gLd memNode) ld, loads (.gLd memNode) ld && !ld.began && channelFull full ld,
    (parked.region rk0).isParked ctx0 && (parked.region rk0).st == 3 && ((parked.region rk0).inst? ik0).isSome && f.body.isNone && !(full.region rk0).isParked ctx0,
    me (goes (framing fr)) (ready (goes (framing fr))), me (goes w) fun i => !ready (goes w) i && firesB w (.gFrd (node 8)) fr,
    firesB (framing gone) (.gCall (node 8)) gone && okThat (homeWords (goes (framing gone)) ((goes (framing gone)).fireAgent gone) gone.rpay 5) fun x => fld (x.1.getD 4 0) 15 0 == 0,
    okThat (homeWords (goes (framing fr)) ((goes (framing fr)).fireAgent fr) fr.rpay 5) fun x => fld (x.1.getD 4 0) 15 0 != 0,
    decide (((framing fr).tenant 0).frameBytes (((framing fr).tenant 0).frameVa fr.ik.ctx) < 8 * (node 40).immField 8 0 + 24),
    fld cb 1 0 == 2 && (callbackQ (framing fr) 0 cb).isNone && (callbackQ q 0 cb) == some 7, fld (0x50004 : Word) 2 0 != 0 && (node 5).immField 5 0 != 0,
    okThat (allocFrame (goes (framing c)) ((goes (framing c)).fireAgent c) (64 + 8 * 8)) fun x => okThat (xlat x.2 (x.2.fireAgent c) (x.1 + 40) .w) fun y =>
      y.2.hasFe y.1.pa && hasVal (argWords y.2 c c.rpay 2),
    callbackAppend q (fld cb 12 2) b != q]

theorem test_meets_FrameNodes_more : allOf meetsFirings = true := by decide +kernel

/-- A bounded load of a line that its cove holds with a stamp that will do; a fence whose turn has come, and one before whose turn
other nodes have to fire; a window that a generator reads ahead; the steps of delay lines; a chain under way. -/
def meetsStreamsMore : List Bool :=
  let f := { fired (tokOf 0x50000) (tokOf 5) with x := 1, y := 3, idx := 1 }
  let s := memFiring f [1, 2, 3]
  let t := (goes s).modTenant 0 fun n => { n with tides := [(2, { base := 0, size := 1, p := 4, t := 20 })] }
  let o := (t.region rk0).ownerOf f.lpay
  let cove := coveOfXY (handleX handle0 + o.1) (handleY handle0 + o.2)
  let warm := match ownerRead t rk0 f.lpay 8 with | .ok (_, _, u) => goes u | .error _ => t
  let c := { fired (tokOf 0x50000) (tokOf 4) (some 3) with x := 3, y := 0 }
  let g : GenDesc := { base := 0x50000, ext := 0xFFFF, str0 := 8, str2 := 0 }
  let win := firing c [0, 0] [3, 3] 1 [{ loopOf0 false with gens := [(0, g)] }]
  let head := { c with body := none }
  let b := fired (tokOf 3) (tokOf 4) (some 3)
  let dly (imm : Nat) : State := firing b [0, (encodeG (.gDly (node imm .fp32))).getD 0] [0, 0] 1 [loopOf0 false]
  let chained := firing b [0, 0] [0, 0] 1 [{ loopOf0 false with chain := [(0, 100)] }]
  [okThat (xlat warm (warm.cellAgent rk0 (cellAt handle0 o.1 o.2)) f.lpay .r) fun q => q.1.tide.isSome
      && (AMap.get? (q.2.cove cove).l2 (q.1.pa / 64)).any (fun l => decide (5 ≤ l.stamp)) && (q.2.cell (cellAt handle0 o.1 o.2)).acb.isEmpty
      && hasVal (amoClash q.2 f (.gLdb memNode) f.lpay 8),
    fenceMay (goes s) f (.gFence memNode), !fenceMay (goes (memFiring f [])) f (.gFence { memNode with imm := 7 * 2^10 + 3 * 2^13 }),
    firesB win (.gSgen (node)) c && kindOf (goes win) c == 2 && hasVal (genWindow (goes win) c .int g 0 3 1),
    kindOf (goes win) head == 2 && head.lpay.toNat % 8 == 0 && hasVal (genWords (goes win) head head.lpay 4),
    firesB (dly 1) (.gDly (node 1)) b && hasVal (setLineWords (goes (dly 1)) rk0 0 0 (dlyPlace (goes (dly 1)) b) ((loopOf0 false).delayAt 0 (node 1) 3) [3]),
    (let n := node 0x1000F .fp32
     firesB (dly 0x1000F) (.gDly n) b && hasVal (chunkStep n b (loopOf0 false) 3 (goes (dly 0x1000F)))),
    decide ((goes chained).clk < AMap.getD (loopOf (goes chained) b).chain b.idx 0), decide (AMap.getD (loopOf0 false).chain 0 0 ≤ 0)]

theorem test_meets_StreamNodes_more : allOf meetsStreamsMore = true := by decide +kernel

/-- An effect whose line is poisoned meanwhile; a post before its mesh time is over and after it; a call of a task of the host; an
entry that comes back from its records; a chunk that does not divide its rounds, a loop with a delay line; a granule
poisoned under an overlay. -/
def meetsEffectsMore : List Bool :=
  let f : Firing := { fired (tokOf 0x50000) (tokOf 5) with x := 1, y := 3, idx := 1 }
  let s := memFiring f [1, 2, 3]
  let p := { s with poison := [(0x50000 / 64, ())] }
  let o := (s.region rk0).ownerOf 0x50000
  let ag (s : State) : Agent := s.cellAgent rk0 (cellAt handle0 o.1 o.2)
  let at3 := { fired (tokOf 0x1000) (tokOf 5) with x := 3, since := some 0 }
  let posted := firing at3 [0] [3] 0 [] fun r => { r with buoys := [(7, { x := 3, y := 0, cur := { sva := 0x58000 } })] }
  let key := s.cellOf rk0 0 0
  let e : MEntry := { slot := 0, idx := 0, ctx := ctx0, iter := some 8, l := some { tok := { (default : Token) with payload := 5, ctx := ctx0, iter := 8 } } }
  let ws := e.tokens.flatMap fun t => Token.words t.tok
  let back := ((firing f).modCell key fun c => { c with lookup := [{ tok := { (default : Token) with payload := 6, ctx := ctx0, iter := 8, dop := 1 } }] }).modRegion rk0
    fun r => { r with ovf := [{ cell := key, ent := e, frames := [0x100000] }] }
  let back := { back with mem := Bytes.wrN back.mem 0x100000 (ws.flatMap fun (w : Word) => natBytes 8 w.toNat) }
  let rg := back.region rk0
  let dl (imm : Nat) : State := firing f [0, (encodeG (.gDly (node imm .fp32))).getD 0] [0, 0] 1 [{ ik := ik0, slot := 0, n := some 4 }]
  let l : Loop := { ik := ik0, slot := 0, n := some 4 }
  [okThat (translate p (ag p) 0x50000 .w) fun q => q.2.isPoison q.1.pa, okThat (translate s (ag s) 0x50000 .w) fun q => !q.2.isPoison q.1.pa,
    (AMap.get? (posted.region rk0).buoys 7).any fun y => okThat (translate posted (posted.fireAgent at3) (y.cur.sva + w64 (8 * y.pos)) .w) fun q => !q.2.isPoison q.1.pa,
    decide (Config.meshCove ≤ ({ posted with clk := 100 } : State).clk), decide (posted.clk < 0 + Config.meshCove),
    e.tokens.length == 1 && blocksIn back (back.devAgent 0 (coveOfXY (key % 128) (key / 128))) [0x100000] 1 == e.tokens.map fun t => some t.tok,
    (back.cell key).lookup.length == 1 && ((back.cell key).lookup.all fun m => !heldForMerge rg (back.cell key) m && rg.ovf.all fun o => o.holds key m.tok),
    (rg.byKey ((rg.blockAt 0 0 0).getD 0) ctx0 8).isNone && decide (back.msCount rk0 0 0 false < msCap 0 0 false),
    (badChunk (((dl 0x1000F).region rk0).block 0) 0 0 l).isSome && mayStart (dl 0x1000F) rk0 0 0 l,
    (badChunk (((dl 1).region rk0).block 0) 0 0 l).isNone && hasVal (dlyInits (dropKeeps (dl 1) rk0 0 0 0) rk0 l 0 0 (((dl 1).region rk0).block 0) [(1, node 1)]),
    mayStart (dl 1) rk0 0 0 l,
    (AMap.getD ((s.modCell key fun c => { c with store := [(0, { gen := 0xFFFF })] }).cell key).store 0 {}).gen == 0xFFFF]

theorem test_meets_CommitEffects_more : allOf meetsEffectsMore = true := by decide +kernel

/-- Lines, an entry and an object for the scrubber; a task held for a place; the allocator stopped; a wait that is over at its clk. -/
def meetsHostMore : List Bool :=
  let s := launching 1 0x40100 0 0
  let crowd := { s with cores := (List.range 1024).map fun k => (k, { deque := List.replicate 64 { ptr := 0, frame := 0, slot := 0, dom := 0, queue := 3 } }) }
  let one := (crowd.setQueue 3 { s.queue 3 with mask := 1, met := 3 })
  let p := launchPkt (packetBytes (s.queue 3) 0)
  let entry := (firing (fired none none)).modCell 5 fun c => { c with ms := [{ slot := 0, idx := 1, ctx := ctx0, iter := some 7 }] }
  let stop := (commanded 0xFF 1 0x50000 5 0 0 0).modMgmt fun m => { m with wrapping := true }
  let waits := (lab [(5, 0)] [(3, copyPacket)]).modMe fun v => { v with wait := .hold .cpFull (.cpPost 3 5) 0 0 }
  [poisonable s 0x50000, (entry.cell 5).ms.any fun e => e.key 0 1 ctx0 (some 7), decide (3 ≤ (one.queue 3).met),
    (match startTask 3 (one.devAgent 0 0) p one with | .held _ => true | _ => false), stop.newGen.1.isNone, (deadGen waits).isNone && (nextDue waits).isNone && waits.turns.isEmpty,
    nextReady waits == some 0, (waits.slot 0).wait == .hold .cpFull (.cpPost 3 5) 0 0, queueBusy ((commanded 0xFF 3 7 0 0 0 0).setQueue 7 { live := [(0, 0)] }) 7]

theorem test_meets_HostEvents_more : allOf meetsHostMore = true := by decide +kernel

/-- A canonical state whose next step is a next state: the first instruction after reset. -/
theorem test_meets_CanonicalMemory : (withSlotWord State.reset 0x13).canonical ∧ nextThat (step (withSlotWord State.reset 0x13)) (fun _ => true) = true :=
  ⟨⟨by decide +kernel, by decide +kernel, by decide +kernel, by decide +kernel⟩, by decide +kernel⟩

end Sys2Proof.Tests
end

section
/-! Host accesses to the queue windows (R467, R470): what a write to a window does to its slot, and the refutation of O51,
whose clause about QUEUE_WINDOW_WRITE puts no bound on the offset. -/

namespace Sys2Proof.Machine

/-! ## One slot of a window -/

/-- A write to a window whose queue is not bound is ignored (R2, R470). -/
theorem slotWrite_unbound {s : State} {q : Nat} (hq : (s.queue q).bound = false) (off : Nat) (bs : List Byte) :
    slotWrite s q off bs = s := by
  simp [slotWrite, hq]

/-- Bytes that stay within one slot make one slot write, at the window that holds their offset: windows are 4 KiB
apart (R467), so an offset of 0x1000 or more names a later queue's window. -/
theorem exec_queueWindowWrite_oneSlot (s : State) (q off : Nat) {data : List Byte} (hd : data ≠ [])
    (hs : off % 64 + data.length ≤ 64) :
    exec (.queueWindowWrite q off data) s = .next (slotWrite s (q + off / 0x1000) (off % 0x1000) data) := by
  have htake : data.take (64 - off % 64) = data := List.take_of_length_le (by omega)
  have hdrop : data.drop (64 - off % 64) = [] := List.drop_of_length_le (by omega)
  obtain ⟨b, r, rfl⟩ := List.exists_cons_of_ne_nil hd
  have hexec : exec (.queueWindowWrite q off (b :: r)) s = execQueueWindowWrite q off (b :: r) s := rfl
  simp only [hexec, execQueueWindowWrite, windowWrite, htake, hdrop, List.length_cons]

/-- The write is ignored where the queue whose window holds the offset is not bound, whatever queue `q` itself holds. -/
theorem exec_queueWindowWrite_unbound {s : State} {q off : Nat} {data : List Byte} (hd : data ≠ [])
    (hs : off % 64 + data.length ≤ 64) (hq : (s.queue (q + off / 0x1000)).bound = false) :
    exec (.queueWindowWrite q off data) s = .next s := by
  rw [exec_queueWindowWrite_oneSlot s q off hd hs, slotWrite_unbound hq]

end Sys2Proof.Machine

open Sys2Proof Sys2Proof.Machine

/-- Refutes O51: its clause about QUEUE_WINDOW_WRITE bounds the bytes within a slot but not the offset within the 4 KiB
window (R467, R470). After reset queue 0 is bound and queue 1 is not, so one byte written at offset 0x1000 from queue 0's
window falls in queue 1's and is ignored, where the clause says that queue 0's window takes it. The missing premise is
`off < 0x1000`. -/
theorem not_hostEvents : ¬ Obligations.HostEvents := by
  intro h
  obtain ⟨-, hwindow, -⟩ := h State.reset 0
  have hclaimed := (hwindow 0x1000 [1#8] (by decide) (by decide)).1 rfl rfl
  rw [exec_queueWindowWrite_unbound (by decide) (by decide) rfl] at hclaimed
  injection hclaimed with hstate
  have hbyte := congrArg (fun s => Bytes.rd (s.queue 0).window 0x1000) hstate
  simp only [queue_setQueue] at hbyte
  exact absurd hbyte (by decide)
end

section
/-! What a step runs (R19, R30, R60, R108, R111, R122; log 1): the equations of the next move, of the issue of a slot, of
the fetch and of what is in flight, and O57, which they settle. -/

namespace Sys2Proof.Machine

/-! ## The next move -/

variable {s t : State}

/-- Neither the lack of power nor a held reset keeps the module from moving (R513, R515). -/
theorem step_of_power (h : s.mgmt.off = false ∨ s.resets = true) : step s = moveNext s := by
  rcases h with h | h <;> simp [step, h]

theorem moveNext_cons {x : Turn} {r : List Turn} (h : s.turns = x :: r) :
    moveNext s = runTurn x { s with turns := r } := by
  simp [moveNext, h]

theorem moveNext_nil (h : s.turns = []) : moveNext s = natural s := by
  simp [moveNext, h]

theorem turns_nil_eta (h : s.turns = []) : { s with turns := [] } = s := by
  rw [← h]

theorem natural_due {k : Nat} (hg : deadGen s = none) (hd : nextDue s = some k) : natural s = runDuty k s := by
  simp [natural, hg, hd]

theorem natural_ready {n : Nat} (hg : deadGen s = none) (hd : nextDue s = none) (hr : nextReady s = some n) :
    natural s = readySlot n s := by
  simp [natural, hg, hd, hr]

theorem natural_issue {n : Nat} (hg : deadGen s = none) (hd : nextDue s = none) (hr : nextReady s = none)
    (hi : nextIssue s = some n) : natural s = issueSlot n s := by
  simp [natural, hg, hd, hr, hi]

/-- A slot issues where its turn is given, and where no turn is and nothing goes before it (log 1). -/
theorem moveNext_issue {n : Nat} {r : List Turn}
    (h : s.turns = .issue n :: r ∨
      (s.turns = [] ∧ r = [] ∧ deadGen s = none ∧ nextDue s = none ∧ nextReady s = none ∧ nextIssue s = some n)) :
    moveNext s = issueSlot n { s with turns := r } := by
  rcases h with h | ⟨h, rfl, hg, hd, hr, hi⟩
  · exact moveNext_cons h
  · rw [moveNext_nil h, natural_issue hg hd hr hi, turns_nil_eta h]

/-- What is in flight takes effect where its turn is given, and where no turn is and it is due. -/
theorem moveNext_duty {k : Nat} {r : List Turn}
    (h : s.turns = .duty k :: r ∨ (s.turns = [] ∧ r = [] ∧ deadGen s = none ∧ nextDue s = some k)) :
    moveNext s = runDuty k { s with turns := r } := by
  rcases h with h | ⟨h, rfl, hg, hd⟩
  · exact moveNext_cons h
  · rw [moveNext_nil h, natural_due hg hd, turns_nil_eta h]

/-! ## The issue of a slot (R108, R122) -/

/-- The state in which slot `n` issues: it is the one under way, and its issue is noted. -/
def issuing (n : Nat) (s : State) : State := markIssue { s with cur := n, stall := 0, walked := false } n

theorem issueSlot_message {n : Nat} (h : canDeliver (issuing n s) n = true) :
    issueSlot n s = exec (.messageDelivery n) (issuing n s) :=
  if_pos h

theorem issueSlot_run {n : Nat} (h : canDeliver (issuing n s) n = false) (hw : ((issuing n s).slot n).wait = .run) :
    issueSlot n s = afterIssue n (fetchExec (issuing n s)) := by
  unfold issuing at *
  simp [issueSlot, h, hw]

theorem issueSlot_resume {n : Nat} {k : WaitKind} {i : Instr} {since : Nat} {a : Word}
    (h : canDeliver (issuing n s) n = false) (hw : ((issuing n s).slot n).wait = .resume k i since a) :
    issueSlot n s = afterIssue n (exec i (issuing n s)) := by
  unfold issuing at *
  simp [issueSlot, h, hw]

/-! ## The instruction at the program counter (R19, R30, R60, R124) -/

/-- A byte appended below a number's bytes is the next of them in order of address (R1). -/
theorem toNat_append_eq_bytesNat {w : Nat} {x : BitVec w} {l : List Byte} (h : x.toNat = bytesNat l) (b : Byte) :
    (x ++ b).toNat = bytesNat (b :: l) := by
  rw [BitVec.toNat_append, ← Nat.shiftLeft_add_eq_or_of_lt b.isLt, Nat.shiftLeft_eq, h, bytesNat]
  omega

/-- The word that an illegal fetch reports is the one that its bytes were decoded as. -/
theorem ofNat_bytesNat_four (b0 b1 b2 b3 : Byte) :
    BitVec.ofNat 32 (bytesNat [b0, b1, b2, b3]) = b3 ++ b2 ++ b1 ++ b0 := by
  have htop : b3.toNat = bytesNat [b3] := by simp [bytesNat]
  have hword : (b3 ++ b2 ++ b1 ++ b0).toNat = bytesNat [b0, b1, b2, b3] :=
    toNat_append_eq_bytesNat (toNat_append_eq_bytesNat (toNat_append_eq_bytesNat htop b2) b1) b0
  rw [← hword, BitVec.ofNat_toNat, BitVec.setWidth_eq]

section Fetched
variable {b0 b1 b2 b3 : Byte} (hf : fetchBytes s = .ok ([b0, b1, b2, b3], t))
  (hw : windowFull t.me [b0, b1, b2, b3] = false)
include hf hw

theorem fetchExec_decodes {i : Instr} (hi : decodeL (b3 ++ b2 ++ b1 ++ b0) = .ok i) : fetchExec s = exec i t := by
  simp [fetchExec, hf, hw, decodeLBytes, hi]

theorem fetchExec_illegal {e : DecodeError} (he : decodeL (b3 ++ b2 ++ b1 ++ b0) = .error e) :
    fetchExec s = exec (.illegalInstruction (b3 ++ b2 ++ b1 ++ b0)) t := by
  change fetchExec s = execIllegalInstruction (b3 ++ b2 ++ b1 ++ b0) t
  simp only [fetchExec, hf, hw, decodeLBytes, he, ofNat_bytesNat_four, Bool.false_eq_true, if_false]

end Fetched

theorem fetchExec_pageX {x : Trap} (hf : fetchBytes s = .error x) (hx : x.cause = 0x06) :
    fetchExec s = exec (.fetchPageX s.me.pc) s := by
  have hcause : x.cause = cPAGE_X := hx
  change fetchExec s = execFetchPageX s.me.pc s
  simp only [fetchExec, hf, if_pos hcause]

/-! ## Waits that end (R111) -/

/-- The instruction of a slot whose wait is over goes on as itself, unless its wait is one of those that an event of their
own completes: a synchronising or bounded load, `sleep` and `wait`. -/
theorem readySlot_goesOn {n : Nat} {k : WaitKind} {i : Instr} {since : Nat} {a : Word}
    (h : (s.slot n).wait = .resume k i since a ∨
      ((s.slot n).wait = .hold k i since a ∧ k ∉ [WaitKind.sync, .tide, .sleep, .msg])) :
    readySlot n s = afterIssue n (exec i { resumeSlot s n with cur := n, stall := 0, walked := false }) := by
  rcases h with h | ⟨h, hk⟩
  · simp only [readySlot, h]
  · cases k <;> simp_all [readySlot]

/-! ## Events and firings -/

/-- At each row of the table of events the schedule runs the function that `exec` does; the other rows have no event. -/
theorem runEv_of_eventOf {i : Instr} {e : Ev} (h : eventOf i = some e) (s : State) : runEv e s = exec i s := by
  cases i <;> cases h <;> rfl

theorem runDuty_event {k : Nat} {d : Duty} {i : Instr} {e : Ev} (hd : s.duties[k]? = some d) (he : eventOf i = some e)
    (hw : d.work = .ev e) : runDuty k s = exec i { s with duties := s.duties.eraseIdx k } := by
  simp only [runDuty, hd, hw, runWork, runEv_of_eventOf he]

theorem runDuty_node {k : Nat} {d : Duty} {i : Instr} {f : Firing} (hd : s.duties[k]? = some d)
    (hw : d.work = .node i f) : runDuty k s = exec i { s with duties := s.duties.eraseIdx k, fire := some f } := by
  simp only [runDuty, hd, hw, runWork]

end Sys2Proof.Machine

open Sys2Proof Sys2Proof.Machine

/-- Settles O57: a step of a module with power is its next move, and each clause is the equation of that move: the issue of
a slot, a wait that ends, an event, what is in flight, the passing of time. -/
theorem stepRunsInstructions : Obligations.StepRunsInstructions := by
  intro s r hpower
  have hstep := step_of_power hpower
  refine ⟨fun n hturn => ?issue, fun n k i since a hturns hg hd hr hwait => ?wait, fun i e he hturn => ?event,
    fun k d hturn hduty => ?duty, fun n hturn => hstep.trans (moveNext_cons hturn)⟩
  case issue =>
    have hissue := hstep.trans (moveNext_issue hturn)
    refine ⟨fun hmsg => hissue.trans (issueSlot_message hmsg), fun hmsg hrun => ?_, fun k i since a hmsg hwait =>
      hissue.trans (issueSlot_resume hmsg hwait)⟩
    have hfetch := hissue.trans (issueSlot_run hmsg hrun)
    refine ⟨fun b0 b1 b2 b3 t hbytes hwindow => ⟨fun i hi => ?_, fun e he => ?_⟩, fun x hx hcause => ?_⟩
    · exact hfetch.trans (congrArg _ (fetchExec_decodes hbytes hwindow hi))
    · exact hfetch.trans (congrArg _ (fetchExec_illegal hbytes hwindow he))
    · exact hfetch.trans (congrArg _ (fetchExec_pageX hx hcause))
  case wait => rw [hstep, moveNext_nil hturns, natural_ready hg hd hr, readySlot_goesOn hwait]
  case event => exact hstep.trans ((moveNext_cons hturn).trans (runEv_of_eventOf he _))
  case duty =>
    have hdue := hstep.trans (moveNext_duty hturn)
    exact ⟨fun i e he hwork => hdue.trans (runDuty_event hduty he hwork),
      fun i f hwork => hdue.trans (runDuty_node hduty hwork)⟩
end

section
/-! The words of the L-set (R30-R50, R60): the fields of each layout read back, each decoder answers the instruction whose
word it was given, and O54, which they settle. -/

namespace Sys2Proof

open Machine

/-! ## Fields side by side -/

section Fields
variable {t u v w : Nat} {a : BitVec t} {b : BitVec u} {c : BitVec v} {d : BitVec w}

/-- Fields side by side make up a word where each is the part of the word at its place. -/
theorem append_eq_iff {x : BitVec (t + u)} : a ++ b = x ↔ x.extractLsb' u t = a ∧ x.extractLsb' 0 u = b := by
  constructor
  · rintro rfl
    exact ⟨BitVec.extractLsb'_append_eq_left, BitVec.extractLsb'_append_eq_right⟩
  · rintro ⟨rfl, rfl⟩
    exact BitVec.extractLsb'_append_extractLsb'

theorem extractLsb'_eq_append_iff {n k : Nat} {x : BitVec n} :
    x.extractLsb' k (t + u) = a ++ b ↔ x.extractLsb' (k + u) t = a ∧ x.extractLsb' k u = b := by
  rw [← BitVec.extractLsb'_append_extractLsb'_eq_extractLsb' rfl, append_eq_iff, BitVec.extractLsb'_append_eq_left,
    BitVec.extractLsb'_append_eq_right, eq_comm (a := a), eq_comm (a := b)]

theorem append_append_eq_iff {x : BitVec (t + u + v)} : a ++ b ++ c = x ↔
    x.extractLsb' (v + u) t = a ∧ x.extractLsb' v u = b ∧ x.extractLsb' 0 v = c := by
  rw [append_eq_iff, extractLsb'_eq_append_iff, and_assoc]

theorem append_append_append_eq_iff {x : BitVec (t + u + v + w)} : a ++ b ++ c ++ d = x ↔
    x.extractLsb' (w + v + u) t = a ∧ x.extractLsb' (w + v) u = b ∧ x.extractLsb' w v = c ∧ x.extractLsb' 0 w = d := by
  rw [append_append_eq_iff, extractLsb'_eq_append_iff, and_assoc]

end Fields

/-- A field that holds the number `k`. -/
theorem eq_ofNat_of_toNat {n k : Nat} {x : BitVec n} (h : x.toNat = k) : x = BitVec.ofNat n k := by
  rw [← h, BitVec.ofNat_toNat, BitVec.setWidth_eq]

/-! ### The layouts of funct7 and of the register fields (R37, R41-R49), by the widths of their parts -/

@[simp] theorem fields_1_6 (a : BitVec 1) (b : BitVec 6) :
    BitVec.extractLsb' (n := 7) 6 1 (a ++ b) = a ∧ BitVec.extractLsb' (n := 7) 0 6 (a ++ b) = b := append_eq_iff.1 rfl

@[simp] theorem fields_6_1 (a : BitVec 6) (b : BitVec 1) :
    BitVec.extractLsb' (n := 7) 1 6 (a ++ b) = a ∧ BitVec.extractLsb' (n := 7) 0 1 (a ++ b) = b := append_eq_iff.1 rfl

@[simp] theorem fields_3_4 (a : BitVec 3) (b : BitVec 4) :
    BitVec.extractLsb' (n := 7) 4 3 (a ++ b) = a ∧ BitVec.extractLsb' (n := 7) 0 4 (a ++ b) = b := append_eq_iff.1 rfl

@[simp] theorem fields_4_3 (a : BitVec 4) (b : BitVec 3) :
    BitVec.extractLsb' (n := 7) 3 4 (a ++ b) = a ∧ BitVec.extractLsb' (n := 7) 0 3 (a ++ b) = b := append_eq_iff.1 rfl

@[simp] theorem fields_2_5 (a : BitVec 2) (b : BitVec 5) :
    BitVec.extractLsb' (n := 7) 5 2 (a ++ b) = a ∧ BitVec.extractLsb' (n := 7) 0 5 (a ++ b) = b := append_eq_iff.1 rfl

@[simp] theorem fields_2_3 (a : BitVec 2) (b : BitVec 3) :
    BitVec.extractLsb' (n := 5) 3 2 (a ++ b) = a ∧ BitVec.extractLsb' (n := 5) 0 3 (a ++ b) = b := append_eq_iff.1 rfl

@[simp] theorem fields_3_2 (a : BitVec 3) (b : BitVec 2) :
    BitVec.extractLsb' (n := 5) 2 3 (a ++ b) = a ∧ BitVec.extractLsb' (n := 5) 0 2 (a ++ b) = b := append_eq_iff.1 rfl

@[simp] theorem fields_4_1 (a : BitVec 4) (b : BitVec 1) :
    BitVec.extractLsb' (n := 5) 1 4 (a ++ b) = a ∧ BitVec.extractLsb' (n := 5) 0 1 (a ++ b) = b := append_eq_iff.1 rfl

@[simp] theorem fields_3_1_3 (a : BitVec 3) (b : BitVec 1) (c : BitVec 3) :
    BitVec.extractLsb' (n := 7) 4 3 (a ++ b ++ c) = a ∧ BitVec.extractLsb' (n := 7) 3 1 (a ++ b ++ c) = b
    ∧ BitVec.extractLsb' (n := 7) 0 3 (a ++ b ++ c) = c := append_append_eq_iff.1 rfl

@[simp] theorem fields_3_2_2 (a : BitVec 3) (b c : BitVec 2) :
    BitVec.extractLsb' (n := 7) 4 3 (a ++ b ++ c) = a ∧ BitVec.extractLsb' (n := 7) 2 2 (a ++ b ++ c) = b
    ∧ BitVec.extractLsb' (n := 7) 0 2 (a ++ b ++ c) = c := append_append_eq_iff.1 rfl

@[simp] theorem fields_2_1_4 (a : BitVec 2) (b : BitVec 1) (c : BitVec 4) :
    BitVec.extractLsb' (n := 7) 5 2 (a ++ b ++ c) = a ∧ BitVec.extractLsb' (n := 7) 4 1 (a ++ b ++ c) = b
    ∧ BitVec.extractLsb' (n := 7) 0 4 (a ++ b ++ c) = c := append_append_eq_iff.1 rfl

@[simp] theorem fields_4_2_1 (a : BitVec 4) (b : BitVec 2) (c : BitVec 1) :
    BitVec.extractLsb' (n := 7) 3 4 (a ++ b ++ c) = a ∧ BitVec.extractLsb' (n := 7) 1 2 (a ++ b ++ c) = b
    ∧ BitVec.extractLsb' (n := 7) 0 1 (a ++ b ++ c) = c := append_append_eq_iff.1 rfl

@[simp] theorem fields_3_1_2_1 (a : BitVec 3) (b : BitVec 1) (c : BitVec 2) (d : BitVec 1) :
    BitVec.extractLsb' (n := 7) 4 3 (a ++ b ++ c ++ d) = a ∧ BitVec.extractLsb' (n := 7) 3 1 (a ++ b ++ c ++ d) = b
    ∧ BitVec.extractLsb' (n := 7) 1 2 (a ++ b ++ c ++ d) = c ∧ BitVec.extractLsb' (n := 7) 0 1 (a ++ b ++ c ++ d) = d :=
  append_append_append_eq_iff.1 rfl

@[simp] theorem fields_2_2_2_1 (a b c : BitVec 2) (d : BitVec 1) :
    BitVec.extractLsb' (n := 7) 5 2 (a ++ b ++ c ++ d) = a ∧ BitVec.extractLsb' (n := 7) 3 2 (a ++ b ++ c ++ d) = b
    ∧ BitVec.extractLsb' (n := 7) 1 2 (a ++ b ++ c ++ d) = c ∧ BitVec.extractLsb' (n := 7) 0 1 (a ++ b ++ c ++ d) = d :=
  append_append_append_eq_iff.1 rfl

@[simp] theorem fields_4_1_1_1 (a : BitVec 4) (b c d : BitVec 1) :
    BitVec.extractLsb' (n := 7) 3 4 (a ++ b ++ c ++ d) = a ∧ BitVec.extractLsb' (n := 7) 2 1 (a ++ b ++ c ++ d) = b
    ∧ BitVec.extractLsb' (n := 7) 1 1 (a ++ b ++ c ++ d) = c ∧ BitVec.extractLsb' (n := 7) 0 1 (a ++ b ++ c ++ d) = d :=
  append_append_append_eq_iff.1 rfl

@[simp] theorem fields_7_5_5_3 (a : BitVec 7) (b c : BitVec 5) (d : BitVec 3) :
    BitVec.extractLsb' (n := 20) 13 7 (a ++ b ++ c ++ d) = a ∧ BitVec.extractLsb' (n := 20) 8 5 (a ++ b ++ c ++ d) = b
    ∧ BitVec.extractLsb' (n := 20) 3 5 (a ++ b ++ c ++ d) = c ∧ BitVec.extractLsb' (n := 20) 0 3 (a ++ b ++ c ++ d) = d :=
  append_append_append_eq_iff.1 rfl

/-! ### Enumerated fields -/

@[simp] theorem bit1_boolBit (b : Bool) : bit1 (boolBit b) = b := by cases b <;> rfl
@[simp] theorem boolBit_bit1 (b : BitVec 1) : boolBit (bit1 b) = b := by revert b; decide
@[simp] theorem Fmt.ofCode_code (f : Fmt) : Fmt.ofCode f.code = f := by cases f <;> rfl
@[simp] theorem Fmt.code_ofCode (c : BitVec 3) : (Fmt.ofCode c).code = c := by revert c; decide
@[simp] theorem Size.ofCode_code (z : Size) : Size.ofCode z.code = z := by cases z <;> rfl
@[simp] theorem Size.code_ofCode (c : BitVec 2) : (Size.ofCode c).code = c := by revert c; decide
@[simp] theorem Scope.ofCode_code (sc : Scope) : Scope.ofCode sc.code = sc := by cases sc <;> rfl
@[simp] theorem Scope.code_ofCode (c : BitVec 2) : (Scope.ofCode c).code = c := by revert c; decide
@[simp] theorem AmoOrd.ofCode_code (o : AmoOrd) : AmoOrd.ofCode o.code = o := by cases o <;> rfl
@[simp] theorem AmoOrd.code_ofCode (c : BitVec 2) : (AmoOrd.ofCode c).code = c := by revert c; decide
@[simp] theorem Space.ofCode_code (sp : Space) : Space.ofCode sp.code = sp := by cases sp <;> rfl
@[simp] theorem Space.code_ofCode (c : BitVec 3) : (Space.ofCode c).code = c := by revert c; decide

@[simp] theorem FenceKind.ofCode_code (k : FenceKind) : FenceKind.ofCode k.code = some k := by cases k <;> rfl
theorem FenceKind.code_of_ofCode {c : BitVec 2} {k : FenceKind} (h : FenceKind.ofCode c = some k) : k.code = c := by
  revert c k; decide
@[simp] theorem Buf.ofCode_code (b : Buf) : Buf.ofCode b.code = some b := by cases b <;> rfl
theorem Buf.code_of_ofCode {c : BitVec 2} {b : Buf} (h : Buf.ofCode c = some b) : b.code = c := by
  revert c b; decide
@[simp] theorem Domain.ofCode_code (d : Domain) : Domain.ofCode d.code = some d := by cases d <;> rfl
theorem Domain.code_of_ofCode {c : BitVec 3} {d : Domain} (h : Domain.ofCode c = some d) : d.code = c := by
  revert c d; decide
@[simp] theorem SrpCtr.ofCode_code (k : SrpCtr) : SrpCtr.ofCode k.code = some k := by cases k <;> rfl
theorem SrpCtr.code_of_ofCode {c : BitVec 3} {k : SrpCtr} (h : SrpCtr.ofCode c = some k) : k.code = c := by
  revert c k; decide
@[simp] theorem LoadOp.ofCode_code (o : LoadOp) : LoadOp.ofCode o.code = some o := by cases o <;> rfl
theorem LoadOp.code_of_ofCode {c : BitVec 3} {o : LoadOp} (h : LoadOp.ofCode c = some o) : o.code = c := by
  revert c o; decide
@[simp] theorem BranchOp.ofCode_code (o : BranchOp) : BranchOp.ofCode o.code = some o := by cases o <;> rfl
theorem BranchOp.code_of_ofCode {c : BitVec 3} {o : BranchOp} (h : BranchOp.ofCode c = some o) : o.code = c := by
  revert c o; decide
@[simp] theorem RegOp.ofCode_code (o : RegOp) : RegOp.ofCode o.code.1 o.code.2 = some o := by cases o <;> rfl
theorem RegOp.code_of_ofCode {f7 : BitVec 7} {f3 : BitVec 3} {o : RegOp} (h : RegOp.ofCode f7 f3 = some o) :
    o.code = (f7, f3) := by
  revert f7 f3 o; decide
@[simp] theorem Reg32Op.ofCode_code (o : Reg32Op) : Reg32Op.ofCode o.code.1 o.code.2 = some o := by cases o <;> rfl
theorem Reg32Op.code_of_ofCode {f7 : BitVec 7} {f3 : BitVec 3} {o : Reg32Op} (h : Reg32Op.ofCode f7 f3 = some o) :
    o.code = (f7, f3) := by
  revert f7 f3 o; decide

@[simp] theorem only_true (i : Instr) : only true i = .ok i := rfl
@[simp] theorem field_some {α : Type} (a : α) (k : α → Except DecodeError Instr) : field (some a) k = k a := rfl

/-! ### Immediates and register numbers -/

@[simp] theorem immHi_append (f7 : BitVec 7) (lo : BitVec 5) : immHi (f7 ++ lo) = f7 := BitVec.extractLsb'_append_eq_left
@[simp] theorem immLo_append (f7 : BitVec 7) (lo : BitVec 5) : immLo (f7 ++ lo) = lo := BitVec.extractLsb'_append_eq_right
@[simp] theorem immHi_append_immLo (imm : BitVec 12) : immHi imm ++ immLo imm = imm := BitVec.extractLsb'_append_extractLsb'

@[simp] theorem hi0_z2 (r : BitVec 3) : hi0 (z2 r) = true := by simp [hi0, z2]
@[simp] theorem lo3_append (q : BitVec 2) (r : BitVec 3) : lo3 (q ++ r) = r := BitVec.extractLsb'_append_eq_right
@[simp] theorem lo3_z2 (r : BitVec 3) : lo3 (z2 r) = r := by simp [lo3, z2]
theorem z2_lo3 {r : BitVec 5} (h : hi0 r = true) : z2 (lo3 r) = r :=
  append_eq_iff.2 ⟨beq_iff_eq.1 h, rfl⟩

@[simp] theorem uFields_append (u : BitVec 20) :
    u.extractLsb' 13 7 ++ u.extractLsb' 8 5 ++ u.extractLsb' 3 5 ++ u.extractLsb' 0 3 = u := by
  simp (disch := rfl) only [BitVec.extractLsb'_append_extractLsb'_eq_extractLsb']
  exact BitVec.extractLsb'_eq_self

/-- The place in a J-format word of each bit of the offset (R30). -/
def jalBits (off : BitVec 20) : BitVec 20 :=
  off.extractLsb' 19 1 ++ off.extractLsb' 0 10 ++ off.extractLsb' 10 1 ++ off.extractLsb' 11 8

theorem jalOff_jalBits (off : BitVec 20) : jalOff (jalBits off) = off := by
  obtain ⟨h19, h9, h8, h0⟩ := append_append_append_eq_iff.1 (rfl : _ = jalBits off)
  exact append_append_append_eq_iff.2 ⟨h19.symm, h0.symm, h8.symm, h9.symm⟩

theorem jalBits_jalOff (u : BitVec 20) : jalBits (jalOff u) = u := by
  obtain ⟨h19, h11, h10, h0⟩ := append_append_append_eq_iff.1 (rfl : _ = jalOff u)
  exact append_append_append_eq_iff.2 ⟨h19.symm, h0.symm, h10.symm, h11.symm⟩

/-- The parts of a branch's offset in funct7 and in rd's place (R30). -/
def branchHi (off : BitVec 12) : BitVec 7 := off.extractLsb' 11 1 ++ off.extractLsb' 4 6
def branchLo (off : BitVec 12) : BitVec 5 := off.extractLsb' 0 4 ++ off.extractLsb' 10 1

theorem branchOff_hi_lo (off : BitVec 12) : branchOff (branchHi off) (branchLo off) = off := by
  obtain ⟨h11, h4⟩ := append_eq_iff.1 (rfl : _ = branchHi off)
  obtain ⟨h0, h10⟩ := append_eq_iff.1 (rfl : _ = branchLo off)
  exact append_append_append_eq_iff.2 ⟨h11.symm, h10.symm, h4.symm, h0.symm⟩

theorem hi_lo_branchOff (f7 : BitVec 7) (rd : BitVec 5) :
    branchHi (branchOff f7 rd) = f7 ∧ branchLo (branchOff f7 rd) = rd := by
  obtain ⟨h11, h10, h4, h0⟩ := append_append_append_eq_iff.1 (rfl : _ = branchOff f7 rd)
  exact ⟨append_eq_iff.2 ⟨h11.symm, h4.symm⟩, append_eq_iff.2 ⟨h0.symm, h10.symm⟩⟩

/-! ## A word's fields (R30) -/

theorem lWord_fields (w : BitVec 32) :
    lWord (w.extractLsb' 25 7) (w.extractLsb' 20 5) (w.extractLsb' 15 5) (w.extractLsb' 12 3) (w.extractLsb' 7 5)
      (w.extractLsb' 0 7) = w := by
  simp (disch := rfl) only [lWord, BitVec.extractLsb'_append_extractLsb'_eq_extractLsb']
  exact BitVec.extractLsb'_eq_self

/-- The decoder reads the fields that a word was made of. -/
theorem decodeL_lWord (f7 : BitVec 7) (rs2 rs1 : BitVec 5) (f3 : BitVec 3) (rd : BitVec 5) (opc : BitVec 7) :
    decodeL (lWord f7 rs2 rs1 f3 rd opc) = decodeFields f7 rs2 rs1 f3 rd opc := by
  let w := f7 ++ rs2 ++ rs1 ++ f3 ++ rd ++ opc
  change decodeFields (w.extractLsb' 25 7) (w.extractLsb' 20 5) (w.extractLsb' 15 5) (w.extractLsb' 12 3)
    (w.extractLsb' 7 5) (w.extractLsb' 0 7) = _
  simp (disch := decide) only [w, BitVec.extractLsb'_append_eq_of_add_le, BitVec.extractLsb'_append_eq_of_le,
    Nat.reduceSub, BitVec.extractLsb'_eq_self]

section Groups
variable (f7 : BitVec 7) (rd rs1 rs2 : BitVec 5) (f3 aux : BitVec 3) (sel : BitVec 4)

theorem decodeL_iWord (imm : BitVec 12) (opc : BitVec 7) :
    decodeL (iWord imm rs1 f3 rd opc) = decodeFields (immHi imm) (immLo imm) rs1 f3 rd opc := decodeL_lWord ..
theorem decodeL_uWord (u : BitVec 20) (opc : BitVec 7) : decodeL (uWord u rd opc) =
    decodeFields (u.extractLsb' 13 7) (u.extractLsb' 8 5) (u.extractLsb' 3 5) (u.extractLsb' 0 3) rd opc := decodeL_lWord ..
theorem decodeL_vWord (m : Bool) (sel : BitVec 6) (f : Fmt) :
    decodeL (vWord m sel f rd rs1 rs2) = decVec (boolBit m ++ sel) rs2 rs1 f.code rd := decodeL_lWord ..
theorem decodeL_memWord_vector : decodeL (memWord 0#3 f7 rd rs1 rs2) = decMemV f7 rs2 rs1 rd := decodeL_lWord ..
theorem decodeL_memWord_load : decodeL (memWord 1#3 f7 rd rs1 rs2) = decMemL f7 rs2 rs1 rd := decodeL_lWord ..
theorem decodeL_memWord_store : decodeL (memWord 2#3 f7 rd rs1 rs2) = decMemS f7 rs2 rs1 rd := decodeL_lWord ..
theorem decodeL_memWord_fence : decodeL (memWord 7#3 f7 rd rs1 rs2) = decMemF f7 rs2 rs1 rd := decodeL_lWord ..
theorem decodeL_amoWord (o : AmoOrd) (dbl : Bool) (sc : Scope) :
    decodeL (amoWord sel o dbl sc rd rs1 rs2) = decAmo sc (sel ++ o.code ++ boolBit dbl) rs2 rs1 rd := by
  cases sc <;> exact decodeL_lWord ..
theorem decodeL_selWord_matrix :
    decodeL (selWord 0x5B#7 0#3 sel aux rd rs1 rs2) = decMx (sel ++ aux) rs2 rs1 rd := decodeL_lWord ..
theorem decodeL_selWord_engine :
    decodeL (selWord 0x5B#7 1#3 sel aux rd rs1 rs2) = decEng (sel ++ aux) rs2 rs1 rd := decodeL_lWord ..
theorem decodeL_selWord_system :
    decodeL (selWord 0x7B#7 f3 sel aux rd rs1 rs2) = decSys (sel ++ aux) rs2 rs1 f3 rd := decodeL_lWord ..

end Groups

/-! ## From an instruction to its word and back -/

/-- A shift amount's immediate is its low bits below zeros (R32). -/
theorem shift64_fields {imm : BitVec 12} (h : imm.toNat < 64) :
    ∃ (b : BitVec 1) (lo : BitVec 5), imm = 0#6 ++ b ++ lo := by
  refine ⟨imm.extractLsb' 5 1, imm.extractLsb' 0 5,
    (append_append_eq_iff (t := 6) (u := 1) (v := 5)).2 ⟨?_, rfl, rfl⟩ |>.symm⟩
  apply BitVec.eq_of_toNat_eq
  simp [Nat.shiftRight_eq_div_pow]
  omega

theorem shift32_fields {imm : BitVec 12} (h : imm.toNat < 32) : ∃ lo : BitVec 5, imm = 0#7 ++ lo := by
  refine ⟨imm.extractLsb' 0 5, (append_eq_iff (t := 7) (u := 5)).2 ⟨?_, rfl⟩ |>.symm⟩
  apply BitVec.eq_of_toNat_eq
  simp [Nat.shiftRight_eq_div_pow]
  omega

/-- SRAI's word has bit 30 set beside the shift amount (R32). -/
@[simp] theorem sraiHi (b : BitVec 1) : 0x20#7 ||| (0#6 ++ b) = 0x10#6 ++ b := by revert b; decide

theorem decodeL_encode_opImm {o : ImmOp} {rd rs1 : XReg} {imm : BitVec 12} {w : BitVec 32}
    (hwf : (Instr.opImm o rd rs1 imm).wf = true) (h : encodeL (.opImm o rd rs1 imm) = some w) :
    decodeL w = .ok (.opImm o rd rs1 imm) := by
  cases o <;> cases h
  case slli | srli | srai =>
    obtain ⟨b, lo, rfl⟩ := shift64_fields (of_decide_eq_true hwf)
    simp [decodeL_iWord, decodeL_lWord, decodeFields, decOpImm, ImmOp.f3]
  all_goals simp [decodeL_iWord, decodeFields, decOpImm, ImmOp.f3]

theorem decodeL_encode_opImm32 {o : Imm32Op} {rd rs1 : XReg} {imm : BitVec 12} {w : BitVec 32}
    (hwf : (Instr.opImm32 o rd rs1 imm).wf = true) (h : encodeL (.opImm32 o rd rs1 imm) = some w) :
    decodeL w = .ok (.opImm32 o rd rs1 imm) := by
  cases o <;> cases h
  case slliw | srliw | sraiw =>
    obtain ⟨lo, rfl⟩ := shift32_fields (of_decide_eq_true hwf)
    simp [decodeL_lWord, decodeFields, decOpImm32]
  case addiw => simp [decodeL_iWord, decodeFields, decOpImm32]

theorem decodeL_encodeL {i : Instr} {w : BitVec 32} (hwf : i.wf = true) (h : encodeL i = some w) :
    decodeL w = .ok (coreForm i) := by
  cases i
  case opImm => exact decodeL_encode_opImm hwf h
  case opImm32 => exact decodeL_encode_opImm32 hwf h
  all_goals cases h
  case vadd m f a b c | vsub m f a b c | vmul m f a b c | vfma m f a b c | vmin m f a b c | vmax m f a b c | vclt m f a b c
      | vcle m f a b c | vceq m f a b c | vrsum m f a b | vrmax m f a b | vrmin m f a b | vscan m f a b =>
    have hf : f.inN = true := hwf
    simp [decodeL_vWord, decVec, hf, coreForm]
  case vand m f a b c | vor m f a b c | vxor m f a b c | vsll m f a b c | vsrl m f a b c | vsra m f a b c =>
    have hf : f.inI = true := hwf
    simp [decodeL_vWord, decVec, hf, coreForm]
  case vq m f a b c | vdq m f a b c =>
    have hf : f.inF = true := hwf
    simp [decodeL_vWord, decVec, hf, coreForm]
  case vdiv m f a b c =>
    have hf : (f == .int || f == .fp32) = true := hwf
    simp [decodeL_vWord, decVec, hf, coreForm]
  case vcvt m src dst a b =>
    have hf : (src != .lq4 && dst != .lq4) = true := hwf
    simp [decodeL_vWord, decVec, hf, coreForm]
  case vsel | vsqrt | vrcp | vexp2 | vlog2 | vperm | vslide | vsplat | vxtr | vrng | vmov =>
    simp [decodeL_vWord, decVec, coreForm]
  case vld | vst | vlds | vsts | vlx | vsx | vldS | vldB =>
    simp [decodeL_memWord_vector, decMemV, coreForm]
  case bufld b _ _ | bufst b _ _ => cases b <;> exact decodeL_memWord_vector ..
  case ldS | ldSe | ldB | ldAcq => simp [decodeL_memWord_load, decMemL, coreForm]
  case stRel | feSet | feClr => simp [decodeL_memWord_store, decMemS, coreForm]
  case amoAdd | amoAnd | amoOr | amoXor | amoMin | amoMax | amoMinu | amoMaxu | amoSwap | amoCas | amoFadd =>
    simp [decodeL_amoWord, decAmo, coreForm]
  case fenceSc | tideAdv | tideRd | lkTake | lkGive | qGet | vqGet | qStat | qClose =>
    simp [decodeL_memWord_fence, decMemF, coreForm]
  case pref l w _ _ => cases l <;> cases w <;> exact decodeL_memWord_fence ..
  case mxDesc | mxTcfg | mxTcfgRoute | mxZero | mxMma | mxMmq | mxDrn | mxRd | mxWr | mxWait | mxRowp | mxStat =>
    simp [decodeL_selWord_matrix, decMx, coreForm]
  case mxMms => simp [decodeL_lWord, decodeFields, decMxe, coreForm]
  case cpPost | cpResume | cpCancel | cpBind | post | srpProbe | srpRec | srpInv | srpInvAll | srpStat =>
    simp [decodeL_selWord_engine, decEng, coreForm]
  case fork | join | xcall | xret | frmNew | frmFree | msgSend | msgMsk | msgUnm | msgRet | wait | sleepT | yield | genRd
      | genNew | genScrub | tret | gctxRes | gctxKill | plcFind | plcLoad | plcRel | cfgWr | cfgWrRestamp | cfgChk =>
    simp [decodeL_selWord_system, decSys, coreForm]
  case fence | fenceI | csrrw | csrrs | csrrc | csrrwi | csrrsi | csrrci | jalr | load =>
    simp [decodeL_iWord, decodeFields, decSystem, coreForm]
  case ecall | ebreak => rfl
  case op | op32 => simp [decodeL_lWord, decodeFields, coreForm]
  case lui | auipc => simp [decodeL_uWord, decodeFields, coreForm]
  case store z _ _ _ => cases z <;> simp [decodeL_lWord, decodeFields, Size.code, Size.ofCode, coreForm]
  case jal rd off =>
    change decodeL (uWord (jalBits off) rd 0x6F#7) = _
    simp [decodeL_uWord, decodeFields, jalOff_jalBits, coreForm]
  case branch o rs1 rs2 off =>
    change decodeL (lWord (branchHi off) rs2 rs1 o.code (branchLo off) 0x63#7) = _
    simp [decodeL_lWord, decodeFields, branchOff_hi_lo, coreForm]

/-! ## From a word to its instruction and back -/

/-- Where the answer is an instruction, that instruction is well formed and its word is `w`. -/
def Codes (r : Except DecodeError Instr) (w : BitVec 32) : Prop := ∀ i, r = .ok i → i.wf = true ∧ encodeL i = some w

section Codes
variable {w : BitVec 32} {i : Instr}

theorem codes_error (e : DecodeError) : Codes (.error e) w := by
  intro i h
  cases h

theorem codes_ok (hwf : i.wf = true) (hword : encodeL i = some w) : Codes (.ok i) w := by
  intro j h
  cases h
  exact ⟨hwf, hword⟩

theorem codes_only {c : Bool} (h : c = true → i.wf = true ∧ encodeL i = some w) : Codes (only c i) w := by
  cases c
  · exact codes_error _
  · exact codes_ok (h rfl).1 (h rfl).2

theorem codes_field {α : Type} {o : Option α} {k : α → Except DecodeError Instr} (h : ∀ a, o = some a → Codes (k a) w) :
    Codes (field o k) w := by
  cases o
  · exact codes_error _
  · exact h _ rfl

end Codes

/-- The last row of a table of two or three bits (R41, R42). -/
theorem eq_three_of_ne {x : BitVec 2} (h0 : x.toNat ≠ 0) (h1 : x.toNat ≠ 1) (h2 : x.toNat ≠ 2) : x = 3#2 :=
  BitVec.eq_of_toNat_eq (by have hlt := x.isLt; simp only [BitVec.toNat_ofNat]; omega)

theorem eq_seven_of_ne {x : BitVec 3} (h0 : x.toNat ≠ 0) (h1 : x.toNat ≠ 1) (h2 : x.toNat ≠ 2) (h3 : x.toNat ≠ 3)
    (h4 : x.toNat ≠ 4) (h5 : x.toNat ≠ 5) (h6 : x.toNat ≠ 6) : x = 7#3 :=
  BitVec.eq_of_toNat_eq (by have hlt := x.isLt; simp only [BitVec.toNat_ofNat]; omega)

section Decoders
variable {f7 f7' : BitVec 7} {rs2 rs1 rd : BitVec 5} {f3 f3' : BitVec 3} {opc : BitVec 7} {k : Nat}

theorem some_lWord (h : f7' = f7) : some (lWord f7' rs2 rs1 f3 rd opc) = some (lWord f7 rs2 rs1 f3 rd opc) := by rw [h]

/-! ### VEC (R37-R39) -/

theorem vWord_fields (h : (f7.extractLsb' 0 6).toNat = k) :
    vWord (bit1 (f7.extractLsb' 6 1)) (BitVec.ofNat 6 k) (Fmt.ofCode f3) rd rs1 rs2 = lWord f7 rs2 rs1 f3 rd 0x0B#7 := by
  have hf7 : f7.extractLsb' 6 1 ++ BitVec.ofNat 6 k = f7 := append_eq_iff.2 ⟨rfl, eq_ofNat_of_toNat h⟩
  rw [vWord, boolBit_bit1, Fmt.code_ofCode, hf7]

theorem decVec_codes : Codes (decVec f7 rs2 rs1 f3 rd) (lWord f7 rs2 rs1 f3 rd 0x0B#7) := by
  unfold decVec
  dsimp only
  split
  case h_1 h | h_2 h | h_3 h | h_4 h | h_5 h | h_6 h | h_7 h | h_8 h | h_9 h | h_10 h | h_11 h | h_12 h | h_13 h | h_14 h
      | h_15 h | h_17 h | h_30 h | h_31 h => exact codes_only fun hf => ⟨hf, congrArg some (vWord_fields h)⟩
  case h_16 h | h_28 h =>
    refine codes_only fun hm => ⟨rfl, ?_⟩
    rw [← vWord_fields h, show bit1 _ = false by simpa using hm]
    rfl
  case h_18 h | h_19 h | h_20 h | h_21 h =>
    refine codes_only fun hc => ⟨rfl, ?_⟩
    obtain ⟨hf, rfl⟩ : Fmt.ofCode f3 = .fp32 ∧ rs2 = 0#5 := by simpa using hc
    rw [← vWord_fields h, hf]
    rfl
  case h_22 h | h_23 h | h_24 h | h_33 h =>
    refine codes_only fun hc => ?_
    obtain ⟨hf, rfl⟩ : (Fmt.ofCode f3).inN = true ∧ rs2 = 0#5 := by simpa using hc
    exact ⟨hf, congrArg some (vWord_fields h)⟩
  case h_25 h | h_26 h => exact codes_ok rfl (congrArg some (vWord_fields h))
  case h_27 h | h_34 h =>
    refine codes_only fun hc => ⟨rfl, ?_⟩
    obtain rfl : rs2 = 0#5 := by simpa using hc
    exact congrArg some (vWord_fields h)
  case h_29 h =>
    refine codes_only fun hc => ?_
    obtain ⟨⟨hz, hs⟩, hd⟩ : (rs2.extractLsb' 3 2 = 0#2 ∧ (Fmt.ofCode f3 != .lq4) = true)
        ∧ (Fmt.ofCode (rs2.extractLsb' 0 3) != .lq4) = true := by simpa using hc
    have hrs2 : 0#2 ++ (Fmt.ofCode (rs2.extractLsb' 0 3)).code = rs2 := append_eq_iff.2 ⟨hz, (Fmt.code_ofCode _).symm⟩
    refine ⟨Bool.and_eq_true_iff.2 ⟨hs, hd⟩, ?_⟩
    change some (vWord _ _ _ _ _ _) = _
    rw [hrs2]
    exact congrArg some (vWord_fields h)
  case h_32 h =>
    refine codes_only fun hc => ⟨rfl, ?_⟩
    obtain ⟨⟨hf, rfl⟩, rfl⟩ : (Fmt.ofCode f3 = .int ∧ rs1 = 0#5) ∧ rs2 = 0#5 := by simpa using hc
    rw [← vWord_fields h, hf]
    rfl
  case h_35 => exact codes_error _

/-! ### MEM (R41-R45) -/

theorem decMemV_codes : Codes (decMemV f7 rs2 rs1 rd) (lWord f7 rs2 rs1 0#3 rd 0x2B#7) := by
  unfold decMemV
  dsimp only
  split
  case h_1 h | h_2 h =>
    refine codes_only fun hc => ⟨rfl, ?_⟩
    obtain ⟨hz, rfl⟩ : f7.extractLsb' 0 3 = 0#3 ∧ rs2 = 0#5 := by simpa using hc
    exact some_lWord (append_append_eq_iff.2 ⟨eq_ofNat_of_toNat h, (boolBit_bit1 _).symm, hz⟩)
  case h_3 h | h_4 h =>
    refine codes_only fun hc => ⟨rfl, some_lWord (append_append_append_eq_iff.2
      ⟨eq_ofNat_of_toNat h, (boolBit_bit1 _).symm, (Size.code_ofCode _).symm, beq_iff_eq.1 hc⟩)⟩
  case h_5 h | h_6 h =>
    exact codes_ok rfl (some_lWord (append_append_append_eq_iff.2
      ⟨eq_ofNat_of_toNat h, (boolBit_bit1 _).symm, (Size.code_ofCode _).symm, (boolBit_bit1 _).symm⟩))
  case h_7 h =>
    have hop := eq_ofNat_of_toNat h
    split
    case h_1 h' =>
      refine codes_only fun hc => ⟨rfl, ?_⟩
      obtain ⟨hz, rfl⟩ : f7.extractLsb' 0 2 = 0#2 ∧ rs2 = 0#5 := by simpa using hc
      exact some_lWord (append_append_eq_iff.2 ⟨hop, eq_ofNat_of_toNat h', hz⟩)
    case h_2 h' | h_3 h' =>
      refine codes_field fun b hb => codes_only fun hc => ⟨rfl, ?_⟩
      obtain rfl : rs2 = 0#5 := by simpa using hc
      exact some_lWord (append_append_eq_iff.2 ⟨hop, eq_ofNat_of_toNat h', (Buf.code_of_ofCode hb).symm⟩)
    case h_4 => exact codes_error _
  case h_8 h0 h1 h2 h3 h4 h5 h6 =>
    exact codes_ok rfl (some_lWord (append_eq_iff.2 ⟨eq_seven_of_ne h0 h1 h2 h3 h4 h5 h6, rfl⟩))

theorem decMemL_codes : Codes (decMemL f7 rs2 rs1 rd) (lWord f7 rs2 rs1 1#3 rd 0x2B#7) := by
  unfold decMemL
  split
  case h_1 h | h_2 h =>
    refine codes_only fun hc => ⟨rfl, ?_⟩
    obtain ⟨hz, rfl⟩ : f7.extractLsb' 0 5 = 0#5 ∧ rs2 = 0#5 := by simpa using hc
    exact some_lWord (append_eq_iff.2 ⟨eq_ofNat_of_toNat h, hz⟩)
  case h_3 h =>
    exact codes_ok rfl (some_lWord (append_append_eq_iff.2 ⟨eq_ofNat_of_toNat h, (boolBit_bit1 _).symm, rfl⟩))
  case h_4 h0 h1 h2 =>
    refine codes_only fun hc => ⟨rfl, ?_⟩
    obtain ⟨hz, rfl⟩ : f7.extractLsb' 0 1 = 0#1 ∧ rs2 = 0#5 := by simpa using hc
    exact some_lWord (append_append_append_eq_iff.2
      ⟨eq_three_of_ne h0 h1 h2, (Size.code_ofCode _).symm, (Scope.code_ofCode _).symm, hz⟩)

theorem decMemS_codes : Codes (decMemS f7 rs2 rs1 rd) (lWord f7 rs2 rs1 2#3 rd 0x2B#7) := by
  unfold decMemS
  split
  case h_1 h =>
    refine codes_only fun hc => ⟨rfl, ?_⟩
    obtain ⟨hz, rfl⟩ : f7.extractLsb' 0 1 = 0#1 ∧ rd = 0#5 := by simpa using hc
    exact some_lWord (append_append_append_eq_iff.2
      ⟨eq_ofNat_of_toNat h, (Size.code_ofCode _).symm, (Scope.code_ofCode _).symm, hz⟩)
  case h_2 h | h_3 h =>
    refine codes_only fun hc => ⟨rfl, ?_⟩
    obtain ⟨⟨hz, rfl⟩, rfl⟩ : (f7.extractLsb' 0 5 = 0#5 ∧ rs2 = 0#5) ∧ rd = 0#5 := by simpa using hc
    exact some_lWord (append_eq_iff.2 ⟨eq_ofNat_of_toNat h, hz⟩)
  case h_4 => exact codes_error _

/-- Every row of the atomics has the fields of `amoWord`. -/
theorem decAmo_codes (sc : Scope) : Codes (decAmo sc f7 rs2 rs1 rd) (amoWord (f7.extractLsb' 3 4)
    (AmoOrd.ofCode (f7.extractLsb' 1 2)) (bit1 (f7.extractLsb' 0 1)) sc rd rs1 rs2) := by
  unfold decAmo
  dsimp only
  split
  case h_12 => exact codes_error _
  case h_11 h =>
    refine codes_only fun hc => ⟨rfl, ?_⟩
    rw [eq_ofNat_of_toNat h, show bit1 _ = false by simpa using hc]
    rfl
  all_goals
    next h =>
    refine codes_ok rfl ?_
    rw [eq_ofNat_of_toNat h]
    rfl

theorem decMemF_codes : Codes (decMemF f7 rs2 rs1 rd) (lWord f7 rs2 rs1 7#3 rd 0x2B#7) := by
  unfold decMemF
  dsimp only
  split
  case h_1 h =>
    refine codes_field fun k hk => codes_only fun hc => ⟨rfl, ?_⟩
    obtain ⟨⟨⟨hz, hhi⟩, rfl⟩, rfl⟩ :
        ((f7.extractLsb' 0 1 = 0#1 ∧ rd.extractLsb' 2 3 = 0#3) ∧ rs1 = 0#5) ∧ rs2 = 0#5 := by
      simpa using hc
    have hrd : 0#3 ++ k.code = rd := append_eq_iff.2 ⟨hhi, (FenceKind.code_of_ofCode hk).symm⟩
    rw [← hrd]
    exact some_lWord (append_append_eq_iff.2 ⟨eq_ofNat_of_toNat h, (Scope.code_ofCode _).symm, hz⟩)
  case h_2 h =>
    refine codes_only fun hc => ⟨rfl, ?_⟩
    obtain ⟨⟨hz, rfl⟩, rfl⟩ : (f7.extractLsb' 0 3 = 0#3 ∧ rd = 0#5) ∧ rs2 = 0#5 := by simpa using hc
    exact some_lWord (append_eq_iff.2 ⟨eq_ofNat_of_toNat h, hz⟩)
  case h_3 h =>
    refine codes_only fun hc => ⟨rfl, ?_⟩
    obtain ⟨hz, rfl⟩ : f7.extractLsb' 0 3 = 0#3 ∧ rs2 = 0#5 := by simpa using hc
    exact some_lWord (append_eq_iff.2 ⟨eq_ofNat_of_toNat h, hz⟩)
  case h_4 h =>
    refine codes_only fun hc => ⟨rfl, ?_⟩
    obtain ⟨hz, rfl⟩ : f7.extractLsb' 0 1 = 0#1 ∧ rs2 = 0#5 := by simpa using hc
    exact some_lWord (append_append_eq_iff.2 ⟨eq_ofNat_of_toNat h, (Scope.code_ofCode _).symm, hz⟩)
  case h_5 h =>
    refine codes_only fun hc => ⟨rfl, ?_⟩
    obtain ⟨⟨hz, rfl⟩, rfl⟩ : (f7.extractLsb' 0 1 = 0#1 ∧ rd = 0#5) ∧ rs2 = 0#5 := by simpa using hc
    exact some_lWord (append_append_eq_iff.2 ⟨eq_ofNat_of_toNat h, (Scope.code_ofCode _).symm, hz⟩)
  case h_6 h | h_7 h | h_8 h =>
    refine codes_only fun hc => ⟨rfl, ?_⟩
    obtain ⟨rfl, rfl⟩ : rs1 = 0#5 ∧ rs2 = 0#5 := by simpa using hc
    exact some_lWord (append_eq_iff.2 ⟨eq_ofNat_of_toNat h, rfl⟩)
  case h_9 h =>
    refine codes_only fun hc => ⟨rfl, ?_⟩
    obtain ⟨⟨rfl, rfl⟩, rfl⟩ : (rd = 0#5 ∧ rs1 = 0#5) ∧ rs2 = 0#5 := by simpa using hc
    exact some_lWord (append_eq_iff.2 ⟨eq_ofNat_of_toNat h, rfl⟩)
  case h_10 h =>
    refine codes_only fun hc => ⟨rfl, ?_⟩
    obtain ⟨hz, rfl⟩ : f7.extractLsb' 2 1 = 0#1 ∧ rd = 0#5 := by simpa using hc
    exact some_lWord (append_append_append_eq_iff.2
      ⟨eq_ofNat_of_toNat h, hz, (boolBit_bit1 _).symm, (boolBit_bit1 _).symm⟩)
  case h_11 => exact codes_error _

/-- The funct3 that selects the atomics of a scope (R44). -/
def Scope.amoF3 : Scope → BitVec 3
  | .th => 3#3 | .cv => 4#3 | .dv => 5#3 | .sy => 6#3

theorem amoWord_fields (sc : Scope) (hf3 : f3 = sc.amoF3) :
    amoWord (f7.extractLsb' 3 4) (AmoOrd.ofCode (f7.extractLsb' 1 2)) (bit1 (f7.extractLsb' 0 1)) sc rd rs1 rs2 =
      lWord f7 rs2 rs1 f3 rd 0x2B#7 := by
  have hf7 : f7.extractLsb' 3 4 ++ f7.extractLsb' 1 2 ++ f7.extractLsb' 0 1 = f7 := append_append_eq_iff.2 ⟨rfl, rfl, rfl⟩
  subst hf3
  cases sc <;> rw [amoWord, AmoOrd.code_ofCode, boolBit_bit1, hf7] <;> rfl

theorem decMem_codes : Codes (decMem f7 rs2 rs1 f3 rd) (lWord f7 rs2 rs1 f3 rd 0x2B#7) := by
  unfold decMem
  split
  case h_1 h => obtain rfl := eq_ofNat_of_toNat h; exact decMemV_codes
  case h_2 h => obtain rfl := eq_ofNat_of_toNat h; exact decMemL_codes
  case h_3 h => obtain rfl := eq_ofNat_of_toNat h; exact decMemS_codes
  case h_4 h => rw [← amoWord_fields .th (eq_ofNat_of_toNat h)]; exact decAmo_codes .th
  case h_5 h => rw [← amoWord_fields .cv (eq_ofNat_of_toNat h)]; exact decAmo_codes .cv
  case h_6 h => rw [← amoWord_fields .dv (eq_ofNat_of_toNat h)]; exact decAmo_codes .dv
  case h_7 h => rw [← amoWord_fields .sy (eq_ofNat_of_toNat h)]; exact decAmo_codes .sy
  case h_8 h0 h1 h2 h3 h4 h5 h6 => obtain rfl := eq_seven_of_ne h0 h1 h2 h3 h4 h5 h6; exact decMemF_codes

/-! ### MXE and SYS (R46-R49) -/

theorem selWord_fields (h : (f7.extractLsb' 3 4).toNat = k) :
    selWord opc f3 (BitVec.ofNat 4 k) (f7.extractLsb' 0 3) rd rs1 rs2 = lWord f7 rs2 rs1 f3 rd opc := by
  have hf7 : BitVec.ofNat 4 k ++ f7.extractLsb' 0 3 = f7 := append_eq_iff.2 ⟨eq_ofNat_of_toNat h, rfl⟩
  rw [selWord, hf7]

/-- AUX in a word of a group is `aux`. -/
theorem selWord_fields_aux {aux : BitVec 3} (h : (f7.extractLsb' 3 4).toNat = k) (haux : f7.extractLsb' 0 3 = aux) :
    selWord opc f3 (BitVec.ofNat 4 k) aux rd rs1 rs2 = lWord f7 rs2 rs1 f3 rd opc := haux ▸ selWord_fields h

theorem decMx_codes : Codes (decMx f7 rs2 rs1 rd) (lWord f7 rs2 rs1 0#3 rd 0x5B#7) := by
  unfold decMx
  dsimp only
  split
  case h_1 h =>
    refine codes_only fun hc => ⟨rfl, ?_⟩
    obtain rfl : rd = 0#5 := by simpa using hc
    exact congrArg some (selWord_fields h)
  case h_2 h | h_6 h | h_10 h =>
    refine codes_only fun hc => ⟨rfl, ?_⟩
    obtain ⟨rfl, rfl⟩ : rd = 0#5 ∧ rs2 = 0#5 := by simpa using hc
    exact congrArg some (selWord_fields h)
  case h_3 h | h_9 h =>
    refine codes_only fun hc => ⟨rfl, ?_⟩
    obtain ⟨⟨rfl, rfl⟩, rfl⟩ : (rd = 0#5 ∧ rs1 = 0#5) ∧ rs2 = 0#5 := by simpa using hc
    exact congrArg some (selWord_fields h)
  case h_4 h =>
    refine codes_only fun hc => ⟨rfl, ?_⟩
    obtain ⟨⟨⟨haux, hd⟩, ha⟩, hb⟩ :
        ((f7.extractLsb' 0 3 = 0#3 ∧ hi0 rd = true) ∧ hi0 rs1 = true) ∧ hi0 rs2 = true := by
      simpa using hc
    change some (selWord _ _ _ _ (z2 (lo3 rd)) (z2 (lo3 rs1)) (z2 (lo3 rs2))) = _
    rw [z2_lo3 hd, z2_lo3 ha, z2_lo3 hb]
    exact congrArg some (selWord_fields_aux h haux)
  case h_5 h =>
    refine codes_only fun hc => ⟨rfl, ?_⟩
    obtain ⟨⟨hd, ha⟩, hb⟩ : (hi0 rd = true ∧ hi0 rs1 = true) ∧ hi0 rs2 = true := by simpa using hc
    change some (selWord _ _ _ _ (z2 (lo3 rd)) (z2 (lo3 rs1)) (z2 (lo3 rs2))) = _
    rw [z2_lo3 hd, z2_lo3 ha, z2_lo3 hb]
    exact congrArg some (selWord_fields h)
  case h_7 h | h_8 h =>
    refine codes_only fun hc => ⟨rfl, ?_⟩
    obtain rfl : rs2 = 0#5 := by simpa using hc
    exact congrArg some (selWord_fields h)
  case h_11 h =>
    refine codes_only fun hc => ⟨rfl, ?_⟩
    obtain ⟨rfl, rfl⟩ : rs1 = 0#5 ∧ rs2 = 0#5 := by simpa using hc
    exact congrArg some (selWord_fields h)
  case h_12 => exact codes_error _

theorem decEng_codes : Codes (decEng f7 rs2 rs1 rd) (lWord f7 rs2 rs1 1#3 rd 0x5B#7) := by
  unfold decEng
  dsimp only
  split
  case h_1 h =>
    refine codes_only fun hc => ⟨rfl, ?_⟩
    obtain ⟨haux, rfl⟩ : f7.extractLsb' 0 3 = 0#3 ∧ rs2 = 0#5 := by simpa using hc
    exact congrArg some (selWord_fields_aux h haux)
  case h_2 h | h_3 h | h_5 h =>
    refine codes_only fun hc => ⟨rfl, ?_⟩
    obtain ⟨haux, rfl⟩ : f7.extractLsb' 0 3 = 0#3 ∧ rd = 0#5 := by simpa using hc
    exact congrArg some (selWord_fields_aux h haux)
  case h_4 h => exact codes_only fun hc => ⟨rfl, congrArg some (selWord_fields_aux h (beq_iff_eq.1 hc))⟩
  case h_6 h =>
    split
    case h_1 haux =>
      refine codes_only fun hc => ⟨rfl, ?_⟩
      obtain ⟨rfl, rfl⟩ : rd = 0#5 ∧ rs2 = 0#5 := by simpa using hc
      exact congrArg some (selWord_fields_aux h (eq_ofNat_of_toNat haux))
    case h_2 haux =>
      refine codes_only fun hc => ⟨rfl, ?_⟩
      obtain ⟨⟨rfl, rfl⟩, rfl⟩ : (rd = 0#5 ∧ rs1 = 0#5) ∧ rs2 = 0#5 := by simpa using hc
      exact congrArg some (selWord_fields_aux h (eq_ofNat_of_toNat haux))
    case h_3 => exact codes_error _
  case h_7 h =>
    refine codes_field fun c hk => codes_only fun hc => ⟨rfl, ?_⟩
    obtain ⟨rfl, rfl⟩ : rs1 = 0#5 ∧ rs2 = 0#5 := by simpa using hc
    exact congrArg some (selWord_fields_aux h (SrpCtr.code_of_ofCode hk).symm)
  case h_8 => exact codes_error _

theorem decMxe_codes : Codes (decMxe f7 rs2 rs1 f3 rd) (lWord f7 rs2 rs1 f3 rd 0x5B#7) := by
  unfold decMxe
  split
  case h_1 h => obtain rfl := eq_ofNat_of_toNat h; exact decMx_codes
  case h_2 h => obtain rfl := eq_ofNat_of_toNat h; exact decEng_codes
  case h_3 h =>
    refine codes_only fun hc => ⟨rfl, ?_⟩
    obtain ⟨⟨hz, ha⟩, hb⟩ : (f7.extractLsb' 5 2 = 0#2 ∧ hi0 rs1 = true) ∧ hi0 rs2 = true := by simpa using hc
    have hrd : rd.extractLsb' 3 2 ++ lo3 rd = rd := append_eq_iff.2 ⟨rfl, rfl⟩
    obtain rfl := eq_ofNat_of_toNat h
    change some (lWord _ (z2 (lo3 rs2)) (z2 (lo3 rs1)) _ (rd.extractLsb' 3 2 ++ lo3 rd) _) = _
    rw [z2_lo3 ha, z2_lo3 hb, hrd]
    exact some_lWord (append_eq_iff.2 ⟨hz, rfl⟩)
  case h_4 => exact codes_error _

theorem decSys_codes : Codes (decSys f7 rs2 rs1 f3 rd) (lWord f7 rs2 rs1 f3 rd 0x7B#7) := by
  unfold decSys
  dsimp only
  split
  case h_1 h3 h =>
    obtain rfl := eq_ofNat_of_toNat h3
    refine codes_field fun d hd => codes_only fun hc => ⟨rfl, ?_⟩
    obtain rfl : rd = 0#5 := by simpa using hc
    exact congrArg some (selWord_fields_aux h (Domain.code_of_ofCode hd).symm)
  case h_2 h3 h | h_3 h3 h | h_4 h3 h | h_6 h3 h | h_12 h3 h | h_18 h3 h | h_19 h3 h | h_22 h3 h =>
    obtain rfl := eq_ofNat_of_toNat h3
    refine codes_only fun hc => ⟨rfl, ?_⟩
    obtain ⟨⟨haux, rfl⟩, rfl⟩ : (f7.extractLsb' 0 3 = 0#3 ∧ rd = 0#5) ∧ rs2 = 0#5 := by simpa using hc
    exact congrArg some (selWord_fields_aux h haux)
  case h_5 h3 h | h_20 h3 h | h_24 h3 h =>
    obtain rfl := eq_ofNat_of_toNat h3
    refine codes_only fun hc => ⟨rfl, ?_⟩
    obtain ⟨haux, rfl⟩ : f7.extractLsb' 0 3 = 0#3 ∧ rs2 = 0#5 := by simpa using hc
    exact congrArg some (selWord_fields_aux h haux)
  case h_7 h3 h | h_23 h3 h =>
    obtain rfl := eq_ofNat_of_toNat h3
    refine codes_only fun hc => ⟨rfl, ?_⟩
    obtain ⟨haux, rfl⟩ : f7.extractLsb' 0 3 = 0#3 ∧ rd = 0#5 := by simpa using hc
    exact congrArg some (selWord_fields_aux h haux)
  case h_8 h3 h | h_9 h3 h | h_10 h3 h | h_11 h3 h | h_13 h3 h | h_17 h3 h =>
    obtain rfl := eq_ofNat_of_toNat h3
    refine codes_only fun hc => ⟨rfl, ?_⟩
    obtain ⟨⟨⟨haux, rfl⟩, rfl⟩, rfl⟩ :
        ((f7.extractLsb' 0 3 = 0#3 ∧ rd = 0#5) ∧ rs1 = 0#5) ∧ rs2 = 0#5 := by simpa using hc
    exact congrArg some (selWord_fields_aux h haux)
  case h_14 h3 h =>
    obtain rfl := eq_ofNat_of_toNat h3
    refine codes_only fun hc => ⟨rfl, ?_⟩
    obtain rfl : rs2 = 0#5 := by simpa using hc
    exact congrArg some (selWord_fields_aux h (Space.code_ofCode _).symm)
  case h_15 h3 h =>
    obtain rfl := eq_ofNat_of_toNat h3
    refine codes_only fun hc => ⟨rfl, ?_⟩
    obtain ⟨⟨haux, rfl⟩, rfl⟩ : (f7.extractLsb' 0 3 = 0#3 ∧ rs1 = 0#5) ∧ rs2 = 0#5 := by simpa using hc
    exact congrArg some (selWord_fields_aux h haux)
  case h_16 h3 h =>
    obtain rfl := eq_ofNat_of_toNat h3
    refine codes_only fun hc => ⟨rfl, ?_⟩
    obtain ⟨rfl, rfl⟩ : rd = 0#5 ∧ rs2 = 0#5 := by simpa using hc
    exact congrArg some (selWord_fields_aux h (Space.code_ofCode _).symm)
  case h_21 h3 h =>
    obtain rfl := eq_ofNat_of_toNat h3
    exact codes_only fun hc => ⟨rfl, congrArg some (selWord_fields_aux h (beq_iff_eq.1 hc))⟩
  case h_25 => exact codes_error _

/-! ### RV64I, M, Zicsr and Zifencei (R32) -/

theorem iWord_append : iWord (f7 ++ rs2) rs1 f3 rd opc = lWord f7 rs2 rs1 f3 rd opc := by
  rw [iWord, immHi_append, immLo_append]

theorem uWord_append : uWord (f7 ++ rs2 ++ rs1 ++ f3) rd opc = lWord f7 rs2 rs1 f3 rd opc := by simp [uWord]

/-- The immediate of a shift by up to 63, and by up to 31: zeros above the amount (R32). -/
theorem shift64_toNat_lt (b : BitVec 1) (lo : BitVec 5) : (0#6 ++ b ++ lo : BitVec 12).toNat < 64 := by
  revert b lo
  decide

theorem shift32_toNat_lt (lo : BitVec 5) : (0#7 ++ lo : BitVec 12).toNat < 32 := by
  revert lo
  decide

theorem eq_five_of_ne {x : BitVec 3} (h0 : x.toNat ≠ 0) (h2 : x.toNat ≠ 2) (h3 : x.toNat ≠ 3) (h4 : x.toNat ≠ 4)
    (h6 : x.toNat ≠ 6) (h7 : x.toNat ≠ 7) (h1 : x.toNat ≠ 1) : x = 5#3 :=
  BitVec.eq_of_toNat_eq (by have hlt := x.isLt; simp only [BitVec.toNat_ofNat]; omega)

theorem decOpImm_codes : Codes (decOpImm f7 rs2 rs1 f3 rd) (lWord f7 rs2 rs1 f3 rd 0x13#7) := by
  unfold decOpImm
  split
  case h_1 h | h_2 h | h_3 h | h_4 h | h_5 h | h_6 h =>
    obtain rfl := eq_ofNat_of_toNat h
    exact codes_ok rfl (congrArg some iWord_append)
  case h_7 h =>
    obtain rfl := eq_ofNat_of_toNat h
    refine codes_only fun hc => ⟨decide_eq_true (shift64_toNat_lt _ _), ?_⟩
    exact (congrArg some iWord_append).trans (some_lWord (append_eq_iff.2 ⟨beq_iff_eq.1 hc, rfl⟩))
  case h_8 h0 h2 h3 h4 h6 h7 h1 =>
    obtain rfl := eq_five_of_ne h0 h2 h3 h4 h6 h7 h1
    split
    case h_1 h =>
      refine codes_ok (decide_eq_true (shift64_toNat_lt _ _)) ?_
      exact (congrArg some iWord_append).trans (some_lWord (append_eq_iff.2 ⟨eq_ofNat_of_toNat h, rfl⟩))
    case h_2 h =>
      refine codes_ok (decide_eq_true (shift64_toNat_lt _ _)) ?_
      change some (lWord (0x20#7 ||| immHi (_ ++ _)) (immLo (_ ++ _)) _ _ _ _) = _
      rw [immHi_append, immLo_append, sraiHi]
      exact some_lWord (append_eq_iff.2 ⟨eq_ofNat_of_toNat h, rfl⟩)
    case h_3 => exact codes_error _

theorem decOpImm32_codes : Codes (decOpImm32 f7 rs2 rs1 f3 rd) (lWord f7 rs2 rs1 f3 rd 0x1B#7) := by
  unfold decOpImm32
  split
  case h_1 h =>
    obtain rfl := eq_ofNat_of_toNat h
    exact codes_ok rfl (congrArg some iWord_append)
  case h_2 h =>
    obtain rfl := eq_ofNat_of_toNat h
    refine codes_only fun hc => ⟨decide_eq_true (shift32_toNat_lt _), ?_⟩
    obtain rfl : f7 = 0#7 := by simpa using hc
    change some (lWord _ (immLo (_ ++ _)) _ _ _ _) = _
    rw [immLo_append]
  case h_3 h =>
    obtain rfl := eq_ofNat_of_toNat h
    split
    case h_1 h' | h_2 h' =>
      obtain rfl := eq_ofNat_of_toNat h'
      refine codes_ok (decide_eq_true (shift32_toNat_lt _)) ?_
      change some (lWord _ (immLo (_ ++ _)) _ _ _ _) = _
      rw [immLo_append]
    case h_3 => exact codes_error _
  case h_4 => exact codes_error _

theorem decSystem_codes : Codes (decSystem f7 rs2 rs1 f3 rd) (lWord f7 rs2 rs1 f3 rd 0x73#7) := by
  unfold decSystem
  split
  case h_1 h =>
    obtain rfl := eq_ofNat_of_toNat h
    split
    case isFalse => exact codes_error _
    case isTrue hc =>
      obtain ⟨⟨rfl, rfl⟩, rfl⟩ : (f7 = 0#7 ∧ rs1 = 0#5) ∧ rd = 0#5 := by simpa using hc
      split
      case h_1 h' | h_2 h' => obtain rfl := eq_ofNat_of_toNat h'; exact codes_ok rfl rfl
      case h_3 => exact codes_error _
  case h_2 h | h_3 h | h_4 h | h_5 h | h_6 h | h_7 h =>
    obtain rfl := eq_ofNat_of_toNat h
    exact codes_ok rfl (congrArg some iWord_append)
  case h_8 => exact codes_error _

theorem decodeFields_codes : Codes (decodeFields f7 rs2 rs1 f3 rd opc) (lWord f7 rs2 rs1 f3 rd opc) := by
  unfold decodeFields
  split
  case h_18 => exact codes_error _
  case h_1 h =>
    obtain rfl := eq_ofNat_of_toNat h
    refine codes_field fun o ho => codes_ok rfl ?_
    obtain rfl := LoadOp.code_of_ofCode ho
    exact congrArg some iWord_append
  case h_2 h => obtain rfl := eq_ofNat_of_toNat h; exact decVec_codes
  case h_3 h =>
    obtain rfl := eq_ofNat_of_toNat h
    split
    case h_1 h | h_2 h =>
      obtain rfl := eq_ofNat_of_toNat h
      exact codes_ok rfl (congrArg some iWord_append)
    case h_3 => exact codes_error _
  case h_4 h => obtain rfl := eq_ofNat_of_toNat h; exact decOpImm_codes
  case h_5 h | h_10 h => obtain rfl := eq_ofNat_of_toNat h; exact codes_ok rfl (congrArg some uWord_append)
  case h_6 h => obtain rfl := eq_ofNat_of_toNat h; exact decOpImm32_codes
  case h_7 h =>
    obtain rfl := eq_ofNat_of_toNat h
    refine codes_only fun hc => ⟨rfl, ?_⟩
    have hf3 : 0#1 ++ (Size.ofCode (f3.extractLsb' 0 2)).code = f3 := by
      have := of_decide_eq_true hc
      clear hc
      revert f3
      decide
    change some (lWord (immHi (_ ++ _)) _ _ (0#1 ++ (Size.ofCode _).code) (immLo (_ ++ _)) _) = _
    rw [immHi_append, immLo_append, hf3]
  case h_8 h => obtain rfl := eq_ofNat_of_toNat h; exact decMem_codes
  case h_9 h =>
    obtain rfl := eq_ofNat_of_toNat h
    refine codes_field fun o ho => codes_ok rfl ?_
    change some (lWord o.code.1 _ _ o.code.2 _ _) = _
    rw [RegOp.code_of_ofCode ho]
  case h_11 h =>
    obtain rfl := eq_ofNat_of_toNat h
    refine codes_field fun o ho => codes_ok rfl ?_
    change some (lWord o.code.1 _ _ o.code.2 _ _) = _
    rw [Reg32Op.code_of_ofCode ho]
  case h_12 h => obtain rfl := eq_ofNat_of_toNat h; exact decMxe_codes
  case h_13 h =>
    obtain rfl := eq_ofNat_of_toNat h
    refine codes_field fun o ho => codes_ok rfl ?_
    obtain rfl := BranchOp.code_of_ofCode ho
    obtain ⟨hhi, hlo⟩ := hi_lo_branchOff f7 rd
    change some (lWord (branchHi _) _ _ _ (branchLo _) _) = _
    rw [hhi, hlo]
  case h_14 h =>
    obtain rfl := eq_ofNat_of_toNat h
    refine codes_only fun hc => ⟨rfl, ?_⟩
    obtain rfl : f3 = 0#3 := by simpa using hc
    exact congrArg some iWord_append
  case h_15 h =>
    obtain rfl := eq_ofNat_of_toNat h
    refine codes_ok rfl ?_
    change some (uWord (jalBits (jalOff _)) _ _) = _
    rw [jalBits_jalOff, uWord_append]
  case h_16 h => obtain rfl := eq_ofNat_of_toNat h; exact decSystem_codes
  case h_17 h => obtain rfl := eq_ofNat_of_toNat h; exact decSys_codes

end Decoders

/-- The decoder answers only the instruction whose word it was given. -/
theorem decodeL_codes (w : BitVec 32) : Codes (decodeL w) w := by
  rw [← lWord_fields w, decodeL_lWord]
  exact decodeFields_codes

end Sys2Proof

open Sys2Proof

/-- Settles O54: each decoder of the tables reads back the fields of the layouts that the encoder writes, and the other
way round. -/
theorem lanternCodec : Obligations.LanternCodec :=
  fun i w => ⟨decodeL_encodeL, decodeL_codes w i⟩
end

section
/-! The words of the G-set (R51-R57): the fields of a node's word read back, the table of opcodes both ways, and O55, which
they settle. -/

namespace Sys2Proof

open Machine

/-! ## The table of opcodes (R54) -/

/-- The word of the node that an opcode names has that opcode. -/
theorem encodeG_gNode {opc : BitVec 8} {n : GNode} {i : Instr} (h : gNode opc n = some i) :
    encodeG i = some (n.word opc) := by
  unfold gNode at h
  split at h
  case h_87 => cases h
  all_goals
    next hopc =>
    cases h
    rw [eq_ofNat_of_toNat hopc]
    rfl

/-- A word of a node has an opcode that names it. -/
theorem gNode_of_encodeG {i : Instr} {w : BitVec 64} (h : encodeG i = some w) :
    ∃ opc n, gNode opc n = some i ∧ n.word opc = w := by
  cases i <;> cases h <;> exact ⟨_, _, rfl, rfl⟩

theorem isSome_encodeG {i : Instr} (h : (nodeOf i).isSome = true) : (encodeG i).isSome = true := by
  cases i <;> cases h <;> rfl

/-! ## The fields of a node's word (R51) -/

@[simp] theorem Act.ofCode_code (a : Act) : Act.ofCode a.code = a := by cases a <;> rfl
@[simp] theorem Act.code_ofCode (c : BitVec 2) : (Act.ofCode c).code = c := by revert c; decide
@[simp] theorem Pred.ofCode_code (p : Pred) : Pred.ofCode p.code = some p := by cases p <;> rfl
theorem Pred.code_of_ofCode {c : BitVec 2} {p : Pred} (h : Pred.ofCode c = some p) : p.code = c := by
  revert c p; decide

/-- The node of a word's fields, its predicate given. -/
def nodeFields (w : BitVec 64) (p : Pred) : GNode :=
  { fmt := Fmt.ofCode (w.extractLsb' 53 3), any := bit1 (w.extractLsb' 52 1), pred := p,
    act := Act.ofCode (w.extractLsb' 48 2), t0 := w.extractLsb' 38 10, t1 := w.extractLsb' 28 10,
    tm := w.extractLsb' 18 10, imm := w.extractLsb' 0 18 }

theorem only_wf_eq_ok_iff {i j : Instr} : only j.wf j = .ok i ↔ j = i ∧ i.wf = true := by
  unfold only
  split
  · next hwf =>
    refine ⟨fun h => ?_, ?_⟩
    · cases h
      exact ⟨rfl, hwf⟩
    · rintro ⟨rfl, -⟩
      rfl
  · next hwf =>
    refine ⟨fun h => ?_, ?_⟩
    · cases h
    · rintro ⟨rfl, h⟩
      exact absurd h hwf

theorem decodeG_eq_ok_iff {w : BitVec 64} {i : Instr} : decodeG w = .ok i ↔
    ∃ p, Pred.ofCode (w.extractLsb' 50 2) = some p ∧
      gNode (w.extractLsb' 56 8) (nodeFields w p) = some i ∧ i.wf = true := by
  unfold decodeG nodeFields
  cases Pred.ofCode (w.extractLsb' 50 2) with
  | none => simp [field]
  | some p =>
    simp only [field, Option.some.injEq, exists_eq_left']
    split
    · next hg => simp [hg]
    · next j hg => simp [hg, only_wf_eq_ok_iff]

theorem word_nodeFields {w : BitVec 64} {p : Pred} (h : Pred.ofCode (w.extractLsb' 50 2) = some p) :
    (nodeFields w p).word (w.extractLsb' 56 8) = w := by
  simp (disch := rfl) only [GNode.word, nodeFields, Pred.code_of_ofCode h, Fmt.code_ofCode, boolBit_bit1, Act.code_ofCode,
    BitVec.extractLsb'_append_extractLsb'_eq_extractLsb']
  exact BitVec.extractLsb'_eq_self

theorem fields_word (n : GNode) (opc : BitVec 8) :
    (n.word opc).extractLsb' 50 2 = n.pred.code ∧ (n.word opc).extractLsb' 56 8 = opc
    ∧ nodeFields (n.word opc) n.pred = n := by
  let x := opc ++ n.fmt.code ++ boolBit n.any ++ n.pred.code ++ n.act.code ++ n.t0 ++ n.t1 ++ n.tm ++ n.imm
  change x.extractLsb' 50 2 = _ ∧ x.extractLsb' 56 8 = _ ∧
    { fmt := Fmt.ofCode (x.extractLsb' 53 3), any := bit1 (x.extractLsb' 52 1), pred := n.pred,
      act := Act.ofCode (x.extractLsb' 48 2), t0 := x.extractLsb' 38 10, t1 := x.extractLsb' 28 10,
      tm := x.extractLsb' 18 10, imm := x.extractLsb' 0 18 : GNode } = n
  simp (disch := decide) only [x, BitVec.extractLsb'_append_eq_of_add_le, BitVec.extractLsb'_append_eq_of_le,
    Nat.reduceSub, BitVec.extractLsb'_eq_self, Fmt.ofCode_code, bit1_boolBit, Act.ofCode_code, and_self]

end Sys2Proof

open Sys2Proof

/-- Settles O55: the decoder reads back the fields and the opcode that the encoder writes, and the other way round. -/
theorem nodeCodec : Obligations.NodeCodec := by
  intro i w
  refine ⟨isSome_encodeG, fun hwf hword => ?_, fun h => ?_⟩
  · obtain ⟨opc, n, hnode, rfl⟩ := gNode_of_encodeG hword
    obtain ⟨hpred, hopc, hn⟩ := fields_word n opc
    exact decodeG_eq_ok_iff.2 ⟨n.pred, by rw [hpred, Pred.ofCode_code], by rw [hopc, hn, hnode], hwf⟩
  · obtain ⟨p, hp, hnode, hwf⟩ := decodeG_eq_ok_iff.1 h
    refine ⟨hwf, ?_⟩
    rw [encodeG_gNode hnode, word_nodeFields hp]
end

section
/-! O56: words that the spec writes out, and the words that are no instruction of 32 bits (R31). -/

namespace Sys2Proof

/-- A word whose bits [1:0] are not 0b11 is none of the L-set: no major opcode of the tables ends otherwise (R31). -/
theorem decodeFields_compressed {f7 : BitVec 7} {rs2 rs1 rd : BitVec 5} {f3 : BitVec 3} {opc : BitVec 7}
    (h : opc.extractLsb' 0 2 ≠ 3#2) : decodeFields f7 rs2 rs1 f3 rd opc = .error .compressed := by
  unfold decodeFields
  split
  case h_18 => simp [h]
  all_goals
    next hopc =>
    rw [eq_ofNat_of_toNat hopc] at h
    exact absurd rfl h

theorem decodeL_compressed {w : BitVec 32} (h : w.extractLsb' 0 2 ≠ 3#2) : decodeL w = .error .compressed :=
  decodeFields_compressed (by rwa [BitVec.extractLsb'_extractLsb'_of_le (by decide)])

end Sys2Proof

open Sys2Proof

/-- Settles O56: each word is read by the decoder of its major opcode; one whose low bits are not 0b11 by none. -/
theorem decodeWords : Obligations.DecodeWords :=
  ⟨rfl, rfl, rfl, rfl, rfl, rfl, rfl, rfl, fun _ => decodeL_compressed, rfl, rfl, rfl⟩
end

section
/-! No instruction and no event stops the machine (R60, R413, R414, R418): every one answers a next state, and O58. -/

namespace Sys2Proof.Machine

/-- The outcome is a next state. -/
def GoesOn (o : Out) : Prop := ∃ t, o = .next t

theorem goesOn_next (s : State) : GoesOn (.next s) := ⟨s, rfl⟩

theorem goesOn_commit (s : State) (r : Except Trap State) : GoesOn (s.commit r) := by
  cases r <;> exact goesOn_next _

variable (s : State)

/-! ## The operations that many instructions and events share -/

theorem goesOn_mxExec (i : Instr) (td : Option Nat) (r : Except Trap State) : GoesOn (mxExec i td s r) := by
  unfold mxExec
  split
  · split <;> exact goesOn_next _
  exact goesOn_next _

theorem goesOn_runNode (i : Instr) (act : Firing → State → NodeOut) : GoesOn (runNode i s act) := by
  unfold runNode
  dsimp only
  split <;> exact goesOn_next _

theorem goesOn_command (q : Nat) (ev : Ev) (cmd : Nat) (hostOnly : Bool) (p : MPkt) (run : State → Cmd) :
    GoesOn (command s q ev cmd hostOnly p run) := by
  unfold command
  dsimp only
  split
  · exact goesOn_next _
  split
  · exact goesOn_next _
  split <;> exact goesOn_next _

theorem goesOn_dispatchPkt (q : Nat) (check : Agent → LaunchPkt → Bool)
    (start : Agent → LaunchPkt → State → Dispatched) :
    GoesOn (dispatchPkt s q check start) := by
  unfold dispatchPkt
  dsimp only
  split
  · exact goesOn_next _
  split
  · exact goesOn_next _
  split
  · exact goesOn_next _
  split
  · exact goesOn_next _
  split <;> exact goesOn_next _

theorem goesOn_buoyArrive (rk : RKey) (buoy : Nat) (t : Token) (src : Option (RKey × IKey)) :
    GoesOn (buoyArrive rk buoy t src s) := by
  unfold buoyArrive
  dsimp only
  split
  · exact goesOn_next _
  split
  · exact goesOn_next _
  split
  · exact goesOn_next _
  split
  · exact goesOn_next _
  split
  · exact goesOn_next _
  split <;> exact goesOn_next _

/-! ## Instructions and events with an outcome for each of their branches -/

theorem goesOn_execMatchRefill (rk : RKey) (x y : Nat) : GoesOn (execMatchRefill rk x y s) := by
  unfold execMatchRefill
  dsimp only
  split
  · split <;> exact goesOn_next _
  split <;> exact goesOn_next _

theorem goesOn_execCountToken (rk : RKey) (ik : IKey) (idx : Nat) (null : Bool) :
    GoesOn (execCountToken rk ik idx null s) := by
  unfold execCountToken
  dsimp only
  split <;> exact goesOn_next _

theorem goesOn_execMemoryReply (rk : RKey) (ik : IKey) (idx : Nat) : GoesOn (execMemoryReply rk ik idx s) := by
  unfold execMemoryReply
  dsimp only
  split
  · exact goesOn_next _
  split
  · split
    · exact goesOn_next _
    split <;> exact goesOn_next _
  split
  · exact goesOn_next _
  split
  · exact goesOn_next _
  split <;> exact goesOn_next _

theorem goesOn_execTideTmo (slot : Nat) : GoesOn (execTideTmo slot s) := by
  unfold execTideTmo
  dsimp only
  split
  · split
    · exact goesOn_next _
    split <;> exact goesOn_next _
  exact goesOn_next _

theorem goesOn_execCoalesceDrainTimeout (core line : Nat) : GoesOn (execCoalesceDrainTimeout core line s) := by
  unfold execCoalesceDrainTimeout
  dsimp only
  split
  · exact goesOn_next _
  split <;> exact goesOn_next _

theorem goesOn_execTgateDeadline (rk : RKey) (ik : IKey) (idx : Nat) : GoesOn (execTgateDeadline rk ik idx s) := by
  unfold execTgateDeadline
  dsimp only
  split
  · exact goesOn_next _
  split <;> exact goesOn_next _

theorem goesOn_execGFaultReport (rk : RKey) (ik : IKey) : GoesOn (execGFaultReport rk ik s) := by
  unfold execGFaultReport
  dsimp only
  split <;> exact goesOn_next _

theorem goesOn_execSpillSaveComplete (slot : Nat) : GoesOn (execSpillSaveComplete slot s) := by
  unfold execSpillSaveComplete
  dsimp only
  split
  · split
    · exact goesOn_next _
    split
    · exact goesOn_next _
    split
    · exact goesOn_next _
    split <;> exact goesOn_next _
  exact goesOn_next _

theorem goesOn_execRotationBoundary (core : Nat) : GoesOn (execRotationBoundary core s) := by
  unfold execRotationBoundary
  dsimp only
  split <;> exact goesOn_next _

theorem goesOn_execHandoverToken (rk : RKey) (x y : Nat) : GoesOn (execHandoverToken rk x y s) := by
  unfold execHandoverToken
  dsimp only
  split <;> exact goesOn_next _

theorem goesOn_execCellSave (rk : RKey) (x y : Nat) : GoesOn (execCellSave rk x y s) := by
  unfold execCellSave
  dsimp only
  split
  · exact goesOn_next _
  split
  · exact goesOn_next _
  split <;> exact goesOn_next _

theorem goesOn_execSlackWaveEnd (rk : RKey) : GoesOn (execSlackWaveEnd rk s) := by
  unfold execSlackWaveEnd
  dsimp only
  split
  · exact goesOn_next _
  split
  · exact goesOn_next _
  split <;> exact goesOn_next _

theorem goesOn_execRegionRestore (rk : RKey) : GoesOn (execRegionRestore rk s) := by
  unfold execRegionRestore
  dsimp only
  split
  · exact goesOn_next _
  split
  · exact goesOn_next _
  split
  · exact goesOn_next _
  · exact goesOn_next _
  split <;> exact goesOn_next _

theorem goesOn_execOverlayLoadComplete (rk : RKey) (x y slot : Nat) :
    GoesOn (execOverlayLoadComplete rk x y slot s) := by
  unfold execOverlayLoadComplete
  dsimp only
  split
  · exact goesOn_next _
  split
  · exact goesOn_next _
  split
  · exact goesOn_next _
  split
  · exact goesOn_next _
  split <;> exact goesOn_next _

theorem goesOn_execMoorDelivery (vmid : Nat) (desc : Word) : GoesOn (execMoorDelivery vmid desc s) := by
  unfold execMoorDelivery
  dsimp only
  split
  · exact goesOn_next _
  split
  · exact goesOn_next _
  split <;> exact goesOn_next _

theorem goesOn_execHostMemoryAccess (write : Bool) (pa n : Nat) (data : List Byte) :
    GoesOn (execHostMemoryAccess write pa n data s) := by
  unfold execHostMemoryAccess
  dsimp only
  split
  · exact goesOn_next _
  split <;> exact goesOn_next _

theorem goesOn_execPowerSample (mw : Nat) (temps : List Int) : GoesOn (execPowerSample mw temps s) := by
  unfold execPowerSample
  dsimp only
  split <;> exact goesOn_next _

theorem goesOn_execTodMessage (bytes : List Byte) : GoesOn (execTodMessage bytes s) := by
  unfold execTodMessage
  dsimp only
  split <;> exact goesOn_next _

theorem goesOn_execMxComplete (core : Nat) : GoesOn (execMxComplete core s) := by
  unfold execMxComplete
  dsimp only
  split
  · exact goesOn_next _
  split <;> exact goesOn_next _

theorem goesOn_execMxWait (td : TdReg) : GoesOn (execMxWait td s) := by
  unfold execMxWait
  split
  · exact goesOn_next _
  split
  · exact goesOn_next _
  exact goesOn_mxExec ..

theorem goesOn_execSleepDeadline (slot : Nat) : GoesOn (execSleepDeadline slot s) := by
  unfold execSleepDeadline
  split <;> exact goesOn_next _

theorem goesOn_execL2WriteForward (cove line : Nat) : GoesOn (execL2WriteForward cove line s) := by
  unfold execL2WriteForward
  split
  · exact goesOn_next _
  split
  · exact goesOn_next _
  split <;> exact goesOn_next _

theorem goesOn_execL1dLineExpiry (core line : Nat) : GoesOn (execL1dLineExpiry core line s) := by
  unfold execL1dLineExpiry
  split <;> exact goesOn_next _

theorem goesOn_execCopyComplete (cove id : Nat) : GoesOn (execCopyComplete cove id s) := by
  unfold execCopyComplete
  dsimp only
  split
  · exact goesOn_next _
  split <;> exact goesOn_next _

theorem goesOn_execCopyPause (cove id : Nat) : GoesOn (execCopyPause cove id s) := by
  unfold execCopyPause
  split
  · exact goesOn_next _
  split <;> exact goesOn_next _

theorem goesOn_execReplayCopyComplete (quad vmid key : Nat) : GoesOn (execReplayCopyComplete quad vmid key s) := by
  unfold execReplayCopyComplete
  dsimp only
  split <;> exact goesOn_next _

theorem goesOn_execRecordCopyComplete (quad vmid key : Nat) : GoesOn (execRecordCopyComplete quad vmid key s) := by
  unfold execRecordCopyComplete
  dsimp only
  split <;> exact goesOn_next _

theorem goesOn_execSpillRestore (slot : Nat) : GoesOn (execSpillRestore slot s) := by
  unfold execSpillRestore
  dsimp only
  split
  · split
    · exact goesOn_next _
    split
    · exact goesOn_next _
    split <;> exact goesOn_next _
  exact goesOn_next _

theorem goesOn_execPtmExchange (ptm : Word) : GoesOn (execPtmExchange ptm s) := by
  unfold execPtmExchange
  split <;> exact goesOn_next _

theorem goesOn_execPpsEdge : GoesOn (execPpsEdge s) := by
  unfold execPpsEdge
  dsimp only
  split
  · exact goesOn_next _
  split <;> exact goesOn_next _

theorem goesOn_execTimeHoldover : GoesOn (execTimeHoldover s) := by
  unfold execTimeHoldover
  dsimp only
  split
  · exact goesOn_next _
  split <;> exact goesOn_next _

/-! ## Every event and every instruction -/

/-- What is in flight answers a next state when it takes effect. -/
theorem goesOn_runEv (e : Ev) : GoesOn (runEv e s) := by
  cases e
  case tenantCreate | tenantDestroy | queueBind | queueUnbind | windowMap | tideSet | tlbShoot | genWrap | fenceUnit
      | islandSet | powerCap | timeSet | timeCfg | imageVerify | attestQuote | fwUpdate | debugRead | debugWrite
      | infoRead | countRead | traceCfg | regionSwap | badcmd => dsimp only [runEv]; exact goesOn_command ..
  case lTaskLaunch | gLaunch => dsimp only [runEv]; exact goesOn_dispatchPkt ..
  case buoyTokenArrival => exact goesOn_buoyArrive ..
  case dequePop | dequeSteal | joinwinExpiry | messageArrival | msgOverflowWrite | messageDelivery | missFillArrival
      | tlbWalkComplete | divComplete | meshBurstMerge | syncLoadComplete | boundedLoadComplete | amoComplete
      | lockGranted | patrolScrub | copyStart | copyBeat | srpVerdict | tokenMatch | instanceCommit | commitToken
      | controlTokenArrival | streamLoopStart | streamLoopFinish | placementRequest | packetIngress | tsyncWrite
      | registerWriteIgnored | genWrapComplete | islandFreqChange | powerTrace | coldReset | warmReset
      | supplyOutOfLimits | illegalInstruction | fetchPageX | placerComplete | msixUnmask | queueWindowWrite =>
    exact goesOn_next _
  case matchRefill => exact goesOn_execMatchRefill ..
  case countToken => exact goesOn_execCountToken ..
  case memoryReply => exact goesOn_execMemoryReply ..
  case tideTmo => exact goesOn_execTideTmo ..
  case coalesceDrainTimeout => exact goesOn_execCoalesceDrainTimeout ..
  case tgateDeadline => exact goesOn_execTgateDeadline ..
  case gFaultReport => exact goesOn_execGFaultReport ..
  case spillSaveComplete => exact goesOn_execSpillSaveComplete ..
  case rotationBoundary => exact goesOn_execRotationBoundary ..
  case handoverToken => exact goesOn_execHandoverToken ..
  case cellSave => exact goesOn_execCellSave ..
  case slackWaveEnd => exact goesOn_execSlackWaveEnd ..
  case regionRestore => exact goesOn_execRegionRestore ..
  case overlayLoadComplete => exact goesOn_execOverlayLoadComplete ..
  case moorDelivery => exact goesOn_execMoorDelivery ..
  case hostMemoryAccess _ _ n _ => exact goesOn_execHostMemoryAccess s _ _ n _
  case powerSample => exact goesOn_execPowerSample ..
  case todMessage => exact goesOn_execTodMessage ..
  case mxComplete => exact goesOn_execMxComplete ..
  case sleepDeadline => exact goesOn_execSleepDeadline ..
  case l2WriteForward => exact goesOn_execL2WriteForward ..
  case l1dLineExpiry => exact goesOn_execL1dLineExpiry ..
  case copyComplete => exact goesOn_execCopyComplete ..
  case copyPause => exact goesOn_execCopyPause ..
  case replayCopyComplete => exact goesOn_execReplayCopyComplete ..
  case recordCopyComplete => exact goesOn_execRecordCopyComplete ..
  case spillRestore => exact goesOn_execSpillRestore ..
  case ptmExchange => exact goesOn_execPtmExchange ..
  case ppsEdge => exact goesOn_execPpsEdge ..
  case timeHoldover => exact goesOn_execTimeHoldover ..

/-- An instruction of either set answers what it does, or the trap it takes. -/
theorem goesOn_exec_of_noEvent {i : Instr} (hi : eventOf i = none) : GoesOn (exec i s) := by
  cases i
  case load | store | opImm | opImm32 | op | op32 | lui | auipc | jal | jalr | branch | csrrw
      | csrrs | csrrc | csrrwi | csrrsi | csrrci | vadd | vsub | vmul | vfma | vmin | vmax | vand | vor | vxor
      | vsll | vsrl | vsra | vclt | vcle | vceq | vsel | vdiv | vsqrt | vrcp | vexp2 | vlog2 | vrsum | vrmax | vrmin
      | vperm | vslide | vsplat | vxtr | vcvt | vq | vdq | vrng | vscan | vmov | vld | vst | vlds | vsts | vlx | vsx
      | vldS | bufld | bufst | vldB | ldS | ldSe | ldB | ldAcq | stRel | feSet | feClr | amoAdd | amoAnd | amoOr
      | amoXor | amoMin | amoMax | amoMinu | amoMaxu | amoSwap | amoCas | amoFadd | tideAdv | tideRd | lkTake
      | lkGive | qGet | vqGet | qStat | mxStat | cpPost | cpResume | cpCancel | cpBind | post | srpProbe | srpRec
      | srpInv | srpStat | fork | join | xcall | xret | frmNew | frmFree | msgSend | msgRet | sleepT | genRd
      | genNew | genScrub | tret | gctxRes | gctxKill | plcFind | plcLoad | plcRel | cfgWr | cfgWrRestamp | cfgChk =>
    exact goesOn_commit ..
  case mxDesc | mxTcfg | mxTcfgRoute | mxZero | mxMma | mxMmq | mxMms | mxDrn | mxRd | mxWr | mxRowp =>
    exact goesOn_mxExec ..
  case gAdd | gSub | gMul | gMulh | gDiv | gRem | gAnd | gOr | gXor | gShl | gShr | gSra | gMin | gMax | gTlt | gTle
      | gTeq | gTne | gTltu | gTleu | gFadd | gFsub | gFmul | gFfma | gFmin | gFmax | gFdiv | gFsqrt | gFrcp
      | gFexp2 | gFlog2 | gFlt | gFle | gFeq | gCvt | gQcvt | gDq | gRng | gMov | gMovi | gFrd | gFwr | gNull
      | gSteer | gMerge | gOmerge | gBro | gCall | gRet | gCcall | gTrap | gInx | gFnew | gFfree | gTget | gTset
      | gPurge | gLd | gSt | gLdb | gLda | gStrl | gIrd | gIwr | gFence | gPref | gAmo | gLkt | gLkg | gMcomb
      | gPost | gGat | gSct | gCpy | gTadv | gProbe | gRec | gSgen | gRpt | gCnt | gCtok | gDly | gMxp | gFin
      | gTnow | gTgate => exact goesOn_runNode ..
  case fence | fenceI | fenceSc | qClose | pref | srpInvAll | msgMsk | msgUnm | wait | yield => exact goesOn_next _
  case mxWait => exact goesOn_execMxWait ..
  case ecall | ebreak => exact goesOn_next _
  all_goals cases hi

/-- Every row of the table of operations and events answers a next state: what it does, or the trap it takes. -/
theorem goesOn_exec (i : Instr) : GoesOn (exec i s) := by
  cases hi : eventOf i with
  | some e => exact runEv_of_eventOf hi s ▸ goesOn_runEv s e
  | none => exact goesOn_exec_of_noEvent s hi

/-! ## Every move -/

theorem goesOn_runWork (w : Work) : GoesOn (runWork w s) := by
  cases w with
  | ev e => exact goesOn_runEv s e
  | node i f => exact goesOn_exec _ i

theorem goesOn_afterIssue (n : Nat) {o : Out} (h : GoesOn o) : GoesOn (afterIssue n o) := by
  obtain ⟨t, rfl⟩ := h
  exact goesOn_next _

theorem goesOn_fetchExec : GoesOn (fetchExec s) := by
  unfold fetchExec
  split
  · split <;> exact goesOn_next _
  split
  · exact goesOn_next _
  split
  · exact goesOn_exec _ _
  · exact goesOn_next _

theorem goesOn_issueSlot (n : Nat) : GoesOn (issueSlot n s) := by
  unfold issueSlot
  dsimp only
  split
  · exact goesOn_exec _ (.messageDelivery n)
  split
  · exact goesOn_afterIssue n (goesOn_fetchExec _)
  · exact goesOn_afterIssue n (goesOn_exec _ _)
  · split
    · exact goesOn_exec _ (.dequePop n)
    · exact goesOn_exec _ (.dequeSteal n)
  · exact goesOn_next _

theorem goesOn_readySlot (n : Nat) : GoesOn (readySlot n s) := by
  unfold readySlot
  split
  · exact goesOn_exec s (.syncLoadComplete n)
  · exact goesOn_exec s (.boundedLoadComplete n)
  · exact goesOn_exec s (.sleepDeadline n)
  · exact goesOn_next _
  · exact goesOn_afterIssue n (goesOn_exec _ _)
  · exact goesOn_afterIssue n (goesOn_exec _ _)
  · exact goesOn_next _

theorem goesOn_runDuty (k : Nat) : GoesOn (runDuty k s) := by
  unfold runDuty
  split
  · exact goesOn_next _
  · exact goesOn_runWork _ _

theorem goesOn_natural : GoesOn (natural s) := by
  unfold natural
  split
  · exact goesOn_next _
  split
  · exact goesOn_runDuty _ _
  split
  · exact goesOn_readySlot _ _
  split
  · exact goesOn_issueSlot _ _
  · exact goesOn_next _

theorem goesOn_runTurn (t : Turn) : GoesOn (runTurn t s) := by
  cases t with
  | pass n => exact goesOn_next _
  | issue n => exact goesOn_issueSlot s n
  | duty k => exact goesOn_runDuty s k
  | event e => exact goesOn_runEv s e

theorem goesOn_moveNext : GoesOn (moveNext s) := by
  unfold moveNext
  split
  · exact goesOn_runTurn _ _
  · exact goesOn_natural s

theorem step_of_off (hoff : s.mgmt.off = true) (hreset : s.resets = false) : step s = .fault .powerOff := by
  simp [step, hoff, hreset]

end Sys2Proof.Machine

open Sys2Proof Sys2Proof.Machine

/-- Settles O58: every row of the table of operations and events answers a next state (`goesOn_exec`), so every move
does, and a step that has power, or releases the module from reset, is its next move. -/
theorem nothingStops : Obligations.NothingStops :=
  ⟨fun i s => goesOn_exec s i, fun s => ⟨step_of_off s, fun hpower => step_of_power hpower ▸ goesOn_moveNext s⟩⟩
end

section
/-! Traps of an instruction's own (R33, R36, R414, R417): privilege, the checks of a CSR's number, and the return from a
trap; O7, O9 and O10. -/

namespace Sys2Proof.Machine

variable {s : State}

/-! ## Privilege (R36) -/

theorem needSup_of_sup (h : s.me.sup = true) (i : Instr) : s.needSup i = .ok () := by
  simp [State.needSup, h]

theorem needSup_of_user (h : s.me.sup = false) (i : Instr) :
    s.needSup i = .error { cause := 0x02, tval := codeOf i } := by
  simp [State.needSup, h, cPRIV, codeOf, wordOf]

/-- What begins with the check of privilege takes PRIV in user mode, whatever follows. -/
theorem commit_needSup_of_user (h : s.me.sup = false) (i : Instr) (k : Unit → Except Trap State) :
    s.commit (s.needSup i >>= k) = .next (s.takeTrap { cause := 0x02, tval := codeOf i }) := by
  rw [needSup_of_user h, error_bind, commit_error]

/-- The context instructions share their first checks, of which privilege is the first (R364). -/
theorem commit_gctxCheck_of_user (h : s.me.sup = false) (i : Instr) (rs1 : XReg)
    (k : RKey × Parked × Word × State → Except Trap State) :
    s.commit (gctxCheck s i rs1 >>= k) = .next (s.takeTrap { cause := 0x02, tval := codeOf i }) := by
  rw [gctxCheck, needSup_of_user h]
  rfl

/-! ## Zicsr (R33, R113) -/

theorem csrSup_iff (n : BitVec 12) : csrSup n = true ↔ n.toNat / 256 % 4 = 1 := by
  simp [csrSup, fld]

theorem csrRO_iff (n : BitVec 12) : csrRO n = true ↔ n.toNat ∈ csrReadOnly := List.contains_iff_mem

theorem csrRead_eq_none (s : State) {n : BitVec 12} (h : n.toNat ∉ csrMap) : csrRead s n = none := by
  unfold csrRead
  dsimp only
  split
  case h_24 => rfl
  all_goals
    next hn =>
    rw [hn] at h
    exact absurd (by decide) h

theorem csrRead_ne_none (s : State) {n : BitVec 12} (h : n.toNat ∈ csrMap) : ∃ w, csrRead s n = some w := by
  unfold csrRead
  generalize n.toNat = k at h
  fin_cases h <;> exact ⟨_, rfl⟩

/-- The fault of a number not implemented comes before all others. -/
theorem csrCheck_unmapped {n : BitVec 12} (h : n.toNat ∉ csrMap) (i : Instr) (writes : Bool) :
    csrCheck i n writes s = .error { cause := 0x01, tval := codeOf i } := by
  rw [csrCheck, csrRead_eq_none s h]
  rfl

theorem csrMap_of_readOnly {k : Nat} (h : k ∈ csrReadOnly) : k ∈ csrMap := by
  fin_cases h <;> decide

theorem csrCheck_readOnly {n : BitVec 12} (h : n.toNat ∈ csrReadOnly) (i : Instr) :
    csrCheck i n true s = .error { cause := 0x01, tval := codeOf i } := by
  obtain ⟨w, hw⟩ := csrRead_ne_none s (csrMap_of_readOnly h)
  simp [csrCheck, hw, (csrRO_iff n).2 h, illegal, cILLEGAL, codeOf, wordOf]

/-- A supervisor CSR named from user mode, by an access that is no write of a read-only one. -/
theorem csrCheck_user {n : BitVec 12} {writes : Bool} (hmap : n.toNat ∈ csrMap) (hsup : n.toNat / 256 % 4 = 1)
    (huser : s.me.sup = false) (hw : writes = false ∨ n.toNat ∉ csrReadOnly) (i : Instr) :
    csrCheck i n writes s = .error { cause := 0x02, tval := codeOf i } := by
  obtain ⟨w, hread⟩ := csrRead_ne_none s hmap
  have hwrite : (writes && csrRO n) = false := by
    rcases hw with rfl | hw
    · rfl
    · rw [Bool.eq_false_iff.2 (mt (csrRO_iff n).1 hw), Bool.and_false]
  simp [csrCheck, hread, hwrite, (csrSup_iff n).2 hsup, huser, cPRIV, codeOf, wordOf]

/-- A fault of the checks is the instruction's, before its operand is read or anything is written. -/
theorem csrStep_of_error {i : Instr} {n : BitVec 12} {writes : Bool} {t : Trap} (h : csrCheck i n writes s = .error t)
    (rd : XReg) (new : Word → Except Trap Word) : csrStep i rd n writes s new = .error t := by
  rw [csrStep, h, error_bind]

/-- The fault of the checks as the forms that always write take it. -/
theorem exec_csrrw_fault {n : BitVec 12} {cause : BitVec 8} (rd rs1 : XReg) (z : BitVec 5)
    (h : ∀ i, csrCheck i n true s = .error { cause := cause, tval := codeOf i }) :
    ∀ i ∈ [Instr.csrrw rd rs1 n, .csrrwi rd z n], exec i s = .next (s.takeTrap { cause := cause, tval := codeOf i }) := by
  simp only [List.forall_mem_cons]
  exact ⟨congrArg s.commit (csrStep_of_error (h _) rd _), congrArg s.commit (csrStep_of_error (h _) rd _), by simp⟩

/-- The fault of the checks as the set and clear forms take it, which write where `rs1` or the immediate is not 0. -/
theorem exec_csrrs_fault {rs1 : XReg} {z : BitVec 5} {n : BitVec 12} {cause : BitVec 8} (rd : XReg)
    (h : ∀ i, ∀ writes ∈ [rs1 != 0#5, z != 0#5],
      csrCheck i n writes s = .error { cause := cause, tval := codeOf i }) :
    ∀ i ∈ [Instr.csrrs rd rs1 n, .csrrc rd rs1 n, .csrrsi rd z n, .csrrci rd z n],
      exec i s = .next (s.takeTrap { cause := cause, tval := codeOf i }) := by
  have hreg (i : Instr) := h i (rs1 != 0#5) (by simp)
  have himm (i : Instr) := h i (z != 0#5) (by simp)
  simp only [List.forall_mem_cons]
  exact ⟨congrArg s.commit (csrStep_of_error (hreg _) rd _), congrArg s.commit (csrStep_of_error (hreg _) rd _),
    congrArg s.commit (csrStep_of_error (himm _) rd _), congrArg s.commit (csrStep_of_error (himm _) rd _), by simp⟩

/-! ## Trap entry and return (R414, R417) -/

theorem exec_tret (h : s.me.sup = true) : exec .tret s = .next (s.modMe fun v => v.leave) := by
  have hexec : exec .tret s = s.commit (s.needSup .tret >>= fun _ => pure (s.modMe fun v => v.leave)) := rfl
  rw [hexec, needSup_of_sup h, ok_bind, pure_eq_ok, commit_ok]

/-- `tret` in the obligation's words: from supervisor mode to supervisor mode the message state is cleared. -/
theorem leave_eq (v : Slot) : v.leave =
    { v with
      pc := v.trap.tepc &&& ~~~3#64
      sup := v.trap.tstatus.getLsbD 0
      masked := if v.trap.tstatus.getLsbD 0 then false else v.trap.tstatus.getLsbD 1
      inHandler := if v.trap.tstatus.getLsbD 0 then false else v.trap.tstatus.getLsbD 2
      wcnt := if v.trap.tstatus.getLsbD 0 then 0 else (v.trap.tstatus.extractLsb' 3 9).toNat
      wait := .run } := by
  have hwcnt : fld v.trap.tstatus 11 3 = (v.trap.tstatus.extractLsb' 3 9).toNat := by
    simp [fld, Nat.shiftRight_eq_div_pow]
  cases h : v.trap.tstatus.getLsbD 0 <;> simp only [Slot.leave, bitAt, h, hwcnt] <;> rfl

/-! ### What the saved status holds (R116) -/

theorem b2n_lt_two (b : Bool) : b2n b < 2 := by cases b <;> decide

theorem toNat_status (v : Slot) :
    v.status.toNat = v.wcnt % 512 * 8 + b2n v.inHandler * 4 + b2n v.masked * 2 + b2n v.sup := by
  have := b2n_lt_two v.inHandler
  have := b2n_lt_two v.masked
  have := b2n_lt_two v.sup
  simp only [Slot.status, BitVec.toNat_ofNat]
  omega

theorem getLsbD_eq_of_digit {n k : Nat} {x : BitVec n} {b : Bool} (h : x.toNat / 2 ^ k % 2 = b2n b) :
    x.getLsbD k = b := by
  rw [BitVec.getLsbD, Nat.testBit_eq_decide_div_mod_eq, h]
  cases b <;> rfl

section Status
variable (v : Slot)

theorem bitAt_status_sup : bitAt v.status 0 = v.sup :=
  getLsbD_eq_of_digit (by have := b2n_lt_two v.sup; rw [toNat_status]; omega)

theorem bitAt_status_masked : bitAt v.status 1 = v.masked :=
  getLsbD_eq_of_digit (by have := b2n_lt_two v.sup; have := b2n_lt_two v.masked; rw [toNat_status]; omega)

theorem bitAt_status_inHandler : bitAt v.status 2 = v.inHandler :=
  getLsbD_eq_of_digit (by
    have := b2n_lt_two v.sup; have := b2n_lt_two v.masked; have := b2n_lt_two v.inHandler
    rw [toNat_status]; omega)

theorem fld_status_wcnt : fld v.status 11 3 = v.wcnt % 512 := by
  have := b2n_lt_two v.sup
  have := b2n_lt_two v.masked
  have := b2n_lt_two v.inHandler
  rw [fld, toNat_status]
  omega

end Status

/-- The low bits of an aligned address are 0 already. -/
theorem and_not_three {x : Word} (h : x.toNat % 4 = 0) : x &&& ~~~3#64 = x := by
  have hlow : x &&& 3#64 = 0#64 := BitVec.eq_of_toNat_eq ((Nat.and_two_pow_sub_one_eq_mod x.toNat 2).trans h)
  have hsplit : x &&& ~~~3#64 ||| x &&& 3#64 = x := by
    rw [← BitVec.and_or_distrib_left, BitVec.or_comm, BitVec.or_not_self, BitVec.and_allOnes]
  simpa [hlow] using hsplit

/-- Leaving undoes entry: the PC is aligned, and the count of the window fits its field, so both are saved whole. -/
theorem leave_enter {v : Slot} (t : Trap) (h : Word) (huser : v.sup = false) (hpc : v.pc.toNat % 4 = 0)
    (hwcnt : v.wcnt < 512) :
    Slot.leave { v.enter t with pc := h } = { v with trap := (v.enter t).trap, wait := .run } := by
  have hpc' := and_not_three hpc
  simp only [Slot.leave, Slot.enter, bitAt_status_sup, bitAt_status_masked, bitAt_status_inHandler, fld_status_wcnt, huser,
    hpc', Nat.mod_eq_of_lt hwcnt]
  rfl

/-- Trap entry of a slot that has a handler (R414): what it does to the slot, and that it leaves memory. -/
theorem takeTrap_me {t : Trap} {h : Word} (hlog : t.log = false) (hh : s.handler = some h) :
    (s.takeTrap t).me = { s.me.enter t with pc := h } ∧ (s.takeTrap t).mem = s.mem := by
  have htvec : ∀ w : Word, fld w 63 2 = w.toNat / 4 := fun w => by simp only [fld]; omega
  have hme : State.me { s.modMe (fun v => v.enter t) with freeCtr := s.freeCtr + 1 } = s.me.enter t :=
    me_modMe s fun v => v.enter t
  have henter : (s.me.enter t).trap.tvec = s.me.trap.tvec := rfl
  simp only [State.takeTrap, hlog, Bool.false_eq_true, if_false, htvec, hme, henter]
  unfold State.handler at hh
  split at hh
  case isTrue htvec =>
    cases hh
    rw [if_pos htvec]
    exact ⟨(me_modMe _ _).trans (by rw [hme]; rfl), rfl⟩
  case isFalse htvec =>
    rw [if_neg htvec]
    split at hh
    case isTrue hsvec =>
      cases hh
      rw [if_pos hsvec]
      exact ⟨(me_modMe _ _).trans (by rw [hme]), rfl⟩
    case isFalse => cases hh

end Sys2Proof.Machine

open Sys2Proof Sys2Proof.Machine

/-- Settles O7: the checks of R33 answer the fault (`csrCheck_unmapped`, `csrCheck_readOnly`, `csrCheck_user`), and each form
takes it with its own word. -/
theorem csrFaults : Obligations.CsrFaults := by
  intro s rd rs1 z n all
  refine ⟨fun hmap => ?_, fun hro => ?_, fun hro hrs1 hz => ?_, fun hmap hro hsup huser => ?_,
    fun hmap hsup huser hrs1 hz => ?_⟩
  · exact List.forall_mem_append.2 ⟨exec_csrrw_fault rd rs1 z fun i => csrCheck_unmapped hmap i true,
      exec_csrrs_fault rd fun i writes _ => csrCheck_unmapped hmap i writes⟩
  · exact exec_csrrw_fault rd rs1 z (csrCheck_readOnly hro)
  · refine List.forall_mem_append.2 ⟨exec_csrrw_fault rd rs1 z (csrCheck_readOnly hro),
      exec_csrrs_fault rd fun i writes hwrites => ?_⟩
    obtain rfl : writes = true := by simpa only [bne_iff_ne.2 hrs1, bne_iff_ne.2 hz, List.mem_cons, List.not_mem_nil,
      or_false, or_self] using hwrites
    exact csrCheck_readOnly hro i
  · exact List.forall_mem_append.2 ⟨exec_csrrw_fault rd rs1 z (csrCheck_user hmap hsup huser (.inr hro)),
      exec_csrrs_fault rd fun i writes _ => csrCheck_user hmap hsup huser (.inr hro) i⟩
  · refine exec_csrrs_fault rd fun i writes hwrites => csrCheck_user hmap hsup huser (.inl ?_) i
    simpa [hrs1, hz] using hwrites

/-- Settles O10: each of them begins with the check of privilege. -/
theorem privilegedInUserMode : Obligations.PrivilegedInUserMode := by
  intro s rd rs1 rs2 huser
  simp only [List.forall_mem_cons]
  exact ⟨commit_needSup_of_user huser .tret _, commit_needSup_of_user huser (.genNew rd) _,
    commit_gctxCheck_of_user huser (.gctxRes rs1) rs1 _, commit_gctxCheck_of_user huser (.gctxKill rs1) rs1 _,
    commit_needSup_of_user huser (.plcFind rd rs1) _, commit_needSup_of_user huser (.plcLoad rd rs1 rs2) _,
    commit_needSup_of_user huser (.plcRel rs1) _, commit_needSup_of_user huser (.cfgWr rs1 rs2) _,
    commit_needSup_of_user huser (.cfgWrRestamp rs1 rs2) _, commit_needSup_of_user huser (.cfgChk rd rs1) _, by simp⟩

/-- Settles O9: ECALL and EBREAK are their trap; `tret` is `Slot.leave`, which undoes what trap entry did (`leave_enter`). -/
theorem trapReturn : Obligations.TrapReturn := by
  refine ⟨fun s => ⟨rfl, rfl⟩, fun s hsup => ?_, fun s t hlog hhandler huser hpc hwcnt => ?_⟩
  · rw [exec_tret hsup]
    exact congrArg (fun g => Host.Outcome.next (s.modMe g)) (funext leave_eq)
  · obtain ⟨h, hh⟩ := Option.isSome_iff_exists.1 hhandler
    obtain ⟨hme, hmem⟩ := takeTrap_me hlog hh
    have hsup : (s.takeTrap t).me.sup = true := by rw [hme]; rfl
    refine ⟨_, exec_tret hsup, ?_, hmem⟩
    rw [me_modMe, hme, leave_enter t h huser hpc hwcnt]
end

section
/-! Integer instructions, jumps and branches, loads and stores (R32, R111, R112, R118): the machine's bit vectors as the
integers of the claims, one equation per form, and O1, O2 and O3. -/

namespace Sys2Proof.Machine

/-! ## Bit vectors computed on integers, at every width -/

section OfInt
variable {w : Nat} (x y : BitVec w)

theorem add_eq_ofInt : x + y = BitVec.ofInt w (x.toInt + y.toInt) := by
  rw [BitVec.ofInt_add, BitVec.ofInt_toInt, BitVec.ofInt_toInt]

theorem sub_eq_ofInt : x - y = BitVec.ofInt w (x.toInt - y.toInt) := by
  rw [Int.sub_eq_add_neg, BitVec.ofInt_add, BitVec.ofInt_neg, BitVec.ofInt_toInt, BitVec.ofInt_toInt, BitVec.sub_eq_add_neg]

theorem mul_eq_ofInt : x * y = BitVec.ofInt w (x.toInt * y.toInt) := by
  rw [BitVec.ofInt_mul, BitVec.ofInt_toInt, BitVec.ofInt_toInt]

theorem shiftLeft_eq_ofInt (k : Nat) : x <<< k = BitVec.ofInt w (x.toInt * 2 ^ k) := by
  have hpow : BitVec.ofInt w (2 ^ k) = BitVec.twoPow w k := by
    apply BitVec.eq_of_toNat_eq
    rw [BitVec.toNat_twoPow, ← BitVec.toNat_ofNat, ← BitVec.ofInt_natCast]
    norm_cast
  rw [BitVec.ofInt_mul, BitVec.ofInt_toInt, hpow, BitVec.shiftLeft_eq_mul_twoPow]

theorem ushiftRight_eq_ofInt (k : Nat) : x >>> k = BitVec.ofInt w (x.toNat / 2 ^ k : Nat) := by
  apply BitVec.eq_of_toNat_eq
  rw [BitVec.ofInt_natCast, BitVec.toNat_ushiftRight, BitVec.toNat_ofNat, Nat.shiftRight_eq_div_pow,
    Nat.mod_eq_of_lt ((Nat.div_le_self _ _).trans_lt x.isLt)]

theorem sshiftRight_eq_ofInt (k : Nat) : x.sshiftRight k = BitVec.ofInt w (x.toInt / 2 ^ k) := by
  rw [BitVec.sshiftRight, Int.shiftRight_eq_div_pow]
  norm_cast

theorem ofInt_neg_one : BitVec.ofInt w (-1) = BitVec.allOnes w := by
  rw [BitVec.ofInt_neg, ← BitVec.neg_one_eq_allOnes]
  rfl

theorem toInt_eq_zero_iff : x.toInt = 0 ↔ x = 0#w := by
  rw [← BitVec.toInt_inj, BitVec.toInt_zero]

theorem toNat_cast_eq_zero_iff : (x.toNat : Int) = 0 ↔ x = 0#w := by
  rw [Int.natCast_eq_zero, ← BitVec.toNat_inj, BitVec.toNat_ofNat, Nat.zero_mod]

theorem div_eq_ofInt : (if y = 0#w then BitVec.allOnes w else BitVec.ofInt w (x.toInt.tdiv y.toInt)) =
    BitVec.ofInt w (quot x.toInt y.toInt) := by
  rw [quot, apply_ite (BitVec.ofInt w), ofInt_neg_one]
  simp only [toInt_eq_zero_iff]

theorem rem_eq_ofInt : (if y = 0#w then x else BitVec.ofInt w (x.toInt.tmod y.toInt)) =
    BitVec.ofInt w (remd x.toInt y.toInt) := by
  rw [remd, apply_ite (BitVec.ofInt w), BitVec.ofInt_toInt]
  simp only [toInt_eq_zero_iff]

theorem udiv_eq_ofInt : (if y = 0#w then BitVec.allOnes w else x / y) = BitVec.ofInt w (quot x.toNat y.toNat) := by
  have hdiv : BitVec.ofInt w ((x.toNat : Int).tdiv y.toNat) = x / y := by
    rw [← Int.ofNat_tdiv, BitVec.ofInt_natCast, ← BitVec.toNat_udiv, BitVec.ofNat_toNat, BitVec.setWidth_eq]
  rw [quot, apply_ite (BitVec.ofInt w), ofInt_neg_one, hdiv]
  simp only [toNat_cast_eq_zero_iff]

theorem urem_eq_ofInt : (if y = 0#w then x else x % y) = BitVec.ofInt w (remd x.toNat y.toNat) := by
  have hmod : BitVec.ofInt w ((x.toNat : Int).tmod y.toNat) = x % y := by
    rw [← Int.ofNat_tmod, BitVec.ofInt_natCast, ← BitVec.toNat_umod, BitVec.ofNat_toNat, BitVec.setWidth_eq]
  rw [remd, apply_ite (BitVec.ofInt w), BitVec.ofInt_natCast, BitVec.ofNat_toNat, BitVec.setWidth_eq, hmod]
  simp only [toNat_cast_eq_zero_iff]

theorem flag_slt : (if x.slt y then 1#64 else 0#64) = flag (x.toInt < y.toInt) := by
  simp [flag, BitVec.slt]

theorem flag_ult : (if x.ult y then 1#64 else 0#64) = flag (x.toNat < y.toNat) := by
  simp [flag, BitVec.ult]

end OfInt

/-! ## The results of the integer instructions -/

theorem word_toInt (a : Word) : word a.toInt = a := BitVec.ofInt_toInt

/-- Adding a sign-extended field is adding its signed value. -/
theorem add_signExtend {n : Nat} (hn : n ≤ 64) (a : Word) (x : BitVec n) :
    a + x.signExtend 64 = word (a.toInt + x.toInt) := by
  rw [add_eq_ofInt, BitVec.toInt_signExtend_of_le hn, word]

theorem immAlu_eq_intImm (o : ImmOp) (a : Word) (imm : BitVec 12) : immAlu o a imm = intImm o a imm := by
  cases o with
  | addi => exact add_signExtend (by decide) a imm
  | slti => rw [immAlu, intImm, flag_slt, BitVec.toInt_signExtend_of_le (by decide)]
  | sltiu => exact flag_ult a (imm.signExtend 64)
  | xori | ori | andi => rfl
  | slli => exact shiftLeft_eq_ofInt a _
  | srli => exact ushiftRight_eq_ofInt a _
  | srai => exact sshiftRight_eq_ofInt a _

theorem toNat_setWidth_32 (a : Word) : (a.setWidth 32).toNat = ulow32 a := BitVec.toNat_setWidth ..

/-- A result of 32 bits is sign-extended (R32). -/
theorem signExtend_ofInt {x : BitVec 32} {n : Int} (h : x = BitVec.ofInt 32 n) : x.signExtend 64 = word32 n :=
  congrArg (BitVec.signExtend 64) h

theorem imm32Alu_eq_intImm32 (o : Imm32Op) (a : Word) (imm : BitVec 12) : imm32Alu o a imm = intImm32 o a imm := by
  cases o with
  | addiw => exact signExtend_ofInt (by rw [add_eq_ofInt, BitVec.toInt_signExtend_of_le (by decide), low32])
  | slliw => exact signExtend_ofInt (shiftLeft_eq_ofInt _ _)
  | srliw => exact signExtend_ofInt (by rw [ushiftRight_eq_ofInt, toNat_setWidth_32])
  | sraiw => exact signExtend_ofInt (sshiftRight_eq_ofInt _ _)

theorem regAlu_eq_intReg (o : RegOp) (a b : Word) : regAlu o a b = intReg o a b := by
  cases o with
  | add => exact add_eq_ofInt a b
  | sub => exact sub_eq_ofInt a b
  | sll => exact shiftLeft_eq_ofInt a _
  | slt => exact flag_slt a b
  | sltu => exact flag_ult a b
  | xor | or | and | mulh | mulhsu => rfl
  | srl => exact ushiftRight_eq_ofInt a _
  | sra => exact sshiftRight_eq_ofInt a _
  | mul => exact mul_eq_ofInt a b
  | mulhu => exact (BitVec.ofInt_natCast ..).symm
  | div => exact div_eq_ofInt a b
  | divu => exact udiv_eq_ofInt a b
  | rem => exact rem_eq_ofInt a b
  | remu => exact urem_eq_ofInt a b

theorem reg32Alu_eq_intReg32 (o : Reg32Op) (a b : Word) : reg32Alu o a b = intReg32 o a b := by
  have hshift : (b.setWidth 32).toNat % 32 = b.toNat % 32 := by rw [BitVec.toNat_setWidth]; omega
  cases o with
  | addw => exact signExtend_ofInt (add_eq_ofInt _ _)
  | subw => exact signExtend_ofInt (sub_eq_ofInt _ _)
  | sllw => exact signExtend_ofInt (by rw [shiftLeft_eq_ofInt, hshift, low32])
  | srlw => exact signExtend_ofInt (by rw [ushiftRight_eq_ofInt, hshift, toNat_setWidth_32])
  | sraw => exact signExtend_ofInt (by rw [sshiftRight_eq_ofInt, hshift, low32])
  | mulw => exact signExtend_ofInt (mul_eq_ofInt _ _)
  | divw => exact signExtend_ofInt (div_eq_ofInt _ _)
  | divuw => exact signExtend_ofInt (by rw [udiv_eq_ofInt, toNat_setWidth_32, toNat_setWidth_32])
  | remw => exact signExtend_ofInt (rem_eq_ofInt _ _)
  | remuw => exact signExtend_ofInt (by rw [urem_eq_ofInt, toNat_setWidth_32, toNat_setWidth_32])

/-! ## What each form does (R32) -/

theorem upper_eq_word (imm : BitVec 20) : upper imm = word (imm.toInt * 2 ^ 12) := by
  have hvalue : (imm ++ 0#12).toInt = imm.toInt * 2 ^ 12 := BitVec.toInt_append_zero.trans (Int.mul_comm _ _)
  rw [← hvalue]
  rfl

/-- An offset field counts 2 bytes. -/
theorem offset_eq_word {n : Nat} (hn : n + 1 ≤ 64) (pc : Word) (off : BitVec n) :
    pc + (off ++ 0#1).signExtend 64 = word (pc.toInt + off.toInt * 2) := by
  rw [add_signExtend hn, BitVec.toInt_append_zero, Int.mul_comm, Int.pow_one]

section Forms
variable {s : State} {rd rs1 rs2 : XReg} {a b : Word}

theorem exec_opImm (hrd : s.xOk rd) (ha : s.xr rs1 = .ok a) (o : ImmOp) (imm : BitVec 12) :
    exec (.opImm o rd rs1 imm) s = .next (s.putX rd (intImm o a imm)).retire := by
  change execOpImm o rd rs1 imm s = _
  rw [execOpImm, ha, ok_bind, setX_of_xOk hrd, immAlu_eq_intImm]
  rfl

theorem exec_opImm32 (hrd : s.xOk rd) (ha : s.xr rs1 = .ok a) (o : Imm32Op) (imm : BitVec 12) :
    exec (.opImm32 o rd rs1 imm) s = .next (s.putX rd (intImm32 o a imm)).retire := by
  change execOpImm32 o rd rs1 imm s = _
  rw [execOpImm32, ha, ok_bind, setX_of_xOk hrd, imm32Alu_eq_intImm32]
  rfl

theorem exec_lui (hrd : s.xOk rd) (imm : BitVec 20) :
    exec (.lui rd imm) s = .next (s.putX rd (word (imm.toInt * 2 ^ 12))).retire := by
  change execLui rd imm s = _
  rw [execLui, setX_of_xOk hrd, upper_eq_word]
  rfl

theorem exec_auipc (hrd : s.xOk rd) (imm : BitVec 20) :
    exec (.auipc rd imm) s = .next (s.putX rd (word (s.me.pc.toInt + imm.toInt * 2 ^ 12))).retire := by
  change execAuipc rd imm s = _
  rw [execAuipc, setX_of_xOk hrd, upper_eq_word, word, word, BitVec.ofInt_add, BitVec.ofInt_toInt]
  rfl

/-- Divisions leave the slot out of the rotation for 40 clk (R111). -/
theorem retireIn_clks (t : State) (o : RegOp) : t.retireIn (RegOp.clks o) =
    if o ∈ [RegOp.div, .divu, .rem, .remu] then
      (t.retire.modMe fun v => { v with wait := .done .div }).after 40 (.divComplete t.cur)
    else t.retire := by
  cases o <;> rfl

/-- Those of 32 bits for 24. -/
theorem retireIn_clks32 (t : State) (o : Reg32Op) : t.retireIn (Reg32Op.clks o) =
    if o ∈ [Reg32Op.divw, .divuw, .remw, .remuw] then
      (t.retire.modMe fun v => { v with wait := .done .div }).after 24 (.divComplete t.cur)
    else t.retire := by
  cases o <;> rfl

theorem exec_op (hrd : s.xOk rd) (ha : s.xr rs1 = .ok a) (hb : s.xr rs2 = .ok b) (o : RegOp) :
    exec (.op o rd rs1 rs2) s = .next ((s.putX rd (intReg o a b)).retireIn (RegOp.clks o)) := by
  change execOp o rd rs1 rs2 s = _
  rw [execOp, ha, hb, ok_bind, ok_bind, setX_of_xOk hrd, regAlu_eq_intReg]
  rfl

theorem exec_op32 (hrd : s.xOk rd) (ha : s.xr rs1 = .ok a) (hb : s.xr rs2 = .ok b) (o : Reg32Op) :
    exec (.op32 o rd rs1 rs2) s = .next ((s.putX rd (intReg32 o a b)).retireIn (Reg32Op.clks o)) := by
  change execOp32 o rd rs1 rs2 s = _
  rw [execOp32, ha, hb, ok_bind, ok_bind, setX_of_xOk hrd, reg32Alu_eq_intReg32]
  rfl

/-! ## Jumps and branches -/

/-- The sum of a target is 4-byte aligned where its low two bits are 0. -/
theorem fld_word_eq_zero_iff (n : Int) : (fld (word n) 1 0 == 0) = true ↔ n % 4 = 0 := by
  have hn : (word n).toNat = (n % 2 ^ 64).toNat := BitVec.toNat_ofInt ..
  rw [beq_iff_eq, fld, hn]
  omega

theorem need_aligned {n : Int} (h : n % 4 = 0) (c : BitVec 8) (v : Word) : need (fld (word n) 1 0 == 0) c v = .ok () :=
  need_ok ((fld_word_eq_zero_iff n).2 h) c v

theorem need_misaligned {n : Int} (h : n % 4 ≠ 0) (c : BitVec 8) (v : Word) :
    need (fld (word n) 1 0 == 0) c v = .error { cause := c, tval := v } :=
  need_error (Bool.eq_false_iff.2 (mt (fld_word_eq_zero_iff n).1 h)) c v

theorem branchTaken_iff (o : BranchOp) (a b : Word) : branchTaken o a b = true ↔ taken o a b := by
  cases o with
  | beq => exact beq_iff_eq
  | bne => exact bne_iff_ne
  | blt => simp [branchTaken, taken, BitVec.slt]
  | bge => simp [branchTaken, taken, BitVec.slt]
  | bltu => simp [branchTaken, taken, BitVec.ult]
  | bgeu => simp [branchTaken, taken, BitVec.ult]

/-- A jump to a checked target: what follows the check, or the trap of a misaligned one. -/
theorem need_target_ok {n : Int} (h : n % 4 = 0) (c : BitVec 8) (k : Unit → Except Trap State) :
    s.commit (need (fld (word n) 1 0 == 0) c (word n) >>= k) = s.commit (k ()) := by
  rw [need_aligned h, ok_bind]

theorem need_target_error {n : Int} (h : n % 4 ≠ 0) (c : BitVec 8) (k : Unit → Except Trap State) :
    s.commit (need (fld (word n) 1 0 == 0) c (word n) >>= k) = .next (s.takeTrap { cause := c, tval := word n }) := by
  rw [need_misaligned h, error_bind, commit_error]

theorem exec_jal_eq (off : BitVec 20) : exec (.jal rd off) s =
    s.commit (need (fld (word (s.me.pc.toInt + off.toInt * 2)) 1 0 == 0) 0x03 (word (s.me.pc.toInt + off.toInt * 2)) >>=
      fun _ => s.setX rd (s.me.pc + 4#64) >>= fun t => .ok (t.jumpTo (word (s.me.pc.toInt + off.toInt * 2)))) := by
  rw [← offset_eq_word (by decide)]
  rfl

theorem exec_jal (hrd : s.xOk rd) {off : BitVec 20} (h : (s.me.pc.toInt + off.toInt * 2) % 4 = 0) :
    exec (.jal rd off) s = .next ((s.putX rd (s.me.pc + 4#64)).jumpTo (word (s.me.pc.toInt + off.toInt * 2))) := by
  rw [exec_jal_eq, need_target_ok h, setX_of_xOk hrd, ok_bind, commit_ok]

theorem exec_jal_misaligned {off : BitVec 20} (h : (s.me.pc.toInt + off.toInt * 2) % 4 ≠ 0) : exec (.jal rd off) s =
    .next (s.takeTrap { cause := 0x03, tval := word (s.me.pc.toInt + off.toInt * 2) }) := by
  rw [exec_jal_eq, need_target_error h]

theorem exec_jalr_eq (ha : s.xr rs1 = .ok a) (imm : BitVec 12) : exec (.jalr rd rs1 imm) s =
    s.commit (need (fld (word (a.toInt + imm.toInt)) 1 0 == 0) 0x0A (word (a.toInt + imm.toInt)) >>=
      fun _ => s.setX rd (s.me.pc + 4#64) >>= fun t => .ok (t.jumpTo (word (a.toInt + imm.toInt)))) := by
  change execJalr rd rs1 imm s = _
  rw [execJalr, ha, ok_bind, add_signExtend (by decide)]
  rfl

theorem exec_jalr (hrd : s.xOk rd) (ha : s.xr rs1 = .ok a) {imm : BitVec 12} (h : (a.toInt + imm.toInt) % 4 = 0) :
    exec (.jalr rd rs1 imm) s = .next ((s.putX rd (s.me.pc + 4#64)).jumpTo (word (a.toInt + imm.toInt))) := by
  rw [exec_jalr_eq ha, need_target_ok h, setX_of_xOk hrd, ok_bind, commit_ok]

theorem exec_jalr_misaligned (ha : s.xr rs1 = .ok a) {imm : BitVec 12} (h : (a.toInt + imm.toInt) % 4 ≠ 0) :
    exec (.jalr rd rs1 imm) s = .next (s.takeTrap { cause := 0x0A, tval := word (a.toInt + imm.toInt) }) := by
  rw [exec_jalr_eq ha, need_target_error h]

section Branch
variable {o : BranchOp} {off : BitVec 12} (ha : s.xr rs1 = .ok a) (hb : s.xr rs2 = .ok b)
include ha hb

theorem exec_branch_eq (ht : taken o a b) : exec (.branch o rs1 rs2 off) s =
    s.commit (need (fld (word (s.me.pc.toInt + off.toInt * 2)) 1 0 == 0) 0x03 (word (s.me.pc.toInt + off.toInt * 2)) >>=
      fun _ => .ok (s.jumpTo (word (s.me.pc.toInt + off.toInt * 2)))) := by
  change execBranch o rs1 rs2 off s = _
  rw [execBranch, ha, hb, ok_bind, ok_bind, if_pos ((branchTaken_iff o a b).2 ht), branchTarget,
    offset_eq_word (by decide)]
  rfl

theorem exec_branch_taken (ht : taken o a b) (h : (s.me.pc.toInt + off.toInt * 2) % 4 = 0) :
    exec (.branch o rs1 rs2 off) s = .next (s.jumpTo (word (s.me.pc.toInt + off.toInt * 2))) := by
  rw [exec_branch_eq ha hb ht, need_target_ok h, commit_ok]

theorem exec_branch_misaligned (ht : taken o a b) (h : (s.me.pc.toInt + off.toInt * 2) % 4 ≠ 0) :
    exec (.branch o rs1 rs2 off) s =
      .next (s.takeTrap { cause := 0x03, tval := word (s.me.pc.toInt + off.toInt * 2) }) := by
  rw [exec_branch_eq ha hb ht, need_target_error h]

theorem exec_branch_notTaken (ht : ¬ taken o a b) : exec (.branch o rs1 rs2 off) s = .next s.retire := by
  change execBranch o rs1 rs2 off s = _
  rw [execBranch, ha, hb, ok_bind, ok_bind, if_neg (mt (branchTaken_iff o a b).1 ht)]
  rfl

end Branch

/-! ## Loads and stores (R118) -/

theorem need_multiple {va : Word} {n : Nat} (h : va.toNat % n = 0) (c : BitVec 8) : need (aligned va n) c va = .ok () :=
  need_ok (by simp [aligned, h]) c va

theorem need_noMultiple {va : Word} {n : Nat} (h : va.toNat % n ≠ 0) (c : BitVec 8) :
    need (aligned va n) c va = .error { cause := c, tval := va } :=
  need_error (by simp [aligned, h]) c va

theorem load_eq {p : Phys} {t : State} {va : Word} (hx : xlat s s.agent va .r = .ok (p, t)) (n : Nat) :
    s.load va n = .ok (t.coreRead (coreOf t.cur) p n) := by
  rw [State.load, hx]

theorem store_eq {p : Phys} {t : State} {va : Word} (hx : xlat s s.agent va .w = .ok (p, t)) (bs : List Byte) :
    s.store va bs = .ok (t.coreWrite (coreOf t.cur) p bs) := by
  rw [State.store, hx]

theorem load_error {t : Trap} {va : Word} (hx : xlat s s.agent va .r = .error t) (n : Nat) : s.load va n = .error t := by
  rw [State.load, hx]

theorem store_error {t : Trap} {va : Word} (hx : xlat s s.agent va .w = .error t) (bs : List Byte) :
    s.store va bs = .error t := by
  rw [State.store, hx]

/-- The bytes of a signed access as the machine extends them. -/
theorem sext_bytesWord {n : Nat} (hn : n ≤ 8) (bs : List Byte) : sext (8 * n) (bytesWord bs) = signedOf n bs := by
  have hlow : (bytesWord bs).setWidth (8 * n) = BitVec.ofNat (8 * n) (bytesNat bs) :=
    BitVec.setWidth_ofNat_of_le (by omega) _
  rw [sext, hlow]
  rfl

theorem extend_eq_loaded (o : LoadOp) (bs : List Byte) : LoadOp.extend o bs = loaded o bs := by
  cases o with
  | lb => exact sext_bytesWord (n := 1) (by decide) bs
  | lh => exact sext_bytesWord (n := 2) (by decide) bs
  | lw => exact sext_bytesWord (n := 4) (by decide) bs
  | ld | lbu | lhu | lwu => exact (BitVec.ofInt_natCast ..).symm

section Access
variable {imm : BitVec 12} {va : Word} (ha : s.xr rs1 = .ok a) (hva : va = word (a.toInt + imm.toInt))
include ha hva

theorem exec_load_eq (o : LoadOp) : exec (.load o rd rs1 imm) s =
    s.commit (need (aligned va (LoadOp.bytes o)) 0x03 va >>= fun _ => s.load va (LoadOp.bytes o) >>= fun r =>
      r.2.setX rd (loaded o r.1) >>= fun t => .ok t.retire) := by
  change execLoad o rd rs1 imm s = _
  rw [execLoad, ha, ok_bind, add_signExtend (by decide), ← hva]
  simp only [extend_eq_loaded]
  rfl

theorem exec_store_eq (hb : s.xr rs2 = .ok b) (z : Size) : exec (.store z rs2 rs1 imm) s =
    s.commit (need (aligned va (Size.bytes z)) 0x03 va >>= fun _ =>
      s.store va (natBytes (Size.bytes z) b.toNat) >>= fun t => .ok t.retire) := by
  change execStore z rs2 rs1 imm s = _
  rw [execStore, ha, ok_bind, hb, ok_bind, add_signExtend (by decide), ← hva]
  rfl

theorem exec_load_misaligned {o : LoadOp} (h : va.toNat % LoadOp.bytes o ≠ 0) :
    exec (.load o rd rs1 imm) s = .next (s.takeTrap { cause := 0x03, tval := va }) := by
  rw [exec_load_eq ha hva, need_noMultiple h, error_bind, commit_error]

theorem exec_store_misaligned (hb : s.xr rs2 = .ok b) {z : Size} (h : va.toNat % Size.bytes z ≠ 0) :
    exec (.store z rs2 rs1 imm) s = .next (s.takeTrap { cause := 0x03, tval := va }) := by
  rw [exec_store_eq ha hva hb, need_noMultiple h, error_bind, commit_error]

end Access

end Forms

end Sys2Proof.Machine

open Sys2Proof Sys2Proof.Machine

/-- Settles O1: each form is its equation (`exec_opImm` to `exec_op32`), a division retiring for its clk (`retireIn_clks`). -/
theorem integerInstructions : Obligations.IntegerInstructions := by
  refine ⟨fun s rd rs1 hrd => ⟨fun a ha => ⟨exec_opImm hrd ha, exec_opImm32 hrd ha⟩, exec_lui hrd, exec_auipc hrd⟩,
    fun s rd rs1 rs2 a b hrd ha hb => ⟨fun o => ?_, fun o => ?_⟩⟩
  · rw [exec_op hrd ha hb, retireIn_clks, putX_cur]
  · rw [exec_op32 hrd ha hb, retireIn_clks32, putX_cur]

/-- Settles O2: each form goes to its aligned target, or traps before it writes anything. -/
theorem jumpsAndBranches : Obligations.JumpsAndBranches := by
  refine ⟨fun s rd rs1 rs2 a b hrd ha hb => ⟨fun off h => exec_jal hrd h, fun imm h => exec_jalr hrd ha h,
      fun o off ht h => exec_branch_taken ha hb ht h, fun o off ht => exec_branch_notTaken ha hb ht⟩,
    fun s rd rs1 rs2 a b ha hb => ⟨fun off h => exec_jal_misaligned h, fun imm h => exec_jalr_misaligned ha h,
      fun o off ht h => exec_branch_misaligned ha hb ht h, fun o imm h => exec_load_misaligned ha rfl h,
      fun z imm h => exec_store_misaligned ha rfl hb h⟩⟩

/-- Settles O3: past its alignment, a load or store is its translation and then its access. -/
theorem loadsAndStores : Obligations.LoadsAndStores := by
  intro s rd rs1 rs2 imm a b va ha hb hva
  refine ⟨fun o p t u bs h hx hread hrd => ?_, fun z p t h hx => ?_, fun o t h hx => ?_, fun z t h hx => ?_⟩
  · rw [exec_load_eq ha hva, need_multiple h, ok_bind, load_eq hx, keeps_cur (keeps_xlat hx), hread, ok_bind,
      setX_of_xOk hrd, ok_bind, commit_ok]
  · rw [exec_store_eq ha hva hb, need_multiple h, ok_bind, store_eq hx, keeps_cur (keeps_xlat hx), ok_bind, commit_ok]
  · rw [exec_load_eq ha hva, need_multiple h, ok_bind, load_error hx, error_bind, commit_error]
  · rw [exec_store_eq ha hva hb, need_multiple h, ok_bind, store_error hx, error_bind, commit_error]
end

section
/-! What a release and an acquire leave (R203, R218, R226, R249): which bytes wait in a core's buffer and in a cove's L2, and
the fences, acquire loads, release stores and prefetches of O5. -/

namespace Sys2Proof.Machine

/-! ## Entries that a removal leaves -/

theorem AMap.get?_of_get?_dropWhile {α : Type} {m : AMap α} {j k : Nat} {a : α}
    (h : get? (m.dropWhile fun p => p.1 ≤ k) j = some a) : k < j ∧ get? m j = some a := by
  induction m with
  | nil => cases h
  | cons p r ih =>
    obtain ⟨k', v'⟩ := p
    rw [List.dropWhile_cons] at h
    split at h
    case isTrue hk =>
      obtain ⟨hj, hr⟩ := ih h
      have hle : k' ≤ k := by simpa using hk
      exact ⟨hj, by rw [get?, if_neg (by omega), if_neg (by omega), hr]⟩
    case isFalse hk =>
      have hlt : k < k' := by simpa using hk
      refine ⟨?_, h⟩
      by_contra hj
      rw [get?, if_neg (by omega), if_pos (by omega)] at h
      cases h

/-- What is listed after a removal was listed before it, whatever the order of the keys. -/
theorem AMap.get?_of_get?_del {α : Type} {m : AMap α} {j k : Nat} {a : α} (h : get? (del m k) j = some a) :
    get? m j = some a := by
  induction m with
  | nil => exact h
  | cons p r ih =>
    obtain ⟨k', v'⟩ := p
    unfold del at h
    split at h
    · exact h
    split at h
    case isTrue hk =>
      obtain ⟨hj, hr⟩ := get?_of_get?_dropWhile h
      rw [get?, if_neg (by omega), if_neg (by omega), hr]
    case isFalse =>
      unfold get? at h ⊢
      split
      · next hj => rwa [if_pos hj] at h
      split
      · next hj hlt => rw [if_neg hj, if_pos hlt] at h; cases h
      · next hj hlt =>
        rw [if_neg hj, if_neg hlt] at h
        exact ih h

theorem AMap.get?_mapV {α : Type} (m : AMap α) (f : Nat → α → α) (k : Nat) :
    get? (mapV m f) k = (get? m k).map (f k) := by
  induction m with
  | nil => rfl
  | cons p r ih =>
    obtain ⟨k', v'⟩ := p
    rw [mapV, List.map_cons, get?, get?]
    split
    · next hk => rw [hk]; rfl
    split
    · rfl
    · exact ih

theorem AMap.mem_keys_of_get? {α : Type} {m : AMap α} {k : Nat} {a : α} (h : get? m k = some a) : k ∈ keys m := by
  induction m with
  | nil => cases h
  | cons p r ih =>
    obtain ⟨k', v'⟩ := p
    rw [get?] at h
    split at h
    · next hk => exact List.mem_cons.2 (.inl hk)
    split at h
    · cases h
    · exact List.mem_cons_of_mem _ (ih h)

/-! ## Bytes that wait in a core's buffer or a cove's L2 -/

/-- `t` has no bytes waiting that `s` has not: every core's buffer is as it was, and a line of a cove's L2 has nothing to
forward or is a line of `s`. -/
def State.forwards (s t : State) : Prop :=
  (∀ core, (t.core core).cb = (s.core core).cb) ∧
    ∀ cove line l, AMap.get? (t.cove cove).l2 line = some l → l.unsent = [] ∨ AMap.get? (s.cove cove).l2 line = some l

variable {s t u : State}

theorem forwards_refl (s : State) : s.forwards s := ⟨fun _ => rfl, fun _ _ _ => .inr⟩

theorem forwards_trans (h : s.forwards t) (g : t.forwards u) : s.forwards u :=
  ⟨fun core => (g.1 core).trans (h.1 core), fun cove line l hl => (g.2 cove line l hl).elim .inl (h.2 cove line l)⟩

/-- An update of neither a core nor a cove. -/
theorem forwards_of_eq (hcores : t.cores = s.cores) (hcoves : t.coves = s.coves) : s.forwards t := by
  refine ⟨fun core => ?_, fun cove line l hl => .inr ?_⟩
  · simp only [State.core, hcores]
  · simpa only [State.cove, hcoves] using hl

theorem forwards_modCove (s : State) (c : Nat) {g : Cove → Cove} (h : ∀ line l,
    AMap.get? (g (s.cove c)).l2 line = some l → l.unsent = [] ∨ AMap.get? (s.cove c).l2 line = some l) :
    s.forwards (s.modCove c g) := by
  refine ⟨fun _ => rfl, fun cove line l hl => ?_⟩
  by_cases hc : cove = c
  · subst hc
    rw [cove_modCove] at hl
    exact h line l hl
  · rw [cove_modCove_ne s g hc] at hl
    exact .inr hl

/-- A line with nothing to forward put in a cove's L2. -/
theorem forwards_setLine (s : State) (c line : Nat) {n : L2Line} (hn : n.unsent = []) :
    s.forwards (s.modCove c fun v => { v with l2 := AMap.set v.l2 line n }) := by
  refine forwards_modCove s c fun k l hl => ?_
  by_cases hk : k = line
  · rw [hk, AMap.get?_set_self] at hl
    cases hl
    exact .inl hn
  · rw [AMap.get?_set_ne _ _ hk] at hl
    exact .inr hl

theorem forwards_delLine (s : State) (c line : Nat) :
    s.forwards (s.modCove c fun v => { v with l2 := AMap.del v.l2 line }) :=
  forwards_modCove s c fun _ _ hl => .inr (AMap.get?_of_get?_del hl)

/-- Cores changed apart from their buffers. -/
theorem forwards_mapCores (s : State) (f : Nat → Core → Core) (hf : ∀ k c, (f k c).cb = c.cb) :
    s.forwards { s with cores := AMap.mapV s.cores f } := by
  refine ⟨fun core => ?_, fun _ _ _ => .inr⟩
  change (AMap.getD (AMap.mapV s.cores f) core {}).cb = (AMap.getD s.cores core {}).cb
  rw [AMap.getD, AMap.getD, AMap.get?_mapV]
  cases AMap.get? s.cores core with
  | none => rfl
  | some c => exact hf core c

theorem forwards_dropL1i (s : State) (line : Nat) (which : List Nat) :
    s.forwards { s with cores := dropL1i s.cores line which } :=
  forwards_mapCores s _ fun k c => by split <;> rfl

theorem forwards_dropL1d (s : State) (cove line : Nat) : s.forwards { s with cores := dropL1d s.cores cove line } :=
  forwards_mapCores s _ fun k c => by split <;> rfl

theorem forwards_stallFor (s : State) (n : Nat) : s.forwards (s.stallFor n) := forwards_of_eq rfl rfl

theorem forwards_pick (s : State) (n : Nat) : s.forwards (s.pick n).2 := by
  unfold State.pick
  split <;> exact forwards_of_eq rfl rfl

/-! ## Homes and the L2 -/

theorem forwards_putBytes (s : State) (line : Nat) (bs : List (Nat × Byte)) : s.forwards (putBytes s line bs) := by
  induction bs generalizing s with
  | nil => exact forwards_refl s
  | cons p r ih =>
    refine forwards_trans ?_ (ih _)
    split <;> exact forwards_of_eq rfl rfl

theorem forwards_putLine (s : State) (line : Nat) (whole : Bool) (bs : List (Nat × Byte)) :
    s.forwards (putLine s line whole bs) := by
  unfold putLine
  split
  · exact forwards_of_eq rfl rfl
  · exact forwards_trans (forwards_of_eq rfl rfl) (forwards_putBytes _ _ _)

theorem unsent_of_sup {l : L2Line} (h : l.sup = true) : l.unsent = [] := by
  simp [L2Line.unsent, h]

theorem unsent_of_dirty {l : L2Line} (h : l.dirty = []) : l.unsent = [] := by
  simp [L2Line.unsent, h]

theorem forwards_invalidate (s : State) (src : Option Nat) (line : Nat) (cs : List Nat) :
    s.forwards (invalidate s src line cs) := by
  induction cs generalizing s with
  | nil => exact forwards_refl s
  | cons c r ih =>
    refine forwards_trans ?_ (ih _)
    split
    · exact forwards_refl s
    split
    · exact forwards_refl s
    next l _ =>
    dsimp only
    have hput : s.forwards (if l.unsent.isEmpty then s else putLine s line l.whole l.unsent) := by
      split
      · exact forwards_refl s
      · exact forwards_putLine _ _ _ _
    have hdrop := forwards_trans hput (forwards_dropL1i _ line l.cores)
    split
    · exact forwards_trans hdrop (forwards_setLine _ _ _ (unsent_of_sup rfl))
    · exact forwards_trans hdrop (forwards_trans (forwards_delLine _ _ _) (forwards_dropL1d _ _ _))

theorem forwards_homePut (s : State) (src : Option Nat) (line : Nat) (whole : Bool) (bs : List (Nat × Byte)) :
    s.forwards (homePut s src line whole bs) := by
  unfold homePut
  split
  · exact forwards_of_eq rfl rfl
  · exact forwards_trans (forwards_invalidate _ _ _ _) (forwards_putLine _ _ _ _)

theorem forwards_l2Forward (s : State) (cove line : Nat) : s.forwards (s.l2Forward cove line) := by
  unfold State.l2Forward
  split
  · exact forwards_refl s
  split
  · exact forwards_refl s
  · exact forwards_trans (forwards_setLine _ _ _ (unsent_of_dirty rfl)) (forwards_homePut _ _ _ _ _)

/-- A line forwarded has nothing more to forward. -/
theorem unsent_l2Forward {cove line : Nat} {l : L2Line}
    (h : AMap.get? ((s.l2Forward cove line).cove cove).l2 line = some l) : l.unsent = [] := by
  unfold State.l2Forward at h
  split at h
  · next hnone => rw [hnone] at h; cases h
  next n hn =>
  split at h
  · next hempty =>
    rw [hn] at h
    cases h
    exact List.isEmpty_iff.1 hempty
  · rcases (forwards_homePut _ _ _ _ _).2 _ _ _ h with hsent | hput
    · exact hsent
    · rw [cove_modCove, AMap.get?_set_self] at hput
      cases hput
      exact unsent_of_dirty rfl

theorem forwards_foldl_l2Forward (s : State) (cove : Nat) (lines : List Nat) :
    s.forwards (lines.foldl (fun s line => s.l2Forward cove line) s) := by
  induction lines generalizing s with
  | nil => exact forwards_refl s
  | cons line r ih => exact forwards_trans (forwards_l2Forward s cove line) (ih _)

theorem unsent_foldl_l2Forward {cove line : Nat} {l : L2Line} {lines : List Nat} (hline : line ∈ lines)
    (h : AMap.get? ((lines.foldl (fun s line => s.l2Forward cove line) s).cove cove).l2 line = some l) : l.unsent = [] := by
  induction lines generalizing s with
  | nil => cases hline
  | cons k r ih =>
    rcases List.mem_cons.1 hline with rfl | hr
    · rcases (forwards_foldl_l2Forward (s.l2Forward cove line) cove r).2 _ _ _ h with hsent | hold
      · exact hsent
      · exact unsent_l2Forward hold
    · exact ih hr h

/-- After a cove has forwarded all of its lines, nothing waits there. -/
theorem unsent_l2ForwardAll {cove line : Nat} {l : L2Line}
    (h : AMap.get? ((s.l2ForwardAll cove).cove cove).l2 line = some l) : l.unsent = [] := by
  rcases (forwards_foldl_l2Forward s cove (AMap.keys (s.cove cove).l2)).2 _ _ _ h with hsent | hold
  · exact hsent
  · exact unsent_foldl_l2Forward (AMap.mem_keys_of_get? hold) h

theorem forwards_l2Evict (s : State) (cove : Nat) : s.forwards (s.l2Evict cove) := by
  unfold State.l2Evict
  split
  · exact forwards_refl s
  dsimp only
  have hsent := forwards_trans (forwards_pick s (s.cove cove).l2.length) (forwards_l2Forward _ cove
    ((AMap.keys ((s.pick (s.cove cove).l2.length).2.cove cove).l2).getD (s.pick (s.cove cove).l2.length).1 0))
  split
  · exact hsent
  · refine forwards_trans hsent (forwards_trans ?_ (forwards_delLine _ _ _))
    exact forwards_trans (forwards_dropL1i _ _ _) (forwards_dropL1d _ _ _)

theorem forwards_l2Line (s : State) (cove : Nat) (p : Phys) : s.forwards (s.l2Line cove p).2 := by
  unfold State.l2Line
  dsimp only
  split
  · split
    · refine forwards_trans (forwards_dropL1d s cove (p.pa / 64)) ?_
      exact forwards_trans (forwards_stallFor _ _) (forwards_setLine _ _ _ (unsent_of_dirty rfl))
    · exact forwards_refl s
  · have hburst : ∀ t : State, ∀ b : List (Nat × Nat),
        t.forwards (t.modCove cove fun v => { v with burst := v.burst ++ b }) :=
      fun t _ => forwards_modCove t cove fun _ _ => .inr
    have htimed : ∀ t : State,
        t.forwards (if (t.cove cove).burst.isEmpty then t.after 16 (.meshBurstMerge cove) else t) := by
      intro t
      split
      · exact forwards_of_eq rfl rfl
      · exact forwards_refl t
    refine forwards_trans (forwards_trans (forwards_trans (forwards_l2Evict s cove) ?_) (htimed _)) (hburst _ _)
    exact forwards_trans (forwards_stallFor _ _) (forwards_setLine _ _ _ (unsent_of_dirty rfl))

/-! ## A core's buffer drained -/

theorem cb_l2Put (s : State) (cove : Nat) (p : Phys) (offs : List Nat) (whole : Bool) (f : BitVec 512 → BitVec 512)
    (core : Nat) : ((s.l2Put cove p offs whole f).core core).cb = (s.core core).cb := by
  unfold State.l2Put
  split
  · rfl
  dsimp only
  have hmarked := (forwards_trans (forwards_l2Line s cove p)
    (forwards_dropL1i _ (p.pa / 64) (s.l2Line cove p).1.cores)).1 core
  split
  · exact ((forwards_l2Forward _ _ _).1 core).trans hmarked
  · split <;> exact hmarked

theorem cb_cbDrain (s : State) (core line : Nat) :
    ((s.cbDrain core line).core core).cb = (s.core core).cb.filter fun e => e.line != line := by
  unfold State.cbDrain
  dsimp only
  split
  · next hnone =>
    refine (List.filter_eq_self.2 fun e he => ?_).symm
    simpa using List.find?_eq_none.1 hnone e he
  · rw [cb_l2Put, core_setCore]

theorem cb_foldl_cbDrain (s : State) (core : Nat) (lines : List Nat) :
    ((lines.foldl (fun s line => s.cbDrain core line) s).core core).cb =
      (s.core core).cb.filter fun e => !lines.contains e.line := by
  induction lines generalizing s with
  | nil => simp
  | cons line r ih =>
    rw [List.foldl_cons, ih, cb_cbDrain, List.filter_filter]
    congr 1
    funext e
    simp [bne, Bool.beq_eq_decide_eq, Bool.and_comm]

/-- A core's buffer with every entry drained is empty. -/
theorem cb_cbDrainAll (s : State) (core : Nat) : ((s.cbDrainAll core).core core).cb = [] := by
  rw [State.cbDrainAll, cb_foldl_cbDrain, List.filter_eq_nil_iff]
  intro e he
  simpa using ⟨e, he, rfl⟩

/-! ## Releases and acquires (R218) -/

theorem cb_releaseAt (s : State) (core : Nat) {sc : Scope} (h : sc ≠ .th) :
    ((s.releaseAt core sc).core core).cb = [] := by
  have hall : (((s.cbDrainAll core).l2ForwardAll (coveOfCore core)).core core).cb = [] :=
    ((forwards_foldl_l2Forward _ _ _).1 core).trans (cb_cbDrainAll s core)
  cases sc
  · exact absurd rfl h
  · exact cb_cbDrainAll s core
  · exact hall
  · exact hall

/-- A release of device scope or wider leaves nothing waiting in the core's buffer or its cove's L2. -/
theorem drained_releaseAt (s : State) (core : Nat) {sc : Scope} (h : sc = .dv ∨ sc = .sy) :
    (s.releaseAt core sc).drained core := by
  rcases h with rfl | rfl
  all_goals exact ⟨cb_releaseAt s core (by decide), fun _ _ hl => unsent_l2ForwardAll hl⟩

theorem l1d_acquireAt (s : State) (core : Nat) {sc : Scope} (h : sc ≠ .th) :
    ((s.acquireAt core sc).core core).l1d = [] := by
  cases sc
  · exact absurd rfl h
  all_goals
    simp only [State.acquireAt, core_modCore]

theorem cb_acquireAt (s : State) (core : Nat) (sc : Scope) :
    ((s.acquireAt core sc).core core).cb = (s.core core).cb := by
  cases sc
  · rfl
  all_goals
    simp only [State.acquireAt, core_modCore]

theorem drained_acquireAt {core : Nat} (h : s.drained core) (sc : Scope) : (s.acquireAt core sc).drained core := by
  refine ⟨(cb_acquireAt s core sc).trans h.1, ?_⟩
  cases sc <;> exact h.2

theorem mem_acquireAt (s : State) (core : Nat) (sc : Scope) : (s.acquireAt core sc).mem = s.mem := by
  cases sc <;> rfl

/-- Retiring is the slot's own: what `keeps` the slots retires to the same. -/
theorem slots_retire_of_keeps (h : keeps s t) : t.retire.slots = s.retire.slots := by
  change AMap.set t.slots t.cur (t.me.goto (t.me.pc + 4#64)) = AMap.set s.slots s.cur (s.me.goto (s.me.pc + 4#64))
  rw [keeps_slots h, keeps_cur h, keeps_me h]

/-- The core under way is the same in what `keeps` the slot under way. -/
theorem core_modMyCore_of_keeps (h : keeps s t) (f : Core → Core) :
    (t.modMyCore f).core (coreOf s.cur) = f (t.core (coreOf s.cur)) := by
  rw [State.modMyCore, keeps_cur h, core_modCore]

/-! ## Prefetches (R229) -/

theorem keeps_prefLine (l2 : Bool) (s : State) (va : Word) : keeps s (prefLine l2 s va) := by
  unfold prefLine
  split
  · exact keeps_refl s
  next hx =>
  split
  · exact keeps_xlat hx
  split
  · exact keeps_trans (keeps_xlat hx) (keeps_l2Line _ _ _)
  · exact keeps_trans (keeps_xlat hx) (keeps_l1dLine _ _ _)

/-! ## Acquire loads and release stores (R218) -/

section Ordered
variable {rd rs1 rs2 : XReg} {z : Size} {sc : Scope} {a b : Word} {p : Phys}

theorem bytes_le_eight (z : Size) : Size.bytes z ≤ 8 := by cases z <;> decide

theorem exec_ldAcq {bs : List Byte} (ha : s.xr rs1 = .ok a) (halign : a.toNat % Size.bytes z = 0)
    (hx : xlat s s.agent a .r = .ok (p, t)) (hread : t.coreRead (coreOf t.cur) p (Size.bytes z) = (bs, u))
    (hrd : u.xOk rd) : exec (.ldAcq z sc rd rs1) s =
      .next ((u.putX rd (signedOf (Size.bytes z) bs)).acquireAt (coreOf u.cur) sc).retire := by
  change execLdAcq z sc rd rs1 s = _
  rw [execLdAcq, ha, ok_bind]
  dsimp only
  rw [need_multiple halign, ok_bind, load_eq hx, hread, ok_bind]
  dsimp only
  rw [sext_bytesWord (bytes_le_eight z), setX_of_xOk hrd, ok_bind, pure_eq_ok, commit_ok, putX_cur]

theorem exec_stRel (ha : s.xr rs1 = .ok a) (hb : s.xr rs2 = .ok b) (halign : a.toNat % Size.bytes z = 0)
    (hx : xlat s s.agent a .w = .ok (p, t)) : exec (.stRel z sc rs2 rs1) s =
      .next ((t.releaseAt (coreOf t.cur) sc).coreWrite (coreOf (t.releaseAt (coreOf t.cur) sc).cur) p
        (natBytes (Size.bytes z) b.toNat)).retire := by
  change execStRel z sc rs2 rs1 s = _
  rw [execStRel, ha, hb, ok_bind, ok_bind]
  dsimp only
  rw [need_multiple halign, ok_bind, hx]
  rfl

end Ordered

end Sys2Proof.Machine

open Sys2Proof Sys2Proof.Machine

/-- Settles O5: each fence is its release, then its acquire, whose effects are said once (`drained_releaseAt`,
`l1d_acquireAt`); a prefetch does what its lines' accesses do, which `keeps` the rest. -/
theorem fences : Obligations.Fences := by
  refine ⟨fun s rd rs1 imm sc => ?_, fun s t rd rs1 rs2 z sc a b p ha hb halign =>
    ⟨fun bs u hx hread hrd => exec_ldAcq ha halign hx hread hrd, fun hx => exec_stRel ha hb halign hx⟩,
    fun s l2 w rs1 rs2 => ⟨_, keeps_foldl (keeps_prefLine l2) _ s, rfl⟩⟩
  intro c
  have hboth (k : Scope) : ((s.releaseAt c k).acquireAt c k).retire.slots = s.retire.slots :=
    slots_retire_of_keeps (keeps_trans (keeps_releaseAt s c k) (keeps_acquireAt _ c k))
  refine ⟨⟨_, rfl, ?fence⟩, ⟨_, rfl, ?fenceI⟩, ⟨_, rfl, ?rel⟩, ⟨_, rfl, ?acq⟩, ⟨_, rfl, ?ar⟩⟩
  case fence =>
    exact ⟨hboth .dv, drained_acquireAt (drained_releaseAt s c (.inl rfl)) .dv, l1d_acquireAt _ c (by decide)⟩
  case fenceI =>
    have hdrain : keeps s (s.cbDrainAll c) := keeps_cbDrainAll s c
    have hcore := core_modMyCore_of_keeps hdrain fun v => { v with l1i := [] }
    exact ⟨slots_retire_of_keeps (keeps_trans hdrain (keeps_modCore _ _ _)),
      (congrArg Core.cb hcore).trans (cb_cbDrainAll s c), congrArg Core.l1i hcore⟩
  case rel =>
    exact ⟨slots_retire_of_keeps (keeps_releaseAt s c sc), cb_releaseAt s c, drained_releaseAt s c⟩
  case acq =>
    exact ⟨slots_retire_of_keeps (keeps_acquireAt s c sc), mem_acquireAt s c sc, l1d_acquireAt s c⟩
  case ar =>
    exact ⟨hboth sc, fun h => ⟨(cb_acquireAt _ c sc).trans (cb_releaseAt s c h), l1d_acquireAt _ c h⟩,
      fun h => drained_acquireAt (drained_releaseAt s c h) sc⟩
end

section
/-! The Zicsr forms and the CSR map (R33, R90, R113-R116): what a form does once its checks pass, and what a write of a
CSR changes of each. -/

namespace Sys2Proof.Machine

variable {s : State} {n : BitVec 12}

/-! ## The forms (R33, R113) -/

/-- The checks pass: the number is implemented, no read-only CSR is written, the mode may name it. -/
theorem csrCheck_ok {old : Word} {writes : Bool} (hread : csrRead s n = some old)
    (hsup : n.toNat / 256 % 4 = 1 → s.me.sup = true) (hw : writes = false ∨ n.toNat ∉ csrReadOnly) (i : Instr) :
    csrCheck i n writes s = .ok old := by
  have hwrite : (writes && csrRO n) = false := by
    rcases hw with rfl | hw
    · rfl
    · rw [Bool.eq_false_iff.2 (mt (csrRO_iff n).1 hw), Bool.and_false]
  have hpriv : (csrSup n && !s.me.sup) = false := by
    cases hs : csrSup n
    · rfl
    · rw [hsup ((csrSup_iff n).1 hs)]; rfl
  simp [csrCheck, hread, hwrite, hpriv]

section Step

variable {i : Instr} {rd : XReg} {writes : Bool} {old w : Word} {new : Word → Except Trap Word}
  (hread : csrRead s n = some old) (hsup : n.toNat / 256 % 4 = 1 → s.me.sup = true) (hrd : s.xOk rd)
include hread hsup hrd

/-- A form that writes: the old value to rd, the new one to the CSR. -/
theorem commit_csrStep_write (hro : n.toNat ∉ csrReadOnly) (hw : writes = true) (hnew : new old = .ok w) :
    s.commit (csrStep i rd n writes s new) = .next (((s.putX rd old).modMe fun v => v.csrWrite n w).retire) := by
  rw [csrStep, csrCheck_ok hread hsup (.inr hro), ok_bind, hnew, ok_bind, setX_of_xOk hrd, ok_bind, if_pos hw, pure_eq_ok,
    commit_ok]

/-- A form that only reads, of a read-only CSR too. -/
theorem commit_csrStep_read (hw : writes = false) (hnew : new old = .ok w) :
    s.commit (csrStep i rd n writes s new) = .next (s.putX rd old).retire := by
  subst hw
  rw [csrStep, csrCheck_ok hread hsup (.inl rfl), ok_bind, hnew, ok_bind, setX_of_xOk hrd, ok_bind, if_neg Bool.false_ne_true,
    pure_eq_ok, commit_ok]

end Step

/-! ## The map and the bits a write sets (R90, R113-R116) -/

theorem csrRead_isSome_iff : (csrRead s n).isSome ↔ n.toNat ∈ csrMap := by
  rw [Option.isSome_iff_exists]
  refine ⟨fun ⟨w, hw⟩ => ?_, csrRead_ne_none s⟩
  by_contra hmap
  rw [csrRead_eq_none s hmap] at hw
  cases hw

/-- A write of a CSR without writable bits changes nothing. -/
theorem csrWrite_of_csrMask_none (v : Slot) (h : csrMask n.toNat = none) (w : Word) : v.csrWrite n w = v := by
  unfold Slot.csrWrite
  dsimp only
  split
  case h_17 => rfl
  all_goals
    next hn =>
    rw [hn] at h
    cases h

/-- A field of `k` bits of a word, read back as a word, is the word's low `k` bits. -/
theorem setWidth_setWidth_eq_and (w : Word) {k : Nat} (hk : k ≤ 64) :
    (w.setWidth k).setWidth 64 = w &&& BitVec.ofNat 64 (2 ^ k - 1) := by
  have hlt : 2 ^ k - 1 < 2 ^ 64 := by
    have := Nat.pow_le_pow_right (n := 2) (by decide) hk
    omega
  apply BitVec.eq_of_toNat_eq
  rw [BitVec.toNat_and, BitVec.toNat_ofNat, Nat.mod_eq_of_lt hlt, Nat.and_two_pow_sub_one_eq_mod,
    BitVec.toNat_setWidth, BitVec.toNat_setWidth, Nat.mod_eq_of_lt (lt_of_le_of_lt (Nat.mod_le ..) w.isLt)]

/-- A writable CSR reads back the bits written that exist. -/
theorem csrRead_csrWrite_self {m : Word} (h : csrMask n.toNat = some m) (w : Word) :
    csrRead (s.modMe fun v => v.csrWrite n w) n = some (w &&& m) := by
  have hfull : w &&& 0xFFFFFFFFFFFFFFFF#64 = w := BitVec.and_allOnes
  unfold csrMask at h
  unfold csrRead Slot.csrWrite
  split at h
  case h_17 => cases h
  all_goals
    next hn =>
    cases h
    simp [hn, hfull, setWidth_setWidth_eq_and]

/-- A CSR write sets user CSRs, trap CSRs and TROOT only. -/
theorem csrWrite_eq (v : Slot) (n : BitVec 12) (w : Word) :
    ∃ u t r, v.csrWrite n w = { v with user := u, trap := t, troot := r } := by
  unfold Slot.csrWrite
  dsimp only
  split <;> exact ⟨_, _, _, rfl⟩

theorem msgSt_csrWrite (w : Word) : msgSt (s.modMe fun v => v.csrWrite n w) = msgSt s := by
  obtain ⟨u, t, r, h⟩ := csrWrite_eq s.me n w
  have hme := (me_modMe s fun v => v.csrWrite n w).trans h
  have hslot : (s.modMe fun v => v.csrWrite n w).slot s.cur = { s.me with user := u, trap := t, troot := r } := hme
  unfold msgSt State.pend
  rw [hme, modMe_cur, hslot]
  rfl

/-- A write of one CSR is no write of another. -/
theorem csrRead_csrWrite_ne {k : BitVec 12} (h : k ≠ n) (w : Word) :
    csrRead (s.modMe fun v => v.csrWrite n w) k = csrRead s k := by
  have hk : k.toNat ≠ n.toNat := mt BitVec.eq_of_toNat_eq h
  unfold csrRead
  simp only [msgSt_csrWrite, me_modMe]
  generalize hv : s.me.csrWrite n w = v
  unfold Slot.csrWrite at hv
  dsimp only at hv
  split at hv
  all_goals
    next hn =>
    subst hv
    -- an arm reads a field that the write leaves, or is that of the CSR written
    split <;> first | rfl | exact absurd (Eq.trans ‹_› hn.symm) hk

end Sys2Proof.Machine

open Sys2Proof Sys2Proof.Machine

/-- Settles O6: a form passes the checks of R33 and then writes (`commit_csrStep_write`) or only reads
(`commit_csrStep_read`); a CSR written reads back under its mask, and no other CSR changes. -/
theorem csrForms : Obligations.CsrForms := by
  refine ⟨fun s rd rs1 z n a old hread hsup hrd ha => ?_, fun s n => csrRead_isSome_iff,
    fun s n w m h => csrRead_csrWrite_self h w, fun s n k w h => csrRead_csrWrite_ne h w,
    fun v n w h => csrWrite_of_csrMask_none v h w⟩
  intro wr
  have hnew (f : Word → Word) : (do return f (← s.xr rs1)) = (.ok (f a) : Except Trap Word) := by rw [ha]; rfl
  have write {i : Instr} {writes : Bool} {w : Word} {new : Word → Except Trap Word} (hro : n.toNat ∉ csrReadOnly)
      (hw : writes = true) (h : new old = .ok w) : s.commit (csrStep i rd n writes s new) = .next (wr w) :=
    commit_csrStep_write hread hsup hrd hro hw h
  have read {i : Instr} {writes : Bool} {w : Word} {new : Word → Except Trap Word}
      (hw : writes = false) (h : new old = .ok w) : s.commit (csrStep i rd n writes s new) = .next (s.putX rd old).retire :=
    commit_csrStep_read hread hsup hrd hw h
  exact ⟨fun hro => ⟨write hro rfl ha, write hro rfl rfl,
      fun h => ⟨write hro (bne_iff_ne.2 h) (hnew (old ||| ·)), write hro (bne_iff_ne.2 h) (hnew (old &&& ~~~·))⟩,
      fun h => ⟨write hro (bne_iff_ne.2 h) rfl, write hro (bne_iff_ne.2 h) rfl⟩⟩,
    fun h => ⟨read (bne_eq_false_iff_eq.2 h) (hnew (old ||| ·)), read (bne_eq_false_iff_eq.2 h) (hnew (old &&& ~~~·))⟩,
    fun h => ⟨read (bne_eq_false_iff_eq.2 h) rfl, read (bne_eq_false_iff_eq.2 h) rfl⟩⟩
end

section
/-! Vector conversions, LQ4 quantisation and random words (R93-R97, R153): the elements of numbers put together from parts,
the outputs of the generator, and what each instruction writes. -/

namespace Sys2Proof.Machine

variable {s : State} {m : Bool} {f g : Fmt} {vd vs1 : VReg} {rs : XReg} {v0 a r : VWord} {x : Word} {rm : Rm}

/-! ## Operands (R40, R84, R87, R131) -/

theorem vecRm_of_rounds (h : s.rounds rm r) (hf : isInt f = false) (i : Instr) : s.vecRm i f = .ok rm := by
  obtain ⟨hvrm, rfl, -⟩ := h
  simp [State.vecRm, hf, hvrm]

theorem vecRnd_of_rounds (h : s.rounds rm r) : s.vecRnd rm = .ok r := by
  obtain ⟨-, -, hr⟩ := h
  unfold State.vecRnd
  split at hr
  · next hst => rw [if_pos hst, hr]
  · next hst => rw [if_neg hst, hr]

theorem vecRm_int (hf : isInt f = true) (i : Instr) : s.vecRm i f = .ok .rne := by
  simp [State.vecRm, hf]

/-- The lanes of a format fill a register. -/
theorem width_mul_lanes (f : Fmt) : Fmt.width f * lanes f = 1024 := by cases f <;> decide

/-- Active, as the statements say it. -/
theorem active_iff (m : Bool) (v0 : VWord) (k : Nat) : active m v0 k = true ↔ m = false ∨ v0.getLsbD k = true := by
  cases m <;> simp [active]

/-! ## Lanes and their flags (R91) -/

/-- Flags that every element raises join those of the lanes where some element is active. -/
theorem lanesOf_joinFlags (w old : Nat) (act : Nat → Bool) (res : Nat → Nat × NxFlags) (fl : NxFlags) (n : Nat) :
    lanesOf w old act (fun k => ((res k).1, (res k).2 ||| fl)) n =
      ((lanesOf w old act res n).1, (lanesOf w old act res n).2 ||| if (List.range n).any act then fl else 0#5) := by
  induction n with
  | zero => simp [lanesOf]
  | succ n ih =>
    rw [lanesOf_succ, lanesOf_succ, ih, List.range_succ, List.any_append, List.any_cons, List.any_nil, Bool.or_false]
    generalize (List.range n).any act = b
    cases act n with
    | false => simp
    | true =>
      have hjoin (x y : NxFlags) : (x ||| if b then fl else 0#5) ||| (y ||| fl) = x ||| y ||| fl := by
        cases b with
        | false => simp [BitVec.or_assoc]
        | true => rw [if_pos rfl]; ac_rfl
      simp [hjoin]

theorem lanesOf_noFlags {w old n : Nat} {act : Nat → Bool} {res : Nat → Nat × NxFlags} (h : ∀ k, (res k).2 = 0#5) :
    (lanesOf w old act res n).2 = 0#5 := by
  refine BitVec.eq_of_getLsbD_eq fun b _ => Bool.eq_iff_iff.2 ?_
  rw [lanesOf_flags]
  simp [h]

/-! ## Elements of numbers put together from parts (R29) -/

/-- An element of a number in two parts, of which the lower is `a` elements long. -/
theorem elemN_add_mul {w a lo : Nat} (hi k : Nat) (hlo : lo < 2 ^ (w * a)) :
    elemN (lo + hi * 2 ^ (w * a)) w k = if k < a then elemN lo w k else elemN hi w (k - a) := by
  unfold elemN
  split
  · next h =>
    obtain ⟨d, rfl⟩ := Nat.exists_eq_add_of_lt h
    have : hi * 2 ^ (w * (k + d + 1)) = 2 ^ (w * k) * (2 ^ w * (hi * 2 ^ (w * d))) := by ring
    rw [this, Nat.add_mul_div_left _ _ (by positivity), Nat.add_mul_mod_self_left]
  · next h =>
    obtain ⟨d, rfl⟩ := Nat.exists_eq_add_of_le (not_lt.1 h)
    rw [Nat.mul_add, pow_add, ← Nat.div_div_eq_div_mul, Nat.add_mul_div_right _ _ (by positivity), Nat.div_eq_of_lt hlo,
      Nat.zero_add, Nat.add_sub_cancel_left]

theorem elemN_div (v w a k : Nat) : elemN (v / 2 ^ (w * a)) w k = elemN v w (a + k) := by
  rw [elemN, elemN, Nat.div_div_eq_div_mul, ← pow_add, Nat.mul_add]

theorem elemN_mod_two_pow {w k N : Nat} (v : Nat) (h : w * (k + 1) ≤ N) : elemN (v % 2 ^ N) w k = elemN v w k := by
  rw [Nat.mul_add, Nat.mul_one] at h
  refine Nat.eq_of_testBit_eq fun i => ?_
  simp only [elemN, Nat.testBit_mod_two_pow, Nat.testBit_div_two_pow]
  by_cases hi : i < w
  · simp [show i + w * k < N by omega]
  · simp [hi]

theorem elemN_toNat_ofNat {w k N : Nat} (v : Nat) (h : w * (k + 1) ≤ N) :
    elemN (BitVec.ofNat N v).toNat w k = elemN v w k := by
  rw [BitVec.toNat_ofNat, elemN_mod_two_pow v h]

/-- The elements of a vector register given as a number. -/
theorem elemV_ofNat {w k : Nat} (v : Nat) (h : w * (k + 1) ≤ 1024) : elemV (BitVec.ofNat 1024 v) w k = elemN v w k :=
  elemN_toNat_ofNat v h

/-- The elements of a number whose elements from `a` on are replaced by the `n` of `mid`. -/
theorem elemN_splice {w a n mid : Nat} (old k : Nat) (hmid : mid < 2 ^ (w * n)) :
    elemN (old % 2 ^ (w * a) + mid * 2 ^ (w * a) + old / 2 ^ (w * (a + n)) * 2 ^ (w * (a + n))) w k =
      if a ≤ k ∧ k < a + n then elemN mid w (k - a) else elemN old w k := by
  have hlo : old % 2 ^ (w * a) < 2 ^ (w * a) := Nat.mod_lt _ (by positivity)
  have hlow : old % 2 ^ (w * a) + mid * 2 ^ (w * a) < 2 ^ (w * (a + n)) := by
    calc old % 2 ^ (w * a) + mid * 2 ^ (w * a) < (mid + 1) * 2 ^ (w * a) := by rw [Nat.add_mul]; omega
      _ ≤ 2 ^ (w * n) * 2 ^ (w * a) := Nat.mul_le_mul_right _ hmid
      _ = 2 ^ (w * (a + n)) := by rw [← pow_add]; ring_nf
  rw [elemN_add_mul _ _ hlow, elemN_add_mul _ _ hlo]
  by_cases hend : k < a + n
  · by_cases hstart : k < a
    · rw [if_pos hend, if_pos hstart, if_neg (by omega), elemN_mod_two_pow _ (Nat.mul_le_mul_left w hstart)]
    · rw [if_pos hend, if_neg hstart, if_pos (by omega)]
  · rw [if_neg hend, if_neg (by omega), elemN_div, Nat.add_sub_cancel' (not_lt.1 hend)]

/-- The codes that `vq` leaves: those of its part computed where they are active, all others as they were. -/
theorem elemV_vqCodes {act : Nat → Bool} {res : Nat → Nat × NxFlags} (old n p : Nat) {k : Nat} (hk : k < 256) :
    elemV (BitVec.ofNat 1024 (old % 2 ^ (4 * n * p) + (lanesOf 4 (old / 2 ^ (4 * n * p)) act res n).1 * 2 ^ (4 * n * p)
      + old / 2 ^ (4 * n * (p + 1)) * 2 ^ (4 * n * (p + 1)))) 4 k =
    if n * p ≤ k ∧ k < n * (p + 1) ∧ act (k - n * p) then (res (k - n * p)).1 % 16 else elemN old 4 k := by
  rw [elemV_ofNat _ (by omega), Nat.mul_assoc, Nat.mul_assoc, Nat.mul_add n, Nat.mul_one, elemN_splice _ _ (lanesOf_lt ..)]
  by_cases hpart : n * p ≤ k ∧ k < n * p + n
  · obtain ⟨hstart, hend⟩ := hpart
    rw [if_pos ⟨hstart, hend⟩, lanesOf_elem _ _ _ _ (by omega), elemN_div, Nat.add_sub_cancel' hstart]
    simp [hstart, hend]
  · rw [if_neg hpart, if_neg fun h => hpart ⟨h.1, h.2.1⟩]

/-- Results without flags: vd is written, and no flag set. -/
theorem vecMap_noFlags {w n : Nat} {res : Nat → Nat × NxFlags} (hd : s.vOk vd) (hm : s.vecMask m = .ok v0)
    (hw : w * n ≤ 1024) (hres : ∀ k, (res k).2 = 0#5) :
    ∃ v : VWord, s.vecMap m w n vd res = .ok (s.vecDone vd v 0#5)
      ∧ ∀ k, k < n → elemV v w k = if m = false ∨ v0.getLsbD k then (res k).1 % 2 ^ w else elemV (s.vecOld vd) w k := by
  refine ⟨BitVec.ofNat 1024 (lanesOf w (s.vecOld vd).toNat (active m v0) res n).1, ?_, fun k hk => ?_⟩
  · rw [State.vecMap, hm, ok_bind]
    dsimp only
    rw [vecPut_of_vOk hd, lanesOf_noFlags hres]
  · rw [elemV_ofNat _ ((Nat.mul_le_mul_left w hk).trans hw), lanesOf_elem _ _ _ _ hk]
    simp only [active_iff]
    rfl

/-! ## The generator (R93) -/

/-- The generator's state after one output, and then `k` more. -/
theorem nextRandom_add (k : Nat) (st : Word) : (nextRandom st).1 + BitVec.ofNat 64 k * 0xD1B54A32D192ED03#64 =
    st + BitVec.ofNat 64 (k + 1) * 0xD1B54A32D192ED03#64 := by
  rw [BitVec.ofNat_add, BitVec.add_mul, BitVec.one_mul, BitVec.add_comm (_ * _), ← BitVec.add_assoc]
  rfl

theorem rngOutputs_state (k : Nat) (st : Word) : (rngOutputs k st).2 = st + BitVec.ofNat 64 k * 0xD1B54A32D192ED03#64 := by
  induction k generalizing st with
  | zero => rw [rngOutputs, BitVec.zero_mul, BitVec.add_zero]
  | succ k ih => rw [rngOutputs, ← nextRandom_add, ← ih]

theorem rngOutputs_getD {i k : Nat} (h : i < k) (st : Word) :
    (rngOutputs k st).1.getD i 0#64 = (nextRandom (st + BitVec.ofNat 64 i * 0xD1B54A32D192ED03#64)).2 := by
  induction k generalizing i st with
  | zero => omega
  | succ k ih =>
    rw [rngOutputs]
    cases i with
    | zero => rw [List.getD_cons_zero, BitVec.zero_mul, BitVec.add_zero]
    | succ i => rw [List.getD_cons_succ, ih (Nat.lt_of_succ_lt_succ h), nextRandom_add]

/-! ## The instructions (R94, R96, R97, R153) -/

section Conversions

variable (hd : s.vOk vd) (hm : s.vecMask m = .ok v0) (ha : s.vr vs1 = .ok a) (hrm : ∀ i, s.vecRm i f = .ok rm)
  (hr : s.vecRnd rm = .ok r)
include hd hm ha hrm hr

theorem vecWrites_vcvt :
    s.vecWrites m v0 (Fmt.width g) (lanes g) vd (fun k =>
      if min (lanes f) (lanes g) ≤ k then (0, 0#5)
      else convert g (Fmt.width g) rm (rndAt r.toNat (Fmt.width g) k) (valueOf f (Fmt.width f) (elemV a (Fmt.width f) k)))
      (exec (.vcvt m f g vd vs1) s) := by
  change s.vecWrites _ _ _ _ _ _ (execVcvt m f g vd vs1 s)
  rw [execVcvt, hrm, ok_bind, ha, ok_bind, hr, ok_bind]
  exact vecWrites_of_vecMap hd hm (width_mul_lanes g).le

theorem vecWrites_vdq (hx : s.xr rs = .ok x) :
    s.vecWrites m v0 (Fmt.width f) (lanes f) vd (fun k =>
      let d := dequant f rm (rndAt r.toNat (Fmt.width f) k) (elemV a 4 (lanes f * (fld x 42 40 % (256 / lanes f)) + k))
        (blockScale (fld x 31 0) (fld x 39 32)).1
      (d.1, d.2 ||| (blockScale (fld x 31 0) (fld x 39 32)).2)) (exec (.vdq m f vd vs1 rs) s) := by
  change s.vecWrites _ _ _ _ _ _ (execVdq m f vd vs1 rs s)
  rw [execVdq, hrm, ok_bind, ha, ok_bind, hx, ok_bind, hm, ok_bind, hr, ok_bind]
  convert vecWrites_of_vecMap hd hm (width_mul_lanes f).le
  rw [State.vecMap, hm, ok_bind, lanesOf_joinFlags]
  rfl

theorem exec_vq (hx : s.xr rs = .ok x) :
    let n := lanes f
    let p := fld x 42 40 % (256 / n)
    let sc := blockScale (fld x 31 0) (fld x 39 32)
    ∃ (v : VWord) (fl : NxFlags), exec (.vq m f vd vs1 rs) s = .next (s.vecDone vd v fl)
      ∧ ∀ k, k < 256 → elemV v 4 k =
        if n * p ≤ k ∧ k < n * (p + 1) ∧ (m = false ∨ v0.getLsbD (k - n * p))
        then (quantLq4 (Fmt.value f (elemV a (Fmt.width f) (k - n * p))) sc.1 rm (elemV r 4 k)).1 % 16
        else elemV (s.vecOld vd) 4 k := by
  intro n p sc
  refine ⟨BitVec.ofNat 1024 ?v, ?fl, ?exec, fun k hk => ?codes⟩
  case exec =>
    change execVq m f vd vs1 rs s = _
    rw [execVq, hrm, ok_bind, ha, ok_bind, hx, ok_bind, hm, ok_bind, hr, ok_bind]
    dsimp only
    rw [vecPut_of_vOk hd, commit_ok]
  case codes =>
    rw [elemV_vqCodes _ _ _ hk]
    simp only [active_iff]
    exact ite_congr rfl (fun hpart => by rw [Nat.add_sub_cancel' hpart.1]) fun _ => rfl

end Conversions

theorem exec_vrng (hd : s.vOk vd) (hm : s.vecMask m = .ok v0) :
    ∃ v : VWord, exec (.vrng m vd) s = .next
        ((s.vecDone vd v 0#5).modMe fun t => { t with user := { t.user with rngst := s.me.user.rngst + 16 * 0xD1B54A32D192ED03#64 } })
      ∧ ∀ k, k < 32 → elemV v 32 k =
        if m = false ∨ v0.getLsbD k
        then elemN (nextRandom (s.me.user.rngst + BitVec.ofNat 64 (k / 2) * 0xD1B54A32D192ED03#64)).2.toNat 32 (k % 2)
        else elemV (s.vecOld vd) 32 k := by
  obtain ⟨v, hv, hfields⟩ := vecMap_noFlags (w := 32) (n := 32)
    (res := fun k => (elemN ((rngOutputs 16 s.me.user.rngst).1.getD (k / 2) 0#64).toNat 32 (k % 2), 0#5)) hd hm (by decide)
    fun _ => rfl
  refine ⟨v, ?exec, fun k hk => ?fields⟩
  case exec =>
    have hstate : (rngOutputs 16 s.me.user.rngst).2 = s.me.user.rngst + 16 * 0xD1B54A32D192ED03#64 := rngOutputs_state 16 _
    rw [← hstate]
    change execVrng m vd s = _
    rw [execVrng]
    dsimp only
    rw [hv]
    rfl
  case fields =>
    rw [hfields k hk, rngOutputs_getD (by omega), elemN, Nat.mod_mod]

end Sys2Proof.Machine

open Sys2Proof Sys2Proof.Machine

/-- Settles O14: `vcvt` and `vdq` are lanes under the mask (`vecWrites_of_vecMap`), the flags of forming the scale being those of
every active element (`lanesOf_joinFlags`); `vq` splices its codes into vd (`elemN_splice`); `vrng` takes the generator's
outputs one by one (`rngOutputs_getD`). -/
theorem vectorConversions : Obligations.VectorConversions := by
  intro s m f g vd vs1 rs v0 a r x rm hd hm ha hx w n
  refine ⟨?_, fun hf _ hr => ?_, exec_vrng hd hm⟩
  · rintro (⟨hf, rfl, rfl⟩ | ⟨hf, hr⟩)
    · exact vecWrites_vcvt hd hm ha (vecRm_int hf) rfl
    · exact vecWrites_vcvt hd hm ha (vecRm_of_rounds hr hf) (vecRnd_of_rounds hr)
  · have hrm := vecRm_of_rounds hr hf
    have hrnd := vecRnd_of_rounds hr
    exact ⟨vecWrites_vdq hd hm ha hrm hrnd hx, exec_vq hd hm ha hrm hrnd hx⟩
end

section
/-! Floating-point and conversion nodes (R99-R105, R314-R317, R357): what a node that fires does, said once for all nodes; the
results of nodes of elements; and what each of these nodes sends. -/

namespace Sys2Proof.Machine

/-! ## A firing (R297, R302, R304) -/

section Firing

variable {s u : State} {i : Instr} {f : Firing}

/-- Work of a placed region under no slack wave goes on. -/
theorem recordArc_of_placed {rk : RKey} (hst : (s.region rk).st = 3) (hwave : (s.region rk).wave = none) (x y blk : Nat)
    (w : Work) : recordArc s rk x y blk w = none := by
  simp [recordArc, hst, hwave]

theorem region_beginFire (s : State) (i : Instr) (f : Firing) (rk : RKey) : (s.beginFire i f).region rk = s.region rk := by
  unfold State.beginFire
  split <;> rfl

theorem region_takePlace (s : State) (i : Instr) (f : Firing) (rk : RKey) : (s.takePlace i f).region rk = s.region rk := by
  unfold State.takePlace
  split <;> rfl

/-- A firing begun changes no region. -/
theorem region_of_begins (h : s.begins i f u) (rk : RKey) : u.region rk = s.region rk := by
  obtain ⟨g, -, -, rfl, -⟩ := h
  split
  · rw [region_takePlace, region_beginFire]; rfl
  · rw [region_beginFire]; rfl

/-- A node that fires does what `fireNode` does on the machine that has begun it. -/
theorem runNode_of_fires (h : s.fires i f u) (act : Firing → State → NodeOut) :
    runNode i s act = .next (settle (fireNode i f u act) f.rk) := by
  obtain ⟨⟨g, hfire, rfl, rfl, hplace⟩, hst, hwave, hinst, hparked, -, -⟩ := h
  have hplaced : ¬ ((s.region g.rk).st ≠ 3 ∨ ((s.region g.rk).inst? g.ik).isNone = true) := by
    rw [not_or, not_not, Bool.not_eq_true, Option.isNone_eq_false_iff]
    exact ⟨hst, hinst⟩
  have hkept : ((s.region g.rk).isParked g.ik.ctx && g.body.isNone) = false := by
    rcases hparked with hp | hb
    · rw [hp, Bool.false_and]
    · rw [Option.isNone_eq_false_iff.2 hb, Bool.and_false]
  have hfull : (loads i g && !g.began && channelFull s g) = false := by
    cases hl : loads i g with
    | false => rfl
    | true => rcases hplace hl with hb | hc <;> simp [*]
  have hrec := recordArc_of_placed (s := { s with fire := none, stall := 0 }) hst hwave g.x g.y g.ik.blk (.node i g)
  unfold runNode
  rw [hfire]
  dsimp only
  rw [hrec]
  dsimp only
  have hregion : State.region { s with fire := none, stall := 0 } g.rk = s.region g.rk := rfl
  have hchannel : channelFull { s with fire := none, stall := 0 } g = channelFull s g := rfl
  rw [hregion, hchannel, if_neg hplaced, hkept, if_neg Bool.false_ne_true, hfull, if_neg Bool.false_ne_true]

/-- Its effect, where it has one. -/
theorem runNode_ok (h : s.fires i f u) {act : Firing → State → NodeOut} {t : State} (hact : act f u = .ok t) :
    runNode i s act = firedTo i f t := by
  obtain ⟨-, -, -, -, -, hnul, hpred⟩ := id h
  rw [runNode_of_fires h]
  simp [fireNode, hnul, hpred, hact, firedTo]

/-- Its fault, held until it is reported (R418). -/
theorem runNode_error (h : s.fires i f u) {act : Firing → State → NodeOut} {cause : BitVec 8} {tval : Word}
    (hact : act f u = .error (some { cause := cause, tval := tval })) : runNode i s act = u.firedBad i f cause tval := by
  obtain ⟨-, -, -, -, -, hnul, hpred⟩ := id h
  rw [runNode_of_fires h]
  simp [fireNode, hnul, hpred, hact, State.firedBad]

end Firing

/-! ## Results of nodes (R99, R302, R355) -/

section Results

variable {s u : State} {i : Instr} {n : GNode} {f : Firing}

/-- What a node sends whose result is the lanes of `res`. -/
theorem nodeSends_of_lanesOf {clk k w cnt : Nat} {ft : Fmt} {res : Nat → Nat × NxFlags}
    (h : exec i s = firedTo i f ((u.addFlags f (lanesOf w 0 (fun _ => true) res cnt).2).sendOut f (fieldsOf i) clk
      (outWords k (lanesOf w 0 (fun _ => true) res cnt).1) ft)) : s.nodeSends u i f clk ft k w cnt res := by
  refine ⟨_, _, h, lanesOf_lt .., fun j hj => ?_, fun b => ?_⟩
  · rw [lanesOf_elem _ _ _ _ hj, if_pos rfl]
  · simp only [lanesOf_flags, true_and]

/-- A node of elements: one result for each element of its payloads. -/
theorem nodeSends_eltNode {w : Nat} {ft : Fmt} {op : Nat → Nat → Nat → Nat × NxFlags} (hexec : exec i s = eltNode i w ft s op)
    (h : s.fires i f u) : s.nodeSends u i f (nodeClk i) ft (payloads u f) w (payloads u f * (64 / w)) fun j =>
      op (elemN (opN (payloads u f) f.l) w j) (elemN (rightN i (payloads u f) f) w j) (elemN (opN (payloads u f) f.p) w j) :=
  nodeSends_of_lanesOf (hexec.trans (runNode_ok h rfl))

/-- A floating-point node: each result from the elements at its place, on the format's values. -/
theorem nodeSends_fpNode {clk : Nat} {res : Nat → Nat × NxFlags} (op : Nat → Nat → Nat → Nat × NxFlags)
    (hexec : exec i s = fpNode i s op) (hn : fieldsOf i = n) (hclk : nodeClk i = clk) (hiv : ivOf i = false)
    (hres : let k := payloads u f
      let el (o : Option MTok) (j : Nat) : Nat := elemN (opN k o) (Fmt.width n.fmt) j
      ∀ j, op (el f.l j) (el f.r j) (el f.p j) = res j)
    (h : s.fires i f u) : s.nodeSends u i f clk n.fmt (payloads u f) (Fmt.width n.fmt)
      (payloads u f * (64 / Fmt.width n.fmt)) res := by
  subst hn hclk
  have hright : rightN i (payloads u f) f = opN (payloads u f) f.r := by rw [rightN, hiv, if_neg Bool.false_ne_true]
  have hsend := nodeSends_eltNode hexec h
  rw [hright] at hsend
  rwa [← funext hres]

/-- A compare of a floating-point format: one bit for each pair of elements, tag 0 (R317). -/
theorem nodeSends_cmpNode {clk : Nat} {c : Cmp} (hexec : exec i s = cmpNode i c s) (hn : fieldsOf i = n)
    (hclk : nodeClk i = clk) (hf : isInt n.fmt = false) (h : s.fires i f u) :
    let k := payloads u f
    let w := Fmt.width n.fmt
    let t (j : Nat) : Bool × NxFlags := fpCmp c (Fmt.value n.fmt (elemN (opN k f.l) w j)) (Fmt.value n.fmt (elemN (opN k f.r) w j))
    s.nodeSends u i f clk .int k 1 (k * (64 / w)) fun j => (if (t j).1 then 1 else 0, (t j).2) := by
  subst hn hclk
  have hcompare (w a b : Nat) :
      compare (fieldsOf i).fmt w c a b = fpCmp c (Fmt.value (fieldsOf i).fmt a) (Fmt.value (fieldsOf i).fmt b) := by
    rw [compare, hf, if_neg Bool.false_ne_true]
  refine nodeSends_of_lanesOf (hexec.trans (runNode_ok h ?_))
  simp only [hcompare]
  rfl

/-- An absent operand's elements are 0. -/
theorem elemN_opN_none (k w j : Nat) : elemN (opN k none) w j = 0 := by
  rw [opN, elemN, Nat.zero_div, Nat.zero_mod]

end Results

/-! ## Floating-point and conversion nodes (R101-R105, R315, R357) -/

section Nodes

variable {s u : State} {n : GNode} {f : Firing}

section Float

variable {g : Fmt} (hg : isInt g = false) (w : Nat) (rm : Rm) (rnd : Rnd) (a b c : Nat)
include hg

theorem arith_add_of_float : arith .add g w rm rnd a b c = fpAdd g rm rnd (Fmt.value g a) (Fmt.value g b) := by
  simp [arith, hg]

theorem arith_sub_of_float : arith .sub g w rm rnd a b c = fpSub g rm rnd (Fmt.value g a) (Fmt.value g b) := by
  simp [arith, hg]

theorem arith_mul_of_float : arith .mul g w rm rnd a b c = fpMul g rm rnd (Fmt.value g a) (Fmt.value g b) := by
  simp [arith, hg]

theorem arith_fma_of_float :
    arith .fma g w rm rnd a b c = fpFma g rm rnd (Fmt.value g a) (Fmt.value g b) (Fmt.value g c) := by
  simp [arith, hg]

end Float

theorem minMax_of_float {g : Fmt} (hg : isInt g = false) (w : Nat) (isMax : Bool) (a b : Nat) :
    minMax g w isMax a b = fpMinMax g isMax a b := by
  rw [minMax, hg, if_neg Bool.false_ne_true]

/-- In a stream block the addend is the third operand (R357). -/
theorem nodeSends_gFfma_stream (hf : isInt n.fmt = false) (hs : ((s.region f.rk).block f.ik.blk).stream = true)
    (h : s.fires (.gFfma n) f u) :
    let k := payloads u f
    let w := Fmt.width n.fmt
    s.nodeSends u (.gFfma n) f 4 n.fmt k w (k * (64 / w)) fun j => fpFma n.fmt (nodeRm n) {}
      (Fmt.value n.fmt (elemN (opN k f.l) w j)) (Fmt.value n.fmt (elemN (opN k f.r) w j)) (Fmt.value n.fmt (elemN (opN k f.p) w j)) := by
  have hadd (k w j : Nat) : (if f.p.isSome then elemN (opN k f.p) w j else 0) = elemN (opN k f.p) w j := by
    cases f.p with
    | none => exact (elemN_opN_none k w j).symm
    | some m => rfl
  refine nodeSends_of_lanesOf (runNode_ok h ?_)
  simp only [region_of_begins h.1, hs, arith_fma_of_float hf, hadd]
  rfl

/-- In a token block it is the upper half of the left payload (R315). -/
theorem nodeSends_gFfma_token (hf : isInt n.fmt = false) (hs : ((s.region f.rk).block f.ik.blk).stream = false)
    (h : s.fires (.gFfma n) f u) :
    let k := payloads u f
    let w := Fmt.width n.fmt
    s.nodeSends u (.gFfma n) f 4 n.fmt k w (64 / w / 2) fun j => fpFma n.fmt (nodeRm n) {}
      (Fmt.value n.fmt (elemN (opN k f.l) w j)) (Fmt.value n.fmt (elemN (opN k f.r) w j))
      (Fmt.value n.fmt (elemN (opN k f.l) w (64 / w / 2 + j))) := by
  refine nodeSends_of_lanesOf (runNode_ok h ?_)
  simp only [region_of_begins h.1, hs, if_neg Bool.false_ne_true, arith_fma_of_float hf]
  rfl

/-- `dq`: J + e counts through the whole left value, also of a wide cell, where the model chose so (log 72). -/
theorem exec_gDq (h : s.fires (.gDq n) f u) :
    let k := payloads u f
    let wd := Fmt.width n.dstFmt
    let q := fld f.rpay 43 40
    let sc := blockScale (fld f.rpay 31 0) (fld f.rpay 39 32)
    ∃ (x : Nat) (fl : NxFlags), exec (.gDq n) s = firedTo (.gDq n) f ((u.addFlags f fl).sendOut f n 2 (outWords k x) n.dstFmt)
      ∧ ∀ j, j < k * (64 / wd) → elemN x wd j =
        if 15 < q + j then 0 else (dequant n.dstFmt (nodeRm n) {} (elemN (opN k f.l) 4 (q + j)) sc.1).1 % 2 ^ wd := by
  intro k wd q sc
  refine ⟨_, _, runNode_ok h rfl, fun j hj => (lanesOf_elem _ _ _ _ hj).trans ?_⟩
  rw [if_pos rfl]
  split
  · exact Nat.zero_mod _
  · rfl

end Nodes

end Sys2Proof.Machine

open Sys2Proof Sys2Proof.Machine

/-- Settles O35: a node that fires does its effect on the machine that has begun it (`runNode_ok`, `runNode_error`), and the
lanes of its result are what it sends (`nodeSends_of_lanesOf`). That `dq` counts the lanes of a whole wide value is the
model's choice (log 72). -/
theorem floatNodes : Obligations.FloatNodes := by
  intro s u n f k w rm l r v
  refine ⟨fun hf => ?_, fun h => ⟨fun hsrc => ?_, fun hsrc => ?_⟩, fun h => ?_, exec_gDq, fun h => runNode_ok h rfl⟩
  · exact ⟨nodeSends_fpNode (fun a b _ => arith .add n.fmt w rm {} a b 0) rfl rfl rfl rfl fun _ => arith_add_of_float hf ..,
      nodeSends_fpNode (fun a b _ => arith .sub n.fmt w rm {} a b 0) rfl rfl rfl rfl fun _ => arith_sub_of_float hf ..,
      nodeSends_fpNode (fun a b _ => arith .mul n.fmt w rm {} a b 0) rfl rfl rfl rfl fun _ => arith_mul_of_float hf ..,
      nodeSends_fpNode (fun a b _ => minMax n.fmt w false a b) rfl rfl rfl rfl fun _ => minMax_of_float hf ..,
      nodeSends_fpNode (fun a b _ => minMax n.fmt w true a b) rfl rfl rfl rfl fun _ => minMax_of_float hf ..,
      nodeSends_fpNode (fun a b _ => fpDiv n.fmt rm {} (v a) (v b)) rfl rfl rfl rfl fun _ => rfl,
      nodeSends_fpNode (fun a _ _ => fpSqrt n.fmt rm {} (v a)) rfl rfl rfl rfl fun _ => rfl,
      nodeSends_fpNode (fun a _ _ => fpRcp n.fmt rm {} (v a)) rfl rfl rfl rfl fun _ => rfl,
      nodeSends_fpNode (fun a _ _ => fpExp2 n.fmt rm {} (v a)) rfl rfl rfl rfl fun _ => rfl,
      nodeSends_fpNode (fun a _ _ => fpLog2 n.fmt rm {} (v a)) rfl rfl rfl rfl fun _ => rfl,
      nodeSends_cmpNode rfl rfl rfl hf, nodeSends_cmpNode rfl rfl rfl hf, nodeSends_cmpNode rfl rfl rfl hf,
      nodeSends_gFfma_stream hf, nodeSends_gFfma_token hf⟩
  · exact nodeSends_of_lanesOf (runNode_ok h (if_neg hsrc))
  · exact runNode_error h (if_pos hsrc)
  · exact nodeSends_of_lanesOf (runNode_ok h rfl)
end

section
/-! Messages, masked windows, waiting and sleeping (R119-R128): the equation of each instruction and event, and O28, which they
settle. -/

namespace Sys2Proof.Machine

/-! ## A slot changed twice -/

theorem AMap.set_set {α : Type} (m : AMap α) (k : Nat) (v w : α) : set (set m k v) k w = set m k w := by
  induction m with
  | nil => simp [set]
  | cons p r ih =>
    obtain ⟨k', v'⟩ := p
    rcases lt_trichotomy k k' with h | h | h
    · simp [set, h]
    · simp [set, h]
    · simp [set, not_lt_of_gt h, h.ne', ih]

variable {s : State}

theorem modSlot_modSlot (s : State) (n : Nat) (f g : Slot → Slot) :
    (s.modSlot n f).modSlot n g = s.modSlot n fun v => g (f v) := by
  rw [State.modSlot, slot_modSlot, State.modSlot, State.setSlot, setSlot_slots, AMap.set_set]
  rfl

theorem modMe_modMe_eq (s : State) (f g : Slot → Slot) : (s.modMe f).modMe g = s.modMe fun v => g (f v) :=
  modSlot_modSlot s s.cur f g

/-- A change of the slot under way that depends on the slot, as the machine chooses between two changes. -/
theorem ite_modMe (s : State) (c : Slot → Bool) (f g : Slot → Slot) :
    (if c s.me then s.modMe f else s.modMe g) = s.modMe fun v => if c v then f v else g v := by
  change _ = s.setSlot s.cur (if c s.me then f s.me else g s.me)
  split <;> rfl

/-! ## Sending, windows and the return from a handler (R119, R123, R124) -/

theorem exec_msgSend {rs1 rs2 : XReg} {t p : Word} (ht : s.xr rs1 = .ok t) (hp : s.xr rs2 = .ok p)
    (h : t.toNat ≤ 8191) :
    exec (.msgSend rs1 rs2) s = .next (((s.releaseAt (coreOf s.cur) .dv).after
      (msgClk (s.releaseAt (coreOf s.cur) .dv).cur t.toNat)
      (.messageArrival { target := t.toNat, sender := (s.releaseAt (coreOf s.cur) .dv).cur, payload := p
                         vmid := (s.releaseAt (coreOf s.cur) .dv).vmid })).retire) := by
  change execMsgSend rs1 rs2 s = _
  rw [execMsgSend, ht, hp, ok_bind, ok_bind, need_ok (decide_eq_true h), ok_bind]
  rfl

theorem exec_msgSend_past {rs1 rs2 : XReg} {t p : Word} (ht : s.xr rs1 = .ok t) (hp : s.xr rs2 = .ok p)
    (h : 8191 < t.toNat) : exec (.msgSend rs1 rs2) s = .next (s.takeTrap { cause := 0x07, tval := t }) := by
  change execMsgSend rs1 rs2 s = _
  rw [execMsgSend, ht, hp, ok_bind, ok_bind, need_error (decide_eq_false (not_le_of_gt h)), error_bind, commit_error]
  rfl

theorem exec_msgMsk (s : State) : exec .msgMsk s = .next (s.modMe fun v =>
    if v.masked || v.inHandler then v.goto (v.pc + 4#64)
    else { v.goto (v.pc + 4#64) with masked := true, wcnt := 0 }) := by
  have hopen : s.retire.modMe (fun v => { v with masked := true, wcnt := 0 }) =
      s.modMe fun v => { v.goto (v.pc + 4#64) with masked := true, wcnt := 0 } := modMe_modMe_eq s _ _
  rw [← ite_modMe s fun v => v.masked || v.inHandler, ← hopen]
  rfl

theorem exec_msgUnm (s : State) : exec .msgUnm s = .next (s.modMe fun v =>
    if v.masked && !v.inHandler then { v.goto (v.pc + 4#64) with masked := false, wcnt := 0 }
    else v.goto (v.pc + 4#64)) := by
  have hclose : s.retire.modMe (fun v => { v with masked := false, wcnt := 0 }) =
      s.modMe fun v => { v.goto (v.pc + 4#64) with masked := false, wcnt := 0 } := modMe_modMe_eq s _ _
  rw [← ite_modMe s fun v => v.masked && !v.inHandler, ← hclose]
  rfl

theorem exec_msgRet (h : s.me.inHandler = true) : exec .msgRet s = .next (s.modMe fun v =>
    { v.goto (v.user.msgpc &&& ~~~3#64) with inHandler := false }) := by
  change execMsgRet s = _
  rw [execMsgRet, h]
  exact congrArg Host.Outcome.next
    (modMe_modMe_eq s (fun v => v.goto (s.me.user.msgpc &&& ~~~3#64)) fun v => { v with inHandler := false })

theorem exec_msgRet_outside (h : s.me.inHandler = false) :
    exec .msgRet s = .next (s.takeTrap { cause := 0x01, tval := codeOf .msgRet }) := by
  change execMsgRet s = _
  rw [execMsgRet, h]
  rfl

/-! ## Arrival (R117, R119, R120) -/

section Arrival
variable {m : Msg}

/-- A free entry of the inbox takes the message where none goes before it in the overflow ring. -/
theorem exec_messageArrival_inbox (hlast : m.target ≤ 8191) (hmine : (s.slot m.target).own.vmid.toNat = m.vmid)
    (hfenced : (s.core (coreOf m.target)).fenced = false) (hfree : (s.slot m.target).inbox.length < 8)
    (hring : (s.tenant m.vmid).movr = []) (hbound : ringBound s m.target = 0) :
    exec (.messageArrival m) s = .next (s.modSlot m.target fun v =>
      { v with inbox := v.inbox ++ [{ payload := m.payload, sender := m.sender, ovf := false }] }) := by
  change execMessageArrival m s = _
  simp [execMessageArrival, hmine, hfenced, not_lt_of_ge hlast, hfree, hring, hbound]

theorem exec_messageArrival_other (h : (s.slot m.target).own.vmid.toNat ≠ m.vmid) :
    exec (.messageArrival m) s = .next (s.count m.vmid .msgDrop) :=
  congrArg Host.Outcome.next (if_pos (.inl h))

theorem exec_msgOverflowWrite_other (h : (s.slot m.target).own.vmid.toNat ≠ m.vmid) (g : Gen) :
    exec (.msgOverflowWrite m g) s = .next (s.count m.vmid .msgDrop) :=
  congrArg Host.Outcome.next (if_pos (.inl h))

/-- An entry is written behind the header (log 12): its bytes, for which the spec gives no layout, are free. -/
theorem exec_msgOverflowWrite {t : State} {p : Phys} (hmine : (s.slot m.target).own.vmid.toNat = m.vmid)
    (hx : xlat s (s.devAgent m.vmid 0) (ringEntryVa s m.vmid) .w = .ok (p, t)) :
    exec (.msgOverflowWrite m (s.slot m.target).gen) s = .next
      (State.modTenant { t.putHome (t.devAgent m.vmid 0) p
          (natBytes 8 t.openVal.toNat ++ natBytes 8 (Config.freeWord (t.freeCtr + 1)).toNat) with
            freeCtr := t.freeCtr + 2 } m.vmid fun n => { n with
        movr := n.movr ++ [{ target := m.target, sender := m.sender, payload := m.payload
                             gen := (s.slot m.target).gen }]
        movrPos := n.movrPos + 1 }) := by
  change execMsgOverflowWrite m _ s = _
  simp only [execMsgOverflowWrite, hmine, hx, ne_eq, not_true_eq_false, or_self, if_false]

theorem exec_msgOverflowWrite_fault {e : Trap}
    (hx : xlat s (s.devAgent m.vmid 0) (ringEntryVa s m.vmid) .w = .error e) (g : Gen) :
    exec (.msgOverflowWrite m g) s = .next (s.count m.vmid .msgDrop) := by
  change execMsgOverflowWrite m g s = _
  simp only [execMsgOverflowWrite, hx, ite_self]

end Arrival

/-! ## Delivery (R121, R122) -/

section Delivery
variable {n : Nat}

/-- Nothing is withdrawn or completed for a slot that waits for nothing. -/
theorem exec_messageDelivery_run (hcan : canDeliver s n = true) (hrun : (s.slot n).wait = .run) :
    exec (.messageDelivery n) s = .next (s.deliverTo n) := by
  change execMessageDelivery n s = _
  simp only [execMessageDelivery, hcan, hrun, if_true]

theorem deliverTo_poisoned {k : Nat} (h : (s.slot n).poisonedShadow = some k) :
    s.deliverTo n = State.takeTrap { s with cur := n } { cause := 0x09, tval := regTval 3 k } := by
  rw [State.deliverTo, h]
  rfl

theorem deliverTo_inbox {m : InMsg} {r : List InMsg} (hbox : (s.slot n).inbox = m :: r)
    (hclean : (s.slot n).poisonedShadow = none) :
    s.deliverTo n = ((s.modSlot n fun v => { v with inbox := r }).acquireAt (coreOf n) .dv).setSlot n
      (Slot.deliver { s.slot n with inbox := r } m) := by
  simp only [State.deliverTo, hclean, State.oldest, hbox, slot_modSlot]

/-- The handler sees the payload as its a0 and the sender as its a1: both are shadow registers there. -/
theorem xreg_deliver (v : Slot) (m : InMsg) :
    ((v.deliver m).xreg 10#5).val = m.payload ∧ ((v.deliver m).xreg 11#5).val = w64 m.sender := by
  have hsender : (v.deliver m).xreg 11#5 = { val := w64 m.sender, gen := v.gen } := AMap.getD_set_self ..
  have hpayload : (v.deliver m).xreg 10#5 = { val := m.payload, gen := v.gen } :=
    (AMap.getD_set_ne _ _ _ (by decide)).trans (AMap.getD_set_self ..)
  exact ⟨congrArg XR.val hpayload, congrArg XR.val hsender⟩

end Delivery

/-! ## Waiting, sleeping, yielding (R126-R128) -/

theorem exec_wait_pending (h : 0 < s.pend s.cur) : exec .wait s = .next s.retire :=
  congrArg Host.Outcome.next (if_pos h)

theorem exec_wait_none (h : s.pend s.cur = 0) : exec .wait s = .next (s.holdOn .msg .wait 0#64) :=
  congrArg Host.Outcome.next (if_neg (by omega))

section Sleep
variable {rs1 : XReg} {d : Word} (hd : s.xr rs1 = .ok d)
include hd

theorem exec_sleepT_over (h : d.toNat ≤ s.now) : exec (.sleepT rs1) s = .next s.retire := by
  change execSleepT rs1 s = _
  rw [execSleepT, hd, ok_bind, if_pos h]
  rfl

theorem exec_sleepT_ahead (h : s.now < d.toNat) : exec (.sleepT rs1) s =
    .next (((s.holdOn .sleep (.sleepT rs1) d).dropDuties fun w => w.work == .ev (.sleepDeadline s.cur)).after
      (s.clkUntil d.toNat) (.sleepDeadline s.cur)) := by
  change execSleepT rs1 s = _
  rw [execSleepT, hd, ok_bind, if_neg (not_le_of_gt h)]
  rfl

end Sleep

section Deadline
variable {n t : Nat} {i : Instr} {d : Word} (hwait : (s.slot n).wait = .hold .sleep i t d)
include hwait

theorem exec_sleepDeadline_over (h : d.toNat ≤ s.now) :
    exec (.sleepDeadline n) s = .next (s.modSlot n fun v => v.goto (v.pc + 4#64)) := by
  change execSleepDeadline n s = _
  simp only [execSleepDeadline, hwait, if_pos h, completeSlot]

theorem exec_sleepDeadline_ahead (h : s.now < d.toNat) :
    exec (.sleepDeadline n) s = .next (s.after (s.clkUntil d.toNat) (.sleepDeadline n)) := by
  change execSleepDeadline n s = _
  simp only [execSleepDeadline, hwait, if_neg (not_le_of_gt h)]

end Deadline

end Sys2Proof.Machine

open Sys2Proof Sys2Proof.Machine

/-- Settles O28: each instruction and event is its equation; what a delivery leaves is read off the slot that
`deliverTo_inbox` names. The place of a ring entry and its free bytes are the model's choice (log 12). -/
theorem messagesAndWaiting : Obligations.MessagesAndWaiting := by
  refine ⟨fun s rs1 rs2 t p ht hp => ?sending, ⟨?inbox, ?other, ?overflow, ?fault, ?poisoned, ?delivered⟩,
    fun s rs1 d hd => ?waiting⟩
  case sending =>
    exact ⟨exec_msgSend ht hp, exec_msgSend_past ht hp, exec_msgMsk s, exec_msgUnm s, exec_msgRet,
      exec_msgRet_outside⟩
  case inbox =>
    exact fun s m hlast hmine hfenced hfree hring hbound =>
      exec_messageArrival_inbox hlast hmine hfenced hfree hring hbound
  case other => exact fun s m h => ⟨exec_messageArrival_other h, exec_msgOverflowWrite_other h⟩
  case overflow => exact fun s t m p hmine hx => ⟨_, _, exec_msgOverflowWrite hmine hx⟩
  case fault => exact fun s m e hx => exec_msgOverflowWrite_fault hx
  case poisoned =>
    intro s n k hpoison hcan hrun
    rw [exec_messageDelivery_run hcan hrun, deliverTo_poisoned hpoison]
  case delivered =>
    intro s n m r hbox hcan hrun hclean
    obtain ⟨hpayload, hsender⟩ := xreg_deliver { s.slot n with inbox := r } m
    refine ⟨_, exec_messageDelivery_run hcan hrun, ?_⟩
    rw [deliverTo_inbox hbox hclean, slot_setSlot]
    refine ⟨rfl, rfl, rfl, rfl, rfl, rfl, hpayload, hsender, rfl, ?_, fun k hk => ?_⟩
    · rw [core_setSlot, l1d_acquireAt _ _ (by decide)]
    · rw [slot_setSlot_ne _ _ hk, ← slot_modSlot_ne s (fun v => { v with inbox := r }) hk]
      rfl
  case waiting =>
    exact ⟨exec_wait_pending, exec_wait_none, exec_sleepT_over hd, exec_sleepT_ahead hd, rfl, fun n i t hwait =>
      ⟨exec_sleepDeadline_over hwait, fun h => ⟨_, exec_sleepDeadline_ahead hwait h, rfl⟩⟩⟩
end

section
/-! Completions and waits that end (R111, R155, R156, R172, R215, R227), and buffers and caches in time (R203, R204, R244): the
equation of each event, and O32, which they settle. -/

namespace Sys2Proof.Machine

variable {s : State}

/-! ## A completion returns its slot (R111) -/

/-- It is the wait of one slot that a completion can end; all else stays. -/
theorem rejoin_alone (s : State) (n : Nat) (k : WaitKind) :
    (rejoin k n s).apart = { s with slots := (rejoin k n s).slots }.apart ∧ (rejoin k n s).mem = s.mem
      ∧ (∀ j, j ≠ n → (rejoin k n s).slot j = s.slot j)
      ∧ ((s.slot n).wait = .done k → (rejoin k n s).slot n = { s.slot n with wait := .run })
      ∧ ((s.slot n).wait ≠ .done k → (rejoin k n s).slot n = s.slot n) :=
  ⟨rfl, rfl, fun _ hj => slot_modSlot_ne s _ hj, fun h => (slot_modSlot s n _).trans (if_pos h),
    fun h => (slot_modSlot s n _).trans (if_neg h)⟩

/-- The placer's completion asks for its wait by a pattern, to the same effect. -/
theorem exec_placerComplete (s : State) (n : Nat) : exec (.placerComplete n) s = .next (rejoin .placer n s) := by
  change execPlacerComplete n s = _
  rw [execPlacerComplete, rejoin]
  congr 2
  funext v
  split
  · next hdone => rw [if_pos hdone]
  · next hother => rw [if_neg hother]

/-- The verdict of a probe returns the slot that waits for it (R402), and else does nothing at all. -/
theorem exec_srpVerdict (s : State) (n : Nat) : exec (.srpVerdict n) s =
    .next (if (s.slot n).wait = .done .srp then rejoin .srp n s else s) := by
  change execSrpVerdict n s = _
  rw [execSrpVerdict]
  congr 1
  split
  · next hdone =>
    rw [if_pos hdone, rejoin, State.modSlot, State.modSlot, if_pos hdone]
  · next hother => rw [if_neg hother]

/-! ## The end of a band (R156, R168, R172) -/

/-- The elements of a band's row, each with the flags of its sum: its accumulator takes its addends in order. -/
def MxBand.sums (b : MxBand) (r : Nat) : List (Nat × NxFlags) :=
  (List.range (b.accs.getD r []).length).map fun k =>
    addAll b.ints ((b.accs.getD r []).getD k 0) ((b.adds.getD r []).getD k [])

section Band
variable {b : MxBand}

/-- An element that no other slot has stored to has its accumulator and all its addends left. -/
theorem left_of_put_nil (hput : b.put = []) {r k : Nat} (hk : k < (b.accs.getD r []).length)
    (hcol : b.col + (b.accs.getD r []).length ≤ 64) :
    b.left (64 * (b.row + r) + b.col + k) = some ((b.accs.getD r []).getD k 0, (b.adds.getD r []).getD k []) := by
  have hrow : (64 * (b.row + r) + b.col + k) / 64 = b.row + r := by omega
  have hcolumn : (64 * (b.row + r) + b.col + k) % 64 = b.col + k := by omega
  have hin : ¬ (b.row + r < b.row ∨ b.col + k < b.col) := by omega
  have hacc : (b.accs.getD r [])[k]? = some ((b.accs.getD r []).getD k 0) := by
    rw [List.getElem?_eq_getElem hk, List.getD_eq_getElem _ _ hk]
  rw [MxBand.left, hrow, hcolumn, if_neg hin, Nat.add_sub_cancel_left, Nat.add_sub_cancel_left, hacc, hput]
  rfl

/-- The end of a band writes its rows' sums in order, and joins their flags to those of the groups. -/
theorem mxBandEnd_of_put_nil (hput : b.put = []) (hcols : ∀ l ∈ b.accs, b.col + l.length ≤ 64) (s : State) (td : TdReg) :
    mxBandEnd s td b = setProgress
      ((List.range b.accs.length).foldl (fun s r => putRow s (b.row + r) b.col ((b.sums r).map (·.1))) s) td b.stop
      ((List.range b.accs.length).foldl (fun fl r => (b.sums r).foldl (fun fl e => fl ||| e.2) fl) b.flags) := by
  have hres : ((List.range b.accs.length).map fun r => (List.range (b.accs.getD r []).length).map fun k =>
      addAll b.ints ((b.left (64 * (b.row + r) + b.col + k)).getD (0, [])).1
        ((b.left (64 * (b.row + r) + b.col + k)).getD (0, [])).2) = (List.range b.accs.length).map b.sums := by
    refine List.map_congr_left fun r hr => List.map_congr_left fun k hk => ?_
    have hmem : b.accs.getD r [] ∈ b.accs := by
      rw [List.getD_eq_getElem _ _ (List.mem_range.1 hr)]
      exact List.getElem_mem _
    rw [left_of_put_nil hput (List.mem_range.1 hk) (hcols _ hmem), Option.getD_some]
  have hrows : ((List.range b.accs.length).map b.sums).zip (List.range b.accs.length) =
      (List.range b.accs.length).map fun r => (b.sums r, r) := by
    simpa using (List.zip_map' (f := b.sums) (g := id) (l := List.range b.accs.length))
  unfold mxBandEnd
  dsimp only
  rw [hres, List.length_map, List.length_range, hrows, List.foldl_map, List.foldl_map]

end Band

section Complete
variable {c : Nat} {o : MxOp} {r : List MxOp}

section BandEnds
variable {b : MxBand} {i : Instr} (hq : (s.core c).mxq = o :: r) (hb : o.band = some b)
include hq hb

/-- The operation goes on with its next band: its slot waits at its instruction again. -/
theorem exec_mxComplete_goesOn (hi : o.instr = some i) (h : spillWaits s o.slot = false ∨ b.last = true) :
    exec (.mxComplete c) s = .next
      { (((mxBandEnd { s with cur := o.slot } (BitVec.ofNat 3 (o.td.getD 0)) b).modCore c fun k =>
          { k with mxq := { o with band := none } :: r }).modMe fun v =>
          { v with wait := .hold .mx i s.now 0#64 }) with cur := s.cur } := by
  have hgo : (spillWaits s o.slot && !b.last) = false := by rcases h with h | h <;> simp [h]
  change execMxComplete c s = _
  simp only [execMxComplete, hq, hb, hgo, hi, Bool.false_eq_true, if_false, Option.map_some, Option.getD_some]

/-- An eviction stops the operation here: it leaves the engine, and its slot the wait. -/
theorem exec_mxComplete_evicted (hspill : spillWaits s o.slot = true) (hlast : b.last = false) :
    exec (.mxComplete c) s = .next
      { (((setMxrow (mxBandEnd { s with cur := o.slot } (BitVec.ofNat 3 (o.td.getD 0)) b)
            (BitVec.ofNat 3 (o.td.getD 0)) b.stop).modCore c fun k => { k with mxq := r }).modMe fun v =>
          { v with wait := .run }) with cur := s.cur } := by
  change execMxComplete c s = _
  simp only [execMxComplete, hq, hb, hspill, hlast, Bool.not_false, Bool.and_self, if_true]

end BandEnds

/-- An operation that is complete leaves the engine; its flags, and those that an accumulation has left in its descriptor,
join NXFLAGS of its slot. -/
theorem exec_mxComplete_done (hq : (s.core c).mxq = o :: r) (hb : o.band = none) :
    ∃ (u : State) (fl : NxFlags), exec (.mxComplete c) s = .next (u.modSlot o.slot fun v =>
        { v with user := { v.user with nxflags := v.user.nxflags ||| fl }
                 wait := if v.wait = .done .mx then .run else v.wait })
      ∧ u.slot o.slot = s.slot o.slot ∧ (u.core c).mxq = r
      ∧ (o.accum = false → fl = o.flags ∧ (u.core c).td = (s.core c).td)
      ∧ ∀ k, o.accum = true → o.td = some k → k < 8 → fl = o.flags ||| (AMap.getD (s.core c).td k {}).pflags
        ∧ (AMap.getD (u.core c).td k {}).pflags = 0#5 ∧ (AMap.getD (u.core c).td k {}).restart = 0#7 := by
  have hexec : exec (.mxComplete c) s = execMxComplete c s := rfl
  simp only [hexec, execMxComplete, hq, hb]
  refine ⟨_, _, rfl, ?_⟩
  cases haccum : o.accum with
  | false => simp
  | true =>
    cases htd : o.td with
    | none => simp
    | some j =>
      refine ⟨rfl, ?_, nofun, fun k _ hk hlt => ?_⟩
      · simp
      · cases hk
        have hnum : (BitVec.ofNat 3 j).toNat = j := by rw [BitVec.toNat_ofNat]; omega
        simp [hnum]

end Complete

/-! ## Waits at memory that end (R215, R216, R227) -/

/-- The instructions that an arrival of data completes: the synchronising and the bounded loads. -/
theorem cases_of_loadOver {n : Nat} {i : Instr} (h : loadOver s n i = true) :
    (∃ rd rs1, i = .ldS rd rs1) ∨ (∃ rd rs1, i = .ldSe rd rs1) ∨ (∃ vd rs1, i = .vldS vd rs1)
      ∨ (∃ dbl b rd rs1 rs2, i = .ldB dbl b rd rs1 rs2) ∨ ∃ b vd rs1 rs2, i = .vldB b vd rs1 rs2 := by
  unfold loadOver at h
  dsimp only at h
  split at h
  · exact .inl ⟨_, _, rfl⟩
  · exact .inr (.inl ⟨_, _, rfl⟩)
  · exact .inr (.inr (.inl ⟨_, _, rfl⟩))
  · exact .inr (.inr (.inr (.inl ⟨_, _, _, _, _, rfl⟩)))
  · exact .inr (.inr (.inr (.inr ⟨_, _, _, _, rfl⟩)))
  · cases h

section Waits
variable {n t : Nat} {k : WaitKind} {i : Instr} {a : Word}

/-- A load that can go on is performed as `exec` performs it. -/
theorem loadGoes_over (hwait : (s.slot n).wait = .hold k i t a) (h : loadOver s n i = true) :
    loadGoes k n s = .next (arrived (exec i (trial s n)) s) := by
  simp only [loadGoes, hwait, h, and_self, if_true]
  rcases cases_of_loadOver h with ⟨_, _, rfl⟩ | ⟨_, _, rfl⟩ | ⟨_, _, rfl⟩ | ⟨_, _, _, _, _, rfl⟩ | ⟨_, _, _, _, rfl⟩ <;> rfl

/-- One that cannot goes on waiting. -/
theorem loadGoes_held (hwait : (s.slot n).wait = .hold k i t a) (h : loadOver s n i = false) :
    loadGoes k n s = .next s := by
  simp only [loadGoes, hwait, h, and_false, Bool.false_eq_true, if_false]

variable (hwait : (s.slot n).wait = .hold .tide i t a)
include hwait

theorem exec_tideTmo_passed (hlimit : (s.slot n).user.tmo ≠ 0#48) (h : t + (s.slot n).user.tmo.toNat < s.now) :
    exec (.tideTmo n) s = .next (State.takeTrap { s with cur := n } { cause := 0x0E, tval := a }) := by
  change execTideTmo n s = _
  simp only [execTideTmo, hwait, if_pos (And.intro hlimit h)]
  rfl

theorem exec_tideTmo_ahead (hlimit : (s.slot n).user.tmo ≠ 0#48) (h : s.now ≤ t + (s.slot n).user.tmo.toNat) :
    exec (.tideTmo n) s =
      .next (s.after (s.clkUntil (t + (s.slot n).user.tmo.toNat + 1)) (.tideTmo n)) := by
  change execTideTmo n s = _
  simp only [execTideTmo, hwait, not_lt_of_ge h, and_false, if_false, if_neg hlimit]

theorem exec_tideTmo_unlimited (h : (s.slot n).user.tmo = 0#48) : exec (.tideTmo n) s = .next s := by
  change execTideTmo n s = _
  simp only [execTideTmo, hwait, h, ne_eq, not_true_eq_false, false_and, if_false, if_true]

end Waits

/-! ## Buffers and caches in time (R203, R244) -/

section Drain
variable {core line : Nat} {e : CbEntry} (hcore : core < 1024)
  (he : (s.core core).cb.find? (fun e => e.line == line) = some e)
include hcore he

theorem exec_coalesceDrainTimeout_due (h : e.last + 64 ≤ s.clk) :
    exec (.coalesceDrainTimeout core line) s = .next (s.cbDrain core line) := by
  change execCoalesceDrainTimeout core line s = _
  simp only [execCoalesceDrainTimeout, if_pos hcore, he, if_pos h]

theorem exec_coalesceDrainTimeout_early (h : s.clk < e.last + 64) :
    exec (.coalesceDrainTimeout core line) s =
      .next (s.after (e.last + 64 - s.clk) (.coalesceDrainTimeout core line)) := by
  change execCoalesceDrainTimeout core line s = _
  simp only [execCoalesceDrainTimeout, if_pos hcore, he, if_neg (not_le_of_gt h)]

end Drain

/-- A line drained is in the core's buffer no more. -/
theorem line_ne_of_mem_cbDrain {core line : Nat} {x : CbEntry} (h : x ∈ ((s.cbDrain core line).core core).cb) :
    x.line ≠ line := by
  rw [cb_cbDrain] at h
  exact bne_iff_ne.1 (List.mem_filter.1 h).2

section Forward
variable {cove line : Nat} {l : L2Line} (hl : AMap.get? (s.cove cove).l2 line = some l) (hdirty : l.dirty ≠ [])
include hl hdirty

theorem exec_l2WriteForward_due (h : l.since + 2048 ≤ s.clk) :
    exec (.l2WriteForward cove line) s = .next (s.l2Forward cove line) := by
  change execL2WriteForward cove line s = _
  simp only [execL2WriteForward, hl, List.isEmpty_iff, if_neg hdirty, if_pos h]

theorem exec_l2WriteForward_early (h : s.clk < l.since + 2048) : exec (.l2WriteForward cove line) s =
    .next (s.after (l.since + 2048 - s.clk) (.l2WriteForward cove line)) := by
  change execL2WriteForward cove line s = _
  simp only [execL2WriteForward, hl, List.isEmpty_iff, if_neg hdirty, if_neg (not_le_of_gt h)]

end Forward

theorem exec_l1dLineExpiry_due {core line : Nat} {l : L1dLine} (hl : AMap.get? (s.core core).l1d line = some l)
    (h : l.clk + 4096 ≤ s.clk) : exec (.l1dLineExpiry core line) s =
      .next (s.modCore core fun c => { c with l1d := AMap.del c.l1d line }) := by
  change execL1dLineExpiry core line s = _
  simp only [execL1dLineExpiry, hl, if_pos h]

end Sys2Proof.Machine

open Sys2Proof Sys2Proof.Machine

/-- Settles O32: a completion is `rejoin`, or takes the oldest operation of the engine (`exec_mxComplete_done`) or ends its
band (`mxBandEnd_of_put_nil`); a wait that ends is the load's own execution (`loadGoes_over`); a drained or forwarded line
has nothing left to send (`line_ne_of_mem_cbDrain`, `unsent_l2Forward`). -/
theorem completionsInTime : Obligations.CompletionsInTime := by
  refine ⟨fun s n => ?completions, fun s n i t a => ?waits, fun s core cove line => ⟨?drain, ?forward, ?expiry, rfl⟩⟩
  case completions =>
    intro back
    have hback : ∀ {k e}, exec e s = .next (rejoin k n s) → back k e := fun h => ⟨_, h, rejoin_alone s n _⟩
    refine ⟨hback rfl, hback rfl, hback rfl, hback rfl, hback rfl, ?verdict, hback (exec_placerComplete s n),
      fun c o r b i hq hb hput _ hi hcols => ?band, fun c o r hq hb hwait => ?done⟩
    case verdict =>
      refine ⟨_, exec_srpVerdict s n, ?_⟩
      split
      · exact rejoin_alone s n .srp
      · next hother => exact ⟨rfl, rfl, fun _ _ => rfl, fun hdone => absurd hdone hother, fun _ => rfl⟩
    case band =>
      have hend := mxBandEnd_of_put_nil hput hcols { s with cur := o.slot } (BitVec.ofNat 3 (o.td.getD 0))
      refine ⟨fun h => ?_, fun hspill hlast => ?_⟩
      · rw [exec_mxComplete_goesOn hq hb hi h, hend]
        rfl
      · rw [exec_mxComplete_evicted hq hb hspill hlast, hend]
        rfl
    case done =>
      obtain ⟨u, fl, hexec, hslot, hleft, hplain, haccum⟩ := exec_mxComplete_done hq hb
      refine ⟨_, hexec, hleft, ?_⟩
      rw [slot_modSlot, hslot]
      refine ⟨if_pos hwait, fun h => ?_, fun k h htd hk => ?_⟩
      · obtain ⟨rfl, htds⟩ := hplain h
        exact ⟨rfl, htds⟩
      · obtain ⟨rfl, hpflags, hrestart⟩ := haccum k h htd hk
        exact ⟨rfl, hpflags, hrestart⟩
  case waits =>
    exact ⟨loadGoes_over, loadGoes_held, loadGoes_over, loadGoes_held, exec_tideTmo_passed, exec_tideTmo_ahead,
      exec_tideTmo_unlimited⟩
  case drain =>
    exact fun e hcore he => ⟨fun h => ⟨exec_coalesceDrainTimeout_due hcore he h, fun _ => line_ne_of_mem_cbDrain⟩,
      exec_coalesceDrainTimeout_early hcore he⟩
  case forward =>
    exact fun l hl hdirty => ⟨fun h => ⟨exec_l2WriteForward_due hl hdirty h, fun _ => unsent_l2Forward⟩,
      exec_l2WriteForward_early hl hdirty⟩
  case expiry => exact fun l hl h => exec_l1dLineExpiry_due hl h
end

section
/-! Element-wise vector arithmetic, logic and shifts (R136, R138-R141, R144): integers of an element's bits, what each form
shared by these instructions writes, and O11 and O12, which they settle. -/

namespace Sys2Proof.Machine

/-! ## Integers of an element's bits (R28) -/

section Integers

variable (w : Nat)

theorem intOf_eq_toInt (x : Nat) : intOf w x = (BitVec.ofNat w x).toInt := by
  rw [BitVec.toInt_eq_toNat_cond, BitVec.toNat_ofNat, intOf]
  cases w with
  | zero => simp [Nat.mod_one]
  | succ w =>
    have hneg : 2 * (x % 2 ^ (w + 1)) < 2 ^ (w + 1) ↔ x % 2 ^ (w + 1) < 2 ^ w := by omega
    simp only [hneg, Nat.add_sub_cancel, Nat.cast_pow, Nat.cast_ofNat]

theorem natOf_eq_toNat (n : Int) : natOf w n = (BitVec.ofInt w n).toNat := by
  rw [BitVec.toNat_ofInt, natOf, Nat.cast_pow, Nat.cast_ofNat]

@[simp] theorem natOf_zero : natOf w 0 = 0 := by rw [natOf, Int.zero_emod, Int.toNat_zero]

theorem natOf_neg_one : natOf w (-1) = 2 ^ w - 1 := by rw [natOf_eq_toNat, ofInt_neg_one, BitVec.toNat_allOnes]

variable {w}

/-- The bits of an element's integer are the element. -/
theorem natOf_intOf {x : Nat} (h : x < 2 ^ w) : natOf w (intOf w x) = x := by
  rw [natOf_eq_toNat, intOf_eq_toInt, BitVec.ofInt_toInt, BitVec.toNat_ofNat, Nat.mod_eq_of_lt h]

theorem intOf_eq_zero_iff {x : Nat} (h : x < 2 ^ w) : intOf w x = 0 ↔ x = 0 := by
  constructor
  · intro h0
    rw [← natOf_intOf h, h0, natOf_zero]
  · rintro rfl
    rw [intOf_eq_toInt, BitVec.toInt_zero]

/-- Wrapping a part of a sum first changes nothing. -/
theorem natOf_natOf_add (x y : Int) : natOf w ((natOf w x : Int) + y) = natOf w (x + y) := by
  have hcast : ((natOf w x : Nat) : Int) = x % 2 ^ w := Int.toNat_of_nonneg (Int.emod_nonneg _ (by positivity))
  rw [hcast, natOf, natOf, Int.emod_add_emod]

theorem natOf_add_natOf (x y : Int) : natOf w (x + (natOf w y : Int)) = natOf w (x + y) := by
  rw [add_comm, natOf_natOf_add, add_comm]

end Integers

theorem elemV_lt (v : VWord) (w k : Nat) : elemV v w k < 2 ^ w := Nat.mod_lt _ (by positivity)

/-! ## One element (R138, R139, R144) -/

section Element

variable {f : Fmt} (hf : isInt f = true) (w : Nat) (rm : Rm) (rnd : Rnd) (a b c : Nat)
include hf

theorem arith_add_of_int : arith .add f w rm rnd a b c = (natOf w (a + b), 0#5) := by simp [arith, hf]

theorem arith_sub_of_int : arith .sub f w rm rnd a b c = (natOf w (a - b), 0#5) := by simp [arith, hf]

theorem arith_mul_of_int : arith .mul f w rm rnd a b c = (natOf w (a * b), 0#5) := by simp [arith, hf]

theorem arith_fma_of_int : arith .fma f w rm rnd a b c = (natOf w (a * b + c), 0#5) := by simp [arith, hf]

variable {w a b} (ha : a < 2 ^ w) (hb : b < 2 ^ w)
include ha hb

theorem minMax_false_of_int : minMax f w false a b = (natOf w (min (intOf w a) (intOf w b)), 0#5) := by
  rw [minMax, if_pos hf]
  by_cases h : intOf w a < intOf w b
  · simp [h, min_eq_left h.le, natOf_intOf ha]
  · simp [h, min_eq_right (not_lt.1 h), natOf_intOf hb]

theorem minMax_true_of_int : minMax f w true a b = (natOf w (max (intOf w a) (intOf w b)), 0#5) := by
  rw [minMax, if_pos hf]
  by_cases h : intOf w a < intOf w b
  · simp [h, max_eq_right h.le, natOf_intOf hb]
  · simp [h, max_eq_left (not_lt.1 h), natOf_intOf ha]

end Element

/-- The machine tells a division by zero by the element, the quotient by its integer. -/
theorem quotBits_eq_natOf_quot {w y : Nat} (x : Nat) (hy : y < 2 ^ w) :
    (if y = 0 then 2 ^ w - 1 else natOf w ((intOf w x).tdiv (intOf w y))) = natOf w (quot (intOf w x) (intOf w y)) := by
  rw [quot]
  by_cases h : y = 0
  · rw [if_pos h, if_pos ((intOf_eq_zero_iff hy).2 h), natOf_neg_one]
  · rw [if_neg h, if_neg (mt (intOf_eq_zero_iff hy).1 h)]

/-! ## Bits of an element (R140, R141) -/

section Bits

variable {w x y : Nat}

theorem toNat_ofNat_of_lt (hx : x < 2 ^ w) : (BitVec.ofNat w x).toNat = x := by
  rw [BitVec.toNat_ofNat, Nat.mod_eq_of_lt hx]

theorem shiftLeft_elem (hx : x < 2 ^ w) (k : Nat) : x * 2 ^ k % 2 ^ w = (BitVec.ofNat w x <<< k).toNat := by
  rw [BitVec.toNat_shiftLeft, toNat_ofNat_of_lt hx, Nat.shiftLeft_eq]

theorem ushiftRight_elem (hx : x < 2 ^ w) (k : Nat) : x / 2 ^ k = (BitVec.ofNat w x >>> k).toNat := by
  rw [BitVec.toNat_ushiftRight, toNat_ofNat_of_lt hx, Nat.shiftRight_eq_div_pow]

theorem sshiftRight_elem (x k : Nat) : natOf w (intOf w x / 2 ^ k) = ((BitVec.ofNat w x).sshiftRight k).toNat := by
  rw [natOf_eq_toNat, intOf_eq_toInt, sshiftRight_eq_ofInt]

end Bits

/-! ## Instructions of the same form (R136, R138, R139, R144) -/

theorem vecRm_illegal {s : State} {f : Fmt} (hf : isInt f = false) (hvrm : s.me.user.vrm = 7#3) (i : Instr) :
    s.vecRm i f = .error { cause := 0x01, tval := codeOf i } := by
  simp [State.vecRm, hf, hvrm, illegal, cILLEGAL, codeOf, wordOf]

section Forms

variable {s : State} {m : Bool} {f : Fmt} {vd vs1 vs2 : VReg} {v0 a b c r : VWord} {rm : Rm}
  (hd : s.vOk vd) (hm : s.vecMask m = .ok v0) (ha : s.vr vs1 = .ok a) (hb : s.vr vs2 = .ok b)
include hd hm ha hb

/-- Arithmetic reads vd for the fused form alone. -/
theorem vecWrites_vecArith {op : Arith} (hrm : ∀ i, s.vecRm i f = .ok rm) (hr : s.vecRnd rm = .ok r)
    (hc : if op = .fma then s.vr vd = .ok c else c = 0#1024) (i : Instr) {res : Nat → Nat × NxFlags}
    (hres : ∀ k, arith op f (Fmt.width f) rm (rndAt r.toNat (Fmt.width f) k) (elemV a (Fmt.width f) k)
      (elemV b (Fmt.width f) k) (elemV c (Fmt.width f) k) = res k) :
    s.vecWrites m v0 (Fmt.width f) (lanes f) vd res (vecArith i op m f vd vs1 vs2 s) := by
  rw [← funext hres, vecArith, hrm, ok_bind, ha, ok_bind, hb, ok_bind]
  dsimp only
  split at hc
  · next hop =>
    rw [if_pos hop, hc, ok_bind, hr, ok_bind]
    exact vecWrites_of_vecMap hd hm (width_mul_lanes f).le
  · next hop =>
    rw [if_neg hop, ok_bind, hr, ok_bind, ← hc]
    exact vecWrites_of_vecMap hd hm (width_mul_lanes f).le

theorem vecWrites_vecBinary {chk : Bool} {i : Instr} (hrm : chk = true → s.vecRm i f = .ok rm)
    {op : Nat → Nat → Nat → Nat × NxFlags} {res : Nat → Nat × NxFlags}
    (hres : ∀ k, op (Fmt.width f) (elemV a (Fmt.width f) k) (elemV b (Fmt.width f) k) = res k) :
    s.vecWrites m v0 (Fmt.width f) (lanes f) vd res (vecBinary i chk m f vd vs1 vs2 s op) := by
  rw [← funext hres]
  cases chk with
  | false =>
    rw [vecBinary, if_neg Bool.false_ne_true, ok_bind, ha, ok_bind, hb, ok_bind]
    exact vecWrites_of_vecMap hd hm (width_mul_lanes f).le
  | true =>
    rw [vecBinary, if_pos rfl, hrm rfl, ok_bind, ha, ok_bind, hb, ok_bind]
    exact vecWrites_of_vecMap hd hm (width_mul_lanes f).le

theorem vecWrites_vdiv (hrm : ∀ i, s.vecRm i f = .ok rm) (hr : s.vecRnd rm = .ok r) {res : Nat → Nat × NxFlags}
    (hres : ∀ k, (if isInt f then (if elemV b 32 k = 0 then 2 ^ 32 - 1
        else natOf 32 ((intOf 32 (elemV a 32 k)).tdiv (intOf 32 (elemV b 32 k))), 0#5)
      else fpDiv .fp32 rm (rndAt r.toNat 32 k) (Fmt.value .fp32 (elemV a 32 k)) (Fmt.value .fp32 (elemV b 32 k))) = res k) :
    s.vecWrites m v0 32 32 vd res (exec (.vdiv m f vd vs1 vs2) s) := by
  change s.vecWrites _ _ _ _ _ _ (execVdiv m f vd vs1 vs2 s)
  rw [← funext hres, execVdiv, hrm, ok_bind, ha, ok_bind, hb, ok_bind, hr, ok_bind]
  exact vecWrites_of_vecMap hd hm (by decide)

end Forms

/-- VRM = 111 stops an instruction of a floating-point format before it reads a register (R136). -/
theorem exec_arith_illegal {s : State} {f : Fmt} (hf : isInt f = false) (hvrm : s.me.user.vrm = 7#3) (m : Bool)
    (vd vs1 vs2 : VReg) :
    ∀ i ∈ [Instr.vadd m f vd vs1 vs2, .vsub m f vd vs1 vs2, .vmul m f vd vs1 vs2, .vfma m f vd vs1 vs2,
        .vmin m f vd vs1 vs2, .vmax m f vd vs1 vs2, .vdiv m f vd vs1 vs2],
      exec i s = .next (s.takeTrap { cause := 0x01, tval := codeOf i }) := by
  have harith (i : Instr) (op : Arith) :
      vecArith i op m f vd vs1 vs2 s = .next (s.takeTrap { cause := 0x01, tval := codeOf i }) := by
    rw [vecArith, vecRm_illegal hf hvrm, error_bind, commit_error]
  have hbinary (i : Instr) (op : Nat → Nat → Nat → Nat × NxFlags) :
      vecBinary i true m f vd vs1 vs2 s op = .next (s.takeTrap { cause := 0x01, tval := codeOf i }) := by
    rw [vecBinary, if_pos rfl, vecRm_illegal hf hvrm, error_bind, commit_error]
  have hdiv : execVdiv m f vd vs1 vs2 s = .next (s.takeTrap { cause := 0x01, tval := codeOf (.vdiv m f vd vs1 vs2) }) := by
    rw [execVdiv, vecRm_illegal hf hvrm, error_bind, commit_error]
  simp only [List.forall_mem_cons, List.not_mem_nil, false_implies, implies_true, and_true]
  exact ⟨harith _ .add, harith _ .sub, harith _ .mul, harith _ .fma,
    hbinary _ fun w a b => minMax f w false a b, hbinary _ fun w a b => minMax f w true a b, hdiv⟩

end Sys2Proof.Machine

open Sys2Proof Sys2Proof.Machine

/-- Settles O11: every form but division is `vecArith` or `vecBinary`, whose results are those of one element. -/
theorem vectorArithmetic : Obligations.VectorArithmetic := by
  intro s m f vd vs1 vs2 v0 a b hd hm ha hb w x y fx fy ints reals
  refine ⟨fun hf => ?integers, ?division, fun hf rm r hr => ?floats, fun hf hvrm => exec_arith_illegal hf hvrm m vd vs1 vs2⟩
  case integers =>
    have hrm (i : Instr) : s.vecRm i f = .ok .rne := vecRm_int hf i
    have harith (op : Arith) {c : VWord} (hc : if op = .fma then s.vr vd = .ok c else c = 0#1024) (i : Instr)
        {res : Nat → Nat × NxFlags} := vecWrites_vecArith (res := res) hd hm ha hb hrm (r := 0#1024) rfl hc i
    have hminMax (isMax : Bool) (i : Instr) {res : Nat → Nat × NxFlags} :=
      vecWrites_vecBinary (res := res) (chk := true) (op := fun w x y => minMax f w isMax x y) hd hm ha hb fun _ => hrm i
    have hx (k : Nat) : x k < 2 ^ w := elemV_lt a w k
    have hy (k : Nat) : y k < 2 ^ w := elemV_lt b w k
    exact ⟨harith .add rfl _ fun k => arith_add_of_int hf .., harith .sub rfl _ fun k => arith_sub_of_int hf ..,
      harith .mul rfl _ fun k => arith_mul_of_int hf .., fun c hc => harith .fma hc _ fun k => arith_fma_of_int hf ..,
      hminMax false _ fun k => minMax_false_of_int hf (hx k) (hy k), hminMax true _ fun k => minMax_true_of_int hf (hx k) (hy k)⟩
  case division =>
    rintro rfl
    refine vecWrites_vdiv hd hm ha hb (vecRm_int rfl) (r := 0#1024) rfl fun k => ?_
    rw [if_pos (show isInt .int = true from rfl), quotBits_eq_natOf_quot _ (elemV_lt b 32 k)]
    rfl
  case floats =>
    have hrm (i : Instr) : s.vecRm i f = .ok rm := vecRm_of_rounds hr hf i
    have hrnd := vecRnd_of_rounds hr
    have harith (op : Arith) {c : VWord} (hc : if op = .fma then s.vr vd = .ok c else c = 0#1024) (i : Instr)
        {res : Nat → Nat × NxFlags} := vecWrites_vecArith (res := res) hd hm ha hb hrm hrnd hc i
    have hminMax (isMax : Bool) (i : Instr) {res : Nat → Nat × NxFlags} :=
      vecWrites_vecBinary (res := res) (chk := true) (op := fun w x y => minMax f w isMax x y) hd hm ha hb fun _ => hrm i
    refine ⟨harith .add rfl _ fun k => arith_add_of_float hf .., harith .sub rfl _ fun k => arith_sub_of_float hf ..,
      harith .mul rfl _ fun k => arith_mul_of_float hf .., fun c hc => harith .fma hc _ fun k => arith_fma_of_float hf ..,
      hminMax false _ fun k => minMax_of_float hf .., hminMax true _ fun k => minMax_of_float hf .., ?_⟩
    rintro rfl
    exact vecWrites_vdiv hd hm ha hb hrm hrnd fun k => if_neg Bool.false_ne_true

/-- Settles O12: all six are `vecBinary` without the check of VRM, and the machine's numbers are the bit vectors' own. -/
theorem vectorLogic : Obligations.VectorLogic := by
  intro s m f vd vs1 vs2 v0 a b hd hm ha hb w gives
  have hbits (i : Instr) (op : Nat → Nat → Nat → Nat × NxFlags) (hexec : exec i s = vecBinary i false m f vd vs1 vs2 s op)
      {res : BitVec w → BitVec w → BitVec w}
      (hop : ∀ x y, x < 2 ^ w → y < 2 ^ w → op w x y = ((res (BitVec.ofNat w x) (BitVec.ofNat w y)).toNat, 0#5)) :
      gives i res := by
    change s.vecWrites _ _ _ _ _ _ (exec i s)
    rw [hexec]
    exact vecWrites_vecBinary (rm := .rne) hd hm ha hb (fun h => absurd h Bool.false_ne_true)
      fun k => hop _ _ (elemV_lt a w k) (elemV_lt b w k)
  refine ⟨?and, ?or, ?xor, ?sll, ?srl, ?sra⟩
  case and =>
    refine hbits _ (fun _ x y => (x &&& y, 0#5)) rfl (res := fun x y => x &&& y) fun x y hx hy => ?_
    rw [BitVec.toNat_and, toNat_ofNat_of_lt hx, toNat_ofNat_of_lt hy]
  case or =>
    refine hbits _ (fun _ x y => (x ||| y, 0#5)) rfl (res := fun x y => x ||| y) fun x y hx hy => ?_
    rw [BitVec.toNat_or, toNat_ofNat_of_lt hx, toNat_ofNat_of_lt hy]
  case xor =>
    refine hbits _ (fun _ x y => (x ^^^ y, 0#5)) rfl (res := fun x y => x ^^^ y) fun x y hx hy => ?_
    rw [BitVec.toNat_xor, toNat_ofNat_of_lt hx, toNat_ofNat_of_lt hy]
  case sll =>
    refine hbits _ (fun w x y => (x * 2 ^ (y % w) % 2 ^ w, 0#5)) rfl (res := fun x y => x <<< (y.toNat % w)) fun x y hx hy => ?_
    rw [← shiftLeft_elem hx, toNat_ofNat_of_lt hy]
  case srl =>
    refine hbits _ (fun w x y => (x / 2 ^ (y % w), 0#5)) rfl (res := fun x y => x >>> (y.toNat % w)) fun x y hx hy => ?_
    rw [← ushiftRight_elem hx, toNat_ofNat_of_lt hy]
  case sra =>
    refine hbits _ (fun w x y => (natOf w (intOf w x / 2 ^ (y % w)), 0#5)) rfl (res := fun x y => x.sshiftRight (y.toNat % w))
      fun x y _ hy => ?_
    rw [← sshiftRight_elem, toNat_ofNat_of_lt hy]
end

section
/-! Vector compares, select and movement of elements (R142, R143, R148-R152): what each of these instructions writes, and O13. -/

namespace Sys2Proof.Machine

variable {s : State} {m : Bool} {f : Fmt} {vd vs1 vs2 : VReg} {rd rs : XReg} {v0 a b : VWord} {x : Word}

/-! ## Compares and select (R142, R143) -/

section Compare

variable (c : Cmp) (w i j : Nat)

theorem compare_of_float (hf : isInt f = false) : compare f w c i j = fpCmp c (Fmt.value f i) (Fmt.value f j) := by
  rw [compare, if_neg (Bool.eq_false_iff.1 hf)]

variable (hf : isInt f = true)
include hf

theorem compare_lt_of_int : compare f w .lt i j = (decide (intOf w i < intOf w j), 0#5) := if_pos hf

theorem compare_le_of_int : compare f w .le i j = (decide (intOf w i ≤ intOf w j), 0#5) := if_pos hf

theorem compare_eq_of_int : compare f w .eq i j = (decide (intOf w i = intOf w j), 0#5) := if_pos hf

end Compare

/-- Without a mask every element is active, whatever v0 holds (R131). -/
theorem vecWrites_unmasked {w n : Nat} {res : Nat → Nat × NxFlags} {o : Out}
    (h : s.vecWrites false 0#1024 w n vd res o) (v0 : VWord) : s.vecWrites false v0 w n vd res o := by
  simpa only [State.vecWrites, true_or] using h

section Compares

variable (hd : s.vOk vd) (ha : s.vr vs1 = .ok a) (hb : s.vr vs2 = .ok b)
include hd ha hb

theorem vecWrites_vecCompare (hm : s.vecMask m = .ok v0) {c : Cmp} {res : Nat → Bool × NxFlags}
    (hres : ∀ k, compare f (Fmt.width f) c (elemV a (Fmt.width f) k) (elemV b (Fmt.width f) k) = res k) :
    s.vecWrites m v0 1 (lanes f) vd (fun k => (if (res k).1 then 1 else 0, (res k).2)) (vecCompare c m f vd vs1 vs2 s) := by
  rw [← funext hres, vecCompare, ha, ok_bind, hb, ok_bind]
  exact vecWrites_of_vecMap hd hm ((Nat.one_mul _).trans_le (Nat.div_le_self ..))

theorem vecWrites_vsel (hv0 : s.vr 0#5 = .ok v0) :
    s.vecWrites false v0 (Fmt.width f) (lanes f) vd
      (fun k => (if v0.getLsbD k then elemV a (Fmt.width f) k else elemV b (Fmt.width f) k, 0#5))
      (exec (.vsel f vd vs1 vs2) s) := by
  change s.vecWrites _ _ _ _ _ _ (execVsel f vd vs1 vs2 s)
  rw [execVsel, hv0, ok_bind, ha, ok_bind, hb, ok_bind]
  exact vecWrites_unmasked (vecWrites_of_vecMap hd rfl (width_mul_lanes f).le) v0

end Compares

/-! ## Movement of elements (R148-R152) -/

section Moves

variable (hd : s.vOk vd) (hm : s.vecMask m = .ok v0) (ha : s.vr vs1 = .ok a)
include hd hm

theorem vecWrites_vsplat (hx : s.xr rs = .ok x) :
    s.vecWrites m v0 (Fmt.width f) (lanes f) vd (fun _ => (x.toNat, 0#5)) (exec (.vsplat m f vd rs) s) := by
  change s.vecWrites _ _ _ _ _ _ (execVsplat m f vd rs s)
  rw [execVsplat, hx, ok_bind]
  exact vecWrites_of_vecMap hd hm (width_mul_lanes f).le

include ha

theorem vecWrites_vperm (hb : s.vr vs2 = .ok b) :
    s.vecWrites m v0 (Fmt.width f) (lanes f) vd (fun k => (elemV a (Fmt.width f)
      (if f = .lq4 then 16 * (k / 16) + elemV b (Fmt.width f) k else elemV b (Fmt.width f) k % lanes f), 0#5))
      (exec (.vperm m f vd vs1 vs2) s) := by
  change s.vecWrites _ _ _ _ _ _ (execVperm m f vd vs1 vs2 s)
  rw [execVperm, ha, ok_bind, hb, ok_bind]
  exact vecWrites_of_vecMap hd hm (width_mul_lanes f).le

theorem vecWrites_vslide (hx : s.xr rs = .ok x) :
    s.vecWrites m v0 (Fmt.width f) (lanes f) vd (fun k => (if 0 ≤ (k : Int) - x.toInt ∧ (k : Int) - x.toInt < lanes f
      then elemV a (Fmt.width f) ((k : Int) - x.toInt).toNat else 0, 0#5)) (exec (.vslide m f vd vs1 rs) s) := by
  change s.vecWrites _ _ _ _ _ _ (execVslide m f vd vs1 rs s)
  rw [execVslide, ha, ok_bind, hx, ok_bind]
  exact vecWrites_of_vecMap hd hm (width_mul_lanes f).le

theorem vecWrites_vmov : s.vecWrites m v0 (Fmt.width f) (lanes f) vd (fun k => (elemV a (Fmt.width f) k, 0#5))
    (exec (.vmov m f vd vs1) s) := by
  change s.vecWrites _ _ _ _ _ _ (execVmov m f vd vs1 s)
  rw [execVmov, ha, ok_bind]
  exact vecWrites_of_vecMap hd hm (width_mul_lanes f).le

end Moves

theorem sext_w64 {w : Nat} (hw : w ≤ 64) (e : Nat) : sext w (w64 e) = word (intOf w e) := by
  rw [sext, w64, BitVec.setWidth_ofNat_of_le hw, intOf_eq_toInt]
  rfl

theorem exec_vxtr (hrd : s.xOk rd) (ha : s.vr vs1 = .ok a) (hx : s.xr rs = .ok x) :
    exec (.vxtr f rd vs1 rs) s = .next (s.putX rd (if lanes f ≤ x.toNat then 0#64
      else if isInt f then word (intOf (Fmt.width f) (elemV a (Fmt.width f) x.toNat))
      else w64 (elemV a (Fmt.width f) x.toNat))).retire := by
  have hw : Fmt.width f ≤ 64 := by cases f <;> decide
  change execVxtr f rd vs1 rs s = _
  rw [execVxtr, ha, ok_bind, hx, ok_bind]
  dsimp only
  rw [sext_w64 hw, setX_of_xOk hrd, ok_bind]
  rfl

end Sys2Proof.Machine

open Sys2Proof Sys2Proof.Machine

/-- Settles O13: the three compares are `vecCompare`, whose results are those of one pair of elements; each other instruction is
its own equation. -/
theorem vectorComparesAndMoves : Obligations.VectorComparesAndMoves := by
  refine ⟨fun s m f vd vs1 vs2 v0 a b hd ha hb => ⟨fun hm => ⟨fun hf => ?integers, fun hf => ?floats⟩, vecWrites_vsel hd ha hb⟩,
    fun s m f vd vs1 vs2 rd rs v0 a b x ha hx => ⟨fun hd hm => ?moves, fun hrd => exec_vxtr hrd ha hx⟩⟩
  case integers =>
    exact ⟨vecWrites_vecCompare hd ha hb hm (c := .lt) fun k => compare_lt_of_int _ _ _ hf,
      vecWrites_vecCompare hd ha hb hm (c := .le) fun k => compare_le_of_int _ _ _ hf,
      vecWrites_vecCompare hd ha hb hm (c := .eq) fun k => compare_eq_of_int _ _ _ hf⟩
  case floats =>
    exact ⟨vecWrites_vecCompare hd ha hb hm (c := .lt) fun k => compare_of_float _ _ _ _ hf,
      vecWrites_vecCompare hd ha hb hm (c := .le) fun k => compare_of_float _ _ _ _ hf,
      vecWrites_vecCompare hd ha hb hm (c := .eq) fun k => compare_of_float _ _ _ _ hf⟩
  case moves =>
    refine ⟨fun hb hf => ?perm, fun hb hf => ?permLq4, vecWrites_vslide hd hm ha hx, vecWrites_vsplat hd hm hx,
      vecWrites_vmov hd hm ha⟩
    case perm =>
      have h := vecWrites_vperm (f := f) hd hm ha hb
      simp only [if_neg hf] at h
      exact h
    case permLq4 =>
      subst hf
      exact vecWrites_vperm hd hm ha hb
end

section
/-! The function unit, reductions and scans (R145-R147): the tree of a reduction and the running sums of a scan, said once for any
element operation; the bound of a rounded result; and O15, which they settle. -/

namespace Sys2Proof.Machine

/-! ## The tree of a reduction (R146) -/

/-- A level of the tree over the elements `xs`: each entry is a value that `R` relates to its own stretch of `xs`, or absent over
none of them. -/
inductive Reduced (R : List Nat → Nat → Prop) : List (Option Nat) → List Nat → Prop
  | nil : Reduced R [] []
  | absent {l : List (Option Nat)} {xs : List Nat} : Reduced R l xs → Reduced R (none :: l) xs
  | entry {y : Nat} {ys zs xs : List Nat} {l : List (Option Nat)} :
    R ys y → Reduced R l zs → xs = ys ++ zs → Reduced R (some y :: l) xs

section Tree

variable {R : List Nat → Nat → Prop} {xs : List Nat}

/-- The leaves are the active elements, one each. -/
theorem reduced_leaves {e : Nat → Nat} (hleaf : ∀ k, R [e k] (e k)) (act : Nat → Bool) (ks : List Nat) :
    Reduced R (ks.map fun k => if act k then some (e k) else none) ((ks.filter act).map e) := by
  induction ks with
  | nil => exact .nil
  | cons k ks ih =>
    cases hact : act k with
    | false => simpa [hact] using .absent ih
    | true => simpa [hact] using .entry (hleaf k) ih rfl

theorem eq_nil_of_reduced_none (h : Reduced R [none] xs) : xs = [] := by
  obtain _ | h := h
  cases h
  rfl

theorem rel_of_reduced_some {y : Nat} (h : Reduced R [some y] xs) : R xs y := by
  cases h with
  | entry hy h hxs =>
    cases h
    rwa [hxs, List.append_nil]

variable {comb : Nat → Nat → Nat → Nat × NxFlags}

theorem length_reduceLevel : ∀ (l : List (Option Nat)) (j : Nat), (reduceLevel comb l j).1.length = (l.length + 1) / 2
  | [], _ => rfl
  | [_], _ => by simp [reduceLevel]
  | none :: _ :: r, j | some _ :: none :: r, j | some _ :: some _ :: r, j => by
    have ih := length_reduceLevel r (j + 1)
    simp only [reduceLevel, List.length_cons, ih]
    omega

theorem reduceLevel_noFlags (hfl : ∀ j y z, (comb j y z).2 = 0#5) :
    ∀ (l : List (Option Nat)) (j : Nat), (reduceLevel comb l j).2 = 0#5
  | [], _ | [_], _ => rfl
  | none :: _ :: r, j | some _ :: none :: r, j => reduceLevel_noFlags hfl r (j + 1)
  | some y :: some z :: r, j => by
    simp only [reduceLevel, reduceLevel_noFlags hfl r (j + 1), hfl, BitVec.or_self]

theorem reduceTree_noFlags {lev : Nat} {l : List (Option Nat)} (hfl : ∀ j y z, (comb j y z).2 = 0#5) :
    (reduceTree comb lev l).2 = 0#5 := by
  induction lev generalizing l with
  | zero => rfl
  | succ lev ih => simp only [reduceTree, reduceLevel_noFlags fun j => hfl (2 ^ lev + j), ih, BitVec.or_self]

theorem reduced_reduceLevel (hcomb : ∀ j ys zs y z, R ys y → R zs z → R (ys ++ zs) (comb j y z).1) {l : List (Option Nat)}
    {xs : List Nat} (j : Nat) : Reduced R l xs → Reduced R (reduceLevel comb l j).1 xs
  | .nil => .nil
  | .absent .nil => .absent .nil
  | .entry hy .nil hxs => .entry hy .nil hxs
  | .absent (.absent h) => .absent (reduced_reduceLevel hcomb (j + 1) h)
  | .absent (.entry hy h hxs) => .entry hy (reduced_reduceLevel hcomb (j + 1) h) hxs
  | .entry hy (.absent h) hxs => .entry hy (reduced_reduceLevel hcomb (j + 1) h) hxs
  | .entry hy (.entry hz h hzs) hxs =>
    .entry (hcomb j _ _ _ _ hy hz) (reduced_reduceLevel hcomb (j + 1) h) (by rw [hxs, hzs, List.append_assoc])

theorem reduced_reduceTree {lev : Nat} (hcomb : ∀ j ys zs y z, R ys y → R zs z → R (ys ++ zs) (comb j y z).1)
    {l : List (Option Nat)} (hlen : l.length = 2 ^ lev) (h : Reduced R l xs) : Reduced R [(reduceTree comb lev l).1] xs := by
  induction lev generalizing l with
  | zero =>
    obtain ⟨o, rfl⟩ := List.length_eq_one_iff.1 hlen
    exact h
  | succ lev ih =>
    refine ih ?_ (reduced_reduceLevel (fun j => hcomb (2 ^ lev + j)) 0 h)
    rw [length_reduceLevel, hlen]
    omega

end Tree

/-! ## Reductions of a register (R146) -/

section Reduce

variable {s : State} {m : Bool} {f : Fmt} {vd vs1 : VReg} {v0 a r : VWord} {rm : Rm}

/-- The active elements of a register, in order. -/
def activeElems (m : Bool) (f : Fmt) (v0 a : VWord) : List Nat :=
  ((List.range (lanes f)).filter (active m v0)).map (elemV a (Fmt.width f))

/-- The tree over the lanes of a register. -/
def laneTree (comb : Nat → Nat → Nat → Nat × NxFlags) (m : Bool) (f : Fmt) (v0 a : VWord) : Option Nat × NxFlags :=
  reduceTree comb (Nat.log2 (lanes f))
    ((List.range (lanes f)).map fun k => if active m v0 k then some (elemV a (Fmt.width f) k) else none)

theorem reduced_laneTree {R : List Nat → Nat → Prop} {comb : Nat → Nat → Nat → Nat × NxFlags}
    (hleaf : ∀ k, R [elemV a (Fmt.width f) k] (elemV a (Fmt.width f) k))
    (hcomb : ∀ j ys zs y z, R ys y → R zs z → R (ys ++ zs) (comb j y z).1) :
    Reduced R [(laneTree comb m f v0 a).1] (activeElems m f v0 a) := by
  refine reduced_reduceTree hcomb ?_ (reduced_leaves hleaf _ _)
  rw [List.length_map, List.length_range]
  cases f <;> decide

/-- A reduction writes what its tree leaves, and zeros above it. -/
theorem vecReduce_eq {rounds : Bool} (hd : s.vOk vd) (hm : s.vecMask m = .ok v0) (ha : s.vr vs1 = .ok a)
    (hrm : ∀ i, s.vecRm i f = .ok rm) (hr : if rounds then s.vecRnd rm = .ok r else r = 0#1024)
    (comb : Rm → Rnd → Nat → Nat → Nat × NxFlags) (i : Instr) :
    let t := laneTree (fun k => comb rm (rndAt r.toNat (Fmt.width f) k)) m f v0 a
    vecReduce i m f rounds vd vs1 s comb = .next (s.vecDone vd (BitVec.ofNat 1024 (t.1.elim 0 (canonBits f))) t.2) := by
  intro t
  have hput : s.commit (s.vecPut vd (match t.1 with | none => 0 | some x => canonBits f x) t.2) =
      .next (s.vecDone vd (BitVec.ofNat 1024 (t.1.elim 0 (canonBits f))) t.2) := by
    rw [vecPut_of_vOk hd, commit_ok]
    cases t.1 <;> rfl
  rw [vecReduce, hrm, ok_bind, ha, ok_bind, hm, ok_bind]
  dsimp only
  split at hr
  · next hrounds =>
    rw [if_pos hrounds, hr, ok_bind]
    exact hput
  · next hrounds =>
    rw [if_neg hrounds, ok_bind, ← hr]
    exact hput

end Reduce

/-! ## Sums, maxima and minima of integers (R146) -/

section Integers

variable {f : Fmt} {w : Nat}

theorem canonBits_of_int (hf : isInt f = true) (x : Nat) : canonBits f x = x := if_pos hf

/-- The wrapped sum of the elements. -/
def IsSum (w : Nat) (xs : List Nat) (x : Nat) : Prop := x = natOf w (xs.map (intOf w)).sum

theorem isSum_singleton {x : Nat} (h : x < 2 ^ w) : IsSum w [x] x := by
  rw [IsSum, List.map_singleton, List.sum_singleton, natOf_intOf h]

theorem isSum_append {xs ys : List Nat} {x y : Nat} (hx : IsSum w xs x) (hy : IsSum w ys y) :
    IsSum w (xs ++ ys) (natOf w (x + y)) := by
  rw [IsSum, hx, hy, natOf_natOf_add, natOf_add_natOf, List.map_append, List.sum_append]

/-- `y` is no less than `x`, or no greater where the minimum is sought. -/
def Tops (isMax : Bool) (y x : Int) : Prop := if isMax then x ≤ y else y ≤ x

/-- One of the elements, which tops them all. -/
def IsExtreme (isMax : Bool) (w : Nat) (xs : List Nat) (x : Nat) : Prop :=
  x ∈ xs ∧ ∀ z ∈ xs, Tops isMax (intOf w x) (intOf w z)

theorem tops_refl (isMax : Bool) (x : Int) : Tops isMax x x := by cases isMax <;> exact le_refl x

theorem tops_trans {isMax : Bool} {x y z : Int} (hxy : Tops isMax x y) (hyz : Tops isMax y z) : Tops isMax x z := by
  cases isMax with
  | false => exact le_trans (α := Int) hxy hyz
  | true => exact le_trans (α := Int) hyz hxy

theorem isExtreme_singleton (isMax : Bool) (w x : Nat) : IsExtreme isMax w [x] x :=
  ⟨List.mem_singleton_self x, fun z hz => by rw [List.mem_singleton.1 hz]; exact tops_refl ..⟩

theorem isExtreme_append {isMax : Bool} {xs ys : List Nat} {x y e : Nat} (hx : IsExtreme isMax w xs x)
    (hy : IsExtreme isMax w ys y) (he : e = x ∨ e = y)
    (hex : Tops isMax (intOf w e) (intOf w x)) (hey : Tops isMax (intOf w e) (intOf w y)) :
    IsExtreme isMax w (xs ++ ys) e := by
  obtain ⟨hxmem, hxtop⟩ := hx
  obtain ⟨hymem, hytop⟩ := hy
  refine ⟨List.mem_append.2 ?_, fun z hz => ?_⟩
  · rcases he with rfl | rfl
    · exact .inl hxmem
    · exact .inr hymem
  · exact (List.mem_append.1 hz).elim (fun h => tops_trans hex (hxtop z h)) fun h => tops_trans hey (hytop z h)

/-- The machine's minimum or maximum is one of the two, and tops both. -/
theorem minMax_tops (hf : isInt f = true) (w : Nat) (isMax : Bool) (x y : Nat) :
    let e := (minMax f w isMax x y).1
    (e = x ∨ e = y) ∧ Tops isMax (intOf w e) (intOf w x) ∧ Tops isMax (intOf w e) (intOf w y) := by
  rw [minMax, if_pos hf]
  rcases lt_or_ge (intOf w x) (intOf w y) with h | h
  · cases isMax <;> simp [Tops, h, h.le]
  · cases isMax <;> simp [Tops, h, not_lt.2 h]

theorem minMax_noFlags (hf : isInt f = true) (w : Nat) (isMax : Bool) (x y : Nat) : (minMax f w isMax x y).2 = 0#5 := by
  rw [minMax, if_pos hf]

end Integers

section IntegerReductions

variable {s : State} {m : Bool} {f : Fmt} {vd vs1 : VReg} {v0 a : VWord} (hf : isInt f = true) (hd : s.vOk vd)
  (hm : s.vecMask m = .ok v0) (ha : s.vr vs1 = .ok a)
include hf hd hm ha

theorem exec_vrsum_int :
    exec (.vrsum m f vd vs1) s = .next (s.vecDone vd
      (BitVec.ofNat 1024 (natOf (Fmt.width f) ((activeElems m f v0 a).map (intOf (Fmt.width f))).sum)) 0#5) := by
  change execVrsum m f vd vs1 s = _
  rw [execVrsum, vecReduce_eq (rounds := true) hd hm ha (vecRm_int hf) (r := 0#1024) rfl]
  generalize ht : laneTree _ m f v0 a = t
  have hflags : t.2 = 0#5 := ht ▸ reduceTree_noFlags fun j y z => by rw [arith_add_of_int hf]
  have hsum : Reduced (IsSum (Fmt.width f)) [t.1] (activeElems m f v0 a) := by
    refine ht ▸ reduced_laneTree (fun k => isSum_singleton (elemV_lt ..)) fun j ys zs y z hy hz => ?_
    rw [arith_add_of_int hf]
    exact isSum_append hy hz
  rw [hflags]
  cases h : t.1 with
  | none => rw [h] at hsum; rw [eq_nil_of_reduced_none hsum]; rfl
  | some e => rw [h] at hsum; rw [← show e = _ from rel_of_reduced_some hsum, Option.elim_some, canonBits_of_int hf]

theorem vecReduce_minMax_int (isMax : Bool) (i : Instr) (hne : activeElems m f v0 a ≠ []) :
    ∃ e, vecReduce i m f false vd vs1 s (fun _ _ x y => minMax f (Fmt.width f) isMax x y) =
        .next (s.vecDone vd (BitVec.ofNat 1024 e) 0#5)
      ∧ IsExtreme isMax (Fmt.width f) (activeElems m f v0 a) e := by
  rw [vecReduce_eq (rounds := false) hd hm ha (vecRm_int hf) (r := 0#1024) rfl]
  generalize ht : laneTree _ m f v0 a = t
  have hflags : t.2 = 0#5 := ht ▸ reduceTree_noFlags fun j y z => minMax_noFlags hf ..
  have htree : Reduced (IsExtreme isMax (Fmt.width f)) [t.1] (activeElems m f v0 a) := by
    refine ht ▸ reduced_laneTree (fun k => isExtreme_singleton ..) fun j ys zs y z hy hz => ?_
    obtain ⟨hpick, hey, hez⟩ := minMax_tops hf (Fmt.width f) isMax y z
    exact isExtreme_append hy hz hpick hey hez
  rw [hflags]
  cases h : t.1 with
  | none => exact absurd (eq_nil_of_reduced_none (h ▸ htree)) hne
  | some e => exact ⟨e, by rw [Option.elim_some, canonBits_of_int hf], rel_of_reduced_some (h ▸ htree)⟩

end IntegerReductions


/-! ## Floating-point results fit their element (R84, R85, R146) -/

section Bounds

variable (f : Fmt) (rm : Rm) (rnd : Rnd)

/-- Beside the sign, a format has room for its largest number, its infinity and its NaN. -/
theorem formatBits_lt : Fmt.maxBits f < 2 ^ (Fmt.layout f).signBit ∧ Fmt.infBits f < 2 ^ (Fmt.layout f).signBit
    ∧ Fmt.nanBits f < 2 ^ (Fmt.layout f).signBit := by cases f <;> decide

/-- A magnitude and a sign bit. -/
theorem add_sign_lt {mag : Nat} (h : mag < 2 ^ (Fmt.layout f).signBit) (neg : Bool) :
    mag + (if neg then 2 ^ (Fmt.layout f).signBit else 0) < 2 ^ Fmt.width f := by
  have hw : 2 * 2 ^ (Fmt.layout f).signBit ≤ 2 ^ Fmt.width f := by cases f <;> decide
  cases neg with
  | false => rw [if_neg Bool.false_ne_true]; omega
  | true => rw [if_pos rfl]; omega

theorem mag_lt {mag : Nat} (h : mag < 2 ^ (Fmt.layout f).signBit) : mag < 2 ^ Fmt.width f := add_sign_lt f h false

theorem overflowBits_lt (neg : Bool) : overflowBits f rm neg < 2 ^ Fmt.width f := by
  obtain ⟨hmax, hinf, hnan⟩ := formatBits_lt f
  have hbig : (if f = .e4m3 then Fmt.nanBits f else Fmt.infBits f + if neg then 2 ^ (Fmt.layout f).signBit else 0) <
      2 ^ Fmt.width f := by
    split
    · exact mag_lt f hnan
    · exact add_sign_lt f hinf neg
  have hlarge := add_sign_lt f hmax neg
  cases rm with
  | rne | sr => exact hbig
  | rtz | rnes | srs => exact hlarge
  | rdn =>
    cases neg with
    | false => exact mag_lt f hmax
    | true => exact hbig
  | rup =>
    cases neg with
    | false => exact hbig
    | true => exact hlarge

theorem roundEx_lt (x : Ex) : (roundEx f rm rnd x).1 < 2 ^ Fmt.width f := by
  have key (bits : Nat) (fo fl : NxFlags) : (if Fmt.maxBits f < bits then (overflowBits f rm x.neg, fo)
      else (bits + (if x.neg then 2 ^ (Fmt.layout f).signBit else 0), fl)).1 < 2 ^ Fmt.width f := by
    split
    · exact overflowBits_lt f rm x.neg
    · next h => exact add_sign_lt f ((not_lt.1 h).trans_lt (formatBits_lt f).1) x.neg
  exact key _ _ _

theorem roundFV_lt (v : FV) : (roundFV f rm rnd v).1 < 2 ^ Fmt.width f := by
  obtain ⟨hmax, hinf, hnan⟩ := formatBits_lt f
  cases v with
  | nan sig => exact mag_lt f hnan
  | inf neg =>
    unfold roundFV
    dsimp only
    split
    · exact add_sign_lt f hmax neg
    · split
      · exact mag_lt f hnan
      · exact add_sign_lt f hinf neg
  | zero neg => exact (Nat.zero_add _).symm.trans_lt (add_sign_lt f (by positivity) neg)
  | fin d =>
    unfold roundFV
    dsimp only
    split
    · positivity
    · exact roundEx_lt f rm rnd _

theorem nanBits_lt : Fmt.nanBits f < 2 ^ Fmt.width f := mag_lt f (formatBits_lt f).2.2

theorem fpAdd_lt (x y : FV) : (fpAdd f rm rnd x y).1 < 2 ^ Fmt.width f := by
  unfold fpAdd
  split
  · exact nanBits_lt f
  · split
    · exact nanBits_lt f
    · exact roundFV_lt f rm rnd _

theorem fpMinMax_lt (isMax : Bool) {x y : Nat} (hx : x < 2 ^ Fmt.width f) (hy : y < 2 ^ Fmt.width f) :
    (fpMinMax f isMax x y).1 < 2 ^ Fmt.width f := by
  unfold fpMinMax
  dsimp only
  split
  · exact nanBits_lt f
  · split
    · exact hy
    · split
      · exact hx
      · dsimp only
        split
        · exact hx
        · exact hy

theorem canonBits_lt {x : Nat} (hx : x < 2 ^ Fmt.width f) : canonBits f x < 2 ^ Fmt.width f := by
  unfold canonBits
  split
  · exact hx
  · split
    · exact nanBits_lt f
    · exact hx

end Bounds

section FloatReductions

variable {s : State} {m : Bool} {f : Fmt} {vd vs1 : VReg} {v0 a r : VWord} {rm : Rm} (hd : s.vOk vd)
  (hm : s.vecMask m = .ok v0) (ha : s.vr vs1 = .ok a) (hrm : ∀ i, s.vecRm i f = .ok rm)
include hd hm ha hrm

/-- Where the results of the nodes fit an element, that of the reduction does. -/
theorem vecReduce_lt {rounds : Bool} (hr : if rounds then s.vecRnd rm = .ok r else r = 0#1024)
    {comb : Rm → Rnd → Nat → Nat → Nat × NxFlags} (hcomb : ∀ rnd x y, x < 2 ^ Fmt.width f → y < 2 ^ Fmt.width f →
      (comb rm rnd x y).1 < 2 ^ Fmt.width f) (i : Instr) :
    ∃ (v : VWord) (fl : NxFlags), vecReduce i m f rounds vd vs1 s comb = .next (s.vecDone vd v fl)
      ∧ v.toNat < 2 ^ Fmt.width f := by
  refine ⟨_, _, vecReduce_eq hd hm ha hrm hr comb i, ?_⟩
  have htree : Reduced (fun _ x => x < 2 ^ Fmt.width f) _ (activeElems m f v0 a) :=
    reduced_laneTree (fun k => elemV_lt ..) fun j _ _ x y hx hy => hcomb (rndAt r.toNat (Fmt.width f) j) x y hx hy
  refine (Nat.mod_le _ _).trans_lt ?_
  generalize laneTree _ m f v0 a = t at htree
  cases h : t.1 with
  | none => positivity
  | some e => exact canonBits_lt f (rel_of_reduced_some (h ▸ htree))

end FloatReductions

/-! ## Scans (R147) -/

section Scan

variable {add : Nat → Nat → Nat → Nat × NxFlags} {canon : Nat → Nat × NxFlags} {act : Nat → Bool}

theorem scanFrom_noFlags (hadd : ∀ k x y, (add k x y).2 = 0#5) (hcanon : ∀ x, (canon x).2 = 0#5) (xs : List Nat) (i : Nat)
    (acc : Option Nat) : (scanFrom add canon act xs i acc).2 = 0#5 := by
  induction xs generalizing i acc with
  | nil => rfl
  | cons x xs ih =>
    unfold scanFrom
    split
    · cases acc with
      | none => simp only [ih, hcanon, BitVec.or_self]
      | some c => simp only [ih, hadd, BitVec.or_self]
    · exact ih ..

theorem scanFrom_inactive {i : Nat} (h : act i = false) (x : Nat) (xs : List Nat) (acc : Option Nat) :
    (scanFrom add canon act (x :: xs) i acc).1 = 0 :: (scanFrom add canon act xs (i + 1) acc).1 := by
  simp [scanFrom, h]

theorem scanFrom_active {i : Nat} (h : act i = true) (x : Nat) (xs : List Nat) (acc : Option Nat) :
    let y := acc.elim (canon x).1 fun c => (add i c x).1
    (scanFrom add canon act (x :: xs) i acc).1 = y :: (scanFrom add canon act xs (i + 1) (some y)).1 := by
  cases acc <;> simp [scanFrom, h]

/-- The wrapped sum of the active elements `i`, …, `i + n - 1` up to `k`, on top of what came before. -/
def sumUpTo (w : Nat) (act : Nat → Bool) (e : Nat → Nat) (i n k : Nat) : Int :=
  ((((List.range' i n).filter act).filter (· ≤ k)).map fun j => intOf w (e j)).sum

variable {w : Nat} {e : Nat → Nat}

theorem sumUpTo_inactive {i : Nat} (h : act i = false) (n k : Nat) :
    sumUpTo w act e i (n + 1) k = sumUpTo w act e (i + 1) n k := by
  simp [sumUpTo, List.range'_succ, h]

theorem sumUpTo_active {i k : Nat} (h : act i = true) (hk : i ≤ k) (n : Nat) :
    sumUpTo w act e i (n + 1) k = intOf w (e i) + sumUpTo w act e (i + 1) n k := by
  simp [sumUpTo, List.range'_succ, h, hk]

theorem sumUpTo_of_lt {i k : Nat} (hk : k < i) (n : Nat) : sumUpTo w act e i n k = 0 := by
  have hnone : ((List.range' i n).filter act).filter (· ≤ k) = [] := by
    rw [List.filter_eq_nil_iff]
    intro j hj hle
    have := (List.mem_range'_1.1 (List.mem_filter.1 hj).1).1
    have := of_decide_eq_true hle
    omega
  rw [sumUpTo, hnone]
  rfl

/-- What a scan of integers gives to an active element. -/
theorem scanFrom_getD (hadd : ∀ k x y, (add k x y).1 = natOf w (x + y)) (hcanon : ∀ x, (canon x).1 = x) (he : ∀ k, e k < 2 ^ w)
    {i n k : Nat} (acc : Option Nat) (hik : i ≤ k) (hkn : k < i + n) (hact : act k = true) :
    (scanFrom add canon act ((List.range' i n).map e) i acc).1.getD (k - i) 0 =
      natOf w ((acc.getD 0 : Nat) + sumUpTo w act e i n k) := by
  induction n generalizing i acc with
  | zero => omega
  | succ n ih =>
    rw [List.range'_succ, List.map_cons]
    cases hi : act i with
    | false =>
      have hlt : i < k := lt_of_le_of_ne hik fun h => by simp [h, hact] at hi
      rw [scanFrom_inactive hi, sumUpTo_inactive hi, ← ih acc hlt (by omega), show k - i = k - (i + 1) + 1 by omega,
        List.getD_cons_succ]
    | true =>
      have hy : (acc.elim (canon (e i)).1 fun c => (add i c (e i)).1) = natOf w ((acc.getD 0 : Nat) + intOf w (e i)) := by
        cases acc with
        | none => simp [hcanon, natOf_intOf (he i)]
        | some c =>
          conv_lhs => rw [Option.elim_some, hadd, ← natOf_intOf (he i), natOf_add_natOf]
          rfl
      rw [scanFrom_active hi, hy, sumUpTo_active hi hik]
      rcases Nat.eq_or_lt_of_le hik with rfl | hlt
      · rw [sumUpTo_of_lt (Nat.lt_succ_self _), Nat.sub_self, List.getD_cons_zero, add_zero]
      · rw [show k - i = k - (i + 1) + 1 by omega, List.getD_cons_succ, ih _ hlt (by omega), Option.getD_some, natOf_natOf_add,
          add_assoc]

end Scan

section Instructions

variable {s : State} {m : Bool} {f : Fmt} {vd vs1 : VReg} {v0 a r : VWord} {rm : Rm}

/-- Results that agree where they are written are one. -/
theorem vecWrites_congr {w n : Nat} {res res' : Nat → Nat × NxFlags} {o : Out} (h : s.vecWrites m v0 w n vd res o)
    (heq : ∀ k, k < n → active m v0 k = true → res k = res' k) : s.vecWrites m v0 w n vd res' o := by
  simp only [active_iff] at heq
  obtain ⟨v, fl, ho, hlt, helems, hflags⟩ := h
  refine ⟨v, fl, ho, hlt, fun k hk => ?_, fun b => (hflags b).trans ?_⟩
  · rw [helems k hk]
    exact ite_congr rfl (fun hact => by rw [heq k hk hact]) fun _ => rfl
  · exact exists_congr fun k => and_congr_right fun hk => and_congr_right fun hact => by rw [heq k hk hact]

variable (hd : s.vOk vd) (hm : s.vecMask m = .ok v0) (ha : s.vr vs1 = .ok a)
include hd hm ha

/-- A scan completes whatever its format. -/
theorem exec_vscan (hrm : ∀ i, s.vecRm i f = .ok rm) (hr : s.vecRnd rm = .ok r) :
    ∃ (v : VWord) (fl : NxFlags), exec (.vscan m f vd vs1) s = .next (s.vecDone vd v fl) := by
  change ∃ v fl, execVscan m f vd vs1 s = _
  rw [execVscan, hrm, ok_bind, ha, ok_bind, hm, ok_bind, hr, ok_bind]
  dsimp only
  rw [vecPut_of_vOk hd]
  exact ⟨_, _, rfl⟩

/-- A scan of integers: its running sums are written like any results, without flags. -/
theorem vecWrites_vscan_int (hf : isInt f = true) :
    s.vecWrites m v0 (Fmt.width f) (lanes f) vd (fun k =>
      (natOf (Fmt.width f) (sumUpTo (Fmt.width f) (active m v0) (elemV a (Fmt.width f)) 0 (lanes f) k), 0#5))
      (exec (.vscan m f vd vs1) s) := by
  change s.vecWrites _ _ _ _ _ _ (execVscan m f vd vs1 s)
  rw [execVscan, vecRm_int hf, ok_bind, ha, ok_bind, hm, ok_bind, show s.vecRnd .rne = .ok 0#1024 from rfl, ok_bind]
  dsimp only
  rw [scanFrom_noFlags (fun k x y => by rw [arith_add_of_int hf]) (fun x => by rw [hf]; rfl)]
  generalize hys : (scanFrom _ _ _ _ 0 none).1 = ys
  have hmap := vecWrites_of_vecMap (res := fun k => (ys.getD k 0, 0#5)) hd hm (width_mul_lanes f).le
  rw [State.vecMap, hm, ok_bind] at hmap
  dsimp only at hmap
  rw [lanesOf_noFlags fun _ => rfl] at hmap
  refine vecWrites_congr hmap fun k hk hact => Prod.ext ?_ rfl
  rw [← hys, List.range_eq_range']
  refine (scanFrom_getD (i := 0) (fun k x y => by rw [arith_add_of_int hf]) (canonBits_of_int hf) (elemV_lt a _) none
    (Nat.zero_le k) (by omega) hact).trans ?_
  rw [Option.getD_none, Nat.cast_zero, zero_add]

/-- The function unit: one function of each FP32 element (R145). -/
theorem vecWrites_vecUnary (hr : s.rounds rm r) (fn : Fmt → Rm → Rnd → FV → Nat × NxFlags) (i : Instr) :
    s.vecWrites m v0 32 32 vd (fun k => fn .fp32 rm (rndAt r.toNat 32 k) (Fmt.value .fp32 (elemV a 32 k)))
      (vecUnary i m vd vs1 s fn) := by
  rw [vecUnary, vecRm_of_rounds hr rfl, ok_bind, ha, ok_bind, vecRnd_of_rounds hr, ok_bind]
  exact vecWrites_of_vecMap hd hm (by decide)

end Instructions

theorem vecRm_of_float {s : State} {f : Fmt} (hf : isInt f = false) (hvrm : s.me.user.vrm ≠ 7#3) (i : Instr) :
    s.vecRm i f = .ok (Rm.ofCode s.me.user.vrm.toNat) := by
  simp [State.vecRm, hf, hvrm]

/-- An element of a register is the bits of its integer. -/
theorem natOf_intOf_activeElem {m : Bool} {f : Fmt} {v0 a : VWord} {x : Nat} (h : x ∈ activeElems m f v0 a) :
    natOf (Fmt.width f) (intOf (Fmt.width f) x) = x := by
  obtain ⟨k, -, rfl⟩ := List.mem_map.1 h
  exact natOf_intOf (elemV_lt ..)

end Sys2Proof.Machine

open Sys2Proof Sys2Proof.Machine

/-- Settles O15: a function is `vecUnary`; a reduction is the tree over the active elements (`reduced_laneTree`), with the
sum, the extreme or the bound as what its nodes keep, and a lone NaN delivered canonical (log 8); a scan is its running sums
(`scanFrom_getD`). -/
theorem vectorFunctionsAndReductions : Obligations.VectorFunctionsAndReductions := by
  intro s m f vd vs1 v0 a r rm hd hm ha
  refine ⟨fun hr => ⟨?sqrt, ?rcp, ?exp2, ?log2, fun hf _ => ?floatSums⟩, fun hvrm hf _ => ?floatExtremes, fun hf => ?integers⟩
  case sqrt => exact vecWrites_vecUnary hd hm ha hr fpSqrt _
  case rcp => exact vecWrites_vecUnary hd hm ha hr fpRcp _
  case exp2 => exact vecWrites_vecUnary hd hm ha hr fpExp2 _
  case log2 => exact vecWrites_vecUnary hd hm ha hr fpLog2 _
  case floatSums =>
    have hrm := vecRm_of_rounds hr hf
    have hrnd := vecRnd_of_rounds hr
    simp only [List.forall_mem_cons, List.not_mem_nil, false_implies, implies_true, and_true]
    constructor
    · obtain ⟨v, fl, hexec, hlt⟩ := vecReduce_lt (rounds := true) hd hm ha hrm hrnd
        (comb := fun rm rnd x y => arith .add f (Fmt.width f) rm rnd x y 0)
        (fun rnd x y _ _ => by rw [arith_add_of_float hf]; exact fpAdd_lt ..) (.vrsum m f vd vs1)
      exact ⟨v, fl, hexec, fun _ => hlt⟩
    · obtain ⟨v, fl, hexec⟩ := exec_vscan hd hm ha hrm hrnd
      exact ⟨v, fl, hexec, fun h => absurd rfl h⟩
  case floatExtremes =>
    have hextreme (isMax : Bool) (i : Instr) := vecReduce_lt (rounds := false) hd hm ha (vecRm_of_float hf hvrm) rfl
      (comb := fun _ _ x y => minMax f (Fmt.width f) isMax x y)
      (fun rnd x y hx hy => by rw [minMax_of_float hf]; exact fpMinMax_lt f isMax hx hy) i
    simp only [List.forall_mem_cons, List.not_mem_nil, false_implies, implies_true, and_true]
    exact ⟨hextreme true _, hextreme false _⟩
  case integers =>
    intro w act xs gives
    have hxs : xs = (activeElems m f v0 a).map (intOf w) := by
      rw [activeElems, List.map_map]
      rfl
    have hextreme (isMax : Bool) (i : Instr) (hne : xs ≠ []) : ∃ x : Int,
        vecReduce i m f false vd vs1 s (fun _ _ x y => minMax f w isMax x y) =
          .next (s.vecDone vd (BitVec.ofNat 1024 (natOf w x)) 0#5) ∧ x ∈ xs ∧ ∀ y ∈ xs, Tops isMax x y := by
      obtain ⟨e, hexec, hmem, htops⟩ := vecReduce_minMax_int hf hd hm ha isMax i fun h => hne (by rw [hxs, h]; rfl)
      refine ⟨intOf w e, ?_, ?_, ?_⟩
      · rw [natOf_intOf_activeElem hmem]
        exact hexec
      · exact hxs ▸ List.mem_map_of_mem hmem
      · exact hxs ▸ List.forall_mem_map.2 htops
    refine ⟨⟨xs.sum, ?_, rfl⟩, fun hne => ⟨hextreme true _ hne, hextreme false _ hne⟩, ?_⟩
    · rw [hxs]
      exact exec_vrsum_int hf hd hm ha
    · have hscan := vecWrites_vscan_int hd hm ha hf
      simp only [sumUpTo, ← List.range_eq_range'] at hscan
      exact hscan
end

section
/-! Products of the matrix engine (R162-R168, R173, R179): the three products as one shape, the band that each begins, and
O23, which they settle. -/

namespace Sys2Proof.Machine

/-! ## An instruction at its turn (R154, R158) -/

section Turn
variable {s : State} (hturn : mxTurn s = true) (i : Instr) (td : Option Nat)
include hturn

theorem mxExec_ok (t : State) : mxExec i td s (.ok t) = .next t := by
  rw [mxExec, if_pos hturn]

theorem mxExec_error (e : Trap) : mxExec i td s (.error e) = .next ((s.mxDrop s.cur).takeTrap e) := by
  rw [mxExec, if_pos hturn]

end Turn

theorem needOwner_ok {s : State} {t : TR} (hv : t.v = true) (ho : t.owner.toNat = s.cur % 8) : s.needOwner t = .ok () :=
  need_ok (by simp [State.owns, hv, ho]) _ _

theorem mxOwned_ok {s : State} {td : TdReg} {t : TR} (ht : s.tdr td = .ok t) (hv : t.v = true)
    (ho : t.owner.toNat = s.cur % 8) : mxOwned td s = .ok t := by
  rw [mxOwned, ht, ok_bind, needOwner_ok hv ho, ok_bind, pure_eq_ok]

/-! ## The band of a product (R162, R168) -/

theorem mapM_eq_ok_map {ε α β : Type} {f : α → Except ε β} {g : α → β} {l : List α} (h : ∀ x ∈ l, f x = .ok (g x)) :
    l.mapM f = .ok (l.map g) := by
  induction l with
  | nil => rfl
  | cons x l ih =>
    obtain ⟨hx, hl⟩ := List.forall_mem_cons.1 h
    rw [List.mapM_cons, hx, ok_bind, ih hl, ok_bind, pure_eq_ok, List.map_cons]

/-- The rows [m0, m1). -/
def bandRows (m0 m1 : Nat) : List Nat := (List.range (m1 - m0)).map (· + m0)

/-- The band of rows [m0, m1) of `m` that takes up the accumulators `accs` and the addends, with their flags, that `new`
gives for row `r` and column `c`. -/
def productBand (base c0 n m0 m1 m : Nat) (ints : Bool) (accs : Nat → List Nat)
    (new : Nat → Nat → List Nat × NxFlags) : MxBand :=
  { row := base + m0, col := c0, stop := m1, last := decide (m ≤ m1), ints := ints
    accs := (bandRows m0 m1).map accs
    adds := (bandRows m0 m1).map fun r => (List.range n).map fun c => (new r c).1
    flags := (bandRows m0 m1).foldl (fun fl r => (List.range n).foldl (fun fl c => fl ||| (new r c).2) fl) 0#5 }

theorem mkBand_of_accRows {s : State} {base c0 n m0 m1 m : Nat} {ints : Bool} {accs : Nat → List Nat}
    {new : Nat → Nat → List Nat × NxFlags} (hacc : ∀ r ∈ bandRows m0 m1, accRow s (base + r) c0 n = .ok (accs r)) :
    mkBand s base c0 n m0 m1 m ints (fun r => (List.range n).map (new r)) =
      .ok (productBand base c0 n m0 m1 m ints accs new) := by
  have hmap := mapM_eq_ok_map hacc
  rw [bandRows] at hmap
  rw [mkBand, hmap, ok_bind, pure_eq_ok, productBand, bandRows]
  simp only [List.map_map, List.foldl_map, Function.comp_def]

/-! ## The products as one shape (R163, R165, R173, R179) -/

/-- What tells the products apart: the operands' descriptors, the rows of B, the tile's first column, what is read beside the
operands, an element's addends from that, B, a row of A and a column, the compute clks of a pass, and the bytes of B. -/
structure Product (σ : Type) where
  instr  : Instr
  a      : BitVec 128
  b      : BitVec 128
  bRows  : Nat
  col    : Nat
  ints   : Bool
  side   : State → Except Trap (σ × State)
  elem   : σ → List (List Nat) → List Nat → Nat → List Nat × NxFlags
  clks   : Nat
  bBytes : Nat

namespace Product
variable {σ : Type} (p : Product σ)

/-- The band of rows [m0, m1): A, then B, then the side records, then the accumulators (log 78). -/
def band (base : Nat) (s : State) (m0 m1 : Nat) : Except Trap (State × MxBand) := do
  let (xa, s) ← mdBlock p.instr p.a (List.range (mdCols p.a)) s (bandRows m0 m1)
  let (xb, s) ← mdBlock p.instr p.b (List.range (mdCols p.b)) s (List.range p.bRows)
  let (y, s) ← p.side s
  let b ← mkBand s base p.col (mdCols p.b) m0 m1 (mdRows p.a) p.ints fun r =>
    (List.range (mdCols p.b)).map (p.elem y xb (xa.getD (r - m0) []))
  return (s, b)

/-- Bytes of A. -/
def aBytes : Nat := mdRows p.a * mdCols p.a * Fmt.width (mdFmt p.a) / 8

/-- The issuing state with A staged (R180). -/
def staged (s : State) : State := stage s p.a p.aBytes

/-- The compute clks, or those of the operands' supply where they are more (R179). -/
def time (s : State) : Nat :=
  max (cdiv (mdRows p.a) (bandHeight (mdFmt p.a)) * p.clks) (supplyClk s p.a p.b p.aBytes p.bBytes)

/-- The product on a tile at its turn, its checks passed. -/
def run (td : TdReg) (t : TR) (s : State) : State :=
  mxBands p.instr td t (mdRows p.a) (bandHeight (mdFmt p.a)) (p.time s + 24) (p.staged s) (p.band t.base.toNat)

/-- The row after the band at RESTART. -/
def stop (t : TR) : Nat := min (t.restart.toNat + bandHeight (mdFmt p.a)) (mdRows p.a)

section Run
variable {p} {td : TdReg} {t : TR} {s x u v : State} (hexec : exec p.instr s = .next (p.run td t s))
include hexec

theorem exec_of_done (h : mdRows p.a ≤ t.restart.toNat) : exec p.instr s = .next
    (mxQueue (p.staged s) { slot := (p.staged s).cur, td := some td.toNat, flags := 0#5, accum := true }
      (((p.staged s).mxMine.bind (·.clks)).getD 0)) := by
  rw [hexec, run, mxBands, if_pos h]

theorem exec_of_band_error {f : Trap} (h : t.restart.toNat < mdRows p.a)
    (hf : mdBlock p.instr p.a (List.range (mdCols p.a)) (p.staged s) (bandRows t.restart.toNat (p.stop t)) = .error f) :
    exec p.instr s = .next ((setMxrow (setProgress ((p.staged s).mxDrop (p.staged s).cur) td t.restart.toNat 0#5) td
      t.restart.toNat).takeTrap f) := by
  rw [stop] at hf
  rw [hexec, run, mxBands, if_neg (Nat.not_le.2 h), band, hf, error_bind]

/-- With its operands and side records read and its accumulators there, a product begins its band. -/
theorem exec_begins {xa xb : List (List Nat)} {y : σ} {accs : Nat → List Nat} (new : Nat → Nat → List Nat × NxFlags)
    (h : t.restart.toNat < mdRows p.a)
    (ha : mdBlock p.instr p.a (List.range (mdCols p.a)) (p.staged s) (bandRows t.restart.toNat (p.stop t)) = .ok (xa, x))
    (hb : mdBlock p.instr p.b (List.range (mdCols p.b)) x (List.range p.bRows) = .ok (xb, u))
    (hside : p.side u = .ok (y, v))
    (hacc : ∀ r ∈ bandRows t.restart.toNat (p.stop t), accRow v (t.base.toNat + r) p.col (mdCols p.b) = .ok (accs r))
    (hints : p.ints = (mdFmt p.a == .int8)) (hnew : ∀ r, p.elem y xb (xa.getD (r - t.restart.toNat) []) = new r) :
    exec p.instr s = .next (mxBandStart v
      { slot := v.cur, td := some td.toNat, flags := 0#5, accum := true, instr := some p.instr
        issued := (v.mxMine.map (·.issued)).getD v.clk
        clks := some (((p.staged s).mxMine.bind (·.clks)).getD (p.time s + 24)) }
      (productBand t.base.toNat p.col (mdCols p.b) t.restart.toNat (p.stop t) (mdRows p.a) (mdFmt p.a == .int8) accs new)
      (mdRows p.a)) := by
  have hband : p.band t.base.toNat (p.staged s) t.restart.toNat (p.stop t) = .ok
      (v, productBand t.base.toNat p.col (mdCols p.b) t.restart.toNat (p.stop t) (mdRows p.a) (mdFmt p.a == .int8) accs new) := by
    simp only [band, ha, hb, hside, hints, hnew, ok_bind, mkBand_of_accRows hacc, pure_eq_ok]
  rw [stop] at hband
  rw [hexec, run, mxBands, if_neg (Nat.not_le.2 h), hband]
  rfl

end Run

end Product

/-! ## The three products -/

/-- `mx.mma` of operands whose group is `g` (R163, R164, R166). -/
def denseProduct (td : TdReg) (a b : MdReg) (da db : BitVec 128) (g : Nat) : Product Unit where
  instr := .mxMma td a b
  a := da
  b := db
  bRows := mdCols da
  col := 0
  ints := mdFmt da == .int8
  side s := .ok ((), s)
  elem _ xb row c :=
    if mdFmt da = .int8 then ([intAdd ((row.zip xb).map fun q => (q.1, q.2.getD c 0))], 0#5)
    else addends ((groupsOf g (mdCols da + 1) (pairsAt (mdFmt da) (mdFmt db) row xb c)).map groupAdd)
  clks := mdCols da
  bBytes := mdCols da * mdCols db * Fmt.width (mdFmt db) / 8

/-- The blocks' elements, column by column, whose scales `mx.mmq` reads (R83, R165). -/
def scalePlaces (da db ds : BitVec 128) : List Nat :=
  (List.range (mdCols db)).flatMap fun c => (List.range (mdCols da / 64)).map fun g =>
    (mdRstr ds).toNat + 64 * g + c * mdCstr db

/-- The addends of column `c` from the pairs of its `nb` blocks, whose scales stand from `c * nb` on (R165). -/
def blockAddends (scs : List (Nat × Nat)) (nb c : Nat) (ps : List (FV × FV)) : List Nat × NxFlags :=
  addends (((groupsOf 64 (nb + 1) ps).zip (List.range nb)).map fun q =>
    let e := scs.getD (c * nb + q.2) (0, 0)
    blockAdd q.1 e.1 e.2)

/-- `mx.mmq`: the addends are those of the LQ4 blocks, with their scales (R165). -/
def scaledProduct (td : TdReg) (a w sc : MdReg) (da db ds : BitVec 128) : Product (List (Nat × Nat)) where
  instr := .mxMmq td a w sc
  a := da
  b := db
  bRows := mdCols da
  col := 0
  ints := false
  side s := sideReads (.mxMmq td a w sc) (mdBase ds) s (scalePlaces da db ds)
  elem scs xb row c := blockAddends scs (mdCols da / 64) c
    ((row.zip xb).map fun q => (FV.fin (lq4Val (q.2.getD c 0)), Fmt.value (mdFmt da) q.1))
  clks := (mdCols da + 1) / 2
  bBytes := mdCols da * mdCols db / 2

/-- `mx.mms`: one group of the pairs that the metadata names (R173). -/
def sparseProduct (td : TdReg) (a b : MdReg) (vm : VReg) (q : BitVec 2) (da db : BitVec 128) (md : VWord) : Product Unit where
  instr := .mxMms td a b vm q
  a := da
  b := db
  bRows := mdCols da / 2
  col := 16 * q.toNat
  ints := false
  side s := .ok ((), s)
  elem _ xb row c := addends [groupAdd (sparsePairs (mdFmt da) (mdFmt db) md row xb c)]
  clks := (mdCols da + 7) / 8
  bBytes := mdCols da / 2 * mdCols db * Fmt.width (mdFmt db) / 8

theorem cdiv_two (k : Nat) : cdiv k 2 = (k + 1) / 2 := rfl
theorem cdiv_eight (k : Nat) : cdiv k 8 = (k + 7) / 8 := rfl

section Instructions
variable {s : State} {td : TdReg} {a b sc : MdReg} {vm : VReg} {q : BitVec 2} {t : TR} {da db ds : BitVec 128}
  (hturn : mxTurn s = true) (ha : s.mdr a = .ok da) (hb : s.mdr b = .ok db) (hown : mxOwned td s = .ok t)
include hturn ha hb hown

/-- A pair of formats without a group is ILLEGAL (R163). -/
theorem exec_mxMma_unlisted (hg : denseGroup (mdFmt da) (mdFmt db) t.int32 (mdCols da) = none) :
    exec (.mxMma td a b) s = .next ((s.mxDrop s.cur).takeTrap { cause := 0x01, tval := codeOf (.mxMma td a b) }) := by
  change execMxMma td a b s = _
  simp only [execMxMma, ha, hb, hown, hg, ok_bind]
  exact mxExec_error hturn _ _ _

theorem exec_mxMma {g : Nat} (hg : denseGroup (mdFmt da) (mdFmt db) t.int32 (mdCols da) = some g)
    (hk : mdRows db = mdCols da) (hm : mdRows da ≤ t.rows) (hn : mdCols db ≤ t.cols) :
    exec (.mxMma td a b) s = .next ((denseProduct td a b da db g).run td t s) := by
  have hshape : ¬ (mdRows db ≠ mdCols da ∨ t.rows < mdRows da ∨ t.cols < mdCols db) := by omega
  change execMxMma td a b s = _
  simp only [execMxMma, ha, hb, hown, hg, ok_bind]
  rw [if_neg hshape]
  exact mxExec_ok hturn _ _ _

theorem exec_mxMmq (hs : s.mdr sc = .ok ds)
    (hfa : mdFmt da = .bf16 ∨ mdFmt da = .fp16 ∨ mdFmt da = .e4m3 ∨ mdFmt da = .e5m2) (hfb : mdFmt db = .lq4)
    (hint : t.int32 = false) (hk : mdRows db = mdCols da) (hm : mdRows da ≤ t.rows) (hn : mdCols db ≤ t.cols)
    (hweights : mdCols da % 64 = 0 ∧ mdRstr db = 1 ∧ mdCstr db % 64 = 0)
    (hscales : mdSpace ds = 0 ∧ mdFmt ds = .lq4 ∧ mdRows ds = 1 ∧ mdCols ds = 1 ∧ mdCstr ds = 0)
    (hstride : 0 ≤ mdRstr ds ∧ mdRstr ds % 64 = 0) :
    exec (.mxMmq td a b sc) s = .next ((scaledProduct td a b sc da db ds).run td t s) := by
  have hfmts : (!(mdFmt da == .bf16 || mdFmt da == .fp16 || isFp8 (mdFmt da)) || mdFmt db != .lq4 || t.int32) = false := by
    rcases hfa with h | h | h | h <;> simp [h, hfb, hint, isFp8]
  have hshape : ¬ (mdRows db ≠ mdCols da ∨ t.rows < mdRows da ∨ t.cols < mdCols db) := by omega
  have hweights' : ¬ (mdCols da % 64 ≠ 0 ∨ mdRstr db ≠ 1 ∨ mdCstr db % 64 ≠ 0) := by tauto
  have hscales' : ¬ (mdSpace ds ≠ 0 ∨ mdFmt ds ≠ .lq4 ∨ mdRows ds ≠ 1 ∨ mdCols ds ≠ 1 ∨ mdCstr ds ≠ 0) := by
    simpa only [not_or, not_not, ne_eq] using hscales
  have hstride' : ¬ (mdRstr ds < 0 ∨ mdRstr ds % 64 ≠ 0) :=
    not_or.2 ⟨not_lt.2 hstride.1, not_not.2 hstride.2⟩
  change execMxMmq td a b sc s = _
  simp only [execMxMmq, ha, hb, hs, hown, ok_bind, hfmts, cdiv_two]
  rw [if_neg Bool.false_ne_true, if_neg hshape, if_neg hweights', if_neg hscales', if_neg hstride']
  exact mxExec_ok hturn _ _ _

theorem exec_mxMms {md : VWord} {g : Nat} (hmeta : s.vr vm = .ok md)
    (hg : denseGroup (mdFmt da) (mdFmt db) t.int32 (mdCols da) = some g) (hfa : mdFmt da ≠ .int8)
    (hk : mdCols da % 4 = 0 ∧ mdCols da ≤ 64 ∧ mdRows db = mdCols da / 2) (hm : mdRows da ≤ t.rows)
    (hn : mdCols db ≤ 16 ∧ 16 * q.toNat + mdCols db ≤ t.cols) :
    exec (.mxMms td a b vm q) s = .next ((sparseProduct td a b vm q da db md).run td t s) := by
  have hshape : ¬ (mdFmt da = .int8 ∨ mdCols da % 4 ≠ 0 ∨ 64 < mdCols da ∨ mdRows db ≠ mdCols da / 2 ∨ 16 < mdCols db
      ∨ t.cols < 16 * q.toNat + mdCols db ∨ t.rows < mdRows da) := by
    rintro (h | h)
    · exact hfa h
    · omega
  change execMxMms td a b vm q s = _
  simp only [execMxMms, ha, hb, hmeta, hown, hg, ok_bind, cdiv_eight]
  rw [if_neg hshape]
  exact mxExec_ok hturn _ _ _

end Instructions

/-! ## Elements against a column of B (R164-R166) -/

/-- A row of A paired with column `c` of the rows of B. -/
theorem map_zip_column {α : Type} (f : Nat → Nat → α) (row : List Nat) (xb : List (List Nat)) (c : Nat) :
    (row.zip xb).map (fun q => f q.1 (q.2.getD c 0)) = (row.zip (xb.map fun y => y.getD c 0)).map fun p => f p.1 p.2 := by
  rw [List.zip_map_right, List.map_map]
  rfl

/-- The addend of integers is the sum of the products. -/
theorem intAdd_eq (ps : List (Nat × Nat)) : intAdd ps = natOf 32 (ps.map fun p => intOf 8 p.1 * intOf 8 p.2).sum := by
  rw [intAdd, List.sum_eq_foldl, List.foldl_map]

theorem denseGroup_unlisted {fa fb : Fmt} (h : fa = .lq4 ∨ fb = .lq4 ∨ fa = .int ∨ fb = .int ∨ fa = .fp32 ∨ fb = .fp32)
    (int32 : Bool) (k : Nat) : denseGroup fa fb int32 k = none := by
  rcases h with rfl | rfl | rfl | rfl | rfl | rfl
  case inl | inr.inr.inl | inr.inr.inr.inr.inl => rfl
  all_goals cases fa <;> rfl

end Sys2Proof.Machine

open Sys2Proof Sys2Proof.Machine

/-- Settles O23: the three products are one shape (`Product.run`), which completes, stops at an operand or begins its band;
A is read before B, B before the side records and the accumulators after them (log 78). -/
theorem matrixProducts : Obligations.MatrixProducts := by
  intro s x u td a b sc vm q t da db ds xa xb accs ha hb hs ht hv ho hturn m k n fa fb bh m0 rows aBytes z row col values
    reads begins ends passes hm
  have hown := mxOwned_ok ht hv ho
  refine ⟨fun g hk hn hg => ?dense, fun hf => ?unlisted,
    fun hk hn hfa hfb hint hk64 hrstr hcstr hsp hsf hsr hsc hscs hs0 hs64 => ?scaled,
    fun md g hmeta hg hfa hk4 hk64 hk hn hq => ?sparse⟩
  case dense =>
    have hexec := exec_mxMma hturn ha hb hown hg hk hm hn
    refine ⟨fun h => ?_, fun h hr => ?_, fun f h hf => ?_⟩
    · exact Product.exec_of_done (p := denseProduct td a b da db g) hexec h
    · obtain ⟨hra, hrb, hacc⟩ := hr
      refine Product.exec_begins (p := denseProduct td a b da db g) hexec _ h hra hrb rfl hacc rfl fun r => funext fun c => ?_
      refine if_congr Iff.rfl ?_ ?_
      · rw [intAdd_eq, map_zip_column (fun i j => (i, j)), List.map_map]
        rfl
      · rw [pairsAt, map_zip_column fun i j => (Fmt.value fa i, Fmt.value fb j)]
    · exact Product.exec_of_band_error (p := denseProduct td a b da db g) hexec h hf
  case unlisted => exact exec_mxMma_unlisted hturn ha hb hown (denseGroup_unlisted hf _ _)
  case scaled =>
    have hints : false = (fa == .int8) := by rcases hfa with h | h | h | h <;> rw [h] <;> rfl
    have hexec := exec_mxMmq hturn ha hb hown hs hfa hfb hint hk hm hn ⟨hk64, hrstr, hcstr⟩
      ⟨hsp, hsf, hsr, hsc, hscs⟩ ⟨hs0, hs64⟩
    refine ⟨fun h => ?_, fun v scs h hr hside => ?_⟩
    · exact Product.exec_of_done (p := scaledProduct td a b sc da db ds) hexec h
    · obtain ⟨hra, hrb, hacc⟩ := hr
      exact Product.exec_begins (p := scaledProduct td a b sc da db ds) hexec _ h hra hrb hside hacc hints fun r =>
        funext fun c => congrArg (blockAddends scs (k / 64) c)
          (map_zip_column (fun i j => (FV.fin (lq4Val j), Fmt.value fa i)) (row r) xb c)
  case sparse =>
    have hints : false = (fa == .int8) := (beq_false_of_ne hfa).symm
    have hexec := exec_mxMms hturn ha hb hown hmeta hg hfa ⟨hk4, hk64, hk⟩ hm ⟨hn, hq⟩
    refine ⟨fun h => ?_, fun h hr => ?_⟩
    · exact Product.exec_of_done (p := sparseProduct td a b vm q da db md) hexec h
    · obtain ⟨hra, hrb, hacc⟩ := hr
      exact Product.exec_begins (p := sparseProduct td a b vm q da db md) hexec _ h hra hrb rfl hacc hints fun _ => rfl
end

section
/-! `mx.drn` (R160, R174): its checks and the tile's rows converted, the three destinations, and O26, which they settle. -/

namespace Sys2Proof.Machine

/-! ## The tile's rows converted -/

theorem drainWidth_eq (out : Fmt) : drainWidth out = Fmt.width out := by cases out <;> rfl

/-- The rows as they are sent, with the flags of the conversions. -/
def converted (out : Fmt) (rm : Rm) (rows : List (List Nat)) : List (List Nat) × NxFlags :=
  (rows.map fun l => l.map fun x => (drainElem out rm x).1,
    (rows.map fun l => l.map (drainElem out rm)).foldl (fun fl l => l.foldl (fun fl e => fl ||| e.2) fl) 0#5)

theorem drained_of_tileElems {s : State} {t : TR} {rows : List (List Nat)} (h : tileElems s t = .ok rows) (out : Fmt) (rm : Rm) :
    drained s t out rm = .ok (converted out rm rows) := by
  have hrows : (rows.map fun l => l.map (drainElem out rm)).map (fun l => l.map (·.1)) =
      rows.map fun l => l.map fun x => (drainElem out rm x).1 := by
    rw [List.map_map]
    exact List.map_congr_left fun l _ => List.map_map
  simp only [drained, h, hrows, ok_bind, pure_eq_ok, converted]

/-! ## The destinations (R174) -/

/-- A drain at its turn, its checks passed: the operation, its instruction, the format sent, the bytes of the tile and the
rows converted. -/
structure Drain where
  instr : Instr
  op    : MxOp
  out   : Fmt
  bytes : Nat
  rows  : List (List Nat)

namespace Drain
variable (d : Drain)

/-- Bytes of an element. -/
def size : Nat := Fmt.width d.out / 8

/-- To the A buffer from offset `o` on. -/
def toBuffer (o : Nat) (s : State) : Except Trap State := do
  need (o + d.bytes ≤ bufBytes .a) cPERM (w64 o)
  let m ← granWrite s.myCore.abuf s.me.gen o (d.rows.flatten.flatMap (natBytes d.size))
  return mxQueue (s.modMyCore fun c => c.setBuf .a m) d.op (cdiv d.bytes 64 + 12)

/-- To memory from `va` on. -/
def toMemory (va : Word) (s : State) : Except Trap State := do
  let (ps, s) ← checkAll s .w d.size ((List.range d.rows.flatten.length).map fun k => va + w64 (d.size * k))
  return mxQueue (writeAll s d.size (ps.zip d.rows.flatten)) d.op (cdiv d.bytes 64 + 12)

/-- The tokens of the rows. -/
def tokens : List MTok := (d.rows.flatMap (rowPays d.out)).map (drainTok d.out)

/-- The tokens have been queued at the port before: the drain is resumed with mark 1. -/
def sentBefore (s : State) : Bool :=
  match s.me.wait with
  | .resume .port _ _ a => a == 1#64
  | _ => false

/-- The tokens queued at the port of the slot's unit. -/
def send (s : State) : State := s.modCell (portKey s.cur) fun c => { c with mxpq := c.mxpq ++ d.tokens }

/-- To the result port: once its tokens are queued there, until the last is accepted (R376). -/
def toPort (s : State) : Except Trap State :=
  if sentBefore s then
    if portFree s s.cur 1#64 then return mxQueue s d.op 12
    else return mxPortWait s d.op d.instr 1#64
  else
    match resultRegion s with
    | none => fail cPERM s.openVal
    | some (_, rg) =>
      if rg.wave.isSome || 16 ≤ (portQueue s s.cur).length then return mxPortWait s d.op d.instr 0#64
      else
        if portFree (d.send s) (d.send s).cur 1#64 then return mxQueue (d.send s) d.op (d.tokens.length + 12)
        else return mxPortWait (d.send s) d.op d.instr 1#64

/-- By the destination of the route entry `r`, from byte `off` on (R160). -/
def run (r : Word) (off : Nat) (s : State) : Except Trap State :=
  match fld r 61 60 with
  | 0 => d.toBuffer (fld r 54 0 + off) s
  | 1 => d.toMemory (sext 55 r + w64 off) s
  | _ => d.toPort s

variable {d}

section Destination
variable {r : Word}

theorem run_toBuffer (h : fld r 61 60 = 0) (off : Nat) (s : State) : d.run r off s = d.toBuffer (fld r 54 0 + off) s := by
  simp only [run, h]

theorem run_toMemory (h : fld r 61 60 = 1) (off : Nat) (s : State) : d.run r off s = d.toMemory (sext 55 r + w64 off) s := by
  simp only [run, h]

theorem run_toPort (h : fld r 61 60 = 2) (off : Nat) (s : State) : d.run r off s = d.toPort s := by
  simp only [run, h]

end Destination

variable {s u : State}

theorem toBuffer_of_granWrite {o : Nat} {m : AMap Granule} (ho : o + d.bytes ≤ bufBytes .a)
    (hm : granWrite s.myCore.abuf s.me.gen o (d.rows.flatten.flatMap (natBytes d.size)) = .ok m) :
    d.toBuffer o s =
      .ok (mxQueue (s.modMyCore fun c => { c with abuf := m, staged := none }) d.op ((d.bytes + 63) / 64 + 12)) := by
  rw [toBuffer, need_ok (decide_eq_true ho), ok_bind, hm]
  rfl

theorem toMemory_of_checkAll {va : Word} {ps : List Phys}
    (h : checkAll s .w d.size ((List.range d.rows.flatten.length).map fun k => va + w64 (d.size * k)) = .ok (ps, u)) :
    d.toMemory va s = .ok (mxQueue (writeAll u d.size (ps.zip d.rows.flatten)) d.op ((d.bytes + 63) / 64 + 12)) := by
  rw [toMemory, h]
  rfl

/-! ### The result port (R376) -/

theorem portFree_mark1 (s : State) : portFree s s.cur 1#64 = decide ((portQueue s s.cur).length ≤ 16) := rfl

theorem portQueue_send : portQueue (d.send s) (d.send s).cur = portQueue s s.cur ++ d.tokens := by
  simp [portQueue, send]

/-- Queued before, the tokens are still waited for. -/
theorem toPort_of_sentBefore (h : sentBefore s = true) : d.toPort s =
    .ok (if (portQueue s s.cur).length ≤ 16 then mxQueue s d.op 12 else mxPortWait s d.op d.instr 1#64) := by
  simp only [toPort, h, if_true, portFree_mark1, decide_eq_true_eq]
  split <;> rfl

section First
variable {rk : RKey} {rg : Region} (hsent : sentBefore s = false) (hrg : resultRegion s = some (rk, rg))
include hsent hrg

/-- A port without room, or in a region with a wave under way, is waited for. -/
theorem toPort_of_full (h : rg.wave ≠ none ∨ 16 ≤ (portQueue s s.cur).length) :
    d.toPort s = .ok (mxPortWait s d.op d.instr 0#64) := by
  have hfull : (rg.wave.isSome || decide (16 ≤ (portQueue s s.cur).length)) = true := by
    simpa [← Option.isSome_iff_ne_none] using h
  simp only [toPort, hsent, hrg, hfull, if_true, Bool.false_eq_true, if_false, pure_eq_ok]

/-- A port with room takes the tokens; the drain completes where all of them are accepted at once. -/
theorem toPort_of_room (hwave : rg.wave = none) (h : (portQueue s s.cur).length < 16) : d.toPort s =
    .ok (if (portQueue s s.cur).length + d.tokens.length ≤ 16 then mxQueue (d.send s) d.op (d.tokens.length + 12)
      else mxPortWait (d.send s) d.op d.instr 1#64) := by
  have hroom : (rg.wave.isSome || decide (16 ≤ (portQueue s s.cur).length)) = false := by
    simpa [hwave] using h
  simp only [toPort, hsent, hrg, hroom, Bool.false_eq_true, if_false, portFree_mark1, portQueue_send, List.length_append,
    decide_eq_true_eq]
  split <;> rfl

end First

end Drain

/-! ## The checks (R158, R160, R174) -/

/-- The drain of a tile, its rows converted. -/
def drainOf (s : State) (td : TdReg) (rs1 : XReg) (t : TR) (out : Fmt) (p : List (List Nat) × NxFlags) : Drain where
  instr := .mxDrn td rs1
  op := { slot := s.cur, td := some td.toNat, flags := p.2, accum := false }
  out := out
  bytes := t.rows * t.cols * Fmt.width out / 8
  rows := p.1

section Checks
variable {s : State} {td : TdReg} {rs1 : XReg} {w r : Word} {t : TR}
  (hw : s.xr rs1 = .ok w) (ht : s.tdr td = .ok t) (hr : s.rtr (w.extractLsb' 0 3) = .ok r)
  (hown : s.needOwner t = .ok ()) (hres : fld w 63 40 = 0 ∧ fld w 4 3 = 0) (hrm : fld w 7 5 ∈ [0, 1, 2, 3, 5])
include hw ht hr hown hres hrm

/-- A drain goes on from its checks to its destination, but for a tile whose kind the route's format does not fit. -/
theorem exec_mxDrn {out : Fmt} (hout : Fmt.ofCode (r.extractLsb' 57 3) = out) :
    exec (.mxDrn td rs1) s = mxExec (.mxDrn td rs1) (some td.toNat) s
      (if t.int32 != (out == .int) then illegal (.mxDrn td rs1)
      else drained s t out (Rm.ofCode (fld w 7 5)) >>= fun p =>
        (drainOf s td rs1 t out p).run r (fld w 39 8) s) := by
  have hcode : ([0, 1, 2, 3, 5].contains (fld w 7 5)) = true := List.contains_iff_mem.2 hrm
  have hfields : ¬ (fld w 63 40 ≠ 0 ∨ fld w 4 3 ≠ 0 ∨ (!([0, 1, 2, 3, 5].contains (fld w 7 5))) = true) := by
    rw [hres.1, hres.2, hcode]
    decide
  change execMxDrn td rs1 s = _
  simp only [execMxDrn, hw, ht, hr, hown, hout, ok_bind]
  rw [if_neg hfields, drainWidth_eq]
  rfl

end Checks

end Sys2Proof.Machine

open Sys2Proof Sys2Proof.Machine

/-- Settles O26: a drain whose checks pass goes to its destination (`exec_mxDrn`); to memory only the alignment of one element
is asked for (log 79). -/
theorem matrixDrain : Obligations.MatrixDrain := by
  intro s td rs1 w r t rows hw ht hr hv ho hhigh hlow hrm hturn i out conv flags op es e bytes
  have hexec := exec_mxDrn hw ht hr (needOwner_ok hv ho) ⟨hhigh, hlow⟩ hrm rfl
  refine ⟨fun hkind => ?misfit, fun hkind hrows => ?fits⟩
  case misfit =>
    rw [if_pos (bne_iff_ne.2 hkind)] at hexec
    exact hexec.trans (mxExec_error hturn _ _ _)
  case fits =>
    have hgoes {u : State}
        (h : (drainOf s td rs1 t out (converted out (Rm.ofCode (fld w 7 5)) rows)).run r (fld w 39 8) s = .ok u) :
        exec i s = .next u := by
      rw [if_neg (bne_eq_false_iff_eq.2 hkind ▸ Bool.false_ne_true), drained_of_tileElems hrows, ok_bind] at hexec
      exact hexec.trans ((congrArg (mxExec _ _ s) h).trans (mxExec_ok hturn _ _ _))
    refine ⟨fun m hdst hfit hm => ?buffer, fun ps u hdst hps => ?memory, fun rk rg hdst hwait hrg => ?port,
      fun k j b hdst hwait hk => ?resumed⟩
    case buffer => exact hgoes ((Drain.run_toBuffer hdst _ s).trans (Drain.toBuffer_of_granWrite hfit hm))
    case memory => exact hgoes ((Drain.run_toMemory hdst _ s).trans (Drain.toMemory_of_checkAll hps))
    case port =>
      have hsent : Drain.sentBefore s = false := by rw [Drain.sentBefore, hwait]
      intro toks sent free
      have htoks : (drainOf s td rs1 t out (converted out (Rm.ofCode (fld w 7 5)) rows)).tokens.length = toks.length := rfl
      refine ⟨fun hwave hfree hall => ?_, fun hwave hfree hmore => ?_, fun hfull => ?_⟩
      · exact hgoes ((Drain.run_toPort hdst _ s).trans
          ((Drain.toPort_of_room hsent hrg hwave (by omega)).trans (congrArg _ (if_pos (by omega)))))
      · exact hgoes ((Drain.run_toPort hdst _ s).trans
          ((Drain.toPort_of_room hsent hrg hwave (by omega)).trans (congrArg _ (if_neg (by omega)))))
      · exact hgoes ((Drain.run_toPort hdst _ s).trans
          (Drain.toPort_of_full hsent hrg (hfull.imp_right fun h => by omega)))
    case resumed =>
      subst hk
      have hsent : Drain.sentBefore s = true := by simp [Drain.sentBefore, hwait]
      exact hgoes ((Drain.run_toPort hdst _ s).trans (Drain.toPort_of_sentBefore hsent))
end

section
/-! Generations read, drawn and scrubbed (R191, R195-R198): the word that `gen.rd` answers, the search of the allocator,
what `gen.scrub` does to a selection, and O29, which they settle. -/

namespace Sys2Proof.Machine

/-! ## The word of `gen.rd` (R196) -/

theorem genWord_eq (g cur : Gen) (sup : Bool) :
    genWord g cur sup =
      if g = cur then w64 g.toNat
      else if g = 0#16 then 0x10000#64
      else if g = 0xFFFF#16 then 0x3FFFF#64
      else if sup then w64 (0x20000 + g.toNat) else 0x20000#64 := by
  unfold genWord stampClass
  by_cases hcur : g = cur
  · simp [hcur]
  by_cases hzero : g = 0#16
  · subst hzero
    simp [hcur]
    rfl
  by_cases hpoison : g = 0xFFFF#16
  · subst hpoison
    simp [hcur]
    rfl
  · cases sup
    · simp [hcur, hzero, hpoison]
      rfl
    · simp [hcur, hzero, hpoison]

/-! ## The allocator's search (R191) -/

/-- Of the listed numbers from `n` on, one fewer is from `n + 1` on where `n` is listed. -/
theorem countP_succ_lt {live : List Gen} {n : Nat} (hn : n < 2 ^ 16) (h : BitVec.ofNat 16 n ∈ live) :
    live.countP (fun g => n + 1 ≤ g.toNat) < live.countP (fun g => n ≤ g.toNat) := by
  induction live with
  | nil => cases h
  | cons g r ih =>
    have hle : r.countP (fun g => decide (n + 1 ≤ g.toNat)) ≤ r.countP (fun g => decide (n ≤ g.toNat)) :=
      List.countP_mono_left fun g _ hg => by simp only [decide_eq_true_eq] at hg ⊢; omega
    simp only [List.countP_cons, decide_eq_true_eq]
    rcases List.mem_cons.1 h with rfl | hr
    · rw [BitVec.toNat_ofNat, Nat.mod_eq_of_lt hn, if_neg (by omega), if_pos le_rfl]
      omega
    · have := ih hr
      split <;> split <;> omega

theorem nextFree_eq_some {live : List Gen} {fuel n k : Nat} (h : nextFree live fuel n = some k) :
    n ≤ k ∧ k ≤ 0xFFFD ∧ BitVec.ofNat 16 k ∉ live := by
  induction fuel generalizing n with
  | zero => cases h
  | succ fuel ih =>
    unfold nextFree at h
    split at h
    · cases h
    · split at h
      · have := ih h
        exact ⟨by omega, this.2⟩
      · next hlive =>
        cases h
        exact ⟨le_rfl, by omega, fun hk => hlive (List.contains_iff_mem.2 hk)⟩

/-- The search ends at a number where one is free: it goes past fewer numbers than are listed. -/
theorem nextFree_of_free {live : List Gen} {k : Nat} (hk : k ≤ 0xFFFD) (hfree : BitVec.ofNat 16 k ∉ live)
    {fuel n : Nat} (hn : n ≤ k) (hfuel : live.countP (fun g => n ≤ g.toNat) < fuel) : ∃ g, nextFree live fuel n = some g := by
  induction fuel generalizing n with
  | zero => omega
  | succ fuel ih =>
    unfold nextFree
    rw [if_neg (by omega)]
    split
    · next hlive =>
      have hmem := List.contains_iff_mem.1 hlive
      have hne : n ≠ k := fun h => hfree (h ▸ hmem)
      exact ih (by omega) (by have := countP_succ_lt (by omega) hmem; omega)
    · exact ⟨n, rfl⟩

/-! ## `gen.new` (R197) -/

section New
variable {s : State} {rd : XReg} (hsup : s.me.sup = true) (hrd : s.xOk rd)
include hsup hrd

theorem exec_genNew_stopped (hw : s.mgmt.wrapping = true) : exec (.genNew rd) s = .next (s.putX rd 0#64).retire := by
  change execGenNew rd s = _
  simp [execGenNew, needSup_of_sup hsup, State.newGen, hw, setX_of_xOk hrd]

theorem exec_genNew_next (hw : s.mgmt.wrapping = false) {n : Nat}
    (hn : nextFree s.heldGens (s.heldGens.length + 1) s.mgmt.genNext = some n) :
    exec (.genNew rd) s = .next (((s.modMgmt fun m => { m with genNext := n + 1 }).putX rd
      ((BitVec.ofNat 16 n).setWidth 64)).modMgmt fun m => { m with genNews := m.genNews ++ [(BitVec.ofNat 16 n, s.me.gen)] }).retire := by
  have hok : (s.modMgmt fun m => { m with genNext := n + 1 }).xOk rd := hrd
  have hgen : ∀ w, ((s.modMgmt fun m => { m with genNext := n + 1 }).putX rd w).me.gen = s.me.gen := by
    intro w
    unfold State.putX Slot.putX
    split
    · rfl
    · rw [me_modMe]
      split <;> rfl
  change execGenNew rd s = _
  simp [execGenNew, needSup_of_sup hsup, State.newGen, hw, hn, setX_of_xOk hok, hgen]

end New

/-! ## `gen.scrub` (R198) -/

/-- A scrub that the matrix engine does not hold up. -/
theorem exec_genScrub {s : State} {sp : Space} {rs1 : XReg} {w : Word} {sel : GenSel} (hsup : s.me.sup = true)
    (hw : s.xr rs1 = .ok w) (hsel : genSel (.genScrub sp rs1) true sp w = .ok sel) (hrange : scrubRange sel = .ok ()) :
    exec (.genScrub sp rs1) s =
      .next (if scrubBusy s sel then s.holdOn .mx (.genScrub sp rs1) w else (scrubSel s sel).retire) := by
  change execGenScrub sp rs1 s = _
  simp only [execGenScrub, needSup_of_sup hsup, hw, hsel, hrange, ok_bind]
  split <;> rfl

/-- The selector word 0 of the C-buffer names all of it. -/
theorem scrubSel_cbuf (s : State) : scrubSel s (.gran .c 0 0) = s.modMyCore fun c =>
    { c with cbuf := AMap.mapV c.cbuf fun k e => if k < 4096 then (if e.gen = 0xFFFF#16 then e else {}) else e } := by
  have hrange (k : Nat) : (decide (0 / 64 ≤ k) && decide (k < 0 / 64 + (bufBytes .c - 0) / 64)) = decide (k < 4096) := by
    simp [bufBytes]
  simp only [scrubSel, scrubIn, if_pos, hrange, decide_eq_true_eq]
  rfl

end Sys2Proof.Machine

open Sys2Proof Sys2Proof.Machine

/-- Settles O29: `gen.rd` answers `genWord`, `gen.new` the first number that the allocator's search finds free, and
`gen.scrub` is `scrubSel` of its selection unless the matrix engine holds it up. -/
theorem generations : Obligations.Generations := by
  intro s rd rs1 w hw
  refine ⟨fun sp sel g hsel hg hrd => ?read, fun hsup hwrap hrd => exec_genNew_stopped hsup hrd hwrap,
    fun hsup hwrap hrd _ hone ⟨k, hk, hmax, hfree⟩ => ?new, fun hsup => ⟨?v, ?md, ?cbuf, ?busy⟩⟩
  case read =>
    rw [← genWord_eq]
    change execGenRd sp rd rs1 s = _
    simp [execGenRd, hw, hsel, hg, setX_of_xOk hrd]
  case new =>
    obtain ⟨n, hn⟩ := nextFree_of_free hmax hfree hk (Nat.lt_succ_of_le List.countP_le_length)
    obtain ⟨hle, hlast, hheld⟩ := nextFree_eq_some hn
    have hnat : (BitVec.ofNat 16 n).toNat = n := by rw [BitVec.toNat_ofNat]; omega
    have hne (m : Nat) (hm : n ≠ m % 2 ^ 16) : BitVec.ofNat 16 n ≠ BitVec.ofNat 16 m := fun h =>
      hm (by rw [← BitVec.toNat_ofNat, ← h, hnat])
    refine ⟨BitVec.ofNat 16 n, fun h => hheld ?_, hne 0 (by omega), hne 0xFFFF (by omega), hne 0xFFFE (by omega), ?_⟩
    · exact List.mem_append_left _ (List.mem_append_left _ h)
    · rw [hnat]
      exact exec_genNew_next hsup hrd hwrap hn
  case v =>
    rintro rfl
    exact (exec_genScrub hsup hw rfl rfl).trans rfl
  case md =>
    rintro rfl
    exact (exec_genScrub hsup hw rfl rfl).trans rfl
  case cbuf =>
    rintro rfl hmxq
    rw [exec_genScrub hsup hw (sel := .gran .c 0 0) rfl rfl, scrubSel_cbuf, scrubBusy, hmxq]
    rfl
  case busy =>
    rintro rfl hmxq
    have hbusy : scrubBusy s (.gran .c 0 0) = true := by simpa [scrubBusy] using hmxq
    rw [exec_genScrub hsup hw (sel := .gran .c 0 0) rfl rfl, if_pos hbusy]
end

section
/-! Typed buffers (R169, R189, R213): bytes of a word, the two granules that 128 bytes cover, what `bufst` and `bufld` do
with them, and O17, which they settle. -/

namespace Sys2Proof.Machine

/-! ## Little-endian bytes (R1) -/

theorem two_pow_bytes_succ (n : Nat) : 2 ^ (8 * (n + 1)) = 256 * 2 ^ (8 * n) := by
  rw [Nat.mul_succ, Nat.pow_add, Nat.mul_comm]

@[simp] theorem length_natBytes (n v : Nat) : (natBytes n v).length = n := by
  induction n generalizing v with
  | zero => rfl
  | succ n ih => simp [natBytes, ih]

theorem bytesNat_natBytes (n v : Nat) : bytesNat (natBytes n v) = v % 2 ^ (8 * n) := by
  induction n generalizing v with
  | zero => simp [natBytes, bytesNat, Nat.mod_one]
  | succ n ih => rw [natBytes, bytesNat, ih, two_pow_bytes_succ, Nat.mod_mul]; rfl

theorem bytesNat_append (a b : List Byte) : bytesNat (a ++ b) = bytesNat a + 2 ^ (8 * a.length) * bytesNat b := by
  induction a with
  | nil => simp [bytesNat]
  | cons x a ih =>
    simp only [List.cons_append, bytesNat, ih, List.length_cons, two_pow_bytes_succ]
    ring

theorem natBytes_add (m n v : Nat) : natBytes (m + n) v = natBytes m v ++ natBytes n (v / 2 ^ (8 * m)) := by
  induction m generalizing v with
  | zero => simp [natBytes]
  | succ m ih => rw [Nat.succ_add, natBytes, ih, natBytes, List.cons_append, two_pow_bytes_succ, Nat.div_div_eq_div_mul]

/-- A register's 128 bytes as the bytes of two granules. -/
theorem vecBytes_halves (d : VWord) : vecBytes 128 d = natBytes 64 d.toNat ++ natBytes 64 (d.toNat / 2 ^ (8 * 64)) :=
  natBytes_add 64 64 d.toNat

/-- All bytes of a word replaced. -/
theorem insBytes_all {n : Nat} (x : BitVec (8 * n)) (v : Nat) : insBytes x 0 (natBytes n v) = BitVec.ofNat (8 * n) v := by
  have hmask : BitVec.ofNat (8 * n) ((2 ^ (8 * n) - 1) * 2 ^ (8 * 0)) = BitVec.allOnes (8 * n) :=
    BitVec.eq_of_toNat_eq (by simp)
  have hbytes : BitVec.ofNat (8 * n) (v % 2 ^ (8 * n) * 2 ^ (8 * 0)) = BitVec.ofNat (8 * n) v :=
    BitVec.eq_of_toNat_eq (by simp)
  simp only [insBytes, length_natBytes, hmask, bytesNat_natBytes, hbytes]
  simp

/-! ## The two granules of 128 bytes (R189) -/

theorem granulesOf_pair {o : Nat} (ho : o % 64 = 0) : granulesOf o 128 = [o / 64, o / 64 + 1] := by
  have hn : (o + 128 - 1) / 64 - o / 64 + 1 = 2 := by omega
  rw [granulesOf, if_neg (by decide), hn]
  simp [List.range_succ, Nat.add_comm]

/-- A granule with all its bytes written. -/
theorem granPut_all (e : Granule) (cur : Gen) (v : Nat) :
    granPut e cur 0 (natBytes 64 v) = { data := BitVec.ofNat 512 v, gen := cur } := by
  rw [granPut]
  exact congrArg (Granule.mk · cur) (insBytes_all (n := 64) _ v)

/-- The whole granule at an offset written first. -/
theorem granWriteAux_granule {o : Nat} (ho : o % 64 = 0) (fuel v : Nat) (m : AMap Granule) (cur : Gen) (bs : List Byte) :
    granWriteAux (fuel + 1) m cur o (natBytes 64 v ++ bs) =
      granWriteAux fuel (AMap.set m (o / 64) { data := BitVec.ofNat 512 v, gen := cur }) cur (o + 64) bs := by
  have hlen := length_natBytes 64 v
  have hcons : natBytes 64 v ++ bs = BitVec.ofNat 8 v :: (natBytes 63 (v / 256) ++ bs) := rfl
  rw [hcons, granWriteAux]
  · simp only [← hcons, ho, Nat.sub_zero, List.take_left' hlen, List.drop_left' hlen, granPut_all]
  · simp

/-- Two whole granules written, where neither is poisoned. -/
theorem granWrite_pair {m : AMap Granule} {o : Nat} (ho : o % 64 = 0)
    (hp : ∀ g ∈ [o / 64, o / 64 + 1], (AMap.getD m g {}).gen ≠ 0xFFFF#16) (cur : Gen) (d : VWord) :
    granWrite m cur o (vecBytes 128 d) =
      .ok (AMap.set (AMap.set m (o / 64) { data := BitVec.ofNat 512 d.toNat, gen := cur }) (o / 64 + 1)
        { data := BitVec.ofNat 512 (d.toNat / 2 ^ (8 * 64)), gen := cur }) := by
  have hnone : ([o / 64, o / 64 + 1].find? fun g => (AMap.getD m g {}).gen == 0xFFFF#16) = none :=
    List.find?_eq_none.2 fun g hg => by simpa using hp g hg
  have hlen : (vecBytes 128 d).length = 128 := length_natBytes 128 d.toNat
  have hdiv : (o + 64) / 64 = o / 64 + 1 := by omega
  rw [granWrite, hlen, granulesOf_pair ho, hnone, vecBytes_halves]
  simp only
  rw [granWriteAux_granule ho, ← List.append_nil (natBytes 64 (d.toNat / 2 ^ (8 * 64))),
    granWriteAux_granule (by omega), hdiv, granWriteAux]

/-- Two granules of the reader's generation read. -/
theorem granRead_pair {m : AMap Granule} {o : Nat} (ho : o % 64 = 0) {lo hi : BitVec 512} {cur : Gen} (hcur : cur ≠ 0xFFFF#16)
    (hlo : AMap.get? m (o / 64) = some { data := lo, gen := cur })
    (hhi : AMap.get? m (o / 64 + 1) = some { data := hi, gen := cur }) (trap : Bool) :
    granRead m cur trap o 128 = .ok (vecBytes 64 lo ++ vecBytes 64 hi) := by
  simp [granRead, granulesOf_pair ho, AMap.getD, hlo, hhi, stampRead, hcur, ho, vecBytes]

/-- The bytes of two halves as a register. -/
theorem ofNat_bytesNat_pair {n : Nat} (lo hi : BitVec (8 * n)) :
    BitVec.ofNat (8 * n + 8 * n) (bytesNat (vecBytes n lo ++ vecBytes n hi)) = hi ++ lo := by
  have hbytes (x : BitVec (8 * n)) : bytesNat (vecBytes n x) = x.toNat := by
    rw [vecBytes, bytesNat_natBytes, Nat.mod_eq_of_lt x.isLt]
  have hlen : (vecBytes n lo).length = n := length_natBytes n lo.toNat
  have hsum : (hi ++ lo).toNat = bytesNat (vecBytes n lo ++ vecBytes n hi) := by
    rw [BitVec.toNat_append, bytesNat_append, hbytes, hbytes, hlen, Nat.shiftLeft_eq, Nat.mul_comm hi.toNat,
      ← Nat.two_pow_add_eq_or_of_lt lo.isLt, Nat.add_comm]
  apply BitVec.eq_of_toNat_eq
  rw [← hsum, BitVec.toNat_ofNat, Nat.mod_eq_of_lt (hi ++ lo).isLt]

/-- A register is its two halves. -/
theorem append_halves {n : Nat} (d : BitVec (n + n)) : BitVec.ofNat n (d.toNat / 2 ^ n) ++ BitVec.ofNat n d.toNat = d := by
  have hhi : d.toNat / 2 ^ n < 2 ^ n := Nat.div_lt_of_lt_mul (Nat.pow_add .. ▸ d.isLt)
  apply BitVec.eq_of_toNat_eq
  rw [BitVec.toNat_append, BitVec.toNat_ofNat, BitVec.toNat_ofNat, Nat.mod_eq_of_lt hhi, Nat.shiftLeft_eq, Nat.mul_comm,
    ← Nat.two_pow_add_eq_or_of_lt (Nat.mod_lt _ (Nat.two_pow_pos n)), Nat.div_add_mod]

/-! ## A running operation's free choices (R169) -/

theorem pick_frame (s : State) (n : Nat) : ∃ k, (s.pick n).2 = { s with freeCtr := k } := by
  unfold State.pick
  split <;> exact ⟨_, rfl⟩

theorem foldl_frame {α β : Type} {f : β × State → α → β × State}
    (hf : ∀ p a, ∃ k, (f p a).2 = { p.2 with freeCtr := k }) (l : List α) (p : β × State) :
    ∃ k, (l.foldl f p).2 = { p.2 with freeCtr := k } := by
  induction l generalizing p with
  | nil => exact ⟨_, rfl⟩
  | cons a l ih =>
    obtain ⟨k, hk⟩ := hf p a
    obtain ⟨j, hj⟩ := ih (f p a)
    exact ⟨j, by rw [List.foldl_cons, hj, hk]⟩

/-- A view of a typed buffer draws free numbers only. -/
theorem bufView_frame (s : State) (core : Nat) (z : Buf) (off n : Nat) :
    ∃ k, (bufView s core z off n).2 = { s with freeCtr := k } := by
  unfold bufView cView
  split
  · split
    · exact ⟨_, rfl⟩
    · refine foldl_frame (fun p w => ?_) _ _
      split
      · exact ⟨_, rfl⟩
      · next ts _ =>
        obtain ⟨k, hk⟩ := pick_frame p.2 (ts.length + 1)
        refine ⟨k, Eq.trans ?_ hk⟩
        dsimp only
        split <;> rfl
  · exact ⟨_, rfl⟩

theorem bufView_of_quiet {s : State} {z : Buf} {core : Nat} (h : z = .c → runningBand s core = none) (off n : Nat) :
    bufView s core z off n = ((s.core core).buf z, s) := by
  unfold bufView
  split
  · next hz =>
    subst hz
    rw [cView, h rfl]
    rfl
  · rfl

/-- A store that meets a running band changes the core and draws free numbers, no more. -/
theorem cStore_frame (s : State) (core off : Nat) (bs : List Byte) :
    (cStore s core off bs).slots = s.slots ∧ (cStore s core off bs).cur = s.cur ∧ (cStore s core off bs).mem = s.mem := by
  unfold cStore
  split
  · exact ⟨rfl, rfl, rfl⟩
  · generalize hr : List.foldl _ _ _ = r
    obtain ⟨k, hk⟩ : ∃ k, r.2 = { s with freeCtr := k } := hr ▸ foldl_frame (fun p w => by
      dsimp only
      split
      · exact ⟨_, rfl⟩
      · exact pick_frame _ _) _ _
    have hslots := congrArg State.slots hk
    have hcur := congrArg State.cur hk
    have hmem := congrArg State.mem hk
    exact ⟨hslots, hcur, hmem⟩

/-! ## `bufst` and `bufld` (R213) -/

theorem buf_setBuf (c : Core) (z : Buf) (m : AMap Granule) : (c.setBuf z m).buf z = m := by cases z <;> rfl
theorem mxq_setBuf (c : Core) (z : Buf) (m : AMap Granule) : (c.setBuf z m).mxq = c.mxq := by cases z <;> rfl

theorem myCore_modMyCore_retire (s : State) (f : Core → Core) : (s.modMyCore f).retire.myCore = f s.myCore :=
  core_modCore s (coreOf s.cur) f

section Instructions
variable {s : State} {z : Buf} {vs vd : VReg} {rs1 : XReg} {o : Word} {d : VWord}

/-- The bytes of a typed buffer: the `size` of R213. -/
theorem bufSize_eq (z : Buf) : Buf.size z = if z = .w then 0x80000 else 0x40000 := by cases z <;> rfl

theorem bufOffset_misaligned (h : o.toNat % 64 ≠ 0) : bufOffset z o = .error { cause := 0x03, tval := o } := by
  rw [bufOffset, need_noMultiple h]; rfl

theorem bufOffset_past (h : o.toNat % 64 = 0) (hp : Buf.size z < o.toNat + 128) :
    bufOffset z o = .error { cause := 0x07, tval := o } := by
  rw [bufOffset, need_multiple h, ok_bind, need_error (decide_eq_false (by omega))]; rfl

theorem bufOffset_ok (h : o.toNat % 64 = 0) (hin : o.toNat + 128 ≤ Buf.size z) : bufOffset z o = .ok o.toNat := by
  rw [bufOffset, need_multiple h, ok_bind, need_ok (decide_eq_true hin)]; rfl

variable (ho : s.xr rs1 = .ok o)
include ho

/-- A load takes the bytes that the buffer's view holds. -/
theorem exec_bufld_of_view (hv : s.vOk vd) (hoff : bufOffset z o = .ok o.toNat) {m : AMap Granule} {u : State} {bs : List Byte}
    (hview : bufView s (coreOf s.cur) z o.toNat 128 = (m, u)) (hread : granRead m s.me.gen s.me.trapMode o.toNat 128 = .ok bs) :
    exec (.bufld z vd rs1) s = .next (u.vecDone vd (BitVec.ofNat 1024 (bytesNat bs)) 0#5) := by
  obtain ⟨k, hk⟩ := bufView_frame s (coreOf s.cur) z o.toNat 128
  rw [hview] at hk
  have hme : u.me = s.me := (congrArg State.me hk).trans rfl
  have hvu : u.vOk vd := by rw [State.vOk, hme]; exact hv
  change execBufld z vd rs1 s = _
  simp [execBufld, ho, hoff, hview, hme, hread, vecPut_of_vOk hvu]

/-- A load of two granules of the slot's generation, where no band runs over them. -/
theorem exec_bufld_pair (hv : s.vOk vd) (hoff : bufOffset z o = .ok o.toNat) (halign : o.toNat % 64 = 0)
    (hquiet : z = .c → runningBand s (coreOf s.cur) = none) (hgen : s.me.gen ≠ 0xFFFF#16) {lo hi : BitVec 512}
    (hlo : AMap.get? (s.myCore.buf z) (o.toNat / 64) = some { data := lo, gen := s.me.gen })
    (hhi : AMap.get? (s.myCore.buf z) (o.toNat / 64 + 1) = some { data := hi, gen := s.me.gen }) :
    exec (.bufld z vd rs1) s = .next (s.vecDone vd (hi ++ lo) 0#5) := by
  rw [exec_bufld_of_view ho hv hoff (bufView_of_quiet hquiet _ _) (granRead_pair halign hgen hlo hhi _)]
  exact congrArg (fun v => Host.Outcome.next (s.vecDone vd v 0#5)) (ofNat_bytesNat_pair (n := 64) lo hi)

/-- A store's effect: the buffer's new granules, after it has met the band that runs over the C-buffer. -/
theorem exec_bufst (hd : s.vr vs = .ok d) (hoff : bufOffset z o = .ok o.toNat) {m : AMap Granule}
    (hm : granWrite (s.myCore.buf z) s.me.gen o.toNat (vecBytes 128 d) = .ok m) :
    exec (.bufst z vs rs1) s = .next (((if z = .c then cStore s (coreOf s.cur) o.toNat (vecBytes 128 d) else s).modMyCore
      fun c => c.setBuf z m).retire) := by
  change execBufst z vs rs1 s = _
  simp [execBufst, ho, hd, hoff, hm]

theorem exec_buffer_fault (hd : s.vr vs = .ok d) {f : Trap} (hoff : bufOffset z o = .error f) :
    ∀ i ∈ [Instr.bufld z vd rs1, .bufst z vs rs1], exec i s = .next (s.takeTrap f) := by
  intro i hi
  simp only [List.mem_cons, List.not_mem_nil, or_false] at hi
  rcases hi with rfl | rfl
  · change execBufld z vd rs1 s = _
    simp [execBufld, ho, hoff]
  · change execBufst z vs rs1 s = _
    simp [execBufst, ho, hd, hoff]

end Instructions

end Sys2Proof.Machine

open Sys2Proof Sys2Proof.Machine

/-- Settles O17: a store writes its two granules (`granWrite_pair`), and a load of the two reads them back
(`exec_bufld_pair`). -/
theorem typedBuffers : Obligations.TypedBuffers := by
  intro s z vs vd rs1 o d ho hd hv size quiet
  have hsize : Buf.size z = size := bufSize_eq z
  refine ⟨fun halign hin hp => ?store, fun lo hi halign hin hquiet hgen hlo hhi => ?load, fun m u bs halign hin hview hread => ?view,
    fun h => exec_buffer_fault ho hd (bufOffset_misaligned h),
    fun halign hpast => exec_buffer_fault ho hd (bufOffset_past halign (hsize ▸ hpast))⟩
  case load => exact exec_bufld_pair ho hv (bufOffset_ok halign (hsize ▸ hin)) halign hquiet hgen hlo hhi
  case view => exact exec_bufld_of_view ho hv (bufOffset_ok halign (hsize ▸ hin)) hview hread
  case store =>
    have hoff := bufOffset_ok halign (hsize ▸ hin)
    have hexec := exec_bufst ho hd hoff (granWrite_pair halign hp s.me.gen d)
    generalize hm : AMap.set (AMap.set (s.myCore.buf z) (o.toNat / 64) _) (o.toNat / 64 + 1) _ = m at hexec
    generalize hu : (if z = .c then cStore s (coreOf s.cur) o.toNat (vecBytes 128 d) else s) = u at hexec
    obtain ⟨hslots, hcur, hmem⟩ : u.slots = s.slots ∧ u.cur = s.cur ∧ u.mem = s.mem := by
      subst hu
      split
      · exact cStore_frame s _ _ _
      · exact ⟨rfl, rfl, rfl⟩
    have hbuf : ((u.modMyCore fun c => c.setBuf z m).retire.myCore).buf z = m := by
      rw [myCore_modMyCore_retire, buf_setBuf]
    have hpair (k : Nat) (hk : k < 2) : AMap.get? m (o.toNat / 64 + k) =
        some { data := BitVec.ofNat 512 (d.toNat / 2 ^ (512 * k)), gen := s.me.gen } := by
      subst hm
      obtain rfl | rfl : k = 0 ∨ k = 1 := by omega
      · rw [AMap.get?_set_ne _ _ (by omega), Nat.add_zero, AMap.get?_set_self, Nat.mul_zero, Nat.pow_zero, Nat.div_one]
      · exact AMap.get?_set_self _ _ _
    have hquietState (hquiet : quiet) : u = s := by
      subst hu
      split
      · next hz => rw [cStore, hquiet hz]
      · rfl
    refine ⟨_, hexec, fun k hk => by rw [hbuf]; exact hpair k hk, fun g h0 h1 => ?_, ?_, hmem, fun hquiet => ?_, fun hquiet hgen => ?_⟩
    · rw [hbuf, ← hm, AMap.get?_set_ne _ _ h1, AMap.get?_set_ne _ _ h0]
    · change AMap.set u.slots u.cur (u.me.goto (u.me.pc + 4#64)) = AMap.set s.slots s.cur (s.me.goto (s.me.pc + 4#64))
      simp only [State.me, State.slot, hslots, hcur]
    · rw [hbuf, hquietState hquiet]
    · rw [hquietState hquiet] at hbuf ⊢
      have hlo := hbuf.symm ▸ hpair 0 (by decide)
      have hhi := hbuf.symm ▸ hpair 1 (by decide)
      have hidle : z = .c → runningBand (s.modMyCore fun c => c.setBuf z m).retire (coreOf s.cur) = none := fun hz => by
        have hmxq := (congrArg Core.mxq (myCore_modMyCore_retire s fun c => c.setBuf z m)).trans (mxq_setBuf s.myCore z m)
        rw [runningBand, show (((s.modMyCore fun c => c.setBuf z m).retire).core (coreOf s.cur)).mxq = s.myCore.mxq from hmxq]
        exact hquiet hz
      have hsame : (s.modMyCore fun c => c.setBuf z m).retire.me.gen = s.me.gen := (congrArg Slot.gen (me_retire _)).trans rfl
      rw [← hsame] at hgen hlo hhi
      refine (exec_bufld_pair ?_ ?_ hoff halign hidle hgen hlo hhi).trans ?_
      · rw [State.xr, me_retire]; exact ho
      · rw [State.vOk, me_retire]; exact hv
      · rw [Nat.mul_zero, Nat.pow_zero, Nat.div_one, Nat.mul_one]
        exact congrArg (fun v => Host.Outcome.next (State.vecDone _ vd v 0#5)) (append_halves (n := 512) d)
end

section
/-! The canonical form of memory (R185, R200; log 44): what it means of the outcome of an operation, and the rules by which the
outcomes of parts make the outcome of the whole. -/

namespace Sys2Proof.Machine

-- one theorem at a time: many wait on each other, and each that waits holds a thread
set_option Elab.async false

/-! ## What holds of an outcome -/

/-- `P` holds of the value where there is one. -/
def Ends {ε α : Type} (P : α → Prop) : Except ε α → Prop
  | .ok a => P a
  | .error _ => True

/-- `P` holds of the value where there is one. -/
def Gives {α : Type} (P : α → Prop) : Option α → Prop
  | some a => P a
  | none => True

/-- The next state, where there is one, is in its canonical form. -/
def Out.canonical : Out → Prop
  | .next t => t.canonical
  | _ => True

def Routed.canonical : Routed → Prop
  | .sent s => s.canonical
  | _ => True

def Moved.canonical : Moved → Prop
  | .done s => s.canonical
  | _ => True

def Got.canonical : Got → Prop
  | .val _ _ s => s.canonical
  | _ => True

def Perf.canonical : Perf → Prop
  | .done s | .wait s | .held s => s.canonical

def Checked.canonical : Checked → Prop
  | .bad _ s | .good _ s => s.canonical

def Asked.canonical : Asked → Prop
  | .done s | .wait s => s.canonical

def Dispatched.canonical : Dispatched → Prop
  | .held s | .go s => s.canonical
  | .ended _ => True

def Cmd.canonical : Cmd → Prop
  | .ok s _ | .wait s => s.canonical
  | .fail _ => True

namespace Ends
variable {ε α β : Type} {P : α → Prop} {Q : β → Prop}

theorem ok {a : α} (h : P a) : Ends P (.ok a : Except ε α) := h
theorem pure {a : α} (h : P a) : Ends P (Pure.pure a : Except ε α) := h
theorem error {e : ε} : Ends P (.error e : Except ε α) := trivial
theorem ite {c : Prop} [Decidable c] {x y : Except ε α} (hx : Ends P x) (hy : Ends P y) : Ends P (if c then x else y) := by
  split <;> assumption
theorem bind {x : Except ε α} {f : α → Except ε β} (hx : Ends P x) (hf : ∀ a, P a → Ends Q (f a)) : Ends Q (x >>= f) := by
  cases x with
  | ok a => exact hf a hx
  | error e => trivial
theorem skip {x : Except ε α} {f : α → Except ε β} (hf : ∀ a, Ends Q (f a)) : Ends Q (x >>= f) := by
  cases x with
  | ok a => exact hf a
  | error e => trivial
/-- A check before what follows. -/
theorem guard {c : Prop} [Decidable c] {x : Except ε α} {y : Except ε β} (hy : Ends Q y) : Ends Q (if c then x >>= fun _ => y else y) := by
  split
  · exact .skip fun _ => hy
  · exact hy
/-- Two ways to what follows. -/
theorem join {c : Prop} [Decidable c] {x y : Except ε α} {f : α → Except ε β} (hx : Ends P x) (hy : Ends P y)
    (hf : ∀ a, P a → Ends Q (f a)) : Ends Q (if c then x >>= f else y >>= f) := by
  split
  · exact hx.bind hf
  · exact hy.bind hf
theorem skipJoin {c : Prop} [Decidable c] {x y : Except ε α} {f : α → Except ε β} (hf : ∀ a, Ends Q (f a)) :
    Ends Q (if c then x >>= f else y >>= f) := by
  split <;> exact .skip hf
theorem map {f : α → β} {x : Except ε α} (hx : Ends P x) (hf : ∀ a, P a → Q (f a)) : Ends Q (x.map f) := by
  cases x with
  | ok a => exact hf a hx
  | error e => trivial
theorem skipMap {f : α → β} {x : Except ε α} (hf : ∀ a, Q (f a)) : Ends Q (x.map f) := by
  cases x with
  | ok a => exact hf a
  | error e => trivial
theorem foldlM {f : α → β → Except ε α} {l : List β} {a : α} (h : P a) (hf : ∀ a b, P a → Ends P (f a b)) :
    Ends P (l.foldlM f a) := by
  induction l generalizing a with
  | nil => exact h
  | cons b l ih => exact (hf a b h).bind fun _ h₁ => ih h₁
theorem get {x : Except ε α} {a : α} (h : Ends P x) (e : x = .ok a := by assumption) : P a := by subst e; exact h
theorem snd {x : Except ε (α × State)} {a : α} {t : State} (h : Ends (·.2.canonical) x) (e : x = .ok (a, t) := by assumption) :
    t.canonical := by subst e; exact h
theorem trd {x : Except ε (α × β × State)} {a : α} {b : β} {t : State} (h : Ends (·.2.2.canonical) x)
    (e : x = .ok (a, b, t) := by assumption) : t.canonical := by subst e; exact h
theorem fst {x : Except ε (State × α)} {a : α} {t : State} (h : Ends (·.1.canonical) x) (e : x = .ok (t, a) := by assumption) :
    t.canonical := by subst e; exact h
theorem liftT {x : Except Trap α} (h : Ends P x) : Ends P (Machine.liftT x) := by
  cases x with
  | ok a => exact h
  | error e => trivial
theorem fth {γ : Type} {x : Except ε (α × β × γ × State)} {a : α} {b : β} {c : γ} {t : State} (h : Ends (·.2.2.2.canonical) x)
    (e : x = .ok (a, b, c, t) := by assumption) : t.canonical := by subst e; exact h
end Ends

namespace Gives
variable {α β : Type} {P : α → Prop} {Q : β → Prop}

theorem some {a : α} (h : P a) : Gives P (.some a) := h
theorem none : Gives P .none := trivial
theorem ite {c : Prop} [Decidable c] {x y : Option α} (hx : Gives P x) (hy : Gives P y) : Gives P (if c then x else y) := by
  split <;> assumption
theorem get {x : Option α} {a : α} (h : Gives P x) (e : x = .some a := by assumption) : P a := by subst e; exact h
theorem snd {x : Option (α × State)} {a : α} {t : State} (h : Gives (·.2.canonical) x) (e : x = .some (a, t) := by assumption) :
    t.canonical := by subst e; exact h
theorem trd {x : Option (α × β × State)} {a : α} {b : β} {t : State} (h : Gives (·.2.2.canonical) x)
    (e : x = .some (a, b, t) := by assumption) : t.canonical := by subst e; exact h
theorem map {f : α → β} {x : Option α} (hx : Gives P x) (hf : ∀ a, P a → Q (f a)) : Gives Q (x.map f) := by
  cases x with
  | none => trivial
  | some a => exact hf a hx
theorem skipMap {f : α → β} {x : Option α} (hf : ∀ a, Q (f a)) : Gives Q (x.map f) := by
  cases x with
  | none => trivial
  | some a => exact hf a
theorem getD {x : Option α} {a : α} (hx : Gives P x) (ha : P a) : P (x.getD a) := by
  cases x with
  | none => exact ha
  | some b => exact hx
end Gives

theorem Ends.toOption {ε α : Type} {P : α → Prop} {x : Except ε α} (h : Ends P x) : Gives P x.toOption := by
  cases x with
  | ok a => exact h
  | error e => trivial
theorem Out.canonical.next {t : State} (h : t.canonical) : Out.canonical (.next t) := h
theorem Out.canonical.ite {c : Prop} [Decidable c] {x y : Out} (hx : Out.canonical x) (hy : Out.canonical y) :
    Out.canonical (if c then x else y) := by
  split <;> assumption
theorem Got.canonical.ite {c : Prop} [Decidable c] {x y : Got} (hx : x.canonical) (hy : y.canonical) :
    Got.canonical (if c then x else y) := by
  split <;> assumption
theorem Moved.canonical.ite {c : Prop} [Decidable c] {x y : Moved} (hx : x.canonical) (hy : y.canonical) :
    Moved.canonical (if c then x else y) := by
  split <;> assumption
theorem Routed.canonical.ite {c : Prop} [Decidable c] {x y : Routed} (hx : x.canonical) (hy : y.canonical) :
    Routed.canonical (if c then x else y) := by
  split <;> assumption
theorem Perf.canonical.ite {c : Prop} [Decidable c] {x y : Perf} (hx : x.canonical) (hy : y.canonical) :
    Perf.canonical (if c then x else y) := by
  split <;> assumption
theorem Cmd.canonical.ite {c : Prop} [Decidable c] {x y : Cmd} (hx : x.canonical) (hy : y.canonical) :
    Cmd.canonical (if c then x else y) := by
  split <;> assumption
theorem Routed.canonical.sent {r : Routed} {t : State} (h : r.canonical) (e : r = .sent t := by assumption) : t.canonical := by
  subst e; exact h
theorem Moved.canonical.done {r : Moved} {t : State} (h : r.canonical) (e : r = .done t := by assumption) : t.canonical := by
  subst e; exact h
theorem Got.canonical.val {r : Got} {w : Word} {c : CopyCmd} {t : State} (h : r.canonical)
    (e : r = .val w c t := by assumption) : t.canonical := by
  subst e; exact h
theorem Perf.canonical.done {r : Perf} {t : State} (h : r.canonical) (e : r = .done t := by assumption) : t.canonical := by
  subst e; exact h
theorem Perf.canonical.wait {r : Perf} {t : State} (h : r.canonical) (e : r = .wait t := by assumption) : t.canonical := by
  subst e; exact h
theorem Perf.canonical.held {r : Perf} {t : State} (h : r.canonical) (e : r = .held t := by assumption) : t.canonical := by
  subst e; exact h
theorem Checked.canonical.bad {r : Checked} {w : Word} {t : State} (h : r.canonical) (e : r = .bad w t := by assumption) :
    t.canonical := by
  subst e; exact h
theorem Checked.canonical.good {r : Checked} {m : Img} {t : State} (h : r.canonical) (e : r = .good m t := by assumption) :
    t.canonical := by
  subst e; exact h
theorem Asked.canonical.done {r : Asked} {t : State} (h : r.canonical) (e : r = .done t := by assumption) : t.canonical := by
  subst e; exact h
theorem Asked.canonical.wait {r : Asked} {t : State} (h : r.canonical) (e : r = .wait t := by assumption) : t.canonical := by
  subst e; exact h
theorem Dispatched.canonical.held {r : Dispatched} {t : State} (h : r.canonical) (e : r = .held t := by assumption) :
    t.canonical := by
  subst e; exact h
theorem Dispatched.canonical.go {r : Dispatched} {t : State} (h : r.canonical) (e : r = .go t := by assumption) :
    t.canonical := by
  subst e; exact h
theorem Cmd.canonical.ok {r : Cmd} {t : State} {n : Nat} (h : r.canonical) (e : r = .ok t n := by assumption) : t.canonical := by
  subst e; exact h
theorem Cmd.canonical.wait {r : Cmd} {t : State} (h : r.canonical) (e : r = .wait t := by assumption) : t.canonical := by
  subst e; exact h

/-! ## States -/

namespace State.canonical
variable {s t : State}

/-- Only memory, its bits and marks and the queues count. -/
theorem frame {s : State} (h : s.canonical) {turns duties clk cur fire freeCtr stall walked fit slots cores coves quads ports cells
    regions tenants mgmt} : State.canonical ⟨turns, duties, clk, cur, fire, freeCtr, stall, walked, s.mem, s.feEmpty, s.poison, fit,
      slots, cores, coves, quads, ports, cells, regions, tenants, s.queues, mgmt⟩ := h

theorem ite {c : Prop} [Decidable c] (hs : s.canonical) (ht : t.canonical) : (if c then s else t).canonical := by
  split <;> assumption

theorem ite_snd {α : Type} {c : Prop} [Decidable c] {p q : α × State} (hp : p.2.canonical) (hq : q.2.canonical) :
    (if c then p else q).2.canonical := by
  split <;> assumption

theorem foldl {α : Type} {f : State → α → State} {l : List α} (h : s.canonical)
    (hf : ∀ s a, s.canonical → (f s a).canonical) : (l.foldl f s).canonical := by
  induction l generalizing s with
  | nil => exact h
  | cons a l ih => exact ih (hf s a h)

theorem foldl_snd {α β : Type} {f : β × State → α → β × State} {l : List α} {p : β × State} (h : p.2.canonical)
    (hf : ∀ p a, p.2.canonical → (f p a).2.canonical) : (l.foldl f p).2.canonical := by
  induction l generalizing p with
  | nil => exact h
  | cons a l ih => exact ih (hf p a h)

/-- The state of a pair that has been named. -/
theorem of_pair {α : Type} {p : α × State} {a : α} {t : State} (h : p.2.canonical) (e : p = (a, t) := by assumption) :
    t.canonical := by subst e; exact h

theorem of_triple {α β : Type} {p : α × β × State} {a : α} {b : β} {t : State} (h : p.2.2.canonical)
    (e : p = (a, b, t) := by assumption) : t.canonical := by subst e; exact h

end State.canonical

end Sys2Proof.Machine
end

section
/-! The canonical form under the operations on units, memory, caches and translation: each keeps it, as it leaves memory alone or
writes it by the byte and mark operations that keep the form. -/

namespace Sys2Proof.Machine

-- one theorem at a time: many wait on each other, and each that waits holds a thread
set_option Elab.async false

namespace State.canonical
variable {s t : State}

/-! ## Updates of one unit -/

theorem setQueue {n v} (h : s.canonical) (hv : Bytes.wf v.window = true) : (s.setQueue n v).canonical :=
  (keeps_setQueue s n v fun _ => hv).2 h
theorem modQueue {n f} (h : s.canonical) (hf : (f (s.queue n)).window = (s.queue n).window) : (s.modQueue n f).canonical :=
  h.setQueue (hf ▸ queue_wf h n)

end State.canonical

/-- What an outcome leaves alone (`keeps`), it keeps canonical. -/
theorem Ends.of_keeps {ε α : Type} {s : State} {x : Except ε (α × State)} (h : s.canonical)
    (hk : ∀ {a t}, x = .ok (a, t) → keeps s t) : Ends (·.2.canonical) x := by
  cases x with
  | ok p => exact (hk rfl).2 h
  | error e => trivial
theorem Ends.state_of_keeps {ε : Type} {s : State} {x : Except ε State} (h : s.canonical)
    (hk : ∀ {t}, x = .ok t → keeps s t) : Ends State.canonical x := by
  cases x with
  | ok t => exact (hk rfl).2 h
  | error e => trivial

namespace State.canonical
variable {s : State}

/-! ## Memory, caches and translation -/

theorem count {v c} (h : s.canonical) : (s.count v c).canonical := (keeps_count _ _ _).2 h
theorem countEcc {n} (h : s.canonical) : (s.countEcc n).canonical := (keeps_countEcc _ _).2 h
theorem after {n e} (h : s.canonical) : (s.after n e).canonical := (keeps_after _ _ _).2 h
theorem stallFor {n} (h : s.canonical) : (s.stallFor n).canonical := (keeps_stallFor _ _).2 h
theorem pick {n} (h : s.canonical) : (s.pick n).2.canonical := (keeps_pick _ _).2 h
theorem wakeMgmt (h : s.canonical) : s.wakeMgmt.canonical := (keeps_wakeMgmt _).2 h
theorem wakeQueue {q n} (h : s.canonical) : (s.wakeQueue q n).canonical := (keeps_wakeQueue _ _ _).2 h
theorem slotWrite {q off bs} (h : s.canonical) : (Machine.slotWrite s q off bs).canonical := (keeps_slotWrite _ _ _ _).2 h
theorem windowWrite {n q off bs} (h : s.canonical) : (Machine.windowWrite n s q off bs).canonical :=
  (keeps_windowWrite _ _ _ _ _).2 h
theorem tsyncPut {b w} (h : s.canonical) : (Machine.tsyncPut s b w).canonical := (keeps_tsyncPut _ _ _).2 h
theorem setFull {pa} (h : s.canonical) : (s.setFull pa).canonical := (keeps_setFull _ _).2 h
theorem setEmpty {pa} (h : s.canonical) : (s.setEmpty pa).canonical := (keeps_setEmpty _ _).2 h
theorem homeWrite {src pa bs} (h : s.canonical) : (s.homeWrite src pa bs).canonical := (keeps_homeWrite _ _ _ _).2 h
theorem l2Forward {cove line} (h : s.canonical) : (s.l2Forward cove line).canonical := (keeps_l2Forward _ _ _).2 h
theorem gather {line} (h : s.canonical) : (s.gather line).canonical := (keeps_gather _ _).2 h
theorem dropOld {cove line} (h : s.canonical) : (s.dropOld cove line).canonical := (keeps_dropOld _ _ _).2 h
theorem dropOlds {cove} (h : s.canonical) : (s.dropOlds cove).canonical := (keeps_dropOlds _ _).2 h
theorem l2Evict {cove} (h : s.canonical) : (s.l2Evict cove).canonical := (keeps_l2Evict _ _).2 h
theorem l2Line {cove p} (h : s.canonical) : (s.l2Line cove p).2.canonical := (keeps_l2Line _ _ _).2 h
theorem l2Read {cove p n} (h : s.canonical) : (s.l2Read cove p n).2.canonical := (keeps_l2Read _ _ _ _).2 h
theorem l2Put {cove p offs whole f} (h : s.canonical) : (s.l2Put cove p offs whole f).canonical :=
  (keeps_l2Put _ _ _ _ _ _).2 h
theorem l2Write {cove p bs} (h : s.canonical) : (s.l2Write cove p bs).canonical := (keeps_l2Write _ _ _ _).2 h
theorem l2ForwardAll {cove} (h : s.canonical) : (s.l2ForwardAll cove).canonical := (keeps_l2ForwardAll _ _).2 h
theorem cbDrain {core line} (h : s.canonical) : (s.cbDrain core line).canonical := (keeps_cbDrain _ _ _).2 h
theorem cbDrainAll {core} (h : s.canonical) : (s.cbDrainAll core).canonical := (keeps_cbDrainAll _ _).2 h
theorem l1dLine {core p} (h : s.canonical) : (s.l1dLine core p).2.canonical := (keeps_l1dLine _ _ _).2 h
theorem coreRead {core p n} (h : s.canonical) : (s.coreRead core p n).2.canonical := (keeps_coreRead _ _ _ _).2 h
theorem coreWrite {core p bs} (h : s.canonical) : (s.coreWrite core p bs).canonical := (keeps_coreWrite _ _ _ _).2 h
theorem bringHome {core p} (h : s.canonical) : (s.bringHome core p).canonical := (keeps_bringHome _ _ _).2 h
theorem dropLine {core p} (h : s.canonical) : (s.dropLine core p).canonical := (keeps_dropLine _ _ _).2 h
theorem releaseAt {core sc} (h : s.canonical) : (s.releaseAt core sc).canonical := (keeps_releaseAt _ _ _).2 h
theorem acquireAt {core sc} (h : s.canonical) : (s.acquireAt core sc).canonical := (keeps_acquireAt _ _ _).2 h
theorem atHome {ag p} (h : s.canonical) : (s.atHome ag p).canonical := (keeps_atHome _ _ _).2 h
theorem putHome {ag p bs} (h : s.canonical) : (s.putHome ag p bs).canonical := (keeps_putHome _ _ _ _).2 h
theorem translate {ag va k} (h : s.canonical) : Ends (·.2.canonical) (Machine.translate s ag va k) :=
  .of_keeps h keeps_translate
theorem xlat {ag va k} (h : s.canonical) : Ends (·.2.canonical) (Machine.xlat s ag va k) :=
  .of_keeps h keeps_xlat
theorem load {va n} (h : s.canonical) : Ends (·.2.canonical) (s.load va n) :=
  .of_keeps h keeps_load
theorem store {va bs} (h : s.canonical) : Ends State.canonical (s.store va bs) :=
  .state_of_keeps h keeps_store
theorem readAs {ag va n} (h : s.canonical) : Ends (·.2.canonical) (s.readAs ag va n) :=
  .of_keeps h keeps_readAs
theorem writeAs {ag va bs} (h : s.canonical) : Ends State.canonical (s.writeAs ag va bs) :=
  .state_of_keeps h keeps_writeAs
theorem setCore {n v} (h : s.canonical) : (s.setCore n v).canonical := (keeps_setCore _ _ _).2 h
theorem modCore {n f} (h : s.canonical) : (s.modCore n f).canonical := (keeps_modCore _ _ _).2 h
theorem modCove {n f} (h : s.canonical) : (s.modCove n f).canonical := (keeps_modCove _ _ _).2 h
theorem modTenant {n f} (h : s.canonical) : (s.modTenant n f).canonical := (keeps_modTenant _ _ _).2 h
theorem modMgmt {f} (h : s.canonical) : (s.modMgmt f).canonical := (keeps_modMgmt _ _).2 h

end State.canonical

namespace State.canonical
variable {s : State}
theorem orElse {ε : Type} {r : Except ε State} (h : s.canonical) (hr : Ends State.canonical r) :
    (Machine.orElse r s).canonical := by
  unfold Machine.orElse
  split
  · exact hr.get rfl
  · exact h
theorem stampWrite {stamp : Gen} {v : Word} (h : s.canonical) : Ends State.canonical (Machine.stampWrite stamp s v) :=
  .ite .error (.ok h)
end State.canonical

end Sys2Proof.Machine
end

section
/-! The canonical form under the operations of Access. -/

namespace Sys2Proof.Machine

-- one theorem at a time: many wait on each other, and each that waits holds a thread
set_option Elab.async false

variable {s : State}

theorem State.canonical.setSlot {n v} (h : s.canonical) : (s.setSlot n v).canonical := h.frame

theorem State.canonical.modSlot {n f} (h : s.canonical) : (s.modSlot n f).canonical := h.setSlot

theorem State.canonical.setQuad {n v} (h : s.canonical) : (s.setQuad n v).canonical := h.frame

theorem State.canonical.modQuad {n f} (h : s.canonical) : (s.modQuad n f).canonical := h.setQuad

theorem State.canonical.setPort {n v} (h : s.canonical) : (s.setPort n v).canonical := h.frame

theorem State.canonical.setCell {k v} (h : s.canonical) : (s.setCell k v).canonical := h.frame

theorem State.canonical.modCell {k f} (h : s.canonical) : (s.modCell k f).canonical := h.setCell

theorem State.canonical.setRegion {rk v} (h : s.canonical) : (s.setRegion rk v).canonical := h.frame

theorem State.canonical.modRegion {rk f} (h : s.canonical) : (s.modRegion rk f).canonical := h.setRegion

theorem State.canonical.setTenant {n v} (h : s.canonical) : (s.setTenant n v).canonical := h.frame

theorem State.canonical.modMe {f} (h : s.canonical) : (s.modMe f).canonical := h.modSlot

theorem State.canonical.modMyCore {f} (h : s.canonical) : (s.modMyCore f).canonical := h.modCore

theorem State.canonical.pass {n} (h : s.canonical) : (s.pass n).canonical := h.frame

theorem State.canonical.fireAfter {n i f} (h : s.canonical) : (s.fireAfter n i f).canonical := h.frame

theorem State.canonical.dropDuties {p} (h : s.canonical) : (s.dropDuties p).canonical := h.frame

end Sys2Proof.Machine
end

section
/-! The canonical form under the operations of DevRegs. -/

namespace Sys2Proof.Machine

-- one theorem at a time: many wait on each other, and each that waits holds a thread
set_option Elab.async false

variable {s : State}

theorem State.canonical.audit {cmd queue vmid a0 a1 a2 status} (h : s.canonical) :
    (s.audit cmd queue vmid a0 a1 a2 status).canonical := h.modMgmt

end Sys2Proof.Machine
end

section
/-! The canonical form under the operations of Tasks. -/

namespace Sys2Proof.Machine

-- one theorem at a time: many wait on each other, and each that waits holds a thread
set_option Elab.async false

variable {s : State}

theorem State.canonical.homeLoad {ag va k} (h : s.canonical) : Ends (·.2.2.canonical) (s.homeLoad ag va k) := by
  unfold State.homeLoad
  split
  · exact .error
  · exact .ok h.xlat.snd.atHome

theorem State.canonical.homeStore {ag va w} (h : s.canonical) : Ends State.canonical (s.homeStore ag va w) := by
  unfold State.homeStore
  split
  · exact .error
  · exact .ok h.xlat.snd.putHome

theorem State.canonical.orElse_homeStore {ag va w} (h : s.canonical) :
    (Machine.orElse (s.homeStore ag va w) s).canonical := h.orElse h.homeStore

theorem State.canonical.homeWords {ag va n} (h : s.canonical) : Ends (·.2.canonical) (Machine.homeWords s ag va n) := by
  induction n generalizing s ag va with
  | zero => exact .ok h
  | succ n ih =>
    unfold Machine.homeWords
    split
    · exact .error
    · split
      · exact .error
      · exact .ok (ih h.homeLoad.trd).snd

theorem State.canonical.homePuts {ag va l} (h : s.canonical) : Ends State.canonical (Machine.homePuts s ag va l) := by
  induction l generalizing s ag va with
  | nil => exact .ok h
  | cons a r ih =>
    unfold Machine.homePuts
    split
    · exact .error
    · exact ih h.homeStore.get

theorem State.canonical.ringAppend {ag base ws} (h : s.canonical) :
    Gives State.canonical (Machine.ringAppend s ag base ws) := by
  unfold Machine.ringAppend
  split
  · refine .ite .none (.ite .none ?_)
    split
    · exact .none
    · split
      · exact .some h.homeWords.snd.homePuts.get.homeStore.get
      · exact .none
  · exact .none

theorem State.canonical.ringPop {ag base} (h : s.canonical) : (Machine.ringPop s ag base).canonical := by
  unfold Machine.ringPop
  split
  · exact h.homeWords.snd.orElse_homeStore
  · exact h

theorem State.canonical.ringDrop {ag base} (h : s.canonical) : (Machine.ringDrop s ag base).canonical := by
  unfold Machine.ringDrop
  split
  · exact h.homeLoad.trd.putHome
  · exact h

theorem State.canonical.msix {fn vec} (h : s.canonical) : (s.msix fn vec).canonical := h.modMgmt

theorem State.canonical.trace {vmid cls unit code a0 a1} (h : s.canonical) :
    (s.trace vmid cls unit code a0 a1).canonical := by
  unfold State.trace
  refine .ite h ?_
  dsimp only
  split
  · exact h.ringAppend.get
  · exact h.count

theorem State.canonical.readDesc {ag p} (h : s.canonical) : Ends (·.2.canonical) (Machine.readDesc s ag p) := by
  unfold Machine.readDesc
  split
  · exact .ok h.homeWords.snd
  · exact .ok h.homeWords.snd
  · exact .error

theorem State.canonical.askPlacer {quad r} (h : s.canonical) : (s.askPlacer quad r).canonical :=
  .ite h.modQuad h.modQuad.after

theorem State.canonical.routeToken {vmid cove queue desc tok ret src} (h : s.canonical) :
    Routed.canonical (Machine.routeToken s vmid cove queue desc tok ret src) := by
  unfold Machine.routeToken
  dsimp only
  split
  · exact trivial
  · refine .ite (show State.canonical _ from .ite h.readDesc.snd.after h.readDesc.snd.after) (.ite trivial ?_)
    split
    · exact trivial
    · exact show State.canonical _ from .ite h.readDesc.snd.ringAppend.get.after.askPlacer
          h.readDesc.snd.ringAppend.get.after

theorem State.canonical.sendMsg {m} (h : s.canonical) : (s.sendMsg m).canonical := h.after

theorem State.canonical.checkCarve {ag va n} (h : s.canonical) : Ends State.canonical (Machine.checkCarve s ag va n) := by
  unfold Machine.checkCarve
  split
  · exact .error
  · refine .ite (.ok h.translate.snd) ?_
    split
    · exact .error
    · exact .ok h.translate.snd.translate.snd

theorem State.canonical.zeroFrame {ag va n} (h : s.canonical) : (Machine.zeroFrame s ag va n).canonical := by
  induction n generalizing s ag va with
  | zero => exact h
  | succ n ih =>
    unfold Machine.zeroFrame
    refine ih ?_
    split
    · exact h
    · exact h.xlat.snd.putHome

theorem State.canonical.allocFrame {ag n} (h : s.canonical) : Ends (·.2.canonical) (Machine.allocFrame s ag n) := by
  unfold Machine.allocFrame
  refine .ite (.ite .error ?_) (.ok h.pick.modTenant)
  split
  · exact .error
  · exact .ok h.checkCarve.get.zeroFrame.modTenant

theorem State.canonical.returnFrame {vmid cove va} (h : s.canonical) : (Machine.returnFrame s vmid cove va).canonical :=
  h.modTenant

theorem State.canonical.writeHeader {ag f retp gen} (h : s.canonical) :
    Ends State.canonical (Machine.writeHeader s ag f retp gen) := by
  unfold Machine.writeHeader
  split
  · exact .error
  · split
    · exact .error
    · exact .ok h.homePuts.get.xlat.snd.setEmpty

theorem State.canonical.freeIndex {n used} (h : s.canonical) : Gives (·.2.canonical) (Machine.freeIndex s n used) :=
  .ite .none (.some h.pick)

theorem State.canonical.takeStack {vmid} (h : s.canonical) : Gives (·.2.2.canonical) (Machine.takeStack s vmid) := by
  unfold Machine.takeStack
  dsimp only
  split
  · exact .none
  · exact .some h.freeIndex.snd.modTenant

theorem State.canonical.giveStack {vmid i} (h : s.canonical) : (Machine.giveStack s vmid i).canonical := by
  unfold Machine.giveStack
  split
  · exact h
  · exact h.modTenant

theorem State.canonical.spillEntry {core e} (h : s.canonical) : (Machine.spillEntry s core e).canonical :=
  (h.orElse h.homePuts).modQueue rfl

theorem State.canonical.unspill {q e} (h : s.canonical) : (Machine.unspill s q e).2.canonical := by
  unfold Machine.unspill
  dsimp only
  split
  · exact (h.modQueue rfl).homeWords.snd
  · exact h.modQueue rfl

theorem State.canonical.dequeSpill {core q} (h : s.canonical) : (Machine.dequeSpill s core q).canonical :=
  h.modCore.foldl fun _ _ h₁ => h₁.spillEntry

theorem State.canonical.pushBottom {core e} (h : s.canonical) : Gives State.canonical (Machine.pushBottom s core e) := by
  unfold Machine.pushBottom
  refine .ite (.some h.modCore) ?_
  split
  · exact .none
  · exact .some h.dequeSpill.modCore

theorem State.canonical.dequeRefill {core q} (h : s.canonical) : (Machine.dequeRefill s core q).canonical :=
  .ite h (h.foldl fun _ _ h₁ => h₁.unspill.modCore)

theorem State.canonical.resumeAppend {vmid q i} (h : s.canonical) : (Machine.resumeAppend s vmid q i).canonical := by
  unfold Machine.resumeAppend
  dsimp only
  split
  · exact .modTenant (.orElse_homeStore (.ite (.orElse_homeStore
        (.ite h.homeWords.snd.orElse_homeStore h.homeWords.snd.orElse_homeStore.orElse_homeStore))
        (.ite h.homeWords.snd.orElse_homeStore h.homeWords.snd.orElse_homeStore.orElse_homeStore)))
  · exact h

theorem State.canonical.pushContinuation {vmid ref frame} (h : s.canonical) :
    (Machine.pushContinuation s vmid ref frame).canonical := by
  unfold Machine.pushContinuation
  dsimp only
  split
  · exact h
  · split
    · exact h.pushBottom.get
    · exact h.resumeAppend

theorem State.canonical.wake {p} (h : s.canonical) : (s.wake p).canonical := h.frame

theorem State.canonical.wakeFrame {vmid k f} (h : s.canonical) : (Machine.wakeFrame s vmid k f).canonical := h.wake

theorem State.canonical.decJoin {vmid cove caller} (h : s.canonical) : (Machine.decJoin s vmid cove caller).canonical := by
  unfold Machine.decJoin
  dsimp only
  split
  · exact h.count
  · exact .ite h.homeLoad.trd.count (.ite h.homeLoad.trd.putHome.pushContinuation
        (.ite h.homeLoad.trd.putHome.wakeFrame h.homeLoad.trd.putHome))

theorem State.canonical.launchComplete {q done status} (h : s.canonical) :
    (Machine.launchComplete s q done status).canonical := by
  unfold Machine.launchComplete
  refine .msix (.modQueue (.ite h ?_) rfl)
  split
  · exact h.count
  · exact h.xlat.snd.putHome

theorem State.canonical.actRetp {vmid cove f retp status payload ftag nul} (h : s.canonical) :
    (Machine.actRetp s vmid cove f retp status payload ftag nul).canonical := by
  unfold Machine.actRetp
  extract_lets ag
  split
  · exact h.wakeFrame
  · split
    · have h₁ := h.homeWords.snd (by assumption)
      split
      · split
        · exact .ite h₁.readDesc.snd.after h₁.readDesc.snd.count
        · exact h₁.count
      · extract_lets tok
        split
        · exact h₁.routeToken.sent
        · exact h₁.count
    · exact h.count
  · exact (h.modQueue rfl).launchComplete
  · exact h.orElse_homeStore.pushContinuation

theorem State.canonical.finishFrame {vmid cove f result status payload ftag nul} (h : s.canonical) :
    (Machine.finishFrame s vmid cove f result status payload ftag nul).canonical := by
  unfold Machine.finishFrame
  dsimp only
  split
  · exact .ite h.homeWords.snd.orElse_homeStore.actRetp h.homeWords.snd.orElse_homeStore.actRetp.decJoin
  · exact h.count

theorem State.canonical.mxDrop {n} (h : s.canonical) : (s.mxDrop n).canonical := .ite (.modCore (.ite h.dropDuties h)) h

theorem State.canonical.slotIdle {n} (h : s.canonical) : (s.slotIdle n).canonical := by
  unfold State.slotIdle
  refine .modSlot ?_
  split
  · exact h.mxDrop.giveStack
  · exact h.mxDrop

theorem State.canonical.endTask {n cause} (h : s.canonical) : (Machine.endTask s n cause).canonical := by
  unfold Machine.endTask
  refine .slotIdle (.ite h.releaseAt.count ?_)
  split
  · exact h.releaseAt.count
  · exact h.releaseAt.homeStore.get.finishFrame

end Sys2Proof.Machine
end

section
/-! The canonical form under the operations of Ops. -/

namespace Sys2Proof.Machine

-- one theorem at a time: many wait on each other, and each that waits holds a thread
set_option Elab.async false

variable {s : State}

theorem State.canonical.setX {r w} (h : s.canonical) : Ends State.canonical (s.setX r w) := .ite (.ok h) h.modMe.stampWrite

theorem State.canonical.setV {r w} (h : s.canonical) : Ends State.canonical (s.setV r w) := h.modMe.stampWrite

theorem State.canonical.setMd {r w} (h : s.canonical) : Ends State.canonical (s.setMd r w) := h.modMe.stampWrite

theorem State.canonical.setQ {r e} (h : s.canonical) : Ends State.canonical (s.setQ r e) := h.modMe.stampWrite

theorem State.canonical.setTd {r e} (h : s.canonical) : Ends State.canonical (s.setTd r e) := h.modMyCore.stampWrite

theorem State.canonical.setRt {r w} (h : s.canonical) : Ends State.canonical (s.setRt r w) := h.modMyCore.stampWrite

theorem State.canonical.jumpTo {pc} (h : s.canonical) : (s.jumpTo pc).canonical := h.modMe

theorem State.canonical.retire (h : s.canonical) : s.retire.canonical := h.modMe

theorem State.canonical.holdOn {k i addr} (h : s.canonical) : (s.holdOn k i addr).canonical := h.modMe

theorem State.canonical.retireFor {k n e} (h : s.canonical) : (s.retireFor k n e).canonical := h.retire.modMe.after

theorem State.canonical.takeTrap {t} (h : s.canonical) : (s.takeTrap t).canonical :=
  .ite (.modMe (.frame (.modMe (.ite h.audit h)))) (.ite (.modMe (.frame (.modMe (.ite h.audit h))))
    (.endTask (.frame (.modMe (.ite h.audit h)))))

theorem State.canonical.commit {r} (h : s.canonical) (hr : Ends State.canonical r) : Out.canonical (s.commit r) := by
  cases r with
  | ok t => exact hr
  | error e => exact h.takeTrap

theorem State.canonical.oldest {n} (h : s.canonical) : Gives (·.2.canonical) (s.oldest n) := by
  unfold State.oldest
  split
  · exact .some h.modSlot
  · dsimp only
    split
    · exact .none
    · exact .some h.modTenant

theorem State.canonical.deliverTo {n} (h : s.canonical) : (s.deliverTo n).canonical := by
  unfold State.deliverTo
  split
  · exact h.frame.takeTrap
  · split
    · exact h
    · exact h.oldest.snd.acquireAt.setSlot

theorem State.canonical.newGen (h : s.canonical) : s.newGen.2.canonical := by
  unfold State.newGen
  split
  · exact h
  · dsimp only
    split
    · exact h.modMgmt.after
    · exact h.modMgmt

end Sys2Proof.Machine
end

section
/-! The canonical form under the operations of Scalar. -/

namespace Sys2Proof.Machine

-- one theorem at a time: many wait on each other, and each that waits holds a thread
set_option Elab.async false

variable {s : State}

theorem State.canonical.retireIn {n} (h : s.canonical) : (s.retireIn n).canonical := .ite h.retire h.retireFor

theorem State.canonical.execOpImm {op rd rs1 imm} (h : s.canonical) : Out.canonical (Machine.execOpImm op rd rs1 imm s) :=
  h.commit (.skip fun _ => h.setX.bind fun _ h₁ => .pure h₁.retire)

theorem State.canonical.execOpImm32 {op rd rs1 imm} (h : s.canonical) :
    Out.canonical (Machine.execOpImm32 op rd rs1 imm s) := h.commit (.skip fun _ => h.setX.bind fun _ h₁ => .pure h₁.retire)

theorem State.canonical.execOp {op rd rs1 rs2} (h : s.canonical) : Out.canonical (Machine.execOp op rd rs1 rs2 s) :=
  h.commit (.skip fun _ => .skip fun _ => h.setX.bind fun _ h₁ => .pure h₁.retireIn)

theorem State.canonical.execOp32 {op rd rs1 rs2} (h : s.canonical) : Out.canonical (Machine.execOp32 op rd rs1 rs2 s) :=
  h.commit (.skip fun _ => .skip fun _ => h.setX.bind fun _ h₁ => .pure h₁.retireIn)

theorem State.canonical.execLui {rd imm} (h : s.canonical) : Out.canonical (Machine.execLui rd imm s) :=
  h.commit (h.setX.bind fun _ h₁ => .pure h₁.retire)

theorem State.canonical.execAuipc {rd imm} (h : s.canonical) : Out.canonical (Machine.execAuipc rd imm s) :=
  h.commit (h.setX.bind fun _ h₁ => .pure h₁.retire)

theorem State.canonical.execJal {rd off} (h : s.canonical) : Out.canonical (Machine.execJal rd off s) :=
  h.commit (.skip fun _ => h.setX.bind fun _ h₁ => .pure h₁.jumpTo)

theorem State.canonical.execJalr {rd rs1 imm} (h : s.canonical) : Out.canonical (Machine.execJalr rd rs1 imm s) :=
  h.commit (.skip fun _ => .skip fun _ => h.setX.bind fun _ h₁ => .pure h₁.jumpTo)

theorem State.canonical.execBranch {op rs1 rs2 off} (h : s.canonical) :
    Out.canonical (Machine.execBranch op rs1 rs2 off s) := h.commit
    (.skip fun _ => .skip fun _ => .ite (.skip fun _ => .pure h.jumpTo) (.pure h.retire))

theorem State.canonical.execLoad {op rd rs1 imm} (h : s.canonical) : Out.canonical (Machine.execLoad op rd rs1 imm s) :=
  h.commit (.skip fun _ => .skip fun _ => h.load.bind fun ⟨_, _⟩ h₁ => h₁.setX.bind fun _ h₂ => .pure h₂.retire)

theorem State.canonical.execStore {sz rs2 rs1 imm} (h : s.canonical) :
    Out.canonical (Machine.execStore sz rs2 rs1 imm s) := h.commit
    (.skip fun _ => .skip fun _ => .skip fun _ => h.store.bind fun _ h₁ => .pure h₁.retire)

theorem State.canonical.execFence {_rd _rs1 _imm} (h : s.canonical) : Out.canonical (Machine.execFence _rd _rs1 _imm s) :=
  h.releaseAt.acquireAt.retire

theorem State.canonical.execFenceI {_rd _rs1 _imm} (h : s.canonical) :
    Out.canonical (Machine.execFenceI _rd _rs1 _imm s) := h.cbDrainAll.modMyCore.retire

theorem State.canonical.execEcall (h : s.canonical) : Out.canonical (Machine.execEcall s) := h.commit .error

theorem State.canonical.execEbreak (h : s.canonical) : Out.canonical (Machine.execEbreak s) := h.commit .error

theorem State.canonical.csrStep {i rd n writes new} (h : s.canonical) :
    Ends State.canonical (Machine.csrStep i rd n writes s new) := .skip fun _ => .skip fun _ => h.setX.bind fun _ h₁ => .pure
    (.retire (.ite h₁.modMe h₁))

theorem State.canonical.execCsrrw {rd rs1 csr} (h : s.canonical) : Out.canonical (Machine.execCsrrw rd rs1 csr s) :=
  h.commit h.csrStep

theorem State.canonical.execCsrrs {rd rs1 csr} (h : s.canonical) : Out.canonical (Machine.execCsrrs rd rs1 csr s) :=
  h.commit h.csrStep

theorem State.canonical.execCsrrc {rd rs1 csr} (h : s.canonical) : Out.canonical (Machine.execCsrrc rd rs1 csr s) :=
  h.commit h.csrStep

theorem State.canonical.execCsrrwi {rd zimm csr} (h : s.canonical) : Out.canonical (Machine.execCsrrwi rd zimm csr s) :=
  h.commit h.csrStep

theorem State.canonical.execCsrrsi {rd zimm csr} (h : s.canonical) : Out.canonical (Machine.execCsrrsi rd zimm csr s) :=
  h.commit h.csrStep

theorem State.canonical.execCsrrci {rd zimm csr} (h : s.canonical) : Out.canonical (Machine.execCsrrci rd zimm csr s) :=
  h.commit h.csrStep

end Sys2Proof.Machine
end

section
/-! The canonical form under the operations of Vector. -/

namespace Sys2Proof.Machine

-- one theorem at a time: many wait on each other, and each that waits holds a thread
set_option Elab.async false

variable {s : State}

theorem State.canonical.vecPut {vd v fl} (h : s.canonical) : Ends State.canonical (s.vecPut vd v fl) :=
  h.setV.bind fun _ h₁ => .pure h₁.modMe.retire

theorem State.canonical.vecMap {m w n vd res} (h : s.canonical) : Ends State.canonical (s.vecMap m w n vd res) :=
  .skip fun _ => h.vecPut

theorem State.canonical.vecArith {i op m f vd vs1 vs2} (h : s.canonical) :
    Out.canonical (Machine.vecArith i op m f vd vs1 vs2 s) := h.commit
    (.skip fun _ => .skip fun _ => .skip fun _ => .skipJoin fun _ => .skip fun _ => h.vecMap)

theorem State.canonical.execVadd {m f vd vs1 vs2} (h : s.canonical) : Out.canonical (Machine.execVadd m f vd vs1 vs2 s) :=
  h.vecArith

theorem State.canonical.execVsub {m f vd vs1 vs2} (h : s.canonical) : Out.canonical (Machine.execVsub m f vd vs1 vs2 s) :=
  h.vecArith

theorem State.canonical.execVmul {m f vd vs1 vs2} (h : s.canonical) : Out.canonical (Machine.execVmul m f vd vs1 vs2 s) :=
  h.vecArith

theorem State.canonical.execVfma {m f vd vs1 vs2} (h : s.canonical) : Out.canonical (Machine.execVfma m f vd vs1 vs2 s) :=
  h.vecArith

theorem State.canonical.vecBinary {i chk m f vd vs1 vs2 op} (h : s.canonical) :
    Out.canonical (Machine.vecBinary i chk m f vd vs1 vs2 s op) := h.commit
    (.skipJoin fun _ => .skip fun _ => .skip fun _ => h.vecMap)

theorem State.canonical.execVmin {m f vd vs1 vs2} (h : s.canonical) : Out.canonical (Machine.execVmin m f vd vs1 vs2 s) :=
  h.vecBinary

theorem State.canonical.execVmax {m f vd vs1 vs2} (h : s.canonical) : Out.canonical (Machine.execVmax m f vd vs1 vs2 s) :=
  h.vecBinary

theorem State.canonical.execVand {m f vd vs1 vs2} (h : s.canonical) : Out.canonical (Machine.execVand m f vd vs1 vs2 s) :=
  h.vecBinary

theorem State.canonical.execVor {m f vd vs1 vs2} (h : s.canonical) : Out.canonical (Machine.execVor m f vd vs1 vs2 s) :=
  h.vecBinary

theorem State.canonical.execVxor {m f vd vs1 vs2} (h : s.canonical) : Out.canonical (Machine.execVxor m f vd vs1 vs2 s) :=
  h.vecBinary

theorem State.canonical.execVsll {m f vd vs1 vs2} (h : s.canonical) : Out.canonical (Machine.execVsll m f vd vs1 vs2 s) :=
  h.vecBinary

theorem State.canonical.execVsrl {m f vd vs1 vs2} (h : s.canonical) : Out.canonical (Machine.execVsrl m f vd vs1 vs2 s) :=
  h.vecBinary

theorem State.canonical.execVsra {m f vd vs1 vs2} (h : s.canonical) : Out.canonical (Machine.execVsra m f vd vs1 vs2 s) :=
  h.vecBinary

theorem State.canonical.vecCompare {c m f vd vs1 vs2} (h : s.canonical) :
    Out.canonical (Machine.vecCompare c m f vd vs1 vs2 s) := h.commit (.skip fun _ => .skip fun _ => h.vecMap)

theorem State.canonical.execVclt {m f vd vs1 vs2} (h : s.canonical) : Out.canonical (Machine.execVclt m f vd vs1 vs2 s) :=
  h.vecCompare

theorem State.canonical.execVcle {m f vd vs1 vs2} (h : s.canonical) : Out.canonical (Machine.execVcle m f vd vs1 vs2 s) :=
  h.vecCompare

theorem State.canonical.execVceq {m f vd vs1 vs2} (h : s.canonical) : Out.canonical (Machine.execVceq m f vd vs1 vs2 s) :=
  h.vecCompare

theorem State.canonical.execVsel {f vd vs1 vs2} (h : s.canonical) : Out.canonical (Machine.execVsel f vd vs1 vs2 s) :=
  h.commit (.skip fun _ => .skip fun _ => .skip fun _ => h.vecMap)

theorem State.canonical.execVdiv {m f vd vs1 vs2} (h : s.canonical) : Out.canonical (Machine.execVdiv m f vd vs1 vs2 s) :=
  h.commit (.skip fun _ => .skip fun _ => .skip fun _ => .skip fun _ => h.vecMap)

theorem State.canonical.vecUnary {i m vd vs1 fn} (h : s.canonical) : Out.canonical (Machine.vecUnary i m vd vs1 s fn) :=
  h.commit (.skip fun _ => .skip fun _ => .skip fun _ => h.vecMap)

theorem State.canonical.execVsqrt {m vd vs1} (h : s.canonical) : Out.canonical (Machine.execVsqrt m vd vs1 s) := h.vecUnary

theorem State.canonical.execVrcp {m vd vs1} (h : s.canonical) : Out.canonical (Machine.execVrcp m vd vs1 s) := h.vecUnary

theorem State.canonical.execVexp2 {m vd vs1} (h : s.canonical) : Out.canonical (Machine.execVexp2 m vd vs1 s) := h.vecUnary

theorem State.canonical.execVlog2 {m vd vs1} (h : s.canonical) : Out.canonical (Machine.execVlog2 m vd vs1 s) := h.vecUnary

theorem State.canonical.vecReduce {i m f rounds vd vs1 comb} (h : s.canonical) :
    Out.canonical (Machine.vecReduce i m f rounds vd vs1 s comb) := h.commit
    (.skip fun _ => .skip fun _ => .skip fun _ => .skipJoin fun _ => h.vecPut)

theorem State.canonical.execVrsum {m f vd vs1} (h : s.canonical) : Out.canonical (Machine.execVrsum m f vd vs1 s) :=
  h.vecReduce

theorem State.canonical.execVrmax {m f vd vs1} (h : s.canonical) : Out.canonical (Machine.execVrmax m f vd vs1 s) :=
  h.vecReduce

theorem State.canonical.execVrmin {m f vd vs1} (h : s.canonical) : Out.canonical (Machine.execVrmin m f vd vs1 s) :=
  h.vecReduce

theorem State.canonical.execVscan {m f vd vs1} (h : s.canonical) : Out.canonical (Machine.execVscan m f vd vs1 s) :=
  h.commit (.skip fun _ => .skip fun _ => .skip fun _ => .skip fun _ => h.vecPut)

theorem State.canonical.execVperm {m f vd vs1 vs2} (h : s.canonical) :
    Out.canonical (Machine.execVperm m f vd vs1 vs2 s) := h.commit (.skip fun _ => .skip fun _ => h.vecMap)

theorem State.canonical.execVslide {m f vd vs1 rs2} (h : s.canonical) :
    Out.canonical (Machine.execVslide m f vd vs1 rs2 s) := h.commit (.skip fun _ => .skip fun _ => h.vecMap)

theorem State.canonical.execVsplat {m f vd rs1} (h : s.canonical) : Out.canonical (Machine.execVsplat m f vd rs1 s) :=
  h.commit (.skip fun _ => h.vecMap)

theorem State.canonical.execVxtr {f rd vs1 rs2} (h : s.canonical) : Out.canonical (Machine.execVxtr f rd vs1 rs2 s) :=
  h.commit (.skip fun _ => .skip fun _ => h.setX.bind fun _ h₁ => .pure h₁.retire)

theorem State.canonical.execVmov {m f vd vs1} (h : s.canonical) : Out.canonical (Machine.execVmov m f vd vs1 s) :=
  h.commit (.skip fun _ => h.vecMap)

theorem State.canonical.execVcvt {m src dst vd vs1} (h : s.canonical) :
    Out.canonical (Machine.execVcvt m src dst vd vs1 s) := h.commit (.skip fun _ => .skip fun _ => .skip fun _ => h.vecMap)

theorem State.canonical.execVq {m f vd vs1 rs2} (h : s.canonical) : Out.canonical (Machine.execVq m f vd vs1 rs2 s) :=
  h.commit (.skip fun _ => .skip fun _ => .skip fun _ => .skip fun _ => .skip fun _ => h.vecPut)

theorem State.canonical.execVdq {m f vd vs1 rs2} (h : s.canonical) : Out.canonical (Machine.execVdq m f vd vs1 rs2 s) :=
  h.commit (.skip fun _ => .skip fun _ => .skip fun _ => .skip fun _ => .skip fun _ => h.vecPut)

theorem State.canonical.execVrng {m vd} (h : s.canonical) : Out.canonical (Machine.execVrng m vd s) :=
  h.commit (h.vecMap.bind fun _ h₁ => .pure h₁.modMe)

end Sys2Proof.Machine
end

section
/-! The canonical form under the operations of LoadStore. -/

namespace Sys2Proof.Machine

-- one theorem at a time: many wait on each other, and each that waits holds a thread
set_option Elab.async false

variable {s : State}

theorem State.canonical.xlatAll {ag k l} (h : s.canonical) : Ends (·.2.canonical) (Machine.xlatAll s ag k l) := by
  induction l generalizing s ag k with
  | nil => exact .ok h
  | cons a r ih => exact h.translate.bind fun ⟨_, _⟩ h₁ => (ih h₁).bind fun ⟨_, _⟩ h₂ => .pure h₂

theorem State.canonical.checkAll {k n vas} (h : s.canonical) : Ends (·.2.canonical) (Machine.checkAll s k n vas) := by
  unfold Machine.checkAll
  dsimp only
  split
  · exact .skip fun _ => h.xlatAll.bind fun ⟨_, _⟩ h₁ => .skip fun _ => .pure h₁
  · exact h.xlatAll.bind fun ⟨_, _⟩ h₁ => .skip fun _ => .pure h₁

theorem State.canonical.readAll {n l} (h : s.canonical) : (Machine.readAll s n l).2.canonical := by
  induction l generalizing s n with
  | nil => exact h
  | cons a r ih => exact ih h.coreRead

theorem State.canonical.writeAll {n l} (h : s.canonical) : (Machine.writeAll s n l).canonical := by
  induction l generalizing s n with
  | nil => exact h
  | cons a r ih => exact ih h.coreWrite

theorem State.canonical.vecLoad {m vd e n at_} (h : s.canonical) : Ends State.canonical (Machine.vecLoad m vd e n at_ s) :=
  .skip fun _ => h.checkAll.bind fun ⟨_, _⟩ h₁ => h₁.readAll.vecPut

theorem State.canonical.vecStore {m data e n at_} (h : s.canonical) :
    Ends State.canonical (Machine.vecStore m data e n at_ s) := .skip fun _ => h.checkAll.bind fun ⟨_, _⟩ h₁ => .pure
    h₁.writeAll.retire

theorem State.canonical.execVld {m vd rs1} (h : s.canonical) : Out.canonical (Machine.execVld m vd rs1 s) :=
  h.commit (.skip fun _ => .skip fun _ => .skip fun _ => h.vecLoad)

theorem State.canonical.storeLine {data a ps h} (hs : s.canonical) :
    Ends State.canonical (Machine.storeLine data a ps s h) := by
  unfold Machine.storeLine
  dsimp only
  split
  · exact .ok hs
  · exact .ite (.ite (.ok hs.putHome.dropLine) .error) (.ok hs.writeAll)

theorem State.canonical.execVst {m vs rs1} (h : s.canonical) : Out.canonical (Machine.execVst m vs rs1 s) :=
  h.commit (.skip fun _ => .skip fun _ => .skip fun _ => .skip fun _ => h.xlatAll.bind fun ⟨_, _⟩ h₁ => .skip fun _ => .skip
    fun _ => h₁.storeLine.bind fun _ h₄ => h₄.storeLine.bind fun _ h₅ => .pure h₅.retire)

theorem State.canonical.execVlds {m sz vd rs1 rs2} (h : s.canonical) :
    Out.canonical (Machine.execVlds m sz vd rs1 rs2 s) := h.commit (.skip fun _ => .skip fun _ => h.vecLoad)

theorem State.canonical.execVsts {m sz vs rs1 rs2} (h : s.canonical) :
    Out.canonical (Machine.execVsts m sz vs rs1 rs2 s) := h.commit (.skip fun _ => .skip fun _ => .skip fun _ => h.vecStore)

theorem State.canonical.execVlx {m sz scl vd rs1 vs2} (h : s.canonical) :
    Out.canonical (Machine.execVlx m sz scl vd rs1 vs2 s) := h.commit (.skip fun _ => .skip fun _ => h.vecLoad)

theorem State.canonical.execVsx {m sz scl vs rs1 vs2} (h : s.canonical) :
    Out.canonical (Machine.execVsx m sz scl vs rs1 vs2 s) := h.commit
    (.skip fun _ => .skip fun _ => .skip fun _ => h.vecStore)

theorem State.canonical.cView {core off n} (h : s.canonical) : (Machine.cView s core off n).2.canonical := by
  unfold Machine.cView
  split
  · exact h
  · refine State.canonical.foldl_snd h fun ⟨_, _⟩ _ h₁ => ?_
    split
    · exact h₁
    · split
      split <;> exact h₁.pick.of_pair

theorem State.canonical.cStore {core off bs} (h : s.canonical) : (Machine.cStore s core off bs).canonical := by
  unfold Machine.cStore
  split
  · exact h
  · refine .modCore (State.canonical.foldl_snd h fun ⟨_, _⟩ _ h₁ => ?_)
    split
    · exact h₁
    · exact h₁.pick

theorem State.canonical.bufView {core buf off n} (h : s.canonical) : (Machine.bufView s core buf off n).2.canonical := by
  unfold Machine.bufView
  split
  · exact h.cView
  · exact h

theorem State.canonical.execBufld {buf vd rs1} (h : s.canonical) : Out.canonical (Machine.execBufld buf vd rs1 s) :=
  h.commit (.skip fun _ => .skip fun _ => .skip fun _ => h.bufView.vecPut)

theorem State.canonical.execBufst {buf vs rs1} (h : s.canonical) : Out.canonical (Machine.execBufst buf vs rs1 s) :=
  h.commit (.skip fun _ => .skip fun _ => .skip fun _ => .skip fun _ => .pure (.retire (.modMyCore (.ite h.cStore h))))

theorem State.canonical.syncLoad {i clear rd rs1} (h : s.canonical) :
    Ends State.canonical (Machine.syncLoad i clear rd rs1 s) := .skip fun _ => .skip fun _ => h.translate.bind
    fun ⟨_, _⟩ h₁ => .skip fun _ => .skip fun _ => .ite (h₁.atHome.setX.bind fun _ h₂ => .pure
    (.retire (.stallFor (.acquireAt (.dropOld (.ite h₂.setEmpty h₂)))))) (.skip fun _ => .pure h₁.atHome.holdOn)

theorem State.canonical.execLdS {rd rs1} (h : s.canonical) : Out.canonical (Machine.execLdS rd rs1 s) := h.commit h.syncLoad

theorem State.canonical.execLdSe {rd rs1} (h : s.canonical) : Out.canonical (Machine.execLdSe rd rs1 s) :=
  h.commit h.syncLoad

theorem State.canonical.takeWords {a l} (h : s.canonical) : Ends State.canonical (Machine.takeWords s a l) := by
  induction l generalizing s a with
  | nil => exact .ok h
  | cons a r ih =>
    exact h.translate.bind fun ⟨_, _⟩ h₁ => .skip fun _ => .skip fun _ => ih
        (.stallFor (.ite h₁.atHome.dropOld.modMe h₁.atHome.dropOld))

theorem State.canonical.execVldS {vd rs1} (h : s.canonical) : Out.canonical (Machine.execVldS vd rs1 s) := by
  unfold Machine.execVldS
  refine h.commit (.skip fun _ => .skip fun _ => .bind (P := State.canonical) (State.canonical.takeWords ?_) fun _ h₁ => .ite
      (h₁.vecPut.bind fun _ h₂ => .pure h₂.acquireAt.modMe) (.skip fun _ => .pure h₁.holdOn))
  split
  · exact h
  · exact h.modMe

theorem State.canonical.feStep {full rs1} (h : s.canonical) : Ends State.canonical (Machine.feStep full rs1 s) :=
  .skip fun _ => .skip fun _ => h.translate.bind fun ⟨_, _⟩ h₁ => .skip fun _ => .skip fun _ => .pure
    (.retire (.ite h₁.releaseAt.atHome.setFull h₁.releaseAt.atHome.setEmpty))

theorem State.canonical.execFeSet {rs1} (h : s.canonical) : Out.canonical (Machine.execFeSet rs1 s) := h.commit h.feStep

theorem State.canonical.execFeClr {rs1} (h : s.canonical) : Out.canonical (Machine.execFeClr rs1 s) := h.commit h.feStep

theorem State.canonical.execLdAcq {sz sc rd rs1} (h : s.canonical) : Out.canonical (Machine.execLdAcq sz sc rd rs1 s) :=
  h.commit (.skip fun _ => .skip fun _ => h.load.bind fun ⟨_, _⟩ h₁ => h₁.setX.bind fun _ h₂ => .pure h₂.acquireAt.retire)

theorem State.canonical.execStRel {sz sc rs2 rs1} (h : s.canonical) : Out.canonical (Machine.execStRel sz sc rs2 rs1 s) :=
  h.commit (.skip fun _ => .skip fun _ => .skip fun _ => h.xlat.bind fun ⟨_, _⟩ h₁ => .pure h₁.releaseAt.coreWrite.retire)

theorem State.canonical.tideArrive {v e t} (h : s.canonical) : (s.tideArrive v e t).canonical := h.modTenant

theorem State.canonical.execTideAdv {rs1} (h : s.canonical) : Out.canonical (Machine.execTideAdv rs1 s) :=
  h.commit (.skip fun _ => h.translate.bind fun ⟨_, _⟩ h₁ => .skip fun _ => .pure h₁.releaseAt.tideArrive.retire)

theorem State.canonical.execTideRd {rd rs1} (h : s.canonical) : Out.canonical (Machine.execTideRd rd rs1 s) :=
  h.commit (.skip fun _ => h.translate.bind fun ⟨_, _⟩ h₁ => .skip fun _ => h₁.setX.bind fun _ h₂ => .pure
    h₂.stallFor.retire)

theorem State.canonical.refetch {core p} (h : s.canonical) : (Machine.refetch s core p).canonical :=
  .ite h (.l1dLine (.modCove (.frame (.ite h.bringHome.l2Evict h.bringHome))))

theorem State.canonical.boundedRead {n f ps} (h : s.canonical) : Gives (·.2.canonical) (Machine.boundedRead s n f ps) := by
  unfold Machine.boundedRead
  dsimp only
  split
  · exact .some h
  · exact .ite .none (.some (State.canonical.foldl_snd ((h.foldl fun _ _ h₁ => h₁.refetch).foldl fun _ _ h₁ => h₁.stallFor)
        fun ⟨_, _⟩ _ h₁ => h₁.coreRead))

theorem State.canonical.tideHold {i a} (h : s.canonical) : (Machine.tideHold s i a).canonical :=
  .ite h.holdOn h.holdOn.dropDuties.after

theorem State.canonical.lapsed {ps} (h : s.canonical) : (s.lapsed ps).canonical := by
  unfold State.lapsed
  split
  · exact h.foldl fun _ _ h₁ => h₁.refetch
  · exact h

theorem State.canonical.execLdB {dbl b rd rs1 rs2} (h : s.canonical) :
    Out.canonical (Machine.execLdB dbl b rd rs1 rs2 s) := by
  unfold Machine.execLdB
  refine h.commit (.skip fun _ => .skip fun _ => .skip fun _ => h.xlat.bind fun ⟨_, _⟩ h₁ => .ite
      (h₁.lapsed.coreRead.setX.bind fun _ h₂ => .pure h₂.retire) ?_)
  split
  · exact h₁.boundedRead.snd.setX.bind fun _ h₂ => .pure h₂.retire
  · exact .skip fun _ => .pure h₁.tideHold

theorem State.canonical.execVldB {b vd rs1 rs2} (h : s.canonical) : Out.canonical (Machine.execVldB b vd rs1 rs2 s) := by
  unfold Machine.execVldB
  refine h.commit (.skip fun _ => .skip fun _ => .skip fun _ => h.checkAll.bind fun ⟨_, _⟩ h₁ => .ite
      h₁.lapsed.readAll.vecPut ?_)
  split
  · exact h₁.boundedRead.snd.vecPut
  · exact .skip fun _ => .pure h₁.tideHold

theorem State.canonical.prefLine {l2 va} (h : s.canonical) : (Machine.prefLine l2 s va).canonical := by
  unfold Machine.prefLine
  split
  · exact h
  · exact .ite h.xlat.snd (.ite h.xlat.snd.l2Line h.xlat.snd.l1dLine)

theorem State.canonical.execPref {l2 _w rs1 rs2} (h : s.canonical) : Out.canonical (Machine.execPref l2 _w rs1 rs2 s) :=
  (h.foldl fun _ _ h₁ => h₁.prefLine).frame.retire

end Sys2Proof.Machine
end

section
/-! The canonical form under the operations of Locks. -/

namespace Sys2Proof.Machine

-- one theorem at a time: many wait on each other, and each that waits holds a thread
set_option Elab.async false

variable {s : State}

theorem State.canonical.putLock {pa w} (h : s.canonical) : (Machine.putLock s pa w).canonical := h.homeWrite

theorem State.canonical.grantLock {w status clks} (h : s.canonical) : (Machine.grantLock s w status clks).canonical := by
  unfold Machine.grantLock
  split
  · exact h.modSlot.acquireAt.after
  · exact h

theorem State.canonical.passLock {port pa status free} (h : s.canonical) :
    (Machine.passLock s port pa status free).canonical := by
  unfold Machine.passLock
  dsimp only
  split
  · exact h.setPort.putLock
  · exact h.setPort.putLock.grantLock

theorem State.canonical.withdrawWaits {gone} (h : s.canonical) : (Machine.withdrawWaits s gone).canonical := h.frame

theorem State.canonical.releaseHeld {port gone} (h : s.canonical) : (Machine.releaseHeld s port gone).canonical :=
  h.foldl fun _ _ h₁ => h₁.passLock

theorem State.canonical.endGeneration {g} (h : s.canonical) : (Machine.endGeneration s g).canonical :=
  (h.withdrawWaits.foldl fun _ _ h₁ => h₁.releaseHeld).modMgmt

end Sys2Proof.Machine
end

section
/-! The canonical form under the operations of Atomics. -/

namespace Sys2Proof.Machine

-- one theorem at a time: many wait on each other, and each that waits holds a thread
set_option Elab.async false

variable {s : State}

theorem State.canonical.amoAt {ag p op n v e} (h : s.canonical) : (Machine.amoAt s ag p op n v e).2.2.canonical := by
  unfold Machine.amoAt
  dsimp only
  split
  · exact h.atHome.putHome
  · exact h.atHome

theorem State.canonical.amoStep {op o dbl sc rd rs1 rs2} (h : s.canonical) :
    Ends State.canonical (Machine.amoStep op o dbl sc rd rs1 rs2 s) := .skip fun _ => .skip fun _ => .skipJoin fun _ => .skip
    fun _ => h.translate.bind fun ⟨_, _⟩ h₁ => .skip fun _ => .skip fun _ =>
    (State.canonical.setX (.dropLine (.amoAt (.ite h₁.releaseAt h₁)))).bind fun _ h₂ => .pure
    (.retireFor (.modMe (.ite h₂.acquireAt h₂)))

theorem State.canonical.execAmoAdd {o dbl sc rd rs1 rs2} (h : s.canonical) :
    Out.canonical (Machine.execAmoAdd o dbl sc rd rs1 rs2 s) := h.commit h.amoStep

theorem State.canonical.execAmoAnd {o dbl sc rd rs1 rs2} (h : s.canonical) :
    Out.canonical (Machine.execAmoAnd o dbl sc rd rs1 rs2 s) := h.commit h.amoStep

theorem State.canonical.execAmoOr {o dbl sc rd rs1 rs2} (h : s.canonical) :
    Out.canonical (Machine.execAmoOr o dbl sc rd rs1 rs2 s) := h.commit h.amoStep

theorem State.canonical.execAmoXor {o dbl sc rd rs1 rs2} (h : s.canonical) :
    Out.canonical (Machine.execAmoXor o dbl sc rd rs1 rs2 s) := h.commit h.amoStep

theorem State.canonical.execAmoMin {o dbl sc rd rs1 rs2} (h : s.canonical) :
    Out.canonical (Machine.execAmoMin o dbl sc rd rs1 rs2 s) := h.commit h.amoStep

theorem State.canonical.execAmoMax {o dbl sc rd rs1 rs2} (h : s.canonical) :
    Out.canonical (Machine.execAmoMax o dbl sc rd rs1 rs2 s) := h.commit h.amoStep

theorem State.canonical.execAmoMinu {o dbl sc rd rs1 rs2} (h : s.canonical) :
    Out.canonical (Machine.execAmoMinu o dbl sc rd rs1 rs2 s) := h.commit h.amoStep

theorem State.canonical.execAmoMaxu {o dbl sc rd rs1 rs2} (h : s.canonical) :
    Out.canonical (Machine.execAmoMaxu o dbl sc rd rs1 rs2 s) := h.commit h.amoStep

theorem State.canonical.execAmoSwap {o dbl sc rd rs1 rs2} (h : s.canonical) :
    Out.canonical (Machine.execAmoSwap o dbl sc rd rs1 rs2 s) := h.commit h.amoStep

theorem State.canonical.execAmoCas {o dbl sc rd rs1 rs2} (h : s.canonical) :
    Out.canonical (Machine.execAmoCas o dbl sc rd rs1 rs2 s) := h.commit h.amoStep

theorem State.canonical.execAmoFadd {o sc rd rs1 rs2} (h : s.canonical) :
    Out.canonical (Machine.execAmoFadd o sc rd rs1 rs2 s) := h.commit h.amoStep

theorem State.canonical.execFenceSc {k sc} (h : s.canonical) : Out.canonical (Machine.execFenceSc k sc s) := by
  unfold Machine.execFenceSc
  refine .next ?_
  split
  · exact h.acquireAt.retire
  · exact h.releaseAt.retire
  · exact h.releaseAt.acquireAt.retire

theorem State.canonical.lockAddr {rs1} (h : s.canonical) : Ends (·.2.2.canonical) (Machine.lockAddr rs1 s) :=
  .skip fun _ => .skip fun _ => h.translate.bind fun ⟨_, _⟩ h₁ => .skip fun _ => .skip fun _ => .pure h₁

theorem State.canonical.countLocks {f} (h : s.canonical) : (s.countLocks f).canonical := h.modMe

theorem State.canonical.execLkTake {sc rd rs1} (h : s.canonical) : Out.canonical (Machine.execLkTake sc rd rs1 s) := by
  unfold Machine.execLkTake
  refine h.commit (h.lockAddr.bind fun ⟨_, _, _⟩ h₁ => ?_)
  split
  dsimp only
  split
  · exact .ite .error (.ite (h₁.of_triple.atHome.setX.bind fun _ h₂ => .pure h₂.stallFor.retire)
        (.skip fun _ => .pure h₁.of_triple.atHome.setPort.holdOn))
  · exact .ite (h₁.of_triple.atHome.setX.bind fun _ h₂ => .pure h₂.stallFor.retire)
        (h₁.of_triple.atHome.setPort.putLock.dropLine.acquireAt.setX.bind fun _ h₂ => .pure h₂.countLocks.stallFor.retire)

theorem State.canonical.execLkGive {sc rs1} (h : s.canonical) : Out.canonical (Machine.execLkGive sc rs1 s) :=
  h.commit (h.lockAddr.bind fun ⟨_, _, _⟩ h₁ => .skip fun _ => .pure h₁.releaseAt.atHome.dropLine.passLock.countLocks.retire)

end Sys2Proof.Machine
end

section
/-! The canonical form under the operations of Graph. -/

namespace Sys2Proof.Machine

-- one theorem at a time: many wait on each other, and each that waits holds a thread
set_option Elab.async false

variable {s : State}

theorem State.canonical.sendTok {rk xy lat t src} (h : s.canonical) : (s.sendTok rk xy lat t src).canonical :=
  h.modCell.frame

theorem State.canonical.sendT {f t lat pay ft act c iter} (h : s.canonical) :
    (s.sendT f t lat pay ft act c iter).canonical := by
  unfold State.sendT
  split
  · exact h
  · exact .ite h.modCell h.sendTok

theorem State.canonical.sendOut {f n lat pay ft} (h : s.canonical) : (s.sendOut f n lat pay ft).canonical := h.sendT.sendT

theorem State.canonical.sendNull {f n lat ft} (h : s.canonical) : (s.sendNull f n lat ft).canonical := h.sendT.sendT

theorem State.canonical.sendCount {f nul} (h : s.canonical) : (s.sendCount f nul).canonical := h.after

theorem State.canonical.startFire {d i f} (h : s.canonical) : (s.startFire d i f).canonical := h.frame

theorem State.canonical.beginFire {i f} (h : s.canonical) : (s.beginFire i f).canonical := .ite h h.modCell

theorem State.canonical.modInst {rk ik g} (h : s.canonical) : (s.modInst rk ik g).canonical := h.modRegion

theorem State.canonical.addFlags {f fl} (h : s.canonical) : (s.addFlags f fl).canonical := h.modInst

theorem State.canonical.answer {mx my w pay} (h : s.canonical) : (Machine.answer s mx my w pay).canonical := h.sendOut

theorem State.canonical.lockPass {mx my key tok abn} (h : s.canonical) :
    (Machine.lockPass s mx my key tok abn).canonical := by
  unfold Machine.lockPass
  dsimp only
  split
  · exact h.setCell
  · exact h.setCell.answer

theorem State.canonical.lockPassAll {rk p abn} (h : s.canonical) : (Machine.lockPassAll s rk p abn).canonical :=
  h.foldl fun _ _ h₁ => .ite (h₁.foldl fun _ _ h₂ => h₂.lockPass) h₁

theorem State.canonical.modCells {rk g} (h : s.canonical) : (s.modCells rk g).canonical := h.frame

theorem State.canonical.leaveReply {r} (h : s.canonical) : (Machine.leaveReply s r).canonical := h.sendOut

theorem State.canonical.drainReplies {n n'} (h : s.canonical) : (Machine.drainReplies n s n').canonical := by
  induction n generalizing s n' with
  | zero => exact h
  | succ n ih =>
    unfold Machine.drainReplies
    split
    · exact .ite (ih h.setCell.leaveReply) h
    · exact h

theorem State.canonical.drainChannels {rk} (h : s.canonical) : (Machine.drainChannels s rk).canonical :=
  h.foldl fun _ _ h₁ => .ite h₁.drainReplies h₁

theorem State.canonical.dropReply {f} (h : s.canonical) : (Machine.dropReply s f).canonical :=
  .ite h.modCell.drainReplies h.modCell

theorem State.canonical.rollback {rk gone count} (h : s.canonical) : (Machine.rollback s rk gone count).canonical :=
  .ite ((h.dropDuties.modCells.modRegion.foldl fun _ _ h₁ => h₁.returnFrame).modRegion.drainChannels.lockPassAll.foldl
    fun _ _ h₁ => h₁.count) (h.dropDuties.modCells.modRegion.foldl fun _ _ h₁ =>
    h₁.returnFrame).modRegion.drainChannels.lockPassAll

theorem State.canonical.squash {rk iks} (h : s.canonical) : (Machine.squash s rk iks).canonical :=
  .ite h h.rollback.modRegion

theorem State.canonical.gFault {rk h} (hs : s.canonical) : (s.gFault rk h).canonical := by
  unfold State.gFault
  refine .ite hs (.ite hs.modRegion ?_)
  split
  · exact hs.modRegion
  · exact hs.modRegion.squash

theorem State.canonical.fireFault {f t work} (h : s.canonical) : (s.fireFault f t work).canonical :=
  .gFault (.ite h.dropReply.audit h.dropReply)

theorem State.canonical.lateFault {f cause addr} (h : s.canonical) : (s.lateFault f cause addr).canonical := h.gFault

theorem State.canonical.endContext {rk c} (h : s.canonical) : (Machine.endContext s rk c).canonical :=
  .modTenant (.lockPassAll (.modRegion (.modCells (.ite h h.rollback))))

end Sys2Proof.Machine
end

section
/-! The canonical form under the operations of Match. -/

namespace Sys2Proof.Machine

-- one theorem at a time: many wait on each other, and each that waits holds a thread
set_option Elab.async false

variable {s : State}

theorem State.canonical.takeBlocks {ag n} (h : s.canonical) : Ends (·.2.canonical) (Machine.takeBlocks s ag n) := by
  induction n generalizing s ag with
  | zero => exact .ok h
  | succ n ih =>
    unfold Machine.takeBlocks
    split
    · exact .error
    · split
      · exact .error
      · exact .ok (ih h.allocFrame.snd).snd

theorem State.canonical.blocksOut {ag fs ts} (h : s.canonical) : Ends State.canonical (Machine.blocksOut s ag fs ts) := by
  induction fs generalizing s ts with
  | nil => exact .ok h
  | cons f fs ih =>
    change Ends State.canonical (match Machine.homePuts s ag f ((ts.take 5).flatMap Token.words) with
      | .error t => .error t
      | .ok s =>
        match s.homeStore ag (f + 120#64) (fs.headD 0#64) with
        | .error t => .error t
        | .ok s => Machine.blocksOut s ag fs (ts.drop 5))
    split
    · exact .error
    · split
      · exact .error
      · exact ih h.homePuts.get.homeStore.get

theorem State.canonical.evict {rk x y} (h : s.canonical) : Ends State.canonical (Machine.evict s rk x y) := by
  unfold Machine.evict
  dsimp only
  split
  · exact .ok h
  · split
    · exact .error
    · exact .ok (Ends.snd (h.takeBlocks.bind fun _ h₁ => h₁.blocksOut.bind fun _ h₂ => .pure h₂)).modCell.modRegion.count

theorem State.canonical.makeRoom {rk x y urg} (h : s.canonical) : Ends State.canonical (Machine.makeRoom s rk x y urg) := by
  unfold Machine.makeRoom
  refine .ite (.ok h) (.ite .error ?_)
  split
  · exact .ok h.evict.get
  · exact .error

theorem State.canonical.onceAfter {n e} (h : s.canonical) : (s.onceAfter n e).canonical := .ite h h.after

theorem State.canonical.ensureInst {rk blk m} (h : s.canonical) : (Machine.ensureInst s rk blk m).2.canonical := by
  unfold Machine.ensureInst
  dsimp only
  split
  · split
    · split
      · exact h
      · exact h.modInst
    · exact h
  · exact h.modRegion

theorem State.canonical.fireEntry {rk x y ik i e ops} (h : s.canonical) :
    (Machine.fireEntry s rk x y ik i e ops).canonical := h.modCell.modInst.startFire

theorem State.canonical.tryFire {rk x y ik i e} (h : s.canonical) : (Machine.tryFire s rk x y ik i e).canonical := by
  unfold Machine.tryFire
  refine .ite h ?_
  split
  · exact h
  · exact h.fireEntry

theorem State.canonical.fireSingle {rk x y ik i m} (h : s.canonical) : (Machine.fireSingle s rk x y ik i m).canonical :=
  h.startFire

theorem State.canonical.arriveFault {rk ik m cause tval} (h : s.canonical) :
    (Machine.arriveFault s rk ik m cause tval).canonical := h.gFault

theorem State.canonical.ctxFault {rk c cause addr idx} (h : s.canonical) :
    (Machine.ctxFault s rk c cause addr idx).canonical := h.gFault

theorem State.canonical.badToken {rk w2} (h : s.canonical) : (Machine.badToken s rk w2).canonical := .ite h.ctxFault h.count

theorem State.canonical.reinstall {rk x y o} (h : s.canonical) : Ends State.canonical (Machine.reinstall s rk x y o) := by
  unfold Machine.reinstall
  split
  · exact .error
  · exact .ok (.count (.ite ((h.makeRoom.get.modRegion.foldl fun _ _ h₁ => h₁.badToken).foldl fun _ _ h₁ => h₁.returnFrame)
        ((h.makeRoom.get.modRegion.foldl fun _ _ h₁ => h₁.badToken).foldl fun _ _ h₁ => h₁.returnFrame).modCell))

theorem State.canonical.askRefill {rk x y} (h : s.canonical) : (Machine.askRefill s rk x y).canonical := h.onceAfter

theorem State.canonical.unkeep {rk x y m} (h : s.canonical) : (Machine.unkeep s rk x y m).canonical := h.modCell

theorem State.canonical.backIn {rk m} (h : s.canonical) : (Machine.backIn s rk m).canonical := h.frame

theorem State.canonical.omergeRun {rk x y i base n l} (h : s.canonical) :
    (Machine.omergeRun rk x y i base n s l).canonical := by
  induction n generalizing s l with
  | zero => exact h
  | succ n ih =>
    obtain _ | ⟨⟨ik, m⟩, l⟩ := l
    · exact h
    · unfold Machine.omergeRun
      refine .ite ?_ (.ite (.ite ?_ ?_) (.ite (.ite ?_ ?_) ?_))
      · exact ih h.fireSingle.modInst.setCell
      · exact ih h.unkeep.arriveFault
      · exact ih h.setCell
      · exact ih h.setCell
      · exact ih h.setCell.backIn
      · exact ih h.unkeep.arriveFault

theorem State.canonical.omergeStep {rk x y ik i m} (h : s.canonical) : (Machine.omergeStep s rk x y ik i m).canonical := by
  unfold Machine.omergeStep
  dsimp only
  split
  · exact h.backIn
  · exact h.arriveFault
  · next e =>
    split at e
    · exact h.reinstall.get.omergeRun
    · exact (Ends.ok h).get.omergeRun

theorem State.canonical.makeLoops {rk ik} (h : s.canonical) : (Machine.makeLoops s rk ik).canonical := by
  unfold Machine.makeLoops
  refine .foldl (h.foldl fun _ _ h₁ => ?_) fun _ _ h₁ => h₁.startFire
  split
  · exact h₁.modCell
  · exact h₁

theorem State.canonical.wakeEntry {rk x y ik e} (h : s.canonical) : (Machine.wakeEntry s rk x y ik e).canonical := by
  unfold Machine.wakeEntry
  dsimp only
  split
  · exact h
  · split
    · exact h.modCell.foldl fun _ _ h₁ => h₁.fireSingle
    · exact h.modCell.foldl fun _ _ h₁ => h₁.omergeStep
    · exact h.tryFire

theorem State.canonical.activate {rk ik} (h : s.canonical) : (Machine.activate s rk ik).canonical :=
  h.foldl fun _ _ h₁ => .foldl (.modCell (.ite (h₁.foldl fun _ _ h₂ => h₂.wakeEntry).askRefill
    (h₁.foldl fun _ _ h₂ => h₂.wakeEntry))) fun _ _ h₂ => h₂.after

theorem State.canonical.admitInst {rk ik} (h : s.canonical) : (Machine.admitInst s rk ik).canonical :=
  .activate (.ite h.modRegion.modInst.makeLoops h.modRegion.modInst)

theorem State.canonical.seekEntry {rk ik} (h : s.canonical) : (Machine.seekEntry s rk ik).canonical := by
  unfold Machine.seekEntry
  dsimp only
  split
  · exact h
  · refine .ite h (.ite h.admitInst ?_)
    split
    · exact h
    · exact h.squash.admitInst

theorem State.canonical.staleAt {rk t from_ d} (h : s.canonical) : (Machine.staleAt s rk t from_ d).canonical := by
  unfold Machine.staleAt
  dsimp only
  split
  · exact h.count
  · exact .ite h.count.pick.gFault h.count

theorem State.canonical.staleTok {rk m} (h : s.canonical) : (Machine.staleTok s rk m).canonical := h.staleAt

theorem State.canonical.roomFault {rk x y ik m t} (h : s.canonical) : (Machine.roomFault s rk x y ik m t).canonical :=
  h.gFault

theorem State.canonical.lookFor {rk x y m} (h : s.canonical) : (Machine.lookFor s rk x y m).canonical :=
  .ite h.modCell.askRefill h.backIn

theorem State.canonical.pairTok {rk x y ik i m} (h : s.canonical) : (Machine.pairTok s rk x y ik i m).canonical := by
  unfold Machine.pairTok
  refine .ite h.arriveFault (.ite (.ite h.count h.arriveFault) ?_)
  split
  · exact h.backIn
  · exact h.roomFault
  · exact (Ends.get (P := State.canonical) (.ite (.ok h) h.makeRoom)).modCell.tryFire

theorem State.canonical.singleTok {rk x y ik i m} (h : s.canonical) : (Machine.singleTok s rk x y ik i m).canonical := by
  unfold Machine.singleTok
  extract_lets
  refine .ite h.arriveFault (.ite h.arriveFault ?_)
  extract_lets
  have hr {b c : Bool} {urg} : Ends State.canonical (if (b || c) = true then .ok s else Machine.makeRoom s rk x y urg) :=
    .ite (.ok h) h.makeRoom
  split
  · exact h.backIn
  · exact h.roomFault
  · extract_lets _ _ s₁
    have h₁ : s₁.canonical := .ite hr.get.modCell hr.get
    clear_value s₁
    refine .ite h₁ ?_
    split
    · exact h₁.omergeStep
    · exact h₁.fireSingle

theorem State.canonical.dropSticky {rk key slot idx cx dop} (h : s.canonical) :
    (Machine.dropSticky s rk key slot idx cx dop).canonical := h.modCell.modRegion.foldl fun _ _ h₁ => h₁.returnFrame

theorem State.canonical.stickyInst {rk blk m} (h : s.canonical) : (Machine.stickyInst s rk blk m).2.canonical := by
  unfold Machine.stickyInst
  dsimp only
  split
  · exact h
  · exact h
  · exact h.ensureInst

theorem State.canonical.stickyIn {rk x y blk i m} (h : s.canonical) : (Machine.stickyIn s rk x y blk i m).canonical := by
  unfold Machine.stickyIn
  refine .ite h.stickyInst.arriveFault ?_
  dsimp only
  split
  · exact h.dropSticky.backIn
  · exact h.dropSticky.stickyInst.roomFault
  · refine .ite (.askRefill (h.dropSticky.makeRoom.get.modCell.foldl fun _ _ h₁ => ?_))
        (h.dropSticky.makeRoom.get.modCell.foldl fun _ _ h₁ => ?_)
    · split
      · exact h₁
      · exact h₁.tryFire
    · split
      · exact h₁
      · exact h₁.tryFire

theorem State.canonical.bodyTok {rk x y ik i m} (h : s.canonical) : (Machine.bodyTok s rk x y ik i m).canonical := by
  unfold Machine.bodyTok
  dsimp only
  split
  · exact h.stickyIn
  · exact .ite h.dropSticky h.arriveFault
  · exact h.arriveFault
  · split <;> exact .ite h h.modCell

theorem State.canonical.atNode {rk x y blk i m look} (h : s.canonical) : (Machine.atNode s rk x y blk i m look).canonical := by
  unfold Machine.atNode
  have he := h.ensureInst (rk := rk) (blk := blk) (m := m)
  generalize Machine.ensureInst s rk blk m = p at he ⊢
  obtain ⟨inst, t⟩ := p
  refine .ite ?_ (.ite ?_ (.ite ?_ (.ite he.seekEntry.bodyTok (.ite he.seekEntry.lookFor ?_))))
  · split
    · exact h.sendTok
    · exact he.arriveFault
  · split
    · exact he.singleTok
    · exact he.singleTok
    · exact h.stickyIn
  · split
    · exact he.singleTok
    · exact he.singleTok
    · exact h.dropSticky
  · split
    · exact he.seekEntry.singleTok
    · exact he.seekEntry.singleTok
    · exact he.seekEntry.pairTok

theorem State.canonical.arrive {rk m look} (h : s.canonical) : (Machine.arrive s rk m look).canonical := by
  unfold Machine.arrive
  refine .ite h.badToken (.ite h.staleTok (.ite h.count ?_))
  split
  · exact h.count
  · refine .ite h.count (.ite h.modCell.onceAfter ?_)
    split
    · exact h.atNode
    · exact h.ensureInst.arriveFault

theorem State.canonical.emitDlys {rk x y l b} (h : s.canonical) : (Machine.emitDlys s rk x y l b).canonical := by
  unfold Machine.emitDlys
  dsimp only
  split
  · exact h.fireFault
  · exact h.modCell.foldl fun _ _ h₁ => h₁.sendT.sendT

theorem State.canonical.pumpOuts {rk x y l b} (h : s.canonical) : (Machine.pumpOuts s rk x y l b).canonical := by
  unfold Machine.pumpOuts
  refine h.foldl fun _ _ h₁ => ?_
  dsimp only
  split
  · exact h₁
  · split
    · exact h₁
    · exact .ite h₁ h₁.modCell.fireAfter

theorem State.canonical.emitIf {c : Prop} [Decidable c] {rk x y l b} (h : s.canonical) :
    (if c then Machine.emitDlys s rk x y l b else s).canonical := .ite h.emitDlys h

theorem State.canonical.pumpLoop {rk x y l} (h : s.canonical) : (Machine.pumpLoop s rk x y l).canonical := by
  unfold Machine.pumpLoop
  refine .ite h (.ite h.pumpOuts (.ite (.ite (h.pumpOuts.modCell.foldl fun _ _ h₁ => h₁.startFire)
    (.ite h.pumpOuts.onceAfter h.pumpOuts)) (.ite h.pumpOuts.emitIf ?_)))
  split
  · refine .ite h.pumpOuts.emitIf.modCell (.ite (.ite h.pumpOuts.emitIf h.pumpOuts.emitIf.modCell) ?_)
    split
    · exact .ite h.pumpOuts.emitIf h.pumpOuts.emitIf.modCell
    · exact h.pumpOuts.emitIf
  · split
    · exact h.pumpOuts.emitIf
    · exact .ite h.pumpOuts.emitIf.modCell.fireAfter h.pumpOuts.emitIf.modCell.startFire

theorem State.canonical.pumpTwice {rk x y l} (h : s.canonical) : (Machine.pumpTwice s rk x y l).canonical := by
  unfold Machine.pumpTwice
  dsimp only
  split
  · exact .ite h.pumpLoop.pumpLoop h.pumpLoop
  · exact h.pumpLoop

theorem State.canonical.pumpAll {rk} (h : s.canonical) : (Machine.pumpAll s rk).canonical :=
  h.foldl fun _ _ h₁ => h₁.foldl fun _ _ h₂ => .ite h₂.onceAfter h₂.pumpTwice

theorem State.canonical.retireAll {rk} (h : s.canonical) : (Machine.retireAll s rk).canonical := h.modRegion

theorem State.canonical.admitAll {rk} (h : s.canonical) : (Machine.admitAll s rk).canonical :=
  h.foldl fun _ _ h₁ => .ite h₁.admitInst h₁

theorem State.canonical.releaseInx {rk} (h : s.canonical) : (Machine.releaseInx s rk).canonical := h.modRegion.frame

theorem State.canonical.settle {rk} (h : s.canonical) : (Machine.settle s rk).canonical :=
  (h.retireAll.admitAll.releaseInx.pumpAll.foldl fun _ _ h₁ => .ite h₁.onceAfter h₁).foldl fun _ _ h₁ => .ite h₁.onceAfter h₁

theorem State.canonical.recordArc {rk x y blk w} (h : s.canonical) :
    Gives State.canonical (Machine.recordArc s rk x y blk w) := by
  unfold Machine.recordArc
  refine .ite .none ?_
  split
  · exact .ite (.some h.modRegion) .none
  · split
    · exact .some h.modRegion
    · exact .none

theorem State.canonical.execTokenMatch {rk t src} (h : s.canonical) : Out.canonical (Machine.execTokenMatch rk t src s) := by
  unfold Machine.execTokenMatch
  refine .next ?_
  split
  · exact h.recordArc.get
  · exact .ite h.count (.settle (.arrive (.ite h h.modCell)))

theorem State.canonical.execMatchRefill {rk x y} (h : s.canonical) : Out.canonical (Machine.execMatchRefill rk x y s) := by
  unfold Machine.execMatchRefill
  extract_lets rg key c more _ bring
  have hm {t : State} (ht : t.canonical) : (more t).canonical := .ite ht.askRefill ht
  have hb {o} : (bring s o).canonical := by
    unfold bring
    split
    · exact h.onceAfter
    · exact h.gFault
    · have h₁ := h.reinstall.get (by assumption)
      refine hm ?_
      split
      · refine .ite ?_ h₁
        split
        · exact h₁.wakeEntry
        · exact h₁
      · exact h₁
  clear_value bring
  split
  · split
    · exact .next hb.settle
    · exact .next (State.canonical.settle (hm h.modCell.arrive))
  · split
    · exact .next hb.settle
    · exact h

theorem State.canonical.execCountToken {rk ik idx null} (h : s.canonical) :
    Out.canonical (Machine.execCountToken rk ik idx null s) := by
  unfold Machine.execCountToken
  dsimp only
  split
  · refine .next (.ite h (.settle ?_))
    split
    · exact .ite h (.ite h.gFault h.modInst)
    · exact h.modInst
    · exact .ite h.gFault h.modInst
  · exact h

theorem State.canonical.buoyArrive {rk buoy t src} (h : s.canonical) :
    Out.canonical (Machine.buoyArrive rk buoy t src s) := by
  unfold Machine.buoyArrive
  dsimp only
  split
  · exact h.count
  · refine .ite h.staleAt (.ite h.sendTok ?_)
    split
    · exact h.count
    · split
      · exact h.routeToken.sent
      · split
        · exact h.count
        · exact h.gFault.settle

theorem State.canonical.execBuoyTokenArrival {rk buoy t} (h : s.canonical) :
    Out.canonical (Machine.execBuoyTokenArrival rk buoy t s) := h.buoyArrive

end Sys2Proof.Machine
end

section
/-! The canonical form under the operations of GMem. -/

namespace Sys2Proof.Machine

-- one theorem at a time: many wait on each other, and each that waits holds a thread
set_option Elab.async false

variable {s : State}

theorem State.canonical.acbDrain {key line} (h : s.canonical) : (Machine.acbDrain s key line).canonical := by
  unfold Machine.acbDrain
  dsimp only
  split
  · exact h
  · exact h.setCell.l2Put

theorem State.canonical.acbFlush {key} (h : s.canonical) : (Machine.acbFlush s key).canonical :=
  h.foldl fun _ _ h₁ => h₁.acbDrain

theorem State.canonical.flushRegion {rk} (h : s.canonical) : (Machine.flushRegion s rk).canonical :=
  h.foldl fun _ _ h₁ => h₁.acbFlush

theorem State.canonical.gRelease {rk sc} (h : s.canonical) : (Machine.gRelease s rk sc).canonical := by
  unfold Machine.gRelease
  split
  · exact h
  · exact h.flushRegion
  · exact h.flushRegion.foldl fun _ _ h₁ => h₁.l2ForwardAll

theorem State.canonical.gAcquire {rk sc} (h : s.canonical) : (Machine.gAcquire s rk sc).canonical := .ite h h.modCells

theorem State.canonical.ownerRead {rk va n k} (h : s.canonical) : Ends (·.2.2.canonical) (Machine.ownerRead s rk va n k) := by
  unfold Machine.ownerRead
  dsimp only
  split
  · exact .error
  · split <;> exact .ok h.xlat.snd.l2Read

theorem State.canonical.ownerPut {rk va p bs} (h : s.canonical) : (Machine.ownerPut s rk va p bs).canonical := by
  unfold Machine.ownerPut
  refine .ite h.homeWrite (.ite h.setCell (.after (.modCell (.ite h ?_))))
  split
  · exact h
  · exact h.acbDrain

theorem State.canonical.ownerHome {rk va p} (h : s.canonical) : (Machine.ownerHome s rk va p).canonical :=
  h.acbDrain.gather.dropOld

theorem State.canonical.ownerWrite {rk va bs} (h : s.canonical) : Ends State.canonical (Machine.ownerWrite s rk va bs) := by
  unfold Machine.ownerWrite
  dsimp only
  split
  · exact .error
  · exact .ok h.xlat.snd.ownerPut

theorem State.canonical.ownerWriteLate {rk va bs} (h : s.canonical) :
    Ends State.canonical (Machine.ownerWriteLate s rk va bs) := by
  unfold Machine.ownerWriteLate
  dsimp only
  split
  · exact .error
  · exact .ok (.ite h.translate.snd.countEcc h.translate.snd.ownerPut)

theorem State.canonical.mRestamp {rk key g off} (h : s.canonical) : (Machine.mRestamp s rk key g off).canonical :=
  .ite h (h.foldl fun _ _ h₁ => h₁.count).setCell

theorem State.canonical.mSet {key off st} (h : s.canonical) : (Machine.mSet s key off st).canonical := h.modCell

theorem State.canonical.trimPool {rk key} (h : s.canonical) : (Machine.trimPool s rk key).canonical :=
  h.setCell.foldl fun _ _ h₁ => h₁.returnFrame

theorem State.canonical.poolRoom {rk key} (h : s.canonical) : Ends State.canonical (Machine.poolRoom s rk key) := by
  unfold Machine.poolRoom
  refine .ite (.ok h) ?_
  split
  · exact .error
  · exact .ok h.allocFrame.snd.modCell

theorem State.canonical.mWake {rk mx my key off v} (h : s.canonical) : (Machine.mWake s rk mx my key off v).canonical :=
  (h.setCell.foldl fun _ _ h₁ => .after (.ite h₁.modCell.gAcquire h₁)).trimPool

theorem State.canonical.mPutG {rk key g off bs} (h : s.canonical) :
    Ends State.canonical (Machine.mPutG s rk key g off bs) := by
  unfold Machine.mPutG
  split
  · exact .error
  · exact .ok (h.foldl fun _ _ h₁ => h₁.mRestamp).modCell

theorem State.canonical.mWriteG {rk mx my key g off bs} (h : s.canonical) :
    Ends State.canonical (Machine.mWriteG s rk mx my key g off bs) := by
  unfold Machine.mWriteG
  split
  · exact .error
  · exact .ok (h.mPutG.get.foldl fun _ _ h₁ => h₁.mSet.mWake)

theorem State.canonical.mPut {rk key off bs} (h : s.canonical) : Ends State.canonical (Machine.mPut s rk key off bs) :=
  h.mPutG

theorem State.canonical.mWrite {rk mx my key off bs} (h : s.canonical) :
    Ends State.canonical (Machine.mWrite s rk mx my key off bs) := h.mWriteG

theorem State.canonical.localWrite {rk key off bs a} (h : s.canonical) :
    Ends State.canonical (Machine.localWrite s rk key off bs a) := by
  unfold Machine.localWrite
  dsimp only
  split
  · exact .error
  · split
    · exact .error
    · exact .ok h.setCell

theorem State.canonical.takePlace {i f} (h : s.canonical) : (s.takePlace i f).canonical := .ite h.modCell h

theorem State.canonical.openReply {f nd v lat} (h : s.canonical) : (s.openReply f nd v lat).canonical :=
  .ite h.modCell.after h.modCell

theorem State.canonical.irdTake {r} (h : s.canonical) : Gives (Ends (·.2.canonical)) (Machine.irdTake s r) := by
  unfold Machine.irdTake
  dsimp only
  split
  · exact .some .error
  · exact .ite (.some (.ok h.xlat.snd.ownerHome)) .none

theorem State.canonical.regionFlags {rk fl} (h : s.canonical) : (Machine.regionFlags s rk fl).canonical := by
  unfold Machine.regionFlags
  refine .ite h ?_
  split
  · exact h.homeLoad.trd.putHome
  · exact h

theorem State.canonical.combine {f nd} (h : s.canonical) : Gives State.canonical (Machine.combine s f nd) := by
  unfold Machine.combine
  extract_lets
  split
  · refine .ite .none ?_
    extract_lets
    split
    · exact .some h.lateFault
    · refine .ite (.some h.lateFault) ?_
      split
      extract_lets s₁ s₂ s₃
      have h₁ : s₁.canonical := by unfold s₁; split; exacts [h.mPut.get, h]
      have h₂ : s₂.canonical := by unfold s₂; split; exacts [h₁.mPut.get, h₁]
      have h₃ : s₃.canonical := .ite h₂ (.ite h₂.mSet h₂)
      exact .some (.ite h₃.regionFlags.mSet.mWake h₃.regionFlags)
  · exact .some h

theorem State.canonical.execMemoryReply {rk ik idx} (h : s.canonical) :
    Out.canonical (Machine.execMemoryReply rk ik idx s) := by
  unfold Machine.execMemoryReply
  dsimp only
  split
  · exact h.recordArc.get
  · split
    · split
      · exact .next (.settle (.ite h.modCell.drainReplies h.modCell.modCell.leaveReply))
      · split
        · exact .next h.after
        · next e =>
          have h₁ := Ends.snd (h.irdTake.get e) rfl
          exact .next (.settle (.ite h₁.gAcquire.modCell.drainReplies h₁.gAcquire.modCell.modCell.leaveReply))
        · exact .next h.fireFault.settle
    · split
      · exact h
      · split
        · exact h
        · split
          · exact h
          · exact .next h.combine.get.modCell.trimPool.settle

end Sys2Proof.Machine
end

section
/-! The canonical form under the operations of Matrix. -/

namespace Sys2Proof.Machine

-- one theorem at a time: many wait on each other, and each that waits holds a thread
set_option Elab.async false

variable {s : State}

theorem State.canonical.mxPut {op} (h : s.canonical) : (Machine.mxPut s op).canonical := h.modMyCore

theorem State.canonical.mxQueue {op clks} (h : s.canonical) : (Machine.mxQueue s op clks).canonical :=
  h.mxPut.modMyCore.retireFor

theorem State.canonical.mxWaitTurn {i td} (h : s.canonical) : (Machine.mxWaitTurn s i td).canonical :=
  .holdOn (.ite h h.mxPut)

theorem State.canonical.mxExec {i td r} (h : s.canonical) (hr : Ends State.canonical r) :
    Out.canonical (Machine.mxExec i td s r) := by
  refine .ite ?_ h.mxWaitTurn
  cases r with
  | ok t => exact hr
  | error e => exact h.mxDrop.takeTrap

theorem State.canonical.tileCfg {i td w} (h : s.canonical) : Ends State.canonical (Machine.tileCfg i td w s) :=
  .skip fun _ => .guard (.guard (h.setTd.bind fun _ h₁ => .pure (.mxQueue (.ite h₁.modMyCore h₁))))

theorem State.canonical.routeCfg {i td w} (h : s.canonical) : Ends State.canonical (Machine.routeCfg i td w s) :=
  .guard (h.setRt.bind fun _ h₁ => .pure h₁.mxQueue)

theorem State.canonical.mxTcfgStep {i td rs1} (h : s.canonical) : Ends State.canonical (Machine.mxTcfgStep i td rs1 s) := by
  unfold Machine.mxTcfgStep
  refine .skip fun _ => ?_
  split
  · exact h.tileCfg
  · exact h.routeCfg
  · exact .error

theorem State.canonical.execMxTcfg {td rs1} (h : s.canonical) : Out.canonical (Machine.execMxTcfg td rs1 s) :=
  h.mxExec h.mxTcfgStep

theorem State.canonical.execMxTcfgRoute {td rs1} (h : s.canonical) : Out.canonical (Machine.execMxTcfgRoute td rs1 s) :=
  h.mxExec h.mxTcfgStep

theorem State.canonical.execMxDesc {md rs1 rs2} (h : s.canonical) : Out.canonical (Machine.execMxDesc md rs1 rs2 s) :=
  h.mxExec (.skip fun _ => .skip fun _ => h.setMd.bind fun _ h₁ => .pure h₁.modMyCore.mxQueue)

theorem State.canonical.operandBytes {i space at_ n} (h : s.canonical) :
    Ends (·.2.canonical) (Machine.operandBytes i s space at_ n) := by
  unfold Machine.operandBytes
  dsimp only
  split
  · exact .skip fun _ => h.load
  · exact .error
  · exact .skip fun _ => .skip fun _ => .pure h

theorem State.canonical.mdElem {i d r c} (h : s.canonical) : Ends (·.2.canonical) (Machine.mdElem i s d r c) :=
  .ite (h.operandBytes.bind fun ⟨_, _⟩ h₁ => .pure h₁) (h.operandBytes.bind fun ⟨_, _⟩ h₁ => .pure h₁)

theorem State.canonical.mdRow {i d r l} (h : s.canonical) : Ends (·.2.canonical) (Machine.mdRow i d r s l) := by
  induction l generalizing s i d r with
  | nil => exact .ok h
  | cons a r ih => exact h.mdElem.bind fun ⟨_, _⟩ h₁ => (ih h₁).bind fun ⟨_, _⟩ h₂ => .pure h₂

theorem State.canonical.mdBlock {i d cols l} (h : s.canonical) : Ends (·.2.canonical) (Machine.mdBlock i d cols s l) := by
  induction l generalizing s i d cols with
  | nil => exact .ok h
  | cons a r ih => exact h.mdRow.bind fun ⟨_, _⟩ h₁ => (ih h₁).bind fun ⟨_, _⟩ h₂ => .pure h₂

theorem State.canonical.putRow {row c xs} (h : s.canonical) : (Machine.putRow s row c xs).canonical := h.modMyCore

theorem State.canonical.setProgress {td row fl} (h : s.canonical) : (Machine.setProgress s td row fl).canonical :=
  h.modMyCore

theorem State.canonical.setMxrow {td row} (h : s.canonical) : (Machine.setMxrow s td row).canonical := h.modMe

theorem State.canonical.mxBandStart {op b mRows} (h : s.canonical) : (Machine.mxBandStart s op b mRows).canonical :=
  h.mxPut.modMe.after

theorem State.canonical.mxBands {i td t mRows bh clks band} (h : s.canonical)
    (hb : ∀ s m n, s.canonical → Ends (·.1.canonical) (band s m n)) :
    (Machine.mxBands i td t mRows bh clks s band).canonical := by
  refine .ite h.mxQueue ?_
  split
  · exact h.mxDrop.setProgress.setMxrow.takeTrap
  · exact (hb _ _ _ h).fst.mxBandStart

theorem State.canonical.mxBandEnd {td b} (h : s.canonical) : (Machine.mxBandEnd s td b).canonical :=
  (h.foldl fun _ _ h₁ => h₁.putRow).setProgress

theorem State.canonical.execMxComplete {core} (h : s.canonical) : Out.canonical (Machine.execMxComplete core s) := by
  unfold Machine.execMxComplete
  split
  · exact h
  · dsimp only
    split
    · exact .next (.frame (.ite h.frame.mxBandEnd.setMxrow.modCore.modMe h.frame.mxBandEnd.modCore.modMe))
    · exact .next (.modSlot (.ite h.modCore.modCore h.modCore))

theorem State.canonical.stage {a aBytes} (h : s.canonical) : (Machine.stage s a aBytes).canonical := h.modMyCore

theorem State.canonical.execMxMma {td a b} (h : s.canonical) : Out.canonical (Machine.execMxMma td a b s) := by
  unfold Machine.execMxMma
  refine h.mxExec (.skip fun _ => .skip fun _ => .skip fun _ => ?_)
  split
  · exact .error
  · exact .guard (.pure (h.stage.mxBands fun _ _ _ h₁ => h₁.mdBlock.bind fun ⟨_, _⟩ h₂ => h₂.mdBlock.bind fun ⟨_, _⟩ h₃ =>
        .skip fun _ => .pure h₃))

theorem State.canonical.sideRead {i base e} (h : s.canonical) : Ends (·.2.2.canonical) (Machine.sideRead i s base e) :=
  h.operandBytes.bind fun ⟨_, _⟩ h₁ => h₁.operandBytes.bind fun ⟨_, _⟩ h₂ => .pure h₂

theorem State.canonical.sideReads {i base l} (h : s.canonical) : Ends (·.2.canonical) (Machine.sideReads i base s l) := by
  induction l generalizing s i base with
  | nil => exact .ok h
  | cons a r ih => exact h.sideRead.bind fun ⟨_, _, _⟩ h₁ => (ih h₁).bind fun ⟨_, _⟩ h₂ => .pure h₂

theorem State.canonical.execMxMmq {td a w sc} (h : s.canonical) : Out.canonical (Machine.execMxMmq td a w sc s) :=
  h.mxExec (.skip fun _ => .skip fun _ => .skip fun _ => .skip fun _ => .guard
    (.guard (.guard (.guard (.guard (.pure (h.stage.mxBands fun _ _ _ h₁ => h₁.mdBlock.bind fun ⟨_, _⟩ h₂ => h₂.mdBlock.bind
    fun ⟨_, _⟩ h₃ => h₃.sideReads.bind fun ⟨_, _⟩ h₄ => .skip fun _ => .pure h₄)))))))

theorem State.canonical.execMxMms {td a b vm q} (h : s.canonical) : Out.canonical (Machine.execMxMms td a b vm q s) := by
  unfold Machine.execMxMms
  refine h.mxExec (.skip fun _ => .skip fun _ => .skip fun _ => .skip fun _ => ?_)
  dsimp only
  split
  · exact .error
  · exact .guard (.pure (h.stage.mxBands fun _ _ _ h₁ => h₁.mdBlock.bind fun ⟨_, _⟩ h₂ => h₂.mdBlock.bind fun ⟨_, _⟩ h₃ =>
        .skip fun _ => .pure h₃))

theorem State.canonical.execMxZero {td} (h : s.canonical) : Out.canonical (Machine.execMxZero td s) :=
  h.mxExec (.skip fun _ => .skip fun _ => .skip fun _ => .pure h.modMyCore.mxQueue)

theorem State.canonical.execMxRd {td vd rs1} (h : s.canonical) : Out.canonical (Machine.execMxRd td vd rs1 s) :=
  h.mxExec (.skip fun _ => .skip fun _ => .skip fun _ => .skip fun _ => .skip fun _ => h.setV.bind fun _ h₁ => .pure
    h₁.mxQueue)

theorem State.canonical.execMxWr {td vs rs1} (h : s.canonical) : Out.canonical (Machine.execMxWr td vs rs1 s) :=
  h.mxExec (.skip fun _ => .skip fun _ => .skip fun _ => .skip fun _ => .skip fun _ => .skip fun _ => .pure
    h.modMyCore.mxQueue)

theorem State.canonical.execMxWait {td} (h : s.canonical) : Out.canonical (Machine.execMxWait td s) := by
  unfold Machine.execMxWait
  split
  · exact h.takeTrap
  · exact .ite h.retire (h.mxExec (.ok h.mxQueue))

theorem State.canonical.execMxRowp {td rs1} (h : s.canonical) : Out.canonical (Machine.execMxRowp td rs1 s) :=
  h.mxExec (.skip fun _ => .skip fun _ => .skip fun _ => .guard (h.setTd.bind fun _ h₁ => .pure h₁.mxQueue))

theorem State.canonical.execMxStat {td rd} (h : s.canonical) : Out.canonical (Machine.execMxStat td rd s) :=
  h.commit (.skip fun _ => h.setX.bind fun _ h₁ => .pure h₁.retire)

end Sys2Proof.Machine
end

section
/-! The canonical form under the operations of Threads. -/

namespace Sys2Proof.Machine

-- one theorem at a time: many wait on each other, and each that waits holds a thread
set_option Elab.async false

variable {s : State}

theorem State.canonical.execMsgSend {rs1 rs2} (h : s.canonical) : Out.canonical (Machine.execMsgSend rs1 rs2 s) :=
  h.commit (.skip fun _ => .skip fun _ => .skip fun _ => .pure h.releaseAt.sendMsg.retire)

theorem State.canonical.execMsgMsk (h : s.canonical) : Out.canonical (Machine.execMsgMsk s) :=
  .next (.ite h.retire h.retire.modMe)

theorem State.canonical.execMsgUnm (h : s.canonical) : Out.canonical (Machine.execMsgUnm s) :=
  .next (.ite h.retire.modMe h.retire)

theorem State.canonical.execMsgRet (h : s.canonical) : Out.canonical (Machine.execMsgRet s) :=
  h.commit (.guard (.pure h.jumpTo.modMe))

theorem State.canonical.execWait (h : s.canonical) : Out.canonical (Machine.execWait s) := .next (.ite h.retire h.holdOn)

theorem State.canonical.execSleepT {rs1} (h : s.canonical) : Out.canonical (Machine.execSleepT rs1 s) :=
  h.commit (.skip fun _ => .ite (.pure h.retire) (.pure h.holdOn.dropDuties.after))

theorem State.canonical.execYield (h : s.canonical) : Out.canonical (Machine.execYield s) := h.retire.modMe

theorem State.canonical.execGenRd {sp rd rs1} (h : s.canonical) : Out.canonical (Machine.execGenRd sp rd rs1 s) :=
  h.commit (.skip fun _ => .skip fun _ => h.setX.bind fun _ h₁ => .pure h₁.retire)

theorem State.canonical.execGenNew {rd} (h : s.canonical) : Out.canonical (Machine.execGenNew rd s) := by
  unfold Machine.execGenNew
  refine h.commit (.skip fun _ => ?_)
  split
  · exact h.newGen.of_pair.setX.bind fun _ h₁ => .pure h₁.retire
  · exact h.newGen.of_pair.setX.bind fun _ h₁ => .pure h₁.modMgmt.retire

theorem State.canonical.execTret (h : s.canonical) : Out.canonical (Machine.execTret s) :=
  h.commit (.skip fun _ => .pure h.modMe)

end Sys2Proof.Machine
end

section
/-! The canonical form under the operations of Arrivals. -/

namespace Sys2Proof.Machine

-- one theorem at a time: many wait on each other, and each that waits holds a thread
set_option Elab.async false

variable {s : State}

theorem State.canonical.rejoin {k slot} (h : s.canonical) : (Machine.rejoin k slot s).canonical := h.modSlot

theorem State.canonical.completeSlot {slot} (h : s.canonical) : (Machine.completeSlot s slot).canonical := h.modSlot

theorem State.canonical.resumeSlot {slot} (h : s.canonical) : (Machine.resumeSlot s slot).canonical := h.modSlot

theorem State.canonical.execMissFillArrival {slot} (h : s.canonical) :
    Out.canonical (Machine.execMissFillArrival slot s) := h.rejoin

theorem State.canonical.execTlbWalkComplete {slot} (h : s.canonical) :
    Out.canonical (Machine.execTlbWalkComplete slot s) := h.rejoin

theorem State.canonical.execDivComplete {slot} (h : s.canonical) : Out.canonical (Machine.execDivComplete slot s) := h.rejoin

theorem State.canonical.execAmoComplete {slot} (h : s.canonical) : Out.canonical (Machine.execAmoComplete slot s) := h.rejoin

theorem State.canonical.execLockGranted {slot} (h : s.canonical) : Out.canonical (Machine.execLockGranted slot s) := h.rejoin

theorem State.canonical.trial {slot} (h : s.canonical) : (Machine.trial s slot).canonical := h.resumeSlot.frame

theorem State.canonical.arrived {o} (h : s.canonical) (ho : Out.canonical o) : (Machine.arrived o s).canonical := by
  cases o with
  | next t => exact ho.frame
  | _ => exact h

theorem State.canonical.loadGoes {k slot} (h : s.canonical) : Out.canonical (Machine.loadGoes k slot s) := by
  unfold Machine.loadGoes
  refine .next ?_
  split
  · refine .ite ?_ h
    split
    · exact h.arrived h.trial.execLdS
    · exact h.arrived h.trial.execLdSe
    · exact h.arrived h.trial.execVldS
    · exact h.arrived h.trial.execLdB
    · exact h.arrived h.trial.execVldB
    · exact h
  · exact h

theorem State.canonical.execSyncLoadComplete {slot} (h : s.canonical) :
    Out.canonical (Machine.execSyncLoadComplete slot s) := h.loadGoes

theorem State.canonical.execBoundedLoadComplete {slot} (h : s.canonical) :
    Out.canonical (Machine.execBoundedLoadComplete slot s) := h.loadGoes

theorem State.canonical.execTideTmo {slot} (h : s.canonical) : Out.canonical (Machine.execTideTmo slot s) := by
  unfold Machine.execTideTmo
  dsimp only
  split
  · exact .ite h.frame.takeTrap (.ite h h.after)
  · exact h

theorem State.canonical.execSleepDeadline {slot} (h : s.canonical) : Out.canonical (Machine.execSleepDeadline slot s) := by
  unfold Machine.execSleepDeadline
  split
  · exact .next (.ite h.completeSlot h.after)
  · exact h

theorem State.canonical.execMessageArrival {m} (h : s.canonical) : Out.canonical (Machine.execMessageArrival m s) :=
  .next (.ite h.count (.ite h.modSlot (.ite h.count h.after)))

theorem State.canonical.execMsgOverflowWrite {m bound} (h : s.canonical) :
    Out.canonical (Machine.execMsgOverflowWrite m bound s) := by
  unfold Machine.execMsgOverflowWrite
  refine .next (.ite h.count ?_)
  split
  · exact h.count
  · exact h.xlat.snd.putHome.frame.modTenant

theorem State.canonical.execMessageDelivery {slot} (h : s.canonical) :
    Out.canonical (Machine.execMessageDelivery slot s) := by
  unfold Machine.execMessageDelivery
  refine .next (.ite (.deliverTo ?_) h)
  split
  · exact h.withdrawWaits
  · exact h.completeSlot
  · exact h

theorem State.canonical.execCoalesceDrainTimeout {core line} (h : s.canonical) :
    Out.canonical (Machine.execCoalesceDrainTimeout core line s) := by
  unfold Machine.execCoalesceDrainTimeout
  dsimp only
  split
  · exact h
  · exact .ite (.next (.ite h.cbDrain h.acbDrain)) h.after

theorem State.canonical.execL2WriteForward {cove line} (h : s.canonical) :
    Out.canonical (Machine.execL2WriteForward cove line s) := by
  unfold Machine.execL2WriteForward
  split
  · exact h
  · exact .ite h (.ite h.l2Forward h.after)

theorem State.canonical.execL1dLineExpiry {core line} (h : s.canonical) :
    Out.canonical (Machine.execL1dLineExpiry core line s) := by
  unfold Machine.execL1dLineExpiry
  split
  · exact h
  · exact .next (.ite h.modCore h)

theorem State.canonical.execMeshBurstMerge {cove} (h : s.canonical) : Out.canonical (Machine.execMeshBurstMerge cove s) :=
  h.modCove

theorem State.canonical.execIllegalInstruction {w} (h : s.canonical) :
    Out.canonical (Machine.execIllegalInstruction w s) := h.takeTrap

theorem State.canonical.execFetchPageX {va} (h : s.canonical) : Out.canonical (Machine.execFetchPageX va s) := h.takeTrap

end Sys2Proof.Machine
end

section
/-! The canonical form under the operations of Calls. -/

namespace Sys2Proof.Machine

-- one theorem at a time: many wait on each other, and each that waits holds a thread
set_option Elab.async false

variable {s : State}

theorem State.canonical.callbackAppend {q f} (h : s.canonical) : (Machine.callbackAppend s q f).canonical :=
  (h.modQueue rfl).msix

theorem State.canonical.newFrame {ag n retp gen} (h : s.canonical) :
    Ends (·.2.canonical) (Machine.newFrame s ag n retp gen) := h.allocFrame.bind fun ⟨_, _⟩ h₁ => .skip fun ⟨_, _⟩ => .skip
    fun _ => h₁.writeHeader.bind fun _ h₃ => .pure h₃

theorem State.canonical.freeCheck {ag f} (h : s.canonical) : Ends State.canonical (Machine.freeCheck s ag f) :=
  h.homeWords.bind fun ⟨_, _⟩ h₁ => h₁.xlat.bind fun ⟨_, _⟩ h₂ => .skip fun _ => .skip fun _ => .pure h₂

theorem State.canonical.freeFrame {ag f} (h : s.canonical) : Ends State.canonical (Machine.freeFrame s ag f) :=
  h.homeStore.bind fun _ h₁ => .pure h₁.returnFrame

theorem State.canonical.postStart {vmid cove queue p f src} (h : s.canonical) :
    Routed.canonical (Machine.postStart s vmid cove queue p f src) := h.routeToken

end Sys2Proof.Machine
end

section
/-! The canonical form under the operations of Nodes. -/

namespace Sys2Proof.Machine

-- one theorem at a time: many wait on each other, and each that waits holds a thread
set_option Elab.async false

variable {s : State}

theorem State.canonical.nullFire {i f} (h : s.canonical) : (Machine.nullFire i f s).canonical := by
  unfold Machine.nullFire
  split
  · exact h
  · exact .ite h.sendNull.sendCount h.sendNull

theorem State.canonical.bodyDone {i f} (h : s.canonical) : (Machine.bodyDone i f s).canonical := .ite h.modCell h

theorem State.canonical.fireNode {i f act} (h : s.canonical) (ha : ∀ f s, s.canonical → Ends State.canonical (act f s)) :
    (Machine.fireNode i f s act).canonical := by
  refine .ite h.nullFire (.ite h ?_)
  split
  · exact (ha f s h).get.bodyDone
  · exact h.fireAfter
  · exact h.fireFault

theorem State.canonical.keepParked {f w} (h : s.canonical) : (Machine.keepParked s f w).canonical := h.modRegion

theorem State.canonical.runNode {i act} (h : s.canonical) (ha : ∀ f s, s.canonical → Ends State.canonical (act f s)) :
    Out.canonical (Machine.runNode i s act) := by
  unfold Machine.runNode
  split
  · exact h
  · refine .next ?_
    split
    · exact h.frame.recordArc.get
    · have hb {i f} : (State.beginFire { s with fire := none, stall := 0 } i f).canonical := h.frame.beginFire
      exact .ite h.frame (.ite h.frame.keepParked (.ite h.frame.frame (.settle (.fireNode (.ite hb.takePlace hb) ha))))

theorem State.canonical.eltNode {i w ft op} (h : s.canonical) : Out.canonical (Machine.eltNode i w ft s op) :=
  h.runNode fun _ _ h₁ => .ok h₁.addFlags.sendOut

theorem State.canonical.intNode {i op} (h : s.canonical) : Out.canonical (Machine.intNode i s op) := by
  unfold Machine.intNode
  exact h.eltNode

theorem State.canonical.execGAdd {n} (h : s.canonical) : Out.canonical (Machine.execGAdd n s) := h.intNode

theorem State.canonical.execGSub {n} (h : s.canonical) : Out.canonical (Machine.execGSub n s) := h.intNode

theorem State.canonical.execGMul {n} (h : s.canonical) : Out.canonical (Machine.execGMul n s) := h.intNode

theorem State.canonical.execGMulh {n} (h : s.canonical) : Out.canonical (Machine.execGMulh n s) := h.intNode

theorem State.canonical.execGDiv {n} (h : s.canonical) : Out.canonical (Machine.execGDiv n s) := h.intNode

theorem State.canonical.execGRem {n} (h : s.canonical) : Out.canonical (Machine.execGRem n s) := h.intNode

theorem State.canonical.execGAnd {n} (h : s.canonical) : Out.canonical (Machine.execGAnd n s) := h.intNode

theorem State.canonical.execGOr {n} (h : s.canonical) : Out.canonical (Machine.execGOr n s) := h.intNode

theorem State.canonical.execGXor {n} (h : s.canonical) : Out.canonical (Machine.execGXor n s) := h.intNode

theorem State.canonical.execGShl {n} (h : s.canonical) : Out.canonical (Machine.execGShl n s) := h.intNode

theorem State.canonical.execGShr {n} (h : s.canonical) : Out.canonical (Machine.execGShr n s) := h.intNode

theorem State.canonical.execGSra {n} (h : s.canonical) : Out.canonical (Machine.execGSra n s) := h.intNode

theorem State.canonical.execGMin {n} (h : s.canonical) : Out.canonical (Machine.execGMin n s) := h.intNode

theorem State.canonical.execGMax {n} (h : s.canonical) : Out.canonical (Machine.execGMax n s) := h.intNode

theorem State.canonical.testNode {i op} (h : s.canonical) : Out.canonical (Machine.testNode i s op) := h.eltNode

theorem State.canonical.execGTlt {n} (h : s.canonical) : Out.canonical (Machine.execGTlt n s) := h.testNode

theorem State.canonical.execGTle {n} (h : s.canonical) : Out.canonical (Machine.execGTle n s) := h.testNode

theorem State.canonical.execGTeq {n} (h : s.canonical) : Out.canonical (Machine.execGTeq n s) := h.testNode

theorem State.canonical.execGTne {n} (h : s.canonical) : Out.canonical (Machine.execGTne n s) := h.testNode

theorem State.canonical.execGTltu {n} (h : s.canonical) : Out.canonical (Machine.execGTltu n s) := h.testNode

theorem State.canonical.execGTleu {n} (h : s.canonical) : Out.canonical (Machine.execGTleu n s) := h.testNode

theorem State.canonical.fpNode {i op} (h : s.canonical) : Out.canonical (Machine.fpNode i s op) := h.eltNode

theorem State.canonical.execGFadd {n} (h : s.canonical) : Out.canonical (Machine.execGFadd n s) := h.fpNode

theorem State.canonical.execGFsub {n} (h : s.canonical) : Out.canonical (Machine.execGFsub n s) := h.fpNode

theorem State.canonical.execGFmul {n} (h : s.canonical) : Out.canonical (Machine.execGFmul n s) := h.fpNode

theorem State.canonical.execGFfma {n} (h : s.canonical) : Out.canonical (Machine.execGFfma n s) :=
  h.runNode fun _ _ h₁ => .ok h₁.addFlags.sendOut

theorem State.canonical.execGFmin {n} (h : s.canonical) : Out.canonical (Machine.execGFmin n s) := h.fpNode

theorem State.canonical.execGFmax {n} (h : s.canonical) : Out.canonical (Machine.execGFmax n s) := h.fpNode

theorem State.canonical.execGFdiv {n} (h : s.canonical) : Out.canonical (Machine.execGFdiv n s) := h.fpNode

theorem State.canonical.execGFsqrt {n} (h : s.canonical) : Out.canonical (Machine.execGFsqrt n s) := h.fpNode

theorem State.canonical.execGFrcp {n} (h : s.canonical) : Out.canonical (Machine.execGFrcp n s) := h.fpNode

theorem State.canonical.execGFexp2 {n} (h : s.canonical) : Out.canonical (Machine.execGFexp2 n s) := h.fpNode

theorem State.canonical.execGFlog2 {n} (h : s.canonical) : Out.canonical (Machine.execGFlog2 n s) := h.fpNode

theorem State.canonical.cmpNode {i c} (h : s.canonical) : Out.canonical (Machine.cmpNode i c s) :=
  h.runNode fun _ _ h₁ => .ok h₁.addFlags.sendOut

theorem State.canonical.execGFlt {n} (h : s.canonical) : Out.canonical (Machine.execGFlt n s) := h.cmpNode

theorem State.canonical.execGFle {n} (h : s.canonical) : Out.canonical (Machine.execGFle n s) := h.cmpNode

theorem State.canonical.execGFeq {n} (h : s.canonical) : Out.canonical (Machine.execGFeq n s) := h.cmpNode

theorem State.canonical.execGCvt {n} (h : s.canonical) : Out.canonical (Machine.execGCvt n s) :=
  h.runNode fun _ _ h₁ => .ite .error (.ok h₁.addFlags.sendOut)

theorem State.canonical.execGQcvt {n} (h : s.canonical) : Out.canonical (Machine.execGQcvt n s) :=
  h.runNode fun _ _ h₁ => .ok h₁.addFlags.sendOut

theorem State.canonical.execGDq {n} (h : s.canonical) : Out.canonical (Machine.execGDq n s) :=
  h.runNode fun _ _ h₁ => .ok h₁.addFlags.sendOut

theorem State.canonical.execGRng {n} (h : s.canonical) : Out.canonical (Machine.execGRng n s) :=
  h.runNode fun _ _ h₁ => .ok h₁.sendT.sendT

theorem State.canonical.execGMov {n} (h : s.canonical) : Out.canonical (Machine.execGMov n s) :=
  h.runNode fun _ _ h₁ => .ok h₁.sendOut

theorem State.canonical.execGMovi {n} (h : s.canonical) : Out.canonical (Machine.execGMovi n s) :=
  h.runNode fun _ _ h₁ => .ok h₁.sendOut

theorem State.canonical.execGNull {n} (h : s.canonical) : Out.canonical (Machine.execGNull n s) :=
  h.runNode fun _ _ h₁ => .ok h₁.sendNull

end Sys2Proof.Machine
end

section
/-! The canonical form under the operations of NodesCtl. -/

namespace Sys2Proof.Machine

-- one theorem at a time: many wait on each other, and each that waits holds a thread
set_option Elab.async false

variable {s : State}

theorem State.canonical.pendOn {f i addr data} (h : s.canonical) : (s.pendOn f i addr data).canonical := by
  unfold State.pendOn
  dsimp only
  split
  · exact .ite h.modInst.onceAfter h.modInst
  · exact h.modInst

theorem State.canonical.execGFrd {n} (h : s.canonical) : Out.canonical (Machine.execGFrd n s) := by
  unfold Machine.execGFrd
  refine h.runNode fun _ _ h₁ => ?_
  dsimp only
  split
  · exact .ok h₁
  · exact .skip fun _ => .skip fun _ => h₁.ownerRead.liftT.bind fun ⟨_, _, _⟩ h₂ => .pure h₂.sendOut

theorem State.canonical.execGFwr {n} (h : s.canonical) : Out.canonical (Machine.execGFwr n s) :=
  h.runNode fun _ _ h₁ => .skip fun _ => .skip fun _ => h₁.xlat.liftT.bind fun ⟨_, _⟩ h₂ => .pure h₂.pendOn.sendCount

theorem State.canonical.execGSteer {n} (h : s.canonical) : Out.canonical (Machine.execGSteer n s) :=
  h.runNode fun _ _ h₁ => .ok (.ite h₁.sendT.sendT h₁.sendT)

theorem State.canonical.passOn {f n} (h : s.canonical) : (Machine.passOn s f n).canonical := h.sendT.sendT

theorem State.canonical.execGMerge {n} (h : s.canonical) : Out.canonical (Machine.execGMerge n s) :=
  h.runNode fun _ _ h₁ => .ok h₁.passOn

theorem State.canonical.execGOmerge {n} (h : s.canonical) : Out.canonical (Machine.execGOmerge n s) :=
  h.runNode fun _ _ h₁ => .ok h₁.passOn

theorem State.canonical.sendStart {f n pay ft act} (h : s.canonical) : (Machine.sendStart s f n pay ft act).canonical :=
  .ite h.fireFault h.sendTok

theorem State.canonical.execGBro {n} (h : s.canonical) : Out.canonical (Machine.execGBro n s) :=
  h.runNode fun _ _ h₁ => .ok h₁.sendStart.sendCount

theorem State.canonical.execGCall {n} (h : s.canonical) : Out.canonical (Machine.execGCall n s) :=
  h.runNode fun _ _ h₁ => .skip fun _ => .skip fun _ => .skip fun _ => .skip fun _ => h₁.readDesc.liftT.bind fun ⟨_, _⟩ h₂ =>
    h₂.homeWords.liftT.bind fun ⟨_, _⟩ h₃ => h₃.xlat.liftT.bind fun ⟨_, _⟩ h₄ => h₄.xlat.liftT.bind fun ⟨_, _⟩ h₅ =>
    h₅.xlat.liftT.bind fun ⟨_, _⟩ h₆ => .skip fun _ => .pure h₆.pendOn

theorem State.canonical.execGRet {n} (h : s.canonical) : Out.canonical (Machine.execGRet n s) :=
  h.runNode fun _ _ h₁ => h₁.homeWords.liftT.bind fun ⟨_, _⟩ h₂ => .ite (.pure h₂.pendOn)
    (h₂.xlat.liftT.bind fun ⟨_, _⟩ h₃ => .pure h₃.pendOn)

theorem State.canonical.argWords {f va n} (h : s.canonical) : Ends (·.2.canonical) (Machine.argWords s f va n) := by
  induction n generalizing s f va with
  | zero => exact .ok h
  | succ n ih =>
    unfold Machine.argWords
    split
    · exact .error
    · dsimp only
      split
      · exact .error
      · exact .ok (ih h.ownerRead.trd).snd

theorem State.canonical.execGCcall {n} (h : s.canonical) : Out.canonical (Machine.execGCcall n s) :=
  h.runNode fun _ _ h₁ => .skip fun _ => .skip fun _ => .skip fun _ => h₁.allocFrame.liftT.bind fun ⟨_, _⟩ h₂ =>
    h₂.xlat.liftT.bind fun ⟨_, _⟩ h₃ => .skip fun _ => h₃.argWords.liftT.bind fun ⟨_, _⟩ h₄ => .pure h₄.modInst.pendOn

theorem State.canonical.execGTrap {n} (h : s.canonical) : Out.canonical (Machine.execGTrap n s) :=
  h.runNode fun _ _ _ => .error

theorem State.canonical.execGInx {n} (h : s.canonical) : Out.canonical (Machine.execGInx n s) :=
  h.runNode fun _ _ h₁ => .ite (.ok h₁.modRegion) (.ok h₁.sendT.sendT)

theorem State.canonical.execGFnew {n} (h : s.canonical) : Out.canonical (Machine.execGFnew n s) :=
  h.runNode fun _ _ h₁ => .skip fun _ => h₁.newFrame.liftT.bind fun ⟨_, _⟩ h₂ => .pure h₂.modInst.sendOut

theorem State.canonical.execGFfree {n} (h : s.canonical) : Out.canonical (Machine.execGFfree n s) :=
  h.runNode fun _ _ h₁ => .skip fun _ => h₁.freeCheck.liftT.bind fun _ h₂ => .pure h₂.pendOn

theorem State.canonical.execGTget {n} (h : s.canonical) : Out.canonical (Machine.execGTget n s) :=
  h.runNode fun _ _ h₁ => .ok h₁.sendOut

theorem State.canonical.execGTset {n} (h : s.canonical) : Out.canonical (Machine.execGTset n s) :=
  h.runNode fun _ _ h₁ => .skip fun _ => .ite (.pure h₁.sendT.sendT) (.pure h₁.pendOn)

theorem State.canonical.execGPurge {n} (h : s.canonical) : Out.canonical (Machine.execGPurge n s) :=
  h.runNode fun _ _ h₁ => .ite (.ok h₁.pendOn) (.ok h₁.sendT.sendT)

theorem State.canonical.execGTnow {n} (h : s.canonical) : Out.canonical (Machine.execGTnow n s) :=
  h.runNode fun _ _ h₁ => .ok h₁.sendOut

theorem State.canonical.execGTgate {n} (h : s.canonical) : Out.canonical (Machine.execGTgate n s) :=
  h.runNode fun _ _ h₁ => .ite (.ok h₁.sendOut) (.ok h₁.modCell.after)

theorem State.canonical.execTgateDeadline {rk ik idx} (h : s.canonical) :
    Out.canonical (Machine.execTgateDeadline rk ik idx s) := by
  unfold Machine.execTgateDeadline
  dsimp -zeta only
  extract_lets rg b key mine s₁
  have h₁ : s₁.canonical := by
    unfold s₁
    split
    · exact h
    · split
      · exact h.reinstall.get
      · exact h.after
  clear_value s₁
  split
  · exact h.recordArc.get
  · split
    · exact .next (.ite h₁.modRegion (.ite h₁.after h₁.modCell.sendOut.settle))
    · exact h₁

end Sys2Proof.Machine
end

section
/-! The canonical form under the operations of NodesMem. -/

namespace Sys2Proof.Machine

-- one theorem at a time: many wait on each other, and each that waits holds a thread
set_option Elab.async false

variable {s : State}

theorem State.canonical.nodeRead {f a n x} (h : s.canonical) : Ends (·.2.2.canonical) (Machine.nodeRead s f a n x) := by
  unfold Machine.nodeRead
  split
  · exact h.ownerRead.liftT.bind fun ⟨_, _, _⟩ h₁ => .pure h₁
  · exact .skip fun _ => .skip fun _ => .pure h
  · exact .skip fun _ => .pure h
  · exact .error

theorem State.canonical.nodeWriteOk {f a bs x} (h : s.canonical) : Ends State.canonical (Machine.nodeWriteOk s f a bs x) := by
  unfold Machine.nodeWriteOk
  split
  · exact h.xlat.liftT.bind fun ⟨_, _⟩ h₁ => .pure h₁
  · exact .skip fun _ => .skip fun _ => .pure h
  · exact .skip fun _ => .pure h
  · exact .error

theorem State.canonical.loadAt {i f a k} (h : s.canonical) : Ends State.canonical (Machine.loadAt i f a k s) :=
  .skip fun _ => .skip fun _ => .skip fun _ => h.nodeRead.bind fun ⟨_, _, _⟩ h₁ => .pure h₁.openReply

theorem State.canonical.execGLd {n} (h : s.canonical) : Out.canonical (Machine.execGLd n s) :=
  h.runNode fun _ _ h₁ => h₁.loadAt

theorem State.canonical.execGLda {n} (h : s.canonical) : Out.canonical (Machine.execGLda n s) :=
  h.runNode fun _ _ h₁ => h₁.loadAt.bind fun _ h₂ => .pure h₂.gAcquire

theorem State.canonical.ownerRefetch {rk va p} (h : s.canonical) : (Machine.ownerRefetch s rk va p).canonical :=
  .ite h (.modCove (.stallFor (.frame (.ite h.l2Forward.l2Evict h.l2Forward))))

theorem State.canonical.execGLdb {n} (h : s.canonical) : Out.canonical (Machine.execGLdb n s) := by
  unfold Machine.execGLdb
  refine h.runNode fun _ _ h₁ => .skip fun _ => .skip fun _ => ?_
  split
  · exact h₁.xlat.liftT.bind fun ⟨_, _⟩ h₂ => .ite h₂.loadAt
        (.ite (.skip fun _ => .pure h₂.openReply) (.ite (.ite .error (.pure h₂.fireAfter)) h₂.ownerRefetch.loadAt))
  · exact h₁.loadAt

theorem State.canonical.storeAt {i f a k} (h : s.canonical) : Ends State.canonical (Machine.storeAt i f a k s) :=
  .skip fun _ => h.nodeWriteOk.bind fun _ h₁ => .pure h₁.pendOn.sendCount

theorem State.canonical.execGSt {n} (h : s.canonical) : Out.canonical (Machine.execGSt n s) :=
  h.runNode fun _ _ h₁ => h₁.storeAt

theorem State.canonical.execGStrl {n} (h : s.canonical) : Out.canonical (Machine.execGStrl n s) :=
  h.runNode fun _ _ h₁ => h₁.storeAt

theorem State.canonical.irdDefer {i f key off} (h : s.canonical) : Ends State.canonical (Machine.irdDefer i f key off s) :=
  h.poolRoom.liftT.bind fun _ h₁ => .pure h₁.mRestamp.mSet.modCell.openReply

theorem State.canonical.execGIrd {n} (h : s.canonical) : Out.canonical (Machine.execGIrd n s) := by
  unfold Machine.execGIrd
  refine h.runNode fun _ _ h₁ => .skip fun _ => .skip fun _ => .skip fun _ => ?_
  dsimp only
  split
  · exact .skip fun _ => .skip fun _ => .ite (.pure h₁.gAcquire.openReply) h₁.irdDefer
  · exact h₁.ownerRead.liftT.bind fun ⟨_, _, _⟩ h₂ => .skip fun _ => .ite (.pure h₂.gAcquire.openReply)
        (.pure h₂.openReply.after)
  · exact .error

theorem State.canonical.execGIwr {n} (h : s.canonical) : Out.canonical (Machine.execGIwr n s) := by
  unfold Machine.execGIwr
  refine h.runNode fun _ _ h₁ => .skip fun _ => ?_
  split
  · exact .error
  · exact h₁.xlat.liftT.bind fun ⟨_, _⟩ h₂ => .skip fun _ => h₂.storeAt
  · exact h₁.storeAt

theorem State.canonical.execGFence {n} (h : s.canonical) : Out.canonical (Machine.execGFence n s) :=
  h.runNode fun _ _ h₁ => .skip fun _ => .pure h₁.gRelease.gAcquire

theorem State.canonical.nodePref {f va} (h : s.canonical) : (Machine.nodePref s f va).canonical := by
  unfold Machine.nodePref
  dsimp only
  split
  · exact h
  · exact .ite h.xlat.snd h.xlat.snd.l2Line

theorem State.canonical.execGPref {n} (h : s.canonical) : Out.canonical (Machine.execGPref n s) :=
  h.runNode fun _ _ h₁ => .ite (.ok h₁) (.ok (h₁.foldl fun _ _ h₂ => h₂.nodePref))

theorem State.canonical.execGAmo {n} (h : s.canonical) : Out.canonical (Machine.execGAmo n s) := by
  unfold Machine.execGAmo
  refine h.runNode fun _ _ h₁ => .skip fun _ => ?_
  split
  · exact .error
  · exact h₁.translate.liftT.bind fun ⟨_, _⟩ h₂ => .skip fun _ => .skip fun _ => .pure h₂.pendOn.sendCount
  · exact h₁.storeAt

theorem State.canonical.execGLkt {n} (h : s.canonical) : Out.canonical (Machine.execGLkt n s) := by
  unfold Machine.execGLkt
  refine h.runNode fun _ _ h₁ => .skip fun _ => .skip fun _ => .skip fun _ => ?_
  split
  · exact .pure h₁.modCell.gAcquire.sendOut
  · exact h₁.poolRoom.liftT.bind fun _ h₂ => .pure h₂.modCell

theorem State.canonical.execGLkg {n} (h : s.canonical) : Out.canonical (Machine.execGLkg n s) :=
  h.runNode fun _ _ h₁ => .skip fun _ => .pure h₁.pendOn

theorem State.canonical.execGMcomb {n} (h : s.canonical) : Out.canonical (Machine.execGMcomb n s) :=
  h.runNode fun _ _ h₁ => .skip fun _ => .pure h₁.pendOn

end Sys2Proof.Machine
end

section
/-! The canonical form under the operations of Copy. -/

namespace Sys2Proof.Machine

-- one theorem at a time: many wait on each other, and each that waits holds a thread
set_option Elab.async false

variable {s : State}

theorem State.canonical.sendBuoy {cove rk b t} (h : s.canonical) : (Machine.sendBuoy s cove rk b t).canonical := h.after

theorem State.canonical.checkCw {ag pk} (h : s.canonical) : Ends State.canonical (Machine.checkCw s ag pk) := by
  unfold Machine.checkCw
  refine .ite (.ok h) ?_
  split
  · exact .error
  · exact .ite (.ok h.xlat.snd) .error

theorem State.canonical.modCmd {cove id f} (h : s.canonical) : (s.modCmd cove id f).canonical := h.modCove

theorem State.canonical.modFeed {c f} (h : s.canonical) : (Machine.modFeed s c f).canonical := by
  unfold Machine.modFeed
  split
  · exact h
  · exact h.modSlot.modTenant

theorem State.canonical.cmdToken {cove c pay ft t} (h : s.canonical) : (Machine.cmdToken s cove c pay ft t).canonical := by
  unfold Machine.cmdToken
  split
  · exact h.sendT.sendT
  · split
    · exact h.sendBuoy
    · exact h

theorem State.canonical.writeCw {cove c w} (h : s.canonical) : (Machine.writeCw s cove c w).canonical := by
  unfold Machine.writeCw
  refine .ite (.cmdToken (.ite h ?_)) (.ite h ?_)
  · split
    · exact h.count
    · exact h.xlat.snd.putHome
  · split
    · exact h.count
    · exact h.xlat.snd.putHome

theorem State.canonical.clearCw {cove c} (h : s.canonical) : (Machine.clearCw s cove c).canonical := by
  unfold Machine.clearCw
  refine .ite h ?_
  split
  · exact h
  · exact h.xlat.snd.putHome.setEmpty

theorem State.canonical.emptyCw {cove c} (h : s.canonical) : (Machine.emptyCw s cove c).canonical := by
  unfold Machine.emptyCw
  refine .ite h ?_
  split
  · exact h
  · exact h.xlat.snd.atHome.setEmpty

theorem State.canonical.copyEnd {cove id status} (h : s.canonical) : (Machine.copyEnd s cove id status).canonical := by
  unfold Machine.copyEnd
  split
  · exact h
  · exact h.modCmd.modFeed.after

theorem State.canonical.enqueueCopy {cove c} (h : s.canonical) : (Machine.enqueueCopy s cove c).canonical := by
  unfold Machine.enqueueCopy
  refine .onceAfter ?_
  split
  · exact .ite h.clearCw.modCove.modSlot h.clearCw.modCove
  · exact h.clearCw.modCove

theorem State.canonical.cancelCmd {cove id} (h : s.canonical) : (Machine.cancelCmd s cove id).canonical := by
  unfold Machine.cancelCmd
  split
  · exact h
  · exact .ite h h.copyEnd

theorem State.canonical.resumeCmd {cove id} (h : s.canonical) : (Machine.resumeCmd s cove id).canonical := by
  unfold Machine.resumeCmd
  split
  · exact h
  · exact .ite h.emptyCw.modCmd.modFeed.onceAfter h

theorem State.canonical.applyControl {cove k} (h : s.canonical) : (Machine.applyControl s cove k).canonical := by
  unfold Machine.applyControl
  dsimp only
  split
  · exact .ite h h.writeCw
  · exact .ite (.ite h.resumeCmd h.cancelCmd) (.writeCw (.ite h.resumeCmd h.cancelCmd))

theorem State.canonical.copyRead {cove c a} (h : s.canonical) : Got.canonical (Machine.copyRead s cove c a) := by
  unfold Machine.copyRead
  extract_lets n ag kept
  clear_value kept
  refine .ite trivial ?_
  split
  · split
    · trivial
    · have h₁ := h.xlat.snd (by assumption)
      refine .ite h₁.l2Read (.ite trivial ?_)
      split
      · exact h₁
      · exact .ite trivial (State.canonical.ite h₁.atHome.setEmpty h₁.atHome)
  · split
    · trivial
    · extract_lets st
      split
      · trivial
      · refine .ite h ?_
        split
        · exact h
        · exact .ite trivial (State.canonical.ite h.mSet h)
  · refine .ite trivial ?_
    split
    split
    · trivial
    · exact h.bufView.of_pair

theorem State.canonical.copyIndex {cove c t} (h : s.canonical) : Ends (·.2.canonical) (Machine.copyIndex s cove c t) := by
  unfold Machine.copyIndex
  split
  · exact .error
  · exact .ok h.readAs.snd

theorem State.canonical.copyAddrs {cove c t} (h : s.canonical) : Ends (·.2.2.canonical) (Machine.copyAddrs s cove c t) := by
  unfold Machine.copyAddrs
  dsimp only
  split
  · split
    · exact .error
    · exact .ok h.copyIndex.snd
  · split
    · exact .error
    · exact .ok h.copyIndex.snd
  · exact .ok h

theorem State.canonical.copyAhead {cove c pos n} (h : s.canonical) : (Machine.copyAhead s cove c pos n).2.canonical := by
  induction n generalizing s cove c pos with
  | zero => exact h
  | succ n ih =>
    unfold Machine.copyAhead
    split
    · exact h
    · split
      · exact ih h.copyAddrs.trd.copyRead.val
      · exact h

theorem State.canonical.copyTake {cove c a} (h : s.canonical) : Got.canonical (Machine.copyTake s cove c a) := by
  unfold Machine.copyTake
  refine .ite h.copyRead ?_
  split
  · exact h
  · split
    · exact h.copyRead.val.copyAhead
    · exact h.copyRead

theorem State.canonical.copyWrite {cove c a v t} (h : s.canonical) : Moved.canonical (Machine.copyWrite s cove c a v t) := by
  unfold Machine.copyWrite
  dsimp only
  split
  · refine .ite trivial ?_
    split
    · exact trivial
    · exact h.xlat.snd.putHome
  · refine .ite trivial ?_
    split
    · exact trivial
    · split
      · exact trivial
      · exact h.mWriteG.get
    · split
      · exact trivial
      · exact h.modCell
  · exact .ite trivial h.modFeed
  · exact h.cmdToken
  · refine .ite trivial (.ite trivial ?_)
    split
    · exact trivial
    · exact h.modCore

theorem State.canonical.moveElem {cove c t} (h : s.canonical) : Moved.canonical (Machine.moveElem s cove c t) := by
  unfold Machine.moveElem
  refine .ite trivial (.ite trivial ?_)
  split
  · exact trivial
  · split
    · exact trivial
    · exact trivial
    · split
      · exact h.copyAddrs.trd.copyTake.val.copyWrite.done.modCmd
      · exact trivial
      · exact trivial

theorem State.canonical.poisonDel {k} (h : s.canonical) : State.canonical { s with poison := AMap.del s.poison k } := by
  obtain ⟨hm, hf, hp, hq⟩ := h
  exact ⟨hm, hf, AMap.sorted_del _ _ hp, hq⟩

theorem State.canonical.beatRepair {cove c} (h : s.canonical) : (Machine.beatRepair s cove c).canonical :=
  .ite h (h.foldl fun _ _ h₁ => .ite h₁.poisonDel h₁)

theorem State.canonical.copyFault {cove id t} (h : s.canonical) : (Machine.copyFault s cove id t).canonical := by
  unfold Machine.copyFault
  split
  · exact h
  · exact .after (.modCmd (.ite h.audit h))

theorem State.canonical.runBeat {cove id n} (h : s.canonical) : (Machine.runBeat cove id n s).2.canonical := by
  induction n generalizing s cove id with
  | zero => exact h
  | succ n ih =>
    unfold Machine.runBeat
    split
    · exact h
    · split
      · exact h.copyEnd
      · split
        · exact h
        · exact h.copyFault
        · split
          · split
            · exact h.moveElem.done.copyEnd
            · exact ih h.moveElem.done
          · exact h.moveElem.done

theorem State.canonical.giveBeat {cove l} (h : s.canonical) : (Machine.giveBeat cove l s).canonical := by
  induction l generalizing s cove with
  | nil => exact h
  | cons a r ih =>
    unfold Machine.giveBeat
    dsimp only
    split
    · exact h.beatRepair.runBeat.of_pair.modCove
    · exact ih h

theorem State.canonical.execCopyBeat {cove} (h : s.canonical) : Out.canonical (Machine.execCopyBeat cove s) :=
  .next (.ite h.giveBeat.giveBeat.onceAfter h.giveBeat.giveBeat)

theorem State.canonical.startCopies {cove n} (h : s.canonical) : (Machine.startCopies cove n s).canonical := by
  induction n generalizing s cove with
  | zero => exact h
  | succ n ih =>
    unfold Machine.startCopies
    refine .ite h ?_
    dsimp only
    split
    · exact h
    · refine .ite (ih h.copyEnd) (ih (.onceAfter (.modCmd ?_)))
      split
      · exact h
      · split
        · exact h.pick
        · exact h.pick.pick

theorem State.canonical.execCopyStart {cove} (h : s.canonical) : Out.canonical (Machine.execCopyStart cove s) :=
  .next (.ite (h.foldl fun _ _ h₁ => h₁.copyFault) h.startCopies)

theorem State.canonical.execCopyComplete {cove id} (h : s.canonical) :
    Out.canonical (Machine.execCopyComplete cove id s) := by
  unfold Machine.execCopyComplete
  split
  · exact h
  · exact .ite h h.writeCw.modCove.onceAfter

theorem State.canonical.execCopyPause {cove id} (h : s.canonical) : Out.canonical (Machine.execCopyPause cove id s) := by
  unfold Machine.execCopyPause
  split
  · exact h
  · exact .ite h h.writeCw.modFeed

theorem State.canonical.copyStep {i vs rs1} (h : s.canonical) : Ends State.canonical (Machine.copyStep i vs rs1 s) :=
  .skip fun _ => .skip fun _ => .guard (.skipJoin fun _ => .skip fun _ => .ite
    (.skip fun _ => .skip fun _ => h.checkCw.bind fun _ h₁ => .ite (.pure h₁.releaseAt.applyControl.retire)
    (.ite (.pure h₁.holdOn) (.pure h₁.releaseAt.enqueueCopy.retire)))
    (h.checkCw.bind fun _ h₁ => .ite (.pure h₁.releaseAt.applyControl.retire)
    (.ite (.pure h₁.holdOn) (.pure h₁.releaseAt.enqueueCopy.retire))))

theorem State.canonical.execCpPost {vs rs1} (h : s.canonical) : Out.canonical (Machine.execCpPost vs rs1 s) :=
  h.commit h.copyStep

theorem State.canonical.execCpResume {vs rs1} (h : s.canonical) : Out.canonical (Machine.execCpResume vs rs1 s) :=
  h.commit h.copyStep

theorem State.canonical.execCpCancel {vs rs1} (h : s.canonical) : Out.canonical (Machine.execCpCancel vs rs1 s) :=
  h.commit h.copyStep

theorem State.canonical.bindBuoy {rk b y n} (h : s.canonical) : (Machine.bindBuoy s rk b y n).canonical := h.modRegion

theorem State.canonical.execCpBind {rs1 rs2} (h : s.canonical) : Out.canonical (Machine.execCpBind rs1 rs2 s) :=
  h.commit (.skip fun _ => .skip fun _ => .guard (.guard (.guard
    (.skip fun _ => .skip fun _ => .ite (.pure h.holdOn) (.pure h.bindBuoy.retire)))))

theorem State.canonical.execPost {rs1 rs2} (h : s.canonical) : Out.canonical (Machine.execPost rs1 rs2 s) :=
  h.commit (.skip fun _ => .skip fun _ => .guard (.skip fun _ => .skip fun _ => .pure h.sendBuoy.retire))

theorem State.canonical.takeQ {q e n k} (h : s.canonical) : Ends State.canonical (Machine.takeQ s q e n k) :=
  h.setQ.bind fun _ h₁ => .pure (.ite h₁ h₁.onceAfter)

theorem State.canonical.qTake {i q need_} (h : s.canonical) :
    Ends (fun p => Gives (·.2.canonical) p.1 ∧ p.2.canonical) (Machine.qTake i q s need_) :=
  .skip fun _ => .skip fun _ => .ite (.pure ⟨h, h⟩) (.ite (.skip fun _ => .pure ⟨.none, h.holdOn⟩)
    (h.takeQ.bind fun _ h₁ => .pure ⟨h₁, h⟩))

theorem State.canonical.execQGet {q rd} (h : s.canonical) : Out.canonical (Machine.execQGet q rd s) := by
  refine h.commit (h.qTake.bind fun ⟨r, _⟩ ⟨hr, h₁⟩ => ?_)
  cases r with
  | none => exact .pure h₁
  | some p => exact State.canonical.setX hr |>.bind fun _ h₂ => .pure h₂.retire

theorem State.canonical.execVqGet {q vd} (h : s.canonical) : Out.canonical (Machine.execVqGet q vd s) := by
  refine h.commit (h.qTake.bind fun ⟨r, _⟩ ⟨hr, h₁⟩ => ?_)
  cases r with
  | none => exact .pure h₁
  | some p => exact State.canonical.setV hr |>.bind fun _ h₂ => .pure h₂.retire

theorem State.canonical.execQStat {q rd} (h : s.canonical) : Out.canonical (Machine.execQStat q rd s) :=
  h.commit (.skip fun _ => h.setX.bind fun _ h₁ => .pure h₁.retire)

theorem State.canonical.closeQ {slot n} (h : s.canonical) : (Machine.closeQ s slot n).canonical := .ite h h.cancelCmd.modSlot

theorem State.canonical.closeAllQ {slot} (h : s.canonical) : (Machine.closeAllQ s slot).canonical :=
  h.foldl fun _ _ h₁ => h₁.closeQ

theorem State.canonical.execQClose {q} (h : s.canonical) : Out.canonical (Machine.execQClose q s) :=
  .next (.retire (.ite h.closeQ h))

end Sys2Proof.Machine
end

section
/-! The canonical form under the operations of Replay. -/

namespace Sys2Proof.Machine

-- one theorem at a time: many wait on each other, and each that waits holds a thread
set_option Elab.async false

variable {s : State}

theorem State.canonical.readRDesc {ag ill va} (h : s.canonical) : Ends (·.2.canonical) (Machine.readRDesc s ag ill va) :=
  .skip fun _ => h.homeWords.bind fun ⟨_, _⟩ h₁ => .guard (.skip fun _ => .skip fun _ => .pure h₁)

theorem State.canonical.rangeRead {ag n w n'} (h : s.canonical) : Ends (·.2.canonical) (Machine.rangeRead ag n s w n') := by
  induction n generalizing s ag w n' with
  | zero => exact .ok h
  | succ n ih =>
    unfold Machine.rangeRead
    refine .ite (.ok h) ?_
    dsimp only
    split
    · exact .error
    · split
      · exact .error
      · exact .ok (ih h.xlat.snd.atHome).snd

theorem State.canonical.rangeWritable {ag n w n'} (h : s.canonical) :
    Ends State.canonical (Machine.rangeWritable ag n s w n') := by
  induction n generalizing s ag w n' with
  | zero => exact .ok h
  | succ n ih =>
    unfold Machine.rangeWritable
    refine .ite (.ok h) ?_
    dsimp only
    split
    · exact .error
    · exact .ite (ih h.translate.snd) .error

theorem State.canonical.rangeEmpty {ag n w} (h : s.canonical) : (Machine.rangeEmpty ag n s w).2.canonical := by
  induction n generalizing s ag w with
  | zero => exact h
  | succ n ih =>
    unfold Machine.rangeEmpty
    split
    · exact h
    · exact ih (h.xlat.snd.atHome.foldl fun _ _ h₁ => h₁.setEmpty)

theorem State.canonical.rangeWrite {ag n w l} (h : s.canonical) : (Machine.rangeWrite ag n s w l).2.canonical := by
  induction n generalizing s ag w l with
  | zero => exact h
  | succ n ih =>
    unfold Machine.rangeWrite
    split
    · exact h
    · exact ih h.xlat.snd.putHome

theorem State.canonical.setRkey {quad vmid key e} (h : s.canonical) : (s.setRkey quad vmid key e).canonical := h.modQuad

theorem State.canonical.countSrp {quad vmid code} (h : s.canonical) : (s.countSrp quad vmid code).canonical := h.modQuad

theorem State.canonical.evictKeys {quad vmid key size n} (h : s.canonical) :
    (Machine.evictKeys quad vmid key size n s).canonical := by
  induction n generalizing s quad vmid key size with
  | zero => exact h
  | succ n ih =>
    unfold Machine.evictKeys
    refine .ite h ?_
    dsimp only
    split
    · exact h
    · exact ih h.setRkey.countSrp

theorem State.canonical.takeRef {quad vmid key d x n age} (h : s.canonical) :
    (Machine.takeRef s quad vmid key d x n age).2.canonical := by
  unfold Machine.takeRef
  dsimp only
  split
  · exact h.setRkey.evictKeys.setRkey
  · exact h.setRkey.evictKeys

theorem State.canonical.startReplay {ag quad key d e} (h : s.canonical) :
    (Machine.startReplay s ag quad key d e).canonical := by
  unfold Machine.startReplay
  split
  · exact h.rangeEmpty.of_pair.setRkey
  · exact h.rangeEmpty.of_pair.modQuad.after

theorem State.canonical.probeKey {ag quad ill key step va} (h : s.canonical) :
    Ends (·.2.2.canonical) (Machine.probeKey s ag quad ill key step va) := by
  refine h.readRDesc.bind fun ⟨_, _⟩ h₁ => h₁.rangeWritable.bind fun _ h₂ => h₂.rangeRead.bind fun ⟨_, s⟩ h₃ => ?_
  have ht {d x age} : (Machine.takeRef (s.countSrp quad ag.vmid 0) quad ag.vmid key d x step age).2.canonical :=
    h₃.countSrp.takeRef
  have hr {e d e'} : (Machine.startReplay (((s.countSrp quad ag.vmid 0).setRkey quad ag.vmid key e).countSrp quad ag.vmid 1)
      ag quad key
      d e').canonical := h₃.countSrp.setRkey.countSrp.startReplay
  dsimp only
  refine .pure (.trace (.frame ?_))
  refine .ite_snd ?_ (.ite_snd ?_ (.ite_snd ?_ ?_))
  exacts [ht.countSrp, hr, ht.countSrp, ht.countSrp]

theorem State.canonical.recordKey {ag quad key d} (h : s.canonical) : (Machine.recordKey s ag quad key d).canonical := by
  unfold Machine.recordKey
  refine .ite h ?_
  split
  · exact h
  · exact h.rangeRead.snd.modQuad.countSrp.after

theorem State.canonical.execSrpProbe {rd rs1 rs2} (h : s.canonical) : Out.canonical (Machine.execSrpProbe rd rs1 rs2 s) :=
  h.commit (.skip fun _ => .skip fun _ => .skip fun _ => .skip fun _ => .guard
    (.skip fun _ => .ite (.pure h.holdOn) (h.releaseAt.probeKey.bind fun ⟨_, _, _⟩ h₁ => h₁.setX.bind fun _ h₂ => .pure
    h₂.retireFor)))

theorem State.canonical.execSrpVerdict {slot} (h : s.canonical) : Out.canonical (Machine.execSrpVerdict slot s) := by
  unfold Machine.execSrpVerdict
  refine .next ?_
  split
  · exact h.modSlot
  · exact h

theorem State.canonical.execSrpRec {rs1 rs2} (h : s.canonical) : Out.canonical (Machine.execSrpRec rs1 rs2 s) :=
  h.commit (.skip fun _ => .skip fun _ => .skip fun _ => .skip fun _ => .ite (.pure h.holdOn)
    (h.readRDesc.bind fun ⟨_, _⟩ h₁ => .pure h₁.releaseAt.recordKey.stallFor.retire))

theorem State.canonical.dropKey {quad vmid key} (h : s.canonical) : (Machine.dropKey s quad vmid key).canonical := h.setRkey

theorem State.canonical.execSrpInv {rs1} (h : s.canonical) : Out.canonical (Machine.execSrpInv rs1 s) :=
  h.commit (.skip fun _ => .skip fun _ => .ite (.pure h.holdOn) (.pure h.dropKey.retire))

theorem State.canonical.execSrpInvAll (h : s.canonical) : Out.canonical (Machine.execSrpInvAll s) :=
  .next (.ite h.holdOn (h.foldl fun _ _ h₁ => h₁.dropKey).retire)

theorem State.canonical.execSrpStat {c rd} (h : s.canonical) : Out.canonical (Machine.execSrpStat c rd s) :=
  h.commit (h.setX.bind fun _ h₁ => .pure h₁.retire)

theorem State.canonical.execReplayCopyComplete {quad vmid key} (h : s.canonical) :
    Out.canonical (Machine.execReplayCopyComplete quad vmid key s) := by
  unfold Machine.execReplayCopyComplete
  split
  · exact h
  · exact .next (.ite h.rangeWrite.modQuad h.rangeWrite.modQuad.setRkey)

theorem State.canonical.execRecordCopyComplete {quad vmid key} (h : s.canonical) :
    Out.canonical (Machine.execRecordCopyComplete quad vmid key s) := by
  unfold Machine.execRecordCopyComplete
  split
  · exact h
  · exact h.modQuad.setRkey

end Sys2Proof.Machine
end

section
/-! The canonical form under the operations of NodesEng. -/

namespace Sys2Proof.Machine

-- one theorem at a time: many wait on each other, and each that waits holds a thread
set_option Elab.async false

variable {s : State}

theorem State.canonical.execGPost {n} (h : s.canonical) : Out.canonical (Machine.execGPost n s) :=
  h.runNode fun _ _ h₁ => .skip fun _ => h₁.xlat.liftT.bind fun ⟨_, _⟩ h₂ => .pure h₂.pendOn

theorem State.canonical.readGat {f gat} (h : s.canonical) : Ends (·.2.canonical) (Machine.readGat s f gat) :=
  .skip fun _ => h.argWords.liftT.bind fun ⟨_, _⟩ h₁ => .skip fun _ => .pure h₁

theorem State.canonical.execGGat {n} (h : s.canonical) : Out.canonical (Machine.execGGat n s) :=
  h.runNode fun _ _ h₁ => .skip fun _ => h₁.readGat.bind fun ⟨_, _⟩ h₂ => .skip fun _ => .pure h₂.pendOn

theorem State.canonical.execGSct {n} (h : s.canonical) : Out.canonical (Machine.execGSct n s) :=
  h.runNode fun _ _ h₁ => .skip fun _ => h₁.readGat.bind fun ⟨_, _⟩ h₂ => .skip fun _ => .pure h₂.pendOn.sendCount

theorem State.canonical.execGCpy {n} (h : s.canonical) : Out.canonical (Machine.execGCpy n s) :=
  h.runNode fun _ _ h₁ => .skip fun _ => .skip fun _ => h₁.argWords.liftT.bind fun ⟨_, _⟩ h₂ => .skip fun _ =>
    h₂.checkCw.liftT.bind fun _ h₃ => .pure h₃.pendOn

theorem State.canonical.execGTadv {n} (h : s.canonical) : Out.canonical (Machine.execGTadv n s) :=
  h.runNode fun _ _ h₁ => h₁.translate.liftT.bind fun ⟨_, _⟩ h₂ => .skip fun _ => .pure h₂.pendOn

theorem State.canonical.execGProbe {n} (h : s.canonical) : Out.canonical (Machine.execGProbe n s) := by
  unfold Machine.execGProbe
  refine h.runNode fun _ _ h₁ => .skip fun _ => .skip fun _ => ?_
  split
  · exact .pure h₁.sendOut
  · exact .skip fun _ => h₁.gRelease.probeKey.liftT.bind fun ⟨_, _, _⟩ h₂ => .pure h₂.modRegion.sendOut

theorem State.canonical.execGRec {n} (h : s.canonical) : Out.canonical (Machine.execGRec n s) :=
  h.runNode fun _ _ h₁ => .skip fun _ => .skip fun _ => h₁.readRDesc.liftT.bind fun ⟨_, _⟩ h₂ => h₂.homeWords.liftT.bind
    fun ⟨_, _⟩ h₃ => .pure h₃.pendOn

end Sys2Proof.Machine
end

section
/-! The canonical form under the operations of Streams. -/

namespace Sys2Proof.Machine

-- one theorem at a time: many wait on each other, and each that waits holds a thread
set_option Elab.async false

variable {s : State}

theorem State.canonical.modLoopOf {f g} (h : s.canonical) : (Machine.modLoopOf s f g).canonical := h.modCell

theorem State.canonical.genOwner {f a} (h : s.canonical) : (Machine.genOwner s f a).canonical := by
  unfold Machine.genOwner
  dsimp only
  split
  · exact h
  · exact .ite h.translate.snd.acbDrain h.translate.snd.ownerHome

theorem State.canonical.genRead {f a n} (h : s.canonical) : Ends (·.2.canonical) (Machine.genRead s f a n) := by
  unfold Machine.genRead
  dsimp only
  split
  · exact h.genOwner.readAs
  · refine .ite .error ?_
    split
    · exact .error
    · exact .ok h
  · split
    · exact .error
    · exact .ok h

theorem State.canonical.genWrite {f a bs} (h : s.canonical) : Ends State.canonical (Machine.genWrite s f a bs) := by
  unfold Machine.genWrite
  dsimp only
  split
  · exact h.genOwner.writeAs
  · refine .ite .error ?_
    split
    · exact .error
    · exact .ok h.mWrite.get
  · split
    · exact .error
    · exact .ok h.localWrite.get

theorem State.canonical.genWords {f a n} (h : s.canonical) : Ends (·.2.canonical) (Machine.genWords s f a n) := by
  induction n generalizing s f a with
  | zero => exact .ok h
  | succ n ih =>
    unfold Machine.genWords
    split
    · exact .error
    · split
      · exact .error
      · exact .ok (ih h.genRead.snd).snd

theorem State.canonical.genIn {f ft d first n} (h : s.canonical) : Ends (·.2.canonical) (Machine.genIn s f ft d first n) := by
  induction n generalizing s f ft d first with
  | zero => exact .ok h
  | succ n ih => exact .skip fun _ => h.genRead.bind fun ⟨_, _⟩ h₁ => (ih h₁).bind fun ⟨_, _⟩ h₂ => .pure h₂

theorem State.canonical.genAhead {f ft d first n} (h : s.canonical) : (Machine.genAhead s f ft d first n).2.canonical := by
  induction n generalizing s f ft d first with
  | zero => exact h
  | succ n ih =>
    unfold Machine.genAhead
    split
    · exact h
    · exact ih h.genIn.snd

theorem State.canonical.genWindow {f ft d gen v lanes} (h : s.canonical) :
    Ends (·.2.1.canonical) (Machine.genWindow s f ft d gen v lanes) := h.genIn.bind fun ⟨_, _⟩ h₁ => .pure
    h₁.genAhead.modLoopOf

theorem State.canonical.genOut {f ft d first l} (h : s.canonical) :
    Ends State.canonical (Machine.genOut s f ft d first l) := by
  induction l generalizing s f ft d first with
  | nil => exact .ok h
  | cons a r ih => exact .skip fun _ => h.genWrite.bind fun _ h₁ => ih h₁

theorem State.canonical.execGSgen {n} (h : s.canonical) : Out.canonical (Machine.execGSgen n s) := by
  unfold Machine.execGSgen
  refine h.runNode fun _ _ h₁ => ?_
  dsimp only
  split
  · exact .skip fun _ => h₁.genWords.liftT.bind fun ⟨_, _⟩ h₂ => .pure h₂.modLoopOf
  · refine .ite h₁.genOut.liftT ?_
    refine Ends.bind (P := (·.2.1.canonical)) (.liftT (.ite h₁.genWindow ?_)) fun ⟨_, _, _⟩ h₂ => .pure h₂.sendOut
    exact h₁.genIn.map fun _ h₂ => h₂

theorem State.canonical.execGRpt {n} (h : s.canonical) : Out.canonical (Machine.execGRpt n s) :=
  h.runNode fun _ _ h₁ => .ok h₁.modLoopOf

theorem State.canonical.execGCnt {n} (h : s.canonical) : Out.canonical (Machine.execGCnt n s) :=
  h.runNode fun _ _ h₁ => .ok h₁.modLoopOf

theorem State.canonical.sendControl {f t finish} (h : s.canonical) : (Machine.sendControl s f t finish).canonical := by
  unfold Machine.sendControl
  split
  · exact h
  · exact h.after

theorem State.canonical.execGCtok {n} (h : s.canonical) : Out.canonical (Machine.execGCtok n s) :=
  h.runNode fun _ _ h₁ => .ok h₁.sendControl.sendControl

theorem State.canonical.fireCtoks {rk x y l finish} (h : s.canonical) : (Machine.fireCtoks s rk x y l finish).canonical :=
  h.foldl fun _ _ h₁ => h₁.fireAfter

theorem State.canonical.execControlTokenArrival {rk ik idx finish} (h : s.canonical) :
    Out.canonical (Machine.execControlTokenArrival rk ik idx finish s) := by
  unfold Machine.execControlTokenArrival
  refine .next ?_
  split
  · exact h.recordArc.get
  · exact h.modCell.settle
  · exact h

theorem State.canonical.setLineWord {rk x y pl o v} (h : s.canonical) :
    Ends State.canonical (Machine.setLineWord s rk x y pl o v) := by
  unfold Machine.setLineWord
  dsimp only
  split
  · split
    · exact .error
    · exact .ok h.modCell
  · split
    · exact .ok (Ends.get (P := State.canonical) (.skipMap fun _ => h.modCell))
    · exact .error
  · split
    · exact .ok h.mPut.get
    · exact .error

theorem State.canonical.setLineWords {rk x y pl o l} (h : s.canonical) :
    Ends State.canonical (Machine.setLineWords s rk x y pl o l) := by
  induction l generalizing s rk x y pl o with
  | nil => exact .ok h
  | cons a r ih =>
    unfold Machine.setLineWords
    split
    · exact .error
    · exact ih h.setLineWord.get

theorem State.canonical.dlyInit {rk l x y b idx n} (h : s.canonical) :
    Ends State.canonical (Machine.dlyInit s rk l x y b idx n) :=
  .ite (.skip fun _ => h.setLineWords.bind fun _ h₁ =>
      (Ends.foldlM (P := State.canonical) h₁ fun _ _ h₂ => h₂.setLineWord).bind fun _ h₃ => .pure h₃.modCell)
    (.ite (.pure h.modCell) (h.setLineWords.bind fun _ h₁ => .pure h₁.modCell))

theorem State.canonical.dlyInits {rk l x y b l'} (h : s.canonical) :
    Ends State.canonical (Machine.dlyInits s rk l x y b l') := by
  induction l' generalizing s rk l x y b with
  | nil => exact .ok h
  | cons a r ih =>
    unfold Machine.dlyInits
    split
    · exact .error
    · exact ih h.dlyInit.get

theorem State.canonical.dlySend {f t n ft pay} (h : s.canonical) : (Machine.dlySend s f t n ft pay).canonical := h.sendT

theorem State.canonical.chunkStep {n f l step} (h : s.canonical) : Ends State.canonical (Machine.chunkStep n f l step s) :=
  .ite (.skip fun _ => .skip fun _ => .bind (P := State.canonical) (.pure h.dlySend.addFlags) fun _ h₁ => .ite (.pure h₁)
    (.skipJoin fun _ => h₁.setLineWords.bind fun _ h₂ => .ite (.pure h₂.dlySend.addFlags)
    (.skip fun _ => h₂.dlySend.addFlags.setLineWords.bind fun _ h₃ => .pure h₃.modLoopOf.addFlags)))
    (.bind (P := State.canonical) (.pure h) fun _ h₁ => .ite (.pure h₁)
    (.skipJoin fun _ => h₁.setLineWords.bind fun _ h₂ => .ite (.pure h₂.dlySend.addFlags)
    (.skip fun _ => h₂.dlySend.addFlags.setLineWords.bind fun _ h₃ => .pure h₃.modLoopOf.addFlags)))

theorem State.canonical.delayStep {n f l step} (h : s.canonical) : Ends State.canonical (Machine.delayStep n f l step s) :=
  h.setLineWords.bind fun _ h₁ => .pure h₁.modLoopOf

theorem State.canonical.execGDly {n} (h : s.canonical) : Out.canonical (Machine.execGDly n s) :=
  h.runNode fun _ _ h₁ => .ite .error (.liftT (.ite h₁.chunkStep h₁.delayStep))

theorem State.canonical.execGMxp {n} (h : s.canonical) : Out.canonical (Machine.execGMxp n s) := by
  unfold Machine.execGMxp
  refine h.runNode fun _ _ h₁ => .ite ?_ (.skip fun _ => .skip fun _ => .pure h₁.modCore)
  split
  · exact .error
  · exact .skip fun _ => .pure h₁.modCell.sendOut

theorem State.canonical.execGFin {n} (h : s.canonical) : Out.canonical (Machine.execGFin n s) :=
  h.runNode fun _ _ h₁ => .ok h₁.sendStart

theorem State.canonical.dropKeeps {rk x y blk} (h : s.canonical) : (Machine.dropKeeps s rk x y blk).canonical :=
  .ite h h.modRegion

theorem State.canonical.dlyStart {f n} (h : s.canonical) : (Machine.dlyStart s f n).canonical :=
  .ite (h.foldl fun _ _ h₁ => h₁.dlySend) h

theorem State.canonical.execStreamLoopStart {rk ik cell} (h : s.canonical) :
    Out.canonical (Machine.execStreamLoopStart rk ik cell s) := by
  unfold Machine.execStreamLoopStart
  refine .next ?_
  split
  · exact h.recordArc.get
  · exact h
  · refine .ite h ?_
    split
    · exact h.gFault.settle
    · dsimp only
      split
      · exact h.gFault.settle
      · exact (h.dropKeeps.dlyInits.get.modCell.foldl fun _ _ h₁ => h₁.dlyStart).fireCtoks.settle

theorem State.canonical.execStreamLoopFinish {rk ik cell} (h : s.canonical) :
    Out.canonical (Machine.execStreamLoopFinish rk ik cell s) := by
  unfold Machine.execStreamLoopFinish
  refine .next ?_
  split
  · exact h.recordArc.get
  · exact h
  · exact .ite h h.modCell.fireCtoks.settle

end Sys2Proof.Machine
end

section
/-! The canonical form under the operations of Commit. -/

namespace Sys2Proof.Machine

-- one theorem at a time: many wait on each other, and each that waits holds a thread
set_option Elab.async false

variable {s : State}

theorem State.canonical.lateTrap {f t} (h : s.canonical) : (Machine.lateTrap s f t).canonical := .lateFault (.ite h.audit h)

theorem State.canonical.orLate {f r} (h : s.canonical) (hr : Ends State.canonical r) : (Machine.orLate s f r).canonical := by
  cases r with
  | ok t => exact hr
  | error t => exact h.lateTrap

theorem State.canonical.performStore {p bs} (h : s.canonical) : (Machine.performStore s p bs).canonical := by
  unfold Machine.performStore
  refine h.orLate ?_
  split
  · exact h.ownerWriteLate
  · split
    · exact .error
    · split
      · exact .error
      · exact .ok h.mWrite.get
  · exact h.localWrite
  · exact .error

theorem State.canonical.performIwr {p} (h : s.canonical) : (Machine.performIwr s p).canonical := by
  unfold Machine.performIwr
  dsimp only
  split
  · split
    · exact h.lateTrap
    · exact .ite h.translate.snd.ownerHome.countEcc (.ite h.translate.snd.ownerHome.lateFault
          h.translate.snd.ownerHome.putHome)
  · exact .ite h.lateFault h.performStore
  · exact h.lateFault

theorem State.canonical.performAmo {p n} (h : s.canonical) : (Machine.performAmo s p n).canonical := by
  unfold Machine.performAmo
  extract_lets f a k op cas v e s₁
  have h₁ : s₁.canonical := .ite h.gRelease h
  clear_value s₁
  split
  · split
    · exact h₁.lateTrap
    · have h₂ := h₁.xlat.snd (by assumption)
      split
      have h₃ := h₂.ownerHome.amoAt.of_triple (by assumption)
      exact .sendOut (.regionFlags (.ite h₃.gAcquire h₃))
  · extract_lets r
    clear_value r
    split
    · exact h₁.lateTrap
    · split
      extract_lets s₂ s₃
      have h₂ : s₂.canonical := by
        unfold s₂
        split
        · exact h₁
        · exact h₁.orLate h₁.mWrite
      exact .sendOut (.regionFlags (.ite h₂.gAcquire h₂))
  · exact h₁.lateFault

theorem State.canonical.performLkg {p n} (h : s.canonical) : (Machine.performLkg s p n).canonical := by
  unfold Machine.performLkg
  dsimp only
  split
  · exact h.lateFault
  · exact .ite h.lateFault h.gRelease.lockPass.trimPool

theorem State.canonical.performMcomb {p n} (h : s.canonical) : (Machine.performMcomb s p n).canonical := by
  unfold Machine.performMcomb
  dsimp only
  split
  · exact h.lateFault
  · split
    · exact h.gRelease.combine.get
    · split
      · exact h.gRelease.lateTrap
      · exact h.gRelease.poolRoom.get.mRestamp.mSet.modCell

theorem State.canonical.purgeAll {rk c} (h : s.canonical) : (Machine.purgeAll s rk c).canonical := h.modCells.modRegion

theorem State.canonical.performCall {p n} (h : s.canonical) : Perf.canonical (Machine.performCall s p n) := by
  unfold Machine.performCall
  extract_lets f c s₁ ag rg at_ head res
  have h₁ : s₁.canonical := h.gRelease
  have hr : Ends State.canonical res := h₁.homePuts.bind fun _ h₂ => h₂.homePuts.bind fun _ h₃ =>
    h₃.xlat.bind fun ⟨_, _⟩ h₄ => .pure h₄.setEmpty
  clear_value res
  obtain t | t := res
  · exact h₁.lateTrap
  · have h₂ : t.canonical := hr
    dsimp only
    split
    · exact h₂.postStart.sent.sendT
    · exact h₂.lateTrap
    · exact h₂.lateFault

theorem State.canonical.performCcall {p n} (h : s.canonical) : Perf.canonical (Machine.performCcall s p n) := by
  unfold Machine.performCcall
  dsimp only
  split
  · exact h.gRelease.lateTrap
  · refine .ite (h.gRelease.writeHeader.bind fun _ h₁ => h₁.homePuts).get.callbackAppend.sendOut ?_
    split
    · exact (h.gRelease.writeHeader.bind fun _ h₁ => h₁.homePuts).get.pushBottom.get.sendOut
    · exact .ite h.gRelease h.gRelease.count.modInst

theorem State.canonical.performFfree {p} (h : s.canonical) : (Machine.performFfree s p).canonical := by
  unfold Machine.performFfree
  dsimp only
  split
  · exact h.gRelease.lateFault
  · split
    · exact h.gRelease.freeCheck.get.lateTrap
    · exact .ite h.gRelease.freeCheck.get.freeFrame.get.endContext h.gRelease.freeCheck.get.freeFrame.get

theorem State.canonical.performRet {p n} (h : s.canonical) : (Machine.performRet s p n).canonical := by
  unfold Machine.performRet
  extract_lets f fr ag nres s₁ r
  have h₁ : s₁.canonical := h.gRelease
  have hr : Ends (·.2.canonical) r := h₁.homeLoad.bind fun ⟨_, _, _⟩ h₂ => h₂.xlat.bind fun ⟨_, _⟩ h₃ => .pure h₃
  clear_value r
  obtain t | ⟨_ | _, t⟩ := r
  · exact h₁.lateTrap
  · have h₂ : t.canonical := hr
    dsimp only
    split
    · exact h₂.lateTrap
    · exact (Ends.get (P := State.canonical) (.ite (.ok h₂) h₂.ownerWrite)).gRelease.finishFrame.endContext
  · exact State.canonical.lateFault hr

theorem State.canonical.performPost {p} (h : s.canonical) : Perf.canonical (Machine.performPost s p) := by
  unfold Machine.performPost
  dsimp only
  split
  · exact h.lateFault
  · refine .ite h.modInst ?_
    split
    · exact h.lateTrap
    · exact show State.canonical _ from .modRegion (.ite h.translate.snd.countEcc h.translate.snd.l2Write)

theorem State.canonical.performCopy {p} (h : s.canonical) : Perf.canonical (Machine.performCopy s p) :=
  .ite h.gRelease.applyControl (.ite h h.gRelease.enqueueCopy)

theorem State.canonical.performTadv {p} (h : s.canonical) : (Machine.performTadv s p).canonical := by
  unfold Machine.performTadv
  dsimp only
  split
  · exact h.gRelease.tideArrive
  · exact h.gRelease

theorem State.canonical.performRec {p} (h : s.canonical) : Perf.canonical (Machine.performRec s p) :=
  .ite h h.gRelease.recordKey

theorem State.canonical.perform {p} (h : s.canonical) : Perf.canonical (Machine.perform s p) := by
  unfold Machine.perform
  dsimp only
  split
  · exact h.performStore
  · exact h.gRelease.performStore
  · exact h.performIwr
  · exact h.performAmo
  · exact h.performLkg
  · exact h.performMcomb
  · exact h.orLate h.ownerWriteLate
  · exact h.purgeAll
  · exact h.sendT.sendT
  · exact h.performCall
  · exact h.performCcall
  · exact h.performFfree
  · exact h.performRet
  · exact h.performPost
  · exact h.performCopy
  · exact h.performCopy
  · exact h.performCopy
  · exact h.performTadv
  · exact h.performRec
  · exact h

theorem State.canonical.markDone {rk ik p} (h : s.canonical) : (Machine.markDone s rk ik p).canonical := h.modInst

theorem State.canonical.runPends {rk ik x y again n} (h : s.canonical) :
    (Machine.runPends rk ik x y again n s).canonical := by
  induction n generalizing s rk ik x y again with
  | zero => exact h
  | succ n ih =>
    unfold Machine.runPends
    dsimp only
    split
    · exact h
    · refine .ite h ?_
      split
      · exact h
      · exact h.onceAfter
      · split
        · exact ih h.perform.done.markDone
        · exact h.perform.wait.onceAfter
        · exact h.perform.held

theorem State.canonical.execCommitToken {rk ik cell} (h : s.canonical) :
    Out.canonical (Machine.execCommitToken rk ik cell s) := by
  unfold Machine.execCommitToken
  refine .next ?_
  split
  · exact h.recordArc.get
  · split
    · exact h
    · exact h.runPends.settle

theorem State.canonical.keepLines {rk ik} (h : s.canonical) : (Machine.keepLines s rk ik).canonical := by
  unfold Machine.keepLines
  refine h.foldl fun _ _ h₁ => ?_
  split
  · refine .ite h₁ ?_
    split
    dsimp only
    split
    · exact h₁
    · refine h₁.foldl fun _ _ h₂ => ?_
      split
      · exact h₂
      · exact h₂.modRegion
  · exact h₁

theorem State.canonical.commitStream {rk ik} (h : s.canonical) : (Machine.commitStream s rk ik).canonical := by
  unfold Machine.commitStream
  refine .modCells (h.gRelease.keepLines.foldl fun _ _ h₁ => ?_)
  split
  · exact h₁.fireAfter
  · exact h₁

theorem State.canonical.dropKept {rk ik} (h : s.canonical) : (Machine.dropKept s rk ik).canonical := h.modCells.modRegion

theorem State.canonical.sendCommits {rk ik} (h : s.canonical) : (Machine.sendCommits s rk ik).canonical := by
  unfold Machine.sendCommits
  dsimp only
  split
  · exact h
  · exact h.foldl fun _ _ h₁ => h₁.onceAfter

theorem State.canonical.execInstanceCommit {rk ik} (h : s.canonical) :
    Out.canonical (Machine.execInstanceCommit rk ik s) := by
  unfold Machine.execInstanceCommit
  refine .next ?_
  split
  · exact h.recordArc.get
  · exact h
  · exact .ite h (.settle (.sendCommits (.ite h.modRegion.modInst.regionFlags.dropKept.commitStream
        h.modRegion.modInst.regionFlags.dropKept)))

theorem State.canonical.report {rk k} (h : s.canonical) : (Machine.report s rk k).canonical := by
  unfold Machine.report
  extract_lets t rg ag fr
  split
  next ok s' e =>
  have h₁ : s'.canonical := by
    split at e
    · exact h.of_pair e
    · split at e
      · exact State.canonical.of_pair (p := (_, _)) h.ringAppend.get.msix e
      · exact State.canonical.of_pair (p := (_, _)) h.ringDrop e
  refine .sendMsg ?_
  split
  · exact h₁.homeStore.get
  · exact h₁.count

theorem State.canonical.execGFaultReport {rk ik} (h : s.canonical) : Out.canonical (Machine.execGFaultReport rk ik s) := by
  unfold Machine.execGFaultReport
  dsimp only
  split
  · exact h
  · exact .next (.settle (.report (.ite h.modRegion h.modRegion.rollback)))

end Sys2Proof.Machine
end

section
/-! The canonical form under the operations of Drain. -/

namespace Sys2Proof.Machine

-- one theorem at a time: many wait on each other, and each that waits holds a thread
set_option Elab.async false

variable {s : State}

theorem State.canonical.mxPortWait {op i mark} (h : s.canonical) : (Machine.mxPortWait s op i mark).canonical :=
  h.mxPut.holdOn

theorem State.canonical.execMxDrn {td rs1} (h : s.canonical) : Out.canonical (Machine.execMxDrn td rs1 s) := by
  unfold Machine.execMxDrn
  refine h.mxExec (.skip fun _ => .skip fun _ => .skip fun _ => .skip fun _ => .guard (.guard (.skip fun _ => ?_)))
  split
  dsimp only
  split
  · exact .skip fun _ => .skip fun _ => .pure h.modMyCore.mxQueue
  · exact h.checkAll.bind fun ⟨_, _⟩ h₁ => .pure h₁.writeAll.mxQueue
  · refine .ite (.ite (.pure h.mxQueue) (.pure h.mxPortWait)) ?_
    split
    · exact .error
    · exact .ite (.pure h.mxPortWait) (.ite (.pure h.modCell.mxQueue) (.pure h.modCell.mxPortWait))

theorem State.canonical.scrubSel {sel} (h : s.canonical) : (Machine.scrubSel s sel).canonical := by
  unfold Machine.scrubSel
  dsimp only
  split
  · exact h.modMyCore
  · exact h.modMe
  · exact h.modMe
  · exact h.modMe
  · exact h.modMe
  · exact h.modMyCore
  · exact (h.foldl fun _ _ h₁ => h₁.closeQ).modMe
  · exact h.modMyCore

theorem State.canonical.execGenScrub {sp rs1} (h : s.canonical) : Out.canonical (Machine.execGenScrub sp rs1 s) :=
  h.commit (.skip fun _ => .skip fun _ => .skip fun _ => .skip fun _ => .ite (.pure h.holdOn) (.pure h.scrubSel.retire))

end Sys2Proof.Machine
end

section
/-! The canonical form under the operations of Spawn. -/

namespace Sys2Proof.Machine

-- one theorem at a time: many wait on each other, and each that waits holds a thread
set_option Elab.async false

variable {s : State}

theorem State.canonical.frameRead {f} (h : s.canonical) : Ends (·.2.canonical) (Machine.frameRead s f) :=
  .skip fun _ => h.homeWords.bind fun ⟨_, _⟩ h₁ => h₁.xlat.bind fun ⟨_, _⟩ h₂ => .skip fun _ => .pure h₂

theorem State.canonical.frameWrite {f n} (h : s.canonical) : Ends (·.2.2.canonical) (Machine.frameWrite s f n) :=
  .skip fun _ => h.homeWords.bind fun ⟨_, _⟩ h₁ => h₁.xlat.bind fun ⟨_, _⟩ h₂ => h₂.xlat.bind fun ⟨_, _⟩ h₃ => h₃.xlat.bind
    fun ⟨_, _⟩ h₄ => .skip fun _ => .pure h₄

theorem State.canonical.callDesc {p} (h : s.canonical) : Ends (·.2.canonical) (Machine.callDesc s p) :=
  .skip fun _ => h.readDesc.bind fun ⟨_, _⟩ h₁ => .skip fun _ => .pure h₁

theorem State.canonical.startOrMoor {i p f sent} (h : s.canonical) (hs : ∀ s, s.canonical → (sent s).canonical) :
    Ends State.canonical (Machine.startOrMoor s i p f sent) := by
  unfold Machine.startOrMoor
  split
  · exact .ok (hs _ h.postStart.sent)
  · exact .ok h.holdOn
  · exact .error
  · exact .error

theorem State.canonical.countChild {caller f} (h : s.canonical) : Ends State.canonical (Machine.countChild s caller f) :=
  .ite (.pure h) (h.homeLoad.bind fun ⟨_, _, _⟩ h₁ => .skip fun _ => .pure h₁.putHome)

theorem State.canonical.execFork {d rs1 rs2} (h : s.canonical) : Out.canonical (Machine.execFork d rs1 rs2 s) := by
  unfold Machine.execFork
  refine h.commit (.skip fun _ => .skip fun _ => ?_)
  split
  · exact h.startOrMoor fun _ h₁ => h₁.retire
  · refine h.frameWrite.bind fun ⟨_, _, _⟩ h₁ => .skip fun _ => .join (P := State.canonical)
        (h₁.callDesc.bind fun ⟨_, _⟩ h₂ => .pure h₂) (.pure h₁) fun _ h₂ => .skip fun _ => h₂.releaseAt.homeStore.bind
        fun _ h₃ => h₃.homeStore.bind fun _ h₄ => h₄.homeStore.bind fun _ h₅ => h₅.setEmpty.countChild.bind fun _ h₆ => .ite
        (h₆.startOrMoor fun _ h₇ => h₇.retire) ?_
    dsimp only
    split
    · exact .pure h₆.pushBottom.get.retire
    · exact .error

theorem State.canonical.holdJoin {k i f} (h : s.canonical) : (Machine.holdJoin s k i f).canonical :=
  .ite h.holdOn h.holdOn.dropDuties.after

theorem State.canonical.execJoin {rs1} (h : s.canonical) : Out.canonical (Machine.execJoin rs1 s) := by
  unfold Machine.execJoin
  refine h.commit ?_
  split
  · exact .pure h.acquireAt.retire
  · exact .skip fun _ => h.frameRead.bind fun ⟨_, _⟩ h₁ => .ite (.pure h₁.acquireAt.retire) (.pure h₁.holdJoin)

theorem State.canonical.takeResult {i p f} (h : s.canonical) : Ends State.canonical (Machine.takeResult s i p f) :=
  h.xlat.bind fun ⟨_, _⟩ h₁ => .ite (.pure h₁.atHome.holdJoin)
    (.skip fun _ => h₁.atHome.acquireAt.homeWords.bind fun ⟨_, _⟩ h₂ => h₂.freeCheck.bind fun _ h₃ => .bind
    (P := State.canonical) (Ends.foldlM (P := State.canonical) h₃ fun _ _ h₄ => h₄.setX) fun _ h₄ => h₄.freeFrame.bind
    fun _ h₅ => .pure h₅.retire)

theorem State.canonical.callFrame {n narg args} (h : s.canonical) :
    Ends (·.2.canonical) (Machine.callFrame s n narg args) := .skip fun _ => h.newFrame.bind fun ⟨_, _⟩ h₁ =>
    h₁.homePuts.bind fun _ h₂ => .pure h₂.releaseAt

theorem State.canonical.execXcall {rs1} (h : s.canonical) : Out.canonical (Machine.execXcall rs1 s) := by
  unfold Machine.execXcall
  refine h.commit (.skip fun _ => ?_)
  dsimp only
  split
  · exact h.startOrMoor fun _ h₁ => h₁.holdJoin
  · exact h.takeResult
  · split
    · exact h.setX.bind fun _ h₁ => .pure h₁.jumpTo
    · exact .skip fun _ => h.callDesc.bind fun ⟨_, _⟩ h₁ => h₁.callFrame.bind fun ⟨_, _⟩ h₂ => h₂.startOrMoor fun _ h₃ =>
          h₃.holdJoin
    · exact .skip fun _ => .skip fun _ => h.callFrame.bind fun ⟨_, _⟩ h₁ => .pure h₁.callbackAppend.holdJoin
    · exact .error

theorem State.canonical.finishTask {vmid cove f retp caller} (h : s.canonical) :
    (Machine.finishTask s vmid cove f retp caller).canonical := .ite (.ite h.orElse_homeStore h.orElse_homeStore.actRetp)
    (.decJoin (.ite h.orElse_homeStore h.orElse_homeStore.actRetp))

theorem State.canonical.execXret {rs1} (h : s.canonical) : Out.canonical (Machine.execXret rs1 s) :=
  h.commit (.skip fun _ => .skip fun _ => h.frameWrite.bind fun ⟨_, _, _⟩ h₁ => .guard
    (.skip fun _ => .join (P := State.canonical) (.pure h₁) (h₁.xlat.bind fun ⟨_, _⟩ h₂ => .pure h₂) fun _ h₂ =>
    h₂.releaseAt.homePuts.bind fun _ h₃ => .pure h₃.finishTask.slotIdle))

theorem State.canonical.execFrmNew {rd rs1} (h : s.canonical) : Out.canonical (Machine.execFrmNew rd rs1 s) :=
  h.commit (.skip fun _ => .skip fun _ => h.newFrame.bind fun ⟨_, _⟩ h₁ => h₁.setX.bind fun _ h₂ => .pure h₂.retire)

theorem State.canonical.execFrmFree {rs1} (h : s.canonical) : Out.canonical (Machine.execFrmFree rs1 s) :=
  h.commit (.skip fun _ => .skip fun _ => h.freeCheck.bind fun _ h₁ => h₁.freeFrame.bind fun _ h₂ => .pure h₂.retire)

theorem State.canonical.assignSlot {n q} (h : s.canonical) : (Machine.assignSlot s n q).canonical :=
  .ite h (h.closeAllQ.foldl fun _ _ h₁ => h₁.count).modTenant.modSlot

theorem State.canonical.takeEntry {core e} (h : s.canonical) : (Machine.takeEntry s core e).2.canonical := by
  unfold Machine.takeEntry
  split
  · exact h.modCore
  · split
    · exact h.unspill
    · exact h

theorem State.canonical.resumePop {q i} (h : s.canonical) : (Machine.resumePop s q i).canonical := by
  unfold Machine.resumePop
  dsimp only
  split
  · exact h
  · next e =>
    have h₁ := h.homeLoad.trd e
    exact .ite h₁.orElse_homeStore.orElse_homeStore h₁.orElse_homeStore

theorem State.canonical.startEntry {n e lat} (h : s.canonical) : Gives State.canonical (Machine.startEntry s n e lat) := by
  unfold Machine.startEntry
  refine .ite (.some h.modSlot.after) ?_
  split
  · exact .none
  · dsimp only
    split
    · exact .some h.takeStack.trd.acquireAt.modSlot.frame.takeTrap
    · exact .some (.ite h.takeStack.trd.acquireAt.modSlot h.takeStack.trd.acquireAt.modSlot.after)

theorem State.canonical.stackWait {n} (h : s.canonical) : (Machine.stackWait s n).canonical := h.count.modSlot

theorem State.canonical.popTake {n q} (h : s.canonical) : Gives (·.2.canonical) (Machine.popTake s n q) := by
  unfold Machine.popTake
  dsimp only
  split
  · exact .some h.resumePop
  · exact .skipMap fun _ => h.dequeRefill.takeEntry

theorem State.canonical.stealTake {n q} (h : s.canonical) : Gives (·.2.2.canonical) (Machine.stealTake s n q) :=
  .skipMap fun _ => h.takeEntry

theorem State.canonical.popWork {n} (h : s.canonical) : Gives State.canonical (Machine.popWork s n) :=
  h.popTake.map fun ⟨_, _⟩ h₁ => h₁.startEntry.getD h.stackWait

theorem State.canonical.stealWork {n} (h : s.canonical) : Gives State.canonical (Machine.stealWork s n) :=
  h.stealTake.map fun ⟨_, _, _⟩ h₁ => h₁.startEntry.getD h.stackWait

theorem State.canonical.execDequePop {slot} (h : s.canonical) : Out.canonical (Machine.execDequePop slot s) :=
  .next (.ite (h.popWork.getD h) h)

theorem State.canonical.execDequeSteal {slot} (h : s.canonical) : Out.canonical (Machine.execDequeSteal slot s) :=
  .next (.ite (h.stealWork.getD h) h)

theorem State.canonical.writeRange {ag n w l} (h : s.canonical) : Ends State.canonical (Machine.writeRange ag n s w l) := by
  induction n generalizing s ag w l with
  | zero => exact .ok h
  | succ n ih =>
    unfold Machine.writeRange
    split
    · exact .ok h
    · dsimp only
      split
      · exact .error
      · exact ih h.xlat.snd.putHome

theorem State.canonical.readRange {ag n w n'} (h : s.canonical) : Ends (·.2.canonical) (Machine.readRange ag n s w n') := by
  induction n generalizing s ag w n' with
  | zero => exact .ok h
  | succ n ih =>
    unfold Machine.readRange
    refine .ite (.ok h) ?_
    dsimp only
    split
    · exact .error
    · split
      · exact .error
      · exact .ok (ih h.xlat.snd.atHome).snd

theorem State.canonical.park {n k f i} (h : s.canonical) : Gives State.canonical (Machine.park s n k f i) := by
  unfold Machine.park
  refine .ite ?_ ?_
  · split
    · exact .none
    · exact .ite .none (.some h.homeLoad.trd.putHome)
  · split
    · exact .none
    · exact .ite .none h.xlat.snd.homeStore.toOption

theorem State.canonical.startSave {j} (h : s.canonical) : Gives State.canonical (Machine.startSave s j) := by
  refine Gives.map (P := State.canonical) ?_ fun t h₁ => .after (.modSlot (.modCore (.modTenant ?_)))
  · split
    · exact h.park
    · exact h.park
    · exact .some h
  · split
    · exact h₁.releaseAt.withdrawWaits
    · exact h₁.releaseAt

theorem State.canonical.beginEvict {n push next} (h : s.canonical) : (Machine.beginEvict s n push next).2.canonical := by
  unfold Machine.beginEvict
  dsimp only
  split
  · exact h
  · split
    · exact h.count
    · split
      · exact h.freeIndex.snd.count
      · split
        · split
          · exact h
          · exact h.freeIndex.snd.startSave.get
        · exact h.freeIndex.snd.modCore.after

theorem State.canonical.unpark {vmid cove f i} (h : s.canonical) : (Machine.unpark s vmid cove f i).canonical := by
  unfold Machine.unpark
  refine .ite h ?_
  split
  · exact .ite (.orElse_homeStore (.ite h.homeWords.snd.orElse_homeStore h.homeWords.snd))
        (.ite h.homeWords.snd.orElse_homeStore h.homeWords.snd)
  · exact h

theorem State.canonical.mapQueues {f} (h : s.canonical) (hf : ∀ k q, (f k q).window = q.window) :
    State.canonical { s with queues := AMap.mapV s.queues f } := by
  obtain ⟨hm, he, hp, hq⟩ := h
  refine ⟨hm, he, hp, fun q hq' => ?_⟩
  obtain ⟨p, hp', rfl⟩ := List.mem_map.1 hq'
  exact hf p.1 p.2 ▸ hq p hp'

theorem State.canonical.dropEntries {p} (h : s.canonical) : (Machine.dropEntries s p).canonical := by
  have h₁ := h.mapQueues (f := fun _ q => { q with spilled := q.spilled.filter fun e => !p e.ent }) fun _ _ => rfl
  exact h₁.frame

theorem State.canonical.dropContinuation {vmid i} (h : s.canonical) : (Machine.dropContinuation s vmid i).canonical :=
  h.dropEntries

theorem State.canonical.giveBack {core next} (h : s.canonical) : (Machine.giveBack s core next).canonical := by
  unfold Machine.giveBack
  split
  · exact h.pushBottom.getD h.modCore
  · exact h

theorem State.canonical.execSpillSaveComplete {slot} (h : s.canonical) :
    Out.canonical (Machine.execSpillSaveComplete slot s) := by
  unfold Machine.execSpillSaveComplete
  extract_lets core v vmid s₁ f ag
  have h₁ : s₁.canonical := h.modCore
  clear_value ag s₁
  split
  · refine .ite h (.ite (.next (.ite (h.startSave.getD h.modCore) (.ite h.after h.modCore))) ?_)
    split
    · exact h₁
    · extract_lets
      split
      · exact h₁.count.unpark.dropContinuation.modTenant.modSlot.giveBack
      · have h₂ := h₁.writeRange.get (by assumption)
        extract_lets s₂ s₃
        have h₃ : s₃.canonical := by
          unfold s₃
          split
          · exact h₂.modSlot.modCore
          · exact h₂.modSlot
        clear_value s₃
        exact .next (.ite h₃.pushContinuation h₃)
  · exact h

theorem State.canonical.execSpillRestore {slot} (h : s.canonical) : Out.canonical (Machine.execSpillRestore slot s) := by
  unfold Machine.execSpillRestore
  split
  · refine .ite h.after ?_
    split
    · exact h.slotIdle
    · dsimp only
      split
      · exact h.modTenant.modSlot.endTask
      · exact h.modTenant.acquireAt.dropOlds.readRange.snd.modSlot
  · exact h

theorem State.canonical.execJoinwinExpiry {slot} (h : s.canonical) : Out.canonical (Machine.execJoinwinExpiry slot s) := by
  unfold Machine.execJoinwinExpiry
  refine .next ?_
  split
  · exact .ite h.beginEvict (.ite h.after h.beginEvict.after)
  · exact .ite h.beginEvict (.ite h.after h.beginEvict.after)
  · exact h

theorem State.canonical.setDeficit {core q d} (h : s.canonical) : (s.setDeficit core q d).canonical := h.modCore

theorem State.canonical.takeFor {n q} (h : s.canonical) : Gives (·.2.canonical) (Machine.takeFor s n q) := by
  unfold Machine.takeFor
  split
  · next e => exact e ▸ h.popTake
  · exact h.stealTake.map fun _ h₁ => h₁

theorem State.canonical.giveSlot {n q} (h : s.canonical) : (Machine.giveSlot s n q).2.canonical := by
  unfold Machine.giveSlot
  dsimp only
  split
  · split
    · exact h.assignSlot.popWork.get
    · exact h.assignSlot.stealWork.getD h.assignSlot
  · split
    · exact h.beginEvict.of_pair
    · split
      · exact h.beginEvict.of_pair
      · exact h.beginEvict.of_pair.takeFor.snd.modCore

theorem State.canonical.assignClass {core a w l} (h : s.canonical) : (Machine.assignClass core a w l s).canonical := by
  induction l generalizing s core a w with
  | nil => exact h
  | cons a r ih =>
    unfold Machine.assignClass
    split
    · exact ih h
    · split
      · exact ih h.giveSlot.of_pair.setDeficit
      · exact ih h.giveSlot.of_pair

theorem State.canonical.boundaryClass {core slots cls} (h : s.canonical) :
    (Machine.boundaryClass core slots cls s).canonical := h.modCore.assignClass.foldl fun _ _ h₁ => h₁.setDeficit

theorem State.canonical.startKept {n} (h : s.canonical) : (Machine.startKept s n).canonical := by
  unfold Machine.startKept
  split
  · exact h
  · dsimp only
    split
    · exact h.modCore
    · split
      · exact h.modCore.assignSlot.startEntry.get
      · exact h.modCore.assignSlot.modCore.stackWait

theorem State.canonical.execRotationBoundary {core} (h : s.canonical) :
    Out.canonical (Machine.execRotationBoundary core s) := by
  unfold Machine.execRotationBoundary
  refine .ite h (.next (.frame (.ite ?_ (h.foldl fun _ _ h₁ =>
      h₁.startKept).boundaryClass.boundaryClass.boundaryClass.boundaryClass)))
  split
  · exact (h.foldl fun _ _ h₁ => h₁.startKept).boundaryClass.boundaryClass.boundaryClass.boundaryClass.beginEvict
  · exact (h.foldl fun _ _ h₁ => h₁.startKept).boundaryClass.boundaryClass.boundaryClass.boundaryClass

end Sys2Proof.Machine
end

section
/-! The canonical form under the operations of Image. -/

namespace Sys2Proof.Machine

-- one theorem at a time: many wait on each other, and each that waits holds a thread
set_option Elab.async false

variable {s : State}

theorem State.canonical.readBlock {ag va} (h : s.canonical) : Ends (·.2.2.canonical) (Machine.readBlock s ag va) := by
  unfold Machine.readBlock
  split
  · exact .error
  · split
    · exact .error
    · exact .ok h.readRange.snd.readRange.snd

theorem State.canonical.readCell {ag no va} (h : s.canonical) : Ends (·.2.canonical) (Machine.readCell s ag no va) := by
  unfold Machine.readCell
  split
  · exact .error
  · refine .ite (.ok h.readRange.snd) ?_
    split
    · exact .error
    · exact .ok h.readRange.snd.readRange.snd

theorem State.canonical.readCells {ag w count va n n'} (h : s.canonical) :
    Ends (·.2.2.2.canonical) (Machine.readCells s ag w count va n n') := by
  induction n generalizing s ag w count va n' with
  | zero => exact .ok h
  | succ n ih =>
    unfold Machine.readCells
    refine .ite (.ok h) ?_
    split
    · exact .error
    · refine .ite (.ok h.readCell.snd) (.ite (.ok h.readCell.snd) ?_)
      split
      · exact .error
      · exact .ok (ih h.readCell.snd).fth

theorem State.canonical.readBlocks {ag l} (h : s.canonical) : Ends (·.2.canonical) (Machine.readBlocks s ag l) := by
  induction l generalizing s ag with
  | nil => exact .ok h
  | cons a r ih =>
    unfold Machine.readBlocks
    split
    · exact .error
    · split
      · exact .error
      · exact .ok (ih h.readBlock.trd).snd

theorem State.canonical.readBuoys {ag va n} (h : s.canonical) : Ends (·.2.canonical) (Machine.readBuoys s ag va n) := by
  induction n generalizing s ag va with
  | zero => exact .ok h
  | succ n ih =>
    unfold Machine.readBuoys
    split
    · exact .error
    · split
      · exact .error
      · exact .ok (ih h.readRange.snd).snd

theorem State.canonical.checkRecord {ag va shape} (h : s.canonical) :
    Ends Checked.canonical (Machine.checkRecord s ag va shape) := by
  unfold Machine.checkRecord
  split
  · exact .error
  · next e =>
    have h₁ := h.readRange.snd e
    refine .ite (.ok h₁) (.ite (.ok h₁) ?_)
    dsimp only
    split
    · exact .error
    · exact .ok (h₁.readCells.fth (by assumption))
    · next e₂ =>
      have h₂ := h₁.readCells.fth e₂
      refine .ite (.ok h₂) (.ite (.ok h₂) ?_)
      split
      · exact .ok h₂
      · exact .ok h₂
      · split
        · exact .error
        · next t e₃ =>
          have h₃ : t.canonical := by
            refine Ends.trd ?_ e₃
            exact h₂.readRange.bind fun ⟨_, _⟩ h₃ => h₃.readBlocks.bind fun ⟨_, _⟩ h₄ => h₄.readBuoys.bind fun ⟨_, _⟩ h₅ =>
                .pure h₅
          split
          · exact .ok h₃
          · split
            · exact .ok h₃
            · exact .ok h₃

end Sys2Proof.Machine
end

section
/-! The canonical form under the operations of Placement. -/

namespace Sys2Proof.Machine

-- one theorem at a time: many wait on each other, and each that waits holds a thread
set_option Elab.async false

variable {s : State}

theorem State.canonical.putEntry {rk ws} (h : s.canonical) : (Machine.putEntry s rk ws).canonical :=
  h.foldl fun _ _ h₁ => h₁.orElse_homeStore

theorem State.canonical.writeEntry {rk} (h : s.canonical) : (Machine.writeEntry s rk).canonical := h.putEntry

theorem State.canonical.ownCells {keys o} (h : s.canonical) : (Machine.ownCells s keys o).canonical :=
  h.foldl fun _ _ h₁ => h₁.modCell

theorem State.canonical.reserve {rk h qid} (hs : s.canonical) : (Machine.reserve s rk h qid).canonical :=
  hs.setRegion.ownCells.putEntry

theorem State.canonical.retryPlacer {quad} (h : s.canonical) : (Machine.retryPlacer s quad).canonical := .ite h h.onceAfter

theorem State.canonical.retryAll (h : s.canonical) : (Machine.retryAll s).canonical := h.foldl fun _ _ h₁ => h₁.retryPlacer

theorem State.canonical.freeCells {rk} (h : s.canonical) : (Machine.freeCells s rk).canonical :=
  .retryAll (.ite h.ownCells h.ownCells.setRegion.writeEntry)

theorem State.canonical.writeCells {h l} (hs : s.canonical) : Ends State.canonical (Machine.writeCells s h l) := by
  unfold Machine.writeCells
  split
  · exact .error
  · exact .ok (hs.foldl fun _ _ h₂ => h₂.modCell)

theorem State.canonical.writeCells_error {k l st t} (h : s.canonical) (e : Machine.writeCells s k l = .error (st, t)) :
    t.canonical := by
  unfold Machine.writeCells at e
  split at e
  · cases e
    exact h.foldl fun _ _ h₁ => h₁.modCell
  · cases e

theorem State.canonical.deliverMoored {vmid desc} (h : s.canonical) : (Machine.deliverMoored s vmid desc).canonical := by
  unfold Machine.deliverMoored
  split
  · exact .ite h.readDesc.snd h.readDesc.snd.onceAfter
  · exact h

theorem State.canonical.putPlaced {rk desc h} (hs : s.canonical) : (Machine.putPlaced s rk desc h).canonical :=
  hs.orElse_homeStore

theorem State.canonical.bindDesc {rk desc} (h : s.canonical) : (Machine.bindDesc s rk desc).canonical :=
  h.modRegion.putPlaced.deliverMoored

theorem State.canonical.loadImage {rk m troot} (h : s.canonical) : (Machine.loadImage s rk m troot).2.canonical := by
  unfold Machine.loadImage
  dsimp only
  split
  · exact h
  · split
    · next e => exact h.writeCells_error e
    · exact h.writeCells.get.modRegion.writeEntry.putEntry.gRelease

theorem State.canonical.killContext {rk c cause write} (h : s.canonical) :
    (Machine.killContext s rk c cause write).canonical := by
  unfold Machine.killContext
  refine .endContext (.finishFrame (.modRegion (.ite h ?_)))
  split
  · exact h.homeStore.get
  · exact h.count

theorem State.canonical.finishCommitted {rk} (h : s.canonical) : (Machine.finishCommitted s rk).canonical := by
  unfold Machine.finishCommitted
  refine h.foldl fun _ _ h₁ => h₁.foldl fun _ _ h₂ => ?_
  split
  · exact h₂.perform.done.markDone
  · exact h₂.perform.wait
  · exact h₂.perform.held

theorem State.canonical.sendHands {rk} (h : s.canonical) : (Machine.sendHands s rk).canonical :=
  .ite h.modRegion.freeCells (h.modRegion.foldl fun _ _ h₁ => h₁.after)

theorem State.canonical.dropBuoyCopies {rk} (h : s.canonical) : (Machine.dropBuoyCopies s rk).canonical :=
  h.foldl fun _ _ h₁ => h₁.foldl fun _ _ h₂ => h₂.copyFault

theorem State.canonical.releaseRegion {rk} (h : s.canonical) : (Machine.releaseRegion s rk).canonical := by
  unfold Machine.releaseRegion
  extract_lets rg s₁ s₂ s₃ s₄ queued s₅ s₆ s₇ gen held s₈ s₉
  have h₃ : s₃.canonical := (h.finishCommitted.foldl fun _ _ h₁ => h₁.killContext).foldl fun _ _ h₁ => h₁.putPlaced
  have h₅ : s₅.canonical := h₃.dropDuties.dropBuoyCopies.foldl fun _ _ h₁ => h₁.count
  have h₈ : s₈.canonical := h₅.gRelease.frame.setRegion
  have h₉ : s₉.canonical := .ite h₈.sendHands (.ite h₈.freeCells h₈.setRegion.writeEntry)
  exact h₉.endGeneration.modMgmt

theorem State.canonical.execHandoverToken {rk x y} (h : s.canonical) :
    Out.canonical (Machine.execHandoverToken rk x y s) := .ite h (.next (.ite h.modRegion.freeCells h.modRegion))

theorem State.canonical.placerDone {n} (h : s.canonical) : (Machine.placerDone s n).canonical := h.retireFor

theorem State.canonical.imageOperand {p} (h : s.canonical) : Ends (·.2.2.canonical) (Machine.imageOperand s p) := by
  unfold Machine.imageOperand
  refine .ite (.ok h) (.ite ?_ .error)
  split
  · exact .ok h.readDesc.snd
  · exact .error

theorem State.canonical.plcAnswer {rd v n} (h : s.canonical) :
    Ends State.canonical (do let s ← s.setX rd v; return Machine.placerDone s n : Except Trap State) :=
  h.setX.bind fun _ h₁ => .pure h₁.placerDone

theorem State.canonical.execPlcFind {rd rs1} (h : s.canonical) : Out.canonical (Machine.execPlcFind rd rs1 s) := by
  refine h.commit (.skip fun _ => .skip fun _ => .guard ?_)
  dsimp only
  split
  · refine .ite h.plcAnswer (.ite h.reserve.plcAnswer ?_)
    split
    · exact h.newGen.of_pair.reserve.plcAnswer
    · exact .pure h.newGen.of_pair.holdOn
  · exact h.plcAnswer

theorem State.canonical.bindAny {rk} {d : Option Word} (h : s.canonical) :
    (match d with | some d => Machine.bindDesc s rk d | none => s).canonical := by
  cases d with
  | some d => exact h.bindDesc
  | none => exact h

theorem State.canonical.execPlcLoad {rd rs1 rs2} (h : s.canonical) : Out.canonical (Machine.execPlcLoad rd rs1 rs2 s) := by
  refine h.commit (.skip fun _ => .skip fun _ => .skip fun _ => .guard (h.imageOperand.bind fun ⟨_, _, _⟩ h₁ => ?_))
  dsimp only
  split
  · exact h₁.plcAnswer
  · refine .ite h₁.bindAny.plcAnswer (.ite h₁.plcAnswer (h₁.checkRecord.bind fun c hc => ?_))
    cases c with
    | bad st t => exact State.canonical.plcAnswer hc
    | good m t =>
      have h₂ : t.canonical := hc
      exact State.canonical.plcAnswer (.ite h₂.loadImage.bindAny h₂.loadImage)

theorem State.canonical.execPlcRel {rs1} (h : s.canonical) : Out.canonical (Machine.execPlcRel rs1 s) := by
  unfold Machine.execPlcRel
  refine h.commit (.skip fun _ => .skip fun _ => .guard ?_)
  split
  · exact .pure h.placerDone
  · exact .pure h.releaseRegion.placerDone

theorem State.canonical.putCfgst {h st} (hs : s.canonical) : (Machine.putCfgst s h st).canonical :=
  .putEntry (.ite hs hs.modRegion)

theorem State.canonical.recount {rk c now key crc} (h : s.canonical) : (Machine.recount s rk c now key crc).canonical :=
  h.modCell.modRegion

theorem State.canonical.cfgRecord {k va} (h : s.canonical) : Ends State.canonical (Machine.cfgRecord s k va) := by
  unfold Machine.cfgRecord
  dsimp only
  split
  · exact .ok h.putCfgst.placerDone
  · split
    · exact .error
    · split
      · exact .ok h.readCell.snd.putCfgst.placerDone
      · exact .ok h.readCell.snd.modCell.recount.modRegion.writeEntry.placerDone

theorem State.canonical.cfgRestamp {k g} (h : s.canonical) : (Machine.cfgRestamp s k g).canonical := by
  unfold Machine.cfgRestamp
  dsimp only
  split
  · exact h.placerDone
  · exact .ite h.placerDone h.modCell.recount.writeEntry.placerDone

theorem State.canonical.cfgWrite {i rs1 rs2} (h : s.canonical) : Ends State.canonical (Machine.cfgWrite i rs1 rs2 s) :=
  .skip fun _ => .skip fun _ => .skip fun _ => .guard (.ite (.guard (.pure h.cfgRestamp)) (.skip fun _ => h.cfgRecord))

theorem State.canonical.execCfgWr {rs1 rs2} (h : s.canonical) : Out.canonical (Machine.execCfgWr rs1 rs2 s) :=
  h.commit h.cfgWrite

theorem State.canonical.execCfgWrRestamp {rs1 rs2} (h : s.canonical) :
    Out.canonical (Machine.execCfgWrRestamp rs1 rs2 s) := h.commit h.cfgWrite

theorem State.canonical.execCfgChk {rd rs1} (h : s.canonical) : Out.canonical (Machine.execCfgChk rd rs1 s) := by
  refine h.commit (.skip fun _ => .skip fun _ => h.imageOperand.bind fun ⟨_, _, _⟩ h₁ => h₁.checkRecord.bind fun c hc => ?_)
  cases c with
  | bad st t => exact (State.canonical.setX hc).bind fun _ h₂ => .pure h₂.placerDone
  | good m t => exact (State.canonical.setX hc).bind fun _ h₂ => .pure h₂.placerDone

theorem State.canonical.execPlacerComplete {slot} (h : s.canonical) : Out.canonical (Machine.execPlacerComplete slot s) :=
  h.modSlot

theorem State.canonical.gctxCheck {i rs1} (h : s.canonical) : Ends (·.2.2.2.canonical) (Machine.gctxCheck s i rs1) := by
  unfold Machine.gctxCheck
  refine .skip fun _ => .skip fun _ => .skip fun _ => .skip fun _ => h.homeLoad.bind fun ⟨_, _, _⟩ h₁ => ?_
  split
  split
  · exact .skip fun _ => .pure h₁.of_triple
  · exact .error

theorem State.canonical.resumeCtx {rk p} (h : s.canonical) : (Machine.resumeCtx s rk p).canonical :=
  (h.modRegion.frame.foldl fun _ _ h₁ => .ite h₁.sendCommits (.ite h₁.activate h₁)).settle

theorem State.canonical.execGctxRes {rs1} (h : s.canonical) : Out.canonical (Machine.execGctxRes rs1 s) :=
  h.commit (h.gctxCheck.bind fun ⟨_, _, _, _⟩ h₁ => .skip fun _ => h₁.releaseAt.homeStore.bind fun _ h₂ => .pure
    h₂.resumeCtx.retire)

theorem State.canonical.execGctxKill {rs1} (h : s.canonical) : Out.canonical (Machine.execGctxKill rs1 s) :=
  h.commit (h.gctxCheck.bind fun ⟨_, _, _, _⟩ h₁ => .pure h₁.releaseAt.killContext.settle.retire)

end Sys2Proof.Machine
end

section
/-! The canonical form under the operations of Wave. -/

namespace Sys2Proof.Machine

-- one theorem at a time: many wait on each other, and each that waits holds a thread
set_option Elab.async false

variable {s : State}

theorem State.canonical.startWave {rk back} (h : s.canonical) : (Machine.startWave s rk back).canonical :=
  .ite h (h.foldl fun _ _ h₁ => h₁.putPlaced).modRegion.after

theorem State.canonical.execCellSave {rk x y} (h : s.canonical) : Out.canonical (Machine.execCellSave rk x y s) := by
  unfold Machine.execCellSave
  dsimp only
  split
  · exact h
  · exact .ite h (.ite h.after (.next (.ite (.onceAfter (.ite (.after (.ite h.acbFlush.modRegion.after h.acbFlush.modRegion))
        (.ite h.acbFlush.modRegion.after h.acbFlush.modRegion)))
        (.ite (.after (.ite h.acbFlush.modRegion.after h.acbFlush.modRegion))
        (.ite h.acbFlush.modRegion.after h.acbFlush.modRegion)))))

theorem State.canonical.execSlackWaveEnd {rk} (h : s.canonical) : Out.canonical (Machine.execSlackWaveEnd rk s) := by
  unfold Machine.execSlackWaveEnd
  dsimp only
  split
  · exact h
  · exact .ite h (.ite h.after (.next (.ite h.gRelease.modRegion.frame.writeEntry.sendHands.askPlacer
        h.gRelease.modRegion.frame.writeEntry.sendHands)))

theorem State.canonical.putCells {rk im} (h : s.canonical) : (Machine.putCells s rk im).canonical :=
  h.foldl fun _ _ h₁ => .ite (h₁.modCell.foldl fun _ _ h₂ => h₂.after) (h₁.modCell.foldl fun _ _ h₂ => h₂.after).onceAfter

theorem State.canonical.dropPlace {rk} (h : s.canonical) : (Machine.dropPlace s rk).canonical := h.ownCells.retryAll

theorem State.canonical.restored {rk im coves} (h : s.canonical) :
    State.canonical (List.foldl (fun s c => s.dropOlds c) (State.modRegion { Machine.putCells s rk im with
      duties := (Machine.putCells s rk im).duties ++ im.arcs.map fun a =>
      { due := (Machine.putCells s rk im).clk + 1, work := a.work } }
      rk fun r => { r with st := 3, image := none }) coves) :=
  .foldl (.modRegion h.putCells.frame) fun _ _ h₁ => h₁.dropOlds

theorem State.canonical.execRegionRestore {rk} (h : s.canonical) : Out.canonical (Machine.execRegionRestore rk s) := by
  unfold Machine.execRegionRestore
  dsimp only
  split
  · exact h
  · refine .ite h ?_
    split
    · exact h.dropPlace
    · exact .next ((h.checkRecord.get (by assumption)).bad rfl).dropPlace
    · next e =>
      have h₁ := (h.checkRecord.get e).good rfl
      split
      · next e => exact .next (h₁.writeCells_error e).dropPlace
      · exact .next (State.canonical.settle (.foldl (.lockPassAll h₁.writeCells.get.restored.writeEntry) fun _ _ h₃ =>
            h₃.bindDesc))

theorem State.canonical.makePlace {quad cls mask w h fused} (hs : s.canonical) :
    (Machine.makePlace s quad cls mask w h fused).canonical := by
  unfold Machine.makePlace
  dsimp only
  split
  · exact hs
  · exact hs.foldl fun _ _ h₂ => h₂.startWave

theorem State.canonical.askRestore {quad r rk} (h : s.canonical) : Asked.canonical (Machine.askRestore s quad r rk) := by
  unfold Machine.askRestore
  dsimp only
  split
  · exact h
  · split
    · exact h
    · split
      · exact h.makePlace
      · exact h.modRegion.ownCells.writeEntry.after

theorem State.canonical.askPlace {quad r d} (h : s.canonical) : Asked.canonical (Machine.askPlace s quad r d) := by
  unfold Machine.askPlace
  dsimp only
  split
  · exact h
  · exact (h.checkRecord.get (by assumption)).bad rfl
  · next e =>
    have h₁ := (h.checkRecord.get e).good rfl
    split
    · exact h₁.makePlace
    · exact h₁
    · split
      · exact h₁.newGen.of_pair
      · have h₂ := h₁.newGen.of_pair (by assumption)
        split
        · exact h₂.reserve.loadImage.modRegion.bindDesc
        · exact h₂.reserve.loadImage.modRegion.freeCells

theorem State.canonical.askOne {quad r} (h : s.canonical) : Asked.canonical (Machine.askOne s quad r) := by
  unfold Machine.askOne
  split
  · exact h.askRestore
  · split
    · split
      · exact h
      · exact h.askRestore
    · split
      · exact h
      · split
        · exact h.readDesc.snd
        · exact h.readDesc.snd.askPlace

theorem State.canonical.execPlacementRequest {quad} (h : s.canonical) :
    Out.canonical (Machine.execPlacementRequest quad s) := by
  unfold Machine.execPlacementRequest
  refine h.foldl fun _ _ h₁ => ?_
  split
  · exact h₁.askOne.done.modQuad
  · exact h₁.askOne.wait

theorem State.canonical.takeOver {key slot} (h : s.canonical) : (Machine.takeOver s key slot).2.canonical := h.modCell

theorem State.canonical.overlayFault {rk blk ms cause addr} (h : s.canonical) :
    (Machine.overlayFault s rk blk ms cause addr).canonical := h.foldl fun _ _ h₁ => h₁.ensureInst.gFault

theorem State.canonical.execOverlayLoadComplete {rk x y slot} (h : s.canonical) :
    Out.canonical (Machine.execOverlayLoadComplete rk x y slot s) := by
  unfold Machine.execOverlayLoadComplete
  refine .ite h ?_
  dsimp only
  split
  · exact h.takeOver.overlayFault.settle
  · split
    · exact h.takeOver.overlayFault.settle
    · exact .ite h.takeOver.readBlock.trd.overlayFault.settle
          (.ite h.takeOver.readBlock.trd.overlayFault.settle
          (h.takeOver.readBlock.trd.modCell.foldl fun _ _ h₁ => h₁.arrive).settle)

theorem State.canonical.sendMoored {rk ag desc d ws} (h : s.canonical) :
    (Machine.sendMoored s rk ag desc d ws).canonical := by
  unfold Machine.sendMoored
  split
  · exact h.badToken
  · exact .ite h.ringDrop.staleAt (.ite h.after h.after)

theorem State.canonical.execMoorDelivery {vmid desc} (h : s.canonical) :
    Out.canonical (Machine.execMoorDelivery vmid desc s) := by
  unfold Machine.execMoorDelivery
  dsimp only
  split
  · exact h
  · refine .ite h.readDesc.snd ?_
    split
    · exact h.readDesc.snd
    · exact .next (.ite h.readDesc.snd.ringPop.sendMoored.settle.onceAfter h.readDesc.snd.ringPop.sendMoored.settle)

end Sys2Proof.Machine
end

section
/-! The canonical form under the operations of Launch. -/

namespace Sys2Proof.Machine

-- one theorem at a time: many wait on each other, and each that waits holds a thread
set_option Elab.async false

variable {s : State}

theorem State.canonical.execPacketIngress {q slot w} (h : s.canonical) :
    Out.canonical (Machine.execPacketIngress q slot w s) := h.slotWrite

theorem State.canonical.execQueueWindowWrite {q off data} (h : s.canonical) :
    Out.canonical (Machine.execQueueWindowWrite q off data s) := h.windowWrite

theorem State.canonical.execTsyncWrite {ptm t1588} (h : s.canonical) :
    Out.canonical (Machine.execTsyncWrite ptm t1588 s) := h.tsyncPut.tsyncPut

theorem State.canonical.execRegisterWriteIgnored {_off} (h : s.canonical) :
    Out.canonical (Machine.execRegisterWriteIgnored _off s) := h

theorem State.canonical.execMsixUnmask {fn vec} (h : s.canonical) : Out.canonical (Machine.execMsixUnmask fn vec s) :=
  h.modMgmt

theorem State.canonical.hostWakes {pa n} (h : s.canonical) : (Machine.hostWakes s pa n).canonical := by
  unfold Machine.hostWakes
  refine h.foldl fun _ _ h₁ => ?_
  split
  split
  · dsimp only
    split
    · exact .ite h₁.homeLoad.trd.orElse_homeStore.pushContinuation h₁
    · exact h₁
  · exact h₁

theorem State.canonical.execHostMemoryAccess {write pa n data} (h : s.canonical) :
    Out.canonical (Machine.execHostMemoryAccess write pa n data s) := by
  unfold Machine.execHostMemoryAccess
  refine .ite h ?_
  split
  · exact h
  · exact .next (.ite h h.homeWrite.hostWakes)

theorem State.canonical.consume {q} (h : s.canonical) : (Machine.consume s q).canonical := h.modQueue rfl

theorem State.canonical.endPacket {q done status} (h : s.canonical) : (Machine.endPacket s q done status).canonical :=
  .wakeQueue (.ite h.consume.launchComplete h.consume.count.launchComplete)

theorem State.canonical.launchFrame {ag q p} (h : s.canonical) : Gives State.canonical (Machine.launchFrame s ag q p) := by
  unfold Machine.launchFrame
  split
  · exact .none
  · exact .some (h.writeHeader.get.modQueue rfl)

theorem State.canonical.dispatchPkt {q check start} (h : s.canonical)
    (hd : ∀ ag p s, s.canonical → Dispatched.canonical (start ag p s)) :
    Out.canonical (Machine.dispatchPkt s q check start) := by
  refine .ite h (.ite h.endPacket (.ite (h.modQueue rfl).after (.ite h.endPacket ?_)))
  have hs := hd (s.devAgent (s.queue q).vmid 0) (launchPkt (packetBytes (s.queue q) ((s.queue q).cons.toNat % 64))) s h
  split
  · exact h.endPacket
  · exact (hs.held.modQueue rfl).after
  · exact hs.go.consume.wakeQueue

theorem State.canonical.startTask {q ag p} (h : s.canonical) : Dispatched.canonical (Machine.startTask q ag p s) := by
  unfold Machine.startTask
  dsimp only
  split
  · exact trivial
  · split
    · exact h.launchFrame.get.pushBottom.get
    · exact show State.canonical _ from .ite h (h.count.modQueue rfl)

theorem State.canonical.execLTaskLaunch {q} (h : s.canonical) : Out.canonical (Machine.execLTaskLaunch q s) :=
  h.dispatchPkt fun _ _ _ h₁ => h₁.startTask

theorem State.canonical.startGraph {q ag p} (h : s.canonical) : Dispatched.canonical (Machine.startGraph q ag p s) := by
  unfold Machine.startGraph
  split
  · exact trivial
  · split
    · exact h.launchFrame.get.postStart.sent
    · exact h
    · exact trivial

theorem State.canonical.execGLaunch {q} (h : s.canonical) : Out.canonical (Machine.execGLaunch q s) :=
  h.dispatchPkt fun _ _ _ h₁ => h₁.startGraph

end Sys2Proof.Machine
end

section
/-! The canonical form under the operations of Fence. -/

namespace Sys2Proof.Machine

-- one theorem at a time: many wait on each other, and each that waits holds a thread
set_option Elab.async false

variable {s : State}

theorem State.canonical.debugWrite {o bs g} (h : s.canonical) : (Machine.debugWrite s o bs g).canonical := by
  unfold Machine.debugWrite
  dsimp only
  split
  · exact h.modCore
  · exact h.modCell
  · exact h.modCell
  · exact h.modSlot
  · exact h.modSlot
  · exact h.modSlot
  · exact h.modSlot
  · exact h.modCore
  · exact h.modCore
  · exact h.modCell

theorem State.canonical.wrapGens (h : s.canonical) : (Machine.wrapGens s).canonical := h.frame.modMgmt

theorem State.canonical.execGenWrapComplete (h : s.canonical) : Out.canonical (Machine.execGenWrapComplete s) :=
  .next (.ite h.wrapGens h)

theorem State.canonical.fenceCore {core} (h : s.canonical) : (Machine.fenceCore s core).canonical := by
  unfold Machine.fenceCore
  refine .modCore (.foldl ?_ fun _ _ h₁ => h₁.giveBack)
  split
  · exact (h.modCore.foldl fun _ _ h₁ => .modSlot (.ite h₁.withdrawWaits.endTask h₁.withdrawWaits)).giveBack
  · exact h.modCore.foldl fun _ _ h₁ => .modSlot (.ite h₁.withdrawWaits.endTask h₁.withdrawWaits)

theorem State.canonical.endPinned {core} (h : s.canonical) : (Machine.endPinned s core).canonical := by
  unfold Machine.endPinned
  refine h.foldl fun _ _ h₁ => h₁.foldl fun _ _ h₂ => ?_
  dsimp only
  split
  · exact h₂.modTenant.dropContinuation.giveStack.count
  · exact h₂.modTenant.dropContinuation.giveStack.homeStore.get.finishFrame

theorem State.canonical.parkFenced {rk cell c} (h : s.canonical) : (Machine.parkFenced s rk cell c).canonical :=
  .ite h.modRegion h.modRegion.report

theorem State.canonical.fenceRegion {rk cell} (h : s.canonical) : (Machine.fenceRegion s rk cell).canonical :=
  .ite h.startWave (h.foldl fun _ _ h₁ => h₁.parkFenced)

theorem State.canonical.fenceEngines {cove} (h : s.canonical) : (Machine.fenceEngines s cove).canonical :=
  h.modCove.foldl fun _ _ h₁ => h₁.copyFault

theorem State.canonical.fenceUnit {level n} (h : s.canonical) : (Machine.fenceUnit s level n).canonical :=
  .foldl (.foldl (.ite ((h.modMgmt.foldl fun _ _ h₁ => h₁.modCell).foldl fun _ _ h₁ => h₁.fenceCore.endPinned).fenceEngines
    ((h.modMgmt.foldl fun _ _ h₁ => h₁.modCell).foldl fun _ _ h₁ => h₁.fenceCore.endPinned)) fun _ _ h₁ => h₁.fenceRegion)
    fun _ _ h₁ => h₁.msix

theorem State.canonical.unfenceUnit {level n} (h : s.canonical) : (Machine.unfenceUnit s level n).canonical :=
  .retryAll (.ite ((h.modMgmt.foldl fun _ _ h₁ => h₁.modCell).foldl fun _ _ h₁ => h₁.modCore.foldl fun _ _ h₂ =>
    h₂.modSlot).modCove ((h.modMgmt.foldl fun _ _ h₁ => h₁.modCell).foldl fun _ _ h₁ => h₁.modCore.foldl fun _ _ h₂ =>
    h₂.modSlot))

theorem State.canonical.poisonObject {o} (h : s.canonical) : (Machine.poisonObject s o).canonical := by
  unfold Machine.poisonObject
  dsimp only
  split
  · exact .ite h.debugWrite.countEcc h.debugWrite.countEcc.fenceUnit
  · exact h.debugWrite.countEcc

theorem State.canonical.poisonEntry {cell slot idx c it} (h : s.canonical) :
    (Machine.poisonEntry s cell slot idx c it).canonical := h.modCell.countEcc

theorem State.canonical.poisonSet {k} (h : s.canonical) : State.canonical { s with poison := AMap.set s.poison k () } := by
  obtain ⟨hm, hf, hp, hq⟩ := h
  exact ⟨hm, hf, AMap.sorted_set _ _ _ hp, hq⟩

theorem State.canonical.eccHit {e} (h : s.canonical) : (Machine.eccHit s e).canonical := by
  unfold Machine.eccHit
  dsimp only
  split
  · exact h.countEcc
  · split
    · exact h.poisonObject.modMgmt
    · exact h
  · exact .ite h.poisonEntry.modMgmt h
  · exact .ite h.poisonSet.countEcc.modMgmt h

theorem State.canonical.execPatrolScrub {hits} (h : s.canonical) : Out.canonical (Machine.execPatrolScrub hits s) :=
  h.foldl fun _ _ h₁ => h₁.eccHit

end Sys2Proof.Machine
end

section
/-! The canonical form under the operations of Mgmt. -/

namespace Sys2Proof.Machine

-- one theorem at a time: many wait on each other, and each that waits holds a thread
set_option Elab.async false

variable {s : State}

theorem State.canonical.cmdRead {q a n} (h : s.canonical) : Gives (·.2.canonical) (Machine.cmdRead s q a n) :=
  .ite (.ite (.ite (.some h) .none) .none) h.readRange.toOption

theorem State.canonical.cmdWrite {q a bs} (h : s.canonical) : Gives State.canonical (Machine.cmdWrite s q a bs) :=
  .ite (.ite (.some h.homeWrite) .none) h.writeRange.toOption

theorem State.canonical.respond {q p bs result} (h : s.canonical) : Cmd.canonical (Machine.respond s q p bs result) := by
  unfold Machine.respond
  refine .ite h ?_
  split
  · exact h.cmdWrite.get
  · exact trivial

theorem State.canonical.endCommand {q cmd p status result} (h : s.canonical) :
    (Machine.endCommand s q cmd p status result).canonical := by
  unfold Machine.endCommand
  refine .wakeMgmt (.ite (.msix (.modQueue (.ite h.consume.modMgmt ?_) rfl)) (.modQueue (.ite h.consume.modMgmt ?_) rfl))
  · split
    · exact Gives.get (P := State.canonical) (.ite h.consume.modMgmt.cmdWrite .none)
    · exact h.consume.modMgmt.audit
  · split
    · exact Gives.get (P := State.canonical) (.ite h.consume.modMgmt.cmdWrite .none)
    · exact h.consume.modMgmt.audit

theorem State.canonical.command {q ev cmd hostOnly p run} (h : s.canonical) (hr : ∀ s, s.canonical → Cmd.canonical (run s)) :
    Out.canonical (Machine.command s q ev cmd hostOnly p run) := by
  unfold Machine.command
  refine .ite h (.ite (.next (.endCommand (.ite h.audit h))) ?_)
  dsimp only
  have h₁ := hr s h
  split
  · exact .next (.endCommand (.ite h₁.ok.audit h₁.ok))
  · exact .next (.endCommand (.ite h.audit h))
  · exact h₁.wait.after

theorem State.canonical.cmdNeed {b st k} (hk : Cmd.canonical k) : Cmd.canonical (Machine.cmdNeed b st k) := by
  unfold Machine.cmdNeed
  split
  · exact hk
  · trivial

theorem State.canonical.ownVmid {q v k} (hk : Cmd.canonical k) : Cmd.canonical (Machine.ownVmid s q v k) := by
  unfold Machine.ownVmid
  split
  · trivial
  · split
    · trivial
    · exact hk

theorem State.canonical.emptyTides {ag a} (h : s.canonical) : (Machine.emptyTides s ag a).canonical :=
  .ite h (h.orElse h.writeRange).frame

theorem State.canonical.execTenantCreate {q p} (h : s.canonical) : Out.canonical (Machine.execTenantCreate q p s) := by
  unfold Machine.execTenantCreate
  refine h.command fun _ h₁ => ?_
  split
  · exact trivial
  · refine .ite trivial ?_
    split
    · exact h₁.cmdRead.snd.newGen.of_pair
    · exact (h₁.cmdRead.snd.newGen.of_pair.foldl fun _ _ h₂ => h₂.modQuad).setTenant.emptyTides

theorem State.canonical.unbindQueue {q} (h : s.canonical) : (Machine.unbindQueue s q).canonical := by
  unfold Machine.unbindQueue
  exact ((h.modQueue rfl).foldl fun _ _ h₁ => .ite h₁ h₁.launchComplete).dropDuties.modMgmt.setQueue rfl

theorem State.canonical.dropTlb {vmid hit line} (h : s.canonical) : (Machine.dropTlb s vmid hit line).canonical := h.frame

theorem State.canonical.destroyTenant {v} (h : s.canonical) : (Machine.destroyTenant s v).canonical :=
  (((((((h.foldl fun _ _ h₁ => h₁.modQueue rfl).foldl fun _ _ h₁ => h₁.withdrawWaits.endTask).foldl fun _ _ h₁ =>
    h₁.releaseRegion).frame.foldl fun _ _ h₁ => (h₁.foldl fun _ _ h₂ => h₂.writeCw).modCove).foldl fun _ _ h₁ =>
    h₁.unbindQueue).dropTlb.foldl fun _ _ h₁ => h₁.endGeneration).dropEntries.foldl fun _ _ h₁ => h₁.setQueue
    rfl).modMgmt.setTenant

theorem State.canonical.execTenantDestroy {q p} (h : s.canonical) : Out.canonical (Machine.execTenantDestroy q p s) :=
  h.command fun _ h₁ => State.canonical.cmdNeed h₁.destroyTenant

theorem State.canonical.execQueueBind {q p} (h : s.canonical) : Out.canonical (Machine.execQueueBind q p s) := by
  unfold Machine.execQueueBind
  refine h.command fun _ h₁ => .ite trivial (.ite trivial ?_)
  split
  · exact trivial
  · split
    · exact h₁.cmdRead.snd.newGen.of_pair
    · exact h₁.cmdRead.snd.newGen.of_pair.setQueue rfl

theorem State.canonical.execQueueUnbind {q p} (h : s.canonical) : Out.canonical (Machine.execQueueUnbind q p s) :=
  h.command fun _ h₁ => State.canonical.cmdNeed h₁.unbindQueue

theorem State.canonical.execWindowMap {q p} (h : s.canonical) : Out.canonical (Machine.execWindowMap q p s) :=
  h.command fun _ h₁ => .ite trivial (.ite h₁.modMgmt (State.canonical.cmdNeed h₁.modMgmt))

theorem State.canonical.unstamp {v e} (h : s.canonical) : (Machine.unstamp s v e).canonical := h.frame.frame

theorem State.canonical.execTideSet {q p} (h : s.canonical) : Out.canonical (Machine.execTideSet q p s) :=
  h.command fun _ h₁ => State.canonical.ownVmid (.ite trivial
    (.ite (.ite trivial (h₁.unstamp.modTenant.orElse h₁.unstamp.modTenant.homePuts))
    (h₁.unstamp.modTenant.orElse h₁.unstamp.modTenant.homePuts)))

theorem State.canonical.execTlbShoot {q p} (h : s.canonical) : Out.canonical (Machine.execTlbShoot q p s) :=
  h.command fun _ h₁ => State.canonical.ownVmid h₁.dropTlb

theorem State.canonical.execGenWrap {q p} (h : s.canonical) : Out.canonical (Machine.execGenWrap q p s) :=
  h.command fun _ h₁ => h₁.wrapGens

theorem State.canonical.execFenceUnit {q p} (h : s.canonical) : Out.canonical (Machine.execFenceUnit q p s) :=
  h.command fun _ h₁ => State.canonical.cmdNeed (show State.canonical _ from .ite h₁.unfenceUnit h₁.fenceUnit)

theorem State.canonical.execIslandSet {q p} (h : s.canonical) : Out.canonical (Machine.execIslandSet q p s) :=
  h.command fun _ h₁ => State.canonical.cmdNeed (h₁.foldl fun _ _ h₂ => h₂.modCore.after)

theorem State.canonical.execPowerCap {q p} (h : s.canonical) : Out.canonical (Machine.execPowerCap q p s) :=
  h.command fun _ h₁ => State.canonical.cmdNeed h₁.modMgmt

theorem State.canonical.stepTime {ns} (h : s.canonical) : (Machine.stepTime s ns).canonical := h.modMgmt.frame

theorem State.canonical.execTimeSet {q p} (h : s.canonical) : Out.canonical (Machine.execTimeSet q p s) :=
  h.command fun _ h₁ => State.canonical.cmdNeed h₁.audit.stepTime

theorem State.canonical.execTimeCfg {q p} (h : s.canonical) : Out.canonical (Machine.execTimeCfg q p s) :=
  h.command fun _ h₁ => State.canonical.cmdNeed h₁.modMgmt.after

theorem State.canonical.execImageVerify {q p} (h : s.canonical) : Out.canonical (Machine.execImageVerify q p s) := by
  unfold Machine.execImageVerify
  refine h.command fun _ h₁ => ?_
  split
  · trivial
  · have h₂ := h₁.cmdRead.snd (by assumption)
    split
    · trivial
    · dsimp only
      split
      · trivial
      · trivial
      · have h₃ := h₂.cmdRead.snd (by assumption)
        split
        · trivial
        · generalize ecdsaOk _ _ _ _ _ = b
          cases b
          · trivial
          · exact h₃.modTenant

theorem State.canonical.execAttestQuote {q p} (h : s.canonical) : Out.canonical (Machine.execAttestQuote q p s) := by
  unfold Machine.execAttestQuote
  refine h.command fun _ h₁ => ?_
  split
  · exact trivial
  · exact h₁.cmdRead.snd.frame.respond

theorem State.canonical.execFwUpdate {q p} (h : s.canonical) : Out.canonical (Machine.execFwUpdate q p s) := by
  unfold Machine.execFwUpdate
  refine h.command fun _ h₁ => ?_
  split
  · exact trivial
  · exact .ite trivial (.ite trivial h₁.cmdRead.snd.modMgmt)

theorem State.canonical.execDebugRead {q p} (h : s.canonical) : Out.canonical (Machine.execDebugRead q p s) := by
  unfold Machine.execDebugRead
  refine h.command fun _ h₁ => ?_
  split
  · exact trivial
  · exact h₁.respond

theorem State.canonical.execDebugWrite {q p} (h : s.canonical) : Out.canonical (Machine.execDebugWrite q p s) := by
  unfold Machine.execDebugWrite
  refine h.command fun _ h₁ => ?_
  split
  · exact trivial
  · exact trivial
  · exact State.canonical.cmdNeed h₁.cmdRead.snd.debugWrite

theorem State.canonical.execInfoRead {q p} (h : s.canonical) : Out.canonical (Machine.execInfoRead q p s) :=
  h.command fun _ h₁ => h₁.respond

theorem State.canonical.execCountRead {q p} (h : s.canonical) : Out.canonical (Machine.execCountRead q p s) := by
  unfold Machine.execCountRead
  refine h.command fun _ h₁ => .ite h₁.respond (State.canonical.ownVmid ?_)
  split
  · exact trivial
  · exact h₁.respond

theorem State.canonical.execTraceCfg {q p} (h : s.canonical) : Out.canonical (Machine.execTraceCfg q p s) :=
  h.command fun _ h₁ => State.canonical.ownVmid h₁.modTenant

theorem State.canonical.execRegionSwap {q p} (h : s.canonical) : Out.canonical (Machine.execRegionSwap q p s) :=
  h.command fun _ h₁ => .ite trivial (.ite h₁.startWave (.ite h₁.askPlacer trivial))

theorem State.canonical.execBadcmd {q cmd p} (h : s.canonical) : Out.canonical (Machine.execBadcmd q cmd p s) :=
  h.command fun _ _ => trivial

end Sys2Proof.Machine
end

section
/-! The canonical form under the operations of Power. -/

namespace Sys2Proof.Machine

-- one theorem at a time: many wait on each other, and each that waits holds a thread
set_option Elab.async false

variable {s : State}

theorem State.canonical.settleIsland {i} (h : s.canonical) : (Machine.settleIsland s i).canonical := h.modCore

theorem State.canonical.execIslandFreqChange {i} (h : s.canonical) : Out.canonical (Machine.execIslandFreqChange i s) :=
  h.settleIsland

theorem State.canonical.mgmtTrace {code a0 a1} (h : s.canonical) : (Machine.mgmtTrace s code a0 a1).canonical :=
  h.foldl fun _ _ h₁ => h₁.trace

theorem State.canonical.capIsland {i} (h : s.canonical) : (Machine.capIsland s i).canonical :=
  .ite h.settleIsland h.settleIsland.mgmtTrace

theorem State.canonical.capLower {i} (h : s.canonical) : (Machine.capLower s i).canonical := .ite h h.modMgmt.capIsland

theorem State.canonical.capRaise {i} (h : s.canonical) : (Machine.capRaise s i).canonical := .ite h h.modMgmt.capIsland

theorem State.canonical.heatIsland {mC i} (h : s.canonical) : (Machine.heatIsland s mC i).canonical :=
  .ite (.ite h h.modMgmt.settleIsland) (.ite h.modMgmt.settleIsland h)

theorem State.canonical.dieHot {old q} (h : s.canonical) : (Machine.dieHot s old q).canonical := .ite h.mgmtTrace h

/-- The state after reset is canonical: nothing is written, and the one bound queue's window is empty. -/
theorem State.canonical.reset : State.reset.canonical :=
  ⟨rfl, rfl, rfl, fun _ hq => List.mem_singleton.1 hq ▸ rfl⟩

theorem State.canonical.resetOf : (Machine.resetOf s).canonical := State.canonical.reset.frame

theorem State.canonical.powerLost : (Machine.powerLost s).canonical := State.canonical.reset.frame

theorem State.canonical.execPowerSample {mw temps} (h : s.canonical) :
    Out.canonical (Machine.execPowerSample mw temps s) := .ite State.canonical.powerLost
    (.next (.foldl (.foldl (.ite (h.modMgmt.foldl fun _ _ h₁ => h₁.capLower)
    (.ite (h.modMgmt.foldl fun _ _ h₁ => h₁.capRaise) h.modMgmt)) fun _ _ h₁ => h₁.dieHot) fun _ _ h₁ => h₁.heatIsland))

theorem State.canonical.execPowerTrace (h : s.canonical) : Out.canonical (Machine.execPowerTrace s) := h.mgmtTrace

theorem State.canonical.refSample {ref} (h : s.canonical) : (Machine.refSample s ref).canonical := h.modMgmt.after

theorem State.canonical.execPtmExchange {ptm} (h : s.canonical) : Out.canonical (Machine.execPtmExchange ptm s) := by
  unfold Machine.execPtmExchange
  split
  · exact h.refSample
  · exact h

theorem State.canonical.execPpsEdge (h : s.canonical) : Out.canonical (Machine.execPpsEdge s) := by
  unfold Machine.execPpsEdge
  split
  · exact h
  · exact .ite h.modMgmt.refSample h.modMgmt

theorem State.canonical.execTodMessage {bytes} (h : s.canonical) : Out.canonical (Machine.execTodMessage bytes s) :=
  .ite h.modMgmt h

theorem State.canonical.execTimeHoldover (h : s.canonical) : Out.canonical (Machine.execTimeHoldover s) :=
  .ite h.modMgmt (.ite h.after h)

theorem State.canonical.execColdReset : Out.canonical (Machine.execColdReset s) := State.canonical.resetOf

theorem State.canonical.execWarmReset : Out.canonical (Machine.execWarmReset s) := State.canonical.resetOf

theorem State.canonical.execSupplyOutOfLimits : Out.canonical (Machine.execSupplyOutOfLimits s) := State.canonical.powerLost

end Sys2Proof.Machine
end

section
/-! The canonical form under the operations of Dispatch. -/

namespace Sys2Proof.Machine

-- one theorem at a time: many wait on each other, and each that waits holds a thread
set_option Elab.async false

variable {s : State}

/-- Every instruction keeps the canonical form. -/
theorem State.canonical.exec (h : s.canonical) (i) : Out.canonical (Machine.exec i s) := by
  cases i with
  | load => exact h.execLoad
  | store => exact h.execStore
  | opImm => exact h.execOpImm
  | opImm32 => exact h.execOpImm32
  | op => exact h.execOp
  | op32 => exact h.execOp32
  | lui => exact h.execLui
  | auipc => exact h.execAuipc
  | jal => exact h.execJal
  | jalr => exact h.execJalr
  | branch => exact h.execBranch
  | fence rd rs1 imm => exact h.execFence (_rd := rd) (_rs1 := rs1) (_imm := imm)
  | fenceI rd rs1 imm => exact h.execFenceI (_rd := rd) (_rs1 := rs1) (_imm := imm)
  | ecall => exact h.execEcall
  | ebreak => exact h.execEbreak
  | csrrw => exact h.execCsrrw
  | csrrs => exact h.execCsrrs
  | csrrc => exact h.execCsrrc
  | csrrwi => exact h.execCsrrwi
  | csrrsi => exact h.execCsrrsi
  | csrrci => exact h.execCsrrci
  | vadd => exact h.execVadd
  | vsub => exact h.execVsub
  | vmul => exact h.execVmul
  | vfma => exact h.execVfma
  | vmin => exact h.execVmin
  | vmax => exact h.execVmax
  | vand => exact h.execVand
  | vor => exact h.execVor
  | vxor => exact h.execVxor
  | vsll => exact h.execVsll
  | vsrl => exact h.execVsrl
  | vsra => exact h.execVsra
  | vclt => exact h.execVclt
  | vcle => exact h.execVcle
  | vceq => exact h.execVceq
  | vsel => exact h.execVsel
  | vdiv => exact h.execVdiv
  | vsqrt => exact h.execVsqrt
  | vrcp => exact h.execVrcp
  | vexp2 => exact h.execVexp2
  | vlog2 => exact h.execVlog2
  | vrsum => exact h.execVrsum
  | vrmax => exact h.execVrmax
  | vrmin => exact h.execVrmin
  | vperm => exact h.execVperm
  | vslide => exact h.execVslide
  | vsplat => exact h.execVsplat
  | vxtr => exact h.execVxtr
  | vcvt => exact h.execVcvt
  | vq => exact h.execVq
  | vdq => exact h.execVdq
  | vrng => exact h.execVrng
  | vscan => exact h.execVscan
  | vmov => exact h.execVmov
  | vld => exact h.execVld
  | vst => exact h.execVst
  | vlds => exact h.execVlds
  | vsts => exact h.execVsts
  | vlx => exact h.execVlx
  | vsx => exact h.execVsx
  | vldS => exact h.execVldS
  | bufld => exact h.execBufld
  | bufst => exact h.execBufst
  | vldB => exact h.execVldB
  | ldS => exact h.execLdS
  | ldSe => exact h.execLdSe
  | ldB => exact h.execLdB
  | ldAcq => exact h.execLdAcq
  | stRel => exact h.execStRel
  | feSet => exact h.execFeSet
  | feClr => exact h.execFeClr
  | amoAdd => exact h.execAmoAdd
  | amoAnd => exact h.execAmoAnd
  | amoOr => exact h.execAmoOr
  | amoXor => exact h.execAmoXor
  | amoMin => exact h.execAmoMin
  | amoMax => exact h.execAmoMax
  | amoMinu => exact h.execAmoMinu
  | amoMaxu => exact h.execAmoMaxu
  | amoSwap => exact h.execAmoSwap
  | amoCas => exact h.execAmoCas
  | amoFadd => exact h.execAmoFadd
  | fenceSc => exact h.execFenceSc
  | tideAdv => exact h.execTideAdv
  | tideRd => exact h.execTideRd
  | lkTake => exact h.execLkTake
  | lkGive => exact h.execLkGive
  | qGet => exact h.execQGet
  | vqGet => exact h.execVqGet
  | qStat => exact h.execQStat
  | qClose => exact h.execQClose
  | pref _ w _ _ => exact h.execPref (_w := w)
  | mxDesc => exact h.execMxDesc
  | mxTcfg => exact h.execMxTcfg
  | mxTcfgRoute => exact h.execMxTcfgRoute
  | mxZero => exact h.execMxZero
  | mxMma => exact h.execMxMma
  | mxMmq => exact h.execMxMmq
  | mxMms => exact h.execMxMms
  | mxDrn => exact h.execMxDrn
  | mxRd => exact h.execMxRd
  | mxWr => exact h.execMxWr
  | mxWait => exact h.execMxWait
  | mxRowp => exact h.execMxRowp
  | mxStat => exact h.execMxStat
  | cpPost => exact h.execCpPost
  | cpResume => exact h.execCpResume
  | cpCancel => exact h.execCpCancel
  | cpBind => exact h.execCpBind
  | post => exact h.execPost
  | srpProbe => exact h.execSrpProbe
  | srpRec => exact h.execSrpRec
  | srpInv => exact h.execSrpInv
  | srpInvAll => exact h.execSrpInvAll
  | srpStat => exact h.execSrpStat
  | fork => exact h.execFork
  | join => exact h.execJoin
  | xcall => exact h.execXcall
  | xret => exact h.execXret
  | frmNew => exact h.execFrmNew
  | frmFree => exact h.execFrmFree
  | msgSend => exact h.execMsgSend
  | msgMsk => exact h.execMsgMsk
  | msgUnm => exact h.execMsgUnm
  | msgRet => exact h.execMsgRet
  | wait => exact h.execWait
  | sleepT => exact h.execSleepT
  | yield => exact h.execYield
  | genRd => exact h.execGenRd
  | genNew => exact h.execGenNew
  | genScrub => exact h.execGenScrub
  | tret => exact h.execTret
  | gctxRes => exact h.execGctxRes
  | gctxKill => exact h.execGctxKill
  | plcFind => exact h.execPlcFind
  | plcLoad => exact h.execPlcLoad
  | plcRel => exact h.execPlcRel
  | cfgWr => exact h.execCfgWr
  | cfgWrRestamp => exact h.execCfgWrRestamp
  | cfgChk => exact h.execCfgChk
  | gAdd => exact h.execGAdd
  | gSub => exact h.execGSub
  | gMul => exact h.execGMul
  | gMulh => exact h.execGMulh
  | gDiv => exact h.execGDiv
  | gRem => exact h.execGRem
  | gAnd => exact h.execGAnd
  | gOr => exact h.execGOr
  | gXor => exact h.execGXor
  | gShl => exact h.execGShl
  | gShr => exact h.execGShr
  | gSra => exact h.execGSra
  | gMin => exact h.execGMin
  | gMax => exact h.execGMax
  | gTlt => exact h.execGTlt
  | gTle => exact h.execGTle
  | gTeq => exact h.execGTeq
  | gTne => exact h.execGTne
  | gTltu => exact h.execGTltu
  | gTleu => exact h.execGTleu
  | gFadd => exact h.execGFadd
  | gFsub => exact h.execGFsub
  | gFmul => exact h.execGFmul
  | gFfma => exact h.execGFfma
  | gFmin => exact h.execGFmin
  | gFmax => exact h.execGFmax
  | gFdiv => exact h.execGFdiv
  | gFsqrt => exact h.execGFsqrt
  | gFrcp => exact h.execGFrcp
  | gFexp2 => exact h.execGFexp2
  | gFlog2 => exact h.execGFlog2
  | gFlt => exact h.execGFlt
  | gFle => exact h.execGFle
  | gFeq => exact h.execGFeq
  | gCvt => exact h.execGCvt
  | gQcvt => exact h.execGQcvt
  | gDq => exact h.execGDq
  | gRng => exact h.execGRng
  | gMov => exact h.execGMov
  | gMovi => exact h.execGMovi
  | gFrd => exact h.execGFrd
  | gFwr => exact h.execGFwr
  | gNull => exact h.execGNull
  | gSteer => exact h.execGSteer
  | gMerge => exact h.execGMerge
  | gOmerge => exact h.execGOmerge
  | gBro => exact h.execGBro
  | gCall => exact h.execGCall
  | gRet => exact h.execGRet
  | gCcall => exact h.execGCcall
  | gTrap => exact h.execGTrap
  | gInx => exact h.execGInx
  | gFnew => exact h.execGFnew
  | gFfree => exact h.execGFfree
  | gTget => exact h.execGTget
  | gTset => exact h.execGTset
  | gPurge => exact h.execGPurge
  | gLd => exact h.execGLd
  | gSt => exact h.execGSt
  | gLdb => exact h.execGLdb
  | gLda => exact h.execGLda
  | gStrl => exact h.execGStrl
  | gIrd => exact h.execGIrd
  | gIwr => exact h.execGIwr
  | gFence => exact h.execGFence
  | gPref => exact h.execGPref
  | gAmo => exact h.execGAmo
  | gLkt => exact h.execGLkt
  | gLkg => exact h.execGLkg
  | gMcomb => exact h.execGMcomb
  | gPost => exact h.execGPost
  | gGat => exact h.execGGat
  | gSct => exact h.execGSct
  | gCpy => exact h.execGCpy
  | gTadv => exact h.execGTadv
  | gProbe => exact h.execGProbe
  | gRec => exact h.execGRec
  | gSgen => exact h.execGSgen
  | gRpt => exact h.execGRpt
  | gCnt => exact h.execGCnt
  | gCtok => exact h.execGCtok
  | gDly => exact h.execGDly
  | gMxp => exact h.execGMxp
  | gFin => exact h.execGFin
  | gTnow => exact h.execGTnow
  | gTgate => exact h.execGTgate
  | rotationBoundary => exact h.execRotationBoundary
  | dequePop => exact h.execDequePop
  | dequeSteal => exact h.execDequeSteal
  | joinwinExpiry => exact h.execJoinwinExpiry
  | spillSaveComplete => exact h.execSpillSaveComplete
  | spillRestore => exact h.execSpillRestore
  | messageArrival => exact h.execMessageArrival
  | msgOverflowWrite => exact h.execMsgOverflowWrite
  | messageDelivery => exact h.execMessageDelivery
  | sleepDeadline => exact h.execSleepDeadline
  | missFillArrival => exact h.execMissFillArrival
  | tlbWalkComplete => exact h.execTlbWalkComplete
  | divComplete => exact h.execDivComplete
  | coalesceDrainTimeout => exact h.execCoalesceDrainTimeout
  | meshBurstMerge => exact h.execMeshBurstMerge
  | l2WriteForward => exact h.execL2WriteForward
  | l1dLineExpiry => exact h.execL1dLineExpiry
  | syncLoadComplete => exact h.execSyncLoadComplete
  | boundedLoadComplete => exact h.execBoundedLoadComplete
  | tideTmo => exact h.execTideTmo
  | amoComplete => exact h.execAmoComplete
  | lockGranted => exact h.execLockGranted
  | mxComplete => exact h.execMxComplete
  | patrolScrub => exact h.execPatrolScrub
  | copyStart => exact h.execCopyStart
  | copyBeat => exact h.execCopyBeat
  | copyComplete => exact h.execCopyComplete
  | copyPause => exact h.execCopyPause
  | srpVerdict => exact h.execSrpVerdict
  | replayCopyComplete => exact h.execReplayCopyComplete
  | recordCopyComplete => exact h.execRecordCopyComplete
  | tokenMatch => exact h.execTokenMatch
  | matchRefill => exact h.execMatchRefill
  | countToken => exact h.execCountToken
  | instanceCommit => exact h.execInstanceCommit
  | commitToken => exact h.execCommitToken
  | gFaultReport => exact h.execGFaultReport
  | buoyTokenArrival => exact h.execBuoyTokenArrival
  | moorDelivery => exact h.execMoorDelivery
  | controlTokenArrival => exact h.execControlTokenArrival
  | streamLoopStart => exact h.execStreamLoopStart
  | streamLoopFinish => exact h.execStreamLoopFinish
  | tgateDeadline => exact h.execTgateDeadline
  | handoverToken => exact h.execHandoverToken
  | placementRequest => exact h.execPlacementRequest
  | overlayLoadComplete => exact h.execOverlayLoadComplete
  | cellSave => exact h.execCellSave
  | slackWaveEnd => exact h.execSlackWaveEnd
  | regionRestore => exact h.execRegionRestore
  | packetIngress => exact h.execPacketIngress
  | lTaskLaunch => exact h.execLTaskLaunch
  | gLaunch => exact h.execGLaunch
  | hostMemoryAccess _ _ n _ => exact h.execHostMemoryAccess (n := n)
  | tsyncWrite => exact h.execTsyncWrite
  | registerWriteIgnored off => exact h.execRegisterWriteIgnored (_off := off)
  | tenantCreate => exact h.execTenantCreate
  | tenantDestroy => exact h.execTenantDestroy
  | queueBind => exact h.execQueueBind
  | queueUnbind => exact h.execQueueUnbind
  | windowMap => exact h.execWindowMap
  | tideSet => exact h.execTideSet
  | tlbShoot => exact h.execTlbShoot
  | genWrap => exact h.execGenWrap
  | genWrapComplete => exact h.execGenWrapComplete
  | fenceUnit => exact h.execFenceUnit
  | islandSet => exact h.execIslandSet
  | islandFreqChange => exact h.execIslandFreqChange
  | powerCap => exact h.execPowerCap
  | timeSet => exact h.execTimeSet
  | timeCfg => exact h.execTimeCfg
  | imageVerify => exact h.execImageVerify
  | attestQuote => exact h.execAttestQuote
  | fwUpdate => exact h.execFwUpdate
  | debugRead => exact h.execDebugRead
  | debugWrite => exact h.execDebugWrite
  | infoRead => exact h.execInfoRead
  | countRead => exact h.execCountRead
  | traceCfg => exact h.execTraceCfg
  | regionSwap => exact h.execRegionSwap
  | badcmd => exact h.execBadcmd
  | powerSample => exact h.execPowerSample
  | powerTrace => exact h.execPowerTrace
  | ptmExchange => exact h.execPtmExchange
  | ppsEdge => exact h.execPpsEdge
  | todMessage => exact h.execTodMessage
  | timeHoldover => exact h.execTimeHoldover
  | coldReset => exact State.canonical.execColdReset
  | warmReset => exact State.canonical.execWarmReset
  | supplyOutOfLimits => exact State.canonical.execSupplyOutOfLimits
  | illegalInstruction => exact h.execIllegalInstruction
  | fetchPageX => exact h.execFetchPageX
  | placerComplete => exact h.execPlacerComplete
  | memoryReply => exact h.execMemoryReply
  | msixUnmask => exact h.execMsixUnmask
  | queueWindowWrite => exact h.execQueueWindowWrite

end Sys2Proof.Machine
end

section
/-! The canonical form under the operations of Sched. -/

namespace Sys2Proof.Machine

-- one theorem at a time: many wait on each other, and each that waits holds a thread
set_option Elab.async false

variable {s : State}

/-- Every event keeps the canonical form. -/
theorem State.canonical.runEv (h : s.canonical) (e) : Out.canonical (Machine.runEv e s) := by
  cases e with
  | rotationBoundary => exact h.execRotationBoundary
  | dequePop => exact h.execDequePop
  | dequeSteal => exact h.execDequeSteal
  | joinwinExpiry => exact h.execJoinwinExpiry
  | spillSaveComplete => exact h.execSpillSaveComplete
  | spillRestore => exact h.execSpillRestore
  | messageArrival => exact h.execMessageArrival
  | msgOverflowWrite => exact h.execMsgOverflowWrite
  | messageDelivery => exact h.execMessageDelivery
  | sleepDeadline => exact h.execSleepDeadline
  | missFillArrival => exact h.execMissFillArrival
  | tlbWalkComplete => exact h.execTlbWalkComplete
  | divComplete => exact h.execDivComplete
  | coalesceDrainTimeout => exact h.execCoalesceDrainTimeout
  | meshBurstMerge => exact h.execMeshBurstMerge
  | l2WriteForward => exact h.execL2WriteForward
  | l1dLineExpiry => exact h.execL1dLineExpiry
  | syncLoadComplete => exact h.execSyncLoadComplete
  | boundedLoadComplete => exact h.execBoundedLoadComplete
  | tideTmo => exact h.execTideTmo
  | amoComplete => exact h.execAmoComplete
  | lockGranted => exact h.execLockGranted
  | mxComplete => exact h.execMxComplete
  | patrolScrub => exact h.execPatrolScrub
  | copyStart => exact h.execCopyStart
  | copyBeat => exact h.execCopyBeat
  | copyComplete => exact h.execCopyComplete
  | copyPause => exact h.execCopyPause
  | srpVerdict => exact h.execSrpVerdict
  | replayCopyComplete => exact h.execReplayCopyComplete
  | recordCopyComplete => exact h.execRecordCopyComplete
  | tokenMatch => exact h.execTokenMatch
  | matchRefill => exact h.execMatchRefill
  | countToken => exact h.execCountToken
  | instanceCommit => exact h.execInstanceCommit
  | commitToken => exact h.execCommitToken
  | gFaultReport => exact h.execGFaultReport
  | buoyTokenArrival => exact h.buoyArrive
  | moorDelivery => exact h.execMoorDelivery
  | controlTokenArrival => exact h.execControlTokenArrival
  | streamLoopStart => exact h.execStreamLoopStart
  | streamLoopFinish => exact h.execStreamLoopFinish
  | tgateDeadline => exact h.execTgateDeadline
  | handoverToken => exact h.execHandoverToken
  | placementRequest => exact h.execPlacementRequest
  | overlayLoadComplete => exact h.execOverlayLoadComplete
  | cellSave => exact h.execCellSave
  | slackWaveEnd => exact h.execSlackWaveEnd
  | regionRestore => exact h.execRegionRestore
  | packetIngress => exact h.execPacketIngress
  | lTaskLaunch => exact h.execLTaskLaunch
  | gLaunch => exact h.execGLaunch
  | hostMemoryAccess _ _ n _ => exact h.execHostMemoryAccess (n := n)
  | tsyncWrite => exact h.execTsyncWrite
  | registerWriteIgnored off => exact h.execRegisterWriteIgnored (_off := off)
  | tenantCreate => exact h.execTenantCreate
  | tenantDestroy => exact h.execTenantDestroy
  | queueBind => exact h.execQueueBind
  | queueUnbind => exact h.execQueueUnbind
  | windowMap => exact h.execWindowMap
  | tideSet => exact h.execTideSet
  | tlbShoot => exact h.execTlbShoot
  | genWrap => exact h.execGenWrap
  | genWrapComplete => exact h.execGenWrapComplete
  | fenceUnit => exact h.execFenceUnit
  | islandSet => exact h.execIslandSet
  | islandFreqChange => exact h.execIslandFreqChange
  | powerCap => exact h.execPowerCap
  | timeSet => exact h.execTimeSet
  | timeCfg => exact h.execTimeCfg
  | imageVerify => exact h.execImageVerify
  | attestQuote => exact h.execAttestQuote
  | fwUpdate => exact h.execFwUpdate
  | debugRead => exact h.execDebugRead
  | debugWrite => exact h.execDebugWrite
  | infoRead => exact h.execInfoRead
  | countRead => exact h.execCountRead
  | traceCfg => exact h.execTraceCfg
  | regionSwap => exact h.execRegionSwap
  | badcmd => exact h.execBadcmd
  | powerSample => exact h.execPowerSample
  | powerTrace => exact h.execPowerTrace
  | ptmExchange => exact h.execPtmExchange
  | ppsEdge => exact h.execPpsEdge
  | todMessage => exact h.execTodMessage
  | timeHoldover => exact h.execTimeHoldover
  | coldReset => exact State.canonical.execColdReset
  | warmReset => exact State.canonical.execWarmReset
  | supplyOutOfLimits => exact State.canonical.execSupplyOutOfLimits
  | illegalInstruction => exact h.execIllegalInstruction
  | fetchPageX => exact h.execFetchPageX
  | placerComplete => exact h.execPlacerComplete
  | memoryReply => exact h.execMemoryReply
  | msixUnmask => exact h.execMsixUnmask
  | queueWindowWrite => exact h.execQueueWindowWrite

theorem State.canonical.runWork {w} (h : s.canonical) : Out.canonical (Machine.runWork w s) := by
  cases w with
  | ev e => exact h.runEv e
  | node i f => exact h.frame.exec i

theorem State.canonical.fetchLine {va p} (h : s.canonical) : (Machine.fetchLine s va p).2.canonical := by
  unfold Machine.fetchLine
  dsimp only
  split
  · exact h
  · split
    · exact h.stallFor
    · split
      · split
        · exact h.stallFor.l2Line.modCove.setCore
        · exact h.stallFor.l2Line.modCove.pick.setCore
      · split
        · exact h.stallFor.l2Line.modCove.setCore
        · exact h.stallFor.l2Line.modCove.pick.setCore

theorem State.canonical.fetchBytes (h : s.canonical) : Ends (·.2.canonical) (Machine.fetchBytes s) := by
  unfold Machine.fetchBytes
  split
  · exact .error
  · exact .ok h.xlat.snd.fetchLine

theorem State.canonical.fetchExec (h : s.canonical) : Out.canonical (Machine.fetchExec s) := by
  unfold Machine.fetchExec
  split
  · exact .ite h.execFetchPageX h.takeTrap
  · refine .ite h.fetchBytes.snd.takeTrap ?_
    split
    · exact h.fetchBytes.snd.exec _
    · exact h.fetchBytes.snd.execIllegalInstruction

theorem State.canonical.markIssue {n} (h : s.canonical) : (Machine.markIssue s n).canonical := h.modSlot.modCore

theorem State.canonical.afterIssue {n o} (ho : Out.canonical o) : Out.canonical (Machine.afterIssue n o) := by
  cases o with
  | next t =>
    have h : t.canonical := ho
    exact .next (.ite (.after (.modSlot h.frame)) h.frame)
  | _ => trivial

theorem State.canonical.issueSlot {n} (h : s.canonical) : Out.canonical (Machine.issueSlot n s) := by
  unfold Machine.issueSlot
  refine .ite h.frame.markIssue.execMessageDelivery ?_
  split
  · exact State.canonical.afterIssue h.frame.markIssue.fetchExec
  · exact State.canonical.afterIssue (h.frame.markIssue.exec _)
  · exact .ite h.frame.markIssue.execDequePop h.frame.markIssue.execDequeSteal
  · exact h.frame.markIssue

theorem State.canonical.readySlot {n} (h : s.canonical) : Out.canonical (Machine.readySlot n s) := by
  unfold Machine.readySlot
  split
  · exact h.execSyncLoadComplete
  · exact h.execBoundedLoadComplete
  · exact h.execSleepDeadline
  · exact h.completeSlot
  · exact State.canonical.afterIssue (h.resumeSlot.frame.exec _)
  · exact State.canonical.afterIssue (h.resumeSlot.frame.exec _)
  · exact h

theorem State.canonical.runDuty {k} (h : s.canonical) : Out.canonical (Machine.runDuty k s) := by
  unfold Machine.runDuty
  split
  · exact h
  · exact h.frame.runWork

theorem State.canonical.advance (h : s.canonical) : (Machine.advance s).canonical := by
  unfold Machine.advance
  extract_lets cores next step t
  have ht : t.canonical := h.pass
  clear_value t
  exact .ite ht.frame ht

theorem State.canonical.natural (h : s.canonical) : Out.canonical (Machine.natural s) := by
  unfold Machine.natural
  split
  · exact h.endGeneration
  · split
    · exact h.runDuty
    · split
      · exact h.readySlot
      · split
        · exact h.issueSlot
        · exact h.advance

theorem State.canonical.runTurn {t} (h : s.canonical) : Out.canonical (Machine.runTurn t s) := by
  unfold Machine.runTurn
  split
  · exact h.pass
  · exact h.issueSlot
  · exact h.runDuty
  · exact h.runEv _

theorem State.canonical.moveNext (h : s.canonical) : Out.canonical (Machine.moveNext s) := by
  unfold Machine.moveNext
  split
  · exact h.frame.runTurn
  · exact h.natural

end Sys2Proof.Machine
end

section
/-! The canonical form under the operations of Step. -/

namespace Sys2Proof.Machine

-- one theorem at a time: many wait on each other, and each that waits holds a thread
set_option Elab.async false

variable {s : State}

theorem State.canonical.step (h : s.canonical) : Out.canonical (Machine.step s) := .ite trivial h.moveNext

end Sys2Proof.Machine

open Sys2Proof Sys2Proof.Machine

/-- Settles O60: every operation of the model, and so every instruction, event and move, takes a canonical state to canonical
states. -/
theorem canonicalMemory : Obligations.CanonicalMemory := by
  intro s t h hst
  have hc : Out.canonical (step s) := h.step
  rw [hst] at hc
  exact hc
end

section
/-! Stream registers (R219-R222): what `q.get` and `vq.get` share, said once per outcome, and O25. -/

namespace Sys2Proof.Machine

/-- A stream register's entry behind the first `n` bytes of its window, of generation `g`. -/
def QR.behind (e : QR) (n : Nat) (g : Gen) : QR :=
  { e with win := e.win.drop n, left := e.left - n / 2 ^ e.esz.toNat, gen := g }

/-- The state in which a stream register's window has given `n` bytes: a beat of the cove's copy engine follows. -/
def State.streamTook (s : State) (q : QReg) (e : QR) (n : Nat) : State :=
  (s.modMe fun v => { v with q := AMap.set v.q q.toNat (e.behind n v.gen) }).onceAfter 1 (.copyBeat (coveOfSlot s.cur))

variable {s : State} {q : QReg} {rd : XReg} {vd : VReg} {e : QR}

/-! ## What a take can answer -/

section Take
variable {size : Nat → Nat → Nat} {n : Nat} (hq : s.qr q = .ok e) (i : Instr)
include hq

theorem qTake_unbound (hbnd : e.bnd = false) :
    qTake i q s size = .error { cause := 0x13, tval := w64 q.toNat } := by
  rw [qTake, hq, ok_bind, need_error hbnd]
  rfl

variable (hbnd : e.bnd = true) (hsize : size (2 ^ e.esz.toNat) e.left = n)
include hbnd hsize

theorem qTake_over (hn : n = 0) : qTake i q s size = .ok (some ([], s), s) := by
  rw [qTake, hq, ok_bind, need_ok hbnd, ok_bind]
  dsimp only
  rw [hsize, if_pos hn, pure_eq_ok]

theorem qTake_short (hn : e.win.length < n) : qTake i q s size =
    need (!e.flt && e.cause == 0#8) 0x13 (w64 q.toNat) >>= fun _ => .ok (none, s.holdOn .stream i (w64 q.toNat)) := by
  rw [qTake, hq, ok_bind, need_ok hbnd, ok_bind]
  dsimp only
  rw [hsize, if_neg (by omega), if_pos hn]
  rfl

theorem qTake_waits (hn : e.win.length < n) (hflt : e.flt = false) (hcause : e.cause = 0#8) :
    qTake i q s size = .ok (none, s.holdOn .stream i (w64 q.toNat)) := by
  rw [qTake_short hq i hbnd hsize hn, need_ok (by simp [hflt, hcause]), ok_bind]

theorem qTake_failed (hn : e.win.length < n) (hfeed : e.flt = true ∨ e.cause ≠ 0#8) :
    qTake i q s size = .error { cause := 0x13, tval := w64 q.toNat } := by
  have hbad : (!e.flt && e.cause == 0#8) = false := by
    rcases hfeed with h | h <;> simp [h]
  rw [qTake_short hq i hbnd hsize hn, need_error hbad, error_bind]

theorem qTake_takes (hpos : 0 < n) (hn : n ≤ e.win.length) (hgen : (AMap.getD s.me.q q.toNat {}).gen ≠ 0xFFFF#16) :
    qTake i q s size = .ok (some (e.win.take n, s.streamTook q e n), s) := by
  rw [qTake, hq, ok_bind, need_ok hbnd, ok_bind]
  dsimp only
  rw [hsize, if_neg (by omega), if_neg (by omega), takeQ, State.setQ, stampWrite, if_neg hgen, ok_bind,
    if_neg (by omega), pure_eq_ok, ok_bind]
  rfl

end Take

/-! ## `q.get` and `vq.get` -/

/-- The bytes that `q.get` and `vq.get` need, of elements of `k` bytes of which `left` are left. -/
def elemNeed (k left : Nat) : Nat := min k (left * k)
def vecNeed (k left : Nat) : Nat := min 128 (left * k)

theorem elemNeed_pos (hleft : 0 < e.left) : 0 < elemNeed (2 ^ e.esz.toNat) e.left :=
  lt_min (by positivity) (by positivity)

theorem vecNeed_pos (hleft : 0 < e.left) : 0 < vecNeed (2 ^ e.esz.toNat) e.left :=
  lt_min (by decide) (by positivity)

section Get
variable {t : State} {bs : List Byte} {f : Trap}

theorem exec_qGet_gives (h : qTake (.qGet q rd) q s elemNeed = .ok (some (bs, t), s)) (hrd : t.xOk rd) :
    exec (.qGet q rd) s = .next (t.putX rd (w64 (bytesNat bs))).retire := by
  change execQGet q rd s = _
  rw [execQGet]
  change s.commit (qTake (.qGet q rd) q s elemNeed >>= _) = _
  rw [h, ok_bind]
  dsimp only
  rw [setX_of_xOk hrd]
  rfl

theorem exec_vqGet_gives (h : qTake (.vqGet q vd) q s vecNeed = .ok (some (bs, t), s)) (hvd : t.vOk vd) :
    exec (.vqGet q vd) s = .next (t.putV vd (BitVec.ofNat 1024 (bytesNat bs))).retire := by
  change execVqGet q vd s = _
  rw [execVqGet]
  change s.commit (qTake (.vqGet q vd) q s vecNeed >>= _) = _
  rw [h, ok_bind]
  dsimp only
  rw [setV_of_vOk hvd]
  rfl

theorem exec_qGet_waits (h : qTake (.qGet q rd) q s elemNeed = .ok (none, t)) : exec (.qGet q rd) s = .next t := by
  change s.commit (qTake (.qGet q rd) q s elemNeed >>= _) = _
  rw [h]
  rfl

theorem exec_vqGet_waits (h : qTake (.vqGet q vd) q s vecNeed = .ok (none, t)) : exec (.vqGet q vd) s = .next t := by
  change s.commit (qTake (.vqGet q vd) q s vecNeed >>= _) = _
  rw [h]
  rfl

theorem exec_qGet_error (h : qTake (.qGet q rd) q s elemNeed = .error f) :
    exec (.qGet q rd) s = .next (s.takeTrap f) := by
  change s.commit (qTake (.qGet q rd) q s elemNeed >>= _) = _
  rw [h]
  rfl

theorem exec_vqGet_error (h : qTake (.vqGet q vd) q s vecNeed = .error f) :
    exec (.vqGet q vd) s = .next (s.takeTrap f) := by
  change s.commit (qTake (.vqGet q vd) q s vecNeed >>= _) = _
  rw [h]
  rfl

end Get

/-! ## `q.stat` and `q.close` -/

theorem exec_qStat (hq : s.qr q = .ok e) (hrd : s.xOk rd) : exec (.qStat q rd) s = .next (s.putX rd (qWord e)).retire := by
  change execQStat q rd s = _
  rw [execQStat, hq, ok_bind, setX_of_xOk hrd]
  rfl

/-- What a register of the slot's own generation reads as is its entry. -/
theorem qr_entry (hq : s.qr q = .ok e) (hgen : (AMap.getD s.me.q q.toNat {}).gen = s.me.gen) :
    AMap.getD s.me.q q.toNat {} = e := by
  rw [State.qr, stampRead, if_pos hgen] at hq
  split at hq
  · cases hq
  · exact Except.ok.inj hq

theorem exec_qClose_bound (hq : s.qr q = .ok e) (hgen : (AMap.getD s.me.q q.toNat {}).gen = s.me.gen) (hbnd : e.bnd = true) :
    exec (.qClose q) s = .next
      ((cancelCmd s (coveOfSlot s.cur) e.cmd).modSlot s.cur fun v => { v with q := AMap.set v.q q.toNat { gen := e.gen } }).retire := by
  have hentry : AMap.getD (s.slot s.cur).q q.toNat {} = e := qr_entry hq hgen
  change execQClose q s = _
  rw [execQClose, if_pos hgen, closeQ, hentry, hbnd]
  rfl

/-- A register that reads as unbound, by its entry or by a stale tag, is left alone (R222). -/
theorem exec_qClose_unbound (hq : s.qr q = .ok e) (hbnd : e.bnd = false) : exec (.qClose q) s = .next s.retire := by
  change execQClose q s = _
  rw [execQClose]
  split
  · next hgen =>
    have hentry : AMap.getD (s.slot s.cur).q q.toNat {} = e := qr_entry hq hgen
    rw [closeQ, hentry, hbnd]
    rfl
  · rfl

end Sys2Proof.Machine

open Sys2Proof Sys2Proof.Machine

/-- Settles O25: `q.get` and `vq.get` are a take of as many bytes as each needs, whose outcomes are the lemmas `qTake_over`,
`qTake_takes`, `qTake_waits`, `qTake_failed` and `qTake_unbound`. -/
theorem streamRegisters : Obligations.StreamRegisters := by
  intro s q rd vd e hq k one all rest took
  refine ⟨fun hbnd hleft => ?nothingLeft, fun hbnd hleft hgen => ?takes, fun hbnd hleft hwin hflt hcause => ?waits,
    fun hbnd hleft hwin hfeed => ?failed, fun hbnd hleft hwin => ?vector, fun hbnd => ?unbound, exec_qStat hq,
    exec_qClose_bound hq, exec_qClose_unbound hq⟩
  case nothingLeft =>
    exact ⟨exec_qGet_gives (qTake_over hq _ hbnd rfl (by simp [elemNeed, hleft])),
      exec_vqGet_gives (qTake_over hq _ hbnd rfl (by simp [vecNeed, hleft]))⟩
  case takes =>
    exact ⟨fun hwin => exec_qGet_gives (qTake_takes hq _ hbnd rfl (elemNeed_pos hleft) hwin hgen),
      fun hwin => exec_vqGet_gives (qTake_takes hq _ hbnd rfl (vecNeed_pos hleft) hwin hgen)⟩
  case waits => exact exec_qGet_waits (qTake_waits hq _ hbnd rfl hwin hflt hcause)
  case failed => exact exec_qGet_error (qTake_failed hq _ hbnd rfl hwin hfeed)
  case vector =>
    exact ⟨fun hflt hcause => exec_vqGet_waits (qTake_waits hq _ hbnd rfl hwin hflt hcause),
      fun hfeed => exec_vqGet_error (qTake_failed hq _ hbnd rfl hwin hfeed)⟩
  case unbound => exact ⟨exec_qGet_error (qTake_unbound hq _ hbnd), exec_vqGet_error (qTake_unbound hq _ hbnd)⟩
end

section
/-! A core's own stores (R203): what a plain store leaves in the core's buffer, what a read takes from it, that what the caches
and homes answer does not depend on it, and O4. -/

namespace Sys2Proof.Machine

/-! ## Bytes of a buffer's entry -/

/-- A buffer entry's bytes with `bs` put at the offsets from `o` on. -/
def putFrom (o : Nat) (bs : List Byte) (m : AMap Byte) : AMap Byte := (indexed o bs).foldl (fun m q => AMap.set m q.1 q.2) m

theorem putFrom_cons (o : Nat) (b : Byte) (bs : List Byte) (m : AMap Byte) :
    putFrom o (b :: bs) m = putFrom (o + 1) bs (AMap.set m o b) := rfl

theorem get?_putFrom_outside {o k : Nat} {bs : List Byte} (m : AMap Byte) (h : k < o ∨ o + bs.length ≤ k) :
    AMap.get? (putFrom o bs m) k = AMap.get? m k := by
  induction bs generalizing o m with
  | nil => rfl
  | cons b bs ih =>
    rw [List.length_cons] at h
    rw [putFrom_cons, ih _ (by omega), AMap.get?_set_ne _ _ (by omega)]

/-- The bytes `under`, from the offset `o` of a line on, as a buffer entry's bytes hide them. -/
def hideBytes (m : AMap Byte) (o : Nat) (under : List Byte) : List Byte :=
  (indexed o under).map fun p => (AMap.get? m p.1).getD p.2

theorem hideBytes_cons (m : AMap Byte) (o : Nat) (b : Byte) (under : List Byte) :
    hideBytes m o (b :: under) = (AMap.get? m o).getD b :: hideBytes m (o + 1) under := rfl

theorem hideBytes_nil (o : Nat) (under : List Byte) : hideBytes [] o under = under := by
  induction under generalizing o with
  | nil => rfl
  | cons b under ih => rw [hideBytes_cons, ih]; rfl

/-- The bytes put hide as many others. -/
theorem hideBytes_putFrom (o : Nat) (bs : List Byte) (m : AMap Byte) {under : List Byte} (h : under.length = bs.length) :
    hideBytes (putFrom o bs m) o under = bs := by
  induction bs generalizing o m under with
  | nil => rw [List.eq_nil_of_length_eq_zero h]; rfl
  | cons b bs ih =>
    obtain ⟨x, under, rfl⟩ := List.exists_cons_of_length_eq_add_one h
    have hhead : AMap.get? (putFrom (o + 1) bs (AMap.set m o b)) o = some b := by
      rw [get?_putFrom_outside _ (.inl (Nat.lt_succ_self o)), AMap.get?_set_self]
    rw [putFrom_cons, hideBytes_cons, hhead, ih _ _ (Nat.succ.inj h)]
    rfl

/-! ## The buffer after a plain store -/

/-- The bytes of a line that buffer entries hold. -/
def bufferedBytes (cb : List CbEntry) (line : Nat) : AMap Byte := ((cb.find? fun e => e.line == line).map (·.bytes)).getD []

theorem overlay_eq_hideBytes (c : Core) (pa : Nat) (bs : List Byte) :
    overlay c pa bs = hideBytes (bufferedBytes c.cb (pa / 32)) (pa % 32) bs := by
  unfold overlay bufferedBytes
  split
  · next h => rw [h]; exact (hideBytes_nil _ _).symm
  · next h => rw [h]; rfl

/-- An entry as a store to a line leaves it. -/
def CbEntry.joined (e : CbEntry) (line o : Nat) (bs : List Byte) (clk : Nat) : CbEntry :=
  if e.line = line then { e with bytes := putFrom o bs e.bytes, last := clk } else e

theorem CbEntry.joined_line (e : CbEntry) (line o : Nat) (bs : List Byte) (clk : Nat) :
    (e.joined line o bs clk).line = e.line := by
  unfold joined
  split <;> rfl

/-- The entry that a store makes. -/
def newEntry (p : Phys) (bs : List Byte) (clk : Nat) : CbEntry :=
  { line := p.pa / 32, bytes := putFrom (p.pa % 32) bs [], last := clk, tide := p.tide }

/-- The entries after a store, which joins its line's entry or makes one. -/
def cbStored (cb : List CbEntry) (p : Phys) (bs : List Byte) (clk : Nat) : List CbEntry :=
  if cb.any fun e => e.line == p.pa / 32 then cb.map (·.joined (p.pa / 32) (p.pa % 32) bs clk)
  else cb ++ [newEntry p bs clk]

variable {s : State} {core : Nat} {p q : Phys} {bs : List Byte}

theorem bufferedBytes_cbStored (cb : List CbEntry) (p : Phys) (bs : List Byte) (clk : Nat) :
    bufferedBytes (cbStored cb p bs clk) (p.pa / 32) = putFrom (p.pa % 32) bs (bufferedBytes cb (p.pa / 32)) := by
  unfold cbStored
  split
  · next hany =>
    obtain ⟨e, he⟩ := Option.isSome_iff_exists.1 (List.find?_isSome.trans List.any_eq_true.symm |>.2 hany)
    have hline : e.line = p.pa / 32 := by simpa using List.find?_some he
    have hfind : (cb.map (·.joined (p.pa / 32) (p.pa % 32) bs clk)).find? (fun e => e.line == p.pa / 32) =
        some (e.joined (p.pa / 32) (p.pa % 32) bs clk) := by
      rw [List.find?_map]
      simp only [Function.comp_def, CbEntry.joined_line, he, Option.map_some]
    rw [bufferedBytes, bufferedBytes, hfind, he, Option.map_some, CbEntry.joined, if_pos hline]
    rfl
  · next hany =>
    have hnone : cb.find? (fun e => e.line == p.pa / 32) = none := by simpa using hany
    simp [bufferedBytes, List.find?_append, hnone, newEntry]

/-- An entry of another line stays, and no other comes. -/
theorem mem_cbStored_iff (cb : List CbEntry) (p : Phys) (bs : List Byte) (clk : Nat) {e : CbEntry} (he : e.line ≠ p.pa / 32) :
    e ∈ cbStored cb p bs clk ↔ e ∈ cb := by
  have hother {x : CbEntry} (hx : x.line ≠ p.pa / 32) : x.joined (p.pa / 32) (p.pa % 32) bs clk = x := if_neg hx
  unfold cbStored
  split
  · rw [List.mem_map]
    constructor
    · rintro ⟨x, hx, rfl⟩
      rw [CbEntry.joined_line] at he
      rwa [hother he]
    · exact fun h => ⟨e, h, hother he⟩
  · simp only [List.mem_append, List.mem_singleton, or_iff_left_iff_imp]
    rintro rfl
    exact absurd rfl he

/-- The state in which a core's buffer has a place. -/
def State.cbRoom (s : State) (core : Nat) : State :=
  if (s.core core).cb.length < 16 then s else match (s.core core).cb with | [] => s | e :: _ => s.cbDrain core e.line

theorem coreWrite_joins (hc : s.uncached p = false) (hany : ((s.core core).cb.any fun e => e.line == p.pa / 32) = true) :
    s.coreWrite core p bs =
      s.setCore core { s.core core with cb := (s.core core).cb.map (·.joined (p.pa / 32) (p.pa % 32) bs s.clk) } := by
  unfold State.coreWrite
  rw [hc, if_neg Bool.false_ne_true]
  exact if_pos hany

theorem coreWrite_enters (hc : s.uncached p = false) (hany : ((s.core core).cb.any fun e => e.line == p.pa / 32) = false) :
    s.coreWrite core p bs =
      ((s.cbRoom core).modCore core fun c => { c with cb := c.cb ++ [newEntry p bs (s.cbRoom core).clk] }).after 64
        (.coalesceDrainTimeout core (p.pa / 32)) := by
  unfold State.coreWrite
  rw [hc, if_neg Bool.false_ne_true]
  exact if_neg (Bool.eq_false_iff.1 hany)

/-- With a place in the buffer, a plain store changes it and times its drain. -/
theorem coreWrite_room (hc : s.uncached p = false) (hroom : (s.core core).cb.length < 16) :
    ∃ duties, s.coreWrite core p bs =
      { s with cores := AMap.set s.cores core { s.core core with cb := cbStored (s.core core).cb p bs s.clk }
               duties := s.duties ++ duties } := by
  cases hany : (s.core core).cb.any fun e => e.line == p.pa / 32 with
  | true =>
    refine ⟨[], ?_⟩
    rw [coreWrite_joins hc hany, cbStored, hany, List.append_nil]
    rfl
  | false =>
    refine ⟨[{ due := s.clk + 64, work := .ev (.coalesceDrainTimeout core (p.pa / 32)) }], ?_⟩
    rw [coreWrite_enters hc hany, cbStored, hany, State.cbRoom, if_pos hroom]
    rfl

theorem mem_cb_cbRoom {e : CbEntry} (he : e ∈ ((s.cbRoom core).core core).cb) : e ∈ (s.core core).cb := by
  unfold State.cbRoom at he
  split at he
  · exact he
  split at he
  · exact he
  · rw [cb_cbDrain] at he
    exact List.mem_of_mem_filter he

/-- Whatever leaves a full buffer, the bytes stored enter it. -/
theorem cb_coreWrite (hc : s.uncached p = false) :
    ∃ cb clk, ((s.coreWrite core p bs).core core).cb = cbStored cb p bs clk := by
  cases hany : (s.core core).cb.any fun e => e.line == p.pa / 32 with
  | true =>
    refine ⟨(s.core core).cb, s.clk, ?_⟩
    rw [coreWrite_joins hc hany, core_setCore, cbStored, hany]
    rfl
  | false =>
    refine ⟨((s.cbRoom core).core core).cb, (s.cbRoom core).clk, ?_⟩
    have hnone : (((s.cbRoom core).core core).cb.any fun e => e.line == p.pa / 32) = false :=
      List.any_eq_false.2 fun e he => List.any_eq_false.1 hany e (mem_cb_cbRoom he)
    rw [coreWrite_enters hc hany, core_after, core_modCore, cbStored, hnone]
    rfl

/-! ## Reads -/

theorem uncached_of_keeps {t : State} (h : keeps s t) (p : Phys) : t.uncached p = s.uncached p := by
  simp only [State.uncached, keeps_tier h]

theorem cb_l1dLine (s : State) (core : Nat) (p : Phys) : ((s.l1dLine core p).2.core core).cb = (s.core core).cb := by
  have hl2 := (forwards_trans (forwards_stallFor s Config.l2Clk) (forwards_l2Line _ (coveOfCore core) p)).1 core
  unfold State.l1dLine
  dsimp only
  split
  · rfl
  split
  · simpa using hl2
  · simpa [(forwards_pick _ _).1 core] using hl2

/-- A read of cached memory is its line's bytes, hidden by those that the core's buffer holds. -/
theorem fst_coreRead (hc : s.uncached q = false) (n : Nat) : (s.coreRead core q n).1 =
    hideBytes (bufferedBytes (s.core core).cb (q.pa / 32)) (q.pa % 32) (getBytes (s.l1dLine core q).1.data (q.pa % 32) n) := by
  unfold State.coreRead
  rw [hc, if_neg Bool.false_ne_true, ← cb_l1dLine s core q]
  exact overlay_eq_hideBytes _ _ _

/-- The bytes stored read back. -/
theorem coreRead_coreWrite (hc : s.uncached p = false) :
    ((s.coreWrite core p bs).coreRead core p bs.length).1 = bs := by
  obtain ⟨cb, clk, hcb⟩ := cb_coreWrite (core := core) (bs := bs) hc
  rw [fst_coreRead ((uncached_of_keeps (keeps_coreWrite s core p bs) p).trans hc), hcb, bufferedBytes_cbStored]
  exact hideBytes_putFrom _ _ _ (length_natBytes _ _)

/-! ## What the caches and homes answer does not depend on the buffers -/

/-- The machine with other cores and events. -/
def State.besides (s : State) (c : AMap Core) (d : List Duty) : State := { s with cores := c, duties := d }

theorem tierOf_eq_regs_iff (ft : Fitting) (pa : Nat) : tierOf ft pa = .regs ↔ 0x80000000000 ≤ pa ∧ pa < 0x80001000000 := by
  simp only [tierOf]
  split_ifs <;> simp <;> omega

theorem tierOf_eq_host_iff (ft : Fitting) (pa : Nat) :
    tierOf ft pa = .host ↔ 0x8000000000000 ≤ pa ∧ pa < 0x10000000000000 := by
  simp only [tierOf]
  split_ifs <;> simp <;> omega

/-- A line of a cove's L2 filled from the home. -/
def State.filled (s : State) (p : Phys) : L2Line :=
  { data := insBytes 0#512 0 (s.homeRead (64 * (p.pa / 64)) 64), stamp := s.tideT p.tide, tide := p.tide }

theorem fst_l2Line_listed {cove : Nat} {l : L2Line} (h : AMap.get? (s.cove cove).l2 (p.pa / 64) = some l) :
    (s.l2Line cove p).1 = if l.sup then s.filled p else l := by
  unfold State.l2Line
  simp only [h]
  split <;> rfl

theorem fst_l2Line_missing {cove : Nat} (h : AMap.get? (s.cove cove).l2 (p.pa / 64) = none) :
    (s.l2Line cove p).1 = (s.l2Evict cove).filled p := by
  unfold State.l2Line
  simp only [h]
  rfl

/-- A core's own copy of an address's line, where its cove's is not superseded (R226). -/
def State.l1dHit (s : State) (core : Nat) (p : Phys) : Option L1dLine :=
  if (match AMap.get? (s.cove (coveOfCore core)).l2 (p.pa / 64) with | some l => l.sup | none => true) then none
  else AMap.get? (s.core core).l1d (p.pa / 32)

/-- The bytes that a core finds: its own copy's, or its half of the cove's line. -/
theorem data_l1dLine (s : State) (core : Nat) (p : Phys) : (s.l1dLine core p).1.data =
    ((s.l1dHit core p).map (·.data)).getD (BitVec.ofNat 256
      (((s.stallFor Config.l2Clk).l2Line (coveOfCore core) p).1.data.toNat / 2 ^ (256 * (p.pa / 32 % 2)))) := by
  change (match s.l1dHit core p with | some l => (l, s) | none => _).1.data = _
  cases s.l1dHit core p <;> rfl

/-- What cove `k`'s copy `l` of a line leaves at a write at the home (R249). -/
def lostCopy (line k : Nat) (l : L2Line) (s : State) : State :=
  let s := { s with cores := dropL1i s.cores line l.cores }
  if l.tide.isSome then
    s.modCove k fun v => { v with l2 := AMap.set v.l2 line { l with sup := true, dirty := [], whole := false, cores := [] } }
  else { s.modCove k fun v => { v with l2 := AMap.del v.l2 line } with cores := dropL1d s.cores k line }

theorem invalidate_keeps {src : Option Nat} {line k : Nat} (r : List Nat)
    (h : src = some k ∨ AMap.get? (s.cove k).l2 line = none) : invalidate s src line (k :: r) = invalidate s src line r := by
  rw [invalidate]
  by_cases hsrc : src = some k
  · rw [if_pos hsrc]
  · rw [if_neg hsrc, h.resolve_left hsrc]

theorem invalidate_loses {src : Option Nat} {line k : Nat} {l : L2Line} (r : List Nat) (hsrc : src ≠ some k)
    (hl : AMap.get? (s.cove k).l2 line = some l) : invalidate s src line (k :: r) =
      invalidate (lostCopy line k l (if l.unsent.isEmpty then s else putLine s line l.whole l.unsent)) src line r := by
  rw [invalidate, if_neg hsrc, hl]
  rfl

section Besides
variable (s) (c : AMap Core) (d : List Duty)

@[simp] theorem cove_besides (n : Nat) : (s.besides c d).cove n = s.cove n := rfl
@[simp] theorem isPoison_besides (pa : Nat) : (s.besides c d).isPoison pa = s.isPoison pa := rfl
@[simp] theorem modCove_besides (n : Nat) (f : Cove → Cove) :
    (s.besides c d).modCove n f = (s.modCove n f).besides c d := rfl

theorem pick_besides (n : Nat) : (s.besides c d).pick n = ((s.pick n).1, (s.pick n).2.besides c d) := by
  unfold State.pick
  split <;> rfl

theorem putBytes_besides (line : Nat) (bs : List (Nat × Byte)) :
    putBytes (s.besides c d) line bs = (putBytes s line bs).besides c d := by
  induction bs generalizing s with
  | nil => rfl
  | cons b bs ih =>
    unfold putBytes
    dsimp only
    rw [← ih]
    congr 1
    change (if s.hasFe _ then _ else _) = (if s.hasFe _ then _ else _ : State).besides c d
    split <;> rfl

theorem putLine_besides (line : Nat) (whole : Bool) (bs : List (Nat × Byte)) :
    putLine (s.besides c d) line whole bs = (putLine s line whole bs).besides c d := by
  unfold putLine
  rw [isPoison_besides]
  split
  · rfl
  · exact putBytes_besides { s with poison := AMap.del s.poison line } c d line bs

theorem lostCopy_besides (line k : Nat) (l : L2Line) :
    ∃ c', lostCopy line k l (s.besides c d) = (lostCopy line k l s).besides c' d := by
  unfold lostCopy
  dsimp only
  split <;> exact ⟨_, rfl⟩

theorem invalidate_besides (src : Option Nat) (line : Nat) (cs : List Nat) :
    ∃ c', invalidate (s.besides c d) src line cs = (invalidate s src line cs).besides c' d := by
  induction cs generalizing s c with
  | nil => exact ⟨c, rfl⟩
  | cons k r ih =>
    by_cases hkeep : src = some k ∨ AMap.get? (s.cove k).l2 line = none
    · rw [invalidate_keeps r hkeep, invalidate_keeps (s := s.besides c d) r hkeep]
      exact ih s c
    · obtain ⟨hsrc, hcopy⟩ := not_or.1 hkeep
      obtain ⟨l, hl⟩ := Option.ne_none_iff_exists'.1 hcopy
      have hput : (if l.unsent.isEmpty then s.besides c d else putLine (s.besides c d) line l.whole l.unsent) =
          (if l.unsent.isEmpty then s else putLine s line l.whole l.unsent).besides c d := by
        split
        · rfl
        · exact putLine_besides _ _ _ _ _ _
      obtain ⟨c', hc'⟩ := lostCopy_besides (if l.unsent.isEmpty then s else putLine s line l.whole l.unsent) c d line k l
      rw [invalidate_loses r hsrc hl, invalidate_loses (s := s.besides c d) r hsrc hl, hput, hc']
      exact ih _ c'

theorem homePut_besides (src : Option Nat) (line : Nat) (whole : Bool) (bs : List (Nat × Byte)) :
    ∃ c', homePut (s.besides c d) src line whole bs = (homePut s src line whole bs).besides c' d := by
  unfold homePut
  rw [isPoison_besides]
  split
  · exact ⟨c, rfl⟩
  · obtain ⟨c', hc'⟩ := invalidate_besides s c d (if unsentElsewhere s src line then none else src) line (AMap.keys s.coves)
    refine ⟨c', ?_⟩
    rw [← putLine_besides, ← hc']
    rfl

theorem l2Forward_besides (cove line : Nat) :
    ∃ c', (s.besides c d).l2Forward cove line = (s.l2Forward cove line).besides c' d := by
  unfold State.l2Forward
  rw [cove_besides]
  split
  · exact ⟨c, rfl⟩
  split
  · exact ⟨c, rfl⟩
  · rw [modCove_besides]
    exact homePut_besides _ c d _ _ _ _

theorem l2Evict_besides (cove : Nat) : ∃ c', (s.besides c d).l2Evict cove = (s.l2Evict cove).besides c' d := by
  unfold State.l2Evict
  rw [cove_besides, pick_besides]
  split
  · exact ⟨c, rfl⟩
  dsimp only
  rw [cove_besides]
  obtain ⟨c', hc'⟩ := l2Forward_besides (s.pick (s.cove cove).l2.length).2 c d cove
    ((AMap.keys ((s.pick (s.cove cove).l2.length).2.cove cove).l2).getD (s.pick (s.cove cove).l2.length).1 0)
  rw [hc', cove_besides]
  split
  · exact ⟨c', rfl⟩
  · exact ⟨_, rfl⟩

theorem filled_besides (h : s.uncached p = false) : (s.besides c d).filled p = s.filled p := by
  have htier : s.tier (64 * (p.pa / 64)) ≠ .regs := by
    simp only [State.uncached, Bool.or_eq_false_iff, beq_eq_false_iff_ne, State.tier, ne_eq, tierOf_eq_regs_iff] at h ⊢
    omega
  have hread (t : State) (ht : t.tier (64 * (p.pa / 64)) ≠ .regs) :
      t.homeRead (64 * (p.pa / 64)) 64 = Bytes.rdN t.mem (64 * (p.pa / 64)) 64 := if_neg ht
  rw [State.filled, State.filled, hread s htier, hread (s.besides c d) htier]
  rfl

theorem fst_l2Line_besides (cove : Nat) (h : s.uncached p = false) :
    ((s.besides c d).l2Line cove p).1 = (s.l2Line cove p).1 := by
  cases hl : AMap.get? (s.cove cove).l2 (p.pa / 64) with
  | none =>
    obtain ⟨c', hc'⟩ := l2Evict_besides s c d cove
    rw [fst_l2Line_missing hl, fst_l2Line_missing (s := s.besides c d) hl, hc',
      filled_besides _ _ _ ((uncached_of_keeps (keeps_l2Evict s cove) p).trans h)]
  | some l =>
    rw [fst_l2Line_listed hl, fst_l2Line_listed (s := s.besides c d) hl, filled_besides _ _ _ h]

theorem l1dHit_besides (h : ((s.besides c d).core core).l1d = (s.core core).l1d) :
    (s.besides c d).l1dHit core p = s.l1dHit core p := by
  rw [State.l1dHit, State.l1dHit, h, cove_besides]

/-- The line that a core finds is the same where its L1D is. -/
theorem data_l1dLine_besides (hc : s.uncached p = false) (h : ((s.besides c d).core core).l1d = (s.core core).l1d) :
    ((s.besides c d).l1dLine core p).1.data = (s.l1dLine core p).1.data := by
  rw [data_l1dLine, data_l1dLine, l1dHit_besides s c d h]
  have hl2 : (((s.besides c d).stallFor Config.l2Clk).l2Line (coveOfCore core) p).1 = _ :=
    fst_l2Line_besides (s.stallFor Config.l2Clk) c d (coveOfCore core) hc
  rw [hl2]

end Besides

/-! ## The other bytes of the line -/

/-- The bounds of the tiers that are never cached are multiples of 32. -/
theorem uncached_of_line (hline : q.pa / 32 = p.pa / 32) (hhs : q.hs = p.hs) : s.uncached q = s.uncached p := by
  have hregs : tierOf s.fit q.pa = .regs ↔ tierOf s.fit p.pa = .regs := by
    rw [tierOf_eq_regs_iff, tierOf_eq_regs_iff]
    omega
  have hhost : tierOf s.fit q.pa = .host ↔ tierOf s.fit p.pa = .host := by
    rw [tierOf_eq_host_iff, tierOf_eq_host_iff]
    omega
  rw [Bool.eq_iff_iff]
  simp [State.uncached, State.tier, hhs, hregs, hhost]

theorem coreRead_coreWrite_other (hc : s.uncached p = false) (hroom : (s.core core).cb.length < 16)
    (hline : q.pa / 32 = p.pa / 32) (hhs : q.hs = p.hs) (hout : q.pa < p.pa ∨ p.pa + bs.length ≤ q.pa) :
    ((s.coreWrite core p bs).coreRead core q 1).1 = (s.coreRead core q 1).1 := by
  have hcq : s.uncached q = false := (uncached_of_line hline hhs).trans hc
  obtain ⟨duties, hw⟩ := coreWrite_room (bs := bs) hc hroom
  have hcore : (s.coreWrite core p bs).core core = { s.core core with cb := cbStored (s.core core).cb p bs s.clk } := by
    rw [hw]
    exact AMap.getD_set_self _ _ _ _
  have hdata : ((s.coreWrite core p bs).l1dLine core q).1.data = (s.l1dLine core q).1.data := by
    have hl1d := congrArg Core.l1d hcore
    rw [hw] at hl1d ⊢
    exact data_l1dLine_besides s _ _ hcq hl1d
  rw [fst_coreRead hcq, fst_coreRead ((uncached_of_keeps (keeps_coreWrite s core p bs) q).trans hcq), hdata, hcore]
  dsimp only
  rw [hline, bufferedBytes_cbStored, getBytes, natBytes, natBytes, hideBytes_cons, hideBytes_cons,
    get?_putFrom_outside _ (by omega)]
  rfl

end Sys2Proof.Machine

open Sys2Proof Sys2Proof.Machine

/-- Settles O4: the bytes stored are in the core's buffer (`cb_coreWrite`), which a read prefers to the line it finds
(`fst_coreRead`); the line found does not depend on the buffer (`data_l1dLine_besides`). -/
theorem storeThenLoad : Obligations.StoreThenLoad := by
  refine ⟨fun s core p q bs hc _ => ⟨coreRead_coreWrite hc, fun hroom hline hhs _ hout =>
    coreRead_coreWrite_other hc hroom hline hhs hout⟩, fun s core p bs hc hroom => ?_⟩
  obtain ⟨duties, hw⟩ := coreWrite_room (bs := bs) hc hroom
  exact ⟨_, duties, hw, fun e he hline => (mem_cbStored_iff _ p bs s.clk hline).1 he,
    fun e he hline => (mem_cbStored_iff _ p bs s.clk hline).2 he⟩
end

section
/-! Vector loads and stores (R208-R210): the check of an access's elements, what a load gives and a store writes once it
passes, and O16. -/

namespace Sys2Proof.Machine

variable {s t u : State} {m : Bool} {vd vs vs2 : VReg} {rs1 rs2 : XReg} {a b : Word} {v0 d ix : VWord} {ps : List Phys}

/-! ## The check of the elements (R208) -/

theorem poisonAll_ok {l : List (Word × Phys)} (h : ∀ q ∈ l, t.isPoison q.2.pa = false) : poisonAll t l = .ok () := by
  induction l with
  | nil => rfl
  | cons q l ih =>
    rw [poisonAll, h q (List.mem_cons_self ..), if_neg Bool.false_ne_true, ih fun x hx => h x (List.mem_cons_of_mem _ hx)]

section Check
variable {k : Kind} {e : Nat} {vas : List Word} (halign : ∀ va ∈ vas, va.toNat % e = 0)
include halign

/-- The check of aligned elements is their translation, then their poison. -/
theorem checkAll_aligned : checkAll s k e vas =
    xlatAll s s.agent k vas >>= fun r => poisonAll r.2 (vas.zip r.1) >>= fun _ => .ok r := by
  have hfind : vas.find? (fun va => !aligned va e) = none :=
    List.find?_eq_none.2 fun va hva => by simp [aligned, halign va hva]
  rw [checkAll, hfind]
  rfl

theorem checkAll_ok (hx : xlatAll s s.agent k vas = .ok (ps, t)) (hpoison : ∀ p ∈ ps, t.isPoison p.pa = false) :
    checkAll s k e vas = .ok (ps, t) := by
  rw [checkAll_aligned halign, hx, ok_bind, poisonAll_ok fun q hq => hpoison q.2 (List.of_mem_zip hq).2, ok_bind]

theorem checkAll_error {f : Trap} (hx : xlatAll s s.agent k vas = .error f) : checkAll s k e vas = .error f := by
  rw [checkAll_aligned halign, hx, error_bind]

end Check

theorem keeps_xlatAll {s : State} {ps : List Phys} {ag : Agent} {k : Kind} {vas : List Word}
    (h : xlatAll s ag k vas = .ok (ps, t)) : keeps s t := by
  induction vas generalizing s ps with
  | nil => cases h; exact keeps_refl _
  | cons va vas ih =>
    rw [xlatAll] at h
    cases hp : translate s ag va k with
    | error f => rw [hp] at h; cases h
    | ok r =>
      rw [hp, ok_bind] at h
      cases hr : xlatAll r.2 ag k vas with
      | error f => simp only [hr, error_bind] at h; cases h
      | ok q =>
        simp only [hr, ok_bind] at h
        cases h
        exact keeps_trans (keeps_translate hp) (ih hr)

theorem keeps_readAll (s : State) (n : Nat) (ps : List Phys) : keeps s (readAll s n ps).2 := by
  induction ps generalizing s with
  | nil => exact keeps_refl s
  | cons p ps ih => exact keeps_trans (keeps_coreRead _ _ _ _) (ih _)

theorem keeps_vecMask (h : keeps s t) (m : Bool) : t.vecMask m = s.vecMask m := by
  rw [State.vecMask, State.vecMask, keeps_vr h]

/-! ## Loads and stores of elements -/

theorem mem_activeOf {n k : Nat} : k ∈ activeOf m v0 n ↔ k < n ∧ active m v0 k = true := by
  simp [activeOf]

/-- What was got for an element is found by its number. -/
theorem find?_zip_map {val : Nat → Nat} {l : List Nat} {k : Nat} (h : k ∈ l) :
    (l.zip (l.map val)).find? (fun p => p.1 == k) = some (k, val k) := by
  induction l with
  | nil => cases h
  | cons j l ih =>
    rw [List.map_cons, List.zip_cons_cons]
    by_cases hj : j = k
    · rw [hj, List.find?_cons_of_pos (by simp)]
    · rw [List.find?_cons_of_neg (by simpa using hj), ih ((List.mem_cons.1 h).resolve_left (Ne.symm hj))]

/-- A result that can be written commits on whatever state began. -/
theorem commit_vecMap {w n : Nat} {res : Nat → Nat × NxFlags} (hd : u.vOk vd) (hm : u.vecMask m = .ok v0) :
    s.commit (u.vecMap m w n vd res) = u.commit (u.vecMap m w n vd res) := by
  rw [State.vecMap, hm, ok_bind]
  dsimp only
  rw [vecPut_of_vOk hd, commit_ok, commit_ok]

section Elements
variable {e n : Nat} {at_ : Nat → Word} (hm : s.vecMask m = .ok v0)
  (halign : ∀ k ∈ activeOf m v0 n, (at_ k).toNat % e = 0)
include hm halign

theorem vecWrites_vecLoad {val : Nat → Nat} (hsize : 8 * e * n ≤ 1024) (hvd : u.vOk vd)
    (hx : xlatAll s s.agent .r ((activeOf m v0 n).map at_) = .ok (ps, t)) (hpoison : ∀ p ∈ ps, t.isPoison p.pa = false)
    (hread : readAll t e ps = ((activeOf m v0 n).map val, u)) :
    u.vecWrites m v0 (8 * e) n vd (fun k => (val k, 0#5)) (s.commit (vecLoad m vd e n at_ s)) := by
  have hkeep : keeps s u := keeps_trans (keeps_xlatAll hx) ((congrArg (fun r => keeps t r.2) hread).mp (keeps_readAll t e ps))
  have hmask : u.vecMask m = .ok v0 := (keeps_vecMask hkeep m).trans hm
  let got (k : Nat) : Nat × NxFlags :=
    (((((activeOf m v0 n).zip ((activeOf m v0 n).map val)).find? fun p => p.1 == k).map (·.2)).getD 0, 0#5)
  have hload : vecLoad m vd e n at_ s = u.vecMap m (8 * e) n vd got := by
    rw [vecLoad, hm, ok_bind]
    dsimp only
    rw [checkAll_ok (List.forall_mem_map.2 halign) hx hpoison, ok_bind]
    dsimp only
    rw [hread, State.vecMap, hmask, ok_bind]
    dsimp only
    rw [lanesOf_noFlags fun _ => rfl]
  rw [hload, commit_vecMap hvd hmask]
  refine vecWrites_congr (vecWrites_of_vecMap hvd hmask hsize) fun k hk hact => ?_
  simp only [got, find?_zip_map (mem_activeOf.2 ⟨hk, hact⟩), Option.map_some, Option.getD_some]

theorem commit_vecStore (hx : xlatAll s s.agent .w ((activeOf m v0 n).map at_) = .ok (ps, t))
    (hpoison : ∀ p ∈ ps, t.isPoison p.pa = false) : s.commit (vecStore m d e n at_ s) =
      .next (writeAll t e (ps.zip ((activeOf m v0 n).map fun k => elemV d (8 * e) k))).retire := by
  rw [vecStore, hm, ok_bind]
  dsimp only
  rw [checkAll_ok (List.forall_mem_map.2 halign) hx hpoison]
  rfl

theorem commit_vecStore_error {f : Trap} (hx : xlatAll s s.agent .w ((activeOf m v0 n).map at_) = .error f) :
    s.commit (vecStore m d e n at_ s) = .next (s.takeTrap f) := by
  rw [vecStore, hm, ok_bind]
  dsimp only
  rw [checkAll_error (List.forall_mem_map.2 halign) hx]
  rfl

end Elements

/-! ## The instructions (R209, R210) -/

theorem lanes_fit (z : Size) : 8 * Size.bytes z * (128 / Size.bytes z) ≤ 1024 := by cases z <;> decide

theorem indexed_lanes_fit (z : Size) : 8 * Size.bytes z * min 32 (128 / Size.bytes z) ≤ 1024 :=
  (Nat.mul_le_mul_left _ (min_le_right _ _)).trans (lanes_fit z)

/-- The address of an element of a gather or scatter, computed on integers. -/
theorem indexed64_eq_word (a : Word) (ix : VWord) (e : Nat) (scl : Bool) :
    indexed64 a ix e scl = fun k => a + word (intOf 32 (elemV ix 32 k) * (if scl then (e : Int) else 1)) := by
  have hmul (x : Int) : word x * w64 e = word (x * e) := by
    rw [word, word, BitVec.ofInt_mul, BitVec.ofInt_natCast]
    rfl
  funext k
  rw [indexed64, sext_w64 (by decide)]
  cases scl with
  | true => exact congrArg (a + ·) (hmul _)
  | false => exact congrArg (a + word ·) (Int.mul_one _).symm

/-- The elements of a store that lie in one half of its 128 bytes, with their values. -/
def halfOf (d : VWord) (el : List (Nat × Phys)) (h : Nat) : List (Phys × Nat) :=
  el.filterMap fun q => if q.1 / 16 = h then some (q.2, elemV d 32 q.1) else none

theorem storeLine_clean {el : List (Nat × Phys)} (h : Nat) (hpoison : ∀ q ∈ el, s.isPoison q.2.pa = false) :
    storeLine d a el s h = .ok (writeAll s 4 (halfOf d el h)) := by
  have hhalf : halfOf d el h = (el.filter fun q => q.1 / 16 == h).map fun q => (q.2, elemV d 32 q.1) := by
    rw [← List.filterMap_eq_map, List.filterMap_filter]
    simp [halfOf]
  rw [hhalf, storeLine]
  cases hmine : el.filter fun q => q.1 / 16 == h with
  | nil => rfl
  | cons q r =>
    have hq : q ∈ el := List.mem_of_mem_filter (hmine ▸ List.mem_cons_self ..)
    dsimp only
    rw [hpoison q hq, if_neg Bool.false_ne_true]

section Instructions
variable (ha : s.xr rs1 = .ok a)
include ha

theorem exec_vlds (hb : s.xr rs2 = .ok b) (z : Size) : exec (.vlds m z vd rs1 rs2) s =
    s.commit (vecLoad m vd (Size.bytes z) (128 / Size.bytes z) (fun k => a + w64 k * b) s) := by
  change execVlds m z vd rs1 rs2 s = _
  rw [execVlds, ha, ok_bind, hb, ok_bind]

theorem exec_vlx (hix : s.vr vs2 = .ok ix) (z : Size) (scl : Bool) : exec (.vlx m z scl vd rs1 vs2) s =
    s.commit (vecLoad m vd (Size.bytes z) (min 32 (128 / Size.bytes z))
      (fun k => a + word (intOf 32 (elemV ix 32 k) * (if scl then (Size.bytes z : Int) else 1))) s) := by
  change execVlx m z scl vd rs1 vs2 s = _
  rw [execVlx, ha, ok_bind, hix, ok_bind, ← indexed64_eq_word]

theorem exec_vsts (hb : s.xr rs2 = .ok b) (hd : s.vr vs = .ok d) (z : Size) : exec (.vsts m z vs rs1 rs2) s =
    s.commit (vecStore m d (Size.bytes z) (128 / Size.bytes z) (fun k => a + w64 k * b) s) := by
  change execVsts m z vs rs1 rs2 s = _
  rw [execVsts, ha, ok_bind, hb, ok_bind, hd, ok_bind]

theorem exec_vsx (hix : s.vr vs2 = .ok ix) (hd : s.vr vs = .ok d) (z : Size) (scl : Bool) :
    exec (.vsx m z scl vs rs1 vs2) s = s.commit (vecStore m d (Size.bytes z) (min 32 (128 / Size.bytes z))
      (fun k => a + word (intOf 32 (elemV ix 32 k) * (if scl then (Size.bytes z : Int) else 1))) s) := by
  change execVsx m z scl vs rs1 vs2 s = _
  rw [execVsx, ha, ok_bind, hix, ok_bind, hd, ok_bind, ← indexed64_eq_word]

variable (hm : s.vecMask m = .ok v0)
include hm

theorem exec_vld (h : a.toNat % 128 = 0) :
    exec (.vld m vd rs1) s = s.commit (vecLoad m vd 4 32 (fun k => a + w64 (4 * k)) s) := by
  change execVld m vd rs1 s = _
  rw [execVld, ha, ok_bind, hm, ok_bind, need_multiple h, ok_bind]

theorem exec_vld_misaligned (h : a.toNat % 128 ≠ 0) :
    exec (.vld m vd rs1) s = .next (s.takeTrap { cause := 0x03, tval := a }) := by
  change execVld m vd rs1 s = _
  rw [execVld, ha, ok_bind, hm, ok_bind, need_noMultiple h]
  rfl

variable (hd : s.vr vs = .ok d)
include hd

theorem exec_vst_misaligned (h : a.toNat % 128 ≠ 0) :
    exec (.vst m vs rs1) s = .next (s.takeTrap { cause := 0x03, tval := a }) := by
  change execVst m vs rs1 s = _
  rw [execVst, ha, ok_bind, hd, ok_bind, hm, ok_bind, need_noMultiple h]
  rfl

/-- A `vst` that meets no poisoned line writes its halves in order. -/
theorem exec_vst {first : State} (h : a.toNat % 128 = 0)
    (hx : xlatAll s s.agent .w ((activeOf m v0 32).map fun k => a + w64 (4 * k)) = .ok (ps, t))
    (hfirst : writeAll t 4 (halfOf d ((activeOf m v0 32).zip ps) 0) = first) (ht : ∀ p ∈ ps, t.isPoison p.pa = false)
    (hclean : ∀ p ∈ ps, first.isPoison p.pa = false) :
    exec (.vst m vs rs1) s = .next (writeAll first 4 (halfOf d ((activeOf m v0 32).zip ps) 1)).retire := by
  have hhalf {r : State} (hr : ∀ p ∈ ps, r.isPoison p.pa = false) (k : Nat) :
      storeLine d a ((activeOf m v0 32).zip ps) r k = .ok (writeAll r 4 (halfOf d ((activeOf m v0 32).zip ps) k)) :=
    storeLine_clean k fun q hq => hr q.2 (List.of_mem_zip hq).2
  change execVst m vs rs1 s = _
  rw [execVst, ha, ok_bind, hd, ok_bind, hm, ok_bind, need_multiple h, ok_bind]
  dsimp only
  rw [hx, ok_bind]
  dsimp only
  rw [hhalf ht, ok_bind, hhalf ht, ok_bind, ok_bind, hfirst, hhalf hclean]
  rfl

end Instructions

end Sys2Proof.Machine

open Sys2Proof Sys2Proof.Machine

/-- Settles O16: a load is the check of its elements (`checkAll_ok`), the reads, and a vector result (`vecWrites_vecLoad`); a
store is the check and the writes in order (`commit_vecStore`), of a `vst` by halves (`exec_vst`). -/
theorem vectorAccesses : Obligations.VectorAccesses := by
  refine ⟨fun s t u m vd vs2 rs1 rs2 a b ix v0 val ha hb hix hm hvd => ?loads,
    fun s t m vs vs2 rs1 rs2 a b d ix v0 ha hb hd hix hm => ?stores⟩
  case loads =>
    intro reads
    refine ⟨fun h ps halign hx hpoison hread => ?vld, exec_vld_misaligned ha hm, fun z ps halign hx hpoison hread => ?vlds,
      fun z scl ps halign hx hpoison hread => ?vlx⟩
    case vld =>
      rw [exec_vld ha hm h]
      exact vecWrites_vecLoad hm halign (by decide) hvd hx hpoison hread
    case vlds =>
      rw [exec_vlds ha hb]
      exact vecWrites_vecLoad hm halign (lanes_fit z) hvd hx hpoison hread
    case vlx =>
      rw [exec_vlx ha hix]
      exact vecWrites_vecLoad hm halign (indexed_lanes_fit z) hvd hx hpoison hread
  case stores =>
    intro act writes
    refine ⟨?vst, exec_vst_misaligned ha hm hd, fun z halign => ?vsts, fun z scl halign => ?vsx⟩
    case vst =>
      intro h ps hx half hpoison
      exact exec_vst ha hm hd h hx rfl (fun p hp => (hpoison p hp).1) fun p hp => (hpoison p hp).2
    case vsts =>
      rw [exec_vsts ha hb hd]
      exact ⟨fun ps => commit_vecStore hm halign, fun f => commit_vecStore_error hm halign⟩
    case vsx =>
      rw [exec_vsx ha hix hd]
      exact ⟨fun ps => commit_vecStore hm halign, fun f => commit_vecStore_error hm halign⟩
end

section
/-! Synchronising loads and the full/empty bits (R214-R217): a word taken at its home, the sixteen words of a vector, the bit
that `fe.set` and `fe.clr` set, and O18. -/

namespace Sys2Proof.Machine

variable {s t : State} {rd rs1 : XReg} {vd : VReg} {a : Word} {p : Phys}

/-! ## What a register write and an access leave -/

@[simp] theorem putX_fit (s : State) (r : XReg) (w : Word) : (s.putX r w).fit = s.fit := by
  unfold State.putX; split <;> simp

theorem tier_putX (s : State) (r : XReg) (w : Word) (pa : Nat) : (s.putX r w).tier pa = s.tier pa := by
  rw [State.tier, State.tier, putX_fit]

/-! ## Words taken at their home (R214-R216) -/

/-- A word's read is over at its home `h` and leaves `u`: a superseded copy goes, the load acquires at device scope and retires
after the home's time. -/
def State.wordTaken (h : State) (p : Phys) (u : State) : State :=
  (((u.dropOld (coveOfSlot h.cur) (p.pa / 64)).acquireAt (coreOf h.cur) .dv).stallFor (tierClk (h.tier p.pa))).retire

theorem feOk_of_hasFe (h : t.hasFe p.pa = true) (va : Word) : feOk t p va = .ok () := need_ok h _ _

theorem noPoison_of_clean (h : t.isPoison p.pa = false) (va : Word) : noPoison t p va = .ok () := need_ok (by rw [h]; rfl) _ _

section SyncLoad
variable (i : Instr) (clear : Bool) (ha : s.xr rs1 = .ok a) (halign : a.toNat % 8 = 0)
  (hx : translate s s.agent a .r = .ok (p, t)) (hfe : t.hasFe p.pa = true) (hpoison : t.isPoison p.pa = false)
  (hrd : (t.atHome t.agent p).xOk rd)
include ha halign hx hfe hpoison hrd

theorem syncLoad_full (hfull : (t.atHome t.agent p).isFull p.pa = true) : syncLoad i clear rd rs1 s =
    .ok ((t.atHome t.agent p).wordTaken p (if clear
      then ((t.atHome t.agent p).putX rd ((t.atHome t.agent p).homeWord p)).setEmpty p.pa
      else (t.atHome t.agent p).putX rd ((t.atHome t.agent p).homeWord p))) := by
  rw [syncLoad, ha, ok_bind, need_multiple halign, ok_bind, hx, ok_bind]
  dsimp only
  rw [feOk_of_hasFe hfe, ok_bind, noPoison_of_clean hpoison, ok_bind, if_pos hfull, setX_of_xOk hrd, ok_bind]
  generalize hu : (t.atHome t.agent p).putX rd ((t.atHome t.agent p).homeWord p) = u
  have hcur : u.cur = (t.atHome t.agent p).cur := hu ▸ putX_cur ..
  have htier : u.tier p.pa = (t.atHome t.agent p).tier p.pa := hu ▸ tier_putX ..
  generalize hw : (if clear then u.setEmpty p.pa else u) = w
  have hwcur : w.cur = u.cur := by rw [← hw]; split <;> rfl
  have hwtier : w.tier p.pa = u.tier p.pa := by rw [← hw]; split <;> rfl
  have hdrop : keeps w (w.dropOld (coveOfSlot u.cur) (p.pa / 64)) := keeps_dropOld ..
  rw [State.wordTaken, ← hcur, ← htier, keeps_cur hdrop, keeps_tier hdrop, hwcur, hwtier]
  rfl

theorem syncLoad_empty (hfull : (t.atHome t.agent p).isFull p.pa = false) : syncLoad i clear rd rs1 s =
    .ok ((t.atHome t.agent p).holdOn .sync i a) := by
  rw [syncLoad, ha, ok_bind, need_multiple halign, ok_bind, hx, ok_bind]
  dsimp only
  rw [feOk_of_hasFe hfe, ok_bind, noPoison_of_clean hpoison, ok_bind, if_neg (by rw [hfull]; decide),
    setX_of_xOk hrd]
  rfl

end SyncLoad

/-! ## Sixteen words (R214) -/

/-- The elements of a number put together from words. -/
theorem elemN_bytesNat_words (l : List Word) {j : Nat} (hj : j < l.length) :
    elemN (bytesNat (l.flatMap fun w => natBytes 8 w.toNat)) 64 j = (l[j]).toNat := by
  induction l generalizing j with
  | nil => cases hj
  | cons w l ih =>
    have hw : bytesNat (natBytes 8 w.toNat) = w.toNat := by rw [bytesNat_natBytes, Nat.mod_eq_of_lt w.isLt]
    rw [List.flatMap_cons, bytesNat_append, hw, length_natBytes, Nat.mul_comm, elemN_add_mul (w := 64) (a := 1) _ _ w.isLt]
    cases j with
    | zero => simp [elemN, Nat.mod_eq_of_lt w.isLt]
    | succ j => rw [if_neg (by omega), Nat.add_sub_cancel, ih (Nat.lt_of_succ_lt_succ hj), List.getElem_cons_succ]

theorem exec_vldS (ha : s.xr rs1 = .ok a) (halign : a.toNat % 128 = 0) (hrun : s.me.wait = .run) {val : Nat → Word}
    (htake : takeWords (s.modMe fun v => { v with taken := [] }) a (List.range 16) = .ok t)
    (hall : t.me.taken = (List.range 16).map fun j => (j, val j)) (hvd : t.vOk vd) :
    ∃ v : VWord, exec (.vldS vd rs1) s = .next
        (((t.vecDone vd v 0#5).acquireAt (coreOf t.cur) .dv).modMe fun x => { x with taken := [] })
      ∧ ∀ j, j < 16 → elemV v 64 j = (val j).toNat := by
  refine ⟨BitVec.ofNat 1024 (bytesNat (((List.range 16).map val).flatMap fun w => natBytes 8 w.toNat)), ?exec, fun j hj => ?elem⟩
  case exec =>
    have hlen : t.me.taken.length = 16 := by rw [hall, List.length_map, List.length_range]
    change execVldS vd rs1 s = _
    rw [execVldS, ha, ok_bind, need_multiple halign, ok_bind, hrun]
    dsimp only
    rw [htake, ok_bind, if_pos hlen, vecPut_of_vOk hvd, hall, List.flatMap_map, List.flatMap_map]
    rfl
  case elem =>
    have hj' : j < ((List.range 16).map val).length := by rwa [List.length_map, List.length_range]
    rw [elemV_ofNat _ (by omega), elemN_bytesNat_words _ hj', List.getElem_map, List.getElem_range]

/-! ## The bit of a word (R185, R217) -/

theorem isFull_setEmpty (s : State) (pa : Nat) : (s.setEmpty pa).isFull pa = false := by
  rw [State.isFull, State.setEmpty, AMap.get?_set_self]
  rfl

theorem isFull_setEmpty_ne (s : State) {pa q : Nat} (h : q / 8 ≠ pa / 8) : (s.setEmpty pa).isFull q = s.isFull q := by
  rw [State.isFull, State.setEmpty, AMap.get?_set_ne _ _ h, State.isFull]

theorem isFull_setFull_ne {pa q : Nat} (hs : s.canonical) (h : q / 8 ≠ pa / 8) : (s.setFull pa).isFull q = s.isFull q := by
  rw [State.isFull, State.setFull, AMap.get?_del_ne _ h hs.2.1, State.isFull]

theorem feStep_ok (full : Bool) (ha : s.xr rs1 = .ok a) (halign : a.toNat % 8 = 0)
    (hx : translate s s.agent a .w = .ok (p, t)) (hfe : t.hasFe p.pa = true) (hpoison : t.isPoison p.pa = false) :
    let h := (t.releaseAt (coreOf t.cur) .dv).atHome t.agent p
    feStep full rs1 s = .ok (if full then h.setFull p.pa else h.setEmpty p.pa).retire := by
  rw [feStep, ha, ok_bind, need_multiple halign, ok_bind, hx, ok_bind]
  dsimp only
  rw [feOk_of_hasFe hfe, ok_bind, noPoison_of_clean hpoison, ok_bind]
  rfl

end Sys2Proof.Machine

open Sys2Proof Sys2Proof.Machine

/-- Settles O18: past its checks, a synchronising load takes its word at the home or waits there (`syncLoad_full`,
`syncLoad_empty`), a `vld.s` writes the words taken (`exec_vldS`), and `fe.set` and `fe.clr` set one bit (`feStep_ok`). -/
theorem fullEmpty : Obligations.FullEmpty := by
  intro s t rd rs1 vd a p ha
  refine ⟨fun halign hx hfe hpoison => ?load, fun halign hrun val htake hall hvd => exec_vldS ha halign hrun htake hall hvd,
    fun halign hx hfe hpoison => ?bits⟩
  case load =>
    intro h c taken hrd
    refine ⟨fun hfull => ⟨?_, ?_⟩, fun hempty => ⟨?_, ?_⟩⟩
    · exact congrArg s.commit (syncLoad_full (.ldS rd rs1) false ha halign hx hfe hpoison hrd hfull)
    · exact congrArg s.commit (syncLoad_full (.ldSe rd rs1) true ha halign hx hfe hpoison hrd hfull)
    · exact congrArg s.commit (syncLoad_empty (.ldS rd rs1) false ha halign hx hfe hpoison hrd hempty)
    · exact congrArg s.commit (syncLoad_empty (.ldSe rd rs1) true ha halign hx hfe hpoison hrd hempty)
  case bits =>
    intro h
    have hkeep : keeps s h := keeps_trans (keeps_translate hx) (keeps_trans (keeps_releaseAt ..) (keeps_atHome ..))
    exact ⟨congrArg s.commit (feStep_ok true ha halign hx hfe hpoison),
      congrArg s.commit (feStep_ok false ha halign hx hfe hpoison), isFull_setEmpty h p.pa,
      fun q hcanon hq => ⟨isFull_setFull_ne (hkeep.2 hcanon) hq, isFull_setEmpty_ne h hq⟩⟩
end

section
/-! Tides (R224-R228): the region of a tide instruction, what a bounded load may take, and O19. -/

namespace Sys2Proof.Machine

variable {s t u : State} {rd rs1 rs2 : XReg} {vd : VReg} {a c : Word} {p : Phys}

/-! ## `tide.adv` and `tide.rd` (R225) -/

theorem tideRegion_listed {v e : Nat} {z : Tide} (hp : p.tide = some (v, e)) (hz : AMap.get? (t.tenant v).tides e = some z) :
    tideRegion t p a = .ok (v, e, z) := by
  simp only [tideRegion, hp, hz]

theorem tideRegion_outside (hp : p.tide = none) : tideRegion t p a = .error { cause := 0x07, tval := a } := by
  simp only [tideRegion, hp]
  rfl

/-- Outside every tide region, an instruction that asks for one is PERM. -/
theorem exec_tide_outside (hp : p.tide = none) {i : Instr} {k : Nat × Nat × Tide → Except Trap State}
    (hexec : exec i s = s.commit (tideRegion t p a >>= k)) : exec i s = .next (s.takeTrap { cause := 0x07, tval := a }) := by
  rw [hexec, tideRegion_outside hp, error_bind, commit_error]

section Instructions
variable (ha : s.xr rs1 = .ok a)
include ha

theorem exec_tideAdv (hx : translate s s.agent a .w = .ok (p, t)) : exec (.tideAdv rs1) s =
    s.commit (tideRegion t p a >>= fun r => .ok ((t.releaseAt (coreOf t.cur) .dv).tideArrive r.1 r.2.1 r.2.2).retire) := by
  change execTideAdv rs1 s = _
  rw [execTideAdv, ha, ok_bind, hx, ok_bind]
  rfl

theorem exec_tideRd (hx : translate s s.agent a .r = .ok (p, t)) : exec (.tideRd rd rs1) s =
    s.commit (tideRegion t p a >>= fun r => t.setX rd (r.2.2.t.setWidth 64) >>= fun u =>
      .ok (u.stallFor (tierClk (u.tier p.pa))).retire) := by
  change execTideRd rd rs1 s = _
  rw [execTideRd, ha, ok_bind, hx, ok_bind]
  rfl

end Instructions

/-! ## What a bounded load may take (R227) -/

section Bounded
variable {n f : Nat}

theorem boundedRead_copy {bs : List Byte} (h : stampedCopy t (coreOf t.cur) p n f = some bs) :
    boundedRead t n f [p] = some ([bs], t) := by
  simp [boundedRead, h]

theorem boundedRead_waits (h : stampedCopy t (coreOf t.cur) p n f = none) (hf : t.tideT p.tide < f) :
    boundedRead t n f [p] = none := by
  simp [boundedRead, h, hf]

theorem boundedRead_home {bs : List Byte} (h : stampedCopy t (coreOf t.cur) p n f = none) (hf : f ≤ t.tideT p.tide)
    (hread : ((refetch t (coreOf t.cur) p).stallFor (tierClk ((refetch t (coreOf t.cur) p).tier p.pa))).coreRead
      (coreOf t.cur) p n = (bs, u)) : boundedRead t n f [p] = some ([bs], u) := by
  simp [boundedRead, h, Nat.not_lt.2 hf, hread]

end Bounded

/-- A wait for the tide without a limit is a wait only. -/
theorem tideHold_of_noLimit (h : t.me.user.tmo = 0#48) (i : Instr) : tideHold t i a = t.holdOn .tide i a := by
  rw [tideHold, if_pos h]

theorem lapsed_of_run (h : t.me.wait = .run) (ps : List Phys) : t.lapsed ps = t := by
  rw [State.lapsed, h]

/-- A bounded load of a word past its alignment and translation: outside every tide, or with no bound, a plain load. -/
def ldBAccess (dbl : Bool) (b : BitVec 4) (rd rs1 rs2 : XReg) (a c : Word) (p : Phys) (t : State) : Except Trap State :=
  if b = 15#4 ∨ p.tide = none then
    let r := (t.lapsed [p]).coreRead (coreOf t.cur) p (if dbl then 8 else 4)
    r.2.setX rd (sext (8 * if dbl then 8 else 4) (bytesWord r.1)) >>= fun u => .ok u.retire
  else
    match boundedRead t (if dbl then 8 else 4) (tideFloor c b) [p] with
    | some (bss, u) => u.setX rd (sext (8 * if dbl then 8 else 4) (bytesWord bss.flatten)) >>= fun u => .ok u.retire
    | none => t.setX rd 0#64 >>= fun _ => .ok (tideHold t (.ldB dbl b rd rs1 rs2) a)

section Load
variable {b : BitVec 4} {dbl : Bool} (ha : s.xr rs1 = .ok a) (hc : s.xr rs2 = .ok c)
  (halign : a.toNat % (if dbl then 8 else 4) = 0) (hx : xlat s s.agent a .r = .ok (p, t))
include ha hc halign hx

theorem exec_ldB : exec (.ldB dbl b rd rs1 rs2) s = s.commit (ldBAccess dbl b rd rs1 rs2 a c p t) := by
  change execLdB dbl b rd rs1 rs2 s = _
  rw [execLdB, ha, ok_bind, hc, ok_bind]
  dsimp only
  rw [need_multiple halign, ok_bind, hx, ok_bind]
  rfl

theorem exec_ldB_plain (hplain : b = 15#4 ∨ p.tide = none) (hrun : s.me.wait = .run) {bs : List Byte}
    (hread : t.coreRead (coreOf t.cur) p (if dbl then 8 else 4) = (bs, u)) (hrd : u.xOk rd) :
    exec (.ldB dbl b rd rs1 rs2) s = .next (u.putX rd (signedOf (if dbl then 8 else 4) bs)).retire := by
  have hlapsed : t.lapsed [p] = t := lapsed_of_run (by rw [keeps_me (keeps_xlat hx), hrun]) _
  rw [exec_ldB ha hc halign hx, ldBAccess, if_pos hplain, hlapsed, hread]
  dsimp only
  rw [sext_bytesWord (by cases dbl <;> decide), setX_of_xOk hrd, ok_bind, commit_ok]

variable (hb : b ≠ 15#4) (hp : p.tide ≠ none)
include hb hp

theorem exec_ldB_taken {bs : List Byte}
    (hread : boundedRead t (if dbl then 8 else 4) (fld c 47 0 - b.toNat) [p] = some ([bs], u)) (hrd : u.xOk rd) :
    exec (.ldB dbl b rd rs1 rs2) s = .next (u.putX rd (signedOf (if dbl then 8 else 4) bs)).retire := by
  rw [exec_ldB ha hc halign hx, ldBAccess, if_neg (not_or.2 ⟨hb, hp⟩), tideFloor, hread]
  dsimp only
  rw [sext_bytesWord (by cases dbl <;> decide), List.flatten_singleton, setX_of_xOk hrd, ok_bind, commit_ok]

theorem exec_ldB_waits (hread : boundedRead t (if dbl then 8 else 4) (fld c 47 0 - b.toNat) [p] = none) (hrd : t.xOk rd) :
    exec (.ldB dbl b rd rs1 rs2) s = .next (tideHold t (.ldB dbl b rd rs1 rs2) a) := by
  rw [exec_ldB ha hc halign hx, ldBAccess, if_neg (not_or.2 ⟨hb, hp⟩), tideFloor, hread]
  dsimp only
  rw [setX_of_xOk hrd, ok_bind, commit_ok]

end Load

theorem exec_vldB {b : BitVec 4} {ps : List Phys} {bss : List (List Byte)} (ha : s.xr rs1 = .ok a) (hc : s.xr rs2 = .ok c)
    (halign : a.toNat % 128 = 0) (hb : b ≠ 15#4)
    (hcheck : checkAll s .r 32 ((List.range 4).map fun i => a + w64 (32 * i)) = .ok (ps, t)) (hp : ∃ p ∈ ps, p.tide ≠ none)
    (hread : boundedRead t 32 (fld c 47 0 - b.toNat) ps = some (bss, u)) (hvd : u.vOk vd) :
    exec (.vldB b vd rs1 rs2) s = .next (u.vecDone vd (BitVec.ofNat 1024 (bytesNat bss.flatten)) 0#5) := by
  have htide : ¬ (b = 15#4 ∨ (ps.all fun p => p.tide == none) = true) := by
    simpa [hb] using hp
  change execVldB b vd rs1 rs2 s = _
  rw [execVldB, ha, ok_bind, hc, ok_bind, need_multiple halign, ok_bind, hcheck, ok_bind]
  dsimp only
  rw [if_neg htide, tideFloor, hread]
  dsimp only
  rw [vecPut_of_vOk hvd]
  rfl

end Sys2Proof.Machine

open Sys2Proof Sys2Proof.Machine

/-- Settles O19: the tide instructions work on the region found (`tideRegion_listed`), and a bounded load takes what
`boundedRead` allows (`boundedRead_copy`, `boundedRead_home`), or waits (`boundedRead_waits`). -/
theorem tides : Obligations.Tides := by
  intro s t rd rs1 rs2 vd b dbl a c p ha hc
  refine ⟨fun hx => ⟨fun v e z hp hz => ?adv, fun hp => exec_tide_outside hp (exec_tideAdv ha hx)⟩,
    fun hx => ⟨fun v e z hp hz hrd => ?rd, fun hp => exec_tide_outside hp (exec_tideRd ha hx)⟩, ?load,
    fun ps bss u halign hb hcheck hp => exec_vldB ha hc halign hb hcheck hp⟩
  case adv =>
    rw [exec_tideAdv ha hx, tideRegion_listed hp hz]
    rfl
  case rd => rw [exec_tideRd ha hx, tideRegion_listed hp hz, ok_bind, setX_of_xOk hrd, ok_bind, tier_putX, commit_ok]
  case load =>
    intro n core halign hx
    refine ⟨fun hplain hrun bs u => exec_ldB_plain ha hc halign hx hplain hrun, fun hb hp => ⟨fun bs h => ?copy,
      fun h hf bs u hread => ?home, fun h hf hrd htmo => ?waits⟩⟩
    case copy => exact exec_ldB_taken ha hc halign hx hb hp (boundedRead_copy h)
    case home => exact exec_ldB_taken ha hc halign hx hb hp (boundedRead_home h hf hread)
    case waits => rw [exec_ldB_waits ha hc halign hx hb hp (boundedRead_waits h hf) hrd, tideHold_of_noLimit htmo]
end

section
/-! Memory nodes as they fire (R245, R339-R348): what a firing leaves when its effect answers, fails or has to wait; the checks of
an access by the form of its address; and what each of these nodes does. -/

namespace Sys2Proof.Machine

variable {s t u v : State} {i : Instr} {n : GNode} {f : Firing} {a : Word} {k : Nat} {kd : Kind} {g : GAddr} {bs : List Byte}
  {p : Phys}

/-! ## The outcome of a firing (R302, R418) -/

/-- What the firing `f` of node `i`, begun on `u`, comes to by what its effect answers: the next state, another try in the
next clk (log 39), or a fault. -/
def nodeResult (u : State) (i : Instr) (f : Firing) : NodeOut → Out
  | .ok t => firedTo i f t
  | .error none => .next (settle (u.fireAfter 1 i f) f.rk)
  | .error (some e) => .next (settle (u.fireFault f e
      (if f.body.isSome || (u.looping f.rk).contains f.ik then [.node i f] else [])) f.rk)

theorem runNode_eq_nodeResult (h : s.fires i f u) (act : Firing → State → NodeOut) :
    runNode i s act = nodeResult u i f (act f u) := by
  obtain ⟨-, -, -, -, -, hnul, hpred⟩ := id h
  rw [runNode_of_fires h, fireNode, hnul, hpred, if_neg Bool.false_ne_true, if_neg Bool.false_ne_true]
  rcases act f u with (_ | e) | t <;> rfl

/-! ## The checks of an access (R303, R339) -/

theorem nodeNeed_of {b : Bool} (h : b = true) (c : BitVec 8) (w : Word) : nodeNeed b c w = .ok () := if_pos h

theorem nodeNeed_of_not {b : Bool} (h : b = false) (c : BitVec 8) (w : Word) :
    nodeNeed b c w = .error (some { cause := c, tval := w }) :=
  if_neg (by rw [h]; exact Bool.false_ne_true)

theorem gForm_of_canonical (h : canonical a = true) : gForm a = .va a := by rw [gForm, if_pos h]

theorem formOk_va (h : gForm a = .va a) (s : State) (f : Firing) (kd : Kind) : formOk s f a kd = .ok (.va a) := by
  rw [formOk, h]

/-- A form other than VA names an address where the block is not urgent (R303). -/
theorem formOk_of_not_urgent (hurg : ((s.region f.rk).block f.ik.blk).urg = false) (hform : gForm a = g) (hbad : g ≠ .bad) :
    formOk s f a kd = .ok g := by
  rw [formOk, hform]
  cases g with
  | va b => rfl
  | bad => exact absurd rfl hbad
  | mcell x y off => exact if_neg (by rw [hurg]; exact Bool.false_ne_true)
  | loc off => exact if_neg (by rw [hurg]; exact Bool.false_ne_true)

theorem nodeAddr_of_aligned (hform : formOk s f a kd = .ok g) (halign : a.toNat % k = 0) : nodeAddr s f a k kd = .ok g := by
  rw [nodeAddr, hform, halign]
  rfl

theorem nodeAddr_misaligned (hcanon : canonical a = true) (halign : a.toNat % k ≠ 0) :
    nodeAddr s f a k kd = .error (some { cause := 0x03, tval := a }) := by
  have hneed := nodeNeed_of_not (beq_false_of_ne halign) cMISALIGN a
  rw [nodeAddr, formOk_va (gForm_of_canonical hcanon), hneed]
  rfl

/-! ## Loads (R340, R341) -/

theorem loadNow_of_ready (h : loadReady u f i = true ∧ fenceReady u f i = true) : loadNow u f i = .ok () := by
  rw [loadNow, h.1, h.2]
  rfl

theorem loadNow_of_not_ready (h : ¬ (loadReady u f i = true ∧ fenceReady u f i = true)) : loadNow u f i = .error none :=
  if_neg (by rwa [Bool.and_eq_true])

theorem loadAt_waits (h : ¬ (loadReady u f i = true ∧ fenceReady u f i = true)) : loadAt i f a k u = .error none := by
  rw [loadAt, loadNow_of_not_ready h, error_bind]

theorem loadAt_misaligned (h : loadReady u f i = true ∧ fenceReady u f i = true) (hcanon : canonical a = true)
    (halign : a.toNat % k ≠ 0) : loadAt i f a k u = .error (some { cause := 0x03, tval := a }) := by
  rw [loadAt, loadNow_of_ready h, ok_bind, nodeAddr_misaligned hcanon halign, error_bind]

/-- A load past its checks opens its reply with the bytes read and the pending writes over them. -/
theorem loadAt_of_nodeRead {lat : Nat} (h : loadReady u f i = true ∧ fenceReady u f i = true) (hform : formOk u f a .r = .ok g)
    (halign : a.toNat % k = 0) (hamo : amoClash u f i (linAddr u f g) k = .ok ())
    (hread : nodeRead u f a k g = .ok (bs, lat, t)) :
    loadAt i f a k u = .ok (t.openReply f i (some (loadPay (fieldsOf i).fmt
      (forwardOver (pendBefore (t.region f.rk) f.ik (lsidOf i)) (linAddr u f g).toNat bs))) lat) := by
  rw [loadAt, loadNow_of_ready h, ok_bind, nodeAddr_of_aligned hform halign, ok_bind]
  dsimp only
  rw [hamo, ok_bind, hread]
  rfl

theorem nodeRead_va (h : ownerRead u f.rk a k = .ok (bs, p, t)) :
    nodeRead u f a k (.va a) = .ok (bs, 2 + t.stall + ownerHops t f.rk f.x f.y a, t) := by
  rw [nodeRead, h]
  rfl

theorem nodeRead_mcell {x y off key : Nat} (hkey : mCellAt u f.rk x y a = .ok key) (h : mRead u f.rk key off k = .ok bs) :
    nodeRead u f a k (.mcell x y off) = .ok (bs, 2 * hops (f.x, f.y) (x, y) + 2, u) := by
  simp only [nodeRead, hkey, liftT, ok_bind, h]
  rfl

theorem nodeRead_loc {off : Nat} (h : localRead u f.rk (u.cellOf f.rk f.x f.y) off k a = .ok bs) :
    nodeRead u f a k (.loc off) = .ok (bs, 2, u) := by
  rw [nodeRead, h]
  rfl

/-- A load performed: `lda` then acquires (R341). -/
def loadDone (n : GNode) (i : Instr) (rk : RKey) (w : State) : State :=
  if i = .gLda n then gAcquire w rk (nodeScope n) else w

section Load
variable (hi : i ∈ [Instr.gLd n, .gLda n]) (h : s.fires i f u)
include hi

theorem fieldsOf_load : fieldsOf i = n := by
  obtain rfl | rfl := List.mem_pair.1 hi <;> rfl

include h

/-- `ld` and `lda` are one load. -/
theorem exec_nodeLoad_eq_nodeResult : exec i s =
    nodeResult u i f ((loadAt i f (f.lpay + nodeOff n) (nodeBytes n) u).map (loadDone n i f.rk)) := by
  obtain rfl | rfl := List.mem_pair.1 hi
  · refine (runNode_eq_nodeResult h _).trans (congrArg _ ?_)
    cases loadAt (.gLd n) f (f.lpay + nodeOff n) (nodeBytes n) u with
    | error e => rfl
    | ok w => exact congrArg Except.ok (if_neg (by simp)).symm
  · refine (runNode_eq_nodeResult h _).trans (congrArg _ ?_)
    cases loadAt (.gLda n) f (f.lpay + nodeOff n) (nodeBytes n) u with
    | error e => rfl
    | ok w => exact congrArg Except.ok (if_pos rfl).symm

theorem exec_nodeLoad_waits (hready : ¬ (loadReady u f i = true ∧ fenceReady u f i = true)) :
    exec i s = .next (settle (u.fireAfter 1 i f) f.rk) := by
  rw [exec_nodeLoad_eq_nodeResult hi h, loadAt_waits hready]
  rfl

section Ready
variable (hready : loadReady u f i = true ∧ fenceReady u f i = true)
include hready

theorem exec_nodeLoad_misaligned (hcanon : canonical (f.lpay + nodeOff n) = true)
    (halign : (f.lpay + nodeOff n).toNat % nodeBytes n ≠ 0) : exec i s = u.firedBad i f 0x03 (f.lpay + nodeOff n) := by
  rw [exec_nodeLoad_eq_nodeResult hi h, loadAt_misaligned hready hcanon halign]
  rfl

/-- A load of any form whose bytes can be read. -/
theorem exec_nodeLoad_of_nodeRead {lat : Nat} (halign : (f.lpay + nodeOff n).toNat % nodeBytes n = 0)
    (hform : formOk u f (f.lpay + nodeOff n) .r = .ok g) (hamo : amoClash u f i (linAddr u f g) (nodeBytes n) = .ok ())
    (hread : nodeRead u f (f.lpay + nodeOff n) (nodeBytes n) g = .ok (bs, lat, t)) :
    exec i s = firedTo i f (loadDone n i f.rk (t.openReply f i (some (loadPay n.fmt
      (forwardOver (pendBefore (t.region f.rk) f.ik (lsidOf i)) (linAddr u f g).toNat bs))) lat)) := by
  rw [exec_nodeLoad_eq_nodeResult hi h, loadAt_of_nodeRead hready hform halign hamo hread, fieldsOf_load hi]
  rfl

end Ready

end Load

/-! ## Bounded loads (R227, R341) -/

/-- What a bounded load does once its VA is translated. -/
def ldbAccess (n : GNode) (f : Firing) (rg : Region) (p : Phys) (t : State) : NodeOut :=
  let o := rg.ownerOf f.lpay
  let own := cellAt rg.handle o.1 o.2
  let cove := coveOfXY (handleX rg.handle + o.1) (handleY rg.handle + o.2)
  let b := n.immField 7 4
  if b = 15 ∨ p.tide = none then loadAt (.gLdb n) f f.lpay (nodeBytes n) t
  else
    let floor := fld f.rpay 47 0 - b
    let fresh := match AMap.get? (t.cove cove).l2 (p.pa / 64) with | some l => decide (floor ≤ l.stamp) | none => false
    if fresh then do
      let l := (AMap.get? (t.cove cove).l2 (p.pa / 64)).getD { data := 0#512 }
      let bs := getBytes l.data (p.pa % 64) (nodeBytes n)
      let bs := match (t.cell own).acb.find? fun e => e.line == p.pa / 64 with
        | none => bs
        | some e => (indexed (p.pa % 64) bs).map fun q => (AMap.get? e.bytes q.1).getD q.2
      amoClash t f (.gLdb n) f.lpay (nodeBytes n)
      let bs := forwardOver (pendBefore rg f.ik (lsidOf (.gLdb n))) f.lpay.toNat bs
      return t.openReply f (.gLdb n) (some (loadPay n.fmt bs)) (2 + Config.l2Clk + ownerHops t f.rk f.x f.y f.lpay)
    else if t.tideT p.tide < floor then
      let began := f.since.getD t.now
      let lim := tideLimit t f.rk
      if lim ≠ 0 ∧ began + lim < t.now then nodeFail cTIDE_TMO f.lpay
      else return t.fireAfter 1 (.gLdb n) { f with since := some began }
    else loadAt (.gLdb n) f f.lpay (nodeBytes n) (ownerRefetch t f.rk f.lpay p)

theorem exec_gLdb (h : s.fires (.gLdb n) f u) (hready : loadReady u f (.gLdb n) = true ∧ fenceReady u f (.gLdb n) = true)
    (halign : f.lpay.toNat % nodeBytes n = 0) (hform : gForm f.lpay = .va f.lpay)
    (hx : let rg := u.region f.rk
      let o := rg.ownerOf f.lpay
      xlat u (u.cellAgent f.rk (cellAt rg.handle o.1 o.2)) f.lpay .r = .ok (p, t)) :
    exec (.gLdb n) s = nodeResult u (.gLdb n) f (ldbAccess n f (u.region f.rk) p t) := by
  refine (runNode_eq_nodeResult h _).trans (congrArg _ ?_)
  dsimp only at hx ⊢
  rw [loadNow_of_ready hready, ok_bind, nodeAddr_of_aligned (formOk_va hform ..) halign, ok_bind]
  dsimp only
  rw [hx]
  rfl

/-- An address outside every tide region, or without a bound, is loaded as `ld` loads it. -/
theorem ldbAccess_unbounded {rg : Region} (hplain : n.immField 7 4 = 15 ∨ p.tide = none) :
    ldbAccess n f rg p t = loadAt (.gLdb n) f f.lpay (nodeBytes n) t := if_pos hplain

section Bounded
variable {rg : Region} (hb : n.immField 7 4 ≠ 15) (hp : p.tide ≠ none)
include hb hp

/-- A copy in the owner's cove that is fresh enough serves the load (R227). -/
theorem ldbAccess_copy {l : L2Line}
    (hcopy : let o := rg.ownerOf f.lpay
      AMap.get? (t.cove (coveOfXY (handleX rg.handle + o.1) (handleY rg.handle + o.2))).l2 (p.pa / 64) = some l)
    (hfresh : fld f.rpay 47 0 - n.immField 7 4 ≤ l.stamp)
    (hacb : let o := rg.ownerOf f.lpay
      (t.cell (cellAt rg.handle o.1 o.2)).acb = [])
    (hamo : amoClash t f (.gLdb n) f.lpay (nodeBytes n) = .ok ()) :
    ldbAccess n f rg p t = .ok (t.openReply f (.gLdb n) (some (loadPay n.fmt
      (forwardOver (pendBefore rg f.ik (lsidOf (.gLdb n))) f.lpay.toNat (getBytes l.data (p.pa % 64) (nodeBytes n)))))
        (2 + Config.l2Clk + ownerHops t f.rk f.x f.y f.lpay)) := by
  dsimp only at hcopy hacb
  rw [ldbAccess, if_neg (not_or.2 ⟨hb, hp⟩)]
  dsimp only
  rw [hcopy]
  dsimp only
  rw [if_pos (decide_eq_true hfresh), hamo, hacb]
  rfl

/-- Without one, it looks at the tide of its home. -/
theorem ldbAccess_home
    (hstale : let o := rg.ownerOf f.lpay
      ∀ l, AMap.get? (t.cove (coveOfXY (handleX rg.handle + o.1) (handleY rg.handle + o.2))).l2 (p.pa / 64) = some l →
        l.stamp < fld f.rpay 47 0 - n.immField 7 4) : ldbAccess n f rg p t =
    if t.tideT p.tide < fld f.rpay 47 0 - n.immField 7 4 then
      let began := f.since.getD t.now
      let lim := tideLimit t f.rk
      if lim ≠ 0 ∧ began + lim < t.now then nodeFail cTIDE_TMO f.lpay
      else .ok (t.fireAfter 1 (.gLdb n) { f with since := some began })
    else loadAt (.gLdb n) f f.lpay (nodeBytes n) (ownerRefetch t f.rk f.lpay p) := by
  dsimp only at hstale
  rw [ldbAccess, if_neg (not_or.2 ⟨hb, hp⟩)]
  refine if_neg ?_
  split
  · next l hl => rw [decide_eq_true_iff]; exact Nat.not_le.2 (hstale l hl)
  · exact Bool.false_ne_true

end Bounded

/-! ## Stores (R342) -/

/-- A store past its checks is left to the commit, with its count token. -/
theorem storeAt_of_nodeWriteOk (hform : formOk u f a .w = .ok g) (halign : a.toNat % k = 0)
    (hwrite : nodeWriteOk u f a (natBytes k f.rpay.toNat) g = .ok t) :
    storeAt i f a k u = .ok ((t.pendOn f i (linAddr t f g) [a]).sendCount f false) := by
  rw [storeAt, nodeAddr_of_aligned hform halign, ok_bind, hwrite]
  rfl

theorem storeAt_misaligned (hcanon : canonical a = true) (halign : a.toNat % k ≠ 0) :
    storeAt i f a k u = .error (some { cause := 0x03, tval := a }) := by
  rw [storeAt, nodeAddr_misaligned hcanon halign, error_bind]

/-- `st` and `strl` are one store; the release of `strl` belongs to its commit. -/
theorem exec_nodeStore_eq_nodeResult (hi : i ∈ [Instr.gSt n, .gStrl n]) (h : s.fires i f u) :
    exec i s = nodeResult u i f (storeAt i f (f.lpay + nodeOff n) (nodeBytes n) u) := by
  obtain rfl | rfl := List.mem_pair.1 hi <;> exact runNode_eq_nodeResult h _

/-! ## I-structures (R345, R346) -/

theorem amoClash_of_nothing_pending (h : pendBefore (u.region f.rk) f.ik (lsidOf i) = []) (a : Word) (k : Nat) :
    amoClash u f i a k = .ok () := by
  rw [amoClash, h]
  rfl

section Ird
variable (h : s.fires (.gIrd n) f u) (hready : loadReady u f (.gIrd n) = true ∧ fenceReady u f (.gIrd n) = true)
  (halign : f.lpay.toNat % 8 = 0) (hpend : pendBefore (u.region f.rk) f.ik (lsidOf (.gIrd n)) = [])
include h hready halign hpend

/-- An `ird` of an M-cell word takes it when it is full, and else defers. -/
theorem exec_gIrd_mcell {x y off key : Nat} (hform : gForm f.lpay = .mcell x y off)
    (hurg : ((u.region f.rk).block f.ik.blk).urg = false) (hkey : mCellAt u f.rk x y f.lpay = .ok key)
    (hread : mRead u f.rk key off 8 = .ok bs) : exec (.gIrd n) s = nodeResult u (.gIrd n) f
      (if mState (u.cell key) (u.region f.rk).gen off = 1 then
        .ok ((gAcquire u f.rk .dv).openReply f (.gIrd n) (some (bytesWord bs)) (2 * hops (f.x, f.y) (x, y) + 2))
      else irdDefer (.gIrd n) f key off u) := by
  have hok : formOk u f f.lpay .r = .ok (.mcell x y off) := formOk_of_not_urgent hurg hform nofun
  refine (runNode_eq_nodeResult h _).trans (congrArg _ ?_)
  dsimp only
  rw [loadNow_of_ready hready, ok_bind, nodeAddr_of_aligned hok halign, ok_bind, amoClash_of_nothing_pending hpend, ok_bind,
    hpend]
  dsimp only
  rw [hkey, liftT, ok_bind, hread, atAddr, ok_bind]
  simp only [List.filter_nil, List.isEmpty_nil, Bool.not_true, Bool.false_eq_true, or_false]
  rfl

/-- An `ird` of a memory word asks at its home, where words have full/empty bits. -/
theorem exec_gIrd_va (hform : gForm f.lpay = .va f.lpay) (hread : ownerRead u f.rk f.lpay 8 = .ok (bs, p, t)) :
    exec (.gIrd n) s = nodeResult u (.gIrd n) f (nodeNeed (t.hasFe p.pa) cFE_UNSUP f.lpay >>= fun _ =>
      .ok ((t.openReply f (.gIrd n) none 0).after (2 + tierClk (t.tier p.pa)) (.memoryReply f.rk f.ik f.idx))) := by
  refine (runNode_eq_nodeResult h _).trans (congrArg _ ?_)
  dsimp only
  rw [loadNow_of_ready hready, ok_bind, nodeAddr_of_aligned (formOk_va hform ..) halign, ok_bind,
    amoClash_of_nothing_pending hpend, ok_bind, hpend]
  dsimp only
  rw [hread]
  rfl

end Ird

/-- A reply opened changes no deferred reader. -/
theorem defer_openReply (s : State) (f : Firing) (i : Instr) (w : Option Word) (lat key : Nat) :
    ((s.openReply f i w lat).cell key).defer = (s.cell key).defer := by
  have hafter (t : State) : (if w.isSome then t.after lat (.memoryReply f.rk f.ik f.idx) else t).cell key = t.cell key := by
    split <;> rfl
  rw [State.openReply]
  dsimp only
  rw [hafter]
  by_cases hkey : key = s.cellOf f.rk f.x f.y
  · rw [hkey, cell_modCell]
  · rw [cell_modCell_ne _ _ hkey]

/-- A deferred `ird` waits among its cell's deferred readers. -/
theorem irdDefer_listed {off key : Nat} (h : irdDefer i f key off u = .ok v) :
    ∃ c ∈ (v.cell key).defer, c.off = off ∧ c.f = f := by
  unfold irdDefer at h
  cases hroom : poolRoom u f.rk key with
  | error e => rw [hroom] at h; cases h
  | ok w =>
    rw [hroom] at h
    cases h
    rw [defer_openReply, cell_modCell]
    exact ⟨_, List.mem_append_right _ (List.mem_singleton_self _), rfl, rfl⟩

section Iwr
variable (h : s.fires (.gIwr n) f u) (halign : f.lpay.toNat % 8 = 0)
include h halign

theorem exec_gIwr_loc {off : Nat} (hform : gForm f.lpay = .loc off)
    (hurg : ((u.region f.rk).block f.ik.blk).urg = false) : exec (.gIwr n) s = u.firedBad (.gIwr n) f 0x07 f.lpay := by
  have hok : formOk u f f.lpay .w = .ok (.loc off) := formOk_of_not_urgent hurg hform nofun
  refine (runNode_eq_nodeResult h _).trans ?_
  dsimp only
  rw [nodeAddr_of_aligned hok halign]
  rfl

theorem exec_gIwr_mcell {x y off : Nat} (hform : gForm f.lpay = .mcell x y off)
    (hurg : ((u.region f.rk).block f.ik.blk).urg = false)
    (hwrite : nodeWriteOk u f f.lpay (natBytes 8 f.rpay.toNat) (.mcell x y off) = .ok t) :
    exec (.gIwr n) s =
      firedTo (.gIwr n) f ((t.pendOn f (.gIwr n) (linAddr t f (.mcell x y off)) [f.lpay]).sendCount f false) := by
  have hok : formOk u f f.lpay .w = .ok (.mcell x y off) := formOk_of_not_urgent hurg hform nofun
  refine (runNode_eq_nodeResult h _).trans ?_
  dsimp only
  rw [nodeAddr_of_aligned hok halign, ok_bind]
  dsimp only
  rw [storeAt_of_nodeWriteOk hok halign hwrite]
  rfl

theorem exec_gIwr_va (hform : gForm f.lpay = .va f.lpay) (hx : xlat u (u.fireAgent f) f.lpay .w = .ok (p, t))
    (hfe : t.hasFe p.pa = true) (hwrite : nodeWriteOk t f f.lpay (natBytes 8 f.rpay.toNat) (.va f.lpay) = .ok v) :
    exec (.gIwr n) s = firedTo (.gIwr n) f ((v.pendOn f (.gIwr n) f.lpay [f.lpay]).sendCount f false) := by
  refine (runNode_eq_nodeResult h _).trans ?_
  dsimp only
  rw [nodeAddr_of_aligned (formOk_va hform ..) halign, ok_bind]
  dsimp only
  rw [hx, liftT, ok_bind]
  dsimp only
  rw [nodeNeed_of hfe, ok_bind, storeAt_of_nodeWriteOk (formOk_va hform ..) halign hwrite]
  rfl

end Iwr

/-! ## Fences and prefetch (R347, R348) -/

theorem exec_gFence (h : s.fires (.gFence n) f u) : exec (.gFence n) s = nodeResult u (.gFence n) f
    (notYet (fenceMay u f (.gFence n)) >>= fun _ => .ok (gAcquire (gRelease u f.rk (nodeScope n)) f.rk (nodeScope n))) :=
  runNode_eq_nodeResult h _

theorem keeps_nodePref (s : State) (f : Firing) (va : Word) : keeps s (nodePref s f va) := by
  unfold nodePref
  dsimp only
  split
  · exact keeps_refl s
  next hx =>
  split
  · exact keeps_xlat hx
  · exact keeps_trans (keeps_xlat hx) (keeps_l2Line ..)

theorem exec_gPref_nothing (h : s.fires (.gPref n) f u) (hlen : f.rpay = 0#64) : exec (.gPref n) s = firedTo (.gPref n) f u := by
  refine (runNode_eq_nodeResult h _).trans ?_
  simp only [hlen]
  rfl

/-- A prefetch sends nothing and moves no more than caches. -/
theorem exec_gPref_keeps (h : s.fires (.gPref n) f u) : ∃ w, exec (.gPref n) s = firedTo (.gPref n) f w ∧ keeps u w := by
  have hexec := runNode_eq_nodeResult h fun f s =>
    let k := min f.rpay.toNat 65536
    if k = 0 then .ok s
    else .ok ((List.range ((f.lpay.toNat % 64 + k - 1) / 64 + 1)).foldl
      (fun s j => nodePref s f ((f.lpay &&& ~~~63#64) + w64 (64 * j))) s)
  dsimp only at hexec
  split at hexec
  · exact ⟨u, hexec, keeps_refl u⟩
  · exact ⟨_, hexec, keeps_foldl (fun _ _ => keeps_nodePref ..) ..⟩

end Sys2Proof.Machine

open Sys2Proof Sys2Proof.Machine

/-- Settles O39: a firing comes to `nodeResult` of its node's effect; a load past its checks is `loadAt_of_nodeRead`, a bounded
one `ldbAccess`, a store `storeAt_of_nodeWriteOk`, and an `ird` that defers is listed at its cell (`irdDefer_listed`). -/
theorem memoryNodes : Obligations.MemoryNodes := by
  intro s t u n f rg gives ready after urg a k overlaid
  refine ⟨fun i hi h => ⟨exec_nodeLoad_waits hi h, fun hready => exec_nodeLoad_misaligned hi h hready,
      fun hready halign => ?load⟩,
    fun h hready halign p hform => ?ldb, fun i hi h => ?store, fun h hready halign => ?ird,
    fun h halign => ⟨fun off => exec_gIwr_loc h halign, fun p w => exec_gIwr_va h halign,
      fun x y off w => exec_gIwr_mcell h halign⟩,
    fun h => ?fence, fun h => ⟨exec_gPref_nothing h, exec_gPref_keeps h⟩⟩
  case load =>
    refine ⟨fun bs p hform hamo hread => ?va, fun x y off key bs hform hurg hamo hkey hread => ?mcell,
      fun off bs hform hurg hamo hread => ?loc⟩
    case va =>
      have hexec := exec_nodeLoad_of_nodeRead hi h hready halign (formOk_va hform ..) hamo (nodeRead_va hread)
      exact hexec
    case mcell =>
      have hexec := exec_nodeLoad_of_nodeRead hi h hready halign (formOk_of_not_urgent hurg hform nofun) hamo
        (nodeRead_mcell hkey hread)
      exact hexec
    case loc =>
      have hexec := exec_nodeLoad_of_nodeRead hi h hready halign (formOk_of_not_urgent hurg hform nofun) hamo (nodeRead_loc hread)
      exact hexec
  case ldb =>
    intro o own cove b hx
    have hexec := exec_gLdb h hready halign hform hx
    refine ⟨fun v hplain hload => ?plain, fun l hb hp hcopy hfresh hacb hamo => ?copy, fun hb hp hstale => ?home⟩
    case plain => exact hexec.trans (by rw [ldbAccess_unbounded hplain, hload]; rfl)
    case copy => exact hexec.trans (by rw [ldbAccess_copy hb hp hcopy hfresh hacb hamo]; rfl)
    case home =>
      rw [ldbAccess_home hb hp hstale] at hexec
      refine ⟨fun hlow => ?low, fun v hfloor hload => ?refetch⟩
      case low =>
        rw [if_pos hlow] at hexec
        refine ⟨fun hlim hlate => hexec.trans ?_, fun hwait => hexec.trans ?_⟩
        · exact congrArg (nodeResult u (.gLdb n) f) (if_pos ⟨hlim, hlate⟩)
        · exact congrArg (nodeResult u (.gLdb n) f) (if_neg (by omega))
      case refetch =>
        rw [if_neg (Nat.not_lt.2 hfloor), hload] at hexec
        exact hexec
  case store =>
    have hexec := exec_nodeStore_eq_nodeResult hi h
    refine ⟨fun hcanon halign => ?misaligned, fun halign w hform hbad hwrite => ?left⟩
    case misaligned => rw [storeAt_misaligned hcanon halign] at hexec; exact hexec
    case left =>
      have hok : formOk u f a .w = .ok (gForm a) := by
        rcases hform with hva | hurg
        · rw [formOk_va hva, hva]
        · exact formOk_of_not_urgent hurg rfl hbad
      rw [storeAt_of_nodeWriteOk hok halign hwrite] at hexec
      exact hexec
  case ird =>
    refine ⟨fun x y off key bs hform hurg hpend hkey hread => ?mcell, fun bs p hform hpend hread => ?va⟩
    case mcell =>
      have hexec := exec_gIrd_mcell h hready halign hpend hform hurg hkey hread
      refine ⟨fun hfull => ?full, fun hempty v hdefer => ⟨?deferred, irdDefer_listed hdefer⟩⟩
      case full => rw [if_pos hfull] at hexec; exact hexec
      case deferred => rw [if_neg hempty, hdefer] at hexec; exact hexec
    case va =>
      have hexec := exec_gIrd_va h hready halign hpend hform hread
      refine ⟨fun hfe => ?unsupported, fun hfe => ?asked⟩
      case unsupported => rw [nodeNeed_of_not hfe, error_bind] at hexec; exact hexec
      case asked => rw [nodeNeed_of hfe, ok_bind] at hexec; exact hexec
  case fence =>
    have hexec := exec_gFence h
    refine ⟨fun hmay => ?performed, fun hmay => ?waits⟩
    case performed => rw [hmay] at hexec; exact hexec
    case waits => rw [hmay] at hexec; exact hexec
end

section
/-! Atomics of a slot (R250-R253, R260, R268): the checks before the access, the one read-modify-write at the home with its
release and acquire, and O20. -/

namespace Sys2Proof.Machine

variable {s t : State} {i : Instr} {op : AmoOp} {o : AmoOrd} {dbl : Bool} {sc : Scope} {rd rs1 rs2 : XReg} {a v e : Word} {p : Phys}

/-! ## The orderings of an atomic (R252) -/

theorem releases_iff (o : AmoOrd) : AmoOrd.releases o = true ↔ o = .rel ∨ o = .ar := by cases o <;> decide

theorem acquires_iff (o : AmoOrd) : AmoOrd.acquires o = true ↔ o = .acq ∨ o = .ar := by cases o <;> decide

/-- `fadd` rounds to nearest even (R252). -/
theorem amoNew_fadd (n old v e : Nat) :
    let sum := fpAdd .fp32 .rne {} (Fmt.value .fp32 old) (Fmt.value .fp32 v)
    amoNew .fadd n old v e = (some sum.1, sum.2) := rfl

/-! ## The access at the home (R250) -/

theorem rmwOk_of_uncached (h : t.uncached p = true) (va : Word) : rmwOk t p va = .error { cause := 0x07, tval := va } :=
  need_error (by rw [h]; rfl) _ _

theorem rmwOk_of_cached (h : t.uncached p = false) (va : Word) : rmwOk t p va = .ok () := need_ok (by rw [h]; rfl) _ _

/-- The machine after the access: at the home `r` has come to, the new word written where there is one, the core's copy
dropped. -/
def State.amoPut (r : State) (core : Nat) (p : Phys) (n : Nat) (new : Nat → Option Nat) : State :=
  let h := r.atHome r.agent p
  (match new (bytesNat (h.homeRead p.pa n)) with | some w => h.putHome r.agent p (natBytes n w) | none => h).dropLine core p

/-- What follows it: rd takes the old value, sign-extended, the acquire comes after, and the flags join. -/
def State.amoEnd (r : State) (core : Nat) (o : AmoOrd) (sc : Scope) (rd : XReg) (p : Phys) (n : Nat) (new : Nat → Option Nat)
    (fl : Nat → NxFlags) : State :=
  let bs := (r.atHome r.agent p).homeRead p.pa n
  let x := (r.amoPut core p n new).putX rd (signedOf n bs)
  let y := if o = .acq ∨ o = .ar then x.acquireAt core sc else x
  let z := y.modMe fun e => { e with user := { e.user with nxflags := e.user.nxflags ||| fl (bytesNat bs) } }
  z.retireFor .amo (amoClk z sc p) (.amoComplete z.cur)

/-- An atomic once its address is translated. -/
def amoAccess (op : AmoOp) (o : AmoOrd) (n core : Nat) (sc : Scope) (rd : XReg) (a v e : Word) (p : Phys) (t : State) :
    Except Trap State := do
  rmwOk t p a
  noPoison t p a
  let r := if AmoOrd.releases o then t.releaseAt core sc else t
  let (old, fl, u) := amoAt r r.agent p op n (v.toNat % 2 ^ (8 * n)) (e.toNat % 2 ^ (8 * n))
  let x ← (u.dropLine core p).setX rd (sext (8 * n) (w64 old))
  let y := if AmoOrd.acquires o then x.acquireAt core sc else x
  let z := y.modMe fun t => { t with user := { t.user with nxflags := t.user.nxflags ||| fl } }
  return z.retireFor .amo (amoClk z sc p) (.amoComplete z.cur)

theorem amoAccess_uncached {n core : Nat} (hun : t.uncached p = true) :
    amoAccess op o n core sc rd a v e p t = .error { cause := 0x07, tval := a } := by
  rw [amoAccess, rmwOk_of_uncached hun, error_bind]

/-- Past its checks, an atomic is its release, the access, and what follows. -/
theorem amoAccess_done {n core : Nat} {new : Nat → Option Nat} {fl : Nat → NxFlags} (hn : n ≤ 8) (hun : t.uncached p = false)
    (hpoison : t.isPoison p.pa = false)
    (hnew : ∀ old, amoNew op n old (v.toNat % 2 ^ (8 * n)) (e.toNat % 2 ^ (8 * n)) = (new old, fl old))
    (hrd : ((if o = .rel ∨ o = .ar then t.releaseAt core sc else t).amoPut core p n new).xOk rd) :
    amoAccess op o n core sc rd a v e p t =
      .ok ((if o = .rel ∨ o = .ar then t.releaseAt core sc else t).amoEnd core o sc rd p n new fl) := by
  rw [amoAccess, rmwOk_of_cached hun, ok_bind, noPoison_of_clean hpoison, ok_bind]
  simp only [← releases_iff] at hrd ⊢
  generalize (if AmoOrd.releases o = true then t.releaseAt core sc else t) = r at hrd ⊢
  rw [amoAt]
  dsimp only
  rw [hnew]
  dsimp only
  rw [State.amoEnd, ← sext_bytesWord hn]
  simp only [← acquires_iff]
  exact (congrArg (· >>= _) (setX_of_xOk hrd _)).trans rfl

section Step
variable (ha : s.xr rs1 = .ok a) (hv : s.xr rs2 = .ok v) (he : (if op = .cas then s.xr rd else .ok 0#64) = .ok e)
include ha hv he

theorem amoStep_eq : amoStep op o dbl sc rd rs1 rs2 s =
    need (aligned a (if dbl then 8 else 4)) cMISALIGN a >>= fun _ => translate s s.agent a .w >>= fun r =>
      amoAccess op o (if dbl then 8 else 4) (coreOf s.cur) sc rd a v e r.1 r.2 := by
  rw [amoStep, ha, ok_bind, hv, ok_bind]
  dsimp only
  split at he
  · next hcas => rw [if_pos hcas, he]; rfl
  · next hcas => rw [if_neg hcas, he]; rfl

theorem amoStep_misaligned (halign : a.toNat % (if dbl then 8 else 4) ≠ 0) :
    amoStep op o dbl sc rd rs1 rs2 s = .error { cause := 0x03, tval := a } := by
  rw [amoStep_eq ha hv he, need_noMultiple halign]
  rfl

variable (halign : a.toNat % (if dbl then 8 else 4) = 0) (hx : translate s s.agent a .w = .ok (p, t))
include halign hx

theorem amoStep_translated : amoStep op o dbl sc rd rs1 rs2 s =
    amoAccess op o (if dbl then 8 else 4) (coreOf s.cur) sc rd a v e p t := by
  rw [amoStep_eq ha hv he, need_multiple halign, ok_bind, hx, ok_bind]

end Step

/-! ## The instructions (R252) -/

/-- The atomics of both widths that compare nothing. -/
def amoWords (o : AmoOrd) (dbl : Bool) (sc : Scope) (rd rs1 rs2 : XReg) : List Instr :=
  [.amoAdd o dbl sc rd rs1 rs2, .amoAnd o dbl sc rd rs1 rs2, .amoOr o dbl sc rd rs1 rs2, .amoXor o dbl sc rd rs1 rs2,
    .amoMin o dbl sc rd rs1 rs2, .amoMax o dbl sc rd rs1 rs2, .amoMinu o dbl sc rd rs1 rs2, .amoMaxu o dbl sc rd rs1 rs2,
    .amoSwap o dbl sc rd rs1 rs2]

/-- Each of them is the step of its operation, with no expected value. -/
theorem exec_amoWords (hi : i ∈ amoWords o dbl sc rd rs1 rs2) (s : State) :
    ∃ op, op ≠ .cas ∧ exec i s = s.commit (amoStep op o dbl sc rd rs1 rs2 s) := by
  simp only [amoWords, List.mem_cons, List.not_mem_nil, or_false] at hi
  obtain rfl | rfl | rfl | rfl | rfl | rfl | rfl | rfl | rfl := hi
  exacts [⟨.add, nofun, rfl⟩, ⟨.and, nofun, rfl⟩, ⟨.or, nofun, rfl⟩, ⟨.xor, nofun, rfl⟩, ⟨.min, nofun, rfl⟩,
    ⟨.max, nofun, rfl⟩, ⟨.minu, nofun, rfl⟩, ⟨.maxu, nofun, rfl⟩, ⟨.swap, nofun, rfl⟩]

end Sys2Proof.Machine

open Sys2Proof Sys2Proof.Machine

/-- Settles O20: every atomic is `amoStep`, whose checks are `amoStep_misaligned` and `amoAccess_uncached`, and past them
`amoAccess_done`, with the new word and the flags that `amoNew` gives for its operation. -/
theorem atomics : Obligations.Atomics := by
  intro s t o dbl sc rd rs1 rs2 a v p ha hv n all
  refine ⟨fun halign i hi => ?misaligned, fun halign hx hun i hi => ?uncached, fun hx hun hpoison => ?done⟩
  case misaligned =>
    obtain ⟨op, hop, hexec⟩ := exec_amoWords hi s
    rw [hexec, amoStep_misaligned ha hv (if_neg hop) halign, commit_error]
  case uncached =>
    obtain ⟨op, hop, hexec⟩ := exec_amoWords hi s
    rw [hexec, amoStep_translated ha hv (if_neg hop) halign hx, amoAccess_uncached hun, commit_error]
  case done =>
    intro core r h gives k word
    have hn : n ≤ 8 := by cases dbl <;> decide
    have hdone {i : Instr} {op : AmoOp} {dbl : Bool} {e : Word} (halign : a.toNat % (if dbl then 8 else 4) = 0)
        (he : (if op = .cas then s.xr rd else .ok 0#64) = .ok e)
        (hexec : exec i s = s.commit (amoStep op o dbl sc rd rs1 rs2 s)) :
        exec i s = s.commit (amoAccess op o (if dbl then 8 else 4) core sc rd a v e p t) := by
      rw [hexec, amoStep_translated ha hv he halign hx]
    have hplain (op : AmoOp) (new : Nat → Nat) (hop : op ≠ .cas) {i : Instr}
        (hexec : exec i s = s.commit (amoStep op o dbl sc rd rs1 rs2 s))
        (hnew : ∀ old, amoNew op n old k ((0#64).toNat % 2 ^ (8 * n)) = (some (new old), 0#5)) : word i new := fun halign hrd =>
      (hdone halign (if_neg hop) hexec).trans
        (congrArg s.commit (amoAccess_done (new := fun old => some (new old)) (fl := fun _ => 0#5) hn hun hpoison hnew hrd))
    refine ⟨hplain .add (fun old => (old + k) % 2 ^ (8 * n)) nofun rfl fun _ => rfl,
      hplain .and (· &&& k) nofun rfl fun _ => rfl, hplain .or (· ||| k) nofun rfl fun _ => rfl,
      hplain .xor (· ^^^ k) nofun rfl fun _ => rfl,
      hplain .min (fun old => if intOf (8 * n) k < intOf (8 * n) old then k else old) nofun rfl fun _ => rfl,
      hplain .max (fun old => if intOf (8 * n) old < intOf (8 * n) k then k else old) nofun rfl fun _ => rfl,
      hplain .minu (min · k) nofun rfl fun _ => rfl, hplain .maxu (max · k) nofun rfl fun _ => rfl,
      hplain .swap (fun _ => k) nofun rfl fun _ => rfl,
      fun e he halign hrd => ?cas, ?fadd⟩
    case cas =>
      exact (hdone (op := .cas) halign he rfl).trans
        (congrArg s.commit (amoAccess_done (new := fun old => if old = e.toNat % 2 ^ (8 * n) then some k else none)
          (fl := fun _ => 0#5) hn hun hpoison (fun _ => rfl) hrd))
    case fadd =>
      intro sum
      exact fun halign hrd => (hdone (i := .amoFadd o sc rd rs1 rs2) (op := .fadd) (dbl := false) halign rfl rfl).trans
        (congrArg s.commit (amoAccess_done (new := fun old => some (sum old).1) (fl := fun old => (sum old).2)
          (by decide) hun hpoison (fun old => amoNew_fadd 4 old _ _) hrd))
end

section
/-! Memory locks (R255-R258): the checks of a lock instruction, a lock taken, waited for and passed on, and O21. -/

namespace Sys2Proof.Machine

variable {s t h : State} {sc : Scope} {rd rs1 : XReg} {a : Word} {p : Phys} {w : Waiter}

/-- The slot under way as a lock's table and queue name it. -/
def State.asWaiter (s : State) : Waiter := { slot := s.cur, gen := s.me.gen }

/-- What `lk.take` does once its word is at its home `h` (R256). -/
def lockTake (sc : Scope) (rd rs1 : XReg) (a : Word) (p : Phys) (port : Nat) (h : State) : Except Trap State :=
  let pt := h.port port
  match holderOf pt p.pa (h.homeWord p) with
  | some w =>
    if w = h.asWaiter then fail cLOCK a
    else if portWaiters ≤ pt.waiters then
      h.setX rd 2#64 >>= fun u => .ok (u.stallFor (tierClk (h.tier p.pa))).retire
    else
      h.setX rd 0#64 >>= fun _ => .ok ((h.setPort port
        { pt with fifo := AMap.set pt.fifo p.pa (AMap.getD pt.fifo p.pa [] ++ [h.asWaiter]) }).holdOn .lock (.lkTake sc rd rs1) a)
  | none =>
    if portHeld ≤ pt.held.length then
      h.setX rd 2#64 >>= fun u => .ok (u.stallFor (tierClk (h.tier p.pa))).retire
    else
      let g := putLock (h.setPort port { pt with held := AMap.set pt.held p.pa h.asWaiter }) p.pa (lockWord h.cur h.me.gen)
      ((g.dropLine (coreOf g.cur) p).acquireAt (coreOf g.cur) sc).setX rd (w64 (fld (h.homeWord p) 62 62)) >>= fun u =>
        .ok ((u.countLocks (· + 1)).stallFor (tierClk (h.tier p.pa))).retire

/-! ## The checks (R255) -/

section Checked
variable (ha : s.xr rs1 = .ok a) (halign : a.toNat % 8 = 0) (hx : translate s s.agent a .w = .ok (p, t))
  (hfe : t.hasFe p.pa = true) (hhs : p.hs = false) (hpoison : t.isPoison p.pa = false)
include ha halign hx hfe hhs hpoison

theorem lockAddr_ok : lockAddr rs1 s = .ok (a, p, t) := by
  have hhome : (t.hasFe p.pa && !p.hs) = true := by rw [hfe, hhs]; rfl
  rw [lockAddr, ha, ok_bind, need_multiple halign, ok_bind, hx, ok_bind]
  dsimp only
  rw [need_ok hhome, ok_bind, noPoison_of_clean hpoison]
  rfl

theorem exec_lkTake : exec (.lkTake sc rd rs1) s =
    s.commit (lockTake sc rd rs1 a p (homePort t.fit p.pa) (t.atHome t.agent p)) := by
  change execLkTake sc rd rs1 s = _
  rw [execLkTake, lockAddr_ok ha halign hx hfe hhs hpoison]
  rfl

/-- What `lk.give` does: its release, and the lock passed on where the slot holds it (R258). -/
theorem exec_lkGive : exec (.lkGive sc rs1) s =
    let h := (t.releaseAt (coreOf t.cur) sc).atHome t.agent p
    let port := homePort t.fit p.pa
    s.commit (need (holderOf (h.port port) p.pa (h.homeWord p) == some h.asWaiter) cLOCK a >>= fun _ =>
      .ok ((passLock (h.dropLine (coreOf h.cur) p) port p.pa 0 0#64).countLocks (· - 1)).retire) := by
  change execLkGive sc rs1 s = _
  rw [execLkGive, lockAddr_ok ha halign hx hfe hhs hpoison]
  rfl

end Checked

/-! ## A lock taken (R256) -/

/-- A field of one bit, as a word. -/
theorem w64_fld_bit (c : Word) (k : Nat) : w64 (fld c k k) = if c.getLsbD k then 1#64 else 0#64 := by
  have hwidth : k + 1 - k = 1 := by omega
  rw [fld, hwidth, BitVec.getLsbD, Nat.testBit_eq_decide_div_mod_eq]
  rcases Nat.mod_two_eq_zero_or_one (c.toNat / 2 ^ k) with h0 | h1
  · simp [h0, w64]
  · simp [h1, w64]

/-- The machine with the free lock at `p` written for the slot under way and entered in the home's table. -/
def State.lockEntered (h : State) (port : Nat) (p : Phys) : State :=
  let pt := h.port port
  ((h.setPort port { pt with held := AMap.set pt.held p.pa h.asWaiter }).homeWrite none p.pa
    (natBytes 8 (lockWord h.cur h.me.gen).toNat)).dropLine (coreOf h.cur) p

/-- A take of a free lock enters it and acquires; the lock's word says whether an ended generation left it. -/
theorem lockTake_free {port : Nat} (hfree : holderOf (h.port port) p.pa (h.homeWord p) = none)
    (hroom : (h.port port).held.length < 4096) (hrd : ((h.lockEntered port p).acquireAt (coreOf h.cur) sc).xOk rd) :
    lockTake sc rd rs1 a p port h = .ok ((((((h.lockEntered port p).acquireAt (coreOf h.cur) sc).putX rd
      (if (h.homeWord p).getLsbD 62 then 1#64 else 0#64)).countLocks (· + 1)).stallFor (tierClk (h.tier p.pa))).retire) := by
  have hcur := keeps_cur (keeps_homeWrite (h.setPort port
    { h.port port with held := AMap.set (h.port port).held p.pa h.asWaiter }) none p.pa (vecBytes 8 (lockWord h.cur h.me.gen)))
  have hheld : ¬ portHeld ≤ (h.port port).held.length := Nat.not_le.2 hroom
  rw [lockTake]
  dsimp only
  rw [hfree]
  dsimp only
  rw [if_neg hheld, putLock, hcur, w64_fld_bit]
  exact (congrArg (· >>= _) (setX_of_xOk hrd _)).trans rfl

theorem lockTake_waits {port : Nat} (hheld : holderOf (h.port port) p.pa (h.homeWord p) = some w) (hw : w ≠ h.asWaiter)
    (hroom : (h.port port).waiters < 2048) (hrd : h.xOk rd) :
    let pt := h.port port
    lockTake sc rd rs1 a p port h = .ok ((h.setPort port
      { pt with fifo := AMap.set pt.fifo p.pa (AMap.getD pt.fifo p.pa [] ++ [h.asWaiter]) }).holdOn .lock (.lkTake sc rd rs1) a) := by
  have hqueue : ¬ portWaiters ≤ (h.port port).waiters := Nat.not_le.2 hroom
  rw [lockTake]
  dsimp only
  rw [hheld]
  dsimp only
  rw [if_neg hw, if_neg hqueue, setX_of_xOk hrd, ok_bind]

theorem lockTake_own {port : Nat} (hheld : holderOf (h.port port) p.pa (h.homeWord p) = some h.asWaiter) :
    lockTake sc rd rs1 a p port h = .error { cause := 0x14, tval := a } := by
  rw [lockTake]
  dsimp only
  rw [hheld]
  exact if_pos rfl

/-! ## A lock passed on (R257, R258) -/

section Pass
variable (s : State) {port pa : Nat} (status : Nat) (free : Word)

theorem passLock_free (hnone : AMap.getD (s.port port).fifo pa [] = []) : passLock s port pa status free =
    (s.setPort port { s.port port with held := AMap.del (s.port port).held pa, fifo := AMap.del (s.port port).fifo pa }).homeWrite
      none pa (natBytes 8 free.toNat) := by
  rw [passLock]
  dsimp only
  rw [hnone]
  rfl

theorem passLock_next {r : List Waiter} (hnext : AMap.getD (s.port port).fifo pa [] = w :: r) : passLock s port pa status free =
    grantLock ((s.setPort port { s.port port with
      held := AMap.set (s.port port).held pa w, fifo := AMap.put [] (s.port port).fifo pa r }).homeWrite none pa
        (natBytes 8 (lockWord w.slot w.gen).toNat)) w status (tierClk (s.tier pa)) := by
  rw [passLock]
  dsimp only
  rw [hnext]
  rfl

end Pass

end Sys2Proof.Machine

open Sys2Proof Sys2Proof.Machine

/-- Settles O21: past the checks (`lockAddr_ok`), a take is `lockTake`, which finds the lock free, held by another or the
slot's own; a give passes on the lock that the slot holds (`passLock_free`, `passLock_next`). -/
theorem locks : Obligations.Locks := by
  intro s t sc rd rs1 a p ha halign hx hfe hhs hpoison port clks
  have htier {h : State} (hk : keeps t h) : tierClk (h.tier p.pa) = clks := congrArg tierClk (keeps_tier hk p.pa)
  refine ⟨?take, ?give⟩
  case take =>
    intro h me pt
    rw [← htier (keeps_atHome t t.agent p), exec_lkTake ha halign hx hfe hhs hpoison]
    refine ⟨fun hfree hroom => ?free, fun w hheld hw hroom hrd => ?waits, fun hheld => ?own⟩
    case free =>
      intro g u hrd
      exact congrArg s.commit (lockTake_free hfree hroom hrd)
    case waits => exact congrArg s.commit (lockTake_waits hheld hw hroom hrd)
    case own => exact congrArg s.commit (lockTake_own hheld)
  case give =>
    intro h me pt d
    have hk : keeps t h := keeps_trans (keeps_releaseAt ..) (keeps_atHome ..)
    have hexec : exec (.lkGive sc rs1) s = s.commit (need (holderOf pt p.pa (h.homeWord p) == some me) cLOCK a >>= fun _ =>
        .ok ((passLock d port p.pa 0 0#64).countLocks (· - 1)).retire) := exec_lkGive ha halign hx hfe hhs hpoison
    refine ⟨fun hheld => ?held, fun hheld => ?unheld⟩
    case held =>
      rw [need_ok (beq_iff_eq.2 hheld), ok_bind, commit_ok] at hexec
      refine ⟨fun hnone => ?_, fun w r hnext => ?_⟩
      · rw [hexec, passLock_free d 0 0#64 hnone]
        rfl
      · rw [hexec, passLock_next d 0 0#64 hnext, ← htier hk]
        rfl
    case unheld =>
      rw [need_error (beq_eq_false_iff_ne.2 hheld)] at hexec
      exact hexec
end

section
/-! Atomic, lock and combining nodes as they fire (R260-R267): the checks of an `amo` by the form of its address, the M-cell
place that a lock or combining node names, a lock token granted, waited for or refused, and O40. -/

namespace Sys2Proof.Machine

variable {s t u w : State} {n : GNode} {f : Firing} {x y off key k : Nat} {p : Phys}

/-! ## `amo` (R260, R261) -/

section Amo
variable (h : s.fires (.gAmo n) f u) (halign : f.lpay.toNat % nodeBytes n = 0)
include h halign

/-- An `amo` of a memory word, past its translation and its check for a read-modify-write, asks for a line without poison. -/
theorem exec_gAmo_va (hform : gForm f.lpay = .va f.lpay) (hx : translate u (u.fireAgent f) f.lpay .w = .ok (p, t))
    (hrmw : rmwOk t p f.lpay = .ok ()) : exec (.gAmo n) s = nodeResult u (.gAmo n) f
      (nodeNeed (!t.isPoison p.pa) cPOISON f.lpay >>= fun _ => .ok ((t.pendOn f (.gAmo n) f.lpay [f.lpay]).sendCount f false)) := by
  refine (runNode_eq_nodeResult h _).trans (congrArg _ ?_)
  dsimp only
  rw [nodeAddr_of_aligned (formOk_va hform ..) halign, ok_bind]
  dsimp only
  rw [hx, liftT, ok_bind]
  dsimp only
  rw [hrmw]
  rfl

theorem exec_gAmo_loc (hform : gForm f.lpay = .loc off) (hurg : ((u.region f.rk).block f.ik.blk).urg = false) :
    exec (.gAmo n) s = u.firedBad (.gAmo n) f 0x07 f.lpay := by
  have hok : formOk u f f.lpay .w = .ok (.loc off) := formOk_of_not_urgent hurg hform nofun
  refine (runNode_eq_nodeResult h _).trans ?_
  dsimp only
  rw [nodeAddr_of_aligned hok halign]
  rfl

/-- An `amo` of an M-cell word has the checks of a store of its size. -/
theorem exec_gAmo_mcell (hform : gForm f.lpay = .mcell x y off) (hurg : ((u.region f.rk).block f.ik.blk).urg = false)
    (hwrite : nodeWriteOk u f f.lpay (natBytes (nodeBytes n) f.rpay.toNat) (.mcell x y off) = .ok w) :
    exec (.gAmo n) s =
      firedTo (.gAmo n) f ((w.pendOn f (.gAmo n) (linAddr w f (.mcell x y off)) [f.lpay]).sendCount f false) := by
  have hok : formOk u f f.lpay .w = .ok (.mcell x y off) := formOk_of_not_urgent hurg hform nofun
  refine (runNode_eq_nodeResult h _).trans ?_
  dsimp only
  rw [nodeAddr_of_aligned hok halign, ok_bind]
  dsimp only
  rw [storeAt_of_nodeWriteOk hok halign hwrite]
  rfl

end Amo

/-! ## The place that a lock or combining node names (R262, R266) -/

theorem lockPlace_mcell (halign : f.lpay.toNat % k = 0) (hform : gForm f.lpay = .mcell x y off)
    (hurg : ((u.region f.rk).block f.ik.blk).urg = false) (hkey : mCellAt u f.rk x y f.lpay = .ok key) :
    lockPlace u f k = .ok (x, y, key, off) := by
  rw [lockPlace, nodeAddr_of_aligned (formOk_of_not_urgent hurg hform nofun) halign, ok_bind]
  dsimp only
  rw [hkey]
  rfl

/-- A VA names none. -/
theorem lockPlace_va (hcanon : canonical f.lpay = true) (halign : f.lpay.toNat % k = 0) :
    lockPlace u f k = .error (some { cause := 0x07, tval := f.lpay }) := by
  rw [lockPlace, nodeAddr_of_aligned (formOk_va (gForm_of_canonical hcanon) ..) halign]
  rfl

theorem lockPlace_misaligned (hcanon : canonical f.lpay = true) (halign : f.lpay.toNat % k ≠ 0) :
    lockPlace u f k = .error (some { cause := 0x03, tval := f.lpay }) := by
  rw [lockPlace, nodeAddr_misaligned hcanon halign, error_bind]

/-! ## `lkt` (R262, R263) -/

/-- What an `lkt` does once its token is found and what orders it is done. -/
def lktTake (n : GNode) (f : Firing) (x y key off : Nat) (u : State) : NodeOut :=
  let l := AMap.getD (u.cell key).locks (lockNo off) {}
  nodeNeed (l.holder != some f.ik.ctx && decide (locksHeld u f.rk f.ik.ctx < 4)) cLOCK f.lpay >>= fun _ =>
    match l.holder with
    | none => .ok ((gAcquire (u.modCell key fun c => { c with
        locks := AMap.set c.locks (lockNo off) { l with holder := some f.ik.ctx, by_ := some f.ik, abn := false } })
          f.rk (nodeScope n)).sendOut f n (2 * hops (f.x, f.y) (x, y) + 2) [w64 (b2n l.abn)] .int)
    | some _ => liftT (poolRoom u f.rk key) >>= fun t => .ok (t.modCell key fun c => { c with
        locks := AMap.set c.locks (lockNo off) { l with wait := l.wait ++ [{ off := off, f := f, node := .gLkt n }] } })

theorem exec_gLkt (h : s.fires (.gLkt n) f u) (hplace : lockPlace u f 8 = .ok (x, y, key, off))
    (hready : fenceReady u f (.gLkt n) = true) :
    exec (.gLkt n) s = nodeResult u (.gLkt n) f (lktTake n f x y key off u) := by
  refine (runNode_eq_nodeResult h _).trans (congrArg _ ?_)
  rw [hplace, ok_bind]
  dsimp only
  rw [hready]
  rfl

/-- A token of its own, or a fifth, is refused (R263). -/
theorem lktTake_refused (hheld : (AMap.getD (u.cell key).locks (lockNo off) {}).holder = some f.ik.ctx
    ∨ 4 ≤ locksHeld u f.rk f.ik.ctx) : lktTake n f x y key off u = .error (some { cause := 0x14, tval := f.lpay }) := by
  have hno : ((AMap.getD (u.cell key).locks (lockNo off) {}).holder != some f.ik.ctx
      && decide (locksHeld u f.rk f.ik.ctx < 4)) = false := by
    rcases hheld with hown | hfour
    · rw [hown, bne_self_eq_false, Bool.false_and]
    · rw [decide_eq_false (Nat.not_lt.2 hfour), Bool.and_false]
  rw [lktTake, nodeNeed_of_not hno]
  rfl

section Room
variable (hfour : locksHeld u f.rk f.ik.ctx < 4)
include hfour

theorem nodeNeed_lock {hd : Option Ctx} (hother : hd ≠ some f.ik.ctx) :
    nodeNeed (hd != some f.ik.ctx && decide (locksHeld u f.rk f.ik.ctx < 4)) cLOCK f.lpay = .ok () :=
  nodeNeed_of (by rw [bne_iff_ne.2 hother, decide_eq_true hfour, Bool.true_and]) _ _

theorem lktTake_granted (hfree : (AMap.getD (u.cell key).locks (lockNo off) {}).holder = none) :
    let l := AMap.getD (u.cell key).locks (lockNo off) {}
    lktTake n f x y key off u = .ok ((gAcquire (u.modCell key fun c => { c with
      locks := AMap.set c.locks (lockNo off) { l with holder := some f.ik.ctx, by_ := some f.ik, abn := false } })
        f.rk (nodeScope n)).sendOut f n (2 * hops (f.x, f.y) (x, y) + 2) [w64 (b2n l.abn)] .int) := by
  rw [lktTake]
  dsimp only
  rw [hfree, nodeNeed_lock (hd := none) hfour nofun, ok_bind]

theorem lktTake_waits {c : Ctx} (hheld : (AMap.getD (u.cell key).locks (lockNo off) {}).holder = some c) (hother : c ≠ f.ik.ctx)
    (hroom : poolRoom u f.rk key = .ok t) :
    let l := AMap.getD (u.cell key).locks (lockNo off) {}
    lktTake n f x y key off u = .ok (t.modCell key fun c => { c with
      locks := AMap.set c.locks (lockNo off) { l with wait := l.wait ++ [{ off := off, f := f, node := .gLkt n }] } }) := by
  rw [lktTake]
  dsimp only
  rw [hheld, nodeNeed_lock hfour (fun hc => hother (Option.some.inj hc)), ok_bind]
  dsimp only
  rw [hroom]
  rfl

end Room

/-- The payload of a grant is the abandoned mark (R263). -/
theorem w64_b2n (b : Bool) : w64 (b2n b) = if b then 1#64 else 0#64 := by cases b <;> rfl

/-! ## `lkg` and `mcomb` (R264, R266) -/

theorem exec_gLkg (h : s.fires (.gLkg n) f u) : exec (.gLkg n) s =
    nodeResult u (.gLkg n) f (lockPlace u f 8 >>= fun _ => .ok (u.pendOn f (.gLkg n) 0#64 [f.lpay])) :=
  runNode_eq_nodeResult h _

theorem exec_gMcomb (h : s.fires (.gMcomb n) f u) : exec (.gMcomb n) s =
    nodeResult u (.gMcomb n) f (lockPlace u f 16 >>= fun _ => .ok (u.pendOn f (.gMcomb n) 0#64 [f.lpay])) :=
  runNode_eq_nodeResult h _

end Sys2Proof.Machine

open Sys2Proof Sys2Proof.Machine

/-- Settles O40: an `amo` has the checks of its address's form (`exec_gAmo_va`, `exec_gAmo_mcell`, `exec_gAmo_loc`), an `lkt` is
`lktTake` at the place it names, and `lkg` and `mcomb` need only that place (`lockPlace_mcell`, `lockPlace_va`). -/
theorem atomicNodes : Obligations.AtomicNodes := by
  intro s t u n f x y off key a gives urg here l
  have hplace {k : Nat} (halign : a.toNat % k = 0) (hhere : here) : lockPlace u f k = .ok (x, y, key, off) :=
    lockPlace_mcell halign hhere.1 hhere.2.1 hhere.2.2
  refine ⟨fun h halign => ⟨fun p hform hx hrmw hpoison => ?amo, fun p hform hx hrmw hpoison => ?amoPoison,
      fun w => exec_gAmo_mcell h halign, exec_gAmo_loc h halign⟩,
    fun h halign hhere hready => ?lkt,
    fun h halign => ⟨fun hhere => ?lkg, fun hcanon => ?lkgVa⟩,
    fun h => ⟨fun halign hhere => ?mcomb, fun hcanon halign => ?mcombBad⟩⟩
  case amo =>
    have hexec := exec_gAmo_va h halign hform hx hrmw
    rw [hpoison] at hexec
    exact hexec
  case amoPoison =>
    have hexec := exec_gAmo_va h halign hform hx hrmw
    rw [hpoison] at hexec
    exact hexec
  case lkt =>
    have hexec := exec_gLkt h (hplace halign hhere) hready
    refine ⟨fun hheld => ?refused, fun hfour hfree => ?granted, fun c hfour hheld hother hroom => ?waits⟩
    case refused => rw [lktTake_refused hheld] at hexec; exact hexec
    case granted =>
      rw [lktTake_granted hfour hfree, w64_b2n] at hexec
      exact hexec
    case waits => rw [lktTake_waits hfour hheld hother hroom] at hexec; exact hexec
  case lkg =>
    have hexec := exec_gLkg h
    rw [hplace halign hhere] at hexec
    exact hexec
  case lkgVa =>
    have hexec := exec_gLkg h
    rw [lockPlace_va hcanon halign] at hexec
    exact hexec
  case mcomb =>
    have hexec := exec_gMcomb h
    rw [hplace halign hhere] at hexec
    exact hexec
  case mcombBad =>
    have hexec := exec_gMcomb h
    rw [lockPlace_misaligned hcanon halign] at hexec
    exact hexec
end

section
/-! Commit and the effects in order (R264, R293, R295, R307): instances committed, the effect a cell performs next, stores,
`iwr` and `lkg` performed, a lock token passed on, and O43. -/

namespace Sys2Proof.Machine

variable {s t z : State} {rk : RKey} {ik : IKey} {i : Inst} {p : Pend} {n : GNode} {a : Word} {bs : List Byte} {x y key off : Nat}
  {q : Phys}

/-! ## INSTANCE_COMMIT and COMMIT_TOKEN (R293, R307) -/

section Placed
variable (hinst : (s.region rk).inst? ik = some i) (hwave : (s.region rk).wave = none) (hst : (s.region rk).st = 3)
include hinst hwave hst

theorem exec_instanceCommit_notYet (hmay : mayCommit s rk i = false) : exec (.instanceCommit rk ik) s = .next s := by
  change execInstanceCommit rk ik s = _
  rw [execInstanceCommit]
  dsimp only
  rw [recordArc_of_placed hst hwave, hinst]
  dsimp only
  rw [if_pos (.inr (by rw [hmay]; rfl))]

/-- Of a token-mode block: where it may commit, its commit is next in the order of commits. -/
theorem exec_instanceCommit_next (hmay : mayCommit s rk i = true) (hstream : ((s.region rk).block ik.blk).stream = false) :
    let s1 := s.modRegion rk fun r => { r with serial := r.serial + 1 }
    let s2 := s1.modInst rk ik fun i => { i with committed := true, com := (s.region rk).serial + 1 }
    exec (.instanceCommit rk ik) s = .next (settle (sendCommits (dropKept (regionFlags s2 rk i.flags) rk ik) rk ik) rk) := by
  have hgo : ¬ ((s.region rk).st ≠ 3 ∨ (!mayCommit s rk i) = true) := by rw [hst, hmay]; decide
  change execInstanceCommit rk ik s = _
  rw [execInstanceCommit]
  dsimp only
  rw [recordArc_of_placed hst hwave, hinst]
  dsimp only
  rw [if_neg hgo, hstream, if_neg Bool.false_ne_true]

theorem exec_commitToken (cell : Nat) :
    let at_ := ((s.region rk).block ik.blk).cellXY cell
    exec (.commitToken rk ik cell) s =
      .next (settle (runPends rk ik at_.1 at_.2 (.commitToken rk ik cell) (i.pend.length + 1) s) rk) := by
  change execCommitToken rk ik cell s = _
  rw [execCommitToken]
  dsimp only
  rw [recordArc_of_placed hst hwave, hinst]

end Placed

/-! ## The order of effects (R245, R307) -/

/-- The effect of lower LSID, of the one found before and another; the earlier one where they are equal. -/
def lowerPend (b : Option Pend) (p : Pend) : Option Pend :=
  match b with
  | none => some p
  | some o => if p.lsid < o.lsid then some p else b

theorem mem_of_foldl_lowerPend {l : List Pend} {b : Option Pend} (h : l.foldl lowerPend b = some p) : p ∈ l ∨ b = some p := by
  induction l generalizing b with
  | nil => exact .inr h
  | cons o r ih =>
    rcases ih h with hr | hb
    · exact .inl (List.mem_cons_of_mem _ hr)
    · have hnew (ho : some o = some p) : p ∈ o :: r := Option.some.inj ho ▸ List.mem_cons_self
      unfold lowerPend at hb
      split at hb
      · exact .inl (hnew hb)
      split at hb
      · exact .inl (hnew hb)
      · exact .inr hb

/-- The effect that a cell performs next is one of its own still to be performed, no other such effect is below it, and
nothing else comes before it. -/
theorem nextPend_effect (h : nextPend s rk i x y = .effect p) :
    (p ∈ i.pend ∧ p.done = false ∧ p.f.x = x ∧ p.f.y = y) ∧ (∀ q ∈ i.pend, q.done = false → p.lsid ≤ q.lsid)
      ∧ olderPending (s.region rk) i = false ∧ mustWait s rk i p = false := by
  unfold nextPend at h
  dsimp only at h
  split at h
  · cases h
  next o hlowest =>
  split at h
  · cases h
  next hclear =>
  cases h
  have hmine := (mem_of_foldl_lowerPend (b := none) hlowest).resolve_right nofun
  simp only [List.mem_filter, Bool.and_eq_true, beq_iff_eq, Bool.not_eq_true'] at hmine
  simp only [Bool.or_eq_true, not_or, Bool.not_eq_true, List.any_eq_false, List.mem_filter, Bool.not_eq_true',
    decide_eq_true_eq, Nat.not_lt] at hclear
  obtain ⟨⟨hmem, hdone⟩, hx, hy⟩ := hmine
  obtain ⟨⟨hlow, holder⟩, hwait⟩ := hclear
  exact ⟨⟨hmem, hdone, hx, hy⟩, fun q hq hqd => hlow q ⟨hq, hqd⟩, holder, hwait⟩

/-! ## Stores performed (R200, R342) -/

/-- A write that waited for its commit is put in its owner's buffer, or discarded where its line is poisoned by now. -/
theorem ownerWriteLate_of_translate
    (hx : let o := (z.region rk).ownerOf a
      translate z (z.cellAgent rk (cellAt (z.region rk).handle o.1 o.2)) a .w = .ok (q, t)) :
    ownerWriteLate z rk a bs = .ok (if t.isPoison q.pa then t.countEcc 0x21 else ownerPut t rk a q bs) := by
  dsimp only at hx
  rw [ownerWriteLate]
  dsimp only
  rw [hx]

theorem performStore_va (hform : gForm (p.data.headD 0#64) = .va a) (hwrite : ownerWriteLate z p.f.rk a bs = .ok t) :
    performStore z p bs = t := by
  rw [performStore]
  rw [hform]
  dsimp only
  rw [hwrite]
  rfl

theorem performStore_mcell (hform : gForm (p.data.headD 0#64) = .mcell x y off)
    (hkey : mCellAt z p.f.rk x y (p.data.headD 0#64) = .ok key) (hwrite : mWrite z p.f.rk x y key off bs = .ok t) :
    performStore z p bs = t := by
  rw [performStore]
  rw [hform]
  dsimp only
  rw [hkey]
  dsimp only
  rw [hwrite]
  rfl

theorem performStore_loc (hform : gForm (p.data.headD 0#64) = .loc off)
    (hwrite : localWrite z p.f.rk (z.cellOf p.f.rk p.f.x p.f.y) off bs (p.data.headD 0#64) = .ok t) :
    performStore z p bs = t := by
  rw [performStore]
  rw [hform]
  dsimp only
  rw [hwrite]
  rfl

/-- `st` and `strl` perform one store, `strl` after its release. -/
theorem perform_store (h : p.node = .gSt n ∧ z = s ∨ p.node = .gStrl n ∧ z = gRelease s p.f.rk (nodeScope n)) :
    perform s p = .done (performStore z p (natBytes (nodeBytes n) p.f.rpay.toNat)) := by
  rcases h with ⟨hnode, rfl⟩ | ⟨hnode, rfl⟩ <;> (rw [perform, hnode])

theorem perform_fwr (hnode : p.node = .gFwr n) (hwrite : ownerWriteLate s p.f.rk p.addr (natBytes 8 p.f.lpay.toNat) = .ok t) :
    perform s p = .done t := by
  rw [perform, hnode]
  dsimp only
  rw [hwrite]
  rfl

/-! ## `iwr` performed (R200, R346) -/

theorem perform_iwr (hnode : p.node = .gIwr n) : perform s p = .done (performIwr s p) := by rw [perform, hnode]

/-- An `iwr` of a memory word, at its home: a poisoned line discards it, and a full word faults. -/
theorem performIwr_va (hform : gForm (p.data.headD 0#64) = .va a) (hx : translate s (s.fireAgent p.f) a .w = .ok (q, t)) :
    let z := ownerHome t p.f.rk a q
    performIwr s p = if z.isPoison q.pa then z.countEcc 0x21
      else if z.isFull q.pa then z.lateFault p.f 0x0C (p.data.headD 0#64)
      else z.putHome (z.fireAgent p.f) q (natBytes 8 p.f.rpay.toNat) := by
  rw [performIwr]
  dsimp only
  rw [hform]
  dsimp only
  rw [hx]
  rfl

/-! ## Lock tokens given and passed on (R264) -/

theorem perform_lkg (hnode : p.node = .gLkg n) : perform s p = .done (performLkg s p n) := by rw [perform, hnode]

section Lkg
variable (hplace : mPlace s p.f (p.data.headD 0#64) = some (x, y, key, off))
include hplace

theorem performLkg_unheld (hother : (AMap.getD (s.cell key).locks (lockNo off) {}).holder ≠ some p.f.ik.ctx) :
    performLkg s p n = s.lateFault p.f 0x14 (p.data.headD 0#64) := by
  rw [performLkg]
  rw [hplace]
  exact if_pos hother

theorem performLkg_held (hmine : (AMap.getD (s.cell key).locks (lockNo off) {}).holder = some p.f.ik.ctx) : performLkg s p n =
    trimPool (lockPass (gRelease s p.f.rk (nodeScope n)) x y key (lockNo off) false) p.f.rk key := by
  rw [performLkg]
  rw [hplace]
  exact if_neg (not_not.2 hmine)

end Lkg

/-- A lock token that no one waits for is free, with the abandoned mark it is given. -/
theorem lockPass_free {tok : Nat} {b : Bool} (hnone : (AMap.getD (s.cell key).locks tok {}).wait = []) :
    AMap.getD ((lockPass s x y key tok b).cell key).locks tok {} = { abn := b } := by
  rw [lockPass]
  dsimp only
  rw [hnone]
  dsimp only
  rw [cell_setCell, AMap.getD_set_self]

/-- The machine after a lock token has passed to the waiter `w`, before `w` is answered. -/
def lockHanded (s : State) (key tok : Nat) (w : Waiting) (r : List Waiting) : State :=
  s.modCell key fun c => { c with
    locks := AMap.set c.locks tok { holder := some w.f.ik.ctx, by_ := some w.f.ik, wait := r } }

theorem lockPass_next {tok : Nat} {b : Bool} {w : Waiting} {r : List Waiting}
    (hnext : (AMap.getD (s.cell key).locks tok {}).wait = w :: r) :
    lockPass s x y key tok b = answer (lockHanded s key tok w r) x y w (if b then 1#64 else 0#64) := by
  rw [lockPass, ← w64_b2n]
  dsimp only
  rw [hnext]
  rfl

theorem locks_lockHanded (s : State) (key tok : Nat) (w : Waiting) (r : List Waiting) :
    AMap.getD ((lockHanded s key tok w r).cell key).locks tok {} =
      { holder := some w.f.ik.ctx, by_ := some w.f.ik, wait := r } := by
  rw [lockHanded, cell_modCell, AMap.getD_set_self]

end Sys2Proof.Machine

open Sys2Proof Sys2Proof.Machine

/-- Settles O43: a commit and its tokens go on in a placed region (`exec_instanceCommit_next`, `exec_commitToken`), the next
effect is the lowest (`nextPend_effect`), and each effect is its own equation. -/
theorem commits : Obligations.Commits := by
  intro s t rk ik i p n cell rg f
  refine ⟨fun hinst hwave hst => ⟨exec_instanceCommit_notYet hinst hwave hst, exec_instanceCommit_next hinst hwave hst⟩,
    fun hinst hwave hst => exec_commitToken hinst hwave hst cell, fun x y h => ?effect, ?stores,
    fun hnode hform q hx => ?iwr, fun hnode x y key off hplace => ?lkg, fun x y key tok b hnone => ?free,
    fun x y key tok b w r hnext => ?passed⟩
  case effect =>
    obtain ⟨⟨hmem, hdone, hx, hy⟩, hlow, holder, hwait⟩ := nextPend_effect h
    exact ⟨hmem, hdone, hx, hy, hlow, holder, hwait⟩
  case stores =>
    intro late
    refine ⟨fun q hnode hx => perform_fwr hnode (ownerWriteLate_of_translate hx), ?_⟩
    intro a bs z hstore
    rw [perform_store hstore]
    refine ⟨fun q hform hx => ?va, fun x y off key hform hkey hwrite => ?mcell, fun off hform hwrite => ?loc⟩
    case va => rw [performStore_va hform (ownerWriteLate_of_translate hx)]
    case mcell => rw [performStore_mcell hform hkey hwrite]
    case loc => rw [performStore_loc hform hwrite]
  case iwr =>
    intro z
    rw [perform_iwr hnode, performIwr_va hform hx]
    refine ⟨fun hpoison => ?_, fun hclean hfull => ?_, fun hclean hempty => ?_⟩
    · exact congrArg Perf.done (if_pos hpoison)
    · exact congrArg Perf.done ((if_neg (Bool.eq_false_iff.1 hclean)).trans (if_pos hfull))
    · exact congrArg Perf.done ((if_neg (Bool.eq_false_iff.1 hclean)).trans (if_neg (Bool.eq_false_iff.1 hempty)))
  case lkg =>
    rw [perform_lkg hnode]
    exact ⟨fun hother => congrArg _ (performLkg_unheld hplace hother), fun hmine => congrArg _ (performLkg_held hplace hmine)⟩
  case free =>
    intro l
    have hl : l = { abn := b } := lockPass_free hnone
    rw [hl]
    exact ⟨rfl, rfl, rfl⟩
  case passed =>
    have hlock := locks_lockHanded s key tok w r
    exact ⟨lockHanded s key tok w r, lockPass_next hnext, by rw [hlock], by rw [hlock]⟩
end

section
/-! Effects left to the commit, performed (R261, R266, R307, R308, R329-R331, R336, R338, R405, R410): one equation of
`perform` for each kind of effect and each outcome that O44 names, and O44. -/

namespace Sys2Proof.Machine

variable {s t t1 t2 v o : State} {p : Pend} {n : GNode} {a : Word} {q : Phys}

/-! ## The effect of each node -/

theorem perform_amo (hnode : p.node = .gAmo n) : perform s p = .done (performAmo s p n) := by rw [perform, hnode]

theorem perform_mcomb (hnode : p.node = .gMcomb n) : perform s p = .done (performMcomb s p n) := by rw [perform, hnode]

theorem perform_call (hnode : p.node = .gCall n) : perform s p = performCall s p n := by rw [perform, hnode]

theorem perform_ccall (hnode : p.node = .gCcall n) : perform s p = performCcall s p n := by rw [perform, hnode]

theorem perform_ffree (hnode : p.node = .gFfree n) : perform s p = .done (performFfree s p) := by rw [perform, hnode]

theorem perform_ret (hnode : p.node = .gRet n) : perform s p = .done (performRet s p n) := by rw [perform, hnode]

theorem perform_post (hnode : p.node = .gPost n) : perform s p = performPost s p := by rw [perform, hnode]

/-- `gat`, `sct` and `cpy` are one effect. -/
theorem perform_copy {i : Instr} (hi : i ∈ [Instr.gGat n, .gSct n, .gCpy n]) (hnode : p.node = i) :
    perform s p = performCopy s p := by
  simp only [List.mem_cons, List.not_mem_nil, or_false] at hi
  rcases hi with rfl | rfl | rfl <;> rw [perform, hnode]

theorem perform_tadv (hnode : p.node = .gTadv n) : perform s p = .done (performTadv s p) := by rw [perform, hnode]

theorem perform_rec (hnode : p.node = .gRec n) : perform s p = performRec s p := by rw [perform, hnode]

/-! ## Atomics and contributions (R261, R266, R267) -/

/-- `amo` of a memory word: the old value leaves, after the acquire. -/
theorem performAmo_va {fl : NxFlags} {old : Nat} (hform : gForm (p.data.headD 0#64) = .va a)
    (hx : let z := if nodeAmoOrd n = .rel ∨ nodeAmoOrd n = .ar then gRelease s p.f.rk (nodeScope n) else s
      xlat z (z.fireAgent p.f) a .w = .ok (q, t))
    (hat : amoAt (ownerHome t p.f.rk a q) (t.fireAgent p.f) q (nodeAmoOp n) (nodeBytes n)
      (if nodeAmoOp n = .cas then fld p.f.rpay 31 0 else p.f.rpay.toNat % 2 ^ (8 * nodeBytes n))
        (if nodeAmoOp n = .cas then fld p.f.rpay 63 32 else 0) = (old, fl, v)) :
    let o := if nodeAmoOrd n = .acq ∨ nodeAmoOrd n = .ar then gAcquire v p.f.rk (nodeScope n) else v
    performAmo s p n = (regionFlags o p.f.rk fl).sendOut p.f n (max 1 (tierClk (o.tier q.pa))) [amoPay n old] n.fmt := by
  simp only [← releases_iff, ← acquires_iff, ← beq_iff_eq (a := nodeAmoOp n) (b := .cas)] at hx hat ⊢
  unfold performAmo
  dsimp only
  rw [hform]
  dsimp only
  rw [hx]
  dsimp only
  rw [hat]

/-- `mcomb` with its control word full. -/
theorem performMcomb_combined {x y key off : Nat} (hplace : mPlace s p.f (p.data.headD 0#64) = some (x, y, key, off))
    (hcombine : combine (gRelease s p.f.rk (nodeScope n)) p.f p.node = some t) : performMcomb s p n = t := by
  unfold performMcomb
  dsimp only
  rw [hplace]
  dsimp only
  rw [hcombine]

section Released
variable {dv : State} (hdv : gRelease s p.f.rk .dv = dv)
include hdv

/-! ## Calls (R329, R331) -/

/-- A `call` whose record, header and start token go out. -/
theorem performCall_sent {r : Word} (hr : (dv.tenant p.f.rk.vmid).frameVa p.f.ik.ctx + w64 (8 * n.immField 8 0) = r)
    (hposted : homePuts dv (dv.fireAgent p.f) r (returnRecord dv p.f n) = .ok t1)
    (hhead : homePuts t1 (dv.fireAgent p.f) p.addr
      [r ||| 1#64, 0#64, 0#64, 0#64, (dv.region p.f.rk).gen.setWidth 64, 0#64] = .ok t2)
    (hx : xlat t2 (dv.fireAgent p.f) (p.addr + 40#64) .w = .ok (q, t))
    (hsent : postStart (t.setEmpty q.pa) p.f.rk.vmid ((t.setEmpty q.pa).coveOf p.f) (dv.region p.f.rk).qid p.f.lpay p.addr
      (some (p.f.rk, p.f.ik)) = .sent v) :
    performCall s p n = .done (v.sendT p.f n.t1 1 [p.addr] .int n.act p.f.ik.ctx p.f.ik.iter) := by
  unfold performCall
  dsimp only
  rw [hdv, hr, hposted, ok_bind, hhead, ok_bind, hx, ok_bind]
  dsimp only
  rw [pure_eq_ok]
  dsimp only
  rw [hsent]

section Ccall
variable (hhead : writeHeader dv (dv.fireAgent p.f) p.addr 0#64 (dv.region p.f.rk).gen = .ok t1)
  (hslots : homePuts t1 (dv.fireAgent p.f) (p.addr + 64#64)
    (p.data.take (n.immField 5 0) ++ List.replicate (8 - n.immField 5 0) 0#64) = .ok t)
include hhead hslots

/-- A `ccall` of a task pushes it at the least loaded core of its cove. -/
theorem performCcall_pushed (hform : fld p.f.lpay 1 0 ≠ 2)
    (hpush : pushBottom t (leastCore t (dv.region p.f.rk).qid (coresOf (handleCove (dv.region p.f.rk).handle)))
      { ptr := p.f.lpay, frame := p.addr, slot := 0#3, dom := 2#3, queue := (dv.region p.f.rk).qid } = some v) :
    performCcall s p n = .done (v.sendOut p.f n 1 [p.addr] .int) := by
  unfold performCcall
  dsimp only
  rw [hdv, hhead, ok_bind, hslots]
  dsimp only
  rw [if_neg hform, hpush]

/-- A `ccall` of a callback appends it to its list. -/
theorem performCcall_callback (hform : fld p.f.lpay 1 0 = 2) :
    performCcall s p n = .done ((callbackAppend t (fld p.f.lpay 12 2) p.addr).sendOut p.f n 1 [p.addr] .int) := by
  unfold performCcall
  dsimp only
  rw [hdv, hhead, ok_bind, hslots]
  dsimp only
  rw [if_pos hform]

end Ccall

/-! ## Frames ended (R330, R336) -/

/-- An `ffree` whose checks still hold frees its frame; of the context's own frame, it ends the context. -/
theorem performFfree_freed (hcheck : freeCheck dv (dv.fireAgent p.f) p.addr = .ok t)
    (hfree : freeFrame t (t.fireAgent p.f) p.addr = .ok v) :
    performFfree s p =
      if p.addr = (v.tenant p.f.rk.vmid).frameVa p.f.ik.ctx then endContext v p.f.rk p.f.ik.ctx else v := by
  unfold performFfree
  dsimp only
  rw [hdv, hcheck]
  dsimp only
  rw [hfree]

/-- A `ret` whose frame is live and has no result yet finishes it. -/
theorem performRet_finished {g : Word} {r : Phys}
    (hload : dv.homeLoad (s.fireAgent p.f) (p.addr + 32#64) = .ok (g, r, v))
    (hx : xlat v (s.fireAgent p.f) (p.addr + 40#64) .w = .ok (q, t)) (hlive : fld g 15 0 ≠ 0) (hempty : t.isFull q.pa = false)
    (hslot : (if n.immField 5 0 = 0 then .ok t else ownerWrite t p.f.rk (p.addr + 64#64) (natBytes 8 p.f.lpay.toNat)) = .ok o) :
    let z := gRelease o p.f.rk .dv
    performRet s p n = endContext (finishFrame z p.f.rk.vmid (z.coveOf p.f) p.addr (n.immField 5 0) 0 p.f.lpay p.f.ltag false)
      p.f.rk p.f.ik.ctx := by
  have hgo : (fld g 15 0 == 0 || t.isFull q.pa) = false := by rw [beq_false_of_ne hlive, hempty]; rfl
  unfold performRet
  dsimp only
  rw [hdv, hload, ok_bind]
  dsimp only
  rw [hx, ok_bind]
  dsimp only
  rw [hgo, pure_eq_ok]
  dsimp only
  rw [hslot]

/-! ## Tides and records (R225, R405, R410) -/

theorem performTadv_arrives {v e : Nat} {d : Tide} (hdata : p.data = [w64 v, w64 e]) (hv : v < 2 ^ 64) (he : e < 2 ^ 64)
    (htide : AMap.get? (dv.tenant v).tides e = some d) : performTadv s p = dv.tideArrive v e d := by
  have hword {k : Nat} (hk : k < 2 ^ 64) : (w64 k).toNat = k := by rw [w64, BitVec.toNat_ofNat, Nat.mod_eq_of_lt hk]
  have hfirst : (p.data.getD 0 0#64).toNat = v := by rw [hdata]; exact hword hv
  have hsecond : (p.data.getD 1 0#64).toNat = e := by rw [hdata]; exact hword he
  unfold performTadv
  dsimp only
  rw [hdv, hfirst, hsecond, htide]

theorem performRec_recorded
    (hfree : keyBusy s (handleQuad (s.region p.f.rk).handle) p.f.rk.vmid (p.data.headD 0#64).toNat = false) :
    performRec s p = .done (recordKey dv (s.fireAgent p.f) (handleQuad (s.region p.f.rk).handle)
      (p.data.headD 0#64).toNat (rdescOf (p.data.drop 1))) := by
  subst hdv
  unfold performRec
  exact if_neg (Bool.eq_false_iff.1 hfree)

end Released

/-- A key whose copy is under way is waited for. -/
theorem performRec_waits
    (hbusy : keyBusy s (handleQuad (s.region p.f.rk).handle) p.f.rk.vmid (p.data.headD 0#64).toNat = true) :
    performRec s p = .wait s := by
  unfold performRec
  exact if_pos hbusy

/-! ## Streams and copies (R308, R410) -/

section Post
variable {y : Buoy} {c : Nat} (hbuoy : AMap.get? (s.region p.f.rk).buoys (p.data.headD 0#64).toNat = some y)
include hbuoy

/-- A `post` waits one mesh time from its commit token. -/
theorem performPost_waits (hwait : p.f.since = none ∧ c = s.clk ∨ p.f.since = some c ∧ s.clk < c + Config.meshCove) :
    let p' := { p with f := { p.f with since := some c } }
    performPost s p = .wait (s.modInst p.f.rk p.f.ik fun i => { i with pend := i.pend.map fun q => if q = p then p' else q }) := by
  unfold performPost
  dsimp only
  rw [hbuoy]
  dsimp only
  rcases hwait with ⟨hsince, rfl⟩ | ⟨hsince, hearly⟩
  · rw [hsince]
    exact if_pos (Nat.lt_succ_self _)
  · rw [hsince]
    exact if_pos hearly

theorem performPost_taken (hsince : p.f.since = some c) (hlate : c + Config.meshCove ≤ s.clk)
    (hx : translate s (s.fireAgent p.f) (y.cur.sva + w64 (8 * y.pos)) .w = .ok (q, t)) :
    let v := if t.isPoison q.pa then t.countEcc 0x21 else t.l2Write (t.coveOf p.f) q (natBytes 8 p.f.lpay.toNat)
    performPost s p = .done (v.modRegion p.f.rk fun r =>
      { r with buoys := AMap.set r.buoys (p.data.headD 0#64).toNat { y with pos := y.pos + 1 } }) := by
  unfold performPost
  dsimp only
  rw [hbuoy]
  dsimp only
  rw [hsince]
  refine (if_neg (Nat.not_lt.2 hlate)).trans ?_
  rw [hx]

end Post

section Copy
variable (hplain : cpOp p.data ≠ 3)
include hplain

theorem performCopy_waits (hfull : copyRoom s (s.coveOf p.f) = false) : performCopy s p = .wait s := by
  unfold performCopy
  rw [if_neg hplain, hfull]
  rfl

theorem performCopy_posted (hroom : copyRoom s (s.coveOf p.f) = true) :
    ∃ c, performCopy s p = .done (enqueueCopy (gRelease s p.f.rk .dv) (s.coveOf p.f) c) ∧ c.pk = p.data ∧ c.rk = some p.f.rk
      ∧ c.node = some (p.f, p.node) := by
  unfold performCopy
  rw [if_neg hplain, hroom]
  exact ⟨_, rfl, rfl, rfl, rfl⟩

end Copy

end Sys2Proof.Machine

open Sys2Proof Sys2Proof.Machine

/-- Settles O44: `perform` does what the effect's node does, each outcome by the lemma that names it. -/
theorem commitEffects : Obligations.CommitEffects := by
  intro s t p n f a dv does
  refine ⟨fun q v fl old hnode hform => ?amo, fun x y key off hnode hplace hcombine => ?mcomb, fun hnode => ?purge, ?tset,
    fun t1 t2 q v hnode => ?call, fun t1 v hnode hform hhead hslots hpush => ?ccall,
    fun t1 hnode hform hhead hslots => ?callback, fun v hnode hcheck hfree => ?ffree,
    fun g r q v hnode hload hx hlive hempty o hslot => ?ret, fun b y hnode hb hbuoy => ?post,
    fun i hi hnode hplain => ?copy, fun v e d hnode hdata hv he htide => ?tadv, fun hnode => ?record⟩
  case amo =>
    intro z o k cas hx hat
    rw [perform_amo hnode]
    exact congrArg Perf.done (performAmo_va hform hx hat)
  case mcomb => rw [perform_mcomb hnode, performMcomb_combined hplace hcombine]
  case purge => rw [perform, hnode]
  case tset =>
    intro c hnode
    rw [perform, hnode]
  case call =>
    intro r hposted hhead hx hsent
    rw [perform_call hnode, performCall_sent rfl rfl hposted hhead hx hsent]
  case ccall => rw [perform_ccall hnode, performCcall_pushed rfl hhead hslots (hform.trans_ne (by decide)) hpush]
  case callback => rw [perform_ccall hnode, performCcall_callback rfl hhead hslots hform]
  case ffree =>
    rw [perform_ffree hnode, performFfree_freed rfl hcheck hfree]
    exact ⟨fun hown => congrArg _ (if_pos hown), fun hother => congrArg _ (if_neg hother)⟩
  case ret => rw [perform_ret hnode, performRet_finished rfl hload hx hlive hempty hslot]
  case post =>
    subst hb
    rw [perform_post hnode]
    exact ⟨fun c hwait => performPost_waits hbuoy hwait, fun c q hsince hlate hx => performPost_taken hbuoy hsince hlate hx⟩
  case copy =>
    rw [perform_copy hi hnode]
    refine ⟨performCopy_waits hplain, fun hroom => ?_⟩
    obtain ⟨c, hdone, hpk, hrk, hcmd⟩ := performCopy_posted hplain hroom
    exact ⟨c, hdone, hpk, hrk, hcmd.trans (by rw [hnode])⟩
  case tadv => rw [perform_tadv hnode, performTadv_arrives rfl hdata hv he htide]
  case record =>
    intro key quad
    rw [perform_rec hnode]
    exact ⟨performRec_waits, performRec_recorded rfl⟩
end

section
/-! Integer and test nodes (R53, R310, R312, R313): the elements of a number put together from parts, the results of nodes
of integer elements, and O34. -/

namespace Sys2Proof.Machine

/-! ## Payloads put together (R355) -/

/-- A number put together from parts has the lanes that those parts give where every lane is active. -/
theorem buildN_eq_lanesOf (w : Nat) (g : Nat → Nat) (k : Nat) :
    buildN w g k = (lanesOf w 0 (fun _ => true) (fun j => (g j, 0#5)) k).1 := by
  induction k with
  | zero => rfl
  | succ k ih => rw [buildN, lanesOf_succ, if_pos rfl, ih]

theorem elemN_buildN {w j k : Nat} (g : Nat → Nat) (hj : j < k) : elemN (buildN w g k) w j = g j % 2 ^ w := by
  rw [buildN_eq_lanesOf, lanesOf_elem _ _ _ _ hj, if_pos rfl]

/-- The payloads of a number are its elements of 64 bits. -/
theorem outWords_eq_map_elemN (k v : Nat) : outWords k v = (List.range k).map fun j => w64 (elemN v 64 j) := by
  refine List.map_congr_left fun j _ => BitVec.eq_of_toNat_eq ?_
  rw [w64, w64, BitVec.toNat_ofNat, BitVec.toNat_ofNat, elemN, Nat.mod_mod]

/-- A number put together from words leaves as those words. -/
theorem outWords_buildN (k : Nat) (g : Nat → Word) : outWords k (buildN 64 (fun j => (g j).toNat) k) = (List.range k).map g := by
  rw [outWords_eq_map_elemN]
  refine List.map_congr_left fun j hj => ?_
  rw [elemN_buildN _ (List.mem_range.1 hj), Nat.mod_eq_of_lt (g j).isLt, w64, BitVec.ofNat_toNat, BitVec.setWidth_eq]

/-- The right operand of a node with IV = 1 is its signed 17-bit immediate in every payload (R310). -/
theorem outWords_rightN_immediate {i : Instr} {n : GNode} (hn : nodeOf i = some n) (hiv : ivOf i = true) (k : Nat) (f : Firing) :
    outWords k (rightN i k f) = List.replicate k ((n.imm.setWidth 17).signExtend 64) := by
  have hfields : fieldsOf i = n := by rw [fieldsOf, hn, Option.getD_some]
  rw [rightN, if_pos hiv, outWords_buildN, hfields, List.map_const', List.length_range, sext,
    BitVec.setWidth_setWidth_of_le _ (by decide)]

/-! ## Nodes of integer elements (R310, R312) -/

section Nodes

variable {s u : State} {i : Instr} {n : GNode} {f : Firing} {clk : Nat}

/-- An integer node: each result from the elements at its place. -/
theorem nodeSends_intNode {res : Nat → Nat → Nat} (op : Nat → Nat → Nat → Nat) (hexec : exec i s = intNode i s op)
    (hn : fieldsOf i = n) (hclk : nodeClk i = clk)
    (hres : ∀ a b, a < 2 ^ Fmt.tokWidth n.fmt → b < 2 ^ Fmt.tokWidth n.fmt → op (Fmt.tokWidth n.fmt) a b = res a b)
    (h : s.fires i f u) :
    let k := payloads u f
    let w := Fmt.tokWidth n.fmt
    s.nodeSends u i f clk n.fmt k w (k * (64 / w)) fun j => (res (elemN (opN k f.l) w j) (elemN (rightN i k f) w j), 0#5) := by
  subst hn hclk
  intro k w
  have hlt (v j : Nat) : elemN v w j < 2 ^ w := Nat.mod_lt _ (by positivity)
  have hsend := nodeSends_eltNode (op := fun a b _ => (op w a b, 0#5)) hexec h
  have hels : (fun j => (op w (elemN (opN k f.l) w j) (elemN (rightN i k f) w j), (0#5 : NxFlags))) =
      fun j => (res (elemN (opN k f.l) w j) (elemN (rightN i k f) w j), 0#5) :=
    funext fun j => by rw [hres _ _ (hlt ..) (hlt ..)]
  rwa [hels] at hsend

/-- A test of whole payloads: 1 or 0, with tag 0 (R313). -/
theorem nodeSends_testNode {res : Nat → Nat → Bool} (hexec : exec i s = testNode i s res) (hclk : nodeClk i = 1)
    (h : s.fires i f u) :
    let k := payloads u f
    s.nodeSends u i f 1 .int k 64 k fun j => (if res (elemN (opN k f.l) 64 j) (elemN (rightN i k f) 64 j) then 1 else 0, 0#5) := by
  intro k
  have hsend := nodeSends_eltNode (op := fun a b _ => (b2n (res a b), 0#5)) hexec h
  rwa [hclk, Nat.mul_one] at hsend

end Nodes

/-! ## One element (R312) -/

section Element

variable {w a b : Nat} (ha : a < 2 ^ w) (hb : b < 2 ^ w)

include hb in
/-- The node tells a division by zero by the element, the quotient by its integer. -/
theorem divElem_eq_natOf_quot (a : Nat) :
    (if b = 0 then natOf w (-1) else natOf w (Int.tdiv (intOf w a) (intOf w b))) = natOf w (quot (intOf w a) (intOf w b)) := by
  rw [natOf_neg_one, quotBits_eq_natOf_quot a hb]

include ha hb

theorem remElem_eq_natOf_remd :
    (if b = 0 then a else natOf w (Int.tmod (intOf w a) (intOf w b))) = natOf w (remd (intOf w a) (intOf w b)) := by
  rw [remd]
  by_cases h : b = 0
  · rw [if_pos h, if_pos ((intOf_eq_zero_iff hb).2 h), natOf_intOf ha]
  · rw [if_neg h, if_neg (mt (intOf_eq_zero_iff hb).1 h)]

theorem minElem_eq_natOf_min : (if intOf w a ≤ intOf w b then a else b) = natOf w (min (intOf w a) (intOf w b)) := by
  rw [min_def]
  split
  · rw [natOf_intOf ha]
  · rw [natOf_intOf hb]

theorem maxElem_eq_natOf_max : (if intOf w a ≤ intOf w b then b else a) = natOf w (max (intOf w a) (intOf w b)) := by
  rw [max_def]
  split
  · rw [natOf_intOf hb]
  · rw [natOf_intOf ha]

end Element

end Sys2Proof.Machine

open Sys2Proof Sys2Proof.Machine

/-- Settles O34: each node is one operation on the elements of its operands (`nodeSends_intNode`, `nodeSends_testNode`), which
agrees with the integers' own at every element. -/
theorem integerNodes : Obligations.IntegerNodes := by
  intro s u n f k w cnt bits ints test divClk
  have hbits (i : Instr) (clk : Nat) (res : Nat → Nat → Nat) (op : Nat → Nat → Nat → Nat) (hexec : exec i s = intNode i s op)
      (hn : fieldsOf i = n) (hclk : nodeClk i = clk) (hres : ∀ a b, a < 2 ^ w → b < 2 ^ w → op w a b = res a b) :
      bits i clk res := nodeSends_intNode op hexec hn hclk hres
  have hints (i : Instr) (clk : Nat) (res : Int → Int → Int) (op : Nat → Nat → Nat → Nat) (hexec : exec i s = intNode i s op)
      (hn : fieldsOf i = n) (hclk : nodeClk i = clk)
      (hres : ∀ a b, a < 2 ^ w → b < 2 ^ w → op w a b = natOf w (res (intOf w a) (intOf w b))) : ints i clk res :=
    nodeSends_intNode op hexec hn hclk hres
  have htest (i : Instr) (res : Nat → Nat → Bool) (op : Nat → Nat → Bool) (hexec : exec i s = testNode i s op)
      (hclk : nodeClk i = 1) (hres : ∀ a b, op a b = res a b) : test i res :=
    nodeSends_testNode (funext₂ hres ▸ hexec) hclk
  refine ⟨?_, ?_, ?_, ?_, ?_, ?_, ?_, ?_, ?_, ?_, ?_, ?_, ?_, ?_, ?_, ?_, ?_, ?_, ?_, ?_, fun i hn =>
    ⟨fun hiv => outWords_rightN_immediate hn hiv k f, fun hiv => ?_⟩⟩
  · exact hints (.gAdd n) 1 (· + ·) (fun w a b => natOf w (intOf w a + intOf w b)) rfl rfl rfl fun _ _ _ _ => rfl
  · exact hints (.gSub n) 1 (· - ·) (fun w a b => natOf w (intOf w a - intOf w b)) rfl rfl rfl fun _ _ _ _ => rfl
  · exact hints (.gMul n) 3 (· * ·) (fun w a b => natOf w (intOf w a * intOf w b)) rfl rfl rfl fun _ _ _ _ => rfl
  · exact hints (.gMulh n) 4 (fun a b => a * b / 2 ^ w) (fun w a b => natOf w (intOf w a * intOf w b / 2 ^ w)) rfl rfl rfl
      fun _ _ _ _ => rfl
  · exact hints (.gDiv n) divClk quot
      (fun w a b => if b = 0 then natOf w (-1) else natOf w (Int.tdiv (intOf w a) (intOf w b))) rfl rfl rfl
      fun a _ _ hb => divElem_eq_natOf_quot hb a
  · exact hints (.gRem n) divClk remd
      (fun w a b => if b = 0 then a else natOf w (Int.tmod (intOf w a) (intOf w b))) rfl rfl rfl
      fun _ _ ha hb => remElem_eq_natOf_remd ha hb
  · exact hbits (.gAnd n) 1 (· &&& ·) (fun _ a b => a &&& b) rfl rfl rfl fun _ _ _ _ => rfl
  · exact hbits (.gOr n) 1 (· ||| ·) (fun _ a b => a ||| b) rfl rfl rfl fun _ _ _ _ => rfl
  · exact hbits (.gXor n) 1 (· ^^^ ·) (fun _ a b => a ^^^ b) rfl rfl rfl fun _ _ _ _ => rfl
  · exact hbits (.gShl n) 1 (fun a b => a * 2 ^ (b % w)) (fun w a b => a * 2 ^ (b % w)) rfl rfl rfl fun _ _ _ _ => rfl
  · exact hbits (.gShr n) 1 (fun a b => a / 2 ^ (b % w)) (fun w a b => a / 2 ^ (b % w)) rfl rfl rfl fun _ _ _ _ => rfl
  · exact hbits (.gSra n) 1 (fun a b => natOf w (intOf w a / 2 ^ (b % w))) (fun w a b => natOf w (intOf w a / 2 ^ (b % w)))
      rfl rfl rfl fun _ _ _ _ => rfl
  · exact hints (.gMin n) 1 min (fun w a b => if intOf w a ≤ intOf w b then a else b) rfl rfl rfl
      fun _ _ ha hb => minElem_eq_natOf_min ha hb
  · exact hints (.gMax n) 1 max (fun w a b => if intOf w a ≤ intOf w b then b else a) rfl rfl rfl
      fun _ _ ha hb => maxElem_eq_natOf_max ha hb
  · exact htest (.gTlt n) _ (fun a b => decide (intOf 64 a < intOf 64 b)) rfl rfl fun _ _ => rfl
  · exact htest (.gTle n) _ (fun a b => decide (intOf 64 a ≤ intOf 64 b)) rfl rfl fun _ _ => rfl
  · exact htest (.gTeq n) (fun a b => decide (a = b)) (fun a b => a == b) rfl rfl beq_eq_decide
  · exact htest (.gTne n) (fun a b => decide (a ≠ b)) (fun a b => a != b) rfl rfl fun a b => by
      rw [bne, beq_eq_decide, decide_not]
  · exact htest (.gTltu n) _ (fun a b => decide (a < b)) rfl rfl fun _ _ => rfl
  · exact htest (.gTleu n) _ (fun a b => decide (a ≤ b)) rfl rfl fun _ _ => rfl
  · rw [rightN, hiv, if_neg Bool.false_ne_true]
end

section
/-! Nodes that move tokens (R302, R304, R318, R319, R322, R325-R328, R334, R337, R338, R349, R381): the clk in which a token
leaves its link, what each of these nodes sends, the entry of a timed token, and O36. -/

namespace Sys2Proof.Machine

/-! ## The clk in which a link is free (R304) -/

theorem le_freeClk (busy : List Nat) (k n : Nat) : n ≤ freeClk busy k n := by
  induction k generalizing n with
  | zero => exact Nat.le_refl n
  | succ k ih =>
    rw [freeClk]
    split
    · exact (Nat.le_succ n).trans (ih (n + 1))
    · exact Nat.le_refl n

/-- A search of `k` clk that ends at a busy one has seen busy ones only. -/
theorem mem_of_freeClk_mem {busy : List Nat} {k n m : Nat} (h : freeClk busy k n ∈ busy) (hn : n ≤ m) (hm : m ≤ n + k) :
    m ∈ busy := by
  induction k generalizing n with
  | zero =>
    obtain rfl : m = n := by omega
    exact h
  | succ k ih =>
    rw [freeClk] at h
    split at h
    · next hbusy =>
      rcases Nat.eq_or_lt_of_le hn with rfl | hlt
      · exact List.contains_iff_mem.1 hbusy
      · exact ih h hlt (by omega)
    · next hfree => exact absurd (List.contains_iff_mem.2 h) hfree

/-- Among as many clk as are busy and one more, one is free. -/
theorem freeClk_not_mem (busy : List Nat) (n : Nat) : freeClk busy busy.length n ∉ busy := by
  intro h
  have hsub : List.range' n (busy.length + 1) ⊆ busy := fun m hm => by
    obtain ⟨hn, hlt⟩ := List.mem_range'_1.1 hm
    exact mem_of_freeClk_mem h hn (by omega)
  have hlength := ((List.nodup_range' (s := n) (n := busy.length + 1)).subperm hsub).length_le
  rw [List.length_range'] at hlength
  omega

section Send

variable {s u : State} {f : Firing} {n : GNode}

/-- A token leaves in a clk of its link that takes no other, `lat` clk from now at the earliest, and arrives after its hops. -/
theorem sendTok_leaves (u : State) (rk : RKey) (xy : Nat × Nat) (lat : Nat) (t : Token) (src : Option IKey) :
    let to_ := (t.dx.toNat, t.dy.toNat)
    let key := u.cellOf rk xy.1 xy.2
    ∃ go sent, u.clk + lat ≤ go ∧ go ∉ AMap.getD (u.cell key).sent (linkOut xy to_) []
      ∧ go ∈ AMap.getD sent (linkOut xy to_) []
      ∧ u.sendTok rk xy lat t src = { u.modCell key (fun c => { c with sent := sent }) with duties := u.duties ++
        [{ due := go + hops xy to_, work := .ev (.tokenMatch rk t src), link := linkIn xy to_ }] } := by
  intro to_ key
  let busy := (AMap.getD (u.cell key).sent (linkOut xy to_) []).filter fun n => decide (u.clk ≤ n)
  let first := max (u.clk + lat) (u.clk + u.arcClk rk t src - hops xy to_)
  have hle : u.clk + lat ≤ freeClk busy busy.length first := (Nat.le_max_left ..).trans (le_freeClk ..)
  refine ⟨freeClk busy busy.length first, AMap.set (u.cell key).sent (linkOut xy to_) (freeClk busy busy.length first :: busy),
    hle, fun hmem => ?_, by rw [AMap.getD_set_self]; exact List.mem_cons_self, rfl⟩
  exact freeClk_not_mem busy first (List.mem_filter.2 ⟨hmem, decide_eq_true ((Nat.le_add_right ..).trans hle)⟩)

/-- An invalid target takes nothing. -/
theorem sendT_of_target_none {t : BitVec 10} (h : target t = none) (u : State) (f : Firing) (lat : Nat) (v : List Word) (ft : Fmt)
    (a : Act) (c : Ctx) (it : BitVec 16) : u.sendT f t lat v ft a c it = u := by
  rw [State.sendT, h]

/-- A valid one takes a token; a firing of no loop keeps none in its cell. -/
theorem sendT_of_target_some {t : BitVec 10} {i d : Nat} (h : target t = some (i, d)) (hbody : f.body = none) (u : State)
    (lat : Nat) (v : List Word) (ft : Fmt) (a : Act) (c : Ctx) (it : BitVec 16) : u.sendT f t lat v ft a c it =
      u.sendTok f.rk (f.x, f.y) lat (tokenFor ((u.region f.rk).block f.ik.blk) i d c it (v.headD 0#64) ft a) (some f.ik) := by
  rw [State.sendT, h]
  dsimp only
  rw [hbody]
  rfl

/-! ## Steering and starting (R325, R328, R381) -/

/-- What `steer` does: the value to the target that its predicate chooses and, with IMM[0], a null token to the other. -/
theorem exec_gSteer (h : s.fires (.gSteer n) f u) : exec (.gSteer n) s = firedTo (.gSteer n) f
    (let z := u.sendT f (if f.rpay != 0#64 then n.t0 else n.t1) 1 [f.lpay] f.ltag n.act f.ik.ctx f.ik.iter
    if n.immField 0 0 = 1 then
      z.sendT f (if f.rpay != 0#64 then n.t1 else n.t0) 1 [0#64] f.ltag .null f.ik.ctx f.ik.iter
    else z) := runNode_ok h rfl

/-- A start token goes to the successor's node where its block is held. -/
theorem sendStart_of_held (h : ((u.region f.rk).block (n.immField 17 10)).held = true) (pay : Word) (ft : Fmt) (a : Act) :
    sendStart u f n pay ft a = u.sendTok f.rk (f.x, f.y) 1
      (tokenFor ((u.region f.rk).block (n.immField 17 10)) (n.immField 6 0) 0 f.ik.ctx f.ik.iter pay ft a) (some f.ik) := by
  rw [sendStart, h]
  rfl

/-- The action with which a merge passes its token on. -/
theorem passOn_eq (u : State) (f : Firing) (n : GNode) :
    let a := if (f.l.map (·.tok.act)) = some .null then Act.null else n.act
    passOn u f n = (u.sendT f n.t0 0 [f.lpay] f.ltag a f.ik.ctx f.ik.iter).sendT f n.t1 0 [f.lpay] f.ltag a f.ik.ctx f.ik.iter := by
  unfold passOn
  cases f.l with
  | none => rfl
  | some m => simp only [Option.map_some, Option.some.injEq]

/-! ## Tags and times (R334, R338, R349) -/

/-- What `inx` does: its output waits while the throttle holds it. -/
theorem exec_gInx (h : s.fires (.gInx n) f u) : exec (.gInx n) s = firedTo (.gInx n) f
    (if throttled (u.region f.rk) f (inxIter n f.ik.iter) then
      u.modRegion f.rk fun r => { r with held := r.held ++ [.node (.gInx n) f] }
    else (u.sendT f n.t0 1 [f.lpay] f.ltag n.act f.ik.ctx (inxIter n f.ik.iter)).sendT f n.t1 1 [f.lpay] f.ltag n.act f.ik.ctx
      (inxIter n f.ik.iter)) := by
  refine runNode_ok h ?_
  dsimp only
  split <;> rfl

/-- `tset` into the context and ITER that it gives: another context takes its token at commit only (R308). -/
theorem exec_gTset {c : Ctx} {it : BitVec 16} (hto : tsetTo u n f = .ok (c, it)) (h : s.fires (.gTset n) f u) :
    exec (.gTset n) s = firedTo (.gTset n) f
      (if c = f.ik.ctx then (u.sendT f n.t0 1 [f.lpay] f.ltag n.act c it).sendT f n.t1 1 [f.lpay] f.ltag n.act c it
      else u.pendOn f (.gTset n) 0#64 [packCtx c it]) := by
  refine runNode_ok h ?_
  dsimp only
  rw [hto, liftT, ok_bind]
  dsimp only
  split <;> rfl

/-- `purge`: purge tokens at once, or to every cell at commit. -/
theorem exec_gPurge (h : s.fires (.gPurge n) f u) : exec (.gPurge n) s = firedTo (.gPurge n) f
    (if n.immField 0 0 = 1 then u.pendOn f (.gPurge n) 0#64 []
    else (u.sendT f n.t0 1 [0#64] n.fmt .purge f.ik.ctx f.ik.iter).sendT f n.t1 1 [0#64] n.fmt .purge f.ik.ctx f.ik.iter) := by
  refine runNode_ok h ?_
  dsimp only
  split <;> rfl

end Send

/-- An entry that holds anything stands in its cell once it is put there. -/
theorem mem_putEntry {e : MEntry} (he : e.empty = false) (c : Cell) : e ∈ (c.putEntry e).ms := by
  unfold Cell.putEntry
  dsimp only
  rw [he, if_neg Bool.false_ne_true]
  split
  · next hany =>
    obtain ⟨o, ho, hsame⟩ := List.any_eq_true.1 hany
    exact List.mem_map.2 ⟨o, ho, if_pos hsame⟩
  · exact List.mem_append_right _ List.mem_cons_self

/-- The entry found for a node is the node's. -/
theorem idx_of_entry? {c : Cell} {g : Gen} {slot idx : Nat} {cx : Ctx} {it : Option (BitVec 16)} {e : MEntry}
    (h : c.entry? g slot idx cx it = some e) : e.idx = idx := by
  have hkey := List.find?_some h
  simp only [MEntry.key, Bool.and_eq_true, beq_iff_eq] at hkey
  obtain ⟨-, ⟨⟨-, hidx⟩, -⟩, -⟩ := hkey
  exact hidx

/-- The entry that a `tgate` before its deadline leaves: its token, fired and timed. -/
def timedEntry (u : State) (f : Firing) : MEntry :=
  let old := ((u.cell (u.cellOf f.rk f.x f.y)).entry? (u.region f.rk).gen f.slot f.idx f.ik.ctx (some f.ik.iter)).getD
    { slot := f.slot, idx := f.idx, ctx := f.ik.ctx, iter := some f.ik.iter, gen := (u.region f.rk).gen, age := u.clk }
  { old with l := f.l, fired := true, timed := some f.rpay.toNat, used := u.clk }

theorem idx_timedEntry (u : State) (f : Firing) : (timedEntry u f).idx = f.idx := by
  change MEntry.idx (Option.getD _ _) = f.idx
  cases hold : (u.cell (u.cellOf f.rk f.x f.y)).entry? (u.region f.rk).gen f.slot f.idx f.ik.ctx (some f.ik.iter) with
  | none => rfl
  | some e => exact idx_of_entry? hold

theorem timedEntry_not_empty (u : State) (f : Firing) : (timedEntry u f).empty = false := by
  have htimed : (timedEntry u f).timed.isNone = false := rfl
  rw [MEntry.empty, htimed, Bool.and_false]
  simp only [Bool.false_and]

section Gate

variable {s u : State} {f : Firing} {n : GNode}

/-- `tgate` past its deadline sends its token. -/
theorem exec_gTgate_past (htime : f.rpay.toNat ≤ u.now) (h : s.fires (.gTgate n) f u) :
    exec (.gTgate n) s = firedTo (.gTgate n) f (u.sendOut f n 1 [f.lpay] f.ltag) :=
  runNode_ok h (if_pos htime)

/-- Before it, its cell keeps the token in a timed entry, and its deadline is in flight. -/
theorem exec_gTgate_early (htime : u.now < f.rpay.toNat) (h : s.fires (.gTgate n) f u) :
    exec (.gTgate n) s = firedTo (.gTgate n) f
      ((u.modCell (u.cellOf f.rk f.x f.y) fun c => c.putEntry (timedEntry u f)).after (u.clkUntil f.rpay.toNat)
        (.tgateDeadline f.rk f.ik f.idx)) :=
  runNode_ok h (if_neg (Nat.not_le.2 htime))

end Gate

end Sys2Proof.Machine

open Sys2Proof Sys2Proof.Machine

/-- Settles O36: a valid target takes a token in a clk of its link that takes no other (`sendTok_leaves`), and each node sends
as its equation says. That a cell's links are found from `sent` and a hop takes one clk are the model's choices (logs 81
and 61), as is a predicated-off node that sends nothing (log 32). -/
theorem tokenNodes : Obligations.TokenNodes := by
  intro s u n f c it k both gives passed on succ start
  refine ⟨fun t lat v ft a hnone => sendT_of_target_none hnone .., fun t lat v ft a i d hsome hbody => ?sent,
    fun h => runNode_ok h rfl, fun h => runNode_ok h rfl, fun h => runNode_ok h rfl, fun h => ?merge, fun h => ?omerge,
    fun hp hi h => ?taken, fun hp hi h => ?untaken, fun hp hi h => ?takenNull, fun hp hi h => ?untakenNull,
    fun hheld => ⟨fun h => ?bro, fun h => ?fin⟩, ⟨fun hopen h => ?inx, fun hthrottled h => ?inxHeld⟩, ?tget,
    fun hi h => ?tset, fun c' it' hto => ⟨fun hc h => ?tsetHere, fun hc h => ?tsetOther⟩, fun hi h => ?purge,
    fun hi h => ?purgeAll, fun h => runNode_ok h rfl, fun htime h => exec_gTgate_past htime h, fun htime h => ?gate⟩
  case sent =>
    intro tok to_ key
    rw [sendT_of_target_some hsome hbody]
    exact sendTok_leaves u f.rk (f.x, f.y) lat tok (some f.ik)
  case merge => exact (runNode_ok h rfl).trans (congrArg _ (passOn_eq u f n))
  case omerge => exact (runNode_ok h rfl).trans (congrArg _ (passOn_eq u f n))
  case taken => simp [exec_gSteer h, hp, hi, c, it]
  case untaken => simp [exec_gSteer h, hp, hi, c, it]
  case takenNull => simp [exec_gSteer h, hp, hi, c, it]
  case untakenNull => simp [exec_gSteer h, hp, hi, c, it]
  case bro => exact runNode_ok h (congrArg (fun z : State => Except.ok (z.sendCount f false)) (sendStart_of_held hheld ..))
  case fin => exact runNode_ok h (congrArg Except.ok (sendStart_of_held hheld ..))
  case inx => exact (exec_gInx h).trans (congrArg _ (if_neg (Bool.eq_false_iff.1 hopen)))
  case inxHeld => exact (exec_gInx h).trans (congrArg _ (if_pos hthrottled))
  case tget =>
    intro tget
    refine ⟨fun ho h => ?_, fun ho h => ?_, fun ho h => ?_, fun ho h => ?_⟩
    all_goals
      refine runNode_ok h ?_
      dsimp only
      rw [ho]
      rfl
  case tset =>
    have hto : tsetTo u n f = .ok (c, f.rpay.extractLsb' 0 16) := by
      unfold tsetTo
      dsimp only
      rw [hi]
      rfl
    exact (exec_gTset hto h).trans (congrArg _ (if_pos rfl))
  case tsetHere =>
    subst hc
    exact (exec_gTset hto h).trans (congrArg _ (if_pos rfl))
  case tsetOther => exact (exec_gTset hto h).trans (congrArg _ (if_neg hc))
  case purge => exact (exec_gPurge h).trans (congrArg _ (if_neg (by rw [hi]; decide)))
  case purgeAll => exact (exec_gPurge h).trans (congrArg _ (if_pos hi))
  case gate =>
    refine ⟨_, exec_gTgate_early htime h, ⟨_, List.mem_append_right _ List.mem_cons_self, rfl⟩, timedEntry u f, ?_,
      idx_timedEntry u f, rfl, rfl⟩
    have hcell : ((u.modCell (u.cellOf f.rk f.x f.y) fun c => c.putEntry (timedEntry u f)).cell (u.cellOf f.rk f.x f.y)) =
        (u.cell (u.cellOf f.rk f.x f.y)).putEntry (timedEntry u f) := cell_modCell ..
    exact hcell.symm ▸ mem_putEntry (timedEntry_not_empty u f) _
end

section
/-! Null, predicated-off and withdrawn firings (R297, R302, R306, R343): every node fires by `runNode`, what a firing that its cell
has begun comes to, and O37. -/

namespace Sys2Proof.Machine

variable {s u : State} {i : Instr} {n : GNode} {f : Firing} {act : Firing → State → NodeOut}

/-- Every node fires as `runNode` says, with an effect of its own. -/
theorem exec_eq_runNode (hn : nodeOf i = some n) (s : State) : ∃ act, exec i s = runNode i s act := by
  cases i <;> simp only [nodeOf, reduceCtorEq] at hn <;> exact ⟨_, rfl⟩

theorem fieldsOf_of_nodeOf (hn : nodeOf i = some n) : fieldsOf i = n := by rw [fieldsOf, hn, Option.getD_some]

/-! ## A firing taken up (R297, R304, R343) -/

/-- Without a record of the region's image nothing is kept for it. -/
theorem recordArc_of_no_image {rk : RKey} (himage : (s.region rk).image = none) (hwave : (s.region rk).wave = none)
    (x y blk : Nat) (w : Work) : recordArc s rk x y blk w = none := by
  simp [recordArc, himage, hwave]

/-- The machine that takes up a firing. -/
def State.taking (s : State) : State := { s with fire := none, stall := 0 }

section Taken
variable (hfire : s.fire = some f) (hwave : (s.region f.rk).wave = none)
include hfire hwave

/-- What becomes of a firing taken up in a region that records nothing. -/
theorem runNode_of_unrecorded (hrec : (s.region f.rk).st = 3 ∨ (s.region f.rk).image = none) (act : Firing → State → NodeOut) :
    runNode i s act = .next (
      if (s.region f.rk).st ≠ 3 ∨ ((s.region f.rk).inst? f.ik).isNone then s.taking
      else if (s.region f.rk).isParked f.ik.ctx && f.body.isNone then keepParked s.taking f (.node i f)
      else if loads i f && !f.began && channelFull s.taking f then
        { s.taking with duties := s.taking.duties ++ [{ due := s.taking.clk + 1, work := .node i f }] }
      else
        let v := s.taking.beginFire i f
        settle (fireNode i { f with began := true } (if loads i f then v.takePlace i f else v) act) f.rk) := by
  have hnone : recordArc s.taking f.rk f.x f.y f.ik.blk (.node i f) = none := hrec.elim
    (fun hst => recordArc_of_placed (s := s.taking) hst hwave ..) fun himage => recordArc_of_no_image (s := s.taking) himage hwave ..
  have htaking : ({ s with fire := none, stall := 0 } : State) = s.taking := rfl
  unfold runNode
  rw [hfire]
  dsimp only
  rw [htaking, hnone]
  rfl

theorem runNode_of_no_instance (hst : (s.region f.rk).st = 3) (hinst : ((s.region f.rk).inst? f.ik).isNone = true)
    (act : Firing → State → NodeOut) : runNode i s act = .next s.taking := by
  rw [runNode_of_unrecorded hfire hwave (.inl hst), if_pos (.inr hinst)]

theorem runNode_of_not_placed (hst : (s.region f.rk).st ≠ 3) (himage : (s.region f.rk).image = none)
    (act : Firing → State → NodeOut) : runNode i s act = .next s.taking := by
  rw [runNode_of_unrecorded hfire hwave (.inr himage), if_pos (.inl hst)]

section Runs
variable (hruns : (s.region f.rk).st = 3 ∧ ((s.region f.rk).inst? f.ik).isSome = true)
include hruns

theorem runNode_of_running (act : Firing → State → NodeOut) : runNode i s act = .next (
      if (s.region f.rk).isParked f.ik.ctx && f.body.isNone then keepParked s.taking f (.node i f)
      else if loads i f && !f.began && channelFull s.taking f then
        { s.taking with duties := s.taking.duties ++ [{ due := s.taking.clk + 1, work := .node i f }] }
      else
        let v := s.taking.beginFire i f
        settle (fireNode i { f with began := true } (if loads i f then v.takePlace i f else v) act) f.rk) := by
  obtain ⟨hst, hinst⟩ := hruns
  have hplaced : ¬ ((s.region f.rk).st ≠ 3 ∨ ((s.region f.rk).inst? f.ik).isNone = true) := by
    rw [not_or, not_not, Bool.not_eq_true, Option.isNone_eq_false_iff]
    exact ⟨hst, hinst⟩
  rw [runNode_of_unrecorded hfire hwave (.inl hst), if_neg hplaced]

/-- The firing of a parked context is kept for it. -/
theorem runNode_of_parked (hparked : (s.region f.rk).isParked f.ik.ctx = true) (hbody : f.body = none)
    (act : Firing → State → NodeOut) : runNode i s act = .next (keepParked s.taking f (.node i f)) := by
  rw [runNode_of_running hfire hwave hruns, hparked, hbody]
  rfl

/-- A load whose channel is full asks again in the next clk. -/
theorem runNode_of_channelFull (hparked : (s.region f.rk).isParked f.ik.ctx = false) (hloads : loads i f = true)
    (hbegan : f.began = false) (hfull : channelFull s.taking f = true) (act : Firing → State → NodeOut) : runNode i s act =
      .next { s.taking with duties := s.taking.duties ++ [{ due := s.taking.clk + 1, work := .node i f }] } := by
  rw [runNode_of_running hfire hwave hruns, hparked, hloads, hbegan, hfull]
  rfl

end Runs

end Taken

/-- A firing that its cell has begun, in a placed region with its instance there, does what `fireNode` says: nothing of
its operands or its predicate is asked before. -/
theorem runNode_of_begins (h : s.begins i f u) (hwave : (s.region f.rk).wave = none)
    (hruns : (s.region f.rk).st = 3 ∧ ((s.region f.rk).inst? f.ik).isSome = true)
    (hparked : (s.region f.rk).isParked f.ik.ctx = false ∨ f.body.isSome = true) (act : Firing → State → NodeOut) :
    runNode i s act = .next (settle (fireNode i f u act) f.rk) := by
  obtain ⟨g, hfire, rfl, rfl, hplace⟩ := h
  have hkept : ¬ ((s.region g.rk).isParked g.ik.ctx && g.body.isNone) = true := by
    rcases hparked with hp | hb
    · rw [hp, Bool.false_and]; decide
    · rw [Option.isNone_eq_false_iff.2 hb, Bool.and_false]; decide
  have hroom : ¬ (loads i g && !g.began && channelFull s.taking g) = true := by
    intro hfull
    simp only [Bool.and_eq_true, Bool.not_eq_true'] at hfull
    obtain ⟨⟨hloads, hnot⟩, hchannel⟩ := hfull
    rcases hplace hloads with hbegan | hfree
    · rw [hnot] at hbegan; cases hbegan
    · exact Bool.eq_false_iff.1 hfree hchannel
  rw [runNode_of_running hfire hwave hruns, if_neg hkept, if_neg hroom]
  rfl

/-! ## Null firings (R302, R306, R330) -/

theorem fireNode_of_nul (h : f.nul = true) (act : Firing → State → NodeOut) : fireNode i f u act = nullFire i f u := by
  rw [fireNode, if_pos h]

/-- The nodes whose firing the commit counts: the stores, `fwr` and `bro`. -/
theorem counted_iff (i : Instr) : counted i = true ↔ isStore i = true ∨ (∃ m, i = .gFwr m) ∨ ∃ m, i = .gBro m := by
  unfold counted
  split
  · exact iff_of_true rfl (.inr (.inl ⟨_, rfl⟩))
  · exact iff_of_true rfl (.inr (.inr ⟨_, rfl⟩))
  · next hfwr hbro =>
    refine ⟨.inl, fun h => h.resolve_right ?_⟩
    rintro (⟨m, rfl⟩ | ⟨m, rfl⟩)
    · exact hfwr m rfl
    · exact hbro m rfl

/-- A null firing sends null tokens, and a null count token where the commit counts the node; only `ret` does not. -/
theorem nullFire_of_not_ret (hn : nodeOf i = some n) (hret : ∀ m, i ≠ .gRet m) (f : Firing) (u : State) : nullFire i f u =
    if counted i then (u.sendNull f n (nodeClk i) (outTag i f.ltag)).sendCount f true
    else u.sendNull f n (nodeClk i) (outTag i f.ltag) := by
  rw [nullFire.eq_2 _ _ _ hret, fieldsOf_of_nodeOf hn]

/-! ## Predicated-off firings (R302) -/

theorem fireNode_of_offPred (hnul : f.nul = false) (h : offPred i f = true) (act : Firing → State → NodeOut) :
    fireNode i f u act = u := by
  rw [fireNode, if_neg (Bool.eq_false_iff.1 hnul), if_pos h]

section Predicate
variable (hn : nodeOf i = some n) (hbody : f.body = none)
include hn hbody

theorem offPred_onTrue (hpred : n.pred = .onTrue) (hp : ∀ m, f.p = some m → m.tok.payload = 0#64) : offPred i f = true := by
  rw [offPred, fieldsOf_of_nodeOf hn, hbody, hpred]
  cases hm : f.p with
  | none => rfl
  | some m => simp [hp m hm]

theorem offPred_onFalse (hpred : n.pred = .onFalse) (hp : ∃ m, f.p = some m ∧ m.tok.payload ≠ 0#64) : offPred i f = true := by
  obtain ⟨m, hm, hpay⟩ := hp
  rw [offPred, fieldsOf_of_nodeOf hn, hbody, hpred, hm]
  simp [hpay]

end Predicate

end Sys2Proof.Machine

open Sys2Proof Sys2Proof.Machine

/-- Settles O37: every node fires by `runNode` (`exec_eq_runNode`); one that begins does what `fireNode` says (`runNode_of_begins`),
which asks for a null operand first and for the predicate next, and one that does not is an equation of its own. That a
predicated-off store sends no count is the model's choice (log 32). -/
theorem nullFirings : Obligations.NullFirings := by
  intro s u i n f hn hwave rg z runs cond nulls counts
  obtain ⟨act, hexec⟩ := exec_eq_runNode hn s
  have hbegun (hcond : cond) : exec i s = .next (settle (fireNode i f u act) f.rk) := by
    obtain ⟨hbegins, hruns, hparked⟩ := hcond
    exact hexec.trans (runNode_of_begins hbegins hwave hruns hparked act)
  refine ⟨fun hcond hnul hcounts => ?counted, fun hcond hnul hcounts hret => ?uncounted, fun hcond hnul hret => ?ret,
    fun hcond hnul hbody hpred hp => ?onTrue, fun hcond hnul hbody hpred hp => ?onFalse, fun hfire =>
      ⟨fun hinst hst => ?gone, fun hst himage => ?unplaced, fun hruns hparked hbody => ?parked,
        fun hruns hparked hloads hbegan hfull => ?full⟩⟩
  case counted =>
    have hret (m : GNode) : i ≠ .gRet m := by
      rintro rfl
      simp [counts, isStore] at hcounts
    rw [hbegun hcond, fireNode_of_nul hnul, nullFire_of_not_ret hn hret, if_pos ((counted_iff i).2 hcounts)]
  case uncounted =>
    rw [hbegun hcond, fireNode_of_nul hnul, nullFire_of_not_ret hn hret, if_neg (mt (counted_iff i).1 hcounts)]
  case ret =>
    obtain ⟨m, rfl⟩ := hret
    rw [hbegun hcond, fireNode_of_nul hnul, nullFire]
  case onTrue => rw [hbegun hcond, fireNode_of_offPred hnul (offPred_onTrue hn hbody hpred hp)]
  case onFalse => rw [hbegun hcond, fireNode_of_offPred hnul (offPred_onFalse hn hbody hpred hp)]
  case gone => exact hexec.trans (runNode_of_no_instance hfire hwave hst hinst act)
  case unplaced => exact hexec.trans (runNode_of_not_placed hfire hwave hst himage act)
  case parked => exact hexec.trans (runNode_of_parked hfire hwave hruns hparked hbody act)
  case full => exact hexec.trans (runNode_of_channelFull hfire hwave hruns hparked hloads hbegan hfull act)
end

section
/-! Frame words, calls and the trap node as they fire (R307, R320, R321, R329-R332, R335, R336): the checks of each of these nodes
and what it leaves to the commit, and O38. -/

namespace Sys2Proof.Machine

variable {s t t1 t2 t3 t4 u v z : State} {n : GNode} {f : Firing} {va c : Word} {ws ws0 : List Word} {q p1 p2 : Phys}

@[simp] theorem liftT_ok {α : Type} (a : α) : liftT (.ok a : Except Trap α) = .ok a := rfl

theorem frameTier_of_hasFe {p : Phys} (h : t.hasFe p.pa = true) (va : Word) : frameTier t p va = .ok () := need_ok h _ _

/-! ## Frame words (R320, R321) -/

section Frd
variable (h : s.fires (.gFrd n) f u) {me : Inst} (hme : (u.region f.rk).inst? f.ik = some me)
include h hme

theorem exec_gFrd_waits
    (hwait : (((u.region f.rk).earlier me).all (fun j => nodesDone u f.rk j isFwr) && !leftBefore u f.rk me isAcquire) = false) :
    exec (.gFrd n) s = .next (settle (u.fireAfter 1 (.gFrd n) f) f.rk) := by
  refine (runNode_eq_nodeResult h _).trans (congrArg (nodeResult u (.gFrd n) f) (a₂ := .error none) ?_)
  dsimp only
  rw [hme]
  dsimp only
  rw [hwait]
  rfl

/-- A frame read that waits for nothing gives the youngest pending value of its word, else the word. -/
theorem exec_gFrd_reads {bs : List Byte}
    (hready : (((u.region f.rk).earlier me).all (fun j => nodesDone u f.rk j isFwr) && !leftBefore u f.rk me isAcquire) = true)
    (hword : frameWord u f.rk f.ik.ctx (n.immField 8 0) = .ok va) (hread : ownerRead u f.rk va 8 = .ok (bs, q, t))
    {last : Option Pend} (hlast : ((pendBefore (u.region f.rk) f.ik 0).filter fun p =>
      isFwr p.node && p.addr == va && p.f.ik != f.ik).getLast? = last) :
    exec (.gFrd n) s = firedTo (.gFrd n) f
      (t.sendOut f n (max 1 t.stall) [last.elim (bytesWord bs) (·.f.lpay)] n.fmt) := by
  subst hlast
  refine runNode_ok h ?_
  dsimp only
  rw [hme]
  dsimp only
  rw [hready, notYet, if_pos rfl, ok_bind, hword, liftT_ok, ok_bind, hread, liftT_ok, ok_bind]
  dsimp only
  generalize List.getLast? _ = last
  cases last <;> rfl

end Frd

section Fwr
variable (h : s.fires (.gFwr n) f u) (hword : frameWord u f.rk f.ik.ctx (n.immField 8 0) = .ok va)
include h hword

/-- The header of a frame is not a node's to write. -/
theorem exec_gFwr_header (hlow : n.immField 8 0 < 8) : exec (.gFwr n) s = u.firedBad (.gFwr n) f 0x07 va := by
  refine runNode_error h ?_
  dsimp only
  rw [hword, liftT_ok, ok_bind, nodeNeed_of_not (decide_eq_false (Nat.not_le.2 hlow))]
  rfl

theorem exec_gFwr_pends (hhigh : 8 ≤ n.immField 8 0) (hx : xlat u (u.fireAgent f) va .w = .ok (q, t)) :
    exec (.gFwr n) s = firedTo (.gFwr n) f ((t.pendOn f (.gFwr n) va []).sendCount f false) := by
  refine runNode_ok h ?_
  dsimp only
  rw [hword, liftT_ok, ok_bind, nodeNeed_of (decide_eq_true hhigh), ok_bind, hx]
  rfl

end Fwr

/-! ## Calls (R329) -/

section Call
variable (h : s.fires (.gCall n) f u)
include h

theorem exec_gCall_pointer (hdesc : descOk f.lpay = false) : exec (.gCall n) s = u.firedBad (.gCall n) f 0x0A f.lpay := by
  refine runNode_error h ?_
  dsimp only
  rw [nodeNeed_of_not hdesc]
  rfl

variable (hdesc : descOk f.lpay = true)
include hdesc

theorem exec_gCall_unaligned (hframe : fld f.rpay 5 0 ≠ 0) : exec (.gCall n) s = u.firedBad (.gCall n) f 0x0D f.rpay := by
  refine runNode_error h ?_
  dsimp only
  rw [nodeNeed_of hdesc, ok_bind, nodeNeed_of_not (beq_false_of_ne hframe)]
  rfl

variable (hframe : fld f.rpay 5 0 = 0) (hhead : homeWords u (u.fireAgent f) f.rpay 5 = .ok (ws0, z))
include hframe hhead

/-- A callee frame without a generation is none. -/
theorem exec_gCall_dead (hdead : fld (ws0.getD 4 0#64) 15 0 = 0) : exec (.gCall n) s = u.firedBad (.gCall n) f 0x0D f.rpay := by
  refine runNode_error h ?_
  dsimp only
  rw [nodeNeed_of hdesc, ok_bind, nodeNeed_of (beq_iff_eq.2 hframe), ok_bind, hhead]
  dsimp only
  rw [nodeNeed_of_not (bne_eq_false_iff_eq.2 hdead)]
  rfl

variable (hlive : fld (ws0.getD 4 0#64) 15 0 ≠ 0)
include hlive

/-- The return record lies in the caller's frame. -/
theorem exec_gCall_record
    (hout : let ten := u.tenant f.rk.vmid
      ten.frameBytes (ten.frameVa f.ik.ctx) < 8 * n.immField 8 0 + 24) :
    exec (.gCall n) s = u.firedBad (.gCall n) f 0x0D ((u.tenant f.rk.vmid).frameVa f.ik.ctx + w64 (8 * n.immField 8 0)) := by
  refine runNode_error h ?_
  dsimp only at hout ⊢
  rw [nodeNeed_of hdesc, ok_bind, nodeNeed_of (beq_iff_eq.2 hframe), ok_bind, hhead]
  dsimp only
  rw [nodeNeed_of (bne_iff_ne.2 hlive), ok_bind, nodeNeed_of_not (decide_eq_false (Nat.not_le.2 hout))]
  rfl

theorem exec_gCall_pends
    (hin : let ten := u.tenant f.rk.vmid
      8 * n.immField 8 0 + 24 ≤ ten.frameBytes (ten.frameVa f.ik.ctx))
    {d : Desc} (hread : readDesc u (u.fireAgent f) f.lpay = .ok (d, t1))
    (hagain : homeWords t1 (u.fireAgent f) f.rpay 5 = .ok (ws, t2))
    (hx1 : xlat t2 (u.fireAgent f) ((u.tenant f.rk.vmid).frameVa f.ik.ctx + w64 (8 * n.immField 8 0)) .w = .ok (p1, t3))
    (hx2 : xlat t3 (u.fireAgent f) ((u.tenant f.rk.vmid).frameVa f.ik.ctx + w64 (8 * n.immField 8 0) + 16#64) .w = .ok (p2, t4))
    (hx : xlat t4 (u.fireAgent f) (f.rpay + 40#64) .w = .ok (q, t)) (hfe : t.hasFe q.pa = true) :
    exec (.gCall n) s = firedTo (.gCall n) f (t.pendOn f (.gCall n) f.rpay []) := by
  refine runNode_ok h ?_
  dsimp only at hin ⊢
  rw [nodeNeed_of hdesc, ok_bind, nodeNeed_of (beq_iff_eq.2 hframe), ok_bind, hhead]
  dsimp only
  rw [nodeNeed_of (bne_iff_ne.2 hlive), ok_bind, nodeNeed_of (decide_eq_true hin), ok_bind, hread, liftT_ok, ok_bind]
  dsimp only
  rw [hagain, liftT_ok, ok_bind]
  dsimp only
  rw [hx1, liftT_ok, ok_bind]
  dsimp only
  rw [hx2, liftT_ok, ok_bind]
  dsimp only
  rw [hx, liftT_ok, ok_bind]
  dsimp only
  rw [frameTier_of_hasFe hfe]
  rfl

end Call

/-! ## The trap node and returns (R330, R332) -/

theorem exec_gTrap (h : s.fires (.gTrap n) f u) :
    exec (.gTrap n) s = u.firedBad (.gTrap n) f (if n.immField 0 0 = 1 then 0x17 else 0x16) f.lpay := by
  refine runNode_error h ?_
  rfl


section Ret
variable (h : s.fires (.gRet n) f u)
  (hhead : homeWords u (u.fireAgent f) ((u.tenant f.rk.vmid).frameVa f.ik.ctx) 2 = .ok (ws, t))
include h hhead

theorem exec_gRet_root (hcaller : ws.getD 1 0#64 = 0#64) : exec (.gRet n) s =
    firedTo (.gRet n) f (t.pendOn f (.gRet n) ((u.tenant f.rk.vmid).frameVa f.ik.ctx) []) := by
  refine runNode_ok h ?_
  dsimp only
  rw [hhead, liftT_ok, ok_bind]
  exact if_pos hcaller

theorem exec_gRet_called (hcaller : ws.getD 1 0#64 ≠ 0#64)
    (hx : xlat t (u.fireAgent f) (ws.getD 1 0#64 + 16#64) .w = .ok (q, v)) : exec (.gRet n) s =
    firedTo (.gRet n) f (v.pendOn f (.gRet n) ((u.tenant f.rk.vmid).frameVa f.ik.ctx) []) := by
  refine runNode_ok h ?_
  dsimp only
  rw [hhead, liftT_ok, ok_bind]
  refine (if_neg hcaller).trans ?_
  rw [hx]
  rfl

end Ret

/-! ## Calls of tasks and callbacks (R331) -/

section Ccall
variable (h : s.fires (.gCcall n) f u)
include h

theorem exec_gCcall_pointer (hcode : fld f.lpay 1 0 ≠ 0) (hcallback : fld f.lpay 1 0 ≠ 2) :
    exec (.gCcall n) s = u.firedBad (.gCcall n) f 0x0A f.lpay := by
  refine runNode_error h ?_
  dsimp only
  rw [beq_false_of_ne hcode, beq_false_of_ne hcallback, Bool.or_false, nodeNeed_of_not rfl]
  rfl

theorem exec_gCcall_noQueue (hcallback : fld f.lpay 1 0 = 2) (hnone : callbackQ u f.rk.vmid f.lpay = none) :
    exec (.gCcall n) s = u.firedBad (.gCcall n) f 0x13 (w64 (fld f.lpay 12 2)) := by
  refine runNode_error h ?_
  dsimp only
  rw [hcallback, hnone]
  rfl

/-- The pointer names a task or a list of callbacks. -/
def ccallTarget (u : State) (f : Firing) : Prop :=
  fld f.lpay 1 0 = 0 ∨ fld f.lpay 1 0 = 2 ∧ (callbackQ u f.rk.vmid f.lpay).isSome = true

variable (htarget : ccallTarget u f)
include htarget

omit h in
theorem nodeNeed_ccallTarget : nodeNeed (fld f.lpay 1 0 == 0 || fld f.lpay 1 0 == 2) cTAGPTR f.lpay = .ok ()
    ∧ nodeNeed (fld f.lpay 1 0 == 0 || (callbackQ u f.rk.vmid f.lpay).isSome) cQUEUE (w64 (fld f.lpay 12 2)) = .ok () := by
  rcases htarget with hcode | ⟨hcallback, hqueue⟩
  · rw [hcode]
    exact ⟨nodeNeed_of rfl _ _, nodeNeed_of rfl _ _⟩
  · rw [hcallback, hqueue]
    exact ⟨nodeNeed_of rfl _ _, nodeNeed_of rfl _ _⟩

theorem exec_gCcall_misaligned (halign : fld f.rpay 2 0 ≠ 0) (hargs : n.immField 5 0 ≠ 0) :
    exec (.gCcall n) s = u.firedBad (.gCcall n) f 0x03 f.rpay := by
  obtain ⟨htag, hqueue⟩ := nodeNeed_ccallTarget htarget
  refine runNode_error h ?_
  dsimp only
  rw [htag, ok_bind, hqueue, ok_bind, nodeNeed_of_not (by rw [beq_false_of_ne halign, beq_false_of_ne hargs]; rfl)]
  rfl

theorem exec_gCcall_pends (hargs : fld f.rpay 2 0 = 0 ∨ n.immField 5 0 = 0)
    (halloc : allocFrame u (u.fireAgent f) (64 + 8 * max (n.immField 5 0) 8) = .ok (c, t1))
    (hx : xlat t1 (t1.fireAgent f) (c + 40#64) .w = .ok (q, t2)) (hfe : t2.hasFe q.pa = true)
    (hwords : argWords t2 f f.rpay (n.immField 5 0) = .ok (ws, t)) :
    exec (.gCcall n) s = firedTo (.gCcall n) f
      ((t.modInst f.rk f.ik fun i => { i with frames := i.frames ++ [c] }).pendOn f (.gCcall n) c ws) := by
  obtain ⟨htag, hqueue⟩ := nodeNeed_ccallTarget htarget
  have haligned : (fld f.rpay 2 0 == 0 || n.immField 5 0 == 0) = true := by
    rw [Bool.or_eq_true, beq_iff_eq, beq_iff_eq]; exact hargs
  refine runNode_ok h ?_
  dsimp only
  rw [htag, ok_bind, hqueue, ok_bind, nodeNeed_of haligned, ok_bind, halloc, liftT_ok, ok_bind]
  dsimp only
  rw [hx, liftT_ok, ok_bind]
  dsimp only
  rw [frameTier_of_hasFe hfe, liftT_ok, ok_bind, hwords]
  rfl

end Ccall

/-! ## Frames allocated and freed (R335, R336) -/

theorem exec_gFnew_size (h : s.fires (.gFnew n) f u) (hsize : f.lpay = 0#64 ∨ 4096 < f.lpay.toNat) :
    exec (.gFnew n) s = u.firedBad (.gFnew n) f 0x0D f.lpay := by
  have hno : (f.lpay.toNat != 0 && decide (f.lpay.toNat ≤ 4096)) = false := by
    rcases hsize with hzero | hlarge
    · rw [hzero]; rfl
    · rw [decide_eq_false (Nat.not_le.2 hlarge), Bool.and_false]
  refine runNode_error h ?_
  dsimp only
  rw [nodeNeed_of_not hno]
  rfl

theorem exec_gFnew_gives (h : s.fires (.gFnew n) f u) (hzero : f.lpay ≠ 0#64) (hsize : f.lpay.toNat ≤ 4096)
    (hnew : newFrame u (u.fireAgent f) f.lpay.toNat 0#64 (u.region f.rk).gen = .ok (c, t)) : exec (.gFnew n) s =
    firedTo (.gFnew n) f ((t.modInst f.rk f.ik fun i => { i with frames := i.frames ++ [c] }).sendOut f n 2 [c] .int) := by
  have hnat : f.lpay.toNat ≠ 0 := fun h0 => hzero (BitVec.eq_of_toNat_eq h0)
  refine runNode_ok h ?_
  dsimp only
  rw [nodeNeed_of (by rw [bne_iff_ne.2 hnat, decide_eq_true hsize]; rfl), ok_bind, hnew]
  rfl

theorem exec_gFfree_unaligned (h : s.fires (.gFfree n) f u) (hframe : fld f.lpay 5 0 ≠ 0) :
    exec (.gFfree n) s = u.firedBad (.gFfree n) f 0x0D f.lpay := by
  refine runNode_error h ?_
  rw [nodeNeed_of_not (beq_false_of_ne hframe)]
  rfl

theorem exec_gFfree_pends (h : s.fires (.gFfree n) f u) (hframe : fld f.lpay 5 0 = 0)
    (hcheck : freeCheck u (u.fireAgent f) f.lpay = .ok t) :
    exec (.gFfree n) s = firedTo (.gFfree n) f (t.pendOn f (.gFfree n) f.lpay []) := by
  refine runNode_ok h ?_
  rw [nodeNeed_of (beq_iff_eq.2 hframe), ok_bind, hcheck]
  rfl

end Sys2Proof.Machine

open Sys2Proof Sys2Proof.Machine

/-- Settles O38: each node's checks, in their order, and what it leaves to the commit past them, by the equation of that
outcome. -/
theorem frameNodes : Obligations.FrameNodes := by
  intro s t u n f va rg ten fr ready gives bad
  refine ⟨fun h me hme => ⟨exec_gFrd_waits h hme, fun hready hword bs q hread => ?frd⟩,
    fun h hword => ⟨exec_gFwr_header h hword, fun q => exec_gFwr_pends h hword⟩, exec_gTrap, fun h => ?call,
    fun h ws hhead => ⟨exec_gRet_root h hhead, fun q v => exec_gRet_called h hhead⟩, fun h => ?ccall,
    fun h => ⟨exec_gFnew_size h, fun c => exec_gFnew_gives h⟩, fun h => ⟨exec_gFfree_unaligned h, exec_gFfree_pends h⟩⟩
  case frd =>
    intro ps
    exact ⟨fun hnone => exec_gFrd_reads (last := none) h hme hready hword hread (congrArg List.getLast? hnone),
      fun p hlast => exec_gFrd_reads (last := some p) h hme hready hword hread hlast⟩
  case call =>
    refine ⟨exec_gCall_pointer h, exec_gCall_unaligned h, fun ws z hdesc hframe hhead => exec_gCall_dead h hdesc hframe hhead,
      fun d ws0 ws z t1 t2 t3 t4 p1 p2 q hdesc hframe hhead hlive => ⟨exec_gCall_record h hdesc hframe hhead hlive, ?_⟩⟩
    exact fun hin hread hagain hx1 hx2 hx hfe => exec_gCall_pends h hdesc hframe hhead hlive hin hread hagain hx1 hx2 hx hfe
  case ccall =>
    exact ⟨exec_gCcall_pointer h, exec_gCcall_noQueue h, exec_gCcall_misaligned h,
      fun ws c q t1 t2 htarget hargs halloc hx hfe hwords => exec_gCcall_pends h htarget hargs halloc hx hfe hwords⟩
end

section
/-! Matching and counting (R296-R298, R301, R306, R358, R490): when a node is ready, what becomes of a token that reaches its cell or
a buoy, what a count token counts, and O45. -/

namespace Sys2Proof.Machine

variable {s : State} {rk : RKey} {ik : IKey} {t : Token} {src : Option IKey}

/-! ## Ready nodes (R296-R298) -/

section Ready
variable {rg : Region} {key : Nat} {c : Cell} {i : Instr} {e : MEntry} {a b : MTok}
  (hneeds : needs (cellKind (key % 128) (key / 128) == 2) i = [true, true, false])
include hneeds

/-- A node of two operands is ready by its own tokens and sticky ones, one at least its own. -/
theorem readyOps_of_two : readyOps rg key c i e =
    if e.l.isSome || e.r.isSome then
      match e.l.or (stickyTok rg key c e.slot e.idx e.ctx 0), e.r.or (stickyTok rg key c e.slot e.idx e.ctx 1) with
      | some l, some r => some (some l, some r, none)
      | _, _ => none
    else none := by
  unfold readyOps
  rw [hneeds]
  cases e.l <;> cases e.r <;> simp
  · cases stickyTok rg key c e.slot e.idx e.ctx 0 <;> rfl
  · cases stickyTok rg key c e.slot e.idx e.ctx 1 <;> rfl

theorem readyOps_empty (hl : e.l = none) (hr : e.r = none) : readyOps rg key c i e = none := by
  rw [readyOps_of_two hneeds, hl, hr]
  rfl

theorem readyOps_own (hl : e.l = some a) (hr : e.r = some b) : readyOps rg key c i e = some (some a, some b, none) := by
  rw [readyOps_of_two hneeds, hl, hr]
  rfl

theorem readyOps_sticky (hl : e.l = some a) (hr : e.r = none) (hst : stickyTok rg key c e.slot e.idx e.ctx 1 = some b) :
    readyOps rg key c i e = some (some a, some b, none) := by
  rw [readyOps_of_two hneeds, hl, hr, hst]
  rfl

theorem readyOps_missing_right (hl : e.l = some a) (hr : e.r = none) (hst : stickyTok rg key c e.slot e.idx e.ctx 1 = none) :
    readyOps rg key c i e = none := by
  rw [readyOps_of_two hneeds, hl, hr, hst]
  rfl

theorem readyOps_missing_left (hr : e.r = some b) (hl : e.l = none) (hst : stickyTok rg key c e.slot e.idx e.ctx 0 = none) :
    readyOps rg key c i e = none := by
  rw [readyOps_of_two hneeds, hl, hr, hst]
  rfl

end Ready

/-! ## Tokens at their cell (R296, R301) -/

/-- A region neither placed nor swapped out keeps nothing. -/
theorem recordArc_of_unplaced (hst : (s.region rk).st ≠ 4) (hwave : (s.region rk).wave = none) (x y blk : Nat) (w : Work) :
    recordArc s rk x y blk w = none := by
  simp [recordArc, hst, hwave]

/-- What comes for a cell that a slack wave has saved is recorded for it. -/
theorem recordArc_of_saved {w : Wave} {x y blk : Nat} (hwave : (s.region rk).wave = some w)
    (hsaved : w.saved.contains (s.cellOf rk x y) = true) (hurg : ((s.region rk).block blk).urg = false) (k : Work) :
    recordArc s rk x y blk k = some (s.modRegion rk fun r =>
      { r with wave := some { w with arcs := w.arcs ++ [{ x := x, y := y, work := k }] } }) := by
  unfold recordArc
  dsimp only
  rw [hurg, hwave]
  exact if_pos hsaved

theorem exec_tokenMatch_placed (hst : (s.region rk).st = 3) (hwave : (s.region rk).wave = none) :
    let z := if bodyArrival (s.region rk) t then s
      else s.modCell (s.cellOf rk t.dx.toNat t.dy.toNat) fun c => { c with matchAt := some s.clk }
    exec (.tokenMatch rk t src) s = .next (settle (arrive z rk { tok := t, src := src }) rk) := by
  change execTokenMatch rk t src s = _
  rw [execTokenMatch]
  dsimp only
  rw [recordArc_of_placed hst hwave]
  dsimp only
  rw [if_neg (not_not.2 hst)]

theorem exec_tokenMatch_unplaced (hplaced : (s.region rk).st ≠ 3) (hout : (s.region rk).st ≠ 4) (hwave : (s.region rk).wave = none) :
    exec (.tokenMatch rk t src) s = .next (s.count rk.vmid .staleTag) := by
  change execTokenMatch rk t src s = _
  rw [execTokenMatch]
  dsimp only
  rw [recordArc_of_unplaced hout hwave]
  dsimp only
  rw [if_pos hplaced]

/-- A token without an operand field is malformed. -/
theorem arrive_of_dop (h : t.dop = 3#2) :
    arrive s rk { tok := t, src := src } = badToken s rk (w64 (t.ctx.fgen.toNat * 2 ^ 24 + t.ctx.frame.toNat)) := by
  rw [arrive]
  exact if_pos h

/-- A token of an ended context, of no instance that could fault, is discarded and counted. -/
theorem arrive_of_stale (hdop : t.dop ≠ 3#2) (hstale : (s.tenant rk.vmid).fgen t.ctx.frame.toNat ≠ t.ctx.fgen) :
    arrive s rk { tok := t, src := none } = s.count rk.vmid .staleTag := by
  rw [arrive]
  exact (if_neg hdop).trans (if_pos hstale)

/-! ## Tokens at a buoy (R490) -/

section Buoy
variable {k : Nat} {b : Buoy}

theorem exec_buoyTokenArrival_none (h : AMap.get? (s.region rk).buoys k = none) :
    exec (.buoyTokenArrival rk k t) s = .next (s.count rk.vmid .staleTag) := by
  change buoyArrive rk k t none s = _
  rw [buoyArrive]
  dsimp only
  rw [h]

variable (h : AMap.get? (s.region rk).buoys k = some b)
include h

theorem exec_buoyTokenArrival_stale (hstale : (s.tenant rk.vmid).fgen t.ctx.frame.toNat ≠ t.ctx.fgen) :
    exec (.buoyTokenArrival rk k t) s = .next (s.count rk.vmid .staleTag) := by
  change buoyArrive rk k t none s = _
  rw [buoyArrive]
  dsimp only
  rw [h]
  exact if_pos hstale

theorem exec_buoyTokenArrival_forwards (hlive : (s.tenant rk.vmid).fgen t.ctx.frame.toNat = t.ctx.fgen)
    (hst : (s.region rk).st = 3) (hwave : (s.region rk).wave = none) : exec (.buoyTokenArrival rk k t) s =
    .next (s.sendTok rk (b.x, b.y) 0 (tokenFor ((s.region rk).block b.blk) b.idx 0 t.ctx t.iter t.payload t.ftag t.act) none) := by
  change buoyArrive rk k t none s = _
  rw [buoyArrive]
  dsimp only
  rw [h]
  exact (if_neg (not_not.2 hlive)).trans (if_pos ⟨hst, by rw [hwave]; rfl⟩)

end Buoy

/-! ## Count tokens (R306) -/

/-- The fault of an instance whose node is counted twice. -/
def countFault (s : State) (rk : RKey) (ik : IKey) (idx : Nat) : State :=
  let at_ := ((s.region rk).block ik.blk).at idx
  s.gFault rk { ik := ik, cause := 0x01, addr := w64 idx, idx := idx, x := at_.1, y := at_.2 }

/-- What a count token of node `nd` does to an instance that has not committed. -/
def counts (s : State) (rk : RKey) (ik : IKey) (idx : Nat) (nul : Bool) (i : Inst) (nd : Instr) : State :=
  match nd with
  | .gBro _ =>
    if nul then s
    else if 0 < i.bros then countFault s rk ik idx
    else s.modInst rk ik fun i => { i with bros := i.bros + 1 }
  | .gFwr _ => s.modInst rk ik fun i => { i with fws := i.fws + 1 }
  | nd =>
    if i.lsids.contains (lsidOf nd) then countFault s rk ik idx
    else s.modInst rk ik fun i => { i with lsids := i.lsids ++ [lsidOf nd] }

section Count
variable {i : Inst} {idx : Nat} {nul : Bool} {nd : Instr} (hinst : (s.region rk).inst? ik = some i)
  (hnode : ((s.region rk).block ik.blk).node idx = some nd)
include hinst hnode

theorem exec_countToken : exec (.countToken rk ik idx nul) s =
    .next (if i.committed then s else settle (counts s rk ik idx nul i nd) rk) := by
  change execCountToken rk ik idx nul s = _
  rw [execCountToken]
  dsimp only
  rw [hinst, hnode]
  rfl

theorem exec_countToken_committed (h : i.committed = true) : exec (.countToken rk ik idx nul) s = .next s := by
  rw [exec_countToken hinst hnode, if_pos h]

theorem exec_countToken_open (h : i.committed = false) :
    exec (.countToken rk ik idx nul) s = .next (settle (counts s rk ik idx nul i nd) rk) := by
  rw [exec_countToken hinst hnode, if_neg (Bool.eq_false_iff.1 h)]

end Count

/-- A store is counted by its LSID. -/
theorem counts_store {nd : Instr} (h : isStore nd = true) (idx : Nat) (nul : Bool) (i : Inst) : counts s rk ik idx nul i nd =
    if i.lsids.contains (lsidOf nd) then countFault s rk ik idx
    else s.modInst rk ik fun i => { i with lsids := i.lsids ++ [lsidOf nd] } := by
  unfold counts
  split
  · cases h
  · cases h
  · rfl

end Sys2Proof.Machine

open Sys2Proof Sys2Proof.Machine

/-- Settles O45: a node of two operands is ready by `readyOps_of_two`, a token takes the way of its region's state, and a count
is `counts` while its instance has not committed. That a later one completes nothing is the model's choice (log 43). -/
theorem matching : Obligations.Matching := by
  intro s rk ik t src rg
  refine ⟨fun key c i e a b hneeds => ⟨fun hl hr _ => readyOps_empty hneeds hl hr, readyOps_own hneeds, readyOps_sticky hneeds,
      readyOps_missing_right hneeds, readyOps_missing_left hneeds⟩,
    exec_tokenMatch_placed, arrive_of_dop, arrive_of_stale, fun w hwave hsaved hurg => ?recorded, exec_tokenMatch_unplaced,
    fun k b => exec_buoyTokenArrival_stale, fun k b => exec_buoyTokenArrival_forwards, fun k => exec_buoyTokenArrival_none,
    fun i idx nul nd hinst hnode => ?count⟩
  case recorded =>
    refine ⟨_, ?_, rfl⟩
    change execTokenMatch rk t src s = _
    rw [execTokenMatch]
    dsimp only
    rw [recordArc_of_saved hwave hsaved hurg]
  case count =>
    intro at_ bad is
    have hopen {u : State} (h : i.committed = false) (hu : counts s rk ik idx nul i nd = u) : is u :=
      hu ▸ exec_countToken_open hinst hnode h
    refine ⟨exec_countToken_committed hinst hnode, fun h hstore => ?store, fun h hfwr => ?fwr, fun h hbro => ?bro⟩
    case store =>
      have hcounts := counts_store (s := s) (rk := rk) (ik := ik) hstore idx nul i
      exact ⟨fun htwice => hopen h (hcounts.trans (if_pos htwice)),
        fun honce => hopen h (hcounts.trans (if_neg (Bool.eq_false_iff.1 honce)))⟩
    case fwr =>
      obtain ⟨n, rfl⟩ := hfwr
      exact hopen h rfl
    case bro =>
      obtain ⟨n, rfl⟩ := hbro
      refine ⟨fun hnul => hopen h (if_pos hnul), fun hnul htwice => hopen h ?_, fun hnul honce => hopen h ?_⟩
      · exact (if_neg (Bool.eq_false_iff.1 hnul)).trans (if_pos htwice)
      · exact (if_neg (Bool.eq_false_iff.1 hnul)).trans (if_neg (honce ▸ Nat.lt_irrefl 0))
end

section
/-! Replies, deadlines, loops, refills and reports (R299, R343, R349, R360, R362, R380, R418-R421): the equation of each of these
events, an entry that comes back from its records, and O46. -/

namespace Sys2Proof.Machine

variable {s u : State} {rk : RKey} {ik : IKey} {idx x y k : Nat}

/-! ## A cell changed twice, an event asked for -/

theorem modCell_modCell (s : State) (k : Nat) (f g : Cell → Cell) : (s.modCell k f).modCell k g = s.modCell k fun c => g (f c) := by
  rw [State.modCell, cell_modCell, State.modCell, State.setCell, State.modCell, State.setCell, State.setCell, AMap.set_set]

/-- An event asked for once is in flight, and nothing else has changed. -/
theorem onceAfter_in_flight (s : State) (n : Nat) (e : Ev) :
    ∃ ds, s.onceAfter n e = { s with duties := ds } ∧ ∃ d ∈ ds, d.work = .ev e := by
  unfold State.onceAfter
  split
  · next hany =>
    obtain ⟨d, hd, hwork⟩ := List.any_eq_true.1 hany
    exact ⟨s.duties, rfl, d, hd, beq_iff_eq.1 hwork⟩
  · exact ⟨_, rfl, _, List.mem_append_right _ List.mem_cons_self, rfl⟩

/-! ## Replies (R343) -/

theorem filter_map_back (l : List Reply) (p : Firing → Bool) (v : Word) :
    (l.map fun q => if p q.f then { q with val := some v, back := true } else q).filter (fun q => !p q.f) =
      l.filter fun q => !p q.f := by
  induction l with
  | nil => rfl
  | cons q l ih =>
    rw [List.map_cons]
    by_cases hq : p q.f
    · rw [if_pos hq, List.filter_cons_of_neg (by simp [hq]), List.filter_cons_of_neg (by simp [hq]), ih]
    · rw [if_neg hq, List.filter_cons_of_pos (by simp [hq]), List.filter_cons_of_pos (by simp [hq]), ih]

section Placed
variable (hwave : (s.region rk).wave = none) (hst : (s.region rk).st = 3)
include hwave hst

/-- In an unordered cell a reply leaves as soon as its value is there. -/
theorem exec_memoryReply_leaves {r : Reply} {v : Word}
    (hord : let at_ := ((s.region rk).block ik.blk).at idx
      ordered (s.region rk) at_.1 at_.2 = false)
    (hfind : let at_ := ((s.region rk).block ik.blk).at idx
      (s.cell (s.cellOf rk at_.1 at_.2)).replies.find? (fun r => r.f.ik == ik && r.f.idx == idx && !r.back) = some r)
    (hval : r.val = some v) :
    let at_ := ((s.region rk).block ik.blk).at idx
    exec (.memoryReply rk ik idx) s = .next (settle (leaveReply
      (s.modCell (s.cellOf rk at_.1 at_.2) fun c => { c with replies := c.replies.filter fun q => !(q.f.ik == ik && q.f.idx == idx) })
        { r with val := some v }) rk) := by
  intro at_
  dsimp only at hord hfind
  change execMemoryReply rk ik idx s = _
  rw [execMemoryReply]
  dsimp only
  rw [recordArc_of_placed hst hwave]
  dsimp only
  rw [hfind]
  dsimp only
  rw [hval, hord]
  dsimp only
  rw [if_neg Bool.false_ne_true, modCell_modCell]
  simp only [filter_map_back _ fun f => f.ik == ik && f.idx == idx]
  rfl

end Placed

/-- In an ordered channel nothing leaves before its head is back. -/
theorem drainReplies_of_waiting_head {r : Reply} {rest : List Reply} (h : (s.cell k).replies = r :: rest) (hback : r.back = false)
    (fuel : Nat) : drainReplies fuel s k = s := by
  cases fuel with
  | zero => rfl
  | succ fuel =>
    rw [drainReplies, h]
    exact if_neg (Bool.eq_false_iff.1 hback)

/-! ## Deadlines (R349) -/

section Placed
variable (hwave : (s.region rk).wave = none) (hst : (s.region rk).st = 3)
include hwave hst

section Timed
variable {e : MEntry} {nd : Instr} {d : Nat}
  (hfind : let at_ := ((s.region rk).block ik.blk).at idx
    (s.cell (s.cellOf rk at_.1 at_.2)).ms.find?
      (fun e => e.idx == idx && e.ctx == ik.ctx && e.iter == some ik.iter && e.timed.isSome) = some e)
  (htimed : e.timed = some d) (hnode : ((s.region rk).block ik.blk).node idx = some nd) (hovf : (s.region rk).ovf = [])
  (hparked : (s.region rk).isParked ik.ctx = false)
include hfind htimed hnode hovf hparked

/-- A timed token of a running context leaves once its time has come. -/
theorem exec_tgateDeadline :
    let at_ := ((s.region rk).block ik.blk).at idx
    let f : Firing := { rk := rk, ik := ik, x := at_.1, y := at_.2, slot := e.slot, idx := idx, l := e.l }
    exec (.tgateDeadline rk ik idx) s = .next (
      if s.now < d then s.after (s.clkUntil d) (.tgateDeadline rk ik idx)
      else settle ((s.modCell (s.cellOf rk at_.1 at_.2) fun c => c.putEntry { e with l := none, timed := none }).sendOut f
        (fieldsOf nd) 0 [f.lpay] f.ltag) rk) := by
  intro at_ f
  dsimp only at hfind
  change execTgateDeadline rk ik idx s = _
  rw [execTgateDeadline]
  dsimp only
  rw [recordArc_of_placed hst hwave, hovf]
  dsimp only [List.find?_nil]
  rw [hfind, hnode]
  dsimp only
  rw [hparked, htimed]
  rfl

end Timed

/-! ## Control tokens (R380) -/

/-- A control token sets its latch where `cnt` takes it. -/
theorem exec_controlTokenArrival {n : GNode} (hnode : ((s.region rk).block ik.blk).node idx = some (.gCnt n)) (fin : Bool) :
    let b := (s.region rk).block ik.blk
    exec (.controlTokenArrival rk ik idx fin) s =
      .next (settle (s.modCell (s.cellOf rk (b.at idx).1 (b.at idx).2) fun c => c.modLoop ik b.slot fun l =>
        if !(n.immField (if fin then 16 else 17) (if fin then 16 else 17) == 1) then l
        else if fin then { l with finL := true } else { l with startL := true }) rk) := by
  intro b
  change execControlTokenArrival rk ik idx fin s = _
  rw [execControlTokenArrival]
  dsimp only
  rw [recordArc_of_placed hst hwave, hnode]

/-! ## Loops (R360, R362) -/

section Loops
variable {cell : Nat} {l : Loop}
  (hloop : let b := (s.region rk).block ik.blk
    (s.cell (s.cellOf rk (b.cellXY cell).1 (b.cellXY cell).2)).loop? ik b.slot = some l)
include hloop

/-- The delay lines of a cell, with their node indices. -/
def delayLines (b : Block) (x y : Nat) : List (Nat × GNode) :=
  (b.inCell x y).filterMap fun p => match p.2 with | .gDly n => some (p.1, n) | _ => none

theorem exec_streamLoopStart :
    let b := (s.region rk).block ik.blk
    let q := b.cellXY cell
    exec (.streamLoopStart rk ik cell) s = .next (
      if !mayStart s rk q.1 q.2 l then s
      else
        match badChunk b q.1 q.2 l with
        | some idx => settle (s.gFault rk { ik := ik, cause := 0x01, addr := w64 idx, idx := idx, x := q.1, y := q.2 }) rk
        | none =>
          match dlyInits (dropKeeps s rk q.1 q.2 ik.blk) rk l q.1 q.2 b (delayLines b q.1 q.2) with
          | .error (idx, t) => settle (s.gFault rk { ik := ik, cause := t.cause, addr := t.tval, idx := idx, x := q.1, y := q.2 }) rk
          | .ok u =>
            settle (fireCtoks ((delayLines b q.1 q.2).foldl (fun s p =>
              dlyStart s { rk := rk, ik := ik, x := q.1, y := q.2, slot := b.slot, idx := p.1, body := some 0 } p.2)
                (u.modCell (s.cellOf rk q.1 q.2) fun c => c.modLoop ik b.slot fun x => { x with started := true }))
                  rk q.1 q.2 l false) rk) := by
  intro b q
  dsimp only at hloop
  change execStreamLoopStart rk ik cell s = _
  rw [execStreamLoopStart]
  dsimp only
  rw [recordArc_of_placed hst hwave, hloop]
  rfl

theorem exec_streamLoopFinish :
    let b := (s.region rk).block ik.blk
    let q := b.cellXY cell
    exec (.streamLoopFinish rk ik cell) s = .next (
      if !l.started || l.finished || (s.region rk).isParked ik.ctx || (s.region rk).faults.any (fun h => h.ik == ik) then s
      else settle (fireCtoks (s.modCell (s.cellOf rk q.1 q.2) fun c => c.modLoop ik b.slot fun l => { l with finished := true })
        rk q.1 q.2 l true) rk) := by
  intro b q
  dsimp only at hloop
  change execStreamLoopFinish rk ik cell s = _
  rw [execStreamLoopFinish]
  dsimp only
  rw [recordArc_of_placed hst hwave, hloop]

end Loops

end Placed

/-! ## Entries written back and read again (R299) -/

/-- Tokens read back from their own records. -/
theorem takeToks_own (l : List MTok) (r : List (Option Token)) :
    takeToks l ((l.map fun t => some t.tok) ++ r) = (l, r) := by
  induction l with
  | nil => rfl
  | cons t l ih =>
    obtain ⟨htoks, hrest⟩ := Prod.mk.inj ih
    simp only [takeToks, List.map_cons, List.cons_append, List.zip_cons_cons, List.filterMap_cons, Option.map_some,
      List.length_cons, List.drop_succ_cons, htoks, hrest]

/-- An entry read back from the records of its own tokens is the entry. -/
theorem reread_own (e : MEntry) : e.reread (e.tokens.map fun t => some t.tok) = e := by
  have hwin := takeToks_own e.win []
  rw [List.append_nil] at hwin
  simp only [MEntry.reread, MEntry.tokens, List.map_append, List.append_assoc, takeToks_own, hwin, Option.head?_toList]

/-- An entry that holds a token is not empty. -/
theorem empty_eq_false_of_tokens {e : MEntry} (h : e.tokens ≠ []) : e.empty = false := by
  rw [Bool.eq_false_iff]
  intro hempty
  simp only [MEntry.empty, Bool.and_eq_true, Option.isNone_iff_eq_none, List.isEmpty_iff] at hempty
  obtain ⟨⟨⟨⟨⟨⟨⟨hl, hr⟩, hp⟩, hkept⟩, -⟩, -⟩, hwin⟩, -⟩ := hempty
  exact h (by rw [MEntry.tokens, hl, hr, hp, hkept, hwin]; rfl)

/-- Frames returned change their tenant's lists only. -/
theorem foldl_returnFrame (fs : List Word) (s : State) (vmid cove : Nat) :
    ∃ ts, fs.foldl (fun s f => returnFrame s vmid cove f) s = { s with tenants := ts } := by
  induction fs generalizing s with
  | nil => exact ⟨s.tenants, rfl⟩
  | cons f fs ih =>
    obtain ⟨ts, hts⟩ := ih (returnFrame s vmid cove f)
    exact ⟨ts, hts⟩

theorem zip_map_some_filter_none (l : List MTok) :
    ((l.zip (l.map fun t => some t.tok)).filter fun p => p.2.isNone) = [] := by
  rw [List.filter_eq_nil_iff]
  rintro ⟨t, o⟩ hmem
  obtain ⟨t', -, rfl⟩ := List.mem_map.1 (List.of_mem_zip hmem).2
  exact Bool.false_ne_true

/-- The machine with a written-back entry again in its cell. -/
def reinstalled (s : State) (rk : RKey) (o : OvEntry) : State :=
  (s.modRegion rk fun r => { r with ovf := r.ovf.erase o }).modCell o.cell fun c =>
    { c with ms := c.ms ++ [{ o.ent with used := s.clk, gen := (s.region rk).gen }] }

theorem region_reinstalled (s : State) (rk : RKey) (o : OvEntry) :
    (reinstalled s rk o).region rk = { s.region rk with ovf := (s.region rk).ovf.erase o } := by
  rw [reinstalled, region_modCell, region_modRegion]

theorem cell_reinstalled (s : State) (rk : RKey) (o : OvEntry) : (reinstalled s rk o).cell o.cell =
    { s.cell o.cell with ms := (s.cell o.cell).ms ++ [{ o.ent with used := s.clk, gen := (s.region rk).gen }] } := by
  rw [reinstalled, cell_modCell, cell_modRegion]

/-- An entry whose records read back comes into a cell that has a place; the tenant's frame lists and counters change. -/
theorem reinstall_of_room {o : OvEntry} (hroom : s.msCount rk x y false < msCap x y false) (htoks : o.ent.tokens ≠ [])
    (hrecs : blocksIn s (s.devAgent rk.vmid (coveOfXY (o.cell % 128) (o.cell / 128))) o.frames o.ent.tokens.length =
      o.ent.tokens.map fun t => some t.tok) :
    ∃ ts, reinstall s rk x y o = .ok { reinstalled s rk o with tenants := ts } := by
  have hmake : makeRoom s rk x y false = .ok s := if_pos hroom
  obtain ⟨ts, hframes⟩ := foldl_returnFrame o.frames (s.modRegion rk fun r => { r with ovf := r.ovf.erase o }) rk.vmid
    (coveOfXY (o.cell % 128) (o.cell / 128))
  have hholds : MEntry.empty { o.ent with used := s.clk, gen := (s.region rk).gen } = false :=
    empty_eq_false_of_tokens (e := { o.ent with used := s.clk, gen := (s.region rk).gen }) htoks
  refine ⟨(State.count { reinstalled s rk o with tenants := ts } rk.vmid .matchRefill).tenants, ?_⟩
  rw [reinstall, hmake]
  dsimp only
  rw [hrecs, zip_map_some_filter_none, List.foldl_nil, hframes, reread_own]
  exact congrArg (fun z : State => Except.ok (z.count rk.vmid .matchRefill)) (if_neg (Bool.eq_false_iff.1 hholds))

/-- A new entry that is no `omerge`'s order holds no token back. -/
theorem heldForMerge_append {rg rg' : Region} (hgen : rg'.gen = rg.gen) {c c' : Cell} {e : MEntry} (hms : c'.ms = c.ms ++ [e])
    (hnext : e.next = none) (m : MTok) : heldForMerge rg' c' m = heldForMerge rg c m := by
  have hentry (slot idx : Nat) (cx : Ctx) : omergeEntry rg' c' slot idx cx = omergeEntry rg c slot idx cx := by
    rw [omergeEntry, omergeEntry, hms, hgen, List.find?_append,
      List.find?_cons_of_neg (by rw [hnext]; simp), List.find?_nil, Option.or_none]
  rw [heldForMerge, hentry, heldForMerge]

section Refill
variable {m : MTok}
  (hlookup : (s.cell (s.cellOf rk x y)).lookup = [m]) (hheld : heldForMerge (s.region rk) (s.cell (s.cellOf rk x y)) m = false)
include hlookup hheld

/-- The one token that waits for the table is the next to be served. -/
theorem lookup_find_waiting : (s.cell (s.cellOf rk x y)).lookup.find?
    (fun m => !heldForMerge (s.region rk) (s.cell (s.cellOf rk x y)) m) = some m := by
  rw [hlookup, List.find?_cons_of_pos (by rw [hheld]; rfl)]

theorem exec_matchRefill_reinstalls {o : OvEntry} (hovf : (s.region rk).ovf = [o])
    (hholds : o.holds (s.cellOf rk x y) m.tok = true) (hnext : o.ent.next = none)
    (hroom : s.msCount rk x y false < msCap x y false) (htoks : o.ent.tokens ≠ [])
    (hrecs : let k := s.cellOf rk x y
      blocksIn s (s.devAgent rk.vmid (coveOfXY (k % 128) (k / 128))) o.frames o.ent.tokens.length =
        o.ent.tokens.map fun t => some t.tok)
    (hnoInst : (o.ent.iter.bind fun it => (s.region rk).byKey (((s.region rk).blockAt x y o.ent.slot).getD 0) o.ent.ctx it) = none) :
    ∃ v, exec (.matchRefill rk x y) s = .next (settle v rk) ∧ (v.region rk).ovf = [] ∧ (v.cell (s.cellOf rk x y)).lookup = [m]
      ∧ { o.ent with used := s.clk, gen := (s.region rk).gen } ∈ (v.cell (s.cellOf rk x y)).ms
      ∧ ∃ d ∈ v.duties, d.work = .ev (.matchRefill rk x y) := by
  have hcell : o.cell = s.cellOf rk x y := by
    rw [OvEntry.holds, Bool.and_eq_true, beq_iff_eq] at hholds
    exact hholds.1
  dsimp only at hrecs
  rw [← hcell] at hrecs
  obtain ⟨ts, hre⟩ := reinstall_of_room hroom htoks hrecs
  let w : State := { reinstalled s rk o with tenants := ts }
  have hregion : w.region rk = { s.region rk with ovf := (s.region rk).ovf.erase o } := region_reinstalled s rk o
  have hkey : w.cellOf rk x y = s.cellOf rk x y := by rw [State.cellOf, hregion]; rfl
  have hwcell : w.cell (s.cellOf rk x y) = { s.cell (s.cellOf rk x y) with
      ms := (s.cell (s.cellOf rk x y)).ms ++ [{ o.ent with used := s.clk, gen := (s.region rk).gen }] } := by
    rw [← hcell]
    exact cell_reinstalled s rk o
  have hmore : refillMore w rk x y = true := by
    have hstill := heldForMerge_append (rg := s.region rk) (rg' := w.region rk) (by rw [hregion]; rfl)
      (c := s.cell (s.cellOf rk x y)) (c' := w.cell (s.cellOf rk x y)) (by rw [hwcell])
      (e := { o.ent with used := s.clk, gen := (s.region rk).gen }) hnext m
    rw [refillMore, hkey, Bool.or_eq_true, List.any_eq_true]
    exact .inl ⟨m, by rw [hwcell, hlookup]; exact List.mem_cons_self, by rw [hstill, hheld]; rfl⟩
  have hfirst : (s.region rk).ovf.find? (fun o => o.holds (s.cellOf rk x y) m.tok) = some o := by
    rw [hovf]
    exact List.find?_cons_of_pos hholds
  obtain ⟨ds, hask, hflight⟩ := onceAfter_in_flight w
    (heapClk w rk.vmid (coveOfXY (w.cellOf rk x y % 128) (w.cellOf rk x y / 128))) (.matchRefill rk x y)
  refine ⟨{ w with duties := ds }, ?_, ?_, ?_, ?_, hflight⟩
  · change execMatchRefill rk x y s = _
    rw [execMatchRefill]
    dsimp only
    rw [lookup_find_waiting hlookup hheld]
    dsimp only
    rw [hfirst]
    dsimp only
    rw [hre]
    dsimp only
    rw [hnoInst]
    dsimp only
    rw [if_pos hmore, askRefill, hask]
  · change (w.region rk).ovf = []
    rw [hregion, hovf]
    exact List.erase_cons_head ..
  · change (w.cell _).lookup = [m]
    rw [hwcell, hlookup]
  · change _ ∈ (w.cell _).ms
    rw [hwcell]
    exact List.mem_append_right _ List.mem_cons_self

/-- A token for which the table holds nothing is matched. -/
theorem exec_matchRefill_matches (hovf : (s.region rk).ovf = []) :
    let v := arrive (s.modCell (s.cellOf rk x y) fun c => { c with lookup := [] }) rk m false
    exec (.matchRefill rk x y) s = .next (settle (if refillMore v rk x y then askRefill v rk x y else v) rk) := by
  intro v
  have herase : (s.modCell (s.cellOf rk x y) fun c => { c with lookup := c.lookup.erase m }) =
      s.modCell (s.cellOf rk x y) fun c => { c with lookup := [] } := by
    rw [State.modCell, hlookup, List.erase_cons_head]
    rfl
  change execMatchRefill rk x y s = _
  rw [execMatchRefill]
  dsimp only
  rw [lookup_find_waiting hlookup hheld]
  dsimp only
  rw [hovf, herase]
  rfl

end Refill

/-! ## Reports (R418-R421) -/

theorem exec_gFaultReport_none (h : (s.region rk).faults = []) : exec (.gFaultReport rk ik) s = .next s := by
  change execGFaultReport rk ik s = _
  rw [execGFaultReport]
  dsimp only
  rw [h]
  rfl

/-- A report parks the context of its fault; an instance whose loops do not run rolls back. -/
theorem exec_gFaultReport_parks {h : HeldFault} (hfaults : (s.region rk).faults = [h]) (hik : h.ik = ik)
    (hmay : mayReport (s.region rk) h = true) :
    let u := s.modRegion rk fun r => { r with
      faults := [], parked := r.parked ++ [{ ctx := ik.ctx, ik := ik, committed := h.committed, cause := h.cause, work := h.work }] }
    exec (.gFaultReport rk ik) s =
      .next (settle (report (if h.committed || (u.looping rk).contains ik then u else rollback u rk [ik] false) rk h) rk) := by
  intro u
  have hfound : (s.region rk).faults.find? (fun h => h.ik == ik && mayReport (s.region rk) h) = some h := by
    rw [hfaults, List.find?_cons_of_pos (by rw [hik, hmay, beq_self_eq_true]; rfl)]
  have hparks : (s.modRegion rk fun r => { r with
      faults := r.faults.erase h
      parked := r.parked ++ [{ ctx := ik.ctx, ik := ik, committed := h.committed, cause := h.cause, work := h.work }] }) = u := by
    rw [State.modRegion, hfaults, List.erase_cons_head]
    rfl
  change execGFaultReport rk ik s = _
  rw [execGFaultReport]
  dsimp only
  rw [hfound]
  dsimp only
  rw [hparks]

end Sys2Proof.Machine

open Sys2Proof Sys2Proof.Machine

/-- Settles O46: each event is the equation that names it; an entry that comes back from its records is the entry that was
written (`reread_own`), so its cell holds it again and the token that waits for it is asked for once more. -/
theorem graphEvents : Obligations.GraphEvents := by
  intro s rk ik idx rg b at_ key hwave hst
  refine ⟨fun r v hord hfind hval => ⟨exec_memoryReply_leaves hwave hst hord hfind hval, fun u => rfl⟩,
    fun fuel k r rest h hback => drainReplies_of_waiting_head h hback fuel,
    fun e nd d hfind htimed hnode hovf hparked => ?deadline, fun n hnode => ?control, fun cell l => ?loop,
    fun x y m o => ?refill, fun x y m => ?lookup, fun h hfaults hik hmay => exec_gFaultReport_parks hfaults hik hmay,
    exec_gFaultReport_none⟩
  case deadline =>
    have hexec := exec_tgateDeadline hwave hst hfind htimed hnode hovf hparked
    exact ⟨fun hearly => hexec.trans (congrArg _ (if_pos hearly)), fun hlate => hexec.trans (congrArg _ (if_neg (Nat.not_lt.2 hlate)))⟩
  case control =>
    intro set
    have hexec := exec_controlTokenArrival hwave hst hnode
    refine ⟨fun h => ?_, fun h => ?_, fun h => ?_, fun h => ?_⟩
    · simpa [h] using hexec false
    · simpa [h] using hexec false
    · simpa [h] using hexec true
    · simpa [h] using hexec true
  case loop =>
    intro q k hloop
    have hstart := exec_streamLoopStart hwave hst hloop
    have hfinish := exec_streamLoopFinish hwave hst hloop
    refine ⟨fun hno => ?_, fun j hmay hbad => ?_, fun hmay hgood => ?_, fun hstarted hopen hparked hfaults => ?_, fun hfin => ?_⟩
    · rw [hstart, hno]
      rfl
    · rw [hstart, hmay, hbad]
      rfl
    · intro dl u hinits v
      rw [hstart, hmay, hgood]
      dsimp only
      rw [show dlyInits (dropKeeps s rk q.1 q.2 ik.blk) rk l q.1 q.2 b (delayLines b q.1 q.2) = .ok u from hinits]
      rfl
    · rw [hfinish, hstarted, hopen, hparked, hfaults]
      rfl
    · rw [hfinish, hfin, Bool.or_true]
      rfl
  case refill =>
    intro k hlookup hheld hovf hholds hnext hroom htoks hrecs hnone
    exact exec_matchRefill_reinstalls hlookup hheld hovf hholds hnext hroom htoks hrecs hnone
  case lookup =>
    intro k hlookup hheld hovf
    exact exec_matchRefill_matches hlookup hheld hovf
end

section
/-! Events of the placers (R340, R344, R350, R352, R440-R445, R455, R457): what passing on locks and emptying a buffer leave
unchanged, the equation of each of these events, and O49. -/

namespace Sys2Proof.Machine

variable {s t u : State} {rk : RKey} {x y : Nat}

/-! ## What sending and passing on leave of a region (R263, R302) -/

theorem region_foldl {α : Type} {g : State → α → State} (h : ∀ s a, (g s a).region rk = s.region rk) (l : List α) (s : State) :
    (l.foldl g s).region rk = s.region rk := by
  induction l generalizing s with
  | nil => rfl
  | cons a l ih => exact (ih (g s a)).trans (h s a)

theorem region_sendT (s : State) (f : Firing) (t : BitVec 10) (lat : Nat) (v : List Word) (ft : Fmt) (a : Act) (c : Ctx)
    (it : BitVec 16) : (s.sendT f t lat v ft a c it).region rk = s.region rk := by
  unfold State.sendT
  split
  · rfl
  · dsimp only
    split_ifs <;> rfl

theorem region_sendOut (s : State) (f : Firing) (n : GNode) (lat : Nat) (v : List Word) (ft : Fmt) :
    (s.sendOut f n lat v ft).region rk = s.region rk := by
  rw [State.sendOut, region_sendT, region_sendT]

theorem region_lockPass (s : State) (x y key tok : Nat) (abn : Bool) : (lockPass s x y key tok abn).region rk = s.region rk := by
  unfold lockPass
  dsimp only
  split
  · rfl
  · exact region_sendOut ..

theorem region_lockPassAll (s : State) (rk' : RKey) (p : LockTok → Bool) (abn : Bool) :
    (lockPassAll s rk' p abn).region rk = s.region rk := by
  unfold lockPassAll
  refine region_foldl (fun s q => ?_) _ s
  dsimp only
  split
  · exact region_foldl (fun s e => region_lockPass ..) _ s
  · rfl

theorem region_of_keeps (h : keeps s t) : t.region rk = s.region rk := by
  rw [State.region, State.region, keeps_regions h]

theorem cell_of_keeps (h : keeps s t) (k : Nat) : t.cell k = s.cell k := by
  rw [State.cell, State.cell, keeps_cells h]

theorem keeps_orElse_homeStore (s : State) (ag : Agent) (va w : Word) : keeps s (orElse (s.homeStore ag va w) s) := by
  unfold State.homeStore
  split
  · exact keeps_refl s
  · next hx => exact keeps_trans (keeps_xlat hx) (keeps_putHome ..)

theorem region_writeEntry (s : State) (rk' : RKey) : (writeEntry s rk').region rk = s.region rk :=
  region_of_keeps (keeps_foldl (fun _ _ => keeps_orElse_homeStore ..) _ s)

/-! ## The buffer of an A-cell (R245) -/

/-- Draining a line takes its entry from the buffer. -/
theorem acb_acbDrain (s : State) (key line : Nat) :
    ((acbDrain s key line).cell key).acb = (s.cell key).acb.filter fun e => e.line != line := by
  unfold acbDrain
  dsimp only
  split
  · next hnone =>
    refine (List.filter_eq_self.2 fun e he => ?_).symm
    rw [bne, Bool.not_eq_true', Bool.eq_false_iff]
    exact List.find?_eq_none.1 hnone e he
  · rw [cell_of_keeps (keeps_l2Put ..), cell_setCell]

theorem acb_foldl_acbDrain (key : Nat) (ls : List Nat) (s : State) :
    ((ls.foldl (fun s l => acbDrain s key l) s).cell key).acb = (s.cell key).acb.filter fun e => !ls.contains e.line := by
  induction ls generalizing s with
  | nil => exact (List.filter_eq_self.2 fun _ _ => rfl).symm
  | cons l ls ih =>
    rw [List.foldl_cons, ih, acb_acbDrain, List.filter_filter]
    refine List.filter_congr fun e _ => ?_
    rw [List.contains_cons, Bool.not_or, bne, Bool.and_comm]

/-- After its flush a cell's buffer is empty. -/
theorem acb_acbFlush (s : State) (key : Nat) : ((acbFlush s key).cell key).acb = [] := by
  rw [acbFlush, acb_foldl_acbDrain, List.filter_eq_nil_iff]
  intro e he
  rw [List.contains_iff_mem.2 (List.mem_map_of_mem he)]
  exact Bool.false_ne_true

/-! ## Requests and hand-over (R344, R455) -/

theorem exec_placementRequest_nil {q : Nat} (h : (s.quad q).reqs = []) : exec (.placementRequest q) s = .next s := by
  change execPlacementRequest q s = _
  rw [execPlacementRequest, h, List.foldl_nil]

/-- One request is tried once, and leaves the list where it is done. -/
theorem exec_placementRequest_one {q : Nat} {r : PlaceReq} (h : (s.quad q).reqs = [r]) : exec (.placementRequest q) s =
    .next (match askOne s q r with
      | .done s => s.modQuad q fun q => { q with reqs := q.reqs.erase r }
      | .wait s => s) := by
  change execPlacementRequest q s = _
  rw [execPlacementRequest, h]
  rfl

theorem exec_handoverToken_none (h : (s.region rk).hand.contains (cellKey x y) = false) :
    exec (.handoverToken rk x y) s = .next s := by
  change execHandoverToken rk x y s = _
  rw [execHandoverToken]
  dsimp only
  rw [h]
  rfl

/-- The last hand-over token frees the cells. -/
theorem exec_handoverToken_last (h : (s.region rk).hand = [cellKey x y]) :
    exec (.handoverToken rk x y) s = .next (freeCells (s.modRegion rk fun r => { r with hand := [] }) rk) := by
  have herase : (s.modRegion rk fun r => { r with hand := r.hand.erase (cellKey x y) }) =
      s.modRegion rk fun r => { r with hand := [] } := by
    rw [State.modRegion, h, List.erase_cons_head]
    rfl
  change execHandoverToken rk x y s = _
  rw [execHandoverToken]
  dsimp only
  rw [herase, region_modRegion, h, List.contains_cons, beq_self_eq_true]
  rfl

/-! ## Slack waves (R440-R442) -/

theorem exec_cellSave_none (h : (s.region rk).wave = none) : exec (.cellSave rk x y) s = .next s := by
  change execCellSave rk x y s = _
  rw [execCellSave]
  dsimp only
  rw [h]

theorem exec_slackWaveEnd_none (h : (s.region rk).wave = none) : exec (.slackWaveEnd rk) s = .next s := by
  change execSlackWaveEnd rk s = _
  rw [execSlackWaveEnd]
  dsimp only
  rw [h]

/-- The markers of a saved cell go on to a neighbour whose others are in (R440). -/
def passMarker (rg : Region) (w : Wave) (rk : RKey) (s : State) (x y : Nat) : State :=
  if x < handleW rg.handle ∧ y < handleH rg.handle ∧ markersIn rg w x y then s.after 3 (.cellSave rk x y) else s

theorem passMarker_eq (rg : Region) (w : Wave) (s : State) (x y : Nat) :
    ∃ ds, passMarker rg w rk s x y = { s with duties := ds } := by
  unfold passMarker
  split
  · exact ⟨_, rfl⟩
  · exact ⟨s.duties, rfl⟩

/-- The machine with a cell saved: its buffer flushed, its markers sent on, and the wave's end asked for once all cells are. -/
def saveCell (s : State) (rk : RKey) (x y : Nat) (w : Wave) : State :=
  let rg := s.region rk
  let key := cellAt rg.handle x y
  let w' : Wave := { w with saved := key :: w.saved }
  let v := (acbFlush s key).modRegion rk fun r => { r with wave := some w' }
  let z := passMarker rg w' rk (passMarker rg w' rk v (x + 1) y) x (y + 1)
  if w'.saved.length = rg.keys.length then z.onceAfter 2 (.slackWaveEnd rk) else z

/-- Nothing but what is in flight differs from the cell flushed and marked. -/
theorem saveCell_eq (s : State) (rk : RKey) (x y : Nat) (w : Wave) :
    let key := cellAt (s.region rk).handle x y
    ∃ ds, saveCell s rk x y w =
        { (acbFlush s key).modRegion rk fun r => { r with wave := some { w with saved := key :: w.saved } } with duties := ds }
      ∧ (w.saved.length + 1 = (s.region rk).keys.length → ∃ d ∈ ds, d.work = .ev (.slackWaveEnd rk)) := by
  intro key
  let w' : Wave := { w with saved := key :: w.saved }
  let v := (acbFlush s key).modRegion rk fun r => { r with wave := some w' }
  obtain ⟨d1, h1⟩ := passMarker_eq (rk := rk) (s.region rk) w' v (x + 1) y
  obtain ⟨d2, h2⟩ := passMarker_eq (rk := rk) (s.region rk) w' { v with duties := d1 } x (y + 1)
  obtain ⟨d3, h3, hflight⟩ := onceAfter_in_flight { v with duties := d2 } 2 (.slackWaveEnd rk)
  unfold saveCell
  dsimp only
  rw [h1, h2]
  split
  · exact ⟨d3, h3, fun _ => hflight⟩
  · next hmore => exact ⟨d2, rfl, fun hlast => absurd hlast hmore⟩

section Save
variable {w : Wave} (hwave : (s.region rk).wave = some w)
include hwave

/-- What becomes of a cell whose markers are in. -/
theorem exec_cellSave (hsaved : w.saved.contains (cellAt (s.region rk).handle x y) = false)
    (hmarkers : markersIn (s.region rk) w x y = true) : exec (.cellSave rk x y) s =
      .next (if repliesDue (s.cell (cellAt (s.region rk).handle x y)) then s.after 1 (.cellSave rk x y) else saveCell s rk x y w) := by
  change execCellSave rk x y s = _
  rw [execCellSave]
  dsimp only
  rw [hwave]
  dsimp only
  rw [hsaved, hmarkers]
  cases repliesDue (s.cell (cellAt (s.region rk).handle x y)) <;> rfl

theorem exec_cellSave_saves (hsaved : w.saved.contains (cellAt (s.region rk).handle x y) = false)
    (hmarkers : markersIn (s.region rk) w x y = true) (hreplies : repliesDue (s.cell (cellAt (s.region rk).handle x y)) = false) :
    let key := cellAt (s.region rk).handle x y
    ∃ u, exec (.cellSave rk x y) s = .next u ∧ (u.region rk).wave = some { w with saved := key :: w.saved }
      ∧ (u.cell key).acb = []
      ∧ (w.saved.length + 1 = (s.region rk).keys.length → u.duties.any (fun d => d.work == .ev (.slackWaveEnd rk)) = true) := by
  intro key
  obtain ⟨ds, hsave, hflight⟩ := saveCell_eq s rk x y w
  refine ⟨saveCell s rk x y w, (exec_cellSave hwave hsaved hmarkers).trans (congrArg _ (if_neg (Bool.eq_false_iff.1 hreplies))),
    ?_, ?_, fun hlast => ?_⟩
  · rw [hsave]
    exact congrArg Region.wave (region_modRegion (acbFlush s key) rk fun r => { r with wave := some { w with saved := key :: w.saved } })
  · rw [hsave]
    exact acb_acbFlush s key
  · obtain ⟨d, hd, hwork⟩ := hflight hlast
    rw [hsave]
    exact List.any_eq_true.2 ⟨d, hd, beq_iff_eq.2 hwork⟩

/-- A wave whose cells are saved ends where nothing of its region is still under way. -/
theorem exec_slackWaveEnd_ends (hall : (s.region rk).keys.length ≤ w.saved.length) (hduties : s.duties = [])
    (hurgent : urgentLeft (s.region rk) = false) (hback : w.back = false) :
    let z := gRelease s rk .dv
    let im := regionImage z rk w
    exec (.slackWaveEnd rk) s = .next (sendHands (writeEntry
      { (z.modRegion rk fun r => { r with st := 4, wave := none, image := some im }) with
          cells := AMap.mapV z.cells fun _ c => if c.owner = some rk then emptyCell c else c } rk) rk) := by
  intro z im
  change execSlackWaveEnd rk s = _
  rw [execSlackWaveEnd]
  dsimp only
  rw [hwave]
  dsimp only
  rw [if_neg (Nat.not_lt.2 hall), hurgent, hduties, hback]
  rfl

end Save

/-! ## Restores (R443-R445) -/

theorem exec_regionRestore_none (h : (s.region rk).image = none) : exec (.regionRestore rk) s = .next s := by
  change execRegionRestore rk s = _
  rw [execRegionRestore]
  dsimp only
  rw [h]

/-- The machine once a restore has written its region's cells, on `s`: the region placed, its recorded work again in flight, and
its functions bound. -/
def placeAgain (rk : RKey) (fn : List Word) (im : RegImage) (s : State) : State :=
  let s := putCells s rk im
  let s := { s with duties := s.duties ++ im.arcs.map fun a : ArcRec => ({ due := s.clk + 1, work := a.work } : Duty) }
  let s := s.modRegion rk fun r => { r with st := 3, image := none }
  let s := writeEntry ((s.region rk).coves.foldl (fun s c => s.dropOlds c) s) rk
  let t := s.tenant rk.vmid
  let s := lockPassAll s rk (fun l => match l.holder with | some c => t.fgen c.frame.toNat != c.fgen | none => false) true
  fn.foldl (fun s d => bindDesc s rk d) s

/-- With no function to bind, what follows the placing leaves the region placed. -/
theorem region_placeAgain (im : RegImage) (s : State) :
    ((placeAgain rk [] im s).region rk).st = 3 ∧ ((placeAgain rk [] im s).region rk).image = none := by
  unfold placeAgain
  dsimp only
  rw [List.foldl_nil, region_lockPassAll, region_writeEntry, region_of_keeps (keeps_foldl (fun _ _ => keeps_dropOlds ..) _ _),
    region_modRegion]
  exact ⟨rfl, rfl⟩

section Restore
variable {im : RegImage} (himage : (s.region rk).image = some im) (hst : (s.region rk).st = 4) (hhand : (s.region rk).hand = [])
  (howner : (s.cell (cellAt (s.region rk).handle 0 0)).owner = some rk)
include himage hst hhand howner

omit himage in
/-- A restore waits for nothing where the region is out, handed over and owns its cells. -/
theorem not_restoreWaits : ¬ ((s.region rk).st ≠ 4 ∨ (!(s.region rk).hand.isEmpty) = true
    ∨ (s.cell (cellAt (s.region rk).handle 0 0)).owner ≠ some rk) := by
  rw [hst, hhand, howner]
  simp

/-- A record that cannot be read leaves the region out. -/
theorem exec_regionRestore_unread {e : Trap}
    (hcheck : checkRecord s (s.placerAgent rk) (s.region rk).imgva
      (some (handleW (s.region rk).handle, handleH (s.region rk).handle)) = .error e) :
    exec (.regionRestore rk) s = .next (dropPlace s rk) := by
  change execRegionRestore rk s = _
  rw [execRegionRestore]
  dsimp only
  rw [himage]
  dsimp only
  rw [if_neg (not_restoreWaits hst hhand howner), hcheck]

/-- A region whose image is read and whose cells are written is placed again. -/
theorem exec_regionRestore_places {m : Img} {z : State}
    (hcheck : checkRecord s (s.placerAgent rk) (s.region rk).imgva
      (some (handleW (s.region rk).handle, handleH (s.region rk).handle)) = .ok (.good m z))
    (hcells : writeCells z (s.region rk).handle (m.cells.filter fun q => !q.1.isUnused) = .ok t) :
    exec (.regionRestore rk) s = .next (settle (placeAgain rk (s.region rk).fn im t) rk) := by
  change execRegionRestore rk s = _
  rw [execRegionRestore]
  dsimp only
  rw [himage]
  dsimp only
  rw [if_neg (not_restoreWaits hst hhand howner), hcheck]
  dsimp only
  rw [hcells]
  rfl

end Restore

/-! ## Overlays (R457) -/

section Overlay
variable {slot : Nat}

theorem exec_overlayLoadComplete_present (h : (AMap.get? (s.cell (cellAt (s.region rk).handle x y)).sw slot).isSome = true) :
    exec (.overlayLoadComplete rk x y slot) s = .next s := by
  change execOverlayLoadComplete rk x y slot s = _
  rw [execOverlayLoadComplete]
  exact if_pos (.inr h)

/-- What a load of an overlay into a slot does by the block it has read, or by its failure: the block's entries fill the slot
and let the held tokens `ms` in, or their instances fault. -/
def overlayRead (s o : State) (rk : RKey) (x y slot : Nat) (ow : Word) (ms : List MTok) :
    Except Trap (List Byte × Block × State) → State
  | .error _ => overlayFault o rk (((s.region rk).blockAt x y slot).getD 0) ms 0x10 (w64 (((s.region rk).blockAt x y slot).getD 0))
  | .ok (bs, b, t) =>
    let rg := s.region rk
    let key := cellAt rg.handle x y
    let blk := (rg.blockAt x y slot).getD 0
    if !block57 bs b then overlayFault t rk blk ms 0x10 (w64 blk)
    else if (AMap.getD (s.cell key).store slot {}).gen = 0xFFFF#16 then overlayFault t rk blk ms 0x09 (w64 (64 * slot))
    else ms.foldl (fun s m => arrive s rk m) (t.modCell key fun c => fillSlot c slot ow (b.entries (owPlace ow).cellNo) rg.gen)

theorem exec_overlayLoadComplete {ow va : Word} {r : Except Trap (List Byte × Block × State)} (hst : (s.region rk).st = 3)
    (hout : AMap.get? (s.cell (cellAt (s.region rk).handle x y)).sw slot = none)
    (hfind : (s.cell (cellAt (s.region rk).handle x y)).ow.find?
      (fun q => owSlot q.1 == slot && (owPlace q.1).blk == ((s.region rk).blockAt x y slot).getD 0) = some (ow, va))
    (hread : let o := takeOver s (cellAt (s.region rk).handle x y) slot
      readBlock o.2 (o.2.placerAgent rk) va = r) :
    let o := takeOver s (cellAt (s.region rk).handle x y) slot
    exec (.overlayLoadComplete rk x y slot) s = .next (settle (overlayRead s o.2 rk x y slot ow o.1 r) rk) := by
  intro o
  have hgo : ¬ ((s.region rk).st ≠ 3 ∨ (AMap.get? (s.cell (s.cellOf rk x y)).sw slot).isSome = true) := by
    rw [hst, State.cellOf, hout]
    decide
  have hkey : s.cellOf rk x y = cellAt (s.region rk).handle x y := rfl
  change execOverlayLoadComplete rk x y slot s = _
  rw [execOverlayLoadComplete]
  dsimp only at hread ⊢
  rw [if_neg hgo, hkey, hfind]
  dsimp only
  rw [hread]
  rcases r with e | ⟨bs, b, t⟩
  · rfl
  · dsimp only [overlayRead]
    split_ifs <;> rfl

end Overlay

/-! ## Moored tokens (R350, R352) -/

theorem exec_moorDelivery_unread {v : Nat} {desc : Word} {e : Trap} (h : readDesc s (s.devAgent v 0) desc = .error e) :
    exec (.moorDelivery v desc) s = .next s := by
  change execMoorDelivery v desc s = _
  rw [execMoorDelivery]
  dsimp only
  rw [h]

/-- The oldest moored entry goes to its placed function; the next one is asked for. -/
theorem exec_moorDelivery_sends {v : Nat} {desc : Word} {d : Desc} {ws : List Word}
    (hread : readDesc s (s.devAgent v 0) desc = .ok (d, t)) (hplaced : d.placed ≠ 0#64) (hmoor : d.moorq ≠ 0#64)
    (hst : (t.region (rkeyOf v d.placed)).st = 3) (hwave : (t.region (rkeyOf v d.placed)).wave = none)
    (hpeek : ringPeek t (s.devAgent v 0) d.moorq 3 = some ws) :
    let k := rkeyOf v d.placed
    let u := settle (sendMoored (ringPop t (s.devAgent v 0) d.moorq) k (s.devAgent v 0) desc d ws) k
    exec (.moorDelivery v desc) s =
      .next (if (ringPeek u (s.devAgent v 0) d.moorq 3).isSome then u.onceAfter 1 (.moorDelivery v desc) else u) := by
  intro k u
  have hgo : ¬ (d.placed = 0#64 ∨ d.moorq = 0#64 ∨ (t.region k).st ≠ 3 ∨ (t.region k).wave.isSome = true) := by
    rw [hst, hwave]
    simp [hplaced, hmoor]
  change execMoorDelivery v desc s = _
  rw [execMoorDelivery]
  dsimp only
  rw [hread]
  dsimp only
  rw [if_neg hgo, hpeek]

end Sys2Proof.Machine

open Sys2Proof Sys2Proof.Machine

/-- Settles O49: each event is the equation that names it; a saved cell has flushed its buffer (`acb_acbFlush`), and what a
restore does after its region is placed leaves the region so (`region_lockPassAll`, `region_writeEntry`). That a failed overlay
faults every instance that waits for it, and the slot taken over, are the model's choices (log 38), as is the image that a
region keeps (log 12). -/
theorem placerEvents : Obligations.PlacerEvents := by
  intro s t rk x y rg key
  refine ⟨fun q => exec_placementRequest_nil, fun q r hreq => ⟨fun hone => ?done, fun hone => ?wait⟩, exec_handoverToken_none,
    exec_handoverToken_last, fun hwave => ⟨exec_cellSave_none hwave, exec_slackWaveEnd_none hwave⟩,
    fun w hwave hsaved hmarkers => ⟨fun hreplies => ?replies, exec_cellSave_saves hwave hsaved hmarkers⟩,
    fun w hwave hall hduties hurgent hback => ⟨_, exec_slackWaveEnd_ends hwave hall hduties hurgent hback, rfl⟩,
    exec_regionRestore_none, fun im e himage hst hhand howner => exec_regionRestore_unread himage hst hhand howner,
    fun im m z himage hst hhand howner hcheck hcells =>
      ⟨_, exec_regionRestore_places himage hst hhand howner hcheck hcells, fun hfn => ?placed⟩, fun slot => exec_overlayLoadComplete_present, ?overlay,
    fun v desc d ws hread hplaced hmoor => exec_moorDelivery_sends hread hplaced hmoor, fun v desc e => exec_moorDelivery_unread⟩
  case done => rw [exec_placementRequest_one hreq, hone]
  case wait => rw [exec_placementRequest_one hreq, hone]
  case replies => exact (exec_cellSave hwave hsaved hmarkers).trans (congrArg _ (if_pos hreplies))
  case placed =>
    rw [show (s.region rk).fn = [] from hfn]
    exact region_placeAgain im t
  case overlay =>
    intro slot ow va bs b hst hout blk o hfind
    refine ⟨fun hread hblock hpoison => (exec_overlayLoadComplete hst hout hfind hread).trans (congrArg _ (congrArg (settle · rk) ?_)),
      fun hread hblock hclean => (exec_overlayLoadComplete hst hout hfind hread).trans (congrArg _ (congrArg (settle · rk) ?_)),
      fun e hread => exec_overlayLoadComplete (r := .error e) hst hout hfind hread⟩
    · exact (if_neg (by rw [hblock]; decide)).trans (if_pos hpoison)
    · exact (if_neg (by rw [hblock]; decide)).trans (if_neg hclean)
end

section
/-! Engine nodes as they fire (R401, R409-R411): the binding each needs, the descriptors each reads, what each leaves to the commit,
and O41. -/

namespace Sys2Proof.Machine

variable {s t u v : State} {n : GNode} {f : Firing} {b : Nat} {y : Buoy} {ws : List Word} {q : Phys}

/-! ## Buoy cells (R519) -/

theorem needBinding_none (h : (u.region f.rk).buoyAt f.x f.y = none) (p : Binding → Bool) :
    needBinding u f p = nodeFail cPERM (w64 f.idx) := by
  dsimp only [needBinding]
  rw [h]

theorem needBinding_some (h : (u.region f.rk).buoyAt f.x f.y = some (b, y)) {p : Binding → Bool} (hp : p y.cur = true) :
    needBinding u f p = .ok (b, y) := by
  dsimp only [needBinding]
  rw [h]
  exact if_pos hp

theorem copyBound_of {c : Binding} (h : c.bind = 1#2) : copyBound c = true := beq_iff_eq.2 h

/-- A node of a cell without a buoy is PERM, ADDR its index: the model's choice (log 41). -/
theorem exec_boundNode_of_no_buoy {i : Instr} (hi : i ∈ [Instr.gPost n, .gGat n, .gSct n, .gCpy n]) (h : s.fires i f u)
    (hnone : (u.region f.rk).buoyAt f.x f.y = none) : exec i s = u.firedBad i f 0x07 (w64 f.idx) := by
  simp only [List.mem_cons, List.not_mem_nil, or_false] at hi
  obtain rfl | rfl | rfl | rfl := hi
  all_goals
    refine runNode_error h ?_
    dsimp only
    rw [needBinding_none hnone]
    rfl

section Bound
variable (hb : (u.region f.rk).buoyAt f.x f.y = some (b, y))
include hb

theorem exec_gPost_pends (h : s.fires (.gPost n) f u) (hin : y.cur.inward = false) (hbind : y.cur.bind = 0#2)
    (hx : xlat u (u.fireAgent f) (y.cur.sva + w64 (8 * (y.pos + postsPending u f.rk b))) .w = .ok (q, t)) :
    exec (.gPost n) s = firedTo (.gPost n) f (t.pendOn f (.gPost n) 0#64 [w64 b]) := by
  refine runNode_ok h ?_
  dsimp only
  rw [needBinding_some hb (by rw [hin, hbind]; rfl), ok_bind]
  dsimp only
  rw [hx]
  rfl

variable (hbind : y.cur.bind = 1#2)
include hbind

theorem exec_gGat_pends (h : s.fires (.gGat n) f u) (hread : readGat u f true = .ok (ws, t))
    (hck : checkPacket (nodeCk f b y) (gatPacket n.fmt ws) = .ok ()) :
    exec (.gGat n) s = firedTo (.gGat n) f (t.pendOn f (.gGat n) 0#64 (gatPacket n.fmt ws)) := by
  refine runNode_ok h ?_
  dsimp only
  rw [needBinding_some hb (copyBound_of hbind), ok_bind]
  dsimp only
  rw [hread, ok_bind]
  dsimp only
  rw [hck]
  rfl

theorem exec_gSct_pends (h : s.fires (.gSct n) f u) (hread : readGat u f false = .ok (ws, t))
    (hck : checkPacket (nodeCk f b y) (sctPacket ws) = .ok ()) :
    exec (.gSct n) s = firedTo (.gSct n) f ((t.pendOn f (.gSct n) 0#64 (sctPacket ws)).sendCount f false) := by
  refine runNode_ok h ?_
  dsimp only
  rw [needBinding_some hb (copyBound_of hbind), ok_bind]
  dsimp only
  rw [hread, ok_bind]
  dsimp only
  rw [hck]
  rfl

theorem exec_gCpy_pends (h : s.fires (.gCpy n) f u) (halign : fld f.lpay 5 0 = 0) (hread : argWords u f f.lpay 16 = .ok (ws, t))
    (hck : checkPacket (nodeCk f b y) (ws.set 12 (packCtx f.ik.ctx (f.ik.iter + 1#16))) = .ok ())
    (hcw : checkCw t (t.fireAgent f) (ws.set 12 (packCtx f.ik.ctx (f.ik.iter + 1#16))) = .ok v) :
    exec (.gCpy n) s = firedTo (.gCpy n) f (v.pendOn f (.gCpy n) 0#64 (ws.set 12 (packCtx f.ik.ctx (f.ik.iter + 1#16)))) := by
  refine runNode_ok h ?_
  dsimp only
  rw [needBinding_some hb (copyBound_of hbind), ok_bind]
  dsimp only
  rw [nodeNeed_of (beq_iff_eq.2 halign), ok_bind, hread, liftT_ok, ok_bind]
  dsimp only
  rw [hck, liftT_ok, ok_bind, hcw]
  rfl

end Bound

/-! ## Tides -/

theorem exec_gTadv_pends (h : s.fires (.gTadv n) f u) {e val : Nat} {d : Tide} (hx : translate u (u.fireAgent f) f.lpay .w = .ok (q, t))
    (htide : tideRegion t q f.lpay = .ok (val, e, d)) :
    exec (.gTadv n) s = firedTo (.gTadv n) f (t.pendOn f (.gTadv n) f.lpay [w64 val, w64 e]) := by
  refine runNode_ok h ?_
  dsimp only
  rw [hx, liftT_ok, ok_bind]
  dsimp only
  rw [htide]
  rfl

/-! ## Replay (R401, R411) -/

theorem probeArg_of_reserved (h : fld f.rpay 63 48 ≠ 0 ∨ fld f.rpay 15 12 ≠ 0) : probeArg f = nodeFail cILLEGAL (w64 f.idx) := if_pos h

theorem probeArg_of_key (hhigh : fld f.rpay 63 48 = 0) (hlow : fld f.rpay 15 12 = 0) :
    probeArg f = .ok (fld f.rpay 11 0, fld f.rpay 47 16) :=
  if_neg (by rw [hhigh, hlow]; simp)

theorem exec_keyNode_of_reserved {i : Instr} (hi : i ∈ [Instr.gProbe n, .gRec n]) (h : s.fires i f u)
    (hres : fld f.rpay 63 48 ≠ 0 ∨ fld f.rpay 15 12 ≠ 0) : exec i s = u.firedBad i f 0x01 (w64 f.idx) := by
  simp only [List.mem_cons, List.not_mem_nil, or_false] at hi
  obtain rfl | rfl := hi
  all_goals
    refine runNode_error h ?_
    dsimp only
    rw [probeArg_of_reserved hres]
    rfl

section Key
variable (hhigh : fld f.rpay 63 48 = 0) (hlow : fld f.rpay 15 12 = 0)
  (harea : areaOk u (handleQuad (u.region f.rk).handle) f.rk.vmid (fld f.rpay 11 0) = .ok ())
include hhigh hlow harea

/-- A repeated probe answers what it answered. -/
theorem exec_gProbe_again (h : s.fires (.gProbe n) f u) {m : Memo} (hm : memoOf u f (fld f.rpay 11 0) (fld f.rpay 47 16) = some m) :
    exec (.gProbe n) s = firedTo (.gProbe n) f (u.sendOut f n Config.nearClk [m.verdict] .int) := by
  refine runNode_ok h ?_
  dsimp only
  rw [probeArg_of_key hhigh hlow, ok_bind]
  dsimp only
  rw [harea, liftT_ok, ok_bind, hm]
  rfl

/-- A probe of a busy key polls each clk: the model's choice (log 18). -/
theorem exec_gProbe_waits (h : s.fires (.gProbe n) f u) (hm : memoOf u f (fld f.rpay 11 0) (fld f.rpay 47 16) = none)
    (hbusy : keyBusy u (handleQuad (u.region f.rk).handle) f.rk.vmid (fld f.rpay 11 0) = true) :
    exec (.gProbe n) s = .next (settle (u.fireAfter 1 (.gProbe n) f) f.rk) := by
  refine (runNode_eq_nodeResult h _).trans (congrArg (nodeResult u (.gProbe n) f) (a₂ := .error none) ?_)
  dsimp only
  rw [probeArg_of_key hhigh hlow, ok_bind]
  dsimp only
  rw [harea, liftT_ok, ok_bind, hm]
  dsimp only
  rw [hbusy]
  rfl

theorem exec_gProbe_probes (h : s.fires (.gProbe n) f u) (hm : memoOf u f (fld f.rpay 11 0) (fld f.rpay 47 16) = none)
    (hbusy : keyBusy u (handleQuad (u.region f.rk).handle) f.rk.vmid (fld f.rpay 11 0) = false) {verdict : Word} {clks : Nat}
    (hprobe : probeKey (gRelease u f.rk .dv) (u.fireAgent f) (handleQuad (u.region f.rk).handle) { cause := cILLEGAL, tval := w64 f.idx }
      (fld f.rpay 11 0) (fld f.rpay 47 16) f.lpay = .ok (verdict, clks, t)) :
    exec (.gProbe n) s = firedTo (.gProbe n) f ((t.modRegion f.rk fun r =>
      { r with memos := r.memos ++ [{ key := fld f.rpay 11 0, step := fld f.rpay 47 16, ik := f.ik, verdict := verdict }] }).sendOut
        f n clks [verdict] .int) := by
  refine runNode_ok h ?_
  dsimp only
  rw [probeArg_of_key hhigh hlow, ok_bind]
  dsimp only
  rw [harea, liftT_ok, ok_bind, hm]
  dsimp only
  rw [hbusy, Bool.not_false, notYet, if_pos rfl, ok_bind, hprobe]
  rfl

theorem exec_gRec_pends (h : s.fires (.gRec n) f u) {d : RDesc}
    (hread : readRDesc u (u.fireAgent f) { cause := cILLEGAL, tval := w64 f.idx } f.lpay = .ok (d, t))
    (hwords : homeWords t (t.fireAgent f) f.lpay 6 = .ok (ws, v)) :
    exec (.gRec n) s = firedTo (.gRec n) f (v.pendOn f (.gRec n) f.lpay (w64 (fld f.rpay 11 0) :: ws)) := by
  refine runNode_ok h ?_
  dsimp only
  rw [probeArg_of_key hhigh hlow, ok_bind]
  dsimp only
  rw [harea, liftT_ok, ok_bind, hread, liftT_ok, ok_bind]
  dsimp only
  rw [hwords]
  rfl

end Key

end Sys2Proof.Machine

open Sys2Proof Sys2Proof.Machine

/-- Settles O41: each engine node by what it reads and checks. That a missing buoy's PERM gives the node's index as ADDR (log 41), and
that a probe of a busy key polls each clk (log 18), are the model's choices. -/
theorem engineNodes : Obligations.EngineNodes := by
  intro s t u n f b y
  refine ⟨fun _ => exec_boundNode_of_no_buoy, fun h hb hin hbind _ => exec_gPost_pends hb h hin hbind,
    fun h hb hbind _ => exec_gGat_pends hb hbind h, fun h hb hbind _ => exec_gSct_pends hb hbind h,
    fun h hb hbind halign _ _ => exec_gCpy_pends hb hbind h halign, fun h _ _ _ _ => exec_gTadv_pends h,
    fun _ => exec_keyNode_of_reserved, fun hhigh hlow harea => ⟨?again, ?waits, ?probes, ?record⟩⟩
  case again => exact fun h _ => exec_gProbe_again hhigh hlow harea h
  case waits => exact exec_gProbe_waits hhigh hlow harea
  case probes => exact fun h hm hbusy _ _ => exec_gProbe_probes hhigh hlow harea h hm hbusy
  case record => exact fun h _ _ _ => exec_gRec_pends hhigh hlow harea h
end

section
/-! A delay-mode step where two loops stand under one instance and block slot (R368, R369): each loop's tags go to the interleave slot
that its own count gives, which refutes O42. -/

namespace Sys2Proof.Machine

/-! ## The state -/

/-- A delay node of depth 1. -/
def twinNode : GNode := default

/-- The node's step 1 in cell (0, 0). -/
def twinFiring : Firing := { rk := default, ik := default, x := 0, y := 0, slot := 0, idx := 0, body := some 1, began := true }

/-- Two loops of one instance and slot, with interleave counts 1 and 2. -/
def twinLoops : List Loop := [{ ik := default, slot := 0, ilv := 1 }, { ik := default, slot := 0, ilv := 2 }]

/-- A placed region with one admitted instance, whose cell holds both loops. -/
def twinState : State :=
  { (State.reset.modRegion default fun r => { r with st := 3, insts := [{ ik := default, admitted := true }] }).modCell 0 fun c =>
    { c with loops := twinLoops } with fire := some twinFiring }

/-- The state after the step has written the first word of its line. -/
def twinWritten : State := twinState.taking.modCell 0 fun c => { c with freg := AMap.set c.freg 0 {} }

/-- The keys of the tags that each loop of cell 0 holds. -/
def dlyKeys : Out → List (List Nat)
  | .next s => (s.cell 0).loops.map fun l => l.dlys.map (·.1)
  | _ => []

theorem twinState_fires : twinState.fires (.gDly twinNode) twinFiring twinState.taking :=
  ⟨⟨twinFiring, rfl, rfl, rfl, nofun⟩, rfl, rfl, rfl, .inr rfl, rfl, rfl⟩

theorem twinState_writes_line :
    setLineWords twinState.taking twinFiring.rk twinFiring.x twinFiring.y (dlyPlace twinState.taking twinFiring)
      ((loopOf twinState.taking twinFiring).delayAt twinFiring.idx twinNode 1) [0#64] = .ok twinWritten :=
  rfl

/-- Step 1 is interleave slot 0 of the first loop and slot 1 of the second. -/
theorem dlyKeys_twinState : dlyKeys (exec (.gDly twinNode) twinState) = [[0], [1]] := by
  decide +kernel

end Sys2Proof.Machine

open Sys2Proof Sys2Proof.Machine

/-- Refutes O42: its clause about a delay-mode `dly` puts the tags of a step at the interleave slot of the loop that `loopOf` finds, in
every loop of that instance and slot. In a state with two such loops of unequal interleave counts the model takes each loop's own
count. The missing premise is that a cell holds at most one loop of an instance and slot. -/
theorem not_streamNodes : ¬ Obligations.StreamNodes := by
  intro h
  obtain ⟨-, -, -, -, -, -, hdly, -⟩ := h twinState twinWritten twinState.taking twinNode twinFiring
  have hclaimed := (hdly twinState_fires (by decide +kernel)).2 (by decide) twinState_writes_line
  have hkeys := dlyKeys_twinState
  rw [hclaimed] at hkeys
  exact absurd hkeys (by decide +kernel)
end

section
/-! `fork` and `join` (R274, R278, R279, R282): the deque's two outcomes, each instruction's outcomes, and O30. -/

namespace Sys2Proof.Machine

variable {s t t1 t2 t3 : State} {d : Domain} {rs1 rs2 : XReg} {p f : Word} {ws : List Word} {q : Phys}

/-! ## The deque of a core (R270, R275) -/

theorem pushBottom_of_room {c : Nat} {e : DqEntry} (h : (s.core c).deque.length < 64) :
    pushBottom s c e = some (s.modCore c fun k => { k with deque := e :: k.deque }) := by
  dsimp only [pushBottom]
  rw [if_pos h]
  rfl

theorem pushBottom_of_no_victim {c : Nat} {e : DqEntry} (h : 64 ≤ (s.core c).deque.length)
    (hv : spillVictim s (s.core c).deque = none) : pushBottom s c e = none := by
  dsimp only [pushBottom]
  rw [if_neg (Nat.not_lt.2 h), hv]

/-- A frame without a caller counts no child. -/
theorem countChild_zero (f : Word) : countChild s 0#64 f = .ok s := if_pos rfl

/-! ## fork (R274, R278, R279) -/

/-- The entry of a forked task: its domain is the instruction's, else its queue's. -/
def forkEntry (u : State) (d : Domain) (p f : Word) : DqEntry :=
  { ptr := p, frame := f, slot := BitVec.ofNat 3 u.cur, queue := u.me.own.owner.toNat
    dom := match d with
      | .dflt => (u.queue u.me.own.owner.toNat).dom
      | .slot => 1#3 | .core => 2#3 | .cove => 3#3 | .quad => 4#3 | .device => 5#3 }

theorem forkEntry_dom (u : State) (d : Domain) (p f : Word) :
    (forkEntry u d p f).dom = if d = .dflt then (u.queue u.myQueue).dom else BitVec.ofNat 3 (Domain.code d) := by
  cases d <;> rfl

section Fork
variable (hp : s.xr rs1 = .ok p) (hf : s.xr rs2 = .ok f) (hrun : s.me.wait = .run) (hframe : frameWrite s f = .ok (ws, q, t))
include hp hf hrun hframe

theorem exec_fork_tagptr (htag : 2 ≤ fld p 1 0) : exec (.fork d rs1 rs2) s = .next (s.takeTrap { cause := 0x0A, tval := p }) := by
  change execFork d rs1 rs2 s = _
  rw [execFork]
  dsimp only
  rw [hp, ok_bind, hf, ok_bind, hrun]
  dsimp only
  rw [hframe, ok_bind]
  dsimp only
  rw [need_error (decide_eq_false (Nat.not_lt.2 htag))]
  rfl

variable (htag : fld p 1 0 = 0)
include htag

theorem exec_fork_dead (hdead : fld (ws.getD 4 0#64) 15 0 = 0) :
    exec (.fork d rs1 rs2) s = .next (s.takeTrap { cause := 0x0D, tval := f }) := by
  change execFork d rs1 rs2 s = _
  rw [execFork]
  dsimp only
  rw [hp, ok_bind, hf, ok_bind, hrun]
  dsimp only
  rw [hframe, ok_bind]
  dsimp only
  rw [htag, need_error (bne_eq_false_iff_eq.2 hdead)]
  rfl

variable (hlive : fld (ws.getD 4 0#64) 15 0 ≠ 0) (hcaller : ws.getD 1 0#64 = 0#64)
  (h1 : (t.releaseAt (coreOf t.cur) .dv).homeStore (t.releaseAt (coreOf t.cur) .dv).agent f 0#64 = .ok t1)
  (h2 : t1.homeStore t1.agent (f + 16#64) 0#64 = .ok t2) (h3 : t2.homeStore t2.agent (f + 40#64) 0#64 = .ok t3)
include hlive hcaller h1 h2 h3

/-- A fork of a task into a live frame pushes it at the bottom of its core's deque. -/
theorem exec_fork_pushes :
    exec (.fork d rs1 rs2) s = s.commit (match pushBottom (t3.setEmpty q.pa) (coreOf (t3.setEmpty q.pa).cur)
        (forkEntry (t3.setEmpty q.pa) d p f) with
      | some v => .ok v.retire
      | none => .error { cause := 0x13, tval := w64 (t3.setEmpty q.pa).me.own.owner.toNat }) := by
  change execFork d rs1 rs2 s = _
  rw [execFork]
  dsimp only
  rw [hp, ok_bind, hf, ok_bind, hrun]
  dsimp only
  rw [hframe, ok_bind]
  dsimp only
  rw [htag, need_ok (bne_iff_ne.2 hlive)]
  change s.commit ((t.releaseAt (coreOf t.cur) .dv).homeStore (t.releaseAt (coreOf t.cur) .dv).agent f 0#64 >>= _) = _
  rw [h1, ok_bind, h2, ok_bind, h3, ok_bind, hcaller, countChild_zero, ok_bind, ← forkEntry_dom _ d p f]
  rfl

theorem exec_fork_room (hroom : ((t3.setEmpty q.pa).core (coreOf (t3.setEmpty q.pa).cur)).deque.length < 64) :
    exec (.fork d rs1 rs2) s = .next ((t3.setEmpty q.pa).modCore (coreOf (t3.setEmpty q.pa).cur) fun k =>
      { k with deque := forkEntry (t3.setEmpty q.pa) d p f :: k.deque }).retire := by
  rw [exec_fork_pushes hp hf hrun hframe htag hlive hcaller h1 h2 h3, pushBottom_of_room hroom, commit_ok]

theorem exec_fork_full (hfull : 64 ≤ ((t3.setEmpty q.pa).core (coreOf (t3.setEmpty q.pa).cur)).deque.length)
    (hv : spillVictim (t3.setEmpty q.pa) ((t3.setEmpty q.pa).core (coreOf (t3.setEmpty q.pa).cur)).deque = none) :
    exec (.fork d rs1 rs2) s =
      .next (s.takeTrap { cause := 0x13, tval := w64 (t3.setEmpty q.pa).me.own.owner.toNat }) := by
  rw [exec_fork_pushes hp hf hrun hframe htag hlive hcaller h1 h2 h3, pushBottom_of_no_victim hfull hv, commit_error]

end Fork

/-! ## join (R282) -/

/-- A join whose wait has ended goes on, whatever the counter holds by now: the model's choice (log 24). -/
theorem exec_join_resumes {i : Instr} {since : Nat} (h : s.me.wait = .resume .join i since f) :
    exec (.join rs1) s = .next (s.acquireAt (coreOf s.cur) .dv).retire := by
  change execJoin rs1 s = _
  rw [execJoin, h]
  rfl

/-- A hold that begins starts its own window. -/
theorem holdJoin_of_run {k : WaitKind} {i : Instr} (h : t.me.wait = .run) :
    holdJoin t k i f = (((t.holdOn k i f).dropDuties fun w => w.work == .ev (.joinwinExpiry t.cur)).after
      (max 64 t.me.user.joinwin.toNat) (.joinwinExpiry t.cur)) := by
  rw [holdJoin, h]
  rfl

section Join
variable (hp : s.xr rs1 = .ok p) (hrun : s.me.wait = .run) (hframe : frameRead s p = .ok (ws, t))
include hp hrun hframe

theorem exec_join_zero (hzero : fld (ws.getD 2 0#64) 31 0 = 0) :
    exec (.join rs1) s = .next (t.acquireAt (coreOf t.cur) .dv).retire := by
  change execJoin rs1 s = _
  rw [execJoin, hrun]
  dsimp only
  rw [hp, ok_bind, hframe, ok_bind]
  exact congrArg s.commit (if_pos hzero)

theorem exec_join_waits (hcount : fld (ws.getD 2 0#64) 31 0 ≠ 0) (hwait : t.me.wait = .run) :
    exec (.join rs1) s = .next (((t.holdOn .join (.join rs1) p).dropDuties fun w => w.work == .ev (.joinwinExpiry t.cur)).after
      (max 64 t.me.user.joinwin.toNat) (.joinwinExpiry t.cur)) := by
  change execJoin rs1 s = _
  rw [execJoin, hrun]
  dsimp only
  rw [hp, ok_bind, hframe, ok_bind, ← holdJoin_of_run hwait]
  exact congrArg s.commit (if_neg hcount)

end Join

end Sys2Proof.Machine

open Sys2Proof Sys2Proof.Machine

/-- Settles O30: each outcome of `fork` and `join`. That a held join whose wait has ended goes on without a second look is the model's
choice (log 24). -/
theorem forkJoin : Obligations.ForkJoin := by
  refine ⟨fun s rs1 i t f => exec_join_resumes, fun s t d rs1 rs2 p f ws hp hf hrun => ⟨?fork, ?join⟩⟩
  case fork =>
    exact fun q hframe => ⟨exec_fork_tagptr hp hf hrun hframe, exec_fork_dead hp hf hrun hframe,
      fun htag hlive hcaller t1 t2 t3 h1 h2 h3 => ⟨exec_fork_room hp hf hrun hframe htag hlive hcaller h1 h2 h3,
        exec_fork_full hp hf hrun hframe htag hlive hcaller h1 h2 h3⟩⟩
  case join =>
    exact fun hframe => ⟨exec_join_zero hp hrun hframe, exec_join_waits hp hrun hframe⟩
end

section
/-! Frames allocated and freed, `xcall` and `xret` (R276, R277, R280, R281, R283, R284), and O31. -/

namespace Sys2Proof.Machine

variable {s t u v z : State} {rd rs1 : XReg} {n p f : Word} {args ws : List Word} {q : Phys}

/-! ## frm.new (R283) -/

theorem newFrame_of_checked {k : Nat} {retp : Word} {gen : Gen} {ag : Agent} (halloc : allocFrame s ag k = .ok (f, t))
    (hx : xlat t ag (f + 40#64) .w = .ok (q, u)) (hfe : t.hasFe q.pa = true) (hhead : writeHeader t ag f retp gen = .ok z) :
    newFrame s ag k retp gen = .ok (f, z) := by
  rw [newFrame, halloc, ok_bind]
  dsimp only
  rw [hx, ok_bind]
  dsimp only
  rw [frameTier, need_ok hfe, ok_bind, hhead]
  rfl

section New
variable (hn : s.xr rs1 = .ok n)
include hn

theorem exec_frmNew_size (hbad : n = 0#64 ∨ 4096 < n.toNat) :
    exec (.frmNew rd rs1) s = .next (s.takeTrap { cause := 0x0D, tval := n }) := by
  have hck : (n != 0#64 && decide (n.toNat ≤ 4096)) = false := by
    rcases hbad with rfl | h
    · rfl
    · rw [decide_eq_false (Nat.not_le.2 h), Bool.and_false]
  change execFrmNew rd rs1 s = _
  rw [execFrmNew, hn, ok_bind, need_error hck]
  rfl

theorem exec_frmNew_answers (h0 : n ≠ 0#64) (hmax : n.toNat ≤ 4096) (halloc : allocFrame s s.agent n.toNat = .ok (f, t))
    (hx : xlat t s.agent (f + 40#64) .w = .ok (q, u)) (hfe : t.hasFe q.pa = true)
    (hhead : writeHeader t s.agent f 0#64 s.me.gen = .ok z) (hrd : z.xOk rd) :
    exec (.frmNew rd rs1) s = .next (z.putX rd f).retire := by
  have hck : (n != 0#64 && decide (n.toNat ≤ 4096)) = true := by rw [bne_iff_ne.2 h0, decide_eq_true hmax]; rfl
  change execFrmNew rd rs1 s = _
  rw [execFrmNew, hn, ok_bind, need_ok hck, ok_bind, newFrame_of_checked halloc hx hfe hhead, ok_bind]
  dsimp only
  rw [setX_of_xOk hrd]
  rfl

/-! ## frm.free (R284) -/

theorem exec_frmFree_unaligned (halign : n.toNat % 64 ≠ 0) :
    exec (.frmFree rs1) s = .next (s.takeTrap { cause := 0x03, tval := n }) := by
  have hck : (fld n 5 0 == 0) = false := by simpa [fld] using halign
  change execFrmFree rs1 s = _
  rw [execFrmFree, hn, ok_bind, need_error hck]
  rfl

theorem exec_frmFree_returns (halign : n.toNat % 64 = 0) (hfree : freeCheck s s.agent n = .ok t)
    (hstore : t.homeStore t.agent (n + 32#64) 0#64 = .ok u) :
    exec (.frmFree rs1) s = .next (returnFrame u t.agent.vmid t.agent.cove n).retire := by
  have hck : (fld n 5 0 == 0) = true := by simpa [fld] using halign
  change execFrmFree rs1 s = _
  rw [execFrmFree, hn, ok_bind, need_ok hck, ok_bind, hfree, ok_bind, freeFrame, hstore]
  rfl

end New

/-- A returned frame's generation moves on (R276). -/
theorem fgen_returnFrame (s : State) (vmid cove : Nat) (va : Word) :
    ((returnFrame s vmid cove va).tenant vmid).fgen ((s.tenant vmid).frameNo va)
      = (s.tenant vmid).fgen ((s.tenant vmid).frameNo va) + 1#8 := by
  rw [returnFrame, tenant_modTenant]
  exact AMap.getD_set_self _ _ _ _

/-! ## xcall (R280) -/

theorem startOrMoor_of_sent {i : Instr} {g : State → State}
    (h : postStart u u.vmid (coveOfSlot u.cur) u.myQueue p f = .sent v) : startOrMoor u i p f g = .ok (g v) := by
  delta startOrMoor
  rw [h]

section Call
variable (hp : s.xr rs1 = .ok p) (hrun : s.me.wait = .run)
include hp hrun

theorem exec_xcall_code (htag : fld p 1 0 = 0) (hx1 : s.xOk 1#5) :
    exec (.xcall rs1) s = .next ((s.putX 1#5 (s.me.pc + 4#64)).jumpTo p) := by
  change execXcall rs1 s = _
  rw [execXcall]
  dsimp only
  rw [hp, ok_bind, hrun]
  dsimp only
  rw [htag]
  rw [setX_of_xOk hx1]
  rfl

theorem exec_xcall_tag3 (htag : fld p 1 0 = 3) : exec (.xcall rs1) s = .next (s.takeTrap { cause := 0x0A, tval := p }) := by
  change execXcall rs1 s = _
  rw [execXcall]
  dsimp only
  rw [hp, ok_bind, hrun]
  dsimp only
  rw [htag]
  rfl

theorem exec_xcall_function (htag : fld p 1 0 = 1) (hargs : argRegs s = .ok args) {d : Desc} (hdesc : callDesc s p = .ok (d, t))
    (hcall : callFrame t (max 128 d.fsize.toNat) d.narg args = .ok (f, u))
    (hpost : postStart u u.vmid (coveOfSlot u.cur) u.myQueue p f = .sent v) :
    exec (.xcall rs1) s = .next (holdJoin v .result (.xcall rs1) f) := by
  change execXcall rs1 s = _
  rw [execXcall]
  dsimp only
  rw [hp, ok_bind, hrun]
  dsimp only
  rw [htag]
  refine congrArg s.commit (a₂ := .ok (holdJoin v .result (.xcall rs1) f)) ?_
  simp only [hargs, ok_bind, hdesc, hcall]
  exact startOrMoor_of_sent hpost

end Call

/-! ## xret (R281) -/

theorem eq_ok_of_bind {ε α β : Type} {x : Except ε α} {g : α → Except ε β} {b : β} (h : (x >>= g) = .ok b) :
    ∃ a, x = .ok a ∧ g a = .ok b := by
  cases x with
  | error e => cases h
  | ok a => exact ⟨a, rfl, h⟩

theorem keeps_homeLoad {ag : Agent} {va w : Word} {k : Kind} (h : s.homeLoad ag va k = .ok (w, q, t)) : keeps s t := by
  unfold State.homeLoad at h
  split at h
  · cases h
  · next hx =>
    cases h
    exact keeps_trans (keeps_xlat hx) (keeps_atHome _ _ _)

theorem keeps_homeWords {ag : Agent} {k : Nat} : ∀ {s : State} {va : Word} {ws : List Word},
    homeWords s ag va k = .ok (ws, t) → keeps s t := by
  induction k with
  | zero => rintro s va ws ⟨⟩; exact keeps_refl _
  | succ k ih =>
    intro s va ws h
    unfold homeWords at h
    split at h
    · cases h
    · next hload =>
      split at h
      · cases h
      · next hrest => cases h; exact keeps_trans (keeps_homeLoad hload) (ih hrest)

/-- The checks of a frame leave the slot as it was. -/
theorem keeps_frameWrite {k : Nat} (h : frameWrite s f k = .ok (ws, q, t)) : keeps s t := by
  obtain ⟨-, -, h⟩ := eq_ok_of_bind h
  obtain ⟨⟨ws', s1⟩, hwords, h⟩ := eq_ok_of_bind h
  obtain ⟨⟨p1, s2⟩, hx1, h⟩ := eq_ok_of_bind h
  obtain ⟨⟨p2, s3⟩, hx2, h⟩ := eq_ok_of_bind h
  obtain ⟨⟨p3, s4⟩, hx3, h⟩ := eq_ok_of_bind h
  obtain ⟨-, -, h⟩ := eq_ok_of_bind h
  cases h
  exact keeps_trans (keeps_homeWords hwords) (keeps_trans (keeps_xlat hx1) (keeps_trans (keeps_xlat hx2) (keeps_xlat hx3)))

section Ret
variable (hp : s.xr rs1 = .ok p) (hargs : argRegs s = .ok args) (hframe : frameWrite s p 128 = .ok (ws, q, t))
include hp hargs hframe

theorem exec_xret_privileged (hsup : s.me.inHandler = true ∨ s.me.sup = true) :
    exec (.xret rs1) s = .next (s.takeTrap { cause := 0x01, tval := codeOf (.xret rs1) }) := by
  have hck : (t.me.inHandler || t.me.sup) = true := by
    rw [keeps_me (keeps_frameWrite hframe), Bool.or_eq_true]
    exact hsup
  change execXret rs1 s = _
  rw [execXret]
  dsimp only
  rw [hp, ok_bind, hargs, ok_bind, hframe, ok_bind]
  dsimp only
  rw [hck]
  rfl

/-- A task's end: its results in the frame, the frame finished, and the slot idle. -/
theorem exec_xret_ends (hin : s.me.inHandler = false) (hsup : s.me.sup = false) (hlive : fld (ws.getD 4 0#64) 15 0 ≠ 0)
    (hempty : t.isFull q.pa = false) (hcaller : ws.getD 1 0#64 = 0#64)
    (hput : homePuts (t.releaseAt (coreOf t.cur) .dv) (t.releaseAt (coreOf t.cur) .dv).agent (p + 64#64) args = .ok v) :
    exec (.xret rs1) s =
      .next ((finishTask v v.vmid (coveOfSlot v.cur) p (ws.getD 0 0#64) 0#64).slotIdle v.cur) := by
  have hck : (t.me.inHandler || t.me.sup) = false := by rw [keeps_me (keeps_frameWrite hframe), hin, hsup]; rfl
  have hfull : (fld (ws.getD 4 0#64) 15 0 != 0 && !t.isFull q.pa) = true := by rw [bne_iff_ne.2 hlive, hempty]; rfl
  change execXret rs1 s = _
  rw [execXret]
  dsimp only
  rw [hp, ok_bind, hargs, ok_bind, hframe, ok_bind]
  dsimp only
  rw [hck, need_ok hfull, hcaller]
  change s.commit (homePuts (t.releaseAt (coreOf t.cur) .dv) (t.releaseAt (coreOf t.cur) .dv).agent (p + 64#64) args >>= _) = _
  rw [hput]
  rfl

end Ret

/-- The slot of a task that has ended is idle, with no task. -/
theorem slot_slotIdle (s : State) (n : Nat) : ((s.slotIdle n).slot n).wait = .idle ∧ ((s.slotIdle n).slot n).task = none := by
  rw [State.slotIdle]
  dsimp only
  rw [slot_modSlot]
  exact ⟨rfl, rfl⟩

end Sys2Proof.Machine

open Sys2Proof Sys2Proof.Machine

/-- Settles O31: each outcome of `frm.new`, `frm.free`, `xcall` and `xret`. -/
theorem framesAndCalls : Obligations.FramesAndCalls := by
  refine ⟨fun s t rd rs1 n f hn => ⟨exec_frmNew_size hn, ?alloc, exec_frmFree_unaligned hn, ?free⟩,
    fun s t u rs1 p f args ws hp hrun => ⟨exec_xcall_code hp hrun, exec_xcall_tag3 hp hrun, ?call, ?privileged, ?ends⟩⟩
  case alloc => exact fun h0 hmax _ _ _ halloc hx hfe hhead => exec_frmNew_answers hn h0 hmax halloc hx hfe hhead
  case free => exact fun halign _ hfree hstore => ⟨exec_frmFree_returns hn halign hfree hstore, fgen_returnFrame _ _ _ _⟩
  case call => exact fun _ _ htag hargs hdesc hcall => exec_xcall_function hp hrun htag hargs hdesc hcall
  case privileged => exact fun _ hsup hargs hframe => exec_xret_privileged hp hargs hframe hsup
  case ends =>
    exact fun _ _ hin hsup hargs hframe hlive hempty hcaller hput =>
      ⟨exec_xret_ends hp hargs hframe hin hsup hlive hempty hcaller hput, fun z => slot_slotIdle z z.cur⟩
end

section
/-! Copy command packets, control packets, buoy bindings and posted words (R246, R384-R391, R395-R399, R518), and O24. -/

namespace Sys2Proof.Machine

variable {s t : State} {vs : VReg} {rs1 rs2 : XReg} {w v : Word} {vw : VWord} {bu : Option (RKey × Nat × Buoy)} {i : Instr}
  {pk : List Word} {rk : RKey} {b : Nat} {y : Buoy}

/-! ## Buoy selectors (R386, R518) -/

theorem needBuoy_of_bit (hbit : w.getLsbD 3 = true) (hlow : fld w 7 4 = 0) (away : Bool) :
    needBuoy i s w away = match buoyOf s (fld w 2 0) away with
      | some b => .ok b
      | none => .error { cause := 0x07, tval := w } := by
  have hck : (!bitAt w 3 || fld w 7 4 != 0) = false := by rw [bitAt, hbit, hlow]; rfl
  rw [needBuoy, hck]
  rfl

theorem needBuoy_of_some (hbit : w.getLsbD 3 = true) (hlow : fld w 7 4 = 0) {away : Bool} {r : RKey × Nat × Buoy}
    (h : buoyOf s (fld w 2 0) away = some r) : needBuoy i s w away = .ok r := by
  rw [needBuoy_of_bit hbit hlow, h]

theorem needBuoy_of_none (hbit : w.getLsbD 3 = true) (hlow : fld w 7 4 = 0) {away : Bool} (h : buoyOf s (fld w 2 0) away = none) :
    needBuoy i s w away = .error { cause := 0x07, tval := w } := by
  rw [needBuoy_of_bit hbit hlow, h]

/-! ## Command packets (R246, R384-R390) -/

/-- The sixteen words of a packet in a vector register. -/
def packetWords (v : VWord) : List Word := (List.range 16).map fun k => w64 (v.toNat / 2 ^ (64 * k))

/-- The command that a slot posts. -/
def postedCmd (t : State) (pk : List Word) (bu : Option (RKey × Nat × Buoy)) : CopyCmd :=
  { id := 0, pk := pk, vmid := t.vmid, troot := t.me.troot, sup := t.me.sup, gen := t.me.gen, trap := t.me.trapMode
    slot := some t.cur, rk := bu.map (·.1), buoy := bu.map (·.2.1) }

/-- What a checked packet does: a control packet acts, a copy is queued or waits for a free entry. -/
def postedTo (t : State) (i : Instr) (pk : List Word) (bu : Option (RKey × Nat × Buoy)) : State :=
  if cpOp pk = 3 then (applyControl (t.releaseAt (coreOf t.cur) .dv) (coveOfSlot t.cur) (postedCmd t pk bu)).retire
  else if !copyRoom t (coveOfSlot t.cur) then t.holdOn .cpFull i 0#64
  else (enqueueCopy (t.releaseAt (coreOf t.cur) .dv) (coveOfSlot t.cur) (postedCmd t pk bu)).retire

/-- The stream register that a copy to a queue names is free to bind. -/
def feedFree (s : State) (pk : List Word) : Prop :=
  cpOp pk ≠ 3 → cpDst pk = 5 → (AMap.getD s.me.q (fld (pkW pk 8) 2 0) {}).gen ≠ 0xFFFF#16 ∧
    ((AMap.getD s.me.q (fld (pkW pk 8) 2 0) {}).bnd = false ∨ (AMap.getD s.me.q (fld (pkW pk 8) 2 0) {}).gen ≠ s.me.gen)

theorem exec_of_packet (hi : i ∈ [Instr.cpPost vs rs1, .cpResume vs rs1, .cpCancel vs rs1]) :
    exec i s = s.commit (copyStep i vs rs1 s) := by
  simp only [List.mem_cons, List.not_mem_nil, or_false] at hi
  obtain rfl | rfl | rfl := hi <;> rfl

/-- A packet goes with no buoy, or with one of the slot's cove. -/
def buoyGiven (s : State) (w : Word) (bu : Option (RKey × Nat × Buoy)) : Prop :=
  w = 0#64 ∧ bu = none ∨ w ≠ 0#64 ∧ w.getLsbD 3 = true ∧ fld w 7 4 = 0 ∧ bu.isSome ∧ bu = buoyOf s (fld w 2 0) false

theorem givenBuoy_bind {α : Type} (h : buoyGiven s w bu) (g : Option (RKey × Nat × Buoy) → Except Trap α) :
    (if w = 0#64 then (.ok none : Except Trap (Option (RKey × Nat × Buoy))) >>= g else (needBuoy i s w false).map some >>= g) = g bu := by
  obtain ⟨hw, rfl⟩ | ⟨hw, hbit, hlow, hsome, hbu⟩ := h
  · exact if_pos hw
  · obtain ⟨b, rfl⟩ := Option.isSome_iff_exists.1 hsome
    rw [if_neg hw, needBuoy_of_some hbit hlow hbu.symm]
    rfl

theorem checkPacket_of_illegal {ck : CopyCk} (h : cpIllegal ck pk = true) : checkPacket ck pk = .error ck.ill := by
  rw [checkPacket, if_pos h]
  rfl

/-- The check of a copy that feeds a stream register. -/
theorem feedOk_bind {α : Type} (h : feedFree s pk) (g : Unit → Except Trap α) :
    (if cpOp pk ≠ 3 ∧ cpDst pk = 5 then do
        stampWrite (AMap.getD s.me.q (fld (pkW pk 8) 2 0) {}).gen () (qrTval 0 (fld (pkW pk 8) 2 0))
        let r ← need (!((AMap.getD s.me.q (fld (pkW pk 8) 2 0) {}).bnd && (AMap.getD s.me.q (fld (pkW pk 8) 2 0) {}).gen == s.me.gen))
          cQUEUE (w64 (fld (pkW pk 8) 2 0))
        g r
      else g ()) = g () := by
  split
  · next hc =>
    obtain ⟨hgen, hfree⟩ := h hc.1 hc.2
    rw [stampWrite, if_neg hgen, ok_bind, need_ok, ok_bind]
    rcases hfree with hb | hg
    · rw [hb]; rfl
    · rw [beq_false_of_ne hg, Bool.and_false]; rfl
  · rfl

section Packet
variable (hw : s.xr rs1 = .ok w) (hv : s.vr vs = .ok vw) (hhigh : fld w 63 8 = 0) (hbu : buoyGiven s w bu)
include hw hv hhigh hbu

theorem copyStep_illegal
    (hill : cpIllegal { ill := { cause := 0x01, tval := codeOf i }, buoy := bu, node := false } (packetWords vw) = true) :
    copyStep i vs rs1 s = .error { cause := 0x01, tval := codeOf i } := by
  rw [copyStep, hw, ok_bind, hv, ok_bind, if_neg (not_not.2 hhigh)]
  refine (givenBuoy_bind hbu _).trans ?_
  exact congrArg (· >>= _) (checkPacket_of_illegal hill)

theorem copyStep_checked
    (hck : checkPacket { ill := { cause := 0x01, tval := codeOf i }, buoy := bu, node := false } (packetWords vw) = .ok ())
    (hcw : checkCw s { s.agent with core := none } (packetWords vw) = .ok t) (hfeed : feedFree s (packetWords vw)) :
    copyStep i vs rs1 s = .ok (postedTo t i (packetWords vw) bu) := by
  rw [copyStep, hw, ok_bind, hv, ok_bind, if_neg (not_not.2 hhigh)]
  refine (givenBuoy_bind hbu _).trans ?_
  refine (congrArg (· >>= _) hck).trans ?_
  dsimp only [ok_bind]
  refine (feedOk_bind hfeed _).trans ?_
  refine (congrArg (· >>= _) hcw).trans ?_
  unfold postedTo
  dsimp only [ok_bind]
  split
  · next hop => exact congrArg Except.ok (if_pos hop).symm
  · next hop =>
    refine Eq.trans ?_ (congrArg Except.ok (if_neg hop).symm)
    split <;> rfl

variable (hi : i ∈ [Instr.cpPost vs rs1, .cpResume vs rs1, .cpCancel vs rs1])
include hi

theorem exec_packet_illegal
    (hill : cpIllegal { ill := { cause := 0x01, tval := codeOf i }, buoy := bu, node := false } (packetWords vw) = true) :
    exec i s = .next (s.takeTrap { cause := 0x01, tval := codeOf i }) := by
  rw [exec_of_packet hi, copyStep_illegal hw hv hhigh hbu hill, commit_error]

variable (hck : checkPacket { ill := { cause := 0x01, tval := codeOf i }, buoy := bu, node := false } (packetWords vw) = .ok ())
  (hcw : checkCw s { s.agent with core := none } (packetWords vw) = .ok t) (hfeed : feedFree s (packetWords vw))
include hck hcw hfeed

theorem exec_packet_queued (hop : cpOp (packetWords vw) ≠ 3) (hroom : (t.cove (coveOfSlot t.cur)).cmds.length < 32) :
    exec i s = .next (enqueueCopy (t.releaseAt (coreOf t.cur) .dv) (coveOfSlot t.cur) (postedCmd t (packetWords vw) bu)).retire := by
  rw [exec_of_packet hi, copyStep_checked hw hv hhigh hbu hck hcw hfeed, commit_ok, postedTo, if_neg hop, copyRoom,
    decide_eq_true hroom]
  rfl

theorem exec_packet_full (hop : cpOp (packetWords vw) ≠ 3) (hfull : 32 ≤ (t.cove (coveOfSlot t.cur)).cmds.length) :
    exec i s = .next (t.holdOn .cpFull i 0#64) := by
  rw [exec_of_packet hi, copyStep_checked hw hv hhigh hbu hck hcw hfeed, commit_ok, postedTo, if_neg hop, copyRoom,
    decide_eq_false (Nat.not_lt.2 hfull)]
  rfl

theorem exec_packet_control (hop : cpOp (packetWords vw) = 3) :
    exec i s = .next (applyControl (t.releaseAt (coreOf t.cur) .dv) (coveOfSlot t.cur) (postedCmd t (packetWords vw) bu)).retire := by
  rw [exec_of_packet hi, copyStep_checked hw hv hhigh hbu hck hcw hfeed, commit_ok, postedTo, if_pos hop]

end Packet

/-! ## Control packets (R391, R399) -/

section Control
variable {r : State} {cove : Nat} {c k : CopyCmd}

/-- The completion word of a control packet, where it names one (log 16). -/
def answered (u : State) (cove : Nat) (c : CopyCmd) (st : Word) : State := if cpCw c.pk = 0#64 then u else writeCw u cove c st

/-- The command that a control packet of `c` names. -/
def controlTarget (r : State) (cove : Nat) (c : CopyCmd) : Option CopyCmd :=
  (r.cove cove).cmds.find? fun k => k.vmid == c.vmid && cpCw k.pk == pkW c.pk 4 && pkW c.pk 4 != 0#64

theorem applyControl_no_target (h : controlTarget r cove c = none) : applyControl r cove c = answered r cove c 0xFD#64 := by
  dsimp only [controlTarget] at h
  dsimp only [applyControl]
  rw [h]
  rfl

section Target
variable (htarget : controlTarget r cove c = some k)
include htarget

theorem applyControl_target :
    applyControl r cove c = answered (if cpAct c.pk = 1 then resumeCmd r cove k.id else cancelCmd r cove k.id) cove c 0#64 := by
  dsimp only [controlTarget] at htarget
  dsimp only [applyControl]
  rw [htarget]
  rfl

variable (hcmd : r.cmd? cove k.id = some k)
include hcmd

theorem applyControl_resumes (hact : cpAct c.pk = 1) (hst : k.st = .paused) :
    applyControl r cove c = answered ((modFeed ((emptyCw r cove k).modCmd cove k.id fun o => { o with st := .running, status := 0#8 }) k
      fun q => { q with flt := false, cause := 0#8 }).onceAfter 1 (.copyBeat cove)) cove c 0#64 := by
  rw [applyControl_target htarget, if_pos hact, resumeCmd, hcmd]
  exact congrArg (answered · cove c 0#64) (if_pos hst)

theorem applyControl_resumes_nothing (hact : cpAct c.pk = 1) (hst : k.st ≠ .paused) :
    applyControl r cove c = answered r cove c 0#64 := by
  rw [applyControl_target htarget, if_pos hact, resumeCmd, hcmd]
  exact congrArg (answered · cove c 0#64) (if_neg hst)

theorem applyControl_cancels (hact : cpAct c.pk = 2) (hst : k.st ≠ .ending) :
    applyControl r cove c = answered (copyEnd r cove k.id 0xFE#8) cove c 0#64 := by
  rw [applyControl_target htarget, hact, if_neg (by decide), cancelCmd, hcmd]
  exact congrArg (answered · cove c 0#64) (if_neg hst)

theorem applyControl_cancels_nothing (hact : cpAct c.pk = 2) (hst : k.st = .ending) :
    applyControl r cove c = answered r cove c 0#64 := by
  rw [applyControl_target htarget, hact, if_neg (by decide), cancelCmd, hcmd]
  exact congrArg (answered · cove c 0#64) (if_pos hst)

end Target
end Control

/-! ## cp.bind and post (R395-R398, R518) -/

/-- The binding that a `cp.bind` gives: the one its operand names, else the image's own. -/
def newBinding (v : Word) (y : Buoy) : Binding :=
  if v.getLsbD 0 then { inward := !v.getLsbD 3, tagged := v.getLsbD 4, bind := v.extractLsb' 1 2, sva := v &&& ~~~0xFF#64 } else y.img

section Bind
variable (hw : s.xr rs1 = .ok w) (hv : s.xr rs2 = .ok v) (hbit : w.getLsbD 3 = true) (hlow : fld w 7 4 = 0)
include hw hv hbit hlow

theorem execCpBind_eq (hhigh : fld w 63 8 = 0) (hres : fld v 7 5 = 0) (hsva : fld v 2 1 = 0 ∨ v &&& ~~~0xFF#64 = 0#64)
    (hcan : canonical (v &&& ~~~0xFF#64) = true) (hbuoy : buoyOf s (fld w 2 0) false = some (rk, b, y))
    (himg : v.getLsbD 0 = true → fld v 2 1 = 3 → y.img.bind = 3#2) :
    exec (.cpBind rs1 rs2) s = .next (if buoyBusy s rk b then s.holdOn .cpFull (.cpBind rs1 rs2) 0#64
      else (bindBuoy s rk b y (newBinding v y)).retire) := by
  have hsel : ¬ ((!bitAt w 3 || decide (fld w 7 4 ≠ 0)) = true) := by rw [bitAt, hbit, hlow]; decide
  have hval : ¬ (fld v 7 5 ≠ 0 ∨ (fld v 2 1 ≠ 0 ∧ v &&& ~~~0xFF#64 ≠ 0#64) ∨ (!canonical (v &&& ~~~0xFF#64)) = true) := by
    rintro (h | ⟨h1, h2⟩ | h)
    · exact h hres
    · exact hsva.elim h1 h2
    · rw [hcan] at h
      cases h
  have hperm : (!(bitAt v 0 && fld v 2 1 == 3 && y.img.bind != 3#2)) = true := by
    by_cases hb : v.getLsbD 0 = true <;> by_cases hf : fld v 2 1 = 3 <;> simp_all [bitAt]
  change execCpBind rs1 rs2 s = _
  rw [execCpBind, hw, ok_bind, hv, ok_bind]
  dsimp only
  rw [if_neg (not_not.2 hhigh), if_neg hsel, if_neg hval, needBuoy_of_some hbit hlow hbuoy, ok_bind]
  dsimp only
  rw [need_ok hperm, ok_bind]
  split <;> rfl

/-- A posted word goes to the buoy as a normal token with what the selector word names (R398). -/
def postedToken (w v : Word) : Token :=
  { payload := v, ftag := Fmt.ofCode (w.extractLsb' 8 3)
    ctx := { frame := w.extractLsb' 32 24, fgen := w.extractLsb' 56 8 }
    iter := w.extractLsb' 16 16, dx := 0#6, dy := 0#6, dslot := 0#3, didx := 0#7, dop := 0#2, act := .normal }

theorem exec_post_inward (hres : fld w 15 11 = 0) (hbuoy : buoyOf s (fld w 2 0) true = some (rk, b, y)) (hin : y.cur.inward = true)
    (hbound : y.cur.bind ≠ 3#2) :
    exec (.post rs1 rs2) s = .next
      (s.after (meshClk (coveOfSlot s.cur) (buoyCove s rk b)) (.buoyTokenArrival rk b (postedToken w v) none)).retire := by
  change execPost rs1 rs2 s = _
  rw [execPost, hw, ok_bind, hv, ok_bind, if_neg (not_not.2 hres), needBuoy_of_some hbit hlow hbuoy, ok_bind]
  dsimp only
  rw [need_ok (by rw [hin, bne_iff_ne.2 hbound]; rfl)]
  rfl

theorem exec_post_outward (hres : fld w 15 11 = 0) (hbuoy : buoyOf s (fld w 2 0) true = some (rk, b, y))
    (hout : y.cur.inward = false ∨ y.cur.bind = 3#2) : exec (.post rs1 rs2) s = .next (s.takeTrap { cause := 0x07, tval := w }) := by
  have hck : (y.cur.inward && y.cur.bind != 3#2) = false := by
    rcases hout with h | h
    · rw [h]; rfl
    · rw [h, Bool.and_eq_false_iff]; exact .inr rfl
  change execPost rs1 rs2 s = _
  rw [execPost, hw, ok_bind, hv, ok_bind, if_neg (not_not.2 hres), needBuoy_of_some hbit hlow hbuoy, ok_bind]
  dsimp only
  rw [need_error hck]
  rfl

theorem exec_post_no_buoy (hres : fld w 15 11 = 0) (hbuoy : buoyOf s (fld w 2 0) true = none) :
    exec (.post rs1 rs2) s = .next (s.takeTrap { cause := 0x07, tval := w }) := by
  change execPost rs1 rs2 s = _
  rw [execPost, hw, ok_bind, hv, ok_bind, if_neg (not_not.2 hres), needBuoy_of_none hbit hlow hbuoy]
  rfl

end Bind

end Sys2Proof.Machine

open Sys2Proof Sys2Proof.Machine

/-- Settles O24: packets, control packets, buoy bindings and posted words, each by its outcomes. What a completion word holds while its
command runs is the model's choice (log 16). -/
theorem copyCommandsAndBuoys : Obligations.CopyCommandsAndBuoys := by
  refine ⟨fun s t vs rs1 w v bu hw hv hhigh hbu i hi => ⟨exec_packet_illegal hw hv hhigh hbu hi, fun hck hcw hfeed =>
      ⟨exec_packet_queued hw hv hhigh hbu hi hck hcw hfeed, exec_packet_full hw hv hhigh hbu hi hck hcw hfeed,
        fun hop => ⟨exec_packet_control hw hv hhigh hbu hi hck hcw hfeed hop, ?noTarget, ?control⟩⟩⟩,
    fun s rs1 rs2 w v rk b y hw hv hbit hlow => ⟨?bind, ?post, ?noBuoy⟩⟩
  case noTarget =>
    exact applyControl_no_target (r := t.releaseAt (coreOf t.cur) .dv) (c := postedCmd t (packetWords v) bu)
  case control =>
    intro k htarget hcmd
    replace htarget : controlTarget (t.releaseAt (coreOf t.cur) .dv) (coveOfSlot t.cur) (postedCmd t (packetWords v) bu) = some k :=
      htarget
    exact ⟨applyControl_resumes htarget hcmd, applyControl_resumes_nothing htarget hcmd,
      applyControl_cancels htarget hcmd, applyControl_cancels_nothing htarget hcmd⟩
  case bind =>
    intro hhigh hres hsva hcan hbuoy himg
    have hexec := execCpBind_eq hw hv hbit hlow hhigh hres hsva hcan hbuoy himg
    exact ⟨fun hfree => by rw [hexec, hfree]; rfl, fun hbusy => by rw [hexec, hbusy]; rfl⟩
  case post =>
    exact fun hres hbuoy => ⟨exec_post_inward hw hv hbit hlow hres hbuoy, exec_post_outward hw hv hbit hlow hres hbuoy⟩
  case noBuoy => exact fun hbuoy hres => exec_post_no_buoy hw hv hbit hlow hres hbuoy
end

section
/-! Step replay (R400-R408): what a probe reads, decides and keeps, records, invalidation and counters, and O27. -/

namespace Sys2Proof.Machine

variable {s t u y z : State} {ag : Agent} {quad vmid key step age : Nat} {d : RDesc} {x : List Byte} {e : ReplayKey}

/-! ## Steps that leave the slots alone -/

/-- The slots and the slot that runs are the same. -/
def slotsKept (s t : State) : Prop := t.slots = s.slots ∧ t.cur = s.cur

theorem slotsKept_refl (s : State) : slotsKept s s := ⟨rfl, rfl⟩

theorem slotsKept_trans (h : slotsKept s t) (g : slotsKept t u) : slotsKept s u := ⟨g.1.trans h.1, g.2.trans h.2⟩

theorem slotsKept_of_keeps (h : keeps s t) : slotsKept s t := ⟨keeps_slots h, keeps_cur h⟩

theorem me_of_slotsKept (h : slotsKept s t) : t.me = s.me := by
  rw [State.me, State.me, State.slot, State.slot, h.1, h.2]

theorem xOk_of_slotsKept (h : slotsKept s t) {r : XReg} (hr : s.xOk r) : t.xOk r := by
  rwa [State.xOk, me_of_slotsKept h]

theorem slotsKept_foldl {α : Type} {f : State → α → State} (h : ∀ s a, slotsKept s (f s a)) (l : List α) (s : State) :
    slotsKept s (l.foldl f s) := by
  induction l generalizing s with
  | nil => exact slotsKept_refl s
  | cons a l ih => exact slotsKept_trans (h s a) (ih _)

theorem retire_slots_of_slotsKept (h : slotsKept s t) : t.retire.slots = s.retire.slots := by
  have hslots : ∀ u : State, u.retire.slots = AMap.set u.slots u.cur (u.me.goto (u.me.pc + 4#64)) := fun _ => rfl
  rw [hslots, hslots, me_of_slotsKept h, h.1, h.2]

theorem slotsKept_setRkey : slotsKept s (s.setRkey quad vmid key e) := ⟨rfl, rfl⟩
theorem slotsKept_countSrp {c : Nat} : slotsKept s (s.countSrp quad vmid c) := ⟨rfl, rfl⟩

/-! ## Memory ranges (R401, R404) -/

theorem keeps_homeStore {va w : Word} (h : s.homeStore ag va w = .ok t) : keeps s t := by
  unfold State.homeStore at h
  split at h
  · cases h
  · next hx => cases h; exact keeps_trans (keeps_xlat hx) (keeps_putHome _ _ _ _)

theorem keeps_homePuts {ws : List Word} : ∀ {s : State} {va : Word}, homePuts s ag va ws = .ok t → keeps s t := by
  induction ws with
  | nil => rintro s va ⟨⟩; exact keeps_refl _
  | cons w ws ih =>
    intro s va h
    unfold homePuts at h
    split at h
    · cases h
    · next hstore => exact keeps_trans (keeps_homeStore hstore) (ih h)

theorem keeps_ringAppend {base : Word} {ws : List Word} (h : ringAppend s ag base ws = some t) : keeps s t := by
  unfold ringAppend at h
  split at h
  · next hwords =>
    dsimp only at h
    split at h
    · cases h
    · split at h
      · cases h
      · split at h
        · cases h
        · next hputs =>
          split at h
          · next hstore => cases h; exact keeps_trans (keeps_homeWords hwords) (keeps_trans (keeps_homePuts hputs) (keeps_homeStore hstore))
          · cases h
  · cases h

theorem slotsKept_trace {c un code : Nat} {a b : Word} : slotsKept s (s.trace vmid c un code a b) := by
  unfold State.trace
  dsimp only
  split
  · exact slotsKept_refl s
  · split
    · next hring => exact slotsKept_of_keeps (keeps_ringAppend hring)
    · exact ⟨rfl, rfl⟩

theorem keeps_rangeWritable {n : Nat} : ∀ {s : State} {va : Word} {k : Nat}, rangeWritable ag n s va k = .ok t → keeps s t := by
  induction n with
  | zero => rintro s va k ⟨⟩; exact keeps_refl _
  | succ n ih =>
    intro s va k h
    unfold rangeWritable at h
    split at h
    · cases h; exact keeps_refl _
    · dsimp only at h
      split at h
      · cases h
      · next hx =>
        split at h
        · exact keeps_trans (keeps_translate hx) (ih h)
        · cases h

theorem keeps_rangeRead {n : Nat} : ∀ {s : State} {va : Word} {k : Nat} {x : List Byte},
    rangeRead ag n s va k = .ok (x, t) → keeps s t := by
  induction n with
  | zero => rintro s va k x ⟨⟩; exact keeps_refl _
  | succ n ih =>
    intro s va k x h
    unfold rangeRead at h
    split at h
    · cases h; exact keeps_refl _
    · dsimp only at h
      split at h
      · cases h
      · next hx =>
        split at h
        · cases h
        · next hrest => cases h; exact keeps_trans (keeps_xlat hx) (keeps_trans (keeps_atHome _ _ _) (ih hrest))

theorem keeps_rangeEmpty {n : Nat} : ∀ {s : State} {va : Word}, keeps s (rangeEmpty ag n s va).2 := by
  induction n with
  | zero => exact keeps_refl _
  | succ n ih =>
    intro s va
    unfold rangeEmpty
    split
    · exact keeps_refl _
    · next hx =>
      exact keeps_trans (keeps_xlat hx) (keeps_trans (keeps_atHome _ _ _) (keeps_trans
        (keeps_foldl (fun _ _ => keeps_setEmpty _ _) _ _) ih))

theorem keeps_readRDesc {ill : Trap} {va : Word} (h : readRDesc s ag ill va = .ok (d, t)) : keeps s t := by
  obtain ⟨-, -, h⟩ := eq_ok_of_bind h
  obtain ⟨⟨ws, s1⟩, hwords, h⟩ := eq_ok_of_bind h
  dsimp only at h
  split at h
  · cases h
  · obtain ⟨-, -, h⟩ := eq_ok_of_bind h
    obtain ⟨-, -, h⟩ := eq_ok_of_bind h
    cases h
    exact keeps_homeWords hwords

/-! ## The storage of a key (R400, R402) -/

theorem slotsKept_evictKeys {size n : Nat} : ∀ {s : State}, slotsKept s (evictKeys quad vmid key size n s) := by
  induction n with
  | zero => exact slotsKept_refl _
  | succ n ih =>
    intro s
    unfold evictKeys
    dsimp only
    split
    · exact slotsKept_refl s
    · split
      · exact slotsKept_refl s
      · exact slotsKept_trans (slotsKept_trans slotsKept_setRkey slotsKept_countSrp) ih

theorem slotsKept_takeRef : slotsKept s (takeRef s quad vmid key d x step age).2 := by
  have hevict : ∀ size, slotsKept s (evictKeys quad vmid key size 4096 (s.setRkey quad vmid key { age := age })) :=
    fun _ => slotsKept_trans slotsKept_setRkey slotsKept_evictKeys
  unfold takeRef
  dsimp only
  split
  · exact slotsKept_trans (hevict _) slotsKept_setRkey
  · exact hevict _

theorem slotsKept_startReplay : slotsKept s (startReplay s ag quad key d e) := by
  have hempty : slotsKept s (rangeEmpty ag (d.osize / 64) s d.ova).2 := slotsKept_of_keeps keeps_rangeEmpty
  unfold startReplay
  split
  · next h => rw [h] at hempty; exact slotsKept_trans hempty slotsKept_setRkey
  · next h => rw [h] at hempty; exact slotsKept_trans hempty ⟨rfl, rfl⟩

/-! ## Verdicts (R402, R403) -/

/-- Why a probe is forced: its entry's shape, a step that does not follow, a record awaited, too long a run; 0 where it is not. -/
def forcedReason (e : ReplayKey) (d : RDesc) (step : Nat) : Nat :=
  if !(e.valid && sameShape e d) then 4 else if step ≤ e.lstep then 1 else if e.pend then 3 else if d.runmax ≤ e.run then 2 else 0

/-- The metric of an input against the entry's reference. -/
def metricOf (e : ReplayKey) (d : RDesc) (x : List Byte) : Nat :=
  replayMetric d.metric d.fmt (elemsOf d.esz d.icnt x) (elemsOf d.esz d.icnt e.refb)

/-- The metric does not exceed THR. -/
def nearRef (e : ReplayKey) (d : RDesc) (x : List Byte) : Bool := (compare .fp32 32 .le (metricOf e d x) d.thr).1

/-- The verdict on an input and what it leaves. -/
def judged (s : State) (ag : Agent) (quad key step age : Nat) (d : RDesc) (x : List Byte) (e : ReplayKey) : Word × State :=
  let taken := takeRef s quad ag.vmid key d x step age
  if forcedReason e d step ≠ 0 then
    (verdictWord 2 (if taken.1 then forcedReason e d step else 5) 0, taken.2.countSrp quad ag.vmid 3)
  else if nearRef e d x then
    (verdictWord 1 0 (metricOf e d x), startReplay ((s.setRkey quad ag.vmid key { e with age := age, run := e.run + 1, lstep := step }).countSrp
      quad ag.vmid 1) ag quad key d { e with age := age, run := e.run + 1, lstep := step })
  else if taken.1 then (verdictWord 0 0 (metricOf e d x), taken.2.countSrp quad ag.vmid 2)
  else (verdictWord 2 5 0, taken.2.countSrp quad ag.vmid 3)

theorem judged_forced {r : Nat} (hr : forcedReason e d step = r) (h0 : r ≠ 0) :
    (judged s ag quad key step age d x e).1 = verdictWord 2 r 0 ∨ (judged s ag quad key step age d x e).1 = verdictWord 2 5 0 := by
  subst hr
  dsimp only [judged]
  rw [if_pos h0]
  cases (takeRef s quad ag.vmid key d x step age).1
  · exact .inr rfl
  · exact .inl rfl

theorem judged_near (hr : forcedReason e d step = 0) (hnear : nearRef e d x = true) :
    (judged s ag quad key step age d x e).1 = w64 (metricOf e d x * 2 ^ 32 + 1) := by
  dsimp only [judged]
  rw [if_neg (not_not.2 hr), if_pos hnear]
  simp only [verdictWord, Nat.zero_mul, Nat.add_zero]

theorem judged_far (hr : forcedReason e d step = 0) (hfar : nearRef e d x = false) :
    (judged s ag quad key step age d x e).1 = w64 (metricOf e d x * 2 ^ 32)
      ∨ (judged s ag quad key step age d x e).1 = verdictWord 2 5 0 := by
  dsimp only [judged]
  rw [if_neg (not_not.2 hr), hfar, if_neg Bool.false_ne_true]
  split
  · exact .inl (by simp only [verdictWord, Nat.zero_mul, Nat.add_zero])
  · exact .inr rfl

theorem slotsKept_judged : slotsKept s (judged s ag quad key step age d x e).2 := by
  dsimp only [judged]
  split
  · exact slotsKept_trans slotsKept_takeRef slotsKept_countSrp
  · split
    · exact slotsKept_trans (slotsKept_trans slotsKept_setRkey slotsKept_countSrp) slotsKept_startReplay
    · split
      · exact slotsKept_trans slotsKept_takeRef slotsKept_countSrp
      · exact slotsKept_trans slotsKept_takeRef slotsKept_countSrp

section Reason
variable {n : Nat}

theorem forcedReason_shape (h : ¬ (e.valid = true ∧ sameShape e d = true)) : forcedReason e d n = 4 := by
  rw [← Bool.and_eq_true] at h
  rw [forcedReason, if_pos (by rw [Bool.eq_false_of_not_eq_true h]; rfl)]

variable (h : e.valid = true ∧ sameShape e d = true)
include h

theorem forcedReason_of_shape :
    forcedReason e d n = if n ≤ e.lstep then 1 else if e.pend then 3 else if d.runmax ≤ e.run then 2 else 0 := by
  rw [forcedReason, h.1, h.2]
  rfl

theorem forcedReason_step (hstep : n ≤ e.lstep) : forcedReason e d n = 1 := by
  rw [forcedReason_of_shape h, if_pos hstep]

variable (hstep : e.lstep < n)
include hstep

theorem forcedReason_pend (hpend : e.pend = true) : forcedReason e d n = 3 := by
  rw [forcedReason_of_shape h, if_neg (Nat.not_le.2 hstep), if_pos hpend]

variable (hpend : e.pend = false)
include hpend

theorem forcedReason_run (hrun : d.runmax ≤ e.run) : forcedReason e d n = 2 := by
  rw [forcedReason_of_shape h, if_neg (Nat.not_le.2 hstep), hpend, if_neg Bool.false_ne_true, if_pos hrun]

theorem forcedReason_none (hrun : e.run < d.runmax) : forcedReason e d n = 0 := by
  rw [forcedReason_of_shape h, if_neg (Nat.not_le.2 hstep), hpend, if_neg Bool.false_ne_true, if_neg (Nat.not_le.2 hrun)]

end Reason

/-- The age of the newest probe of an engine. -/
def newestAge (s : State) (quad : Nat) : Nat := 1 + (s.quad quad).keys.foldl (fun n k => max n k.2.age) 0

/-- A tenant's firings no longer remember a probe of a key (R411). -/
def forgotten (s : State) (quad vmid key : Nat) : State :=
  { s with regions := AMap.mapV s.regions fun k r =>
    if k / 256 = vmid ∧ handleQuad r.handle = quad then { r with memos := r.memos.filter fun m => m.key != key } else r }

/-- What a probe decides, once its input is read. -/
def probed (y : State) (ag : Agent) (quad key step : Nat) (d : RDesc) (x : List Byte) : Word × State :=
  judged (y.countSrp quad ag.vmid 0) ag quad key step (newestAge (y.countSrp quad ag.vmid 0) quad) d x (y.rkey quad ag.vmid key)

/-- The state that a probe leaves. -/
def afterProbe (y : State) (ag : Agent) (quad key step : Nat) (d : RDesc) (x : List Byte) : State :=
  let o := probed y ag quad key step d x
  (forgotten o.2 quad ag.vmid key).trace ag.vmid 3 quad 0 (w64 key) o.1

/-- The clk until a probe's slot returns. -/
def probeClks (e : ReplayKey) (d : RDesc) : Nat := Config.nearClk + (if e.valid && sameShape e d then 2 * d.inBytes else d.inBytes) / 128

theorem rkey_countSrp {c : Nat} : (s.countSrp quad vmid c).rkey quad vmid key = s.rkey quad vmid key := by
  simp [State.countSrp, State.rkey]

theorem probeKey_of_reads {ill : Trap} {va : Word} (hdesc : readRDesc s ag ill va = .ok (d, t))
    (hout : rangeWritable ag (d.osize / 65536 + 2) t d.ova d.osize = .ok u)
    (hin : rangeRead ag (d.inBytes / 64 + 2) u d.iva d.inBytes = .ok (x, y)) :
    probeKey s ag quad ill key step va =
      .ok ((probed y ag quad key step d x).1, probeClks (y.rkey quad ag.vmid key) d, afterProbe y ag quad key step d x) := by
  rw [probeKey, hdesc, ok_bind]
  dsimp only
  rw [hout, ok_bind, hin, ok_bind]
  dsimp only
  rw [rkey_countSrp]
  rfl

/-! ## Keys and areas (R400, R408) -/

section Instructions
variable {rd rs1 rs2 : XReg} {n k va : Word}

theorem fld_high_of_lt {w : Word} {b : Nat} (h : w.toNat < 2 ^ b) : fld w 63 b = 0 := by
  rw [fld, Nat.div_eq_of_lt h, Nat.zero_mod]

theorem keyOf_of_lt (h : k.toNat < 4096) (i : Instr) : keyOf i k = .ok k.toNat :=
  if_neg (not_not.2 (fld_high_of_lt (b := 12) h))

theorem keyOf_of_ge (h : 4096 ≤ k.toNat) (i : Instr) : keyOf i k = .error { cause := 0x01, tval := codeOf i } := by
  have hfld : fld k 63 12 ≠ 0 := by
    have := k.isLt
    simp only [fld]
    omega
  exact if_pos hfld

theorem areaOk_of_area (hrepl : (s.tenant vmid).args.repl ≠ 0#64) (hsize : (s.tenant vmid).args.replsz ≠ 0#64)
    (hfree : (s.quad quad).rfenced = false) : areaOk s quad vmid key = .ok () :=
  need_ok (by rw [bne_iff_ne.2 hrepl, bne_iff_ne.2 hsize, hfree]; rfl) _ _

theorem areaOk_of_no_area (h : (s.tenant vmid).args.repl = 0#64 ∨ (s.tenant vmid).args.replsz = 0#64) :
    areaOk s quad vmid key = .error { cause := 0x18, tval := w64 key } := by
  refine need_error ?_ _ _
  rcases h with h | h <;> rw [h] <;> simp

/-! ## The instructions (R398, R405-R408) -/

section Registers
variable (hk : s.xr rs1 = .ok k)
include hk

theorem exec_srpInv_key (hkey : 4096 ≤ k.toNat) :
    exec (.srpInv rs1) s = .next (s.takeTrap { cause := 0x01, tval := codeOf (.srpInv rs1) }) := by
  change execSrpInv rs1 s = _
  rw [execSrpInv, hk, ok_bind, keyOf_of_ge hkey]
  rfl

variable (hva : s.xr rs2 = .ok va)
include hva

theorem exec_srpRec_key (hkey : 4096 ≤ k.toNat) :
    exec (.srpRec rs1 rs2) s = .next (s.takeTrap { cause := 0x01, tval := codeOf (.srpRec rs1 rs2) }) := by
  change execSrpRec rs1 rs2 s = _
  rw [execSrpRec]
  dsimp only
  rw [hk, ok_bind, hva, ok_bind, keyOf_of_ge hkey]
  rfl

theorem exec_srpRec_no_area (hkey : k.toNat < 4096)
    (harea : (s.tenant s.vmid).args.repl = 0#64 ∨ (s.tenant s.vmid).args.replsz = 0#64) :
    exec (.srpRec rs1 rs2) s = .next (s.takeTrap { cause := 0x18, tval := w64 k.toNat }) := by
  change execSrpRec rs1 rs2 s = _
  rw [execSrpRec]
  dsimp only
  rw [hk, ok_bind, hva, ok_bind, keyOf_of_lt hkey, ok_bind, areaOk_of_no_area harea]
  rfl

/-- A record is taken once its descriptor has been read. -/
theorem exec_srpRec_records (hkey : k.toNat < 4096) (harea : areaOk s (quadOfSlot s.cur) s.vmid k.toNat = .ok ())
    (hbusy : keyBusy s (quadOfSlot s.cur) s.vmid k.toNat = false)
    (hdesc : readRDesc s s.agent { cause := 0x01, tval := codeOf (.srpRec rs1 rs2) } va = .ok (d, t)) :
    exec (.srpRec rs1 rs2) s = .next
      ((recordKey (t.releaseAt (coreOf t.cur) .dv) t.agent (quadOfSlot s.cur) k.toNat d).stallFor Config.nearClk).retire := by
  change execSrpRec rs1 rs2 s = _
  rw [execSrpRec]
  dsimp only
  rw [hk, ok_bind, hva, ok_bind, keyOf_of_lt hkey, ok_bind, harea, ok_bind, hbusy, if_neg Bool.false_ne_true]
  refine congrArg s.commit (a₂ := .ok _) ((congrArg (· >>= _) hdesc).trans ?_)
  rfl

variable (hn : s.xr rd = .ok n)
include hn

theorem exec_srpProbe_key (hkey : 4096 ≤ k.toNat) :
    exec (.srpProbe rd rs1 rs2) s = .next (s.takeTrap { cause := 0x01, tval := codeOf (.srpProbe rd rs1 rs2) }) := by
  change execSrpProbe rd rs1 rs2 s = _
  rw [execSrpProbe]
  dsimp only
  rw [hn, ok_bind, hk, ok_bind, hva, ok_bind, keyOf_of_ge hkey]
  rfl

variable (hkey : k.toNat < 4096) (hstep : n.toNat < 2 ^ 32)
include hkey hstep

theorem exec_srpProbe_no_area (harea : (s.tenant s.vmid).args.repl = 0#64 ∨ (s.tenant s.vmid).args.replsz = 0#64) :
    exec (.srpProbe rd rs1 rs2) s = .next (s.takeTrap { cause := 0x18, tval := w64 k.toNat }) := by
  change execSrpProbe rd rs1 rs2 s = _
  rw [execSrpProbe]
  dsimp only
  rw [hn, ok_bind, hk, ok_bind, hva, ok_bind, keyOf_of_lt hkey, ok_bind, if_neg (not_not.2 (fld_high_of_lt hstep)),
    areaOk_of_no_area harea]
  rfl

variable (harea : areaOk s (quadOfSlot s.cur) s.vmid k.toNat = .ok ())
include harea

/-- A probe of a busy key waits for the copy's end: the model's choice (log 18). -/
theorem exec_srpProbe_waits (hbusy : keyBusy s (quadOfSlot s.cur) s.vmid k.toNat = true) :
    exec (.srpProbe rd rs1 rs2) s = .next (s.holdOn .srp (.srpProbe rd rs1 rs2) k) := by
  change execSrpProbe rd rs1 rs2 s = _
  rw [execSrpProbe]
  dsimp only
  rw [hn, ok_bind, hk, ok_bind, hva, ok_bind, keyOf_of_lt hkey, ok_bind, if_neg (not_not.2 (fld_high_of_lt hstep)), harea, ok_bind,
    hbusy]
  rfl

section Reads
variable (hbusy : keyBusy s (quadOfSlot s.cur) s.vmid k.toNat = false) (hrd : s.xOk rd)
  (hdesc : readRDesc (s.releaseAt (coreOf s.cur) .dv) s.agent { cause := 0x01, tval := codeOf (.srpProbe rd rs1 rs2) } va = .ok (d, t))
  (hout : rangeWritable s.agent (d.osize / 65536 + 2) t d.ova d.osize = .ok u)
  (hin : rangeRead s.agent (d.inBytes / 64 + 2) u d.iva d.inBytes = .ok (x, y))
include hbusy hrd hdesc hout hin

theorem exec_srpProbe_answers :
    exec (.srpProbe rd rs1 rs2) s = .next
      (((afterProbe y s.agent (quadOfSlot s.cur) k.toNat n.toNat d x).putX rd (probed y s.agent (quadOfSlot s.cur) k.toNat n.toNat d x).1).retireFor
        .srp (probeClks (y.rkey (quadOfSlot s.cur) s.vmid k.toNat) d)
        (.srpVerdict (afterProbe y s.agent (quadOfSlot s.cur) k.toNat n.toNat d x).cur)) := by
  have hy : slotsKept s y :=
    slotsKept_of_keeps (keeps_trans (keeps_releaseAt _ _ _) (keeps_trans (keeps_readRDesc hdesc)
      (keeps_trans (keeps_rangeWritable hout) (keeps_rangeRead hin))))
  have hz : slotsKept s (afterProbe y s.agent (quadOfSlot s.cur) k.toNat n.toNat d x) :=
    slotsKept_trans (slotsKept_trans hy (slotsKept_trans slotsKept_countSrp slotsKept_judged))
      (slotsKept_trans (t := forgotten (probed y s.agent (quadOfSlot s.cur) k.toNat n.toNat d x).2 _ _ _) ⟨rfl, rfl⟩ slotsKept_trace)
  change execSrpProbe rd rs1 rs2 s = _
  rw [execSrpProbe]
  dsimp only
  rw [hn, ok_bind, hk, ok_bind, hva, ok_bind, keyOf_of_lt hkey, ok_bind, if_neg (not_not.2 (fld_high_of_lt hstep)), harea, ok_bind,
    hbusy, if_neg Bool.false_ne_true]
  refine congrArg s.commit (a₂ := .ok _) ((congrArg (· >>= _) (probeKey_of_reads hdesc hout hin)).trans ?_)
  dsimp only [ok_bind]
  rw [setX_of_xOk (xOk_of_slotsKept hz hrd), ok_bind, putX_cur]
  rfl

end Reads
end Registers

/-! ## Records and invalidation (R405, R406) -/

/-- A record that nothing awaits is none. -/
theorem recordKey_of_none (h : (s.rkey quad ag.vmid key).valid = false ∨ (s.rkey quad ag.vmid key).pend = false) :
    recordKey s ag quad key d = s := by
  refine if_pos ?_
  rcases h with h | h <;> rw [h] <;> simp

theorem rkey_dropKey_self : ((dropKey s quad vmid key).rkey quad vmid key).valid = false := by
  simp [dropKey, State.setRkey, State.rkey]

theorem rkey_setRkey_ne {q v j : Nat} (h : q ≠ quad ∨ keyNo v j ≠ keyNo vmid key) :
    (s.setRkey quad vmid key e).rkey q v j = s.rkey q v j := by
  rw [State.setRkey, State.rkey, State.rkey]
  by_cases hq : q = quad
  · subst hq
    rw [quad_modQuad, AMap.getD_set_ne _ _ _ (h.resolve_left (not_not.2 rfl))]
  · rw [quad_modQuad_ne _ _ hq]

theorem exec_srpInv_drops (hk : s.xr rs1 = .ok k) (hkey : k.toNat < 4096) (hbusy : keyBusy s (quadOfSlot s.cur) s.vmid k.toNat = false) :
    exec (.srpInv rs1) s = .next (dropKey s (quadOfSlot s.cur) s.vmid k.toNat).retire := by
  change execSrpInv rs1 s = _
  rw [execSrpInv, hk, ok_bind, keyOf_of_lt hkey, ok_bind]
  dsimp only
  rw [hbusy]
  rfl

/-- Every entry of a list of keys, dropped. -/
def dropKeys (s : State) (quad : Nat) (l : List (Nat × ReplayKey)) : State :=
  l.foldl (fun s k => dropKey s quad (k.1 / 4096) (k.1 % 4096)) s

theorem exec_srpInvAll_drops (h : ((s.quad (quadOfSlot s.cur)).copies.any fun c => c.vmid == s.vmid) = false) :
    exec .srpInvAll s = .next (dropKeys s (quadOfSlot s.cur)
      ((s.quad (quadOfSlot s.cur)).keys.filter fun k => k.1 / 4096 == s.vmid)).retire :=
  congrArg Host.Outcome.next (if_neg (by rw [h]; exact Bool.false_ne_true))

theorem slotsKept_dropKeys (l : List (Nat × ReplayKey)) (s : State) : slotsKept s (dropKeys s quad l) :=
  slotsKept_foldl (fun _ _ => slotsKept_setRkey) l s

theorem keyNo_div_mod (k : Nat) : keyNo (k / 4096) (k % 4096) = k := by
  rw [keyNo]
  omega

theorem rkey_dropKey (s : State) (quad k v j : Nat) : (dropKey s quad (k / 4096) (k % 4096)).rkey quad v j =
    if keyNo v j = k then { age := (s.rkey quad (k / 4096) (k % 4096)).age } else s.rkey quad v j := by
  split
  · next h => simp [dropKey, State.setRkey, State.rkey, keyNo_div_mod, h]
  · next h => exact rkey_setRkey_ne (.inr (by rwa [keyNo_div_mod]))

theorem dropKeys_keeps_invalid {v j : Nat} (l : List (Nat × ReplayKey)) :
    ∀ {s : State}, (s.rkey quad v j).valid = false → ((dropKeys s quad l).rkey quad v j).valid = false := by
  induction l with
  | nil => exact id
  | cons p l ih =>
    intro s h
    refine ih (s := dropKey s quad (p.1 / 4096) (p.1 % 4096)) ?_
    rw [rkey_dropKey]
    split
    · rfl
    · exact h

theorem dropKeys_drops {v j : Nat} {l : List (Nat × ReplayKey)} (hmem : ∃ p ∈ l, p.1 = keyNo v j) :
    ∀ {s : State}, ((dropKeys s quad l).rkey quad v j).valid = false := by
  induction l with
  | nil => obtain ⟨p, hp, -⟩ := hmem; cases hp
  | cons p l ih =>
    intro s
    by_cases hp : p.1 = keyNo v j
    · refine dropKeys_keeps_invalid l (s := dropKey s quad (p.1 / 4096) (p.1 % 4096)) ?_
      rw [rkey_dropKey, if_pos hp.symm]
    · obtain ⟨r, hr, hkey⟩ := hmem
      exact ih ⟨r, (List.mem_cons.1 hr).resolve_left fun h => hp (h ▸ hkey), hkey⟩

theorem AMap.mem_of_get? {α : Type} {m : AMap α} {k : Nat} {a : α} (h : AMap.get? m k = some a) : (k, a) ∈ m := by
  induction m with
  | nil => cases h
  | cons p r ih =>
    simp only [AMap.get?] at h
    split at h
    · next hk => cases h; subst hk; exact List.mem_cons_self
    · split at h
      · cases h
      · exact List.mem_cons_of_mem _ (ih h)

/-- Once the entries of a tenant are dropped, none of its keys is valid. -/
theorem dropKeys_all {v j : Nat} :
    ((dropKeys s quad ((s.quad quad).keys.filter fun k => k.1 / 4096 == v)).rkey quad v j).valid = false := by
  cases hget : AMap.get? (s.quad quad).keys (keyNo v j) with
  | none =>
    refine dropKeys_keeps_invalid _ ?_
    rw [State.rkey, AMap.getD, hget]
    rfl
  | some e =>
    have hv : (keyNo v j / 4096 == v) = true := beq_iff_eq.2 (by simp only [keyNo]; omega)
    exact dropKeys_drops ⟨(keyNo v j, e), List.mem_filter.2 ⟨AMap.mem_of_get? hget, hv⟩, rfl⟩

/-! ## Counters (R407) -/

theorem exec_srpStat_reads {c : SrpCtr} (hrd : s.xOk rd) :
    exec (.srpStat c rd) s = .next
      (s.putX rd (AMap.getD (s.quad (quadOfSlot s.cur)).ctr (8 * s.vmid + SrpCtr.code c) 0#64)).retire := by
  change execSrpStat c rd s = _
  rw [execSrpStat, setX_of_xOk hrd]
  rfl

end Instructions

end Sys2Proof.Machine

open Sys2Proof Sys2Proof.Machine

/-- Settles O27: probes by their verdict, records, invalidation and counters. That a request to a key whose copy is in progress waits for
it is the model's choice (log 18). -/
theorem stepReplay : Obligations.StepReplay := by
  intro s rd rs1 rs2 n k va hn hk hva
  refine ⟨?keys, ?noArea, fun hkey hrepl hsize hfree => ⟨?busy, fun hbusy => ⟨?probe, ?record⟩⟩, ?inv, ?invAll, ?stat⟩
  case keys =>
    intro hkey i hi
    simp only [List.mem_cons, List.not_mem_nil, or_false] at hi
    obtain rfl | rfl | rfl := hi
    · exact exec_srpProbe_key hk hva hn hkey
    · exact exec_srpRec_key hk hva hkey
    · exact exec_srpInv_key hk hkey
  case noArea =>
    exact fun hkey hstep harea => ⟨exec_srpProbe_no_area hk hva hn hkey hstep harea, exec_srpRec_no_area hk hva hkey harea⟩
  case busy => exact fun hbusy hstep => exec_srpProbe_waits hk hva hn hkey hstep (areaOk_of_area hrepl hsize hfree) hbusy
  case probe =>
    intro hstep d t u x y hdesc hout hin hrd
    exact ⟨_, _, exec_srpProbe_answers hk hva hn hkey hstep (areaOk_of_area hrepl hsize hfree) hbusy hrd hdesc hout hin,
      fun h => judged_forced (forcedReason_shape h) (by decide),
      fun h hs => judged_forced (forcedReason_step h hs) (by decide),
      fun h hs hp => judged_forced (forcedReason_pend h hs hp) (by decide),
      fun h hs hp hr => judged_forced (forcedReason_run h hs hp hr) (by decide),
      fun h hs hp hr => judged_near (forcedReason_none h hs hp hr),
      fun h hs hp hr => judged_far (forcedReason_none h hs hp hr)⟩
  case record =>
    exact fun d t hdesc => ⟨exec_srpRec_records hk hva hkey (areaOk_of_area hrepl hsize hfree) hbusy hdesc, recordKey_of_none⟩
  case inv =>
    exact fun hkey hbusy => ⟨_, exec_srpInv_drops hk hkey hbusy, rkey_dropKey_self, retire_slots_of_slotsKept slotsKept_setRkey, fun _ _ _ => rkey_setRkey_ne⟩
  case invAll =>
    exact fun hfree _ => ⟨_, exec_srpInvAll_drops hfree, retire_slots_of_slotsKept (slotsKept_dropKeys _ _), fun _ _ => dropKeys_all⟩
  case stat => exact fun c hrd => by cases c <;> exact exec_srpStat_reads hrd
end

section
/-! Copies as events (R384, R391-R393), replay copies (R404, R405) and the patrol scrubber (R199), and O50. -/

namespace Sys2Proof.Machine

variable {s t : State} {cove id : Nat} {c k : CopyCmd}

/-! ## The commands of an engine -/

theorem cmd?_of_one (h : (s.cove cove).cmds = [c]) : s.cmd? cove c.id = some c := by
  simp [State.cmd?, h]

theorem cmds_modCmd_of_one (h : (s.cove cove).cmds = [c]) (f : CopyCmd → CopyCmd) :
    ((s.modCmd cove c.id f).cove cove).cmds = [f c] := by
  simp [State.modCmd, h]

theorem cove_modFeed (s : State) (c : CopyCmd) (f : QR → QR) : (modFeed s c f).cove = s.cove := by
  unfold modFeed
  split <;> rfl

theorem cmds_copyEnd_of_one (h : (s.cove cove).cmds = [c]) (st : BitVec 8) :
    ((copyEnd s cove c.id st).cove cove).cmds = [{ c with st := .ending, status := st }] := by
  unfold copyEnd
  rw [cmd?_of_one h]
  change ((modFeed _ c _).cove cove).cmds = _
  rw [cove_modFeed]
  exact cmds_modCmd_of_one h _

theorem cove_audit (s : State) (cmd queue vmid : Nat) (a b d : Word) (st n : Nat) : (s.audit cmd queue vmid a b d st).cove n = s.cove n := by
  rw [State.audit]
  exact cove_modMgmt _ _ _

theorem cmds_copyFault_of_one (h : (s.cove cove).cmds = [c]) (e : Trap) :
    ((copyFault s cove c.id e).cove cove).cmds = [{ c with st := .paused, status := e.cause, win := [] }] := by
  have haudit : ((if e.log then s.audit 0xFF 0 c.vmid (w64 e.cause.toNat) e.tval 0#64 0 else s).cove cove).cmds = [c] := by
    split
    · rw [cove_audit, h]
    · exact h
  unfold copyFault
  rw [cmd?_of_one h]
  exact cmds_modCmd_of_one haudit _

/-! ## Starting (R384, R393) -/

theorem nextCopy_of_queued {v : Cove} (h : v.cmds = [c]) (hst : c.st = .queued) : nextCopy v = some c := by
  simp [nextCopy, h, hst]

theorem nextCopy_of_started {v : Cove} (h : v.cmds = [c]) (hst : c.st ≠ .queued) : nextCopy v = none := by
  simp [nextCopy, h, hst]

/-- The streams of an engine with one command are not all taken. -/
theorem stream_free {v : Cove} (h : v.cmds = [c]) : ¬ 16 ≤ (v.cmds.filter fun c => c.st != .queued).length := by
  have hlen := List.length_filter_le (fun c : CopyCmd => c.st != .queued) v.cmds
  rw [h] at hlen ⊢
  simp only [List.length_cons, List.length_nil] at hlen
  omega

theorem startCopies_of_started (h : (s.cove cove).cmds = [c]) (hst : c.st ≠ .queued) (k : Nat) : startCopies cove k s = s := by
  cases k with
  | zero => rfl
  | succ k =>
    rw [startCopies]
    dsimp only
    rw [if_neg (stream_free h), nextCopy_of_started h hst]

theorem cmds_pick_of_one {b : Bool} {n : Nat} (h : (s.cove cove).cmds = [c]) (hp : (if b = true then (0, s) else s.pick n).2 = t) :
    (t.cove cove).cmds = [c] := by
  subst hp
  split
  · exact h
  · obtain ⟨k, hk⟩ := pick_frame s n
    rw [hk]
    exact h

theorem cove_onceAfter (s : State) (n m : Nat) (e : Ev) : (s.onceAfter n e).cove m = s.cove m := by
  unfold State.onceAfter
  split <;> rfl

theorem onceAfter_asked (s : State) (n : Nat) (e : Ev) : (s.onceAfter n e).duties.any (fun d => d.work == .ev e) = true := by
  obtain ⟨ds, hds, d, hd, hwork⟩ := onceAfter_in_flight s n e
  rw [hds]
  exact List.any_eq_true.2 ⟨d, hd, beq_iff_eq.2 hwork⟩

/-- A command set going. -/
def goingCmd (rot : Nat) (down : Bool) (c : CopyCmd) : CopyCmd := { c with st := .running, rot := rot, down := down }

/-- A command set going stays, and its beat is asked for. -/
theorem startCopies_going (h : (s.cove cove).cmds = [c]) {rot : Nat} {down : Bool} {k : Nat}
    (ht : (s.modCmd cove c.id (goingCmd rot down)).onceAfter 1 (.copyBeat cove) = t) :
    ∃ c', ((startCopies cove k t).cove cove).cmds = [c'] ∧ c'.st = .running ∧ c'.pk = c.pk ∧ c'.pos = c.pos
      ∧ (startCopies cove k t).duties.any (fun d => d.work == .ev (.copyBeat cove)) = true := by
  subst ht
  have hcmds := cmds_modCmd_of_one h (goingCmd rot down)
  rw [← cove_onceAfter _ 1 cove (.copyBeat cove)] at hcmds
  rw [startCopies_of_started hcmds (by simp [goingCmd])]
  exact ⟨_, hcmds, rfl, rfl, rfl, onceAfter_asked _ _ _⟩

section Start
variable (hone : (s.cove cove).cmds = [c]) (hst : c.st = .queued)
include hone hst

theorem startCopies_late (k : Nat) (hd : pkW c.pk 1 ≠ 0#64) (hlate : (pkW c.pk 1).toNat < s.now) :
    startCopies cove (k + 1) s = copyEnd s cove c.id 0xFF#8 := by
  rw [startCopies]
  dsimp only
  rw [if_neg (stream_free hone), nextCopy_of_queued hone hst]
  dsimp only
  rw [if_pos ⟨hd, hlate⟩]
  exact startCopies_of_started (cmds_copyEnd_of_one hone _) (by simp) k

/-- A command within its time runs, whatever place and direction it starts with. -/
theorem startCopies_runs (k : Nat) (hd : pkW c.pk 1 = 0#64 ∨ s.now ≤ (pkW c.pk 1).toNat) :
    ∃ c', ((startCopies cove (k + 1) s).cove cove).cmds = [c'] ∧ c'.st = .running ∧ c'.pk = c.pk ∧ c'.pos = c.pos
      ∧ (startCopies cove (k + 1) s).duties.any (fun d => d.work == .ev (.copyBeat cove)) = true := by
  have hlate : ¬ (pkW c.pk 1 ≠ 0#64 ∧ (pkW c.pk 1).toNat < s.now) := fun ⟨h0, hlt⟩ =>
    hd.elim h0 fun h => Nat.not_lt.2 h hlt
  rw [startCopies]
  dsimp only
  rw [if_neg (stream_free hone), nextCopy_of_queued hone hst]
  dsimp only
  rw [if_neg hlate]
  generalize h1 : (if inOrder s c = true then (0, s) else s.pick (cpTotal c.pk)) = p1
  obtain ⟨rot, s1⟩ := p1
  dsimp only
  generalize h2 : (if inOrder s1 c = true then (0, s1) else s1.pick 2) = p2
  obtain ⟨down, s2⟩ := p2
  dsimp only
  have hs1 := cmds_pick_of_one hone (congrArg (·.2) h1)
  have hs2 := cmds_pick_of_one hs1 (congrArg (·.2) h2)
  exact startCopies_going hs2 rfl

omit hone hst in
theorem exec_copyStart_free (hf : (s.cove cove).fenced = false) : exec (.copyStart cove) s = .next (startCopies cove 32 s) := by
  change execCopyStart cove s = _
  rw [execCopyStart, hf]
  rfl

theorem exec_copyStart_late (hf : (s.cove cove).fenced = false) (hd : pkW c.pk 1 ≠ 0#64) (hlate : (pkW c.pk 1).toNat < s.now) :
    exec (.copyStart cove) s = .next (copyEnd s cove c.id 0xFF#8) := by
  rw [exec_copyStart_free hf, startCopies_late hone hst 31 hd hlate]

theorem exec_copyStart_runs (hf : (s.cove cove).fenced = false) (hd : pkW c.pk 1 = 0#64 ∨ s.now ≤ (pkW c.pk 1).toNat) :
    ∃ u c', exec (.copyStart cove) s = .next u ∧ (u.cove cove).cmds = [c'] ∧ c'.st = .running ∧ c'.pk = c.pk ∧ c'.pos = c.pos
      ∧ u.duties.any (fun d => d.work == .ev (.copyBeat cove)) = true := by
  obtain ⟨c', h⟩ := startCopies_runs hone hst 31 hd
  exact ⟨_, c', exec_copyStart_free hf, h⟩

theorem exec_copyStart_fenced (hf : (s.cove cove).fenced = true) :
    exec (.copyStart cove) s = .next (copyFault s cove c.id { cause := 0x19, tval := w64 cove }) := by
  change execCopyStart cove s = _
  rw [execCopyStart, hf, hone]
  simp [hst]
  rfl

end Start

/-! ## Beats (R384) -/

theorem beatOrder_of_none {v : Cove} (h : ∀ c ∈ v.cmds, c.st ≠ .running) : beatOrder v = [] := by
  have hnil : v.cmds.filter (fun c => c.st == .running) = [] := List.filter_eq_nil_iff.2 fun c hc => by simpa using h c hc
  rw [beatOrder, hnil]
  rfl

theorem beatOrder_of_one {v : Cove} (h : v.cmds = [c]) (hst : c.st = .running) : beatOrder v = [c] := by
  rw [beatOrder, h]
  simp [hst, sortBy, insertBy]

theorem beatRepair_of_no_poison (h : s.poison = []) : beatRepair s cove c = s :=
  if_pos (.inr (by rw [h]; rfl))

/-- One beat given in the order of service. -/
def beatOnce (cove : Nat) (s : State) : State := giveBeat cove (beatOrder (s.cove cove)) s

/-- The next beat is asked for while a command runs. -/
def beatOn (cove : Nat) (s : State) : State :=
  if (s.cove cove).cmds.any fun c => c.st == .running then s.onceAfter 1 (.copyBeat cove) else s

theorem exec_copyBeat_eq : exec (.copyBeat cove) s = .next (beatOn cove (beatOnce cove (beatOnce cove s))) := rfl

theorem beatOnce_idle (h : ∀ c ∈ (s.cove cove).cmds, c.st ≠ .running) : beatOnce cove s = s := by
  rw [beatOnce, beatOrder_of_none h, giveBeat]

theorem beatOn_idle (h : ∀ c ∈ (s.cove cove).cmds, c.st ≠ .running) : beatOn cove s = s := by
  have hany : ((s.cove cove).cmds.any fun c => c.st == .running) = false := by simpa using h
  rw [beatOn, hany, if_neg Bool.false_ne_true]

/-- A cove whose commands do not run gives no beat. -/
theorem exec_copyBeat_idle (h : ∀ c ∈ (s.cove cove).cmds, c.st ≠ .running) : exec (.copyBeat cove) s = .next s := by
  rw [exec_copyBeat_eq, beatOnce_idle h, beatOnce_idle h, beatOn_idle h]

/-- A first beat after which no command runs is the only one. -/
theorem exec_copyBeat_of_last (h : beatOnce cove s = t) (hidle : ∀ c ∈ (t.cove cove).cmds, c.st ≠ .running) :
    exec (.copyBeat cove) s = .next t := by
  rw [exec_copyBeat_eq, h, beatOnce_idle hidle, beatOn_idle hidle]

theorem not_running_of_one {st : CopySt} (h : (s.cove cove).cmds = [c]) (hst : c.st = st) (hne : st ≠ .running) :
    ∀ c ∈ (s.cove cove).cmds, c.st ≠ .running := by
  rw [h]
  intro k hk
  rw [List.mem_singleton.1 hk, hst]
  exact hne

/-- The cove that took a beat remembers whose it was. -/
def turned (cove : Nat) (c : CopyCmd) (s : State) : State := s.modCove cove fun v => { v with turn := c.id }

theorem cmds_turned {l : List CopyCmd} (h : (s.cove cove).cmds = l) : ((turned cove c s).cove cove).cmds = l := by
  rw [turned, cove_modCove, h]

section Beat
variable (hone : (s.cove cove).cmds = [c]) (hst : c.st = .running) (hpos : c.pos < cpTotal c.pk) (hclean : s.poison = [])
include hone hst hclean

theorem beatOnce_of_one : beatOnce cove s = match runBeat cove c.id (64 / cpEsz c.pk) s with
    | (true, t) => turned cove c t
    | (false, _) => s := by
  rw [beatOnce, beatOrder_of_one hone hst, giveBeat]
  rw [beatRepair_of_no_poison hclean]
  rfl

include hpos

omit hst hclean in
/-- A beat begins with the element at the command's position. -/
theorem runBeat_of_one : runBeat cove c.id (64 / cpEsz c.pk) s = match moveElem s cove c (c.elem c.pos) with
    | .wait => (false, s)
    | .fault t => (true, copyFault s cove c.id t)
    | .done s =>
      match s.cmd? cove c.id with
      | some c' => if cpTotal c'.pk ≤ c'.pos then (true, copyEnd s cove c.id 0#8) else (true, (runBeat cove c.id (64 / cpEsz c.pk - 1) s).2)
      | none => (true, s) := by
  obtain ⟨k, hk⟩ : ∃ k, 64 / cpEsz c.pk = k + 1 := by
    have hesz : fld (pkW c.pk 0) 12 11 < 4 := Nat.mod_lt _ (by decide)
    have hle : cpEsz c.pk ≤ 64 := (Nat.pow_le_pow_right (by decide) (Nat.le_of_lt hesz)).trans (by decide : 2 ^ 4 ≤ 64)
    exact Nat.exists_eq_succ_of_ne_zero (Nat.div_pos hle (Nat.two_pow_pos _)).ne'
  rw [hk, runBeat, cmd?_of_one hone]
  dsimp only
  rw [if_neg (Nat.not_le.2 hpos)]
  rfl

/-- An element that waits leaves its command running. -/
theorem exec_copyBeat_waits (hwait : moveElem s cove c (c.elem c.pos) = .wait) :
    exec (.copyBeat cove) s = .next (s.onceAfter 1 (.copyBeat cove)) := by
  have hbeat : beatOnce cove s = s := by rw [beatOnce_of_one hone hst hclean, runBeat_of_one hone hpos, hwait]
  have hany : ((s.cove cove).cmds.any fun c => c.st == .running) = true := by rw [hone]; simp [hst]
  rw [exec_copyBeat_eq, hbeat, hbeat, beatOn, hany, if_pos rfl]

/-- An element that faults pauses its command. -/
theorem exec_copyBeat_faults {e : Trap} (hfault : moveElem s cove c (c.elem c.pos) = .fault e) :
    exec (.copyBeat cove) s = .next (turned cove c (copyFault s cove c.id e)) := by
  refine exec_copyBeat_of_last ?_ (not_running_of_one (st := .paused) (cmds_turned (cmds_copyFault_of_one hone e)) rfl (by decide))
  rw [beatOnce_of_one hone hst hclean, runBeat_of_one hone hpos, hfault]

/-- The last element ends its command. -/
theorem exec_copyBeat_ends (hdone : moveElem s cove c (c.elem c.pos) = .done t) (hk : (t.cove cove).cmds = [k]) (hid : k.id = c.id)
    (hlast : cpTotal k.pk ≤ k.pos) : exec (.copyBeat cove) s = .next (turned cove c (copyEnd t cove c.id 0#8)) := by
  have hcmd : t.cmd? cove c.id = some k := hid ▸ cmd?_of_one hk
  have hend := cmds_copyEnd_of_one hk 0#8
  rw [hid] at hend
  refine exec_copyBeat_of_last ?_ (not_running_of_one (st := .ending) (cmds_turned hend) rfl (by decide))
  rw [beatOnce_of_one hone hst hclean, runBeat_of_one hone hpos, hdone]
  dsimp only
  rw [hcmd]
  dsimp only
  rw [if_pos hlast]

end Beat

/-! ## Ends and pauses (R391, R392) -/

theorem exec_copyComplete_none (h : s.cmd? cove id = none) : exec (.copyComplete cove id) s = .next s := by
  change execCopyComplete cove id s = _
  rw [execCopyComplete, h]

theorem exec_copyPause_none (h : s.cmd? cove id = none) : exec (.copyPause cove id) s = .next s := by
  change execCopyPause cove id s = _
  rw [execCopyPause, h]

/-- The completion word is written whatever CMPL is: the model's choice (log 16). -/
theorem exec_copyComplete_ends (h : s.cmd? cove id = some c) (hst : c.st = .ending) :
    exec (.copyComplete cove id) s = .next (((writeCw s cove c (cwWord c false
        (pkW c.pk 1 != 0#64 && c.status != 0xFF#8 && decide ((pkW c.pk 1).toNat < s.now)))).modCove cove
      fun v => { v with cmds := v.cmds.filter fun c => c.id != id }).onceAfter 1 (.copyStart cove)) := by
  change execCopyComplete cove id s = _
  rw [execCopyComplete, h]
  exact if_neg (not_not.2 hst)

theorem exec_copyPause_reports (h : s.cmd? cove id = some c) (hst : c.st = .paused) :
    exec (.copyPause cove id) s =
      .next (modFeed (writeCw s cove c (cwWord c true false)) c fun q => { q with flt := true, cause := c.status }) := by
  change execCopyPause cove id s = _
  rw [execCopyPause, h]
  exact if_neg (not_not.2 hst)

/-! ## Replay copies (R404, R405) -/

section Replay
variable {q v n : Nat} {cc : ReplayCopy}

/-- The engine that a replayed output is written for. -/
def replayAgent (q v : Nat) (cc : ReplayCopy) : Agent := { vmid := v, troot := cc.troot, sup := true, core := none, cove := 64 * q }

/-- A replayed output written to its place, and its copy ended. -/
def replayWritten (s : State) (q v : Nat) (cc : ReplayCopy) : State :=
  (rangeWrite (replayAgent q v cc) (cc.data.length / 64) s cc.ova cc.data).2.modQuad q fun x => { x with copies := x.copies.erase cc }

theorem exec_replayCopyComplete_eq (h : (s.quad q).copies.find? (fun c => c.vmid == v && c.key == n && !c.record) = some cc) :
    exec (.replayCopyComplete q v n) s = .next (if (rangeWrite (replayAgent q v cc) (cc.data.length / 64) s cc.ova cc.data).1 then
      replayWritten s q v cc
      else (replayWritten s q v cc).setRkey q v n { (replayWritten s q v cc).rkey q v n with valid := false, pend := false }) := by
  change execReplayCopyComplete q v n s = _
  rw [execReplayCopyComplete, h]
  rfl

theorem exec_recordCopyComplete_stores (h : (s.quad q).copies.find? (fun c => c.vmid == v && c.key == n && c.record) = some cc) :
    exec (.recordCopyComplete q v n) s = .next ((s.modQuad q fun x => { x with copies := x.copies.erase cc }).setRkey q v n
      { (s.modQuad q fun x => { x with copies := x.copies.erase cc }).rkey q v n with outb := cc.data, pend := false }) := by
  change execRecordCopyComplete q v n s = _
  rw [execRecordCopyComplete, h]

end Replay

/-! ## The patrol scrubber (R199) -/

theorem eccHit_line {pa : Nat} (h : poisonable s pa = true) : eccHit s (.line pa) =
    (({ s with poison := AMap.set s.poison (pa / 64) () } : State).countEcc 0x21).modMgmt
      fun m => { m with eccLog := m.eccLog ++ [.line pa] } :=
  if_pos h

theorem eccHit_entry {cell slot idx : Nat} {cx : Ctx} {it : Option (BitVec 16)}
    (h : (s.cell cell).ms.any (fun e => e.key slot idx cx it) = true) : eccHit s (.entry cell slot idx cx it) =
    (poisonEntry s cell slot idx cx it).modMgmt fun m => { m with eccLog := m.eccLog ++ [.entry cell slot idx cx it] } :=
  if_pos h

theorem eccHit_object {w : Word} {o : DebugObj} (h : debugObj w = some o) : eccHit s (.object w) =
    (poisonObject s o).modMgmt fun m => { m with eccLog := m.eccLog ++ [.object w] } := by
  rw [eccHit]
  dsimp only
  rw [h]

end Sys2Proof.Machine

open Sys2Proof Sys2Proof.Machine

/-- Settles O50: each event of the engines by its outcomes. A completion word written whatever CMPL is (log 16), and the list of the
scrubber's uncorrectable errors (log 85), are the model's choices. -/
theorem copyEvents : Obligations.CopyEvents := by
  intro s t cove c
  refine ⟨fun hone hst hf => ⟨?late, ?runs⟩, exec_copyStart_fenced, exec_copyBeat_idle, fun hone hst hpos hclean => ⟨?waits, ?faults, ?ends⟩,
    fun id h => ⟨exec_copyComplete_none h, exec_copyPause_none h⟩, fun id => exec_copyComplete_ends, fun id => exec_copyPause_reports,
    ?replay, fun q v k cc => exec_recordCopyComplete_stores, rfl, rfl, ?line, ?entry, ?object⟩
  case late => exact fun hd hlate => exec_copyStart_late hone hst hf hd hlate
  case runs => exact exec_copyStart_runs hone hst hf
  case waits => exact exec_copyBeat_waits hone hst hpos hclean
  case faults => exact fun f => exec_copyBeat_faults hone hst hpos hclean
  case ends => exact fun k => exec_copyBeat_ends hone hst hpos hclean
  case replay =>
    exact fun q v k cc h => ⟨fun hok => (exec_replayCopyComplete_eq h).trans (congrArg Host.Outcome.next (if_pos hok)),
      fun hbad => (exec_replayCopyComplete_eq h).trans (congrArg Host.Outcome.next (if_neg (Bool.eq_false_iff.1 hbad)))⟩
  case line => exact fun pa h => congrArg Host.Outcome.next (eccHit_line h)
  case entry => exact fun _ _ _ _ _ h => congrArg Host.Outcome.next (eccHit_entry h)
  case object => exact fun w o h => congrArg Host.Outcome.next (eccHit_object h)
end

section
/-! Trap entry (R414): the slot it leaves, and O8. -/

namespace Sys2Proof.Machine

variable {s : State} {t : Trap} {h : Word}

/-! ## The saved status (R116) -/

theorem toNat_append_ofBool {n : Nat} (x : BitVec n) (b : Bool) : (x ++ BitVec.ofBool b).toNat = 2 * x.toNat + b2n b := by
  have hlt : (BitVec.ofBool b).toNat < 2 ^ 1 := (BitVec.ofBool b).isLt
  rw [BitVec.toNat_append, ← Nat.shiftLeft_add_eq_or_of_lt hlt, Nat.shiftLeft_eq, BitVec.toNat_ofBool, Nat.mul_comm]
  cases b <;> rfl

theorem status_eq_append (v : Slot) :
    v.status = BitVec.ofNat 9 v.wcnt ++ BitVec.ofBool v.inHandler ++ BitVec.ofBool v.masked ++ BitVec.ofBool v.sup := by
  refine BitVec.eq_of_toNat_eq ?_
  rw [toNat_status, toNat_append_ofBool, toNat_append_ofBool, toNat_append_ofBool, BitVec.toNat_ofNat]
  omega

/-- Entry, written out by the fields it sets. -/
theorem enter_eq (v : Slot) (t : Trap) (h : Word) : { v.enter t with pc := h } =
    { v with
      trap := { v.trap with
        tepc := v.pc &&& ~~~3#64, tcause := t.cause, tval := t.tval
        tstatus := BitVec.ofNat 9 v.wcnt ++ BitVec.ofBool v.inHandler ++ BitVec.ofBool v.masked ++ BitVec.ofBool v.sup }
      masked := false, inHandler := false, wcnt := 0, sup := true, wait := .run, pc := h } := by
  rw [Slot.enter, status_eq_append]

/-! ## The state after entry -/

/-- The state between entry and the choice of the handler. -/
def entered (s : State) (t : Trap) : State := { s.modMe (fun v => v.enter t) with freeCtr := s.freeCtr + 1 }

theorem me_entered : (entered s t).me = s.me.enter t := me_modMe s fun v => v.enter t

theorem takeTrap_of_no_log (hlog : t.log = false) : s.takeTrap t =
    if (s.me.trap.tvec).toNat / 4 ≠ 0 then (entered s t).modMe fun v => { v with pc := v.trap.tvec &&& ~~~3#64 }
    else if (s.tenant s.vmid).args.svec ≠ 0#64 then (entered s t).modMe fun v => { v with pc := (s.tenant s.vmid).args.svec }
    else endTask (entered s t) s.cur t.cause := by
  have htvec : fld (entered s t).me.trap.tvec 63 2 = s.me.trap.tvec.toNat / 4 := by
    rw [me_entered]
    simp only [fld, Slot.enter]
    omega
  rw [← htvec]
  unfold State.takeTrap
  rw [hlog]
  rfl

/-- A change of the slot after entry, as one change. -/
theorem modMe_entered {g : Slot → Slot} {f : Slot → Slot} (h : g (s.me.enter t) = f s.me) :
    (entered s t).modMe g = { s.modMe f with freeCtr := s.freeCtr + 1 } := by
  have hone : (s.modMe fun v => v.enter t).modMe g = s.modMe f := by
    rw [modMe_modMe_eq]
    exact congrArg (s.setSlot s.cur) h
  exact congrArg (fun u : State => { u with freeCtr := s.freeCtr + 1 }) hone

/-- A trap that is no stage-2 refusal, of a slot with a handler, changes the slot and `freeCtr` alone. -/
theorem takeTrap_of_handler (hlog : t.log = false) (hh : s.handler = some h) :
    s.takeTrap t = { s.modMe fun v => { v.enter t with pc := h } with freeCtr := s.freeCtr + 1 } := by
  rw [takeTrap_of_no_log hlog]
  unfold State.handler at hh
  split at hh
  case isTrue htvec =>
    cases hh
    rw [if_pos htvec]
    exact modMe_entered rfl
  case isFalse htvec =>
    rw [if_neg htvec]
    split at hh
    case isTrue hsvec =>
      cases hh
      rw [if_pos hsvec]
      exact modMe_entered rfl
    case isFalse => cases hh

end Sys2Proof.Machine

open Sys2Proof Sys2Proof.Machine

/-- Settles O8: entry is `Slot.enter`, at the handler's address. -/
theorem trapEntry : Obligations.TrapEntry := by
  intro s t h hlog hh
  rw [takeTrap_of_handler hlog hh]
  exact congrArg (fun g => ({ s.modMe g with freeCtr := s.freeCtr + 1 } : State)) (funext fun v => enter_eq v t h)
end

section
/-! What reset leaves (R516), and O59. -/

namespace Sys2Proof.Machine

theorem canonical_reset : State.reset.canonical :=
  ⟨rfl, rfl, rfl, fun q hq => by rw [List.mem_singleton.1 hq]; rfl⟩

/-- Reset holds queue 0 and no other. -/
theorem queue_reset_ne {q : Nat} (h : q ≠ 0) : State.reset.queue q = {} := by
  have hget : AMap.get? State.reset.queues q = none := by
    simp [State.reset, AMap.get?, h]
  rw [State.queue, AMap.getD, hget]
  rfl

theorem counter_reset (v n : Nat) : (counter State.reset v n).getD 0 = 0 := by
  unfold counter
  split
  · rfl
  · split <;> rfl

/-- Bytes that were never written read 0. -/
theorem rdN_nil (a n : Nat) : Bytes.rdN [] a n = List.replicate n 0#8 := by
  induction n generalizing a with
  | zero => rfl
  | succ n ih => rw [Bytes.rdN, ih, List.replicate_succ]; rfl

theorem homeRead_reset {pa : Nat} (h : State.reset.tier pa ≠ .regs) (n : Nat) :
    State.reset.homeRead pa n = List.replicate n 0#8 :=
  (if_neg h).trans (rdN_nil pa n)

end Sys2Proof.Machine

open Sys2Proof Sys2Proof.Machine

/-- Settles O59: reset is a state of empty collections. That CXL and host memory that was never written reads 0 (log 3), and the
registers to which the spec gives no reset value (log 5), are the model's choices. -/
theorem resetState : Obligations.ResetState :=
  ⟨canonical_reset, fun _ _ => ⟨rfl, rfl, rfl, rfl, rfl, rfl, rfl, rfl, rfl, rfl, rfl⟩, fun _ => rfl,
    fun _ hq => congrArg Queue.bound (queue_reset_ne hq), rfl, rfl, rfl, rfl, by decide, rfl, rfl, rfl, rfl, counter_reset,
    fun _ => ⟨rfl, rfl, homeRead_reset⟩⟩
end

section
/-! The placement instructions (R454, R459-R464): what each checks and answers, and O47. -/

namespace Sys2Proof.Machine

variable {s t u v z : State} {rd rs1 rs2 : XReg} {a h : Word}

/-! ## plc.find (R460) -/

/-- The operand of `plc.find` is well formed. -/
def findOk (a : Word) : Prop := fld a 63 48 = 0 ∧ fld a 31 20 = 0 ∧ fld a 15 10 = 0 ∧ fld a 7 4 ≤ 7 ∧ fld a 3 0 ≤ 7

theorem findOk_iff : findOk a ↔ ¬ (fld a 63 48 ≠ 0 ∨ fld a 31 20 ≠ 0 ∨ fld a 15 10 ≠ 0 ∨ 7 < fld a 7 4 ∨ 7 < fld a 3 0) := by
  simp only [findOk, not_or, not_not, Nat.not_lt]

/-- The origins that `plc.find` tries, in order. -/
def findOrigins (s : State) (a : Word) : List (Nat × Nat) :=
  candidates (quadOfSlot s.cur) (fun q => if fld a 19 16 = 0 then q == quadOfSlot s.cur else (fld a 19 16).testBit q)
    (4 * (fld a 3 0 + 1)) (4 * (fld a 7 4 + 1))

/-- A rectangle of free cells at an origin, within the coves of the slot's queue. -/
def findFits (s : State) (a : Word) : Nat × Nat → Bool :=
  originFits s (s.queue s.myQueue).mask (4 * (fld a 3 0 + 1)) (4 * (fld a 7 4 + 1)) (cellFree s) fun _ _ => bitAt a 8

/-- The number of the first origin that fits. -/
def findPlace (s : State) (a : Word) : Option Nat := (findOrigins s a).findIdx? (findFits s a)

/-- The clk of a search: 64, and one for each origin tried. -/
def findClks (s : State) (a : Word) : Nat := 64 + match findPlace s a with | some k => k + 1 | none => (findOrigins s a).length

/-- The answer of a search made in state `s`. -/
def findAnswer (s : State) (rd : XReg) (a : Word) (u : State) (v : Word) : Except Trap State := do
  let u ← u.setX rd v
  return placerDone u (findClks s a)

theorem findAnswer_of_xOk (hrd : u.xOk rd) (w : Word) : findAnswer s rd a u w = .ok (placerDone (u.putX rd w) (findClks s a)) := by
  rw [findAnswer, setX_of_xOk hrd]
  rfl

/-- The entry and the cells reserved, and the handle answered. -/
def findReserve (s : State) (rd : XReg) (a : Word) (k r : Nat) (g : Gen) (u : State) : Except Trap State :=
  let o := (findOrigins s a).getD k (0, 0)
  let hd := mkHandle r o.1 o.2 (4 * (fld a 3 0 + 1)) (4 * (fld a 7 4 + 1)) (bitAt a 9) g
  findAnswer s rd a (reserve u { vmid := u.vmid, ridx := r } hd u.myQueue) hd

/-- The operand's generation is not one the slot may use. -/
def findBad (s : State) (a : Word) : Bool :=
  a.extractLsb' 32 16 != 0#16 && (!s.mgmt.genNews.contains (a.extractLsb' 32 16, s.me.gen)
    || s.regions.any fun q => q.2.st != 0 && handleGen q.2.handle == a.extractLsb' 32 16)

/-- A search with a well-formed operand. -/
def findDo (s : State) (rd rs1 : XReg) (a : Word) : Except Trap State :=
  match findPlace s a, freeEntry s s.vmid with
  | some k, some r =>
    if findBad s a then findAnswer s rd a s 0#64
    else if a.extractLsb' 32 16 ≠ 0#16 then findReserve s rd a k r (a.extractLsb' 32 16) s
    else
      match s.newGen with
      | (some g, u) => findReserve s rd a k r g u
      | (none, u) => .ok (u.holdOn .placer (.plcFind rd rs1) 0#64)
  | _, _ => findAnswer s rd a s 0#64

theorem slotsKept_newGen {g : Option Gen} (h : s.newGen = (g, t)) : slotsKept s t := by
  unfold State.newGen at h
  split at h
  · cases h; exact slotsKept_refl s
  · dsimp only at h
    split at h <;> cases h <;> exact ⟨rfl, rfl⟩

theorem slotsKept_reserve {rk : RKey} {w : Word} {q : Nat} : slotsKept s (reserve s rk w q) := by
  have hown : ∀ s ks o, slotsKept s (ownCells s ks o) := fun s ks o => 
    slotsKept_foldl (f := fun s k => s.modCell k fun c => { c with owner := o }) (fun _ _ => ⟨rfl, rfl⟩) ks s
  have hput : ∀ s ws, slotsKept s (putEntry s rk ws) := fun s ws =>
    slotsKept_of_keeps (keeps_foldl (fun _ _ => keeps_orElse_homeStore _ _ _ _) ws s)
  exact slotsKept_trans (slotsKept_trans ⟨rfl, rfl⟩ (hown (s.setRegion rk _) _ _)) (hput _ _)

section Find
variable (ha : s.xr rs1 = .ok a) (hsup : s.me.sup = true)
include ha hsup

theorem exec_plcFind_illegal (hok : ¬ findOk a) :
    exec (.plcFind rd rs1) s = .next (s.takeTrap { cause := 0x01, tval := codeOf (.plcFind rd rs1) }) := by
  rw [findOk_iff, not_not] at hok
  change execPlcFind rd rs1 s = _
  rw [execPlcFind]
  dsimp only
  rw [needSup_of_sup hsup, ok_bind, ha, ok_bind, if_pos hok]
  rfl

variable (hok : findOk a)
include hok

theorem exec_plcFind_eq : exec (.plcFind rd rs1) s = s.commit (findDo s rd rs1 a) := by
  change execPlcFind rd rs1 s = _
  rw [execPlcFind]
  dsimp only
  rw [needSup_of_sup hsup, ok_bind, ha, ok_bind, if_neg (findOk_iff.1 hok)]
  rfl

theorem exec_plcFind_no_origin (hrd : s.xOk rd) (hnone : (findOrigins s a).find? (findFits s a) = none) :
    exec (.plcFind rd rs1) s = .next (placerDone (s.putX rd 0#64) (64 + (findOrigins s a).length)) := by
  have hidx : findPlace s a = none := by
    rw [findPlace, List.findIdx?_eq_none_iff]
    simpa [List.find?_eq_none] using hnone
  rw [exec_plcFind_eq ha hsup hok, findDo, hidx, findAnswer_of_xOk hrd, commit_ok, findClks, hidx]

theorem exec_plcFind_no_entry (hrd : s.xOk rd) (hnone : freeEntry s s.vmid = none) :
    exec (.plcFind rd rs1) s = .next (placerDone (s.putX rd 0#64) (findClks s a)) := by
  rw [exec_plcFind_eq ha hsup hok, findDo, hnone]
  cases findPlace s a <;> rw [findAnswer_of_xOk hrd, commit_ok]

variable {k r : Nat} (hk : findPlace s a = some k) (hr : freeEntry s s.vmid = some r) (hgiven : fld a 47 32 = 0)
include hk hr hgiven

/-- Without a generation of the operand the placer asks for a new one. -/
theorem exec_plcFind_new_gen : exec (.plcFind rd rs1) s = s.commit (match s.newGen with
    | (some g, u) => findReserve s rd a k r g u
    | (none, u) => .ok (u.holdOn .placer (.plcFind rd rs1) 0#64)) := by
  have hzero : a.extractLsb' 32 16 = 0#16 := BitVec.eq_of_toNat_eq (by simpa [fld, Nat.shiftRight_eq_div_pow] using hgiven)
  have hbad : findBad s a = false := by rw [findBad, hzero]; rfl
  rw [exec_plcFind_eq ha hsup hok, findDo, hk, hr]
  dsimp only
  rw [hbad, if_neg Bool.false_ne_true, if_neg (not_not.2 hzero)]

theorem exec_plcFind_stopped (hgen : s.newGen = (none, t)) :
    exec (.plcFind rd rs1) s = .next (t.holdOn .placer (.plcFind rd rs1) 0#64) := by
  rw [exec_plcFind_new_gen ha hsup hok hk hr hgiven, hgen, commit_ok]

theorem exec_plcFind_reserves {o : Nat × Nat} {g : Gen} (ho : (findOrigins s a)[k]? = some o) (hgen : s.newGen = (some g, t)) (hrd : t.xOk rd) :
    exec (.plcFind rd rs1) s = .next (placerDone
      ((reserve t { vmid := s.vmid, ridx := r } (mkHandle r o.1 o.2 (4 * (fld a 3 0 + 1)) (4 * (fld a 7 4 + 1)) (bitAt a 9) g) s.myQueue).putX rd
        (mkHandle r o.1 o.2 (4 * (fld a 3 0 + 1)) (4 * (fld a 7 4 + 1)) (bitAt a 9) g)) (64 + k + 1)) := by
  have hget : (findOrigins s a).getD k (0, 0) = o := by rw [List.getD_eq_getElem?_getD, ho]; rfl
  have hme : t.me = s.me := me_of_slotsKept (slotsKept_newGen hgen)
  rw [exec_plcFind_new_gen ha hsup hok hk hr hgiven, hgen]
  dsimp only
  rw [findReserve, hget, findAnswer_of_xOk (xOk_of_slotsKept slotsKept_reserve hrd), commit_ok, findClks, hk, State.vmid, State.myQueue, hme]
  rfl

end Find

/-! ## plc.load (R461) -/

/-- The answer of a placement instruction, and its clk. -/
def placerAnswer (rd : XReg) (u : State) (v : Word) (n : Nat) : Except Trap State := do
  let u ← u.setX rd v
  return placerDone u n

theorem placerAnswer_of_xOk (hrd : u.xOk rd) (w : Word) (n : Nat) : placerAnswer rd u w n = .ok (placerDone (u.putX rd w) n) := by
  rw [placerAnswer, setX_of_xOk hrd]
  rfl

/-- The function that a loaded image is for. -/
def loadBound (d : Option Word) (rk : RKey) (s : State) : State := match d with | some d => bindDesc s rk d | none => s

/-- A load, its operands read and the image's record named. -/
def loadDo (rd : XReg) (h rec_ : Word) (d : Option Word) (t : State) : Except Trap State :=
  match handleRegion t h true with
  | none => placerAnswer rd t badState 1
  | some rk =>
    let rg := t.region rk
    if rg.st = 3 ∧ rg.imgva = rec_ ∧ d.isSome ∧ rg.wave.isNone then placerAnswer rd (loadBound d rk t) loadOk 1
    else if rg.st ≠ 1 ∧ rg.st ≠ 2 then placerAnswer rd t badState 1
    else do
      match ← checkRecord t t.agent rec_ (some (handleW rg.handle, handleH rg.handle)) with
      | .bad st s => placerAnswer rd s st (homeClk s rec_)
      | .good m s =>
        let n := (toWrite s rg.handle m).foldl (fun n q => n + q.1.n) 0
        let (st, s) := loadImage s rk m s.me.troot
        placerAnswer rd (if st = loadOk then loadBound d rk s else s) st (homeClk s rec_ + n / 4)

section Load
variable {rec_ : Word} {d : Option Word} {rk : RKey}

section Exec
variable (ha : s.xr rs1 = .ok a) (hh : s.xr rs2 = .ok h) (hsup : s.me.sup = true)
include ha hh hsup

theorem exec_plcLoad_illegal (hok : handleOk h = false) :
    exec (.plcLoad rd rs1 rs2) s = .next (s.takeTrap { cause := 0x01, tval := codeOf (.plcLoad rd rs1 rs2) }) := by
  change execPlcLoad rd rs1 rs2 s = _
  rw [execPlcLoad]
  dsimp only
  rw [needSup_of_sup hsup, ok_bind, ha, ok_bind, hh, ok_bind, hok]
  rfl

theorem exec_plcLoad_eq (hok : handleOk h = true) (himg : imageOperand s a = .ok (rec_, d, t)) :
    exec (.plcLoad rd rs1 rs2) s = s.commit (loadDo rd h rec_ d t) := by
  have hbits : ¬ (!handleOk h) = true := by rw [hok]; decide
  change execPlcLoad rd rs1 rs2 s = _
  rw [execPlcLoad]
  dsimp only
  rw [needSup_of_sup hsup, ok_bind, ha, ok_bind, hh, ok_bind, if_neg hbits, himg, ok_bind]
  rfl

end Exec

theorem loadDo_no_region (hrd : t.xOk rd) (hnone : handleRegion t h true = none) :
    loadDo rd h rec_ d t = .ok (placerDone (t.putX rd badState) 1) := by
  rw [loadDo, hnone]
  exact placerAnswer_of_xOk hrd _ _

variable (hrk : handleRegion t h true = some rk)
include hrk

theorem loadDo_swapped (hrd : t.xOk rd) (hst : (t.region rk).st = 4) :
    loadDo rd h rec_ d t = .ok (placerDone (t.putX rd badState) 1) := by
  rw [loadDo, hrk]
  dsimp only
  rw [hst, if_neg (by omega), if_pos (by omega)]
  exact placerAnswer_of_xOk hrd _ _

variable (hst : (t.region rk).st = 1 ∨ (t.region rk).st = 2)
include hst

theorem loadDo_checks : loadDo rd h rec_ d t = (do
    match ← checkRecord t t.agent rec_ (some (handleW (t.region rk).handle, handleH (t.region rk).handle)) with
    | .bad st s => placerAnswer rd s st (homeClk s rec_)
    | .good m s =>
      let n := (toWrite s (t.region rk).handle m).foldl (fun n q => n + q.1.n) 0
      let (st, s) := loadImage s rk m s.me.troot
      placerAnswer rd (if st = loadOk then loadBound d rk s else s) st (homeClk s rec_ + n / 4)) := by
  rw [loadDo, hrk]
  dsimp only
  rw [if_neg (by omega), if_neg (by omega)]

theorem loadDo_bad {st : Word}
    (hck : checkRecord t t.agent rec_ (some (handleW (t.region rk).handle, handleH (t.region rk).handle)) = .ok (.bad st v))
    (hrd : v.xOk rd) : loadDo rd h rec_ d t = .ok (placerDone (v.putX rd st) (homeClk v rec_)) := by
  rw [loadDo_checks hrk hst, hck, ok_bind]
  exact placerAnswer_of_xOk hrd _ _

/-- An image operand that is a record loads, and binds no function. -/
theorem loadDo_good {m : Img} {st : Word}
    (hck : checkRecord t t.agent rec_ (some (handleW (t.region rk).handle, handleH (t.region rk).handle)) = .ok (.good m v))
    (hload : loadImage v rk m v.me.troot = (st, z)) (hrd : z.xOk rd) :
    ∃ n, loadDo rd h rec_ none t = .ok (placerDone (z.putX rd st) n) := by
  rw [loadDo_checks hrk hst, hck, ok_bind]
  dsimp only
  rw [hload]
  dsimp only [loadBound]
  rw [ite_self, placerAnswer_of_xOk hrd]
  exact ⟨_, rfl⟩

end Load

/-! ## plc.rel (R464) -/

section Release
variable (ha : s.xr rs1 = .ok a) (hsup : s.me.sup = true)
include ha hsup

theorem exec_plcRel_illegal (hok : handleOk a = false) :
    exec (.plcRel rs1) s = .next (s.takeTrap { cause := 0x01, tval := codeOf (.plcRel rs1) }) := by
  change execPlcRel rs1 s = _
  rw [execPlcRel]
  dsimp only
  rw [needSup_of_sup hsup, ok_bind, ha, ok_bind, hok]
  rfl

variable (hok : handleOk a = true)
include hok

theorem exec_plcRel_eq : exec (.plcRel rs1) s = .next (match handleRegion s a false with
    | none => placerDone s 32
    | some rk => placerDone (releaseRegion s rk) (32 + (s.region rk).keys.length)) := by
  have hbits : ¬ (!handleOk a) = true := by rw [hok]; decide
  change execPlcRel rs1 s = _
  rw [execPlcRel]
  dsimp only
  rw [needSup_of_sup hsup, ok_bind, ha, ok_bind, if_neg hbits]
  cases handleRegion s a false <;> rfl

theorem exec_plcRel_none (hnone : handleRegion s a false = none) : exec (.plcRel rs1) s = .next (placerDone s 32) := by
  rw [exec_plcRel_eq ha hsup hok, hnone]

theorem exec_plcRel_releases {rk : RKey} (hrk : handleRegion s a false = some rk) :
    exec (.plcRel rs1) s = .next (placerDone (releaseRegion s rk) (32 + (s.region rk).keys.length)) := by
  rw [exec_plcRel_eq ha hsup hok, hrk]

end Release

/-! ## cfg.wr (R462) -/

theorem exec_of_cfgWr {i : Instr} (hi : i ∈ [Instr.cfgWr rs1 rs2, .cfgWrRestamp rs1 rs2]) : exec i s = s.commit (cfgWrite i rs1 rs2 s) := by
  simp only [List.mem_cons, List.not_mem_nil, or_false] at hi
  obtain rfl | rfl := hi <;> rfl

section Write
variable {i : Instr} (ha : s.xr rs1 = .ok a) (hh : s.xr rs2 = .ok h) (hsup : s.me.sup = true)
  (hi : i ∈ [Instr.cfgWr rs1 rs2, .cfgWrRestamp rs1 rs2])
include ha hh hsup hi

theorem exec_cfgWr_illegal (hok : handleOk a = false) : exec i s = .next (s.takeTrap { cause := 0x01, tval := codeOf i }) := by
  rw [exec_of_cfgWr hi, cfgWrite, needSup_of_sup hsup, ok_bind, ha, ok_bind, hh, ok_bind, hok]
  rfl

variable (hok : handleOk a = true)
include hok

theorem exec_cfgWr_restamps (hform : bitAt h 0 = true) (hres : fld h 63 17 = 0) (hmin : 1 ≤ fld h 16 1) (hmax : fld h 16 1 ≤ 0xFFFD) :
    exec i s = .next (cfgRestamp s a (BitVec.ofNat 16 (fld h 16 1))) := by
  have hbits : ¬ (!handleOk a) = true := by rw [hok]; decide
  rw [exec_of_cfgWr hi, cfgWrite, needSup_of_sup hsup, ok_bind, ha, ok_bind, hh, ok_bind, if_neg hbits]
  dsimp only
  rw [if_pos hform, if_neg (by omega)]
  rfl

theorem exec_cfgWr_bad_stamp (hform : bitAt h 0 = true) (hbad : fld h 63 17 ≠ 0 ∨ fld h 16 1 = 0 ∨ 0xFFFD < fld h 16 1) :
    exec i s = .next (s.takeTrap { cause := 0x01, tval := codeOf i }) := by
  have hbits : ¬ (!handleOk a) = true := by rw [hok]; decide
  rw [exec_of_cfgWr hi, cfgWrite, needSup_of_sup hsup, ok_bind, ha, ok_bind, hh, ok_bind, if_neg hbits]
  dsimp only
  rw [if_pos hform, if_pos hbad]
  rfl

variable (hform : bitAt h 0 = false)
include hform

theorem exec_cfgWr_unaligned (halign : fld h 2 0 ≠ 0) : exec i s = .next (s.takeTrap { cause := 0x03, tval := h }) := by
  have hbits : ¬ (!handleOk a) = true := by rw [hok]; decide
  rw [exec_of_cfgWr hi, cfgWrite, needSup_of_sup hsup, ok_bind, ha, ok_bind, hh, ok_bind, if_neg hbits]
  dsimp only
  rw [hform, if_neg Bool.false_ne_true, need_error (beq_false_of_ne halign)]
  rfl

theorem exec_cfgWr_writes (halign : fld h 2 0 = 0) (hrec : cfgRecord s a h = .ok t) : exec i s = .next t := by
  have hbits : ¬ (!handleOk a) = true := by rw [hok]; decide
  rw [exec_of_cfgWr hi, cfgWrite, needSup_of_sup hsup, ok_bind, ha, ok_bind, hh, ok_bind, if_neg hbits]
  dsimp only
  rw [hform, if_neg Bool.false_ne_true, need_ok (beq_iff_eq.2 halign), ok_bind, hrec, commit_ok]

end Write

/-! ## A cell restamped (R462) -/

theorem get?_map_from {α : Type} (f : Nat → α) : ∀ (len start : Nat) {n : Nat}, start ≤ n → n < start + len →
    AMap.get? ((List.range' start len).map fun k => (k, f k)) n = some (f n)
  | 0, start, n, hle, hlt => absurd hlt (by omega)
  | len + 1, start, n, hle, hlt => by
    rw [List.range'_succ, List.map_cons, AMap.get?]
    by_cases h : n = start
    · rw [if_pos h, h]
    · rw [if_neg h, if_neg (by omega), get?_map_from f len (start + 1) (by omega) (by omega)]

theorem store_restampCell (c : Cell) (x y : Nat) (g : Gen) {n : Nat} (hn : n < 72) :
    AMap.getD (restampCell c x y g).store n {} =
      if (AMap.getD c.store n {}).gen = 0xFFFF#16 then AMap.getD c.store n {} else { AMap.getD c.store n {} with gen := g } := by
  have hget := get?_map_from (fun k => if (AMap.getD c.store k {}).gen = 0xFFFF#16 then AMap.getD c.store k {}
    else { AMap.getD c.store k {} with gen := g }) 72 0 (Nat.zero_le n) (by omega)
  rw [← List.range_eq_range'] at hget
  rw [AMap.getD]
  exact (congrArg (Option.getD · {}) hget)

/-! ## cfg.chk (R463) -/

section Check
variable {rec_ : Word} {d : Option Word} (ha : s.xr rs1 = .ok a) (hsup : s.me.sup = true) (himg : imageOperand s a = .ok (rec_, d, t))
include ha hsup himg

theorem exec_cfgChk_bad {st : Word} (hck : checkRecord t t.agent rec_ none = .ok (.bad st v)) (hrd : v.xOk rd) :
    ∃ n, exec (.cfgChk rd rs1) s = .next (placerDone (v.putX rd st) n) := by
  change ∃ n, execCfgChk rd rs1 s = _
  rw [execCfgChk, needSup_of_sup hsup, ok_bind, ha, ok_bind, himg, ok_bind]
  dsimp only
  rw [hck, ok_bind]
  dsimp only
  rw [setX_of_xOk hrd]
  exact ⟨_, rfl⟩

theorem exec_cfgChk_good {m : Img} (hck : checkRecord t t.agent rec_ none = .ok (.good m v)) (hrd : v.xOk rd) :
    ∃ n, exec (.cfgChk rd rs1) s = .next (placerDone (v.putX rd loadOk) n) := by
  change ∃ n, execCfgChk rd rs1 s = _
  rw [execCfgChk, needSup_of_sup hsup, ok_bind, ha, ok_bind, himg, ok_bind]
  dsimp only
  rw [hck, ok_bind]
  dsimp only
  rw [setX_of_xOk hrd]
  exact ⟨_, rfl⟩

end Check

end Sys2Proof.Machine

open Sys2Proof Sys2Proof.Machine

/-- Settles O47: each placement instruction by what it answers. That reserved bits of a handle are ILLEGAL is the model's choice
(log 56). -/
theorem placementInstructions : Obligations.PlacementInstructions := by
  intro s t rd rs1 rs2 a h ha hh hsup _ hrd
  refine ⟨⟨exec_plcFind_illegal ha hsup, fun hok => exec_plcFind_no_origin ha hsup hok hrd,
      fun hok hnone => ⟨_, exec_plcFind_no_entry ha hsup hok hrd hnone⟩, fun k r hok => exec_plcFind_stopped ha hsup hok,
      fun k o r g hok hk ho hr hgiven => exec_plcFind_reserves ha hsup hok hk hr hgiven ho⟩,
    exec_plcLoad_illegal ha hh hsup, ?load, fun hok => ⟨exec_plcRel_none ha hsup hok, fun rk => exec_plcRel_releases ha hsup hok⟩,
    ?illegal, fun hok i hi => ⟨exec_cfgWr_restamps ha hh hsup hi hok, exec_cfgWr_bad_stamp ha hh hsup hi hok,
      exec_cfgWr_unaligned ha hh hsup hi hok, exec_cfgWr_writes ha hh hsup hi hok⟩, ?restamp,
    fun rec_ d v himg => ⟨fun st => exec_cfgChk_bad ha hsup himg, fun m => exec_cfgChk_good ha hsup himg⟩⟩
  case load =>
    intro rec_ d hok himg hrd
    rw [exec_plcLoad_eq ha hh hsup hok himg]
    refine ⟨fun hnone => by rw [loadDo_no_region hrd hnone, commit_ok], fun rk hrk =>
      ⟨fun hst => by rw [loadDo_swapped hrk hrd hst, commit_ok], fun hst => ⟨fun st v hck hv => ?bad, ?good⟩⟩⟩
    case bad => exact ⟨_, by rw [loadDo_bad hrk hst hck hv, commit_ok]⟩
    case good =>
      rintro m v st z rfl hck hload hz
      obtain ⟨n, hn⟩ := loadDo_good hrk hst hck hload hz
      exact ⟨n, by rw [hn, commit_ok]⟩
  case illegal =>
    intro hok i hi
    obtain rfl | hi := List.mem_cons.1 hi
    · exact exec_plcRel_illegal ha hsup hok
    · exact exec_cfgWr_illegal ha hh hsup hi hok
  case restamp =>
    intro g rk _ _ _ key n hn
    rw [store_restampCell _ _ _ g hn]
    exact ⟨fun hgen => by rw [if_neg hgen], fun hgen => by rw [if_pos hgen]⟩
end

section
/-! Nothing that a device agent does in memory touches a tenant's tides (R224) or the readings of power and heat (R489): of a tenant, a
write counts events only. -/

namespace Sys2Proof.Machine

variable {s t u : State}

/-- Every tenant has the tides it had, and the module its readings of power and heat. -/
def spares (s t : State) : Prop :=
  (∀ v, (t.tenant v).tides = (s.tenant v).tides) ∧ t.mgmt.temps = s.mgmt.temps ∧ t.mgmt.power = s.mgmt.power

theorem spares_refl (s : State) : spares s s := ⟨fun _ => rfl, rfl, rfl⟩

theorem spares_trans (h : spares s t) (g : spares t u) : spares s u :=
  ⟨fun v => (g.1 v).trans (h.1 v), g.2.1.trans h.2.1, g.2.2.trans h.2.2⟩

theorem spares_of_eq (htenants : t.tenants = s.tenants) (htemps : t.mgmt.temps = s.mgmt.temps)
    (hpower : t.mgmt.power = s.mgmt.power) : spares s t :=
  ⟨fun v => by rw [State.tenant, State.tenant, htenants], htemps, hpower⟩

theorem spares_foldl {α : Type} {f : State → α → State} (h : ∀ s a, spares s (f s a)) (l : List α) (s : State) :
    spares s (l.foldl f s) := by
  induction l generalizing s with
  | nil => exact spares_refl s
  | cons a l ih => exact spares_trans (h s a) (ih _)

theorem spares_count (s : State) (v : Nat) (c : Ctr) : spares s (s.count v c) := by
  refine ⟨fun k => ?_, rfl, rfl⟩
  by_cases hk : k = v
  · rw [hk, State.count, tenant_modTenant]
  · rw [State.count, tenant_modTenant_ne s _ hk]

theorem spares_modCove (s : State) (n : Nat) (f : Cove → Cove) : spares s (s.modCove n f) := spares_of_eq rfl rfl rfl
theorem spares_modCore (s : State) (n : Nat) (f : Core → Core) : spares s (s.modCore n f) := spares_of_eq rfl rfl rfl
theorem spares_walked (s : State) (b : Bool) : spares s { s with walked := b } := spares_of_eq rfl rfl rfl
theorem spares_stallFor (s : State) (n : Nat) : spares s (s.stallFor n) := spares_of_eq rfl rfl rfl

/-! ## Lines at their homes -/

theorem spares_pick (s : State) (n : Nat) : spares s (s.pick n).2 := by
  unfold State.pick
  split <;> exact spares_of_eq rfl rfl rfl

theorem spares_putBytes (s : State) (line : Nat) (bs : List (Nat × Byte)) : spares s (putBytes s line bs) := by
  induction bs generalizing s with
  | nil => exact spares_refl s
  | cons p r ih =>
    refine spares_trans (t := { s with mem := Bytes.wr s.mem (64 * line + p.1) p.2 }) (spares_of_eq rfl rfl rfl) (spares_trans ?_ (ih _))
    split
    · exact spares_of_eq rfl rfl rfl
    · exact spares_refl _

theorem spares_putLine (s : State) (line : Nat) (whole : Bool) (bs : List (Nat × Byte)) : spares s (putLine s line whole bs) := by
  unfold putLine
  split
  · exact spares_of_eq rfl rfl rfl
  · exact spares_trans (t := { s with poison := AMap.del s.poison line }) (spares_of_eq rfl rfl rfl) (spares_putBytes _ _ _)

theorem spares_invalidate (s : State) (src : Option Nat) (line : Nat) (l : List Nat) : spares s (invalidate s src line l) := by
  induction l generalizing s with
  | nil => exact spares_refl s
  | cons c r ih =>
    refine spares_trans ?_ (ih _)
    split
    · exact spares_refl s
    · split
      · exact spares_refl s
      · next l _ =>
        have hput : spares s (if l.unsent.isEmpty then s else putLine s line l.whole l.unsent) := by
          split
          · exact spares_refl s
          · exact spares_putLine _ _ _ _
        refine spares_trans hput ?_
        dsimp only
        generalize (if l.unsent.isEmpty = true then s else putLine s line l.whole l.unsent) = u
        split <;> exact spares_of_eq rfl rfl rfl

theorem spares_homePut (s : State) (src : Option Nat) (line : Nat) (whole : Bool) (bs : List (Nat × Byte)) :
    spares s (homePut s src line whole bs) := by
  unfold homePut
  split
  · exact spares_of_eq rfl rfl rfl
  · exact spares_trans (spares_invalidate _ _ _ _) (spares_putLine _ _ _ _)

theorem spares_homeWriteAux (n : Nat) (s : State) (src : Option Nat) (pa : Nat) (bs : List Byte) :
    spares s (homeWriteAux n s src pa bs) := by
  induction n generalizing s pa bs with
  | zero => exact spares_refl s
  | succ n ih =>
    unfold homeWriteAux
    split
    · exact spares_refl s
    · exact spares_trans (spares_homePut _ _ _ _ _) (ih _ _ _)

/-! ## The register window -/

theorem spares_wakeMgmt (s : State) : spares s s.wakeMgmt := by
  unfold State.wakeMgmt
  split
  · exact spares_refl s
  · split <;> exact spares_of_eq rfl rfl rfl

theorem spares_wakeQueue (s : State) (q n : Nat) : spares s (s.wakeQueue q n) := by
  unfold State.wakeQueue
  split
  · exact spares_wakeMgmt s
  · split
    · exact spares_refl s
    · split <;> exact spares_of_eq rfl rfl rfl

theorem spares_slotWrite (s : State) (q off : Nat) (bs : List Byte) : spares s (slotWrite s q off bs) := by
  unfold slotWrite
  dsimp only
  split
  · exact spares_refl s
  · split
    · split
      · exact spares_trans (t := s.setQueue q { s.queue q with ovr := true }) (spares_of_eq rfl rfl rfl) (spares_count _ _ _)
      · exact spares_refl s
    · split
      · refine spares_trans (t := s.setQueue q
          { s.queue q with window := Bytes.wrN (s.queue q).window off bs, ingress := (s.queue q).ingress ++ [off / 64] })
          (spares_of_eq rfl rfl rfl) (spares_trans ?_ (spares_wakeQueue _ _ _))
        split <;> exact spares_of_eq rfl rfl rfl
      · exact spares_of_eq rfl rfl rfl

theorem spares_windowWrite (n : Nat) (s : State) (q off : Nat) (bs : List Byte) : spares s (windowWrite n s q off bs) := by
  induction n generalizing s off bs with
  | zero => exact spares_refl s
  | succ n ih =>
    unfold windowWrite
    split
    · exact spares_refl s
    · exact spares_trans (spares_slotWrite _ _ _ _) (ih _ _ _)

theorem spares_regWrite (s : State) (off : Nat) (bs : List Byte) : spares s (regWrite s off bs) := by
  unfold regWrite
  split
  · exact spares_windowWrite _ _ _ _ _
  · split
    · exact spares_of_eq rfl rfl rfl
    · split
      · exact spares_of_eq rfl rfl rfl
      · split
        · exact spares_of_eq rfl rfl rfl
        · exact spares_refl s

theorem spares_homeWrite (s : State) (src : Option Nat) (pa : Nat) (bs : List Byte) : spares s (s.homeWrite src pa bs) := by
  unfold State.homeWrite
  split
  · exact spares_regWrite _ _ _
  · exact spares_homeWriteAux _ _ _ _ _

/-! ## A store at its home, for an agent without a core -/

theorem spares_l2Forward (s : State) (cove line : Nat) : spares s (s.l2Forward cove line) := by
  unfold State.l2Forward
  split
  · exact spares_refl s
  · split
    · exact spares_refl s
    · exact spares_trans (spares_modCove _ _ _) (spares_homePut _ _ _ _ _)

theorem spares_gather (s : State) (line : Nat) : spares s (s.gather line) := spares_foldl (fun _ _ => spares_l2Forward _ _ _) _ _

theorem spares_dropOld (s : State) (cove line : Nat) : spares s (s.dropOld cove line) := by
  unfold State.dropOld
  split
  · exact spares_refl s
  · split <;> exact spares_of_eq rfl rfl rfl

theorem spares_atHome {ag : Agent} (hdev : ag.core = none) (s : State) (p : Phys) : spares s (s.atHome ag p) := by
  rw [State.atHome, hdev]
  exact spares_gather _ _

theorem spares_putHome {ag : Agent} (hdev : ag.core = none) (s : State) (p : Phys) (bs : List Byte) :
    spares s (s.putHome ag p bs) :=
  spares_trans (spares_atHome hdev _ _) (spares_trans (spares_homeWrite _ _ _ _) (spares_dropOld _ _ _))

/-! ## Translation -/

theorem spares_leafOf (s : State) (rd : Nat → Option Word) (level idx : Nat) (e : Word) : spares s (leafOf s rd level idx e).2 := by
  unfold leafOf
  dsimp only
  split
  · exact spares_pick _ _
  · exact spares_refl s

theorem spares_tableEntry {w : Walker} {level pa : Nat} {e : Word} (h : s.tableEntry w level pa = .ok (e, t)) : spares s t := by
  have answer : ∀ {x : Word} {u : State}, spares s u → (.ok (x, u) : Except WalkFail (Word × State)) = .ok (e, t) → spares s t := by
    intro x u hu he
    simp only [Except.ok.injEq, Prod.mk.injEq] at he
    exact he.2 ▸ hu
  unfold State.tableEntry at h
  split at h
  · split at h
    · cases h
    · exact answer (spares_refl s) h
  · split at h
    · exact answer (spares_refl s) h
    · split at h
      · cases h
      · dsimp only at h
        split at h
        · exact answer (spares_refl s) h
        · split at h
          · exact answer (spares_modCove _ _ _) h
          · exact answer (spares_trans (spares_pick _ _) (spares_modCove _ _ _)) h

theorem spares_walk2 {w : Walker} {ipa n : Nat} {l : Leaf} {t : State} :
    ∀ {s : State} {table : Nat}, walk2 s w ipa table n = .ok (l, t) → spares s t := by
  induction n with
  | zero => intro s table h; simp [walk2] at h
  | succ n ih =>
    intro s table h
    simp only [walk2] at h
    split at h
    · cases h
    · next e u he =>
      refine spares_trans (spares_tableEntry he) ?_
      split at h
      · cases h
      · split at h
        · injection h with h
          exact (congrArg (fun q => spares u q.2) h).mp (spares_leafOf u _ (n + 1) _ _)
        · exact ih h

theorem spares_walkRead {w : Walker} {root ipa pa : Nat} (h : walkRead s w root ipa = .ok (pa, t)) : spares s t := by
  unfold walkRead at h
  split at h
  · cases h
  · split at h
    · cases h
    · next h2 =>
      dsimp only at h
      split at h
      · cases h; exact spares_walk2 h2
      · cases h

theorem spares_walk1 {w : Walker} {root va n : Nat} {l : Leaf} {t : State} :
    ∀ {s : State} {table : Nat}, walk1 s w root va table n = .ok (l, t) → spares s t := by
  induction n with
  | zero => intro s table h; simp [walk1] at h
  | succ n ih =>
    intro s table h
    simp only [walk1] at h
    split at h
    · cases h
    · next hr =>
      split at h
      · cases h
      · next e u he =>
        refine spares_trans (spares_walkRead hr) (spares_trans (spares_tableEntry he) ?_)
        split at h
        · cases h
        · split at h
          · injection h with h
            exact (congrArg (fun q => spares u q.2) h).mp (spares_leafOf u _ (n + 1) _ _)
          · exact ih h

theorem spares_walkBoth {ag : Agent} {va : Nat} {e : TlbEntry} (h : walkBoth s ag va = .ok (e, t)) : spares s t := by
  unfold walkBoth at h
  dsimp only at h
  split at h
  · cases h
  · next hw =>
    split at h
    · cases h
    · cases h; exact spares_walk1 hw
    · next h2 => cases h; exact spares_trans (spares_walk1 hw) (spares_walk2 h2)

theorem spares_tlbAdd (s : State) (cap : Nat) (t : List TlbEntry) (e : TlbEntry) : spares s (tlbAdd s cap t e).2 := by
  unfold tlbAdd
  split
  · exact spares_refl s
  · exact spares_pick _ _

theorem spares_nearTlbAdd (s : State) (ag : Agent) (e : TlbEntry) : spares s (s.nearTlbAdd ag e) := by
  unfold State.nearTlbAdd
  split
  · exact spares_trans (spares_tlbAdd _ _ _ _) (spares_modCore _ _ _)
  · exact spares_trans (spares_tlbAdd _ _ _ _) (spares_modCove _ _ _)
  · exact spares_refl s

theorem spares_joinMiss (s : State) (ag : Agent) (va : Nat) : spares s (joinMiss s ag va) := by
  unfold joinMiss
  split
  · exact spares_trans (spares_walked _ _) (spares_stallFor _ _)
  · exact spares_refl s

theorem spares_startMiss (s : State) (ag : Agent) (va : Nat) : spares s (startMiss s ag va) :=
  spares_trans (spares_walked _ _) (spares_trans (spares_stallFor _ _) (spares_modCove _ _ _))

theorem spares_lookup {ag : Agent} {va : Nat} {e : TlbEntry} (h : lookup s ag va = .ok (e, t)) : spares s t := by
  unfold lookup at h
  split at h
  · cases h; exact spares_joinMiss _ _ _
  · split at h
    · cases h
      exact spares_trans (spares_nearTlbAdd _ _ _)
        (spares_trans (spares_walked _ _) (spares_trans (spares_stallFor _ _) (spares_joinMiss _ _ _)))
    · split at h
      · cases h
      · next hw =>
        split at h
        · cases h; exact spares_walkBoth hw
        · cases h
          exact spares_trans (spares_walkBoth hw) (spares_trans (spares_tlbAdd _ _ _ _)
            (spares_trans (spares_modCove _ _ _) (spares_trans (spares_nearTlbAdd _ _ _) (spares_startMiss _ _ _))))

theorem spares_translate {ag : Agent} {va : Word} {k : Kind} {p : Phys} (h : translate s ag va k = .ok (p, t)) : spares s t := by
  unfold translate at h
  cases hl : lookup s ag (fld va 54 0) with
  | error f => simp only [hl] at h; split at h <;> cases f <;> simp at h
  | ok r =>
    obtain ⟨e, u⟩ := r
    have hsame := spares_lookup hl
    simp only [hl] at h
    repeat' split at h
    all_goals simp only [Except.ok.injEq, Prod.mk.injEq, reduceCtorEq] at h
    all_goals exact h.2 ▸ hsame

theorem spares_xlat {ag : Agent} {va : Word} {k : Kind} {p : Phys} (h : xlat s ag va k = .ok (p, t)) : spares s t := by
  unfold xlat at h
  split at h
  · cases h
  · next ht =>
    split at h
    · cases h
    · cases h; exact spares_translate ht

/-! ## Words and rings of a device agent (R487) -/

theorem spares_homeStore {ag : Agent} (hdev : ag.core = none) {va w : Word} (h : s.homeStore ag va w = .ok t) : spares s t := by
  unfold State.homeStore at h
  split at h
  · cases h
  · next hx => cases h; exact spares_trans (spares_xlat hx) (spares_putHome hdev _ _ _)

theorem spares_homePuts {ag : Agent} (hdev : ag.core = none) {ws : List Word} :
    ∀ {s : State} {va : Word}, homePuts s ag va ws = .ok t → spares s t := by
  induction ws with
  | nil => rintro s va ⟨⟩; exact spares_refl _
  | cons w ws ih =>
    intro s va h
    unfold homePuts at h
    split at h
    · cases h
    · next hstore => exact spares_trans (spares_homeStore hdev hstore) (ih h)

theorem spares_homeLoad {ag : Agent} (hdev : ag.core = none) {va w : Word} {k : Kind} {p : Phys}
    (h : s.homeLoad ag va k = .ok (w, p, t)) : spares s t := by
  unfold State.homeLoad at h
  split at h
  · cases h
  · next hx => cases h; exact spares_trans (spares_xlat hx) (spares_atHome hdev _ _)

theorem spares_homeWords {ag : Agent} (hdev : ag.core = none) {n : Nat} :
    ∀ {s : State} {va : Word} {ws : List Word}, homeWords s ag va n = .ok (ws, t) → spares s t := by
  induction n with
  | zero => rintro s va ws ⟨⟩; exact spares_refl _
  | succ n ih =>
    intro s va ws h
    unfold homeWords at h
    split at h
    · cases h
    · next hload =>
      split at h
      · cases h
      · next hrest => cases h; exact spares_trans (spares_homeLoad hdev hload) (ih hrest)

theorem spares_ringAppend {ag : Agent} (hdev : ag.core = none) {base : Word} {ws : List Word}
    (h : ringAppend s ag base ws = some t) : spares s t := by
  unfold ringAppend at h
  split at h
  · next hwords =>
    dsimp only at h
    split at h
    · cases h
    · split at h
      · cases h
      · split at h
        · cases h
        · next hputs =>
          split at h
          · next hstore =>
            cases h
            exact spares_trans (spares_homeWords hdev hwords) (spares_trans (spares_homePuts hdev hputs) (spares_homeStore hdev hstore))
          · cases h
  · cases h

theorem spares_trace (s : State) (vmid cls un code : Nat) (a b : Word) : spares s (s.trace vmid cls un code a b) := by
  unfold State.trace
  dsimp only
  split
  · exact spares_refl s
  · split
    · next hring => exact spares_ringAppend rfl hring
    · exact spares_count _ _ _

end Sys2Proof.Machine
end

section
/-! Management commands (R471-R482, R487-R489): what every command shares, each command's outcomes, and O52. -/

namespace Sys2Proof.Machine

variable {s t u z : State} {q : Nat} {p : MPkt}

/-! ## What every command shares (R474, R475) -/

/-- The end of a command: the audit record of one marked H, and the completion word. -/
def finishCmd (q : Nat) (p : MPkt) (h : Bool) (cmd st res : Nat) (u : State) : State :=
  endCommand (if h then u.audit cmd q (u.queue q).vmid p.a0 p.a1 p.a2 st else u) q cmd p st res

section Command
variable {ev : Ev} {cmd : Nat} {h : Bool} {run : State → Cmd}

theorem command_of_other (hne : nextPacket s q ≠ some ev) : command s q ev cmd h p run = .next s := if_pos hne

variable (hev : nextPacket s q = some ev)
include hev

theorem command_of_next : command s q ev cmd h p run = if h && !isHostQ s q then .next (finishCmd q p h cmd 0xE2 0 s)
    else match run s with
      | .ok s r => .next (finishCmd q p h cmd 0 r s)
      | .fail st => .next (finishCmd q p h cmd st 0 s)
      | .wait s => .next (s.after 1 ev) :=
  if_neg (not_not.2 hev)

theorem command_nopriv (hhost : isHostQ s q = false) : command s q ev cmd true p run = .next (finishCmd q p true cmd 0xE2 0 s) := by
  rw [command_of_next hev, hhost]
  rfl

variable (hpriv : h = true → isHostQ s q = true)
include hpriv

theorem command_runs : command s q ev cmd h p run = match run s with
    | .ok s r => .next (finishCmd q p h cmd 0 r s)
    | .fail st => .next (finishCmd q p h cmd st 0 s)
    | .wait s => .next (s.after 1 ev) := by
  rw [command_of_next hev]
  refine if_neg ?_
  cases h with
  | false => exact Bool.false_ne_true
  | true => rw [hpriv rfl]; exact Bool.false_ne_true

theorem command_ok {r : Nat} (hrun : run s = .ok u r) : command s q ev cmd h p run = .next (finishCmd q p h cmd 0 r u) := by
  rw [command_runs hev hpriv, hrun]

theorem command_fail {st : Nat} (hrun : run s = .fail st) : command s q ev cmd h p run = .next (finishCmd q p h cmd st 0 s) := by
  rw [command_runs hev hpriv, hrun]

theorem command_wait (hrun : run s = .wait u) : command s q ev cmd h p run = .next (u.after 1 ev) := by
  rw [command_runs hev hpriv, hrun]

end Command

theorem cmdNeed_ok {b : Bool} (h : b = true) (st : Nat) (k : Cmd) : cmdNeed b st k = k := if_pos h

theorem cmdNeed_fail {b : Bool} (h : b = false) (st : Nat) (k : Cmd) : cmdNeed b st k = .fail st :=
  if_neg (by rw [h]; exact Bool.false_ne_true)

section Own
variable {w : Word} {k : Cmd}

theorem ownVmid_of_own (hown : isHostQ s q = true ∨ w.toNat = (s.queue q).vmid) (hlt : w.toNat < 64)
    (hpresent : (s.tenant w.toNat).present = true) : ownVmid s q w k = k := by
  have hmine : ¬ (!isHostQ s q && w.toNat != (s.queue q).vmid) = true := by
    rcases hown with h | h
    · rw [h]; exact Bool.false_ne_true
    · rw [h]; simp
  have hthere : ¬ (64 ≤ w.toNat ∨ (!(s.tenant w.toNat).present) = true) := by
    rw [hpresent]
    rintro (h | h)
    · omega
    · cases h
  rw [ownVmid, if_neg hmine, if_neg hthere]

theorem ownVmid_of_other (hhost : isHostQ s q = false) (hne : w.toNat ≠ (s.queue q).vmid) : ownVmid s q w k = .fail 0xE2 := by
  refine if_pos ?_
  rw [hhost, bne_iff_ne.2 hne]
  rfl

end Own

/-! ## RESULT at RESP (R475) -/

section Respond
variable {bs : List Byte} {r : Nat}

theorem respond_of_none (h : p.resp = 0#64) : respond s q p bs r = .ok s r := if_pos h

theorem respond_of_written (h : p.resp ≠ 0#64) (hw : cmdWrite s q p.resp bs = some t) : respond s q p bs r = .ok t r := by
  rw [respond, if_neg h, hw]

theorem respond_of_refused (h : p.resp ≠ 0#64) (hw : cmdWrite s q p.resp bs = none) : respond s q p bs r = .fail 0xE8 := by
  rw [respond, if_neg h, hw]
  rfl

end Respond

/-- Reading for a host queue changes nothing. -/
theorem cmdRead_of_host {a : Word} {n : Nat} {bs : List Byte} (hhost : isHostQ s q = true) (h : cmdRead s q a n = some (bs, u)) : u = s := by
  rw [cmdRead, if_pos hhost] at h
  split at h
  · split at h
    · cases h; rfl
    · cases h
  · cases h

/-! ## Tenants (R472, R473) -/

/-- What TENANT_CREATE asks of its argument block. -/
def createOk (u : State) (v : Nat) (bs : List Byte) : Prop :=
  v < 64 ∧ (u.tenant v).present = false ∧ argsOk (tenantArgs bs) bs = true
    ∧ (tenantAreas (tenantArgs bs)).all (areaMapped { u.setTenant v { present := true, args := tenantArgs bs } with coves := [] }
        { vmid := v, troot := (tenantArgs bs).troot, sup := true, core := none, cove := 0 }) = true

theorem createOk_iff {v : Nat} {bs : List Byte} : createOk u v bs ↔
    ¬ (64 ≤ v ∨ (u.tenant v).present = true ∨ (!argsOk (tenantArgs bs) bs) = true
      ∨ (!(tenantAreas (tenantArgs bs)).all (areaMapped { u.setTenant v { present := true, args := tenantArgs bs } with coves := [] }
          { vmid := v, troot := (tenantArgs bs).troot, sup := true, core := none, cove := 0 })) = true) := by
  simp only [createOk, not_or, Nat.not_le, Bool.not_eq_true, Bool.not_eq_false']

/-- The tenant of an argument block, made after its generation. -/
def createTenant (t : State) (v : Nat) (bs : List Byte) (g : Gen) : State :=
  emptyTides (((List.range 4).foldl (fun s k => s.modQuad k fun x => { x with ctr := x.ctr.filter fun e => e.1 / 8 != v }) t).setTenant v
    { present := true, args := tenantArgs bs, gen := g })
    { vmid := v, troot := (tenantArgs bs).troot, sup := true, core := none, cove := 0 } (tenantArgs bs)

theorem tenants_emptyTides (ag : Agent) (a : TenantArgs) : (emptyTides s ag a).tenants = s.tenants := by
  unfold emptyTides
  split <;> rfl

theorem tenant_createTenant {v : Nat} {bs : List Byte} {g : Gen} (k : Nat) : (createTenant t v bs g).tenant k =
    (t.setTenant v { present := true, args := tenantArgs bs, gen := g }).tenant k := by
  rw [State.tenant, State.tenant, createTenant, tenants_emptyTides]
  rfl

section Create
variable (hev : nextPacket s q = some (.tenantCreate q p)) (hhost : isHostQ s q = true) {bs : List Byte}
  (hread : cmdRead s q p.a0 256 = some (bs, u))
include hev hhost hread

theorem exec_tenantCreate_bad (hbad : ¬ createOk u p.a1.toNat bs) :
    exec (.tenantCreate q p) s = .next (finishCmd q p true 1 0xE3 0 s) := by
  change execTenantCreate q p s = _
  refine command_fail hev (fun _ => hhost) ?_
  dsimp only
  rw [hread]
  exact if_pos (not_not.1 (mt createOk_iff.2 hbad))

variable (hok : createOk u p.a1.toNat bs)
include hok

theorem exec_tenantCreate_waits (hgen : u.newGen = (none, t)) :
    exec (.tenantCreate q p) s = .next (t.after 1 (.tenantCreate q p)) := by
  change execTenantCreate q p s = _
  refine command_wait hev (fun _ => hhost) ?_
  dsimp only
  rw [hread]
  refine (if_neg (createOk_iff.1 hok)).trans ?_
  rw [hgen]

theorem exec_tenantCreate_creates {g : Gen} (hgen : u.newGen = (some g, t)) :
    exec (.tenantCreate q p) s = .next (finishCmd q p true 1 0 p.a1.toNat (createTenant t p.a1.toNat bs g)) := by
  change execTenantCreate q p s = _
  refine command_ok hev (fun _ => hhost) ?_
  dsimp only
  rw [hread]
  refine (if_neg (createOk_iff.1 hok)).trans ?_
  rw [hgen]
  rfl

end Create

theorem tenant_destroyTenant (v : Nat) : (destroyTenant s v).tenant v = {} := tenant_setTenant _ _ _

section Host
variable (hhost : isHostQ s q = true)
include hhost

section Destroy
variable (hev : nextPacket s q = some (.tenantDestroy q p))
include hev

theorem exec_tenantDestroy_destroys (hlt : p.a0.toNat < 64) (hpresent : (s.tenant p.a0.toNat).present = true) :
    exec (.tenantDestroy q p) s = .next (finishCmd q p true 2 0 0 (destroyTenant s p.a0.toNat)) := by
  change execTenantDestroy q p s = _
  exact command_ok hev (fun _ => hhost) (cmdNeed_ok (by rw [decide_eq_true hlt, hpresent]; rfl) _ _)

theorem exec_tenantDestroy_bad (hbad : 64 ≤ p.a0.toNat ∨ (s.tenant p.a0.toNat).present = false) :
    exec (.tenantDestroy q p) s = .next (finishCmd q p true 2 0xE3 0 s) := by
  change execTenantDestroy q p s = _
  exact command_fail hev (fun _ => hhost) (cmdNeed_fail (by rcases hbad with h | h <;> simp [h]) _ _)

end Destroy

/-! ## Queues and windows (R286, R476) -/

section Bind
variable (hev : nextPacket s q = some (.queueBind q p))
include hev

theorem exec_queueBind_bad (hbad : bindOk s p = false) : exec (.queueBind q p) s = .next (finishCmd q p true 3 0xE3 0 s) := by
  change execQueueBind q p s = _
  exact command_fail hev (fun _ => hhost) (if_pos (by rw [hbad]; rfl))

variable (hok : bindOk s p = true)
include hok

/-- A queue whose dispatched work is left is not bound anew: the model's choice (log 70). -/
theorem exec_queueBind_busy (hbusy : queueBusy s p.a0.toNat = true) :
    exec (.queueBind q p) s = .next (finishCmd q p true 3 0xE3 0 s) := by
  change execQueueBind q p s = _
  exact command_fail hev (fun _ => hhost) ((if_neg (by rw [hok]; exact Bool.false_ne_true)).trans (if_pos hbusy))

variable (hfree : queueBusy s p.a0.toNat = false) {bs : List Byte} (hread : cmdRead s q p.a2 32 = some (bs, u))
include hfree hread

theorem exec_queueBind_waits (hgen : u.newGen = (none, t)) : exec (.queueBind q p) s = .next (t.after 1 (.queueBind q p)) := by
  change execQueueBind q p s = _
  refine command_wait hev (fun _ => hhost) ?_
  refine (if_neg (by rw [hok]; exact Bool.false_ne_true)).trans ((if_neg (by rw [hfree]; exact Bool.false_ne_true)).trans ?_)
  rw [hread]
  dsimp only
  rw [hgen]

theorem exec_queueBind_binds {g : Gen} (hgen : u.newGen = (some g, t)) :
    exec (.queueBind q p) s = .next (finishCmd q p true 3 0 0 (t.setQueue p.a0.toNat
      { bound := true, vmid := fld p.a1 7 0, kind := fld p.a1 9 8, cls := p.a1.extractLsb' 10 2, weight := fld p.a1 19 12
        dom := p.a1.extractLsb' 20 3, trapMode := bitAt p.a1 23, mask := BitVec.ofNat 256 (bytesNat bs), spillVa := p.a3
        spillN := p.a4.toNat, gen := g })) := by
  change execQueueBind q p s = _
  refine command_ok hev (fun _ => hhost) ?_
  refine (if_neg (by rw [hok]; exact Bool.false_ne_true)).trans ((if_neg (by rw [hfree]; exact Bool.false_ne_true)).trans ?_)
  rw [hread]
  dsimp only
  rw [hgen]

end Bind

section Unbind
variable (hev : nextPacket s q = some (.queueUnbind q p))
include hev

theorem exec_queueUnbind_unbinds (hlt : p.a0.toNat < 2048) (hbound : (s.queue p.a0.toNat).bound = true) (hne : p.a0.toNat ≠ q) :
    exec (.queueUnbind q p) s = .next (finishCmd q p true 4 0 0 (unbindQueue s p.a0.toNat)) := by
  change execQueueUnbind q p s = _
  exact command_ok hev (fun _ => hhost) (cmdNeed_ok (by rw [decide_eq_true hlt, hbound, bne_iff_ne.2 hne]; rfl) _ _)

theorem exec_queueUnbind_bad (hbad : 2048 ≤ p.a0.toNat ∨ (s.queue p.a0.toNat).bound = false ∨ p.a0.toNat = q) :
    exec (.queueUnbind q p) s = .next (finishCmd q p true 4 0xE3 0 s) := by
  change execQueueUnbind q p s = _
  exact command_fail hev (fun _ => hhost) (cmdNeed_fail (by rcases hbad with h | h | h <;> simp [h]) _ _)

end Unbind

section Window
variable (hev : nextPacket s q = some (.windowMap q p))
include hev

theorem exec_windowMap_unmaps (hlt : p.a0.toNat < 64) (hop : p.a3 = 0#64) : exec (.windowMap q p) s =
    .next (finishCmd q p true 5 0 0 (s.modMgmt fun m => { m with windows := AMap.del m.windows p.a0.toNat })) := by
  change execWindowMap q p s = _
  exact command_ok hev (fun _ => hhost) ((if_neg (by rw [hop]; simpa using hlt)).trans (if_pos hop))

theorem exec_windowMap_maps (hlt : p.a0.toNat < 64) (hop : p.a3 = 1#64) (hvmid : p.a1.toNat < 64)
    (hpresent : (s.tenant p.a1.toNat).present = true) (hlow : fld p.a2 29 0 = 0) (hhigh : fld p.a2 63 52 = 0) :
    exec (.windowMap q p) s = .next (finishCmd q p true 5 0 0
      (s.modMgmt fun m => { m with windows := AMap.set m.windows p.a0.toNat { vmid := p.a1.toNat, ipa := p.a2 } })) := by
  change execWindowMap q p s = _
  refine command_ok hev (fun _ => hhost) ((if_neg (by rw [hop]; simpa using hlt)).trans ((if_neg (by rw [hop]; decide)).trans ?_))
  exact cmdNeed_ok (by rw [decide_eq_true hvmid, hpresent, hlow, hhigh]; rfl) _ _

theorem exec_windowMap_bad (hbad : 64 ≤ p.a0.toNat) : exec (.windowMap q p) s = .next (finishCmd q p true 5 0xE3 0 s) := by
  change execWindowMap q p s = _
  exact command_fail hev (fun _ => hhost) (if_pos (.inl hbad))

end Window
end Host

theorem bound_unbindQueue (v : Nat) : ((unbindQueue s v).queue v).bound = false := by
  unfold unbindQueue
  dsimp only
  rw [State.modQueue, queue_setQueue]

/-! ## Tides and translations (R224, R434) -/

theorem AMap.get?_dropWhile_le {α : Type} (m : AMap α) (k : Nat) : AMap.get? (m.dropWhile fun p => decide (p.1 ≤ k)) k = none := by
  induction m with
  | nil => rfl
  | cons r m ih =>
    rw [List.dropWhile_cons]
    split
    · exact ih
    · next h =>
      have hlt : k < r.1 := by simpa using h
      rw [AMap.get?, if_neg (Nat.ne_of_lt hlt), if_pos hlt]

/-- A key taken out is not found, whatever order the collection is in. -/
theorem AMap.get?_del {α : Type} (m : AMap α) (k : Nat) : AMap.get? (AMap.del m k) k = none := by
  induction m with
  | nil => rfl
  | cons r m ih =>
    rw [AMap.del]
    split
    · next h => rw [AMap.get?, if_neg (Nat.ne_of_lt h), if_pos h]
    · next hnlt =>
      split
      · exact AMap.get?_dropWhile_le m k
      · next hne => rw [AMap.get?, if_neg hne, if_neg hnlt, ih]

/-- The tide that TIDE.SET names. -/
def setTide (p : MPkt) : Tide := { base := p.a2.extractLsb' 21 34, size := p.a3.extractLsb' 32 16, p := p.a3.extractLsb' 48 16 }

/-- Two words written at a tenant's tide table, where they can be. -/
def putTide (v e : Nat) (s : State) (w0 w1 : Word) : State :=
  orElse (homePuts s (s.devAgent v 0) ((s.tenant v).args.tidet + w64 (16 * e)) [w0, w1]) s

theorem spares_putTide (v e : Nat) (s : State) (w0 w1 : Word) : spares s (putTide v e s w0 w1) := by
  unfold putTide orElse
  split
  · next h => exact spares_homePuts rfl h
  · exact spares_refl s

section Tide
variable (hev : nextPacket s q = some (.tideSet q p))
include hev

theorem exec_tideSet_other (hhost : isHostQ s q = false) (hne : p.a0.toNat ≠ (s.queue q).vmid) :
    exec (.tideSet q p) s = .next (finishCmd q p false 6 0xE2 0 s) := by
  change execTideSet q p s = _
  refine command_fail (h := false) hev nofun ?_
  exact ownVmid_of_other hhost hne

variable (hown : isHostQ s q = true ∨ p.a0.toNat = (s.queue q).vmid) (hlt : p.a0.toNat < 64)
  (hpresent : (s.tenant p.a0.toNat).present = true) (he : p.a1.toNat < 4096)
include hown hlt hpresent he

theorem exec_tideSet_no_period (hset : bitAt p.a3 0 = true) (hzero : (setTide p).p = 0#16) :
    exec (.tideSet q p) s = .next (finishCmd q p false 6 0xE3 0 s) := by
  change execTideSet q p s = _
  refine command_fail (h := false) hev nofun ?_
  refine (ownVmid_of_own hown hlt hpresent).trans ?_
  exact (if_neg (Nat.not_le.2 he)).trans ((if_pos hset).trans (if_pos (.inl hzero)))

theorem exec_tideSet_sets (hset : bitAt p.a3 0 = true) (hp : (setTide p).p ≠ 0#16)
    (hmeet : ((s.tenant p.a0.toNat).tides.any fun o => o.1 != p.a1.toNat && tidesMeet o.2 (setTide p)) = false) :
    ∃ z, exec (.tideSet q p) s = .next (finishCmd q p false 6 0 0 z)
      ∧ AMap.get? (z.tenant p.a0.toNat).tides p.a1.toNat = some (setTide p) := by
  have hno : ¬ ((setTide p).p = 0#16 ∨ ((s.tenant p.a0.toNat).tides.any fun o => o.1 != p.a1.toNat && tidesMeet o.2 (setTide p)) = true) := by
    rw [hmeet]
    exact not_or.2 ⟨hp, Bool.false_ne_true⟩
  refine ⟨putTide p.a0.toNat p.a1.toNat ((unstamp s p.a0.toNat p.a1.toNat).modTenant p.a0.toNat fun x =>
    { x with tides := AMap.set x.tides p.a1.toNat (setTide p) }) (p.a2 &&& 0x007FFFFFFFE00000#64) (p.a3 &&& 0xFFFFFFFF00000001#64), ?_, ?_⟩
  · change execTideSet q p s = _
    refine command_ok (h := false) hev nofun ?_
    refine (ownVmid_of_own hown hlt hpresent).trans ?_
    exact (if_neg (Nat.not_le.2 he)).trans ((if_pos hset).trans (if_neg hno))
  · rw [(spares_putTide ..).1, tenant_modTenant]
    exact AMap.get?_set_self _ _ _

theorem exec_tideSet_clears (hclear : bitAt p.a3 0 = false) :
    ∃ z, exec (.tideSet q p) s = .next (finishCmd q p false 6 0 0 z) ∧ AMap.get? (z.tenant p.a0.toNat).tides p.a1.toNat = none := by
  refine ⟨putTide p.a0.toNat p.a1.toNat ((unstamp s p.a0.toNat p.a1.toNat).modTenant p.a0.toNat fun x =>
    { x with tides := AMap.del x.tides p.a1.toNat }) 0#64 0#64, ?_, ?_⟩
  · change execTideSet q p s = _
    refine command_ok (h := false) hev nofun ?_
    refine (ownVmid_of_own hown hlt hpresent).trans ?_
    exact (if_neg (Nat.not_le.2 he)).trans (if_neg (by rw [hclear]; exact Bool.false_ne_true))
  · rw [(spares_putTide ..).1, tenant_modTenant]
    exact AMap.get?_del _ _

end Tide

/-- The entries of a tenant that TLB.SHOOT names: all, or those of an ASID, in a range. -/
def shootTlb (s : State) (p : MPkt) : State :=
  dropTlb s (fld p.a0 5 0)
    (fun e => e.vmid == fld p.a0 5 0 && (bitAt p.a0 6 || e.glob || e.asid == fld p.a0 31 16) && inRange p.a1 p.a2 (e.vpn * 2 ^ e.size) (2 ^ e.size))
    (fun l => l.vmid == fld p.a0 5 0 && (bitAt p.a0 6 || false || l.asid == fld p.a0 31 16) && inRange p.a1 p.a2 (l.va % 2 ^ 55) 64)

theorem exec_tlbShoot_drops (hev : nextPacket s q = some (.tlbShoot q p)) (hown : isHostQ s q = true ∨ fld p.a0 5 0 = (s.queue q).vmid)
    (hpresent : (s.tenant (fld p.a0 5 0)).present = true) :
    exec (.tlbShoot q p) s = .next (finishCmd q p false 7 0 0 (shootTlb s p)) := by
  have hlt : fld p.a0 5 0 < 64 := Nat.mod_lt _ (by decide)
  have hw : (w64 (fld p.a0 5 0)).toNat = fld p.a0 5 0 := by rw [w64, BitVec.toNat_ofNat]; omega
  change execTlbShoot q p s = _
  refine command_ok (h := false) hev nofun ?_
  refine ownVmid_of_own ?_ ?_ ?_ <;> rw [hw] <;> assumption

/-! ## Generations, units, power and time (R192, R447, R484, R486, R488, R489) -/

theorem stepTime_audit (cmd vmid ns st : Nat) (a0 a1 a2 : Word) :
    (stepTime (s.audit cmd q vmid a0 a1 a2 st) ns).mgmt.time.ns = ns
    ∧ (stepTime (s.audit cmd q vmid a0 a1 a2 st) ns).mgmt.auditN = s.mgmt.auditN + 1 :=
  ⟨rfl, rfl⟩

section Host
variable (hhost : isHostQ s q = true)
include hhost

theorem exec_genWrap_wraps (hev : nextPacket s q = some (.genWrap q p)) :
    exec (.genWrap q p) s = .next (finishCmd q p true 8 0 0 (wrapGens s)) := by
  change execGenWrap q p s = _
  exact command_ok hev (fun _ => hhost) rfl

section Fence
variable (hev : nextPacket s q = some (.fenceUnit q p))
include hev

theorem exec_fenceUnit_bad (hbad : ¬ (fenceOk (fld p.a0 2 0) p.a1.toNat && fld p.a0 63 4 == 0) = true) :
    exec (.fenceUnit q p) s = .next (finishCmd q p true 9 0xE3 0 s) := by
  change execFenceUnit q p s = _
  exact command_fail hev (fun _ => hhost) (cmdNeed_fail (Bool.eq_false_of_not_eq_true hbad) _ _)

theorem exec_fenceUnit_fences (hok : (fenceOk (fld p.a0 2 0) p.a1.toNat && fld p.a0 63 4 == 0) = true) :
    exec (.fenceUnit q p) s = .next (finishCmd q p true 9 0 0
      (if bitAt p.a0 3 then unfenceUnit s (fld p.a0 2 0) p.a1.toNat else fenceUnit s (fld p.a0 2 0) p.a1.toNat)) := by
  change execFenceUnit q p s = _
  exact command_ok hev (fun _ => hhost) (cmdNeed_ok hok _ _)

end Fence

section Island
variable (hev : nextPacket s q = some (.islandSet q p)) (hlt : p.a0.toNat < 1024)
include hev hlt

omit hhost hev in
theorem one_island : p.a0 ≠ 0xFFFF#64 := by
  rintro h
  rw [h] at hlt
  exact absurd hlt (by decide)

theorem exec_islandSet_sets (hmin : 350 ≤ p.a1.toNat) (hmax : p.a1.toNat ≤ 1200) (hstep : p.a1.toNat % 25 = 0) :
    exec (.islandSet q p) s = .next (finishCmd q p true 10 0 0
      ((s.modCore p.a0.toNat fun c => { c with ceiling := p.a1.toNat }).after (8 - s.clk % 8) (.islandFreqChange p.a0.toNat))) := by
  change execIslandSet q p s = _
  refine command_ok hev (fun _ => hhost) ((cmdNeed_ok ?_ _ _).trans ?_)
  · simp [hlt, hmin, hmax, hstep]
  · rw [if_neg (one_island hlt)]
    rfl

omit hlt in
theorem exec_islandSet_bad (hbad : p.a1.toNat < 350 ∨ 1200 < p.a1.toNat ∨ p.a1.toNat % 25 ≠ 0) :
    exec (.islandSet q p) s = .next (finishCmd q p true 10 0xE3 0 s) := by
  change execIslandSet q p s = _
  refine command_fail hev (fun _ => hhost) (cmdNeed_fail ?_ _ _)
  simp only [Bool.and_eq_false_iff, decide_eq_false_iff_not, beq_eq_false_iff_ne]
  omega

end Island

section Cap
variable (hev : nextPacket s q = some (.powerCap q p))
include hev

theorem exec_powerCap_sets (hmin : 400 ≤ p.a0.toNat) (hmax : p.a0.toNat ≤ 1600) :
    exec (.powerCap q p) s = .next (finishCmd q p true 11 0 0 (s.modMgmt fun m => { m with cap := p.a0.toNat })) := by
  change execPowerCap q p s = _
  exact command_ok hev (fun _ => hhost) (cmdNeed_ok (by rw [decide_eq_true hmin, decide_eq_true hmax]; rfl) _ _)

theorem exec_powerCap_bad (hbad : p.a0.toNat < 400 ∨ 1600 < p.a0.toNat) :
    exec (.powerCap q p) s = .next (finishCmd q p true 11 0xE3 0 s) := by
  change execPowerCap q p s = _
  refine command_fail hev (fun _ => hhost) (cmdNeed_fail ?_ _ _)
  simp only [Bool.and_eq_false_iff, decide_eq_false_iff_not]
  omega

end Cap

section Time
variable (hev : nextPacket s q = some (.timeSet q p))
include hev

/-- A step forward of the time, entered in the audit log. -/
theorem exec_timeSet_steps (hle : s.now ≤ p.a0.toNat) :
    exec (.timeSet q p) s = .next (finishCmd q p true 12 0 0
      (stepTime (s.audit 0xFE q (s.queue q).vmid p.a0 (w64 s.now) 0#64 0) p.a0.toNat)) := by
  change execTimeSet q p s = _
  exact command_ok hev (fun _ => hhost) (cmdNeed_ok (decide_eq_true hle) _ _)

theorem exec_timeSet_bad (hlt : p.a0.toNat < s.now) : exec (.timeSet q p) s = .next (finishCmd q p true 12 0xE3 0 s) := by
  change execTimeSet q p s = _
  exact command_fail hev (fun _ => hhost) (cmdNeed_fail (decide_eq_false (Nat.not_le.2 hlt)) _ _)

end Time

/-- The time base after TIME.CFG: its source, and the wait for a reference. -/
def cfgTime (s : State) (p : MPkt) : State :=
  (s.modMgmt fun m => { m with time := { m.time with src := p.a0.extractLsb' 0 2, near := 0, hold := false, lastRef := m.time.ns } }).after
    (s.clkUntil (s.now + 3000000000)) .timeHoldover

section TimeCfg
variable (hev : nextPacket s q = some (.timeCfg q p))
include hev

theorem exec_timeCfg_sets (hlt : p.a0.toNat < 3) :
    ∃ z, exec (.timeCfg q p) s = .next (finishCmd q p true 13 0 0 z) ∧ z.mgmt.time.src.toNat = p.a0.toNat ∧ z.mgmt.time.near = 0 := by
  refine ⟨cfgTime s p, ?_, ?_, rfl⟩
  · change execTimeCfg q p s = _
    exact command_ok hev (fun _ => hhost) (cmdNeed_ok (decide_eq_true hlt) _ _)
  change (p.a0.extractLsb' 0 2).toNat = _
  simp only [BitVec.extractLsb'_toNat, Nat.shiftRight_zero]
  omega

theorem exec_timeCfg_bad (hbad : 3 ≤ p.a0.toNat) : exec (.timeCfg q p) s = .next (finishCmd q p true 13 0xE3 0 s) := by
  change execTimeCfg q p s = _
  exact command_fail hev (fun _ => hhost) (cmdNeed_fail (decide_eq_false (Nat.not_lt.2 hbad)) _ _)

end TimeCfg
end Host

/-! ## Images, quotes and firmware (R480, R481) -/

theorem exec_genWrapComplete_wraps (h : s.mgmt.wrapping = true) : exec .genWrapComplete s = .next (wrapGens s) := by
  change Host.Outcome.next (if s.mgmt.wrapping then wrapGens s else s) = _
  rw [if_pos h]

theorem exec_genWrapComplete_idle (h : s.mgmt.wrapping = false) : exec .genWrapComplete s = .next s := by
  change Host.Outcome.next (if s.mgmt.wrapping then wrapGens s else s) = _
  rw [if_neg (by rw [h]; exact Bool.false_ne_true)]

section Image
variable {im ks sig k : List Byte} (hev : nextPacket s q = some (.imageVerify q p)) (him : cmdRead s q p.a0 p.a1.toNat = some (im, u))
include hev him

theorem exec_imageVerify_host (hhost : isHostQ s q = true) : exec (.imageVerify q p) s = .next (finishCmd q p false 14 0xE6 0 s) := by
  change execImageVerify q p s = _
  refine command_fail (h := false) hev nofun ?_
  rw [him]
  cases cmdRead_of_host hhost him
  exact if_pos hhost

/-- The digest of an image under the signature and the key that its tenant's list holds for it. -/
def signedOk (im sig k : List Byte) : Bool :=
  ecdsaOk (sha512 (signedBytes im)) (beNat (k.take 66)) (beNat ((k.drop 66).take 66)) (beNat ((sig.drop 8).take 66)) (beNat ((sig.drop 74).take 66))

/-- The tenant's measurement extended by an image's digest. -/
def measureImage (z : State) (v : Nat) (im : List Byte) : State :=
  z.modTenant v fun t => { t with mten := BitVec.ofNat 512 (bytesNat (sha512 (vecBytes 64 t.mten ++ sha512 (signedBytes im)))) }

variable (htenant : isHostQ u q = false)
  (hks : cmdRead u q (u.tenant (s.queue q).vmid).args.keys (144 * (u.tenant (s.queue q).vmid).args.keyn.toNat) = some (ks, z))
  (hsig : sigOf im = some sig)
  (hkey : findKey ks (bytesNat (sig.take 8)) (u.tenant (s.queue q).vmid).args.keyn.toNat = some k)
include htenant hks hsig hkey

theorem exec_imageVerify_bad (hbad : signedOk im sig k = false) :
    exec (.imageVerify q p) s = .next (finishCmd q p false 14 0xE6 0 s) := by
  change execImageVerify q p s = _
  refine command_fail (h := false) hev nofun ?_
  rw [him]
  dsimp only
  rw [if_neg (by rw [htenant]; exact Bool.false_ne_true), hks, hsig]
  dsimp only
  rw [hkey]
  exact if_neg (by rw [signedOk] at hbad; rw [hbad]; exact Bool.false_ne_true)

theorem exec_imageVerify_good (hgood : signedOk im sig k = true) :
    exec (.imageVerify q p) s = .next (finishCmd q p false 14 0 0 (measureImage z (s.queue q).vmid im)) := by
  change execImageVerify q p s = _
  refine command_ok (h := false) hev nofun ?_
  rw [him]
  dsimp only
  rw [if_neg (by rw [htenant]; exact Bool.false_ne_true), hks, hsig]
  dsimp only
  rw [hkey]
  exact if_pos hgood

end Image

/-- The 448 bytes of a quote over a nonce. -/
def quoteBytes (u : State) (q : Nat) (nonce : List Byte) : List Byte :=
  fixLen 448 (quoteBody u (u.queue q).vmid nonce ++ fixLen 132 (Config.identitySign u.freeCtr (sha512 (quoteBody u (u.queue q).vmid nonce))))

theorem exec_attestQuote_quotes {nonce : List Byte} {w : State} (hev : nextPacket s q = some (.attestQuote q p))
    (hnonce : cmdRead s q p.a0 64 = some (nonce, u))
    (hw : cmdWrite { u with freeCtr := u.freeCtr + 1 } q p.resp (quoteBytes u q nonce) = some w) (hresp : p.resp ≠ 0#64) :
    exec (.attestQuote q p) s = .next (finishCmd q p false 15 0 0 w) := by
  change execAttestQuote q p s = _
  refine command_ok (h := false) hev nofun ?_
  rw [hnonce]
  exact respond_of_written hresp hw

section Host
variable (hhost : isHostQ s q = true)
include hhost

section Firmware
variable {pk : List Byte} (hev : nextPacket s q = some (.fwUpdate q p)) (hpk : cmdRead s q p.a0 p.a1.toNat = some (pk, u))
include hev hpk

theorem exec_fwUpdate_unsigned (hbad : Config.packageSigned pk = false) : exec (.fwUpdate q p) s = .next (finishCmd q p true 16 0xE6 0 s) := by
  change execFwUpdate q p s = _
  refine command_fail hev (fun _ => hhost) ?_
  rw [hpk]
  exact if_pos (by rw [hbad]; rfl)

theorem exec_fwUpdate_rollback (hgood : Config.packageSigned pk = true) (hold : Config.packageVersion pk ≤ u.mgmt.rollback) :
    exec (.fwUpdate q p) s = .next (finishCmd q p true 16 0xE7 0 s) := by
  change execFwUpdate q p s = _
  refine command_fail hev (fun _ => hhost) ?_
  rw [hpk]
  exact (if_neg (by rw [hgood]; exact Bool.false_ne_true)).trans (if_pos hold)

theorem exec_fwUpdate_flashes (hgood : Config.packageSigned pk = true) (hnew : u.mgmt.rollback < Config.packageVersion pk) :
    exec (.fwUpdate q p) s = .next (finishCmd q p true 16 0 0
      (u.modMgmt fun m => { m with flash := pk, flashVer := some (Config.packageVersion pk) })) := by
  change execFwUpdate q p s = _
  refine command_ok hev (fun _ => hhost) ?_
  rw [hpk]
  exact (if_neg (by rw [hgood]; exact Bool.false_ne_true)).trans (if_neg (by simpa using hnew))

end Firmware
end Host

/-! ## Debugging, information, counters and traces (R478, R482, R487) -/

/-- What an instruction that answers with `bs` does by RESP: nothing where it is 0, else the write, else 0xE8. -/
def answers (s t : State) (q : Nat) (p : MPkt) (i : Instr) (cmd : Nat) (h : Bool) (bs : List Byte) : Prop :=
  (p.resp = 0#64 → exec i s = .next (finishCmd q p h cmd 0 0 s))
  ∧ (p.resp ≠ 0#64 → cmdWrite s q p.resp bs = none → exec i s = .next (finishCmd q p h cmd 0xE8 0 s))
  ∧ (p.resp ≠ 0#64 → cmdWrite s q p.resp bs = some t → exec i s = .next (finishCmd q p h cmd 0 0 t))

theorem command_respond {ev : Ev} {cmd : Nat} {h : Bool} {run : State → Cmd} {bs : List Byte} (hev : nextPacket s q = some ev)
    (hpriv : h = true → isHostQ s q = true) (hrun : run s = respond s q p bs 0) :
    (p.resp = 0#64 → command s q ev cmd h p run = .next (finishCmd q p h cmd 0 0 s))
    ∧ (p.resp ≠ 0#64 → cmdWrite s q p.resp bs = none → command s q ev cmd h p run = .next (finishCmd q p h cmd 0xE8 0 s))
    ∧ (p.resp ≠ 0#64 → cmdWrite s q p.resp bs = some t → command s q ev cmd h p run = .next (finishCmd q p h cmd 0 0 t)) :=
  ⟨fun hresp => command_ok hev hpriv (hrun.trans (respond_of_none hresp)),
    fun hresp hw => command_fail hev hpriv (hrun.trans (respond_of_refused hresp hw)),
    fun hresp hw => command_ok hev hpriv (hrun.trans (respond_of_written hresp hw))⟩

theorem answers_debugRead (hev : nextPacket s q = some (.debugRead q p)) (hhost : isHostQ s q = true)
    (hobj : (debugObj p.a0).isSome) :
    answers s t q p (.debugRead q p) 17 true
      ((debugObj p.a0).elim [] fun o => (debugRead s o).1 ++ natBytes 8 (debugRead s o).2.toNat) := by
  obtain ⟨o, ho⟩ := Option.isSome_iff_exists.1 hobj
  have hexec : exec (.debugRead q p) s = execDebugRead q p s := rfl
  rw [answers, hexec]
  delta execDebugRead
  refine command_respond hev (fun _ => hhost) ?_
  rw [ho]
  rfl

theorem answers_infoRead (hev : nextPacket s q = some (.infoRead q p)) : answers s t q p (.infoRead q p) 19 false (infoBlock s) := by
  have hexec : exec (.infoRead q p) s = execInfoRead q p s := rfl
  rw [answers, hexec]
  delta execInfoRead
  exact command_respond hev nofun rfl

theorem answers_countRead (hev : nextPacket s q = some (.countRead q p))
    (hown : isHostQ s q = true ∨ p.a0.toNat = (s.queue q).vmid) (hlt : p.a0.toNat < 64) (hpresent : (s.tenant p.a0.toNat).present = true)
    (hce : p.a1.toNat ≠ 0x20) (hue : p.a1.toNat ≠ 0x21) (hcode : (counter s p.a0.toNat p.a1.toNat).isSome) :
    answers s t q p (.countRead q p) 20 false (natBytes 8 ((counter s p.a0.toNat p.a1.toNat).getD 0)) := by
  obtain ⟨n, hn⟩ := Option.isSome_iff_exists.1 hcode
  have hexec : exec (.countRead q p) s = execCountRead q p s := rfl
  rw [answers, hexec]
  delta execCountRead
  refine command_respond hev nofun ((if_neg (not_or.2 ⟨hce, hue⟩)).trans ((ownVmid_of_own hown hlt hpresent).trans ?_))
  rw [hn]
  rfl

theorem exec_traceCfg_sets (hev : nextPacket s q = some (.traceCfg q p)) (hown : isHostQ s q = true ∨ p.a0.toNat = (s.queue q).vmid)
    (hlt : p.a0.toNat < 64) (hpresent : (s.tenant p.a0.toNat).present = true) :
    exec (.traceCfg q p) s = .next (finishCmd q p false 21 0 0 (s.modTenant p.a0.toNat fun t => { t with trmask := p.a1 })) := by
  change execTraceCfg q p s = _
  refine command_ok (h := false) hev nofun ?_
  exact ownVmid_of_own hown hlt hpresent

theorem exec_badcmd_bad {c : Byte} (hev : nextPacket s q = some (.badcmd q c p)) :
    exec (.badcmd q c p) s = .next (finishCmd q p false c.toNat 0xE1 0 s) := by
  change execBadcmd q c p s = _
  exact command_fail (h := false) hev nofun rfl

section Host
variable (hhost : isHostQ s q = true)
include hhost

section Debug
variable {o : DebugObj} {bs : List Byte} (hev : nextPacket s q = some (.debugWrite q p)) (hobj : debugObj p.a0 = some o)
  (hbs : cmdRead s q p.a1 64 = some (bs, u))
include hev hobj hbs

theorem exec_debugWrite_writes (hle : p.a2.toNat ≤ 0xFFFE) :
    exec (.debugWrite q p) s = .next (finishCmd q p true 18 0 0 (debugWrite u o bs (p.a2.extractLsb' 0 16))) := by
  change execDebugWrite q p s = _
  refine command_ok hev (fun _ => hhost) ?_
  rw [hobj, hbs]
  exact cmdNeed_ok (decide_eq_true hle) _ _

theorem exec_debugWrite_bad (hlt : 0xFFFE < p.a2.toNat) : exec (.debugWrite q p) s = .next (finishCmd q p true 18 0xE3 0 s) := by
  change execDebugWrite q p s = _
  refine command_fail hev (fun _ => hhost) ?_
  rw [hobj, hbs]
  exact cmdNeed_fail (decide_eq_false (Nat.not_le.2 hlt)) _ _

end Debug

/-- The region that REGION_SWAP names. -/
def swapKey (p : MPkt) : RKey := { vmid := p.a0.toNat, ridx := p.a1.toNat }

section Swap
variable (hev : nextPacket s q = some (.regionSwap q p))
include hev

section InRange
variable (hv : p.a0.toNat < 64) (hr : p.a1.toNat < 256)
include hv hr

theorem exec_regionSwap_saves (hop : p.a2 = 0#64) (hst : (s.region (swapKey p)).st = 3) (hwave : (s.region (swapKey p)).wave = none) :
    exec (.regionSwap q p) s = .next (finishCmd q p true 22 0 0 (startWave s (swapKey p) false)) := by
  change execRegionSwap q p s = _
  refine command_ok hev (fun _ => hhost) ((if_neg (not_or.2 ⟨Nat.not_le.2 hv, Nat.not_le.2 hr⟩)).trans (if_pos ⟨hop, hst, ?_⟩))
  exact Option.isNone_iff_eq_none.2 hwave

theorem exec_regionSwap_restores (hop : p.a2 = 1#64) (hst : (s.region (swapKey p)).st = 4) :
    exec (.regionSwap q p) s = .next (finishCmd q p true 22 0 0
      (s.askPlacer (handleQuad (s.region (swapKey p)).handle) (restoreReq s (swapKey p)))) := by
  change execRegionSwap q p s = _
  refine command_ok hev (fun _ => hhost) ((if_neg (not_or.2 ⟨Nat.not_le.2 hv, Nat.not_le.2 hr⟩)).trans
    ((if_neg ?_).trans (if_pos ⟨hop, hst⟩)))
  rintro ⟨hzero, -⟩
  rw [hop] at hzero
  exact absurd hzero (by decide)

end InRange

theorem exec_regionSwap_bad (hbad : 64 ≤ p.a0.toNat ∨ 256 ≤ p.a1.toNat ∨ 2 ≤ p.a2.toNat) :
    exec (.regionSwap q p) s = .next (finishCmd q p true 22 0xE3 0 s) := by
  have hop : 2 ≤ p.a2.toNat → p.a2 ≠ 0#64 ∧ p.a2 ≠ 1#64 := fun h =>
    ⟨fun e => absurd (e ▸ h) (by decide), fun e => absurd (e ▸ h) (by decide)⟩
  change execRegionSwap q p s = _
  refine command_fail hev (fun _ => hhost) ?_
  dsimp only
  by_cases hrange : 64 ≤ p.a0.toNat ∨ 256 ≤ p.a1.toNat
  · exact if_pos hrange
  · obtain ⟨hnz, hno⟩ := hop (by tauto)
    exact (if_neg hrange).trans ((if_neg fun h => hnz h.1).trans (if_neg fun h => hno h.1))

end Swap
end Host

/-! ## The packet that is next, and the commands marked H (R474) -/

theorem command_marked {ev : Ev} {cmd : Nat} {run : State → Cmd} :
    (nextPacket s q ≠ some ev → command s q ev cmd true p run = .next s)
    ∧ (nextPacket s q = some ev → isHostQ s q = false → command s q ev cmd true p run = .next (finishCmd q p true cmd 0xE2 0 s)) :=
  ⟨command_of_other, command_nopriv⟩

theorem exec_marked : ∀ e ∈ [(Ev.tenantCreate q p, Instr.tenantCreate q p, 1), (.tenantDestroy q p, .tenantDestroy q p, 2),
      (.queueBind q p, .queueBind q p, 3), (.queueUnbind q p, .queueUnbind q p, 4), (.windowMap q p, .windowMap q p, 5),
      (.genWrap q p, .genWrap q p, 8), (.fenceUnit q p, .fenceUnit q p, 9), (.islandSet q p, .islandSet q p, 10),
      (.powerCap q p, .powerCap q p, 11), (.timeSet q p, .timeSet q p, 12), (.timeCfg q p, .timeCfg q p, 13),
      (.fwUpdate q p, .fwUpdate q p, 16), (.debugRead q p, .debugRead q p, 17), (.debugWrite q p, .debugWrite q p, 18),
      (.regionSwap q p, .regionSwap q p, 22)],
    (nextPacket s q ≠ some e.1 → exec e.2.1 s = .next s)
    ∧ (nextPacket s q = some e.1 → isHostQ s q = false → exec e.2.1 s = .next (finishCmd q p true e.2.2 0xE2 0 s)) := by
  simp only [List.forall_mem_cons]
  refine ⟨?_, ?_, ?_, ?_, ?_, ?_, ?_, ?_, ?_, ?_, ?_, ?_, ?_, ?_, ?_, List.forall_mem_nil _⟩
  · change (_ → execTenantCreate q p s = _) ∧ (_ → _ → execTenantCreate q p s = _)
    exact command_marked
  · change (_ → execTenantDestroy q p s = _) ∧ (_ → _ → execTenantDestroy q p s = _)
    exact command_marked
  · change (_ → execQueueBind q p s = _) ∧ (_ → _ → execQueueBind q p s = _)
    exact command_marked
  · change (_ → execQueueUnbind q p s = _) ∧ (_ → _ → execQueueUnbind q p s = _)
    exact command_marked
  · change (_ → execWindowMap q p s = _) ∧ (_ → _ → execWindowMap q p s = _)
    exact command_marked
  · change (_ → execGenWrap q p s = _) ∧ (_ → _ → execGenWrap q p s = _)
    exact command_marked
  · change (_ → execFenceUnit q p s = _) ∧ (_ → _ → execFenceUnit q p s = _)
    exact command_marked
  · change (_ → execIslandSet q p s = _) ∧ (_ → _ → execIslandSet q p s = _)
    exact command_marked
  · change (_ → execPowerCap q p s = _) ∧ (_ → _ → execPowerCap q p s = _)
    exact command_marked
  · change (_ → execTimeSet q p s = _) ∧ (_ → _ → execTimeSet q p s = _)
    exact command_marked
  · change (_ → execTimeCfg q p s = _) ∧ (_ → _ → execTimeCfg q p s = _)
    exact command_marked
  · change (_ → execFwUpdate q p s = _) ∧ (_ → _ → execFwUpdate q p s = _)
    exact command_marked
  · change (_ → execDebugRead q p s = _) ∧ (_ → _ → execDebugRead q p s = _)
    exact command_marked
  · change (_ → execDebugWrite q p s = _) ∧ (_ → _ → execDebugWrite q p s = _)
    exact command_marked
  · change (_ → execRegionSwap q p s = _) ∧ (_ → _ → execRegionSwap q p s = _)
    exact command_marked

theorem exec_unmarked : ∀ e ∈ [(Ev.tideSet q p, Instr.tideSet q p, 6), (.tlbShoot q p, .tlbShoot q p, 7),
      (.imageVerify q p, .imageVerify q p, 14), (.attestQuote q p, .attestQuote q p, 15), (.infoRead q p, .infoRead q p, 19),
      (.countRead q p, .countRead q p, 20), (.traceCfg q p, .traceCfg q p, 21)],
    nextPacket s q ≠ some e.1 → exec e.2.1 s = .next s := by
  simp only [List.forall_mem_cons]
  refine ⟨?_, ?_, ?_, ?_, ?_, ?_, ?_, List.forall_mem_nil _⟩
  · change _ → execTideSet q p s = _
    exact command_of_other
  · change _ → execTlbShoot q p s = _
    exact command_of_other
  · change _ → execImageVerify q p s = _
    exact command_of_other
  · change _ → execAttestQuote q p s = _
    exact command_of_other
  · change _ → execInfoRead q p s = _
    exact command_of_other
  · change _ → execCountRead q p s = _
    exact command_of_other
  · change _ → execTraceCfg q p s = _
    exact command_of_other

end Sys2Proof.Machine

open Sys2Proof Sys2Proof.Machine

/-- Settles O52: each command by the lemmas of its kind, the tides of TIDE.SET because the write of its table leaves
them. Choices of the model in it: a busy queue, FENCE.UNIT's A0[63:4] and bits no field of QUEUE.BIND has are BADARG
(log 70); a tenant's areas are tried by the walks of its own tables (log 29); IMAGE.VERIFY on a host queue (log 57);
GEN.WRAP (log 52). -/
theorem commands : Obligations.Commands := by
  intro s t q p fin here host ends bad v own
  refine ⟨exec_marked, exec_unmarked, ?tenantCreate, ?tenantDestroy, ?queueBind, ?queueUnbind, ?windowMap, ?tideSet, ?tideSetOther,
    ?tlbShoot, fun hev hhost => exec_genWrap_wraps hhost hev, exec_genWrapComplete_wraps, exec_genWrapComplete_idle, ?fenceUnit,
    ?islandSet, ?powerCap, ?timeSet, ?timeCfg, ?imageVerify, ?attestQuote, ?fwUpdate, ?answers, ?debugWrite, ?traceCfg, ?regionSwap,
    fun c hev => exec_badcmd_bad hev⟩
  case tenantCreate =>
    intro hev hhost bs g u hread
    refine ⟨exec_tenantCreate_bad hev hhost hread, exec_tenantCreate_waits hev hhost hread, fun hok hgen =>
      ⟨_, exec_tenantCreate_creates hev hhost hread hok hgen, ?_, fun k hk => ?_⟩⟩
    · rw [tenant_createTenant, tenant_setTenant]
    · rw [tenant_createTenant, tenant_setTenant_ne _ _ hk]
  case tenantDestroy =>
    exact fun hev hhost => ⟨fun hlt hpresent => ⟨exec_tenantDestroy_destroys hhost hev hlt hpresent, tenant_destroyTenant _⟩,
      exec_tenantDestroy_bad hhost hev⟩
  case queueBind =>
    exact fun hev hhost => ⟨exec_queueBind_bad hhost hev, exec_queueBind_busy hhost hev,
      fun _ _ hok hfree hread hgen => exec_queueBind_waits hhost hev hok hfree hread hgen,
      fun _ _ _ hok hfree hread hgen => exec_queueBind_binds hhost hev hok hfree hread hgen⟩
  case queueUnbind =>
    exact fun hev hhost => ⟨fun hlt hbound hne => ⟨exec_queueUnbind_unbinds hhost hev hlt hbound hne, bound_unbindQueue _⟩,
      exec_queueUnbind_bad hhost hev⟩
  case windowMap =>
    exact fun hev hhost => ⟨exec_windowMap_unmaps hhost hev, exec_windowMap_maps hhost hev, exec_windowMap_bad hhost hev⟩
  case tideSet =>
    rintro hev ⟨hown, hlt, hpresent⟩ he
    refine ⟨exec_tideSet_no_period hev hown hlt hpresent he, fun hor => ?_⟩
    cases hset : bitAt p.a3 0 with
    | true =>
      obtain ⟨hp, hmeet⟩ := hor.resolve_left (by rw [hset]; exact Bool.noConfusion)
      exact exec_tideSet_sets hev hown hlt hpresent he hset hp hmeet
    | false => exact exec_tideSet_clears hev hown hlt hpresent he hset
  case tideSetOther => exact exec_tideSet_other
  case tlbShoot => exact exec_tlbShoot_drops
  case fenceUnit => exact fun hev hhost => ⟨exec_fenceUnit_bad hhost hev, exec_fenceUnit_fences hhost hev⟩
  case islandSet => exact fun hev hhost hlt => ⟨exec_islandSet_sets hhost hev hlt, exec_islandSet_bad hhost hev⟩
  case powerCap => exact fun hev hhost => ⟨exec_powerCap_sets hhost hev, exec_powerCap_bad hhost hev⟩
  case timeSet =>
    exact fun hev hhost => ⟨fun hle => ⟨_, exec_timeSet_steps hhost hev hle, stepTime_audit _ _ _ _ _ _ _⟩, exec_timeSet_bad hhost hev⟩
  case timeCfg => exact fun hev hhost => ⟨exec_timeCfg_sets hhost hev, exec_timeCfg_bad hhost hev⟩
  case imageVerify =>
    exact fun hev im u him => ⟨exec_imageVerify_host hev him, fun _ ks sig k z htenant hks hsig hkey =>
      ⟨exec_imageVerify_bad hev him htenant hks hsig hkey, exec_imageVerify_good hev him htenant hks hsig hkey⟩⟩
  case attestQuote => exact fun hev nonce u w hnonce hw hresp => exec_attestQuote_quotes hev hnonce hw hresp
  case fwUpdate =>
    exact fun hev hhost pk u hpk => ⟨exec_fwUpdate_unsigned hhost hev hpk, exec_fwUpdate_rollback hhost hev hpk,
      exec_fwUpdate_flashes hhost hev hpk⟩
  case answers =>
    intro i e cmd h bs hmem hev hpriv hobj hcount
    simp only [List.mem_cons, List.not_mem_nil, or_false, Prod.mk.injEq] at hmem
    obtain ⟨rfl, rfl, rfl, rfl, rfl⟩ | ⟨rfl, rfl, rfl, rfl, rfl⟩ | ⟨rfl, rfl, rfl, rfl, rfl⟩ := hmem
    · exact answers_debugRead hev (hpriv rfl) (hobj rfl)
    · exact answers_infoRead hev
    · obtain ⟨⟨hown, hlt, hpresent⟩, hce, hue, hcode⟩ := hcount rfl
      exact answers_countRead hev hown hlt hpresent hce hue hcode
  case debugWrite =>
    exact fun hev hhost o bs u ho hbs => ⟨exec_debugWrite_writes hhost hev ho hbs, exec_debugWrite_bad hhost hev ho hbs⟩
  case traceCfg =>
    rintro hev ⟨hown, hlt, hpresent⟩
    exact exec_traceCfg_sets hev hown hlt hpresent
  case regionSwap =>
    exact fun hev hhost => ⟨fun hv hr => exec_regionSwap_saves hhost hev hv hr, fun hv hr => exec_regionSwap_restores hhost hev hv hr,
      exec_regionSwap_bad hhost hev⟩
end

section
/-! Power, heat, the time base and reset (R447, R483-R486, R489, R513-R516): O53. -/

namespace Sys2Proof.Machine

variable {s t u : State}

/-! ## Islands (R488, R489, R514, R515) -/

theorem spares_settleIsland (s : State) (i : Nat) : spares s (settleIsland s i) := spares_modCore _ _ _

theorem spares_mgmtTrace (s : State) (code : Nat) (a b : Word) : spares s (mgmtTrace s code a b) :=
  spares_foldl (fun _ _ => spares_trace _ _ _ _ _ _ _) _ _

theorem spares_capIsland (s : State) (i : Nat) : spares s (capIsland s i) := by
  unfold capIsland
  dsimp only
  split
  · exact spares_settleIsland _ _
  · exact spares_trans (spares_settleIsland _ _) (spares_mgmtTrace _ _ _ _)

theorem spares_capMhz (s : State) (c : AMap Nat) : spares s (s.modMgmt fun m => { m with capMhz := c }) := spares_of_eq rfl rfl rfl

theorem spares_hotMhz (s : State) (c : AMap Nat) : spares s (s.modMgmt fun m => { m with hotMhz := c }) := spares_of_eq rfl rfl rfl

theorem spares_capLower (s : State) (i : Nat) : spares s (capLower s i) := by
  unfold capLower
  dsimp only
  split
  · exact spares_refl s
  · exact spares_trans (spares_capMhz s _) (spares_capIsland _ _)

theorem spares_capRaise (s : State) (i : Nat) : spares s (capRaise s i) := by
  unfold capRaise
  dsimp only
  split
  · exact spares_refl s
  · exact spares_trans (spares_capMhz s _) (spares_capIsland _ _)

theorem spares_heatIsland (s : State) (mC : Int) (i : Nat) : spares s (heatIsland s mC i) := by
  have hput : ∀ n : Nat, spares s (settleIsland (s.modMgmt fun m => { m with hotMhz := AMap.set m.hotMhz i n }) i) := fun n =>
    spares_trans (spares_hotMhz s _) (spares_settleIsland _ _)
  unfold heatIsland
  dsimp only
  split
  · split
    · exact spares_refl s
    · exact hput _
  · split
    · exact hput _
    · exact spares_refl s

theorem spares_dieHot (s : State) (old : List Int) (k : Nat) : spares s (dieHot s old k) := by
  unfold dieHot
  dsimp only
  split
  · exact spares_mgmtTrace _ _ _ _
  · exact spares_refl s

/-! ## Samples of power and heat (R489, R514, R515) -/

/-- The sample taken, before anything is done about it. -/
def readSample (s : State) (mw : Nat) (temps : List Int) : State :=
  s.modMgmt fun m => { m with power := (m.power ++ [mw]).drop (m.power.length - 9), temps := temps }

/-- The cap applied to what the samples average. -/
def applyCap (s : State) : State :=
  if 1000 * s.mgmt.cap < powerAverage s.mgmt then (List.range 1024).foldl capLower s
  else if powerAverage s.mgmt * 10 < 1000 * s.mgmt.cap * 9 then (List.range 1024).foldl capRaise s
  else s

theorem spares_applyCap (s : State) : spares s (applyCap s) := by
  unfold applyCap
  split
  · exact spares_foldl spares_capLower _ _
  · split
    · exact spares_foldl spares_capRaise _ _
    · exact spares_refl s

/-- The heat of the dies: its events, and its islands. -/
def applyHeat (s : State) (old temps : List Int) : State :=
  (List.range 1024).foldl (fun s i => heatIsland s (temps.getD (i / 256) 0) i) ((List.range 4).foldl (fun s k => dieHot s old k) s)

theorem spares_applyHeat (s : State) (old temps : List Int) : spares s (applyHeat s old temps) :=
  spares_trans (spares_foldl (fun s k => spares_dieHot s old k) _ _)
    (spares_foldl (fun s i => spares_heatIsland s (temps.getD (i / 256) 0) i) _ _)

theorem exec_powerSample_hot {mw : Nat} {temps : List Int} (hhot : temps.any (fun t => decide (105000 ≤ t)) = true) :
    exec (.powerSample mw temps) s = .next (powerLost s) := by
  change execPowerSample mw temps s = _
  rw [execPowerSample]
  exact if_pos hhot

theorem exec_powerSample_taken {mw : Nat} {temps : List Int} (hcool : temps.any (fun t => decide (105000 ≤ t)) = false) :
    exec (.powerSample mw temps) s = .next (applyHeat (applyCap (readSample s mw temps)) s.mgmt.temps temps) := by
  change execPowerSample mw temps s = _
  rw [execPowerSample]
  exact if_neg (by rw [hcool]; exact Bool.false_ne_true)

theorem sample_kept (s : State) (mw : Nat) (temps : List Int) :
    (applyHeat (applyCap (readSample s mw temps)) s.mgmt.temps temps).mgmt.temps = temps
    ∧ (applyHeat (applyCap (readSample s mw temps)) s.mgmt.temps temps).mgmt.power = (s.mgmt.power ++ [mw]).drop (s.mgmt.power.length - 9) := by
  obtain ⟨-, htemps, hpower⟩ := spares_trans (spares_applyCap (readSample s mw temps)) (spares_applyHeat _ s.mgmt.temps temps)
  exact ⟨htemps, hpower⟩

/-! ## The time base's reference (R484-R486) -/

theorem exec_ptmExchange_samples {x root w : Word} (hsrc : s.mgmt.time.src = 1#2) (hpair : s.mgmt.time.tsync = some (root, w)) :
    exec (.ptmExchange x) s = .next (refSample s ((w.toNat : Int) + x.toNat - root.toNat)) := by
  change execPtmExchange x s = _
  rw [execPtmExchange, hsrc, hpair]
  rfl

theorem exec_ptmExchange_idle {x : Word} (hidle : s.mgmt.time.src ≠ 1#2 ∨ s.mgmt.time.tsync = none) :
    exec (.ptmExchange x) s = .next s := by
  change execPtmExchange x s = _
  rw [execPtmExchange]
  split
  · next hsrc hpair =>
    rcases hidle with h | h
    · exact absurd hsrc h
    · rw [h] at hpair; cases hpair
  · rfl

theorem exec_ppsEdge_unnamed (htod : s.mgmt.time.tod = none) : exec .ppsEdge s = .next s := by
  change execPpsEdge s = _
  rw [execPpsEdge, htod]

theorem exec_ppsEdge_named {sec : Nat} (htod : s.mgmt.time.tod = some sec) :
    ∃ u, exec .ppsEdge s = .next u ∧ u.mgmt.time.tod = none
      ∧ (s.mgmt.time.src = 2#2 → u.mgmt.time.offs = 1000000000 * (sec : Int) - s.now)
      ∧ (s.mgmt.time.src ≠ 2#2 → u.mgmt.time.offs = s.mgmt.time.offs) := by
  have hexec : exec .ppsEdge s = execPpsEdge s := rfl
  rw [hexec, execPpsEdge, htod]
  dsimp only
  by_cases hsrc : s.mgmt.time.src = 2#2
  · rw [if_pos hsrc]
    exact ⟨_, rfl, rfl, fun _ => rfl, fun h => absurd hsrc h⟩
  · rw [if_neg hsrc]
    exact ⟨_, rfl, rfl, fun h => absurd h hsrc, fun _ => rfl⟩

/-- What a message of the twelve bytes asks: the valid bit and the sum. -/
theorem exec_todMessage (b0 b1 b2 b3 b4 b5 b6 b7 b8 ck : Byte) :
    exec (.todMessage ([0xA5#8, 0x5A#8] ++ [b0, b1, b2, b3, b4, b5, b6, b7] ++ [b8, ck])) s =
      if ck = b0 + b1 + b2 + b3 + b4 + b5 + b6 + b7 + b8 ∧ b8.getLsbD 0 = true then
        .next (s.modMgmt fun m => { m with time := { m.time with tod := some (bytesNat [b0, b1, b2, b3, b4, b5, b6, b7]) } })
      else .next s := by
  have hexec : ∀ bs, exec (.todMessage bs) s = execTodMessage bs s := fun _ => rfl
  rw [hexec, execTodMessage]
  simp [bitAt]

theorem exec_timeHoldover_holds (hlate : s.mgmt.time.lastRef + 3000000000 ≤ s.now) :
    exec .timeHoldover s = .next (s.modMgmt fun m => { m with time := { m.time with hold := true } }) := by
  change execTimeHoldover s = _
  exact if_pos hlate

theorem exec_timeHoldover_early (hearly : s.now < s.mgmt.time.lastRef + 2999000000) : exec .timeHoldover s = .next s := by
  change execTimeHoldover s = _
  exact (if_neg (by omega)).trans (if_neg (by omega))

end Sys2Proof.Machine

open Sys2Proof Sys2Proof.Machine

/-- Settles O53: an island, a sample, the time base and reset by their own steps; that nothing done about a sample changes
its readings is `spares`. Choices of the model in it: a reset leaves CXL and host memory 0 too, at once (logs 3 and 67),
HOLD comes 3 s after the last reference whatever its source (log 46), and the readings are arguments of the events
(log 45). -/
theorem powerTimeReset : Obligations.PowerTimeReset := by
  intro s
  refine ⟨fun _ => rfl, ?hot, ?taken, rfl, rfl, rfl, ?ptm, fun _ => exec_ptmExchange_idle, exec_ppsEdge_unnamed,
    fun _ => exec_ppsEdge_named, ?message, exec_timeHoldover_holds, exec_timeHoldover_early, ?reset, fun _ => rfl, fun _ => rfl⟩
  case hot =>
    intro mw a b c d h
    exact exec_powerSample_hot (by simpa using h)
  case taken =>
    intro mw a b c d ha hb hc hd
    exact ⟨_, exec_powerSample_taken (by simp [ha, hb, hc, hd]), sample_kept s mw _⟩
  case ptm => exact fun x root w hsrc hpair => ⟨_, exec_ptmExchange_samples hsrc hpair, rfl, rfl, rfl, rfl⟩
  case message =>
    intro b0 b1 b2 b3 b4 b5 b6 b7 b8 ck body
    have hexec := exec_todMessage (s := s) b0 b1 b2 b3 b4 b5 b6 b7 b8 ck
    refine ⟨fun hvalid hsum => ⟨_, hexec.trans (if_pos ⟨hsum, hvalid⟩), rfl⟩, fun hbad => hexec.trans (if_neg ?_)⟩
    rintro ⟨hsum, hvalid⟩
    rcases hbad with h | h
    · rw [h] at hvalid; cases hvalid
    · exact h hsum
  case reset =>
    intro i hi
    simp only [List.mem_cons, List.not_mem_nil, or_false] at hi
    have hexec : exec i s = .next (resetOf s) := by rcases hi with rfl | rfl <;> rfl
    exact ⟨_, hexec, rfl, rfl, rfl, rfl, rfl, rfl, rfl, rfl, rfl, rfl, rfl, rfl, rfl, rfl, rfl, rfl, rfl⟩
end
